-- ==== Sys2Proof/Word.lean ====
section
/-! DEFINITION. The plain word types of the SH-7440 model. Everything the manual treats as bits (registers, tokens, event
words, memory bytes) is a bit vector; counts, indexes, instants and addresses used as keys are natural numbers. -/

namespace Sys2Proof

/-- One byte of a memory, a frame, a message or a device-defined structure (R10). -/
abbrev Byte := BitVec 8

/-- A tag of an iteration (R45). -/
abbrev Tag := BitVec 16

/-- A binary32 code, or another 32-bit word. -/
abbrev Word32 := BitVec 32

/-- A register (R454), or another 64-bit word. -/
abbrev Word64 := BitVec 64

/-- The 64-byte PAYLOAD of a token, a vault line or an event word; byte 0 lies in bits [7:0] (R45). -/
abbrev Payload := BitVec 512

/-- A sparse table: key and value pairs with strictly rising keys; a key that is not listed holds the table's default. -/
abbrev Store (α : Type) := List (Nat × α)

end Sys2Proof
end

