-- ==== Sys2Proof/Syntax.lean ====
section
/-! DEFINITION. The commands the block takes (one constructor of `Instr` per row of spec/opcode_table.json) and the data
they carry: register accesses, received frames and packets, Kwanan messages, and binaries as the loader reads them. -/

namespace Sys2Proof

/-! ### Who accesses a register, and through which window -/

/-- The two views of a register page (R12, R453). -/
inductive View where
  | priv
  | unpriv
  deriving DecidableEq, Repr

/-- The writer of a register: a firmware component or a Kwanan session (R476, R478). -/
inductive Who where
  | firmware
  | session (n : Nat)
  deriving DecidableEq, Repr

/-- One register access: the view it goes through and who makes it. -/
structure Access where
  view : View
  who : Who
  deriving DecidableEq, Repr

/-! ### Stalls -/

/-- A unit that can hold an overdue item (R82), the replay reader (R352), or the refresh of a hot vault (R407). -/
inductive StallUnit where
  | cell (n : Nat)
  | vault (m : Nat)
  | ctx (m : Nat)
  | hot (m : Nat)
  | replay
  deriving DecidableEq, Repr

/-- An overdue item: its unit and the tag and set of its iteration (R80, R515). -/
structure Overdue where
  src : StallUnit
  tag : Tag
  set : Bool
  deriving DecidableEq, Repr

/-! ### Contexts (R62) -/

/-- The operand and weight codes of R96. -/
inductive Code where
  | int4 | uint4 | int8 | uint8 | e2m1 | e3m2 | e4m3 | e5m2 | binary16 | bfloat16 | binary32
  deriving DecidableEq, Repr

/-- The two mappings of R126. -/
inductive Mapping where
  | pow2 | asym
  deriving DecidableEq, Repr

/-- The operations of an SFN cell (R54), with SCAN's five modes (R139). -/
inductive SfnOp where
  | exp2 | log2 | rcp | rsqrt | sqrt | tanh | logistic | pwl | min8 | max8 | argmax8 | sort8 | sum8 | add2
  | quant | dequant | leafMa | leafMm | combMa | combMm | param
  deriving DecidableEq, Repr

/-- The operations of a MEM cell (R55). -/
inductive MemOp where
  | read | write | delay | kcache
  deriving DecidableEq, Repr

/-- The operations of an STR cell (R58). -/
inductive StrOp where
  | fork | merge | switch | select | gather | align | renumber | digest
  deriving DecidableEq, Repr

/-- The four roles of a TAP cell (R61). -/
inductive TapRole where
  | ingress | result | capture | window
  deriving DecidableEq, Repr

/-- One output of a context: the output number, the destination cell and its input port, and the track slots of the links on
the way, which the context's route-slot tables give (R62, R73). -/
structure Route where
  out : Nat
  dst : Nat
  port : Nat
  slots : List Nat
  deriving DecidableEq, Repr

/-- A MUL context (R51 to R53, R100, R104, R135). `dynamic`: shift, zero and operand scale come with the vector. -/
structure MulCtx where
  chain : Bool
  fmt : Code
  wfmt : Code
  dynamic : Bool
  shift : Int
  zero : Int
  opScale : Option Word32
  base : Nat
  stride : Nat
  phases : Nat
  first : Nat
  count : Nat
  deriving DecidableEq, Repr

/-- A PWL table (R112): X0, WLOG and the 64 slopes and intercepts. -/
structure PwlTable where
  x0 : Word32
  wlog : Int
  a : List Word32
  b : List Word32
  deriving DecidableEq, Repr

/-- An SFN context (R54, R112 to R119, R137, R139). -/
structure SfnCtx where
  op : SfnOp
  mask : BitVec 8
  code : Code
  mapping : Mapping
  dynamic : Bool
  shift : Int
  scale : Word32
  zero : Int
  stochastic : Bool
  seed : Word32
  pwl : PwlTable
  deriving DecidableEq, Repr

/-- A MEM context (R55, R56, R548): COUNTER takes `start` and `step`, TOKEN takes `field`; DELAY takes `dly`. `undo`: a
KCACHE context with the undo option (R285). -/
structure MemCtx where
  op : MemOp
  base : Nat
  limit : Nat
  counter : Bool
  start : Nat
  step : Nat
  field : Nat
  dly : Nat
  undo : Bool
  deriving DecidableEq, Repr

/-- One byte range of a GATHER: from `port`, `len` bytes at `src`, to `dst`. -/
structure GatherItem where
  port : Nat
  src : Nat
  len : Nat
  dst : Nat
  deriving DecidableEq, Repr

/-- An STR context (R58, R59, R66, R343): the required ports, whether it runs in two groups, and the constants of its
operation. `windows` holds W for each port. -/
structure StrCtx where
  op : StrOp
  ports : List Nat
  groups : Bool
  windows : List Nat
  control : Nat
  gather : List GatherItem
  a : Nat
  b : Nat
  layer : Nat
  dwin : Nat
  deriving DecidableEq, Repr

/-- An operation record of a KEY context (R257). The codes are kept as read. -/
structure KeyOp where
  op : Nat
  sfmt : Nat
  wfmt : Nat
  first : Bool
  word : Nat
  src : Nat
  k : Nat
  deriving DecidableEq, Repr

/-- An entry-field record of PUSH (R260). `copy`: COPY, otherwise CODE. -/
structure EntryField where
  copy : Bool
  src : Nat
  len : Nat
  dst : Nat
  code : Code
  centre : Option Nat
  zero : Int
  scale : Word32
  cfmt : Nat
  deriving DecidableEq, Repr

/-- A copy item of a view record (R261). -/
structure ViewItem where
  sel : Nat
  age : Nat
  count : Nat
  src : Nat
  len : Nat
  dst : Nat
  deriving DecidableEq, Repr

/-- A KEY context (R254, R255, R257). `copy`: of a graph laid out twice, the copy that its cell belongs to (R48, R264). -/
structure KeyCtx where
  j : Nat
  copy : Nat
  fireOff : Nat
  ops : List KeyOp
  entries : List EntryField
  deferred : List KeyOp
  views : List (List ViewItem)
  deriving DecidableEq, Repr

/-- A TAP context (R61, R231, R366). `copy`: of a graph laid out twice, the copy that the TAP belongs to (R48). `region`: the
standing region that a RESULT context names (R231). -/
structure TapCtx where
  role : TapRole
  copy : Nat
  region : Nat
  templates : List Nat
  record : Bool
  txLane : Option Nat
  deriving DecidableEq, Repr

/-- What a context slot holds. A context of all zeros is idle (R550). -/
inductive CtxBody where
  | idle
  | mul (c : MulCtx)
  | sfn (c : SfnCtx)
  | mem (c : MemCtx)
  | str (c : StrCtx)
  | key (c : KeyCtx)
  | tap (c : TapCtx)
  deriving DecidableEq, Repr

/-- A context: its operation, the routes of its outputs, and the offset F of each of its firings from the admission fc, in the order
of `firing` (R80, R169): the phases of a folded MUL, the two groups of an STR, the event and the deferred firing of a KEY cell. -/
structure Ctx where
  body : CtxBody
  routes : List Route
  fires : List Nat
  deriving DecidableEq, Repr

/-! ### Binaries (R157 to R160) -/

/-- The fixed part of the report block (R157). `flagsHi`, `zero35` and `zero72` are bits [31:4] of FLAGS, byte 35 and bytes [79:72],
which the loader ignores (R159). -/
structure Report where
  magic : Nat
  verMask : Nat
  verMinor : Nat
  tableId : Nat
  canonical : Bool
  debug : Bool
  hotClass : Bool
  standing : Bool
  flagsHi : Nat
  region : Nat
  copies : Nat
  ii : Nat
  lat : Nat
  dDef : Nat
  keyBudget : Nat
  keyRateN : Nat
  keyRateW : Nat
  sections : Nat
  set : Bool
  zero35 : Nat
  cells : List Nat
  meadows : List Nat
  coresident : Word64
  zero72 : Nat
  tables : List (Nat × Nat)
  deriving DecidableEq, Repr

/-- MEM table entry (R158). -/
structure MemEntry where
  cell : Nat
  slot : Nat
  op : Nat
  base : Nat
  limit : Nat
  deriving DecidableEq, Repr

/-- WEIGHT table entry (R158). -/
structure WeightEntry where
  cell : Nat
  slot : Nat
  first : Nat
  count : Nat
  deriving DecidableEq, Repr

/-- VAULT table entry (R158). -/
structure VaultEntry where
  meadow : Nat
  maskA : Word32
  maskB : Word32
  deriving DecidableEq, Repr

/-- PORT table entry (R158). -/
structure PortEntry where
  cell : Nat
  port : Nat
  slot : Nat
  peak : Nat
  w : Nat
  deriving DecidableEq, Repr

/-- SCAN table entry (R158). -/
structure ScanEntry where
  cell : Nat
  n : Nat
  cost : Nat
  mode : Nat
  deriving DecidableEq, Repr

/-- SECTION table entry (R158). `lpddr`: reload source 1. -/
structure SectionEntry where
  index : Nat
  slot : Nat
  lpddr : Bool
  reloadFc : Nat
  deriving DecidableEq, Repr

/-- The slot images of one section: the contexts it writes, by cell (R62, R87). -/
structure Image where
  section_ : Nat
  ctxs : List (Nat × Ctx)
  deriving DecidableEq, Repr

/-- The codes and the descriptor of one weight slot (R103), and the section it loads with (R87). -/
structure WeightSlot where
  section_ : Nat
  cell : Nat
  slot : Nat
  codes : List Byte
  scale : Word32
  zero : BitVec 16
  reserved : BitVec 16
  deriving DecidableEq, Repr

/-- The key-map descriptor (R244). `mask`: VAULTS; `rsv`: bytes [23:21] and [63:32]. -/
structure KeyMap where
  mask : Nat
  kind : Nat
  n : Nat
  eu : Nat
  pubWords : Nat
  blog : Nat
  rsv : Nat
  ringBase : Nat
  tableBase : Nat
  deriving DecidableEq, Repr

/-- A case record of a parser program (R225). -/
structure ParseCase where
  type : Nat
  emit : Bool
  keyOff : Nat
  keyCtrl : Nat
  extFirst : Nat
  extCount : Nat
  minLen : Nat
  deriving DecidableEq, Repr

/-- An extract record of a parser program (R225). -/
structure Extract where
  src : Nat
  len : Nat
  swap : Bool
  dst : Nat
  deriving DecidableEq, Repr

/-- A parser program (R224). -/
structure Program where
  hdrSkip : Nat
  maxMsg : Nat
  lenCtrl : Nat
  lenVal : Nat
  lenAdd : Int
  typeOff : Nat
  typeCtrl : Nat
  ncase : Nat
  cases : List ParseCase
  extracts : List Extract
  deriving DecidableEq, Repr

/-- An insert record of a template (R232). -/
structure Insert where
  src : Nat
  len : Nat
  swap : Bool
  dst : Nat
  deriving DecidableEq, Repr

/-- A composer template (R232). -/
structure Template where
  len : Nat
  kind : Nat
  lp : Nat
  udpcs : Bool
  early : Bool
  l3off : Nat
  seqOff : Option Nat
  inserts : List Insert
  image : List Byte
  deriving DecidableEq, Repr

/-- A binary: the report block with its tables, and the images behind it. `sources`: the ingress sources that feed the
region (R30, by R547's index); `tracks`: the track slots of links that its route-slot tables use (R73, R74). -/
structure Binary where
  report : Report
  mem : List MemEntry
  weight : List WeightEntry
  vault : List VaultEntry
  port : List PortEntry
  scan : List ScanEntry
  section_ : List SectionEntry
  images : List Image
  weights : List WeightSlot
  memInit : List (Nat × Nat × List Byte)
  keyMap : Option KeyMap
  programs : List (Nat × Program)
  templates : List (Nat × Template)
  sources : List Nat
  tracks : List Nat
  deriving DecidableEq, Repr

/-! ### Kwanan messages (R424 to R446) -/

/-- The host address a session is bound to (R436). -/
inductive HostAddr where
  | raw (mac : Nat)
  | udp4 (ip port : Nat)
  | udp6 (ip port : Nat)
  deriving DecidableEq, Repr

/-- The header of a received message (R426). `wellFormed`: reserved bits are zero and LEN lies within the frame;
`tick` is the tick at which its frame crossed the reference plane (R447). -/
structure KwnHdr where
  session : Nat
  seq : Nat
  ack : Nat
  ackv : Bool
  gap : Bool
  close : Bool
  epoch : Nat
  host : HostAddr
  wellFormed : Bool
  tick : Nat
  deriving DecidableEq, Repr

/-- The body of OPEN (R434). `reservedZero`: the bytes and bits that must be zero are. -/
structure OpenBody where
  verMask : Nat
  minor : Nat
  role : Nat
  streams : Nat
  regions : Nat
  hnonce : Nat
  reservedZero : Bool
  deriving DecidableEq, Repr

/-- What the sampled symbols of a received ordered set or marker carried (R355 to R357): how many of them were code violations, and
its characters after the special symbol. -/
structure LaneChars where
  viol : Nat
  chars : List Byte
  deriving DecidableEq, Repr

/-- The three parts (R1). -/
inductive Part where
  | e7440 | o7440 | e7420
  deriving DecidableEq, Repr

/-- What a device is: its part, and whether it is of stepping B0 (R1). -/
structure Silicon where
  part : Part
  b0 : Bool
  deriving DecidableEq, Repr

/-- The results of the checks at power-on (R522, R523), which come from the board and the silicon: the straps of the part (R1, R473), the
sampled straps and whether clocks, rails, meadows, Col and training passed. -/
structure StartChecks where
  device : Silicon
  sysClock : Bool
  rails : Bool
  failMeadow : Option Nat
  col : Bool
  bootHost : Bool
  vrole : Nat
  killNHigh : Bool
  failVault : Option Nat
  failChannel : Option Nat
  lpSize : Nat
  puf : List Byte
  deriving DecidableEq, Repr

/-- The level of a sensor reading, in 1/16 degrees (R534). The source codes are those of R534. -/
structure Reading where
  source : Nat
  temp : Int
  deriving DecidableEq, Repr

/-- How a frame starts: the deskew compensation of its port in 2^-16 ns (R184), and the codewords that the port's FEC has corrected since
its previous frame started (R214). -/
structure Reception where
  deskew : Nat
  corr : Nat
  deriving DecidableEq, Repr

/-- A section switch: the slot, and the region count that it names (R64). -/
structure SectionAt where
  slot : Nat
  count : Nat
  deriving DecidableEq, Repr

/-- The end of a slot's reload: the slot, and the cells whose context words the image brought uncorrectable errors into (R57, R87). -/
structure SlotReload where
  slot : Nat
  bad : List Nat
  deriving DecidableEq, Repr

/-! ### The commands -/

/-- The commands of the block, one constructor per row of the operation table, in the table's order. Register-write commands
take the access and the value written; the other commands are events, with what the environment contributes to them: the
instant `phi` (a fraction of the current time-unit cycle in 1/2^16, R178), received bytes, levels and readings. -/
inductive Instr where
  /-- FRAME_START (R216). -/
  | frameStart (lp phi : Nat) (rx : Reception) (bytes : List Byte)
  /-- FEC_UNCORRECTABLE (R214). -/
  | fecUncorrectable (lp : Nat) (frames : List Nat)
  /-- EVENT_WORD_EMIT (R229). -/
  | eventWordEmit (src : Nat)
  /-- FCS_VERDICT (R215). -/
  | fcsVerdict (lp : Nat)
  /-- FORD_ARRIVAL (R32). -/
  | fordArrival (i : Nat)
  /-- FORD_RELEASE (R29). -/
  | fordRelease (g : Nat)
  /-- TOKEN_ARRIVE (R47). -/
  | tokenArrive (i : Nat)
  /-- ORPHAN (R67). -/
  | orphan (cell port : Nat)
  /-- STALL_START (R80). -/
  | stallStart (r : Nat) (items : List Overdue)
  /-- STALL_LIMIT (R515). -/
  | stallLimit (r : Nat)
  /-- DOT (R51). -/
  | dot (cell : Nat)
  /-- DOTC (R51). -/
  | dotc (cell : Nat)
  /-- EXP2 (R54). -/
  | exp2 (cell : Nat)
  /-- LOG2 (R54). -/
  | log2 (cell : Nat)
  /-- RCP (R54). -/
  | rcp (cell : Nat)
  /-- RSQRT (R54). -/
  | rsqrt (cell : Nat)
  /-- SQRT (R54). -/
  | sqrt (cell : Nat)
  /-- TANH (R54). -/
  | tanh (cell : Nat)
  /-- LOGISTIC (R54). -/
  | logistic (cell : Nat)
  /-- PWL (R112). -/
  | pwl (cell : Nat)
  /-- MIN8 (R113). -/
  | min8 (cell : Nat)
  /-- MAX8 (R113). -/
  | max8 (cell : Nat)
  /-- ARGMAX8 (R113). -/
  | argmax8 (cell : Nat)
  /-- SORT8 (R113). -/
  | sort8 (cell : Nat)
  /-- SUM8 (R113). -/
  | sum8 (cell : Nat)
  /-- ADD2 (R54). -/
  | add2 (cell : Nat)
  /-- QUANT (R116). -/
  | quant (cell : Nat)
  /-- DEQUANT (R115). -/
  | dequant (cell : Nat)
  /-- LEAF_MA (R139). -/
  | leafMa (cell : Nat)
  /-- LEAF_MM (R139). -/
  | leafMm (cell : Nat)
  /-- COMB_MA (R139). -/
  | combMa (cell : Nat)
  /-- COMB_MM (R139). -/
  | combMm (cell : Nat)
  /-- PARAM (R139). -/
  | param (cell : Nat)
  /-- READ (R548). -/
  | read (cell : Nat)
  /-- WRITE (R548). -/
  | write (cell : Nat)
  /-- DELAY (R55). -/
  | delay (cell : Nat)
  /-- KCACHE (R256). -/
  | kcache (cell : Nat)
  /-- FORK (R58). -/
  | fork (cell : Nat)
  /-- MERGE (R58). -/
  | merge (cell : Nat)
  /-- SWITCH (R58). -/
  | switch (cell : Nat)
  /-- SELECT (R58). -/
  | select (cell : Nat)
  /-- GATHER (R59). -/
  | gather (cell group : Nat)
  /-- ALIGN (R59). -/
  | align (cell group : Nat)
  /-- RENUMBER (R58). -/
  | renumber (cell : Nat)
  /-- DIGEST (R343). -/
  | digest (cell : Nat)
  /-- KEY_EVENT_FIRE (R255). -/
  | keyEventFire (cell : Nat)
  /-- KEY_DEFERRED_FIRE (R265). -/
  | keyDeferredFire (cell : Nat)
  /-- RESOLVE_POINT (R287). -/
  | resolvePoint (g src : Nat)
  /-- VAULT_READ_DONE (R549). -/
  | vaultReadDone (i : Nat)
  /-- TAP_INGRESS (R61). -/
  | tapIngress (cell : Nat)
  /-- TAP_RESULT (R231). -/
  | tapResult (cell : Nat)
  /-- TAP_CAPTURE (R61). -/
  | tapCapture (cell : Nat)
  /-- SECTION_SWITCH (R64). -/
  | sectionSwitch (r : Nat) (next : SectionAt)
  /-- SLOT_RELOAD_DONE (R87). -/
  | slotReloadDone (m : Nat) (img : SlotReload)
  /-- DRAIN (R85). -/
  | drain (acc : Access) (m : Nat)
  /-- DRAIN_COMPLETE (R85). -/
  | drainComplete (g : Nat)
  /-- RESUME (R86). -/
  | resume (acc : Access) (m : Nat)
  /-- HALT (R92). -/
  | halt (acc : Access) (m : Nat)
  /-- RESET_RGN (R92). -/
  | resetRgn (acc : Access) (m : Nat)
  /-- MEADOW_MOVE (R77). -/
  | meadowMove (acc : Access) (m : Nat) (v : Word64)
  /-- CONV_CFG_WRITE (R144). -/
  | convCfgWrite (acc : Access) (m k : Nat) (v : Word64)
  /-- CONV_CLR (R146). -/
  | convClr (acc : Access) (m k : Nat)
  /-- BINARY_LOAD (R160). -/
  | binaryLoad (bin : Binary)
  /-- TIME_INCR_WRITE (R179). -/
  | timeIncrWrite (acc : Access) (v : Word64)
  /-- TIME_SLEW_WRITE (R180). -/
  | timeSlewWrite (acc : Access) (v : Word64)
  /-- SLEW_END (R180). -/
  | slewEnd
  /-- TIME_NOW_SET (R181). -/
  | timeNowSet (acc : Access) (v : Word64)
  /-- HOLDOVER (R182). -/
  | holdover
  /-- REFCLK_TIME_RETURN (R182). -/
  | refclkTimeReturn
  /-- TIN_EDGE (R187). -/
  | tinEdge (i phi : Nat) (level : Bool) (held : Nat)
  /-- TIN_TS_POP (R209). -/
  | tinTsPop (i : Nat)
  /-- TOUT_ARM (R189). -/
  | toutArm (acc : Access) (j : Nat) (v : Word64)
  /-- TOUT_EDGE (R189). -/
  | toutEdge (j : Nat)
  /-- TICK_PERIOD_WRITE (R190). -/
  | tickPeriodWrite (acc : Access) (v : Word64)
  /-- FORD_DELAY_WRITE (R197). -/
  | fordDelayWrite (acc : Access) (g : Nat) (v : Word64)
  /-- VALLEY_EPOCH_WRITE (R200). -/
  | valleyEpochWrite (acc : Access) (v : Word64)
  /-- LAUNCH_AT_WRITE (R203). -/
  | launchAtWrite (acc : Access) (g : Nat) (v : Word64)
  /-- LAUNCH (R202). -/
  | launch (g : Nat)
  /-- TIME_MARKER_SEND (R205). -/
  | timeMarkerSend (l phi : Nat)
  /-- TIME_MARKER_RECEIVE (R205). -/
  | timeMarkerReceive (l phi : Nat) (rx : LaneChars)
  /-- BARRIER_ARM (R206). -/
  | barrierArm (acc : Access) (v : Word64)
  /-- BARRIER_TOKEN_RECEIVE (R206). -/
  | barrierTokenReceive (l : Nat)
  /-- BARRIER_LAUNCH (R206). -/
  | barrierLaunch
  /-- PTP_TRANSMIT (R208). -/
  | ptpTransmit (lp phi : Nat) (kind : Nat) (udpSum : Option Nat) (rxTime : Nat) (ptpOff : Nat) (bytes : List Byte)
  /-- TXTS_POP (R209). -/
  | txtsPop
  /-- PORT_CFG_WRITE (R211). -/
  | portCfgWrite (acc : Access) (v : Word64)
  /-- LINK_LOSS (R540). -/
  | linkLoss (lp : Nat)
  /-- FILTER_WRITE (R223). -/
  | filterWrite (acc : Access) (v : Word64)
  /-- FILTER_INVALIDATE (R223). -/
  | filterInvalidate (acc : Access) (v : Word64)
  /-- FILTER_READ (R223). -/
  | filterRead (acc : Access) (v : Word64)
  /-- FILTER_CHANGE_EFFECT (R223). -/
  | filterChangeEffect
  /-- FILTER_PENDING_CLEAR (R223). -/
  | filterPendingClear
  /-- TEMPLATE_FRAME_START (R234). -/
  | templateFrameStart (lp : Nat)
  /-- COMP_CAP_WRITE (R237). -/
  | compCapWrite (acc : Access) (t : Nat) (v : Word64)
  /-- COMP_CAP_ARM (R237). -/
  | compCapArm (acc : Access) (t : Nat) (v : Word64)
  /-- GATE_OPEN (R238). -/
  | gateOpen (acc : Access) (v : Word64)
  /-- GATE_CLOSE (R238). -/
  | gateClose (acc : Access) (v : Word64)
  /-- KILL_N_ASSERT (R238). -/
  | killNAssert
  /-- KILL_CLEAR (R238). -/
  | killClear (acc : Access) (v : Word64)
  /-- RESULT_RECORD_RELEASE (R240). -/
  | resultRecordRelease
  /-- KEY_CFG_WRITE (R275). -/
  | keyCfgWrite (acc : Access) (v : Word64)
  /-- SLOT_WRITE (R252). -/
  | slotWrite (acc : Access) (v : Word64)
  /-- SLOT_READ (R275). -/
  | slotRead (acc : Access) (v : Word64)
  /-- SLOT_CHANGE_EFFECT (R252). -/
  | slotChangeEffect
  /-- RING_READ (R270). -/
  | ringRead (acc : Access) (v : Word64)
  /-- RING_READ_COPY (R270). -/
  | ringReadCopy
  /-- RING_READ_BUSY (R270). -/
  | ringReadBusy
  /-- RING_WRITE (R271). -/
  | ringWrite (acc : Access) (v : Word64)
  /-- ZERO_ALL (R271). -/
  | zeroAll (acc : Access) (v : Word64)
  /-- PUBLICATION_FLIP (R268). -/
  | publicationFlip
  /-- CENSUS_REQUEST (R470). -/
  | censusRequest (acc : Access) (v : Word64)
  /-- CENSUS (R471). -/
  | census
  /-- SNAPSHOT_DONE (R274). -/
  | snapshotDone
  /-- SWAP_ARM (R296). -/
  | swapArm (acc : Access) (v : Word64)
  /-- SWAP_TICK (R298). -/
  | swapTick
  /-- SWAP_DRAIN_DONE (R299). -/
  | swapDrainDone (g : Nat)
  /-- SAVE (R346). -/
  | save (acc : Access) (m : Nat) (v : Word64)
  /-- RESTORE (R347). -/
  | restore (acc : Access) (m : Nat) (v : Word64)
  /-- SAVE_RESTORE_DONE (R353). -/
  | saveRestoreDone (g : Nat)
  /-- TASK_DOORBELL (R307). -/
  | taskDoorbell (acc : Access) (v : Word64)
  /-- TASK_TAKE (R308). -/
  | taskTake
  /-- SECTION (R314). -/
  | section_ (e : Nat)
  /-- SECTION_END (R315). -/
  | sectionEnd (e : Nat)
  /-- MOVE (R319). -/
  | move (e : Nat)
  /-- PUBLISH (R320). -/
  | publish (e : Nat)
  /-- SWAP (R324). -/
  | swap (e : Nat)
  /-- SNAPSHOT (R325). -/
  | snapshot (e : Nat)
  /-- CAPTURE_ARM (R326). -/
  | captureArm (e : Nat)
  /-- SELFTEST (R326). -/
  | selftest (e : Nat)
  /-- FENCE (R326). -/
  | fence (e : Nat)
  /-- NOTE (R326). -/
  | note (e : Nat)
  /-- TASK_COMPLETE (R327). -/
  | taskComplete (e : Nat)
  /-- ABORT (R328). -/
  | abort (acc : Access) (v : Word64)
  /-- TASK_RELEASE (R317). -/
  | taskRelease (acc : Access) (v : Word64)
  /-- FLUSH (R344). -/
  | flush (acc : Access) (m : Nat) (v : Word64)
  /-- DIGEST_RECORD_POP (R353). -/
  | digestRecordPop (m : Nat)
  /-- REPLAY_START (R349). -/
  | replayStart (acc : Access) (v : Word64)
  /-- REPLAY_STOP (R354). -/
  | replayStop (acc : Access) (v : Word64)
  /-- REPLAY_RECORD_PRESENT (R351). -/
  | replayRecordPresent
  /-- PASS_CFG_WRITE (R372). -/
  | passCfgWrite (acc : Access) (l : Nat) (v : Word64)
  /-- LANE_LOCKED (R359). -/
  | laneLocked (l : Nat)
  /-- LANE_LOCK_LOSS (R360). -/
  | laneLockLoss (l : Nat)
  /-- VERSION_SET_RECEIVE (R361). -/
  | versionSetReceive (l : Nat) (rx : LaneChars)
  /-- IDLE_SET_RECEIVE (R368). -/
  | idleSetReceive (l : Nat) (rx : LaneChars)
  /-- PACKET_START (R364): the characters after K27.7 up to the predicted end, the places among them of a code violation or K30.7,
  the number of code violations, and whether K29.7 stands at the predicted end. -/
  | packetStart (l phi : Nat) (chars : List Byte) (bad : List Nat) (viol : Nat) (ended : Bool)
  /-- PACKET_VERDICT (R363). -/
  | packetVerdict (l : Nat)
  /-- PASS_STREAM_TRANSMIT (R366). -/
  | passStreamTransmit (l : Nat)
  /-- LINK_TX_QUEUE (R367). -/
  | linkTxQueue (acc : Access) (l : Nat) (v : Word64)
  /-- LINK_RETRY_TIMEOUT (R368). -/
  | linkRetryTimeout (l : Nat)
  /-- SEQUENCER_STEP (R392). -/
  | sequencerStep
  /-- TIMER_EXPIRY (R390). -/
  | timerExpiry (k : Nat)
  /-- HOLDOFF_END (R394). -/
  | holdoffEnd
  /-- TRIG_OUT_PULSE_END (R393). -/
  | trigOutPulseEnd (j : Nat)
  /-- CAPTURE_RECORD_WRITE (R383). -/
  | captureRecordWrite
  /-- CAPTURE_ARM_WRITE (R386). -/
  | captureArmWrite (acc : Access) (v : Word64)
  /-- CAPTURE_ARM_EFFECT (R386). -/
  | captureArmEffect
  /-- STOP (R386). -/
  | stop (acc : Access) (v : Word64)
  /-- CAPTURE_STOP_EFFECT (R386). -/
  | captureStopEffect
  /-- TRIG_IN_EDGE (R397). -/
  | trigInEdge (i phi : Nat) (level : Bool) (held : Nat)
  /-- STUCK (R398). -/
  | stuck (i : Nat)
  /-- REFRESH_ENTRY (R405). -/
  | refreshEntry (m : Nat) (correctable uncorrectable : List Nat)
  /-- VAULT_HOT_ENTER (R406). -/
  | vaultHotEnter (m : Nat) (temp : Int)
  /-- VAULT_HOT_EXIT (R406). -/
  | vaultHotExit (m : Nat) (temp : Int)
  /-- HOT_FORCE_WRITE (R406). -/
  | hotForceWrite (acc : Access) (p : Nat) (v : Word64)
  /-- LPDDR6_RECALIBRATION (R417). -/
  | lpddr6Recalibration (ch : Nat)
  /-- OPEN (R436). -/
  | open_ (h : KwnHdr) (b : OpenBody)
  /-- AUTH_RESPONSE (R439). -/
  | authResponse (h : KwnHdr) (sig : List Byte)
  /-- REG_READ (R443). -/
  | regRead (h : KwnHdr) (addr count : Nat)
  /-- REG_WRITE (R443). -/
  | regWrite (h : KwnHdr) (addr : Nat) (data : List Word64)
  /-- MEM_READ (R444). -/
  | memRead (h : KwnHdr) (addr len : Nat)
  /-- MEM_WRITE (R444). -/
  | memWrite (h : KwnHdr) (addr : Nat) (data : List Byte)
  /-- SUBMIT (R445). -/
  | submit (h : KwnHdr) (descs : List (List Byte))
  /-- DOORBELL (R446). -/
  | doorbell (h : KwnHdr) (addr : Nat) (v : Word64)
  /-- ACK (R430). -/
  | ack (h : KwnHdr)
  /-- KWANAN_RTO_EXPIRY (R430). -/
  | kwananRtoExpiry (id : Nat)
  /-- STANDALONE_ACK (R431). -/
  | standaloneAck (id : Nat)
  /-- IDLE_CLOSE (R432). -/
  | idleClose (id : Nat)
  /-- CLOSE (R432). -/
  | close (acc : Access) (v : Word64)
  /-- CAPTURE_DATA (R450). -/
  | captureData
  /-- REGISTER_WRITE (R455). -/
  | registerWrite (acc : Access) (addr : Nat) (v : Word64)
  /-- RC_READ (R15). -/
  | rcRead (acc : Access) (addr : Nat)
  /-- PAGE_EN_WRITE (R458). -/
  | pageEnWrite (acc : Access) (page : Nat) (v : Word64)
  /-- BLK_RESET (R461). -/
  | blkReset (acc : Access) (page : Nat)
  /-- FREEZE (R462). -/
  | freeze (acc : Access) (page : Nat) (v : Word64)
  /-- EVT_FORCE (R464). -/
  | evtForce (acc : Access) (page : Nat) (v : Word64)
  /-- PAGE_NOTICE (R465). -/
  | pageNotice (page : Nat)
  /-- ERR_HEAD_WRITE (R469). -/
  | errHeadWrite (acc : Access) (page : Nat) (v : Word64)
  /-- DEADLINE_WRITE (R475). -/
  | deadlineWrite (acc : Access) (t : Nat) (v : Word64)
  /-- DEV_FWI_WRITE (R479). -/
  | devFwiWrite (acc : Access) (v : Word64)
  /-- HEALTH_CONFIRM (R502). -/
  | healthConfirm (acc : Access) (v : Word64)
  /-- POWER_ON (R522). -/
  | powerOn (k : StartChecks)
  /-- RST_N (R550). -/
  | rstN (k : StartChecks)
  /-- FIRMWARE_START (R487). -/
  | firmwareStart (majors : Nat)
  /-- FW_PROTECT (R477). -/
  | fwProtect (comp : Nat)
  /-- CLAIM (R494). -/
  | claim (id : Nat)
  /-- RELEASE_MBX (R494). -/
  | releaseMbx (id : Nat)
  /-- MAILBOX_TIMEOUT (R494). -/
  | mailboxTimeout
  /-- CHALLENGE (R495). -/
  | challenge (id : Nat)
  /-- ENROL (R493). -/
  | enrol (id : Nat)
  /-- RELEASE (R493). -/
  | release (id : Nat)
  /-- ATTEST (R498). -/
  | attest (id : Nat)
  /-- NEW_IDENTITY (R495). -/
  | newIdentity (id : Nat)
  /-- STAGE (R499). -/
  | stage (acc : Access) (v : Word64)
  /-- STAGE_DONE (R499). -/
  | stageDone (ok : Bool)
  /-- ACTIVATE_AT (R500). -/
  | activateAt (acc : Access) (v : Word64)
  /-- ACTIVATE (R500). -/
  | activate (acc : Access) (v : Word64)
  /-- CANCEL (R500). -/
  | cancel (acc : Access) (v : Word64)
  /-- UPDATE_ACTIVATION (R500). -/
  | updateActivation
  /-- SERVICE_RESUME (R501). -/
  | serviceResume
  /-- CONFIRM_TIMEOUT (R502). -/
  | confirmTimeout
  /-- WATCHDOG (R509). -/
  | watchdog (core : Nat)
  /-- ENTER (R506). -/
  | enter (acc : Access) (v : Word64)
  /-- EXIT (R513). -/
  | exit (acc : Access) (v : Word64)
  /-- CLOCK_LOSS (R538). -/
  | clockLoss (kind plain : Nat)
  /-- SENSOR_SAMPLE (R534). -/
  | sensorSample (r : Reading)
  /-- RAIL_SAMPLE (R535). -/
  | railSample (rail mv amps power : Nat)
  /-- BIST_SLICE_START (R516). -/
  | bistSliceStart
  /-- BIST_SLICE_END (R517). -/
  | bistSliceEnd (sig : Word64)
  /-- PWR_PT_ARM (R530). -/
  | pwrPtArm (acc : Access) (v : Word64)
  /-- POWER_POINT_BOUNDARY (R531). -/
  | powerPointBoundary
  /-- POWER_POINT_RESUME (R531). -/
  | powerPointResume
  /-- MG_RESET_CMD (R544). -/
  | mgResetCmd (k : StartChecks) (value : Nat)
  /-- LINK_UP (R241). -/
  | linkUp (lp : Nat)
  /-- KILL_N_DEASSERT (R238). -/
  | killNDeassert
  /-- CLOCK_LOCKED (R509). -/
  | clockLocked (kind plain : Nat)
  /-- TOUT_PULSE_END (R189). -/
  | toutPulseEnd (j : Nat)
  /-- VAULT_WRITE_COMMIT (R549). -/
  | vaultWriteCommit (m : Nat)
  /-- SNAPSHOT_TICK (R274). -/
  | snapshotTick
  /-- STATE_UE (R509). -/
  | stateUe (unit word : Nat)
  /-- LPDDR6_PATROL_SCRUB (R412). -/
  | lpddr6PatrolScrub (line : Nat) (correctable uncorrectable : List Nat)
  /-- RING_COMMAND_DONE (R271). -/
  | ringCommandDone
  /-- MAILBOX_COMMAND_DONE (R495). -/
  | mailboxCommandDone (ok : Bool)
  /-- BLOCK_RESET_DONE (R461). -/
  | blockResetDone (page : Nat)
  /-- RST_N_ASSERT (R490). -/
  | rstNAssert
  deriving DecidableEq, Repr

end Sys2Proof
end

