-- ==== Sys2Proof/Decode.lean ====
section
/-! DEFINITION. The decoding of table words. No row of the operation table gives a bit pattern: the device's commands are
register accesses, frames, messages and events, not words. -/

namespace Sys2Proof

/-- The command that a word spells by the table's bits: none, since no row gives bits. -/
def decodeTableWord (_nbits _w : Nat) : Option Instr := none

end Sys2Proof
end

