-- ==== Sys2Proof/Config.lean ====
section
/-! DEFINITION. Constants of one implementation and the values the manual leaves open. None has a body: no proof can see them,
so a statement holds whatever they are. -/

namespace Sys2Proof.Config

/-- A fresh open value, applied to the counter `Core.free` (a value the manual does not fix). -/
opaque free : Nat → Nat

/-- The values that the manual states for no operands of an operation, as a function of those operands: the bits of a run depend on
nothing else (R331). -/
opaque corner : List Nat → Nat

/-- The phase of the vault clock at a start, in 1/88 vault cycles (R404: it differs from one start to the next). -/
opaque vaultPhase : Nat → Nat

/-- D_rx of R185 in 2^-16 ns, a constant of stepping and grade and the same for every logical port (R212), by DEV_ID. -/
opaque dRx : Nat → Nat

/-- The frame without FCS with which firmware answers a frame of class SERVICE, by the port's MAC, IPv4 and IPv6 addresses (R218: ARP,
neighbour discovery and ICMP echo, whose formats the manual does not give). -/
opaque serviceReply : List Byte → List Byte → List Byte → List Byte → List Byte

/-- The expected self-test signature by stepping (R519). -/
opaque bistSignature : Nat → Word64

/-- The set of a line in the key cache (R256 gives the size and the ways, not the index function). -/
opaque cacheSet : Nat → Nat

/-- The 128 KiB image of a meadow's context slot as bytes (R87, R341): the manual does not give a context's encoding. -/
opaque slotImage : Binary → Nat → Nat → List Byte

/-- What stands behind the report block and the tables of a binary at an address (R313): contexts, weights, MEM images, programs,
descriptor and templates, whose places in a binary the manual does not give. The report and the tables are read by R157 and R158. -/
opaque binaryRest : List (Nat × Byte) → Nat → Option Binary

/-- Falcon-1024 (R480), whose algorithm is a published standard outside the manual: public key of a seed, signature of a
message under a seed, and verification. -/
opaque falconPublic : List Byte → List Byte
opaque falconSign : List Byte → List Byte → List Byte
opaque falconVerify : List Byte → List Byte → List Byte → Bool

/-- The digest of the vendor key held in ROM (R486). -/
opaque vendorDigest : List Byte

/-- The PUF: helper data of an SRAM read, and the seed reconstructed from a read and the helper data (R490, R491). -/
opaque pufHelper : List Byte → List Byte
opaque pufSeed : List Byte → List Byte → List Byte

/-- Nonces and challenges (R438, R495): 32 bytes of the identity secret, device time and a counter, in a format not given. -/
opaque nonce : List Byte → Nat → Nat → List Byte

end Sys2Proof.Config
end

