-- ==== Sys2Proof/Machine/State.lean ====
section
/-! DEFINITION. The state of the block as plain data: the queue of waiting commands, the memories, and the core: clocks,
registers, Separator, Ford, fabric, key stage, regions, composer, tasks, capture, lanes, Kwanan, security and power. -/

namespace Sys2Proof.Machine

/-- Why a step stops with a fault. The manual gives every error of this block an effect (a log entry, a poison mark, a halted
region or safe state, R505), so no meaning raises one. -/
inductive Fault where
  /-- Raised by no meaning. It would be safe: the machine would stop where the hardware goes on. -/
  | unreached
  deriving DecidableEq, Repr

/-- Why a step refuses a command. -/
inductive Refusal where
  /-- Raised only by the dispatch, for a command that has no meaning yet. Safe: the model stops where the hardware goes on. -/
  | notModelled (mnemonic : String)
  deriving DecidableEq, Repr

/-! ### Memories -/

/-- The memories behind the fabric in the 48-bit device address space (R418 to R420), the flash (R482), and the 8-byte words
that hold the poison code (R410), by word address. `bytes` lists the bytes that are not zero (R550). -/
structure Mem where
  bytes : List Host.Cell
  flash : List Host.Cell
  poison : List Nat
  deriving DecidableEq, Repr

/-! ### Clocks and time -/

/-- Clocks. `acc` is device time in 2^-32 ns (R178). `ph` is the position of the current fabric cycle boundary within the
time-unit cycle in 1/88 of a cycle, and `vph` that of the vault clock in 1/88 of a vault cycle. `setAt` is the time written by TIME_NOW_SET, which the next time-unit cycle takes (R181). `frozen` is the fabric's
freeze at a power-point boundary (R531), with the instant at which it began. -/
structure Clk where
  acc : Nat
  ph : Nat
  vph : Nat
  fc : Nat
  vc : Nat
  slewLeft : Nat
  setAt : Option Nat
  frozen : Option Nat
  deriving DecidableEq, Repr

/-! ### Tokens and the fabric -/

/-- A token (R45), with ADM of a debug binary (R169). -/
structure Token where
  payload : Payload
  tag : Tag
  set : Bool
  poison : Bool
  late : Bool
  adm : BitVec 16
  deriving DecidableEq, Repr

/-- A token waiting in a latch, a matching store or a KEY queue, with the schedule count and the device fc at which it arrived. -/
structure Held where
  tok : Token
  arr : Nat
  at_ : Nat
  deriving DecidableEq, Repr

/-- A token on its route (R46): the region whose schedule it follows, the schedule count at which it arrives, the cell that
produced it, and the input port it travels to. -/
structure Fly where
  tok : Token
  rgn : Nat
  due : Nat
  src : Nat
  dst : Nat
  port : Nat
  deriving DecidableEq, Repr

/-- A token that a DELAY holds in its cell's SRAM (R55): its region and cell, the context it fired under, the schedule count at which
it leaves, and the device address of its line. -/
structure Delayed where
  tok : Token
  rgn : Nat
  cell : Nat
  ctx : Ctx
  due : Nat
  addr : Nat
  deriving DecidableEq, Repr

/-- The digest window of a DIGEST context (R343, R344). -/
structure DigWin where
  crc : Word64
  count : Nat
  window : Nat
  firstTag : Tag
  poison : Bool
  deriving DecidableEq, Repr

/-- A converter's statistics window (R144). -/
structure ConvWin where
  lanes : Nat
  sats : Nat
  raised : Bool
  deriving DecidableEq, Repr

/-- A lane that a converter has counted in the current fabric cycle (R146): the converter (meadow * 32 + converter), the firing's tag and
set, whether it saturated, and its squared error. -/
structure ConvLane where
  conv : Nat
  tag : Tag
  set : Bool
  sat : Bool
  err : Option Word32
  deriving DecidableEq, Repr

/-- A ring prefetch on its way (R253, R549): the region, the vault, the lines, the event's tag and set, and the vault cycle
of its data. -/
structure VRead where
  rgn : Nat
  vault : Nat
  lines : List Nat
  tag : Tag
  set : Bool
  due : Nat
  deriving DecidableEq, Repr

/-- Ring data present for an event (R253, R256): whether a word of it was poisoned, and whether the key cache served it. -/
structure Fetched where
  rgn : Nat
  tag : Tag
  set : Bool
  poison : Bool
  hit : Bool
  deriving DecidableEq, Repr

/-- A line in a vault's write queue (R549): its device address and contents. `wait`: a line that a KEY cell has modified and writes to
its key cache and to the queue later (R255): the region, the schedule count and the KEY cell. -/
structure VWrite where
  vault : Nat
  addr : Nat
  line : Payload
  wait : Option (Nat × Nat × Nat)
  deriving DecidableEq, Repr

/-- The fabric. `wrA` and `wrB` are the lines that the fabric and the host wrote in this fc, with their old contents (R56).
`written` lists the MEM lines written since launch (R170); `digNow` how many digest records each meadow has taken in this fc (R344). `calAt`: by meadow, the cycle after the last calibration event. Keys:
contexts, generators, counters and digest windows by cell * 8 + slot; the next phases of iterations by that times 2^16 plus the
tag (R53); waiting tokens by cell * 4 + port; orphan lists by cell; converter windows by meadow * 32 + converter; slots by
meadow * 8 + slot; `holds`, by region * 8 + slot, the section whose image a slot holds or is being loaded with (R87). `ctxBad`: the
contexts that hold an uncorrectable word (R57). `owners`: by track slot of a link, one more than the region that owns it (R74). -/
structure Fabric where
  ctxs : Store Ctx
  gens : Store Word32
  ctrs : Store Nat
  phases : Store Nat
  digs : Store DigWin
  held : Store (List Held)
  orphans : Store (List (Tag × Bool))
  fired : Store Nat
  fly : List Fly
  delays : List Delayed
  ctxBad : List Nat
  owners : Store Nat
  written : List Nat
  digFifo : Store (List (List Byte))
  digNow : Store Nat
  convs : Store ConvWin
  convNow : List ConvLane
  calAt : Store Nat
  loaded : List Nat
  loading : List Nat
  holds : Store Nat
  vreads : List VRead
  fetched : List Fetched
  vwrites : List VWrite
  wrA : List (Nat × Payload)
  wrB : List (Nat × Payload)
  refresh : Store Nat
  scrub : Store Nat
  deriving DecidableEq, Repr

/-! ### Frames, events and iterations -/

/-- The source filters (R221) are read from 64 stored bytes. -/
abbrev FilterEntry := List Byte

/-- The class of a received frame (R217). -/
inductive FrameClass where
  | kwanan | ptp | service | data | drop | control
  deriving DecidableEq, Repr

/-- A received frame or pass-lane packet. Times are device time in 2^-16 ns; `tLast` is the predicted end (0: not known).
`walkOff`, `walkCount` and `walkDone` are the parser's place (R226). `verdict`: whether it has arrived and is good. `regions`
is the mask of regions its events feed, `resolved` those that have passed its resolve point; `uncorr` marks a frame that an
uncorrectable codeword or the port's length limit spoilt. -/
structure Frame where
  src : Nat
  num : Nat
  tStart : Nat
  bytes : List Byte
  cls : FrameClass
  prog : Nat
  pset : Bool
  regions : Nat
  payOff : Nat
  payLen : Nat
  implied : Option Nat
  uncorr : Bool
  bads : List Nat
  walkOff : Nat
  walkCount : Nat
  walkDone : Bool
  tLast : Nat
  tEnd : Nat
  verdict : Option Bool
  resolved : List Nat
  deriving DecidableEq, Repr

/-- An event word at the Ford with the regions that have not yet released it (R32, R198). `n` is its ingress timestamp in
2^-16 ns without the wrap, `delta` its replay offset (R351), `msg` its message index. -/
structure FordEv where
  word : Payload
  regions : List Nat
  src : Nat
  n : Nat
  tick : Nat
  late : Bool
  poison : Bool
  msg : Nat
  delta : Nat
  deriving DecidableEq, Repr

/-- The fate of an iteration (R286). -/
inductive Fate where
  | pending | committed | squashed
  deriving DecidableEq, Repr

/-- Where an event's ring lives (R248, R251): no key, an exact-match miss in a vault of the list, or a local ring of one. -/
inductive KeyHome where
  | null
  | miss (j : Nat)
  | ring (j local_ : Nat)
  deriving DecidableEq, Repr

/-- An iteration in flight: its event, its dependence set as source and frame number (R282, R283), its release and what has
become of it. `final`: its dependence set is complete. `status`: its KEY status bits once the owner has fired. `relFc`,
`relSched` and `relStall` are the device count, schedule count and stall count of its release. `undone`: the resolve point of a bad frame of
its set has passed (R288). -/
structure Iter where
  tag : Tag
  set : Bool
  copy : Nat
  word : Payload
  src : Nat
  n : Nat
  tick : Nat
  relFc : Nat
  relSched : Nat
  relStall : Nat
  deps : List (Nat × Nat)
  fate : Fate
  final : Bool
  late : Bool
  poison : Bool
  slot : Nat
  home : KeyHome
  status : Option Nat
  undone : Bool
  deriving DecidableEq, Repr

/-- The Separator: frames received, the filter table, a staged change (index, old entry, tick), frame counts per source, and
the event words on their way to the Ford. -/
structure Sep where
  frames : List Frame
  filters : Store FilterEntry
  pending : Option (Nat × FilterEntry × Nat)
  pendingDone : Bool
  counts : Store Nat
  inbox : List FordEv
  deriving DecidableEq, Repr

/-- The Ford's buffer, and the releases made in the fabric cycle `fc` in all (R31). -/
structure Ford where
  buf : List FordEv
  fc : Nat
  made : Nat
  deriving DecidableEq, Repr

/-! ### Regions -/

/-- The state of a region (R93). -/
inductive Phase where
  | idle | running | draining | drained | halted
  deriving DecidableEq, Repr

/-- A loaded binary with its digest ids (R341) and the padding of R173. -/
structure Loaded where
  bin : Binary
  prog : Word64
  wgt : Word64
  pad : Bool
  deriving DecidableEq, Repr

/-- A region: 0 to 7 standing, 16 + e for the meadows of the SECTION task in table entry e. Index 0 of `bins` is set A.
`heldAt`, `lateAt` and `latePrev` are the device times of the last boundary at which its admission was held, of its last late
release and of the late release at the boundary before that one; `relFc` and `relCount` its releases of one cycle; `swapHold` the tick from which a drained swap holds events, and `swapNext` that of a later swap that finds it still under way (R296);
`cursor` a restore's (slot, position) (R347); `anchor` its anchor meadow, fixed when its binary is loaded (R78); `pendSect` the section
switches that wait for their counts, as slot and count (R64); `setFrom` the tick of the latest seamless swap and
the set before it (R298). -/
structure Rgn where
  phase : Phase
  faultKind : Nat
  bins : List (Option Loaded)
  set : Bool
  sect : Nat
  pendSect : List (Nat × Nat)
  anchor : Option Nat
  sched : Nat
  stallFc : Nat
  stall : List Overdue
  stallLen : Nat
  g0 : Nat
  firstTick : Nat
  admitted : Nat
  relSlot : Nat
  relPos : Nat
  relFc : Nat
  relCount : Nat
  heldAt : Nat
  lateAt : Nat
  latePrev : Nat
  resetWait : Bool
  egressClosed : Bool
  iters : List Iter
  cursor : Option (Nat × Nat)
  swapHold : Option Nat
  swapNext : Option Nat
  setFrom : Option (Nat × Bool)
  replay : Bool
  delta : Nat
  deriving DecidableEq, Repr

/-! ### Key stage -/

/-- A ring line saved in an undo log (R284): the cell that holds the record, its region, the line's address, its saved
contents, and the frames it names. -/
structure Undo where
  cell : Nat
  rgn : Nat
  addr : Nat
  saved : Payload
  deps : List (Nat × Nat)
  deriving DecidableEq, Repr

/-- A staged exact-match slot write (R252): the slot's device address, its old and new 16 bytes, the tick, and whether the
tick has come. -/
structure SlotPend where
  addr : Nat
  old : List Byte
  new : List Byte
  tick : Nat
  done : Bool
  deriving DecidableEq, Repr

/-- A ring command in progress (R270, R271): op, ring address, and the device time it was given. -/
structure RingCmd where
  op : Nat
  ring : Nat
  buf : Nat
  since : Nat
  deriving DecidableEq, Repr

/-- A publication whose flip is awaited (R268, R269). -/
structure Pub where
  task : Nat
  v : Nat
  tick : Nat
  bank : Nat
  first : Nat
  count : Nat
  digest : Word64
  user : Word64
  idgen : Nat
  written : Bool
  deriving DecidableEq, Repr

/-- A snapshot (R273, R274): its tick, destination, task, the publication bank active for the last tick before it and the tick that
bank flipped at, the lines saved before a later event changed them, and the undo records of the saved copies. -/
structure Snap where
  tick : Nat
  dst : Nat
  task : Nat
  copying : Bool
  bank : Nat
  flip : Nat
  saved : List (Nat × Payload)
  undo : List Undo
  deriving DecidableEq, Repr

/-- An event token whose lookup in the key cache is not yet made (R256): its KEY cell, and the schedule count of its arrival. -/
structure Lookup where
  cell : Nat
  tag : Tag
  set : Bool
  at_ : Nat
  deriving DecidableEq, Repr

/-- The key stage's own state. `cache`: the lines a key cache holds, most recent first, by cell * 256 + set (R256).
`fwd`: ring addresses with the schedule counts of their latest collects (R263).
`recent`: the bank that flipped last (R267). -/
structure KeyStage where
  undo : List Undo
  cache : Store (List Nat)
  lookups : List Lookup
  fwd : List (Nat × Nat)
  slotPend : Option SlotPend
  ring : Option RingCmd
  pub : Option Pub
  pubArmed : List Pub
  recent : Nat
  snap : Option Snap
  deriving DecidableEq, Repr

/-! ### Composer -/

/-- A result on its way through the composer (R231 to R240): its region, TAP, tag, set and token; `t` its template when its
ACTION names one; the timestamp, tick and source of its event; the flags of its record so far; `first` its first-byte instant;
whether it gives a record, is held for its iteration's fate and has been checked; and its record's digests. -/
structure Result where
  rgn : Nat
  tap : Nat
  tag : Tag
  set : Bool
  tok : Token
  t : Option Nat
  n : Nat
  tick : Nat
  src : Nat
  flags : Nat
  first : Option Nat
  record : Bool
  held : Bool
  checked : Bool
  prog : Word64
  wgt : Word64
  inDig : Word64
  deriving DecidableEq, Repr

/-- A template frame queued or in progress on a logical port: the result's key (region, tag, set, TAP), the template, the
frame bytes with the inserts applied, whether it launches early, and once in progress the instant at which it started. -/
structure TxFrame where
  rgn : Nat
  tag : Tag
  set : Bool
  tap : Nat
  t : Nat
  image : List Byte
  early : Bool
  start : Nat
  deriving DecidableEq, Repr

/-- A cap's bucket (R237): `tref` in 2^-16 ns. -/
structure Bucket where
  tokens : Nat
  tref : Nat
  deriving DecidableEq, Repr

/-- The composer: queues and the frame in progress by logical port, buckets by template, sequence numbers by set * 256 +
template, results whose records have not left, the instant from which a port is free, and the SERVICE answers that wait for their port (R218, R235). -/
structure Comp where
  queues : Store (List TxFrame)
  inProg : Store (List TxFrame)
  buckets : Store Bucket
  seqs : Store Nat
  results : List Result
  free : Store Nat
  answers : List (Nat × List Byte)
  deriving DecidableEq, Repr

/-! ### Tasks -/

/-- The states of a task table entry (R305). -/
inductive TState where
  | free | waiting | ready | running | done
  deriving DecidableEq, Repr

/-- A task table entry: state, generation, descriptor bytes, completion status, code, flags and dispatch time. `finish` is
the status a RUNNING task will complete with once its work has ended. `left`: the predecessors that are not DONE, as entry
and GEN; `bad`: one ended other than OK. `sect`, `fed` and `outs` are a SECTION's place (`sect` the next meadow of a
SELFTEST); `order` its place among the READY; `seq` its place of acceptance. -/
structure Task where
  st : TState
  gen : Nat
  desc : List Byte
  status : Nat
  code : Nat
  flags : Nat
  start : Nat
  order : Nat
  seq : Nat
  finish : Option Nat
  left : List (Nat × Nat)
  bad : Bool
  sect : Nat
  fed : Nat
  outs : Nat
  deriving DecidableEq, Repr

/-- The task engine: the table by entry, the order counters, the round's queue and what it has dispatched from it, waiting
completions with their NOTIFY bits, the publication log's SEQ, its latest V plus one (0: none), the meadows held by tasks (by
meadow: entry, 0xFFFF a slice), and the program digest id last loaded into a meadow for a task. -/
structure TaskEng where
  table : Store Task
  nextOrder : Nat
  nextSeq : Nat
  roundQ : Nat
  roundN : Nat
  waiting : List (List Byte × Bool)
  plogSeq : Nat
  plogV : Nat
  holders : Store Nat
  lastBins : Store Word64
  deriving DecidableEq, Repr

/-! ### Capture -/

/-- An observation (R374): its kind, its place in capture order (tick, class, index, timestamp, rank, region, cell), the
record data, frame number, bad-verdict mark, and when it is final (2^-16 ns). -/
structure Obs where
  kind : Nat
  tick : Nat
  cls : Nat
  idx : Nat
  ts : Nat
  rank : Nat
  rgn : Nat
  cell : Nat
  data : List Byte
  match_ : List Byte
  frame : Nat
  bad : Bool
  final : Option Nat
  deriving DecidableEq, Repr

/-- A running timer (R390): the tick at which it expires. -/
abbrev TimerSt := Option Nat

/-- Capture and the sequencer. `armed`: an arm's tick and image; `image`: the configuration in force, and `since` its first tick.
`holding`: a hold-off, with its end tick when it is timed; `passed`: the latest instant at which an observation handed to the
sequencer was final. -/
structure Cap where
  armed : Option (Nat × List Byte)
  image : List Byte
  since : Nat
  running : Bool
  stopped : Bool
  reason : Nat
  stopTick : Option Nat
  capQ : List Obs
  seqQ : List Obs
  seqState : Nat
  holding : Option (Option Nat)
  holdCount : Nat
  halted : Bool
  counters : List Nat
  timers : List TimerSt
  trigNo : Nat
  recNo : Nat
  windows : List (Nat × Nat)
  passed : Nat
  pulses : Store Nat
  deriving DecidableEq, Repr

/-! ### Pass lanes -/

/-- A Link packet held until it is acknowledged, and whether it has been sent (R367). -/
structure LinkPkt where
  seq : Nat
  data : List Byte
  sent : Bool
  deriving DecidableEq, Repr

/-- A result that waits for its lane (R366): its region, tag and set, its payload, and its place in device order. -/
structure LaneRes where
  rgn : Nat
  tag : Tag
  set : Bool
  payload : Payload
  order : List Nat
  deriving DecidableEq, Repr

/-- A pass lane: adverts seen in a row, Link transmit and receive state, Stream transmit queue, time markers, and the ordered sets it has
sent, modulo 64 (R357). -/
structure Lane where
  adverts : List (List Byte)
  txSeq : Nat
  unacked : List LinkPkt
  resends : Nat
  since : Nat
  rxSeq : Nat
  nak : Bool
  txq : List LaneRes
  mkSeq : Nat
  mkT1 : Option Nat
  mkRx : Nat
  mkRseq : Nat
  fault : Bool
  sets : Nat
  deriving DecidableEq, Repr

/-! ### Kwanan -/

/-- A session's role (R437). -/
inductive Role where
  | observer | capture | candidate | privileged
  deriving DecidableEq, Repr

/-- A message kept in the retransmit buffer (R430). `capEnd`: for CAPTURE_DATA the pail offset after it. -/
structure Sent where
  seq : Nat
  type : Nat
  body : List Byte
  ref : Nat
  capEnd : Option Nat
  deriving DecidableEq, Repr

/-- An open session (R428 to R440). `rxSeq`: the last SEQ taken; `txSeq`: the last SEQ sent; `sent`: the retransmit buffer;
`sinceAck`: since when the oldest message waits for an ACK; `unackedRx` and `rxAt`: messages taken since the last ACK and when the first
of them came; `lost`: entries lost by message type; `owed`: a challenge waits for room; `taken`: its privilege was taken over;
`reqTick`: the tick at which the frame of its last request crossed the reference plane (R193). -/
structure Sess where
  role : Role
  host : HostAddr
  hnonce : Nat
  epoch : Nat
  minor : Nat
  streams : Nat
  regions : Nat
  rxSeq : Nat
  txSeq : Nat
  sent : List Sent
  timeouts : Nat
  sinceAck : Nat
  unackedRx : Nat
  rxAt : Nat
  lastFrame : Nat
  nonce : Option (List Byte)
  nonceAt : Nat
  fails : Nat
  lost : Store Nat
  owed : Bool
  taken : Bool
  reqTick : Nat
  deriving DecidableEq, Repr

/-- Kwanan: sessions by id, the epochs and nonces given so far, the capture stream's send pointer, the lengths of frames that wait for
their port (R235), and the boot ROM's upload. -/
structure Kwn where
  sess : Store Sess
  epochs : Nat
  capSend : Nat
  nonces : Nat
  txq : List Nat
  upload : Option (List Byte)
  deriving DecidableEq, Repr

/-! ### Security, faults, power, pins -/

/-- A measurement entry (R497). -/
structure Meas where
  kind : Nat
  index : Nat
  set : Bool
  digest : List Byte
  deriving DecidableEq, Repr

/-- The security engine, mailbox and update agent. `ident`: the identity seed when the identity is valid (R490); `puf`: this start's SRAM
read; `owner`: the owner key, empty without owner; `train`: what training finds (vault, channel, density; R416); `meas`: the measurement
entries; `slot`, `imageVer`, `svn`, `hostBoot`, `trial`: the running image; `holder` and `since`: the mailbox's session and its last access;
`challenge`: with the time it was given; `mbxOp`, `mbxResult`, `mbxKey`: the command that runs, the last result, the key it enrols;
`staged`, `stageBusy`: an image stands staged, or is being staged; `armedAt`: the count of an armed activation; `restart`: a service
restart under way, with its start, the gate's state and the regions to resume; `trialAt`: when confirmation began; `faults`: protection faults. -/
structure Sec where
  ident : Option (List Byte)
  puf : List Byte
  owner : List Byte
  train : Option Nat × Option Nat × Nat
  meas : List Meas
  slot : Nat
  imageVer : Nat
  svn : Nat
  hostBoot : Bool
  trial : Bool
  holder : Option Nat
  since : Nat
  challenge : Option (List Byte × Nat)
  mbxOp : Nat
  mbxResult : Nat
  mbxKey : List Byte
  staged : Bool
  stageBusy : Option (List Byte)
  armedAt : Option Nat
  restart : Option (Nat × Bool × List Nat)
  trialAt : Option Nat
  faults : List (Nat × Nat)
  deriving DecidableEq, Repr

/-- Safe state and self-test. `errors`: the S codes and sources of the current safe state; `unlocked`: the clocks that are lost now,
as kind and plain (R509, R513); `slice`: the meadow of a running self-test slice and the task it runs for; `last` and `lastAt`: the
meadow tested last and the start of the current period (R516); `mgFirst`: when the first half of MG_RESET_CMD came (R544). -/
structure FltSt where
  errors : List (Nat × Nat)
  unlocked : List (Nat × Nat)
  stateBefore : Nat
  slice : Option (Nat × Option Nat)
  last : Nat
  lastAt : Nat
  heldReset : Nat
  failMeadow : Nat
  mgFirst : Option Nat
  deriving DecidableEq, Repr

/-- An armed power-point change (R530, R531): target, boundary count (0: at once) and the instant of arming. -/
structure PwrArm where
  target : Nat
  at_ : Nat
  since : Nat
  raised : Bool
  deriving DecidableEq, Repr

/-- Power, vault sensors and rails. `coolSince`: by vault, since when its sensor has read below 82 °C, `sensorHot`: the vaults that
their sensors put into the hot class, `hot`: those in it in this rota period (R406); `warns`: warnings that hold now;
`temps`: by sensor, its latest reading; `outSince`: by rail, since when it has been outside ±5 %; `recal`: by channel, when it was recalibrated last (R417). -/
structure Pwr where
  arm : Option PwrArm
  coolSince : Store Nat
  hot : List Nat
  sensorHot : List Nat
  warns : List Nat
  temps : Store Nat
  outSince : Store Nat
  recal : Store Nat
  resetBall : Bool
  resetStat : Bool
  deriving DecidableEq, Repr

/-- An accepted edge in a TIN FIFO, or a two-step timestamp (R187, R208). -/
structure Stamp where
  n : Nat
  info : Nat
  ovf : Bool
  deriving DecidableEq, Repr

/-- The pins and the time unit's outputs. `touts`: per output, start, period, width, mode, next edge and the instant the pulse
ends; `barrier`: the fabric cycle at which a barrier launch falls due. -/
structure Tout where
  start : Nat
  period : Nat
  width : Nat
  mode : Nat
  next : Nat
  pulseEnd : Option Nat
  level : Bool
  deriving DecidableEq, Repr

/-- Pins, FIFOs and the barrier. -/
structure Pins where
  tin : Store Bool
  tinFifo : Store (List Stamp)
  tinOvf : List Nat
  txts : List Stamp
  txtsOvf : Bool
  touts : Store Tout
  killN : Bool
  trigSince : Store Nat
  barDue : Option Nat
  launchArmed : List Nat
  deriving DecidableEq, Repr

/-! ### Out of the device, and the whole -/

/-- Something that left the device: a frame on a logical port, symbols on a lane, a message of a session, a frame handed to the
control complex, an edge of a pin to a level, an OPEN_ACK, the completion of a load with its refusal code (R160), or an in-band interrupt of the management port. The model's own record of it. -/
inductive Out where
  | frame (lp : Nat) (bytes : List Byte) (stomped : Bool) (n : Nat)
  | lane (l : Nat) (bytes : List Byte)
  | msg (sess type flags ref seq ack : Nat) (body : List Byte)
  | openAck (sess epoch : Nat) (host : HostAddr) (body : List Byte)
  | control (lp : Nat) (bytes : List Byte) (n : Nat)
  | edge (pin : Nat) (level : Bool) (n : Nat)
  | load (rgn code : Nat)
  | interrupt
  deriving DecidableEq, Repr

/-- Everything but the queue and the memories. `regs`: registers that differ from their reset values, by privileged address;
`cyc`: what the current fabric cycle has done to
W1C and RC registers (R14, R15); `census`: the latched copies; `latched`: latched and held halves of register pairs (R176); `notice`: pages with a notice due
and the time of the last one (R465); `free`: the model's own counter for free values. -/
structure Core where
  clk : Clk
  regs : Store Word64
  cyc : Store Word64
  census : Store Word64
  latched : Store Word64
  notices : List Nat
  noticeAt : Store Nat
  errSeq : Store Nat
  sep : Sep
  ford : Ford
  fab : Fabric
  key : KeyStage
  rgns : Store Rgn
  comp : Comp
  task : TaskEng
  cap : Cap
  lanes : Store Lane
  kwn : Kwn
  sec : Sec
  flt : FltSt
  pwr : Pwr
  pins : Pins
  swapArmed : Option (Nat × Nat × Nat)
  censusArmed : Option Nat
  saving : Store (Nat × Nat)
  progs : Store Program
  tmpls : Store Template
  out : List Out
  free : Nat
  deriving DecidableEq, Repr

/-- The state of the block: the queue of commands that wait, first in first out, the memories and the core. -/
structure State where
  pending : List Instr
  mem : Mem
  core : Core
  deriving DecidableEq, Repr

/-! ### Reset -/

/-- A region at reset: idle, with no binary (R93). -/
def Rgn.idle : Rgn :=
  { phase := .idle, faultKind := 0, bins := [none, none], set := false, sect := 0, sched := 0, stallFc := 0, stall := [],
    pendSect := [], anchor := none, stallLen := 0, g0 := 0, firstTick := 0, admitted := 0, relSlot := 0, relPos := 0, relFc := 0, relCount := 0,
    heldAt := 0, lateAt := 0, latePrev := 0, resetWait := false, egressClosed := false, iters := [], cursor := none,
    swapHold := none, swapNext := none, setFrom := none, replay := false, delta := 0 }

/-- A lane at reset. -/
def Lane.off : Lane :=
  { adverts := [], txSeq := 0, unacked := [], resends := 0, since := 0, rxSeq := 255, nak := false, txq := [], mkSeq := 0,
    mkT1 := none, mkRx := 0, mkRseq := 0, fault := false, sets := 0 }

/-- A task entry at reset: FREE, GEN 0 (R305). -/
def Task.free : Task :=
  { st := .free, gen := 0, desc := [], status := 0, code := 0, flags := 0, start := 0, order := 0, seq := 0, finish := none,
    left := [], bad := false, sect := 0, fed := 0, outs := 0 }

/-- The fabric at reset: every memory zeroed, every context idle (R550). -/
def Fabric.empty : Fabric :=
  { ctxs := [], gens := [], ctrs := [], phases := [], digs := [], held := [], orphans := [], fired := [], fly := [],
    delays := [], ctxBad := [], owners := [], written := [], digFifo := [], digNow := [], convs := [], convNow := [], calAt := [], loaded := [], loading := [], holds := [], vreads := [], fetched := [], vwrites := [],
    wrA := [], wrB := [], refresh := [], scrub := [] }

/-- Capture at reset: IDLE. -/
def Cap.idle : Cap :=
  { armed := none, image := [], since := 0, running := false, stopped := false, reason := 0, stopTick := none, capQ := [], seqQ := [],
    seqState := 0, holding := none, holdCount := 0, halted := false, counters := [0, 0, 0, 0],
    timers := [none, none, none, none], trigNo := 0, recNo := 0, windows := [], passed := 0, pulses := [] }

/-- The core right after device reset. Device time is zero (R178), every register reads its reset value, no frame, event,
task, session or record exists. -/
def Core.reset : Core :=
  { clk := { acc := 0, ph := 0, vph := 0, fc := 0, vc := 0, slewLeft := 0, setAt := none, frozen := none }
    regs := [], cyc := [], census := [], latched := [], notices := [], noticeAt := [], errSeq := []
    sep := { frames := [], filters := [], pending := none, pendingDone := false, counts := [], inbox := [] }
    ford := { buf := [], fc := 0, made := 0 }
    fab := Fabric.empty
    key := { undo := [], cache := [], lookups := [], fwd := [], slotPend := none, ring := none, pub := none, pubArmed := [], recent := 0, snap := none }
    rgns := []
    comp := { queues := [], inProg := [], buckets := [], seqs := [], results := [], free := [], answers := [] }
    task := { table := [], nextOrder := 0, nextSeq := 0, roundQ := 0, roundN := 0, waiting := [], plogSeq := 0, plogV := 0,
              holders := [], lastBins := [] }
    cap := Cap.idle
    lanes := []
    kwn := { sess := [], epochs := 0, capSend := 0, nonces := 0, txq := [], upload := none }
    sec := { ident := none, puf := [], owner := [], train := (none, none, 0), meas := [], slot := 0, imageVer := 0, svn := 0,
             hostBoot := false, trial := false, holder := none, since := 0, challenge := none, mbxOp := 0, mbxResult := 0,
             mbxKey := [], staged := false, stageBusy := none, armedAt := none, restart := none, trialAt := none, faults := [] }
    flt := { errors := [], unlocked := [], stateBefore := 0, slice := none, last := 127, lastAt := 0,
             heldReset := 0, failMeadow := 0, mgFirst := none }
    pwr := { arm := none, coolSince := [], hot := [], sensorHot := [], warns := [], temps := [], outSince := [], recal := [],
             resetBall := true, resetStat := false }
    pins := { tin := [], tinFifo := [], tinOvf := [], txts := [], txtsOvf := false, touts := [], killN := true,
              trigSince := [], barDue := none, launchArmed := [] }
    swapArmed := none, censusArmed := none, saving := [], progs := [], tmpls := [], out := [], free := 0 }

/-- The block right after device reset: an empty queue, zeroed memories (R550) and the core at reset. -/
def State.reset : State :=
  { pending := [], mem := { bytes := [], flash := [], poison := [] }, core := Core.reset }

end Sys2Proof.Machine
end

