-- ==== Sys2Proof/Machine/Store.lean ====
section
/-! DEFINITION. Sparse tables in canonical form (keys strictly rising, no entry equal to the default), the byte memories and
the poison marks. -/

namespace Sys2Proof.Machine

variable {α : Type}

/-- The entry of a key, or the default. -/
def Store.get (s : Store α) (d : α) (k : Nat) : α :=
  match s with
  | [] => d
  | (k', v) :: t => if k' = k then v else Store.get t d k

/-- The table with the key's entry removed. -/
def Store.erase (s : Store α) (k : Nat) : Store α :=
  match s with
  | [] => []
  | (k', v) :: t => if k' = k then Store.erase t k else (k', v) :: Store.erase t k

/-- The table with an entry put in its place by rising key; the key is not listed before. -/
def Store.insert (s : Store α) (k : Nat) (v : α) : Store α :=
  match s with
  | [] => [(k, v)]
  | (k', w) :: t => if k < k' then (k, v) :: (k', w) :: t else (k', w) :: Store.insert t k v

/-- Set a key to a value; the default value is not listed. -/
def Store.set [DecidableEq α] (s : Store α) (d : α) (k : Nat) (v : α) : Store α :=
  if v = d then Store.erase s k else Store.insert (Store.erase s k) k v

/-- Change a key's value. -/
def Store.modify [DecidableEq α] (s : Store α) (d : α) (k : Nat) (f : α → α) : Store α :=
  Store.set s d k (f (Store.get s d k))

/-- The canonical form: keys strictly rising, no entry equal to the default. -/
def Store.wf [DecidableEq α] (d : α) : Store α → Bool
  | [] => true
  | [(_, v)] => v ≠ d
  | (k, v) :: (k', v') :: t => k < k' && v ≠ d && Store.wf d ((k', v') :: t)

/-- A byte of device memory; a byte never written since the zeroing reads zero (R550). -/
def Mem.byte (m : Mem) (a : Nat) : Byte := Store.get m.bytes 0 a

/-- Write one byte. -/
def Mem.setByte (m : Mem) (a : Nat) (b : Byte) : Mem := { m with bytes := Store.set m.bytes 0 a b }

/-- The bytes from `a` on, `n` of them. -/
def Mem.read (m : Mem) (a n : Nat) : List Byte :=
  match n with
  | 0 => []
  | n + 1 => m.byte a :: m.read (a + 1) n

/-- Write bytes from `a` on. -/
def Mem.write (m : Mem) (a : Nat) (bs : List Byte) : Mem :=
  match bs with
  | [] => m
  | b :: t => (m.setByte a b).write (a + 1) t

/-- Insert into a rising list without repeats. -/
def insertNat (k : Nat) (l : List Nat) : List Nat :=
  match l with
  | [] => [k]
  | x :: t => if k < x then k :: x :: t else if k = x then x :: t else x :: insertNat k t

/-- Whether the aligned 8-byte word that holds `a` carries the poison code (R410). -/
def Mem.poisoned (m : Mem) (a : Nat) : Bool := m.poison.contains (a / 8)

/-- Whether a word of the range is poisoned. -/
def Mem.poisonIn (m : Mem) (a n : Nat) : Bool := m.poison.any fun w => a / 8 ≤ w && 8 * w < a + n

/-- Put the poison code on the word that holds `a`. -/
def Mem.setPoison (m : Mem) (a : Nat) : Mem := { m with poison := insertNat (a / 8) m.poison }

/-- A write that covers whole words replaces their poison code (R410). -/
def Mem.unpoison (m : Mem) (a n : Nat) : Mem :=
  { m with poison := m.poison.filter fun w => !(a ≤ 8 * w && 8 * w + 8 ≤ a + n) }

/-- Write bytes, replacing the poison code of every word wholly covered. -/
def Mem.store (m : Mem) (a : Nat) (bs : List Byte) : Mem := (m.write a bs).unpoison a bs.length

/-- A byte of the flash (R482). -/
def Mem.flashByte (m : Mem) (a : Nat) : Byte := Store.get m.flash 0 a

/-- Read the flash. -/
def Mem.flashRead (m : Mem) (a n : Nat) : List Byte :=
  match n with
  | 0 => []
  | n + 1 => m.flashByte a :: m.flashRead (a + 1) n

/-- Write the flash. -/
def Mem.flashWrite (m : Mem) (a : Nat) (bs : List Byte) : Mem :=
  match bs with
  | [] => m
  | b :: t => ({ m with flash := Store.set m.flash 0 a b } : Mem).flashWrite (a + 1) t

/-- The memories keep their canonical form. -/
def Mem.wf (m : Mem) : Bool := Store.wf (0 : Byte) m.bytes && Store.wf (0 : Byte) m.flash

/-- Write zero to a range; whole words lose their poison code. -/
def Mem.clear (m : Mem) (a n : Nat) : Mem :=
  ({ m with bytes := m.bytes.filter fun e => !(a ≤ e.1 && e.1 < a + n) } : Mem).unpoison a n

/-- Write listed bytes. -/
def Mem.put (m : Mem) (l : List (Nat × Byte)) : Mem := l.foldl (fun m e => m.setByte e.1 e.2) m

/-- The listed bytes of a range, moved. -/
def Mem.listed (m : Mem) (a n dst : Nat) : List (Nat × Byte) :=
  (m.bytes.filter fun e => a ≤ e.1 && e.1 < a + n).map fun e => (e.1 - a + dst, e.2)

/-- The poisoned words of a range, by the address of their first byte. -/
def Mem.marks (m : Mem) (a n : Nat) : List Nat :=
  (m.poison.filter fun w => a ≤ 8 * w && 8 * w < a + n).map fun w => 8 * w

/-- Copy whole words with their poison marks (R409: MOVE, snapshot and save image). -/
def Mem.copy (m : Mem) (src dst n : Nat) : Mem :=
  (m.marks src n).foldl (fun m a => m.setPoison (a - src + dst)) ((m.clear dst n).put (m.listed src n dst))

end Sys2Proof.Machine
end

