-- ==== Sys2Proof/Machine/Bits.lean ====
section
/-! DEFINITION. Bytes, fields and byte order: little-endian structures (R10), payload bytes (R45), network order for wire
headers, two's complement and masks. -/

namespace Sys2Proof.Machine

/-- A little-endian number (R10). -/
def leNat : List Byte → Nat
  | [] => 0
  | b :: t => b.toNat + 256 * leNat t

/-- A big-endian number. -/
def beNat (l : List Byte) : Nat := l.foldl (fun a b => a * 256 + b.toNat) 0

/-- A number as `n` little-endian bytes. -/
def toLe (n v : Nat) : List Byte :=
  match n with
  | 0 => []
  | n + 1 => BitVec.ofNat 8 v :: toLe n (v / 256)

/-- A number as `n` big-endian bytes. -/
def toBe (n v : Nat) : List Byte := (toLe n v).reverse

/-- `n` bytes of a list from offset `o`; bytes beyond the end read as zero. -/
def slice (l : List Byte) (o n : Nat) : List Byte := ((l.drop o).take n) ++ List.replicate (n - (l.length - o)) 0

/-- A little-endian field of a structure. -/
def fld (l : List Byte) (o n : Nat) : Nat := leNat (slice l o n)

/-- Overwrite bytes of a list from offset `o`; what would lie beyond its end is dropped. -/
def splice (l : List Byte) (o : Nat) (bs : List Byte) : List Byte :=
  ((l.take o) ++ bs ++ l.drop (o + bs.length)).take l.length

/-- Bits [hi:lo] of a number. -/
def bits (v hi lo : Nat) : Nat := (v / 2 ^ lo) % 2 ^ (hi + 1 - lo)

/-- One bit. -/
def bit (v k : Nat) : Bool := v / 2 ^ k % 2 = 1

/-- A number with bits [lo + w - 1 : lo] replaced. -/
def setBits (v lo w x : Nat) : Nat := v - (v / 2 ^ lo % 2 ^ w) * 2 ^ lo + (x % 2 ^ w) * 2 ^ lo

/-- The value of a bit as a number. -/
def b2n (b : Bool) : Nat := if b then 1 else 0

/-- A two's complement number of `w` bits. -/
def signed (w v : Nat) : Int := if 2 ^ (w - 1) ≤ v % 2 ^ w then (v % 2 ^ w : Int) - 2 ^ w else v % 2 ^ w

/-- The `w` low bits of an integer. -/
def unsigned (w : Nat) (i : Int) : Nat := (i % (2 ^ w : Int)).toNat

/-- A payload from its bytes, byte 0 in bits [7:0] (R45). -/
def toPayload (l : List Byte) : Payload := BitVec.ofNat 512 (leNat (l.take 64))

/-- The 64 bytes of a payload. -/
def ofPayload (p : Payload) : List Byte := toLe 64 p.toNat

/-- A field of a payload. -/
def pfld (p : Payload) (o n : Nat) : Nat := (p.toNat / 256 ^ o) % 256 ^ n

/-- A line of memory (64 bytes). -/
def Mem.line (m : Mem) (a : Nat) : Payload := toPayload (m.read a 64)

/-- The little-endian 8-byte word at an address. -/
def Mem.word64 (m : Mem) (a : Nat) : Nat := leNat (m.read a 8)

/-- Ceiling division. -/
def ceilDiv (a b : Nat) : Nat := (a + b - 1) / b

/-- The numbers below `n` whose bit is set in a mask. -/
def maskBits (n v : Nat) : List Nat := (List.range n).filter (bit v)

/-- A mask with the bits of a list set. -/
def toMask (l : List Nat) : Nat := l.foldl (fun a k => a ||| 2 ^ k) 0

/-- Replace the element at an index. -/
def setAt {α : Type} (l : List α) (i : Nat) (x : α) : List α := l.set i x

/-- Remove the element at an index. -/
def removeAt {α : Type} (l : List α) (i : Nat) : List α := l.eraseIdx i

/-- The text of a domain tag or label as bytes (R341, R481). -/
def ascii (s : String) : List Byte := s.toList.map fun c => BitVec.ofNat 8 c.toNat

/-- Select the first element least under a key. -/
def leastBy {α : Type} (le : α → α → Bool) : List α → Option α
  | [] => none
  | x :: t => match leastBy le t with
    | none => some x
    | some y => if le x y then some x else some y

/-- Put an element into a list in order, after those that it does not precede. -/
def insertBy {α : Type} (le : α → α → Bool) (x : α) : List α → List α
  | [] => [x]
  | y :: t => if le y x then y :: insertBy le x t else x :: y :: t

/-- A list in order; equals keep their order. -/
def sortBy {α : Type} (le : α → α → Bool) (l : List α) : List α := l.foldl (fun s x => insertBy le x s) []

/-- Lexicographic order on lists of numbers. -/
def lexLe : List Nat → List Nat → Bool
  | [], _ => true
  | _, [] => false
  | x :: s, y :: t => x < y || (x = y && lexLe s t)

end Sys2Proof.Machine
end

