-- ==== Sys2Proof/Machine/Digests.lean ====
section
/-! DEFINITION. CRC-64/ECMA-182 (R340), the FCS (R362), the CRC-8 of ordered sets (R205) and SHAKE256 (R480). -/

namespace Sys2Proof.Machine

/-- One bit of a most-significant-first CRC of width `w`. -/
def crcBit (w : Nat) (poly : BitVec w) (c : BitVec w) (b : Bool) : BitVec w :=
  let top := c.msb
  let c' := c <<< 1
  if top ≠ b then c' ^^^ poly else c'

/-- One byte, most significant bit first. -/
def crcByte (w : Nat) (poly c : BitVec w) (b : Byte) : BitVec w :=
  [7, 6, 5, 4, 3, 2, 1, 0].foldl (fun c i => crcBit w poly c (b.getLsbD i)) c

/-- The running CRC-64 of R340 over bytes. -/
def crc64From (c : Word64) (l : List Byte) : Word64 := l.foldl (crcByte 64 0x42F0E1EBA9EA3693#64) c

/-- CRC-64 (R340): initial value 0, no reflection, no final XOR. -/
def crc64 (l : List Byte) : Word64 := crc64From 0 l

/-- CRC-8 of R205: polynomial 0x07, initial value 0. -/
def crc8 (l : List Byte) : Byte := l.foldl (crcByte 8 0x07#8) 0

/-- One bit of the reflected CRC-32 of the IEEE 802.3 FCS. -/
def crc32Bit (c : Word32) : Word32 := if c.getLsbD 0 then (c >>> 1) ^^^ 0xEDB88320#32 else c >>> 1

/-- One byte. -/
def crc32Byte (c : Word32) (b : Byte) : Word32 :=
  [0, 1, 2, 3, 4, 5, 6, 7].foldl (fun c _ => crc32Bit c) (c ^^^ b.setWidth 32)

/-- The FCS value of the bytes (R362 names the IEEE 802.3 polynomial, initial value and complement). -/
def crc32 (l : List Byte) : Word32 := ~~~ (l.foldl crc32Byte 0xFFFFFFFF#32)

/-- The bits that the feedback register x^8 + x^6 + x^5 + x^4 + 1 gives from state `r`, which fill the round constants. -/
def lfsrBits (n r : Nat) : List Bool :=
  match n with
  | 0 => []
  | n + 1 => (r % 2 = 1) :: lfsrBits n (if r < 128 then 2 * r else (2 * r) ^^^ 0x171)

/-- The constant of a round from its seven bits: bit j stands at 2^j - 1. -/
def roundConst (bits : List Bool) : Word64 :=
  BitVec.ofNat 64 ((bits.zipIdx.map fun (b, j) => if b then 2 ^ (2 ^ j - 1) else 0).sum)

/-- The constants of `n` rounds from a run of register bits. -/
def roundConsts (n : Nat) (bits : List Bool) : List Word64 :=
  match n with
  | 0 => []
  | n + 1 => roundConst (bits.take 7) :: roundConsts n (bits.drop 7)

/-- The lanes in the order of the walk from (1, 0) by (x, y) to (y, 2x + 3y), each with its place in the walk. A lane is numbered
x + 5y. -/
def laneWalk (n t x y : Nat) : List (Nat × Nat) :=
  match n with
  | 0 => []
  | n + 1 => (x + 5 * y, t) :: laneWalk n (t + 1) y ((2 * x + 3 * y) % 5)

/-- Lane i of a state. -/
def kLane (a : List Word64) (i : Nat) : Word64 := a.getD i 0

/-- Moving a state along the walk: each lane goes to the next place, turned left by the triangular number of its own; lane 0 stays. -/
def walkLanes (walk : List (Nat × Nat)) (a : List Word64) : List Word64 :=
  walk.foldl (fun b (i, t) =>
    let dst := i / 5 + 5 * ((2 * (i % 5) + 3 * (i / 5)) % 5)
    b.set dst ((kLane a i).rotateLeft ((t + 1) * (t + 2) / 2 % 64))) a

/-- The parity of a column. -/
def column (a : List Word64) (x : Nat) : Word64 := [0, 5, 10, 15, 20].foldl (fun p y => p ^^^ kLane a (x % 5 + y)) 0

/-- A round of the permutation behind SHAKE256: columns mixed in, lanes moved, rows combined, the constant put into lane 0. -/
def sponge1 (walk : List (Nat × Nat)) (a : List Word64) (k : Word64) : List Word64 :=
  let mixed := a.zipIdx.map fun (v, i) => v ^^^ column a (i % 5 + 4) ^^^ (column a (i % 5 + 1)).rotateLeft 1
  let moved := walkLanes walk mixed
  let at_ := fun (i dx : Nat) => kLane moved (i / 5 * 5 + (i % 5 + dx) % 5)
  moved.zipIdx.map fun (v, i) => (v ^^^ (at_ i 2 &&& ~~~ at_ i 1)) ^^^ (if i = 0 then k else 0)

/-- The permutation: 24 rounds. -/
def sponge (a : List Word64) : List Word64 := (roundConsts 24 (lfsrBits 168 1)).foldl (sponge1 (laneWalk 24 0 1 0)) a

/-- XOR a block of 136 bytes into the state. -/
def kAbsorb (a : List Word64) (blk : List Byte) : List Word64 :=
  (List.range 25).map fun i => kLane a i ^^^ (if i < 17 then BitVec.ofNat 64 (fld blk (8 * i) 8) else 0)

/-- Absorb the whole blocks of a padded message; `fuel` bounds them. -/
def kRun (fuel : Nat) (a : List Word64) (m : List Byte) : List Word64 :=
  match fuel with
  | 0 => a
  | fuel + 1 => if m.isEmpty then a else kRun fuel (sponge (kAbsorb a (m.take 136))) (m.drop 136)

/-- The first 32 bytes of SHAKE256 (R480: digests and measurements). -/
def shake256 (m : List Byte) : List Byte :=
  let padLen := 136 - m.length % 136
  let pad : List Byte := if padLen = 1 then [0x9F] else [0x1F] ++ List.replicate (padLen - 2) 0 ++ [0x80]
  let a := kRun (m.length / 136 + 1) (List.replicate 25 0) (m ++ pad)
  (List.range 4).flatMap fun i => toLe 8 (kLane a i).toNat

end Sys2Proof.Machine
end

