-- ==== Sys2Proof/Machine/RegMap.lean ====
section
/-! DEFINITION. The register tables: every register of every page with its fields, views, access codes and reset values
(R11 to R16, and the tables of the chapters, cited per row), the page directory (R457) and the lookup of an address. -/

namespace Sys2Proof.Machine

/-- The blocks of the page directory (R457); `hdr` is the common header, `comp0` and `comp1` the two COMP pages, `rgn` the
registers of a meadow page that belong to the region (R92). -/
inductive Block where
  | hdr | dev | time | port | sep | comp0 | comp1 | key | task | cap | pass | lpm | vlt | ctl | sec | flt | pwr | pln | mdw | rgn
  deriving DecidableEq, Repr

/-- The access codes of R13. -/
inductive Acc where
  | ro | rw | w1c | w1s | wo | rc
  deriving DecidableEq, Repr

/-- A field: its lowest bit, width, view, access code and reset value. Bits of no field are reserved (RSV). -/
structure Field where
  lo : Nat
  w : Nat
  priv : Bool
  acc : Acc
  rst : Nat
  deriving DecidableEq, Repr

/-- A register: its block, offset, stride and count of an array, and its fields. -/
structure RegRow where
  block : Block
  off : Nat
  stride : Nat
  count : Nat
  name : String
  fields : List Field
  deriving DecidableEq, Repr

/-- A field of View P. -/
def fp (lo w : Nat) (acc : Acc) (rst : Nat) : Field := ⟨lo, w, true, acc, rst⟩
/-- A field of View U. -/
def fu (lo w : Nat) (acc : Acc) (rst : Nat) : Field := ⟨lo, w, false, acc, rst⟩

/-- The registers of block HDR. -/
def rowsHdr : List RegRow :=
  [⟨.hdr, 0x0, 0x0, 1, "PAGE_ID", [fu 0 8 .ro 0, fu 8 8 .ro 0]⟩ /- R459 -/,
   ⟨.hdr, 0x8, 0x0, 1, "PAGE_VER", [fu 0 8 .ro 1, fu 8 8 .ro 0]⟩ /- R459 -/,
   ⟨.hdr, 0x10, 0x0, 1, "PAGE_CAPS", [fu 0 2 .ro 0, fu 2 1 .ro 0, fu 3 1 .ro 0, fu 4 1 .ro 0]⟩ /- R459 -/,
   ⟨.hdr, 0x18, 0x0, 1, "PAGE_CTRL", [fp 0 1 .rw 0, fp 1 1 .w1s 0, fp 2 1 .rw 0]⟩ /- R459 -/,
   ⟨.hdr, 0x20, 0x0, 1, "PAGE_STATUS", [fu 0 1 .ro 0, fu 1 1 .ro 0, fu 2 1 .ro 0, fu 3 1 .ro 0]⟩ /- R459 -/,
   ⟨.hdr, 0x28, 0x0, 1, "EVT_RAW", [fu 0 64 .ro 0]⟩ /- R459 -/,
   ⟨.hdr, 0x30, 0x0, 1, "EVT_ENABLE", [fp 0 64 .rw 0]⟩ /- R459 -/,
   ⟨.hdr, 0x38, 0x0, 1, "EVT_PEND", [fp 0 64 .w1c 0]⟩ /- R459 -/,
   ⟨.hdr, 0x40, 0x0, 1, "EVT_FORCE", [fp 0 64 .wo 0]⟩ /- R459 -/,
   ⟨.hdr, 0x48, 0x0, 1, "ERR_HEAD", [fp 0 4 .rw 0, fu 8 4 .ro 0, fu 12 1 .ro 0]⟩ /- R459 -/,
   ⟨.hdr, 0x50, 0x0, 1, "ERR_LOST", [fu 0 48 .ro 0, fp 48 4 .w1c 0]⟩ /- R459 -/,
   ⟨.hdr, 0x58, 0x0, 1, "CENSUS_TICK", [fu 0 64 .ro 0]⟩ /- R459 -/,
   ⟨.hdr, 0xF00, 0x8, 32, "ERR_LOG", [fu 0 64 .ro 0]⟩ /- R466 -/]

/-- The registers of block DEV. DESIGN CHOICE (log 8): the straps of DEV_ID, which R16 leaves to the part, stand in State.reset at
PART 0x02 (SH-7440-E), STEPPING 0xA0 (A0) and PLAINS 4; a start sets them to its own part's (Core.enterReset). -/
def rowsDev : List RegRow :=
  [⟨.dev, 0x80, 0x0, 1, "DEV_ID", [fu 0 8 .ro 2, fu 8 8 .ro 0xa0, fu 16 3 .ro 4]⟩ /- R473 -/,
   ⟨.dev, 0x88, 0x0, 1, "DEV_STATUS", [fu 0 3 .ro 0, fu 3 1 .ro 0, fu 4 1 .ro 0]⟩ /- R473 -/,
   ⟨.dev, 0x90, 0x0, 1, "CENSUS_REQ", [fp 0 64 .rw 0]⟩ /- R473 -/,
   ⟨.dev, 0x98, 0x0, 1, "CENSUS_STAT", [fu 0 1 .ro 0, fu 1 1 .ro 0, fp 2 1 .w1c 0]⟩ /- R473 -/,
   ⟨.dev, 0xA0, 0x0, 1, "HEALTH_CONFIRM", [fp 0 32 .wo 0, fu 32 1 .ro 0, fu 33 1 .ro 0, fu 40 8 .ro 0]⟩ /- R473 -/,
   ⟨.dev, 0xA8, 0x0, 1, "DEV_FWI", [fu 0 16 .rw 0, fu 16 16 .ro 0, fu 32 4 .ro 0, fu 36 1 .ro 0]⟩ /- R479 -/,
   ⟨.dev, 0xB0, 0x0, 1, "DEV_RESET", [fu 0 4 .ro 0, fu 4 1 .ro 0, fu 16 16 .ro 0]⟩ /- R524 -/]

/-- The registers of block TIME. -/
def rowsTime : List RegRow :=
  [⟨.time, 0x80, 0x0, 1, "TIME_NOW_LO", [fu 0 16 .ro 0, fu 16 30 .ro 0]⟩ /- R474 -/,
   ⟨.time, 0x88, 0x0, 1, "TIME_NOW_HI", [fu 0 48 .ro 0]⟩ /- R474 -/,
   ⟨.time, 0x90, 0x0, 1, "TIME_NOW_SET_LO", [fp 0 16 .wo 0, fp 16 30 .wo 0]⟩ /- R474 -/,
   ⟨.time, 0x98, 0x0, 1, "TIME_NOW_SET_HI", [fp 0 48 .wo 0]⟩ /- R474 -/,
   ⟨.time, 0xA0, 0x0, 1, "TIME_INCR", [fp 0 33 .rw 0x100000000]⟩ /- R474 -/,
   ⟨.time, 0xA8, 0x0, 1, "VALLEY_COUNT", [fu 0 64 .ro 0]⟩ /- R474 -/,
   ⟨.time, 0xB0, 0x0, 1, "SWAP_AT0", [fp 0 64 .rw 0]⟩ /- R474 -/,
   ⟨.time, 0xB8, 0x0, 1, "SWAP_AT1", [fp 0 8 .rw 0, fp 8 1 .w1s 0, fu 9 1 .ro 0, fp 10 1 .w1c 0, fu 16 8 .ro 0, fu 24 8 .ro 0]⟩ /- R474 -/,
   ⟨.time, 0xC0, 0x0, 1, "FORD_CTRL", [fp 0 2 .rw 1]⟩ /- R474 -/,
   ⟨.time, 0x100, 0x8, 8, "LAUNCH_AT", [fp 0 64 .rw 0]⟩ /- R474 -/,
   ⟨.time, 0x140, 0x8, 8, "FORD_DELAY", [fp 0 10 .rw 0, fu 10 1 .ro 0, fu 16 11 .ro 0]⟩ /- R474 -/,
   ⟨.time, 0x200, 0x0, 1, "TIME_STAT", [fu 0 1 .ro 0, fu 1 1 .ro 0, fu 2 1 .w1c 0, fu 3 1 .w1c 0, fu 4 1 .ro 0]⟩ /- R209 -/,
   ⟨.time, 0x208, 0x0, 1, "TIME_SLEW", [fp 0 24 .rw 0, fp 24 32 .rw 0]⟩ /- R209 -/,
   ⟨.time, 0x210, 0x0, 1, "TIME_ETH_ADJ", [fp 0 32 .rw 0, fp 32 32 .rw 0]⟩ /- R209 -/,
   ⟨.time, 0x218, 0x0, 1, "TIME_TXTS_LO", [fu 0 16 .ro 0, fu 16 30 .ro 0]⟩ /- R209 -/,
   ⟨.time, 0x220, 0x0, 1, "TIME_TXTS_HI", [fu 0 48 .ro 0]⟩ /- R209 -/,
   ⟨.time, 0x228, 0x0, 1, "TIME_TXTS_INFO", [fu 0 16 .ro 0, fu 16 3 .ro 0, fu 19 1 .ro 0, fu 20 1 .ro 0]⟩ /- R209 -/,
   ⟨.time, 0x230, 0x0, 1, "TIME_MKR_CFG", [fp 0 5 .rw 0x14, fp 5 4 .rw 0]⟩ /- R209 -/,
   ⟨.time, 0x240, 0x8, 16, "TIME_LANE_ADJ", [fp 0 32 .rw 0, fp 32 32 .rw 0]⟩ /- R209 -/,
   ⟨.time, 0x300, 0x20, 16, "TIME_TM_T1", [fu 0 64 .ro 0]⟩ /- R209 -/,
   ⟨.time, 0x308, 0x20, 16, "TIME_TM_T2", [fu 0 64 .ro 0]⟩ /- R209 -/,
   ⟨.time, 0x310, 0x20, 16, "TIME_TM_T3", [fu 0 64 .ro 0]⟩ /- R209 -/,
   ⟨.time, 0x318, 0x20, 16, "TIME_TM_T4", [fu 0 64 .ro 0]⟩ /- R209 -/,
   ⟨.time, 0x500, 0x20, 4, "TOUT_START_LO", [fp 0 16 .rw 0, fp 16 30 .rw 0]⟩ /- R209 -/,
   ⟨.time, 0x508, 0x20, 4, "TOUT_START_HI", [fp 0 48 .rw 0]⟩ /- R209 -/,
   ⟨.time, 0x510, 0x20, 4, "TOUT_PERIOD", [fp 0 46 .rw 0]⟩ /- R209 -/,
   ⟨.time, 0x518, 0x20, 4, "TOUT_CTRL", [fp 0 2 .rw 0, fp 2 1 .rw 0, fp 3 32 .rw 0, fu 35 1 .w1c 0, fu 36 1 .ro 0]⟩ /- R209 -/,
   ⟨.time, 0x580, 0x8, 4, "TIN_CFG", [fp 0 1 .rw 0, fp 1 2 .rw 1, fp 3 1 .rw 0, fp 4 1 .rw 0, fp 32 32 .rw 0]⟩ /- R209 -/,
   ⟨.time, 0x5A0, 0x10, 4, "TIN_TS_LO", [fu 0 46 .ro 0]⟩ /- R209 -/,
   ⟨.time, 0x5A8, 0x10, 4, "TIN_TS_HI", [fu 0 48 .ro 0, fu 48 1 .ro 0, fu 49 1 .ro 0, fu 50 1 .ro 0]⟩ /- R209 -/,
   ⟨.time, 0x5E0, 0x8, 4, "TIN_GLITCH", [fu 0 48 .ro 0]⟩ /- R209 -/,
   ⟨.time, 0x600, 0x0, 1, "TIME_PPS", [fu 0 47 .ro 0, fu 47 1 .w1c 0]⟩ /- R209 -/,
   ⟨.time, 0x610, 0x0, 1, "TIME_BAR_CTRL", [fp 0 1 .w1s 0, fp 1 16 .rw 0, fp 17 1 .rw 0, fp 18 16 .rw 0, fp 34 8 .rw 0]⟩ /- R209 -/,
   ⟨.time, 0x618, 0x0, 1, "TIME_BAR_STAT", [fu 0 2 .ro 0, fu 2 16 .ro 0]⟩ /- R209 -/,
   ⟨.time, 0x620, 0x0, 1, "VALLEY_EPOCH_LO", [fp 0 16 .rw 0, fp 16 30 .rw 0]⟩ /- R209 -/,
   ⟨.time, 0x628, 0x0, 1, "VALLEY_EPOCH_HI", [fp 0 48 .rw 0]⟩ /- R209 -/]

/-- The registers of block PORT. -/
def rowsPort : List RegRow :=
  [⟨.port, 0x80, 0x0, 1, "PORT_CFG", [fp 0 2 .rw 0, fp 2 8 .rw 0, fp 10 3 .rw 0, fp 13 3 .rw 0]⟩ /- R241 -/,
   ⟨.port, 0x88, 0x0, 1, "PORT_LINK", [fu 0 8 .ro 0]⟩ /- R241 -/,
   ⟨.port, 0x100, 0x40, 8, "PORT_LP_MAC", [fp 0 48 .rw 0]⟩ /- R241 -/,
   ⟨.port, 0x108, 0x40, 8, "PORT_LP_IP4", [fp 0 32 .rw 0]⟩ /- R241 -/,
   ⟨.port, 0x110, 0x40, 8, "PORT_LP_IP6_LO", [fp 0 64 .rw 0]⟩ /- R241 -/,
   ⟨.port, 0x118, 0x40, 8, "PORT_LP_IP6_HI", [fp 0 64 .rw 0]⟩ /- R241 -/,
   ⟨.port, 0x120, 0x40, 8, "PORT_LP_FRAMES", [fu 0 48 .ro 0]⟩ /- R241 -/,
   ⟨.port, 0x128, 0x40, 8, "PORT_LP_BADFCS", [fu 0 48 .ro 0]⟩ /- R241 -/,
   ⟨.port, 0x130, 0x40, 8, "PORT_LP_FEC", [fu 0 32 .ro 0, fu 32 32 .ro 0]⟩ /- R241 -/,
   ⟨.port, 0x138, 0x40, 8, "PORT_LP_CTL", [fu 0 48 .ro 0]⟩ /- R241 -/]

/-- The registers of block SEP. -/
def rowsSep : List RegRow :=
  [⟨.sep, 0x80, 0x8, 8, "SEP_FLT_DATA", [fp 0 64 .rw 0]⟩ /- R241 -/,
   ⟨.sep, 0xC0, 0x0, 1, "SEP_FLT_AT", [fp 0 64 .rw 0]⟩ /- R241 -/,
   ⟨.sep, 0xC8, 0x0, 1, "SEP_FLT_CMD", [fp 0 12 .wo 0, fp 12 2 .wo 0]⟩ /- R241 -/,
   ⟨.sep, 0xD0, 0x0, 1, "SEP_FLT_STAT", [fu 0 1 .ro 0, fu 1 1 .w1c 0]⟩ /- R241 -/,
   ⟨.sep, 0x100, 0x0, 1, "SEP_EVENTS", [fu 0 48 .ro 0]⟩ /- R241 -/,
   ⟨.sep, 0x108, 0x0, 1, "SEP_NOMATCH", [fu 0 48 .ro 0]⟩ /- R241 -/,
   ⟨.sep, 0x110, 0x0, 1, "SEP_IPCSUM", [fu 0 48 .ro 0]⟩ /- R241 -/,
   ⟨.sep, 0x118, 0x0, 1, "SEP_FRAG", [fu 0 48 .ro 0]⟩ /- R241 -/,
   ⟨.sep, 0x120, 0x0, 1, "SEP_MALFORMED", [fu 0 48 .ro 0]⟩ /- R241 -/,
   ⟨.sep, 0x128, 0x0, 1, "SEP_NOCASE", [fu 0 48 .ro 0]⟩ /- R241 -/,
   ⟨.sep, 0x130, 0x0, 1, "SEP_MSG_LIMIT", [fu 0 48 .ro 0]⟩ /- R241 -/,
   ⟨.sep, 0x138, 0x0, 1, "SEP_KEY_RANGE", [fu 0 48 .ro 0]⟩ /- R241 -/,
   ⟨.sep, 0x140, 0x0, 1, "SEP_BAD_UNREL", [fu 0 48 .ro 0]⟩ /- R241 -/,
   ⟨.sep, 0x148, 0x0, 1, "SEP_RPL_BASE", [fp 0 48 .rw 0]⟩ /- R354 -/,
   ⟨.sep, 0x150, 0x0, 1, "SEP_RPL_LEN", [fp 0 32 .rw 0]⟩ /- R354 -/,
   ⟨.sep, 0x158, 0x0, 1, "SEP_RPL_DELTA", [fp 0 48 .rw 0]⟩ /- R354 -/,
   ⟨.sep, 0x160, 0x0, 1, "SEP_RPL_CTRL", [fp 0 8 .rw 0, fp 8 1 .w1s 0, fp 9 1 .w1s 0]⟩ /- R354 -/,
   ⟨.sep, 0x168, 0x0, 1, "SEP_RPL_STAT", [fu 0 1 .ro 0, fu 1 1 .w1c 0, fu 2 1 .w1c 0, fu 32 32 .ro 0]⟩ /- R354 -/,
   ⟨.sep, 0x170, 0x0, 1, "SEP_RPL_STALL_FC", [fu 0 48 .ro 0]⟩ /- R354 -/,
   ⟨.sep, 0x178, 0x0, 1, "SEP_RPL_SKIPPED", [fu 0 48 .ro 0]⟩ /- R354 -/,
   ⟨.sep, 0x180, 0x0, 1, "SEP_RPL_LIVE_DROP", [fu 0 48 .ro 0]⟩ /- R354 -/,
   ⟨.sep, 0x400, 0x8, 36, "SEP_FORD_DROP", [fu 0 48 .ro 0]⟩ /- R547 -/,
   ⟨.sep, 0x600, 0x8, 36, "SEP_FORD_LATE", [fu 0 48 .ro 0]⟩ /- R547 -/]

/-- The registers of block COMP0. -/
def rowsComp0 : List RegRow :=
  [⟨.comp0, 0x80, 0x0, 1, "COMP_BADACT", [fu 0 48 .ro 0]⟩ /- R241 -/,
   ⟨.comp0, 0x88, 0x0, 1, "COMP_WIN_SEL", [fu 0 8 .rw 0]⟩ /- R242 -/,
   ⟨.comp0, 0xC0, 0x0, 1, "COMP_SENT_W", [fu 0 48 .ro 0]⟩ /- R242 -/,
   ⟨.comp0, 0xC8, 0x0, 1, "COMP_STALE_W", [fu 0 48 .ro 0]⟩ /- R242 -/,
   ⟨.comp0, 0xD0, 0x0, 1, "COMP_CAPPED_W", [fu 0 48 .ro 0]⟩ /- R242 -/,
   ⟨.comp0, 0xD8, 0x0, 1, "COMP_GATED_W", [fu 0 48 .ro 0]⟩ /- R242 -/,
   ⟨.comp0, 0xE0, 0x0, 1, "COMP_QDROP_W", [fu 0 48 .ro 0]⟩ /- R242 -/,
   ⟨.comp0, 0xE8, 0x0, 1, "COMP_STOMPED_W", [fu 0 48 .ro 0]⟩ /- R242 -/,
   ⟨.comp0, 0xF0, 0x0, 1, "COMP_SQUASHED_W", [fu 0 48 .ro 0]⟩ /- R304 -/,
   ⟨.comp0, 0xF8, 0x0, 1, "COMP_HELD_W", [fu 0 48 .ro 0]⟩ /- R304 -/,
   ⟨.comp0, 0x400, 0x8, 256, "COMP_CAP", [fp 0 32 .rw 0, fp 32 16 .rw 0, fp 48 1 .w1s 0]⟩ /- R241 -/]

/-- The registers of block COMP1. DESIGN CHOICE (log 7): the measured bit EGRESS_GATE.KILL_N reads 1 in State.reset (the pin not
asserted) and KILL reads 0; a start sets KILL_N from the pin. -/
def rowsComp1 : List RegRow :=
  [⟨.comp1, 0x80, 0x0, 1, "EGRESS_GATE", [fp 0 1 .rw 0, fp 1 1 .w1c 0, fu 2 1 .ro 1, fu 3 1 .ro 0, fu 4 1 .ro 0]⟩ /- R475 -/,
   ⟨.comp1, 0x400, 0x8, 256, "DEADLINE_NS", [fp 0 16 .rw 0x7d0]⟩ /- R475 -/]

/-- The registers of block KEY. -/
def rowsKey : List RegRow :=
  [⟨.key, 0x80, 0x0, 1, "KEY_CFG", [fp 0 3 .rw 0, fp 3 1 .rw 0]⟩ /- R275 -/,
   ⟨.key, 0x90, 0x0, 1, "KEY_RING_CMD", [fp 0 20 .wo 0, fp 20 7 .wo 0, fp 27 1 .wo 0, fp 28 2 .wo 0]⟩ /- R275 -/,
   ⟨.key, 0x98, 0x0, 1, "KEY_RING_ADDR", [fp 0 48 .rw 0]⟩ /- R275 -/,
   ⟨.key, 0xA0, 0x0, 1, "KEY_RING_STAT", [fu 0 1 .ro 0, fu 1 3 .ro 0]⟩ /- R275 -/,
   ⟨.key, 0xB0, 0x0, 1, "KEY_SLOT_DATA0", [fp 0 64 .rw 0]⟩ /- R275 -/,
   ⟨.key, 0xB8, 0x0, 1, "KEY_SLOT_DATA1", [fp 0 20 .rw 0, fp 31 1 .rw 0]⟩ /- R275 -/,
   ⟨.key, 0xC0, 0x0, 1, "KEY_SLOT_AT", [fp 0 64 .rw 0]⟩ /- R275 -/,
   ⟨.key, 0xC8, 0x0, 1, "KEY_SLOT_CMD", [fp 0 7 .wo 0, fp 7 16 .wo 0, fp 23 2 .wo 0, fp 25 2 .wo 0]⟩ /- R275 -/,
   ⟨.key, 0xD0, 0x0, 1, "KEY_SLOT_STAT", [fu 0 1 .ro 0, fu 1 1 .w1c 0]⟩ /- R275 -/,
   ⟨.key, 0xE8, 0x0, 1, "KEY_PUB_TICK0", [fu 0 64 .ro 0]⟩ /- R276 -/,
   ⟨.key, 0xF0, 0x0, 1, "KEY_PUB_TICK1", [fu 0 64 .ro 0]⟩ /- R276 -/,
   ⟨.key, 0x100, 0x0, 1, "KEY_SNAP_STAT", [fu 0 2 .ro 0]⟩ /- R276 -/,
   ⟨.key, 0x108, 0x0, 1, "KEY_SNAP_TICK", [fu 0 64 .ro 0]⟩ /- R276 -/,
   ⟨.key, 0x180, 0x0, 1, "KEY_APPLIED", [fu 0 48 .ro 0]⟩ /- R277 -/,
   ⟨.key, 0x188, 0x0, 1, "KEY_NULL", [fu 0 48 .ro 0]⟩ /- R277 -/,
   ⟨.key, 0x190, 0x0, 1, "KEY_MISS", [fu 0 48 .ro 0]⟩ /- R277 -/,
   ⟨.key, 0x198, 0x0, 1, "KEY_FWD", [fu 0 48 .ro 0]⟩ /- R277 -/,
   ⟨.key, 0x1A0, 0x0, 1, "KEY_CACHE_HIT", [fu 0 48 .ro 0]⟩ /- R277 -/,
   ⟨.key, 0x1A8, 0x0, 1, "KEY_CACHE_MISS", [fu 0 48 .ro 0]⟩ /- R277 -/,
   ⟨.key, 0x1B0, 0x0, 1, "KEY_DEFER", [fu 0 48 .ro 0]⟩ /- R277 -/,
   ⟨.key, 0x1B8, 0x0, 1, "KEY_DEFER_DROP", [fu 0 48 .ro 0]⟩ /- R277 -/,
   ⟨.key, 0x1C0, 0x0, 1, "KEY_CODE_SAT", [fu 0 48 .ro 0]⟩ /- R277 -/,
   ⟨.key, 0x1C8, 0x0, 1, "KEY_CONV", [fu 0 48 .ro 0]⟩ /- R277 -/,
   ⟨.key, 0x1D0, 0x0, 1, "KEY_PUB_MISSED", [fu 0 48 .ro 0]⟩ /- R277 -/,
   ⟨.key, 0x1D8, 0x0, 1, "KEY_UNDO_LINES", [fu 0 48 .ro 0]⟩ /- R303 -/,
   ⟨.key, 0x1E0, 0x0, 1, "KEY_UNDO_PEAK", [fu 0 11 .rc 0]⟩ /- R303 -/]

/-- The registers of block TASK. -/
def rowsTask : List RegRow :=
  [⟨.task, 0x80, 0x0, 1, "TASK_VER", [fu 0 16 .ro 0, fu 16 8 .ro 0]⟩ /- R329 -/,
   ⟨.task, 0x88, 0x0, 1, "TASK_SQ_BASE", [fp 0 48 .rw 0, fp 48 4 .rw 6]⟩ /- R329 -/,
   ⟨.task, 0x90, 0x0, 1, "TASK_SQ_TAIL", [fp 0 12 .rw 0]⟩ /- R329 -/,
   ⟨.task, 0x98, 0x0, 1, "TASK_SQ_HEAD", [fu 0 12 .ro 0]⟩ /- R329 -/,
   ⟨.task, 0xA0, 0x0, 1, "TASK_CQ_BASE", [fp 0 48 .rw 0, fp 48 4 .rw 6]⟩ /- R329 -/,
   ⟨.task, 0xA8, 0x0, 1, "TASK_CQ_PTR", [fp 0 12 .rw 0, fu 16 12 .ro 0]⟩ /- R329 -/,
   ⟨.task, 0xB0, 0x0, 1, "TASK_PLOG_BASE", [fp 0 48 .rw 0, fp 48 4 .rw 8]⟩ /- R329 -/,
   ⟨.task, 0xB8, 0x0, 1, "TASK_PLOG_PTR", [fp 0 15 .rw 0, fu 16 15 .ro 0]⟩ /- R329 -/,
   ⟨.task, 0xC0, 0x0, 1, "TASK_WEIGHT", [fp 0 64 .rw 0x101010101010101]⟩ /- R329 -/,
   ⟨.task, 0xC8, 0x0, 1, "TASK_CTRL", [fp 0 12 .wo 0, fp 12 4 .wo 0, fp 16 2 .wo 0, fp 18 1 .rw 0]⟩ /- R329 -/,
   ⟨.task, 0xD0, 0x0, 1, "TASK_STAT", [fu 0 13 .ro 0, fu 13 13 .ro 0, fu 26 13 .ro 0, fu 39 1 .ro 0, fu 40 1 .ro 0]⟩ /- R329 -/,
   ⟨.task, 0x100, 0x0, 1, "TASK_ACCEPTED", [fu 0 48 .ro 0]⟩ /- R329 -/,
   ⟨.task, 0x108, 0x0, 1, "TASK_REJECTED", [fu 0 48 .ro 0]⟩ /- R329 -/,
   ⟨.task, 0x110, 0x0, 1, "TASK_COMPLETED", [fu 0 48 .ro 0]⟩ /- R329 -/,
   ⟨.task, 0x118, 0x0, 1, "TASK_CANCELLED", [fu 0 48 .ro 0]⟩ /- R329 -/,
   ⟨.task, 0x120, 0x0, 1, "TASK_STALL_FC", [fu 0 48 .ro 0]⟩ /- R329 -/,
   ⟨.task, 0x128, 0x0, 1, "TASK_RELOADS", [fu 0 48 .ro 0]⟩ /- R329 -/,
   ⟨.task, 0x130, 0x0, 1, "TASK_RELOAD_WAIT", [fu 0 48 .ro 0]⟩ /- R329 -/,
   ⟨.task, 0x138, 0x0, 1, "TASK_PUBLISHED", [fu 0 48 .ro 0]⟩ /- R329 -/]

/-- The registers of block CAP. -/
def rowsCap : List RegRow :=
  [⟨.cap, 0x80, 0x0, 1, "CAP_VER", [fu 0 16 .ro 0]⟩ /- R400 -/,
   ⟨.cap, 0x88, 0x0, 1, "CAP_ARM", [fp 0 48 .rw 0, fp 48 1 .w1s 0]⟩ /- R400 -/,
   ⟨.cap, 0x90, 0x0, 1, "CAP_ARM_AT", [fp 0 64 .rw 0]⟩ /- R400 -/,
   ⟨.cap, 0x98, 0x0, 1, "CAP_CTRL", [fp 0 1 .w1s 0]⟩ /- R400 -/,
   ⟨.cap, 0xA0, 0x0, 1, "CAP_STAT", [fu 0 2 .ro 0, fu 2 2 .ro 0, fu 4 4 .ro 0, fu 8 1 .ro 0, fu 9 1 .ro 0, fu 10 1 .w1c 0]⟩ /- R400 -/,
   ⟨.cap, 0xA8, 0x0, 1, "CAP_PAIL_BASE", [fp 0 48 .rw 0]⟩ /- R400 -/,
   ⟨.cap, 0xB0, 0x0, 1, "CAP_PAIL_SIZE", [fp 0 18 .rw 0]⟩ /- R400 -/,
   ⟨.cap, 0xB8, 0x0, 1, "CAP_PAIL_WR", [fu 0 38 .ro 0]⟩ /- R400 -/,
   ⟨.cap, 0xC0, 0x0, 1, "CAP_PAIL_RD", [fp 0 38 .rw 0]⟩ /- R400 -/,
   ⟨.cap, 0xC8, 0x8, 4, "CAP_CNT", [fu 0 32 .ro 0]⟩ /- R400 -/,
   ⟨.cap, 0xE8, 0x0, 1, "CAP_TRIGGERS", [fu 0 48 .ro 0]⟩ /- R400 -/,
   ⟨.cap, 0xF0, 0x0, 1, "CAP_RECORDS", [fu 0 48 .ro 0]⟩ /- R400 -/,
   ⟨.cap, 0xF8, 0x0, 1, "CAP_SEQ_LAG", [fu 0 32 .rc 0]⟩ /- R400 -/,
   ⟨.cap, 0x100, 0x8, 8, "TRIG_CFG", [fp 0 1 .rw 0, fp 1 2 .rw 1, fp 3 1 .rw 0, fp 4 1 .rw 0, fp 5 4 .rw 4, fp 16 16 .rw 0, fp 32 32 .rw 0]⟩ /- R401 -/,
   ⟨.cap, 0x140, 0x0, 1, "TRIG_STAT", [fu 0 8 .ro 0, fu 8 8 .w1c 0]⟩ /- R401 -/,
   ⟨.cap, 0x148, 0x0, 1, "TRIG_OUT_STAT", [fu 0 8 .ro 0]⟩ /- R401 -/,
   ⟨.cap, 0x180, 0x8, 8, "TRIG_GLITCH", [fu 0 48 .ro 0]⟩ /- R401 -/,
   ⟨.cap, 0x1C0, 0x8, 8, "TRIG_OVERRUN", [fu 0 48 .ro 0]⟩ /- R401 -/]

/-- The registers of block PASS. -/
def rowsPass : List RegRow :=
  [⟨.pass, 0x80, 0x0, 1, "PASS_VER", [fu 0 8 .ro 0, fu 8 8 .ro 0]⟩ /- R372 -/,
   ⟨.pass, 0x100, 0x80, 16, "PASS_CFG", [fp 0 1 .rw 0, fp 1 2 .rw 0, fp 3 6 .rw 0, fp 9 8 .rw 0, fp 17 1 .rw 0]⟩ /- R372 -/,
   ⟨.pass, 0x108, 0x80, 16, "PASS_STAT", [fu 0 3 .ro 0, fu 3 4 .ro 0, fu 7 1 .ro 0, fu 8 1 .ro 0, fu 9 1 .w1c 0, fu 10 1 .w1c 0]⟩ /- R372 -/,
   ⟨.pass, 0x110, 0x80, 16, "PASS_RXWIN", [fp 0 48 .rw 0, fp 48 5 .rw 0xc]⟩ /- R372 -/,
   ⟨.pass, 0x118, 0x80, 16, "PASS_RXPTR", [fp 0 24 .rw 0, fu 32 24 .ro 0]⟩ /- R372 -/,
   ⟨.pass, 0x120, 0x80, 16, "PASS_LTX_CMD", [fp 0 48 .wo 0, fp 48 6 .wo 0, fu 54 1 .w1c 0]⟩ /- R372 -/,
   ⟨.pass, 0x128, 0x80, 16, "PASS_PKT_RX", [fu 0 48 .ro 0]⟩ /- R373 -/,
   ⟨.pass, 0x130, 0x80, 16, "PASS_PKT_TX", [fu 0 48 .ro 0]⟩ /- R373 -/,
   ⟨.pass, 0x138, 0x80, 16, "PASS_BAD_PKT", [fu 0 48 .ro 0]⟩ /- R373 -/,
   ⟨.pass, 0x140, 0x80, 16, "PASS_CODE_VIOL", [fu 0 48 .ro 0]⟩ /- R373 -/,
   ⟨.pass, 0x148, 0x80, 16, "PASS_RETRY", [fu 0 48 .ro 0]⟩ /- R373 -/,
   ⟨.pass, 0x150, 0x80, 16, "PASS_TXQ_DROP", [fu 0 48 .ro 0]⟩ /- R373 -/,
   ⟨.pass, 0x158, 0x80, 16, "PASS_LOCK_LOSS", [fu 0 48 .ro 0]⟩ /- R373 -/]

/-- The registers of block LPM. -/
def rowsLpm : List RegRow :=
  [⟨.lpm, 0x80, 0x0, 1, "LPM_CFG", [fu 0 2 .ro 0, fu 2 1 .ro 0, fu 3 1 .ro 0, fu 4 4 .ro 0, fp 8 1 .rw 1]⟩ /- R423 -/,
   ⟨.lpm, 0x100, 0x8, 5, "LPM_BYTES", [fu 0 48 .ro 0]⟩ /- R423 -/,
   ⟨.lpm, 0x400, 0x20, 12, "LPM_CE", [fu 0 48 .ro 0]⟩ /- R423 -/,
   ⟨.lpm, 0x408, 0x20, 12, "LPM_UE", [fu 0 48 .ro 0]⟩ /- R423 -/,
   ⟨.lpm, 0x410, 0x20, 12, "LPM_RECAL", [fu 0 48 .ro 0]⟩ /- R423 -/]

/-- The registers of block VLT. -/
def rowsVlt : List RegRow :=
  [⟨.vlt, 0x80, 0x0, 1, "VLT_CFG", [fp 0 1 .rw 1, fp 1 1 .rw 0]⟩ /- R422 -/,
   ⟨.vlt, 0x88, 0x0, 1, "VLT_HOT", [fu 0 32 .ro 0]⟩ /- R422 -/,
   ⟨.vlt, 0x90, 0x0, 1, "VLT_TRAIN", [fu 0 1 .ro 0, fu 1 1 .ro 0, fu 2 5 .ro 0]⟩ /- R422 -/,
   ⟨.vlt, 0x400, 0x20, 32, "VLT_TEMP", [fu 0 12 .ro 0]⟩ /- R422 -/,
   ⟨.vlt, 0x408, 0x20, 32, "VLT_CE", [fu 0 48 .ro 0]⟩ /- R422 -/,
   ⟨.vlt, 0x410, 0x20, 32, "VLT_UE", [fu 0 48 .ro 0]⟩ /- R422 -/,
   ⟨.vlt, 0x418, 0x20, 32, "VLT_HOT_PERIODS", [fu 0 48 .ro 0]⟩ /- R422 -/]

/-- The registers of block CTL. -/
def rowsCtl : List RegRow :=
  [⟨.ctl, 0x80, 0x0, 1, "KWN_CFG", [fp 0 16 .rw 0xb4e6, fp 16 1 .rw 1, fp 17 1 .rw 1, fp 18 1 .rw 1, fp 19 1 .rw 1, fp 32 16 .rw 0x32, fp 48 16 .rw 0x3e8]⟩ /- R451 -/,
   ⟨.ctl, 0x88, 0x0, 1, "KWN_VER", [fu 0 16 .ro 0, fu 16 8 .ro 0]⟩ /- R451 -/,
   ⟨.ctl, 0x90, 0x0, 1, "KWN_SESS", [fu 0 64 .ro 0]⟩ /- R451 -/,
   ⟨.ctl, 0x98, 0x0, 1, "KWN_PRIV", [fu 0 6 .ro 0, fu 6 1 .ro 0, fu 7 1 .ro 0, fu 8 6 .ro 0]⟩ /- R451 -/,
   ⟨.ctl, 0xA0, 0x0, 1, "KWN_CTRL", [fp 0 6 .wo 0, fp 6 1 .wo 0]⟩ /- R451 -/,
   ⟨.ctl, 0xA8, 0x0, 1, "KWN_WIN_SEL", [fu 0 6 .rw 0]⟩ /- R451 -/,
   ⟨.ctl, 0xB0, 0x0, 1, "KWN_DISCARD", [fu 0 48 .ro 0]⟩ /- R451 -/,
   ⟨.ctl, 0xC0, 0x0, 1, "KWN_RETX_W", [fu 0 48 .ro 0]⟩ /- R452 -/,
   ⟨.ctl, 0xC8, 0x0, 1, "KWN_LOST_W", [fu 0 48 .ro 0]⟩ /- R452 -/,
   ⟨.ctl, 0xD0, 0x0, 1, "KWN_AUTH_FAIL_W", [fu 0 48 .ro 0]⟩ /- R452 -/,
   ⟨.ctl, 0x100, 0x0, 1, "UPD_SRC", [fp 0 48 .rw 0]⟩ /- R504 -/,
   ⟨.ctl, 0x108, 0x0, 1, "UPD_LEN", [fp 0 32 .rw 0]⟩ /- R504 -/,
   ⟨.ctl, 0x110, 0x0, 1, "UPD_AT", [fp 0 64 .rw 0]⟩ /- R504 -/,
   ⟨.ctl, 0x118, 0x0, 1, "UPD_CMD", [fp 0 3 .wo 0]⟩ /- R504 -/,
   ⟨.ctl, 0x120, 0x0, 1, "UPD_STAT", [fu 0 3 .ro 0, fu 8 8 .ro 0, fu 32 32 .ro 0]⟩ /- R504 -/,
   ⟨.ctl, 0x128, 0x0, 1, "UPD_CFG", [fp 0 1 .rw 0]⟩ /- R504 -/]

/-- The registers of block SEC. -/
def rowsSec : List RegRow :=
  [⟨.sec, 0x80, 0x0, 1, "SEC_BOOT_STAT", [fu 0 1 .ro 0, fu 1 1 .ro 0, fu 2 1 .ro 0, fu 3 1 .ro 0, fu 4 1 .ro 0, fu 8 8 .ro 0, fu 32 32 .ro 0]⟩ /- R503 -/,
   ⟨.sec, 0x88, 0x8, 4, "SEC_ID_DIGEST", [fu 0 64 .ro 0]⟩ /- R503 -/,
   ⟨.sec, 0xA8, 0x8, 4, "SEC_OWNER_DIGEST", [fu 0 64 .ro 0]⟩ /- R503 -/,
   ⟨.sec, 0xC8, 0x0, 1, "SEC_MEAS_SEL", [fu 0 6 .rw 0]⟩ /- R503 -/,
   ⟨.sec, 0xD0, 0x0, 1, "SEC_MEAS_HDR", [fu 0 8 .ro 0, fu 8 8 .ro 0, fu 16 1 .ro 0, fu 17 1 .ro 0]⟩ /- R503 -/,
   ⟨.sec, 0xD8, 0x8, 4, "SEC_MEAS_DIGEST", [fu 0 64 .ro 0]⟩ /- R503 -/,
   ⟨.sec, 0x100, 0x0, 1, "SEC_MBX_CTRL", [fu 0 3 .wo 0]⟩ /- R503 -/,
   ⟨.sec, 0x108, 0x0, 1, "SEC_MBX_STAT", [fu 0 6 .ro 0, fu 6 1 .ro 0, fu 7 1 .ro 0, fu 8 8 .ro 0]⟩ /- R503 -/,
   ⟨.sec, 0x200, 0x8, 416, "SEC_MBX", [fu 0 64 .rw 0]⟩ /- R503 -/]

/-- The registers of block FLT. -/
def rowsFlt : List RegRow :=
  [⟨.flt, 0x80, 0x0, 1, "FLT_STATE", [fu 0 1 .ro 0, fu 1 1 .ro 0, fu 8 8 .ro 0, fu 16 8 .ro 0, fu 24 8 .ro 0]⟩ /- R525 -/,
   ⟨.flt, 0x88, 0x0, 1, "FLT_SAFE_TICK", [fu 0 64 .ro 0]⟩ /- R525 -/,
   ⟨.flt, 0x90, 0x0, 1, "FLT_SAFE_TIME", [fu 0 64 .ro 0]⟩ /- R525 -/,
   ⟨.flt, 0x98, 0x0, 1, "FLT_CTRL", [fp 0 1 .w1s 0, fp 1 1 .w1s 0]⟩ /- R525 -/,
   ⟨.flt, 0xA0, 0x0, 1, "FLT_BIST_CFG", [fp 0 1 .rw 1, fp 1 16 .rw 0x3e8]⟩ /- R525 -/,
   ⟨.flt, 0xA8, 0x0, 1, "FLT_BIST_STAT", [fu 0 7 .ro 0, fu 7 1 .ro 0, fu 8 1 .ro 0, fu 9 7 .ro 0]⟩ /- R525 -/,
   ⟨.flt, 0xB0, 0x0, 1, "FLT_BIST_SIG_EXP", [fu 0 64 .ro 0]⟩ /- R525 -/,
   ⟨.flt, 0xB8, 0x0, 1, "FLT_BIST_SIG_LAST", [fu 0 64 .ro 0]⟩ /- R525 -/,
   ⟨.flt, 0xC0, 0x0, 1, "FLT_STALL_LIMIT", [fp 0 32 .rw 0x100000]⟩ /- R525 -/,
   ⟨.flt, 0x100, 0x0, 1, "FLT_BIST_SLICES", [fu 0 48 .ro 0]⟩ /- R526 -/,
   ⟨.flt, 0x108, 0x0, 1, "FLT_BIST_SKIPPED", [fu 0 48 .ro 0]⟩ /- R526 -/,
   ⟨.flt, 0x110, 0x0, 1, "FLT_BIST_ABANDONED", [fu 0 48 .ro 0]⟩ /- R526 -/,
   ⟨.flt, 0x118, 0x0, 1, "FLT_SAFE_DROPS", [fu 0 48 .ro 0]⟩ /- R526 -/,
   ⟨.flt, 0x120, 0x0, 1, "FLT_SAFE_ENTRIES", [fu 0 48 .ro 0]⟩ /- R526 -/]

/-- The registers of block PWR. -/
def rowsPwr : List RegRow :=
  [⟨.pwr, 0x80, 0x0, 1, "PWR_PT", [fu 0 2 .ro 1, fp 2 2 .rw 1, fp 4 1 .w1s 0, fu 5 1 .ro 0, fp 6 1 .w1c 0]⟩ /- R545 -/,
   ⟨.pwr, 0x88, 0x0, 1, "PWR_PT_AT", [fp 0 64 .rw 0]⟩ /- R545 -/,
   ⟨.pwr, 0x90, 0x0, 1, "PWR_PT_GAPS", [fu 0 48 .ro 0]⟩ /- R545 -/,
   ⟨.pwr, 0x98, 0x0, 1, "PWR_PKG", [fu 0 16 .ro 0, fp 16 16 .rw 0x24e]⟩ /- R545 -/,
   ⟨.pwr, 0xA0, 0x0, 1, "PWR_TWARN", [fp 0 12 .rw 0x640, fp 16 12 .rw 0x5a0, fp 32 12 .rw 0x460]⟩ /- R545 -/,
   ⟨.pwr, 0xA8, 0x0, 1, "PWR_TMAX", [fu 0 12 .ro 0, fu 16 12 .ro 0, fu 32 12 .ro 0]⟩ /- R545 -/,
   ⟨.pwr, 0x100, 0x8, 10, "PWR_RAIL", [fu 0 16 .ro 0, fu 16 16 .ro 0, fu 32 1 .ro 0]⟩ /- R545 -/]

/-- The registers of block PLN. -/
def rowsPln : List RegRow :=
  [⟨.pln, 0x80, 0x0, 1, "PLN_CLK", [fu 0 1 .ro 0, fu 1 1 .ro 0, fu 2 1 .ro 0, fu 3 1 .w1c 0]⟩ /- R546 -/,
   ⟨.pln, 0x88, 0x0, 1, "PLN_VID", [fu 0 8 .ro 0x58]⟩ /- R546 -/,
   ⟨.pln, 0x100, 0x8, 8, "PLN_TEMP", [fu 0 12 .ro 0]⟩ /- R546 -/]

/-- The registers of block MDW. -/
def rowsMdw : List RegRow :=
  [⟨.mdw, 0x80, 0x0, 1, "MDW_REGION", [fp 0 4 .rw 0xf, fu 4 1 .ro 0]⟩ /- R90 -/,
   ⟨.mdw, 0x88, 0x0, 1, "MDW_CTX", [fu 0 2 .ro 0, fu 2 1 .ro 0, fu 4 8 .ro 0, fu 12 8 .ro 0]⟩ /- R91 -/,
   ⟨.mdw, 0xB0, 0x0, 1, "MDW_FAULT", [fu 0 15 .ro 0, fu 15 2 .ro 0, fu 17 16 .ro 0, fu 33 1 .ro 0, fu 34 4 .ro 0, fu 38 1 .w1c 0]⟩ /- R95 -/,
   ⟨.mdw, 0xC0, 0x0, 1, "MDW_VAULT_STALL", [fu 0 48 .ro 0]⟩ /- R94 -/,
   ⟨.mdw, 0xC8, 0x0, 1, "MDW_CTX_STALL", [fu 0 48 .ro 0]⟩ /- R94 -/,
   ⟨.mdw, 0xD0, 0x0, 1, "MDW_ORPHANS", [fu 0 48 .ro 0]⟩ /- R94 -/,
   ⟨.mdw, 0xD8, 0x0, 1, "MDW_LATE_PARTNERS", [fu 0 48 .ro 0]⟩ /- R94 -/,
   ⟨.mdw, 0xE0, 0x0, 1, "MDW_PORT_COLL", [fu 0 48 .ro 0]⟩ /- R94 -/,
   ⟨.mdw, 0xE8, 0x0, 1, "MDW_FLUSH", [fu 0 48 .ro 0]⟩ /- R124 -/,
   ⟨.mdw, 0xF0, 0x0, 1, "MDW_OVERFLOW", [fu 0 48 .ro 0]⟩ /- R124 -/,
   ⟨.mdw, 0xF8, 0x0, 1, "MDW_NAN", [fu 0 48 .ro 0]⟩ /- R124 -/,
   ⟨.mdw, 0x100, 0x0, 1, "MDW_CAL_PEND", [fu 0 32 .w1c 0]⟩ /- R149 -/,
   ⟨.mdw, 0x108, 0x0, 1, "MDW_CAL_LAST", [fu 0 5 .ro 0, fu 5 16 .ro 0, fu 21 1 .ro 0, fu 22 1 .w1c 0]⟩ /- R149 -/,
   ⟨.mdw, 0x170, 0x8, 4, "MDW_DIG_REC", [fu 0 64 .ro 0]⟩ /- R353 -/,
   ⟨.mdw, 0x190, 0x0, 1, "MDW_DIG_CTRL", [fu 0 7 .ro 0, fp 7 1 .w1s 0]⟩ /- R353 -/,
   ⟨.mdw, 0x198, 0x0, 1, "MDW_DIG_LOST", [fu 0 48 .ro 0]⟩ /- R353 -/,
   ⟨.mdw, 0x200, 0x8, 256, "MDW_CELL_STALL", [fu 0 48 .ro 0]⟩ /- R94 -/,
   ⟨.mdw, 0xA00, 0x20, 32, "MDW_CONV_COUNT", [fu 0 48 .ro 0]⟩ /- R147 -/,
   ⟨.mdw, 0xA08, 0x20, 32, "MDW_CONV_SSE", [fu 0 32 .ro 0]⟩ /- R147 -/,
   ⟨.mdw, 0xA10, 0x20, 32, "MDW_CONV_SAT", [fu 0 48 .ro 0]⟩ /- R147 -/,
   ⟨.mdw, 0xA18, 0x20, 32, "MDW_CONV_CFG", [fp 0 16 .rw 0, fp 16 6 .rw 0x14, fp 22 1 .w1s 0]⟩ /- R148 -/]

/-- The registers of block RGN. -/
def rowsRgn : List RegRow :=
  [⟨.rgn, 0x90, 0x0, 1, "MDW_RGN_CTRL", [fp 0 1 .w1s 0, fp 1 1 .w1s 0, fp 2 1 .w1s 0, fp 3 1 .w1s 0]⟩ /- R92 -/,
   ⟨.rgn, 0x98, 0x0, 1, "MDW_RGN_STAT", [fu 0 3 .ro 0, fu 3 1 .ro 0, fu 4 4 .ro 0]⟩ /- R93 -/,
   ⟨.rgn, 0xA0, 0x0, 1, "MDW_RGN_STALL_FC", [fu 0 48 .ro 0]⟩ /- R94 -/,
   ⟨.rgn, 0xA8, 0x0, 1, "MDW_RGN_STALLS", [fu 0 48 .ro 0]⟩ /- R94 -/,
   ⟨.rgn, 0x110, 0x0, 1, "MDW_RGN_LAT_MIN", [fu 0 48 .ro 0xffffffffffff]⟩ /- R162 -/,
   ⟨.rgn, 0x118, 0x0, 1, "MDW_RGN_LAT_MAX", [fu 0 48 .ro 0]⟩ /- R162 -/,
   ⟨.rgn, 0x120, 0x0, 1, "MDW_RGN_LAT_OFF", [fu 0 48 .ro 0]⟩ /- R162 -/,
   ⟨.rgn, 0x128, 0x0, 1, "MDW_RGN_RESULTS", [fu 0 48 .ro 0]⟩ /- R162 -/,
   ⟨.rgn, 0x130, 0x0, 1, "MDW_RGN_BIN", [fu 0 15 .ro 0, fu 15 9 .ro 0, fu 24 1 .ro 0, fu 25 1 .ro 0, fu 26 1 .ro 0, fu 27 1 .ro 0, fu 28 1 .ro 0, fu 29 16 .ro 0]⟩ /- R164 -/,
   ⟨.rgn, 0x138, 0x0, 1, "MDW_RGN_SPEC", [fu 0 48 .ro 0]⟩ /- R302 -/,
   ⟨.rgn, 0x140, 0x0, 1, "MDW_RGN_INHERIT", [fu 0 48 .ro 0]⟩ /- R302 -/,
   ⟨.rgn, 0x148, 0x0, 1, "MDW_RGN_SQUASH", [fu 0 48 .ro 0]⟩ /- R302 -/,
   ⟨.rgn, 0x150, 0x0, 1, "MDW_RGN_UNDO_FULL", [fu 0 48 .ro 0]⟩ /- R302 -/,
   ⟨.rgn, 0x158, 0x0, 1, "MDW_RGN_SAVE", [fp 0 48 .rw 0, fp 48 2 .wo 0]⟩ /- R353 -/,
   ⟨.rgn, 0x160, 0x0, 1, "MDW_RGN_SAVE_STAT", [fu 0 1 .ro 0, fu 1 3 .ro 0]⟩ /- R353 -/]

/-- Every register of the device. -/
def allRows : List RegRow :=
  rowsHdr ++ rowsDev ++ rowsTime ++ rowsPort ++ rowsSep ++ rowsComp0 ++ rowsComp1 ++ rowsKey ++ rowsTask ++ rowsCap ++ rowsPass ++ rowsLpm ++ rowsVlt ++ rowsCtl ++ rowsSec ++ rowsFlt ++ rowsPwr ++ rowsPln ++ rowsMdw ++ rowsRgn

/-- The registers of one block. -/
def blockRows : Block → List RegRow
  | .hdr => rowsHdr
  | .dev => rowsDev
  | .time => rowsTime
  | .port => rowsPort
  | .sep => rowsSep
  | .comp0 => rowsComp0
  | .comp1 => rowsComp1
  | .key => rowsKey
  | .task => rowsTask
  | .cap => rowsCap
  | .pass => rowsPass
  | .lpm => rowsLpm
  | .vlt => rowsVlt
  | .ctl => rowsCtl
  | .sec => rowsSec
  | .flt => rowsFlt
  | .pwr => rowsPwr
  | .pln => rowsPln
  | .mdw => rowsMdw
  | .rgn => rowsRgn

end Sys2Proof.Machine
end

