-- ==== Sys2Proof/Machine/Ops.lean ====
section
/-! DEFINITION. The operations every family shares: the two shapes of a meaning, registers under their access codes, device
time, counters, events and notices, the error log, regions, Kwanan sending and observations. -/

namespace Sys2Proof.Machine

/-- What a meaning answers. -/
abbrev Answer := Host.Outcome State Fault Refusal

/-- The shape of a command that writes no memory: the core changes, the queue and the memories stay. -/
def coreStep (f : Mem → Core → Core) (s : State) : Answer := .next { s with core := f s.mem s.core }

/-- The shape of a command that may write memory. -/
def devStep (f : Mem → Core → Mem × Core) (s : State) : Answer :=
  .next { s with mem := (f s.mem s.core).1, core := (f s.mem s.core).2 }

/-! ### Addresses -/

/-- Page bases (R457). -/
def pDev : Nat := 0x0
def pTime : Nat := 0x10000
def pPort : Nat := 0x20000
def pSep : Nat := 0x30000
def pComp : Nat := 0x40000
def pComp1 : Nat := 0x41000
def pKey : Nat := 0x50000
def pTask : Nat := 0x60000
def pCap : Nat := 0x70000
def pPass : Nat := 0x80000
def pLpm : Nat := 0x90000
def pVlt (p : Nat) : Nat := 0xA0000 + p * 0x1000
def pCtl : Nat := 0xB0000
def pSec : Nat := 0xC0000
def pFlt : Nat := 0xD0000
def pPwr : Nat := 0xE0000
def pMdw (m : Nat) : Nat := 0x100000 + m * 0x1000
def pPln (p : Nat) : Nat := 0x180000 + p * 0x1000
/-- The model's key of the registers of standing region g, which the anchor's page shows (R78). -/
def pRgn (g : Nat) : Nat := 0x20000000 + g * 0x1000
/-- The model's key of counter k of template t (R242, R304). -/
def aTmpl (t k : Nat) : Nat := 0x30000000 + t * 0x40 + k * 8
/-- The model's key of counter k of session s (R452). -/
def aSess (s k : Nat) : Nat := 0x30100000 + s * 0x20 + k * 8

/-- The keys of an RC register in `Core.cyc` (R15): one more than its value before the current fabric cycle, once that value is no longer
the stored one, and the cycle's own update. -/
def aRcOld (a : Nat) : Nat := 0x40000000 + a
def aRcNew (a : Nat) : Nat := 0x48000000 + a

/-- The block and instance of a page (R457), on a device of `pl` plains. -/
def blockAt (pl a : Nat) : Option (Block × Nat) :=
  let pg := a / 0x1000
  if pg = 0 then some (.dev, 0) else if pg = 0x10 then some (.time, 0) else if pg = 0x20 then some (.port, 0)
  else if pg = 0x30 then some (.sep, 0) else if pg = 0x40 then some (.comp0, 0) else if pg = 0x41 then some (.comp1, 1)
  else if pg = 0x50 then some (.key, 0) else if pg = 0x60 then some (.task, 0) else if pg = 0x70 then some (.cap, 0)
  else if pg = 0x80 then some (.pass, 0) else if pg = 0x90 then some (.lpm, 0)
  else if 0xA0 ≤ pg ∧ pg < 0xA0 + pl then some (.vlt, pg - 0xA0)
  else if pg = 0xB0 then some (.ctl, 0) else if pg = 0xC0 then some (.sec, 0) else if pg = 0xD0 then some (.flt, 0)
  else if pg = 0xE0 then some (.pwr, 0)
  else if 0x100 ≤ pg ∧ pg < 0x100 + 32 * pl then some (.mdw, pg - 0x100)
  else if 0x180 ≤ pg ∧ pg < 0x180 + pl then some (.pln, pg - 0x180)
  else if 0x20000 ≤ pg ∧ pg < 0x20008 then some (.rgn, pg - 0x20000)
  else none

/-- The row of a list that holds an offset, with its index. -/
def rowIn (off : Nat) : List RegRow → Option (RegRow × Nat)
  | [] => none
  | r :: t =>
    if r.off ≤ off ∧ ((r.count = 1 ∧ off = r.off) ∨
        (1 < r.count ∧ (off - r.off) % r.stride = 0 ∧ (off - r.off) / r.stride < r.count)) then
      some (r, if r.count = 1 then 0 else (off - r.off) / r.stride)
    else rowIn off t

/-- The register at an address: its block, row and index. -/
def rowAt (pl a : Nat) : Option (Block × RegRow × Nat) :=
  match blockAt pl a with
  | none => none
  | some (b, _) =>
    let off := a % 0x1000
    let rows := if off < 0x80 ∨ 0xF00 ≤ off then rowsHdr
      else match b with | .mdw => rowsMdw ++ rowsRgn | b => blockRows b
    (rowIn off rows).map fun (r, i) => (b, r, i)

/-- Block codes of R457. -/
def blockCode : Block → Nat
  | .dev => 1 | .time => 2 | .port => 3 | .sep => 4 | .comp0 => 5 | .comp1 => 5 | .key => 6 | .task => 7 | .cap => 8
  | .pass => 9 | .lpm => 0xA | .vlt => 0xB | .ctl => 0xC | .sec => 0xD | .flt => 0xE | .pwr => 0xF | .mdw => 0x10
  | .pln => 0x11 | .hdr => 0 | .rgn => 0x10

/-- Whether a page's EN is 1 and fixed (R457). -/
def enFixed : Block → Bool
  | .dev | .time | .lpm | .vlt | .ctl | .sec | .flt | .pwr | .pln => true
  | _ => false

/-- What firmware emulates of a page (R459): 0 none, 1 whole, 2 part. -/
def emulated : Block → Nat
  | .ctl => 1 | .task => 2 | .sec => 2 | _ => 0

/-- Whether a page holds freezable counters. -/
def hasCounters : Block → Bool
  | .dev | .comp1 | .sec | .pln => false
  | _ => true

/-- The reset value of a register's word, by its fields. -/
def rowRst (r : RegRow) : Nat := r.fields.foldl (fun v f => setBits v f.lo f.w f.rst) 0

/-- The value a register holds at reset (R16, R459). -/
def rstWord (a : Nat) : Nat :=
  match rowAt 4 a with
  | none => 0
  | some (b, r, _) =>
    let off := a % 0x1000
    if off = 0 then blockCode b + 256 * ((blockAt 4 a).map (·.2)).getD 0
    else if off = 0x10 then
      emulated b + 4 * b2n (hasCounters b) + 8 * b2n (!enFixed b) + 16 * b2n (!enFixed b)
    else if off = 0x18 then b2n (enFixed b)
    else rowRst r

/-! ### Registers as stored -/

/-- The stored word of a register. -/
def Core.rd (c : Core) (a : Nat) : Nat := (Store.get c.regs (BitVec.ofNat 64 (rstWord a)) a).toNat

/-- Store a register's word. -/
def Core.wr (c : Core) (a v : Nat) : Core :=
  { c with regs := Store.set c.regs (BitVec.ofNat 64 (rstWord a)) a (BitVec.ofNat 64 v) }

/-- A field. -/
def Core.getF (c : Core) (a lo w : Nat) : Nat := c.rd a / 2 ^ lo % 2 ^ w

/-- A one-bit field. -/
def Core.getB (c : Core) (a lo : Nat) : Bool := c.getF a lo 1 = 1

/-- Set a field. -/
def Core.setF (c : Core) (a lo w v : Nat) : Core := c.wr a (setBits (c.rd a) lo w v)

/-- What the current fabric cycle has done to a W1C or RC register. -/
def Core.cycGet (c : Core) (a : Nat) : Nat := (Store.get c.cyc 0 a).toNat
def Core.cycSet (c : Core) (a v : Nat) : Core := { c with cyc := Store.set c.cyc 0 a (BitVec.ofNat 64 v) }

/-- Record the W1C bits of a register that hardware sets in this fabric cycle (R14). -/
def Core.mark (c : Core) (a m : Nat) : Core := c.cycSet a (c.cycGet a ||| m)

/-- Hardware sets a bit of a W1C field: a write that clears it in the same fabric cycle leaves it set (R14). -/
def Core.raiseF (c : Core) (a lo : Nat) : Core := (c.setF a lo 1 1).mark a (2 ^ lo)

/-- A write of `x` to a W1C field clears the bits written as one, but for those set in this fabric cycle (R13, R14). -/
def Core.clearF (c : Core) (a lo w x : Nat) : Core :=
  let x := x % 2 ^ w
  let x := x - (x &&& c.cycGet a / 2 ^ lo)
  c.setF a lo w (c.getF a lo w - (c.getF a lo w &&& x))

/-- Hardware updates an RC register that holds a greatest value (R15). -/
def Core.rcMax (c : Core) (a v : Nat) : Core :=
  let old := if c.cycGet (aRcOld a) = 0 then c.rd a + 1 else c.cycGet (aRcOld a)
  ((c.cycSet (aRcOld a) old).cycSet (aRcNew a) (max v (c.cycGet (aRcNew a)))).wr a (max v (c.rd a))

/-- What a read of an RC register shows: the value before this cycle (R15). -/
def Core.rcWord (c : Core) (a : Nat) : Nat := if c.cycGet (aRcOld a) = 0 then c.rd a else c.cycGet (aRcOld a) - 1

/-- A read of an RC register leaves this cycle's update alone (R15). -/
def Core.rcClear (c : Core) (a : Nat) : Core := (c.wr a (c.cycGet (aRcNew a))).cycSet (aRcOld a) 1

/-- The page base of an address. -/
def pageOf (a : Nat) : Nat := a / 0x1000 * 0x1000

/-- A region (R77). -/
def Core.rgn (c : Core) (g : Nat) : Rgn := Store.get c.rgns Rgn.idle g

/-- Replace a region. -/
def Core.setRgn (c : Core) (g : Nat) (r : Rgn) : Core := { c with rgns := Store.set c.rgns Rgn.idle g r }

/-- Change a region. -/
def Core.modRgn (c : Core) (g : Nat) (f : Rgn → Rgn) : Core := c.setRgn g (f (c.rgn g))

/-- The plains and meadows of the part (R1, R19). -/
def Core.plains (c : Core) : Nat := c.getF 0x80 16 3
def Core.meadows (c : Core) : Nat := 32 * c.plains

/-- The region that a meadow's MDW_REGION names (R90). -/
def Core.rgnField (c : Core) (m : Nat) : Nat := c.getF (pMdw m + 0x80) 0 4

/-- The binary of a set of a region: set A first. -/
def Rgn.bin (r : Rgn) (set : Bool) : Option Loaded := (r.bins.getD (b2n set) none)

/-- The binary the region runs, or else the one in its shadow set. -/
def Rgn.anyBin (r : Rgn) : Option Loaded :=
  match r.bin r.set with | some l => some l | none => r.bin (!r.set)

/-- The least of a list. -/
def least (l : List Nat) : Option Nat := leastBy (fun a b => a ≤ b) l

/-- The anchor of a standing region (R78): fixed when its binary is loaded. Of a region without a binary no rule names one: its
lowest-numbered meadow (DESIGN CHOICE, log 35). -/
def Core.anchor (c : Core) (g : Nat) : Option Nat :=
  match (c.rgn g).anyBin with
  | some l => match (c.rgn g).anchor with
    | some m => some m
    | none => least l.bin.report.meadows
  | none => (List.range c.meadows).find? fun m => c.rgnField m = g

/-- The region whose registers a meadow's page shows: the one it anchors. -/
def Core.anchored (c : Core) (m : Nat) : Option Nat := (List.range 8).find? fun g => c.anchor g = some m

/-- The page whose FREEZE holds a register (R462). -/
def Core.freezePage (c : Core) (a : Nat) : Nat :=
  if 0x30100000 ≤ a then pCtl
  else if 0x30000000 ≤ a then pComp
  else if 0x20000000 ≤ a then pMdw ((c.anchor (a / 0x1000 - 0x20000)).getD 0)
  else pageOf a

/-- Whether the counters of a register's page are held (R462). -/
def Core.frozenAt (c : Core) (a : Nat) : Bool := c.getB (c.freezePage a + 0x18) 2

/-- Add to a counter that wraps modulo 2^48 (R94), unless its page is frozen. -/
def Core.bumpBy (c : Core) (a n : Nat) : Core :=
  if c.frozenAt a then c else c.wr a ((c.rd a + n) % 2 ^ 48)

/-- Count once. -/
def Core.bump (c : Core) (a : Nat) : Core := c.bumpBy a 1

/-- Whether a page is enabled (R458). -/
def Core.en (c : Core) (p : Nat) : Bool := c.getB (p + 0x18) 0

/-! ### Time -/

/-- The increment in force (R178, R180), in 2^-32 ns. -/
def Core.incr (c : Core) : Nat :=
  let base := c.getF (pTime + 0xA0) 0 33
  if c.clk.slewLeft = 0 then base else ((base : Int) + signed 24 (c.getF (pTime + 0x208) 0 24)).toNat

/-- Device time at the current fc boundary in 2^-16 ns, without the wrap of the linear form (R177, R178). -/
def Core.now (c : Core) : Nat := (c.clk.acc + c.clk.ph * c.incr / 88) / 2 ^ 16

/-- Device time at the current time-unit cycle, which a read of TIME_NOW shows (R178). -/
def Core.cycleTime (c : Core) : Nat := c.clk.acc / 2 ^ 16

/-- Device time at a fraction `phi`/2^16 of the current time-unit cycle, truncated to 2^-16 ns (R178, R27). -/
def Core.at_ (c : Core) (phi : Nat) : Nat := (c.clk.acc + phi * c.incr / 2 ^ 16) / 2 ^ 16

/-- Nanoseconds in 2^-16 ns. -/
def nsN (n : Nat) : Nat := n * 2 ^ 16

/-- The linear form (R177). -/
def linear (n : Nat) : Nat := n % 2 ^ 64

/-- The tick period in ns (R190). -/
def Core.tickP (c : Core) : Nat := 2 ^ c.getF (pTime + 0xC0) 0 2

/-- The ordering tick of an instant (R190). -/
def Core.tickAt (c : Core) (n : Nat) : Nat := n / nsN c.tickP % 2 ^ 64

/-- The current tick. -/
def Core.tick (c : Core) : Nat := c.tickAt c.now

/-- Whether the start of a tick lies at least 200 ns after device time (R223, R272, R296, R386). -/
def Core.lead200 (c : Core) (t : Nat) : Bool := c.now + nsN 200 ≤ t * nsN c.tickP

/-- Whether a tick has begun. -/
def Core.tickBegun (c : Core) (t : Nat) : Bool := t * nsN c.tickP ≤ c.now

/-- The valley epoch in ns (R200). -/
def Core.epoch (c : Core) : Nat :=
  c.getF (pTime + 0x628) 0 48 * 10 ^ 9 + c.getF (pTime + 0x620) 16 30

/-- The valley count (R200): zero before the epoch. -/
def Core.valley (c : Core) : Nat := (c.now / 2 ^ 16 - c.epoch) % 2 ^ 64

/-- Whether the instant of a valley count has come; before the epoch nothing falls due (R200). -/
def Core.valleyDue (c : Core) (v : Nat) : Bool := nsN (c.epoch + v) ≤ c.now

/-- tick_of (R201). -/
def Core.tickOf (c : Core) (v : Nat) : Nat := (c.epoch + v) / c.tickP

/-- Device time as SEC and NS with FRAC (R175, R176). -/
def timeHi (n : Nat) : Nat := n / 2 ^ 16 / 10 ^ 9 % 2 ^ 48
def timeLo (n : Nat) : Nat := n / 2 ^ 16 % 10 ^ 9 * 2 ^ 16 + n % 2 ^ 16

/-- An instant moved by a signed adjustment in 2^-16 ns. -/
def adjust (n : Nat) (d : Int) : Nat := ((n : Int) + d).toNat

/-! ### Kwanan messages (R428 to R433) -/

/-- A session. -/
def Core.sess (c : Core) (s : Nat) : Option Sess := (c.kwn.sess.find? fun e => e.1 = s).map (·.2)

/-- Replace a session. -/
def Core.setSess (c : Core) (s : Nat) (x : Sess) : Core :=
  { c with kwn := { c.kwn with sess := Store.insert (Store.erase c.kwn.sess s) s x } }

/-- The bytes a session's retransmit buffer holds (R430). -/
def Sess.used (x : Sess) : Nat := (x.sent.map fun m => 24 + m.body.length).sum

/-- Whether a message fits in the retransmit buffer of 1 MiB. -/
def Sess.fits (x : Sess) (n : Nat) : Bool := x.used + 24 + n ≤ 2 ^ 20

/-- The bytes of a frame that carries a message, without FCS (R424, R425). -/
def kwnFrame (h : HostAddr) (n : Nat) : Nat := max 60 ((match h with | .raw _ => 14 | .udp4 _ _ => 42 | .udp6 _ _ => 62) + 24 + n)

/-- Put a message of a session out; its frame waits for the logical port. Every message carries the current ACK (R428). -/
def Core.message (c : Core) (s : Nat) (x : Sess) (type flags ref seq : Nat) (body : List Byte) : Core :=
  { c with out := c.out ++ [.msg s type (1 + flags) ref seq x.rxSeq body],
           kwn := { c.kwn with txq := c.kwn.txq ++ [kwnFrame x.host body.length] } }

/-- Send a sequenced message; it carries the session's ACK. -/
def Core.sendTo (c : Core) (s type ref : Nat) (body : List Byte) (capEnd : Option Nat) : Core :=
  match c.sess s with
  | none => c
  | some x =>
    let q := (x.txSeq + 1) % 2 ^ 32
    let x' := { x with txSeq := q, sent := x.sent ++ [⟨q, type, body, ref, capEnd⟩], sinceAck := c.now,
                       unackedRx := 0, owed := false }
    let x'' := if x.sent.isEmpty then x' else { x' with sinceAck := x.sinceAck }
    (c.setSess s x'').message s x'' type 0 ref q body

/-- Send stream entries, or count them as lost when the message does not fit (R433). -/
def Core.sendEntries (c : Core) (s type : Nat) (entries : List (List Byte)) : Core :=
  match c.sess s with
  | none => c
  | some x =>
    let lost := Store.get x.lost 0 type
    let body := toLe 4 lost ++ [BitVec.ofNat 8 entries.length, 0, 0, 0] ++ entries.flatten
    if x.fits body.length then
      let c := c.setSess s { x with lost := Store.set x.lost 0 type 0 }
      c.sendTo s type 0 body none
    else
      (c.setSess s { x with lost := Store.set x.lost 0 type (lost + entries.length) }).bumpBy (aSess s 1) entries.length

/-- The sessions that hold a predicate. -/
def Core.sessWhere (c : Core) (p : Sess → Bool) : List Nat := (c.kwn.sess.filter fun e => p e.2).map (·.1)

/-- The privileged session (R437). -/
def Core.privSess (c : Core) : Option Nat := (c.sessWhere fun x => x.role = .privileged).head?

/-- The capture consumer. -/
def Core.capSess (c : Core) : Option Nat := (c.sessWhere fun x => x.role = .capture).head?

/-- A notice of kind PAGE or SESSION (R448). -/
def Core.noticeBytes (c : Core) (page kind data : Nat) : List Byte :=
  toLe 4 page ++ [BitVec.ofNat 8 kind, 0, 0, 0] ++ toLe 8 c.tick ++ toLe 8 (linear c.now) ++ toLe 8 data

/-! ### Events and the error log (R463 to R469) -/

/-- The end of a fabric cycle for W1C and RC registers: what was set or updated in it is no longer of this cycle (R14, R15). -/
def Core.cycleRegs (c : Core) : Core := { c with cyc := [] }

/-- Set PEND bits; a bit of PEND AND ENABLE that rises makes a notice due (R464, R465). -/
def Core.setPend (c : Core) (p mask : Nat) : Core :=
  let old := c.rd (p + 0x38)
  let en := c.rd (p + 0x30)
  let c := c.wr (p + 0x38) (old ||| mask)
  if (mask &&& en) &&& (old ^^^ (2 ^ 64 - 1)) ≠ 0 then { c with notices := insertNat p c.notices } else c

/-- Event k of a page occurs. -/
def Core.event (c : Core) (p k : Nat) : Core :=
  (c.setPend p (2 ^ k)).mark (p + 0x38) (2 ^ k)

/-- Error classes of R466. -/
def clsC : Nat := 1
def clsD : Nat := 2
def clsG : Nat := 3
def clsS : Nat := 4

/-- An entry that finds the log full is lost: counted, its class marked (R467). -/
def Core.logLost (c : Core) (p cls : Nat) : Core :=
  (((if c.frozenAt p then c else c.setF (p + 0x50) 0 48 (c.getF (p + 0x50) 0 48 + 1)).setF (p + 0x50) 48 4
    (c.getF (p + 0x50) 48 4 ||| 2 ^ (cls - 1))).mark (p + 0x50) (2 ^ (47 + cls))).event p 1

/-- Write an entry at TAIL and move TAIL on (R466). -/
def Core.logPut (c : Core) (p seq cls code sub source detail used head tail : Nat) : Core :=
  let first := if used = 0 then 0 else c.getF (p + 0xF10 + 0x20 * (head % 8)) 0 16
  let e := p + 0xF00 + 0x20 * (tail % 8)
  (((((c.wr e (linear c.now)).wr (e + 8) c.tick).wr (e + 16)
    (seq + cls * 2 ^ 16 + b2n (used ≠ 0) * 2 ^ 24 + first * 2 ^ 32 + code * 2 ^ 48 + sub * 2 ^ 56)).wr (e + 24)
    (source % 2 ^ 32 + detail % 2 ^ 32 * 2 ^ 32)).setF (p + 0x48) 8 4 (tail + 1)).event p 0

/-- The next SEQ of a page's log. -/
def Core.nextErr (c : Core) (p : Nat) : Core :=
  { c with errSeq := Store.set c.errSeq 0 p ((Store.get c.errSeq 0 p + 1) % 2 ^ 16) }

/-- Entry i of a page's log. -/
def aLog (p i : Nat) : Nat := p + 0xF00 + 0x20 * (i % 8)

/-- Whether entry i was logged in this cycle and gives way to an error of a class and a source (R467: descending CLASS, ascending
SOURCE). -/
def Core.logYields (c : Core) (p i cls source : Nat) : Bool :=
  c.rd (aLog p i) = linear c.now &&
  (c.getF (aLog p i + 16) 16 8 < cls || (c.getF (aLog p i + 16) 16 8 = cls && source % 2 ^ 32 < c.getF (aLog p i + 24) 0 32))

/-- Give entry i the class, code and sub of a word and a word of source and detail; its number and its nesting stay. -/
def Core.logFill (c : Core) (p i w x : Nat) : Core :=
  let old := c.rd (aLog p i + 16)
  (c.wr (aLog p i + 16) (setBits (setBits old 16 8 (w / 2 ^ 16 % 2 ^ 8)) 48 16 (w / 2 ^ 48 % 2 ^ 16))).wr (aLog p i + 24) x

/-- The entry at i moves before those of the same cycle that give way to it, at most n of them (R467). -/
def Core.logSink (c : Core) (p i : Nat) : Nat → Core
  | 0 => c
  | n + 1 =>
    let j := i + 7
    let w := c.rd (aLog p i + 16)
    let x := c.rd (aLog p i + 24)
    if c.logYields p j (w / 2 ^ 16 % 2 ^ 8) (x % 2 ^ 32) then
      ((c.logFill p i (c.rd (aLog p j + 16)) (c.rd (aLog p j + 24))).logFill p j w x).logSink p j n
    else c

/-- Log an error on a page (R466, R467). Into a full log it goes only in place of an entry of the same cycle that gives way to it; what
finds no room is lost. -/
def Core.logErr (c : Core) (p cls code sub source detail : Nat) : Core :=
  let head := c.getF (p + 0x48) 0 4
  let tail := c.getF (p + 0x48) 8 4
  let used := (tail + 16 - head) % 16
  if 8 ≤ used then
    (if c.logYields p (tail + 7) cls source then
      (((c.nextErr p).logFill p (tail + 7) (cls * 2 ^ 16 + code * 2 ^ 48 + sub * 2 ^ 56)
        (source % 2 ^ 32 + detail % 2 ^ 32 * 2 ^ 32)).logSink p (tail + 7) 7).logLost p (c.getF (aLog p (tail + 7) + 16) 16 8)
     else (c.nextErr p).logLost p cls)
  else ((c.nextErr p).logPut p (Store.get c.errSeq 0 p) cls code sub source detail used head tail).logSink p tail used

/-- Log code REJECT for a write of an offset of a page (R468). -/
def Core.reject (c : Core) (p off v : Nat) : Core := c.logErr p clsC 0x01 0 off (v % 2 ^ 32)

/-- A rejected time write: WRITE_REJ and a class C error (R179). -/
def Core.timeRej (c : Core) (off v : Nat) : Core := (c.raiseF (pTime + 0x200) 3).reject pTime off v

/-! ### Device modes -/

/-- DEV_STATUS.STATE (R473). -/
def Core.devState (c : Core) : Nat := c.getF 0x88 0 3

/-- Whether the device is in safe state (R510). -/
def Core.safe (c : Core) : Bool := c.getB (pFlt + 0x80) 0

/-- Whether firmware reports service, so that emulated registers are served (R456). Through safe state the control complex
goes on (R511). -/
def Core.service (c : Core) : Bool := c.devState = 3 || (c.devState = 5 && c.flt.stateBefore = 3)

/-- Whether the fabric moves: not in safe state, not frozen at a power-point boundary. -/
def Core.fabricOn (c : Core) : Bool := !c.safe && c.clk.frozen.isNone

/-- Whether the device is held in reset (R523). -/
def Core.inReset (c : Core) : Bool := !c.pwr.resetStat

/-! ### Regions -/

/-- Whether a region's cells may fire: launched, running or draining, not stalled, in a fabric that moves (R80, R85). -/
def Core.rgnLive (c : Core) (g : Nat) : Bool :=
  let r := c.rgn g
  c.fabricOn && (r.phase = .running || r.phase = .draining) && r.stall.isEmpty

/-- Whether a region's schedule count moves (R79): launched, neither stalled nor halted, in a fabric that moves. -/
def Core.rgnMoves (c : Core) (g : Nat) : Bool :=
  let r := c.rgn g
  c.fabricOn && (r.phase = .running || r.phase = .draining || r.phase = .drained) && r.stall.isEmpty

/-- The meadow and position of a cell (R44). -/
def cellMeadow (n : Nat) : Nat := n / 256
def cellTerrace (n : Nat) : Nat := n / 16 % 16
def cellPos (n : Nat) : Nat := n % 16

/-- The region a meadow's cells run under: its standing region, or the SECTION task that holds it (16 + entry). -/
def Core.rgnOf (c : Core) (m : Nat) : Nat :=
  if c.rgnField m < 8 then c.rgnField m
  else match (c.task.holders.find? fun e => e.1 = m) with
    | some (_, e) => if e < 4096 then 16 + e else 15
    | none => 15

/-- The meadows of a region: those of its binary. -/
def Rgn.meadows (r : Rgn) : List Nat := (r.anyBin.map fun l => l.bin.report.meadows).getD []

/-- The iteration of a region with a tag and set. -/
def Rgn.iter (r : Rgn) (tag : Tag) (set : Bool) : Option Iter := r.iters.find? fun i => i.tag = tag && i.set = set

/-- Change the iteration with a tag and set. -/
def Rgn.modIter (r : Rgn) (tag : Tag) (set : Bool) (f : Iter → Iter) : Rgn :=
  { r with iters := r.iters.map fun i => if i.tag = tag && i.set = set then f i else i }

/-- STATE codes of R93. -/
def phaseCode : Phase → Nat
  | .idle => 0 | .running => 1 | .draining => 2 | .drained => 3 | .halted => 4

/-- Whether a region is idle or drained. -/
def Rgn.quiet (r : Rgn) : Bool := r.phase = .idle || r.phase = .drained

/-- The slot of a firing (R63). -/
def slotOf (set : Bool) (sect : Nat) : Nat := 4 * b2n set + sect

/-- The context that a cell runs for a set (R63). -/
def Core.ctx (c : Core) (cell : Nat) (set : Bool) : Ctx :=
  Store.get c.fab.ctxs ⟨.idle, [], []⟩ (cell * 8 + slotOf set (c.rgn (c.rgnOf (cellMeadow cell))).sect)

/-- The index of a cell's slot in the per-slot tables. -/
def Core.slotKey (c : Core) (cell : Nat) (set : Bool) : Nat :=
  cell * 8 + slotOf set (c.rgn (c.rgnOf (cellMeadow cell))).sect

/-! ### Observations (R374 to R376) -/

/-- Whether the bit of a source class and index is set in a SRCMASK (R387). -/
def srcBit (cls idx mask : Nat) : Bool :=
  if cls = 4 then bit mask idx else if cls = 3 then bit mask (8 + idx) else if cls = 5 then bit mask (24 + idx) else true

/-- The channel of a kind (R381), and its mode in the image in force. -/
def chanOf (kind : Nat) : Nat :=
  if kind = 1 then 0 else if kind = 2 ∨ kind = 6 ∨ kind = 8 then 1 else if kind = 3 then 2 else if kind = 4 then 3
  else if kind = 5 then 4 else 5
def Cap.mode (k : Cap) (kind : Nat) : Nat := fld k.image 8 2 / 4 ^ chanOf kind % 4

/-- Whether a channel selects an observation's source (R381). -/
def Cap.selects (k : Cap) (o : Obs) : Bool :=
  if o.kind = 3 ∨ o.kind = 7 then bit (fld k.image 18 1) o.rgn else srcBit o.cls o.idx (fld k.image 10 8)

/-- Match unit i of the image: 32 bytes (R388). -/
def Cap.unit (k : Cap) (i : Nat) : List Byte := slice k.image (64 + 32 * i) 32

/-- Whether a match unit names the kind and source of an observation (R388). -/
def unitTakes (u : List Byte) (o : Obs) : Bool :=
  fld u 0 1 = o.kind && (fld u 8 8 = 0 || srcBit o.cls o.idx (fld u 8 8)) &&
  ((o.kind ≠ 3 ∧ o.kind ≠ 7) || fld u 6 1 = 0 || bit (fld u 6 1) o.rgn)

/-- Whether an observation with tick t is none of capture's (R376, R380): capture does not run, or t is before arming or not before
the stop. -/
def Cap.shut (k : Cap) (t : Nat) : Bool :=
  !k.running || t < k.since || (match k.stopTick with | some u => u ≤ t | none => false)

/-- An observation enters the merges that include it (R376). From its arming tick on, and before its stop. -/
def Core.observe (c : Core) (o : Obs) : Core :=
  let k := c.cap
  if k.shut o.tick then c
  else
    let k := if !k.stopped && k.mode o.kind ≠ 0 && k.selects o then { k with capQ := k.capQ ++ [o] } else k
    let k := if !k.halted && (List.range 16).any (fun i => unitTakes (k.unit i) o) then { k with seqQ := k.seqQ ++ [o] } else k
    { c with cap := k }

/-- An observation becomes final (R374): the ones a predicate names. -/
def Core.finalise (c : Core) (p : Obs → Bool) (f : Obs → Obs) : Core :=
  let g := fun (l : List Obs) => l.map fun o => if p o then f o else o
  { c with cap := { c.cap with capQ := g c.cap.capQ, seqQ := g c.cap.seqQ } }

/-- The source class and index of an ingress source s (R547, R191). A frame of a replay file is kept as one of source 64 + s, apart
from the live frames of s. -/
def srcClass (s : Nat) : Nat := let s := s % 64; if s < 8 then 4 else if s < 24 then 3 else 5
def srcIdx (s : Nat) : Nat := let s := s % 64; if s < 8 then s else if s < 24 then s - 8 else s - 24

/-- The length of an fc in 1/88 of a time-unit cycle at a power point (R528). -/
def pointPh (p : Nat) : Nat := if p = 0 then 40 else if p = 1 then 55 else 110

/-- The length of `n` fc in 2^-16 ns at the current power point. -/
def Core.fcN (c : Core) (n : Nat) : Nat := n * pointPh (c.getF (pPwr + 0x80) 0 2) * 2 ^ 16 / 88

/-- A_src in ns (R28). -/
def aSrc (s : Nat) : Nat := let s := s % 64; if s < 8 then 68 else if s < 24 then 30 else 12

/-- Put something out of the device. -/
def Core.emit (c : Core) (o : Out) : Core := { c with out := c.out ++ [o] }

/-- A fresh free value (a value the manual leaves open). -/
def Core.fresh (c : Core) : Nat × Core := (Config.free c.free, { c with free := c.free + 1 })

/-- Only a write through the privileged view reaches a P field (R12). -/
def isPriv (a : Access) : Bool := a.view = .priv

/-- The value of a command's write, with View P bits of an unprivileged write taken out. -/
def wv (v : Word64) : Nat := v.toNat

end Sys2Proof.Machine
end

