-- ==== Sys2Proof/Machine/Num.lean ====
section
/-! DEFINITION. Exact arithmetic on dyadic values, round32 (R106), special values (R107), and the per-lane functions of R110,
computed in fixed point far beyond the precision of the result and rounded once. -/

namespace Sys2Proof.Machine

/-- A value: NaN, an infinity, or (-1)^neg * m * 2^e. -/
inductive Num where
  | nan
  | inf (neg : Bool)
  | fin (neg : Bool) (m : Nat) (e : Int)
  deriving DecidableEq, Repr

/-- The occurrences a computation counts: flushes, overflows and NaN lanes (R124). -/
structure Cnt where
  flush : Nat
  infty : Nat
  nan : Nat
  deriving DecidableEq, Repr

def Cnt.zero : Cnt := ⟨0, 0, 0⟩
def Cnt.add (a b : Cnt) : Cnt := ⟨a.flush + b.flush, a.infty + b.infty, a.nan + b.nan⟩

/-- A value with what its computation counted. -/
abbrev Counted := Num × Cnt

def Num.zero : Num := .fin false 0 0
def Num.one : Num := .fin false 1 0

/-- The number of bits of m. -/
def bitLen (m : Nat) : Nat := if m = 0 then 0 else m.log2 + 1

/-- m * 2^e rounded to `p` significant bits, to nearest with ties to even, exponent unbounded. -/
def roundSig (p m : Nat) (e : Int) : Nat × Int :=
  let n := bitLen m
  if n ≤ p then (m, e)
  else
    let k := n - p
    let q := m / 2 ^ k
    let r := m % 2 ^ k
    let up := 2 ^ (k - 1) < r ∨ (r = 2 ^ (k - 1) ∧ q % 2 = 1)
    let q' := if up then q + 1 else q
    if q' = 2 ^ p then (2 ^ (p - 1), e + k + 1) else (q', e + k)

/-- Whether m * 2^e reaches 2^128, and whether it lies below 2^-126. -/
def tooBig (m : Nat) (e : Int) : Bool := 128 < (bitLen m : Int) + e
def tooSmall (m : Nat) (e : Int) : Bool := m ≠ 0 && (bitLen m : Int) + e < -125

/-- The range step shared by round32, products and expansion: overflow to infinity, flush to zero, both counted. -/
def intoRange (neg : Bool) (m : Nat) (e : Int) : Counted :=
  if tooBig m e then (.inf neg, ⟨0, 1, 0⟩)
  else if tooSmall m e then (.fin neg 0 0, ⟨1, 0, 0⟩)
  else if m = 0 then (.fin neg 0 0, Cnt.zero) else (.fin neg m e, Cnt.zero)

/-- round32 (R106). A NaN leaves as the canonical NaN, counted once (R107). -/
def round32 : Num → Counted
  | .nan => (.nan, ⟨0, 0, 1⟩)
  | .inf n => (.inf n, Cnt.zero)
  | .fin n m e => intoRange n (roundSig 24 m e).1 (roundSig 24 m e).2

/-- Exact negation. -/
def Num.neg : Num → Num
  | .nan => .nan | .inf n => .inf (!n) | .fin n m e => .fin (!n) m e

/-- Exact product with the special values of R107. -/
def Num.mul : Num → Num → Num
  | .nan, _ => .nan
  | _, .nan => .nan
  | .inf a, .inf b => .inf (a != b)
  | .inf a, .fin b m _ => if m = 0 then .nan else .inf (a != b)
  | .fin a m _, .inf b => if m = 0 then .nan else .inf (a != b)
  | .fin a m e, .fin b n f => .fin (a != b) (m * n) (e + f)

/-- The signed significand at exponent `f`, for f at most e. -/
def scaled (neg : Bool) (m : Nat) (e f : Int) : Int :=
  let v : Int := (m * 2 ^ (e - f).toNat : Nat)
  if neg then -v else v

/-- Exact sum with the zero signs of R107. -/
def Num.add : Num → Num → Num
  | .nan, _ => .nan
  | _, .nan => .nan
  | .inf a, .inf b => if a = b then .inf a else .nan
  | .inf a, .fin .. => .inf a
  | .fin .., .inf b => .inf b
  | .fin a m e, .fin b n f =>
    if m = 0 ∧ n = 0 then .fin (a && b) 0 0
    else
      let g := min e f
      let s := scaled a m e g + scaled b n f g
      .fin (s < 0) s.natAbs g

/-- Multiply by a power of two. -/
def Num.shift (x : Num) (s : Int) : Num := match x with | .fin n m e => .fin n m (e + s) | x => x

/-- Order of values; -0 lies below +0 when `zeros` (R113). NaN never orders. -/
def Num.lt (zeros : Bool) : Num → Num → Bool
  | .nan, _ => false
  | _, .nan => false
  | .inf a, .inf b => a && !b
  | .inf a, .fin .. => a
  | .fin .., .inf b => !b
  | .fin a m e, .fin b n f =>
    if m = 0 ∧ n = 0 then zeros && a && !b
    else scaled a m e (min e f) < scaled b n f (min e f)

def Num.isNan : Num → Bool | .nan => true | _ => false
def Num.isFin : Num → Bool | .fin .. => true | _ => false
def Num.abs : Num → Num | .nan => .nan | .inf _ => .inf false | .fin _ m e => .fin false m e

/-- An integer as a value. -/
def Num.ofInt (i : Int) : Num := .fin (i < 0) i.natAbs 0

/-! ### binary32 codes -/

/-- The canonical NaN (R107). -/
def nan32 : Nat := 0x7FC00000

/-- A float code with `eb` exponent bits and `fb` fraction bits, read exactly, subnormals included (R97). `top`: the highest
exponent field is kept for infinity and NaN. -/
def decFloat (eb fb : Nat) (top : Bool) (w : Nat) : Num :=
  let neg := bit w (eb + fb)
  let e := w / 2 ^ fb % 2 ^ eb
  let f := w % 2 ^ fb
  let bias : Int := (2 ^ (eb - 1) - 1 : Nat)
  if top ∧ e = 2 ^ eb - 1 then (if f = 0 then .inf neg else .nan)
  else if e = 0 then .fin neg f (1 - bias - fb)
  else .fin neg (2 ^ fb + f) (e - bias - fb)

/-- A binary32 input: a subnormal is read as zero of its sign and counted (R98). -/
def dec32 (w : Nat) : Counted :=
  if w / 2 ^ 23 % 256 = 0 ∧ w % 2 ^ 23 ≠ 0 then (.fin (bit w 31) 0 0, ⟨1, 0, 0⟩)
  else (decFloat 8 23 true w, Cnt.zero)

/-- The binary32 code of a rounded value. -/
def enc32 : Num → Nat
  | .nan => nan32
  | .inf n => 0x7F800000 + b2n n * 2 ^ 31
  | .fin n m e =>
    if m = 0 then b2n n * 2 ^ 31
    else
      let k := 24 - bitLen m
      let m' := m * 2 ^ k
      let ex := e - k + 150
      b2n n * 2 ^ 31 + ex.toNat * 2 ^ 23 + m' % 2 ^ 23

/-! ### Fixed point -/

/-- Fraction bits of the fixed-point work. -/
def fxP : Nat := 420

/-- Fixed-point product. -/
def fxMul (a b : Int) : Int := a * b / (2 ^ fxP : Int)

/-- Terms of atanh: z, z^3/3, … summed. `zz` is z squared. -/
def atanhLoop (fuel : Nat) (zz p : Int) (k : Nat) (acc : Int) : Int :=
  match fuel with
  | 0 => acc
  | fuel + 1 => atanhLoop fuel zz (fxMul p zz) (k + 2) (acc + p / (k : Int))

/-- ln t for t in fixed point, 1 ≤ t ≤ 2. -/
def fxLn (t : Int) : Int :=
  let one : Int := 2 ^ fxP
  let z := (t - one) * one / (t + one)
  2 * atanhLoop 140 (fxMul z z) z 1 0

/-- ln 2. -/
def fxLn2 : Int := fxLn (2 ^ (fxP + 1))

/-- Terms of the exponential. -/
def expLoop (fuel : Nat) (r p : Int) (k : Nat) (acc : Int) : Int :=
  match fuel with
  | 0 => acc
  | fuel + 1 => expLoop fuel r (fxMul p r / (k : Int)) (k + 1) (acc + p)

/-- e^r for 0 ≤ r < 1. -/
def fxExp (r : Int) : Int := expLoop 110 r (2 ^ fxP) 1 0

/-- e^y as a fixed-point significand and a power of two, for any fixed-point y. -/
def expSplit (y : Int) : Int × Int :=
  let k := y / fxLn2
  (fxExp (y - k * fxLn2), k)

/-- A finite value in fixed point (exact for every binary32 input). -/
def toFx (neg : Bool) (m : Nat) (e : Int) : Int :=
  let v : Int := if 0 ≤ e + fxP then (m * 2 ^ (e + fxP).toNat : Nat) else (m / 2 ^ (-(e + fxP)).toNat : Nat)
  if neg then -v else v

/-- An inexact fixed-point value times 2^k, with a sticky bit below it. -/
def fromFx (v k : Int) : Num := .fin (v < 0) (2 * v.natAbs + 1) (k - fxP - 1)

/-- Floor of the square root, by halving steps from the top bit; `fuel` counts the bits. -/
def isqrtLoop (fuel n r : Nat) : Nat :=
  match fuel with
  | 0 => r
  | fuel + 1 => let t := r + 2 ^ fuel; isqrtLoop fuel n (if t * t ≤ n then t else r)
def isqrt (n : Nat) : Nat := isqrtLoop (bitLen n / 2 + 1) n 0

/-! ### The functions of R110 -/

/-- 2^x. -/
def fnExp2 : Num → Counted
  | .nan => (.nan, ⟨0, 0, 1⟩)
  | .inf n => (if n then Num.zero else .inf false, Cnt.zero)
  | .fin n m e =>
    if m = 0 then (Num.one, Cnt.zero)
    else if !Num.lt false (.fin n m e) (.ofInt 128) then (.inf false, ⟨0, 1, 0⟩)
    else if Num.lt false (.fin n m e) (.ofInt (-126)) then (Num.zero, ⟨1, 0, 0⟩)
    else
      let y := toFx n m e
      let k := y / (2 ^ fxP : Int)
      let f := y - k * 2 ^ fxP
      if f = 0 then round32 (.fin false 1 k) else round32 (fromFx (fxExp (fxMul f fxLn2)) k)

/-- log2 x. -/
def fnLog2 : Num → Counted
  | .nan => (.nan, ⟨0, 0, 1⟩)
  | .inf n => if n then (.nan, ⟨0, 0, 1⟩) else (.inf false, Cnt.zero)
  | .fin n m e =>
    if m = 0 then (.inf true, Cnt.zero)
    else if n then (.nan, ⟨0, 0, 1⟩)
    else
      let b := bitLen m
      let ex : Int := e + b - 1
      if m = 2 ^ (b - 1) then round32 (.ofInt ex)
      else
        let t : Int := (m * 2 ^ (fxP + 1 - b) : Nat)
        round32 (fromFx (ex * 2 ^ fxP + fxLn t * 2 ^ fxP / fxLn2) 0)

/-- 1/x. -/
def fnRcp : Num → Counted
  | .nan => (.nan, ⟨0, 0, 1⟩)
  | .inf n => (.fin n 0 0, Cnt.zero)
  | .fin n m e =>
    if m = 0 then (.inf n, Cnt.zero)
    else
      let q := 2 ^ 80 / m
      let s := b2n (2 ^ 80 % m ≠ 0)
      round32 (.fin n (2 * q + s) (-e - 81))

/-- sqrt x. -/
def fnSqrt : Num → Counted
  | .nan => (.nan, ⟨0, 0, 1⟩)
  | .inf n => if n then (.nan, ⟨0, 0, 1⟩) else (.inf false, Cnt.zero)
  | .fin n m e =>
    if m = 0 then (.fin n 0 0, Cnt.zero)
    else if n then (.nan, ⟨0, 0, 1⟩)
    else
      let odd := e % 2 = 1
      let m' := (if odd then 2 * m else m) * 2 ^ 80
      let e' := (if odd then e - 1 else e) - 80
      let r := isqrt m'
      round32 (.fin false (2 * r + b2n (r * r ≠ m')) (e' / 2 - 1))

/-- 1/sqrt x. -/
def fnRsqrt : Num → Counted
  | .nan => (.nan, ⟨0, 0, 1⟩)
  | .inf n => if n then (.nan, ⟨0, 0, 1⟩) else (Num.zero, Cnt.zero)
  | .fin n m e =>
    if m = 0 then (.inf n, Cnt.zero)
    else if n then (.nan, ⟨0, 0, 1⟩)
    else
      let odd := e % 2 = 1
      let m' := if odd then 2 * m else m
      let e' := if odd then e - 1 else e
      -- sqrt(2^160 / m') with the sticky bit of both divisions
      let q := 2 ^ 160 / m'
      let r := isqrt q
      let exact := r * r * m' = 2 ^ 160
      round32 (.fin false (2 * r + b2n (!exact)) (-(e' / 2) - 81))

/-- tanh x. -/
def fnTanh : Num → Counted
  | .nan => (.nan, ⟨0, 0, 1⟩)
  | .inf n => (.fin n 1 0, Cnt.zero)
  | .fin n m e =>
    if m = 0 then (.fin n 0 0, Cnt.zero)
    else if !Num.lt false (.mul (.fin false m e) (.ofInt 10)) (.ofInt 91) then (.fin n 1 0, Cnt.zero)
    else
      let (v, k) := expSplit (2 * toFx false m e)
      let one : Int := 2 ^ fxP
      let x := v * 2 ^ k.toNat
      let q := (x - one) * one / (x + one)
      round32 (.fin n (2 * q.toNat + 1) (-(fxP : Int) - 1))

/-- 1 / (1 + e^-x). -/
def fnLogistic : Num → Counted
  | .nan => (.nan, ⟨0, 0, 1⟩)
  | .inf n => (if n then Num.zero else Num.one, Cnt.zero)
  | .fin n m e =>
    if m = 0 then (.fin false 1 (-1), Cnt.zero)
    else if !Num.lt false (.fin n m e) (.ofInt 17) then (Num.one, Cnt.zero)
    else if Num.lt false (.fin n m e) (.ofInt (-100)) then (Num.zero, ⟨1, 0, 0⟩)
    else
      let (v, k) := expSplit (-(toFx n m e))
      let one : Int := 2 ^ fxP
      let x := if 0 ≤ k then v * 2 ^ k.toNat else v / 2 ^ (-k).toNat
      let q := one * one * 2 ^ 40 / (one + x)
      round32 (.fin false (2 * q.toNat + 1) (-(fxP : Int) - 41))

/-- floor of an exact finite value. -/
def floorInt (neg : Bool) (m : Nat) (e : Int) : Int := 
  let v : Int := if neg then -(m : Int) else m
  if 0 ≤ e then v * 2 ^ e.toNat else v / 2 ^ (-e).toNat

/-- The segment of a PWL lane (R112). -/
def pwlIndex (x x0 : Num) (wlog : Int) : Nat :=
  match x.add x0.neg with
  | .fin n m e =>
    let i := floorInt n m (e - wlog)
    if i < 0 then 0 else if 63 < i then 63 else i.toNat
  | .inf true => 0
  | _ => 63

/-- The PWL function (R112): two roundings. -/
def fnPwl (t : PwlTable) (x : Num) : Counted :=
  match x with
  | .nan => (.nan, ⟨0, 0, 1⟩)
  | x =>
    let x0 := dec32 t.x0.toNat
    let i := pwlIndex x x0.1 t.wlog
    let (a, ca) := dec32 (t.a.getD i 0).toNat
    let (b, cb) := dec32 (t.b.getD i 0).toNat
    let (y, c1) := round32 (a.mul x)
    let (z, c2) := round32 (y.add b)
    -- a NaN of the first rounding is passed on and counted once per lane (R107)
    (z, (((x0.2.add ca).add cb).add (if y.isNan then Cnt.zero else c1)).add c2)

/-- A rounded sum (R106). -/
def addR (x y : Num) : Counted := round32 (x.add y)

/-- round to nearest, ties to even, of an exact rational a / b with b > 0, to an integer. -/
def roundDiv (a : Int) (b : Nat) : Int :=
  let q := a / (b : Int)
  let r := (a % (b : Int)).toNat
  if b < 2 * r ∨ (2 * r = b ∧ q % 2 = 1) then q + 1 else q

/-- round of an exact finite value to an integer. -/
def roundInt (neg : Bool) (m : Nat) (e : Int) : Int :=
  let v : Int := if neg then -(m : Int) else m
  if 0 ≤ e then v * 2 ^ e.toNat else roundDiv v (2 ^ (-e).toNat)

end Sys2Proof.Machine
end

