-- ==== Sys2Proof/Machine/Flags.lean ====
section
/-! DEFINITION. Crediting what a firing counted to its meadow: flushes, overflows and NaN (R124), and the converter statistics
with their windows and calibration events (R142 to R149). -/

namespace Sys2Proof.Machine

/-- Credit the arithmetic counters of meadow m (R124): values, not firings. -/
def Core.credit (c : Core) (m : Nat) (k : Cnt) : Core :=
  let c := if k.flush = 0 then c else c.bumpBy (pMdw m + 0xE8) k.flush
  let c := if k.infty = 0 then c else c.bumpBy (pMdw m + 0xF0) k.infty
  if k.nan = 0 then c else c.bumpBy (pMdw m + 0xF8) k.nan

/-- What a QUANT lane reports to the converter: whether it saturated, and its squared error when its input is finite. -/
structure LaneStat where
  sat : Bool
  err : Option Num
  deriving DecidableEq, Repr

/-- The converter of an SFN cell (R142): 2t for position 7, 2t + 1 for position 9. -/
def convOf (cell : Nat) : Nat := 2 * cellTerrace cell + b2n (cellPos cell = 9)

/-- The base of a converter's registers (R147). -/
def aConv (m k : Nat) : Nat := pMdw m + 0xA00 + 0x20 * k

/-- The empty window. -/
def ConvWin.empty : ConvWin := ⟨0, 0, false⟩

/-- A converter's window in the fabric. -/
def Core.convWin (c : Core) (m k : Nat) : ConvWin := Store.get c.fab.convs ConvWin.empty (m * 32 + k)
def Core.setConvWin (c : Core) (m k : Nat) (w : ConvWin) : Core :=
  { c with fab := { c.fab with convs := Store.set c.fab.convs ConvWin.empty (m * 32 + k) w } }

/-- Raise the calibration event of converter k (R144, R149). Of two in one cycle the lower-numbered stays in CAL_LAST. -/
def Core.calEvent (c : Core) (m k : Nat) (tag : Tag) (set : Bool) : Core :=
  let c := (c.wr (pMdw m + 0x100) (c.rd (pMdw m + 0x100) ||| 2 ^ k)).mark (pMdw m + 0x100) (2 ^ k)
  let keep := Store.get c.fab.calAt 0 m = c.clk.fc + 1 && c.getF (pMdw m + 0x108) 0 5 < k
  let c := if keep then c else (c.wr (pMdw m + 0x108) (k + tag.toNat * 2 ^ 5 + b2n set * 2 ^ 21 + 2 ^ 22)).mark (pMdw m + 0x108) (2 ^ 22)
  let c := { c with fab := { c.fab with calAt := Store.set c.fab.calAt 0 m (c.clk.fc + 1) } }
  c.event (pMdw m) 8

/-- Count one lane (R142, R144). -/
def Core.countLane (c : Core) (m k : Nat) (tag : Tag) (set : Bool) (l : LaneStat) : Core :=
  let a := aConv m k
  if c.frozenAt a then c
  else
    let c := c.bump a
    let c := if l.sat then c.bump (a + 0x10) else c
    let c := match l.err with
      | none => c
      | some q => c.wr (a + 8) (enc32 (round32 ((dec32 (c.rd (a + 8))).1.add q)).1)
    let thr := c.getF (a + 0x18) 0 16
    let w := c.convWin m k
    let w := { w with lanes := w.lanes + 1, sats := w.sats + b2n l.sat }
    let hit := l.sat && thr ≠ 0 && w.sats = thr && !w.raised
    let c := if hit then c.calEvent m k tag set else c
    let w := { w with raised := w.raised || hit }
    c.setConvWin m k (if 2 ^ c.getF (a + 0x18) 16 6 ≤ w.lanes then ConvWin.empty else w)

/-- The model's key of the mark that a census has been taken in this fabric cycle. -/
def aCensusNow : Nat := 0x50000000

/-- A census holds the converter's statistics as the fc of the census leaves them, lanes counted after it in that fc included (R146). -/
def Core.convCensus (c : Core) (m k : Nat) : Core :=
  if c.cycGet aCensusNow = 0 then c
  else [0, 8, 16].foldl (fun c o => { c with census := Store.set c.census 0 (aConv m k + o) (BitVec.ofNat 64 (c.rd (aConv m k + o))) }) c

/-- Count one lane, and remember it for a CLR of this fabric cycle (R146). -/
def Core.convLane (c : Core) (m k : Nat) (tag : Tag) (set : Bool) (l : LaneStat) : Core :=
  if c.frozenAt (aConv m k) then c
  else
    let c := c.countLane m k tag set l
    let x : ConvLane := ⟨m * 32 + k, tag, set, l.sat, l.err.map fun q => BitVec.ofNat 32 (enc32 q)⟩
    { c with fab := { c.fab with convNow := c.fab.convNow ++ [x] } }

/-- Count the lanes of a firing in lane order. -/
def Core.convLanes (c : Core) (m k : Nat) (tag : Tag) (set : Bool) (l : List LaneStat) : Core :=
  (l.foldl (fun c x => c.convLane m k tag set x) c).convCensus m k

/-- CLR (R146): the statistics and the window start from zero, and then hold exactly the lanes of this fabric cycle. -/
def Core.convClr (c : Core) (m k : Nat) : Core :=
  let a := aConv m k
  let c := (((c.wr a 0).wr (a + 8) 0).wr (a + 16) 0).setConvWin m k ConvWin.empty
  (c.fab.convNow.filter fun (x : ConvLane) => x.conv = m * 32 + k).foldl (fun c x =>
    c.countLane m k x.tag x.set ⟨x.sat, x.err.map fun w => (dec32 w.toNat).1⟩) c

end Sys2Proof.Machine
end

