-- ==== Sys2Proof/Machine/Operands.lean ====
section
/-! DEFINITION. The codes (R96 to R98), their places in a payload (R102), expansion to M20 (R100, R101), the MUL datapath
(R104 to R107), the lane operations of an SFN (R109 to R114), the converter (R115 to R118, R126 to R137) and SCAN (R139,
R140). -/

namespace Sys2Proof.Machine

/-! ### Codes -/

/-- The width of a code in bits (R96). -/
def codeWidth : Code → Nat
  | .int4 | .uint4 | .e2m1 => 4
  | .e3m2 => 6
  | .int8 | .uint8 | .e4m3 | .e5m2 => 8
  | .binary16 | .bfloat16 => 16
  | .binary32 => 32

/-- Whether a code is an integer. -/
def codeIsInt : Code → Bool
  | .int4 | .uint4 | .int8 | .uint8 => true
  | _ => false

/-- Exponent and fraction widths of a float code (R96, R97). -/
def codeExp : Code → Nat
  | .e2m1 => 2 | .e3m2 => 3 | .e4m3 => 4 | .e5m2 | .binary16 => 5 | .bfloat16 | .binary32 => 8 | _ => 0
def codeFrac : Code → Nat
  | .e2m1 => 1 | .e3m2 => 2 | .e4m3 => 3 | .e5m2 => 2 | .binary16 => 10 | .bfloat16 => 7 | .binary32 => 23 | _ => 0

/-- The bias of a float code. -/
def codeBias (c : Code) : Int := (2 ^ (codeExp c - 1) - 1 : Nat)

/-- Whether a float code keeps its highest exponent for infinities and NaN. -/
def codeTop : Code → Bool
  | .e5m2 | .binary16 | .bfloat16 | .binary32 => true
  | _ => false

/-- The integer value of an integer code. -/
def codeInt (c : Code) (w : Nat) : Int :=
  match c with
  | .int4 => signed 4 w | .int8 => signed 8 w | c => (w % 2 ^ codeWidth c : Nat)

/-- The exact value of a code (R96, R97). -/
def codeNum (c : Code) (w : Nat) : Num :=
  if codeIsInt c then .ofInt (codeInt c w)
  else if c = .e4m3 ∧ w % 128 = 0x7F then .nan
  else decFloat (codeExp c) (codeFrac c) (codeTop c) (w % 2 ^ codeWidth c)

/-- Whether a bfloat16 or binary32 code is subnormal (R98). -/
def codeSub (c : Code) (w : Nat) : Bool :=
  (c = .bfloat16 || c = .binary32) && w / 2 ^ codeFrac c % 256 = 0 && w % 2 ^ codeFrac c ≠ 0

/-- The least and greatest integer codes (R128 to R131). -/
def codeLo : Code → Int
  | .int4 => -8 | .int8 => -128 | _ => 0
def codeHi : Code → Int
  | .int4 => 7 | .uint4 => 15 | .int8 => 127 | .uint8 => 255 | _ => 0

/-- The largest finite magnitude Q of a code (R96). -/
def codeQ : Code → Num
  | .e2m1 => .ofInt 6 | .e3m2 => .ofInt 28 | .e4m3 => .ofInt 448 | .e5m2 => .ofInt 57344 | .binary16 => .ofInt 65504
  | .bfloat16 => .fin false 255 120 | .binary32 => .fin false (2 ^ 24 - 1) 104
  | c => .ofInt (codeHi c)

/-- The NaN that QUANT gives (R116): code zero for a code without NaN. -/
def codeNan : Code → Nat
  | .e4m3 => 0x7F | .e5m2 => 0x7E | .binary16 => 0x7E00 | .bfloat16 => 0x7FC0 | .binary32 => nan32 | _ => 0

/-- Where element i lies in a payload (R102): its lowest bit. -/
def elemBit (c : Code) (i : Nat) : Nat :=
  match codeWidth c with
  | 4 => 4 * i | 16 => 16 * i | 32 => 32 * i | _ => 8 * i

/-- Element i of a payload. -/
def elemAt (c : Code) (p i : Nat) : Nat := p / 2 ^ elemBit c i % 2 ^ codeWidth c

/-- A payload with element i put in place. -/
def putElem (c : Code) (p i w : Nat) : Nat := setBits p (elemBit c i) (codeWidth c) w

/-- Lane i of an SFN payload (R54). -/
def laneAt (p i : Nat) : Nat := p / 2 ^ (32 * i) % 2 ^ 32

/-! ### MUL -/

/-- Expansion of a code to M20 (R100, R101): an integer less its zero point, times 2^s. -/
def expandM20 (c : Code) (zero s : Int) (w : Nat) : Counted :=
  if codeIsInt c then ((Num.ofInt (codeInt c w - zero)).shift s, Cnt.zero)
  else if codeSub c w then (.fin (bit w (codeWidth c - 1)) 0 0, ⟨1, 0, 0⟩)
  else match codeNum c w with
    | .nan => (.nan, ⟨0, 0, 1⟩)
    | .inf n => (.inf n, Cnt.zero)
    | .fin n m e =>
      if c = .binary32 then intoRange n (roundSig 12 m e).1 ((roundSig 12 m e).2 + s) else intoRange n m (e + s)

/-- round32 of an exact result inside a cell: a NaN is counted once, where it leaves the cell (R107). -/
def roundIn (x : Num) : Counted := ((round32 x).1, { (round32 x).2 with nan := 0 })

/-- A product (R105): exact, into range. -/
def product (x y : Num) : Counted :=
  match x.mul y with
  | .fin n m e => intoRange n m e
  | v => (v, Cnt.zero)

/-- One level of the adder tree: neighbours added and rounded. -/
def addLevel : List Num → List Num × Cnt
  | x :: y :: t =>
    let r := roundIn (x.add y)
    let rest := addLevel t
    (r.1 :: rest.1, r.2.add rest.2)
  | l => (l, Cnt.zero)

/-- The adder tree in index order, level by level (R104). -/
def addTree (levels : Nat) (l : List Num) : List Num × Cnt :=
  match levels with
  | 0 => (l, Cnt.zero)
  | k + 1 => let r := addLevel l; let s := addTree k r.1; (s.1, r.2.add s.2)

/-- A list of counted values with its counts added. -/
def gather (l : List Counted) : List Num × Cnt := (l.map (·.1), l.foldl (fun k x => k.add x.2) Cnt.zero)

/-- The block sum of R104: expansion, products, tree; 16 elements under binary32 (R52). -/
def mulBlock (fmt wfmt : Code) (zero s wzero : Int) (p : Nat) (codes : List Byte) : Counted :=
  let n := if fmt = .binary32 then 16 else 32
  let ops := gather ((List.range n).map fun i => expandM20 fmt zero s (elemAt fmt p i))
  let ws := gather ((List.range n).map fun i =>
    expandM20 wfmt wzero 0 ((codes.getD i 0).toNat % 2 ^ codeWidth wfmt))
  let ps := gather (List.zipWith product ops.1 ws.1)
  let pad := ps.1 ++ List.replicate (32 - n) Num.zero
  let t := addTree 5 pad
  (t.1.headD Num.zero, ((ops.2.add ws.2).add ps.2).add t.2)

/-- DOT and DOTC after the tree (R104): the slot scale, the operand scale, the chain. The result's NaN is counted once. -/
def mulTail (t : Counted) (scale : Num) (opScale chain : Option Counted) : Counted :=
  let r := roundIn (t.1.mul scale)
  let k := t.2.add r.2
  let (r, k) := match opScale with
    | none => (r.1, k)
    | some s => let q := roundIn (r.1.mul s.1); (q.1, (k.add s.2).add q.2)
  let (r, k) := match chain with
    | none => (r, k)
    | some x => let q := roundIn (r.add x.1); (q.1, (k.add x.2).add q.2)
  (r, k.add ⟨0, 0, b2n r.isNan⟩)

/-! ### SFN lanes -/

/-- The eight lanes of a payload with their mask, absent lanes none; a subnormal lane is a counted zero (R109, R113). -/
def lanesOf (mask p : Nat) : List (Option Num) × Cnt :=
  let l := (List.range 8).map fun i => if bit mask i then some (dec32 (laneAt p i)) else none
  (l.map (·.map (·.1)), l.foldl (fun k x => match x with | some y => k.add y.2 | none => k) Cnt.zero)

/-- A payload of lanes. -/
def lanesTo (l : List Nat) : Nat := l.foldr (fun w p => w % 2 ^ 32 + 2 ^ 32 * p) 0

/-- A per-lane function over the present lanes; an absent lane leaves as +0 (R114). -/
def perLane (f : Num → Counted) (mask p : Nat) : Nat × Cnt :=
  let l := lanesOf mask p
  let r := l.1.map fun x => match x with | some y => f y | none => (Num.zero, Cnt.zero)
  (lanesTo (r.map fun x => enc32 x.1), r.foldl (fun k x => k.add x.2) l.2)

/-- ADD2: the lane-wise rounded sum. -/
def add2Lanes (mask p q : Nat) : Nat × Cnt :=
  let a := lanesOf mask p
  let b := lanesOf mask q
  let r := List.zipWith (fun x y => match x, y with
    | some x, some y => addR x y
    | _, _ => (Num.zero, Cnt.zero)) a.1 b.1
  (lanesTo (r.map fun x => enc32 x.1), r.foldl (fun k x => k.add x.2) (a.2.add b.2))

/-- The numbers among the present lanes. -/
def present (l : List (Option Num)) : List Num := l.filterMap id

/-- The least (or greatest) of numbers in the order of R113. -/
def pickBy (better : Num → Num → Bool) : List Num → Option Num
  | [] => none
  | x :: t => match pickBy better t with
    | none => some x
    | some y => some (if better y x then y else x)

/-- MIN8 and MAX8 (R113). -/
def extreme8 (better : Num → Num → Bool) (mask p : Nat) : Nat × Cnt :=
  let l := lanesOf mask p
  let ps := present l.1
  match pickBy better (ps.filter fun x => !x.isNan) with
  | some x => (enc32 x, l.2)
  | none => if ps.isEmpty then (0, l.2) else (nan32, l.2.add ⟨0, 0, 1⟩)

/-- ARGMAX8 (R113): the lowest index among equal maxima in the order of MAX8. -/
def argmaxLanes (mask p : Nat) : Nat × Cnt :=
  let l := lanesOf mask p
  let ix := (l.1.zipIdx).filterMap fun (x, i) => match x with
    | some y => if y.isNan then none else some (y, i)
    | none => none
  let best := ix.foldl (fun b y => match b with
    | none => some y
    | some z => if Num.lt true z.1 y.1 then some y else some z) (none : Option (Num × Nat))
  ((best.map (·.2)).getD 0, l.2)

/-- Insert into an ascending list. -/
def insertNum (x : Num) : List Num → List Num
  | [] => [x]
  | y :: t => if Num.lt true y x then y :: insertNum x t else x :: y :: t

/-- SORT8 (R113): ascending, then the NaN lanes, counted, then the absent lanes as uncounted NaN. -/
def sortLanes (mask p : Nat) : Nat × Cnt :=
  let l := lanesOf mask p
  let ps := present l.1
  let nums := (ps.filter fun x => !x.isNan).foldr insertNum []
  let nans := ps.filter Num.isNan
  (lanesTo (nums.map enc32 ++ List.replicate (8 - nums.length) nan32), l.2.add ⟨0, 0, nans.length⟩)

/-- A node of SUM8 and of the canonical tree (R113, R120). -/
def node (x y : Option Num) : Option Num × Cnt :=
  match x, y with
  | some x, some y => (some (roundIn (x.add y)).1, (roundIn (x.add y)).2)
  | some x, none => (some x, Cnt.zero)
  | none, y => (y, Cnt.zero)

/-- SUM8 (R113): ((l0 + l1) + (l2 + l3)) + ((l4 + l5) + (l6 + l7)). -/
def sumLanes (mask p : Nat) : Nat × Cnt :=
  let l := lanesOf mask p
  let x := fun i => (l.1.getD i none)
  let a := node (x 0) (x 1); let b := node (x 2) (x 3); let c := node (x 4) (x 5); let d := node (x 6) (x 7)
  let e := node a.1 b.1; let f := node c.1 d.1
  let r := node e.1 f.1
  let k := [a, b, c, d, e, f, r].foldl (fun k z => k.add z.2) l.2
  match r.1 with
  | none => (0, k)
  | some v => (enc32 v, k.add ⟨0, 0, b2n v.isNan⟩)

/-! ### The converter -/

/-- floor(log2(a / b)) for positive a and b. -/
def log2Rat (a b : Nat) : Int :=
  let k : Int := (bitLen a : Int) - bitLen b
  let ge := if 0 ≤ k then b * 2 ^ k.toNat ≤ a else b ≤ a * 2 ^ (-k).toNat
  if ge then k else k - 1

/-- The spacing exponent of a code's grid at magnitude a / b (R133): unbounded above; below the smallest normal the subnormal
spacing, and for bfloat16 and binary32, which keep no subnormals (R98), 2^-126. A rounding to nearest into binary32 is a round32, whose
exponent is unbounded below too (R106). -/
def gridExp (c : Code) (nearest : Bool) (a b : Nat) : Int :=
  if codeIsInt c then 0
  else
    let emin := 1 - codeBias c
    let e := if a = 0 then emin else log2Rat a b
    if emin ≤ e || (c = .binary32 && nearest) then e - codeFrac c else if c = .bfloat16 || c = .binary32 then emin else emin - codeFrac c

/-- a / b in units of 2^k, as a fraction. -/
def inUnits (a b : Nat) (k : Int) : Nat × Nat := if 0 ≤ k then (a, b * 2 ^ k.toNat) else (a * 2 ^ (-k).toNat, b)

/-- A lane's choice on the grid: the multiple of the spacing, in magnitude; `u` is the random value of R118. -/
def gridPick (neg : Bool) (a b : Nat) (u : Option Nat) : Nat :=
  match u with
  | none => (roundDiv a b).toNat
  | some u =>
    let q := a / b; let r := a % b
    if r = 0 then q
    else
      -- t is measured from the lower neighbour of the signed value
      let t := if neg then (b - r) * 2 ^ 24 / b else r * 2 ^ 24 / b
      let hi := u < t
      if hi = neg then q else q + 1

/-- The code of a signed magnitude r * 2^k on the grid of a float code. -/
def encFloat (c : Code) (neg : Bool) (r : Nat) (k : Int) : Nat :=
  let f := codeFrac c
  let sgn := b2n neg * 2 ^ (codeWidth c - 1)
  if r = 0 then sgn
  else
    let e := (bitLen r : Int) - 1 + k
    let emin := 1 - codeBias c
    if e < emin then sgn + (r * 2 ^ (k - (emin - f)).toNat)
    else
      let m := (r * 2 ^ (f + 1 - bitLen r)) / 2 ^ (bitLen r - (f + 1))
      sgn + (e + codeBias c).toNat * 2 ^ f + m % 2 ^ f

/-- Whether r * 2^k exceeds the largest finite magnitude of a code. -/
def beyond (c : Code) (r : Nat) (k : Int) : Bool := Num.lt false (codeQ c) (.fin false r k)

/-- The largest finite code with a sign; code `codeLo` for a negative value of an integer code. -/
def satCode (c : Code) (neg : Bool) : Nat :=
  if codeIsInt c then unsigned (codeWidth c) (if neg then codeLo c else codeHi c)
  else match codeQ c with
    | .fin _ m e => encFloat c neg m e
    | _ => 0

/-- A mapping in force for a firing (R126 to R137): the shift, or the scale with the zero point. -/
structure MapVal where
  asym : Bool
  shift : Int
  scale : Num
  zero : Int
  deriving DecidableEq, Repr

/-- The scaled value of a finite lane as sign, numerator and denominator: x * 2^-s, or x / scale. None where the scale is no
positive number, a case the manual does not state. -/
def scaledLane (m : MapVal) (neg : Bool) (x : Nat) (e : Int) : Option (Bool × Nat × Nat) :=
  if m.asym then
    match m.scale with
    | .fin false s f => if s = 0 then none else
        let k := e - f
        some (neg, (inUnits x s (-k)).1, (inUnits x s (-k)).2)
    | _ => none
  else
    let k := e - m.shift
    some (neg, (inUnits x 1 (-k)).1, (inUnits x 1 (-k)).2)

/-- DEQUANT of one code (R115). A NaN is counted where the lane leaves the cell. -/
def dequantCode (c : Code) (m : MapVal) (w : Nat) : Counted :=
  if codeSub c w then (.fin (bit w (codeWidth c - 1)) 0 0, ⟨1, 0, 0⟩)
  else if m.asym then
    let v := if codeIsInt c then Num.ofInt (codeInt c w - m.zero) else codeNum c w
    roundIn (m.scale.mul v)
  else roundIn ((codeNum c w).shift m.shift)

/-- One lane of QUANT: its code, what it counted, and what the converter sees (none for a NaN). `fr` stands for a code the
manual does not state. -/
def quantLane (c : Code) (m : MapVal) (u : Option Nat) (fr : Nat) (x : Counted) : Nat × Cnt × Option LaneStat :=
  match x.1 with
  | .nan => (codeNan c, x.2.add ⟨0, 0, 1⟩, none)
  | .inf n => (satCode c n, x.2, some ⟨true, none⟩)
  | .fin n v e =>
    match (if m.asym ∧ !codeIsInt c then none else scaledLane m n v e) with
    | none => (fr % 2 ^ codeWidth c, x.2, some ⟨fr / 2 ^ 32 % 2 = 1, none⟩)
    | some (neg, a, b) =>
      let k := gridExp c u.isNone a b
      let un := inUnits a b k
      let r := gridPick neg un.1 un.2 u
      let near := (roundDiv un.1 un.2).toNat
      let flush := c = .binary32 && u.isNone && r ≠ 0 && Num.lt false (.fin false r k) (.fin false 1 (-126))
      let (code, sat) :=
        if codeIsInt c then
          let z := if m.asym then m.zero else 0
          let sgn := fun (q : Nat) => (if neg then -(q : Int) else q)
          -- under stochastic rounding the exact value decides (R133)
          let lowOut : Bool := match u with
            | none => sgn near + z < codeLo c
            | some _ => (if neg then -(un.1 : Int) else un.1) < (codeLo c - z) * un.2
          let highOut : Bool := match u with
            | none => codeHi c < sgn near + z
            | some _ => (codeHi c - z) * un.2 < (if neg then -(un.1 : Int) else un.1)
          if lowOut then (satCode c true, true) else if highOut then (satCode c false, true)
          else (unsigned (codeWidth c) (sgn r + z), false)
        else
          let out : Bool := match u with
            | none => beyond c near k
            | some _ => match codeQ c with
              | .fin _ q f => b * (inUnits q 1 (-f)).1 < a * (inUnits q 1 (-f)).2
              | _ => false
          if out then (satCode c neg, true) else (encFloat c neg (if flush then 0 else r) k, false)
      let d := (dequantCode c m code).1
      let err := (roundIn (x.1.add d.neg)).1
      (code, x.2.add ⟨b2n flush, 0, 0⟩, some ⟨sat, some (roundIn (err.mul err)).1⟩)

/-- The generator of R117. -/
def xorshift (g : Word32) : Word32 :=
  let g := g ^^^ (g <<< 13)
  let g := g ^^^ (g >>> 17)
  g ^^^ (g <<< 5)

/-- QUANT over the lanes (R116, R118, R142): the code payload, the counts, the converter's lanes and the generator after. -/
def quantLanes (c : Code) (m : MapVal) (stoch : Bool) (mask : Nat) (fr : Nat) (p : Nat) (g : Word32) (i fuel : Nat) :
    Nat × Cnt × List LaneStat × Word32 :=
  match fuel with
  | 0 => (0, Cnt.zero, [], g)
  | fuel + 1 =>
    if bit mask i then
      let g' := if stoch then xorshift g else g
      let q := quantLane c m (if stoch then some (g'.toNat / 2 ^ 8) else none) (fr / 2 ^ (33 * i)) (dec32 (laneAt p i))
      let rest := quantLanes c m stoch mask fr p g' (i + 1) fuel
      (putElem c rest.1 i q.1, q.2.1.add rest.2.1, q.2.2.toList ++ rest.2.2.1, rest.2.2.2)
    else quantLanes c m stoch mask fr p g (i + 1) fuel

/-- DEQUANT over the lanes (R115, R114). -/
def dequantLanes (c : Code) (m : MapVal) (mask p : Nat) : Nat × Cnt :=
  let r := (List.range 8).map fun i =>
    if bit mask i then
      let d := dequantCode c m (elemAt c p i)
      (d.1, d.2.add ⟨0, 0, b2n d.1.isNan⟩)
    else (Num.zero, Cnt.zero)
  (lanesTo (r.map fun x => enc32 x.1), r.foldl (fun k x => k.add x.2) Cnt.zero)

/-! ### The scale record (R134) and SCAN -/

/-- The eight bytes of a scale record as a number. -/
def scaleRecord (scale : Nat) (zero shift : Int) (asym clamp : Bool) : Nat :=
  scale + unsigned 16 zero * 2 ^ 32 + unsigned 8 shift * 2 ^ 48 + (b2n asym + 2 * b2n clamp) * 2 ^ 56

/-- The mapping a record names. -/
def recordMap (r : Nat) : MapVal :=
  { asym := bit r 56, shift := signed 8 (r / 2 ^ 48), scale := (dec32 (r % 2 ^ 32)).1, zero := signed 16 (r / 2 ^ 32) }

/-- What reading a record's SCALE counts, where the mapping uses it (R98, R124). -/
def recordCnt (r : Nat) : Cnt := if bit r 56 then (dec32 (r % 2 ^ 32)).2 else Cnt.zero

/-- shift of R129 for a finite magnitude. -/
def shiftFor (m : Nat) (e : Int) (q : Num) : Int × Bool :=
  match q with
  | .fin _ qm qe =>
    if m = 0 then (-64, false)
    else
      let s0 := (bitLen m : Int) + e - (bitLen qm + qe)
      let s := if Num.lt false q (.fin false m (e - s0)) then s0 + 1 else s0
      if 63 < s then (63, true) else if s < -64 then (-64, false) else (s, false)
  | _ => (-64, false)

/-- round32 of m * 2^e / d, with the flush it counts. -/
def divRound (m : Nat) (e : Int) (d : Nat) : Counted :=
  round32 (.fin false (2 * (m * 2 ^ 64 / d) + b2n (m * 2 ^ 64 % d ≠ 0)) (e - 65))

/-- asym of R131 for finite mn ≤ mx: scale, zero, clamp. -/
def asymFor (mn mx : Num) (c : Code) : Num × Int × Bool × Cnt :=
  let lo := codeLo c
  match mx.add mn.neg, mn with
  | .fin _ m e, .fin n am ae =>
    if m = 0 then
      (if am = 0 then Num.one else .fin false am ae, if n ∧ am ≠ 0 then lo + 1 else lo, false, Cnt.zero)
    else
      let s := divRound m e (2 ^ codeWidth c - 1)
      let sc := if Num.lt false s.1 (.fin false 1 (-126)) then .fin false 1 (-126) else s.1
      match sc with
      | .fin _ sm se =>
        -- qlo - mn / scale as a fraction of integers
        let un := inUnits am sm (se - ae)
        let a : Int := lo * un.2 - (if n then -(un.1 : Int) else un.1)
        let z := roundDiv a un.2
        let zc := if z < lo then lo else if codeHi c < z then codeHi c else z
        (sc, zc, zc ≠ z, s.2)
      | sc => (sc, lo, false, s.2)
  | _, _ => (Num.one, lo, false, Cnt.zero)

/-- PARAM (R139, R140): the scale record of a final partial. `fr` stands where the manual states none: a partial that no scan
produces, or an asymmetric mapping of a float code. -/
def paramRecord (c : Code) (asym : Bool) (fr p : Nat) : Nat × Cnt :=
  let a := dec32 (laneAt p 0)
  let b := dec32 (laneAt p 4)
  if asym then
    let k := a.2.add b.2
    if !codeIsInt c || a.1.isNan || b.1.isNan then (fr % 2 ^ 64, k)
    else
      let mn := if Num.lt false b.1 a.1 then Num.zero else a.1
      let mx := if Num.lt false b.1 a.1 then Num.zero else b.1
      if !mn.isFin || !mx.isFin then (fr % 2 ^ 64, k)
      else let r := asymFor mn mx c; (scaleRecord (enc32 r.1) r.2.1 0 true r.2.2.1, k.add r.2.2.2)
  else match a.1 with
    | .fin n m e =>
      if n ∧ m ≠ 0 then (fr % 2 ^ 64, a.2)
      else let s := shiftFor m e (codeQ c); (scaleRecord 0x3F800000 0 s.1 false s.2, a.2)
    | _ => (fr % 2 ^ 64, a.2)

/-- The value a SCAN picks among lanes: none where a lane is NaN (not stated), and the free sign where zeros of both signs
tie. -/
def scanPick (better : Num → Num → Bool) (empty : Num) (fr : Nat) (l : List Num) : Nat :=
  if l.any Num.isNan then fr % 2 ^ 32
  else match pickBy better l with
    | none => enc32 empty
    | some (.fin n 0 e) =>
      if l.any (fun x => x = .fin (!n) 0 e || (match x with | .fin n' 0 _ => n' ≠ n | _ => false)) then fr % 2 * 2 ^ 31
      else enc32 (.fin n 0 e)
    | some x => enc32 x

/-- Orders of SCAN: −0 and +0 are equal (R140). -/
def scanMin (x y : Num) : Bool := Num.lt false x y
def scanMax (x y : Num) : Bool := Num.lt false y x

/-- The leaf and combine modes (R139, R140). -/
def scanLeafMa (mask fr p : Nat) : Nat × Cnt :=
  let l := lanesOf mask p
  (scanPick scanMax Num.zero fr (((present l.1).filter Num.isFin).map Num.abs), l.2)
def scanLeafMm (mask fr p : Nat) : Nat × Cnt :=
  let l := lanesOf mask p
  let f := (present l.1).filter Num.isFin
  (scanPick scanMin (.inf false) fr f + 2 ^ 128 * scanPick scanMax (.inf true) (fr / 2 ^ 32) f, l.2)
def scanCombMa (mask fr p : Nat) : Nat × Cnt :=
  let l := lanesOf mask p
  (scanPick scanMax Num.zero fr (present l.1), l.2)
def scanCombMm (mask fr p : Nat) : Nat × Cnt :=
  let l := lanesOf mask p
  (scanPick scanMin (.inf false) fr (present (l.1.take 4)) +
    2 ^ 128 * scanPick scanMax (.inf true) (fr / 2 ^ 32) (present (l.1.drop 4)), l.2)

end Sys2Proof.Machine
end

