-- ==== Sys2Proof/Machine/Compose.lean ====
section
/-! DEFINITION. The composer's shared operations: frames from templates (R232, R233), wire time, caps (R237), the gate (R238),
the checks of a result (R234, R291), stomping (R236), the fate of iterations (R286), result records (R239) and the halt of a
region (R70). -/

namespace Sys2Proof.Machine

/-! ### Checksums and frames -/

/-- The one's complement sum of 16-bit big-endian words. -/
def sum16 : List Byte → Nat
  | [] => 0
  | [a] => a.toNat * 256
  | a :: b :: t => a.toNat * 256 + b.toNat + sum16 t

/-- The folded complement of a sum, as in IPv4 and UDP headers. -/
def fold16 (s : Nat) : Nat :=
  let a := s % 65536 + s / 65536
  let b := a % 65536 + a / 65536
  65535 - b

/-- Apply a template's inserts in order (R232). -/
def applyInserts (l : List Insert) (pay image : List Byte) : List Byte :=
  l.foldl (fun im r => if r.len = 0 then im else
    let b := slice pay r.src r.len
    splice im r.dst (if r.swap then b.reverse else b)) image

/-- Write the IPv4 header checksum. -/
def ip4Sum (l3 : Nat) (b : List Byte) : List Byte :=
  let h := ((slice b l3 1).headD 0).toNat % 16 * 4
  let z := splice b (l3 + 10) (toBe 2 0)
  splice z (l3 + 10) (toBe 2 (fold16 (sum16 (slice z l3 h))))

/-- Write the UDP checksum of a frame; `six`: over IPv6. -/
def udpSum (six : Bool) (l3 : Nat) (b : List Byte) : List Byte :=
  let u := if six then l3 + 40 else l3 + ((slice b l3 1).headD 0).toNat % 16 * 4
  let z := splice b (u + 6) (toBe 2 0)
  let n := beNat (slice z (u + 4) 2)
  let addrs := if six then slice z (l3 + 8) 32 else slice z (l3 + 12) 8
  let v := fold16 (sum16 (addrs ++ toBe 2 0 ++ toBe 2 17 ++ toBe 4 n) + sum16 (slice z u n))
  splice z (u + 6) (toBe 2 (if v = 0 then 65535 else v))

/-- The finished frame without FCS (R233): sequence number and checksums. -/
def finishFrame (t : Template) (seq : Nat) (image : List Byte) : List Byte :=
  let b := match t.seqOff with | some o => splice image o (toBe 4 (seq % 2 ^ 32)) | none => image
  if t.kind = 1 then
    let b := ip4Sum t.l3off b
    if t.udpcs then udpSum false t.l3off b else
      splice b (t.l3off + ((slice b t.l3off 1).headD 0).toNat % 16 * 4 + 6) (toBe 2 0)
  else if t.kind = 2 then udpSum true t.l3off b else b

/-- The FCS bytes of a frame; a stomped FCS is its complement (R236). -/
def fcsBytes (stomp : Bool) (b : List Byte) : List Byte :=
  toLe 4 (if stomp then (crc32 b) ^^^ 0xFFFFFFFF#32 else crc32 b).toNat

/-- The time of `n` bytes on a logical port in 2^-16 ns (R211, R27), truncated. -/
def Core.wire (c : Core) (n : Nat) : Nat := n * 8 * 2 ^ 16 * 2 ^ c.getF (pPort + 0x80) 0 2 / 1600

/-- The line time a frame of `n` bytes without FCS takes up: FCS, and the preamble and inter-packet gap of IEEE 802.3. -/
def Core.lineSlot (c : Core) (n : Nat) : Nat := c.wire (n + 4 + 20)

/-! ### Gate, caps and counters -/

/-- Whether the egress gate is open (R238, R475). -/
def Core.gateOpen (c : Core) : Bool :=
  c.getB (pComp1 + 0x80) 0 && !c.getB (pComp1 + 0x80) 1 && c.getB (pComp1 + 0x80) 2 && !c.safe

/-- The counters of a template in the order of R242 and R304. -/
def kSent : Nat := 0
def kStale : Nat := 1
def kCapped : Nat := 2
def kGated : Nat := 3
def kQdrop : Nat := 4
def kStomped : Nat := 5
def kSquashed : Nat := 6
def kHeld : Nat := 7

/-- Flag bits of a result record (R239). -/
def fLate : Nat := 0x1
def fStale : Nat := 0x2
def fPoisoned : Nat := 0x4
def fSquashed : Nat := 0x8
def fCanonical : Nat := 0x10
def fSent : Nat := 0x20
def fCapped : Nat := 0x40
def fGated : Nat := 0x80
def fStomped : Nat := 0x100
def fNoFrame : Nat := 0x200
def fQdrop : Nat := 0x8000

/-- take of R237 on a bucket: whether a token is left, and the bucket after. Times are in 2^-16 ns, PERIOD in ns, so the division is that
of the exact timestamps (R18). -/
def bucketTake (period burst : Nat) (b : Bucket) (t : Nat) : Bool × Bucket :=
  let b :=
    if b.tref < t then
      let k := (t - b.tref) / nsN period
      let n := min burst (b.tokens + k)
      { tokens := n, tref := if n < burst then b.tref + k * nsN period else t }
    else b
  if b.tokens = 0 then (false, b) else (true, { b with tokens := b.tokens - 1 })

/-- A template's bucket. -/
def Core.bucket (c : Core) (t : Nat) : Bucket := Store.get c.comp.buckets ⟨0, 0⟩ t

/-- Check 5 of R234: the cap is armed and holds a token for an event of ingress timestamp `n` (2^-16 ns). -/
def Core.capTake (c : Core) (t n : Nat) : Bool × Core :=
  let a := pComp + 0x400 + 8 * t
  if !c.getB a 48 then (false, c)
  else
    let r := bucketTake (c.getF a 0 32) (c.getF a 32 16) (c.bucket t) n
    (r.1, { c with comp := { c.comp with buckets := Store.set c.comp.buckets ⟨0, 0⟩ t r.2 } })

/-! ### Results -/

/-- Whether two records concern one result. -/
def Result.is (r : Result) (f : TxFrame) : Bool := r.rgn = f.rgn && r.tag = f.tag && r.set = f.set && r.tap = f.tap

/-- Set flags of a result. -/
def Result.flag (r : Result) (f : Nat) : Result := { r with flags := r.flags ||| f }

/-- Change the results of a predicate. -/
def Core.modResults (c : Core) (p : Result → Bool) (f : Result → Result) : Core :=
  { c with comp := { c.comp with results := c.comp.results.map fun r => if p r then f r else r } }

/-- The template of a set (R232). -/
def Core.tmpl (c : Core) (set : Bool) (t : Nat) : Option Template :=
  (c.tmpls.find? fun e => e.1 = b2n set * 256 + t).map (·.2)

/-- The queue of a logical port. -/
def Core.queue (c : Core) (lp : Nat) : List TxFrame := Store.get c.comp.queues [] lp
def Core.setQueue (c : Core) (lp : Nat) (q : List TxFrame) : Core :=
  { c with comp := { c.comp with queues := Store.set c.comp.queues [] lp q } }

/-- The verdict instant of a frame that has ended (R215, R279, R290): 58 ns and 9 fc after the end of an Ethernet frame, or after
the end its IP length implies where that comes first; 32 ns after that of a lane packet. -/
def Core.verdictAt (c : Core) (f : Frame) : Nat :=
  if f.src < 8 then (if f.implied.isSome then min f.tEnd f.tLast else f.tEnd) + nsN 58 + c.fcN 9 else f.tLast + nsN 32

/-- From when on a frame's verdict instant is bounded (R292): at once when its header implies its end, else from when its end
reaches the MAC, 58 ns after it crosses the reference plane (R26). -/
def Frame.boundedAt (f : Frame) : Nat := if f.tLast = 0 then f.tEnd + nsN 58 else 0

/-- The instant V a set of frames waits for (R292): the latest verdict instant of its frames, by the end that a frame's header
implies or by its end once that has reached the MAC, none while one of them has an end that is not yet known. A verdict that
has come is past. -/
def Core.verdictBound (c : Core) (deps : List (Nat × Nat)) : Option Nat :=
  let l := deps.map fun d => match (c.sep.frames.find? fun f => f.src = d.1 && f.num = d.2) with
    | none => some 0
    | some f => if f.verdict.isSome then some (if c.verdictAt f ≤ c.now then c.verdictAt f else 0)
        else if 64 ≤ f.src || c.now < f.boundedAt then none
        else some (if f.src < 8 && f.tLast ≠ 0 then f.tLast + nsN 58 + c.fcN 9 else c.verdictAt f)
  if l.any Option.isNone then none else some ((l.filterMap id).foldl max 0)

/-- From when on V of a set of frames is bounded, as far as it has been by now. -/
def Core.boundedAt (c : Core) (deps : List (Nat × Nat)) : Nat :=
  ((deps.filterMap fun d => c.sep.frames.find? fun f => f.src = d.1 && f.num = d.2).map fun (f : Frame) =>
    if f.boundedAt ≤ c.now then f.boundedAt else 0).foldl max 0

/-- What the composer does from an instant within the fabric cycle that ends now, the boundary at which it began included (whose results
the composer has checked at its end), it does from that instant; what is older is done now. -/
def Core.exactly (c : Core) (t : Nat) : Nat := if t ≤ c.now && c.now ≤ t + c.fcN 1 + 1 then t else c.now

/-- The dependence set of an iteration. -/
def Core.depsOf (c : Core) (g : Nat) (tag : Tag) (set : Bool) : List (Nat × Nat) :=
  (((c.rgn g).iter tag set).map (·.deps)).getD []

/-- The fate of an iteration; one that is no longer kept has committed or has had its fate carried to its results. -/
def Core.fateOf (c : Core) (g : Nat) (tag : Tag) (set : Bool) : Fate :=
  (((c.rgn g).iter tag set).map (·.fate)).getD .committed

/-- The FCS hold of an early frame (R292): its latest verdict instant, as far as it is bounded, less its length. -/
def Core.fcsHold (c : Core) (deps : List (Nat × Nat)) (len : Nat) : Nat := (c.verdictBound deps).getD 0 - c.wire len

/-- The instant at which a queued frame has left, when the port is free from `t` on: an early frame holds those behind it (R294). -/
def Core.afterFrame (c : Core) (t : Nat) (f : TxFrame) : Nat :=
  (if f.early then max t (c.fcsHold (c.depsOf f.rgn f.tag f.set) f.image.length) else t) + c.lineSlot f.image.length

/-- The instant from which a frame that joins its queue at `base` may start leaving: its queue's end, and for an early frame the
FCS hold (R292, R294). -/
def Core.startBound (c : Core) (base lp : Nat) (early : Bool) (deps : List (Nat × Nat)) (len : Nat) : Nat :=
  let free := (c.queue lp).foldl (fun t f => c.afterFrame t f) (max base (Store.get c.comp.free 0 lp))
  if early then max free (c.fcsHold deps len) else free

/-- A result whose checks are over takes its flag and its first-byte instant. -/
def Core.checked (c : Core) (r : Result) (flag first : Nat) : Core :=
  c.modResults (fun x => x.rgn = r.rgn && x.tag = r.tag && x.set = r.set && x.tap = r.tap) fun x =>
    { x.flag flag with checked := true, first := some first }

/-- A result without a frame: the manual states no first-byte instant for it, so EGRESS_DELTA is a free value (R239). -/
def Core.noFrame (c : Core) (r : Result) : Core :=
  let v := c.fresh
  v.2.checked r fNoFrame (r.n + v.1 % 2 ^ 24 * 2 ^ 8)

/-- Run the checks of R234 on a result at the instant `base`, in order; a frame that passes joins its port's queue, its `start`
being that instant until it starts. The record takes the projected first-byte instant whichever check fails. -/
def Core.runChecks (c : Core) (base : Nat) (r : Result) : Core :=
  match r.t.bind fun t => (c.tmpl r.set t).map fun tp => (t, tp) with
  | none => c.noFrame r
  | some (t, tp) =>
    let first := c.startBound base tp.lp tp.early (c.depsOf r.rgn r.tag r.set) tp.len + nsN 32
    if r.tok.poison then c.checked r fPoisoned first
    else if c.fateOf r.rgn r.tag r.set = .squashed then (c.bump (aTmpl t kSquashed)).checked r fSquashed first
    else if (c.rgn r.rgn).egressClosed then c.checked r 0 first
    else if !c.gateOpen then (c.bump (aTmpl t kGated)).checked r fGated first
    else if r.n + nsN (c.getF (pComp1 + 0x400 + 8 * t) 0 16) < first then (c.bump (aTmpl t kStale)).checked r fStale first
    else
      let k := c.capTake t r.n
      if !k.1 then (k.2.bump (aTmpl t kCapped)).checked r fCapped first
      else if 64 ≤ (k.2.queue tp.lp).length then (k.2.bump (aTmpl t kQdrop)).checked r fQdrop first
      else
        let f : TxFrame := { rgn := r.rgn, tag := r.tag, set := r.set, tap := r.tap, t := t,
                             image := applyInserts tp.inserts (ofPayload r.tok.payload) (tp.image.take tp.len),
                             early := tp.early, start := base }
        (k.2.setQueue tp.lp (k.2.queue tp.lp ++ [f])).checked r 0 first

/-! ### Ending frames -/

/-- Put the frame in progress on the wire where it had ended by the instant `t`. -/
def Core.flushTx (c : Core) (lp t : Nat) : Core :=
  match Store.get c.comp.inProg [] lp with
  | [] => c
  | f :: _ =>
    if f.start + c.wire (f.image.length + 4) ≤ t then
      { (c.emit (.frame lp (f.image ++ fcsBytes false f.image) false f.start)) with
        comp := { c.comp with inProg := Store.set c.comp.inProg [] lp [] } }
    else c

/-- End a frame in progress at the instant `t` with a stomped FCS, padded to 60 bytes when it is cut short (R236). -/
def Core.stompTx (c : Core) (lp t : Nat) (p : TxFrame → Bool) : Core :=
  let c := c.flushTx lp t
  match Store.get c.comp.inProg [] lp with
  | [] => c
  | f :: _ =>
    if !p f then c
    else
      let sent := ceilDiv ((t - f.start) * 1600) (8 * 2 ^ 16 * 2 ^ c.getF (pPort + 0x80) 0 2)
      let b := f.image.take (max 1 (min sent f.image.length))
      let b := b ++ List.replicate (60 - b.length) 0
      let c := c.bump (aTmpl f.t kStomped)
      let c := c.modResults (fun r => r.is f) fun r => r.flag fStomped
      let c := c.emit (.frame lp (b ++ fcsBytes true b) true f.start)
      { c with comp := { c.comp with inProg := Store.set c.comp.inProg [] lp [],
                                     free := Store.set c.comp.free 0 lp (max c.now (f.start + c.wire (b.length + 24))) } }

/-- Stomp on every port. -/
def Core.stompAll (c : Core) (t : Nat) (p : TxFrame → Bool) : Core :=
  (List.range 8).foldl (fun c lp => c.stompTx lp t p) c

/-- Withhold the queued frames of a predicate. -/
def Core.unqueue (c : Core) (p : TxFrame → Bool) : Core :=
  (List.range 8).foldl (fun c lp => c.setQueue lp ((c.queue lp).filter fun f => !p f)) c

/-- The gate closes: every template frame in progress is stomped (R236, R238). -/
def Core.closeGate (c : Core) : Core := c.stompAll c.now fun _ => true

/-- A halted graph's egress closes (R70). -/
def Core.closeEgress (c : Core) (g : Nat) : Core :=
  ((c.modRgn g fun r => { r with egressClosed := true }).stompAll c.now fun f => f.rgn = g).unqueue fun f => f.rgn = g

/-! ### Fates (R286) -/

/-- The instant of the bad verdict that squashes an iteration: the latest that has come. -/
def Core.badAt (c : Core) (deps : List (Nat × Nat)) : Nat :=
  c.exactly (((deps.filterMap fun d => c.sep.frames.find? fun f => f.src = d.1 && f.num = d.2 && f.verdict = some false).map
    c.verdictAt).foldl max 0)

/-- What a squash at the instant `t` does to an iteration's results and frames (R288): queued frames are not sent, one in progress is stomped,
records carry SQUASHED, lanes send nothing (R366). -/
def Core.squashResults (c : Core) (t g : Nat) (tag : Tag) (set : Bool) : Core :=
  let mine := fun f : TxFrame => f.rgn = g && f.tag = tag && f.set = set
  let c := c.stompAll t mine
  let waiting := ((List.range 8).flatMap fun lp => c.queue lp).filter mine
  let c := waiting.foldl (fun c f => c.bump (aTmpl f.t kSquashed)) c
  let c := c.unqueue mine
  let c := { c with lanes := c.lanes.map fun (e : Nat × Lane) =>
    (e.1, { e.2 with txq := e.2.txq.filter fun x => !(x.rgn = g && x.tag = tag && x.set = set) }) }
  c.modResults (fun r => r.rgn = g && r.tag = tag && r.set = set) fun r => r.flag fSquashed

/-- Run the checks of the held results of an iteration whose fate is known (R291), from the instant its last verdict came. -/
def Core.checkHeld (c : Core) (g : Nat) (tag : Tag) (set : Bool) : Core :=
  let l := c.comp.results.filter fun r => r.rgn = g && r.tag = tag && r.set = set && !r.checked
  let base := c.exactly ((c.verdictBound (c.depsOf g tag set)).getD 0)
  l.foldl (fun c r => c.runChecks base r) c

/-- Give an iteration its fate. -/
def Core.setFate (c : Core) (g : Nat) (i : Iter) (f : Fate) : Core :=
  let c := c.modRgn g fun r => r.modIter i.tag i.set fun i => { i with fate := f }
  if f = .squashed then
    ((c.bump (pRgn g + 0x148)).squashResults (c.badAt i.deps) g i.tag i.set).checkHeld g i.tag i.set
  else c.checkHeld g i.tag i.set

/-- The verdict of a frame, where it has arrived. A frame no longer kept has been resolved. -/
def Core.verdictOf (c : Core) (d : Nat × Nat) : Option Bool :=
  match (c.sep.frames.find? fun f => f.src = d.1 && f.num = d.2) with
  | some f => f.verdict
  | none => some true

/-- Settle one pending iteration (R286): a bad frame squashes it; a final set of good frames commits it. -/
def Core.settleIter (c : Core) (g : Nat) (i : Iter) : Core :=
  if i.fate ≠ .pending then c
  else
    let v := i.deps.map c.verdictOf
    if v.contains (some false) then c.setFate g i .squashed
    else if i.final && v.all (· = some true) then c.setFate g i .committed
    else c

/-- Settle a region, and every region. -/
def Core.settleRgn (c : Core) (g : Nat) : Core := (c.rgn g).iters.foldl (fun c i => c.settleIter g i) c
def Core.settle (c : Core) : Core := (List.range 8).foldl (fun c g => c.settleRgn g) c

/-! ### Result records (R239) -/

/-- The record's 64 bytes. -/
def Result.bytes (r : Result) : List Byte :=
  let delta := match r.first with
    | none => 0xFFFFFF
    | some f => min ((f - r.n) / 2 ^ 8) 0xFFFFFF
  let flags := r.flags ||| (r.rgn % 8 * 2 ^ 10) ||| (b2n r.set * 2 ^ 13)
  let t := if bit r.flags 9 then 0 else r.t.getD 0
  toLe 2 r.tag.toNat ++ toLe 2 flags ++ toLe 1 (srcClass r.src + 8 * srcIdx r.src) ++ toLe 1 t ++ toLe 7 (r.tick % 2 ^ 56) ++
    toLe 8 (linear r.n) ++ toLe 3 delta ++ toLe 8 r.prog.toNat ++ toLe 8 r.wgt.toNat ++ toLe 8 r.inDig.toNat ++
    (ofPayload r.tok.payload).take 16

/-- Device order of results (R192, R240): tick, class, index, timestamp, then region and TAP. -/
def Result.order (r : Result) : List Nat := [r.tick, srcClass r.src, srcIdx r.src, r.n, r.rgn, r.tap]

/-- Whether a result's frame is still queued or in progress. -/
def Core.onPort (c : Core) (r : Result) : Bool :=
  (List.range 8).any fun lp => (c.queue lp).any r.is || (Store.get c.comp.inProg [] lp).any r.is

/-- The results that have reached the composer and whose checks are not held (R291), in device order (R192). -/
def Core.dueResults (c : Core) : List Result :=
  let early := fun (r : Result) => match r.t with | some t => ((c.tmpl r.set t).map (·.early)).getD false | none => true
  sortBy (fun a b => lexLe a.order b.order) (c.comp.results.filter fun (r : Result) => !r.checked && (!r.held || early r))

/-- At the end of a fabric cycle the composer runs the checks of the results that reached it in the cycle, in device order, so that they
join their queues in that order (R234). -/
def Core.checkDue (c : Core) : Core := c.dueResults.foldl (fun c r => c.runChecks c.now r) c

/-! ### Halting a region (R70, R92, R95) -/

/-- Write the fault record of a meadow and its page's log entry (R95, R466). -/
def Core.faultRecord (c : Core) (m cell port : Nat) (tag : Tag) (set : Bool) (kind cls code : Nat) : Core :=
  let c := (c.wr (pMdw m + 0xB0)
    (cell + port % 4 * 2 ^ 15 + tag.toNat * 2 ^ 17 + b2n set * 2 ^ 33 + kind % 16 * 2 ^ 34 + 2 ^ 38)).mark (pMdw m + 0xB0) (2 ^ 38)
  c.logErr (pMdw m) cls code kind cell (port % 4 + tag.toNat * 4 + b2n set * 2 ^ 18)

/-- Halt a region, on a fault or by command, in whatever state it is (R70, R92): the cells and admission stop, the egress closes, the
record is written. A stall ends (R84). A halted region stays as it is. -/
def Core.haltRgn (c : Core) (g m cell port : Nat) (tag : Tag) (set : Bool) (kind : Nat) : Core :=
  let r := c.rgn g
  if r.phase = .halted then c
  else
    let c := c.setRgn g { r with phase := .halted, faultKind := kind % 16, stall := [], stallLen := 0, setFrom := none,
                                 swapHold := none, swapNext := none }
    let c := (c.closeEgress g).faultRecord m cell port tag set kind clsG 0x04
    if kind = 0 then c else c.event (pMdw m) 10

/-- A schedule fault at a cell (R70). -/
def Core.schedFault (c : Core) (cell port : Nat) (tag : Tag) (set : Bool) (kind : Nat) : Core :=
  c.haltRgn (c.rgnOf (cellMeadow cell)) (cellMeadow cell) cell port tag set kind

end Sys2Proof.Machine
end

