-- ==== Sys2Proof/Machine/Fabric.lean ====
section
/-! DEFINITION. The fabric's shared operations: travel times (R75, R76, R167), tokens on their routes (R46), latches and firing
(R47, R50, R170), matching stores (R65, R66), overdue items (R80) and the memory of MUL and MEM cells (R419). -/

namespace Sys2Proof.Machine

/-! ### Positions and travel -/

/-- The kinds of R44. -/
inductive Kind where
  | tap | str | mem | mul | sfn | key
  deriving DecidableEq, Repr

/-- The kind of the cell at a position (R44). -/
def kindOf (cell : Nat) : Kind :=
  match cellPos cell with
  | 0 => .tap | 1 => .str | 2 => .mem | 7 => .sfn | 8 => .key | 9 => .sfn | 14 => .mem | 15 => .str | _ => .mul

/-- Row and column of a meadow in its plain (R43). -/
def mRow (m : Nat) : Nat := m / 8 % 4
def mCol (m : Nat) : Nat := m % 8

/-- The distance of two numbers. -/
def dist (a b : Nat) : Nat := (a - b) + (b - a)

/-- step(c) of R76. -/
def colStep (c : Nat) : Nat := if c < 4 then 3 - c else c - 4

/-- The gate leg of a meadow (R76). -/
def gateLeg (m : Nat) : Nat := 2 + 2 * mRow m + 2 * colStep (mCol m)

/-- The Col stream time T(r, c) of a meadow (R76). -/
def colTime (m : Nat) : Nat := 8 + 2 * mRow m + 2 * colStep (mCol m)

/-- The travel time between two cells (R75). -/
def travel (a b : Nat) : Nat :=
  let m := cellMeadow a; let n := cellMeadow b
  if a = b then 1
  else if m = n ∧ cellTerrace a = cellTerrace b then dist (cellPos a) (cellPos b)
  else if m = n then 2 + dist (cellTerrace a) (cellTerrace b)
  else if m / 32 = n / 32 then 4 + 2 * (dist (mRow m) (mRow n) + dist (mCol m) (mCol n))
  else gateLeg m + 18 + gateLeg n

/-- The hops that the hazard detector charges a path between cells (R167). -/
def hops (a b : Nat) : Nat := if a / 16 = b / 16 then 0 else 2

/-- The binary of a region's set. -/
def Core.binOf (c : Core) (g : Nat) (set : Bool) : Option Loaded := (c.rgn g).bin set

/-- Whether the set of a region runs with the hazard detector (R167). -/
def Core.debugOn (c : Core) (g : Nat) (set : Bool) : Bool := ((c.binOf g set).map (·.bin.report.debug)).getD false

/-- The region of a cell. -/
def Core.cellRgn (c : Core) (cell : Nat) : Nat := c.rgnOf (cellMeadow cell)

/-- Whether a region owns the track slots of a route: it never sends in a slot that it does not own (R74). -/
def Core.ownsRoute (c : Core) (g : Nat) (r : Route) : Bool := r.slots.all fun t => Store.get c.fab.owners 0 t = g + 1

/-- Put the outputs of a firing on their routes (R46, R73): each output number with its payload, to every route of that output. -/
def Core.place (c : Core) (cell : Nat) (ctx : Ctx) (lat : Nat) (tok : Token) (outs : List (Nat × Nat)) : Core :=
  let g := c.cellRgn cell
  let t0 := (c.rgn g).sched + lat
  let dbg := c.debugOn g tok.set
  let new := outs.flatMap fun (o, p) => (ctx.routes.filter fun r => r.out = o && c.ownsRoute g r).map fun r =>
    ({ tok := { tok with payload := BitVec.ofNat 512 p }, rgn := g,
       due := t0 + travel cell r.dst + (if dbg then 2 * hops cell r.dst else 0), src := cell, dst := r.dst, port := r.port } : Fly)
  { c with fab := { c.fab with fly := c.fab.fly ++ new } }

/-! ### Waiting tokens -/

/-- The tokens that wait at a port. -/
def Core.heldAt (c : Core) (cell port : Nat) : List Held := Store.get c.fab.held [] (cell * 4 + port)

/-- Replace them. -/
def Core.setHeld (c : Core) (cell port : Nat) (l : List Held) : Core :=
  { c with fab := { c.fab with held := Store.set c.fab.held [] (cell * 4 + port) l } }

/-- Remove the oldest entry of a port with a tag and set. -/
def dropOne (tag : Tag) (set : Bool) : List Held → List Held
  | [] => []
  | h :: t => if h.tok.tag = tag ∧ h.tok.set = set then t else h :: dropOne tag set t

/-- Whether a cell's group has already fired in this fc (R47, R59). -/
def Core.hasFired (c : Core) (cell grp : Nat) : Bool := Store.get c.fab.fired 0 (cell * 2 + grp) = c.clk.fc + 1

/-- Mark a firing. -/
def Core.markFired (c : Core) (cell grp : Nat) : Core :=
  { c with fab := { c.fab with fired := Store.set c.fab.fired 0 (cell * 2 + grp) (c.clk.fc + 1) } }

/-- Tokens of a firing as one: tag, set and ADM of the first; POISON and LATE of any (R50). -/
def joinTok (l : List Token) : Token :=
  match l with
  | [] => { payload := 0, tag := 0, set := false, poison := false, late := false, adm := 0 }
  | t :: r => { t with poison := t.poison || r.any (·.poison), late := t.late || r.any (·.late) }

/-- The tokens with which a latched cell may fire (R47): each port's oldest, all of one tag and set; the region's cells run and
the cell has not fired in this fc. -/
def Core.oldest (c : Core) (cell : Nat) (ports : List Nat) : Option (List Token) :=
  let l := ports.map fun p => ((c.heldAt cell p).head?).map (·.tok)
  let ts := l.filterMap id
  match ts with
  | [] => none
  | t :: _ =>
    if l.all Option.isSome && ts.all (fun x => x.tag = t.tag && x.set = t.set) && c.rgnLive (c.cellRgn cell) &&
        !c.hasFired cell 0 then some ts else none

/-- The context under which the oldest token of port 0 would fire. -/
def Core.ctxFor (c : Core) (cell : Nat) : Option Ctx :=
  ((c.heldAt cell 0).head?).map fun h => c.ctx cell h.tok.set

/-- The key of an iteration's next phase at a cell (R53). -/
def Core.phaseKey (c : Core) (cell : Nat) (tag : Tag) (set : Bool) : Nat := c.slotKey cell set * 2 ^ 16 + tag.toNat

/-- Which of its context's firings a cell makes with a token of a port (R169): the phase of a folded MUL, the group of an STR, the event
or the deferred firing of a KEY cell. -/
def Core.firing (c : Core) (cell : Nat) (ctx : Ctx) (port : Nat) (tag : Tag) (set : Bool) : Nat :=
  match ctx.body with
  | .mul _ => Store.get c.fab.phases 0 (c.phaseKey cell tag set)
  | .str x => if x.groups then port / 2 else 0
  | .key _ => port
  | _ => 0

/-- The schedule count less ADM, modulo 2^16 (R169). -/
def Core.sinceAdm (c : Core) (g : Nat) (t : Token) : Nat := ((c.rgn g).sched + 65536 - t.adm.toNat) % 65536

/-- Whether a firing with a token of a port comes before its offset in a debug binary (HAZ_EARLY, R170). -/
def Core.early (c : Core) (cell : Nat) (ctx : Ctx) (port : Nat) (t : Token) : Bool :=
  let g := c.cellRgn cell
  c.debugOn g t.set && match ctx.fires[c.firing cell ctx port t.tag t.set]? with
    | none => false
    | some f => c.sinceAdm g t < f

/-- An uncorrectable word met by a cell (R57): a class D entry with the cell and the line. -/
def Core.ueLog (c : Core) (cell line : Nat) : Core := c.logErr (pMdw (cellMeadow cell)) clsD 0x03 0 cell line

/-- Whether the context that a cell fires under holds an uncorrectable word (R57). -/
def Core.ctxPoison (c : Core) (cell : Nat) (set : Bool) : Bool := c.fab.ctxBad.contains (c.slotKey cell set)

/-- A firing meets its context (R57): an uncorrectable word is logged, the context slot standing for the line. -/
def Core.readCtx (c : Core) (cell : Nat) (set : Bool) : Core :=
  if c.ctxPoison cell set then c.ueLog cell (c.slotKey cell set % 8) else c

/-- Fire a latched cell: take the tokens, do the work, put the outputs on their routes. -/
def Core.fire (c : Core) (cell : Nat) (ctx : Ctx) (ports : List Nat) (lat : Nat) (ts : List Token)
    (work : Core → Core × Bool × List (Nat × Nat)) : Core :=
  let t := joinTok ts
  if c.early cell ctx 0 t then c.schedFault cell 0 t.tag t.set 0x8
  else
    let bad := c.ctxPoison cell t.set
    let c := ports.foldl (fun c p => c.setHeld cell p ((c.heldAt cell p).tail)) c
    let c := (c.markFired cell 0).readCtx cell t.set
    let w := work c
    w.1.place cell ctx lat { t with poison := t.poison || w.2.1 || bad } w.2.2

/-! ### Matching stores (R65 to R68) -/

/-- The ports of an STR context in ascending order (R58). -/
def strPorts (x : StrCtx) : List Nat := [0, 1, 2, 3].filter fun p => x.ports.contains p

/-- The ports a group of an STR context requires. -/
def strNeed (x : StrCtx) (grp : Nat) : List Nat :=
  if x.groups then (strPorts x).filter fun p => p / 2 = grp else if grp = 0 then strPorts x else []

/-- The token of a tag and set at a port. -/
def Core.strTok (c : Core) (cell port : Nat) (tag : Tag) (set : Bool) : Option Held :=
  (c.heldAt cell port).find? fun h => h.tok.tag = tag && h.tok.set = set

/-- The STR context of a set. -/
def Core.strCtx (c : Core) (cell : Nat) (set : Bool) : Option (Ctx × StrCtx) :=
  let x := c.ctx cell set
  match x.body with | .str s => some (x, s) | _ => none

/-- The matches complete in a group for an operation, with the device fc of their last and of their earliest token. -/
def Core.matches_ (c : Core) (cell grp : Nat) (op : StrOp) : List (List Nat × Tag × Bool) :=
  let all := ([0, 1, 2, 3].flatMap fun p => c.heldAt cell p).map fun h => (h.tok.tag, h.tok.set)
  all.filterMap fun (tag, set) => match c.strCtx cell set with
    | none => none
    | some (_, x) =>
      let need := strNeed x grp
      let got := need.map fun p => c.strTok cell p tag set
      if x.op = op ∧ need ≠ [] ∧ got.all Option.isSome then
        let at_ := (got.filterMap id).map fun (h : Held) => h.at_
        some ([at_.foldl max 0, at_.foldl min at_.sum], tag, set)
      else none

/-- The match that fires: of those that were complete first, the one whose earliest token arrived first (R65). Where two earliest tokens
arrived in one fc the manual names no order: the one found first, by port and then by place in the store (DESIGN CHOICE, log 84). -/
def Core.strReady (c : Core) (cell grp : Nat) (op : StrOp) : Option (Tag × Bool) :=
  if c.rgnLive (c.cellRgn cell) && !c.hasFired cell grp then
    (leastBy (fun a b => lexLe a.1 b.1) (c.matches_ cell grp op)).map (·.2)
  else none

/-- MERGE fires the oldest token of the lowest-numbered port that holds one (R58). -/
def Core.mergeReady (c : Core) (cell : Nat) : Option (Tag × Bool) :=
  if c.rgnLive (c.cellRgn cell) && !c.hasFired cell 0 then
    ([0, 1, 2, 3].findSome? fun p => match (c.heldAt cell p).head? with
      | none => none
      | some h => match c.strCtx cell h.tok.set with
        | some (_, x) => if x.op = .merge ∧ x.ports.contains p then some (h.tok.tag, h.tok.set) else none
        | none => none)
  else none

/-- What an STR operation sends for the tokens of its ports (R58, R59): output numbers with payloads. MERGE, RENUMBER and DIGEST name no
output; they send on output 0, as SELECT does (DESIGN CHOICE, log 84). -/
def strWork (x : StrCtx) (grp : Nat) (toks : List (Nat × Token)) : List (Nat × Nat) :=
  let at_ := fun p => ((toks.find? fun t => t.1 = p).map (·.2.payload.toNat)).getD 0
  let one := (toks.head?.map (·.2.payload.toNat)).getD 0
  let ctl := at_ x.control % 256
  let data := (strPorts x).filter fun p => p ≠ x.control
  match x.op with
  | .fork => [0, 1, 2, 3].map fun o => (o, one)
  | .merge => [(0, one)]
  | .switch => if ctl < 4 then [(ctl, at_ (data.headD 0))] else []
  | .select => if ctl < data.length then [(0, at_ (data.getD ctl 0))] else []
  | .gather =>
    let items := x.gather.filter fun i => (strNeed x grp).contains i.port
    [(if x.groups then 2 * grp else 0, items.foldl (fun p i =>
      setBits p (8 * i.dst) (8 * i.len) (at_ i.port / 2 ^ (8 * i.src))) 0 % 2 ^ 512)]
  | .align => toks.map fun t => (t.1, t.2.payload.toNat)
  | .renumber => [(0, one)]
  | .digest => [(0, one)]

/-- The tag of an STR's outputs: RENUMBER changes it. -/
def strTag (x : StrCtx) (tag : Tag) : Tag :=
  if x.op = .renumber then BitVec.ofNat 16 (tag.toNat * x.a + x.b) else tag

/-- The digest record of a window (R344). -/
def digRecord (cell : Nat) (set : Bool) (layer : Nat) (partial_ : Bool) (w : DigWin) : List Byte :=
  toLe 8 w.crc.toNat ++ toLe 4 w.window ++ toLe 2 w.firstTag.toNat ++ toLe 2 layer ++ toLe 4 w.count ++ toLe 2 cell ++
    toLe 1 (b2n set + 2 * b2n partial_ + 4 * b2n w.poison) ++ toLe 9 0

/-- A digest record enters its meadow's FIFO of 64, or is lost (R344): records of one fc stand in ascending cell address, so of those the
one that comes last is lost. -/
def Core.digPush (c : Core) (m : Nat) (r : List Byte) : Core :=
  let f := Store.get c.fab.digFifo [] m
  let n := Store.get c.fab.digNow 0 m
  let old := f.take (f.length - n)
  let f' := old ++ insertBy (fun a b => decide (fld a 20 2 ≤ fld b 20 2)) r (f.drop (f.length - n))
  let c := { c with fab := { c.fab with digFifo := Store.set c.fab.digFifo [] m (f'.take 64),
                                        digNow := Store.set c.fab.digNow 0 m (min (n + 1) (64 - old.length)) } }
  if 64 ≤ f.length then c.bump (pMdw m + 0x198) else c

/-- The open window of a DIGEST context. -/
def DigWin.fresh : DigWin := { crc := 0, count := 0, window := 0, firstTag := 0, poison := false }

/-- Fold a token into the running digest (R343). -/
def Core.digFold (c : Core) (cell : Nat) (x : StrCtx) (t : Token) : Core :=
  let k := c.slotKey cell t.set
  let w := Store.get c.fab.digs DigWin.fresh k
  let w := { w with crc := crc64From w.crc (ofPayload t.payload ++ [BitVec.ofNat 8 (b2n t.poison)]), count := w.count + 1,
                    firstTag := if w.count = 0 then t.tag else w.firstTag, poison := w.poison || t.poison }
  let put := fun (c : Core) (w : DigWin) => { c with fab := { c.fab with digs := Store.set c.fab.digs DigWin.fresh k w } }
  if 2 ^ x.dwin ≤ w.count then
    (put c { DigWin.fresh with window := (w.window + 1) % 2 ^ 32 }).digPush (cellMeadow cell) (digRecord cell t.set x.layer false w)
  else put c w

/-- Fire an STR group for a tag and set (R58, R65). A missing token stands as zero payload with POISON on the outputs (R67). -/
def Core.strFire (c : Core) (cell grp : Nat) (ctx : Ctx) (x : StrCtx) (tag : Tag) (set : Bool) : Core :=
  let need := if x.op = .merge then ((strPorts x).filter fun p => (c.strTok cell p tag set).isSome).take 1 else strNeed x grp
  let got := need.map fun p => (p, (c.strTok cell p tag set).map (·.tok))
  let missing := got.any fun t => t.2.isNone
  let toks := got.map fun t => (t.1, t.2.getD { payload := 0, tag := tag, set := set, poison := true, late := false, adm := 0 })
  let base := joinTok ((got.filterMap (·.2)))
  if c.early cell ctx (2 * grp) base then c.schedFault cell (need.headD 0) tag set 0x8
  else
    let out := { base with tag := strTag x tag, set := set, poison := base.poison || missing || c.ctxPoison cell set }
    let c := need.foldl (fun c p => c.setHeld cell p (dropOne tag set (c.heldAt cell p))) c
    let c := (c.markFired cell grp).readCtx cell set
    let c := if x.op = .digest then c.digFold cell x { out with payload := (toks.head?.map (·.2.payload)).getD 0 } else c
    c.place cell ctx 2 out (strWork x grp toks)

/-! ### Overdue items (R80, R82) -/

/-- An item arrives: it leaves the region's overdue list, and with the last the stall ends. -/
def Core.itemDone (c : Core) (g : Nat) (p : Overdue → Bool) : Core :=
  let r := c.rgn g
  let rest := r.stall.filter fun o => !p o
  c.setRgn g { r with stall := rest, stallLen := if rest.isEmpty then 0 else r.stallLen }

/-- Whether a token in flight may arrive now: its travel is over, or it is the overdue item of a stall (R80). -/
def Core.mayArrive (c : Core) (f : Fly) : Bool :=
  let r := c.rgn f.rgn
  c.fabricOn && (r.phase = .running || r.phase = .draining) &&
  (if r.stall.isEmpty then f.due ≤ r.sched
   else r.stall.any (fun o => o.src = .cell f.src && o.tag = f.tok.tag && o.set = f.tok.set) && f.due ≤ r.sched + r.stallLen)

/-! ### The memories of cells (R419) -/

/-- The device address of a cell's memory. -/
def aCell (cell : Nat) : Nat := 0x100000000 + cell * 0x20000

/-- The line of a MEM cell as a reading port sees it: before a write of the other port in this fc (R56). -/
def Core.memLine (c : Core) (m : Mem) (a : Nat) : Payload :=
  match c.fab.wrB.find? fun e => e.1 = a with
  | some e => e.2
  | none => m.line a

/-- The weight codes of a slot. -/
def slotCodes (m : Mem) (cell slot : Nat) : List Byte := m.read (aCell cell + 32 * slot) 32
/-- Its scale and zero point (R103). -/
def slotScale (m : Mem) (cell slot : Nat) : Num := (dec32 (leNat (m.read (aCell cell + 0x2000 + 8 * slot) 4))).1
def slotZero (m : Mem) (cell slot : Nat) : Int := signed 16 (leNat (m.read (aCell cell + 0x2000 + 8 * slot + 4) 2))

/-- The address of a MEM access by the context (R548): none outside the range. -/
def Core.memAddr (c : Core) (cell : Nat) (x : MemCtx) (set : Bool) (addrTok : Nat) : Option Nat :=
  let a := if x.counter then ((c.fab.ctrs.find? fun e => e.1 = c.slotKey cell set).map (·.2)).getD (x.base + x.start)
    else addrTok / 2 ^ (32 * x.field) % 2 ^ 32
  let line := a / 64 * 64
  if a < 0x20000 ∧ x.base ≤ line ∧ line + 64 ≤ x.limit then some line else none

/-- The counter after a firing (R548). -/
def Core.memStep (c : Core) (cell : Nat) (x : MemCtx) (set : Bool) : Core :=
  if !x.counter then c
  else
    let k := c.slotKey cell set
    let cur := ((c.fab.ctrs.find? fun e => e.1 = k).map (·.2)).getD (x.base + x.start)
    let nxt := if x.limit ≤ x.base then cur else x.base + (cur - x.base + x.step) % (x.limit - x.base)
    { c with fab := { c.fab with ctrs := Store.insert (Store.erase c.fab.ctrs k) k nxt } }

end Sys2Proof.Machine
end

