-- ==== Sys2Proof/Machine/Arith.lean ====
section
/-! DEFINITION. The MUL commands (R51 to R53, R104), the SFN commands (R54, R109 to R114) and the converter's QUANT, DEQUANT
and SCAN (R115, R116, R135, R139). A command on a cell that is not ready leaves the state as it is (R5). -/

namespace Sys2Proof.Machine

/-! ### MUL -/

/-- Whether a MUL cell may fire an operation: its context and its tokens. -/
def Core.mulReady (c : Core) (cell : Nat) (chain : Bool) : Option (Ctx × MulCtx × List Token) :=
  if kindOf cell ≠ .mul then none
  else match c.ctxFor cell with
    | none => none
    | some x => match x.body with
      | .mul k =>
        if k.chain ≠ chain then none
        else (c.oldest cell (if chain then [0, 1] else [0])).map fun ts => (x, k, ts)
      | _ => none

/-- The slot of a firing: phase j of an iteration uses b + j × s (R53). -/
def Core.mulSlot (c : Core) (cell : Nat) (k : MulCtx) (tag : Tag) (set : Bool) : Nat :=
  k.base + Store.get c.fab.phases 0 (c.phaseKey cell tag set) * k.stride

/-- The iteration's next phase (R53). -/
def Core.nextPhase (c : Core) (cell : Nat) (k : MulCtx) (tag : Tag) (set : Bool) : Core :=
  let a := c.phaseKey cell tag set
  let j := Store.get c.fab.phases 0 a
  { c with fab := { c.fab with phases := Store.set c.fab.phases 0 a (if j + 1 < k.phases then j + 1 else 0) } }

/-- The result of a firing (R104): the block, the slot scale, the operand scale, the chain. -/
def mulResult (m : Mem) (cell slot : Nat) (k : MulCtx) (p : Nat) (chain : Option Nat) : Counted :=
  let r := p / 2 ^ 448 % 2 ^ 64
  let z := if k.dynamic then signed 16 (r / 2 ^ 32) else k.zero
  let s := if k.dynamic then signed 8 (r / 2 ^ 48) else k.shift
  let os := if k.dynamic then some (dec32 (r % 2 ^ 32)) else k.opScale.map fun w => dec32 w.toNat
  mulTail (mulBlock k.fmt k.wfmt z s (slotZero m cell slot) p (slotCodes m cell slot)) (slotScale m cell slot) os
    (chain.map fun q => dec32 (q % 2 ^ 32))

/-- DOT and DOTC (R51): a slot outside the store or the context's range is a schedule fault (R53). -/
def Core.mulFire (m : Mem) (c : Core) (cell : Nat) (chain : Bool) : Core :=
  match c.mulReady cell chain with
  | none => c
  | some (x, k, ts) =>
    let t := joinTok ts
    let slot := c.mulSlot cell k t.tag t.set
    if 256 ≤ slot ∨ slot < k.first ∨ k.first + k.count ≤ slot then c.schedFault cell 0 t.tag t.set 0x2
    else
      let bad := m.poisonIn (aCell cell + 32 * slot) 32 || m.poisonIn (aCell cell + 0x2000 + 8 * slot) 8
      c.fire cell x (if chain then [0, 1] else [0]) 8 ts fun c =>
        let r := mulResult m cell slot k t.payload.toNat (if chain then (ts.getD 1 t).payload.toNat else none)
        let c := (c.nextPhase cell k t.tag t.set).credit (cellMeadow cell) r.2
        let c := if bad then c.ueLog cell (slot / 2) else c
        (c, bad, [(0, enc32 r.1)])

def execDot (cell : Nat) (s : State) : Answer := coreStep (fun m c => c.mulFire m cell false) s
def execDotc (cell : Nat) (s : State) : Answer := coreStep (fun m c => c.mulFire m cell true) s

/-! ### SFN -/

/-- The input ports an SFN context requires: ADD2 and a dynamic QUANT take a second operand (R54, R135). -/
def sfnPorts (k : SfnCtx) : List Nat :=
  if k.op = .add2 ∨ (k.op = .quant ∧ k.dynamic) then [0, 1] else [0]

/-- Whether an SFN cell may fire an operation. -/
def Core.sfnReady (c : Core) (cell : Nat) (op : SfnOp) : Option (Ctx × SfnCtx × List Token) :=
  if kindOf cell ≠ .sfn then none
  else match c.ctxFor cell with
    | none => none
    | some x => match x.body with
      | .sfn k => if k.op ≠ op then none else (c.oldest cell (sfnPorts k)).map fun ts => (x, k, ts)
      | _ => none

/-- Fire an SFN operation whose output is a payload with its counts. -/
def Core.sfnFire (c : Core) (cell : Nat) (op : SfnOp) (lat : Nat) (f : SfnCtx → Nat → Nat → Nat × Cnt) : Core :=
  match c.sfnReady cell op with
  | none => c
  | some (x, k, ts) =>
    c.fire cell x (sfnPorts k) lat ts fun c =>
      let r := f k ((ts.map (·.payload.toNat)).getD 0 0) ((ts.map (·.payload.toNat)).getD 1 0)
      (c.credit (cellMeadow cell) r.2, false, [(0, r.1)])

/-- Fire a SCAN operation, which may meet a case the manual does not state: its value is then an open function of
operation `n`, the context and the operand. -/
def Core.scanFire (c : Core) (cell : Nat) (op : SfnOp) (lat n : Nat) (f : SfnCtx → Nat → Nat → Nat × Cnt) : Core :=
  c.sfnFire cell op lat fun k p _ => f k (Config.corner [n, codeWidth k.code, b2n (codeIsInt k.code), k.mask.toNat, p]) p

/-- The latency of RCP in the table the cell's binary names, with its padding (R172, R173). -/
def Core.rcpLat (c : Core) (cell : Nat) : Nat :=
  let g := c.cellRgn cell
  let set := (((c.heldAt cell 0).head?).map (·.tok.set)).getD false
  match c.binOf g set with
  | some l => if l.bin.report.tableId = 2 then 7 else 9
  | none => 9

/-- A per-lane function as the work of a firing. -/
def laneWork (f : Num → Counted) (k : SfnCtx) (p _ : Nat) : Nat × Cnt := perLane f k.mask.toNat p

def execExp2 (cell : Nat) (s : State) : Answer := coreStep (fun _ c => c.sfnFire cell .exp2 6 (laneWork fnExp2)) s
def execLog2 (cell : Nat) (s : State) : Answer := coreStep (fun _ c => c.sfnFire cell .log2 6 (laneWork fnLog2)) s
def execRcp (cell : Nat) (s : State) : Answer := coreStep (fun _ c => c.sfnFire cell .rcp (c.rcpLat cell) (laneWork fnRcp)) s
def execRsqrt (cell : Nat) (s : State) : Answer := coreStep (fun _ c => c.sfnFire cell .rsqrt 9 (laneWork fnRsqrt)) s
def execSqrt (cell : Nat) (s : State) : Answer := coreStep (fun _ c => c.sfnFire cell .sqrt 9 (laneWork fnSqrt)) s
def execTanh (cell : Nat) (s : State) : Answer := coreStep (fun _ c => c.sfnFire cell .tanh 7 (laneWork fnTanh)) s
def execLogistic (cell : Nat) (s : State) : Answer :=
  coreStep (fun _ c => c.sfnFire cell .logistic 7 (laneWork fnLogistic)) s
def execPwl (cell : Nat) (s : State) : Answer :=
  coreStep (fun _ c => c.sfnFire cell .pwl 4 fun k p q => laneWork (fnPwl k.pwl) k p q) s
def execMin8 (cell : Nat) (s : State) : Answer :=
  coreStep (fun _ c => c.sfnFire cell .min8 3 fun k p _ => extreme8 (Num.lt true) k.mask.toNat p) s
def execMax8 (cell : Nat) (s : State) : Answer :=
  coreStep (fun _ c => c.sfnFire cell .max8 3 fun k p _ => extreme8 (fun x y => Num.lt true y x) k.mask.toNat p) s
def execArgmax8 (cell : Nat) (s : State) : Answer :=
  coreStep (fun _ c => c.sfnFire cell .argmax8 3 fun k p _ => argmaxLanes k.mask.toNat p) s
def execSort8 (cell : Nat) (s : State) : Answer :=
  coreStep (fun _ c => c.sfnFire cell .sort8 6 fun k p _ => sortLanes k.mask.toNat p) s
def execSum8 (cell : Nat) (s : State) : Answer :=
  coreStep (fun _ c => c.sfnFire cell .sum8 3 fun k p _ => sumLanes k.mask.toNat p) s
def execAdd2 (cell : Nat) (s : State) : Answer :=
  coreStep (fun _ c => c.sfnFire cell .add2 3 fun k p q => add2Lanes k.mask.toNat p q) s

/-! ### The converter and SCAN -/

/-- The mapping of a context's constants (R137). -/
def pinnedMap (k : SfnCtx) : MapVal :=
  { asym := k.mapping = .asym, shift := k.shift, scale := (dec32 k.scale.toNat).1, zero := k.zero }

/-- The generator state of a context slot: its seed until it first advances (R119). -/
def Core.gen (c : Core) (cell : Nat) (k : SfnCtx) (set : Bool) : Word32 :=
  ((c.fab.gens.find? fun e => e.1 = c.slotKey cell set).map (·.2)).getD k.seed
def Core.setGen (c : Core) (cell : Nat) (set : Bool) (g : Word32) : Core :=
  let a := c.slotKey cell set
  { c with fab := { c.fab with gens := Store.insert (Store.erase c.fab.gens a) a g } }

/-- QUANT (R116, R118, R135, R142): a dynamic context takes the record of its scale token and passes it on in bytes [63:56]. -/
def Core.quantFire (c : Core) (cell : Nat) : Core :=
  match c.sfnReady cell .quant with
  | none => c
  | some (x, k, ts) =>
    let t := joinTok ts
    let rec_ := if k.dynamic then (ts.getD 1 t).payload.toNat % 2 ^ 64 else 0
    let mp := if k.dynamic then recordMap rec_ else pinnedMap k
    let p := (ts.headD t).payload.toNat
    let q := quantLanes k.code mp k.stochastic k.mask.toNat (Config.corner [0, codeWidth k.code, k.scale.toNat, unsigned 16 k.zero, k.mask.toNat, p, rec_]) p (c.gen cell k t.set) 0 8
    c.fire cell x (sfnPorts k) 3 ts fun c =>
      let c := c.credit (cellMeadow cell) ((if k.dynamic then recordCnt rec_ else Cnt.zero).add q.2.1)
      let c := if k.stochastic then c.setGen cell t.set q.2.2.2 else c
      let c := if t.poison then c else c.convLanes (cellMeadow cell) (convOf cell) t.tag t.set q.2.2.1
      (c, false, [(0, if k.dynamic then q.1 % 2 ^ 448 + rec_ * 2 ^ 448 else q.1)])

def execQuant (cell : Nat) (s : State) : Answer := coreStep (fun _ c => c.quantFire cell) s

/-- DEQUANT's mapping: the record in bytes [63:56] in dynamic mode (R135). -/
def dequantMap (k : SfnCtx) (p : Nat) : MapVal := if k.dynamic then recordMap (p / 2 ^ 448 % 2 ^ 64) else pinnedMap k

def execDequant (cell : Nat) (s : State) : Answer :=
  coreStep (fun _ c => c.sfnFire cell .dequant 3 fun k p _ =>
    let r := dequantLanes k.code (dequantMap k p) k.mask.toNat p
    (r.1, (if k.dynamic then recordCnt (p / 2 ^ 448 % 2 ^ 64) else Cnt.zero).add r.2)) s
def execLeafMa (cell : Nat) (s : State) : Answer :=
  coreStep (fun _ c => c.scanFire cell .leafMa 3 1 fun k fr p => scanLeafMa k.mask.toNat fr p) s
def execLeafMm (cell : Nat) (s : State) : Answer :=
  coreStep (fun _ c => c.scanFire cell .leafMm 3 2 fun k fr p => scanLeafMm k.mask.toNat fr p) s
def execCombMa (cell : Nat) (s : State) : Answer :=
  coreStep (fun _ c => c.scanFire cell .combMa 3 3 fun k fr p => scanCombMa k.mask.toNat fr p) s
def execCombMm (cell : Nat) (s : State) : Answer :=
  coreStep (fun _ c => c.scanFire cell .combMm 3 4 fun k fr p => scanCombMm k.mask.toNat fr p) s
def execParam (cell : Nat) (s : State) : Answer :=
  coreStep (fun _ c => c.scanFire cell .param 4 5 fun k fr p => paramRecord k.code (k.mapping = .asym) fr p) s

end Sys2Proof.Machine
end

