-- ==== Sys2Proof/Machine/KeyOps.lean ====
section
/-! DEFINITION. Key rings: the key map and the home of a ring (R243 to R251), the ring operations, PUSH and views (R257 to
R262), publication banks (R267), the place of an event in release order (R334, R335), undo records and resolve points (R282
to R290). -/

namespace Sys2Proof.Machine

/-! ### Release order (R29, R30, R197, R334, R335) -/

/-- The setting of FORD_DELAY in force (0: the default). -/
def Core.dFordRaw (c : Core) (g : Nat) : Nat := c.getF (pTime + 0x140 + 8 * g) 16 11

/-- D_ford in ns (R197). -/
def Core.dFord (c : Core) (g : Nat) : Nat :=
  if c.dFordRaw g ≠ 0 then c.dFordRaw g
  else if ((c.rgn g).anyBin.map (·.bin.sources.length)).getD 0 = 1 then 8 else 16

/-- t_g of R334. -/
def tG : Nat := 29789

/-- The release slot of a due instant (R334). -/
def Rgn.slotAt (r : Rgn) (d : Nat) : Nat := ceilDiv (d - r.g0) tG

/-- The due instant of an event in a region (R29), with the offset of a replay (R351). -/
def Core.due (c : Core) (g : Nat) (e : FordEv) : Nat := e.n + nsN (aSrc e.src) + nsN (c.dFord g) + nsN e.delta

/-- The slot of a frame's resolve point in a region (R281, R335). -/
def Core.resolveSlot (c : Core) (g : Nat) (f : Frame) : Nat :=
  (c.rgn g).slotAt (f.tEnd + nsN (aSrc f.src) + nsN (c.dFord g))

/-- Whether every event of a region that lies before a slot has been collected. -/
def Core.allBefore (c : Core) (g slot : Nat) : Bool :=
  let r := c.rgn g
  r.iters.all (fun i => i.final || slot ≤ i.slot) &&
  (c.ford.buf ++ c.sep.inbox).all fun e => !e.regions.contains g || slot ≤ r.slotAt (c.due g e)

/-! ### The key map -/

/-- The region that owns the population and serves its key stage (R243, R275, R458). -/
def Core.keyOwner (c : Core) : Option Nat :=
  if c.getB (pKey + 0x80) 3 && c.en pKey then some (c.getF (pKey + 0x80) 0 3) else none

/-- The key map of a region's set. -/
def Core.keyMapOf (c : Core) (g : Nat) (set : Bool) : Option KeyMap := ((c.rgn g).bin set).bind (·.bin.keyMap)

/-- The key map in force (R271). -/
def Core.keyMap (c : Core) : Option KeyMap := c.keyOwner.bind fun g => c.keyMapOf g (c.rgn g).set

/-- VLIST: the meadows of VAULTS in ascending order (R244). -/
def kmVaults (k : KeyMap) : List Nat := maskBits 128 k.mask

/-- Whether a key map is an exact-match map (R244). -/
def kmExact (k : KeyMap) : Bool := k.kind = 1

/-- The multiplier of R248. -/
def homeMul : Nat := 0x2B5A7

/-- Vault index and local number of a ring (R248). -/
def homeOf (nv r : Nat) : Nat × Nat :=
  let q := r / 4
  let x := q ^^^ (q >>> 9)
  let g := x * homeMul % 2 ^ 18
  (g % nv, 4 * (g / nv) + r % 4)

/-- The size and the stride of a ring (R244). -/
def kmRingSize (k : KeyMap) : Nat := 128 + k.n * (16 * k.eu)
def kmStride (k : KeyMap) : Nat := (kmRingSize k + 63) / 64 * 64

/-- The device address of byte b of vault m (R420). -/
def aVault (m b : Nat) : Nat := 0x200000000 + m * 0x8000000 + b

/-- The device address of a ring. -/
def kmRingAt (k : KeyMap) (j loc : Nat) : Nat := aVault ((kmVaults k).getD j 0) (k.ringBase + loc * kmStride k)

/-- The local rings of a vault (R248), at most. -/
def kmLocals (k : KeyMap) : Nat := 4 * ceilDiv (2 ^ 18) (kmVaults k).length

/-- The local rings that a vault of VLIST holds: local quad q of vault index j is a ring's when q × NV + j lies below 2^18 (R248). -/
def kmLocalsOf (k : KeyMap) (v : Nat) : Nat := 4 * ceilDiv (2 ^ 18 - (kmVaults k).idxOf v) (kmVaults k).length

/-- The ring area of a vault of a key map, as address and length. -/
def kmArea (k : KeyMap) (v : Nat) : Nat × Nat := (aVault v k.ringBase, kmLocalsOf k v * kmStride k)

/-- Vault index and the two buckets of an exact key (R251). -/
def locateOf (nv blog key : Nat) : Nat × Nat × Nat :=
  let a := key * 0x8F3A61D527C9B04B % 2 ^ 64
  let b := key * 0x5C41E9A73D06F2B9 % 2 ^ 64
  let i1 := b / 2 ^ (64 - blog)
  let i2 := a / 2 ^ (32 - blog) % 2 ^ blog
  (a / 2 ^ 32 * nv / 2 ^ 32, i1, if i2 = i1 then i1 ^^^ 1 else i2)

/-- A slot of the table as it stood at a tick (R252). -/
def Core.slotBytes (c : Core) (m : Mem) (a tick : Nat) : List Byte :=
  match c.key.slotPend with
  | some p => if p.addr = a then (if tick < p.tick then p.old else p.new) else m.read a 16
  | none => m.read a 16

/-- The device address of a slot. -/
def kmSlotAddr (k : KeyMap) (j bucket slot : Nat) : Nat := aVault ((kmVaults k).getD j 0) (k.tableBase + 64 * bucket + 16 * slot)

/-- The ring of an exact key at a tick (R251). -/
def Core.locate (c : Core) (m : Mem) (k : KeyMap) (key tick : Nat) : KeyHome :=
  let (j, i1, i2) := locateOf (kmVaults k).length k.blog key
  let slots := ([i1, i2].flatMap fun i => [0, 1, 2, 3].map fun s => c.slotBytes m (kmSlotAddr k j i s) tick)
  match slots.find? fun b => bit (fld b 8 4) 31 && fld b 0 8 = key with
  | some b => .ring j (fld b 8 4 % 2 ^ 20)
  | none => .miss j

/-- The home of an event in a region (R249, R251, R254): word 0 holds KEY in bits [43:24], KEY_VALID in bit 44 and KEY_EXACT
in bit 62 (R230). -/
def Core.homeFor (c : Core) (m : Mem) (g : Nat) (set : Bool) (word : Payload) (tick : Nat) : KeyHome :=
  if c.keyOwner ≠ some g then .null
  else match c.keyMapOf g set with
    | none => .null
    | some k =>
      let w0 := pfld word 0 8
      if kmExact k then (if bit w0 62 then c.locate m k (pfld word 24 8) tick else .null)
      else if bit w0 44 then
        let h := homeOf (kmVaults k).length (w0 / 2 ^ 24 % 2 ^ 20)
        .ring h.1 h.2
      else .null

/-- The vault index whose cell is the owner (R254). -/
def KeyHome.j : KeyHome → Nat
  | .null => 0 | .miss j => j | .ring j _ => j

/-! ### Lines of rings -/

/-- A line of a vault as the key stage sees it: the latest write of its queue, or the vault (R263). -/
def Core.ringLine (c : Core) (m : Mem) (a : Nat) : Payload :=
  match c.fab.vwrites.reverse.find? fun w => w.addr = a with
  | some w => w.line
  | none => m.line a

/-- The bytes of `n` lines from `a` on. -/
def Core.ringBytes (c : Core) (m : Mem) (a n : Nat) : List Byte :=
  (List.range n).flatMap fun i => ofPayload (c.ringLine m (a + 64 * i))

/-- Queue a line write to a vault (R549); `wait`: from when on it is in the key cache and the queue (R255). -/
def Core.putLine (c : Core) (a : Nat) (l : Payload) (wait : Option (Nat × Nat × Nat)) : Core :=
  { c with fab := { c.fab with vwrites := c.fab.vwrites ++ [⟨(a - 0x200000000) / 0x8000000, a, l, wait⟩] } }

/-! ### Operands and words (R257, R259) -/

/-- A state word's byte offset (R245). -/
def wordOff (w : Nat) : Nat := 24 + 8 * w

/-- A source field as an exact value, with the flushes counted. -/
def keySrc (sfmt : Nat) (inp : List Byte) (src : Nat) : Num × Nat :=
  if sfmt = 0 then (.ofInt (signed 32 (fld inp src 4)), 0)
  else if sfmt = 1 then (.ofInt (signed 64 (fld inp src 8)), 0)
  else ((dec32 (fld inp src 4)).1, (dec32 (fld inp src 4)).2.flush)

/-- A value rounded to INT64 and saturated (R259). -/
def toInt64 : Num → Int × Nat
  | .nan => (0, 1)
  | .inf n => (if n then -2 ^ 63 else 2 ^ 63 - 1, 1)
  | .fin n m e =>
    let i := roundInt n m e
    if i < -2 ^ 63 then (-2 ^ 63, 1) else if 2 ^ 63 ≤ i then (2 ^ 63 - 1, 1) else (i, 0)

/-- The occurrences of a rounding. -/
def Cnt.all (k : Cnt) : Nat := k.flush + k.infty + k.nan

/-- The word of INT64 and the word of binary32 in a ring. -/
def wordInt (ring : List Byte) (w : Nat) : Int := signed 64 (fld ring (wordOff w) 8)
def wordNum (ring : List Byte) (w : Nat) : Num × Nat :=
  ((dec32 (fld ring (wordOff w) 4)).1, (dec32 (fld ring (wordOff w) 4)).2.flush)

/-- Write a word (R258). -/
def putInt (ring : List Byte) (w : Nat) (v : Int) : List Byte := splice ring (wordOff w) (toLe 8 (unsigned 64 v))
def putNum (ring : List Byte) (w : Nat) (x : Num) : List Byte := splice ring (wordOff w) (toLe 4 (enc32 x) ++ toLe 4 0)

/-- What the operations of a list have done: the ring, KEY_CONV and KEY_CODE_SAT. -/
structure RingRun where
  ring : List Byte
  conv : Nat
  sat : Nat
  deriving DecidableEq, Repr

/-- An operation on an INT64 word (R258). -/
def opInt (op : Nat) (init : Bool) (k : Nat) (w v : Int) : Int :=
  if op = 2 then w + v
  else if op = 3 then w + 1
  else if op = 4 then (if init || v < w then v else w)
  else if op = 5 then (if init || w < v then v else w)
  else if op = 6 then v
  else if op = 7 then (if init then v else w + (v - w) / 2 ^ k)
  else w

/-- An operation on a binary32 word (R258, R113): the value before its rounding, with what was counted; none: unchanged. -/
def opNum (op : Nat) (init : Bool) (k : Nat) (w v : Num) : Option (Num × Nat) :=
  if op = 2 then some (w.add v, 0)
  else if op = 4 then
    if v.isNan then none else if init || w.isNan || Num.lt true v w then some (v, 0) else none
  else if op = 5 then
    if v.isNan then none else if init || w.isNan || Num.lt true w v then some (v, 0) else none
  else if op = 6 then some (v, 0)
  else if op = 7 then
    if init then some (v, 0)
    else
      let d := round32 (v.add w.neg)
      some (w.add (d.1.shift (-(k : Int))), d.2.all)
  else none

/-- One operation but PUSH, `upd0`: UPDATES as collected is zero. The stored word counts its flush only where it is an operand (R259). -/
def keyOp (o : KeyOp) (upd0 : Bool) (inp : List Byte) (r : RingRun) : RingRun :=
  let init := o.first && upd0
  let s := keySrc o.sfmt inp o.src
  if o.op = 3 then { r with ring := putInt r.ring o.word (wordInt r.ring o.word + 1) }
  else if o.wfmt = 0 then
    let v := toInt64 s.1
    { r with ring := putInt r.ring o.word (opInt o.op init o.k (wordInt r.ring o.word) v.1), conv := r.conv + s.2 + v.2 }
  else
    let v := if o.sfmt = 2 then (s.1, s.2) else ((round32 s.1).1, (round32 s.1).2.all)
    let w := wordNum r.ring o.word
    let wf := if o.op = 6 || (init && (o.op = 4 || o.op = 5 || o.op = 7)) then 0 else w.2
    match opNum o.op init o.k w.1 v.1 with
    | none => { r with conv := r.conv + v.2 + wf }
    | some x => { r with ring := putNum r.ring o.word (round32 x.1).1,
                         conv := r.conv + v.2 + wf + x.2 + (round32 x.1).2.all }

/-! ### PUSH (R260) -/

/-- The code of a difference, and whether it saturated; `neg` and the rest are its exact value. -/
def codeOf (f : EntryField) (neg : Bool) (m : Nat) (e : Int) : Int × Bool :=
  let q := match (dec32 f.scale.toNat).1 with
    | .fin _ ms es =>
      let d := e - es
      let v : Int := if neg then -(m : Int) else m
      if 0 ≤ d then roundDiv (v * 2 ^ d.toNat) (max 1 ms) else roundDiv v (max 1 ms * 2 ^ (-d).toNat)
    | _ => 0
  let c := q + f.zero
  if c < codeLo f.code then (codeLo f.code, true) else if codeHi f.code < c then (codeHi f.code, true) else (c, false)

/-- One entry field. -/
def entryField (f : EntryField) (inp : List Byte) (ent : List Byte) (r : RingRun) : List Byte × RingRun :=
  if f.copy then (splice ent f.dst (slice inp f.src f.len), r)
  else
    let x := keySrc f.len inp f.src
    let ce := match f.centre with
      | none => (Num.zero, 0)
      | some w => if f.cfmt = 1 then wordNum r.ring w else (.ofInt (wordInt r.ring w), 0)
    let put := fun (v : Int) => splice ent f.dst [BitVec.ofNat 8 (unsigned (codeWidth f.code) v)]
    let r := { r with conv := r.conv + x.2 + ce.2 }
    match x.1.add ce.1.neg with
    | .nan => (put f.zero, { r with conv := r.conv + 1 })
    | .inf n => (put (if n then codeLo f.code else codeHi f.code), { r with sat := r.sat + 1 })
    | .fin n m e =>
      let v := codeOf f n m e
      (put v.1, { r with sat := r.sat + b2n v.2 })

/-- PUSH: build the entry, write it at HEAD, advance HEAD and FILL (R258, R260). -/
def push (k : KeyMap) (fields : List EntryField) (inp : List Byte) (r : RingRun) : RingRun :=
  let e := 16 * k.eu
  let b := fields.foldl (fun (x : List Byte × RingRun) f => entryField f inp x.1 x.2) (List.replicate e 0, r)
  let head := fld b.2.ring 0 2 % k.n
  let ring := splice b.2.ring (128 + head * e) b.1
  let ring := splice ring 0 (toLe 2 ((head + 1) % k.n) ++ toLe 2 (min (fld ring 2 2 + 1) k.n))
  { b.2 with ring := ring }

/-- Run a list of operations in order on a ring. -/
def runOps (k : KeyMap) (ops : List KeyOp) (fields : List EntryField) (inp ring : List Byte) : RingRun :=
  let upd0 := fld ring 16 8 = 0
  ops.foldl (fun r o => if o.op = 1 then push k fields inp r else keyOp o upd0 inp r) ⟨ring, 0, 0⟩

/-- The stamp of an event apply (R245): LAST_TICK and UPDATES. -/
def stamp (tick : Nat) (ring : List Byte) : List Byte :=
  splice ring 8 (toLe 8 tick ++ toLe 8 (fld ring 16 8 + 1))

/-! ### Views (R261, R262, R267) -/

/-- The active publication bank for an event's tick (R267). -/
def Core.activeBank (c : Core) (t : Nat) : Nat :=
  let t0 := c.rd (pKey + 0xE8); let t1 := c.rd (pKey + 0xF0)
  if t0 ≤ t ∧ t1 ≤ t then (if t0 = t1 then c.key.recent else if t0 < t1 then 1 else 0)
  else if t0 ≤ t then 0 else if t1 ≤ t then 1
  else if t0 = t1 then 1 - c.key.recent else if t0 < t1 then 0 else 1

/-- The bytes of a bank: offset within the ring and length (R246). -/
def kmBankOff (k : KeyMap) (b : Nat) : Nat := wordOff (if b = 0 then 13 - 2 * k.pubWords else 13 - k.pubWords)

/-- The entry of an age; one of age FILL or more reads as zero (R245). -/
def entryAt (k : KeyMap) (ring : List Byte) (age : Nat) : List Byte :=
  if fld ring 2 2 ≤ age then []
  else slice ring (128 + (fld ring 0 2 + 2 * k.n - 1 - age % k.n) % k.n * (16 * k.eu)) (16 * k.eu)

/-- Bytes into a view token; byte 63 is the status. -/
def viewPut (v : List Byte) (dst : Nat) (b : List Byte) : List Byte := splice v dst b

/-- One copy item (R261). `ring`: none for an all-zero ring. -/
def viewItem (k : Option KeyMap) (ring : Option (List Byte)) (inp : List Byte) (bank : Nat) (v : List Byte) (i : ViewItem) :
    List Byte :=
  if i.sel = 1 then viewPut v i.dst (slice ((ring.getD []).take 128) i.src i.len)
  else if i.sel = 2 then
    (List.range i.count).foldl (fun v n =>
      let e := match k, ring with | some k, some r => entryAt k r (i.age + n) | _, _ => []
      viewPut v (i.dst + n * i.len) (slice e i.src i.len)) v
  else if i.sel = 3 then
    let b := match k, ring with | some k, some r => slice r (kmBankOff k bank) (8 * k.pubWords) | _, _ => []
    viewPut v i.dst (slice b i.src i.len)
  else if i.sel = 4 then viewPut v i.dst (slice inp i.src i.len)
  else v

/-- A view token's payload. -/
def viewOf (k : Option KeyMap) (ring : Option (List Byte)) (inp : List Byte) (bank status : Nat) (items : List ViewItem) : Nat :=
  leNat (splice (items.foldl (viewItem k ring inp bank) (List.replicate 64 0)) 63 [BitVec.ofNat 8 status])

/-- The lines of the fetch set of a context (R253), as line numbers within the ring. -/
def fetchLines (k : KeyMap) (x : KeyCtx) (head : Nat) : List Nat :=
  let e := 16 * k.eu
  let words := ((x.ops ++ x.deferred).filter fun o => o.op ≠ 1).map (·.word) ++ x.entries.filterMap fun f =>
    if f.copy then none else f.centre
  let items := x.views.flatten
  let one := words.any (fun w => 5 ≤ w) || items.any fun i => i.sel = 3 || (i.sel = 1 && 64 < i.src + i.len)
  let ents := (if x.ops.any fun o => o.op = 1 then [head % k.n] else []) ++
    ((items.filter fun i => i.sel = 2).flatMap fun i => (List.range (min i.count k.n)).map fun n =>
      (head + 2 * k.n - 1 - (i.age + n) % k.n) % k.n)
  let ls := ents.flatMap fun i =>
    let lo := (128 + i * e) / 64
    (List.range ((128 + i * e + e - 1) / 64 + 1 - lo)).map (· + lo)
  (([0] ++ (if one then [1] else []) ++ ls).foldl (fun l x => insertNat x l) [])

/-! ### KEY contexts and cells -/

/-- The KEY context of a cell for a set. -/
def Core.keyCtx (c : Core) (cell : Nat) (set : Bool) : Option (Ctx × KeyCtx) :=
  let x := c.ctx cell set
  match x.body with | .key k => some (x, k) | _ => none

/-- Whether the vault of an iteration's ring is that of a cell's own meadow (R22, R60); an event without a key has no vault. -/
def Core.atHome (c : Core) (cell : Nat) (i : Iter) : Bool :=
  match i.home, c.keyMapOf (c.cellRgn cell) i.set with
  | .null, _ => true
  | h, some km => (kmVaults km)[h.j]? = some (cellMeadow cell)
  | _, none => false

/-- Whether a cell is the owner of an iteration's ring (R254): the cell of its vault index, of its copy where the graph is laid out
twice (R264), in the meadow of its vault. -/
def Core.keyOwns (c : Core) (cell : Nat) (i : Iter) : Bool :=
  match c.keyCtx cell i.set with
  | some (_, k) => k.j = i.home.j && c.atHome cell i &&
      (k.copy = i.copy || ((c.binOf (c.cellRgn cell) i.set).map (·.bin.report.copies)) ≠ some 2)
  | none => false

/-- The KEY cells that hold tokens, with the context of the same vault index: the cell and its pair (R264). -/
def Core.pair (c : Core) (g j : Nat) (set : Bool) : List Nat :=
  ((c.fab.held.map fun e => e.1 / 4).filter fun k =>
    kindOf k = .key && c.cellRgn k = g && ((c.keyCtx k set).map (·.2.j)) = some j)

/-- The place of an iteration in release order. -/
def Rgn.place (r : Rgn) (tag : Tag) (set : Bool) : Nat := r.iters.findIdx fun i => i.tag = tag && i.set = set

/-! ### Undo records and resolve points (R284, R287, R289, R290) -/

/-- Use up a frame in a list of records: kept records, and the lines to restore. -/
def resolveRecs (g : Nat) (d : Nat × Nat) (good : Bool) (l : List Undo) : List Undo × List (Nat × Payload) :=
  let hit := fun u : Undo => u.rgn = g && u.deps.contains d
  if good then
    ((l.map fun u => if hit u then { u with deps := u.deps.filter (· ≠ d) } else u).filter fun u => u.deps ≠ [], [])
  else (l.filter fun u => !hit u, (l.filter hit).map fun u => (u.addr, u.saved))

/-- Put a line into a snapshot's saved copies. -/
def putSaved (l : List (Nat × Payload)) (a : Nat) (p : Payload) : List (Nat × Payload) :=
  l.map fun e => if e.1 = a then (a, p) else e

/-- F's resolve point in a region (R287): every record that names F gives up its bit or is restored; without a verdict F
counts as bad in every region, with a class C error of code BOUND. -/
def Core.resolveFrame (c : Core) (g : Nat) (f : Frame) : Core :=
  let d := (f.src, f.num)
  let c := if f.verdict.isSome then c else
    (c.logErr pSep clsC 0x06 (srcClass f.src) (srcIdx f.src) f.num)
  let good := f.verdict = some true
  let live := resolveRecs g d good c.key.undo
  let c := live.2.foldl (fun c e => c.putLine e.1 e.2 none) (c.bumpBy (pKey + 0x1D8) live.2.length)
  let snap := c.key.snap.map fun s =>
    let r := resolveRecs g d good s.undo
    { s with undo := r.1, saved := r.2.foldl (fun l e => putSaved l e.1 e.2) s.saved }
  let c := { c with key := { c.key with undo := live.1, snap := snap } }
  let c := { c with sep := { c.sep with frames := c.sep.frames.map fun (x : Frame) =>
    if x.src = f.src ∧ x.num = f.num then
      { x with resolved := insertNat g x.resolved, verdict := some (x.verdict.getD false) } else x } }
  let c := if good then c else c.modRgn g fun r =>
    { r with iters := r.iters.map fun (i : Iter) => if i.deps.contains d then { i with undone := true } else i }
  if f.verdict.isSome then c.settleRgn g else c.settle

/-- Resolve, in release order, every frame of a region whose resolve point a position has passed (R287). -/
def Core.resolveUpTo (c : Core) (g : Nat) (passed : Frame → Bool) : Core :=
  (c.sep.frames.filter fun f => bit f.regions g && !f.resolved.contains g && passed f).foldl
    (fun c f => c.resolveFrame g f) c

/-- Save the contents of a line before an event of the snapshot tick or later changes it (R274), with its records. -/
def Core.snapSave (c : Core) (m : Mem) (tick a : Nat) : Core :=
  match c.key.snap with
  | none => c
  | some s =>
    if tick < s.tick ∨ s.saved.any (fun e => e.1 = a) then c
    else { c with key := { c.key with snap := some { s with
      saved := s.saved ++ [(a, c.ringLine m a)], undo := s.undo ++ (c.key.undo.filter fun u => u.addr = a) } } }

/-- The saved contents of records take the place of lines that hold one (R289). -/
def Core.committedLine (c : Core) (m : Mem) (a : Nat) : Payload :=
  match c.key.undo.find? fun u => u.addr = a with
  | some u => u.saved
  | none => c.ringLine m a

/-- Free the records of lines a predicate names (R290). -/
def Core.freeRecords (c : Core) (p : Nat → Bool) : Core :=
  { c with key := { c.key with undo := c.key.undo.filter fun u => !p u.addr,
                               snap := c.key.snap.map fun s => { s with undo := s.undo.filter fun u => !p u.addr } } }

/-! ### The key cache (R256) -/

/-- The cache set of a line for a KEY cell. -/
def cacheKey (cell line : Nat) : Nat := cell / 16 * 256 + Config.cacheSet line % 256

/-- Whether a KEY cell's terrace has a key cache. -/
def Core.hasCache (c : Core) (cell : Nat) (set : Bool) : Bool :=
  [2, 14].any fun p => match (c.ctx (cell / 16 * 16 + p) set).body with | .mem k => k.op = .kcache && !k.undo | _ => false

/-- Put a line first in its set, the least recently used of 8 leaving. -/
def Core.cachePut (c : Core) (cell a : Nat) : Core :=
  let k := cacheKey cell (a / 64)
  let t := Store.modify c.key.cache [] k fun l => (a :: l.filter (· ≠ a)).take 8
  { c with key := { c.key with cache := t } }

/-- Whether the cache holds a line. -/
def Core.cached (c : Core) (cell a : Nat) : Bool := (Store.get c.key.cache [] (cacheKey cell (a / 64))).contains a

/-! ### What no write reaches (R421) -/

/-- Whether two byte ranges share a byte. -/
def overlaps (a n b k : Nat) : Bool := a < b + k && b < a + n

/-- The meadows whose cells a range of the MEM window touches. -/
def meadowsOf (a n : Nat) : List Nat :=
  if 0x100000000 ≤ a && a < 0x200000000 then
    let m := (a - 0x100000000) / 0x2000000
    (List.range ((a + n - 1 - 0x100000000) / 0x2000000 + 1 - m)).map fun i => m + i
  else []

/-- Whether a range shares a byte with the ring area or the bucket table of the active key map while the key stage is enabled
(R244, R421). -/
def Core.inRings (c : Core) (a n : Nat) : Bool :=
  match c.keyMap with
  | none => false
  | some k => (kmVaults k).any fun v =>
    overlaps a n (kmArea k v).1 (kmArea k v).2 ||
    (kmExact k && overlaps a n (aVault v k.tableBase) (64 * 2 ^ k.blog))

/-- Whether a write is refused (R421): into a cell of a standing region that is not idle, or into the rings of the active map. -/
def Core.protected (c : Core) (a n : Nat) : Bool :=
  (meadowsOf a n).any (fun m => c.rgnField m < 8 && (c.rgn (c.rgnField m)).phase ≠ .idle) || c.inRings a n

end Sys2Proof.Machine
end

