-- ==== Sys2Proof/Machine/Binary.lean ====
section
/-! DEFINITION. The bytes of a binary that the manual gives: the report block and its tables (R157, R158), the parser programs (R224,
R225), the key-map descriptor (R244) and the templates (R232), written for the digest of R341 and read from memory. -/

namespace Sys2Proof.Machine

/-! ### The report block (R157) -/

/-- The fixed part as its 128 bytes. -/
def reportHead (r : Report) : List Byte :=
  toLe 4 r.magic ++ toLe 4 r.verMask ++ toLe 2 r.verMinor ++ toLe 2 r.tableId ++
    toLe 4 (b2n r.canonical + 2 * b2n r.debug + 4 * b2n r.hotClass + 8 * b2n r.standing + 16 * r.flagsHi) ++
    toLe 1 r.region ++ toLe 1 r.copies ++ toLe 2 r.ii ++ toLe 4 r.lat ++ toLe 2 r.dDef ++ toLe 2 r.keyBudget ++ toLe 2 r.keyRateN ++
    toLe 2 r.keyRateW ++ toLe 2 r.sections ++ toLe 1 (b2n r.set) ++ toLe 1 r.zero35 ++
    ((List.range 6).flatMap fun k => toLe 2 (r.cells.getD k 0)) ++ toLe 16 (toMask r.meadows) ++ toLe 8 r.coresident.toNat ++
    toLe 8 r.zero72 ++ (List.range 6).flatMap fun k => toLe 4 (r.tables.getD k (0, 0)).1 ++ toLe 4 (r.tables.getD k (0, 0)).2

/-- The fixed part that 128 bytes spell. -/
def reportOf (b : List Byte) : Report :=
  { magic := fld b 0 4, verMask := fld b 4 4, verMinor := fld b 8 2, tableId := fld b 10 2,
    canonical := bit (fld b 12 4) 0, debug := bit (fld b 12 4) 1, hotClass := bit (fld b 12 4) 2, standing := bit (fld b 12 4) 3,
    flagsHi := fld b 12 4 / 16, region := fld b 16 1, copies := fld b 17 1, ii := fld b 18 2, lat := fld b 20 4, dDef := fld b 24 2,
    keyBudget := fld b 26 2, keyRateN := fld b 28 2, keyRateW := fld b 30 2, sections := fld b 32 2, set := fld b 34 1 = 1,
    zero35 := fld b 35 1, cells := (List.range 6).map fun k => fld b (36 + 2 * k) 2, meadows := maskBits 128 (fld b 48 16),
    coresident := BitVec.ofNat 64 (fld b 64 8), zero72 := fld b 72 8,
    tables := (List.range 6).map fun k => (fld b (80 + 8 * k) 4, fld b (84 + 8 * k) 4) }

/-! ### The tables (R158) -/

/-- Entries as bytes. -/
def memEntryBytes (e : MemEntry) : List Byte :=
  toLe 2 e.cell ++ toLe 1 e.slot ++ toLe 1 e.op ++ toLe 4 e.base ++ toLe 4 e.limit ++ toLe 4 0
def weightEntryBytes (e : WeightEntry) : List Byte := toLe 2 e.cell ++ toLe 1 e.slot ++ toLe 1 0 ++ toLe 2 e.first ++ toLe 2 e.count
def vaultEntryBytes (e : VaultEntry) : List Byte := toLe 1 e.meadow ++ toLe 3 0 ++ toLe 4 e.maskA.toNat ++ toLe 4 e.maskB.toNat
def portEntryBytes (e : PortEntry) : List Byte :=
  toLe 2 e.cell ++ toLe 1 e.port ++ toLe 1 e.slot ++ toLe 1 e.peak ++ toLe 1 0 ++ toLe 2 e.w
def scanEntryBytes (e : ScanEntry) : List Byte := toLe 2 e.cell ++ toLe 2 e.n ++ toLe 2 e.cost ++ toLe 1 e.mode ++ toLe 1 0
def sectionEntryBytes (e : SectionEntry) : List Byte :=
  toLe 2 e.index ++ toLe 1 e.slot ++ toLe 1 (b2n e.lpddr) ++ toLe 4 e.reloadFc

/-- Entries from bytes. -/
def memEntryOf (b : List Byte) : MemEntry := ⟨fld b 0 2, fld b 2 1, fld b 3 1, fld b 4 4, fld b 8 4⟩
def weightEntryOf (b : List Byte) : WeightEntry := ⟨fld b 0 2, fld b 2 1, fld b 4 2, fld b 6 2⟩
def vaultEntryOf (b : List Byte) : VaultEntry := ⟨fld b 0 1, BitVec.ofNat 32 (fld b 4 4), BitVec.ofNat 32 (fld b 8 4)⟩
def portEntryOf (b : List Byte) : PortEntry := ⟨fld b 0 2, fld b 2 1, fld b 3 1, fld b 4 1, fld b 6 2⟩
def scanEntryOf (b : List Byte) : ScanEntry := ⟨fld b 0 2, fld b 2 2, fld b 4 2, fld b 6 1⟩
def sectionEntryOf (b : List Byte) : SectionEntry := ⟨fld b 0 2, fld b 2 1, fld b 3 1 = 1, fld b 4 4⟩

/-- The tables of a binary as bytes, in the order of TABLES. -/
def tableBytes (b : Binary) : List (List Byte) :=
  [b.mem.flatMap memEntryBytes, b.weight.flatMap weightEntryBytes, b.vault.flatMap vaultEntryBytes, b.port.flatMap portEntryBytes,
   b.scan.flatMap scanEntryBytes, b.section_.flatMap sectionEntryBytes]

/-- The report block with its tables: the fixed part and every table at its offset, zero between. -/
def reportBytes (b : Binary) : List Byte :=
  let ts := (List.range 6).map fun k => ((b.report.tables.getD k (0, 0)).1, (tableBytes b).getD k [])
  let n := ts.foldl (fun n t => if t.2 = [] then n else max n (t.1 + t.2.length)) 128
  ts.foldl (fun l t => splice l t.1 t.2) (reportHead b.report ++ List.replicate (n - 128) 0)

/-- The entries of table k, `n` bytes each, read from memory. -/
def tableAt {α : Type} (m : Mem) (a : Nat) (r : Report) (k n : Nat) (f : List Byte → α) : List α :=
  (List.range (r.tables.getD k (0, 0)).2).map fun i => f (m.read (a + (r.tables.getD k (0, 0)).1 + n * i) n)

/-- The binary whose report block stands at a device address (R313): the report and its tables as R157 and R158 lay them out, the
images behind it as the loader finds them. -/
def binaryIn (m : Mem) (a : Nat) : Option Binary :=
  let r := reportOf (m.read a 128)
  (Config.binaryRest m.bytes a).map fun b =>
    { b with report := r, mem := tableAt m a r 0 16 memEntryOf, weight := tableAt m a r 1 8 weightEntryOf,
             vault := tableAt m a r 2 12 vaultEntryOf, port := tableAt m a r 3 8 portEntryOf, scan := tableAt m a r 4 8 scanEntryOf,
             section_ := tableAt m a r 5 8 sectionEntryOf }

/-! ### Programs, descriptor and templates -/

/-- A case record (R225). -/
def caseBytes (x : ParseCase) : List Byte :=
  toLe 2 x.type ++ toLe 1 (b2n !x.emit) ++ toLe 1 x.keyOff ++ toLe 1 x.keyCtrl ++ toLe 1 x.extFirst ++ toLe 1 x.extCount ++
    toLe 1 x.minLen ++ toLe 8 0

/-- An extract record (R225). -/
def extractBytes (x : Extract) : List Byte := toLe 1 x.src ++ toLe 1 (x.len % 64 + 128 * b2n x.swap) ++ toLe 1 x.dst ++ toLe 1 0

/-- A parser program's 400 bytes (R224). -/
def programBytes (p : Program) : List Byte :=
  slice (toLe 2 p.hdrSkip ++ toLe 1 p.maxMsg ++ toLe 1 p.lenCtrl ++ toLe 2 p.lenVal ++ toLe 2 (unsigned 16 p.lenAdd) ++ toLe 1 p.typeOff ++
    toLe 1 p.typeCtrl ++ toLe 1 p.ncase ++ toLe 5 0) 0 16 ++
    slice (p.cases.flatMap caseBytes) 0 128 ++ slice (p.extracts.flatMap extractBytes) 0 256

/-- The key-map descriptor's 64 bytes (R244). `rsv` holds bytes [23:21] and then [63:32]. -/
def keyMapBytes (k : KeyMap) : List Byte :=
  toLe 16 k.mask ++ toLe 1 k.kind ++ toLe 1 k.n ++ toLe 1 k.eu ++ toLe 1 k.pubWords ++ toLe 1 k.blog ++ toLe 3 k.rsv ++
    toLe 4 k.ringBase ++ toLe 4 k.tableBase ++ toLe 32 (k.rsv / 2 ^ 24)

/-- An insert record (R232). -/
def insertBytes (i : Insert) : List Byte := toLe 1 i.src ++ toLe 1 (i.len % 64 + 128 * b2n i.swap) ++ toLe 2 i.dst

/-- A template's descriptor of 32 bytes and its image of 256 (R232, R341). -/
def templateBytes (t : Template) : List Byte :=
  toLe 2 t.len ++ toLe 1 t.kind ++ toLe 1 t.lp ++ toLe 1 (b2n t.udpcs + 2 * b2n t.early) ++ toLe 1 t.l3off ++
    toLe 2 (t.seqOff.getD 0xFFFF) ++ slice (t.inserts.flatMap insertBytes) 0 16 ++ toLe 8 0 ++ slice t.image 0 256

/-- What the program digest covers of a configuration set (R341): 64 programs, the key-map descriptor and 256 templates. -/
def setBytes (b : Binary) : List Byte :=
  ((List.range 64).flatMap fun k => match b.programs.find? fun e => e.1 = k with
    | some e => programBytes e.2
    | none => List.replicate 400 0) ++
  (match b.keyMap with | some k => keyMapBytes k | none => List.replicate 64 0) ++
  (List.range 256).flatMap fun k => match b.templates.find? fun e => e.1 = k with
    | some e => templateBytes e.2
    | none => List.replicate 288 0

end Sys2Proof.Machine
end

