-- ==== Sys2Proof/Machine/RegionOps.lean ====
section
/-! DEFINITION. Regions: taking one to idle (R92), FORD_DELAY coming into force (R197), drains (R85), resolve points reached
by a position of release order (R287, R335), and lent meadows (R78). -/

namespace Sys2Proof.Machine

/-- Take the events of a region out of the Ford, where nothing will release them. -/
def Core.dropFord (c : Core) (g : Nat) : Core :=
  let f := fun (e : FordEv) => { e with regions := e.regions.filter (· ≠ g) }
  { c with ford := { c.ford with buf := (c.ford.buf.map f).filter fun e => e.regions ≠ [] } }

/-- Clear the latches, stores, orphan lists and routes of a region's cells (R85, R92), and its results that wait for lanes. -/
def Core.clearTokens (c : Core) (g : Nat) : Core :=
  let ours := fun cell : Nat => c.cellRgn cell = g
  { c with
    fab := { c.fab with held := c.fab.held.filter (fun e => !ours (e.1 / 4)), orphans := c.fab.orphans.filter (fun e => !ours e.1),
                        fly := c.fab.fly.filter (·.rgn ≠ g), delays := c.fab.delays.filter (·.rgn ≠ g), vreads := c.fab.vreads.filter (·.rgn ≠ g),
                        fetched := c.fab.fetched.filter (·.rgn ≠ g) }
    key := { c.key with lookups := c.key.lookups.filter fun (e : Lookup) => !ours e.cell }
    lanes := c.lanes.map fun (e : Nat × Lane) => (e.1, { e.2 with txq := e.2.txq.filter fun x => x.rgn ≠ g }) }

/-- A pending FORD_DELAY comes into force while the region is idle or drained (R197). -/
def Core.applyFord (c : Core) (g : Nat) : Core :=
  let a := pTime + 0x140 + 8 * g
  if g < 8 ∧ (c.rgn g).quiet ∧ c.getB a 10 then (c.setF a 16 11 (c.getF a 0 10)).setF a 10 1 0 else c

/-- A region that has drained or become idle: a pending FORD_DELAY comes into force (R197), and a replay that has been told to stop
ends for it (R354). -/
def Core.onQuiet (c : Core) (g : Nat) : Core :=
  let c := c.applyFord g
  if !c.getB (pSep + 0x160) 9 || !(c.rgn g).replay then c
  else
    let c := c.modRgn g fun r => { r with replay := false, delta := 0, g0 := r.g0 - nsN r.delta }
    if (List.range 8).any fun h => (c.rgn h).replay then c else c.setF (pSep + 0x160) 9 1 0

/-- Every frame counts as resolved for a region whose iterations are gone. -/
def Core.resolveAll (c : Core) (g : Nat) : Core :=
  { c with sep := { c.sep with frames := c.sep.frames.map fun (f : Frame) => { f with resolved := insertNat g f.resolved } } }

/-- Take a halted or drained region to idle (R92). -/
def Core.resetNow (c : Core) (g : Nat) : Core :=
  let c := ((c.clearTokens g).dropFord g).resolveAll g
  let c := c.modRgn g fun r =>
    { r with phase := .idle, faultKind := 0, sched := 0, pendSect := [], stall := [], stallLen := 0, iters := [], resetWait := false,
             egressClosed := false, cursor := none, swapHold := none, swapNext := none, setFrom := none }
  c.onQuiet g

/-- Whether a region holds an undo record. -/
def Core.hasRecords (c : Core) (g : Nat) : Bool := c.key.undo.any fun u => u.rgn = g

/-- RESET_RGN: at once, or once the last record is freed (R92, R290). -/
def Core.resetRgn (c : Core) (g : Nat) : Core :=
  let r := c.rgn g
  if r.phase ≠ .halted ∧ r.phase ≠ .drained then c
  else if c.hasRecords g then c.setRgn g { r with resetWait := true } else c.resetNow g

/-- A waiting RESET_RGN takes effect in the cycle in which the last record is freed (R92, R290). A RESUME that came while it waited:
DESIGN CHOICE (log 86), see Core.resume. -/
def Core.resetDue (c : Core) (g : Nat) : Core :=
  if (c.rgn g).resetWait && !c.hasRecords g then c.resetNow g else c

/-- Whether a position in release order lies after a frame's resolve point (R281, R287): an event after it has been collected,
or the position lies after it and every event before it has been collected. -/
def Core.passed (c : Core) (g pos : Nat) (f : Frame) : Bool :=
  let s := c.resolveSlot g f
  (c.rgn g).iters.any (fun i => i.final && s ≤ i.slot) || (s ≤ pos && c.allBefore g s)

/-- The event at a slot reaches its collect: every resolve point at or before it has come (R287). -/
def Core.resolveFor (c : Core) (g slot : Nat) : Core :=
  c.resolveUpTo g fun f => c.resolveSlot g f ≤ slot

/-- Forget the frames that no region will resolve any more and whose verdict is in. -/
def Core.pruneFrames (c : Core) : Core :=
  { c with sep := { c.sep with frames := c.sep.frames.filter fun f =>
      (f.verdict.isNone && f.src < 64) || (f.cls = .data && (!f.walkDone || (maskBits 8 f.regions).any fun g =>
        !f.resolved.contains g && ((c.rgn g).phase ≠ .idle || c.pins.launchArmed.contains g))) } }

/-- The meadows that a region's binary names and that are lent to the task pool (R78). -/
def Core.lent (c : Core) (g : Nat) : List Nat := (c.rgn g).meadows.filter fun m => c.rgnField m ≠ g

/-- The set that an event of a tick runs under in a region (R193, R298): after a seamless swap of tick t, an event of an earlier tick
runs under the old set; from the tick of a drained swap on, the other set is in force, until that of a swap after it. -/
def Rgn.setFor (r : Rgn) (tick : Nat) : Bool :=
  match r.swapHold, r.setFrom with
  | some t, _ => if t ≤ tick && !(r.swapNext.any (· ≤ tick)) then !r.set else r.set
  | none, some (t, s) => if tick < t then s else r.set
  | none, none => r.set

/-- Whether every iteration of a region has passed its output and its deferred writes. -/
def Core.rgnEmpty (c : Core) (g : Nat) : Bool :=
  let r := c.rgn g
  let run := r.iters.all fun i => match r.bin i.set with
    | some l => i.relSched + l.bin.report.lat + l.bin.report.dDef ≤ r.sched
    | none => true
  r.stall.isEmpty && run && c.fab.delays.all (fun (d : Delayed) => d.rgn ≠ g) && c.fab.fly.all fun f => f.rgn ≠ g

end Sys2Proof.Machine
end

