-- ==== Sys2Proof/Machine/Key.lean ====
section
/-! DEFINITION. The key stage's commands: KEY_EVENT_FIRE and KEY_DEFERRED_FIRE (R254, R255, R263 to R266, R282 to R288), KCACHE
(R256), RESOLVE_POINT (R287), VAULT_READ_DONE and VAULT_WRITE_COMMIT (R403, R408 to R410, R549). -/

namespace Sys2Proof.Machine

/-! ### Looking rings up -/

/-- The lines that hold an iteration's fetch set, as device addresses. -/
def Core.fetchSet (c : Core) (m : Mem) (g : Nat) (i : Iter) (x : KeyCtx) : List Nat :=
  match i.home, c.keyMapOf g i.set with
  | .ring j l, some k =>
    let base := kmRingAt k j l
    (fetchLines k x (leNat ((c.ringBytes m base 1).take 2))).map fun n => base + 64 * n
  | _, _ => []

/-- The lookup of a token that entered a fetch queue (R256): when every line of the fetch set hits, the cached lines serve the
event and the prefetch is discarded. -/
def Core.lookup (c : Core) (m : Mem) (cell : Nat) (tag : Tag) (set : Bool) : Core :=
  let g := c.cellRgn cell
  let c := { c with key := { c.key with lookups := c.key.lookups.filter fun (e : Lookup) => !(e.cell = cell && e.tag = tag && e.set = set) } }
  match (c.rgn g).iter tag set, c.keyCtx cell set with
  | some i, some (_, x) =>
    let ls := c.fetchSet m g i x
    if ls ≠ [] && c.hasCache cell set && ls.all (c.cached cell) then
      let c := ls.foldl (fun c a => c.cachePut cell a) c
      let keep := fun (r : Nat) (t : Tag) (s : Bool) => !(r = g && t = tag && s = set)
      { c with fab := { c.fab with vreads := c.fab.vreads.filter (fun v => keep v.rgn v.tag v.set),
                                   fetched := c.fab.fetched.filter (fun v => keep v.rgn v.tag v.set) ++ [⟨g, tag, set, false, true⟩] } }
    else c
  | _, _ => c

/-- KCACHE (R55, R256): the cell serves its terrace's KEY cell, looking up the oldest token that waits for it. A cell with the
undo option holds the undo log and looks nothing up (R285). -/
def Core.kcacheFire (c : Core) (m : Mem) (cell : Nat) : Core :=
  match c.key.lookups.find? fun (e : Lookup) => e.cell / 16 = cell / 16 with
  | none => c
  | some e =>
    match (c.ctx cell e.set).body with
    | .mem x => if x.op = .kcache && !x.undo && kindOf cell = .mem then c.lookup m e.cell e.tag e.set else c
    | _ => c

/-- A lookup takes 3 fc from the token's arrival (R256): one that its KCACHE has not made by then is made now. -/
def Core.lookupsDue (m : Mem) (c : Core) : Core :=
  (c.key.lookups.filter fun (e : Lookup) => e.at_ + 3 ≤ (c.rgn (c.cellRgn e.cell)).sched).foldl
    (fun c e => c.lookup m e.cell e.tag e.set) c

/-- A line that a KEY cell modified enters its key cache and the vault's write queue (R255): 5 fc after the collect in the schedule of a
region that runs; in a halted one, whose cells stop, what is applied is written. -/
def Core.writeDue (c : Core) (w : VWrite) : Bool :=
  match w.wait with
  | none => false
  | some (g, t, _) => t ≤ (c.rgn g).sched || (c.rgn g).phase = .halted || (c.rgn g).phase = .idle

/-- The lines whose count has come. -/
def Core.writesDue (c : Core) : Core :=
  let due := c.fab.vwrites.filter c.writeDue
  let c := { c with fab := { c.fab with vwrites := c.fab.vwrites.map fun w => if c.writeDue w then { w with wait := none } else w } }
  due.foldl (fun c w => match w.wait with
    | some (_, _, cell) => if c.hasCache cell false || c.hasCache cell true then c.cachePut cell w.addr else c
    | none => c) c

def execKcache (cell : Nat) (s : State) : Answer := coreStep (fun m c => c.kcacheFire m cell) s

/-! ### Applying -/

/-- The lines of a ring whose contents two images differ in, with the first image's line. -/
def changedLines (base : Nat) (old new : List Byte) : List (Nat × Payload) :=
  (List.range (old.length / 64)).filterMap fun i =>
    let o := slice old (64 * i) 64
    if o = slice new (64 * i) 64 then none else some (base + 64 * i, toPayload o)

/-- The frames that the records of a ring name (R282). -/
def Core.ringDeps (c : Core) (base n : Nat) : List (Nat × Nat) :=
  ((c.key.undo.filter fun u => base ≤ u.addr && u.addr < base + 64 * n).flatMap (·.deps)).eraseDups

/-- Two dependence sets as one. -/
def joinDeps (a b : List (Nat × Nat)) : List (Nat × Nat) := a ++ b.filter fun d => !a.contains d

/-- How many records a cell's undo log holds. -/
def Core.undoCount (c : Core) (cell : Nat) : Nat := (c.key.undo.filter fun u => u.cell = cell).length

/-- The lines of a change that hold no record yet. -/
def Core.unrecorded (c : Core) (ch : List (Nat × Payload)) : List (Nat × Payload) :=
  ch.filter fun e => !c.key.undo.any fun u => u.addr = e.1

/-- The records a pending change needs fit in the cell's log of 1,792 (R285). -/
def Core.undoFits (c : Core) (cell : Nat) (ch : List (Nat × Payload)) : Bool :=
  c.undoCount cell + (c.unrecorded ch).length ≤ 1792

/-- Add to records: OR the set into a line's record, or make one with the saved contents (R284). -/
def addRecs (cell g : Nat) (deps : List (Nat × Nat)) (l : List Undo) (ch : List (Nat × Payload)) : List Undo :=
  ch.foldl (fun l e =>
    if l.any fun u => u.addr = e.1 then l.map fun u => if u.addr = e.1 then { u with deps := joinDeps u.deps deps } else u
    else l ++ [⟨cell, g, e.1, e.2, deps⟩]) l

/-- Save undo records for a pending change, and the greatest number held (R284, R303). -/
def Core.record (c : Core) (cell g : Nat) (deps : List (Nat × Nat)) (ch : List (Nat × Payload)) : Core :=
  if deps = [] then c
  else
    let c := { c with key := { c.key with undo := addRecs cell g deps c.key.undo ch } }
    c.rcMax (pKey + 0x1E0) (c.undoCount cell % 2 ^ 11)

/-- A ring as a snapshot has it: the lines saved, else the lines as they are. -/
def Core.snapBytes (c : Core) (m : Mem) (s : Snap) (base n : Nat) : List Byte :=
  (List.range n).flatMap fun i => match s.saved.find? fun e => e.1 = base + 64 * i with
    | some e => ofPayload e.2
    | none => ofPayload (c.ringLine m (base + 64 * i))

/-- Carry a change into a snapshot (R274). An update of the snapshot tick or later first saves the lines it changes; an earlier
one is applied to the saved copy as well. `old` and `new` are the ring before and after, `run` the update as a function. -/
def Core.snapApply (c : Core) (m : Mem) (cell g tick base : Nat) (deps : List (Nat × Nat)) (old new : List Byte)
    (run : List Byte → List Byte) : Core :=
  match c.key.snap with
  | none => c
  | some s =>
    if s.tick ≤ tick then (changedLines base old new).foldl (fun c e => c.snapSave m tick e.1) c
    else
      let n := old.length / 64
      let so := c.snapBytes m s base n
      let sn := run so
      let keep := (List.range n).filter fun i =>
        s.saved.any (fun e => e.1 = base + 64 * i) || slice sn (64 * i) 64 ≠ slice new (64 * i) 64
      let ch := (changedLines base so sn).filter fun e => keep.any fun i => base + 64 * i = e.1
      let un := if deps = [] then s.undo else addRecs cell g deps s.undo ch
      let rest := s.saved.filter fun e => !keep.any fun i => base + 64 * i = e.1
      let saved := rest ++ keep.map fun i => (base + 64 * i, toPayload (slice sn (64 * i) 64))
      { c with key := { c.key with snap := some { s with saved := saved, undo := un } } }

/-- Write a ring's changed lines: 3 fc after the apply they enter the key cache and the vault's write queue (R255, R256). -/
def Core.putRing (c : Core) (cell base : Nat) (old new : List Byte) : Core :=
  let g := c.cellRgn cell
  (changedLines base old new).foldl (fun c e =>
    c.putLine e.1 (toPayload (slice new (e.1 - base) 64)) (some (g, (c.rgn g).sched + 3, cell))) c

/-! ### KEY_EVENT_FIRE -/

/-- What fires: the event at the head of a fetch queue whose apply fc has come, with its ring data present, no earlier event
of the pair and no deferred write of the same fc ahead of it (R255, R264, R265). -/
def Core.keyReady (c : Core) (cell : Nat) : Option (Token × Iter × Ctx × KeyCtx) :=
  let g := c.cellRgn cell
  let r := c.rgn g
  if kindOf cell ≠ .key || !c.rgnLive g || c.hasFired cell 0 then none
  else match (c.heldAt cell 0).head? with
    | none => none
    | some h => match r.iter h.tok.tag h.tok.set, c.keyCtx cell h.tok.set with
      | some i, some (x, k) =>
        let due := i.relSched + k.fireOff + 2
        let here := r.place i.tag i.set
        let have_ := match i.home with
          | .null => true
          | _ => c.fab.fetched.any fun f => f.rgn = g && f.tag = i.tag && f.set = i.set
        let ahead := (c.pair g k.j i.set).any fun p =>
          (c.heldAt p 0).any (fun q => r.place q.tok.tag q.tok.set < here) ||
          (c.heldAt p 1).any fun q => match r.iter q.tok.tag q.tok.set with
            | some e => e.relSched + ((c.binOf g e.set).map (·.bin.report.dDef)).getD 0 + k.fireOff + 2 ≤ due
            | none => false
        if due ≤ r.sched && have_ && !ahead then some (h.tok, i, x, k) else none
      | _, _ => none

/-- Note an iteration's collect: its dependence set is final (R282), and its key status is known. -/
def Core.collected (c : Core) (g : Nat) (i : Iter) (deps : List (Nat × Nat)) (status : Nat) : Core :=
  c.modRgn g fun r => r.modIter i.tag i.set fun i => { i with deps := deps, final := true, status := some status }

/-- The views of an event (R261, R262), 4 fc after its apply. -/
def Core.emitViews (c : Core) (cell : Nat) (x : Ctx) (k : KeyCtx) (km : Option KeyMap) (ring : Option (List Byte)) (tok : Token)
    (tick : Nat) (poison : Bool) (status : Nat) : Core :=
  let vs := k.views.mapIdx fun n items => (n, viewOf km ring (ofPayload tok.payload) (c.activeBank tick) status items)
  c.place cell x 4 { tok with poison := poison } vs

/-- An event without a ring (R254): NULL or MISS, nothing applied. -/
def Core.fireBare (c : Core) (cell g : Nat) (tok : Token) (i : Iter) (x : Ctx) (k : KeyCtx) : Core :=
  let null := i.home = .null
  let c := if null then (if c.getF (pKey + 0x80) 0 3 = g then c.bump (pKey + 0x188) else c) else c.bump (pKey + 0x190)
  let status := if null then 2 else 4
  let got := c.fab.fetched.find? fun f => f.rgn = g && f.tag = i.tag && f.set = i.set
  let c := { c with fab := { c.fab with fetched := c.fab.fetched.filter fun f => !(f.rgn = g && f.tag = i.tag && f.set = i.set) } }
  let poison := tok.poison || (got.map (·.poison)).getD false
  let c := c.emitViews cell x k (c.keyMapOf g i.set) none tok i.tick poison status
  (c.collected g i i.deps status).settleRgn g

/-- Collect, apply, write and show an event's ring (R255). -/
def Core.fireRing (c : Core) (m : Mem) (cell g j l : Nat) (tok : Token) (i : Iter) (x : Ctx) (k : KeyCtx) (km : KeyMap) : Core :=
  let base := kmRingAt km j l
  let n := kmStride km / 64
  let got := c.fab.fetched.find? fun f => f.rgn = g && f.tag = i.tag && f.set = i.set
  let c := { c with fab := { c.fab with fetched := c.fab.fetched.filter fun f => !(f.rgn = g && f.tag = i.tag && f.set = i.set) } }
  let poison := tok.poison || (got.map (·.poison)).getD false
  let c := c.bump (if (got.map (·.hit)).getD false then pKey + 0x1A0 else pKey + 0x1A8)
  let s := (c.rgn g).sched
  let c := if c.key.fwd.any (fun e => e.1 = base && e.2 ≤ s && s ≤ e.2 + 1) then c.bump (pKey + 0x198) else c
  let c := { c with key := { c.key with fwd := (base, s) :: c.key.fwd.filter fun e => e.1 ≠ base && e.2 ≤ s && s ≤ e.2 + 1 } }
  let deps := joinDeps i.deps (c.ringDeps base n)
  let c := if deps = i.deps then c else c.bump (pRgn g + 0x140)
  let old := c.ringBytes m base n
  let inp := ofPayload tok.payload
  let run := fun (ring : List Byte) => stamp i.tick (runOps km k.ops k.entries inp ring).ring
  let res := runOps km k.ops k.entries inp old
  let new := stamp i.tick res.ring
  let ch := changedLines base old new
  let full := deps ≠ [] && !c.undoFits cell ch
  if poison || full then
    let c := c.emitViews cell x k (some km) (some old) tok i.tick poison 0
    let c : Core := c.collected g i deps 0
    if full && !poison then
      let c : Core := c.bump (pRgn g + 0x150)
      if c.fateOf g i.tag i.set = .squashed then c else c.setFate g { i with deps := deps } .squashed
    else c.settleRgn g
  else
    let status := 1 + 8 * b2n (res.sat ≠ 0) + 16 * b2n (deps ≠ [])
    let c := c.bumpBy (pKey + 0x1C8) res.conv
    let c := (c.bumpBy (pKey + 0x1C0) res.sat).bump (pKey + 0x180)
    let c := c.snapApply m cell g i.tick base deps old new run
    let c := (c.record cell g deps ch).putRing cell base old new
    let c := c.emitViews cell x k (some km) (some new) tok i.tick poison status
    (c.collected g i deps status).settleRgn g

/-- KEY_EVENT_FIRE (R255): the resolve points before the event come first. -/
def Core.keyEventFire (c : Core) (m : Mem) (cell : Nat) : Core :=
  match c.keyReady cell with
  | none => c
  | some (tok, i, x, k) =>
    let g := c.cellRgn cell
    if c.early cell x 0 tok then c.schedFault cell 0 tok.tag tok.set 0x8
    else
      let tok := { tok with poison := tok.poison || c.ctxPoison cell tok.set }
      let c := ((c.setHeld cell 0 ((c.heldAt cell 0).tail)).markFired cell 0).readCtx cell tok.set
      let c := c.resolveFor g i.slot
      let i : Iter := ((c.rgn g).iter i.tag i.set).getD i
      let c := match i.home, c.keyMapOf g i.set with
        | .ring j l, some km => c.fireRing m cell g j l tok i x k km
        | _, _ => c.fireBare cell g tok i x k
      (c.resetDue g).pruneFrames

def execKeyEventFire (cell : Nat) (s : State) : Answer := coreStep (fun m c => c.keyEventFire m cell) s

/-! ### KEY_DEFERRED_FIRE -/

/-- The deferred tokens of a cell whose apply fc has come (R265). -/
def Core.deferDue (c : Core) (cell : Nat) : List (Token × Iter × Ctx × KeyCtx) :=
  let g := c.cellRgn cell
  let r := c.rgn g
  (c.heldAt cell 1).filterMap fun h => match r.iter h.tok.tag h.tok.set, c.keyCtx cell h.tok.set with
    | some i, some (x, k) =>
      if i.relSched + ((c.binOf g i.set).map (·.bin.report.dDef)).getD 0 + k.fireOff + 2 ≤ r.sched then some (h.tok, i, x, k) else none
    | _, _ => none

/-- The deferred token that is applied: of those due in the pair, the one whose event was released first (R265). -/
def Core.deferReady (c : Core) (cell : Nat) : Option (Token × Iter × Ctx × KeyCtx) :=
  let g := c.cellRgn cell
  let r := c.rgn g
  if kindOf cell ≠ .key || !c.rgnMoves g || c.hasFired cell 1 then none
  else match leastBy (fun a b => r.place a.2.1.tag a.2.1.set ≤ r.place b.2.1.tag b.2.1.set) (c.deferDue cell) with
    | none => none
    | some d =>
      let here := r.place d.2.1.tag d.2.1.set
      if (c.pair g d.2.2.2.j d.2.1.set).any fun p => (c.deferDue p).any fun e => r.place e.2.1.tag e.2.1.set < here then none else some d

/-- Whether an exact key is no longer in the table for its event's tick (R266). -/
def Core.keyGone (c : Core) (m : Mem) (g : Nat) (i : Iter) : Bool :=
  match c.homeFor m g i.set i.word i.tick with | .miss _ => true | _ => false

/-- KEY_DEFERRED_FIRE (R265, R266, R284, R288). -/
def Core.keyDeferredFire (c : Core) (m : Mem) (cell : Nat) : Core :=
  match c.deferReady cell with
  | none => c
  | some (tok, i, x, k) =>
    let g := c.cellRgn cell
    if c.early cell x 1 tok then c.schedFault cell 1 tok.tag tok.set 0x8
    else
    let tok := { tok with poison := tok.poison || c.ctxPoison cell tok.set }
    let c := ((c.setHeld cell 1 (dropOne i.tag i.set (c.heldAt cell 1))).markFired cell 1).readCtx cell tok.set
    let pos := (c.rgn g).slotAt (c.now - c.fcN (k.fireOff + 2))
    let drop := fun (c : Core) => if c.getF (pKey + 0x80) 0 3 = g then c.bump (pKey + 0x1B8) else c
    let c := c.resolveUpTo g (c.passed g pos)
    let i : Iter := ((c.rgn g).iter i.tag i.set).getD i
    let c := match i.home, c.keyMapOf g i.set with
      | .ring j l, some km =>
        if c.keyOwner ≠ some g || c.keyGone m g i || i.undone then drop c
        else
          let base := kmRingAt km j l
          let n := kmStride km / 64
          let old := c.ringBytes m base n
          let run := fun (ring : List Byte) => (runOps km k.deferred [] (ofPayload tok.payload) ring).ring
          let res := runOps km k.deferred [] (ofPayload tok.payload) old
          let own := i.deps.filter fun (d : Nat × Nat) => c.sep.frames.any fun f => f.src = d.1 && f.num = d.2 && !f.resolved.contains g
          let deps := joinDeps own (c.ringDeps base n)
          let ch := changedLines base old res.ring
          let bad := (List.range n).any fun q => m.poisonIn (base + 64 * q) 64 &&
            (fetchLines km k (fld old 0 2)).contains q && !c.fab.vwrites.any fun w => w.addr = base + 64 * q
          if tok.poison || bad then c
          else if deps ≠ [] && !c.undoFits cell ch then drop c
          else
            let c := (c.bumpBy (pKey + 0x1C8) res.conv).bump (pKey + 0x1B0)
            let c := c.snapApply m cell g i.tick base deps old res.ring run
            (c.record cell g deps ch).putRing cell base old res.ring
      | _, _ => drop c
    (c.resetDue g).pruneFrames

def execKeyDeferredFire (cell : Nat) (s : State) : Answer := coreStep (fun m c => c.keyDeferredFire m cell) s

/-! ### RESOLVE_POINT -/

/-- RESOLVE_POINT of a source's next frame in a region (R281, R287, R290): its resolve instant has come and every event before
it has been collected; in a halted region, its verdict has arrived. -/
def Core.resolvePoint (c : Core) (g src : Nat) : Core :=
  match c.sep.frames.find? fun f => f.src % 64 = src && bit f.regions g && !f.resolved.contains g with
  | none => c
  | some f =>
    let r := c.rgn g
    let at_ := f.tEnd + nsN (aSrc f.src) + nsN (c.dFord g) ≤ c.now
    let ok := if r.phase = .halted || c.safe then f.verdict.isSome else
      (r.phase = .running || r.phase = .draining) && c.allBefore g (c.resolveSlot g f)
    if at_ && ok then ((c.resolveFrame g f).resetDue g).pruneFrames else c

def execResolvePoint (g src : Nat) (s : State) : Answer := coreStep (fun _ c => c.resolvePoint g src) s

/-! ### Vault accesses -/

/-- The VLT page of a vault's plain and the vault's block in it (R422). -/
def aVlt (v : Nat) : Nat := pVlt (v / 32) + 0x400 + 0x20 * (v % 32)

/-- An uncorrectable word of a vault (R409): counted and logged with the vault, the line and the port. -/
def Core.vaultUe (c : Core) (v word : Nat) : Core :=
  (c.bump (aVlt v + 0x10)).logErr (pVlt (v / 32)) clsD 0x03 0 v (word * 8 % 0x8000000 / 64)

/-- VAULT_READ_DONE (R253, R549): the data of read i reaches its KEY cell's fetch buffer, each uncorrectable word counted,
logged and marked. The end of a stall that waited for it follows (R80). -/
def Core.vaultReadDone (c : Core) (m : Mem) (i : Nat) : Core :=
  match c.fab.vreads[i]? with
  | none => c
  | some v =>
    if c.clk.vc < v.due then c
    else
      let words := m.poison.filter fun w => v.lines.any fun l => l ≤ 8 * w && 8 * w < l + 64 && !c.fab.vwrites.any fun q => q.addr = l
      let c := words.foldl (fun c w => c.vaultUe v.vault w) c
      let had := c.fab.fetched.any fun f => f.rgn = v.rgn && f.tag = v.tag && f.set = v.set
      let fs := if had then c.fab.fetched else c.fab.fetched ++ [⟨v.rgn, v.tag, v.set, !words.isEmpty, false⟩]
      let c := { c with fab := { c.fab with vreads := removeAt c.fab.vreads i, fetched := fs } }
      c.itemDone v.rgn fun o => o.tag = v.tag && o.set = v.set && match o.src with
        | .cell n => kindOf n = .key && ((c.keyCtx n v.set).map (·.2.j)) = ((((c.rgn v.rgn).iter v.tag v.set).map (·.home.j)))
        | .vault x => x = v.vault
        | _ => false

def execVaultReadDone (i : Nat) (s : State) : Answer := coreStep (fun m c => c.vaultReadDone m i) s

/-- VAULT_WRITE_COMMIT (R403, R549): the oldest write of vault v's queue takes effect, at its second beat. One that its KEY cell has not
yet written to the queue (R255) does not. -/
def vaultCommit (m : Mem) (c : Core) (v : Nat) : Mem × Core :=
  match c.fab.vwrites.find? fun w => w.vault = v with
  | none => (m, c)
  | some w => if w.wait.isSome then (m, c) else (m.store w.addr (ofPayload w.line), { c with fab := { c.fab with vwrites := c.fab.vwrites.erase w } })

def execVaultWriteCommit (v : Nat) (s : State) : Answer := devStep (fun m c => vaultCommit m c v) s

end Sys2Proof.Machine
end

