-- ==== Sys2Proof/Machine/Tokens.lean ====
section
/-! DEFINITION. TOKEN_ARRIVE (R47, R68 to R70, R170, R255), STALL_START and STALL_LIMIT (R80 to R84, R515), and the TAP cells'
commands (R61, R162, R163, R231, R234, R291, R379). -/

namespace Sys2Proof.Machine

/-! ### TOKEN_ARRIVE -/

/-- Put a token at a port's end. -/
def Core.enqueue (c : Core) (f : Fly) : Core :=
  c.setHeld f.dst f.port (c.heldAt f.dst f.port ++ [⟨f.tok, (c.rgn f.rgn).sched, c.clk.fc⟩])

/-- The entries a port holds at most: 2 in a latch, 16 in a matching-store port, 32 in a KEY queue (R47, R69, R255). -/
def portRoom (cell : Nat) : Nat := match kindOf cell with | .str => 16 | .key => 32 | _ => 2

/-- Arrival at an STR: a tag of the orphan list is discarded as a late partner (R68). -/
def Core.arriveStr (c : Core) (f : Fly) : Core :=
  let l := Store.get c.fab.orphans [] f.dst
  if l.contains (f.tok.tag, f.tok.set) then
    let c := c.bump (pMdw (cellMeadow f.dst) + 0xD8)
    { c with fab := { c.fab with orphans := Store.set c.fab.orphans [] f.dst (l.erase (f.tok.tag, f.tok.set)) } }
  else if portRoom f.dst ≤ (c.heldAt f.dst f.port).length then c.schedFault f.dst f.port f.tok.tag f.tok.set 0x1
  else c.enqueue f

/-- Arrival at a KEY cell: only the owner takes it (R254); an event token is looked up in the key cache (R256). Deferred tokens
of a region without its key stage are discarded, as are those whose iteration is gone. -/
def Core.arriveKey (c : Core) (f : Fly) : Core :=
  match (c.rgn f.rgn).iter f.tok.tag f.tok.set with
  | none => c
  | some i =>
    if !c.keyOwns f.dst i then c
    else if portRoom f.dst ≤ (c.heldAt f.dst f.port).length then c.schedFault f.dst f.port f.tok.tag f.tok.set 0x4
    else
      let c := c.enqueue f
      if f.port = 0 then { c with key := { c.key with lookups := c.key.lookups ++ [⟨f.dst, f.tok.tag, f.tok.set, (c.rgn f.rgn).sched⟩] } } else c

/-- A token arrives (R47): in a debug binary never beside one of its tag and set (R170). -/
def Core.arrive (c : Core) (f : Fly) : Core :=
  let dup := (c.heldAt f.dst f.port).any fun h => h.tok.tag = f.tok.tag && h.tok.set = f.tok.set
  if c.debugOn f.rgn f.tok.set && dup then c.schedFault f.dst f.port f.tok.tag f.tok.set 0x7
  else match kindOf f.dst with
    | .str => c.arriveStr f
    | .key => c.arriveKey f
    | _ => if portRoom f.dst ≤ (c.heldAt f.dst f.port).length then c.schedFault f.dst f.port f.tok.tag f.tok.set 0x4 else c.enqueue f

/-- TOKEN_ARRIVE of token i of those in flight; with the last overdue item the stall ends (R80). -/
def Core.tokenArrive (c : Core) (i : Nat) : Core :=
  match c.fab.fly[i]? with
  | none => c
  | some f =>
    if !c.mayArrive f then c
    else
      let c := { c with fab := { c.fab with fly := removeAt c.fab.fly i } }
      let c := c.itemDone f.rgn fun o => o.src = .cell f.src && o.tag = f.tok.tag && o.set = f.tok.set
      c.arrive { f with tok := { f.tok with late := f.tok.late } }

def execTokenArrive (i : Nat) (s : State) : Answer := coreStep (fun _ c => c.tokenArrive i) s

/-! ### Stalls -/

/-- Whether the cell that a token travels to has reached the schedule count at which it is due to fire with it (R80): for a KEY cell
its collect or the apply of a deferred write (R255, R266), which only the event's owner makes, for any other its offset from the admission fc. -/
def Core.consumerDue (c : Core) (f : Fly) : Bool :=
  let r := c.rgn f.rgn
  let x := c.ctx f.dst f.tok.set
  match x.body with
  | .key k => match r.iter f.tok.tag f.tok.set with
    | some i => c.keyOwns f.dst i && i.relSched + k.fireOff +
        (if f.port = 0 then 0 else 2 + ((c.binOf f.rgn i.set).map (·.bin.report.dDef)).getD 0) ≤ r.sched
    | none => false
  | _ => match x.fires[c.firing f.dst x f.port f.tok.tag f.tok.set]? with
    | some o => o ≤ c.sinceAdm f.rgn f.tok
    | none => false

/-- Whether ring data on its way is absent at its event's collect (R80, R255). -/
def Core.ringLate (c : Core) (g : Nat) (v : VRead) (p : Nat → Bool) : Bool :=
  let r := c.rgn g
  v.rgn = g && match r.iter v.tag v.set with
    | some i => i.status.isNone && c.fab.ctxs.any fun (e : Nat × Ctx) => match e.2.body with
      | .key k => p (e.1 / 8) && e.1 % 8 = slotOf i.set r.sect && c.keyOwns (e.1 / 8) i && i.relSched + k.fireOff ≤ r.sched
      | _ => false
    | none => false

/-- An instant in the linear form without its wrap: the one nearest to `near`. -/
def unwrap (near ts : Nat) : Nat :=
  let base := near + 2 ^ 63
  if base < ts then ts else base - (base - ts) % 2 ^ 64

/-- The ingress source of a class and index (R547). -/
def srcOf (cls idx : Nat) : Nat := if cls = 4 then idx % 8 else if cls = 3 then 8 + idx else 24 + idx

/-- A replay record (R349): its source and time stamp. -/
def recSrc (r : List Byte) : Nat :=
  if fld r 0 1 = 1 then srcOf (fld r 16 8 / 2 ^ 17 % 8) (fld r 16 8 / 2 ^ 20 % 16) else srcOf (fld r 3 1 % 8) (fld r 3 1 / 8 % 16)
def recTs (r : List Byte) : Nat := if fld r 0 1 = 1 then fld r 24 8 else fld r 8 8

/-- Whether the next replay record has not been read by the instant at which a release slot of the region falls due (R352): its
presentation instant with Δ, and D_ford, have passed. -/
def Core.replayLate (m : Mem) (c : Core) (g : Nat) : Bool :=
  let pos := c.getF (pSep + 0x168) 32 32
  let r := m.read (c.rd (pSep + 0x148) + 80 * pos) 80
  let d := nsN (c.rd (pSep + 0x158))
  (c.rgn g).replay && c.getB (pSep + 0x168) 0 && pos < c.rd (pSep + 0x150) &&
    unwrap (c.now - d) (recTs r) + nsN (aSrc (recSrc r)) + nsN (c.dFord g) + d ≤ c.now

/-- Whether the refresh class of a vault delays the accesses of a region (R82, R407). -/
def Core.refreshDelays (c : Core) (g v : Nat) (set : Bool) : Bool :=
  c.pwr.hot.contains v && !((c.binOf g set).map (·.bin.report.hotClass)).getD false

/-- Whether an item of a region is overdue (R80, R82): a token still on its way when its consumer is due to fire, ring data absent at its
event's collect (the KEY cell's, or the vault's where its refresh class delays it), a slot still loading at a section switch
to it, or the replay reader behind (R352). -/
def Core.overdue (m : Mem) (c : Core) (g : Nat) (o : Overdue) : Bool :=
  let r := c.rgn g
  match o.src with
  | .cell n =>
    c.fab.fly.any (fun f => f.rgn = g && f.src = n && f.tok.tag = o.tag && f.tok.set = o.set && r.sched < f.due && c.consumerDue f) ||
    c.fab.vreads.any fun v => v.tag = o.tag && v.set = o.set && !c.refreshDelays g v.vault v.set && c.ringLate g v (· = n)
  | .vault w => c.fab.vreads.any fun v =>
      v.vault = w && v.tag = o.tag && v.set = o.set && c.refreshDelays g w v.set && c.ringLate g v fun _ => true
  | .ctx n => c.rgnOf n = g && r.pendSect.any fun e => e.2 ≤ r.sched && c.fab.loading.contains (n * 8 + e.1)
  | .replay => c.replayLate m g
  | .hot _ => false

/-- Begin a stall: the counter counts it once, however long it lasts (R82). -/
def Core.beginStall (c : Core) (g : Nat) (items : List Overdue) : Core :=
  let c := if g < 8 then c.bump (pRgn g + 0xA8) else c
  c.modRgn g fun r => { r with stall := items, stallLen := 0 }

/-- STALL_START (R80): the whole region holds until its overdue items have arrived. -/
def Core.stallStart (m : Mem) (c : Core) (g : Nat) (items : List Overdue) : Core :=
  if c.rgnLive g && items ≠ [] && items.all (Core.overdue m c g) then c.beginStall g items else c

def execStallStart (r : Nat) (items : List Overdue) (s : State) : Answer := coreStep (fun m c => c.stallStart m r items) s

/-- The record of a stall that reached the limit (R515): cell, port code, tag and set, and the meadow of the page. -/
def stallRecord (l : List Overdue) : Nat × Nat × Tag × Bool :=
  let cells := l.filterMap fun o => match o.src with | .cell n => some (n, o) | _ => none
  match leastBy (fun a b => a.1 ≤ b.1) cells with
  | some (n, o) => (n, 0, o.tag, o.set)
  | none =>
    let ms := l.filterMap fun o => match o.src with | .vault m => some (2 * m, m) | .ctx m => some (2 * m + 1, m) | _ => none
    match leastBy (fun a b => a.1 ≤ b.1) ms with
    | some (k, m) => (256 * m, 1 + k % 2, 0, false)
    | none => (0, 0, 0, false)

/-- STALL_LIMIT (R515): a stall of FLT_STALL_LIMIT fc halts the region with kind 0x9. -/
def Core.stallLimit (c : Core) (g : Nat) : Core :=
  let r := c.rgn g
  let lim := c.getF (pFlt + 0xC0) 0 32
  if r.stall.isEmpty || lim = 0 || r.stallLen < lim then c
  else
    let q := stallRecord r.stall
    let cell := if q.1 = 0 ∧ r.stall.all (fun o => o.src = .replay) then 256 * (r.meadows.headD 0) else q.1
    c.haltRgn g (cellMeadow cell) cell q.2.1 q.2.2.1 q.2.2.2 0x9

def execStallLimit (r : Nat) (s : State) : Answer := coreStep (fun _ c => c.stallLimit r) s

/-! ### TAP cells -/

/-- A TAP that may fire a role: its context and token. -/
def Core.tapReady (c : Core) (cell : Nat) (role : TapRole) : Option (Ctx × TapCtx × List Token) :=
  if kindOf cell ≠ .tap then none
  else match c.ctxFor cell with
    | none => none
    | some x => match x.body with
      | .tap k => if k.role ≠ role then none else (c.oldest cell [0]).map fun ts => (x, k, ts)
      | _ => none

/-- TAP_INGRESS (R61): the event word goes on its routes, 1 fc on. -/
def Core.tapIngress (c : Core) (cell : Nat) : Core :=
  match c.tapReady cell .ingress with
  | none => c
  | some (x, _, ts) => c.fire cell x [0] 1 ts fun c => (c, false, [(0, (joinTok ts).payload.toNat)])

def execTapIngress (cell : Nat) (s : State) : Answer := coreStep (fun _ c => c.tapIngress cell) s

/-- Measure a result's latency (R162, R163): device fc from its release, less the stall fc between. The event comes with the increment, so a frozen page
raises none (R462). -/
def Core.measure (c : Core) (g : Nat) (i : Iter) : Core :=
  let lat := c.clk.fc - i.relFc
  let net := lat - ((c.rgn g).stallFc - i.relStall)
  let a := pRgn g
  let l := ((c.binOf g i.set).map (·.bin.report.lat)).getD 0
  let c := if c.frozenAt (a + 0x110) then c else
    (c.wr (a + 0x110) (min (c.rd (a + 0x110)) lat)).wr (a + 0x118) (max (c.rd (a + 0x118)) lat)
  let c := c.bump (a + 0x128)
  if net = l || c.frozenAt (a + 0x120) then c else (c.bump (a + 0x120)).event (pMdw ((c.anchor g).getD 0)) 9

/-- The result of a token at a RESULT TAP (R231, R239). -/
def Core.resultOf (c : Core) (g cell : Nat) (k : TapCtx) (t : Token) (i : Iter) : Result :=
  let l := c.binOf g t.set
  let act := pfld t.payload 63 1 % 8
  let tm := if 1 ≤ act ∧ act ≤ 4 then k.templates[act - 1]? else none
  let flags := (if t.late || i.late || (c.rgn g).stallFc ≠ i.relStall then fLate else 0) |||
    (if t.poison then fPoisoned else 0) ||| (if i.fate = .squashed then fSquashed else 0) |||
    (if (l.map (·.bin.report.canonical)).getD false then fCanonical else 0) |||
    (if tm.isNone then fNoFrame else 0) ||| (b2n (bit (pfld i.word 0 8) 45) * 2 ^ 14)
  { rgn := g, tap := cell, tag := t.tag, set := t.set, tok := t, t := tm, n := i.n, tick := i.tick, src := i.src,
    flags := flags, first := none, record := k.record, held := false, checked := false,
    prog := (l.map (·.prog)).getD 0, wgt := (l.map (·.wgt)).getD 0, inDig := crc64 (ofPayload i.word) }

/-- The observation of a result: final once its record is (R374, R375). -/
def Result.obs (r : Result) : Obs :=
  { kind := 3, tick := r.tick, cls := srcClass r.src, idx := srcIdx r.src, ts := r.n, rank := 3, rgn := r.rgn, cell := r.tap,
    data := r.bytes, match_ := r.bytes, frame := 0, bad := false, final := none }

/-- A result reaches the composer (R231, R234, R291): held while its iteration is neither committed nor squashed. The checks of a result
that is not held, or whose template is EARLY, run at the end of the cycle (`Core.checkDue`). -/
def Core.takeResult (c : Core) (r : Result) (i : Iter) : Core :=
  let held := i.fate = .pending && r.t.isSome
  let c := { c with comp := { c.comp with results := c.comp.results ++ [{ r with held := held }] } }
  let c := c.observe r.obs
  match r.t with | some t => if held then c.bump (aTmpl t kHeld) else c | none => c

/-- A task's exit TAP writes the output token to OUT (R315, R317). A write that has come to reach a cell of a standing region that is not
idle, or the rings of the key map, is refused (R37, R38, R421), and the task ends with PROTECT. -/
def Core.tapTask (m : Mem) (c : Core) (g : Nat) (t : Token) : Mem × Core :=
  let e := g - 16
  let k := Store.get c.task.table Task.free e
  let a := fld k.desc 56 8 + 64 * t.tag.toNat
  if c.protected a 64 then (m, { c with task := { c.task with table := Store.set c.task.table Task.free e { k with finish := some 4 } } })
  else
  let m := m.store a (ofPayload t.payload)
  let fl := if t.poison then k.flags ||| 1 else k.flags
  let c := if 0x4000000000 ≤ a then c.bumpBy (pLpm + 0x120) 64 else c
  (m, { c with task := { c.task with table := Store.set c.task.table Task.free e { k with outs := k.outs + 1, flags := fl } } })

/-- The state of a lane (R359). -/
def Core.laneState (c : Core) (l : Nat) : Nat := c.getF (pPass + 0x108 + 0x80 * l) 0 3

/-- A result joins its TAP's transmit lane, in Stream mode, UP, with TX_EN set; at most 32 wait (R366). A token with POISON
sends nothing. -/
def Core.laneQueue (c : Core) (g cell : Nat) (k : TapCtx) (t : Token) (i : Iter) : Core :=
  match k.txLane with
  | none => c
  | some l =>
    let a := pPass + 0x100 + 0x80 * l
    if t.poison || i.fate = .squashed || !c.getB a 17 || c.getF a 1 2 ≠ 0 || c.laneState l ≠ 3 then c
    else
      let x := Store.get c.lanes Lane.off l
      if 32 ≤ x.txq.length then c.bump (a + 0x50)
      else { c with lanes := Store.set c.lanes Lane.off l { x with txq := x.txq ++
          [{ rgn := g, tag := t.tag, set := t.set, payload := t.payload, order := [i.tick, srcClass i.src, srcIdx i.src, i.n, g, cell] }] } }

/-- TAP_RESULT (R61, R162, R231): the result is one of the standing region that the context names. -/
def Core.tapResult (m : Mem) (c : Core) (cell : Nat) : Mem × Core :=
  match c.tapReady cell .result with
  | none => (m, c)
  | some (x, k, ts) =>
    let g := c.cellRgn cell
    let t := joinTok ts
    if c.early cell x 0 t then (m, c.schedFault cell 0 t.tag t.set 0x8)
    else
      let t := { t with poison := t.poison || c.ctxPoison cell t.set }
      let c := ((c.setHeld cell 0 ((c.heldAt cell 0).tail)).markFired cell 0).readCtx cell t.set
      if 16 ≤ g then c.tapTask m g t
      else
      let g := k.region
      match (c.rgn g).iter t.tag t.set with
        | none => (m, c)
        | some i =>
          let c := c.measure g i
          let c := if 5 ≤ pfld t.payload 63 1 % 8 then c.bump (pComp + 0x80) else c
          (m, (c.takeResult (c.resultOf g cell k t i) i).laneQueue g cell k t i)

def execTapResult (cell : Nat) (s : State) : Answer := devStep (fun m c => c.tapResult m cell) s

/-- TAP_CAPTURE (R61, R374, R379): the token goes to capture. -/
def Core.tapCapture (c : Core) (cell : Nat) : Core :=
  match c.tapReady cell .capture with
  | none => c
  | some (x, _, ts) =>
    let g := c.cellRgn cell
    let t := joinTok ts
    if c.early cell x 0 t then c.schedFault cell 0 t.tag t.set 0x8
    else
      let t := { t with poison := t.poison || c.ctxPoison cell t.set }
      let c := ((c.setHeld cell 0 ((c.heldAt cell 0).tail)).markFired cell 0).readCtx cell t.set
      match (c.rgn g).iter t.tag t.set with
      | none => c
      | some i =>
        if 8 ≤ g then c
        else
          let late := t.late || i.late || (c.rgn g).stallFc ≠ i.relStall
          let data := toLe 2 t.tag.toNat ++ [BitVec.ofNat 8 (b2n t.set + 2 * b2n t.poison + 4 * b2n late), BitVec.ofNat 8 g] ++
            toLe 2 cell ++ toLe 10 0 ++ ofPayload t.payload
          c.observe { kind := 7, tick := i.tick, cls := srcClass i.src, idx := srcIdx i.src, ts := i.n, rank := 2, rgn := g,
                      cell := cell, data := data, match_ := ofPayload t.payload, frame := 0, bad := false, final := some c.now }

def execTapCapture (cell : Nat) (s : State) : Answer := coreStep (fun _ c => c.tapCapture cell) s

end Sys2Proof.Machine
end

