-- ==== Sys2Proof/Machine/Separator.lean ====
section
/-! DEFINITION. The Ethernet port and the Separator: frames and their classes (R211 to R220), source filters (R221 to R223),
parser programs and event words (R224 to R230), verdicts (R215, R279, R286), links (R540) and the port's configuration. -/

namespace Sys2Proof.Machine

/-! ### Logical ports -/

/-- Whether a logical port is enabled and exists in the breakout (R211, R458). -/
def Core.lpOn (c : Core) (p : Nat) : Bool :=
  c.en pPort && p < 2 ^ c.getF (pPort + 0x80) 0 2 && c.getB (pPort + 0x80) (2 + p)

/-- Whether it has link (R241). -/
def Core.lpUp (c : Core) (p : Nat) : Bool := c.lpOn p && c.getB (pPort + 0x88) p

/-- A logical port's register block (R241). -/
def aLp (p : Nat) : Nat := pPort + 0x100 + 0x40 * p

/-- Its addresses in wire order. -/
def Core.lpMac (c : Core) (p : Nat) : List Byte := toLe 6 (c.rd (aLp p))
def Core.lpIp4 (c : Core) (p : Nat) : List Byte := toLe 4 (c.rd (aLp p + 8))
def Core.lpIp6 (c : Core) (p : Nat) : List Byte := toLe 8 (c.rd (aLp p + 0x10)) ++ toLe 8 (c.rd (aLp p + 0x18))

/-! ### Headers (R218, R219) -/

/-- What the headers of a frame hold. `kind`: 0 UDP over IPv4, 1 UDP over IPv6, 2 other. `proto`: the IP protocol. -/
structure Hdrs where
  dmac : List Byte
  vid : Option Nat
  et : Nat
  kind : Nat
  proto : Nat
  sip : List Byte
  dip : List Byte
  sport : List Byte
  dport : List Byte
  payOff : Nat
  payLen : Nat
  deriving DecidableEq, Repr

/-- The counters of the SEP page for frames that fail the checks of R219. -/
def aNomatch : Nat := pSep + 0x108
def aIpcsum : Nat := pSep + 0x110
def aFrag : Nat := pSep + 0x118

/-- The frame length an IP header implies: header's end plus payload, padded to 60 bytes, plus 4 (R215). -/
def impliedLen (l3 ipLen : Nat) : Nat := max 60 (l3 + ipLen) + 4

/-- The UDP part of an IP frame; `u`: where it starts, `n`: the IP payload length. -/
def udpHdrs (b : List Byte) (end_ u n : Nat) (h : Hdrs) : Except Nat Hdrs :=
  let ulen := beNat (slice b (u + 4) 2)
  if end_ < u + 8 ∨ ulen < 8 ∨ ulen ≠ n then .error aNomatch
  else .ok { h with sport := slice b u 2, dport := slice b (u + 2) 2, payOff := u + 8, payLen := ulen - 8 }

/-- IPv4 (R218, R219). ICMP goes on to class SERVICE (R217). -/
def ip4Hdrs (b : List Byte) (end_ l3 : Nat) (h : Hdrs) : Except Nat Hdrs :=
  let v := ((slice b l3 1).headD 0).toNat
  let hl := v % 16 * 4
  let tot := beNat (slice b (l3 + 2) 2)
  let fr := beNat (slice b (l3 + 6) 2)
  let proto := ((slice b (l3 + 9) 1).headD 0).toNat
  let h := { h with proto := proto, sip := slice b (l3 + 12) 4, dip := slice b (l3 + 16) 4 }
  if end_ ≤ l3 ∨ v / 16 ≠ 4 ∨ hl < 20 ∨ end_ < l3 + hl then .error aNomatch
  else if fold16 (sum16 (slice b l3 hl)) ≠ 0 then .error aIpcsum
  else if fr % 2 ^ 14 ≠ 0 then .error aFrag
  else if proto = 1 then .ok h
  else if proto ≠ 17 then .error aNomatch
  else udpHdrs b end_ (l3 + hl) (tot - hl) { h with kind := 0 }

/-- IPv6. -/
def ip6Hdrs (b : List Byte) (end_ l3 : Nat) (h : Hdrs) : Except Nat Hdrs :=
  let v := ((slice b l3 1).headD 0).toNat
  let n := beNat (slice b (l3 + 4) 2)
  let proto := ((slice b (l3 + 6) 1).headD 0).toNat
  let h := { h with proto := proto, sip := slice b (l3 + 8) 16, dip := slice b (l3 + 24) 16 }
  if end_ < l3 + 40 ∨ v / 16 ≠ 6 then .error aNomatch
  else if proto = 58 then .ok h
  else if proto ≠ 17 then .error aNomatch
  else udpHdrs b end_ (l3 + 40) n { h with kind := 1 }

/-- The frame length that the header of an IPv4 or IPv6 frame implies, also where a check of R219 fails (R215). `o`: the place of the
EtherType. -/
def etImplied (b : List Byte) (end_ o : Nat) : Option Nat :=
  let et := beNat (slice b o 2)
  let l3 := o + 2
  let v := ((slice b l3 1).headD 0).toNat
  if end_ < l3 then none
  else if et = 0x0800 then
    (if v / 16 ≠ 4 ∨ v % 16 < 5 ∨ end_ < l3 + v % 16 * 4 then none else some (impliedLen l3 (beNat (slice b (l3 + 2) 2))))
  else if et = 0x86DD then (if v / 16 ≠ 6 ∨ end_ < l3 + 40 then none else some (impliedLen l3 (40 + beNat (slice b (l3 + 4) 2))))
  else none

/-- What follows the EtherType at `o`. -/
def etHdrs (b : List Byte) (end_ o : Nat) (vid : Option Nat) : Except Nat Hdrs :=
  let et := beNat (slice b o 2)
  let h : Hdrs := { dmac := slice b 0 6, vid := vid, et := et, kind := 2, proto := 0, sip := [], dip := [], sport := [], dport := [],
                    payOff := o + 2, payLen := end_ - (o + 2) }
  if end_ < o + 2 then .error aNomatch
  else if et = 0x0800 then ip4Hdrs b end_ (o + 2) h
  else if et = 0x86DD then ip6Hdrs b end_ (o + 2) h
  else .ok h

/-- Where a frame's EtherType stands, behind up to two VLAN tags (R218); none behind a third. -/
def etAt (b : List Byte) : Option Nat :=
  let tag := fun o => beNat (slice b o 2)
  if tag 12 = 0x8100 ∨ tag 12 = 0x88A8 then
    if tag 16 = 0x8100 then (if 22 ≤ b.length - 4 ∧ (tag 20 = 0x8100 ∨ tag 20 = 0x88A8) then none else some 20) else some 16
  else some 12

/-- The headers of a frame, with its FCS not counted among them. -/
def parseHdrs (b : List Byte) : Except Nat Hdrs :=
  match etAt b with
  | none => .error aNomatch
  | some o => etHdrs b (b.length - 4) o (if o = 12 then none else some (beNat (slice b (o - 2) 2) % 4096))

/-! ### Source filters (R221 to R223) -/

/-- Compare the first `n` bits of two byte strings. -/
def prefixEq (n : Nat) (a b : List Byte) : Bool := beNat a / 2 ^ (8 * a.length - n) = beNat b / 2 ^ (8 * b.length - n)

/-- Whether an entry takes a frame of a logical port (R222). -/
def filterFits (e : FilterEntry) (lp : Nat) (h : Hdrs) : Bool :=
  let kind := fld e 2 1
  let m := fld e 1 1
  let dip := if h.kind = 0 then slice e 18 4 else slice e 18 16
  let sip := if h.kind = 0 then slice e 34 4 else slice e 34 16
  bit kind 7 && kind % 4 = h.kind && bit (fld e 0 1) lp &&
  (!bit m 0 || slice e 12 6 = h.dmac) && (!bit m 1 || h.vid = some (fld e 6 2 % 4096)) &&
  (!bit m 2 || dip = h.dip) && (!bit m 3 || prefixEq (fld e 5 1) sip h.sip) &&
  (!bit m 4 || slice e 8 2 = (if h.kind = 2 then toBe 2 h.et else h.dport)) && (!bit m 5 || slice e 10 2 = h.sport)

/-- The table as it stood at a tick (R222, R223). -/
def Core.filtersAt (c : Core) (tick : Nat) : Store FilterEntry :=
  match c.sep.pending with
  | some (i, old, t) => if tick < t then Store.set c.sep.filters [] i old else c.sep.filters
  | none => c.sep.filters

/-- The entry a frame takes. -/
def Core.filterFor (c : Core) (tick lp : Nat) (h : Hdrs) : Option FilterEntry :=
  ((c.filtersAt tick).find? fun e => filterFits e.2 lp h).map (·.2)

/-! ### Classes (R217) -/

/-- KWANAN: by transport (R424). -/
def Core.isKwanan (c : Core) (lp : Nat) (h : Hdrs) : Bool :=
  let a := pCtl + 0x80
  lp = c.getF (pPort + 0x80) 10 3 &&
  ((c.getB a 16 && h.kind = 2 && h.et = 0x88B5 && h.dmac = c.lpMac lp) ||
   (h.kind = 0 && h.proto = 17 && c.getB a 17 && h.dip = c.lpIp4 lp && beNat h.dport = c.getF a 0 16) ||
   (h.kind = 1 && h.proto = 17 && c.getB a 18 && h.dip = c.lpIp6 lp && beNat h.dport = c.getF a 0 16))

/-- PTP (R207). -/
def Core.isPtp (c : Core) (lp : Nat) (h : Hdrs) : Bool :=
  lp = c.getF (pPort + 0x80) 13 3 &&
  ((h.kind = 2 && h.et = 0x88F7) || (h.kind < 2 && h.proto = 17 && (beNat h.dport = 319 || beNat h.dport = 320)))

/-- The solicited-node multicast address of an IPv6 address. -/
def solicited (a : List Byte) : List Byte := [0xFF, 0x02] ++ toLe 9 0 ++ [0x01, 0xFF] ++ a.drop 13

/-- SERVICE: ARP, ICMP and ICMPv6 addressed to the port, neighbour discovery included. -/
def Core.isService (c : Core) (lp : Nat) (h : Hdrs) (b : List Byte) : Bool :=
  (h.kind = 2 && h.et = 0x0806 && slice b (h.payOff + 24) 4 = c.lpIp4 lp) ||
  (h.et = 0x0800 && h.proto = 1 && h.dip = c.lpIp4 lp) ||
  (h.et = 0x86DD && h.proto = 58 && (h.dip = c.lpIp6 lp || h.dip = solicited (c.lpIp6 lp)))

/-- A frame as it starts, sorted into its class. -/
def Core.classify (c : Core) (lp num t : Nat) (b : List Byte) : Core × Frame :=
  let f : Frame := { src := lp, num := num, tStart := t, bytes := b, cls := .drop, prog := 0, pset := false, regions := 0,
                     payOff := 0, payLen := 0, implied := none, uncorr := false, bads := [], walkOff := 0, walkCount := 0,
                     walkDone := true, tLast := 0, tEnd := t + c.wire b.length, verdict := none, resolved := [] }
  let implied := (etAt b).bind fun o => etImplied b (b.length - 4) o
  let f := { f with implied := implied, tLast := match implied with | some n => t + c.wire n | none => 0 }
  match parseHdrs b with
  | .error a => (c.bump a, f)
  | .ok h =>
    if h.et = 0x8808 ∧ h.kind = 2 then (c, { f with cls := .control })
    else if c.isKwanan lp h then (c, { f with cls := .kwanan })
    else if c.isPtp lp h then (c, { f with cls := .ptp })
    else if c.isService lp h b then (c, { f with cls := .service })
    else if (h.et = 0x0800 ∨ h.et = 0x86DD) ∧ h.proto ≠ 17 then (c.bump aNomatch, f)
    else match c.filterFor (c.tickAt t) lp h with
      | none => (c.bump aNomatch, f)
      | some e =>
        let regs := fld e 4 1
        let pset := match (List.range 8).find? (bit regs) with | some g => (c.rgn g).setFor (c.tickAt t) | none => false
        (c, { f with cls := .data, prog := fld e 3 1, pset := pset, regions := regs, payOff := h.payOff, payLen := h.payLen,
                     walkDone := false })

/-! ### Observations of frames (R374, R375) -/

/-- A frame's FRAME or PASS observation. -/
def Frame.obs (f : Frame) (tick : Nat) : Obs :=
  { kind := if f.src < 8 then 1 else 4, tick := tick, cls := srcClass f.src, idx := srcIdx f.src, ts := f.tStart, rank := 0, rgn := 0,
    cell := 0, data := f.bytes, match_ := f.bytes, frame := f.num, bad := false, final := none }

/-- The VERDICT replay record (R349). -/
def verdictRecord (src num tEnd : Nat) (bad : Bool) (regions : Nat) : List Byte :=
  [0x02, BitVec.ofNat 8 regions, BitVec.ofNat 8 (b2n bad), BitVec.ofNat 8 (srcClass src + 8 * srcIdx src)] ++ toLe 2 num ++ toLe 2 0 ++
    toLe 8 (linear tEnd) ++ toLe 64 0

/-- The EVENT replay record. -/
def eventRecord (regions : Nat) (word : Payload) : List Byte :=
  [0x01, BitVec.ofNat 8 regions] ++ toLe 14 0 ++ ofPayload word

/-- A verdict arrives: the frame's own observation is final, and the verdict's is made (R374). -/
def Core.observeVerdict (c : Core) (f : Frame) (good : Bool) : Core :=
  let c := c.finalise (fun o => (o.kind = 1 || o.kind = 4) && o.cls = srcClass f.src && o.idx = srcIdx f.src && o.frame = f.num)
    fun o => { o with bad := !good, final := some c.now }
  let r := verdictRecord f.src f.num f.tEnd (!good) f.regions
  c.observe { kind := 6, tick := c.tickAt f.tEnd, cls := srcClass f.src, idx := srcIdx f.src, ts := f.tEnd, rank := 4, rgn := 0, cell := 0,
              data := r, match_ := r.drop 16, frame := f.num, bad := !good, final := some c.now }

/-! ### FRAME_START and FEC_UNCORRECTABLE -/

/-- Count corrected codewords of a logical port (R214). -/
def Core.fecCorrected (c : Core) (lp n : Nat) : Core :=
  let a := aLp lp + 0x30
  if c.frozenAt a then c else c.setF a 0 32 (c.getF a 0 32 + n)

/-- D_rx of the device (R185, R212). -/
def Core.dRx (c : Core) : Nat := Config.dRx (c.rd 0x80)

/-- Enter a frame that has started: its number, its class, its observation. -/
def Core.frameStart (c : Core) (lp phi deskew corr : Nat) (b : List Byte) : Core :=
  let t := adjust (c.at_ phi) (signed 32 (c.getF (pTime + 0x210) 0 32) - (c.dRx : Int) - deskew)
  let c := if c.lpUp lp then c.fecCorrected lp corr else c
  if !c.lpUp lp || c.sep.frames.any (fun f => f.src = lp && t < f.tEnd) then c
  else
    let n := Store.get c.sep.counts 0 lp
    let c := { c with sep := { c.sep with counts := Store.set c.sep.counts 0 lp ((n + 1) % 65536) } }
    let r := (c.bump (aLp lp + 0x20)).classify lp n t (b.take 9216)
    let c := { r.1 with sep := { r.1.sep with frames := r.1.sep.frames ++ [{ r.2 with uncorr := decide (9216 < b.length) }] } }
    if r.2.cls = .kwanan ∨ r.2.cls = .control then c else c.observe (r.2.obs (c.tickAt t))

def execFrameStart (lp phi : Nat) (rx : Reception) (bytes : List Byte) (s : State) : Answer :=
  coreStep (fun _ c => c.frameStart lp phi rx.deskew rx.corr bytes) s

/-- FEC_UNCORRECTABLE (R214): the codeword is counted, and every frame it touches gets a bad verdict. -/
def Core.fecUncorrectable (c : Core) (lp : Nat) (nums : List Nat) : Core :=
  if !c.lpUp lp then c
  else
    let a := aLp lp + 0x30
    let c := if c.frozenAt a then c else c.setF a 32 32 (c.getF a 32 32 + 1)
    { c with sep := { c.sep with frames := c.sep.frames.map fun (f : Frame) =>
      if f.src = lp ∧ f.verdict.isNone ∧ nums.contains f.num then { f with uncorr := true } else f } }

def execFecUncorrectable (lp : Nat) (frames : List Nat) (s : State) : Answer := coreStep (fun _ c => c.fecUncorrectable lp frames) s

/-! ### Parser programs (R226 to R228) -/

/-- A number in a payload, in the byte order a program names. -/
def msgField (pay : List Byte) (o n : Nat) (big : Bool) : Nat := if big then beNat (slice pay o n) else leNat (slice pay o n)

/-- A message's length. -/
def msgLen (p : Program) (pay : List Byte) (off : Nat) : Int :=
  if p.lenCtrl % 2 = 0 then p.lenVal
  else (msgField pay (off + p.lenVal) (2 ^ (p.lenCtrl / 4 % 4)) (bit p.lenCtrl 1) : Int) + p.lenAdd

/-- The case of a message. -/
def msgCase (p : Program) (pay : List Byte) (off : Nat) : Option ParseCase :=
  if p.typeCtrl = 0 then p.cases.head?
  else
    let t := msgField pay (off + p.typeOff) p.typeCtrl true
    (p.cases.take p.ncase).find? fun k => k.type = t

/-- The extracts of a case. -/
def caseExtracts (p : Program) (k : ParseCase) : List Extract := (p.extracts.drop k.extFirst).take k.extCount

/-- Whether a key or extract byte of an emitted message lies at or beyond its length. -/
def msgShort (p : Program) (k : ParseCase) (len : Nat) : Bool :=
  len < k.minLen || (k.keyCtrl / 32 % 4 ≠ 0 && len < k.keyOff + k.keyCtrl % 16) ||
  (caseExtracts p k).any fun x => len < x.src + x.len

/-- The field area and the key bits of word 0 (R227, R228), and whether a direct key was out of range. -/
def msgFields (p : Program) (k : ParseCase) (msg : List Byte) : List Byte × Nat × Bool :=
  let f := (caseExtracts p k).foldl (fun a x =>
    let b := slice msg x.src x.len
    splice a x.dst (if x.swap then b.reverse else b)) (List.replicate 40 (0 : Byte))
  let v := msgField msg k.keyOff (k.keyCtrl % 16) (bit k.keyCtrl 4)
  match k.keyCtrl / 32 % 4 with
  | 1 => if v < 2 ^ 20 then (f, v * 2 ^ 24 + 2 ^ 44, false) else (f, 0, true)
  | 2 => (splice f 0 (toLe 8 v), 2 ^ 62, false)
  | _ => (f, 0, false)

/-- The ingress timestamp of a message whose last byte is byte `i` of its frame or packet (R27, R184). -/
def Core.msgTime (c : Core) (f : Frame) (i : Nat) : Nat :=
  if f.src < 8 then f.tStart + c.wire (i + 1) else f.tStart + (i + 2) * 2 * 2 ^ 16 / 5

/-- Whether an event of a frame is speculative (R220, R364). -/
def frameSpec (f : Frame) (n : Nat) : Bool :=
  8 ≤ f.src || f.implied.isNone || n + 6 * 2 ^ 16 < f.tLast

/-- Put an event word on its way to the Ford, and observe it (R229, R374). -/
def Core.sendEvent (c : Core) (e : FordEv) (mask frame : Nat) : Core :=
  let c := { c with sep := { c.sep with inbox := c.sep.inbox ++ [e] } }
  c.observe { kind := 2, tick := e.tick, cls := srcClass e.src, idx := srcIdx e.src, ts := e.n, rank := 1, rgn := 0, cell := 0,
              data := eventRecord mask e.word, match_ := ofPayload e.word, frame := frame, bad := false,
              final := some (e.n + nsN (aSrc e.src)) }

/-- The event of a message (R229, R230). -/
def Core.emitMsg (c : Core) (f : Frame) (p : Program) (k : ParseCase) (off len : Nat) : Core :=
  let msg := slice f.bytes (f.payOff + off) len
  let x := msgFields p k msg
  let n := c.msgTime f (f.payOff + off + len - 1)
  let tick := c.tickAt n
  let w0 := srcClass f.src * 2 ^ 16 * 2 + srcIdx f.src * 2 ^ 20 + x.2.1 + b2n (frameSpec f n) * 2 ^ 45 + f.num * 2 ^ 46
  let word := toPayload (toLe 8 w0 ++ toLe 8 (linear n) ++ toLe 8 tick ++ x.1)
  let poison := f.bads.any fun i => f.payOff + off ≤ i && i < f.payOff + off + len
  let c := if x.2.2 then c.bump (pSep + 0x138) else c
  if c.en pSep then
    let c := c.bump (pSep + 0x100)
    c.sendEvent { word := word, regions := maskBits 8 f.regions, src := f.src, n := n, tick := tick, late := false,
                  poison := poison, msg := f.walkCount, delta := 0 } f.regions f.num
  else c

/-- Replace a frame. -/
def Core.putFrame (c : Core) (f : Frame) : Core :=
  { c with sep := { c.sep with frames := c.sep.frames.map fun (x : Frame) => if x.src = f.src ∧ x.num = f.num then f else x } }

/-- How long after it crosses the reference plane a frame's byte is at the Separator: 58 ns from an Ethernet port (R26, R212); for a lane
only the sum of R28 is given. -/
def stage1 (f : Frame) : Nat := if f.src < 8 then nsN 58 else 0

/-- Walk on to the next event of a frame (R226): skipped messages and unmatched ones are passed, the walk waits at a message
whose last byte has not reached the Separator, and stops at its end or at a malformed message. -/
def Core.walk (c : Core) (f : Frame) (p : Program) (fuel : Nat) : Core :=
  match fuel with
  | 0 => c.putFrame f
  | fuel + 1 =>
    let pay := slice f.bytes f.payOff f.payLen
    if f.payLen ≤ f.walkOff ∨ p.maxMsg ≤ f.walkCount then
      let c := if f.walkOff < f.payLen then c.bump (pSep + 0x130) else c
      c.putFrame { f with walkDone := true }
    else
      let len := msgLen p pay f.walkOff
      if len < 16 ∨ (f.payLen : Int) < f.walkOff + len then (c.bump (pSep + 0x120)).putFrame { f with walkDone := true }
      else
        let len := len.toNat
        let next := { f with walkOff := f.walkOff + len, walkCount := f.walkCount + 1 }
        match msgCase p pay f.walkOff with
        | none => (c.bump (pSep + 0x128)).walk next p fuel
        | some k =>
          if !k.emit then c.walk next p fuel
          else if msgShort p k len then (c.bump (pSep + 0x120)).putFrame { f with walkDone := true }
          else if f.bytes.length < f.payOff + f.walkOff + len then c.putFrame { f with walkDone := f.tEnd ≤ c.now }
          else if c.now < c.msgTime f (f.payOff + f.walkOff + len - 1) + stage1 f then c.putFrame f
          else (c.emitMsg f p k f.walkOff len).putFrame next

/-- The program of a frame (R224, R298). -/
def Core.progOf (c : Core) (f : Frame) : Option Program :=
  (c.progs.find? fun e => e.1 = b2n f.pset * 64 + f.prog).map (·.2)

/-- EVENT_WORD_EMIT for a source: its oldest frame that is not walked through (R229). A frame whose program is not loaded
emits nothing. -/
def Core.eventWordEmit (c : Core) (src : Nat) : Core :=
  match c.sep.frames.find? fun f => f.src = src && !f.walkDone with
  | none => c
  | some f => match c.progOf f with
    | none => (c.putFrame { f with walkDone := true }).pruneFrames
    | some p =>
      let f := if f.walkCount = 0 ∧ f.walkOff = 0 then { f with walkOff := p.hdrSkip } else f
      (c.walk f p 66).pruneFrames

def execEventWordEmit (src : Nat) (s : State) : Answer := coreStep (fun _ c => c.eventWordEmit src) s

/-! ### Verdicts -/

/-- Whether a frame's verdict is good (R215). -/
def frameGood (f : Frame) : Bool :=
  let n := f.bytes.length
  !f.uncorr && 64 ≤ n && f.bytes.drop (n - 4) = fcsBytes false (f.bytes.take (n - 4)) &&
  (f.implied = none || f.implied = some n)

/-- A bad frame's events with SPEC clear are discarded unreleased (R220). -/
def Core.dropUnreleased (c : Core) (f : Frame) : Core :=
  let mine := fun e : FordEv => e.src = f.src && pfld e.word 0 8 / 2 ^ 46 % 65536 = f.num && !bit (pfld e.word 0 8) 45 && e.delta = 0
  let n := ((c.ford.buf ++ c.sep.inbox).filter mine).length
  let c := c.bumpBy (pSep + 0x140) n
  { c with ford := { c.ford with buf := c.ford.buf.filter fun e => !mine e },
           sep := { c.sep with inbox := c.sep.inbox.filter fun e => !mine e } }

/-- A verdict reaches the Ford, the KEY cells and the composer (R279, R286). -/
def Core.verdict (c : Core) (f : Frame) (good : Bool) : Core :=
  let c := c.putFrame { f with verdict := some good }
  let c := c.observeVerdict f good
  let c := if good then c else c.dropUnreleased f
  c.settle.pruneFrames

/-- Whether firmware answers a frame of class SERVICE (R218): an ARP request, a neighbour solicitation or an ICMP echo request. -/
def answered (b : List Byte) : Bool :=
  match parseHdrs b with
  | .error _ => false
  | .ok h =>
    let hl := ((slice b h.payOff 1).headD 0).toNat % 16 * 4
    let at4 := ((slice b (h.payOff + hl) 1).headD 0).toNat
    let at6 := ((slice b (h.payOff + 40) 1).headD 0).toNat
    if h.et = 0x0806 then beNat (slice b (h.payOff + 6) 2) = 1
    else if h.et = 0x0800 then at4 = 8 else at6 = 128 || at6 = 135

/-- Firmware's answer waits for its port (R218, R235). PRESUMED (log 83): which messages ask for one, and that its bytes are firmware's. -/
def Core.answer (c : Core) (lp : Nat) (b : List Byte) : Core :=
  if !answered b || !c.service then c
  else { c with comp := { c.comp with answers := c.comp.answers ++
    [(lp, Config.serviceReply (c.lpMac lp) (c.lpIp4 lp) (c.lpIp6 lp) b)] } }

/-- FCS_VERDICT of a port's oldest frame without one (R215, R218). -/
def Core.fcsVerdict (c : Core) (lp : Nat) : Core :=
  match c.sep.frames.find? fun f => f.src = lp && f.verdict.isNone with
  | none => c
  | some f =>
    if 8 ≤ lp ∨ c.now < c.verdictAt f then c
    else
      let good := frameGood f
      let c := if good then c else c.bump (aLp lp + 0x28)
      let c := match f.cls with
        | .control => c.bump (aLp lp + 0x38)
        | .kwanan | .ptp => if good then c.emit (.control lp f.bytes f.tStart) else c
        | .service => if good then (c.emit (.control lp f.bytes f.tStart)).answer lp f.bytes else c
        | _ => c
      c.verdict f good

def execFcsVerdict (lp : Nat) (s : State) : Answer := coreStep (fun _ c => c.fcsVerdict lp) s

/-! ### Configuration and link -/

/-- PORT_CFG (R211, R216, R241): MODE changes only while every port is disabled; a port that is enabled counts frames from
zero, and one that is disabled loses its link. -/
def Core.hPortCfg (c : Core) (a : Access) (v : Nat) : Core :=
  if !isPriv a then c
  else
    let r := pPort + 0x80
    let old := c.getF r 2 8
    let bad := old ≠ 0 && c.getF r 0 2 ≠ v % 4
    let c' := if bad then c.reject pPort 0x80 v else c.setF r 0 2 v
    let c' := ((c'.setF r 2 8 (v / 4)).setF r 10 3 (v / 2 ^ 10)).setF r 13 3 (v / 2 ^ 13)
    let new := c'.getF r 2 8
    (List.range 8).foldl (fun c p =>
      if bit new p && !bit old p then { c with sep := { c.sep with counts := Store.set c.sep.counts 0 p 0 } }
      else if bit old p && !bit new p then c.setF (pPort + 0x88) p 1 0 else c) c'

def execPortCfgWrite (acc : Access) (v : Word64) (s : State) : Answer := coreStep (fun _ c => c.hPortCfg acc (wv v)) s

/-- LINK_LOSS (R540): frames on the port are cut off where they are. -/
def Core.linkLoss (c : Core) (lp : Nat) : Core :=
  if !c.getB (pPort + 0x88) lp then c
  else
    let c := c.setF (pPort + 0x88) lp 1 0
    { c with sep := { c.sep with frames := c.sep.frames.map fun (f : Frame) =>
      if f.src = lp ∧ c.now < f.tEnd then { f with uncorr := true, tEnd := max f.tStart c.now } else f } }

def execLinkLoss (lp : Nat) (s : State) : Answer := coreStep (fun _ c => c.linkLoss lp) s

/-- LINK_UP (R241): an enabled port has link and alignment. -/
def Core.linkUp (c : Core) (lp : Nat) : Core := if c.lpOn lp then c.setF (pPort + 0x88) lp 1 1 else c

def execLinkUp (lp : Nat) (s : State) : Answer := coreStep (fun _ c => c.linkUp lp) s

/-! ### The filter table's staging area (R223) -/

/-- The staged entry. -/
def Core.stagedFilter (c : Core) : FilterEntry := (List.range 8).flatMap fun i => toLe 8 (c.rd (pSep + 0x80 + 8 * i))

/-- Whether a staged entry is well formed. -/
def filterOk (e : FilterEntry) : Bool :=
  let kind := fld e 2 1
  let k := kind % 128
  let m := fld e 1 1
  let pfx := fld e 5 1
  k ≤ 2 && m < 64 && fld e 3 1 < 64 && fld e 6 2 < 4096 && fld e 50 14 = 0 &&
  (if k = 0 then pfx ≤ 32 && fld e 22 12 = 0 && fld e 38 12 = 0
   else if k = 1 then pfx ≤ 128 else pfx = 0 && !bit m 2 && !bit m 3 && !bit m 5)

/-- A rejected filter command. -/
def Core.filterRej (c : Core) (v : Nat) : Core := (c.raiseF (pSep + 0xD0) 1).reject pSep 0xC8 v

/-- SEP_FLT_CMD (R223): WRITE and INVALIDATE are staged for their tick; READ copies an entry at once. -/
def Core.hFilterCmd (c : Core) (a : Access) (v : Nat) : Core :=
  let i := v % 4096
  let op := v / 4096 % 4
  if !isPriv a then c
  else if op = 3 then
    let e := Store.get c.sep.filters [] i
    (List.range 8).foldl (fun c k => c.wr (pSep + 0x80 + 8 * k) (fld e (8 * k) 8)) c
  else if op = 0 then c
  else
    let t := c.rd (pSep + 0xC0)
    let e := c.stagedFilter
    let old := Store.get c.sep.filters [] i
    if c.sep.pending.isSome || !c.lead200 t || (op = 1 && !filterOk e) then c.filterRej v
    else
      let new := if op = 1 then e else (if old = [] then [] else splice old 2 [BitVec.ofNat 8 (fld old 2 1 % 128)])
      let c := { c with sep := { c.sep with filters := Store.set c.sep.filters [] i new, pending := some (i, old, t), pendingDone := false } }
      c.setF (pSep + 0xD0) 0 1 1

def execFilterWrite (acc : Access) (v : Word64) (s : State) : Answer :=
  coreStep (fun _ c => c.hFilterCmd acc (setBits (wv v) 12 2 1)) s
def execFilterInvalidate (acc : Access) (v : Word64) (s : State) : Answer :=
  coreStep (fun _ c => c.hFilterCmd acc (setBits (wv v) 12 2 2)) s
def execFilterRead (acc : Access) (v : Word64) (s : State) : Answer :=
  coreStep (fun _ c => c.hFilterCmd acc (setBits (wv v) 12 2 3)) s

/-- FILTER_CHANGE_EFFECT: the tick of the staged change has come. -/
def Core.filterChangeEffect (c : Core) : Core :=
  match c.sep.pending with
  | some (_, _, t) => if c.tickBegun t then { c with sep := { c.sep with pendingDone := true } } else c
  | none => c

def execFilterChangeEffect (s : State) : Answer := coreStep (fun _ c => c.filterChangeEffect) s

/-- Whether every frame that crossed the reference plane before an instant has started at the Separator: the port's 58 ns have passed
(R212), and D_rx as the timestamps count it (R185). -/
def Core.allStarted (c : Core) (t : Nat) : Bool :=
  t + nsN 58 ≤ c.now && adjust t ((c.dRx : Int) - signed 32 (c.getF (pTime + 0x210) 0 32)) ≤ c.now

/-- FILTER_PENDING_CLEAR: no frame that started in a tick before T remains to be parsed or has yet to reach the Separator. -/
def Core.filterPendingClear (c : Core) : Core :=
  match c.sep.pending with
  | some (_, _, t) =>
    if c.sep.pendingDone && c.allStarted (t * nsN c.tickP) && c.sep.frames.all fun f => f.walkDone || t ≤ c.tickAt f.tStart then
      { c with sep := { c.sep with pending := none, pendingDone := false } }.setF (pSep + 0xD0) 0 1 0
    else c
  | none => c

def execFilterPendingClear (s : State) : Answer := coreStep (fun _ c => c.filterPendingClear) s

end Sys2Proof.Machine
end

