-- ==== Sys2Proof/Machine/Ford.lean ====
section
/-! DEFINITION. The Ford: arrivals and the buffer (R32, R199, R547), the release of events into regions (R29 to R31, R48, R81,
R253, R280, R335, R347) and FORD_DELAY (R197). -/

namespace Sys2Proof.Machine

/-! ### Arrival -/

/-- The tick from which a launch by count admits (R202), under a replay's offset (R351). -/
def Core.launchTick (c : Core) (g : Nat) : Nat :=
  c.tickOf (c.rd (pTime + 0x100 + 8 * g) - (c.rgn g).delta)

/-- Whether TIME_BAR_CTRL.REGIONS names a region, which then launches at a barrier instead of at LAUNCH_AT (R206). -/
def Core.barNames (c : Core) (g : Nat) : Bool := c.getB (pTime + 0x610) (34 + g)

/-- Whether a region takes an event of a tick: a launched one from its first tick on, and an idle one that is armed to launch
(R202, R206). -/
def Core.takesEvent (c : Core) (g tick : Nat) : Bool :=
  let r := c.rgn g
  match r.phase with
  | .running | .draining | .drained => r.firstTick ≤ tick
  | .idle =>
    if c.barNames g then c.pins.barDue.isSome else c.pins.launchArmed.contains g && c.launchTick g ≤ tick
  | .halted => false

/-- Whether an event of a tick before T that a region takes is still to be released: in the Ford, on its way, in a frame that is not
parsed, or in one that crossed the reference plane and has yet to reach the Separator. -/
def Core.eventOf (c : Core) (g t : Nat) : Bool :=
  (c.ford.buf ++ c.sep.inbox).any (fun e => e.regions.contains g && e.tick < t) ||
  (t ≠ 0 && c.takesEvent g t && !c.allStarted (t * nsN c.tickP)) ||
  c.sep.frames.any fun f => f.cls = .data && bit f.regions g && !f.walkDone && c.takesEvent g t && c.tickAt f.tStart < t

/-- The ingress-loss mark of a dropped event (R32, R374, R379). -/
def lossObs (e : FordEv) (now : Nat) : Obs :=
  { kind := 8, tick := e.tick, cls := srcClass e.src, idx := srcIdx e.src, ts := e.n, rank := 1, rgn := 0, cell := 0,
    data := [BitVec.ofNat 8 e.msg, BitVec.ofNat 8 (toMask e.regions)] ++ toLe 14 0, match_ := toLe 64 0,
    frame := pfld e.word 0 8 / 2 ^ 46 % 65536, bad := false, final := some now }

/-- An event reaches the Ford for the regions it names: dropped when the buffer of 4,096 is full (R32), late when a due instant
has passed (R199). A replayed event that an underrun of the reader has made late is marked LATE, and neither counted nor logged: it is no
device fault (R337). -/
def Core.fordAccept (c : Core) (e : FordEv) : Core :=
  let e := { e with regions := e.regions.filter fun g => c.takesEvent g e.tick }
  if e.regions = [] then c
  else if 4096 ≤ c.ford.buf.length then (c.bump (pSep + 0x400 + 8 * e.src)).observe (lossObs e c.now)
  else
    let late := e.regions.any fun g => c.due g e < c.now
    let f := pfld e.word 0 8 / 2 ^ 46 % 65536
    let live := !e.regions.any fun g => (c.rgn g).replay
    let c := if late && live then (c.bump (pSep + 0x600 + 8 * e.src)).logErr pSep clsC 0x06 (srcClass e.src) (srcIdx e.src) f else c
    { c with ford := { c.ford with buf := c.ford.buf ++ [{ e with late := late }] } }

/-- FORD_ARRIVAL of entry i of those on their way (R32): of one source in order (R229). In safe state the Ford discards and
counts (R511); an event with SPEC clear whose frame is bad is discarded (R220); a replay region takes no live event (R349). -/
def Core.fordArrival (c : Core) (i : Nat) : Core :=
  match c.sep.inbox[i]? with
  | none => c
  | some e =>
    if (c.sep.inbox.take i).any (fun x => x.src = e.src) then c
    else
      let c := { c with sep := { c.sep with inbox := removeAt c.sep.inbox i } }
      let w0 := pfld e.word 0 8
      let bad := e.src < 24 && c.sep.frames.any fun f => f.src = e.src && f.num = w0 / 2 ^ 46 % 65536 && f.verdict = some false
      if c.safe then c.bump (pFlt + 0x118)
      else if bad && !bit w0 45 then c.bump (pSep + 0x140)
      else
        let live := e.regions.filter fun g => !(c.rgn g).replay
        let c := if live.length < e.regions.length then c.bump (pSep + 0x180) else c
        c.fordAccept { e with regions := live }

def execFordArrival (i : Nat) (s : State) : Answer := coreStep (fun _ c => c.fordArrival i) s

/-! ### Release -/

/-- An event's place in a region's release order (R335): slot, then device order. -/
def Core.relKey (c : Core) (g : Nat) (e : FordEv) : List Nat :=
  [(c.rgn g).slotAt (c.due g e), e.tick, srcClass e.src, srcIdx e.src]

/-- The events that a region may release: from its first tick on, and not held by a drained swap (R299). -/
def Core.fordWaiting (c : Core) (g : Nat) : List FordEv :=
  let r := c.rgn g
  c.ford.buf.filter fun e => e.regions.contains g && r.firstTick ≤ e.tick && match r.swapHold with | some t => e.tick < t | none => true

/-- The next event of a region's release order; among equals the one that arrived first. -/
def Core.fordNext (c : Core) (g : Nat) : Option FordEv :=
  leastBy (fun a b => lexLe (c.relKey g a) (c.relKey g b)) (c.fordWaiting g)

/-- The binary that new events of a tick run under. -/
def Core.binFor (c : Core) (g tick : Nat) : Option Loaded := (c.rgn g).bin ((c.rgn g).setFor tick)

/-- II and COPIES of a region's binary. -/
def Loaded.ii (l : Loaded) : Nat := l.bin.report.ii
def Loaded.copies (l : Loaded) : Nat := l.bin.report.copies

/-- The event that a region may release in this fc (R29, R31): admission fc, within the region's rate and the Ford's limit. -/
def Core.fordReady (c : Core) (g : Nat) : Option FordEv :=
  let r := c.rgn g
  match c.fordNext g with
  | none => none
  | some e => match c.binFor g e.tick with
  | none => none
  | some l =>
    let made := if c.ford.fc = c.clk.fc then c.ford.made else 0
    let here := if r.relFc = c.clk.fc then r.relCount else 0
    if c.fabricOn && r.phase = .running && r.stall.isEmpty && r.sched % max 1 l.ii = 0 && made < 2 && here < l.copies &&
        c.due g e ≤ c.now then some e else none

/-- An event's place among the releases of all regions (R31): slot, device order, arrival within its source, then region. -/
def Core.turnKey (c : Core) (g : Nat) (e : FordEv) : List Nat := c.relKey g e ++ [c.ford.buf.idxOf e, g]

/-- Whether a ready event of another region comes first (R31). -/
def Core.fordAhead (c : Core) (g : Nat) (e : FordEv) : Bool :=
  (List.range 8).any fun h => h ≠ g && match c.fordReady h with
    | some x => !lexLe (c.turnKey g e) (c.turnKey h x)
    | none => false

/-- Take an event out of the buffer for a region; the entry is freed with its last region (R198). -/
def takeEv (g : Nat) (e : FordEv) : List FordEv → List FordEv
  | [] => []
  | x :: t => if x = e then (let l := x.regions.erase g; if l = [] then t else { x with regions := l } :: t) else x :: takeEv g e t
def Core.fordTake (c : Core) (g : Nat) (e : FordEv) : Core := { c with ford := { c.ford with buf := takeEv g e c.ford.buf } }

/-- Discard the presented events at or before a restore's cursor (R347). -/
def Core.skipCursor (c : Core) (g fuel : Nat) : Core :=
  match fuel with
  | 0 => c
  | fuel + 1 =>
    match (c.rgn g).cursor, c.fordNext g with
    | some (slot, pos), some e =>
      let s := (c.rgn g).slotAt (c.due g e)
      if c.now < c.due g e then c
      else if slot < s ∨ (s = slot ∧ pos = 0) then c.modRgn g fun r => { r with cursor := none }
      else
        let c := (c.fordTake g e).bump (pSep + 0x178)
        let c := c.modRgn g fun r => { r with cursor := some (slot, if s = slot then pos - 1 else pos) }
        c.skipCursor g fuel
    | _, _ => c

/-- The INGRESS TAPs that a copy's event word is sent to: cells and their meadows' stream times (R48, R61, R75). -/
def Core.ingressTaps (c : Core) (g : Nat) (set : Bool) (copy copies : Nat) : List Nat :=
  let slot := slotOf set (c.rgn g).sect
  c.fab.ctxs.filterMap fun (k, x) => match x.body with
    | .tap t => if k % 8 = slot ∧ c.cellRgn (k / 8) = g ∧ kindOf (k / 8) = .tap ∧ t.role = .ingress ∧ (copies = 1 ∨ t.copy = copy)
        then some (k / 8) else none
    | _ => none

/-- The KEY context that owns an iteration's ring (R254). -/
def Core.keyCtxFor (c : Core) (g : Nat) (i : Iter) : Option KeyCtx :=
  let slot := slotOf i.set (c.rgn g).sect
  c.fab.ctxs.findSome? fun (k, x) => match x.body with
    | .key t => if k % 8 = slot ∧ c.cellRgn (k / 8) = g ∧ kindOf (k / 8) = .key ∧ c.keyOwns (k / 8) i then some t else none
    | _ => none

/-- The lines of the two buckets of an exact key (R251, R253). -/
def bucketLines (k : KeyMap) (j key : Nat) : List Nat :=
  let b := locateOf (kmVaults k).length k.blog key
  [kmSlotAddr k j b.2.1 0, kmSlotAddr k j b.2.2 0]

/-- Whether a set of a region has a key stage. -/
def Core.hasKeyStage (c : Core) (g : Nat) (set : Bool) : Bool :=
  let slot := slotOf set (c.rgn g).sect
  c.fab.ctxs.any fun (k, x) => match x.body with
    | .key _ => k % 8 = slot && c.cellRgn (k / 8) = g && kindOf (k / 8) = .key
    | _ => false

/-- The wait from a vault cycle to the first rota entry of a mask (R404, R549). -/
def rotaWait (mask vc : Nat) : Nat := ((List.range 32).find? fun w => bit mask ((vc + w) % 32)).getD 0

/-- Issue the ring prefetch of a released event (R253, R549): in exact mapping the two buckets, one on each port, and then the ring
lines of a key that is in the table. -/
def Core.prefetch (c : Core) (m : Mem) (g : Nat) (i : Iter) : Core :=
  match (if i.home = .null then none else c.keyMapOf g i.set), c.keyCtxFor g i with
  | some km, some x =>
    let v := (kmVaults km).getD i.home.j 0
    let ls := c.fetchSet m g i x
    let bs := if kmExact km then bucketLines km i.home.j (pfld i.word 24 8) else []
    let own := ((c.binOf g i.set).bind fun l => l.bin.vault.find? fun e => e.meadow = v).map fun e => e.maskA.toNat ||| e.maskB.toNat
    let wait := rotaWait (own.getD 0) c.clk.vc
    let beats := max 2 (2 * ceilDiv ls.length 2)
    let due := c.clk.vc + wait + 28 + (beats - 1) + (if ls ≠ [] ∧ bs ≠ [] then 28 else 0)
    { c with fab := { c.fab with vreads := c.fab.vreads ++ [⟨g, v, bs ++ ls, i.tag, i.set, due⟩] } }
  | _, _ => c

/-- Release an event into a region: its tag, set and copy (R48), its iteration (R282), LATE (R81, R86, R199: an event due by a boundary at which
admission was held, or by one before this at which a late event went first), the word to the
INGRESS TAPs and the ring prefetch (R253). -/
def Core.fordEnter (c : Core) (m : Mem) (g : Nat) (l : Loaded) (e : FordEv) : Core :=
  let r := c.rgn g
  let due := c.due g e
  let slot := r.slotAt due
  let set := r.setFor e.tick
  let tag : Tag := BitVec.ofNat 16 r.admitted
  let copy := if l.copies = 2 then r.admitted % 2 else 0
  let held := due ≤ r.heldAt || due ≤ (if r.lateAt = c.now then r.latePrev else r.lateAt)
  let w0 := pfld e.word 0 8
  let spec := bit w0 45
  let word := toPayload (toLe 8 (w0 / 2 ^ 17 * 2 ^ 17 + b2n set * 2 ^ 16 + tag.toNat) ++ (ofPayload e.word).drop 8)
  let home := c.homeFor m g set word e.tick
  let i : Iter :=
    { tag := tag, set := set, copy := copy, word := word, src := e.src, n := e.n, tick := e.tick, relFc := c.clk.fc, relSched := r.sched,
      relStall := r.stallFc, deps := if spec then [(e.src + 64 * b2n r.replay, w0 / 2 ^ 46 % 65536)] else [], fate := .pending,
      final := !c.hasKeyStage g set, late := e.late || held, poison := e.poison, slot := slot, home := home, status := none, undone := false }
  let dbg := c.debugOn g set
  let tok : Token := { payload := word, tag := tag, set := set, poison := e.poison, late := i.late, adm := BitVec.ofNat 16 r.sched }
  let new := (c.ingressTaps g set copy l.copies).map fun t =>
    ({ tok := tok, rgn := g, due := r.sched + colTime (cellMeadow t) + (if dbg then 2 else 0), src := t, dst := t, port := 0 } : Fly)
  let c := c.fordTake g e
  let c := c.setRgn g { r with admitted := r.admitted + 1, relSlot := slot, relPos := if slot = r.relSlot then r.relPos + 1 else 1,
                               relFc := c.clk.fc, relCount := (if r.relFc = c.clk.fc then r.relCount else 0) + 1,
                               lateAt := if held then c.now else r.lateAt,
                               latePrev := if held ∧ r.lateAt ≠ c.now then r.lateAt else r.latePrev, iters := r.iters ++ [i] }
  let made := (if c.ford.fc = c.clk.fc then c.ford.made else 0) + 1
  let c := { c with ford := { c.ford with fc := c.clk.fc, made := made }, fab := { c.fab with fly := c.fab.fly ++ new } }
  let c := if spec then c.bump (pRgn g + 0x138) else c
  ((c.prefetch m g i).settleRgn g).pruneFrames

/-- FORD_RELEASE into region g (R29, R31). -/
def Core.fordRelease (c : Core) (m : Mem) (g : Nat) : Core :=
  let c := if (c.rgn g).cursor.isSome then c.skipCursor g (c.ford.buf.length + 1) else c
  match c.fordReady g with
  | none => c
  | some e => match c.binFor g e.tick with
    | none => c
    | some l => if c.fordAhead g e then c else c.fordEnter m g l e

def execFordRelease (g : Nat) (s : State) : Answer := coreStep (fun m c => c.fordRelease m g) s

/-! ### FORD_DELAY -/

/-- FORD_DELAY (R197): 0, or 12 to 1,000; the change waits until the region is idle or drained. -/
def Core.hFordDelay (c : Core) (a : Access) (g v : Nat) : Core :=
  let d := v % 1024
  let r := pTime + 0x140 + 8 * g
  if !isPriv a then c
  else if (1 ≤ d ∧ d ≤ 11) ∨ 1000 < d then c.timeRej (0x140 + 8 * g) v
  else ((c.setF r 0 10 d).setF r 10 1 1).applyFord g

def execFordDelayWrite (acc : Access) (g : Nat) (v : Word64) (s : State) : Answer :=
  coreStep (fun _ c => c.hFordDelay acc g (wv v)) s

end Sys2Proof.Machine
end

