-- ==== Sys2Proof/Machine/TimeUnit.lean ====
section
/-! DEFINITION. The time unit: the passing of time (R178, R180), device time and its correction (R179 to R182), TIN and TOUT
pins (R187 to R189), the tick period (R190), the valley epoch and launches (R200 to R203), time markers (R205), the barrier
(R206) and PTP transmission (R208). -/

namespace Sys2Proof.Machine

/-! ### The passing of time -/

/-- One time-unit cycle (R178, R180), which takes a time written before it (R181). -/
def Core.timeCycle (c : Core) : Core :=
  { c with clk := { c.clk with acc := c.clk.setAt.getD (c.clk.acc + c.incr), slewLeft := c.clk.slewLeft - 1, setAt := none } }

/-- Whole time-unit cycles. -/
def Core.timeCycles (c : Core) : Nat → Core
  | 0 => c
  | n + 1 => (c.timeCycle).timeCycles n

/-- Time moves on by `p`/88 of a time-unit cycle, and the vault clock by `v`/88 of a vault cycle. -/
def Core.advance (c : Core) (p v : Nat) : Core :=
  let c := c.timeCycles ((c.clk.ph + p) / 88)
  let vph := c.clk.vph + v
  { c with clk := { c.clk with ph := (c.clk.ph + p) % 88, vph := vph % 88, vc := c.clk.vc + vph / 88 } }

/-! ### Device time -/

/-- TIME_STAT. -/
def aTStat : Nat := pTime + 0x200

/-- The range of the increment (R179). -/
def incrOk (i : Int) : Bool := 0xFFC00000 ≤ i && i ≤ 0x100400000

/-- TIME_INCR (R179). -/
def Core.hTimeIncr (c : Core) (a : Access) (v : Nat) : Core :=
  let i : Nat := v % 2 ^ 33
  if !isPriv a then c else if incrOk (i : Nat) then c.setF (pTime + 0xA0) 0 33 i else c.timeRej 0xA0 v

def execTimeIncrWrite (acc : Access) (v : Word64) (s : State) : Answer := coreStep (fun _ c => c.hTimeIncr acc (wv v)) s

/-- TIME_SLEW (R180): a new write replaces a slew in progress. -/
def Core.hTimeSlew (c : Core) (a : Access) (v : Nat) : Core :=
  let n := v / 2 ^ 24 % 2 ^ 32
  if !isPriv a then c
  else if !incrOk ((c.getF (pTime + 0xA0) 0 33 : Int) + signed 24 v) then c.timeRej 0x208 v
  else
    let c := (c.setF (pTime + 0x208) 0 24 v).setF (pTime + 0x208) 24 32 n
    { c with clk := { c.clk with slewLeft := n } }.setF aTStat 4 1 (b2n (n ≠ 0))

def execTimeSlewWrite (acc : Access) (v : Word64) (s : State) : Answer := coreStep (fun _ c => c.hTimeSlew acc (wv v)) s

/-- SLEW_END (R180): the cycles of the slew are used up. -/
def Core.slewEnd (c : Core) : Core := if c.clk.slewLeft = 0 then c.setF aTStat 4 1 0 else c

def execSlewEnd (s : State) : Answer := coreStep (fun _ c => c.slewEnd) s

/-- HOLDOVER (R182): the time unit goes on from REFCLK_SYS at its last increment. -/
def Core.enterHoldover (c : Core) : Core :=
  if c.getB aTStat 1 then c else ((c.setF aTStat 1 1 1).setF aTStat 0 1 0).event pTime 8

def execHoldover (s : State) : Answer := coreStep (fun _ c => c.enterHoldover) s

/-- REFCLK_TIME_RETURN (R182). -/
def Core.refclkReturn (c : Core) : Core :=
  if c.getB aTStat 1 then (c.setF aTStat 1 1 0).setF aTStat 0 1 1 else c

def execRefclkTimeReturn (s : State) : Answer := coreStep (fun _ c => c.refclkReturn) s

/-- The time of a register pair (R176), and whether its halves are in range. -/
def pairN (lo hi : Nat) : Nat := (hi % 2 ^ 48 * 10 ^ 9 + lo / 2 ^ 16 % 2 ^ 30) * 2 ^ 16 + lo % 2 ^ 16
def pairOk (lo : Nat) : Bool := lo / 2 ^ 16 % 2 ^ 30 < 10 ^ 9

/-- The half held by a write of a pair's _HI register (R176), at the address of that register. -/
def Core.heldHi (c : Core) (a : Nat) : Nat := (Store.get c.latched 0 a).toNat
def Core.holdHi (c : Core) (a v : Nat) : Core :=
  { c with latched := Store.set c.latched 0 a (BitVec.ofNat 64 (v % 2 ^ 48)) }

/-- A write of a pair's _HI register through the privileged view. -/
def Core.hHoldHi (c : Core) (a : Access) (addr v : Nat) : Core := if isPriv a then c.holdHi addr v else c

/-- What a read of the _HI register of a pair that software writes shows (R13, R176): what the latest read of _LO latched or the latest write
of _HI left, whichever came later; neither since _LO was last written: the half in force. DESIGN CHOICE (log 34). -/
def Core.hiShown (c : Core) (a : Nat) : Nat := if c.heldHi (a + 4) = 0 then c.rd a else c.heldHi (a + 4) - 1

/-- Keep what a read of a pair's _HI register shows, or no longer. -/
def Core.showHi (c : Core) (a : Nat) (v : Option Nat) : Core :=
  { c with latched := Store.set c.latched 0 (a + 4) (match v with | some x => BitVec.ofNat 64 (x % 2 ^ 48 + 1) | none => 0) }

/-- A write of the _HI register of a pair that reads back (TOUT_START, VALLEY_EPOCH). -/
def Core.hHiRw (c : Core) (a : Access) (addr v : Nat) : Core := if isPriv a then (c.holdHi addr v).showHi addr (some v) else c

/-- Whether a swap is armed (R296). -/
def Core.swapIsArmed (c : Core) : Bool := c.swapArmed.isSome

/-- Whether a TOUT output has edges pending. -/
def Tout.armed (t : Tout) : Bool := t.mode ≠ 0
def Tout.off : Tout := ⟨0, 0, 0, 0, 0, none, false⟩
def Core.tout (c : Core) (j : Nat) : Tout := Store.get c.pins.touts Tout.off j
def Core.setTout (c : Core) (j : Nat) (t : Tout) : Core := { c with pins := { c.pins with touts := Store.set c.pins.touts Tout.off j t } }

/-- The conditions under which device time and the tick period may be written (R181, R190). -/
def Core.timeFree (c : Core) : Bool :=
  ((List.range 8).all fun g => let p := (c.rgn g).phase; p = .idle || p = .drained || p = .halted) &&
  c.pins.launchArmed.isEmpty && !c.swapIsArmed &&
  (match c.pwr.arm with | some x => x.at_ = 0 | none => true) && c.sec.armedAt.isNone &&
  (List.range 4).all fun j => !(c.tout j).armed

/-- TIME_NOW_SET (R181): the pair takes effect with the write of _LO, at the next time-unit cycle. -/
def Core.hTimeNowSet (c : Core) (a : Access) (v : Nat) : Core :=
  if !isPriv a then c
  else if !c.timeFree || !pairOk v then c.timeRej 0x90 v
  else { c with clk := { c.clk with setAt := some (pairN v (c.heldHi (pTime + 0x98)) * 2 ^ 16) } }

def execTimeNowSet (acc : Access) (v : Word64) (s : State) : Answer := coreStep (fun _ c => c.hTimeNowSet acc (wv v)) s

/-- FORD_CTRL: the tick period (R190). -/
def Core.hTickPeriod (c : Core) (a : Access) (v : Nat) : Core :=
  if !isPriv a then c else if c.timeFree then c.setF (pTime + 0xC0) 0 2 v else c.timeRej 0xC0 v

def execTickPeriodWrite (acc : Access) (v : Word64) (s : State) : Answer := coreStep (fun _ c => c.hTickPeriod acc (wv v)) s

/-! ### Pins -/

/-- The observation of an accepted edge (R374, R379, R397); `idx` is the pin index of R191. -/
def Core.pinObs (c : Core) (idx n : Nat) (level : Bool) : Obs :=
  let d := [BitVec.ofNat 8 idx, BitVec.ofNat 8 (b2n level), if level then 1 else 2] ++ toLe 13 0
  { kind := 5, tick := c.tickAt n, cls := 5, idx := idx, ts := n, rank := 1, rgn := 0, cell := 0, data := d, match_ := d, frame := 0,
    bad := false, final := some (n + nsN 12) }

/-- The regions that a source feeds by their binaries (R30). -/
def Core.fedBy (c : Core) (src tick : Nat) : List Nat :=
  (List.range 8).filter fun g => ((c.binFor g tick).map fun l => l.bin.sources.contains src).getD false

/-- A pin's event word (R187, R230, R397): SPEC, FRAME and the key fields are zero. -/
def Core.pinEvent (c : Core) (idx n : Nat) : Core :=
  let tick := c.tickAt n
  let src := 24 + idx
  let rs := c.fedBy src tick
  let word := toPayload (toLe 8 (5 * 2 ^ 17 + idx * 2 ^ 20) ++ toLe 8 (linear n) ++ toLe 8 tick)
  c.sendEvent { word := word, regions := rs, src := src, n := n, tick := tick, late := false, poison := false, msg := 0, delta := 0 }
    (toMask rs) 0

/-- Whether EDGE (01 rising, 10 falling) selects a change to a level. -/
def edgeWanted (edge : Nat) (level : Bool) : Bool := bit edge (if level then 0 else 1)

/-- TIN_CFG of a pin. -/
def aTin (i : Nat) : Nat := pTime + 0x580 + 8 * i

/-- An edge enters its pin's FIFO of 16, or is dropped (R187). -/
def Core.tinPush (c : Core) (i n : Nat) (level : Bool) : Core :=
  let f := Store.get c.pins.tinFifo [] i
  if 16 ≤ f.length then { c with pins := { c.pins with tinOvf := insertNat i c.pins.tinOvf } }
  else
    let e : Stamp := ⟨n, b2n level, c.pins.tinOvf.contains i⟩
    { c with pins := { c.pins with tinFifo := Store.set c.pins.tinFifo [] i (f ++ [e]), tinOvf := c.pins.tinOvf.filter (· ≠ i) } }

/-- The offset of an instant from the nearest whole second, in [-0.5 s, 0.5 s) (R188). -/
def ppsOff (n : Nat) : Int :=
  let s := 10 ^ 9 * 2 ^ 16
  let r := n % s
  if s / 2 ≤ r then (r : Int) - s else r

/-- TIN_EDGE (R187, R188): the level and how long it held, in units of 0.125 ns, are the pin's; an edge is accepted once it has
held for 4 ns, and shorter pulses are counted. The sampler has eight phases, so the edge is placed on an eighth of the time-unit
cycle. -/
def Core.tinEdge (c : Core) (i phi : Nat) (level : Bool) (held : Nat) : Core :=
  let a := aTin i
  if Store.get c.pins.tin false i = level then c
  else if held < 32 then (if c.getB a 0 then c.bump (pTime + 0x5E0 + 8 * i) else c)
  else
    let c := { c with pins := { c.pins with tin := Store.set c.pins.tin false i level } }
    if !c.getB a 0 then c
    else
      let n := adjust (c.at_ (phi / 2 ^ 13 * 2 ^ 13)) (signed 32 (c.getF a 32 32))
      let c := if i = 0 ∧ level ∧ c.getB a 4 then (c.wr (pTime + 0x600) (unsigned 47 (ppsOff n) + 2 ^ 47)).mark (pTime + 0x600) (2 ^ 47) else c
      if !edgeWanted (c.getF a 1 2) level then c
      else
        let c := (c.tinPush i n level).observe (c.pinObs (8 + i) n level)
        if c.getB a 3 then c.pinEvent (8 + i) n else c

def execTinEdge (i phi : Nat) (level : Bool) (held : Nat) (s : State) : Answer := coreStep (fun _ c => c.tinEdge i phi level held) s

/-- Latch a register's value for a later read. -/
def Core.latch (c : Core) (a v : Nat) : Core := { c with latched := Store.set c.latched 0 a (BitVec.ofNat 64 v) }

/-- What a read of TIN_TS_LO shows. -/
def Core.tinLo (c : Core) (i : Nat) : Nat := ((Store.get c.pins.tinFifo [] i).head?.map fun e => timeLo e.n).getD 0

/-- TIN_TS_POP (R209): a read of TIN_TS_LO takes the oldest entry and latches _HI. -/
def Core.tinPop (c : Core) (i : Nat) : Core :=
  let hi := pTime + 0x5A8 + 0x10 * i
  match Store.get c.pins.tinFifo [] i with
  | [] => c.latch hi 0
  | e :: t =>
    { c with pins := { c.pins with tinFifo := Store.set c.pins.tinFifo [] i t } }.latch hi
      (timeHi e.n + 2 ^ 48 + e.info % 2 * 2 ^ 49 + b2n e.ovf * 2 ^ 50)

def execTinTsPop (i : Nat) (s : State) : Answer := coreStep (fun _ c => c.tinPop i) s

/-! ### TOUT -/

/-- TOUT_CTRL of an output. -/
def aTout (j : Nat) : Nat := pTime + 0x500 + 0x20 * j

/-- The instant of edge k, placed on the grid of 0.125 ns (R189). -/
def Tout.edgeAt (t : Tout) (k : Nat) : Nat := (t.start + k * t.period) / 2 ^ 13 * 2 ^ 13

/-- Arm an output (R189): edges whose instant has passed are skipped. -/
def Core.armTout (c : Core) (j mode width : Nat) : Core :=
  let a := aTout j
  let s := pairN (c.rd a) (c.rd (a + 8))
  let p := c.getF (a + 0x10) 0 46
  let pN := p / 2 ^ 16 * 2 ^ 16 + p % 2 ^ 16
  let old := c.tout j
  let t : Tout := { old with start := s, period := pN, width := width, mode := mode, next := 0,
                             level := old.pulseEnd.isSome ≠ c.getB (a + 0x18) 2 }
  if mode = 0 then c.setTout j t
  else if c.now ≤ t.edgeAt 0 then c.setTout j t
  else
    let c := c.raiseF (a + 0x18) 35
    if mode = 1 then c.setTout j { t with mode := 0 }
    else
      let k := (c.now - s) / max 1 pN
      let k := if c.now ≤ t.edgeAt k then k else k + 1
      c.setTout j { t with next := k }

/-- TOUT_CTRL (R189): MISSED, a field of both views, is cleared by a one; a privileged write with a width or a period out of range is ignored
as a whole. MODE 3 is reserved and is rejected as well. -/
def Core.hTout (c : Core) (a : Access) (j v : Nat) : Core :=
  let r := aTout j + 0x18
  let miss := v / 2 ^ 35
  if !isPriv a then c.clearF r 35 1 miss
  else
    let mode := v % 4
    let w := v / 8 % 2 ^ 32
    let p := c.getF (aTout j + 0x10) 0 46
    if w < 2 ∨ mode = 3 ∨ (mode = 2 ∧ (p < nsN 8 ∨ p < nsN (w + 2))) then c.timeRej (0x518 + 0x20 * j) v
    else (((c.clearF r 35 1 miss).setF r 0 3 v).setF r 3 32 w).armTout j mode w

def execToutArm (acc : Access) (j : Nat) (v : Word64) (s : State) : Answer := coreStep (fun _ c => c.hTout acc j (wv v)) s

/-- TOUT_EDGE (R189): the next edge's instant has come; each edge is emitted once. A pulse drives the level that POL does not name
(R209). -/
def Core.toutEdge (c : Core) (j : Nat) : Core :=
  let t := c.tout j
  let n := t.edgeAt t.next
  if !t.armed || c.now < n then c
  else
    let t' : Tout := { t with next := t.next + 1, mode := if t.mode = 1 then 0 else t.mode, level := !c.getB (aTout j + 0x18) 2,
                              pulseEnd := some (n + nsN t.width) }
    (c.setTout j t').emit (.edge j t'.level n)

def execToutEdge (j : Nat) (s : State) : Answer := coreStep (fun _ c => c.toutEdge j) s

/-- TOUT_PULSE_END (R189). -/
def Core.toutPulseEnd (c : Core) (j : Nat) : Core :=
  let t := c.tout j
  match t.pulseEnd with
  | some e => if c.now < e then c else (c.setTout j { t with level := c.getB (aTout j + 0x18) 2, pulseEnd := none }).emit (.edge j (c.getB (aTout j + 0x18) 2) e)
  | none => c

def execToutPulseEnd (j : Nat) (s : State) : Answer := coreStep (fun _ c => c.toutPulseEnd j) s

/-- TOUT_START_LO takes effect with the held _HI (R176). -/
def Core.hToutStart (c : Core) (a : Access) (j v : Nat) : Core :=
  let r := aTout j
  if !isPriv a then c
  else if !pairOk v then c.timeRej (0x500 + 0x20 * j) v
  else (((c.setF r 0 16 v).setF r 16 30 (v / 2 ^ 16)).setF (r + 8) 0 48 (c.heldHi (r + 8))).showHi (r + 8) none

/-! ### The valley epoch and launches -/

/-- VALLEY_EPOCH (R200): rejected while anything is armed by valley count. -/
def Core.hEpoch (c : Core) (a : Access) (v : Nat) : Core :=
  if !isPriv a then c
  else if !c.pins.launchArmed.isEmpty || c.key.pub.isSome || !c.key.pubArmed.isEmpty || c.sec.armedAt.isSome ||
      (match c.pwr.arm with | some x => x.at_ ≠ 0 | none => false) || v % 2 ^ 16 ≠ 0 || !pairOk v then c.timeRej 0x620 v
  else ((c.setF (pTime + 0x620) 16 30 (v / 2 ^ 16)).setF (pTime + 0x628) 0 48 (c.heldHi (pTime + 0x628))).showHi (pTime + 0x628) none

def execValleyEpochWrite (acc : Access) (v : Word64) (s : State) : Answer := coreStep (fun _ c => c.hEpoch acc (wv v)) s

/-- A launch that does not take place (R203). -/
def Core.launchMissed (c : Core) : Core := (c.raiseF aTStat 2).event pTime 9

/-- LAUNCH_AT (R202, R203, R474): a nonzero write arms, a write of 0 disarms. -/
def Core.hLaunchAt (c : Core) (a : Access) (g v : Nat) : Core :=
  if !isPriv a then c
  else if v = 0 then
    { c.wr (pTime + 0x100 + 8 * g) 0 with pins := { c.pins with launchArmed := c.pins.launchArmed.filter (· ≠ g) } }
  else if v ≤ c.valley then c.launchMissed
  else { c.wr (pTime + 0x100 + 8 * g) v with pins := { c.pins with launchArmed := insertNat g c.pins.launchArmed } }

def execLaunchAtWrite (acc : Access) (g : Nat) (v : Word64) (s : State) : Answer := coreStep (fun _ c => c.hLaunchAt acc g (wv v)) s

/-- Restart what a launch restarts in the cells of a region (R53, R119, R170, R343, R548). -/
def Core.restartCells (c : Core) (g : Nat) : Core :=
  let keep := fun k : Nat => c.cellRgn k ≠ g
  { c with fab := { c.fab with gens := c.fab.gens.filter (fun e => keep (e.1 / 8)), ctrs := c.fab.ctrs.filter (fun e => keep (e.1 / 8)),
                               phases := c.fab.phases.filter (fun e => keep (e.1 / 2 ^ 19)), digs := c.fab.digs.filter (fun e => keep (e.1 / 8)),
                               written := c.fab.written.filter fun k => keep (k / 2048) } }

/-- Launch a region (R202, R334): its schedule count, tags, generators and latency registers restart; the events of ticks
before its first are not taken. -/
def Core.launchRgn (c : Core) (g g0 first : Nat) : Core :=
  let c := (c.restartCells g).resolveAll g
  let old := fun (e : FordEv) => if e.tick < first then { e with regions := e.regions.filter (· ≠ g) } else e
  let c := { c with ford := { c.ford with buf := (c.ford.buf.map old).filter fun (e : FordEv) => e.regions ≠ [] } }
  let c := c.modRgn g fun r =>
    { r with phase := .running, faultKind := 0, sched := 0, stall := [], stallLen := 0, stallFc := 0, g0 := g0, firstTick := first,
             admitted := 0, relSlot := 0, relPos := 0, relCount := 0, heldAt := 0, lateAt := 0, latePrev := 0, egressClosed := false, iters := [],
             sect := 0, cursor := none, swapHold := none, swapNext := none, pendSect := [], setFrom := none }
  let a := pRgn g
  (((c.wr (a + 0x110) (2 ^ 48 - 1)).wr (a + 0x118) 0).wr (a + 0x120) 0).wr (a + 0x128) 0

/-- Whether a region is loaded and idle, and the device neither frozen nor paused (R203, R501, R512). -/
def Core.launchable (c : Core) (g : Nat) : Bool :=
  let r := c.rgn g
  r.phase = .idle && (r.bin r.set).isSome && c.fabricOn && !c.inReset && c.sec.restart.isNone

/-- LAUNCH of region g at its valley count (R202, R203). A region that TIME_BAR_CTRL.REGIONS names launches at a barrier instead (R206): its
count then only disarms. -/
def Core.launch (c : Core) (g : Nat) : Core :=
  let v := c.rd (pTime + 0x100 + 8 * g)
  if !c.pins.launchArmed.contains g || !c.valleyDue v then c
  else
    let first := c.launchTick g
    let c' := { c with pins := { c.pins with launchArmed := c.pins.launchArmed.filter (· ≠ g) } }
    if c.barNames g then c'
    else if c.launchable g then c'.launchRgn g (nsN (c.epoch + v)) first else c'.launchMissed

def execLaunch (g : Nat) (s : State) : Answer := coreStep (fun _ c => c.launch g) s

/-! ### Time markers (R205) -/

/-- A lane. -/
def Core.lane (c : Core) (l : Nat) : Lane := Store.get c.lanes Lane.off l
def Core.setLane (c : Core) (l : Nat) (x : Lane) : Core := { c with lanes := Store.set c.lanes Lane.off l x }
/-- A lane's registers (R372). -/
def aLane (l : Nat) : Nat := pPass + 0x100 + 0x80 * l
/-- A lane's mode: 0 Stream, 1 Link, 2 Time. -/
def Core.laneMode (c : Core) (l : Nat) : Nat := c.getF (aLane l) 1 2

/-- The special symbols (R356) by their 8b/10b character, as the model records what a lane sends. -/
def kMarker : Byte := 0x3C
def kBarrier : Byte := 0x7C
def kStart : Byte := 0xFB
def kEnd : Byte := 0xFD

/-- An instant in the form of a marker's fields: valley count times 2^16 and the fraction. -/
def Core.valleyForm (c : Core) (n : Nat) : Nat :=
  let e := nsN c.epoch
  if n < e then n % 2 ^ 16 else n - e

/-- TIME_MARKER_SEND: once in every 2^PLOG ns of the valley count (also after a write of the epoch or of time has moved the
count back), on a lane in Time mode that is UP. -/
def Core.markerSend (c : Core) (l phi : Nat) : Core :=
  let x := c.lane l
  let p := c.getF (pTime + 0x230) 0 5
  let n := adjust (c.at_ phi) (signed 32 (c.getF (pTime + 0x240 + 8 * l) 32 32))
  let v := c.valleyForm n
  let due := match x.mkT1 with | some t => t / 2 ^ 16 / 2 ^ p ≠ v / 2 ^ 16 / 2 ^ p | none => true
  if c.laneMode l ≠ 2 ∨ c.laneState l ≠ 3 ∨ !due then c
  else
    let seq := x.mkSeq % 256
    let b := toLe 10 v ++ toLe 10 x.mkRx ++ [BitVec.ofNat 8 seq, BitVec.ofNat 8 x.mkRseq]
    (c.setLane l { x with mkSeq := (x.mkSeq + 1) % 256, mkT1 := some v }).emit (.lane l (kMarker :: (b ++ [crc8 b])))

def execTimeMarkerSend (l phi : Nat) (s : State) : Answer := coreStep (fun _ c => c.markerSend l phi) s

/-- TIME_MARKER_RECEIVE: a K28.1 counts as a code violation outside Time mode (R355, R356); a marker with a bad CHECK or a code violation is discarded; one that answers the last marker sent
latches an exchange. -/
def Core.markerReceive (c : Core) (l phi : Nat) (rx : LaneChars) : Core :=
  let b := rx.chars
  let n := rx.viol + b2n (c.laneMode l ≠ 2)
  let c := if 16 ≤ l || c.laneState l < 2 then c else c.bumpBy (aLane l + 0x40) n
  if c.laneMode l ≠ 2 ∨ c.laneState l ≠ 3 ∨ rx.viol ≠ 0 ∨ b.length ≠ 23 ∨ b.drop 22 ≠ [crc8 (b.take 22)] then c
  else
    let x := c.lane l
    let n := adjust (c.at_ phi) (signed 32 (c.getF (pTime + 0x240 + 8 * l) 0 32))
    let t4 := c.valleyForm n
    let c := c.setLane l { x with mkRx := t4 % 2 ^ 80, mkRseq := fld b 20 1 }
    match x.mkT1 with
    | some t1 =>
      if fld b 21 1 = (x.mkSeq + 255) % 256 then
        let a := pTime + 0x300 + 0x20 * l
        (((c.wr a (t1 % 2 ^ 64)).wr (a + 8) (fld b 10 10 % 2 ^ 64)).wr (a + 16) (fld b 0 10 % 2 ^ 64)).wr (a + 24) (t4 % 2 ^ 64)
      else c
    | none => c

def execTimeMarkerReceive (l phi : Nat) (rx : LaneChars) (s : State) : Answer := coreStep (fun _ c => c.markerReceive l phi rx) s

/-- TIME_MKR_CFG: PLOG outside 16 to 24 is rejected (R209). -/
def Core.hMkrCfg (c : Core) (a : Access) (v : Nat) : Core :=
  if !isPriv a then c
  else if v % 32 < 16 ∨ 24 < v % 32 then c.reject pTime 0x230 v
  else (c.setF (pTime + 0x230) 0 5 v).setF (pTime + 0x230) 5 4 (v / 32)

/-! ### The barrier (R206) -/

/-- TIME_BAR_CTRL and TIME_BAR_STAT. -/
def aBar : Nat := pTime + 0x610
def aBarStat : Nat := pTime + 0x618

/-- Send a K28.3 on each lane of a mask. -/
def Core.sendBarrier (c : Core) (mask : Nat) : Core := (maskBits 16 mask).foldl (fun c l => c.emit (.lane l [kBarrier])) c

/-- Release: send on every downstream lane and launch HOLD fc later. -/
def Core.barRelease (c : Core) : Core :=
  let c := (c.sendBarrier (c.getF aBar 1 16)).setF aBarStat 0 2 3
  { c.setF aBar 0 1 0 with pins := { c.pins with barDue := some (c.clk.fc + c.getF aBar 18 16) } }

/-- Once armed with a K28.3 from every lane in LANES: a follower sends one upstream, and the master has gathered (state 0x2). -/
def Core.barProgress (c : Core) : Core :=
  let want := c.getF aBar 1 16
  if c.getF aBarStat 0 2 = 1 ∧ c.getF aBarStat 2 16 &&& want = want then
    let c := c.setF aBarStat 0 2 2
    if c.getB aBar 17 then c else c.sendBarrier (2 ^ c.getF (pTime + 0x230) 5 4)
  else c

/-- A master that has gathered releases in the fabric cycle that follows. DESIGN CHOICE (log 82): R206 does not say which cycle is n0. -/
def Core.barMaster (c : Core) : Core := if c.getF aBarStat 0 2 = 2 ∧ c.getB aBar 17 then c.barRelease else c

/-- TIME_BAR_CTRL. -/
def Core.hBarrier (c : Core) (a : Access) (v : Nat) : Core :=
  if !isPriv a then c
  else
    let c := (((c.setF aBar 1 16 (v / 2)).setF aBar 17 1 (v / 2 ^ 17)).setF aBar 18 16 (v / 2 ^ 18)).setF aBar 34 8 (v / 2 ^ 34)
    let st := c.getF aBarStat 0 2
    if bit v 0 && (st = 0 || (st = 3 && c.pins.barDue.isNone)) then ((c.setF aBar 0 1 1).setF aBarStat 0 2 1).barProgress else c

def execBarrierArm (acc : Access) (v : Word64) (s : State) : Answer := coreStep (fun _ c => c.hBarrier acc (wv v)) s

/-- BARRIER_TOKEN_RECEIVE: from a downstream lane it means armed, on a follower's uplink it means release. -/
def Core.barrierToken (c : Core) (l : Nat) : Core :=
  let up := l = c.getF (pTime + 0x230) 5 4 && !c.getB aBar 17
  if c.laneState l < 2 then c
  else if up then (if c.getF aBarStat 0 2 = 1 ∨ c.getF aBarStat 0 2 = 2 then c.barRelease else c)
  else if c.getB aBar (1 + l) then (c.setF aBarStat (2 + l) 1 1).barProgress
  else c

def execBarrierTokenReceive (l : Nat) (s : State) : Answer := coreStep (fun _ c => c.barrierToken l) s

/-- BARRIER_LAUNCH: HOLD fc after the release, every region named; the first tick is that of the launch instant (R206, R334). -/
def Core.barrierLaunch (c : Core) : Core :=
  match c.pins.barDue with
  | none => c
  | some d =>
    if c.clk.fc < d then c
    else
      let t := c.now / nsN c.tickP
      let rs := maskBits 8 (c.getF aBar 34 8)
      let c := rs.foldl (fun c g => if c.launchable g then c.launchRgn g (t * nsN c.tickP) (t % 2 ^ 64) else c.launchMissed) c
      { c.setF aBarStat 2 16 0 with pins := { c.pins with barDue := none } }

def execBarrierLaunch (s : State) : Answer := coreStep (fun _ c => c.barrierLaunch) s

/-! ### PTP (R208) -/

/-- Whether a logical port is free for a frame of the control complex: no template frame waits or is in progress (R235). -/
def Core.portFree (c : Core) (lp : Nat) : Bool :=
  c.lpUp lp && (c.queue lp).isEmpty && (Store.get c.comp.inProg [] lp).isEmpty && Store.get c.comp.free 0 lp ≤ c.now

/-- Add to the correctionField of the PTP header at `o`. -/
def addCorrection (o d : Nat) (b : List Byte) : List Byte := splice b (o + 8) (toBe 8 ((beNat (slice b (o + 8) 8) + d) % 2 ^ 64))

/-- A two-step departure timestamp enters its FIFO of 16, or is lost. -/
def Core.txtsPush (c : Core) (n seq lp : Nat) : Core :=
  if 16 ≤ c.pins.txts.length then { c with pins := { c.pins with txtsOvf := true } }
  else { c with pins := { c.pins with txts := c.pins.txts ++ [⟨n, seq + lp * 2 ^ 16, c.pins.txtsOvf⟩], txtsOvf := false } }

/-- PTP_TRANSMIT: the frame crosses the reference plane 32 ns after the composer sends it (R208, R212; D_tx of R185 lies within that
time). Kind 0 a one-step Sync, 1 a one-step Pdelay_Resp, 2 a two-step frame, others without a timestamp. `l3`: the
offset of an IP header whose UDP checksum is computed, `o` that of the PTP header, `rx` the request's receive timestamp. -/
def Core.ptpTransmit (c : Core) (lp phi kind : Nat) (l3 : Option Nat) (rx o : Nat) (b : List Byte) : Core :=
  let t := adjust (c.at_ phi + nsN 32) (signed 32 (c.getF (pTime + 0x210) 32 32))
  if !c.portFree lp then c
  else
    let b' :=
      if kind = 0 then addCorrection o (t % 2 ^ 16) (splice b (o + 34) (toBe 6 (timeHi t) ++ toBe 4 (t / 2 ^ 16 % 10 ^ 9)))
      else if kind = 1 then addCorrection o (unsigned 64 ((t : Int) - rx)) b
      else b
    let b' := match l3 with | some l => udpSum (((slice b l 1).headD 0).toNat / 16 = 6) l b' | none => b'
    let c := if kind = 2 then c.txtsPush t (beNat (slice b (o + 30) 2)) lp else c
    let c := { c with comp := { c.comp with free := Store.set c.comp.free 0 lp (c.now + c.lineSlot b.length) } }
    c.emit (.frame lp (b' ++ fcsBytes false b') false t)

def execPtpTransmit (lp phi : Nat) (kind : Nat) (l3 : Option Nat) (rxTime : Nat) (ptpOff : Nat) (bytes : List Byte) (s : State) :
    Answer := coreStep (fun _ c => c.ptpTransmit lp phi kind l3 rxTime ptpOff bytes) s

/-- What a read of TIME_TXTS_LO shows. -/
def Core.txtsLo (c : Core) : Nat := (c.pins.txts.head?.map fun e => timeLo e.n).getD 0

/-- TXTS_POP (R209): a read of TIME_TXTS_LO takes the oldest entry and latches _HI and _INFO. -/
def Core.txtsPop (c : Core) : Core :=
  match c.pins.txts with
  | [] => (c.latch (pTime + 0x220) 0).latch (pTime + 0x228) 0
  | e :: t =>
    ({ c with pins := { c.pins with txts := t } }.latch (pTime + 0x220) (timeHi e.n)).latch (pTime + 0x228)
      (e.info % 2 ^ 19 + 2 ^ 19 + b2n e.ovf * 2 ^ 20)

def execTxtsPop (s : State) : Answer := coreStep (fun _ c => c.txtsPop) s

end Sys2Proof.Machine
end

