-- ==== Sys2Proof/Machine/Regions.lean ====
section
/-! DEFINITION. The commands of regions: drain, resume, halt and reset (R85, R86, R92), meadows between regions (R77, R78),
sections and the reload of their slots (R64, R87 to R89), and the converters' configuration (R144, R146, R148). -/

namespace Sys2Proof.Machine

/-! ### MDW_RGN_CTRL (R92) -/

/-- DRAIN: a running region begins to drain; in any other state it has no effect (R85). -/
def Core.drain (c : Core) (g : Nat) : Core :=
  if (c.rgn g).phase = .running then c.modRgn g fun r => { r with phase := .draining } else c

/-- RESUME: a drained region none of whose meadows is lent admits again (R78, R86). The manual does not say what a RESET_RGN that waits for
the last record then does: it stays pending and takes effect with the last record (DESIGN CHOICE, log 86). -/
def Core.resume (c : Core) (g : Nat) : Core :=
  if (c.rgn g).phase = .drained ∧ c.lent g = [] then c.modRgn g fun r => { r with phase := .running } else c

/-- HALT: at once, with kind 0 and the record at cell 0 of the anchor. -/
def Core.haltCmd (c : Core) (g m : Nat) : Core := c.haltRgn g m (256 * m) 0 0 false 0

/-- A write of MDW_RGN_CTRL in meadow m's page: it acts on the region that m anchors, and is ignored in every other page. Of several bits
set in one write the manual states no order: DRAIN, RESUME, HALT and RESET_RGN act in this order, that of their bits (DESIGN CHOICE, log 86). -/
def Core.hRgnCtrl (c : Core) (a : Access) (m v : Nat) : Core :=
  match c.anchored m with
  | none => c
  | some g =>
    if !isPriv a then c
    else
      let c := if bit v 0 then c.drain g else c
      let c := if bit v 1 then c.resume g else c
      let c := if bit v 2 then c.haltCmd g m else c
      if bit v 3 then c.resetRgn g else c

def execDrain (acc : Access) (m : Nat) (s : State) : Answer := coreStep (fun _ c => c.hRgnCtrl acc m 1) s
def execResume (acc : Access) (m : Nat) (s : State) : Answer := coreStep (fun _ c => c.hRgnCtrl acc m 2) s
def execHalt (acc : Access) (m : Nat) (s : State) : Answer := coreStep (fun _ c => c.hRgnCtrl acc m 4) s
def execResetRgn (acc : Access) (m : Nat) (s : State) : Answer := coreStep (fun _ c => c.hRgnCtrl acc m 8) s

/-- Whether every admitted iteration has left its output TAP, and the region's stores, latches and routes are empty (R85), the queues of
KEY cells, which take the place of latches (R255), among them. -/
def Core.drainedNow (c : Core) (g : Nat) : Bool :=
  let r := c.rgn g
  let run := r.iters.all fun i => match r.bin i.set with | some l => i.relSched + l.bin.report.lat ≤ r.sched | none => true
  r.stall.isEmpty && run && c.fab.fly.all (fun f => f.rgn ≠ g) && c.fab.delays.all (fun (d : Delayed) => d.rgn ≠ g) &&
    c.fab.held.all fun e => c.cellRgn (e.1 / 4) ≠ g

/-- DRAIN_COMPLETE (R85). -/
def Core.drainComplete (c : Core) (g : Nat) : Core :=
  if (c.rgn g).phase = .draining ∧ c.fabricOn ∧ c.drainedNow g then
    (c.modRgn g fun r => { r with phase := .drained }).onQuiet g
  else c

def execDrainComplete (g : Nat) (s : State) : Answer := coreStep (fun _ c => c.drainComplete g) s

/-! ### MDW_REGION (R77, R78, R90) -/

/-- Whether a region lets a meadow go or takes one: a standing region that is idle or drained; the task pool, when no task or slice
holds the meadow. -/
def Core.mayMove (c : Core) (m g : Nat) : Bool :=
  if g < 8 then (c.rgn g).quiet else !c.task.holders.any fun e => e.1 = m

/-- A write of MDW_REGION: rejected with a class C error when a region is not quiet, the number is 0x8 to 0xE, or
the meadow is not enabled (R458). A write of the number it holds moves nothing, and the manual does not say whether R77 refuses it in a
running region: it is rejected as any other (DESIGN CHOICE, log 87). -/
def Core.hMeadow (c : Core) (a : Access) (m v : Nat) : Core :=
  let old := c.rgnField m
  let new := v % 16
  if !isPriv a || !(m < c.meadows) then c
  else if (8 ≤ new ∧ new ≤ 14) ∨ !c.en (pMdw m) ∨ !c.mayMove m old ∨ !c.mayMove m new then c.reject (pMdw m) 0x80 v
  else c.setF (pMdw m + 0x80) 0 4 new

def execMeadowMove (acc : Access) (m : Nat) (v : Word64) (s : State) : Answer := coreStep (fun _ c => c.hMeadow acc m (wv v)) s

/-! ### Sections (R64, R87 to R89) -/

/-- The context slot of a section: its entry of the SECTION table, or slot 0 of the binary's set. -/
def secSlot (b : Binary) (i : Nat) : Nat :=
  ((b.section_.find? fun e => e.index = i).map (·.slot)).getD (4 * b2n b.report.set)

/-- The section that follows section i in a slot, in ascending order and around. -/
def nextIn (b : Binary) (i : Nat) : Nat :=
  let n := b.report.sections
  ((List.range n).find? fun k => secSlot b ((i + 1 + k) % n) = secSlot b i).map (fun k => (i + 1 + k) % n) |>.getD i

/-- The section a slot of a region holds or is being loaded with. -/
def Core.holding (c : Core) (g slot : Nat) : Nat := Store.get c.fab.holds 0 (g * 8 + slot)

/-- Begin the reload of a slot in every meadow of a region (R87). -/
def Core.reloadSlot (c : Core) (g slot sec : Nat) : Core :=
  let ks := (c.rgn g).meadows.map fun m => m * 8 + slot
  { c with fab := { c.fab with loaded := c.fab.loaded.filter (fun k => !ks.contains k),
                               loading := ks.foldl (fun l k => insertNat k l) c.fab.loading,
                               holds := Store.set c.fab.holds 0 (g * 8 + slot) sec } }

/-- A binary of more than 4 sections reloads the slot that it leaves with the section that comes there next. -/
def Core.reloadLeft (c : Core) (g slot : Nat) : Core :=
  match (c.rgn g).bin (4 ≤ slot) with
  | none => c
  | some l =>
    let cur := c.holding g slot
    let nxt := nextIn l.bin cur
    if l.bin.report.sections ≤ 4 ∨ nxt = cur then c else c.reloadSlot g slot nxt

/-- The meadows of a region whose slot is still being loaded, and those in which it is not loaded. -/
def Core.loadingIn (c : Core) (g slot : Nat) : List Nat := (c.rgn g).meadows.filter fun m => c.fab.loading.contains (m * 8 + slot)
def Core.unloadedIn (c : Core) (g slot : Nat) : List Nat := (c.rgn g).meadows.filter fun m => !c.fab.loaded.contains (m * 8 + slot)

/-- The anchor meadow of a region, standing or of a task. -/
def Core.anchorOf (c : Core) (g : Nat) : Nat := if g < 8 then (c.anchor g).getD 0 else (least (c.rgn g).meadows).getD 0

/-- A section switch of standing region g to a slot takes effect (R64). A slot outside the running set is a schedule fault, whose record
names cell 0 of the anchor with port and tag zero, as no cell met it; one that is not loaded is refused (R89), which is reported to the
host as an error of class C and code REJECT in the anchor's page, with MDW_CTX's offset and the slot (both DESIGN CHOICE, log 88). -/
def Core.sectionNow (c : Core) (g slot : Nat) : Core :=
  let r := c.rgn g
  let m := c.anchorOf g
  if slot / 4 ≠ b2n r.set then c.haltRgn g m (256 * m) 0 0 r.set 0x3
  else if c.unloadedIn g slot ≠ [] then c.reject (pMdw m) 0x88 slot
  else
    let old := slotOf r.set r.sect
    let c := c.setRgn g { r with sect := slot % 4 }
    if old ≠ slot then c.reloadLeft g old else c

/-- The first waiting switch of a region whose count has come takes effect (R64); while the reload of its slot has not finished it is an
overdue item, which stalls the region, and the switch waits (R88). -/
def Core.sectionDue (c : Core) (g : Nat) : Core :=
  let r := c.rgn g
  match r.pendSect.find? fun e => e.2 ≤ r.sched with
  | none => c
  | some e =>
    let late := c.loadingIn g e.1
    if !c.rgnLive g then c
    else if e.1 / 4 = b2n r.set ∧ late ≠ [] then c.beginStall g (late.map fun m => ⟨.ctx m, 0, r.set⟩)
    else (c.setRgn g { r with pendSect := r.pendSect.erase e }).sectionNow g e.1

/-- SECTION_SWITCH of standing region g to a slot at a region count (R64): it waits for that count. DESIGN CHOICE (log 94): a count
already past takes effect at once. What a switch to a slot outside the set records and reports is at Core.sectionNow (log 88). -/
def Core.sectionSwitch (c : Core) (g slot count : Nat) : Core :=
  if c.rgnMoves g || !(c.rgn g).stall.isEmpty then (c.modRgn g fun r => { r with pendSect := r.pendSect ++ [(slot, count)] }).sectionDue g
  else c

def execSectionSwitch (r : Nat) (next : SectionAt) (s : State) : Answer :=
  coreStep (fun _ c => if r < 8 then c.sectionSwitch r next.slot next.count else c) s

/-- Begin the current section of the SECTION task in table entry e once its slot is loaded in every meadow (R315, R316): the
switch to slot 4 × SET + ((s - FIRST) mod 4). Until then the task's meadows wait, and nothing counts as a stall. -/
def Core.taskBegin (c : Core) (e : Nat) : Core :=
  let t := Store.get c.task.table Task.free e
  let r := c.rgn (16 + e)
  let k := (t.sect - fld t.desc 40 2) % 4
  if t.st ≠ .running || fld t.desc 1 1 ≠ 1 || t.finish.isSome || r.phase ≠ .idle || r.meadows = [] then c
  else if c.unloadedIn (16 + e) (slotOf r.set k) ≠ [] then c
  else c.setRgn (16 + e) { r with phase := .running, sect := k, relSlot := r.sched }

/-- Write a weight slot's codes and descriptor (R103). -/
def putWeight (m : Mem) (w : WeightSlot) : Mem :=
  let a := aCell w.cell
  (m.store (a + 32 * w.slot) (slice w.codes 0 32)).store (a + 0x2000 + 8 * w.slot)
    (toLe 4 w.scale.toNat ++ toLe 2 w.zero.toNat ++ toLe 2 w.reserved.toNat)

/-- Forget what the per-slot tables of the cells of some meadows hold for a slot, so that generators, counters, phases and
windows start anew with the image (R119, R343). -/
def Core.clearSlot (c : Core) (ms : List Nat) (slot : Nat) : Core :=
  let keep := fun k : Nat => !(k % 8 = slot && ms.contains (k / 8 / 256))
  { c with fab := { c.fab with ctxs := c.fab.ctxs.filter (fun e => keep e.1), gens := c.fab.gens.filter (fun e => keep e.1),
                               ctrs := c.fab.ctrs.filter (fun e => keep e.1), phases := c.fab.phases.filter (fun e => keep (e.1 / 2 ^ 16)),
                               digs := c.fab.digs.filter (fun e => keep e.1), ctxBad := c.fab.ctxBad.filter keep } }

/-- Write the images of a binary's section into a slot of some of its meadows, with the weight slots that `ok` names; contexts the
binary does not name are idle (R150). -/
def putSection (m : Mem) (c : Core) (b : Binary) (sec slot : Nat) (ms : List Nat) (ok : WeightSlot → Bool) : Mem × Core :=
  let here := fun cell : Nat => ms.contains (cell / 256)
  let m := (b.weights.filter fun w => w.section_ = sec && here w.cell && ok w).foldl putWeight m
  let cx := (b.images.filter fun i => i.section_ = sec).flatMap (·.ctxs)
  let c := c.clearSlot ms slot
  let t := (cx.filter fun e => here e.1).foldl (fun t e => Store.set t ⟨.idle, [], []⟩ (e.1 * 8 + slot) e.2) c.fab.ctxs
  let ks := ms.map fun m => m * 8 + slot
  (m, { c with fab := { c.fab with ctxs := t, loaded := ks.foldl (fun l k => insertNat k l) c.fab.loaded,
                                   loading := c.fab.loading.filter fun k => !ks.contains k } })

/-- Whether the switch that a region waits with names a slot. -/
def Rgn.waitsFor (r : Rgn) (slot : Nat) : Bool :=
  match r.pendSect.find? fun e => e.2 ≤ r.sched with | some e => e.1 = slot | none => false

/-- SLOT_RELOAD_DONE (R87, R88): meadow m's image of a slot is complete; it is no overdue item any more. `bad`: cells whose context has
an uncorrectable word (R57). -/
def slotReloadDone (m : Mem) (c : Core) (md slot : Nat) (bad : List Nat) : Mem × Core :=
  let g := c.rgnOf md
  if !c.fab.loading.contains (md * 8 + slot) then (m, c)
  else match (c.rgn g).bin (4 ≤ slot) with
    | none => (m, c)
    | some l =>
      let sec := c.holding g slot
      let r := putSection m c l.bin sec slot [md] fun _ => true
      let n := 131072 + 40 * (l.bin.weights.filter fun w => w.section_ = sec && w.cell / 256 = md).length
      let far := l.bin.section_.any fun e => e.index = sec && e.lpddr
      let c := if far then r.2.bumpBy (pLpm + 0x100 + 8 * (if g < 8 then 1 else 4)) n else r.2
      let ks := (bad.filter fun n => cellMeadow n = md).map fun n => n * 8 + slot
      let c := { c with fab := { c.fab with ctxBad := c.fab.ctxBad ++ ks } }
      let c := if (c.rgn g).waitsFor slot then c.itemDone g fun o => o.src = .ctx md else c
      (r.1, if 16 ≤ g then c.taskBegin (g - 16) else c.sectionDue g)

def execSlotReloadDone (md : Nat) (img : SlotReload) (s : State) : Answer :=
  devStep (fun m c => slotReloadDone m c md img.slot img.bad) s

/-! ### Converters (R144, R146, R148) -/

/-- MDW_CONV_CFG: a write restarts the window; WIN outside 10 to 40 keeps its value. -/
def Core.hConv (c : Core) (a : Access) (m k v : Nat) : Core :=
  let r := aConv m k + 0x18
  let w := v / 2 ^ 16 % 64
  if !isPriv a || !(m < c.meadows) then c
  else
    let c := c.setF r 0 16 v
    let c := if 10 ≤ w ∧ w ≤ 40 then c.setF r 16 6 w else c
    let c := c.setConvWin m k ConvWin.empty
    if bit v 22 then c.convClr m k else c

def execConvCfgWrite (acc : Access) (m k : Nat) (v : Word64) (s : State) : Answer := coreStep (fun _ c => c.hConv acc m k (wv v)) s

/-- CONV_CLR: a write of the register that sets CLR and leaves the other fields as they are. -/
def execConvClr (acc : Access) (m k : Nat) (s : State) : Answer :=
  coreStep (fun _ c => c.hConv acc m k (setBits (c.rd (aConv m k + 0x18)) 22 1 1)) s

end Sys2Proof.Machine
end

