-- ==== Sys2Proof/Machine/Loader.lean ====
section
/-! DEFINITION. The loader (R157 to R160): the checks of a binary in the order of R160, the digest ids (R341), and what a load
writes (R150, R151, R295, R299, R338). -/

namespace Sys2Proof.Machine

/-! ### The checks of R160 -/

/-- Whether the device is of stepping B0 (R473). -/
def Core.isB0 (c : Core) : Bool := c.getF 0x80 8 8 = 0xB0

/-- 0x01 FORMAT: MAGIC, and major 1 in VER_MASK (R159). -/
def badFormat (r : Report) : Bool := r.magic ≠ 0x76746D70 || !bit r.verMask 1

/-- 0x02 TABLE (R173). -/
def Core.badTable (c : Core) (r : Report) : Bool := !(r.tableId = 1 || (r.tableId = 2 && c.isB0))

/-- 0x03 GRADE. -/
def Core.badGrade (c : Core) (b : Binary) : Bool :=
  b.report.meadows.any (fun m => c.meadows ≤ m) || (match b.keyMap with | some k => (kmVaults k).any (fun m => c.meadows ≤ m) | none => false)

/-- Whether a token of a set remains in a region (R300), or an event that will run under it. -/
def Core.tokensOf (c : Core) (g : Nat) (set : Bool) : Bool :=
  (match (c.rgn g).setFrom with
   | some (t, s) => s = set && c.eventOf g t
   | none => false) ||
  c.fab.fly.any (fun f => f.rgn = g && f.tok.set = set) || c.fab.delays.any (fun (d : Delayed) => d.rgn = g && d.tok.set = set) ||
  c.fab.held.any fun e => c.cellRgn (e.1 / 4) = g && e.2.any fun h => h.tok.set = set

/-- 0x04 REGION for a standing binary: its meadows are enabled and in its region; the region is idle or drained, or runs another
set; no token of the set remains. -/
def Core.badRegion (c : Core) (b : Binary) : Bool :=
  let g := b.report.region
  let r := c.rgn g
  let busy := if (r.bin b.report.set).isSome || (r.bin (!b.report.set)).isSome then b.report.set = r.set else false
  7 < g || !b.report.standing || b.report.meadows.any (fun m => c.rgnField m ≠ g || !c.en (pMdw m)) ||
    r.phase = .halted || (!r.quiet && busy) || c.tokensOf g b.report.set

/-- 0x04 REGION for a task binary: its meadows are in the task pool, enabled and not lent (R78, R314). -/
def Core.badPool (c : Core) (b : Binary) : Bool :=
  b.report.region ≠ 0xF || b.report.standing || b.report.meadows.any fun m =>
    c.rgnField m ≠ 0xF || !c.en (pMdw m) || (List.range 8).any fun g => (c.rgn g).meadows.contains m

/-- Whether two MEM ranges share a byte. -/
def memClash (x y : MemEntry) : Bool := x.cell = y.cell && x.base < y.limit && y.base < x.limit

/-- Whether two weight ranges share a slot. -/
def wgtClash (x y : WeightEntry) : Bool := x.cell = y.cell && x.first < y.first + y.count && y.first < x.first + x.count

/-- Whether two binaries share a vault slot or a route slot. -/
def slotClash (x y : Binary) : Bool :=
  (x.vault.any fun e => y.vault.any fun f => e.meadow = f.meadow && (e.maskA &&& f.maskA ≠ 0 || e.maskB &&& f.maskB ≠ 0)) ||
  x.tracks.any fun t => y.tracks.contains t

/-- The rota entries of refresh in a binary's class (R405). -/
def refreshMask (b : Binary) : Word32 := if b.report.hotClass then 0x80008000#32 else 0x80000000#32

/-- The active binary that a binary names as co-resident (R297). -/
def Core.partner (c : Core) (g : Nat) (b : Binary) : Option Loaded :=
  let r := c.rgn g
  (r.bin r.set).bind fun l =>
    if b.report.coresident ≠ 0 ∧ b.report.coresident = l.prog ∧ b.report.set ≠ r.set then some l else none

/-- 0x05 SLOT: a track slot that a switch records as another region's (R74), or a vault slot of another region's binary, a running
task's among them. -/
def Core.badSlot (c : Core) (g : Nat) (b : Binary) : Bool :=
  let rf := refreshMask b
  (b.vault.any fun e => e.maskA &&& rf ≠ 0 || e.maskB &&& rf ≠ 0) ||
  (b.tracks.any fun t => Store.get c.fab.owners 0 t ≠ 0 && Store.get c.fab.owners 0 t ≠ g + 1) ||
  (c.rgns.any fun e => e.1 ≠ g && e.2.bins.any fun l => match l with | some l => slotClash b l.bin | none => false) ||
  (match c.partner g b with
   | some l => slotClash b l.bin || (b.mem.any fun x => l.bin.mem.any (memClash x)) || (b.weight.any fun x => l.bin.weight.any (wgtClash x))
   | none => false)

/-- The bytes of vault that the rings and the bucket table take (R244). -/
def kmRingsEnd (k : KeyMap) : Nat := k.ringBase + kmLocals k * kmStride k
def kmTableEnd (k : KeyMap) : Nat := k.tableBase + 64 * 2 ^ k.blog

/-- Whether a key-map descriptor breaks R244. -/
def badKeyMap (k : KeyMap) : Bool :=
  kmVaults k = [] || 1 < k.kind || k.rsv ≠ 0 || k.n < 8 || 64 < k.n || k.eu < 1 || 4 < k.eu || 4 < k.pubWords ||
  (if kmExact k then k.blog < 10 || 16 < k.blog || k.tableBase % 64 ≠ 0 else k.blog ≠ 0) || k.ringBase % 64 ≠ 0 ||
  4096 < kmRingSize k || 2 ^ 27 < kmRingsEnd k ||
  (kmExact k && (2 ^ 27 < kmTableEnd k || (k.ringBase < kmTableEnd k && k.tableBase < kmRingsEnd k)))

/-- 0x06 LIMIT: the ranges of R157 and R158. -/
def badLimit (b : Binary) : Bool :=
  let r := b.report
  (if r.standing then r.lat < 1 || 32767 < r.lat else r.lat ≠ 0) || r.ii < 1 || 256 < r.ii || r.copies < 1 || 2 < r.copies ||
  r.sections < 1 || 4096 < r.sections || (b.port.any fun e => 16 < e.peak || e.w < 1 || 4095 < e.w) ||
  (b.scan.any fun e => e.n < 1 || 8192 < e.n) || (match b.keyMap with | some k => badKeyMap k | none => false)

/-- The contexts of a binary with their slots. -/
def ctxsOf (b : Binary) : List (Nat × Nat × Ctx) :=
  b.images.flatMap fun i => i.ctxs.map fun (e : Nat × Ctx) => (secSlot b i.section_, e.1, e.2)

/-- The contexts of a cell in a slot: of a binary of more than 4 sections, one for each section that the slot takes. -/
def bodiesAt (b : Binary) (slot cell : Nat) : List CtxBody :=
  ((ctxsOf b).filter fun e => e.1 = slot && e.2.1 = cell).map fun (e : Nat × Nat × Ctx) => e.2.2.body

/-- The MEM operation codes of R55. -/
def memCode : MemOp → Nat
  | .read => 1 | .write => 2 | .delay => 3 | .kcache => 4

/-- 0x07 MISMATCH: a MEM range, a weight range, a pairing window or the set differs from the context image it describes. An entry names
a cell and a slot; it describes an image of one of the slot's sections (DEDUCED, log 89). -/
def badMatch (b : Binary) : Bool :=
  (b.mem.any fun e => !(bodiesAt b e.slot e.cell).any fun x => match x with
    | .mem k => memCode k.op = e.op && k.base = e.base && k.limit = e.limit
    | _ => false) ||
  (b.weight.any fun e => !(bodiesAt b e.slot e.cell).any fun x => match x with
    | .mul k => k.first = e.first && k.count = e.count && e.first + e.count ≤ 256
    | _ => false) ||
  (b.port.any fun e => !(bodiesAt b e.slot e.cell).any fun x => match x with
    | .str k => k.windows[e.port]? = some e.w
    | _ => false) ||
  (ctxsOf b).any fun e => e.1 / 4 ≠ b2n b.report.set || !b.report.meadows.contains (e.2.1 / 256)

/-- A binary32 code that is a subnormal, an infinity or a NaN (R103). -/
def odd32 (w : Nat) : Bool :=
  let e := w / 2 ^ 23 % 256
  e = 255 || (e = 0 && w % 2 ^ 23 ≠ 0)

/-- A SCALE that R137 refuses. -/
def badScale (w : Nat) : Bool := odd32 w || w % 2 ^ 31 = 0 || w / 2 ^ 31 % 2 = 1

/-- Whether ZERO lies outside [qlo, qhi]: for a float code beyond its largest finite magnitudes (R96, R137). -/
def badZero (code : Code) (zero : Int) : Bool :=
  if codeIsInt code then zero < codeLo code || codeHi code < zero else Num.lt true (codeQ code) (.ofInt zero.natAbs)

/-- Pinned constants that R137 refuses. -/
def badPinned (code : Code) (shift : Int) (zero : Int) : Bool := shift < -64 || 63 < shift || badZero code zero

/-- The bytes of a KEY operation's source (R257). -/
def srcLen (sfmt : Nat) : Nat := if sfmt = 1 then 8 else 4

/-- A KEY operation record that R246, R257, R258 or R265 refuses. -/
def badKeyOp (deferred : Bool) (pub : Nat) (o : KeyOp) : Bool :=
  o.op < 1 || 7 < o.op || (deferred && o.op = 1) ||
  (o.op ≠ 1 && (12 < o.word || 1 < o.wfmt || 31 < o.k || (o.op = 3 && o.wfmt ≠ 0) ||
    (o.op ≠ 3 && (2 < o.sfmt || 64 < o.src + srcLen o.sfmt)) || (pub ≠ 0 && 13 ≤ o.word + 2 * pub)))

/-- An entry-field record that R260 refuses; `e`: the entry size. -/
def badEntry (e : Nat) (f : EntryField) : Bool :=
  if f.copy then f.len < 1 || 64 < f.len || 64 < f.src + f.len || e < f.dst + f.len
  else 1 < f.cfmt || 2 < f.len || 64 < f.src + srcLen f.len || e < f.dst + 1 || badScale f.scale.toNat || badPinned f.code 0 f.zero ||
    codeWidth f.code ≠ 4 && codeWidth f.code ≠ 8 || !codeIsInt f.code

/-- A view item that R261 refuses. -/
def badView (i : ViewItem) : Bool :=
  i.sel ≠ 0 && (4 < i.sel || i.len < 1 || 63 < i.len || 63 < i.dst + i.len * (if i.sel = 2 then i.count else 1))

/-- A KEY context whose records or fetch set are refused (R246, R253, R257 to R261). -/
def badKey (k : Option KeyMap) (x : KeyCtx) : Bool :=
  let pub := (k.map (·.pubWords)).getD 0
  let e := (k.map fun k => 16 * k.eu).getD 64
  8 < x.ops.length || 4 < x.deferred.length || 8 < x.entries.length || 4 < x.views.length ||
  x.ops.any (badKeyOp false pub) || x.deferred.any (badKeyOp true pub) || x.entries.any (badEntry e) ||
  x.views.any (fun v => 4 < v.length || v.any badView) ||
  (match k with | some k => (List.range k.n).any fun h => 8 < (fetchLines k x h).length | none => false)

/-- A context whose constants are refused (R117, R137, R548), and a DELAY whose d is not one of R55's (DEDUCED, log 85). -/
def badCtx (k : Option KeyMap) (x : Ctx) : Bool :=
  match x.body with
  | .mul c => !c.dynamic && (badPinned c.fmt c.shift c.zero || (match c.opScale with | some s => badScale s.toNat | none => false))
  | .sfn c => (c.op = .quant && c.stochastic && c.seed = 0) ||
      ((c.op = .quant || c.op = .dequant) && !c.dynamic && (badScale c.scale.toNat || badPinned c.code c.shift c.zero))
  | .mem c => (c.op = .delay && (c.dly < 4 || 2048 < c.dly)) || (c.op = .read || c.op = .write) &&
      (c.base % 64 ≠ 0 || c.limit % 64 ≠ 0 || 0x20000 < c.limit || c.limit ≤ c.base ||
        if c.counter then c.start % 64 ≠ 0 || c.step % 64 ≠ 0 || c.limit - c.base ≤ c.start || c.limit - c.base ≤ c.step
        else 15 < c.field)
  | .key c => badKey k c
  | _ => false

/-- A parser program that R224 or R227 refuses. -/
def badProgram (p : Program) : Bool :=
  15 < p.lenCtrl || p.lenCtrl / 4 % 4 = 3 || 2 < p.typeCtrl || p.ncase < 1 || 8 < p.ncase || p.maxMsg < 1 || 64 < p.maxMsg ||
  p.extracts.any fun x => x.len ≠ 0 && 40 < x.dst + x.len

/-- The lengths and the checksum fields of a template (R232, R233): where the headers' lengths agree with LEN, the ranges of the
IPv4 and UDP checksums. A packet padded to 60 bytes agrees. -/
def tmplSums (t : Template) : Option (List (Nat × Nat)) :=
  if t.kind = 0 then some []
  else
    let im := slice t.image 0 t.len
    let u := if t.kind = 1 then t.l3off + ((slice im t.l3off 1).headD 0).toNat % 16 * 4 else t.l3off + 40
    let tot := if t.kind = 1 then beNat (slice im (t.l3off + 2) 2) else 40 + beNat (slice im (t.l3off + 4) 2)
    let ul := beNat (slice im (u + 4) 2)
    let fits := t.l3off + tot = t.len || (t.len = 60 && t.l3off + tot < 60)
    if fits && u + 8 ≤ t.len && t.l3off + tot = u + ul then
      some ((if t.kind = 1 then [(t.l3off + 10, 2)] else []) ++ [(u + 6, 2)])
    else none

/-- A template that R232 or R233 refuses. -/
def badTemplate (t : Template) : Bool :=
  t.len < 60 || 256 < t.len || 2 < t.kind || 7 < t.lp || (t.kind ≠ 0 && t.l3off ≠ 14 && t.l3off ≠ 18 && t.l3off ≠ 22) ||
  match tmplSums t with
  | none => true
  | some sums =>
    let bad := fun (a n : Nat) => t.len < a + n || sums.any fun s => overlaps a n s.1 s.2
    (t.inserts.any fun i => i.len ≠ 0 && (32 < i.len || bad i.dst i.len)) || (match t.seqOff with | some o => bad o 4 | none => false)

/-- 0x08 CONST. -/
def badConst (b : Binary) : Bool :=
  b.weights.any (fun w => odd32 w.scale.toNat || w.reserved ≠ 0) || (ctxsOf b).any (fun e => badCtx b.keyMap e.2.2) ||
  b.programs.any (fun e => badProgram e.2) || b.templates.any fun e => badTemplate e.2

/-- The code with which the loader answers a binary for region g: the first check that fails (R160). -/
def Core.loadCode (c : Core) (g : Nat) (b : Binary) : Nat :=
  if badFormat b.report then 1 else if c.badTable b.report then 2 else if c.badGrade b then 3
  else if (if 8 ≤ g then c.badPool b else c.badRegion b) then 4
  else if c.badSlot g b then 5 else if badLimit b then 6 else if badMatch b then 7 else if badConst b then 8 else 0

/-! ### Digest ids (R341) -/

/-- The initial image of a MEM range: what the binary gives, and zero otherwise (R338). -/
def memImage (b : Binary) (e : MemEntry) : List Byte :=
  (b.memInit.filter fun i => i.1 = e.cell).foldl
    (fun l i => if e.base ≤ i.2.1 then splice l (i.2.1 - e.base) i.2.2 else splice l 0 (i.2.2.drop (e.base - i.2.1)))
    (List.replicate (e.limit - e.base) 0)

/-- A weight slot's 40 bytes. -/
def wgtBytes (b : Binary) (cell slot : Nat) : List Byte :=
  match b.weights.find? fun w => w.cell = cell && w.slot = slot with
  | some w => slice w.codes 0 32 ++ toLe 4 w.scale.toNat ++ toLe 2 w.zero.toNat ++ toLe 2 w.reserved.toNat
  | none => List.replicate 40 0

/-- A digest id: the first 8 bytes of SHAKE256. -/
def digestId (l : List Byte) : Word64 := BitVec.ofNat 64 (leNat ((shake256 l).take 8))

/-- What the program digest covers; the bytes of slot images are the compiler's. -/
def progBytes (b : Binary) : List Byte :=
  (ascii "SOHUS-PROG-1" ++ reportBytes b ++
    (b.report.meadows.flatMap fun m => (List.range 4).flatMap fun k => Config.slotImage b m (4 * b2n b.report.set + k)) ++
    (if b.report.standing then setBytes b else []) ++ b.mem.flatMap (memImage b))

/-- What the weight-set digest covers. -/
def wgtCover (b : Binary) : List Byte :=
  (ascii "SOHUS-WGT-1-" ++ b.weight.flatMap fun e => (List.range e.count).flatMap fun i => wgtBytes b e.cell (e.first + i))

/-- The program and weight-set digest ids. -/
def progDigest (b : Binary) : Word64 := digestId (progBytes b)
def wgtDigest (b : Binary) : Word64 := digestId (wgtCover b)

/-- A binary as loaded (R173, R341). -/
def Core.loadedOf (c : Core) (b : Binary) : Loaded :=
  { bin := b, prog := progDigest b, wgt := wgtDigest b, pad := c.isB0 && b.report.tableId = 1 }

/-! ### Writing -/

/-- Write a MEM range's initial image. -/
def putMem (b : Binary) (m : Mem) (e : MemEntry) : Mem := m.store (aCell e.cell + e.base) (memImage b e)

/-- The parts of a binary that overlap another's MEM bytes and weight slots (R299). -/
def memBusy (o : Option Loaded) (e : MemEntry) : Bool := match o with | some l => l.bin.mem.any (memClash e) | none => false
def wgtBusy (o : Option Loaded) (w : WeightSlot) : Bool :=
  match o with | some l => l.bin.weights.any (fun x => x.cell = w.cell && x.slot = w.slot) | none => false

/-- The section that each slot of the binary's set holds first. -/
def firstSections (b : Binary) : List (Nat × Nat) :=
  (List.range 4).filterMap fun k =>
    let slot := 4 * b2n b.report.set + k
    ((List.range b.report.sections).find? fun i => secSlot b i = slot).map fun i => (slot, i)

/-- Put a binary's programs and templates into its set; each template's sequence number starts from zero (R233, R295). -/
def Core.putSet (c : Core) (b : Binary) : Core :=
  let s := b2n b.report.set
  let ps := b.programs.foldl (fun t e => Store.insert (Store.erase t (s * 64 + e.1)) (s * 64 + e.1) e.2) c.progs
  let ts := b.templates.foldl (fun t e => Store.insert (Store.erase t (s * 256 + e.1)) (s * 256 + e.1) e.2) c.tmpls
  let sq := b.templates.foldl (fun t e => Store.erase t (s * 256 + e.1)) c.comp.seqs
  { c with progs := ps, tmpls := ts, comp := { c.comp with seqs := sq } }

/-- The switches record the track slots of a region's binaries as its own (R74). -/
def Core.claimTracks (c : Core) (g : Nat) : Core :=
  let mine := ((c.rgn g).bins.filterMap id).flatMap fun (l : Loaded) => l.bin.tracks
  let kept := c.fab.owners.filter fun (e : Nat × Nat) => e.2 ≠ g + 1
  { c with fab := { c.fab with owners := mine.foldl (fun s t => Store.set s 0 t (g + 1)) kept } }

/-- The anchor of a region after the load of a binary (R78): that of the binary, unless one stands in the set that the region runs. -/
def Rgn.anchorAfter (r : Rgn) (b : Binary) : Option Nat :=
  if b.report.set = r.set || (r.bin r.set).isNone then least b.report.meadows else r.anchor

/-- Load an accepted standing binary into its region's set. What overlaps the active set of a region that is not idle waits for the
swap (R299). -/
def loadStanding (m : Mem) (c : Core) (b : Binary) : Mem × Core :=
  let g := b.report.region
  let set := b.report.set
  let r := c.rgn g
  let live := if r.phase ≠ .idle ∧ set ≠ r.set then r.bin r.set else none
  let old := ((r.bin set).map fun l => l.bin.report.meadows).getD []
  let slots := (List.range 4).map fun k => 4 * b2n set + k
  let m := (b.mem.filter fun e => !memBusy live e).foldl (putMem b) m
  let c := slots.foldl (fun c k => c.clearSlot (old ++ b.report.meadows) k) c
  let gone := fun k : Nat => slots.contains (k % 8) && (old ++ b.report.meadows).contains (k / 8)
  let c := { c with fab := { c.fab with loaded := c.fab.loaded.filter (fun k => !gone k), loading := c.fab.loading.filter fun k => !gone k } }
  let r1 := (firstSections b).foldl (fun (x : Mem × Core) e =>
    let y := putSection x.1 x.2 b e.2 e.1 b.report.meadows fun w => !wgtBusy live w
    (y.1, { y.2 with fab := { y.2.fab with holds := Store.set y.2.fab.holds 0 (g * 8 + e.1) e.2 } })) (m, c)
  let c := (r1.2.putSet b).modRgn g fun r =>
    { r with bins := setAt r.bins (b2n set) (some (c.loadedOf b)), sect := if set = r.set then 0 else r.sect, anchor := r.anchorAfter b }
  let c := c.claimTracks g
  (r1.1, { c with task := { c.task with lastBins := b.report.meadows.foldl (fun t x => Store.erase t x) c.task.lastBins } })

/-- The loader records a standing binary, in place of the entry of its region and set (R497). -/
def Core.recordBin (c : Core) (b : Binary) : Core :=
  let g := b.report.region
  let e := fun (kind : Nat) (cover : List Byte) => ({ kind := kind, index := g, set := b.report.set, digest := shake256 cover } : Meas)
  let old := c.sec.meas.filter fun (x : Meas) => !(0x20 ≤ x.kind && x.index = g && x.set = b.report.set)
  { c with sec := { c.sec with meas := old ++ [e 0x20 (progBytes b), e 0x21 (wgtCover b)] } }

/-- What the loader left for a drained swap: the parts of the shadow binary that overlap the active one (R299 step 3). -/
def loadStaged (m : Mem) (act sh : Loaded) : Mem :=
  let m := (sh.bin.mem.filter (memBusy (some act))).foldl (putMem sh.bin) m
  let secs := (firstSections sh.bin).map (·.2)
  (sh.bin.weights.filter fun w => secs.contains w.section_ && wgtBusy (some act) w).foldl putWeight m

/-- BINARY_LOAD (R160): a refused binary changes nothing but the completion that reports its code. A task binary is checked; its
images are loaded when a task is dispatched (R314). -/
def binaryLoad (m : Mem) (c : Core) (b : Binary) : Mem × Core :=
  let task := b.report.region = 0xF && !b.report.standing
  let k := c.loadCode (if task then 0xF else b.report.region % 8) b
  let r := if k = 0 ∧ !task then loadStanding m (c.recordBin b) b else (m, c)
  (r.1, r.2.emit (.load b.report.region k))

def execBinaryLoad (bin : Binary) (s : State) : Answer := devStep (fun m c => binaryLoad m c bin) s

end Sys2Proof.Machine
end

