-- ==== Sys2Proof/Machine/Composer.lean ====
section
/-! DEFINITION. The composer's commands: template frames on the wire (R233 to R236, R292, R294), caps (R237), the egress gate and
KILL_N (R238, R475), deadlines and the release of result records (R239, R240). -/

namespace Sys2Proof.Machine

/-! ### Template frames -/

/-- The instant from which a queued frame may start: its place in the queue, the port, and for an EARLY frame the FCS hold, its
latest verdict less its length (R292, R294); none while that verdict is not bounded. -/
def Core.mayStart (c : Core) (lp : Nat) (f : TxFrame) : Option Nat :=
  let t := max f.start (Store.get c.comp.free 0 lp)
  if !f.early then some t
  else
    let d := c.depsOf f.rgn f.tag f.set
    (c.verdictBound d).map fun v => max (max t (c.boundedAt d)) (v - c.wire f.image.length)

/-- A frame whose turn comes with the gate closed is not sent. -/
def Core.gateFrame (c : Core) (lp : Nat) (f : TxFrame) : Core :=
  ((c.setQueue lp (c.queue lp).tail).bump (aTmpl f.t kGated)).modResults (fun r => r.is f) fun r => r.flag fGated

/-- A frame starts on the wire at `t0`: its sequence number and checksums are written (R233), and its record takes SENT and the actual
first-byte instant (R239). -/
def Core.startFrame (c : Core) (lp t0 : Nat) (f : TxFrame) : Core :=
  let k := b2n f.set * 256 + f.t
  let seq := Store.get c.comp.seqs 0 k
  let b := match c.tmpl f.set f.t with | some tp => finishFrame tp seq f.image | none => f.image
  let c := (c.setQueue lp (c.queue lp).tail).bump (aTmpl f.t kSent)
  let c := c.modResults (fun r => r.is f) fun r => { r.flag fSent with first := some (t0 + nsN 32) }
  { c with comp := { c.comp with seqs := Store.set c.comp.seqs 0 k ((seq + 1) % 2 ^ 32),
                                 inProg := Store.set c.comp.inProg [] lp [{ f with image := b, start := t0 }],
                                 free := Store.set c.comp.free 0 lp (t0 + c.lineSlot b.length) } }

/-- TEMPLATE_FRAME_START of a logical port: the head of its queue, once the port is free (R234, R294, R458). -/
def Core.templateFrameStart (c : Core) (lp : Nat) : Core :=
  let c := c.flushTx lp c.now
  match c.queue lp with
  | [] => c
  | f :: _ =>
    if !c.lpUp lp || !c.en pComp || (Store.get c.comp.inProg [] lp) ≠ [] then c
    else match c.mayStart lp f with
      | none => c
      | some t =>
        if c.now < t then c
        else if !c.gateOpen then c.gateFrame lp f
        else c.startFrame lp (c.exactly t) f

def execTemplateFrameStart (lp : Nat) (s : State) : Answer := coreStep (fun _ c => c.templateFrameStart lp) s

/-! ### Caps (R237) -/

/-- COMP_CAP: an armed cap refuses a lower PERIOD or a higher BURST; an arming write with a zero PERIOD or BURST is refused
whole. -/
def Core.hCap (c : Core) (a : Access) (t v : Nat) : Core :=
  let r := pComp + 0x400 + 8 * t
  let p := v % 2 ^ 32
  let b := v / 2 ^ 32 % 2 ^ 16
  if !isPriv a then c
  else if c.getB r 48 then
    (if p < c.getF r 0 32 ∨ c.getF r 32 16 < b then c.reject pComp (0x400 + 8 * t) v else (c.setF r 0 32 p).setF r 32 16 b)
  else if !bit v 48 then (c.setF r 0 32 p).setF r 32 16 b
  else if p = 0 ∨ b = 0 then c.reject pComp (0x400 + 8 * t) v
  else
    let c := ((c.setF r 0 32 p).setF r 32 16 b).setF r 48 1 1
    { c with comp := { c.comp with buckets := Store.set c.comp.buckets ⟨0, 0⟩ t ⟨b, 0⟩ } }

def execCompCapWrite (acc : Access) (t : Nat) (v : Word64) (s : State) : Answer :=
  coreStep (fun _ c => c.hCap acc t (setBits (wv v) 48 1 0)) s
def execCompCapArm (acc : Access) (t : Nat) (v : Word64) (s : State) : Answer :=
  coreStep (fun _ c => c.hCap acc t (setBits (wv v) 48 1 1)) s

/-! ### The gate (R238, R475) -/

/-- EGRESS_GATE. -/
def aGate : Nat := pComp1 + 0x80

/-- A write of EGRESS_GATE. OPEN is ignored while KILL_N is low, KILL is set or the device is in safe state, as they stand at the
write; OPEN = 0 closes; KILL clears only while KILL_N is high. -/
def Core.hGate (c : Core) (a : Access) (v : Nat) : Core :=
  if !isPriv a then c
  else
    let may := c.getB aGate 2 && !c.getB aGate 1 && !c.safe
    let c := if c.getB aGate 2 then c.clearF aGate 1 1 (v / 2) else c
    if bit v 0 then (if may then c.setF aGate 0 1 1 else c)
    else (c.setF aGate 0 1 0).closeGate

def execGateOpen (acc : Access) (v : Word64) (s : State) : Answer := coreStep (fun _ c => c.hGate acc (setBits (wv v) 0 1 1)) s
def execGateClose (acc : Access) (v : Word64) (s : State) : Answer := coreStep (fun _ c => c.hGate acc (setBits (wv v) 0 1 0)) s
def execKillClear (acc : Access) (v : Word64) (s : State) : Answer := coreStep (fun _ c => c.hGate acc (setBits (wv v) 1 1 1)) s

/-- The gate's register when it closes for KILL_N or safe state: OPEN reads 0 and frames in progress are stomped. -/
def Core.shutGate (c : Core) : Core := (c.setF aGate 0 1 0).closeGate

/-- KILL_N_ASSERT: an accepted low level sets KILL and closes the gate. -/
def Core.killAssert (c : Core) : Core :=
  if !c.pins.killN then c
  else { (((c.setF aGate 2 1 0).raiseF aGate 1).shutGate) with pins := { c.pins with killN := false } }

def execKillNAssert (s : State) : Answer := coreStep (fun _ c => c.killAssert) s

/-- KILL_N_DEASSERT: the level is high again; KILL stays. -/
def Core.killDeassert (c : Core) : Core := { c.setF aGate 2 1 1 with pins := { c.pins with killN := true } }

def execKillNDeassert (s : State) : Answer := coreStep (fun _ c => c.killDeassert) s

/-- DEADLINE_NS: a write below 100 is ignored and logged (R475). -/
def Core.hDeadline (c : Core) (a : Access) (t v : Nat) : Core :=
  let d := v % 2 ^ 16
  if !isPriv a then c else if d < 100 then c.reject pComp1 (0x400 + 8 * t) v else c.setF (pComp1 + 0x400 + 8 * t) 0 16 d

def execDeadlineWrite (acc : Access) (t : Nat) (v : Word64) (s : State) : Answer :=
  coreStep (fun _ c => c.hDeadline acc t (wv v)) s

/-! ### Records (R239, R240) -/

/-- Whether the flags of a result are final (R240): its checks have run, its iteration's fate is known and its frame has left. -/
def Core.flagsFinal (c : Core) (r : Result) : Bool :=
  r.checked && c.fateOf r.rgn r.tag r.set ≠ .pending && !c.onPort r

/-- Whether a region can still release an event before a place in device order, or released one less than L fc ago: an event that is
buffered or on its way, an iteration in flight. -/
def Core.opensBefore (c : Core) (o : List Nat) (g : Nat) : Bool :=
  (c.ford.buf ++ c.sep.inbox).any (fun e => e.regions.contains g && !lexLe o [e.tick, srcClass e.src, srcIdx e.src, e.n]) ||
  (c.rgn g).iters.any fun i => !lexLe o [i.tick, srcClass i.src, srcIdx i.src, i.n] &&
    match (c.rgn g).bin i.set with | some l => (c.rgn g).sched < i.relSched + l.bin.report.lat | none => false

/-- Whether an event that precedes a result in device order is still to be released, or was released less than L fc ago, in the
result's region or in another that admits or completes events (R192, R240; DEDUCED, log 92). An input of its tick or before that the
device has not handed on yet reaches the Ford within the largest A_src of the tick's end (R28, R195). -/
def Core.earlierOpen (c : Core) (r : Result) : Bool :=
  let o := r.order.take 4
  (!(c.rgn r.rgn).replay && c.now < (r.tick + 1) * nsN c.tickP + nsN 68) ||
  (List.range 8).any fun g =>
    ((c.rgn g).phase = .running || (c.rgn g).phase = .draining || (g = r.rgn && (c.rgn g).phase = .drained)) && c.opensBefore o g

/-- The result that comes first in device order. -/
def Core.firstResult (c : Core) : Option Result := leastBy (fun a b => lexLe a.order b.order) c.comp.results

/-- A record leaves: its observation becomes final, and the sessions that subscribed receive it (R374, R449). -/
def Core.releaseRecord (c : Core) (r : Result) : Core :=
  let c := { c with comp := { c.comp with results := c.comp.results.erase r } }
  let c := c.finalise (fun o => o.kind = 3 && o.rgn = r.rgn && o.cell = r.tap && o.tick = r.tick && o.cls = srcClass r.src &&
    o.idx = srcIdx r.src && o.ts = r.n && o.final.isNone) fun o => { o with data := r.bytes, match_ := r.bytes, final := some c.now }
  if r.record then
    (c.sessWhere fun x => bit x.streams 1 && bit x.regions r.rgn).foldl (fun c s => c.sendEntries s 0x31 [r.bytes]) c
  else c

/-- RESULT_RECORD_RELEASE (R240): the first record in device order, once nothing holds it. -/
def Core.resultRelease (c : Core) : Core :=
  match c.firstResult with
  | none => c
  | some r => if c.flagsFinal r && !c.earlierOpen r then c.releaseRecord r else c

def execResultRecordRelease (s : State) : Answer := coreStep (fun _ c => c.resultRelease) s

end Sys2Proof.Machine
end

