-- ==== Sys2Proof/Machine/AddrMap.lean ====
section
/-! DEFINITION. The address map of the memory windows: what is mapped (R415, R418 to R420), what is protected (R421), the channel
of an LPDDR6 byte (R413), the bytes that requester classes move (R414) and uncorrectable words met by a read (R409, R412). -/

namespace Sys2Proof.Machine

/-- The LPDDR6 window (R418). -/
def lpmBase : Nat := 0x4000000000

/-- The populated size (R411, R423): 48, 96 or 192 GiB. -/
def Core.lpmSize (c : Core) : Nat :=
  let s := c.getF (pLpm + 0x80) 0 2
  if s = 0 then 0 else 48 * 2 ^ 30 * 2 ^ (s - 1)

/-- Whether a cell's bytes [lo, hi) are mapped (R419). -/
def cellMapped (cell lo hi : Nat) : Bool :=
  match kindOf cell with | .mem => lo < hi && hi ≤ 0x20000 | .mul => lo < hi && hi ≤ 0x2800 | _ => false

/-- Whether a range of the MEM window is mapped: every cell that it touches, on meadows of the grade. -/
def Core.memMapped (c : Core) (a n : Nat) : Bool :=
  let o := a - 0x100000000
  let first := o / 0x20000
  (o + n ≤ c.meadows * 256 * 0x20000) &&
    (List.range ((o + n - 1) / 0x20000 + 1 - first)).all fun i =>
      let base := (first + i) * 0x20000
      cellMapped (first + i) (max o base - base) (min (o + n) (base + 0x20000) - base)

/-- Whether a range of the windows is mapped (R418). `fw`: the requester is the control complex, which alone reaches the firmware
reserve (R415). -/
def Core.mapped (c : Core) (fw : Bool) (a n : Nat) : Bool :=
  if n = 0 then false
  else if 0x100000000 ≤ a && a < 0x200000000 then c.memMapped a n
  else if 0x200000000 ≤ a && a < 0x600000000 then a + n ≤ 0x200000000 + c.meadows * 0x8000000
  else lpmBase ≤ a && a + n ≤ lpmBase + c.lpmSize - (if fw then 0 else 2 ^ 30)

/-- The standing region of a MEM-window address, when one owns its meadow. -/
def Core.ownerOf (c : Core) (a : Nat) : Option Nat :=
  let g := c.rgnField ((a - 0x100000000) / 0x2000000)
  if g < 8 then some g else none

/-- The channel of an LPDDR6 byte and its offset in the channel (R413). -/
def lpmChannel (o : Nat) : Nat := o / 256 % 12
def lpmOffset (o : Nat) : Nat := o / 3072 * 256 + o % 256

/-- Count the bytes that a requester of a class moves (R414, R423). -/
def Core.lpmMoved (c : Core) (cls a n : Nat) : Core :=
  if lpmBase ≤ a then c.bumpBy (pLpm + 0x100 + 8 * (cls - 1)) n else c

/-- The registers of a channel (R423). -/
def aChan (ch : Nat) : Nat := pLpm + 0x400 + 0x20 * ch

/-- An uncorrectable word that a read meets (R57, R409, R412): counted and logged by the memory that holds it. -/
def Core.wordUe (c : Core) (a : Nat) : Core :=
  if lpmBase ≤ a then
    let ch := lpmChannel (a - lpmBase)
    (c.bump (aChan ch + 8)).logErr pLpm clsD 0x03 0 ch (lpmOffset (a - lpmBase) / 64)
  else if 0x200000000 ≤ a then c.vaultUe ((a - 0x200000000) / 0x8000000) (a / 8)
  else c.ueLog ((a - 0x100000000) / 0x20000) (a % 0x20000 / 64)

/-- Every uncorrectable word of a range that is read. -/
def Core.readUe (c : Core) (m : Mem) (a n : Nat) : Core := (m.marks a n).foldl (fun c w => c.wordUe w) c

end Sys2Proof.Machine
end

