-- ==== Sys2Proof/Machine/KeyCmds.lean ====
section
/-! DEFINITION. The KEY page's commands: KEY_CFG (R275), exact-match slots (R252), ring commands (R270, R271, R290) and the tick
and end of a snapshot (R273, R274, R325). -/

namespace Sys2Proof.Machine

/-! ### KEY_CFG -/

/-- KEY_CFG (R275): a write takes effect only while the old and the new owner are idle or drained. -/
def Core.hKeyCfg (c : Core) (a : Access) (v : Nat) : Core :=
  let r := pKey + 0x80
  if !isPriv a || !(c.rgn (c.getF r 0 3)).quiet || !(c.rgn (v % 8)).quiet then c
  else (c.setF r 0 3 v).setF r 3 1 (v / 8)

def execKeyCfgWrite (acc : Access) (v : Word64) (s : State) : Answer := coreStep (fun _ c => c.hKeyCfg acc (wv v)) s

/-! ### Exact-match slots (R252) -/

/-- The staged slot (R250). -/
def Core.stagedSlot (c : Core) : List Byte :=
  toLe 8 (c.rd (pKey + 0xB0)) ++ toLe 4 (c.rd (pKey + 0xB8) % 2 ^ 20 + b2n (c.getB (pKey + 0xB8) 31) * 2 ^ 31) ++ toLe 4 0

/-- The device address that KEY_SLOT_CMD names in the active key map, when it exists. -/
def Core.slotAddr (c : Core) (v : Nat) : Option Nat :=
  match c.keyMap with
  | none => none
  | some k =>
    let j := v % 2 ^ 7; let b := v / 2 ^ 7 % 2 ^ 16; let s := v / 2 ^ 23 % 4
    if kmExact k && j < (kmVaults k).length && b < 2 ^ k.blog then some (kmSlotAddr k j b s) else none

/-- A rejected slot command. -/
def Core.slotRej (c : Core) (v : Nat) : Core := (c.raiseF (pKey + 0xD0) 1).reject pKey 0xC8 v

/-- Whether an event of a tick before T that the owner admits is still to be looked up. -/
def Core.eventBefore (c : Core) (t : Nat) : Bool :=
  match c.keyOwner with
  | none => false
  | some g => c.eventOf g t

/-- KEY_SLOT_CMD: WRITE is staged for its tick, READ copies the slot at once. -/
def Core.hSlotCmd (c : Core) (m : Mem) (a : Access) (v : Nat) : Core :=
  let op := v / 2 ^ 25 % 4
  if !isPriv a || (op ≠ 1 && op ≠ 2) then c
  else match c.slotAddr v with
    | none => c.slotRej v
    | some s =>
      if op = 2 then
        let b := m.read s 16
        (c.wr (pKey + 0xB0) (fld b 0 8)).wr (pKey + 0xB8) (fld b 8 4)
      else
        let t := c.rd (pKey + 0xC0)
        if c.key.slotPend.isSome || !c.lead200 t then c.slotRej v
        else
          let p : SlotPend := { addr := s, old := m.read s 16, new := c.stagedSlot, tick := t, done := false }
          { c with key := { c.key with slotPend := some p } }.setF (pKey + 0xD0) 0 1 1

def execSlotWrite (acc : Access) (v : Word64) (s : State) : Answer :=
  coreStep (fun m c => c.hSlotCmd m acc (setBits (wv v) 25 2 1)) s
def execSlotRead (acc : Access) (v : Word64) (s : State) : Answer :=
  coreStep (fun m c => c.hSlotCmd m acc (setBits (wv v) 25 2 2)) s

/-- PENDING clears once the slot holds the new contents and no event of an earlier tick is left to look up. -/
def Core.slotSettle (c : Core) : Core :=
  match c.key.slotPend with
  | some p =>
    if p.done && !c.eventBefore p.tick then { c with key := { c.key with slotPend := none } }.setF (pKey + 0xD0) 0 1 0 else c
  | none => c

/-- SLOT_CHANGE_EFFECT: the tick of the staged write has come and the table holds the new slot. -/
def slotChangeEffect (m : Mem) (c : Core) : Mem × Core :=
  match c.key.slotPend with
  | some p =>
    if p.done then (m, c.slotSettle)
    else if c.tickBegun p.tick then
      (m.store p.addr p.new, ({ c with key := { c.key with slotPend := some { p with done := true } } } : Core).slotSettle)
    else (m, c)
  | none => (m, c)

def execSlotChangeEffect (s : State) : Answer := devStep slotChangeEffect s

/-! ### Ring commands (R270, R271) -/

/-- KEY_RING_STAT: the end of a command, with its RESULT. -/
def Core.ringEnd (c : Core) (result : Nat) : Core :=
  { c.wr (pKey + 0xA0) (2 * result) with key := { c.key with ring := none } }

/-- The ring that a command names, as vault index and local number. -/
def ringNamed (k : KeyMap) (v : Nat) : Option (Nat × Nat) :=
  let i := v % 2 ^ 20
  if bit v 27 then
    let j := v / 2 ^ 20 % 2 ^ 7
    if j < (kmVaults k).length && i / 4 * (kmVaults k).length + j < 2 ^ 18 then some (j, i) else none
  else some (homeOf (kmVaults k).length i)

/-- Whether the ring buffer lies on 4 KiB in mapped memory. -/
def Core.ringBufOk (c : Core) (write : Bool) : Bool :=
  let b := c.rd (pKey + 0x98)
  b % 4096 = 0 && c.mapped false b 4096 && !(write && c.protected b 4096)

/-- Whether the owner admits or collects events: then a READ waits for a free apply fc. -/
def Core.ownerBusy (c : Core) : Bool :=
  match c.keyOwner with
  | some g => (c.rgn g).phase = .running || (c.rgn g).phase = .draining
  | none => false

/-- The committed bytes of a ring (R270, R289). -/
def Core.committedRing (c : Core) (m : Mem) (base n : Nat) : List Byte :=
  (List.range n).flatMap fun i => ofPayload (c.committedLine m (base + 64 * i))

/-- Copy a ring's committed state to the buffer, with the poison of its lines. -/
def ringCopy (m : Mem) (c : Core) (k : KeyMap) (base buf : Nat) : Mem × Core :=
  let n := kmStride k / 64
  let size := kmRingSize k
  let m' := m.store buf ((c.committedRing m base n).take size)
  let marks := (m.marks base size).filter fun w => c.committedLine m (w / 64 * 64) = m.line (w / 64 * 64)
  (marks.foldl (fun x w => x.setPoison (w - base + buf)) m', c.readUe m base size)

/-- The lines that a ring WRITE or ZERO_ALL writes give up their queued writes and their records (R290). -/
def Core.forgetLines (c : Core) (p : Nat → Bool) : Core :=
  let c := c.freeRecords p
  { c with fab := { c.fab with vwrites := c.fab.vwrites.filter fun w => !p w.addr } }

/-- Save lines for a snapshot that is being copied, before a command changes them (R274). -/
def Core.snapKeep (c : Core) (m : Mem) (lines : List Nat) : Core :=
  match c.key.snap with
  | some s => if s.copying then lines.foldl (fun c a => c.snapSave m s.tick a) c else c
  | none => c

/-- Whether an address lies in the ring areas of a key map. -/
def inArea (k : KeyMap) (a : Nat) : Bool := (kmVaults k).any fun v => (kmArea k v).1 ≤ a && a < (kmArea k v).1 + (kmArea k v).2

/-- The lines of the ring areas that hold a byte that is not zero, or a write under way. -/
def Core.ringLines (c : Core) (m : Mem) (k : KeyMap) : List Nat :=
  (((m.bytes.map fun (e : Host.Cell) => e.1 / 64 * 64) ++ c.fab.vwrites.map fun (w : VWrite) => w.addr).filter (inArea k)).eraseDups

/-- WRITE of a ring: the image in the buffer takes the ring's place. -/
def ringPut (m : Mem) (c : Core) (k : KeyMap) (base buf : Nat) : Mem × Core :=
  let n := kmStride k / 64
  let c := c.snapKeep m ((List.range n).map fun i => base + 64 * i)
  (m.copy buf base (kmRingSize k), (c.forgetLines fun a => base ≤ a && a < base + 64 * n).readUe m buf (kmRingSize k))

/-- ZERO_ALL: every ring of the population holds zero. -/
def ringZero (m : Mem) (c : Core) (k : KeyMap) : Mem × Core :=
  let c := c.snapKeep m (c.ringLines m k)
  ((kmVaults k).foldl (fun m v => m.clear (kmArea k v).1 (kmArea k v).2) m, c.forgetLines (inArea k))

/-- KEY_RING_CMD. A READ of a ring whose owner runs waits (RING_READ_COPY, RING_READ_BUSY); WRITE and ZERO_ALL act at once and
stay in progress until RING_COMMAND_DONE; a RESET_RGN that waits for the last record finds it freed (R92, R290). -/
def ringCmd (m : Mem) (c : Core) (a : Access) (v : Nat) : Mem × Core :=
  let op := v / 2 ^ 28 % 4
  let buf := c.rd (pKey + 0x98)
  let busy := fun (c : Core) (ring : Nat) =>
    ({ c.wr (pKey + 0xA0) 1 with key := { c.key with ring := some { op := op, ring := ring, buf := buf, since := c.now } } } : Core)
  let done := fun (c : Core) => (List.range 8).foldl (fun c g => c.resetDue g) c
  if !isPriv a then (m, c)
  else if c.getB (pKey + 0xA0) 0 then (m, c.reject pKey 0x90 v)
  else if op = 0 then (m, c)
  else match c.keyMap with
    | none => (m, c.ringEnd 2)
    | some k =>
      if op ≠ 1 && c.ownerBusy then (m, c.ringEnd 2)
      else if op = 3 then
        let r := ringZero m c k
        (r.1, busy (done r.2) 0)
      else match ringNamed k v with
        | none => (m, c.ringEnd 3)
        | some (j, l) =>
          let base := kmRingAt k j l
          if !c.ringBufOk (op = 1) then (m, c.ringEnd 3)
          else if op = 2 then
            let r := ringPut m c k base buf
            (r.1, busy (done r.2) base)
          else if c.ownerBusy then (m, busy c base)
          else
            let r := ringCopy m c k base buf
            (r.1, r.2.ringEnd 0)

def execRingRead (acc : Access) (v : Word64) (s : State) : Answer := devStep (fun m c => ringCmd m c acc (setBits (wv v) 28 2 1)) s
def execRingWrite (acc : Access) (v : Word64) (s : State) : Answer := devStep (fun m c => ringCmd m c acc (setBits (wv v) 28 2 2)) s
def execZeroAll (acc : Access) (v : Word64) (s : State) : Answer := devStep (fun m c => ringCmd m c acc (setBits (wv v) 28 2 3)) s

/-- The cells that own a vault of the key map in the owner's region. -/
def Core.ringCells (c : Core) (g vault : Nat) (k : KeyMap) : List Nat :=
  let slot := slotOf (c.rgn g).set (c.rgn g).sect
  c.fab.ctxs.filterMap fun (n, x) => match x.body with
    | .key t => if n % 8 = slot && c.cellRgn (n / 8) = g && kindOf (n / 8) = .key && (kmVaults k)[t.j]? = some vault then some (n / 8) else none
    | _ => none

/-- Whether a KEY cell applies nothing in this fc. -/
def Core.applyFree (c : Core) (cell : Nat) : Bool :=
  (c.keyReady cell).isNone && (c.deferReady cell).isNone && !c.hasFired cell 0 && !c.hasFired cell 1

/-- RING_READ_COPY: in a free apply fc of the owner's cells, or once the owner admits nothing any more. -/
def ringReadCopy (m : Mem) (c : Core) : Mem × Core :=
  match c.key.ring, c.keyMap, c.keyOwner with
  | some r, some k, some g =>
    let free := !c.ownerBusy || (c.ringCells g ((r.ring - 0x200000000) / 0x8000000) k).all c.applyFree
    if r.op = 1 && free then
      let x := ringCopy m c k r.ring r.buf
      (x.1, x.2.ringEnd 0)
    else (m, c)
  | _, _, _ => (m, c)

def execRingReadCopy (s : State) : Answer := devStep ringReadCopy s

/-- RING_READ_BUSY: 10 µs have passed without a free apply fc. -/
def Core.ringReadBusy (c : Core) : Core :=
  match c.key.ring with
  | some r => if r.op = 1 && r.since + nsN 10000 ≤ c.now then c.ringEnd 1 else c
  | none => c

def execRingReadBusy (s : State) : Answer := coreStep (fun _ c => c.ringReadBusy) s

/-- RING_COMMAND_DONE of a WRITE or ZERO_ALL. -/
def Core.ringCommandDone (c : Core) : Core :=
  match c.key.ring with
  | some r => if r.op = 1 then c else c.ringEnd 0
  | none => c

def execRingCommandDone (s : State) : Answer := coreStep (fun _ c => c.ringCommandDone) s

/-! ### Snapshots (R273, R274, R325) -/

/-- SNAPSHOT_TICK: the tick T of the waiting snapshot has come and the copy begins; the bank active for tick T - 1 is the one it shows. -/
def Core.snapshotTick (c : Core) : Core :=
  match c.key.snap with
  | some s =>
    if !s.copying && c.tickBegun s.tick then
      let b := c.activeBank (s.tick - 1)
      let s := { s with copying := true, bank := b, flip := c.rd (pKey + 0xE8 + 8 * b) }
      { c with key := { c.key with snap := some s } }.wr (pKey + 0x100) 2
    else c
  | none => c

def execSnapshotTick (s : State) : Answer := coreStep (fun _ c => c.snapshotTick) s

/-- Whether no effect of an event before the snapshot's tick is still to come: none is unreleased, none of the owner's iterations of
an earlier tick is short of its deferred writes or of its fate, and no record of one is left. -/
def Core.snapSettled (c : Core) (s : Snap) : Bool :=
  s.undo.isEmpty && c.key.undo.all (fun (u : Undo) => s.saved.any fun e => e.1 = u.addr) &&
  match c.keyOwner with
  | none => true
  | some g =>
    let r := c.rgn g
    !(r.phase = .running || r.phase = .draining || r.phase = .drained) ||
    (!c.eventBefore s.tick && r.iters.all fun i => s.tick ≤ i.tick || (i.final && i.fate ≠ .pending &&
      match r.bin i.set with | some l => i.relSched + l.bin.report.lat + l.bin.report.dDef ≤ r.sched | none => true))

/-- The inverse of the multiplier of R248 modulo 2^18. -/
def homeInv : Nat := 172567

/-- The ring that lives at a vault index and local number: the inverse of R248. -/
def ringOf (nv j l : Nat) : Nat :=
  let x := (l / 4 * nv + j) * homeInv % 2 ^ 18
  4 * (x ^^^ (x >>> 9)) + l % 4

/-- Where a byte of a ring area stands in a snapshot's image (R325), when it belongs to a ring. -/
def imageAt (k : KeyMap) (dst a : Nat) : Option Nat :=
  let nv := (kmVaults k).length
  match (kmVaults k).findIdx? fun v => (kmArea k v).1 ≤ a && a < (kmArea k v).1 + (kmArea k v).2 with
  | none => none
  | some j =>
    let o := a - (kmArea k ((kmVaults k).getD j 0)).1
    let l := o / kmStride k
    if l / 4 * nv + j < 2 ^ 18 then some (dst + 64 + ringOf nv j l * kmStride k + o % kmStride k) else none

/-- The offset within its ring of an address in a ring area. -/
def ringOff (k : KeyMap) (a : Nat) : Nat :=
  match (kmVaults k).find? fun v => (kmArea k v).1 ≤ a && a < (kmArea k v).1 + (kmArea k v).2 with
  | none => 0
  | some v => (a - (kmArea k v).1) % kmStride k

/-- The image behind the header: each ring's lines as saved, or as they are; the bytes between R and the stride are zero (R342). -/
def snapImage (m : Mem) (c : Core) (s : Snap) (k : KeyMap) : Mem :=
  let own := s.saved ++ (c.fab.vwrites.filter fun w => inArea k w.addr && !s.saved.any fun e => e.1 = w.addr).map fun (w : VWrite) =>
    (w.addr, c.ringLine m w.addr)
  let other := fun a : Nat => !own.any fun e => e.1 = a / 64 * 64
  let bytes := m.bytes.filterMap fun (e : Host.Cell) =>
    if inArea k e.1 && other e.1 && ringOff k e.1 < kmRingSize k then (imageAt k s.dst e.1).map fun x => (x, e.2) else none
  let marks := m.poison.filterMap fun w => if inArea k (8 * w) && other (8 * w) && ringOff k (8 * w) < kmRingSize k then imageAt k s.dst (8 * w) else none
  let m := (m.clear s.dst (64 + 2 ^ 20 * kmStride k)).put bytes
  let m := own.foldl (fun m e => match imageAt k s.dst e.1 with | some x => m.store x ((ofPayload e.2).take (kmRingSize k - ringOff k e.1)) | none => m) m
  marks.foldl (fun m a => m.setPoison a) m

/-- The header of R325. -/
def snapHeader (s : Snap) (k : KeyMap) (prog : Word64) (digest : Word64) : List Byte :=
  toLe 4 0x73706E73 ++ toLe 8 s.tick ++ toLe 4 (kmRingSize k) ++ toLe 4 (kmStride k) ++ toLe 4 (2 ^ 20) ++
    [BitVec.ofNat 8 s.bank] ++ toLe 7 0 ++ toLe 8 s.flip ++ toLe 8 prog.toNat ++ toLe 8 digest.toNat ++ toLe 8 0

/-- SNAPSHOT_DONE: every line is saved, and the image is whole. -/
def snapshotDone (m : Mem) (c : Core) : Mem × Core :=
  match c.key.snap, c.keyMap with
  | some s, some k =>
    if s.copying && c.snapSettled s then
      let n := 2 ^ 20 * kmStride k
      let m := snapImage m c s k
      let g := c.getF (pKey + 0x80) 0 3
      let prog := (((c.rgn g).bin ((c.rgn g).setFor s.tick)).map (·.prog)).getD 0
      let m := m.store s.dst (snapHeader s k prog (crc64 (m.read (s.dst + 64) n)))
      let c := ({ c with key := { c.key with snap := none } } : Core).lpmMoved 5 s.dst (64 + n)
      (m, c.wr (pKey + 0x100) 3)
    else (m, c)
  | _, _ => (m, c)

def execSnapshotDone (s : State) : Answer := devStep snapshotDone s

end Sys2Proof.Machine
end

