-- ==== Sys2Proof/Machine/Swap.lean ====
section
/-! DEFINITION. Configuration swaps: SWAP_AT (R296, R297), the swap tick (R298, R301) and the end of a drained swap (R299). -/

namespace Sys2Proof.Machine

/-- SWAP_AT word 1 (R474). -/
def aSwap : Nat := pTime + 0xB8

/-- Whether a region's swap is seamless (R297). The region that KEY_CFG.REGION names owns the key stage whatever EN (R243, R254). -/
def Core.seamless (c : Core) (g : Nat) : Bool :=
  let r := c.rgn g
  match r.bin r.set, r.bin (!r.set) with
  | some l, some s =>
    s.bin.report.coresident = l.prog && l.bin.report.sections = 1 && s.bin.report.sections = 1 &&
    l.bin.report.copies = s.bin.report.copies && s.bin.report.meadows.all (fun m => c.rgnField m = g) &&
    (c.getF (pKey + 0x80) 0 3 ≠ g || l.bin.keyMap = s.bin.keyMap)
  | _, _ => false

/-- Whether the shadow set of a region has passed the loader and stands in its slots (R296). -/
def Core.shadowLoaded (c : Core) (g : Nat) : Bool :=
  match (c.rgn g).bin (!(c.rgn g).set) with
  | some s => (firstSections s.bin).all fun e => s.bin.report.meadows.all fun m => c.fab.loaded.contains (m * 8 + e.1)
  | none => false

/-- Whether a swap of the named regions can be armed for a tick (R296). -/
def Core.swapOk (c : Core) (t mask : Nat) : Bool :=
  c.swapArmed.isNone && c.lead200 t && (maskBits 8 mask).all fun g =>
    let r := c.rgn g
    (r.phase = .running || r.phase = .drained || r.phase = .idle) && c.shadowLoaded g

/-- Arm a swap: each region's kind is decided and shown. -/
def Core.armSwap (c : Core) (t mask : Nat) : Core :=
  let sl := toMask ((maskBits 8 mask).filter c.seamless)
  let c := (((c.setF aSwap 0 8 mask).setF aSwap 9 1 1).setF aSwap 16 8 sl).setF aSwap 24 8 0
  { c with swapArmed := some (t, mask, sl) }

/-- SWAP_AT word 1 (R296, R474): MASK, ARM and the clearing of REJ. A rejected arm changes nothing but REJ. -/
def Core.hSwap (c : Core) (a : Access) (v : Nat) : Core :=
  if !isPriv a then c
  else if !bit v 8 then (c.clearF aSwap 10 1 (v / 2 ^ 10)).setF aSwap 0 8 v
  else
    let t := c.rd (pTime + 0xB0)
    if c.swapOk t (v % 256) then (c.clearF aSwap 10 1 (v / 2 ^ 10)).armSwap t (v % 256)
    else (c.raiseF aSwap 10).reject pTime 0xB8 v

def execSwapArm (acc : Access) (v : Word64) (s : State) : Answer :=
  coreStep (fun _ c => c.hSwap acc (setBits (wv v) 8 1 1)) s

/-- What the swap tick does to one region: a halted one fails (R301), a seamless one gives the new set to events from the tick on
(R298), another holds them (R299). A region whose drained swap is still under way holds them once that has ended. -/
def Core.swapRgn (c : Core) (t : Nat) (sl : Bool) (g : Nat) : Core :=
  let r := c.rgn g
  if r.phase = .halted then
    (c.setF aSwap 24 8 (c.getF aSwap 24 8 ||| 2 ^ g)).logErr pTime clsC 0x09 0 g (t % 2 ^ 32)
  else if r.swapHold.isSome then c.setRgn g { r with swapNext := some t }
  else if sl then c.setRgn g { r with set := !r.set, setFrom := some (t, r.set) }
  else c.setRgn g { r with swapHold := some t }

/-- SWAP_TICK: the tick of the armed swap has begun. -/
def Core.swapTick (c : Core) : Core :=
  match c.swapArmed with
  | some (t, mask, sl) =>
    if c.tickBegun t then
      let c := { c.setF aSwap 9 1 0 with swapArmed := none }
      (maskBits 8 mask).foldl (fun c g => c.swapRgn t (bit sl g) g) c
    else c
  | none => c

def execSwapTick (s : State) : Answer := coreStep (fun _ c => c.swapTick) s

/-- Whether the old set of a drained swap has finished: no event before the tick is unreleased, and every iteration has left its
output TAP and applied its deferred writes. An idle region has none. -/
def Core.swapDrained (c : Core) (g t : Nat) : Bool :=
  let r := c.rgn g
  r.phase = .idle || r.phase = .halted ||
  (c.fabricOn && c.rgnEmpty g && !c.eventOf g t)

/-- SWAP_DRAIN_DONE (R299): the staged images are written, the region enters slot 0 of the new set, and the held events follow. -/
def swapDrainDone (m : Mem) (c : Core) (g : Nat) : Mem × Core :=
  let r := c.rgn g
  match r.swapHold with
  | none => (m, c)
  | some t =>
    if !c.swapDrained g t then (m, c)
    else
      let m := match r.bin r.set, r.bin (!r.set) with
        | some act, some sh => loadStaged m act sh
        | _, _ => m
      let r' := { r with set := !r.set, sect := 0, swapHold := r.swapNext, swapNext := none, setFrom := some (t, r.set), heldAt := c.now }
      (m, c.setRgn g r')

def execSwapDrainDone (g : Nat) (s : State) : Answer := devStep (fun m c => swapDrainDone m c g) s

end Sys2Proof.Machine
end

