-- ==== Sys2Proof/Machine/Audit.lean ====
section
/-! DEFINITION. Save and restore of a region (R346, R347), digest records (R343, R344, R353) and replay (R349 to R354). -/

namespace Sys2Proof.Machine

/-! ### Save and restore -/

/-- What a save image holds (R346): the first tick and the section of the region and its latest seamless swap, the states of its context
slots by cell * 8 + slot, the bytes of its MEM ranges, its undo records, its pending frames, the flip ticks, the raw rings, the addresses
of words that carried the poison code, and the lines written since launch. Instants are recorded ones, without a replay's offset. -/
structure SaveBody where
  firstTick : Nat
  sect : Nat
  setFrom : Option (Nat × Bool)
  gens : Store Word32
  ctrs : Store Nat
  digs : Store DigWin
  mem : List (Nat × List Byte)
  undo : List Undo
  frames : List Frame
  flips : Option (Nat × Nat × Nat)
  rings : List (Nat × List Byte)
  poison : List Nat
  written : List Nat
  deriving DecidableEq, Repr

/-- The registers of a region's save (R353). -/
def aSave (g : Nat) : Nat := pRgn g + 0x158

/-- The ranges of memory that a region's save covers: its MEM ranges, and the rings when it owns the key stage. -/
def memRanges (l : Loaded) : List (Nat × Nat) := l.bin.mem.map fun (e : MemEntry) => (aCell e.cell + e.base, e.limit - e.base)
def kmAreas (k : KeyMap) : List (Nat × Nat) := (kmVaults k).map (kmArea k)
def Core.ringMap (c : Core) (g : Nat) : Option KeyMap := if c.keyOwner = some g then c.keyMap else none
def Core.ringRanges (c : Core) (g : Nat) : List (Nat × Nat) := ((c.ringMap g).map kmAreas).getD []

/-- A frame as a save image keeps it: pending, or with the verdict received; its instants are recorded ones. It is one of replay, since
what the restored region is fed are recorded inputs (R348). -/
def frameKept (src num tStart tEnd : Nat) (regions : Nat) (verdict : Option Bool) : Frame :=
  { src := src % 64 + 64, num := num, tStart := tStart, bytes := [], cls := .data, prog := 0, pset := false, regions := regions,
    payOff := 0, payLen := 0, implied := none, uncorr := false, bads := [], walkOff := 0, walkCount := 0, walkDone := true,
    tLast := if verdict.isSome then tEnd else 0, tEnd := if verdict.isSome then tEnd else 2 ^ 80, verdict := verdict, resolved := [] }

/-- A frame of a set as a replay names it. -/
def replayDep (d : Nat × Nat) : Nat × Nat := (d.1 % 64 + 64, d.2)

/-- The contents of a save. -/
def Core.saveOf (c : Core) (m : Mem) (g : Nat) (l : Loaded) : SaveBody :=
  let ours := fun cell : Nat => c.cellRgn cell = g
  let r := c.rgn g
  let rr := c.ringRanges g
  { firstTick := r.firstTick, sect := r.sect, setFrom := r.setFrom
    gens := c.fab.gens.filter fun e => ours (e.1 / 8)
    ctrs := c.fab.ctrs.filter fun e => ours (e.1 / 8)
    digs := c.fab.digs.filter fun e => ours (e.1 / 8)
    mem := (memRanges l).map fun x => (x.1, m.read x.1 x.2)
    undo := (c.key.undo.filter fun u => u.rgn = g).map fun u => { u with deps := u.deps.map replayDep }
    frames := (c.sep.frames.filter fun f => bit f.regions g && !f.resolved.contains g).map fun f =>
      frameKept f.src f.num (f.tStart - nsN r.delta) (f.tEnd - nsN r.delta) (2 ^ g) f.verdict
    flips := if rr = [] then none else some (c.rd (pKey + 0xE8), c.rd (pKey + 0xF0), c.key.recent)
    rings := rr.map fun x => (x.1, c.ringBytes m x.1 (x.2 / 64))
    poison := (memRanges l ++ rr).flatMap fun x => m.marks x.1 x.2
    written := c.fab.written.filter fun k => ours (k / 2048) }

/-- A section of a save image's numbers: how many records, then the records. -/
def numSec (l : List (List Nat)) : List Nat := l.length :: l.flatten
/-- Take a section of records of `k` numbers. -/
def takeSec (k : Nat) : List Nat → List (List Nat) × List Nat
  | [] => ([], [])
  | n :: t => ((List.range (min n (t.length / k))).map fun i => (t.drop (k * i)).take k, t.drop (k * n))

/-- The four parts of a payload as numbers, and back. -/
def payNums (p : Payload) : List Nat := (List.range 4).map fun i => p.toNat / 2 ^ (128 * i) % 2 ^ 128
def numsPay (l : List Nat) : Payload := BitVec.ofNat 512 ((List.range 4).foldl (fun a i => a + l.getD i 0 % 2 ^ 128 * 2 ^ (128 * i)) 0)

/-- The contents that are neither bytes of MEM ranges nor rings, as numbers (R346 gives them no layout: DESIGN CHOICE, log 13). -/
def SaveBody.nums (b : SaveBody) : List Nat :=
  [b.firstTick, b.sect] ++
  numSec (b.setFrom.toList.map fun x => [x.1, b2n x.2]) ++
  numSec (b.gens.map fun (e : Nat × Word32) => [e.1, e.2.toNat]) ++
  numSec (b.ctrs.map fun (e : Nat × Nat) => [e.1, e.2]) ++
  numSec (b.digs.map fun (e : Nat × DigWin) => [e.1, e.2.crc.toNat, e.2.count, e.2.window, e.2.firstTag.toNat, b2n e.2.poison]) ++
  numSec (b.undo.map fun (u : Undo) => [u.cell, u.rgn, u.addr] ++ payNums u.saved) ++
  numSec ((b.undo.zipIdx.map fun (x : Undo × Nat) => x.1.deps.map fun d => [x.2, d.1, d.2]).flatten) ++
  numSec (b.frames.map fun (f : Frame) =>
    [f.src, f.num, f.tStart, f.tEnd, f.regions, match f.verdict with | none => 0 | some v => 1 + b2n v]) ++
  numSec (b.flips.toList.map fun x => [x.1, x.2.1, x.2.2]) ++
  numSec (b.poison.map fun a => [a]) ++ numSec (b.written.map fun k => [k])

/-- Read the contents back. -/
def SaveBody.ofNums (mem rings : List (Nat × List Byte)) (l : List Nat) : SaveBody :=
  let q := takeSec 2 (l.drop 2)
  let ge := takeSec 2 q.2
  let ct := takeSec 2 ge.2
  let dg := takeSec 6 ct.2
  let un := takeSec 7 dg.2
  let de := takeSec 3 un.2
  let fr := takeSec 6 de.2
  let fl := takeSec 3 fr.2
  let po := takeSec 1 fl.2
  let wr := takeSec 1 po.2
  let n := fun (x : List Nat) i => x.getD i 0
  { firstTick := l.getD 0 0, sect := l.getD 1 0
    setFrom := q.1.head?.map fun x => (n x 0, n x 1 = 1)
    gens := ge.1.map fun x => (n x 0, BitVec.ofNat 32 (n x 1))
    ctrs := ct.1.map fun x => (n x 0, n x 1)
    digs := dg.1.map fun x => (n x 0, { crc := BitVec.ofNat 64 (n x 1), count := n x 2, window := n x 3, firstTag := BitVec.ofNat 16 (n x 4), poison := n x 5 = 1 })
    mem := mem
    undo := un.1.zipIdx.map fun x =>
      { cell := n x.1 0, rgn := n x.1 1, addr := n x.1 2, saved := numsPay (x.1.drop 3),
        deps := (de.1.filter fun d => n d 0 = x.2).map fun d => (n d 1, n d 2) }
    frames := fr.1.map fun x => frameKept (n x 0) (n x 1) (n x 2) (n x 3) (n x 4) (if n x 5 = 0 then none else some (n x 5 = 2))
    flips := fl.1.head?.map fun x => (n x 0, n x 1, n x 2)
    rings := rings
    poison := po.1.map fun x => n x 0
    written := wr.1.map fun x => n x 0 }

/-- What follows the header of a save image: the bytes of the MEM ranges in the order of the binary's table, the rings in VLIST order at
the stride (R346), the other contents as numbers of 16 bytes, and the key-map descriptor of the rings, zero when it has none. -/
def saveBytes (k : Option KeyMap) (b : SaveBody) : List Byte :=
  (b.mem ++ b.rings).flatMap (fun (x : Nat × List Byte) => x.2) ++ b.nums.flatMap (toLe 16) ++ ((k.map keyMapBytes).getD (List.replicate 64 0))

/-- Cut bytes into ranges. -/
def cutRanges : List (Nat × Nat) → List Byte → List (Nat × List Byte)
  | [], _ => []
  | x :: t, bs => (x.1, bs.take x.2) :: cutRanges t (bs.drop x.2)

/-- The numbers of 16 bytes that bytes hold. -/
def numsOf (bs : List Byte) : List Nat := (List.range (bs.length / 16)).map fun i => fld bs (16 * i) 16

/-- The contents of an image for a binary (R347): none when the image is too short for the binary's ranges, or holds rings under another
key-map descriptor than the binary's. -/
def saveBody (l : Loaded) (bs : List Byte) : Option SaveBody :=
  let desc := slice bs (bs.length - 64) 64
  let k := if desc.all (· = 0) then none else l.bin.keyMap
  let rr := (k.map kmAreas).getD []
  let n := ((memRanges l ++ rr).map fun x => x.2).sum
  if bs.length < n + 64 || ((k.map keyMapBytes).getD (List.replicate 64 0)) ≠ desc then none
  else
    let n0 := ((memRanges l).map fun x => x.2).sum
    some (.ofNums (cutRanges (memRanges l) bs) (cutRanges rr (bs.drop n0)) (numsOf ((bs.drop n).take (bs.length - 64 - n))))

/-- The header of a save image (R346). G0 is the recorded anchor, without a replay's offset (R351). -/
def saveHeader (g : Nat) (r : Rgn) (l : Loaded) (size : Nat) : List Byte :=
  toLe 4 0x72766173 ++ toLe 1 g ++ toLe 1 (b2n r.set) ++ toLe 2 0 ++ toLe 8 l.prog.toNat ++ toLe 8 l.wgt.toNat ++
    toLe 8 (linear (r.g0 - nsN r.delta)) ++ toLe 8 r.admitted ++ toLe 8 r.relSlot ++ toLe 4 r.relPos ++ toLe 4 0 ++ toLe 8 size

/-- A command that ends at once with a RESULT, and one that is in progress with the RESULT it will end with. -/
def Core.saveEnd (c : Core) (g result : Nat) : Core :=
  { c.wr (aSave g + 8) (2 * result) with saving := Store.erase c.saving g }
def Core.saveBusy (c : Core) (g op result : Nat) : Core :=
  { c.wr (aSave g + 8) 1 with saving := Store.insert (Store.erase c.saving g) g (op, result) }

/-- Whether a range lies in populated LPDDR6 outside the reserve. -/
def Core.inLpm (c : Core) (a n : Nat) : Bool := lpmBase ≤ a && c.mapped false a n

/-- SAVE (R346). -/
def saveRgn (m : Mem) (c : Core) (g a : Nat) : Mem × Core :=
  let r := c.rgn g
  match r.bin r.set with
  | none => (m, c.saveEnd g 1)
  | some l =>
    if r.phase ≠ .drained ∨ c.swapIsArmed then (m, c.saveEnd g 1)
    else
      let body := saveBytes (c.ringMap g) (c.saveOf m g l)
      let n := 64 + body.length
      if a % 4096 ≠ 0 ∨ !c.inLpm a n then (m, c.saveEnd g 3)
      else
        let c := (memRanges l ++ c.ringRanges g).foldl (fun c x => c.readUe m x.1 x.2) c
        (m.store a (saveHeader g r l n ++ body), (c.lpmMoved 2 a n).saveBusy g 1 0)

/-- A drained region as a save image gives it (R347). -/
def Rgn.restored (r : Rgn) (h : List Byte) (b : SaveBody) (now : Nat) : Rgn :=
  { r with phase := .drained, faultKind := 0, set := bit (fld h 5 1) 0, sect := b.sect, pendSect := [], sched := 0, stallFc := 0,
           stall := [], stallLen := 0, g0 := unwrap (now - nsN r.delta) (fld h 24 8) + nsN r.delta, firstTick := b.firstTick,
           admitted := fld h 32 8, relSlot := fld h 40 8, relPos := fld h 48 4, relCount := 0, heldAt := now, lateAt := 0, latePrev := 0,
           resetWait := false, egressClosed := false, iters := [], cursor := some (fld h 40 8, fld h 48 4), swapHold := none,
           swapNext := none, setFrom := b.setFrom }

/-- Put the states of context slots, frames and undo records of a save image in place of the region's own. A replay's offset moves the
frames' instants (R351). -/
def Core.putStates (c : Core) (g : Nat) (b : SaveBody) : Core :=
  let c := (c.restartCells g).resolveAll g
  let d := nsN (c.rgn g).delta
  let shift := fun (f : Frame) => { f with tStart := f.tStart + d, tEnd := f.tEnd + d, tLast := if f.verdict.isSome then f.tLast + d else 0 }
  { c with
    fab := { c.fab with gens := b.gens.foldl (fun t e => Store.insert (Store.erase t e.1) e.1 e.2) c.fab.gens,
                        ctrs := b.ctrs.foldl (fun t e => Store.insert (Store.erase t e.1) e.1 e.2) c.fab.ctrs,
                        digs := b.digs.foldl (fun t e => Store.insert (Store.erase t e.1) e.1 e.2) c.fab.digs,
                        written := b.written.foldl (fun t k => insertNat k t) c.fab.written }
    key := { c.key with undo := c.key.undo.filter (fun (u : Undo) => u.rgn ≠ g) ++ b.undo }
    sep := { c.sep with frames := b.frames.map shift ++ c.sep.frames } }

/-- Put a save image's contents into the device; the region reads drained. -/
def putSave (m : Mem) (c : Core) (g : Nat) (h : List Byte) (b : SaveBody) : Mem × Core :=
  let c := (c.putStates g b).modRgn g fun r => r.restored h b c.now
  let c := match b.flips with
    | some (t0, t1, recent) => { (c.wr (pKey + 0xE8) t0).wr (pKey + 0xF0) t1 with key := { c.key with recent := recent } }
    | none => c
  let c := if b.rings = [] then c else { c with fab := { c.fab with vwrites := c.fab.vwrites.filter (fun w =>
    !b.rings.any fun x => x.1 ≤ w.addr && w.addr < x.1 + x.2.length) } }
  let m := (b.mem ++ b.rings).foldl (fun m x => m.store x.1 x.2) m
  (b.poison.foldl (fun m a => m.setPoison a) m, c.applyFord g)

/-- RESTORE (R347): only into an idle region that has the header's binary loaded in the header's set, and that owns the key stage when
the image has rings. -/
def restoreRgn (m : Mem) (c : Core) (g a : Nat) : Mem × Core :=
  let r := c.rgn g
  let h := m.read a 64
  let n := fld h 56 8
  if r.phase ≠ .idle then (m, c.saveEnd g 1)
  else if a % 4096 ≠ 0 ∨ !c.inLpm a 64 then (m, c.saveEnd g 3)
  else if fld h 0 4 ≠ 0x72766173 ∨ fld h 4 1 ≠ g ∨ 1 < fld h 5 1 ∨ n < 64 then (m, c.saveEnd g 2)
  else if !c.inLpm a n then (m, c.saveEnd g 3)
  else match r.bin (fld h 5 1 = 1) with
    | none => (m, c.saveEnd g 2)
    | some l =>
      if fld h 8 8 ≠ l.prog.toNat ∨ fld h 16 8 ≠ l.wgt.toNat then (m, c.saveEnd g 2)
      else match saveBody l (m.read (a + 64) (n - 64)) with
        | none => (m, c.saveEnd g 2)
        | some b =>
          if b.rings ≠ [] ∧ c.keyOwner ≠ some g then (m, c.saveEnd g 2)
          else
            let x := putSave m (c.lpmMoved 2 a n) g h b
            (x.1, x.2.saveBusy g 2 0)

/-- MDW_RGN_SAVE in meadow md's page: it acts on the region that the meadow anchors. A command while one is in progress is ignored and
logged. -/
def hSave (m : Mem) (c : Core) (acc : Access) (md v : Nat) : Mem × Core :=
  match c.anchored md with
  | none => (m, c)
  | some g =>
    let op := v / 2 ^ 48 % 4
    if !isPriv acc then (m, c)
    else if c.getB (aSave g + 8) 0 then (m, c.reject (pMdw md) 0x158 v)
    else
      let c := c.wr (aSave g) (v % 2 ^ 48)
      if op = 1 then saveRgn m c g (v % 2 ^ 48) else if op = 2 then restoreRgn m c g (v % 2 ^ 48) else (m, c)

def execSave (acc : Access) (md : Nat) (v : Word64) (s : State) : Answer :=
  devStep (fun m c => hSave m c acc md (setBits (wv v) 48 2 1)) s
def execRestore (acc : Access) (md : Nat) (v : Word64) (s : State) : Answer :=
  devStep (fun m c => hSave m c acc md (setBits (wv v) 48 2 2)) s

/-- SAVE_RESTORE_DONE: the copy is over and RESULT is valid. -/
def Core.saveRestoreDone (c : Core) (g : Nat) : Core :=
  match c.saving.find? fun e => e.1 = g with
  | some (_, _, result) => c.saveEnd g result
  | none => c

def execSaveRestoreDone (g : Nat) (s : State) : Answer := coreStep (fun _ c => c.saveRestoreDone g) s

/-! ### Digest records (R344, R353) -/

/-- The windows that a meadow's DIGEST cells have open, by ascending address: cell, slot and context. That of the slot that a cell runs,
and those of its other slots that hold a token (R343). -/
def Core.digestCells (c : Core) (m : Nat) : List (Nat × Nat × StrCtx) :=
  let r := c.rgn (c.rgnOf m)
  (List.range 2048).filterMap fun i =>
    let k := m * 2048 + i
    match (Store.get c.fab.ctxs ⟨.idle, [], []⟩ k).body with
    | .str x =>
      if x.op = .digest ∧ kindOf (k / 8) = .str ∧ (k % 8 = slotOf r.set r.sect ∨ (Store.get c.fab.digs DigWin.fresh k).count ≠ 0)
        then some (k / 8, k % 8, x) else none
    | _ => none

/-- The record of an open window. The tag of a window that has no token yet is stated by no rule: an open function of the cell and the window. -/
def Core.flushCell (c : Core) (m : Nat) (e : Nat × Nat × StrCtx) : Core :=
  let w := Store.get c.fab.digs DigWin.fresh (e.1 * 8 + e.2.1)
  let x : DigWin × Core := if w.count = 0 then ({ w with firstTag := BitVec.ofNat 16 (Config.corner [e.1, w.window]) }, c) else (w, c)
  x.2.digPush m (digRecord e.1 (4 ≤ e.2.1) e.2.2.layer true x.1)

/-- MDW_DIG_CTRL.FLUSH: the windows go on unchanged. -/
def Core.hDigCtrl (c : Core) (a : Access) (m v : Nat) : Core :=
  if isPriv a && bit v 7 then (c.digestCells m).foldl (fun c e => c.flushCell m e) c else c

def execFlush (acc : Access) (m : Nat) (v : Word64) (s : State) : Answer :=
  coreStep (fun _ c => c.hDigCtrl acc m (setBits (wv v) 7 1 1)) s

/-- A read of MDW_DIG_REC[0] pops the oldest record and latches the rest. -/
def Core.digPop (c : Core) (m : Nat) : Core :=
  match Store.get c.fab.digFifo [] m with
  | [] => c
  | r :: t =>
    let c := { c with fab := { c.fab with digFifo := Store.set c.fab.digFifo [] m t } }
    [1, 2, 3].foldl (fun c i => c.latch (pMdw m + 0x170 + 8 * i) (fld r (8 * i) 8)) c

def execDigestRecordPop (m : Nat) (s : State) : Answer := coreStep (fun _ c => c.digPop m) s

/-! ### Replay (R349 to R354) -/

/-- SEP_RPL_CTRL and SEP_RPL_STAT. -/
def aRplCtrl : Nat := pSep + 0x160
def aRplStat : Nat := pSep + 0x168

/-- The reader stops. -/
def Core.rplHalt (c : Core) : Core := (c.setF aRplStat 0 1 0).setF aRplCtrl 8 1 0

/-- A replay's offset Δ moves a region's anchor with it (R351), whether it is given before or after a RESTORE. -/
def Rgn.offset (r : Rgn) (d : Nat) : Rgn := { r with replay := true, delta := d, g0 := r.g0 - nsN r.delta + nsN d }

/-- EN starts the reader from the first record: the named regions take their inputs from the file. -/
def Core.rplStart (c : Core) : Core :=
  if c.getB aRplStat 0 then c
  else
    let d := c.rd (pSep + 0x158)
    let gs := maskBits 8 (c.getF aRplCtrl 0 8)
    let c := gs.foldl (fun c g => c.modRgn g fun r => r.offset d) c
    (((c.setF aRplCtrl 8 1 1).setF aRplCtrl 9 1 0).setF aRplStat 0 1 1).setF aRplStat 32 32 0

/-- STOP: the reader stops, and the regions return to live sources when next idle or drained, a quiet one at once. -/
def Core.rplStop (c : Core) : Core :=
  let c := (c.rplHalt).setF aRplCtrl 9 1 1
  let c := (List.range 8).foldl (fun c g => if (c.rgn g).quiet then c.onQuiet g else c) c
  if (List.range 8).any fun g => (c.rgn g).replay then c else c.setF aRplCtrl 9 1 0

/-- SEP_RPL_CTRL: REGIONS changes only while the regions it names, old and new, are idle or drained. -/
def Core.hRplCtrl (c : Core) (a : Access) (v : Nat) : Core :=
  if !isPriv a then c
  else
    let both := maskBits 8 (c.getF aRplCtrl 0 8 ||| v % 256)
    let c := if both.all fun g => (c.rgn g).quiet then c.setF aRplCtrl 0 8 v else c
    let c := if bit v 8 then c.rplStart else c
    if bit v 9 then c.rplStop else c

def execReplayStart (acc : Access) (v : Word64) (s : State) : Answer :=
  coreStep (fun _ c => c.hRplCtrl acc (setBits (wv v) 8 1 1)) s
def execReplayStop (acc : Access) (v : Word64) (s : State) : Answer :=
  coreStep (fun _ c => c.hRplCtrl acc (setBits (wv v) 9 1 1)) s

/-- Its place in the order of R350: presentation instant, then device order. -/
def Core.recKey (c : Core) (near : Nat) (r : List Byte) : List Nat :=
  let n := unwrap near (recTs r)
  let tick := if fld r 0 1 = 1 then fld r 32 8 else c.tickAt n
  [n + nsN (aSrc (recSrc r)), tick, srcClass (recSrc r), srcIdx (recSrc r)]

/-- A record that stops the reader: ORDER_ERR and a class C error. -/
def Core.rplErr (c : Core) : Core := ((c.raiseF aRplStat 2).reject pSep 0x160 (c.rd aRplCtrl)).rplHalt

/-- Present an EVENT (R351): due instants shift by Δ, the word keeps its recorded TS and TICK. A speculative event's frame is kept
until its VERDICT record. -/
def Core.rplEvent (c : Core) (r : List Byte) (n d : Nat) (poison : Bool) : Core :=
  let w := slice r 16 64
  let w0 := fld w 0 8
  let src := recSrc r
  let num := w0 / 2 ^ 46 % 65536
  let gs := (maskBits 8 (fld r 1 1)).filter fun g => (c.rgn g).replay
  let f := frameKept src num n 0 (toMask gs) none
  let same := fun (x : Frame) => x.src = src + 64 && x.num = num
  let feed := fun (x : Frame) => if same x then { x with regions := x.regions ||| toMask gs } else x
  let c := if !bit w0 45 then c
    else { c with sep := { c.sep with frames := if c.sep.frames.any same then c.sep.frames.map feed else c.sep.frames ++ [f] } }
  if c.safe then c.bump (pFlt + 0x118)
  else c.fordAccept { word := toPayload w, regions := gs, src := src, n := n, tick := fld w 16 8, late := false, poison := poison,
                      msg := 0, delta := d }

/-- Present a VERDICT: the frame's end and its verdict. -/
def Core.rplVerdict (c : Core) (r : List Byte) (n d : Nat) : Core :=
  match c.sep.frames.find? fun x => x.src = recSrc r + 64 && x.num = fld r 4 2 with
  | none => c
  | some f => ((c.putFrame { f with tEnd := n + nsN d, tLast := n + nsN d, verdict := some (fld r 2 1 = 0) }).settle).pruneFrames

/-- REPLAY_RECORD_PRESENT (R350 to R352): the next record, at its presentation instant plus Δ. -/
def Core.rplPresent (c : Core) (m : Mem) : Core :=
  let pos := c.getF aRplStat 32 32
  if !c.getB aRplStat 0 then c
  else if c.rd (pSep + 0x150) ≤ pos then (c.raiseF aRplStat 1).rplHalt
  else
    let a := c.rd (pSep + 0x148) + 80 * pos
    let d := c.rd (pSep + 0x158)
    let r := m.read a 80
    let near := c.now - nsN d
    let n := unwrap near (recTs r)
    let kind := fld r 0 1
    let before := 0 < pos && !lexLe (c.recKey near (m.read (a - 80) 80)) (c.recKey near r)
    if (kind ≠ 1 && kind ≠ 2) || before then c.rplErr
    else if c.now < n + nsN (aSrc (recSrc r)) + nsN d then c
    else
      let c := (c.readUe m a 80).lpmMoved 3 a 80
      let c := if kind = 1 then c.rplEvent r n d (m.poisonIn a 80) else c.rplVerdict r n d
      let c := c.setF aRplStat 32 32 (pos + 1)
      let c := (List.range 8).foldl (fun c g => if (c.rgn g).replay then c.itemDone g fun o => o.src = .replay else c) c
      if c.rd (pSep + 0x150) ≤ pos + 1 then (c.raiseF aRplStat 1).rplHalt else c

def execReplayRecordPresent (s : State) : Answer := coreStep (fun m c => c.rplPresent m) s

end Sys2Proof.Machine
end

