-- ==== Sys2Proof/Machine/Capture.lean ====
section
/-! DEFINITION. Capture and the trigger sequencer: configuration images (R387 to R391), the merges (R374 to R376), the sequencer's
steps (R392 to R396), records and the pail (R378 to R385), arming and stopping (R386), and trigger pins (R397, R398). -/

namespace Sys2Proof.Machine

/-! ### Configuration images (R387 to R391) -/

/-- Whether every byte of a range is zero. -/
def zeros (l : List Byte) (o n : Nat) : Bool := (slice l o n).all (· = 0)

/-- A match unit that R388 refuses; KIND 0 is an unused unit. -/
def badUnit (u : List Byte) : Bool :=
  let w := fld u 3 1
  fld u 7 1 ≠ 0 || 2 ^ 36 ≤ fld u 8 8 || fld u 0 1 ≠ 0 && (8 < fld u 0 1 || 6 < fld u 1 1 || 2 < fld u 2 1 ||
    !(w = 1 || w = 2 || w = 4 || w = 8) || (fld u 2 1 = 2 && (w ≠ 4 || fld u 24 8 ≠ 0xFFFFFFFF)))

/-- An arc that R391 refuses. -/
def badArc (a : List Byte) : Bool :=
  let k := fld a 0 1
  !(k ≤ 0x17 || k = 0x1F) || 15 < fld a 1 1 || 16 ≤ fld a 3 1 || !zeros a 5 3

/-- Whether an image is refused (R387); `majors` is CAP_VER. -/
def badImage (majors : Nat) (i : List Byte) : Bool :=
  fld i 0 4 ≠ 0x6C696170 || fld i 4 2 &&& majors = 0 ||
  2 ^ 12 ≤ fld i 8 2 || (List.range 6).any (fun k => fld i 8 2 / 4 ^ k % 4 = 3) || 2 ^ 36 ≤ fld i 10 8 ||
  (fld i 20 2 ≠ 0 && (fld i 20 2 < 64 || 9216 < fld i 20 2)) || 2 < fld i 32 1 || 15 < fld i 33 1 ||
  fld i 34 1 < 4 || !zeros i 35 29 || !zeros i 896 128 ||
  (List.range 16).any (fun k => badUnit (slice i (64 + 32 * k) 32)) ||
  (List.range 4).any (fun k => (15 < fld i (576 + 8 * k) 1 && fld i (576 + 8 * k) 1 ≠ 0xFF) || fld i (580 + 8 * k) 4 = 0) ||
  (List.range 4).any (fun k => fld i (608 + 8 * k) 4 = 0) ||
  (List.range 32).any fun k => badArc (slice i (640 + 8 * k) 8)

/-- Fields of the image in force. -/
def Cap.pre (k : Cap) : Nat := fld k.image 22 2
def Cap.post (k : Cap) : Nat := fld k.image 24 4
def Cap.snap (k : Cap) : Nat := fld k.image 20 2

/-! ### Matching (R388) -/

/-- The comparison of a match unit. -/
def unitCompares (u d : List Byte) : Bool :=
  let w := fld u 3 1
  let v := fld u 16 8 % 256 ^ w
  let f := (leNat (slice d (fld u 4 2) w) &&& fld u 24 8)
  let op := fld u 1 1
  let pick := fun (lt eq : Bool) => if op = 0 then true else if op = 1 then eq else if op = 2 then !eq else if op = 3 then !lt && !eq
    else if op = 4 then !lt else if op = 5 then lt else lt || eq
  if op = 0 then true
  else if fld u 2 1 = 0 then pick (f < v) (f = v)
  else if fld u 2 1 = 1 then pick (signed (8 * w) f < signed (8 * w) v) (f = v)
  else
    let nan := fun x : Nat => x / 2 ^ 23 % 256 = 255 && x % 2 ^ 23 ≠ 0
    if nan f || nan v then op = 2
    else
      let key := fun x : Nat => if x / 2 ^ 31 % 2 = 1 then -((x % 2 ^ 31 : Nat) : Int) else ((x % 2 ^ 31 : Nat) : Int)
      pick (key f < key v) (key f = key v)

/-- The data of an observation that units compare and records keep: a frame or packet is cut to SNAP bytes. -/
def Cap.cut (k : Cap) (o : Obs) (d : List Byte) : List Byte :=
  if (o.kind = 1 || o.kind = 4) && k.snap ≠ 0 then d.take k.snap else d

/-- Whether an observation matches unit i. -/
def Cap.matches_ (k : Cap) (i : Nat) (o : Obs) : Bool :=
  i < 16 && unitTakes (k.unit i) o && unitCompares (k.unit i) (k.cut o o.match_)

/-! ### Capture order and the merges (R375, R376) -/

/-- The keys of R375; a trigger mark follows the observation that caused it. -/
def Obs.order (o : Obs) : List Nat := [o.tick, o.cls, o.idx, o.ts, o.rank, o.rgn, o.cell, b2n (o.kind = 9)]

/-- The first observation of a merge. -/
def firstObs (q : List Obs) : Option Obs := leastBy (fun a b => lexLe a.order b.order) q

/-- The regions whose tokens and results a merge takes. -/
def Cap.capRgns (k : Cap) (g : Nat) : Bool := (k.mode 3 ≠ 0 || k.mode 7 ≠ 0) && bit (fld k.image 18 1) g
def Cap.seqRgns (k : Cap) (g : Nat) : Bool :=
  (List.range 16).any fun i => (fld (k.unit i) 0 1 = 3 || fld (k.unit i) 0 1 = 7) && (fld (k.unit i) 6 1 = 0 || bit (fld (k.unit i) 6 1) g)

/-- The kinds of observation that a merge includes (R376, R381): the sequencer's (`sq`) are those of its match units, the capture's those
of the channels that are on. -/
def Cap.kinds (k : Cap) (sq : Bool) (n : Nat) : Bool :=
  if sq then (List.range 16).any fun i => fld (k.unit i) 0 1 = n else k.mode n ≠ 0

/-- Whether every input of a tick that could become an observation of a merge is known: frames have reached the Separator, and pin edges,
final 12 ns after their timestamps, have been accepted. -/
def Core.inputsKnown (c : Core) (sq : Bool) (tick : Nat) : Bool :=
  let e := (tick + 1) * nsN c.tickP
  let has := fun l : List Nat => l.any (c.cap.kinds sq)
  e ≤ c.now && (!has [2, 3, 5, 7, 8] || e + nsN 12 ≤ c.now) && (!has [1, 2, 3, 6, 7, 8] || c.allStarted e)

/-- Whether an observation of a merge that is still to be made could come before a place in capture order: one of an input of the tick
that is not known yet, a frame that is not parsed or whose verdict is not in, an event that may still be lost, or one that is not
released or whose result is not out. -/
def Core.obsAhead (c : Core) (sq : Bool) (tick : Nat) (key : List Nat) : Bool :=
  let ks := c.cap.kinds sq
  let gs := (List.range 8).filter fun g => if sq then c.cap.seqRgns g else c.cap.capRgns g
  let place := fun (e : FordEv) => [e.tick, srcClass e.src, srcIdx e.src, e.n]
  !c.inputsKnown sq tick ||
  c.sep.frames.any (fun f => f.src < 64 && (
    (f.verdict.isNone && ks (if f.src < 8 then 1 else 4) && lexLe [c.tickAt f.tStart, srcClass f.src, srcIdx f.src, f.tStart] key) ||
    (f.verdict.isNone && ks 6 && lexLe [c.tickAt f.tEnd, srcClass f.src, srcIdx f.src, f.tEnd] key) ||
    (!f.walkDone && [2, 3, 7, 8].any ks && lexLe [c.tickAt f.tStart, srcClass f.src, srcIdx f.src] key))) ||
  (ks 8 && c.sep.inbox.any fun e => lexLe (place e) key) ||
  (c.ford.buf ++ c.sep.inbox).any (fun e => e.regions.any gs.contains && lexLe (place e) key) ||
  gs.any fun g => (c.rgn g).iters.any fun i => lexLe [i.tick, srcClass i.src, srcIdx i.src, i.n] key &&
    match (c.rgn g).bin i.set with | some l => (c.rgn g).sched < i.relSched + l.bin.report.lat | none => false

/-- Whether an observation is final. -/
def Core.isFinal (c : Core) (o : Obs) : Bool := match o.final with | some t => t ≤ c.now | none => false

/-- The observation that a merge delivers next, once it and all that precede it are final. -/
def Core.merged (c : Core) (sq : Bool) (q : List Obs) : Option Obs :=
  match firstObs q with
  | some o => if c.isFinal o && !c.obsAhead sq o.tick o.order then some o else none
  | none => none

/-! ### The sequencer (R389 to R396) -/

/-- The first timed step that waits: hold-off's end, then timers 0 to 3, by tick. `4` stands for the hold-off. -/
def Cap.nextTimed (k : Cap) : Option (Nat × Nat) :=
  let h := match k.holding with | some (some t) => [(t, 4)] | _ => []
  let ts := (List.range 4).filterMap fun i => (k.timers.getD i none).map fun t => (t, i)
  leastBy (fun a b => a.1 ≤ b.1) (h ++ ts)

/-- Whether the sequencer's merge has passed the start of a tick, and every timed step before it has been made. -/
def Core.seqPassed (c : Core) (tick : Nat) : Bool :=
  c.cap.halted || (!c.cap.seqQ.any (fun o => o.tick < tick) && (c.cap.nextTimed.all fun x => tick ≤ x.1) && tick * nsN c.tickP ≤ c.now &&
    (tick = 0 || !c.obsAhead true (tick - 1) [tick]))

/-- The level at the ball of a trigger output: TOUT_POL of the image names the outputs that are active low (R387). -/
def Cap.ball (k : Cap) (j : Nat) (active : Bool) : Bool := active != bit (fld k.image 19 1) j

/-- Drive trigger outputs (R393, R395): in safe state output actions are ignored. -/
def Core.driveOuts (c : Core) (outs : Nat) (level : Bool) (till : Option Nat) : Core :=
  if c.safe then c
  else (maskBits 8 outs).foldl (fun c j =>
    let a := pCap + 0x148
    let c := if c.getB a j = level then c else (c.setF a j 1 (b2n level)).emit (.edge (4 + j) (c.cap.ball j level) c.now)
    { c with cap := { c.cap with pulses := match till with | some t => Store.set c.cap.pulses 0 j t | none => Store.erase c.cap.pulses j } }) c

/-- The place at which a step happens: its observation, or the start of a timed step's tick. -/
def timedObs (tick n : Nat) : Obs :=
  { kind := 0, tick := tick, cls := 0, idx := 0, ts := n, rank := 0, rgn := 0, cell := 0, data := [], match_ := [], frame := 0,
    bad := false, final := none }

/-- TRIGGER (R382, R393, R394): the mark, the window, the count and the hold-off. -/
def Core.trigger (c : Core) (x : Obs) (left_ entered arc : Nat) : Core :=
  let k := c.cap
  let n := k.trigNo + 1
  let d := [BitVec.ofNat 8 left_, BitVec.ofNat 8 entered, BitVec.ofNat 8 arc, 0] ++ toLe 4 n ++ toLe 8 (linear c.now)
  let mark : Obs := { x with kind := 9, data := d, match_ := [], frame := 0, bad := false, final := some c.now }
  let kind := fld k.image 32 1
  let hn := fld k.image 28 4
  let hold := if hn = 0 then none else if kind = 0 then some (some (x.tick + ceilDiv hn c.tickP)) else some none
  let k := { k with trigNo := n, windows := k.windows ++ [(x.tick - k.pre, x.tick + k.post)],
                    capQ := if k.stopped then k.capQ else k.capQ ++ [mark], holdCount := 0,
                    holding := if kind = 2 then none else hold, halted := k.halted || kind = 2 }
  { c with cap := k }.bump (pCap + 0xE8)

/-- Act on a fired arc, in the order of R393. -/
def Core.arcAct (c : Core) (x : Obs) (a : List Byte) (arc : Nat) : Core :=
  let act := fld a 2 1
  let sel := fld a 3 1
  let outs := fld a 4 1
  let left_ := c.cap.seqState
  let c := if bit act 0 then { c with cap := { c.cap with counters := setAt c.cap.counters (sel % 4) 0 } } else c
  let c := if bit act 1 then
      let d := fld c.cap.image (608 + 8 * (sel / 4 % 4)) 4
      { c with cap := { c.cap with timers := setAt c.cap.timers (sel / 4 % 4) (some (x.tick + ceilDiv d c.tickP)) } }
    else if bit act 2 then { c with cap := { c.cap with timers := setAt c.cap.timers (sel / 4 % 4) none } } else c
  let c := if bit act 4 then c.driveOuts outs true none else c
  let c := if bit act 5 then c.driveOuts outs false none else c
  let c := if bit act 3 then c.driveOuts outs true (some (c.now + nsN (fld c.cap.image 34 1))) else c
  let c := if bit act 6 then c.trigger x left_ (fld a 1 1) arc else c
  let c := if bit act 7 then { c with cap := { c.cap with halted := true } } else c
  { c with cap := { c.cap with seqState := fld a 1 1 } }

/-- Try the two arcs of the current state (R391, R392). -/
def Core.tryArcs (c : Core) (x : Obs) (cond : Nat → Bool) : Core :=
  let a0 := slice c.cap.image (640 + 16 * c.cap.seqState) 8
  let a1 := slice c.cap.image (648 + 16 * c.cap.seqState) 8
  if cond (fld a0 0 1) then c.arcAct x a0 0 else if cond (fld a1 0 1) then c.arcAct x a1 1 else c

/-- Count an observation (R389), and tell which counters reach their limits. -/
def Cap.count (k : Cap) (o : Obs) : Cap × List Bool :=
  let l : List (Nat × Bool) := (List.range 4).map fun i =>
    let old := k.counters.getD i 0
    if k.matches_ (fld k.image (576 + 8 * i) 1) o then
      let n := min (old + 1) (2 ^ 32 - 1)
      (n, decide (n = fld k.image (580 + 8 * i) 4))
    else (old, false)
  ({ k with counters := l.map (·.1) }, l.map (·.2))

/-- Hold-off by count (R394). -/
def Cap.holdStep (k : Cap) (o : Obs) : Cap :=
  if k.holding = some none ∧ fld k.image 32 1 = 1 ∧ k.matches_ (fld k.image 33 1) o then
    let n := k.holdCount + 1
    { k with holdCount := n, holding := if n = fld k.image 28 4 then none else k.holding }
  else k

/-- The step of R392 for an observation. -/
def Core.seqStep (c : Core) (o : Obs) : Core :=
  let (k, reached) := c.cap.count o
  let c := { c with cap := k }
  if k.holding.isSome then { c with cap := k.holdStep o }
  else c.tryArcs o fun n =>
    if n < 16 then k.matches_ n o else if n < 20 then reached.getD (n - 16) false else false

/-- Capture stops (R385): an OVERFLOW mark takes the place of the next record. -/
def Core.markRecord (c : Core) (o : Obs) (win : Bool) : List Byte :=
  let k := c.cap
  let d := k.cut o o.data
  let num := if o.kind = 1 || o.kind = 4 || o.kind = 6 || o.kind = 2 || o.kind = 8 then o.frame else 0
  let fl := b2n (d.length < o.data.length) + 2 * b2n o.bad + 4 * b2n win
  let h := [BitVec.ofNat 8 o.kind, BitVec.ofNat 8 fl] ++ toLe 2 d.length ++ [BitVec.ofNat 8 (o.cls + 8 * o.idx), 0] ++ toLe 2 num ++
    toLe 8 o.tick ++ toLe 8 (linear o.ts) ++ toLe 4 k.recNo ++ toLe 2 (fld k.image 6 2) ++ toLe 2 0
  h ++ d ++ List.replicate ((32 - d.length % 32) % 32) 0

/-- The pail (R384). -/
def Core.pailBase (c : Core) : Nat := c.rd (pCap + 0xA8)
def Core.pailSize (c : Core) : Nat := c.rd (pCap + 0xB0) * 2 ^ 20
def Core.pailWr (c : Core) : Nat := c.rd (pCap + 0xB8)
def Core.pailRd (c : Core) : Nat := c.rd (pCap + 0xC0)
def Core.pailFree (c : Core) : Nat :=
  let s := c.pailSize
  if s = 0 then 0 else s - (c.pailWr + s - c.pailRd % s) % s

/-- Write to memory what the map lets a requester reach; a refused write changes nothing. -/
def putMapped (c : Core) (m : Mem) (a : Nat) (b : List Byte) : Mem := if c.mapped false a b.length then m.store a b else m

/-- The PAD that a record of n bytes needs before it (R380). -/
def Core.padFor (c : Core) (wr n : Nat) : Nat := if c.pailSize < wr + n then c.pailSize - wr else 0

/-- Put a record into the pail, behind a PAD where it does not fit before the end. -/
def pailPut (m : Mem) (c : Core) (r : List Byte) : Mem × Core :=
  let wr := c.pailWr
  let p := c.padFor wr r.length
  let m := if p = 0 then m else putMapped c m (c.pailBase + wr) ([0, 0] ++ toLe 2 (p - 32) ++ List.replicate (p - 4) 0)
  let o := if p = 0 then wr else 0
  let m := putMapped c m (c.pailBase + o) r
  let nxt := if c.pailSize ≤ o + r.length then 0 else o + r.length
  let c := ((c.wr (pCap + 0xB8) nxt).bump (pCap + 0xF0)).lpmMoved 4 c.pailBase (p + r.length)
  (m, { c with cap := { c.cap with recNo := (c.cap.recNo + 1) % 2 ^ 32 } })

/-- Whether a record fits before CAP_PAIL_RD with room left for the OVERFLOW mark and a PAD before it. -/
def Core.pailFits (c : Core) (n : Nat) : Bool :=
  let p := c.padFor c.pailWr n
  let o := if p = 0 then c.pailWr else 0
  let nxt := if c.pailSize ≤ o + n then 0 else o + n
  p + n + 64 + c.padFor nxt 64 ≤ c.pailFree

/-- Capture stops for a reason (R385). -/
def capStop (m : Mem) (c : Core) (reason : Nat) : Mem × Core :=
  if c.cap.stopped || !c.cap.running then (m, c)
  else
    let at_ := (firstObs c.cap.capQ).getD (timedObs c.tick c.now)
    let d := [BitVec.ofNat 8 reason] ++ toLe 7 0 ++ toLe 8 (linear c.now)
    let mark : Obs := { at_ with kind := 0xA, data := d, match_ := [], frame := 0, bad := false, final := some c.now }
    let r := if c.pailSize = 0 then (m, c) else pailPut m c (c.markRecord mark false)
    (r.1, { r.2 with cap := { r.2.cap with stopped := true, reason := reason, capQ := [] } }.event pCap 8)

/-- The sequencer's queue overflows (R396): it halts, and capture stops. -/
def seqOverflow (m : Mem) (c : Core) : Mem × Core :=
  let n := (c.cap.seqQ.filter c.isFinal).length
  if !c.cap.running || c.cap.halted || n ≤ 65536 then (m, c)
  else
    let c := (c.logErr pCap clsC 0x08 0 0 n).event pCap 10
    capStop m { c with cap := { c.cap with halted := true, seqQ := [] } } 3

/-- The capture merge buffer of 8 MiB is full (R383, R385). -/
def capOverflow (m : Mem) (c : Core) : Mem × Core :=
  let n := (c.cap.capQ.map fun (o : Obs) => 32 + ceilDiv (c.cap.cut o o.data).length 32 * 32).sum
  if 2 ^ 23 < n then capStop m c 2 else (m, c)

/-- SEQUENCER_STEP: the merge's next observation; a timed step of its tick or an earlier one comes first. -/
def sequencerStep (m : Mem) (c : Core) : Mem × Core :=
  let x := seqOverflow m c
  let m := x.1
  let c := x.2
  if c.cap.halted || !c.cap.running then (m, c)
  else match c.merged true c.cap.seqQ with
    | none => (m, c)
    | some o =>
      let timed : Bool := match c.cap.nextTimed with | some (t, _) => t ≤ o.tick | none => false
      if timed then (m, c)
      else
        let wait := if [1, 2, 3, 6, 7, 8].any (c.cap.kinds true) then 58 else if c.cap.kinds true 5 then 12 else 0
        let at_ := max (max c.cap.passed (o.final.getD 0)) ((o.tick + 1) * nsN c.tickP + nsN wait)
        let lag := (c.now - at_) / 2 ^ 16
        let c := c.rcMax (pCap + 0xF8) (lag % 2 ^ 32)
        let c := { c with cap := { c.cap with seqQ := c.cap.seqQ.erase o, passed := max c.cap.passed (o.final.getD 0) } }
        let c := c.seqStep o
        (m, if c.cap.halted then { c with cap := { c.cap with seqQ := [] } } else c)

def execSequencerStep (s : State) : Answer := devStep sequencerStep s

/-- Whether a timed step is next and the merge has passed the start of its tick. -/
def Core.timedDue (c : Core) (k : Nat) : Option Nat :=
  match c.cap.nextTimed with
  | some (t, i) => if i = k && c.cap.running && !c.cap.halted && c.tickBegun t && c.seqPassed t then some t else none
  | none => none

/-- TIMER_EXPIRY (R390, R394): a step of its own; during hold-off it fires no arc. -/
def Core.timerExpiry (c : Core) (k : Nat) : Core :=
  match c.timedDue k with
  | none => c
  | some t =>
    let c := { c with cap := { c.cap with timers := setAt c.cap.timers k none } }
    if c.cap.holding.isSome then c else c.tryArcs (timedObs t (t * nsN c.tickP)) fun n => n = 0x14 + k

def execTimerExpiry (k : Nat) (s : State) : Answer := coreStep (fun _ c => if k < 4 then c.timerExpiry k else c) s

/-- HOLDOFF_END (R394): the end tick of a timed hold-off. -/
def Core.holdoffEnd (c : Core) : Core :=
  match c.timedDue 4 with
  | none => c
  | some _ => { c with cap := { c.cap with holding := none } }

def execHoldoffEnd (s : State) : Answer := coreStep (fun _ c => c.holdoffEnd) s

/-- TRIG_OUT_PULSE_END (R393). -/
def Core.trigPulseEnd (c : Core) (j : Nat) : Core :=
  match c.cap.pulses.find? fun e => e.1 = j with
  | some (_, t) =>
    if c.now < t then c
    else
      let c := { c with cap := { c.cap with pulses := Store.erase c.cap.pulses j } }
      if c.getB (pCap + 0x148) j then (c.setF (pCap + 0x148) j 1 0).emit (.edge (4 + j) (c.cap.ball j false) t) else c
  | none => c

def execTrigOutPulseEnd (j : Nat) (s : State) : Answer := coreStep (fun _ c => c.trigPulseEnd j) s

/-! ### The writer (R382 to R385) -/

/-- Whether a tick lies in a window. -/
def Cap.inWindow (k : Cap) (tick : Nat) : Bool := k.windows.any fun w => w.1 ≤ tick && tick ≤ w.2

/-- CAPTURE_RECORD_WRITE: the merge's next record, once the sequencer has passed its tick plus PRE. A WINDOW record outside every
window is discarded; one that does not fit stops capture. -/
def captureRecordWrite (m : Mem) (c : Core) : Mem × Core :=
  let x := capOverflow m c
  let m := x.1
  let c := x.2
  let k := c.cap
  if !k.running || k.stopped then (m, c)
  else match c.merged false k.capQ with
    | none => (m, c)
    | some o =>
      if !c.seqPassed (o.tick + k.pre + 1) then (m, c)
      else
        let win := k.mode o.kind = 2 && o.kind ≠ 9 && o.kind ≠ 10
        if win && !k.inWindow o.tick then
          (m, { c with cap := { k with capQ := k.capQ.erase o } })
        else
          let r := c.markRecord o win
          if !c.pailFits r.length then capStop m c 1
          else
            let old := k.windows.filter fun w => o.tick ≤ w.2
            pailPut m { c with cap := { k with capQ := k.capQ.erase o, windows := old } } r

def execCaptureRecordWrite (s : State) : Answer := devStep captureRecordWrite s

/-! ### Arming and stopping (R386) -/

/-- CAP_STAT.STATE: IDLE, ARMED, RUNNING, STOPPED. -/
def Cap.state (k : Cap) : Nat := if k.armed.isSome then 1 else if k.stopped then 3 else if k.running then 2 else 0

/-- Arm capture with the image at an address for a tick, where the conditions hold. -/
def Core.capArm (c : Core) (m : Mem) (addr t : Nat) : Option Core :=
  let i := m.read addr 1024
  if c.en pCap && (c.cap.state = 0 || c.cap.state = 3) && c.lead200 t && addr % 64 = 0 && c.mapped false addr 1024 &&
      !badImage (c.getF (pCap + 0x80) 0 16) i then
    some { c with cap := { c.cap with armed := some (t, i) } }
  else none

/-- A rejected arm. -/
def Core.capRej (c : Core) (off v : Nat) : Core := (c.raiseF (pCap + 0xA0) 10).reject pCap off v

/-- CAP_ARM: GO arms at CAP_ARM_AT. -/
def Core.hCapArm (c : Core) (m : Mem) (a : Access) (v : Nat) : Core :=
  if !isPriv a then c
  else
    let c := c.setF (pCap + 0x88) 0 48 v
    if !bit v 48 then c
    else match c.capArm m (v % 2 ^ 48) (c.rd (pCap + 0x90)) with
      | some c => c
      | none => c.capRej 0x88 v

def execCaptureArmWrite (acc : Access) (v : Word64) (s : State) : Answer :=
  coreStep (fun m c => c.hCapArm m acc (setBits (wv v) 48 1 1)) s

/-- CAPTURE_ARM_EFFECT: the arming tick has begun; channels and sequencer start afresh under the image. -/
def Core.captureArmEffect (c : Core) : Core :=
  match c.cap.armed with
  | some (t, i) =>
    if c.tickBegun t then { c with cap := { Cap.idle with image := i, since := t, running := true, pulses := c.cap.pulses } } else c
  | none => c

def execCaptureArmEffect (s : State) : Answer := coreStep (fun _ c => c.captureArmEffect) s

/-- CAP_CTRL.STOP: the end comes at the first tick that starts at least 200 ns later. -/
def Core.hCapCtrl (c : Core) (a : Access) (v : Nat) : Core :=
  if isPriv a && bit v 0 then
    { c with cap := { c.cap with stopTick := some (ceilDiv (c.now + nsN 200) (nsN c.tickP)) } }
  else c

def execStop (acc : Access) (v : Word64) (s : State) : Answer := coreStep (fun _ c => c.hCapCtrl acc (setBits (wv v) 0 1 1)) s

/-- CAPTURE_STOP_EFFECT: capture and the sequencer end; the state reads IDLE. -/
def Core.captureStopEffect (c : Core) : Core :=
  match c.cap.stopTick with
  | some t =>
    let k := { Cap.idle with image := c.cap.image, counters := c.cap.counters, seqState := c.cap.seqState, pulses := c.cap.pulses }
    if c.tickBegun t then { c with cap := k } else c
  | none => c

def execCaptureStopEffect (s : State) : Answer := coreStep (fun _ c => c.captureStopEffect) s

/-! ### Trigger pins (R397, R398) -/

/-- TRIG_CFG of a pin, and TRIG_STAT. -/
def aTrig (i : Nat) : Nat := pCap + 0x100 + 8 * i
def aTrigStat : Nat := pCap + 0x140

/-- TRIG_IN_EDGE: a new level that has held `held` samples of 1 ns, whose timestamp is that of its first sample, at 1 ns resolution; one
that reverts before FILT is counted. -/
def Core.trigInEdge (c : Core) (i phi : Nat) (level : Bool) (held : Nat) : Core :=
  let a := aTrig i
  if 8 ≤ i || c.getB aTrigStat i = level || !c.getB a 0 then c
  else if held < c.getF a 5 4 then (if held < 2 then c.bump (pCap + 0x1C0 + 8 * i) else c.bump (pCap + 0x180 + 8 * i))
  else
    let c := c.setF aTrigStat i 1 (b2n level)
    let c := { c with pins := { c.pins with trigSince := Store.set c.pins.trigSince 0 i c.now } }
    let n := adjust (c.at_ (phi / 2 ^ 16 * 2 ^ 16)) (signed 32 (c.getF a 32 32))
    if !edgeWanted (c.getF a 1 2) level then c
    else
      let c := c.observe (c.pinObs i n level)
      if c.getB a 3 then c.pinEvent i n else c

def execTrigInEdge (i phi : Nat) (level : Bool) (held : Nat) (s : State) : Answer :=
  coreStep (fun _ c => c.trigInEdge i phi level held) s

/-- STUCK (R398): the pin has held the level opposite to IDLE for STUCK_US. -/
def Core.stuck (c : Core) (i : Nat) : Core :=
  let a := aTrig i
  let us := c.getF a 16 16
  if 8 ≤ i || us = 0 || c.getB aTrigStat i = c.getB a 4 || c.getB aTrigStat (8 + i) ||
      c.now < Store.get c.pins.trigSince 0 i + nsN (1000 * us) then c
  else (c.raiseF aTrigStat (8 + i)).event pCap 9

def execStuck (i : Nat) (s : State) : Answer := coreStep (fun _ c => c.stuck i) s

end Sys2Proof.Machine
end

