-- ==== Sys2Proof/Machine/Tasks.lean ====
section
/-! DEFINITION. The task engine: taking descriptors (R305 to R309), dispatch (R310), the kinds (R313 to R326), publications and
their log (R268, R269, R320 to R323), completion (R327), and TASK_CTRL (R317, R328). -/

namespace Sys2Proof.Machine

/-! ### Entries and descriptors (R305, R306) -/

/-- A table entry. -/
def Core.taskAt (c : Core) (e : Nat) : Task := Store.get c.task.table Task.free e
def Core.setTask (c : Core) (e : Nat) (t : Task) : Core := { c with task := { c.task with table := Store.set c.task.table Task.free e t } }
def Core.modTask (c : Core) (e : Nat) (f : Task → Task) : Core := c.setTask e (f (c.taskAt e))

/-- Fields of a descriptor. -/
def dKind (d : List Byte) : Nat := fld d 1 1
def dQueue (d : List Byte) : Nat := fld d 2 1 % 8
def dEntry (d : List Byte) : Nat := fld d 4 2 % 4096
def dGen (d : List Byte) : Nat := fld d 4 2 / 4096
def dNotify (d : List Byte) : Bool := bit (fld d 3 1) 0
def dTolerate (d : List Byte) : Bool := bit (fld d 3 1) 1
/-- The predecessors: entry and GEN. -/
def dPreds (d : List Byte) : List (Nat × Nat) :=
  (List.range (fld d 6 1)).map fun i => (fld d (8 + 2 * i) 2 % 4096, fld d (8 + 2 * i) 2 / 4096)

/-- Status codes of R327. -/
def stOk : Nat := 0
def stCancelled : Nat := 1
def stRefused : Nat := 2
def stRange : Nat := 3
def stProtect : Nat := 4
def stState : Nat := 5
def stOrder : Nat := 6
def stMissed : Nat := 7
def stFault : Nat := 8
def stSelftest : Nat := 9
def stAborted : Nat := 0xA
def stRejected : Nat := 0xB

/-! ### Completions (R327) -/

/-- The completion ring: its size, and whether it is full. -/
def Core.cqSize (c : Core) : Nat := 2 ^ c.getF (pTask + 0xA0) 48 4
def Core.cqTail (c : Core) : Nat := c.getF (pTask + 0xA8) 16 12
def Core.cqFull (c : Core) : Bool := (c.cqTail + 1) % c.cqSize = c.getF (pTask + 0xA8) 0 12 % c.cqSize

/-- The 32 bytes of a completion. -/
def completion (d : List Byte) (status code flags start end_ : Nat) : List Byte :=
  slice d 4 2 ++ [BitVec.ofNat 8 (dKind d), BitVec.ofNat 8 status, BitVec.ofNat 8 code, BitVec.ofNat 8 flags, 0, 0] ++ slice d 24 8 ++
    toLe 8 (linear start) ++ toLe 8 (linear end_)

/-- Write a completion and send it where NOTIFY asks. -/
def cqPut (m : Mem) (c : Core) (b : List Byte) (notify : Bool) : Mem × Core :=
  let m := putMapped c m (c.getF (pTask + 0xA0) 0 48 + 32 * c.cqTail) b
  let c := c.setF (pTask + 0xA8) 16 12 ((c.cqTail + 1) % c.cqSize)
  (m, if notify then (match c.privSess with | some s => c.sendEntries s 0x22 [b] | none => c) else c)

/-- Write the completions that wait, in order, while the ring has room. -/
def cqFlush (fuel : Nat) (m : Mem) (c : Core) : Mem × Core :=
  match fuel, c.task.waiting with
  | fuel + 1, w :: rest =>
    if c.cqFull then (m, c)
    else
      let r := cqPut m { c with task := { c.task with waiting := rest } } w.1 w.2
      cqFlush fuel r.1 r.2
  | _, _ => (m, c)

/-- A completion joins those that wait, and what the ring has room for is written. -/
def complete (m : Mem) (c : Core) (d : List Byte) (status code flags start : Nat) : Mem × Core :=
  let c := c.bump (pTask + 0x110)
  let w := c.task.waiting ++ [(completion d status code flags start c.now, dNotify d)]
  cqFlush w.length m { c with task := { c.task with waiting := w } }

/-! ### Dependences (R309) -/

/-- A task whose predecessors are all DONE becomes READY, unless one ended other than OK and TOLERATE is clear: then the answer is
true, and it is to be cancelled. -/
def Core.ready (c : Core) (e : Nat) : Bool × Core :=
  let t := c.taskAt e
  if t.st ≠ .waiting || t.left ≠ [] then (false, c)
  else if t.bad && !dTolerate t.desc then (true, c)
  else (false, c.setTask e { t with st := .ready, order := c.task.nextOrder })

/-- A predecessor has completed: every WAITING task drops it; those that are cancelled by it are answered. -/
def Core.wake (c : Core) (e gen status : Nat) : List Nat × Core :=
  c.task.table.foldl (fun (x : List Nat × Core) en =>
    if en.2.st = .waiting && en.2.left.contains (e, gen) then
      let c := x.2.modTask en.1 fun t => { t with left := t.left.filter (· ≠ (e, gen)), bad := t.bad || status ≠ 0 }
      let r := c.ready en.1
      (if r.1 then x.1 ++ [en.1] else x.1, r.2)
    else x) ([], c)

/-- Complete tasks, and cancel in turn those whose predecessors did not complete OK. -/
def finishAll : Nat → List (Nat × Nat × Nat) → Mem × Core → Mem × Core
  | fuel + 1, (e, status, code) :: rest, (m, c) =>
    let t := c.taskAt e
    let c := c.setTask e { t with st := .done, status := status, code := code, finish := none }
    let c := if status = stCancelled then c.bump (pTask + 0x118) else c
    let r := complete m c t.desc status code t.flags t.start
    let w := r.2.wake e t.gen status
    finishAll fuel (rest ++ w.1.map fun x => (x, stCancelled, 0)) (r.1, w.2)
  | _, _, x => x

/-- A task completes (R327): what becomes READY by it takes one place in the order. -/
def finishTask (m : Mem) (c : Core) (e status code : Nat) : Mem × Core :=
  let r := finishAll 4097 [(e, status, code)] (m, c)
  (r.1, { r.2 with task := { r.2.task with nextOrder := r.2.task.nextOrder + 1 } })

/-! ### Submission (R307, R308) -/

/-- TASK_SQ_TAIL: the doorbell. It is emulated, so it is served while firmware reports service (R456). -/
def Core.hSqTail (c : Core) (a : Access) (v : Nat) : Core := if isPriv a && c.service then c.setF (pTask + 0x90) 0 12 v else c

def execTaskDoorbell (acc : Access) (v : Word64) (s : State) : Answer := coreStep (fun _ c => c.hSqTail acc (wv v)) s

/-- The bytes of a descriptor that must be zero are: bits of QUEUE and FLAGS, byte 7, unused predecessors, the ARGS bytes of the
kind, and bits [63:48] of addresses. -/
def zeroOk (d : List Byte) : Bool :=
  let k := dKind d
  let n := fld d 6 1
  let addr := fun o : Nat => zeros d (o + 6) 2
  n ≤ 8 && fld d 2 1 < 8 && fld d 3 1 < 4 && fld d 7 1 = 0 && zeros d (8 + 2 * n) (16 - 2 * n) &&
  (if k = 1 then zeros d 46 2 && addr 32 && addr 48 && addr 56
   else if k = 2 then zeros d 56 8 && addr 32 && addr 40
   else if k = 3 then zeros d 56 8 && addr 40
   else if k = 4 then zeros d 42 6 && zeros d 57 7 && addr 32
   else if k = 5 then zeros d 48 16 && addr 40
   else if k = 6 then zeros d 48 16 && addr 32
   else if k = 7 then zeros d 48 16
   else if k = 8 then zeros d 32 32
   else zeros d 33 31)

/-- Whether a predecessor is refused: the task's own entry, a FREE entry, or another GEN. -/
def Core.badPred (c : Core) (own : Nat) (p : Nat × Nat) : Bool := p.1 = own || (c.taskAt p.1).st = .free || (c.taskAt p.1).gen ≠ p.2

/-- The code with which a descriptor is rejected (R308); 0: accepted. -/
def Core.rejectCode (c : Core) (d : List Byte) : Nat :=
  let t := c.taskAt (dEntry d)
  if 16 ≤ fld d 0 1 || !bit (c.getF (pTask + 0x80) 0 16) (fld d 0 1) then 1
  else if dKind d < 1 || 9 < dKind d then 2
  else if !zeroOk d then 3
  else if t.st = .waiting || t.st = .ready || t.st = .running then 4
  else if dGen d ≠ (t.gen + 1) % 16 then 5
  else if (dPreds d).any (c.badPred (dEntry d)) then 6
  else 0

/-- Enter an accepted descriptor: WAITING for the predecessors that are not DONE, READY or CANCELLED at once without any. -/
def accept (m : Mem) (c : Core) (d : List Byte) : Mem × Core :=
  let e := dEntry d
  let done := fun p : Nat × Nat => (c.taskAt p.1).st = .done
  let t : Task := { Task.free with st := .waiting, gen := dGen d, desc := d, seq := c.task.nextSeq,
                                   left := ((dPreds d).filter fun p => !done p).eraseDups,
                                   bad := (dPreds d).any fun p => done p && (c.taskAt p.1).status ≠ 0 }
  let c := (c.setTask e t).bump (pTask + 0x100)
  let c := { c with task := { c.task with nextSeq := c.task.nextSeq + 1 } }
  let r := c.ready e
  if r.1 then finishTask m r.2 e stCancelled 0
  else (m, { r.2 with task := { r.2.task with nextOrder := r.2.task.nextOrder + 1 } })

/-- Whether the engine works: its page is enabled, EN is set, firmware reports service, and the device is not in safe state. -/
def Core.taskOn (c : Core) : Bool := c.en pTask && c.getB (pTask + 0xC8) 18 && c.service && !c.safe

/-- TASK_TAKE: the next descriptor of the submission queue. -/
def taskTake (m : Mem) (c : Core) : Mem × Core :=
  let size := 2 ^ c.getF (pTask + 0x88) 48 4
  let head := c.getF (pTask + 0x98) 0 12 % size
  if !c.taskOn || head = c.getF (pTask + 0x90) 0 12 % size then (m, c)
  else
    let d := m.read (c.getF (pTask + 0x88) 0 48 + 64 * head) 64
    let c := c.setF (pTask + 0x98) 0 12 ((head + 1) % size)
    let k := c.rejectCode d
    if k = 0 then accept m c d else complete m (c.bump (pTask + 0x108)) d stRejected k 0 0

def execTaskTake (s : State) : Answer := devStep taskTake s

/-! ### Publications (R268, R269, R320 to R323) -/

/-- The publication log: its size, the entries in it, and those that tasks and publications under way will append. -/
def Core.plogSize (c : Core) : Nat := 2 ^ c.getF (pTask + 0xB0) 48 4
def Core.plogTail (c : Core) : Nat := c.getF (pTask + 0xB8) 16 15
def Core.plogUsed (c : Core) : Nat := (c.plogTail + c.plogSize - c.getF (pTask + 0xB8) 0 15 % c.plogSize) % c.plogSize
def Core.plogOwed (c : Core) : Nat :=
  (if c.key.pub.isSome then 1 else 0) + c.key.pubArmed.length +
    (c.task.table.filter fun e => e.2.st = .running && dKind e.2.desc = 9 && bit (fld e.2.desc 32 1) 0).length

/-- Whether the log is full (TASK_STAT), and whether it has no room for one more entry beside those owed. -/
def Core.plogFull (c : Core) : Bool := c.plogSize ≤ c.plogUsed + 1
def Core.plogClosed (c : Core) : Bool := c.plogSize ≤ c.plogUsed + c.plogOwed + 1

/-- Append an entry (R322). -/
def plogPut (m : Mem) (c : Core) (p : Pub) (v tick status : Nat) (digest : Word64) : Mem × Core :=
  let prog : Word64 := match c.keyOwner with
    | some g => (((c.rgn g).bin (c.rgn g).set).map fun (l : Loaded) => l.prog).getD 0
    | none => 0
  let b := toLe 8 c.task.plogSeq ++ toLe 8 v ++ toLe 8 tick ++ [BitVec.ofNat 8 p.bank, BitVec.ofNat 8 status] ++ toLe 2 p.idgen ++
    toLe 4 p.first ++ toLe 4 p.count ++ toLe 8 digest.toNat ++ toLe 8 p.user.toNat ++ toLe 8 prog.toNat ++ toLe 4 0
  let m := putMapped c m (c.getF (pTask + 0xB0) 0 48 + 64 * c.plogTail) b
  let c := c.setF (pTask + 0xB8) 16 15 ((c.plogTail + 1) % c.plogSize)
  (m, { c with task := { c.task with plogSeq := c.task.plogSeq + 1, plogV := if status = 3 then c.task.plogV else v + 1 } })

/-- Log a publication's outcome: 0 FLIPPED, 1 MISSED, 2 ABORTED. -/
def plogPub (m : Mem) (c : Core) (p : Pub) (status : Nat) : Mem × Core :=
  let c := if status = 0 then c.bump (pTask + 0x138) else if status = 1 then c.bump (pKey + 0x1D0) else c
  plogPut m c p p.v p.tick status (if status = 1 && !p.written then 0 else p.digest)

/-- The bank that is not active for the events to come (R268). -/
def Core.pubTarget (c : Core) : Nat := 1 - c.activeBank (2 ^ 64)

/-- Whether every event that reads a bank as active has collected (R269): none with a tick below the other bank's flip is still to be
looked up, and none released is short of its collect. A publication that awaits its flip keeps the active bank read until then. -/
def Core.pubFree (c : Core) (b : Nat) : Bool :=
  c.key.pubArmed = [] && match c.keyOwner with
  | none => true
  | some g =>
    let r := c.rgn g
    r.phase = .idle || r.phase = .halted ||
    (!c.eventBefore (c.rd (pKey + 0xE8 + 8 * (1 - b))) && r.iters.all fun i => i.final || c.activeBank i.tick ≠ b)

/-- Patch a line with the bytes of a range. -/
def patchLine (addr off : Nat) (b : List Byte) (l : Payload) : Payload :=
  toPayload ((ofPayload l).mapIdx fun n x => if off ≤ addr + n && addr + n < off + b.length then b.getD (addr + n - off) 0 else x)

/-- Write one ring's bank (R267): the vault, writes under way and saved lines alike. -/
def pubRing (m : Mem) (c : Core) (off : Nat) (b : List Byte) : Mem × Core :=
  let f := fun addr => patchLine addr off b
  (m.store off b,
   { c with fab := { c.fab with vwrites := c.fab.vwrites.map fun (w : VWrite) => { w with line := f w.addr w.line } }
            key := { c.key with undo := c.key.undo.map fun (u : Undo) => { u with saved := f u.addr u.saved } } })

/-- Write a publication into its bank: for ring FIRST + i, record i of the source. A snapshot that shows this bank keeps the lines as
they were. -/
def pubWrite (m : Mem) (c : Core) (k : KeyMap) (p : Pub) (src : Nat) : Mem × Core :=
  let n := 8 * k.pubWords
  let at_ := fun i : Nat =>
    let h := homeOf (kmVaults k).length (p.first + i)
    kmRingAt k h.1 h.2
  let off := kmBankOff k p.bank
  let c := match c.key.snap with
    | some s => if s.bank = p.bank then
        c.snapKeep m ((List.range p.count).flatMap fun i => ([0, 64].filter fun o => overlaps o 64 off n).map fun o => at_ i + o) else c
    | none => c
  let marks := m.marks src (p.count * n)
  let r := (List.range p.count).foldl (fun (x : Mem × Core) i => pubRing x.1 x.2 (at_ i + off) (m.read (src + i * n) n)) (m, c)
  (marks.foldl (fun m w => m.setPoison (at_ ((w - src) / n) + off + (w - src) % n)) r.1,
   (r.2.readUe m src (p.count * n)).lpmMoved 5 src (p.count * n))

/-- The publication that waits writes its bank once the condition of R269 holds, before the instant of V; it then awaits its flip, and
its task ends OK. -/
def pubTry (m : Mem) (c : Core) : Mem × Core :=
  match c.key.pub, c.keyMap with
  | some p, some k =>
    if !c.pubFree c.pubTarget || c.valleyDue p.v then (m, c)
    else
      let src := fld (c.taskAt p.task).desc 40 8
      let p := { p with bank := c.pubTarget, written := true, digest := crc64 (m.read src (p.count * 8 * k.pubWords)) }
      let r := pubWrite m c k p src
      let c := { r.2 with key := { r.2.key with pub := none, pubArmed := [p] } }
      (r.1, c.modTask p.task fun t => { t with finish := some stOk })
  | _, _ => (m, c)

/-- The publication whose instant has come, of lower V first: whether it was written, and itself. -/
def Core.pubDue (c : Core) : Option Pub := leastBy (fun a b => a.v ≤ b.v) ((c.key.pubArmed ++ c.key.pub.toList).filter fun p => c.valleyDue p.v)

/-- PUBLICATION_FLIP: the instant of V. A publication whose writes have ended flips (R268); another is missed (R269). -/
def publicationFlip (m : Mem) (c : Core) : Mem × Core :=
  match c.pubDue with
  | none => (m, c)
  | some p =>
    if p.written then
      let c := c.wr (pKey + 0xE8 + 8 * p.bank) p.tick
      plogPub m { c with key := { c.key with pubArmed := c.key.pubArmed.erase p, recent := p.bank } } p 0
    else
      let c := { c with key := { c.key with pub := none } }
      plogPub m (c.modTask p.task fun t => { t with finish := some stMissed }) p 1

def execPublicationFlip (s : State) : Answer := devStep publicationFlip s

/-! ### Dispatch (R310) -/

/-- Whether a meadow is outside the task pool or held. -/
def Core.meadowBusy (c : Core) (m : Nat) : Bool := m < c.meadows && (c.rgnField m ≠ 0xF || c.task.holders.any fun e => e.1 = m)

/-- Whether the fixed part of the report block that BIN names lies in mapped memory outside the reserve (R415, R418). -/
def Core.binMapped (c : Core) (d : List Byte) : Bool := c.mapped false (fld d 32 8) 128

/-- The binary that BIN names. -/
def binAt (m : Mem) (d : List Byte) : Option Binary := binaryIn m (fld d 32 8)

/-- How many tasks of a kind run. -/
def Core.runningOf (c : Core) (k : Nat) : Nat := (c.task.table.filter fun e => e.2.st = .running && dKind e.2.desc = k).length

/-- Whether a READY task's resource is busy, so that it is passed over. A task whose entry still names the halted meadows of an
earlier one waits for their release. -/
def Core.taskBusy (c : Core) (m : Mem) (e : Nat) : Bool :=
  let d := (c.taskAt e).desc
  let k := dKind d
  if k = 1 then (c.rgn (16 + e)).phase ≠ .idle || (match binAt m d with | some b => b.report.meadows.any c.meadowBusy | none => false)
  else if k = 7 then (maskBits 128 (fld d 32 16)).any c.meadowBusy
  else if k = 2 then 4 ≤ c.runningOf 2
  else if k = 3 then c.key.pub.isSome || c.runningOf 3 ≠ 0 || c.plogClosed
  else if k = 5 then c.key.snap.isSome || c.runningOf 5 ≠ 0
  else if k = 9 then bit (fld d 32 1) 0 && c.plogClosed
  else false

/-- The task of a queue that is dispatched next: the first to become READY whose resource is free; ties go to the lower entry. -/
def Core.firstOf (c : Core) (m : Mem) (q : Nat) : Option Nat :=
  (leastBy (fun a b => a.2.order ≤ b.2.order)
    (c.task.table.filter fun e => e.2.st = .ready && dQueue e.2.desc = q && !c.taskBusy m e.1)).map (·.1)

/-- What the rounds dispatch next: the entry, its queue, and its number within the queue's turn. -/
def Core.nextTask (c : Core) (m : Mem) : Option (Nat × Nat × Nat) :=
  if !c.taskOn || c.cqFull || c.task.waiting ≠ [] then none
  else (List.range 9).findSome? fun i =>
    let q := (c.task.roundQ + i) % 8
    let n := if i = 0 then c.task.roundN else 0
    if n < c.getF (pTask + 0xC0) (8 * q) 8 then (c.firstOf m q).map fun e => (e, q, n) else none

/-- The dispatch of entry e, when it is the next and of the kind: RUNNING from now on, then its work. -/
def dispatch (kind : Nat) (work : Mem → Core → Nat → List Byte → Mem × Core) (e : Nat) (m : Mem) (c : Core) : Mem × Core :=
  match c.nextTask m with
  | none => (m, c)
  | some (x, q, n) =>
    let t := c.taskAt e
    if x ≠ e || dKind t.desc ≠ kind then (m, c)
    else
      let c := c.setTask e { t with st := .running, start := c.now }
      work m { c with task := { c.task with roundQ := q, roundN := n + 1 } } e t.desc

/-- The work of a task has ended with a status. -/
def Core.ends (c : Core) (e status code : Nat) : Core := c.modTask e fun t => { t with finish := some status, code := code }

/-! ### SECTION (R314 to R316) -/

/-- The meadows that a task or slice holds. -/
def Core.hold (c : Core) (ms : List Nat) (e : Nat) : Core :=
  { c with task := { c.task with holders := ms.foldl (fun h m => Store.insert (Store.erase h m) m e) c.task.holders } }
def Core.unhold (c : Core) (e : Nat) : Core := { c with task := { c.task with holders := c.task.holders.filter fun h => h.2 ≠ e } }

/-- Take the meadows of a SECTION task to idle and give them back. -/
def Core.dropSection (c : Core) (e : Nat) : Core :=
  let ms := (c.rgn (16 + e)).meadows
  let c := (c.clearTokens (16 + e)).unhold e
  let c := ({ c with rgns := Store.erase c.rgns (16 + e) } : Core).claimTracks (16 + e)
  { c with fab := { c.fab with loading := c.fab.loading.filter fun k => !ms.contains (k / 8) } }

/-- Start an accepted binary: its MEM images (R338) unless the task before left this binary in all its meadows, and the reloads of
the first four sections. -/
def sectionStart (m : Mem) (c : Core) (e : Nat) (d : List Byte) (b : Binary) (fresh : Bool) : Mem × Core :=
  let l := c.loadedOf b
  let ms := b.report.meadows
  let m := if fresh then b.mem.foldl (putMem b) m else m
  let r : Rgn := { Rgn.idle with bins := setAt [none, none] (b2n b.report.set) (some l), set := b.report.set, g0 := dGen d }
  let c := ((c.setRgn (16 + e) r).claimTracks (16 + e)).hold ms e
  let c := { c with task := { c.task with lastBins := ms.foldl (fun t x => Store.set t 0 x l.prog) c.task.lastBins } }
  let first := fld d 40 2
  let c := c.modTask e fun t => { t with sect := first, fed := 0, outs := 0 }
  (m, (List.range (min 4 (fld d 42 2 + 1 - first))).foldl (fun c i => c.reloadSlot (16 + e) (slotOf b.report.set i) (first + i)) c)

/-- The work of a SECTION: arguments, addresses, loader. -/
def sectionWork (m : Mem) (c : Core) (e : Nat) (d : List Byte) : Mem × Core :=
  if !c.binMapped d then (m, c.ends e stRange 0)
  else match binAt m d with
  | none => (m, c.ends e stRefused 1)
  | some b =>
    let first := fld d 40 2; let last := fld d 42 2; let n := 64 * fld d 44 2
    let inp := fld d 48 8; let out := fld d 56 8
    let fresh := b.report.meadows.any fun x => Store.get c.task.lastBins 0 x ≠ progDigest b
    let code := if fresh then c.loadCode 0xF b else 0
    if last < first || b.report.sections ≤ last || n = 0 then (m, c.ends e stRefused 6)
    else if inp % 8 ≠ 0 || out % 8 ≠ 0 || !c.mapped false inp n || !c.mapped false out n then (m, c.ends e stRange 0)
    else if c.protected out n then (m, c.ends e stProtect 0)
    else if code ≠ 0 then (m, c.ends e stRefused code)
    else sectionStart m c e d b fresh

def execSection (e : Nat) (s : State) : Answer := devStep (fun m c => dispatch 1 sectionWork e m c) s

/-- The exit TAPs of a copy of the section that a task region runs. -/
def Core.exitTaps (c : Core) (g copy copies : Nat) : Nat :=
  let r := c.rgn g
  (c.fab.ctxs.filter fun (k, x) => match x.body with
    | .tap t => k % 8 = slotOf r.set r.sect && c.cellRgn (k / 8) = g && kindOf (k / 8) = .tap && t.role = .result &&
        (copies = 1 || t.copy = copy)
    | _ => false).length

/-- The output tokens of the first `n` iterations of a section: each iteration's come from the exit TAPs of the copy it was fed to. -/
def Core.exitsOf (c : Core) (g copies n : Nat) : Nat :=
  if copies = 2 then (n + 1) / 2 * c.exitTaps g 0 2 + n / 2 * c.exitTaps g 1 2 else n * c.exitTaps g 0 1

/-- Feed the next iteration of a section through its entry TAPs (R315), one per II fc at most; the hazard detector adds 2 fc to the
hop from the Col (R167). -/
def Core.taskFeed (c : Core) (m : Mem) (e : Nat) : Core :=
  let t := c.taskAt e
  let g := 16 + e
  let r := c.rgn g
  match r.bin r.set with
  | none => c
  | some l =>
    if t.st ≠ .running || !c.rgnLive g || fld t.desc 44 2 ≤ t.fed || r.sched < r.relSlot then c
    else
      let a := fld t.desc 48 8 + 64 * t.fed
      let tok : Token := { payload := toPayload (m.read a 64), tag := BitVec.ofNat 16 t.fed, set := r.set,
                           poison := m.poisonIn a 64, late := false, adm := BitVec.ofNat 16 r.sched }
      let copies := l.bin.report.copies
      let new := (c.ingressTaps g r.set (t.fed % copies) copies).map fun cell =>
        ({ tok := tok, rgn := g, due := r.sched + colTime (cellMeadow cell) + (if l.bin.report.debug then 2 else 0), src := cell, dst := cell,
           port := 0 } : Fly)
      let c := (c.readUe m a 64).lpmMoved 5 a 64
      let c := { c with fab := { c.fab with fly := c.fab.fly ++ new } }
      (c.setRgn g { r with relSlot := r.sched + l.bin.report.ii }).setTask e { t with fed := t.fed + 1 }

/-- Whether every iteration of a section has left its exit TAPs. -/
def Core.sectionOver (c : Core) (e : Nat) : Bool :=
  let t := c.taskAt e
  let g := 16 + e
  let n := c.exitsOf g (((c.rgn g).bin (c.rgn g).set).map (·.bin.report.copies) |>.getD 1) t.fed
  t.st = .running && dKind t.desc = 1 && t.finish.isNone && (c.rgn g).phase = .running && t.fed = fld t.desc 44 2 &&
    n ≤ t.outs && (n ≠ 0 || c.fab.fly.all fun f => f.rgn ≠ g)

/-- SECTION_END (R315, R316): the freed slot reloads with section s + 4, and section s + 1 begins as its slot is loaded. -/
def Core.sectionEnd (c : Core) (e : Nat) : Core :=
  if !c.sectionOver e then c
  else
    let t := c.taskAt e
    let g := 16 + e
    let last := fld t.desc 42 2
    if t.sect = last then c.ends e stOk 0
    else
      let r := c.rgn g
      let c := if t.sect + 4 ≤ last then (c.reloadSlot g (slotOf r.set r.sect) (t.sect + 4)).bump (pTask + 0x128) else c
      let c := c.setTask e { t with sect := t.sect + 1, fed := 0, outs := 0 }
      (c.setRgn g { r with phase := .idle }).taskBegin e

def execSectionEnd (e : Nat) (s : State) : Answer := coreStep (fun _ c => c.sectionEnd e) s

/-! ### MOVE (R319) -/

/-- Whether a range lies in the windows outside the reserve, aligned to 64 bytes. -/
def Core.moveOk (c : Core) (a n : Nat) : Bool := a % 64 = 0 && (n = 0 || c.mapped false a n)

/-- The cells of the MEM window that a range touches. -/
def cellsOf (a n : Nat) : List Nat :=
  if 0x100000000 ≤ a && a < 0x200000000 then
    let k := (a - 0x100000000) / 0x20000
    (List.range ((a + n - 1 - 0x100000000) / 0x20000 + 1 - k)).map fun i => k + i
  else []

/-- Whether a MOVE may not write a range: a MEM cell of a meadow in, or lent from, a standing region (R319), a weight store of one that is
not idle (R421), or the rings of the active map. -/
def Core.moveShut (c : Core) (a n : Nat) : Bool :=
  (cellsOf a n).any (fun k => kindOf k = .mem &&
    (c.rgnField (cellMeadow k) < 8 || (List.range 8).any fun g => (c.rgn g).meadows.contains (cellMeadow k))) || c.protected a n

/-- The work of a MOVE up to its copy, which its completion makes: the manual gives the time of none of its lines (log 90). -/
def moveWork (m : Mem) (c : Core) (e : Nat) (d : List Byte) : Mem × Core :=
  let src := fld d 32 8; let dst := fld d 40 8; let n := fld d 48 8
  if n % 64 ≠ 0 || 2 ^ 36 < n || !c.moveOk src n || !c.moveOk dst n || overlaps src n dst n then (m, c.ends e stRange 0)
  else if n ≠ 0 && c.moveShut dst n then (m, c.ends e stProtect 0)
  else (m, c)

/-- The copy of the first `n` bytes of a MOVE. -/
def moveCopy (m : Mem) (c : Core) (d : List Byte) (n : Nat) : Mem × Core :=
  let src := fld d 32 8; let dst := fld d 40 8
  (m.copy src dst n, ((c.readUe m src n).lpmMoved 5 src n).lpmMoved 5 dst n)

def execMove (e : Nat) (s : State) : Answer := devStep (fun m c => dispatch 2 moveWork e m c) s

/-! ### PUBLISH (R320) -/

/-- The work of a PUBLISH up to its wait. -/
def publishWork (m : Mem) (c : Core) (e : Nat) (d : List Byte) : Mem × Core :=
  let v := fld d 32 8; let src := fld d 40 8; let first := fld d 48 4 % 2 ^ 20; let n := fld d 52 4
  let words := (c.keyMap.map (·.pubWords)).getD 0
  let p : Pub := { task := e, v := v, tick := c.tickOf v, bank := c.pubTarget, first := first, count := n, digest := 0,
                   user := BitVec.ofNat 64 (fld d 24 8), idgen := fld d 4 2, written := false }
  if n = 0 || 2 ^ 20 < first + n then (m, c.ends e stRange 0)
  else if words = 0 then (m, c.ends e stState 0)
  else if src % 8 ≠ 0 || !c.mapped false src (n * 8 * words) then (m, c.ends e stRange 0)
  else if v < c.task.plogV then (m, c.ends e stOrder 0)
  else if c.valleyDue v then plogPub m (c.ends e stMissed 0) p 1
  else pubTry m { c with key := { c.key with pub := some p } }

def execPublish (e : Nat) (s : State) : Answer := devStep (fun m c => dispatch 3 publishWork e m c) s

/-! ### SWAP, SNAPSHOT, CAPTURE_ARM, SELFTEST, FENCE, NOTE (R324 to R326) -/

/-- The work of a SWAP: load, then write SWAP_AT as a host would. -/
def swapWork (m : Mem) (c : Core) (e : Nat) (d : List Byte) : Mem × Core :=
  if !c.binMapped d then (m, c.ends e stRange 0)
  else match binAt m d with
  | none => (m, c.ends e stRefused 1)
  | some b =>
    let g := b.report.region
    let k := c.loadCode (g % 8) b
    if k ≠ 0 then (m, c.ends e stRefused k)
    else if g ≠ fld d 40 1 then (m, c.ends e stRefused 4)
    else
      let r := loadStanding m c b
      if !bit (fld d 41 1) 0 then (r.1, r.2.ends e stOk 0)
      else
        let t := fld d 48 8; let mask := fld d 56 1
        let c := r.2.wr (pTime + 0xB0) t
        if c.swapOk t mask then (r.1, (c.armSwap t mask).ends e stOk 0)
        else (r.1, ((c.raiseF aSwap 10).reject pTime 0xB8 (mask + 256)).ends e stState 0)

def execSwap (e : Nat) (s : State) : Answer := devStep (fun m c => dispatch 4 swapWork e m c) s

/-- The work of a SNAPSHOT up to its tick. -/
def snapshotWork (m : Mem) (c : Core) (e : Nat) (d : List Byte) : Mem × Core :=
  let t := fld d 32 8; let dst := fld d 40 8
  match c.keyMap with
  | none => (m, c.ends e stState 0)
  | some k =>
    if dst % 4096 ≠ 0 || dst < lpmBase || !c.mapped false dst (64 + 2 ^ 20 * kmStride k) then (m, c.ends e stRange 0)
    else if !c.lead200 t then (m, c.ends e stState 0)
    else
      let s : Snap := { tick := t, dst := dst, task := e, copying := false, bank := 0, flip := 0, saved := [], undo := [] }
      (m, (({ c with key := { c.key with snap := some s } } : Core).wr (pKey + 0x100) 1).wr (pKey + 0x108) t)

def execSnapshot (e : Nat) (s : State) : Answer := devStep (fun m c => dispatch 5 snapshotWork e m c) s

/-- The work of a CAPTURE_ARM. An image that no task reaches ends it with RANGE (R415, R418). -/
def captureArmWork (m : Mem) (c : Core) (e : Nat) (d : List Byte) : Mem × Core :=
  if !c.mapped false (fld d 32 8) 1024 then (m, c.ends e stRange 0)
  else match c.capArm m (fld d 32 8) (fld d 40 8) with
  | some c => (m, c.ends e stOk 0)
  | none => (m, (c.capRej 0x88 (fld d 32 8)).ends e stState 0)

def execCaptureArm (e : Nat) (s : State) : Answer := devStep (fun m c => dispatch 6 captureArmWork e m c) s

/-- Whether the fabric is at P0 or P1 and every rail within ±3 % (R518). -/
def Core.sliceOk (c : Core) : Bool :=
  c.getF (pPwr + 0x80) 0 2 ≠ 2 && (List.range 10).all fun i => !c.getB (pPwr + 0x100 + 8 * i) 32

/-- Start a slice on a meadow: its state is saved to the firmware reserve, in an amount that the manual gives only roughly (R517). -/
def Core.beginSlice (c : Core) (md : Nat) (owner : Option Nat) : Core :=
  let n := c.fresh
  let c := ((n.2.setF (pFlt + 0xA8) 0 7 md).setF (pFlt + 0xA8) 7 1 1).bumpBy (pLpm + 0x100) n.1
  { c with flt := { c.flt with slice := some (md, owner), last := md } }

/-- The next slice of a SELFTEST task, when no other runs: on its next meadow, or the task has ended (R326, R518). -/
def Core.nextTaskSlice (c : Core) (e : Nat) : Core :=
  let t := c.taskAt e
  if c.flt.slice.isSome || t.st ≠ .running || t.finish.isSome || dKind t.desc ≠ 7 then c
  else match (maskBits 128 (fld t.desc 32 16))[t.sect]? with
    | none => c.ends e stOk 0
    | some md => if c.sliceOk then c.beginSlice md (some e) else c.ends e stState 0

/-- The work of a SELFTEST: it holds its meadows, where it loads no binary (R314), and its first slice starts. -/
def selftestWork (m : Mem) (c : Core) (e : Nat) (d : List Byte) : Mem × Core :=
  let ms := maskBits 128 (fld d 32 16)
  if ms.any fun x => c.meadows ≤ x then (m, c.ends e stRange 0)
  else if !c.sliceOk then (m, c.ends e stState 0)
  else if ms = [] then (m, c.ends e stOk 0)
  else
    let c := { c with task := { c.task with lastBins := ms.foldl (fun t x => Store.erase t x) c.task.lastBins } }
    (m, ((c.hold ms e).modTask e fun t => { t with sect := 0 }).nextTaskSlice e)

def execSelftest (e : Nat) (s : State) : Answer := devStep (fun m c => dispatch 7 selftestWork e m c) s

/-- A FENCE waits for the tasks accepted before it. -/
def fenceWork (m : Mem) (c : Core) (_ : Nat) (_ : List Byte) : Mem × Core := (m, c)

def execFence (e : Nat) (s : State) : Answer := devStep (fun m c => dispatch 8 fenceWork e m c) s

/-- A NOTE has no work. -/
def noteWork (m : Mem) (c : Core) (e : Nat) (_ : List Byte) : Mem × Core := (m, c.ends e stOk 0)

def execNote (e : Nat) (s : State) : Answer := devStep (fun m c => dispatch 9 noteWork e m c) s

/-! ### Completion (R327) -/

/-- Whether every task accepted before a FENCE is DONE. -/
def Core.fenceOpen (c : Core) (t : Task) : Bool := c.task.table.all fun e => t.seq ≤ e.2.seq || e.2.st = .done || e.2.st = .free

/-- The end of a RUNNING task's work that no event of its own marks: a halted section, a MOVE's copy, a publication that may write, a finished
snapshot, an open fence. -/
def taskProgress (m : Mem) (c : Core) (e : Nat) : Mem × Core :=
  let t := c.taskAt e
  let k := dKind t.desc
  if t.st ≠ .running || t.finish.isSome then (m, c)
  else if k = 1 then (m, if (c.rgn (16 + e)).phase = .halted then c.ends e stFault (c.rgn (16 + e)).faultKind else c)
  else if k = 2 then
    let r := moveCopy m c t.desc (fld t.desc 48 8)
    (r.1, r.2.ends e stOk 0)
  else if k = 3 then pubTry m c
  else if k = 5 then (m, if c.key.snap.isNone && c.rd (pKey + 0x100) = 3 then c.ends e stOk 0 else c)
  else if k = 8 then (m, if c.fenceOpen t then c.ends e stOk 0 else c)
  else (m, c)

/-- What completion gives back: the meadows of a SECTION that did not fault and of a SELFTEST that did not fail; a section's flags
show a stall. -/
def Core.giveBack (c : Core) (e status : Nat) : Core :=
  let k := dKind (c.taskAt e).desc
  if k = 1 then
    let c := if (c.rgn (16 + e)).stallFc ≠ 0 then c.modTask e fun t => { t with flags := t.flags ||| 2 } else c
    if (c.rgn (16 + e)).phase = .halted then c else c.dropSection e
  else if k = 7 && status ≠ stSelftest then c.unhold e
  else c

/-- The log entry of a NOTE (R322). -/
def noteLog (m : Mem) (c : Core) (t : Task) : Mem × Core :=
  if dKind t.desc = 9 && bit (fld t.desc 32 1) 0 then
    let p : Pub := { task := 0, v := 0, tick := 0, bank := 0, first := 0, count := 0, digest := 0,
                     user := BitVec.ofNat 64 (fld t.desc 24 8), idgen := fld t.desc 4 2, written := false }
    plogPut m c p (linear c.now) c.tick 3 0
  else (m, c)

/-- Complete a RUNNING task. -/
def endTask (m : Mem) (c : Core) (e status code : Nat) : Mem × Core :=
  let r := noteLog m c (c.taskAt e)
  finishTask r.1 (r.2.giveBack e status) e status code

/-- TASK_COMPLETE of a RUNNING task whose work has ended. A SELFTEST first ends its slice. -/
def taskComplete (m : Mem) (c : Core) (e : Nat) : Mem × Core :=
  let r := taskProgress m c e
  let t := r.2.taskAt e
  let slice := match r.2.flt.slice with | some (_, some x) => x = e | _ => false
  match t.finish with
  | some s => if t.st = .running && !slice then endTask r.1 r.2 e s t.code else r
  | none => r

def execTaskComplete (e : Nat) (s : State) : Answer := devStep (fun m c => taskComplete m c e) s

/-! ### TASK_CTRL (R317, R328) -/

/-- Abort a RUNNING task according to its kind. Work that has ended completes as it ended. A MOVE stops after its current line: how many
lines it has copied is a free value (log 90). -/
def abortRunning (m : Mem) (c : Core) (e : Nat) : Mem × Core :=
  let t := c.taskAt e
  let k := dKind t.desc
  let mine := fun p : Pub => p.task = e && p.idgen = fld t.desc 4 2
  if k = 1 then
    if t.finish.isSome then (m, c)
    else
      let g := 16 + e
      let a := c.anchorOf g
      endTask m (c.haltRgn g a (256 * a) 0 0 false 0) e stAborted 0
  else if k = 2 then
    if t.finish.isSome then (m, c)
    else
      let x := c.fresh
      let r := moveCopy m x.2 t.desc (64 * (x.1 % (fld t.desc 48 8 / 64 + 1)))
      endTask r.1 r.2 e stAborted 0
  else if k = 3 then
    match (c.key.pub.toList ++ c.key.pubArmed).find? mine with
    | none => (m, c)
    | some p =>
      let words := (c.keyMap.map (·.pubWords)).getD 0
      let p := if p.written then p else { p with digest := crc64 (m.read (fld t.desc 40 8) (p.count * 8 * words)) }
      let r := plogPub m { c with key := { c.key with pub := c.key.pub.filter fun x => !mine x,
                                                      pubArmed := c.key.pubArmed.filter fun x => !mine x } } p 2
      endTask r.1 r.2 e stAborted 0
  else if k = 5 then
    if c.key.snap.isNone then (m, c)
    else endTask m (({ c with key := { c.key with snap := none } } : Core).wr (pKey + 0x100) 0) e stAborted 0
  else if k = 7 then (if t.finish.isNone then taskComplete m (c.ends e stAborted 0) e else (m, c))
  else (m, c)

/-- Abort a task in any state. -/
def abortTask (m : Mem) (c : Core) (e : Nat) : Mem × Core :=
  let t := c.taskAt e
  match t.st with
  | .waiting | .ready => finishTask m c e stAborted 0
  | .running => abortRunning m c e
  | _ => (m, c)

/-- RELEASE: the halted meadows of a task that faulted or was aborted go to idle, also when its entry has taken a new task since. -/
def Core.releaseTask (c : Core) (e gen : Nat) : Core :=
  let r := c.rgn (16 + e)
  let t := c.taskAt e
  if r.phase = .halted && r.g0 = gen && !(t.st = .running && t.gen = gen) then c.dropSection e else c

/-- TASK_CTRL: EN, and the command; an emulated register (R456). -/
def hTaskCtrl (m : Mem) (c : Core) (a : Access) (v : Nat) : Mem × Core :=
  if !isPriv a || !c.service then (m, c)
  else
    let c := c.setF (pTask + 0xC8) 18 1 (v / 2 ^ 18)
    let e := v % 4096
    let gen := v / 4096 % 16
    if v / 2 ^ 16 % 4 = 1 then (if (c.taskAt e).gen = gen then abortTask m c e else (m, c))
    else if v / 2 ^ 16 % 4 = 2 then (m, c.releaseTask e gen)
    else (m, c)

def execAbort (acc : Access) (v : Word64) (s : State) : Answer := devStep (fun m c => hTaskCtrl m c acc (setBits (wv v) 16 2 1)) s
def execTaskRelease (acc : Access) (v : Word64) (s : State) : Answer := devStep (fun m c => hTaskCtrl m c acc (setBits (wv v) 16 2 2)) s

/-- TASK_CQ_PTR: the host consumes completions, and those that wait follow. -/
def hCqPtr (m : Mem) (c : Core) (a : Access) (v : Nat) : Mem × Core :=
  if !isPriv a || !c.service then (m, c)
  else
    let c := c.setF (pTask + 0xA8) 0 12 v
    cqFlush c.task.waiting.length m c

end Sys2Proof.Machine
end

