-- ==== Sys2Proof/Machine/Pass.lean ====
section
/-! DEFINITION. Pass lanes: bring-up (R359 to R361, R372), packets and their verdicts (R362 to R365), Stream transmission (R366) and
Link mode (R367, R368). -/

namespace Sys2Proof.Machine

/-! ### Bring-up -/

/-- A lane's status register; its state. -/
def aLaneStat (l : Nat) : Nat := aLane l + 8
def Core.setLaneState (c : Core) (l st : Nat) : Core := c.setF (aLaneStat l) 0 3 st

/-- The packets of a lane that are still arriving get a bad verdict. -/
def Core.cutLane (c : Core) (l : Nat) : Core :=
  { c with sep := { c.sep with frames := c.sep.frames.map fun (f : Frame) =>
    if f.src = 8 + l ∧ f.verdict.isNone ∧ c.now < f.tEnd then { f with uncorr := true } else f } }

/-- Take a lane to HUNT. -/
def Core.toHunt (c : Core) (l : Nat) : Core := (c.setLaneState l 1).cutLane l

/-- Bring a lane's state in step with EN and the page's EN (R359, R458): OFF without both. -/
def Core.laneSync (c : Core) (l : Nat) : Core :=
  let on := c.en pPass && c.getB (aLane l) 0
  if on && c.laneState l = 0 then c.setLaneState l 1
  else if !on && c.laneState l ≠ 0 then ((c.setLaneState l 0).cutLane l).setLane l Lane.off
  else c

/-- PASS_CFG: a change of MODE while the lane is not OFF takes it through HUNT (R372). -/
def Core.hPassCfg (c : Core) (a : Access) (l v : Nat) : Core :=
  if !isPriv a || 16 ≤ l then c
  else
    let moved := c.laneState l ≠ 0 && c.laneMode l ≠ v / 2 % 4
    let c := c.setF (aLane l) 0 18 v
    (if moved then c.toHunt l else c).laneSync l

def execPassCfgWrite (acc : Access) (l : Nat) (v : Word64) (s : State) : Answer := coreStep (fun _ c => c.hPassCfg acc l (wv v)) s

/-- LANE_LOCKED (R359): four K28.5 at one alignment. -/
def Core.laneLocked (c : Core) (l : Nat) : Core :=
  if 16 ≤ l || c.laneState l ≠ 1 then c else (c.setLaneState l 2).setLane l { c.lane l with adverts := [] }

def execLaneLocked (l : Nat) (s : State) : Answer := coreStep (fun _ c => c.laneLocked l) s

/-- LANE_LOCK_LOSS (R360). -/
def Core.laneLockLoss (c : Core) (l : Nat) : Core :=
  if 16 ≤ l || c.laneState l < 2 then c
  else (((c.toHunt l).bump (aLane l + 0x58)).raiseF (aLaneStat l) 10).event pPass (8 + l)

def execLaneLockLoss (l : Nat) (s : State) : Answer := coreStep (fun _ c => c.laneLockLoss l) s

/-- The highest bit of a mask of majors. -/
def topBit (v : Nat) : Nat := ((List.range 8).reverse.find? (bit v)).getD 0

/-- A received set carries FAULT (R370). -/
def Core.peerFault (c : Core) (l : Nat) (fault : Bool) : Core :=
  let c := c.setLane l { c.lane l with fault := fault }
  if fault then (c.raiseF (aLaneStat l) 9).event pPass (24 + l) else c

/-- Three equal adverts decide (R361): UP with the highest common major when the modes are equal, otherwise REFUSED. A lane that
enters UP counts its packets from zero (R364). -/
def Core.decideLane (c : Core) (l : Nat) (adv : List Byte) : Core :=
  let common := c.getF (pPass + 0x80) 0 8 &&& fld adv 0 1
  let same := fld adv 2 1 % 4 = c.laneMode l
  let c := ((c.setF (aLaneStat l) 3 4 (topBit common)).setF (aLaneStat l) 7 1 (b2n (common = 0))).setF (aLaneStat l) 8 1 (b2n (!same))
  if common ≠ 0 && same then
    let c := { c with sep := { c.sep with counts := Store.set c.sep.counts 0 (8 + l) 0 } }
    (c.setLane l { c.lane l with since := c.now }).setLaneState l 3
  else c.setLaneState l 4

/-- VERSION_SET_RECEIVE (R357, R361): an invalid set is discarded. FAULT is no part of the advert. -/
def Core.versionSet (c : Core) (l : Nat) (rx : LaneChars) : Core :=
  if 16 ≤ l || c.laneState l = 0 then c
  else
    let c := c.bumpBy (aLane l + 0x40) rx.viol
    let b := rx.chars
    if c.laneState l < 2 || rx.viol ≠ 0 || b.length ≠ 4 || b.drop 3 ≠ [crc8 (b.take 3)] then c
    else
      let adv := splice (b.take 3) 2 [BitVec.ofNat 8 (fld b 2 1 % 4)]
      let c := c.peerFault l (bit (fld b 2 1) 2)
      let x := c.lane l
      let seen := if x.adverts.head? = some adv then x.adverts ++ [adv] else [adv]
      let c := c.setLane l { x with adverts := seen.take 3 }
      if c.laneState l = 2 then (if 3 ≤ seen.length then c.decideLane l adv else c)
      else if x.adverts.head? = some adv then c
      else c.setLaneState l 2

def execVersionSetReceive (l : Nat) (rx : LaneChars) (s : State) : Answer := coreStep (fun _ c => c.versionSet l rx) s

/-! ### Link mode: sending (R367, R368) -/

/-- A packet's symbols (R362), with K27.7 and K29.7 as their characters. -/
def packetSymbols (type seq : Nat) (pay : List Byte) : List Byte :=
  let b := [BitVec.ofNat 8 type, BitVec.ofNat 8 seq] ++ toLe 2 pay.length ++ pay
  [kStart] ++ b ++ toLe 4 (crc32 b).toNat ++ [kEnd]

/-- Whether a lane may send packets. -/
def Core.laneSends (c : Core) (l : Nat) : Bool := c.laneState l = 3 && !c.safe

/-- Put a packet on a lane. -/
def Core.sendPacket (c : Core) (l type seq : Nat) (pay : List Byte) : Core :=
  (c.emit (.lane l (packetSymbols type seq pay))).bump (aLane l + 0x30)

/-- A rejected LTX command. -/
def Core.ltxRej (c : Core) (l v : Nat) : Core := (c.raiseF (aLane l + 0x20) 54).reject pPass (0x120 + 0x80 * l) v

/-- PASS_LTX_CMD (R367). -/
def Core.hLtx (c : Core) (m : Mem) (a : Access) (l v : Nat) : Core :=
  if 16 ≤ l then c
  else
    let c := c.clearF (aLane l + 0x20) 54 1 (v / 2 ^ 54)
    if !isPriv a || c.laneMode l ≠ 1 || c.laneState l = 0 then c
    else
      let addr := v % 2 ^ 48
      let n := v / 2 ^ 48 % 64
      let x := c.lane l
      if n = 0 || 32 < n || addr % 64 ≠ 0 || 64 ≤ x.unacked.length || addr < lpmBase || !c.mapped true addr (64 * n) then c.ltxRej l v
      else
        let d := m.read addr (64 * n)
        let y := { x with unacked := x.unacked ++ [⟨x.txSeq, d, c.laneSends l⟩], txSeq := (x.txSeq + 1) % 256,
                          since := if x.unacked.isEmpty then c.now else x.since }
        let c := ((c.setLane l y).readUe m addr (64 * n)).lpmMoved 1 addr (64 * n)
        if c.laneSends l then c.sendPacket l 2 x.txSeq d else c

def execLinkTxQueue (acc : Access) (l : Nat) (v : Word64) (s : State) : Answer := coreStep (fun m c => c.hLtx m acc l (wv v)) s

/-- Resend every unacknowledged packet, oldest first; after 16 resends in a row without ACKSEQ advancing they are discarded, and the
lane goes to HUNT. -/
def Core.resend (c : Core) (l : Nat) : Core :=
  let x := c.lane l
  if x.unacked.isEmpty || !c.laneSends l then c
  else if 16 ≤ x.resends then
    let n := x.unacked.length
    let c := c.setLane l { x with unacked := [], resends := 0 }
    ((c.bumpBy (aLane l + 0x50) n).logErr pPass clsD 0x07 0 l n).toHunt l
  else
    let c := c.setLane l { x with resends := x.resends + 1, since := c.now, unacked := x.unacked.map fun p => { p with sent := true } }
    x.unacked.foldl (fun c p => let d := c.sendPacket l 2 p.seq p.data; if p.sent then d.bump (aLane l + 0x48) else d) c

/-- Packets that were queued while the lane could not send leave once it can. -/
def Core.linkFirst (c : Core) (l : Nat) : Core :=
  let x := c.lane l
  if x.unacked.all (·.sent) || c.laneMode l ≠ 1 || !c.laneSends l then c
  else
    let c := c.setLane l { x with since := c.now, unacked := x.unacked.map fun p => { p with sent := true } }
    (x.unacked.filter fun p => !p.sent).foldl (fun c p => c.sendPacket l 2 p.seq p.data) c

/-- ACKSEQ frees every packet up to the one it names. -/
def Core.linkAck (c : Core) (l seq : Nat) : Core :=
  let x := c.lane l
  match x.unacked.findIdx? fun p => p.seq = seq with
  | some i => c.setLane l { x with unacked := x.unacked.drop (i + 1), resends := 0, since := c.now }
  | none => c

/-- IDLE_SET_RECEIVE (R357, R368, R370). -/
def Core.idleSet (c : Core) (l : Nat) (rx : LaneChars) : Core :=
  if 16 ≤ l || c.laneState l = 0 then c
  else
    let c := c.bumpBy (aLane l + 0x40) rx.viol
    let b := rx.chars
    if c.laneState l < 2 || rx.viol ≠ 0 || b.length ≠ 3 || b.drop 2 ≠ [crc8 (b.take 2)] then c
    else
      let st := fld b 0 1
      let c := c.peerFault l (bit st 0)
      if c.laneMode l ≠ 1 || c.laneState l ≠ 3 then c
      else
        let c := c.linkAck l (fld b 1 1)
        if bit st 1 then c.resend l else c

def execIdleSetReceive (l : Nat) (rx : LaneChars) (s : State) : Answer := coreStep (fun _ c => c.idleSet l rx) s

/-- LINK_RETRY_TIMEOUT (R368): 2 µs without ACKSEQ advancing. -/
def Core.linkTimeout (c : Core) (l : Nat) : Core :=
  let x := c.lane l
  if 16 ≤ l || c.laneMode l ≠ 1 || x.unacked.isEmpty || c.now < x.since + nsN 2000 then c else c.resend l

def execLinkRetryTimeout (l : Nat) (s : State) : Answer := coreStep (fun _ c => c.linkTimeout l) s

/-! ### Receiving packets (R362 to R365) -/

/-- PACKET_START: on a lane that is UP, a packet takes its number and T_pkt. A Stream packet's payload is walked by the lane's program;
packets of other modes feed no region. -/
def Core.packetStart (c : Core) (l phi : Nat) (chars : List Byte) (bad : List Nat) (viol : Nat) (ended : Bool) : Core :=
  let src := 8 + l
  let t := adjust (c.at_ phi) (signed 32 (c.getF (pTime + 0x240 + 8 * l) 0 32))
  if 16 ≤ l || c.laneState l ≠ 3 || c.sep.frames.any (fun f => f.src = src && t < f.tEnd) then c
  else
    let n := Store.get c.sep.counts 0 src
    let len := fld chars 2 2
    let tEnd := t + (len + 10) * 2 * 2 ^ 16 / 5
    let stream := c.laneMode l = 0
    let regs := if stream then c.getF (aLane l) 9 8 else 0
    let pset := match (List.range 8).find? (bit regs) with | some g => (c.rgn g).setFor (c.tickAt t) | none => false
    let f : Frame := { src := src, num := n, tStart := t, bytes := chars, cls := if stream then .data else .drop,
                       prog := c.getF (aLane l) 3 6, pset := pset, regions := regs, payOff := 4, payLen := len, implied := none,
                       uncorr := !ended, bads := bad, walkOff := 0, walkCount := 0, walkDone := !stream, tLast := tEnd, tEnd := tEnd,
                       verdict := none, resolved := [] }
    let c := { c with sep := { c.sep with counts := Store.set c.sep.counts 0 src ((n + 1) % 65536), frames := c.sep.frames ++ [f] } }
    let c := (c.bump (aLane l + 0x28)).bumpBy (aLane l + 0x40) viol
    let d := chars.take (4 + len)
    if c.laneMode l = 2 then c else c.observe { f.obs (c.tickAt t) with data := d, match_ := d }

def execPacketStart (l phi : Nat) (chars : List Byte) (bad : List Nat) (viol : Nat) (ended : Bool) (s : State) : Answer :=
  coreStep (fun _ c => c.packetStart l phi chars bad viol ended) s

/-- Whether a packet is good in a mode (R363). -/
def packetGood (mode : Nat) (f : Frame) : Bool :=
  let n := 4 + fld f.bytes 2 2
  !f.uncorr && f.bads.all (fun i => n + 4 < i) && n + 4 ≤ f.bytes.length &&
  slice f.bytes n 4 = toLe 4 (crc32 (f.bytes.take n)).toNat && fld f.bytes 0 1 = mode + 1 && mode < 2

/-- The receive ring in units of 64 bytes, and the units that are free in it. -/
def Core.rxUnits (c : Core) (l : Nat) : Nat := 2 ^ c.getF (aLane l + 0x10) 48 5 / 64
def Core.rxFree (c : Core) (l : Nat) : Nat :=
  let s := c.rxUnits l
  s - 1 - (c.getF (aLane l + 0x18) 32 24 + s - c.getF (aLane l + 0x18) 0 24 % s) % s

/-- Append a payload to the receive ring, unit by unit. -/
def rxPut (m : Mem) (c : Core) (l : Nat) (pay : List Byte) : Mem × Core :=
  let s := c.rxUnits l
  let n := ceilDiv pay.length 64
  let base := c.getF (aLane l + 0x10) 0 48
  let tail := c.getF (aLane l + 0x18) 32 24
  let m := (List.range n).foldl (fun m i =>
    let a := base + 64 * ((tail + i) % s)
    let b := (pay.drop (64 * i)).take 64
    if c.mapped true a 64 then m.store a b else m) m
  (m, (c.setF (aLane l + 0x18) 32 24 ((tail + n) % s)).lpmMoved 1 base (64 * n))

/-- The idle set that a lane sends, whose NAK and ACKSEQ are zero outside Link mode, and its version set (R357). -/
def Core.idleSymbols (c : Core) (l : Nat) : List Byte :=
  let link := c.laneMode l = 1
  let b := [BitVec.ofNat 8 (b2n c.safe + 2 * b2n (link && (c.lane l).nak)), BitVec.ofNat 8 (if link then (c.lane l).rxSeq else 0)]
  0xBC :: (b ++ [crc8 b])
def Core.versionSymbols (c : Core) (l : Nat) : List Byte :=
  let b := [BitVec.ofNat 8 (c.getF (pPass + 0x80) 0 8), BitVec.ofNat 8 (c.getF (pPass + 0x80) 8 8), BitVec.ofNat 8 (c.laneMode l + 4 * b2n c.safe)]
  0x1C :: (b ++ [crc8 b])

/-- A lane that is not OFF sends its next ordered set: every 64th is a version set, in safe state none (R357, R359, R370). -/
def Core.sendSet (c : Core) (l : Nat) : Core :=
  let x := c.lane l
  if c.laneState l = 0 then c
  else (c.setLane l { x with sets := (x.sets + 1) % 64 }).emit
    (.lane l (if x.sets = 63 && !c.safe then c.versionSymbols l else c.idleSymbols l))

/-- What the lanes send of their own accord in a fabric cycle: one ordered set in every 1,638 ns, so in less than 4,096 symbols (R358;
DESIGN CHOICE, log 56), and the Link packets that waited for the lane. -/
def Core.lanesFc (c : Core) (before : Nat) : Core :=
  let c := (List.range 16).foldl (fun c l => c.linkFirst l) c
  if before / nsN 1638 = c.now / nsN 1638 then c else (List.range 16).foldl (fun c l => c.sendSet l) c

/-- A Link packet (R367): accepted when good, next in sequence and with room; otherwise discarded, and NAK is set. The idle set that
follows shows it. -/
def linkAccept (m : Mem) (c : Core) (l : Nat) (f : Frame) (good : Bool) : Mem × Core :=
  let x := c.lane l
  let pay := slice f.bytes 4 (fld f.bytes 2 2)
  if good && fld f.bytes 1 1 = (x.rxSeq + 1) % 256 && ceilDiv pay.length 64 ≤ c.rxFree l then
    let r := rxPut m (c.setLane l { x with rxSeq := (x.rxSeq + 1) % 256, nak := false }) l pay
    (r.1, r.2.sendSet l)
  else (m, (c.setLane l { x with nak := true }).sendSet l)

/-- PACKET_VERDICT of a lane's oldest packet without one, at its predicted end. -/
def packetVerdict (m : Mem) (c : Core) (l : Nat) : Mem × Core :=
  match c.sep.frames.find? fun f => f.src = 8 + l && f.verdict.isNone with
  | none => (m, c)
  | some f =>
    if 16 ≤ l || c.now < f.tEnd then (m, c)
    else
      let mode := c.laneMode l
      let good := packetGood mode f
      let c := if good then c else c.bump (aLane l + 0x38)
      if f.cls = .data then (m, c.verdict f good)
      else
        let c := (c.putFrame { f with verdict := some good }).pruneFrames
        let c := c.finalise (fun o => o.kind = 4 && o.cls = srcClass f.src && o.idx = srcIdx f.src && o.frame = f.num)
          fun o => { o with bad := !good, final := some c.now }
        if mode = 1 then linkAccept m c l f good else (m, c)

def execPacketVerdict (l : Nat) (s : State) : Answer := devStep (fun m c => packetVerdict m c l) s

/-! ### Stream transmission (R366) -/

/-- PASS_STREAM_TRANSMIT: the first queued result in device order leaves once its iteration has committed. -/
def Core.streamTransmit (c : Core) (l : Nat) : Core :=
  let x := c.lane l
  match leastBy (fun (a b : LaneRes) => lexLe a.order b.order) x.txq with
  | none => c
  | some r =>
    if 16 ≤ l || !c.laneSends l || c.laneMode l ≠ 0 || c.fateOf r.rgn r.tag r.set ≠ .committed then c
    else (c.setLane l { x with txq := x.txq.erase r }).sendPacket l 1 0 (ofPayload r.payload)

def execPassStreamTransmit (l : Nat) (s : State) : Answer := coreStep (fun _ c => c.streamTransmit l) s

end Sys2Proof.Machine
end

