-- ==== Sys2Proof/Machine/Memory.lean ====
section
/-! DEFINITION. The vaults and LPDDR6 in service: refresh and its classes (R404 to R407), patrol scrub and error protection (R408 to
R410, R412), recalibration (R417). -/

namespace Sys2Proof.Machine

/-! ### The hot class (R406) -/

/-- VLT_CFG and VLT_HOT of a plain. -/
def aVltCfg (p : Nat) : Nat := pVlt p + 0x80

/-- Whether a vault is in the hot class. -/
def Core.isHot (c : Core) (v : Nat) : Bool := c.pwr.hot.contains v

/-- A vault's sensor reads a temperature, in 1/16 °C: above 85 °C it asks for the hot class, below 82 °C its 1 ms runs. -/
def Core.vaultSensor (c : Core) (v : Nat) (t : Int) : Core :=
  let c := c.setF (aVlt v) 0 12 (unsigned 12 t)
  let p := c.pwr
  let since := if t < 1312 then (if p.coolSince.any fun e => e.1 = v then p.coolSince else Store.insert p.coolSince v c.now)
    else Store.erase p.coolSince v
  { c with pwr := { p with coolSince := since, sensorHot := if 1360 < t then insertNat v p.sensorHot else p.sensorHot } }

/-- VAULT_HOT_ENTER: the sensor has read above 85 °C. -/
def Core.vaultHotEnter (c : Core) (v : Nat) (t : Int) : Core := if v < c.meadows && 1360 < t then c.vaultSensor v t else c

def execVaultHotEnter (m : Nat) (temp : Int) (s : State) : Answer := coreStep (fun _ c => c.vaultHotEnter m temp) s

/-- VAULT_HOT_EXIT: the sensor has read below 82 °C for 1 ms without a break. -/
def Core.vaultHotExit (c : Core) (v : Nat) (t : Int) : Core :=
  if !(v < c.meadows) || 1312 ≤ t then c
  else
    let c := c.vaultSensor v t
    match c.pwr.coolSince.find? fun e => e.1 = v with
    | some (_, s) =>
      if s + nsN 1000000 ≤ c.now then { c with pwr := { c.pwr with sensorHot := c.pwr.sensorHot.filter (· ≠ v) } } else c
    | none => c

def execVaultHotExit (m : Nat) (temp : Int) (s : State) : Answer := coreStep (fun _ c => c.vaultHotExit m temp) s

/-- VLT_CFG. -/
def Core.hVltCfg (c : Core) (a : Access) (p v : Nat) : Core := if isPriv a && p < c.plains then c.setF (aVltCfg p) 0 2 v else c

def execHotForceWrite (acc : Access) (p : Nat) (v : Word64) (s : State) : Answer := coreStep (fun _ c => c.hVltCfg acc p (wv v)) s

/-- A rota period starts: every vault takes the class that its sensor and HOT_FORCE give, and a hot one counts the period. -/
def Core.rotaPeriod (c : Core) : Core :=
  let forced := (List.range c.plains).filter fun p => c.getB (aVltCfg p) 1
  let hot := (List.range c.meadows).filter fun v => c.pwr.sensorHot.contains v || forced.contains (v / 32)
  let c := { c with pwr := { c.pwr with hot := hot } }
  let c := (List.range c.plains).foldl (fun c p =>
    c.wr (pVlt p + 0x88) (toMask ((hot.filter fun v => v / 32 = p).map (· % 32)))) c
  hot.foldl (fun c v => c.bump (aVlt v + 0x18)) c

/-- Entry 15 of a period has begun: a standing region of the standard class stalls for one fc for its hot vaults (R407). -/
def Core.hotStall (c : Core) (g : Nat) : Core :=
  let r := c.rgn g
  match r.bin r.set with
  | none => c
  | some l =>
    let hot := (l.bin.vault.filter fun e => e.maskA ||| e.maskB ≠ 0 && c.isHot e.meadow).map (·.meadow)
    if l.bin.report.hotClass || hot = [] || !c.fabricOn || !(r.phase = .running || r.phase = .draining) then c
    else
      let items := hot.eraseDups.map fun v => ({ src := .hot v, tag := 0, set := r.set } : Overdue)
      if r.stall = [] then c.beginStall g items else c.setRgn g { r with stall := r.stall ++ items }

/-! ### Refresh and scrub (R405, R408, R410) -/

/-- A corrected word (R408): counted and logged with the memory's number and its line. -/
def Core.corrected (c : Core) (page counter n line : Nat) : Core := (c.bump counter).logErr page clsC 0x02 0 n line

/-- The lines of a vault, and those of a bank of it. -/
def vaultLines : Nat := 2097152
def bankLines : Nat := 131072

/-- The line that the scrub reads: the next, or in the bank being refreshed the one at the same place in the next bank. -/
def scrubLine (row next : Nat) : Nat := if next / bankLines = row / 4096 then (next + bankLines) % vaultLines else next

/-- Errors that a scrub meets in a line of words from byte a: correctable ones are corrected, others take the poison code. -/
def scrubWords (m : Mem) (c : Core) (a : Nat) (fix bad : List Nat) (ce : Core → Core) : Mem × Core :=
  let bad := (((bad.filter (· < 8)).map fun w => a + 8 * w) ++ m.marks a 64).eraseDups
  let good := (fix.filter fun w => w < 8 && !bad.contains (a + 8 * w)).eraseDups
  let c := good.foldl (fun c _ => ce c) c
  (bad.foldl (fun m w => m.setPoison w) m, bad.foldl (fun c w => c.wordUe w) c)

/-- REFRESH_ENTRY of vault v, in entry 31, or 15 of a hot vault: the next row, once in an entry; with scrub on, the next line. -/
def refreshEntry (m : Mem) (c : Core) (v : Nat) (fix bad : List Nat) : Mem × Core :=
  let e := c.clk.vc % 32
  let due := e = 31 || (e = 15 && c.isHot v)
  if !(v < c.meadows) || !due || Store.get c.fab.refresh 0 (1024 + v) = c.clk.vc + 1 then (m, c)
  else
    let row := Store.get c.fab.refresh 0 v
    let rf := Store.set (Store.set c.fab.refresh 0 (1024 + v) (c.clk.vc + 1)) 0 v ((row + 1) % 65536)
    let c := { c with fab := { c.fab with refresh := rf } }
    if !c.getB (aVltCfg (v / 32)) 0 then (m, c)
    else
      let next := Store.get c.fab.scrub 0 v
      let line := scrubLine row next
      let c := { c with fab := { c.fab with scrub := Store.set c.fab.scrub 0 v ((next + 1) % vaultLines) } }
      scrubWords m c (aVault v (64 * line)) fix bad fun c => c.corrected (pVlt (v / 32)) (aVlt v + 8) v line

def execRefreshEntry (v : Nat) (correctable uncorrectable : List Nat) (s : State) : Answer :=
  devStep (fun m c => refreshEntry m c v correctable uncorrectable) s

/-- LPDDR6_PATROL_SCRUB of a line (R412). -/
def lpmScrub (m : Mem) (c : Core) (line : Nat) (fix bad : List Nat) : Mem × Core :=
  if !c.getB (pLpm + 0x80) 8 || !c.getB (pLpm + 0x80) 2 || c.lpmSize ≤ 64 * line then (m, c)
  else
    let ch := lpmChannel (64 * line)
    scrubWords m c (lpmBase + 64 * line) fix bad fun c => c.corrected pLpm (aChan ch) ch (lpmOffset (64 * line) / 64)

def execLpddr6PatrolScrub (line : Nat) (correctable uncorrectable : List Nat) (s : State) : Answer :=
  devStep (fun m c => lpmScrub m c line correctable uncorrectable) s

/-- LPDDR6_RECALIBRATION (R417): in service, at most once in 100 ms. -/
def Core.lpmRecal (c : Core) (ch : Nat) : Core :=
  let ok : Bool := match c.pwr.recal.find? fun e => e.1 = ch with
    | some (_, t) => t + nsN 100000000 ≤ c.now
    | none => true
  if 12 ≤ ch || !c.service || !ok then c
  else { c.bump (aChan ch + 0x10) with pwr := { c.pwr with recal := Store.insert (Store.erase c.pwr.recal ch) ch c.now } }

def execLpddr6Recalibration (ch : Nat) (s : State) : Answer := coreStep (fun _ c => c.lpmRecal ch) s

end Sys2Proof.Machine
end

