-- ==== Sys2Proof/Machine/Kwanan.lean ====
section
/-! DEFINITION. Kwanan sessions: opening and closing (R432 to R436), sequencing and retransmission (R428 to R431), authentication and
takeover (R437 to R440), and the capture stream (R450). -/

namespace Sys2Proof.Machine

/-! ### Sequence numbers -/

/-- Whether a number of a modulo-2^32 sequence lies at or before another. -/
def seqLe (a b : Nat) : Bool := (b + 2 ^ 32 - a % 2 ^ 32) % 2 ^ 32 < 2 ^ 31

/-- A standalone ACK, with GAP or CLOSE (R428, R429, R432); it uses no number. -/
def Core.sendAck (c : Core) (s : Nat) (gap close : Bool) : Core :=
  match c.sess s with
  | none => c
  | some x =>
    let x := { x with unackedRx := 0 }
    (c.setSess s x).message s x 0x40 (2 * b2n gap + 4 * b2n close) 0 ((x.txSeq + 1) % 2 ^ 32) []

/-- Resend every unacknowledged message, oldest first (R430). -/
def Core.kwnResend (c : Core) (s : Nat) : Core :=
  match c.sess s with
  | none => c
  | some x =>
    let c := (c.setSess s { x with sinceAck := c.now }).bumpBy (aSess s 0) x.sent.length
    x.sent.foldl (fun (c : Core) (p : Sent) => c.message s x p.type 0 p.ref p.seq p.body) c

/-! ### Closing (R432) -/

/-- The mailbox is released when its holder closes (R494). -/
def Core.dropHolder (c : Core) (s : Nat) : Core :=
  if c.sec.holder = some s then { c with sec := { c.sec with holder := none, challenge := none } } else c

/-- Close a session: its id and buffer are freed. When the capture consumer closes, the send pointer returns to CAP_PAIL_RD (R450). -/
def Core.closeSess (c : Core) (s : Nat) : Core :=
  match c.sess s with
  | none => c
  | some x =>
    let send := if x.role = .capture then c.pailRd else c.kwn.capSend
    ({ c with kwn := { c.kwn with sess := Store.erase c.kwn.sess s, capSend := send } } : Core).dropHolder s

/-- Close every session that a predicate names. -/
def Core.closeWhere (c : Core) (p : Sess → Bool) : Core := (c.sessWhere p).foldl (fun c s => c.closeSess s) c

/-- Close every session with a message that carries CLOSE (R501). -/
def Core.closeAll (c : Core) : Core := (c.sessWhere fun _ => true).foldl (fun c s => (c.sendAck s false true).closeSess s) c

/-! ### Where Kwanan answers -/

/-- The firmware's state: DEV_STATUS.STATE, and through safe state the one before it. -/
def Core.fwState (c : Core) : Nat := if c.devState = 5 then c.flt.stateBefore else c.devState

/-- Whether firmware runs and serves Kwanan, or the boot ROM does (R487, R489). -/
def Core.kwnUp (c : Core) : Bool := !c.inReset && (2 ≤ c.fwState || c.kwn.upload.isSome)

/-- Whether a transport is enabled in KWN_CFG (R424); the boot ROM answers raw Ethernet alone (R489). -/
def Core.transportOn (c : Core) (h : HostAddr) : Bool :=
  match h with
  | .raw _ => c.kwn.upload.isSome || c.getB (pCtl + 0x80) 16
  | .udp4 _ _ => c.kwn.upload.isNone && c.getB (pCtl + 0x80) 17
  | .udp6 _ _ => c.kwn.upload.isNone && c.getB (pCtl + 0x80) 18

/-- A discarded frame or doorbell (R426, R446). -/
def Core.discard (c : Core) : Core := c.bump (pCtl + 0xB0)

/-! ### Challenges (R438) -/

/-- The digest of the identity public key (R480), zero without identity (R491). -/
def Core.idKey (c : Core) : List Byte := (c.sec.ident.map Config.falconPublic).getD []
def Core.idDigest (c : Core) : List Byte :=
  match c.sec.ident with | some s => shake256 (Config.falconPublic s) | none => List.replicate 32 0

/-- A fresh nonce: 32 bytes of a generator that the manual names without its format. -/
def Core.newNonce (c : Core) : List Byte × Core :=
  (slice (Config.nonce (c.sec.ident.getD []) c.now c.kwn.nonces) 0 32, { c with kwn := { c.kwn with nonces := c.kwn.nonces + 1 } })

/-- Send AUTH_CHALLENGE, or owe it until the buffer has room (R433, R438). -/
def Core.sendChallenge (c : Core) (s : Nat) : Core :=
  match c.sess s with
  | none => c
  | some x =>
    if !x.fits 64 then c.setSess s { x with owed := true }
    else
      let n := c.newNonce
      let c := n.2.setSess s { x with nonce := some n.1, nonceAt := c.now, owed := false }
      c.sendTo s 0x03 0 (n.1 ++ c.idDigest) none

/-! ### Receiving (R426, R429, R430) -/

/-- An ACK covers messages: they leave the buffer; a covered CAPTURE_DATA advances CAP_PAIL_RD (R450); an owed challenge follows. -/
def Core.ackUpTo (c : Core) (s ack : Nat) : Core :=
  match c.sess s with
  | none => c
  | some x =>
    let done := x.sent.filter fun (p : Sent) => seqLe p.seq ack
    if !seqLe ack x.txSeq || done.isEmpty then c
    else
      let c := c.setSess s { x with sent := x.sent.filter fun (p : Sent) => !seqLe p.seq ack, timeouts := 0, sinceAck := c.now }
      let c := match (done.filterMap fun (p : Sent) => p.capEnd).getLast? with | some e => c.wr (pCap + 0xC0) e | none => c
      if x.owed then c.sendChallenge s else c

/-- The session that a received message belongs to, when its header is sound (R426). -/
def Core.hdrSess (c : Core) (h : KwnHdr) : Option Sess :=
  if !h.wellFormed then none
  else match c.sess h.session with
    | some x => if x.epoch = h.epoch && x.host = h.host then some x else none
    | none => none

/-- What every message of a session does on arrival: the session is alive, its ACK is taken, GAP asks for a resend (R430), and CLOSE
closes it with an ACK that carries CLOSE (R432). -/
def Core.kwnArrive (c : Core) (h : KwnHdr) (x : Sess) : Core :=
  let c := c.setSess h.session { x with lastFrame := c.now }
  let c := if h.ackv then c.ackUpTo h.session h.ack else c
  let c := if h.ackv && h.gap then c.kwnResend h.session else c
  if h.close then (c.sendAck h.session false true).closeSess h.session else c

/-- The place of a session's last request in device order (R191 to R193): its tick, the code HOST, its session. Requests act when they are
executed and change no host-visible record of an earlier tick. -/
def Sess.place (x : Sess) (s : Nat) : List Nat := [x.reqTick, 0x6, s]

/-- Take a sequenced message (R429): the answer says whether it is the next; a duplicate is answered ACK, a gap ACK with GAP. The next
is stamped with its tick (R193). -/
def Core.takeSeq (c : Core) (h : KwnHdr) : Bool × Core :=
  match c.sess h.session with
  | none => (false, c)
  | some x =>
    if h.seq = (x.rxSeq + 1) % 2 ^ 32 then
      (true, c.setSess h.session { x with rxSeq := h.seq, unackedRx := x.unackedRx + 1,
                                          rxAt := if x.unackedRx = 0 then c.now else x.rxAt, reqTick := h.tick })
    else (false, c.sendAck h.session (!seqLe h.seq x.rxSeq) false)

/-- What answers a request: REG_RESP with a body, NAK with a reason, or nothing. -/
inductive Reply where
  | resp (body : List Byte)
  | nak (reason : Nat)
  | posted
  deriving DecidableEq, Repr

/-- NAK reasons (R442). -/
def nPriv : Nat := 1
def nRange : Nat := 2
def nBusy : Nat := 3
def nProtect : Nat := 4
def nFull : Nat := 5
def nFormat : Nat := 6
def nAuthFail : Nat := 7
def nNoOwner : Nat := 8
def nType : Nat := 9

/-- The body of REG_RESP for data and a poison map (R441). -/
def respBody (data : List Byte) (pmap : List Byte) : List Byte :=
  [BitVec.ofNat 8 (b2n !pmap.isEmpty), 0, 0, 0] ++ toLe 4 data.length ++ data ++ pmap

/-- Send a reply that names the request. -/
def Core.reply (c : Core) (s ref : Nat) : Reply → Core
  | .resp b => c.sendTo s 0x12 ref b none
  | .nak r => c.sendTo s 0x41 ref (BitVec.ofNat 8 r :: List.replicate 7 0) none
  | .posted => c

/-- Whether a reply fits in the retransmit buffer of its session (R433); a session that the request closed gets none. -/
def Core.replyFits (c : Core) (s : Nat) : Reply → Bool
  | .resp b => match c.sess s with | some x => x.fits b.length | none => true
  | .nak _ => match c.sess s with | some x => x.fits 8 | none => true
  | .posted => true

/-- A request of a session: header, ACK, sequence, its work, and its one answer (R441). A request whose answer does not fit is not
taken. -/
def request (m : Mem) (c : Core) (h : KwnHdr) (work : Sess → Mem → Core → Mem × Core × Reply) : Mem × Core :=
  if !c.kwnUp || !c.transportOn h.host then (m, c)
  else
    match c.hdrSess h with
    | none => (m, c.discard)
    | some x =>
      let c := c.kwnArrive h x
      match c.takeSeq h with
      | (false, c') => (m, c')
      | (true, c') =>
        match c'.sess h.session with
        | none => (m, c')
        | some y =>
          let r := work y m c'
          if r.2.1.replyFits h.session r.2.2 then (r.1, r.2.1.reply h.session h.seq r.2.2) else (m, c)

/-! ### OPEN (R434 to R436) -/

/-- OPEN_ACK. -/
def Core.openAck (c : Core) (sess epoch : Nat) (host : HostAddr) (status major minor hnonce : Nat) : Core :=
  let body := [BitVec.ofNat 8 status, BitVec.ofNat 8 major, BitVec.ofNat 8 minor, 0] ++ toLe 2 (c.getF (pCtl + 0x88) 0 16) ++ toLe 2 64 ++
    toLe 4 hnonce
  { c with out := c.out ++ [.openAck sess epoch host body],
           kwn := { c.kwn with txq := c.kwn.txq ++ [kwnFrame host 12] } }

/-- The highest bit of a mask below 16. -/
def topMajor (v : Nat) : Option Nat := (List.range 16).reverse.find? (bit v)

/-- The role of a ROLE field. -/
def roleOf (r : Nat) : Role := if r = 1 then .capture else if r = 2 then .candidate else .observer

/-- A session as it opens. -/
def freshSess (c : Core) (h : KwnHdr) (b : OpenBody) (epoch : Nat) : Sess :=
  { role := roleOf b.role, host := h.host, hnonce := b.hnonce, epoch := epoch, minor := min b.minor (c.getF (pCtl + 0x88) 16 8),
    streams := b.streams, regions := b.regions, rxSeq := 0, txSeq := 0, sent := [], timeouts := 0, sinceAck := c.now, unackedRx := 0,
    rxAt := c.now, lastFrame := c.now, nonce := none, nonceAt := 0, fails := 0, lost := [], owed := false, taken := false,
    reqTick := h.tick }

/-- The answer to an OPEN: a repeat gets the first one again; otherwise FORMAT, NOVER, FULL or ROLE_BUSY, or a new session. The boot ROM
accepts one session (R489). -/
def Core.openSess (c : Core) (h : KwnHdr) (b : OpenBody) : Core :=
  let rom := c.kwn.upload.isSome
  let no := fun st => c.openAck 0xFF 0 h.host st 0 0 b.hnonce
  match c.kwn.sess.find? fun e => e.2.host = h.host && e.2.hnonce = b.hnonce with
  | some (s, x) => c.openAck s x.epoch h.host 0 ((topMajor (c.getF (pCtl + 0x88) 0 16 &&& b.verMask)).getD 0) x.minor x.hnonce
  | none =>
    if !b.reservedZero || 2 < b.role || 3 < b.streams then no 4
    else
      match topMajor (c.getF (pCtl + 0x88) 0 16 &&& b.verMask) with
      | none => no 1
      | some major =>
        match (List.range (if rom then 1 else 64)).find? fun s => (c.sess s).isNone with
        | none => no 2
        | some s =>
          if b.role = 1 && c.capSess.isSome then no 3
          else
            let e := (c.kwn.epochs + 1) % 2 ^ 32
            let x := freshSess c h b e
            let c := (((c.wr (aSess s 0) 0).wr (aSess s 1) 0).wr (aSess s 2) 0).setSess s x
            let c := { c with kwn := { c.kwn with epochs := e, capSend := if b.role = 1 then c.pailRd else c.kwn.capSend } }
            let c := c.openAck s e h.host 0 major x.minor b.hnonce
            if b.role = 2 && !rom then c.sendChallenge s else c

/-- OPEN. -/
def Core.openMsg (c : Core) (h : KwnHdr) (b : OpenBody) : Core :=
  if !c.kwnUp || !c.transportOn h.host then c
  else if !h.wellFormed then c.discard
  else c.openSess h b

def execOpen (h : KwnHdr) (b : OpenBody) (s : State) : Answer := coreStep (fun _ c => c.openMsg h b) s

/-! ### AUTH_RESPONSE (R439, R440) -/

/-- A SESSION notice to the session concerned (R448, R449). -/
def Core.sessNotice (c : Core) (s code : Nat) : Core := c.sendEntries s 0x30 [c.noticeBytes 0 2 code]

/-- The message that an AUTH_RESPONSE signs. -/
def Core.authMessage (c : Core) (s : Nat) (x : Sess) (nonce : List Byte) : List Byte :=
  ascii "KWANAN-AUTH-1" ++ nonce ++ c.idDigest ++ [BitVec.ofNat 8 s] ++ toLe 4 x.epoch

/-- A signature in the format of R480. -/
def sigOk (sig : List Byte) : Bool := sig.length ≤ 1462 && sig.head? = some 0x3A

/-- Whether an owner is enrolled (R492). -/
def Core.ownerValid (c : Core) : Bool := !c.sec.owner.isEmpty

/-- Whether a response verifies against the valid challenge of its session. -/
def Core.authOk (c : Core) (s : Nat) (x : Sess) (sig : List Byte) : Bool :=
  match x.nonce with
  | none => false
  | some n => c.sec.ident.isSome && c.ownerValid && c.now ≤ x.nonceAt + nsN 10000000000 && sigOk sig &&
      Config.falconVerify c.sec.owner (c.authMessage s x n) sig

/-- The session takes privilege; one that held it becomes an observer. -/
def Core.takeOver (c : Core) (s : Nat) : Core :=
  let c := match c.privSess with
    | some o =>
      match c.sess o with
      | some y => (c.setSess o { y with role := .observer, taken := true }).sessNotice o 1
      | none => c
    | none => c
  match c.sess s with
  | some x => c.setSess s { x with role := .privileged, nonce := none }
  | none => c

/-- A failed response: counted, answered, a new challenge; the fourth closes the session. -/
def Core.authFail (c : Core) (s ref : Nat) (x : Sess) : Core :=
  let c := (c.setSess s { x with fails := x.fails + 1, nonce := none }).bump (aSess s 2)
  let c := c.reply s ref (.nak (if c.ownerValid then nAuthFail else nNoOwner))
  if 4 ≤ x.fails + 1 then c.closeSess s else c.sendChallenge s

/-- The work of AUTH_RESPONSE; only a candidate may send it. The answers that carry more than a reply are sent here. -/
def authWork (h : KwnHdr) (sig : List Byte) (x : Sess) (m : Mem) (c : Core) : Mem × Core × Reply :=
  if x.role ≠ .candidate || c.kwn.upload.isSome then (m, c, .nak nType)
  else if !x.fits 8 then (m, c, .nak nAuthFail)
  else if c.authOk h.session x sig then (m, ((c.takeOver h.session).reply h.session h.seq (.resp [])).sessNotice h.session 2, .posted)
  else (m, c.authFail h.session h.seq x, .posted)

def execAuthResponse (h : KwnHdr) (sig : List Byte) (s : State) : Answer := devStep (fun m c => request m c h (authWork h sig)) s

/-! ### ACK, timers and closing -/

/-- ACK of a session. -/
def Core.ackMsg (c : Core) (h : KwnHdr) : Core :=
  if !c.kwnUp || !c.transportOn h.host then c
  else match c.hdrSess h with | none => c.discard | some x => c.kwnArrive h x

def execAck (h : KwnHdr) (s : State) : Answer := coreStep (fun _ c => c.ackMsg h) s

/-- KWANAN_RTO_EXPIRY (R430): the 32nd timeout in a row closes the session. -/
def Core.rtoExpiry (c : Core) (s : Nat) : Core :=
  match c.sess s with
  | none => c
  | some x =>
    if x.sent.isEmpty || c.now < x.sinceAck + nsN (c.getF (pCtl + 0x80) 32 16 * 1000) then c
    else if 31 ≤ x.timeouts then c.closeSess s
    else (c.setSess s { x with timeouts := x.timeouts + 1 }).kwnResend s

def execKwananRtoExpiry (id : Nat) (s : State) : Answer := coreStep (fun _ c => c.rtoExpiry id) s

/-- STANDALONE_ACK (R431): 16 messages taken, or 8 µs passed, without an ACK. -/
def Core.standaloneAck (c : Core) (s : Nat) : Core :=
  match c.sess s with
  | none => c
  | some x => if 16 ≤ x.unackedRx || (x.unackedRx ≠ 0 && x.rxAt + nsN 8000 ≤ c.now) then c.sendAck s false false else c

def execStandaloneAck (id : Nat) (s : State) : Answer := coreStep (fun _ c => c.standaloneAck id) s

/-- IDLE_CLOSE (R432). -/
def Core.idleClose (c : Core) (s : Nat) : Core :=
  match c.sess s with
  | none => c
  | some x => if x.lastFrame + nsN (c.getF (pCtl + 0x80) 48 16 * 1000000) ≤ c.now then c.closeSess s else c

def execIdleClose (id : Nat) (s : State) : Answer := coreStep (fun _ c => c.idleClose id) s

/-- KWN_CTRL: a write of CLOSE closes the named session; an emulated register (R456). -/
def Core.hKwnCtrl (c : Core) (a : Access) (v : Nat) : Core :=
  if isPriv a && c.service && bit v 6 then c.closeSess (v % 64) else c

def execClose (acc : Access) (v : Word64) (s : State) : Answer := coreStep (fun _ c => c.hKwnCtrl acc (wv v)) s

/-- KWN_CFG: RTO_US and IDLE_MS keep their values when the written ones are out of range; a transport that is disabled closes its
sessions (R432, R451). -/
def Core.hKwnCfg (c : Core) (a : Access) (v : Nat) : Core :=
  if !isPriv a || !c.service then c
  else
    let r := pCtl + 0x80
    let rto := v / 2 ^ 32 % 2 ^ 16
    let idle := v / 2 ^ 48 % 2 ^ 16
    let c := c.setF r 0 20 v
    let c := if 10 ≤ rto && rto ≤ 10000 then c.setF r 32 16 rto else c
    let c := if 100 ≤ idle && idle ≤ 60000 then c.setF r 48 16 idle else c
    c.closeWhere fun x => !c.transportOn x.host

/-! ### CAPTURE_DATA (R450) -/

/-- CAPTURE_DATA: the pail bytes from the send pointer to CAP_PAIL_WR or the pail's end, at most 8,160, while they fit in the buffer. -/
def Core.captureData (c : Core) (m : Mem) : Core :=
  match c.capSess with
  | none => c
  | some s =>
    let p := c.kwn.capSend
    let wr := c.pailWr
    let n := min 8160 ((if p ≤ wr then wr - p else c.pailSize - p) / 32 * 32)
    match c.sess s with
    | none => c
    | some x =>
      if n = 0 || !c.kwnUp || !x.fits (16 + n) then c
      else
        let e := if p + n = c.pailSize then 0 else p + n
        ({ c with kwn := { c.kwn with capSend := e } } : Core).sendTo s 0x32 0
          (toLe 8 p ++ toLe 4 n ++ [0, 0, 0, 0] ++ m.read (c.pailBase + p) n) (some e)

def execCaptureData (s : State) : Answer := coreStep (fun m c => c.captureData m) s

end Sys2Proof.Machine
end

