-- ==== Sys2Proof/Machine/Safe.lean ====
section
/-! DEFINITION. Class S errors and safe state (R505 to R514), and the logic self-test in service (R516 to R520). -/

namespace Sys2Proof.Machine

/-! ### Safe state -/

/-- The pages of FLT. -/
def aFltState : Nat := pFlt + 0x80
def aBist : Nat := pFlt + 0xA8

/-- Set DEV_STATUS.STATE; through safe state it is kept for later (R510). -/
def Core.setDevState (c : Core) (st : Nat) : Core :=
  if c.safe then { c with flt := { c.flt with stateBefore := st } } else c.setF 0x88 0 3 st

/-- The slice that runs is abandoned (R518): its meadow is restored and released, and a SELFTEST task ends with STATE. -/
def Core.abandonSlice (c : Core) : Core :=
  match c.flt.slice with
  | none => c
  | some (_, owner) =>
    let c := ({ c.setF aBist 7 1 0 with flt := { c.flt with slice := none } } : Core)
    let c := (c.bump (pFlt + 0x110)).event pFlt 10
    match owner with
    | none => c.unhold 0xFFFF
    | some e => c.ends e stState 0

/-- Abort every RUNNING task (R328, R510). -/
def abortAll (m : Mem) (c : Core) : Mem × Core :=
  ((c.task.table.filter fun (e : Nat × Task) => e.2.st = .running).map (·.1)).foldl (fun r e => abortRunning r.1 r.2 e) (m, c)

/-- An armed swap is disarmed: every named region has failed, with one entry (R512). -/
def Core.dropSwap (c : Core) : Core :=
  match c.swapArmed with
  | none => c
  | some (t, mask, _) =>
    let c := ({ (c.setF aSwap 9 1 0).setF aSwap 24 8 (c.getF aSwap 24 8 ||| mask) with swapArmed := none } : Core)
    c.logErr pTime clsC 0x09 0 ((least (maskBits 8 mask)).getD 0) (t % 2 ^ 32)

/-- Drive every trigger output inactive (R395, R510). -/
def Core.dropOuts (c : Core) : Core := { c.driveOuts 0xFF false none with cap := { c.cap with pulses := [] } }

/-- Every lane drops its Link retransmission state (R370). -/
def Core.dropLinks (c : Core) : Core :=
  (List.range 16).foldl (fun c l => c.setLane l { c.lane l with unacked := [], resends := 0 }) c

/-- Enter safe state (R510, R512). -/
def safeEnter (m : Mem) (c : Core) : Mem × Core :=
  let c := c.shutGate
  let c := { c with ford := { c.ford with buf := [] } }
  let r := abortAll m c.abandonSlice
  let c := r.2.dropOuts.dropSwap.dropLinks
  let st := c.devState
  let c := (c.setF aFltState 0 1 1).setF 0x88 0 3 5
  let c := ((c.wr (pFlt + 0x88) c.tick).wr (pFlt + 0x90) (linear c.now)).bump (pFlt + 0x120)
  (r.1, (({ c with flt := { c.flt with stateBefore := st } } : Core).event pFlt 8).emit .interrupt)

/-- A class S error (R508): logged by the page that detected it with a copy in FLT, recorded in FLT_STATE; the first enters safe state. -/
def errS (m : Mem) (c : Core) (page code source detail : Nat) : Mem × Core :=
  let c := c.logErr page clsS code 0 source detail
  let c := if page = pFlt then c else c.logErr pFlt clsS code 0 source detail
  let first := !c.safe
  let c := if first then { (c.setF aFltState 8 8 code).setF aFltState 24 8 0 with flt := { c.flt with errors := [] } } else c
  let c := (c.setF aFltState 16 8 code).setF aFltState 24 8 (min 255 (c.getF aFltState 24 8 + 1))
  let c := if c.flt.errors.contains (code, source) then c
    else { c with flt := { c.flt with errors := c.flt.errors ++ [(code, source)] } }
  if first then safeEnter m c else (m, c)

/-- FLT_STATE.EXIT_OK (R509, R513, R536): every error of this safe state allows an exit and its condition has cleared. -/
def Core.exitOk (c : Core) : Bool :=
  c.safe && c.flt.errors.all fun (e : Nat × Nat) =>
    if e.1 = 0x40 then false
    else if e.1 = 0x41 ∨ e.1 = 0x42 then c.pwr.warns.isEmpty
    else if e.1 = 0x43 then c.flt.unlocked.isEmpty
    else true

/-- A standing region at exit (R514): one that was running, draining or stalled is halted, with kind 0 and its egress closed. -/
def Core.exitRgn (c : Core) (g : Nat) : Core :=
  let r := c.rgn g
  if r.phase = .running || r.phase = .draining then
    (c.setRgn g { r with phase := .halted, faultKind := 0, stall := [], stallLen := 0, setFrom := none, swapHold := none, swapNext := none }).closeEgress g
  else c

/-- Leave safe state (R514). -/
def Core.safeExit (c : Core) : Core :=
  let c := (List.range 8).foldl (fun c g => c.exitRgn g) c
  let c := (c.setF aFltState 0 1 0).setF 0x88 0 3 3
  { c with flt := { c.flt with errors := [] } }

/-- FLT_CTRL: EXIT as EXIT_OK stands at the write, and ENTER with cause FORCED. -/
def hFltCtrl (m : Mem) (c : Core) (a : Access) (v : Nat) : Mem × Core :=
  if !isPriv a then (m, c)
  else
    let c := if !bit v 1 then c else if c.exitOk then c.safeExit else c.reject pFlt 0x98 v
    if bit v 0 then errS m c pFlt 0x46 (match a.who with | .firmware => 0 | .session _ => 1) 0 else (m, c)

def execEnter (acc : Access) (v : Word64) (s : State) : Answer := devStep (fun m c => hFltCtrl m c acc (setBits (wv v) 0 1 1)) s
def execExit (acc : Access) (v : Word64) (s : State) : Answer := devStep (fun m c => hFltCtrl m c acc (setBits (wv v) 1 1 1)) s

/-- STATE_UE (R509): the page of the commit unit, the time unit or control-complex SRAM. -/
def execStateUe (unit word : Nat) (s : State) : Answer :=
  devStep (fun m c => errS m c (if unit = 0 then pKey else if unit = 1 then pTime else pCtl) 0x44 unit word) s

/-! ### The logic self-test (R516 to R520) -/

/-- The meadow that a periodic slice tests: the next in the task pool that no task holds, after the last one tested and around. -/
def Core.nextMeadow (c : Core) : Option Nat :=
  ((List.range c.meadows).map fun i => (c.flt.last + 1 + i) % c.meadows).find? fun m => !c.meadowBusy m

/-- BIST_SLICE_START: the period of FLT_BIST_CFG has passed. A slice starts, or the period is counted in FLT_BIST_SKIPPED. -/
def Core.sliceStart (c : Core) : Core :=
  let cfg := pFlt + 0xA0
  if !c.getB cfg 0 || c.now < c.flt.lastAt + nsN (c.getF cfg 1 16 * 1000000) then c
  else
    let c := { c with flt := { c.flt with lastAt := c.now } }
    match c.nextMeadow with
    | some md =>
      if c.sliceOk && !c.safe && c.flt.slice.isNone then (c.hold [md] 0xFFFF).beginSlice md none else c.bump (pFlt + 0x108)
    | none => c.bump (pFlt + 0x108)

def execBistSliceStart (s : State) : Answer := coreStep (fun _ c => c.sliceStart) s

/-- The stepping of DEV_ID. -/
def Core.stepping (c : Core) : Nat := c.getF 0x80 8 8

/-- The RUNNING SELFTEST tasks, oldest first, start their next slices. -/
def Core.moreSlices (c : Core) : Core :=
  match leastBy (fun (a b : Nat × Task) => a.2.seq ≤ b.2.seq) (c.task.table.filter fun (e : Nat × Task) =>
      e.2.st = .running && dKind e.2.desc = 7 && e.2.finish.isNone) with
  | some (e, _) => c.nextTaskSlice e
  | none => c

/-- A slice's signature is right: the meadow is restored and released. -/
def Core.sliceOver (c : Core) (owner : Option Nat) : Core :=
  let n := c.fresh
  let c := ({ n.2.setF aBist 7 1 0 with flt := { c.flt with slice := none } } : Core)
  let c := (c.bump (pFlt + 0x100)).bumpBy (pLpm + 0x100) n.1
  match owner with
  | none => (c.unhold 0xFFFF).moreSlices
  | some e => (c.modTask e fun t => { t with sect := t.sect + 1 }).moreSlices

/-- A slice's signature is wrong (R520): logged, the meadow stays held, safe state, and a SELFTEST task ends with SELFTEST_FAIL. -/
def sliceFail (m : Mem) (c : Core) (md : Nat) (owner : Option Nat) (sig : Word64) : Mem × Core :=
  let c := ({ c.setF aBist 7 1 0 with flt := { c.flt with slice := none } } : Core)
  let c := (((c.setF aBist 8 1 1).setF aBist 9 7 md)).event pFlt 9
  let c := match owner with | some e => c.ends e stSelftest md | none => c
  errS m c (pMdw md) 0x40 md ((sig ^^^ Config.bistSignature c.stepping).toNat % 2 ^ 32)

/-- BIST_SLICE_END: the signature is compared with FLT_BIST_SIG_EXP. -/
def sliceEnd (m : Mem) (c : Core) (sig : Word64) : Mem × Core :=
  match c.flt.slice with
  | none => (m, c)
  | some (md, owner) =>
    let c := c.wr (pFlt + 0xB8) sig.toNat
    if sig = Config.bistSignature c.stepping then (m, c.sliceOver owner) else sliceFail m c md owner sig

def execBistSliceEnd (sig : Word64) (s : State) : Answer := devStep (fun m c => sliceEnd m c sig) s

end Sys2Proof.Machine
end

