-- ==== Sys2Proof/Machine/Power.lean ====
section
/-! DEFINITION. Power points (R528 to R533), sensors, rails and their limits (R534 to R537), clocks (R538) and the management port
(R544). -/

namespace Sys2Proof.Machine

/-! ### Power points -/

/-- PWR_PT, and PLN_CLK and PLN_VID of a plain. -/
def aPt : Nat := pPwr + 0x80
def aPlnClk (p : Nat) : Nat := pPln p + 0x80
def aPlnVid (p : Nat) : Nat := pPln p + 0x88

/-- The FAB_VID code of a point (R528). -/
def vidOf (p : Nat) : Nat := if p = 0 then 120 else if p = 1 then 88 else 40

/-- Do something for every plain. -/
def Core.eachPlain (c : Core) (f : Core → Nat → Core) : Core := (List.range c.plains).foldl f c

/-- Drive a FAB_VID code. -/
def Core.driveVid (c : Core) (v : Nat) : Core := c.eachPlain fun c p => c.wr (aPlnVid p) v

/-- Set the lock bit of each plain's standby PLL. -/
def Core.standbyLock (c : Core) (b : Bool) : Core :=
  c.eachPlain fun c p => c.setF (aPlnClk p) (1 - c.getF (aPlnClk p) 2 1) 1 (b2n b)

/-- Whether a point is higher than another: P0 is the highest. -/
def higher (a b : Nat) : Bool := a < b

/-- Whether an arm of a target with an AT count is rejected (R530). -/
def Core.ptRejected (c : Core) (target at_ : Nat) : Bool :=
  c.pwr.arm.isSome || target = 3 || (at_ ≠ 0 && at_ < c.valley + 1000000) ||
  (at_ = 0 && ((List.range 8).any (fun g => (c.rgn g).phase = .running || !(c.rgn g).stall.isEmpty) ||
    c.task.table.any fun (e : Nat × Task) => e.2.st = .running))

/-- Accept an arm (R531): the standby PLLs lock to the target, and a higher target raises FAB_VID at once. -/
def Core.ptArm (c : Core) (target at_ : Nat) : Core :=
  let up := higher target (c.getF aPt 0 2)
  let c := ((if up then c.driveVid (vidOf target) else c).standbyLock false).setF aPt 5 1 1
  { c with pwr := { c.pwr with arm := some ⟨target, at_, c.now, up⟩ } }

/-- PWR_PT: TARGET, ARM and the clearing of REJ. -/
def Core.hPwrPt (c : Core) (a : Access) (v : Nat) : Core :=
  if !isPriv a then c
  else
    let c := c.setF aPt 2 2 (v / 4)
    let c := c.clearF aPt 6 1 (v / 2 ^ 6)
    if !bit v 4 then c
    else if c.ptRejected (c.getF aPt 2 2) (c.rd (pPwr + 0x88)) then (c.raiseF aPt 6).reject pPwr 0x80 v
    else c.ptArm (c.getF aPt 2 2) (c.rd (pPwr + 0x88))

def execPwrPtArm (acc : Access) (v : Word64) (s : State) : Answer := coreStep (fun _ c => c.hPwrPt acc (setBits (wv v) 4 1 1)) s

/-- The standby PLLs have locked: 200 µs after the arm at the latest. -/
def Core.ptLock (c : Core) : Core :=
  match c.pwr.arm with
  | some a => if c.clk.frozen.isNone && a.since + nsN 200000 ≤ c.now then c.standbyLock true else c
  | none => c

/-- POWER_POINT_BOUNDARY (R531): the valley count has reached PWR_PT_AT; or, with 0, a raised voltage has had its 500 µs and the PLLs
have locked, which the command stands for. The fabric freezes and the multiplexer moves; a slice is abandoned (R533). -/
def Core.ptBoundary (c : Core) : Core :=
  match c.pwr.arm with
  | none => c
  | some a =>
    let due : Bool := if a.at_ = 0 then !a.raised || a.since + nsN 500000 ≤ c.now else c.valleyDue a.at_
    if !due || c.clk.frozen.isSome then c
    else
      let c := (c.standbyLock true).eachPlain fun c p => c.setF (aPlnClk p) 2 1 (1 - c.getF (aPlnClk p) 2 1)
      ({ c with clk := { c.clk with frozen := some c.now } } : Core).abandonSlice

def execPowerPointBoundary (s : State) : Answer := coreStep (fun _ c => c.ptBoundary) s

/-- Mark LATE every token in flight or waiting, and every iteration in flight (R532, as R86). -/
def Core.allLate (c : Core) : Core :=
  let t := fun (k : Token) => { k with late := true }
  { c with fab := { c.fab with fly := c.fab.fly.map fun (f : Fly) => { f with tok := t f.tok },
                               held := c.fab.held.map (fun (e : Nat × List Held) =>
                                 (e.1, e.2.map fun (h : Held) => { h with tok := t h.tok })),
                               delays := c.fab.delays.map fun (d : Delayed) => { d with tok := t d.tok } },
           rgns := c.rgns.map fun (e : Nat × Rgn) =>
             (e.1, { e.2 with iters := e.2.iters.map fun (i : Iter) => if i.fate = .pending then { i with late := true } else i }) }

/-- POWER_POINT_RESUME (R531): 64 ns after the freeze began the fabric runs at the new point. -/
def Core.ptResume (c : Core) : Core :=
  match c.clk.frozen, c.pwr.arm with
  | some t, some a =>
    if c.now < t + nsN 64 then c
    else
      let down := higher (c.getF aPt 0 2) a.target
      let c := (((c.allLate.setF aPt 0 2 a.target).setF aPt 5 1 0).bump (pPwr + 0x90)).event pPwr 11
      let c := { c with clk := { c.clk with frozen := none }, pwr := { c.pwr with arm := none } }
      if down then c.driveVid (vidOf a.target) else c
  | _, _ => c

def execPowerPointResume (s : State) : Answer := coreStep (fun _ c => c.ptResume) s

/-! ### Limits -/

/-- Parts (R1, R473), and TDP in W (R39). -/
def Core.part (c : Core) : Nat := c.getF 0x80 0 8
def Core.tdp (c : Core) : Nat := if c.part = 1 then 600 else if c.part = 3 then 340 else 590

/-- Warning codes of the model's list: sensors by their code, then package power, then rails. -/
def wPower : Nat := 0x100
def wRail (r : Nat) : Nat := 0x200 + r

/-- A warning condition holds or not; where it begins its event is raised, with the management port's interrupt (R536, R544). -/
def Core.warn (c : Core) (w ev : Nat) (on : Bool) : Core :=
  if on then
    (if c.pwr.warns.contains w then c
     else (({ c with pwr := { c.pwr with warns := insertNat w c.pwr.warns } } : Core).event pPwr ev).emit .interrupt)
  else { c with pwr := { c.pwr with warns := c.pwr.warns.filter (· ≠ w) } }

/-- Whether a trip is new: it is not among the errors of the current safe state whose condition still holds. -/
def Core.newTrip (c : Core) (code src : Nat) : Bool := !(c.safe && c.flt.errors.contains (code, src))

/-! ### Sensors (R534) -/

/-- The kind of a sensor on the part: 0 logic, 1 vault, 2 optical engine; none where there is no such sensor. -/
def Core.sensorKind (c : Core) (src : Nat) : Option Nat :=
  if src < 8 * c.plains then some 0
  else if 0x20 ≤ src ∧ src < 0x28 then some 0
  else if src = 0x28 then (if c.part = 1 then some 2 else none)
  else if 0x80 ≤ src ∧ src < 0x80 + c.meadows then some 1
  else none

/-- The warning level of a kind, and its trip (R534). -/
def Core.warnLevel (c : Core) (k : Nat) : Int := signed 12 (c.getF (pPwr + 0xA0) (16 * k) 12)
def tripLevel (k : Nat) : Int := if k = 0 then 1680 else if k = 1 then 1520 else 1200

/-- The hottest reading of a kind. -/
def Core.hottest (c : Core) (k : Nat) : Option Int :=
  (c.pwr.temps.filter fun (e : Nat × Nat) => c.sensorKind e.1 = some k).foldl (fun a e =>
    let t := signed 12 e.2
    match a with | none => some t | some x => some (if x < t then t else x)) none

/-- The page that shows a sensor, where its error is logged. -/
def sensorPage (src : Nat) : Nat := if src < 0x20 then pPln (src / 8) else if src < 0x80 then pPwr else pVlt ((src - 0x80) / 32)

/-- A reading is shown. -/
def Core.showTemp (c : Core) (src k : Nat) (t : Int) : Core :=
  let v := unsigned 12 t
  let c := { c with pwr := { c.pwr with temps := Store.insert (Store.erase c.pwr.temps src) src v } }
  let c := if src < 0x20 then c.setF (pPln (src / 8) + 0x100 + 8 * (src % 8)) 0 12 v
    else if k = 1 then c.vaultSensor (src - 0x80) t else c
  c.setF (pPwr + 0xA8) (16 * k) 12 (unsigned 12 ((c.hottest k).getD t))

/-- SENSOR_SAMPLE: the reading, its warning and its trip (R536). -/
def sensorSample (m : Mem) (c : Core) (r : Reading) : Mem × Core :=
  match c.sensorKind r.source with
  | none => (m, c)
  | some k =>
    let t := signed 12 (unsigned 12 r.temp)
    let c := (c.showTemp r.source k t).warn r.source 8 (c.warnLevel k ≤ t)
    if tripLevel k ≤ t && c.newTrip 0x41 r.source then errS m c (sensorPage r.source) 0x41 r.source (unsigned 32 t) else (m, c)

def execSensorSample (r : Reading) (s : State) : Answer := devStep (fun m c => sensorSample m c r) s

/-! ### Rails (R535, R537) -/

/-- The nominal voltage of a rail in 0.1 mV; VDD_FAB's is the one that FAB_VID asks for. -/
def Core.nominal (c : Core) (r : Nat) : Nat :=
  if r = 4 then 5000 + 25 * c.rd (aPlnVid 0) else [7500, 18000, 7500, 8000, 0, 10500, 8500, 12000, 5000, 33000].getD r 0

/-- Whether a voltage in mV lies outside a percentage of a rail's nominal. -/
def Core.outside (c : Core) (r mv pct : Nat) : Bool := pct * c.nominal r < 100 * ((10 * mv - c.nominal r) + (c.nominal r - 10 * mv))

/-- A rail is shown, with its warning; a slice is abandoned when a rail leaves ±3 % (R518). -/
def Core.showRail (c : Core) (r mv amps : Nat) : Core :=
  let a := pPwr + 0x100 + 8 * r
  let out := c.outside r mv 3
  let c := (((c.setF a 0 16 mv).setF a 16 16 amps).setF a 32 1 (b2n out)).warn (wRail r) 10 out
  if out then c.abandonSlice else c

/-- Package power is shown, with its warning. -/
def Core.showPower (c : Core) (p : Nat) : Core := (c.setF (pPwr + 0x98) 0 16 p).warn wPower 9 (8 * c.getF (pPwr + 0x98) 16 16 ≤ p)

/-- How long a rail has been outside ±5 %. -/
def Core.railSince (c : Core) (r : Nat) (out : Bool) : Core :=
  let l := c.pwr.outSince
  let l := if !out then Store.erase l r else if l.any fun (e : Nat × Nat) => e.1 = r then l else Store.insert l r c.now
  { c with pwr := { c.pwr with outSince := l } }

/-- Whether a rail has been outside ±5 % for 10 µs. -/
def Core.railTrip (c : Core) (r : Nat) : Bool := c.pwr.outSince.any fun (e : Nat × Nat) => e.1 = r && e.2 + nsN 10000 ≤ c.now

/-- RAIL_SAMPLE: a rail's voltage and current, and package power. The manual gives the trip of package power no SOURCE: a free value
stands for it. -/
def railSample (m : Mem) (c : Core) (r mv amps power : Nat) : Mem × Core :=
  if r = 9 ∧ c.part ≠ 1 then (m, c)
  else
    let c := ((c.showRail r (mv % 2 ^ 16) amps).railSince r (c.outside r (mv % 2 ^ 16) 5)).showPower (power % 2 ^ 16)
    let x := if c.railTrip r && c.newTrip 0x42 r then errS m c pPwr 0x42 r (mv % 2 ^ 16) else (m, c)
    if 11 * 8 * c.tdp < 10 * (power % 2 ^ 16) && !(x.2.safe && x.2.flt.errors.any fun (e : Nat × Nat) => e.1 = 0x42) then
      let n := x.2.fresh
      errS x.1 n.2 pPwr 0x42 (n.1 % 2 ^ 32) (power % 2 ^ 16)
    else x

def execRailSample (rail mv amps power : Nat) (s : State) : Answer :=
  devStep (fun m c => if rail < 10 then railSample m c rail mv amps power else (m, c)) s

/-! ### Clocks (R538) -/

/-- CLOCK_LOSS: kind 0 REFCLK_SYS, 1 a fabric PLL, 2 a vault PLL; a PLL that unlocks is shown by its plain. -/
def clockLoss (m : Mem) (c : Core) (kind plain : Nat) : Mem × Core :=
  let p := if kind = 0 then 0 else plain
  if 2 < kind || c.plains ≤ p || c.flt.unlocked.contains (kind, p) then (m, c)
  else
    let c := { c with flt := { c.flt with unlocked := c.flt.unlocked ++ [(kind, p)] } }
    let c := if kind = 1 then c.setF (aPlnClk p) (c.getF (aPlnClk p) 2 1) 1 0 else c
    let c := if kind = 0 then c else (c.raiseF (aPlnClk p) 3).event (pPln p) 8
    errS m c (if kind = 0 then pPwr else pPln p) 0x43 kind p

def execClockLoss (kind plain : Nat) (s : State) : Answer := devStep (fun m c => clockLoss m c kind plain) s

/-- CLOCK_LOCKED: the clock is back. -/
def Core.clockLocked (c : Core) (kind plain : Nat) : Core :=
  let p := if kind = 0 then 0 else plain
  if !c.flt.unlocked.contains (kind, p) then c
  else
    let c := { c with flt := { c.flt with unlocked := c.flt.unlocked.filter (· ≠ (kind, p)) } }
    if kind = 1 then c.setF (aPlnClk p) (c.getF (aPlnClk p) 2 1) 1 1 else c

def execClockLocked (kind plain : Nat) (s : State) : Answer := coreStep (fun _ c => c.clockLocked kind plain) s

/-! ### The management port (R544) -/

/-- MG_BOOT_MAC: 0x02 and ID_DIGEST bytes 0 to 4 (R489). -/
def Core.bootMac (c : Core) : List Byte := 0x02 :: c.idDigest.take 5

/-- What a read of a management register gives. -/
def Core.mgReg (c : Core) (a : Nat) : Nat :=
  let lo := fun n => n % 256
  let hi := fun n => n / 256 % 256
  let tl := unsigned 16 ((c.hottest 0).getD 0)
  let tv := unsigned 16 ((c.hottest 1).getD 0)
  if a = 0x00 then 0x53
  else if a = 0x01 then (if c.inReset then 0xFF else c.devState)
  else if a = 0x02 then c.flt.heldReset
  else if a = 0x03 then c.flt.failMeadow
  else if a = 0x04 then c.getF aPt 0 2
  else if a = 0x05 then lo tl else if a = 0x06 then hi tl
  else if a = 0x07 then lo tv else if a = 0x08 then hi tv
  else if a = 0x09 then c.getF (pPwr + 0x98) 0 8 else if a = 0x0A then c.getF (pPwr + 0x98) 8 8
  else if a = 0x0B then c.getF aFltState 8 8
  else if 0x10 ≤ a ∧ a < 0x16 then (c.bootMac.getD (a - 0x10) 0).toNat
  else if a = 0x16 then c.getF (pSec + 0x80) 8 8
  else 0

end Sys2Proof.Machine
end

