-- ==== Sys2Proof/Machine/Boot.lean ====
section
/-! DEFINITION. Starting the device: held reset (R522, R523), identity and owner (R490 to R492), the boot record and image checks (R483 to
R488), training (R416), zeroing (R550), boot from the host (R489), firmware's start and the handshake (R479, R487). -/

namespace Sys2Proof.Machine

/-! ### Signed formats (R480, R481) -/

/-- A signature over a domain tag and content under a key. -/
def signed1024 (tag : String) (key content sig : List Byte) : Bool := sigOk sig && Config.falconVerify key (ascii tag ++ content) sig

/-! ### The boot record (R483) -/

/-- The boot record's fields. -/
structure BootRec where
  seq : Nat
  active : Nat
  trial : Option Nat
  tried : Bool
  rejected : Nat
  floor : Nat
  copy : Nat
  deriving DecidableEq, Repr

/-- A copy of the boot record, when its MAGIC and CHECK are good. -/
def bootCopy (m : Mem) (k : Nat) : Option BootRec :=
  let b := m.flashRead (0x8000 * k) 64
  if fld b 0 4 = 0x64726362 ∧ fld b 56 8 = (crc64 (b.take 56)).toNat then
    some { seq := fld b 4 4, active := fld b 8 1 % 2, trial := if fld b 9 1 = 0xFF then none else some (fld b 9 1 % 2),
           tried := fld b 10 1 = 1, rejected := fld b 11 1, floor := fld b 12 4, copy := k }
  else none

/-- The record in force: the good copy of the greater SEQ; with none, slot 0 confirmed and nothing rejected. -/
def bootRec (m : Mem) : BootRec :=
  match bootCopy m 0, bootCopy m 1 with
  | some a, some b => if a.seq < b.seq then b else a
  | some a, none => a
  | none, some b => b
  | none, none => { seq := 0, active := 0, trial := none, tried := false, rejected := 0, floor := 0, copy := 1 }

/-- The bytes of a record. -/
def recBytes (r : BootRec) : List Byte :=
  let b := toLe 4 0x64726362 ++ toLe 4 r.seq ++ [BitVec.ofNat 8 r.active, (match r.trial with | none => 0xFF | some t => BitVec.ofNat 8 t),
    BitVec.ofNat 8 (b2n r.tried), BitVec.ofNat 8 r.rejected] ++ toLe 4 r.floor ++ List.replicate 40 0
  b ++ toLe 8 (crc64 b).toNat

/-- A change of record is written with SEQ + 1 into the other copy. -/
def putRec (m : Mem) (r : BootRec) : Mem :=
  let n := { r with seq := r.seq + 1, copy := 1 - r.copy }
  m.flashWrite (0x8000 * n.copy) (recBytes n)

/-! ### Images (R484 to R486) -/

/-- The part kinds in load order with their limits (R485), on a part. -/
def partKinds (part : Nat) : List (Nat × Nat) :=
  [(4, 512 * 1024), (5, 512 * 1024), (2, 4 * 2 ^ 20)] ++ (if part = 1 then [(3, 4 * 2 ^ 20)] else []) ++ [(6, 2 ^ 20), (1, 20 * 2 ^ 20)]

/-- Part entry i of a manifest. -/
def partEntry (man : List Byte) (i : Nat) : List Byte := slice man (32 + 64 * i) 64

/-- The one entry of a kind. -/
def partOf (man : List Byte) (kind : Nat) : Option (List Byte) :=
  match ((List.range (fld man 7 1)).map (partEntry man)).filter fun e => fld e 0 1 = kind with
  | [e] => some e
  | _ => none

/-- Whether the parts stand in load order, each on 64 bytes, within its limit and TOTAL, from an offset on. -/
def layoutOk (man : List Byte) : Nat → List (Nat × Nat) → Bool
  | _, [] => true
  | o, (k, lim) :: t => match partOf man k with
    | none => false
    | some e => fld e 4 4 % 64 = 0 && o ≤ fld e 4 4 && fld e 8 4 ≤ lim && fld e 4 4 + fld e 8 4 ≤ fld man 24 4 &&
        layoutOk man (fld e 4 4 + fld e 8 4) t

/-- Whether the bytes that must be zero are. -/
def manZeros (man : List Byte) : Bool :=
  zeros man 18 6 && zeros man 28 4 && zeros man 2337 223 && zeros man 4024 72 &&
  (List.range 8).all fun i => let e := partEntry man i
    if fld man 7 1 ≤ i then zeros e 0 64 else zeros e 1 3 && zeros e 48 16

/-- The refusal code of a manifest (R486); 0: it passes. -/
def Core.manifestCode (c : Core) (floor : Nat) (man : List Byte) : Nat :=
  if fld man 0 4 ≠ 0x7473666D || !manZeros man || !(fld man 7 1 = 5 || fld man 7 1 = 6) || fld man 24 4 < 4096 ||
      30 * 2 ^ 20 < fld man 24 4 then 0x01
  else if !bit (fld man 4 2) 1 then 0x02
  else if shake256 (slice man 544 1793) ≠ Config.vendorDigest then 0x03
  else if !signed1024 "SOHUS-MANIFEST-1" (slice man 544 1793) (man.take 2560) (slice man 2562 (fld man 2560 2)) then 0x04
  else if !bit (fld man 16 1) (c.part - 1) || !bit (fld man 17 1) (if c.isB0 then 1 else 0) then 0x05
  else if fld man 12 4 < floor then 0x06
  else if fld man 7 1 ≠ (partKinds c.part).length || !layoutOk man 4096 (partKinds c.part) then 0x07
  else 0

/-- Whether a part's measurement is right. -/
def partGood (img : List Byte) (kind : Nat) : Bool :=
  match partOf img kind with
  | some e => shake256 (slice img (fld e 4 4) (fld e 8 4)) = slice e 16 32
  | none => false

/-- The refusal code of an image. -/
def Core.imageCode (c : Core) (floor : Nat) (img : List Byte) : Nat :=
  let k := c.manifestCode floor (slice img 0 4096)
  if k ≠ 0 then k else if (partKinds c.part).all fun p => partGood img p.1 then 0 else 0x08

/-- The image in a flash slot. -/
def slotAddr (k : Nat) : Nat := if k = 0 then 0x400000 else 0x2200000
def slotImage (m : Mem) (k : Nat) : List Byte :=
  m.flashRead (slotAddr k) (min (30 * 2 ^ 20) (max 4096 (leNat (m.flashRead (slotAddr k + 24) 4))))

/-- The measurement entries of an image (R497), which stand before those of binaries. -/
def Core.measureImage (c : Core) (img : List Byte) : Core :=
  let man := slice img 0 4096
  let e := fun (k : Nat) (b : List Byte) => ({ kind := k, index := 0, set := false, digest := shake256 b } : Meas)
  let parts := (partKinds c.part).filterMap fun p => (partOf man p.1).map fun x => e (0x10 + p.1) (slice img (fld x 4 4) (fld x 8 4))
  { c with sec := { c.sec with meas := e 0x01 man :: parts ++ c.sec.meas.filter fun (x : Meas) => 0x20 ≤ x.kind,
                               imageVer := fld man 8 4, svn := fld man 12 4 } }

/-- SEC_BOOT_STAT: what it shows of the running image, identity and owner. -/
def Core.showBoot (c : Core) : Core :=
  let a := pSec + 0x80
  let s := c.sec
  let c := (((c.setF a 0 1 (b2n s.hostBoot)).setF a 1 1 s.slot).setF a 2 1 (b2n s.trial)).setF a 3 1 (b2n s.ident.isSome)
  (c.setF a 4 1 (b2n c.ownerValid)).setF a 32 32 s.svn

/-- The image of a slot runs, on trial or not. -/
def Core.runSlot (c : Core) (m : Mem) (k : Nat) (trial : Bool) : Core :=
  let c := c.measureImage (slotImage m k)
  ({ c with sec := { c.sec with slot := k, trial := trial, hostBoot := false } } : Core).showBoot

/-- BOOT_CODE. -/
def Core.bootCode (c : Core) (k : Nat) : Core := c.setF (pSec + 0x80) 8 8 k

/-! ### Identity and owner (R490 to R492) -/

/-- The helper record in IDENT: CHECK, the length and the data. None where the flash holds zero. -/
def helperRec (m : Mem) : Option (List Byte × List Byte) :=
  let h := m.flashRead 0x10000 34
  if h.all (· = 0) then none else some (h.take 32, m.flashRead 0x10022 (leNat (h.drop 32)))

/-- The check value of a seed. -/
def seedCheck (s : List Byte) : List Byte := shake256 (ascii "SOHUS-PUF-1" ++ s)

/-- The seed that an SRAM read and helper data give: 32 bytes. -/
def seedOf (puf helper : List Byte) : List Byte := slice (Config.pufSeed puf helper) 0 32

/-- Write a fresh helper record for an SRAM read. -/
def putHelper (m : Mem) (puf : List Byte) : Mem :=
  let h := (Config.pufHelper puf).take 65502
  m.flashWrite 0x10000 (seedCheck (seedOf puf h) ++ toLe 2 h.length ++ h)

/-- Derive the identity (R490, R491): without a record one is written first; a reconstruction that fails its CHECK gives none. -/
def identity (m : Mem) (puf : List Byte) : Mem × Option (List Byte) :=
  let m := if (helperRec m).isSome then m else putHelper m puf
  (m, match helperRec m with
    | some (chk, h) => if seedCheck (seedOf puf h) = chk then some (seedOf puf h) else none
    | none => none)

/-- A copy of the owner record with a good MAGIC: its SEQ and bytes. -/
def ownerCopy (m : Mem) (k : Nat) : Option (Nat × List Byte) :=
  let b := m.flashRead (0x20000 + 0x10000 * k) 4096
  if fld b 0 4 = 0x6C726E65 then some (fld b 4 4, b) else none

/-- The chosen copy of the owner record, with its number. -/
def ownerRec (m : Mem) : Option (Nat × Nat × List Byte) :=
  match ownerCopy m 0, ownerCopy m 1 with
  | some a, some b => if a.1 < b.1 then some (1, b) else some (0, a)
  | some a, none => some (0, a)
  | none, some b => some (1, b)
  | none, none => none

/-- The owner key: that of a valid record, unless it is zero. -/
def Core.ownerKey (c : Core) (m : Mem) : List Byte :=
  match ownerRec m with
  | none => []
  | some (_, _, b) =>
    let key := slice b 40 1793
    if c.sec.ident.isSome && slice b 8 32 = c.idDigest &&
        signed1024 "SOHUS-ENROL-1" c.idKey (b.take 1840) (slice b 1842 (fld b 1840 2)) && !key.all (· = 0) then key
    else []

/-- Show 32 bytes in four registers. -/
def Core.showDigest (c : Core) (a : Nat) (d : List Byte) : Core := (List.range 4).foldl (fun c i => c.wr (a + 8 * i) (fld d (8 * i) 8)) c

/-- OWNER_DIGEST, zero without owner. -/
def Core.ownerDigest (c : Core) : List Byte := if c.ownerValid then shake256 c.sec.owner else List.replicate 32 0

/-- Take the owner record into force, and show it. -/
def Core.takeOwner (c : Core) (m : Mem) : Core :=
  let c := { c with sec := { c.sec with owner := c.ownerKey m } }
  (c.showDigest (pSec + 0xA8) c.ownerDigest).showBoot

/-! ### Training (R416) and the slot (R488) -/

/-- Train the vaults and LPDDR6, and show what came of it. -/
def Core.train (c : Core) : Core :=
  let v := c.sec.train.1; let ch := c.sec.train.2.1; let size := c.sec.train.2.2
  let c := c.eachPlain fun c p =>
    let bad := v.any fun x => x / 32 = p
    c.wr (pVlt p + 0x90) (1 + 2 * b2n bad + 4 * (if bad then v.getD 0 % 32 else 0))
  let bad := ch.isSome || !(1 ≤ size && size ≤ 3)
  let a := pLpm + 0x80
  let c := (((c.setF a 0 2 size).setF a 2 1 1).setF a 3 1 (b2n bad)).setF a 4 4 (ch.getD 0)
  c.setF 0x88 4 1 (b2n (v.isSome || bad))

/-- The slot that the ROM starts first, whether on trial, and the record it leaves (R488). -/
def chooseSlot (r : BootRec) : Nat × Bool × Option BootRec :=
  match r.trial with
  | some t =>
    if !r.tried then (t, true, some { r with tried := true })
    else (r.active, false, some { r with trial := none, tried := false, rejected := r.rejected ||| 2 ^ t })
  | none => (r.active, false, none)

/-- Boot from the host, or the recovery path (R489). -/
def Core.hostBoot (c : Core) : Core :=
  ({ c.setF (pCtl + 0x88) 0 16 2 with kwn := { c.kwn with upload := some [] }, sec := { c.sec with hostBoot := true } } : Core).showBoot

/-- Boot from flash: choose a slot, check it, try the other unless it is rejected, train and load. -/
def flashBoot (m : Mem) (c : Core) : Mem × Core :=
  let r := chooseSlot (bootRec m)
  let m := match r.2.2 with | some x => putRec m x | none => m
  let b := bootRec m
  let go := fun (c : Core) (k : Nat) (t : Bool) => (c.runSlot m k t).train.setDevState 1
  let k1 := c.imageCode b.floor (slotImage m r.1)
  if k1 = 0 then (m, go c r.1 r.2.1)
  else
    let c := c.bootCode k1
    let o := 1 - r.1
    let k2 := if bit b.rejected o then k1 else c.imageCode b.floor (slotImage m o)
    if k2 = 0 then (m, go c o false) else (m, (c.bootCode 0x0B).hostBoot)

/-! ### Start of the device (R522 to R524, R550) -/

/-- DEV_ID as a package's straps give it (R1, R16, R473). -/
def devId (d : Silicon) : Nat :=
  (match d.part with | .o7440 => 1 + 4 * 2 ^ 16 | .e7440 => 2 + 4 * 2 ^ 16 | .e7420 => 3 + 2 * 2 ^ 16) +
    (if d.b0 then 0xB0 else 0xA0) * 2 ^ 8

/-- The straps of the package, which every start samples (R16). -/
def Core.strapId (c : Core) (d : Silicon) : Core := c.wr 0x80 (devId d)

/-- The core in reset: everything at its reset value. What belongs to the package (DEV_ID), what the flash keeps (a staged image), the
record of what has left the device and the model's counters stay. -/
def Core.enterReset (c : Core) : Core :=
  let id := c.rd 0x80
  let ver := c.getF (pCtl + 0x120) 32 32
  let r := { Core.reset with free := c.free, out := c.out, kwn := { Core.reset.kwn with epochs := c.kwn.epochs } }
  let r := { r with sec := { r.sec with staged := c.sec.staged } }
  (((r.wr 0x80 id).setF (pCtl + 0x120) 32 32 (if c.sec.staged then ver else 0)).wr (pPwr + 0x98) 0).setF (pPwr + 0x98) 16 16
    ((r.wr 0x80 id).tdp)

/-- The code of the first check of R522 and R523 that fails. -/
def heldCode (k : StartChecks) : Nat :=
  if !k.sysClock then 1 else if !k.rails then 4 else if k.failMeadow.isSome then 2 else if !k.col then 3 else 0

/-- The core as it leaves reset: cause, straps, KILL_N, PLL A locked at P1, and a vault clock of a phase of its own (R404, R529, R542). -/
def Core.leaveReset (c : Core) (cause : Nat) (k : StartChecks) : Core :=
  let c := (c.setF 0xB0 0 4 cause).setF 0xB0 4 1 1
  let c := { c with pwr := { c.pwr with resetBall := true, resetStat := true },
                    clk := { c.clk with vph := Config.vaultPhase c.free % 88 }, free := c.free + 1,
                    sec := { c.sec with puf := k.puf, train := (k.failVault, k.failChannel, k.lpSize) },
                    pins := { c.pins with killN := k.killNHigh } }
  let c := (c.setF aGate 2 1 (b2n k.killNHigh)).setF aGate 1 1 (b2n !k.killNHigh)
  let c := (c.setF aTStat 0 1 1).setF (pTime + 0x610) 17 1 (k.vrole / 2)
  c.eachPlain fun c p => c.setF (aPlnClk p) 0 1 1

/-- A start: the checks and self-test, with held reset where one fails; zeroed memories; identity; boot. -/
def start (m : Mem) (c : Core) (cause : Nat) (k : StartChecks) : Mem × Core :=
  let c := (c.strapId k.device).enterReset
  let held := heldCode k
  if held ≠ 0 then
    (m, { c.setF 0xB0 0 4 cause with flt := { c.flt with heldReset := held, failMeadow := if held = 2 then k.failMeadow.getD 0 else 0 } })
  else
    let m := { m with bytes := [], poison := [] }
    let r := identity m k.puf
    let c := c.leaveReset cause k
    let c := ({ c with sec := { c.sec with ident := r.2 } } : Core)
    let c := (c.showDigest (pSec + 0x88) c.idDigest).takeOwner r.1
    if k.bootHost then (r.1, c.hostBoot) else flashBoot r.1 c

def execPowerOn (k : StartChecks) (s : State) : Answer := devStep (fun m c => start m c 1 k) s
def execRstN (k : StartChecks) (s : State) : Answer := devStep (fun m c => start m c 2 k) s

/-- MG_RESET_CMD: 0xA5 written twice within 1 ms. -/
def mgReset (m : Mem) (c : Core) (k : StartChecks) (value : Nat) : Mem × Core :=
  if value ≠ 0xA5 then (m, c)
  else match c.flt.mgFirst with
    | some t => if c.now ≤ t + nsN 1000000 then start m c 3 k else (m, { c with flt := { c.flt with mgFirst := some c.now } })
    | none => (m, { c with flt := { c.flt with mgFirst := some c.now } })

def execMgResetCmd (k : StartChecks) (value : Nat) (s : State) : Answer := devStep (fun m c => mgReset m c k value) s

/-- RST_N_ASSERT: the device enters reset; the identity key is gone. -/
def Core.rstAssert (c : Core) : Core := { c.enterReset with pwr := { Core.reset.pwr with resetBall := false, resetStat := false } }

def execRstNAssert (s : State) : Answer := coreStep (fun _ c => c.rstAssert) s

/-! ### Firmware's start and the handshake (R479, R487) -/

/-- Firmware enters service: the EN bits of the pages are set (R458), and emulated registers are served. -/
def Core.enterService (c : Core) : Core :=
  let ps := [pPort, pSep, pComp, pComp1, pKey, pTask, pCap, pPass] ++ (List.range c.meadows).map pMdw
  let c := ps.foldl (fun c p => c.setF (p + 0x18) 0 1 1) c
  (List.range 16).foldl (fun c l => c.laneSync l) (c.setDevState 3)

/-- Step 3 of R479: the highest common major. A device that failed training never starts service (R416); a service restart enters service
with SERVICE_RESUME. -/
def Core.handshake (c : Core) : Core :=
  let a := 0xA8
  match topMajor (c.getF a 0 16 &&& c.getF a 16 16) with
  | some k =>
    let c := ((c.setF a 32 4 k).setF a 36 1 1).setF 0x88 3 1 0
    if c.getB 0x88 4 then c.setDevState 4 else if c.sec.restart.isSome then c.setDevState 2 else c.enterService
  | none => ((c.setF 0x88 3 1 1).setF a 36 1 0).setDevState 4

/-- FIRMWARE_START: firmware of the loaded image shows its majors and awaits the host; after a service restart it takes the handshake
with the value it finds. A trial's 60 s begin (R501). -/
def Core.firmwareStart (c : Core) (majors : Nat) : Core :=
  if c.fwState ≠ 1 || c.inReset || c.kwn.upload.isSome then c
  else
    let c := ((c.setF 0xA8 16 16 majors).setF (pCtl + 0x88) 0 24 2).setDevState 2
    let c := ((c.setF (pTask + 0x80) 0 24 2).setF (pCap + 0x80) 0 16 2).setF (pPass + 0x80) 0 16 2
    let c := if c.sec.staged then c.setF (pCtl + 0x120) 0 3 2 else c
    let c := { c with sec := { c.sec with trialAt := if c.sec.trial then some c.now else none } }
    if c.sec.restart.isSome then c.handshake else c

def execFirmwareStart (majors : Nat) (s : State) : Answer := coreStep (fun _ c => c.firmwareStart majors) s

/-- DEV_FWI: once an agreement holds, only the privileged view may change HOST_MAJORS. -/
def Core.hFwi (c : Core) (a : Access) (v : Nat) : Core :=
  if c.getB 0xA8 36 && !isPriv a then c.reject pDev 0xA8 v
  else
    let c := c.setF 0xA8 0 16 v
    if 2 ≤ c.fwState then c.handshake else c

def execDevFwiWrite (acc : Access) (v : Word64) (s : State) : Answer := coreStep (fun _ c => c.hFwi acc (wv v)) s

/-! ### The boot ROM's MEM_WRITE (R489) -/

/-- The whole image has come: training, loading, and the end of the boot session. -/
def Core.hostLoaded (c : Core) (img : List Byte) : Core :=
  let c := ((c.measureImage img).train.showBoot).closeWhere fun _ => true
  ({ c with kwn := { c.kwn with upload := none } } : Core).setDevState 1

/-- MEM_WRITE to the ROM: the image in ascending order without gaps; the manifest is checked when it is complete, the parts when all have
come. A refused image begins anew. -/
def Core.romWrite (c : Core) (m : Mem) (addr : Nat) (data : List Byte) : Core × Reply :=
  match c.kwn.upload with
  | none => (c, .nak nType)
  | some img =>
    if data.length % 8 ≠ 0 || data.isEmpty || 4096 < data.length then (c, .nak nFormat)
    else if addr ≠ img.length then (c, .nak nRange)
    else
      let up := img ++ data
      let keep := fun (c : Core) (u : List Byte) => ({ c with kwn := { c.kwn with upload := some u } } : Core)
      let floor := (bootRec m).floor
      let k := if up.length < 4096 then 0 else c.manifestCode floor (slice up 0 4096)
      let total := fld up 24 4
      if k ≠ 0 then (keep (c.bootCode k) [], .nak nFormat)
      else if up.length < 4096 || up.length < total then (keep c up, .resp (respBody [] []))
      else if total < up.length then (c, .nak nRange)
      else if c.imageCode floor up ≠ 0 then (keep (c.bootCode (c.imageCode floor up)) [], .nak nFormat)
      else (keep c up, .resp (respBody [] []))

end Sys2Proof.Machine
end

