-- ==== Sys2Proof/Machine/MemStr.lean ====
section
/-! DEFINITION. The MEM commands READ, WRITE and DELAY (R55, R56, R548) and the STR commands with ORPHAN (R58, R59, R65 to
R68, R343). -/

namespace Sys2Proof.Machine

/-! ### MEM -/

/-- The input ports of a MEM context: a TOKEN WRITE takes its address at a second input (R548). -/
def memPorts (k : MemCtx) : List Nat := if k.op = .write ∧ !k.counter then [0, 1] else [0]

/-- Whether a MEM cell may fire an operation. -/
def Core.memReady (c : Core) (cell : Nat) (op : MemOp) : Option (Ctx × MemCtx × List Token) :=
  if kindOf cell ≠ .mem then none
  else match c.ctxFor cell with
    | none => none
    | some x => match x.body with
      | .mem k => if k.op ≠ op then none else (c.oldest cell (memPorts k)).map fun ts => (x, k, ts)
      | _ => none

/-- READ (R548): an access outside the range is a fault (R56); in a debug binary so is a line no WRITE has stored (R170). -/
def Core.readFire (m : Mem) (c : Core) (cell : Nat) : Core :=
  match c.memReady cell .read with
  | none => c
  | some (x, k, ts) =>
    let t := joinTok ts
    match c.memAddr cell k t.set t.payload.toNat with
    | none => c.schedFault cell 0 t.tag t.set 0x2
    | some a =>
      if c.debugOn (c.cellRgn cell) t.set && !c.fab.written.contains (cell * 2048 + a / 64) then
        c.schedFault cell 0 t.tag t.set 0x6
      else
        let bad := m.poisonIn (aCell cell + a) 64
        c.fire cell x [0] 3 ts fun c =>
          let c := c.memStep cell k t.set
          (if bad then c.ueLog cell (a / 64) else c, bad, [(0, (c.memLine m (aCell cell + a)).toNat)])

/-- WRITE (R548): all 64 bytes of the data token; when the host has written the line in this fc, its data is kept and the
collision counted (R56). -/
def Core.writeFire (m : Mem) (c : Core) (cell : Nat) : Mem × Core :=
  match c.memReady cell .write with
  | none => (m, c)
  | some (x, k, ts) =>
    let t := joinTok ts
    match c.memAddr cell k t.set ((ts.getD 1 t).payload.toNat) with
    | none => (m, c.schedFault cell 0 t.tag t.set 0x2)
    | some a =>
      let ad := aCell cell + a
      let coll := c.fab.wrB.any fun e => e.1 = ad
      if c.early cell x 0 t then (m, c.schedFault cell 0 t.tag t.set 0x8)
      else
        let c' := c.fire cell x (memPorts k) 1 ts fun c =>
          let c := c.memStep cell k t.set
          let c := { c with fab := { c.fab with wrA := (ad, m.line ad) :: c.fab.wrA,
                                                written := insertNat (cell * 2048 + a / 64) c.fab.written } }
          (if coll then c.bump (pMdw (cellMeadow cell) + 0xE0) else c, false, [])
        (if coll then m else m.store ad (ofPayload (ts.headD t).payload), c')

/-- The line of a DELAY's 64 × d bytes that a token arriving at a schedule count takes: the lines in turn (R55; DEDUCED, log 85). None
outside the context's range (R56). -/
def delayLine (k : MemCtx) (arr : Nat) : Option Nat :=
  let a := k.base + 64 * (arr % k.dly)
  if a + 64 ≤ k.limit ∧ a + 64 ≤ 0x20000 then some a else none

/-- A DELAY's token goes into its line, which it leaves at a schedule count. -/
def Core.delayPut (c : Core) (m : Mem) (cell due ad : Nat) (x : Ctx) (t : Token) : Core :=
  { c with fab := { c.fab with delays := c.fab.delays ++ [⟨t, c.cellRgn cell, cell, x, due, ad⟩],
                               wrA := (ad, m.line ad) :: c.fab.wrA } }

/-- DELAY (R55): the token goes into the cell's SRAM and leaves exactly d fc after it arrived. Where the host has written its line in this
fc, the host's data is kept and the collision counted (R56). -/
def Core.delayFire (m : Mem) (c : Core) (cell : Nat) : Mem × Core :=
  match c.memReady cell .delay with
  | none => (m, c)
  | some (x, k, ts) =>
    let t := joinTok ts
    let arr := ((c.heldAt cell 0).head?.map (·.arr)).getD 0
    match delayLine k arr with
    | none => (m, c.schedFault cell 0 t.tag t.set 0x2)
    | some a =>
      let ad := aCell cell + a
      let coll := c.fab.wrB.any fun e => e.1 = ad
      if c.early cell x 0 t then (m, c.schedFault cell 0 t.tag t.set 0x8)
      else
        let bad := c.ctxPoison cell t.set
        let c' := c.fire cell x [0] 0 ts fun c =>
          let c := c.delayPut m cell (arr + k.dly) ad x { t with poison := t.poison || bad }
          (if coll then c.bump (pMdw (cellMeadow cell) + 0xE0) else c, false, [])
        (if coll then m else m.store ad (ofPayload t.payload), c')

/-- A delayed token leaves with what its line holds now; an uncorrectable word marks it (R55, R57). -/
def Core.delayOut (m : Mem) (c : Core) (d : Delayed) : Core :=
  let bad := m.poisonIn d.addr 64
  let c := if bad then c.ueLog d.cell ((d.addr - aCell d.cell) / 64) else c
  c.place d.cell d.ctx 0 { d.tok with poison := d.tok.poison || bad } [(0, (c.memLine m d.addr).toNat)]

/-- The delayed tokens whose count has come, in a region whose cells run, leave. -/
def Core.delaysOut (m : Mem) (c : Core) : Core :=
  let out := c.fab.delays.filter fun (d : Delayed) => c.rgnLive d.rgn && d.due ≤ (c.rgn d.rgn).sched
  let rest := c.fab.delays.filter fun (d : Delayed) => !(c.rgnLive d.rgn && d.due ≤ (c.rgn d.rgn).sched)
  out.foldl (fun c d => c.delayOut m d) { c with fab := { c.fab with delays := rest } }

def execRead (cell : Nat) (s : State) : Answer := coreStep (fun m c => c.readFire m cell) s
def execWrite (cell : Nat) (s : State) : Answer := devStep (fun m c => c.writeFire m cell) s
def execDelay (cell : Nat) (s : State) : Answer := devStep (fun m c => c.delayFire m cell) s

/-! ### STR -/

/-- Fire a group of an STR cell when a match of the operation is complete. -/
def Core.strStep (c : Core) (cell grp : Nat) (op : StrOp) : Core :=
  if kindOf cell ≠ .str then c
  else match (if op = .merge then c.mergeReady cell else c.strReady cell grp op) with
    | none => c
    | some (tag, set) => match c.strCtx cell set with
      | none => c
      | some (x, k) => c.strFire cell grp x k tag set

def execFork (cell : Nat) (s : State) : Answer := coreStep (fun _ c => c.strStep cell 0 .fork) s
def execMerge (cell : Nat) (s : State) : Answer := coreStep (fun _ c => c.strStep cell 0 .merge) s
def execSwitch (cell : Nat) (s : State) : Answer := coreStep (fun _ c => c.strStep cell 0 .switch) s
def execSelect (cell : Nat) (s : State) : Answer := coreStep (fun _ c => c.strStep cell 0 .select) s
def execGather (cell group : Nat) (s : State) : Answer := coreStep (fun _ c => c.strStep cell group .gather) s
def execAlign (cell group : Nat) (s : State) : Answer := coreStep (fun _ c => c.strStep cell group .align) s
def execRenumber (cell : Nat) (s : State) : Answer := coreStep (fun _ c => c.strStep cell 0 .renumber) s
def execDigest (cell : Nat) (s : State) : Answer := coreStep (fun _ c => c.strStep cell 0 .digest) s

/-- Whether a token of a port has waited out its window without its partners (R67). A MERGE needs no partners. -/
def Core.orphanIs (c : Core) (cell port : Nat) (h : Held) : Option (Ctx × StrCtx × Nat × Held) :=
  match c.strCtx cell h.tok.set with
  | none => none
  | some (x, k) =>
    let grp := if k.groups then port / 2 else 0
    let alone := (strNeed k grp).any fun p => (c.strTok cell p h.tok.tag h.tok.set).isNone
    if k.op ≠ .merge && alone && h.arr + k.windows.getD port 0 ≤ (c.rgn (c.cellRgn cell)).sched && c.rgnLive (c.cellRgn cell) &&
        !c.hasFired cell grp then some (x, k, grp, h) else none

/-- The first token of a port that has waited out its window (R67). -/
def Core.orphanReady (c : Core) (cell port : Nat) : Option (Ctx × StrCtx × Nat × Held) :=
  if kindOf cell ≠ .str then none else (c.heldAt cell port).findSome? (c.orphanIs cell port)

/-- ORPHAN (R67): the event and the log entry, the firing with zero payloads and POISON, the orphan list of 16. -/
def Core.orphanFire (c : Core) (cell port : Nat) : Core :=
  match c.orphanReady cell port with
  | none => c
  | some (x, k, grp, h) =>
    let m := cellMeadow cell
    let c := (c.bump (pMdw m + 0xD0)).faultRecord m cell port h.tok.tag h.tok.set 0x5 clsD 0x05
    let c := (c.event (pMdw m) 11).strFire cell grp x k h.tok.tag h.tok.set
    let l := Store.get c.fab.orphans [] cell
    let l := (if 16 ≤ l.length then l.drop 1 else l) ++ [(h.tok.tag, h.tok.set)]
    { c with fab := { c.fab with orphans := Store.set c.fab.orphans [] cell l } }

def execOrphan (cell port : Nat) (s : State) : Answer := coreStep (fun _ c => c.orphanFire cell port) s

end Sys2Proof.Machine
end

