-- ==== Sys2Proof/Machine/Security.lean ====
section
/-! DEFINITION. The security mailbox and its commands (R493 to R498), and firmware's protection faults (R477) up to the restart. -/

namespace Sys2Proof.Machine

/-! ### The mailbox (R494, R495) -/

/-- RESULT codes (R496). -/
def mOk : Nat := 0
def mNotHolder : Nat := 1
def mNoChallenge : Nat := 2
def mSigFail : Nat := 3
def mPriv : Nat := 4
def mNoId : Nat := 5
def mIdValid : Nat := 6
def mFlash : Nat := 7
def mFormat : Nat := 8

/-- The mailbox bytes. -/
def Core.mbxRead (c : Core) (o n : Nat) : List Byte :=
  slice ((List.range 416).flatMap fun i => toLe 8 (c.rd (pSec + 0x200 + 8 * i))) o n

/-- Write mailbox bytes from byte 0 on. -/
def Core.mbxWrite (c : Core) (b : List Byte) : Core :=
  (List.range ((b.length + 7) / 8)).foldl (fun (c : Core) i =>
    let old := toLe 8 (c.rd (pSec + 0x200 + 8 * i))
    c.wr (pSec + 0x200 + 8 * i) (leNat (splice old 0 (slice b (8 * i) (min 8 (b.length - 8 * i)))))) c

/-- A command ends with a result. -/
def Core.mbxEnd (c : Core) (r : Nat) : Core := { c with sec := { c.sec with mbxOp := 0, mbxResult := r } }

/-- A command that writes flash runs until MAILBOX_COMMAND_DONE. -/
def Core.mbxRun (c : Core) (op : Nat) (key : List Byte) : Core := { c with sec := { c.sec with mbxOp := op, mbxKey := key } }

/-- A command of session s: refused while another session holds the mailbox or a command runs (class C, REJECT), answered NOT_HOLDER
while none holds it. An emulated register: nothing happens out of service. -/
def Core.mbxCmd (c : Core) (s op : Nat) (work : Core → Core) : Core :=
  if !c.service then c
  else if c.sec.mbxOp ≠ 0 || c.sec.holder.any (· ≠ s) then c.reject pSec 0x100 op
  else if c.sec.holder = none then c.mbxEnd mNotHolder
  else work { c with sec := { c.sec with since := c.now } }

/-- CLAIM: the free mailbox is taken. -/
def Core.mbxClaim (c : Core) (s : Nat) : Core :=
  if !c.service then c
  else if c.sec.mbxOp ≠ 0 || c.sec.holder.any (· ≠ s) then c.reject pSec 0x100 1
  else { c with sec := { c.sec with holder := some s, since := c.now, mbxResult := mOk,
                                    challenge := if c.sec.holder.isNone then none else c.sec.challenge } }

/-- Whether a session is the privileged one. -/
def Core.isPrivSess (c : Core) (s : Nat) : Bool := c.privSess = some s

/-- CHALLENGE: a fresh challenge, ID_DIGEST and the identity public key. -/
def Core.mbxChallenge (c : Core) : Core :=
  if c.sec.ident.isNone then c.mbxEnd mNoId
  else
    let n := c.newNonce
    let c := n.2.mbxWrite (n.1 ++ n.2.idDigest ++ n.2.idKey.take 1793)
    ({ c with sec := { c.sec with challenge := some (n.1, c.now) } } : Core).mbxEnd mOk

/-- ENROL: the first owner by any holder, a transfer by the privileged session; the proof signs the challenge with the new key. -/
def Core.mbxEnrol (c : Core) (s : Nat) : Core :=
  let key := c.mbxRead 0 1793
  let len := leNat (c.mbxRead 1793 2)
  let proof := c.mbxRead 1795 len
  if c.ownerValid && !c.isPrivSess s then c.mbxEnd mPriv
  else if c.sec.ident.isNone then c.mbxEnd mNoId
  else if key.head? ≠ some 0x0A || 1462 < len then c.mbxEnd mFormat
  else match c.sec.challenge with
    | none => c.mbxEnd mNoChallenge
    | some (n, t) =>
      let c := { c with sec := { c.sec with challenge := none } }
      if t + nsN 10000000000 < c.now then c.mbxEnd mNoChallenge
      else if !signed1024 "SOHUS-OWNER-1" key (n ++ c.idDigest) proof then c.mbxEnd mSigFail
      else c.mbxRun 4 key

/-- RELEASE of the owner. -/
def Core.mbxRelease (c : Core) (s : Nat) : Core :=
  if !c.isPrivSess s then c.mbxEnd mPriv
  else if c.sec.ident.isNone then c.mbxEnd mNoId
  else c.mbxRun 5 (List.replicate 1793 0)

/-- The entries of a report (R498): those of the image, then the newest of binaries, 43 at most. -/
def Core.reportEntries (c : Core) : List Meas :=
  let img := c.sec.meas.filter fun (x : Meas) => x.kind < 0x20
  let bin := c.sec.meas.filter fun (x : Meas) => 0x20 ≤ x.kind
  img ++ bin.drop (bin.length - (43 - img.length))

/-- A measurement entry's 40 bytes. -/
def measBytes (x : Meas) : List Byte := [BitVec.ofNat 8 x.kind, BitVec.ofNat 8 x.index, BitVec.ofNat 8 (b2n x.set)] ++ List.replicate 5 0 ++ x.digest

/-- The attestation report before SIGLEN. -/
def Core.report (c : Core) (nonce : List Byte) : List Byte :=
  let s := c.sec
  toLe 4 0x74737461 ++ nonce ++ c.idDigest ++ c.ownerDigest ++ toLe 8 (linear c.now) ++ toLe 8 c.tick ++ toLe 4 s.svn ++
    toLe 4 s.imageVer ++ [BitVec.ofNat 8 (b2n s.hostBoot + 2 * b2n s.trial + 4 * s.slot), BitVec.ofNat 8 c.reportEntries.length, 0, 0] ++
    c.reportEntries.flatMap measBytes

/-- A signature of the identity key under a tag. -/
def Core.idSign (c : Core) (tag : String) (b : List Byte) : List Byte := (Config.falconSign (c.sec.ident.getD []) (ascii tag ++ b)).take 1462

/-- ATTEST: the signed report for the nonce in the mailbox. -/
def Core.mbxAttest (c : Core) : Core :=
  if c.sec.ident.isNone then c.mbxEnd mNoId
  else
    let r := c.report (c.mbxRead 0 32)
    let sig := c.idSign "SOHUS-ATTEST-1" r
    (c.mbxWrite (r ++ toLe 2 sig.length ++ sig)).mbxEnd mOk

/-- NEW_IDENTITY: refused while the identity is valid. -/
def Core.mbxNewId (c : Core) : Core := if c.sec.ident.isSome then c.mbxEnd mIdValid else c.mbxRun 7 []

/-- A write of SEC_MBX_CTRL.OP by a session. -/
def Core.mbxOp (c : Core) (s op : Nat) : Core :=
  if op = 1 then c.mbxClaim s
  else if op = 2 then c.mbxCmd s 2 fun c => (c.dropHolder s).mbxEnd mOk
  else if op = 3 then c.mbxCmd s 3 fun c => c.mbxChallenge
  else if op = 4 then c.mbxCmd s 4 fun c => c.mbxEnrol s
  else if op = 5 then c.mbxCmd s 5 fun c => c.mbxRelease s
  else if op = 6 then c.mbxCmd s 6 fun c => c.mbxAttest
  else if op = 7 then c.mbxCmd s 7 fun c => c.mbxNewId
  else c

/-- SEC_MBX_CTRL, written by firmware or a session: sessions alone hold the mailbox. -/
def Core.hMbxCtrl (c : Core) (a : Access) (v : Nat) : Core :=
  match a.who with | .session s => c.mbxOp s (v % 8) | .firmware => c

/-- SEC_MBX[i]: written by the holder, or while none holds it. -/
def Core.hMbx (c : Core) (a : Access) (i v : Nat) : Core :=
  if !c.service then c
  else match a.who, c.sec.holder with
    | .session s, some h =>
      if s = h then { c.wr (pSec + 0x200 + 8 * i) v with sec := { c.sec with since := c.now } }
      else c.reject pSec (0x200 + 8 * i) v
    | .firmware, some _ => c.reject pSec (0x200 + 8 * i) v
    | _, none => c.wr (pSec + 0x200 + 8 * i) v

def execClaim (id : Nat) (s : State) : Answer := coreStep (fun _ c => c.mbxOp id 1) s
def execReleaseMbx (id : Nat) (s : State) : Answer := coreStep (fun _ c => c.mbxOp id 2) s
def execChallenge (id : Nat) (s : State) : Answer := coreStep (fun _ c => c.mbxOp id 3) s
def execEnrol (id : Nat) (s : State) : Answer := coreStep (fun _ c => c.mbxOp id 4) s
def execRelease (id : Nat) (s : State) : Answer := coreStep (fun _ c => c.mbxOp id 5) s
def execAttest (id : Nat) (s : State) : Answer := coreStep (fun _ c => c.mbxOp id 6) s
def execNewIdentity (id : Nat) (s : State) : Answer := coreStep (fun _ c => c.mbxOp id 7) s

/-- MAILBOX_TIMEOUT: 10 s without an access by the holder. -/
def Core.mbxTimeout (c : Core) : Core :=
  match c.sec.holder with
  | some s => if c.sec.since + nsN 10000000000 ≤ c.now then c.dropHolder s else c
  | none => c

def execMailboxTimeout (s : State) : Answer := coreStep (fun _ c => c.mbxTimeout) s

/-- Write an owner record into the copy that is not in force (R492). -/
def putOwner (m : Mem) (c : Core) (key : List Byte) : Mem :=
  let cur := (ownerRec m).map fun (r : Nat × Nat × List Byte) => (r.1, r.2.1)
  let body := toLe 4 0x6C726E65 ++ toLe 4 ((cur.map (·.2 + 1)).getD 0) ++ c.idDigest ++ slice key 0 1793 ++ List.replicate 7 0
  let sig := c.idSign "SOHUS-ENROL-1" body
  m.flashWrite (0x20000 + 0x10000 * (1 - (cur.map (·.1)).getD 1)) (slice (body ++ toLe 2 sig.length ++ sig) 0 4096)

/-- MAILBOX_COMMAND_DONE: the flash write of ENROL, RELEASE or NEW_IDENTITY has ended, well or not. -/
def mbxDone (m : Mem) (c : Core) (ok : Bool) : Mem × Core :=
  let op := c.sec.mbxOp
  if op = 0 then (m, c)
  else if !ok then (m, c.mbxEnd mFlash)
  else if op = 7 then (putHelper m c.sec.puf, c.mbxEnd mOk)
  else
    let m := putOwner m c c.sec.mbxKey
    (m, (c.takeOwner m).mbxEnd mOk)

def execMailboxCommandDone (ok : Bool) (s : State) : Answer := devStep (fun m c => mbxDone m c ok) s

end Sys2Proof.Machine
end

