-- ==== Sys2Proof/Machine/Update.lean ====
section
/-! DEFINITION. Staging and activating an image (R499, R500), the service restart (R501), confirmation and fallback (R502), the watchdog
(R509) and protection faults (R477). -/

namespace Sys2Proof.Machine

/-! ### The service restart (R501) -/

/-- UPD_STAT: STATE and RESULT. -/
def aUpd : Nat := pCtl + 0x120
def Core.updState (c : Core) (st : Nat) : Core := c.setF aUpd 0 3 st
def Core.updResult (c : Core) (r : Nat) : Core := c.setF aUpd 8 8 r

/-- The pause begins: the gate's state and the running regions are recorded, the gate closes, the regions drain, RUNNING tasks are aborted,
and every session is closed with CLOSE; the cores restart in ROM, ports and lanes with new microcode. A restart that finds one under
way keeps what the first recorded. -/
def pause (m : Mem) (c : Core) : Mem × Core :=
  let run := (List.range 8).filter fun g => (c.rgn g).phase = .running
  let note := match c.sec.restart with | some x => x | none => (c.now, c.getB aGate 0, run)
  let c := { c.shutGate with sec := { c.sec with restart := some note, armedAt := none } }
  let c := if c.safe then c else (List.range 8).foldl (fun (c : Core) g => c.drain g) c
  let r := abortAll m c
  let c := (r.2.closeAll).setF 0xB0 16 16 (min 65535 (c.getF 0xB0 16 16 + 1))
  let c := (List.range 8).foldl (fun (c : Core) lp => c.linkLoss lp) c
  let c := (List.range 16).foldl (fun (c : Core) l => if c.laneState l = 0 then c else c.toHunt l) c
  (r.1, c.setDevState 1)

/-- The ROM's verdict on the staging slot: the new image runs on trial, or the running one goes on with the refusal's code. -/
def Core.activated (c : Core) (m : Mem) (new k : Nat) : Core :=
  if k = 0 then (((c.runSlot m new true).setF 0xA0 33 1 0).updState 0).updResult 0
  else ((c.bootCode k).updState 0).updResult k

/-- A restart into the staging slot on trial (R501). -/
def activateNow (m : Mem) (c : Core) : Mem × Core :=
  let r := pause m { c with sec := { c.sec with staged := false } }
  let new := 1 - c.sec.slot
  let m := putRec r.1 { bootRec r.1 with trial := some new, tried := true }
  (m, r.2.activated m new (r.2.imageCode (bootRec m).floor (slotImage m new)))

/-- The fallback of R488: the trial slot is rejected and the confirmed slot runs again. -/
def fallBack (m : Mem) (c : Core) : Mem × Core :=
  let r := pause m c
  let b := bootRec r.1
  let m := putRec r.1 { b with trial := none, tried := false, rejected := b.rejected ||| 2 ^ c.sec.slot }
  (m, (((r.2.runSlot m b.active false).setF 0xA0 33 1 0).updState 0).updResult 0x25)

/-- SERVICE_RESUME: firmware has agreed a version and the regions have drained. The recorded regions resume and the gate reopens when it
was open, unless the device is in safe state or KILL_N or KILL forbids it. -/
def Core.serviceResume (c : Core) : Core :=
  match c.sec.restart with
  | none => c
  | some (_, gate, rs) =>
    if c.fwState ≠ 2 || !c.getB 0xA8 36 || c.getB 0x88 4 || (!c.safe && rs.any fun g => (c.rgn g).phase = .draining) then c
    else
      let c := ({ c with sec := { c.sec with restart := none } } : Core).enterService
      if c.safe then c
      else
        let c := rs.foldl (fun (c : Core) g => c.resume g) c
        if gate && c.getB aGate 2 && !c.getB aGate 1 then c.setF aGate 0 1 1 else c

def execServiceResume (s : State) : Answer := coreStep (fun _ c => c.serviceResume) s

/-! ### UPD_CMD (R499, R500) -/

/-- STAGE: BUSY during a trial, an armed activation or another staging; otherwise the image is checked, with the staging partition as its
destination. -/
def Core.updStage (c : Core) (m : Mem) : Core :=
  let src := c.rd (pCtl + 0x100)
  let len := c.rd (pCtl + 0x108)
  if c.sec.trial || c.sec.armedAt.isSome || c.sec.stageBusy.isSome then c.updResult 0x20
  else
    let c := ({ c with sec := { c.sec with staged := false } } : Core).updState 0
    if src < lpmBase || len < 4096 || !c.mapped false src len then c.updResult 0x01
    else
      let img := m.read src (min len (30 * 2 ^ 20))
      let k := if len < fld img 24 4 then 0x01 else c.imageCode (bootRec m).floor (img.take (fld img 24 4))
      if k ≠ 0 then c.updResult k
      else ({ c with sec := { c.sec with stageBusy := some (img.take (fld img 24 4)) } } : Core).updState 1

/-- STAGE_DONE: the image stands in the staging partition and its REJECTED bit is cleared; or the flash failed. -/
def stageDone (m : Mem) (c : Core) (ok : Bool) : Mem × Core :=
  match c.sec.stageBusy with
  | none => (m, c)
  | some img =>
    let c := { c with sec := { c.sec with stageBusy := none } }
    if !ok then (m, (c.updState 0).updResult 0x21)
    else
      let k := 1 - c.sec.slot
      let m := m.flashWrite (slotAddr k) img
      let b := bootRec m
      let m := putRec m { b with rejected := b.rejected &&& (0xFF ^^^ 2 ^ k) }
      let c := { c with sec := { c.sec with staged := true } }
      (m, ((c.updState 2).updResult 0).setF aUpd 32 32 (fld img 8 4))

def execStageDone (ok : Bool) (s : State) : Answer := devStep (fun m c => stageDone m c ok) s

/-- ACTIVATE_AT. -/
def Core.updAt (c : Core) : Core :=
  let v := c.rd (pCtl + 0x110)
  if !c.sec.staged then c.updResult 0x24
  else if c.sec.armedAt.isSome then c.updResult 0x20
  else if c.swapArmed.isSome then c.updResult 0x23
  else if v < c.valley + 1000000 then c.updResult 0x22
  else (({ c with sec := { c.sec with armedAt := some v } } : Core).updState 3).updResult 0

/-- ACTIVATE. -/
def updNow (m : Mem) (c : Core) : Mem × Core :=
  if !c.sec.staged then (m, c.updResult 0x24) else if c.swapArmed.isSome then (m, c.updResult 0x23) else activateNow m c

/-- CANCEL. -/
def Core.updCancel (c : Core) : Core :=
  if c.sec.armedAt.isSome then (({ c with sec := { c.sec with armedAt := none } } : Core).updState 2).updResult 0 else c

/-- UPD_CMD; an emulated register. -/
def hUpdCmd (m : Mem) (c : Core) (a : Access) (v : Nat) : Mem × Core :=
  let op := v % 8
  if !isPriv a || !c.service then (m, c)
  else if op = 1 then (m, c.updStage m)
  else if op = 2 then (m, c.updAt)
  else if op = 3 then updNow m c
  else if op = 4 then (m, c.updCancel)
  else (m, c)

def execStage (acc : Access) (v : Word64) (s : State) : Answer := devStep (fun m c => hUpdCmd m c acc (setBits (wv v) 0 3 1)) s
def execActivateAt (acc : Access) (v : Word64) (s : State) : Answer := devStep (fun m c => hUpdCmd m c acc (setBits (wv v) 0 3 2)) s
def execActivate (acc : Access) (v : Word64) (s : State) : Answer := devStep (fun m c => hUpdCmd m c acc (setBits (wv v) 0 3 3)) s
def execCancel (acc : Access) (v : Word64) (s : State) : Answer := devStep (fun m c => hUpdCmd m c acc (setBits (wv v) 0 3 4)) s

/-- UPDATE_ACTIVATION: the armed count has come. -/
def updActivation (m : Mem) (c : Core) : Mem × Core :=
  match c.sec.armedAt with
  | some v => if c.valleyDue v then activateNow m c else (m, c)
  | none => (m, c)

def execUpdateActivation (s : State) : Answer := devStep updActivation s

/-! ### Confirmation (R502) -/

/-- HEALTH_CONFIRM: the right word while a trial awaits it confirms the running image. -/
def hConfirm (m : Mem) (c : Core) (a : Access) (v : Nat) : Mem × Core :=
  if !isPriv a || v % 2 ^ 32 ≠ 0x48454C54 || c.sec.trialAt.isNone then (m, c)
  else
    let b := bootRec m
    let m := putRec m { b with active := c.sec.slot, trial := none, tried := false, floor := max b.floor c.sec.svn }
    (m, (({ c with sec := { c.sec with trial := false, trialAt := none } } : Core).setF 0xA0 33 1 1).showBoot)

def execHealthConfirm (acc : Access) (v : Word64) (s : State) : Answer := devStep (fun m c => hConfirm m c acc (wv v)) s

/-- SECONDS of HEALTH_CONFIRM. -/
def Core.secondsLeft (c : Core) : Nat :=
  match c.sec.trialAt with | some t => 60 - (c.now - t) / nsN 1000000000 | none => 0

/-- CONFIRM_TIMEOUT: SECONDS has reached 0. -/
def confirmTimeout (m : Mem) (c : Core) : Mem × Core := if c.sec.trialAt.isSome && c.secondsLeft = 0 then fallBack m c else (m, c)

def execConfirmTimeout (s : State) : Answer := devStep confirmTimeout s

/-! ### Watchdog and protection -/

/-- WATCHDOG: safe state, and a restart of the running image. -/
def watchdog (m : Mem) (c : Core) (core : Nat) : Mem × Core :=
  let r := errS m c pSec 0x45 core 0
  pause r.1 r.2

def execWatchdog (core : Nat) (s : State) : Answer := devStep (fun m c => watchdog m c core) s

/-- FW_PROTECT: a component's fault is logged; the third within 10 s stops it, and no service remains; for the host interface the running
image restarts instead. -/
def fwProtect (m : Mem) (c : Core) (comp : Nat) : Mem × Core :=
  let c := c.logErr pCtl clsC 0x80 0 comp 0
  let l := (c.sec.faults.filter fun (e : Nat × Nat) => c.now < e.2 + nsN 10000000000) ++ [(comp, c.now)]
  let n := (l.filter fun (e : Nat × Nat) => e.1 = comp).length
  if n < 3 then (m, { c with sec := { c.sec with faults := l } })
  else
    let c := { c with sec := { c.sec with faults := l.filter fun (e : Nat × Nat) => e.1 ≠ comp } }
    if comp = 0 then pause m c else (m, c.setDevState 4)

def execFwProtect (comp : Nat) (s : State) : Answer :=
  devStep (fun m c => if comp < 7 && 2 ≤ c.fwState then fwProtect m c comp else (m, c)) s

end Sys2Proof.Machine
end

