-- ==== Sys2Proof/Machine/Pages.lean ====
section
/-! DEFINITION. The register pages: what every register reads as in either view (R12, R453 to R462), the census (R470 to R472), and the
commands of the common header (R458, R461, R462, R464, R465, R469). -/

namespace Sys2Proof.Machine

/-! ### Registers that hardware computes -/

/-- EVT_RAW (R463): conditions read as they stand; an event that is a pulse has ended by the next read. -/
def Core.rawEvents (c : Core) (p : Nat) : Nat :=
  if p = pTime then 2 ^ 8 * c.getF (pTime + 0x200) 1 1
  else if p = pPass then
    toMask (((List.range 16).filter fun l => c.laneState l ≠ 3).map (8 + ·) ++
      ((List.range 16).filter fun l => (c.lane l).fault).map (24 + ·))
  else if p = pCap then 2 ^ 8 * b2n (c.cap.state = 3) + 2 ^ 9 * b2n (c.getF (pCap + 0x140) 8 8 ≠ 0)
  else if p = pFlt then 2 ^ 8 * b2n c.safe
  else if p = pPwr then
    2 ^ 8 * b2n (c.pwr.warns.any fun w => w < wPower) + 2 ^ 9 * b2n (c.pwr.warns.contains wPower) +
      2 ^ 10 * b2n (c.pwr.warns.any fun w => wRail 0 ≤ w)
  else 0

/-- The registers of the common header (R459). -/
def Core.hdrWord (c : Core) (p off : Nat) : Nat :=
  if off = 0x20 then
    b2n (c.en p) + 2 * c.getF (p + 0x18) 1 1 + 4 * c.getF (p + 0x18) 2 1 + 8 * b2n (c.getF (p + 0x48) 0 4 ≠ c.getF (p + 0x48) 8 4)
  else if off = 0x28 then c.rawEvents p
  else if off = 0x48 then
    setBits (c.rd (p + 0x48)) 12 1 (b2n ((c.getF (p + 0x48) 8 4 + 16 - c.getF (p + 0x48) 0 4) % 16 = 8))
  else c.rd (p + off)

/-- DEV. -/
def Core.devWord (c : Core) (off : Nat) : Nat :=
  if off = 0x98 then setBits (c.rd 0x98) 0 1 (b2n c.censusArmed.isSome)
  else if off = 0xA0 then setBits (setBits (c.rd 0xA0) 32 1 (b2n c.sec.trialAt.isSome)) 40 8 c.secondsLeft
  else c.rd off

/-- TIME (R176, R209, R474). DESIGN CHOICE (log 34): a _HI half that software writes and reads back (TOUT_START_HI,
VALLEY_EPOCH_HI) shows what was written last, also before the write of _LO makes it effective, or what the latest read of _LO latched. -/
def Core.timeWord (c : Core) (off : Nat) : Nat :=
  let a := pTime + off
  if off = 0x80 then timeLo c.cycleTime
  else if off = 0xA8 then c.valley
  else if off = 0x88 ∨ off = 0x220 ∨ off = 0x228 then c.heldHi a
  else if 0x140 ≤ off ∧ off < 0x180 then
    let g := (off - 0x140) / 8
    setBits (c.rd a) 16 11 (if (c.rgn g).anyBin.isSome then c.dFord g else c.dFordRaw g)
  else if off = 0x208 then setBits (c.rd a) 24 32 c.clk.slewLeft
  else if off = 0x218 then c.txtsLo
  else if 0x300 ≤ off ∧ off < 0x500 then (if off % 0x20 = 0 then c.rd a else c.heldHi a)
  else if off = 0x628 ∨ (0x500 ≤ off ∧ off < 0x580 ∧ off % 0x20 = 8) then c.hiShown a
  else if 0x500 ≤ off ∧ off < 0x580 ∧ off % 0x20 = 0x18 then
    setBits (c.rd a) 36 1 (b2n (c.tout ((off - 0x500) / 0x20)).armed)
  else if 0x5A0 ≤ off ∧ off < 0x5E0 then (if off % 0x10 = 0 then c.tinLo ((off - 0x5A0) / 0x10) else c.heldHi a)
  else c.rd a

/-- COMP: the counter window (R242, R304) and the gate (R475). -/
def Core.compWord (c : Core) (off : Nat) : Nat :=
  if 0xC0 ≤ off ∧ off < 0x100 then c.rd (aTmpl (c.getF (pComp + 0x88) 0 8) ((off - 0xC0) / 8)) else c.rd (pComp + off)
def Core.gateWord (c : Core) (off : Nat) : Nat :=
  if off = 0x80 then setBits (setBits (c.rd aGate) 3 1 (b2n c.safe)) 4 1 (b2n c.gateOpen) else c.rd (pComp1 + off)

/-- The task table entries in a state. -/
def Core.tasksIn (c : Core) (st : TState) : Nat := (c.task.table.filter fun (e : Nat × Task) => e.2.st = st).length

/-- TASK (R329). -/
def Core.taskWord (c : Core) (off : Nat) : Nat :=
  if off = 0xD0 then
    c.tasksIn .waiting + 2 ^ 13 * c.tasksIn .ready + 2 ^ 26 * c.tasksIn .running + 2 ^ 39 * b2n c.cqFull + 2 ^ 40 * b2n c.plogFull
  else c.rd (pTask + off)

/-- CAP (R400). -/
def Core.capWord (c : Core) (off : Nat) : Nat :=
  let k := c.cap
  if off = 0xA0 then
    k.state + 4 * k.reason + 16 * k.seqState + 2 ^ 8 * b2n k.holding.isSome + 2 ^ 9 * b2n k.halted + 2 ^ 10 * c.getF (pCap + 0xA0) 10 1
  else if off = 0xF8 then c.rcWord (pCap + off)
  else if 0xC8 ≤ off ∧ off < 0xE8 then k.counters.getD ((off - 0xC8) / 8) 0 % 2 ^ 32
  else c.rd (pCap + off)

/-- CTL (R451, R452). -/
def Core.ctlWord (c : Core) (off : Nat) : Nat :=
  if off = 0x90 then toMask (c.kwn.sess.map (·.1))
  else if off = 0x98 then
    c.privSess.getD 0 + 2 ^ 6 * b2n c.privSess.isSome + 2 ^ 7 * b2n c.capSess.isSome + 2 ^ 8 * c.capSess.getD 0
  else if 0xC0 ≤ off ∧ off < 0xD8 then c.rd (aSess (c.getF (pCtl + 0xA8) 0 6) ((off - 0xC0) / 8))
  else c.rd (pCtl + off)

/-- SEC (R503). -/
def Core.secWord (c : Core) (off : Nat) : Nat :=
  let s := c.sec
  let x := s.meas[c.getF (pSec + 0xC8) 0 6]?
  if off = 0xD0 then (x.map fun (y : Meas) => y.kind % 256 + 2 ^ 8 * (y.index % 256) + 2 ^ 16 * b2n y.set + 2 ^ 17).getD 0
  else if 0xD8 ≤ off ∧ off < 0xF8 then (x.map fun (y : Meas) => fld y.digest (off - 0xD8) 8).getD 0
  else if off = 0x108 then s.holder.getD 0 + 2 ^ 6 * b2n s.holder.isSome + 2 ^ 7 * b2n (s.mbxOp ≠ 0) + 2 ^ 8 * s.mbxResult
  else c.rd (pSec + off)

/-- FLT (R525). -/
def Core.fltWord (c : Core) (off : Nat) : Nat :=
  if off = 0x80 then setBits (c.rd aFltState) 1 1 (b2n c.exitOk)
  else if off = 0xB0 then (Config.bistSignature c.stepping).toNat
  else c.rd (pFlt + off)

/-- MDW_CTX (R91) of meadow m. -/
def Core.ctxWord (c : Core) (m : Nat) : Nat :=
  let r := c.rgn (c.rgnOf m)
  let mask := fun (l : List Nat) => toMask ((List.range 8).filter fun k => l.contains (m * 8 + k))
  r.sect % 4 + 4 * b2n r.set + 2 ^ 4 * mask c.fab.loaded + 2 ^ 12 * mask c.fab.loading

/-- MDW_RGN_BIN (R164): the report of the set that the region runs. -/
def Core.binWord (c : Core) (g : Nat) : Nat :=
  match (c.rgn g).anyBin with
  | none => 0
  | some l =>
    let r := l.bin.report
    r.lat % 2 ^ 15 + 2 ^ 15 * (r.ii % 2 ^ 9) + 2 ^ 24 * b2n (r.copies = 2) + 2 ^ 25 * b2n r.canonical + 2 ^ 26 * b2n r.debug +
      2 ^ 27 * b2n r.hotClass + 2 ^ 28 * b2n l.pad + 2 ^ 29 * (r.tableId % 2 ^ 16)

/-- The registers of a region on its anchor's page (R92 to R94, R162, R164, R302, R353). -/
def Core.rgnWord (c : Core) (g off : Nat) : Nat :=
  let r := c.rgn g
  if off = 0x90 then b2n (r.phase = .draining) + 8 * b2n r.resetWait
  else if off = 0x98 then phaseCode r.phase + 8 * b2n (!r.stall.isEmpty) + 16 * (r.faultKind % 16)
  else if off = 0x130 then c.binWord g
  else c.rd (pRgn g + off)

/-- Whether an offset of a meadow page belongs to the region (anchor only). -/
def isRgnOff (off : Nat) : Bool := (rowIn off rowsRgn).isSome

/-- A meadow page. The region's registers read as zero in a meadow that anchors none (02_cell_fabric, "Meadow page registers"),
so that the reset value 0xFFFF_FFFF_FFFF of LAT_MIN is then not shown. -/
def Core.mdwWord (c : Core) (m off : Nat) : Nat :=
  let p := pMdw m
  let rec_ := (Store.get c.fab.digFifo [] m)
  if off = 0x80 then setBits (c.rd (p + 0x80)) 4 1 (b2n (c.anchored m).isSome)
  else if off = 0x88 then c.ctxWord m
  else if off = 0x170 then (rec_.head?.map fun r => fld r 0 8).getD 0
  else if 0x170 < off ∧ off < 0x190 then c.heldHi (p + off)
  else if off = 0x190 then rec_.length
  else if isRgnOff off then (match c.anchored m with | some g => c.rgnWord g off | none => 0)
  else c.rd (p + off)

/-- Whether a register is one that firmware emulates (R456, R457, R503). -/
def emulatedAt (b : Block) (off : Nat) : Bool :=
  0x80 ≤ off && off < 0xF00 &&
    match b with | .ctl => true | .task => 0x88 ≤ off && off < 0xD0 | .sec => 0x100 ≤ off | _ => false

/-- The word behind a register, before access codes and views. -/
def Core.word (c : Core) (b : Block) (i p off : Nat) : Nat :=
  if off < 0x80 ∨ 0xF00 ≤ off then c.hdrWord p off
  else match b with
    | .dev => c.devWord off | .time => c.timeWord off | .comp0 => c.compWord off | .comp1 => c.gateWord off
    | .task => c.taskWord off | .cap => c.capWord off | .ctl => c.ctlWord off | .sec => c.secWord off | .flt => c.fltWord off
    | .key => if off = 0x1E0 then c.rcWord (p + off) else c.rd (p + off)
    | .mdw => c.mdwWord i off | _ => c.rd (p + off)

/-- The bits of the fields that hold a predicate. -/
def fieldMask (r : RegRow) (p : Field → Bool) : Nat := (r.fields.filter p).foldl (fun a f => setBits a f.lo f.w (2 ^ f.w - 1)) 0

/-- What a register reads as (R12, R13, R454, R456): reserved and WO fields read zero, P fields only in the privileged view, an emulated
register only in service. An offset without a register reads zero. -/
def Core.readReg (c : Core) (v : View) (a : Nat) : Nat :=
  match blockAt c.plains a, rowAt c.plains a with
  | some (b, i), some (_, r, _) =>
    if emulatedAt b (a % 0x1000) && !c.service then 0
    else c.word b i (pageOf a) (a % 0x1000) &&& fieldMask r fun f => f.acc ≠ .wo && (v = .priv || !f.priv)
  | _, _ => 0

/-- What a read changes (R15, R176, R209, R353): it latches, pops and clears. -/
def Core.readEffect (c : Core) (a : Nat) : Core :=
  let off := a % 0x1000
  match blockAt c.plains a with
  | some (.time, _) =>
    if off = 0x80 then c.latch (pTime + 0x88) (timeHi c.cycleTime)
    else if off = 0x620 ∨ (0x500 ≤ off ∧ off < 0x580 ∧ off % 0x20 = 0) then c.showHi (a + 8) (some (c.rd (a + 8)))
    else if off = 0x218 then c.txtsPop
    else if 0x300 ≤ off ∧ off < 0x500 ∧ off % 0x20 = 0 then
      [8, 16, 24].foldl (fun c k => c.latch (a + k) (c.rd (a + k))) c
    else if 0x5A0 ≤ off ∧ off < 0x5E0 ∧ off % 0x10 = 0 then c.tinPop ((off - 0x5A0) / 0x10)
    else c
  | some (.key, _) => if off = 0x1E0 then c.rcClear a else c
  | some (.cap, _) => if off = 0xF8 then c.rcClear a else c
  | some (.mdw, m) => if off = 0x170 then c.digPop m else c
  | _ => c

/-- Whether a register holds an RC field. -/
def isRc (pl a : Nat) : Bool := match rowAt pl a with | some (_, r, _) => r.fields.any fun f => f.acc = .rc | none => false

/-- RC_READ (R15): a read of a register with an RC field returns it and clears it. -/
def Core.rcRead (c : Core) (a : Nat) : Core := if isRc c.plains a then c.readEffect a else c

def execRcRead (_ : Access) (addr : Nat) (s : State) : Answer := coreStep (fun _ c => c.rcRead addr) s

/-! ### Census (R470 to R472) -/

/-- CENSUS_REQ: a write arms, or is rejected. -/
def Core.hCensusReq (c : Core) (a : Access) (v : Nat) : Core :=
  if !isPriv a then c
  else if c.censusArmed.isSome || !c.lead200 v then (c.raiseF 0x98 2).reject 0 0x90 v
  else { (c.wr 0x90 v).setF 0x98 1 1 0 with censusArmed := some v }

def execCensusRequest (acc : Access) (v : Word64) (s : State) : Answer := coreStep (fun _ c => c.hCensusReq acc (wv v)) s

/-- The pages of the device (R457). -/
def Core.pages (c : Core) : List Nat :=
  [pDev, pTime, pPort, pSep, pComp, pComp1, pKey, pTask, pCap, pPass, pLpm, pCtl, pSec, pFlt, pPwr] ++
    (List.range c.plains).map pVlt ++ (List.range c.plains).map pPln ++ (List.range c.meadows).map pMdw

/-- The offsets of the registers of a block below the error log. -/
def rowOffs (r : RegRow) : List Nat := (List.range r.count).map fun i => r.off + i * r.stride
def blockOffs (b : Block) : List Nat :=
  let rows := match b with | .mdw => rowsMdw ++ rowsRgn | b => blockRows b
  ((rowsHdr.filter fun r => r.off < 0xF00) ++ rows).flatMap rowOffs

/-- The copy of a page in the privileged view at a census of tick t; registers that read zero are not listed. -/
def Core.pageCopy (c : Core) (t p : Nat) : List (Nat × Word64) :=
  match blockAt c.plains p with
  | none => []
  | some (b, _) =>
    (blockOffs b).filterMap fun off =>
      let v := if off = 0x58 then t else c.readReg .priv (p + off)
      if v % 2 ^ 64 = 0 then none else some (p + off, BitVec.ofNat 64 v)

/-- CENSUS: at the tick every page latches its registers, CENSUS_TICK reads the tick, and event 2 is raised; the live registers change
in nothing else. -/
def Core.census_ (c : Core) : Core :=
  match c.censusArmed with
  | some t =>
    if !c.tickBegun t then c
    else
      let copy := (c.pages.flatMap (c.pageCopy t)).foldl (fun (s : Store Word64) e => Store.set s 0 e.1 e.2) []
      let c := ({ c.setF 0x98 1 1 1 with census := copy, censusArmed := none } : Core).cycSet aCensusNow 1
      c.pages.foldl (fun c p => (c.wr (p + 0x58) t).event p 2) c
  | none => c

def execCensus (s : State) : Answer := coreStep (fun _ c => c.census_) s

/-- What a census view reads (R453, R471): the copy, whose P fields only the privileged one shows. -/
def Core.readCensus (c : Core) (v : View) (a : Nat) : Nat :=
  match rowAt c.plains a with
  | some (_, r, _) =>
    if 0xF00 ≤ a % 0x1000 then 0
    else (Store.get c.census 0 a).toNat &&& fieldMask r fun f => v = .priv || !f.priv
  | none => 0

/-! ### PAGE_CTRL (R458, R461, R462) -/

/-- Whether the work of a block is idle, so that its EN may be cleared: regions drained or idle, ports disabled, capture IDLE, no task
and no lane at work. -/
def Core.blockIdle (c : Core) (b : Block) (i : Nat) : Bool :=
  let quiet := (List.range 8).all fun g => (c.rgn g).quiet
  match b with
  | .port => c.getF (pPort + 0x80) 2 8 = 0
  | .sep => quiet && !c.getB aRplStat 0
  | .comp0 | .comp1 => quiet && c.comp.results.isEmpty && c.comp.inProg.isEmpty
  | .key => quiet && c.key.ring.isNone && c.key.pub.isNone && c.key.snap.isNone
  | .task => c.task.table.all fun (e : Nat × Task) => e.2.st = .free || e.2.st = .done
  | .cap => c.cap.state = 0
  | .pass => (List.range 16).all fun l => c.laneState l = 0
  | .mdw => (8 ≤ c.rgnField i || (c.rgn (c.rgnField i)).quiet) && !c.task.holders.any (fun e => e.1 = i)
  | _ => true

/-- A write of EN. -/
def Core.setEn (c : Core) (b : Block) (i p v : Nat) : Core :=
  if enFixed b || c.en p = bit v 0 then c
  else if !bit v 0 && !c.blockIdle b i then c.reject p 0x18 v
  else
    let c := c.setF (p + 0x18) 0 1 v
    match b with | .pass => (List.range 16).foldl (fun c l => c.laneSync l) c | _ => c

/-- A write of BLK_RESET: accepted while EN is clear on a page that supports it; the registers return to reset at its end. -/
def Core.beginReset (c : Core) (b : Block) (p v : Nat) : Core :=
  if enFixed b || c.en p then c.reject p 0x18 v else c.setF (p + 0x18) 1 1 1

/-- A write of PAGE_CTRL: FREEZE, EN, and BLK_RESET under the EN so written. -/
def Core.hPageCtrl (c : Core) (a : Access) (p v : Nat) : Core :=
  match blockAt c.plains p with
  | some (b, i) =>
    if !isPriv a || b = .rgn then c
    else
      let c := (c.setF (p + 0x18) 2 1 (v / 4)).setEn b i p v
      if bit v 1 then c.beginReset b p v else c
  | none => c

def execPageEnWrite (acc : Access) (page : Nat) (v : Word64) (s : State) : Answer :=
  coreStep (fun _ c => c.hPageCtrl acc (pageOf page) (wv v)) s
def execFreeze (acc : Access) (page : Nat) (v : Word64) (s : State) : Answer :=
  coreStep (fun _ c => c.hPageCtrl acc (pageOf page) (wv v)) s
/-- BLK_RESET: a write that sets BLK_RESET and keeps EN and FREEZE. -/
def execBlkReset (acc : Access) (page : Nat) (s : State) : Answer :=
  coreStep (fun _ c => c.hPageCtrl acc (pageOf page) (setBits (c.rd (pageOf page + 0x18)) 1 1 1)) s

/-- Whether a key of the register table belongs to the block-specific registers or to EVT_PEND of a page: those that a block reset returns
to reset. Template counters belong to COMP page 0. -/
def ownedBy (p a : Nat) : Bool :=
  (pageOf a = p && (a % 0x1000 = 0x38 || (0x80 ≤ a % 0x1000 && a % 0x1000 < 0xF00))) ||
    (p = pComp && 0x30000000 ≤ a && a < 0x30100000)

/-- The state of a block behind its registers, back at reset: a meadow's slots hold no image, and the region that it anchors is idle without
a binary. -/
def Core.clearBlock (c : Core) (b : Block) (i : Nat) : Core :=
  match b with
  | .sep =>
    let c := (List.range 8).foldl (fun c g => c.modRgn g fun r => { r with replay := false, delta := 0 }) c
    { c with sep := { c.sep with filters := [], pending := none, pendingDone := false } }
  | .comp0 => { c with comp := { c.comp with seqs := [] } }
  | .key => { c with key := { c.key with slotPend := none } }
  | .task =>
    { c with task := { Core.reset.task with holders := c.task.holders, lastBins := c.task.lastBins } }
  | .cap => { c with cap := { Cap.idle with pulses := c.cap.pulses } }
  | .pass => { c with lanes := [] }
  | .mdw =>
    let c := match c.anchored i with
      | some g =>
        let c := ((c.resetNow g).modRgn g fun r => { r with bins := [none, none] }).claimTracks g
        { c with regs := c.regs.filter fun (e : Nat × Word64) => pageOf e.1 ≠ pRgn g }
      | none => c
    { c with fab := { c.fab with convs := c.fab.convs.filter (fun (e : Nat × ConvWin) => e.1 / 32 ≠ i),
                                 digFifo := c.fab.digFifo.filter (fun (e : Nat × List (List Byte)) => e.1 ≠ i),
                                 loaded := c.fab.loaded.filter (fun k => k / 8 ≠ i),
                                 loading := c.fab.loading.filter (fun k => k / 8 ≠ i) } }
  | _ => c

/-- A COMP_CAP register whose ARMED is set: it stays armed until device reset (R237), so a block reset of its page keeps it and its
bucket (DEDUCED, log 93). -/
def capArmed (e : Nat × Word64) : Bool := pComp + 0x400 ≤ e.1 && e.1 < pComp + 0xC00 && e.2.toNat.testBit 48

/-- Registers that hold what start-up measured and that a block reset therefore keeps: the version words and the input levels. -/
def measuredAt (a : Nat) : Bool := a = pTask + 0x80 || a = pCap + 0x80 || a = pPass + 0x80 || a = pComp1 + 0x80

/-- BLOCK_RESET_DONE: within 1 µs every block-specific register, EVT_RAW and EVT_PEND are back at reset, but for armed caps (R237). -/
def Core.blockResetDone (c : Core) (p : Nat) : Core :=
  match blockAt c.plains p with
  | some (b, i) =>
    if enFixed b || b = .rgn || !c.getB (p + 0x18) 1 then c
    else
      let keep := c.getF (pComp1 + 0x80) 1 2
      let c := { c.clearBlock b i with regs := (c.clearBlock b i).regs.filter fun (e : Nat × Word64) => !ownedBy p e.1 || measuredAt e.1 || capArmed e }
      let c := if b = .comp1 then (c.wr aGate 0).setF aGate 1 2 keep else c
      c.setF (p + 0x18) 1 1 0
  | none => c

def execBlockResetDone (page : Nat) (s : State) : Answer := coreStep (fun _ c => c.blockResetDone (pageOf page)) s

/-! ### Events and the log (R463 to R465, R469) -/

/-- EVT_FORCE: PEND bits are set and nothing else. -/
def Core.hForce (c : Core) (a : Access) (p v : Nat) : Core := if isPriv a then c.setPend p v else c

def execEvtForce (acc : Access) (page : Nat) (v : Word64) (s : State) : Answer :=
  coreStep (fun _ c => if (blockAt c.plains page).isSome then c.hForce acc (pageOf page) (wv v) else c) s

/-- EVT_ENABLE: a bit enabled while pending makes a notice due. -/
def Core.hEnable (c : Core) (a : Access) (p v : Nat) : Core :=
  if !isPriv a then c
  else
    let old := c.rd (p + 0x30) &&& c.rd (p + 0x38)
    let c := c.wr (p + 0x30) v
    if (c.rd (p + 0x38) &&& v) &&& (old ^^^ (2 ^ 64 - 1)) ≠ 0 then { c with notices := insertNat p c.notices } else c

/-- Whether a page's notice must wait: none is due, its last was built less than 1 µs ago (R465). -/
def Core.noticeWaits (c : Core) (p : Nat) : Bool :=
  !c.notices.contains p || c.noticeAt.any fun (e : Nat × Nat) => e.1 = p && c.now < e.2 + nsN 1000

/-- PAGE_NOTICE (R465): a due notice is built, no sooner than 1 µs after the page's last; none when no enabled bit is pending any more.
Notices that are due together go by page address (R191). -/
def Core.pageNotice (c : Core) (p : Nat) : Core :=
  if c.noticeWaits p || c.notices.any (fun q => q < p && !c.noticeWaits q) then c
  else
    let c := { c with notices := c.notices.filter (· ≠ p) }
    if c.rd (p + 0x38) &&& c.rd (p + 0x30) = 0 then c
    else
      let c := { c with noticeAt := Store.insert (Store.erase c.noticeAt p) p c.now }
      (c.sessWhere fun x => bit x.streams 0).foldl (fun c s => c.sendEntries s 0x30 [c.noticeBytes p 1 (c.rd (p + 0x38))]) c

def execPageNotice (page : Nat) (s : State) : Answer := coreStep (fun _ c => c.pageNotice (pageOf page)) s

/-- ERR_HEAD: HEAD moves forward over unconsumed entries, or the write is rejected. -/
def Core.hErrHead (c : Core) (a : Access) (p v : Nat) : Core :=
  let head := c.getF (p + 0x48) 0 4
  let tail := c.getF (p + 0x48) 8 4
  if !isPriv a then c
  else if (v % 16 + 16 - head) % 16 ≤ (tail + 16 - head) % 16 then c.setF (p + 0x48) 0 4 v
  else c.reject p 0x48 v

def execErrHeadWrite (acc : Access) (page : Nat) (v : Word64) (s : State) : Answer :=
  coreStep (fun _ c => if (blockAt c.plains page).isSome then c.hErrHead acc (pageOf page) (wv v) else c) s

end Sys2Proof.Machine
end

