-- ==== Sys2Proof/Machine/RegWrite.lean ====
section
/-! DEFINITION. A write of any register by its address: the registers with a behaviour of their own go to their hooks, all others update
their fields under their access codes (R12 to R14, R455). -/

namespace Sys2Proof.Machine

/-! ### Fields under their access codes -/

/-- Whether a field ignores a written value that is out of its range (R329, R372, R400, R401, R525). -/
def keeps (b : Block) (off lo x : Nat) : Bool :=
  match b with
  | .task =>
    if off = 0x88 ∨ off = 0xA0 then lo = 48 && (x < 6 || 12 < x) else if off = 0xB0 then lo = 48 && (x < 6 || 15 < x) else false
  | .pass => 0x100 ≤ off && off % 0x80 = 0x10 && lo = 48 && (x < 12 || 30 < x)
  | .cap =>
    if off = 0xB0 then x < 1 || 163840 < x else 0x100 ≤ off && off < 0x140 && lo = 5 && (x < 4 || 8 < x)
  | .flt => off = 0xA0 && lo = 1 && (x < 10 || 60000 < x)
  | _ => false

/-- How many low bits of a base register are zero, whatever is written (R329, R354, R372, R400, R504). -/
def zeroBits (b : Block) (off : Nat) : Nat :=
  match b with
  | .task => if off = 0x88 ∨ off = 0xB0 then 6 else if off = 0xA0 then 5 else 0
  | .cap => if off = 0xA8 then 20 else 0
  | .sep => if off = 0x148 then 4 else 0
  | .pass => if 0x100 ≤ off ∧ off % 0x80 = 0x10 then 12 else 0
  | .ctl => if off = 0x100 then 6 else 0
  | _ => 0

/-- PPS exists on TIN0 only; on other pins its bit is reserved (R209). -/
def absentField (b : Block) (off lo : Nat) : Bool := b = .time && 0x580 < off && off < 0x5A0 && lo = 4

/-- A write of one field: RW takes the value, W1C clears what hardware did not set in this cycle (R14), the other codes ignore it. -/
def Core.writeField (c : Core) (b : Block) (a v : Nat) (f : Field) : Core :=
  let off := a % 0x1000
  let x := v / 2 ^ f.lo % 2 ^ f.w
  let z := if f.lo = 0 then zeroBits b off else 0
  match f.acc with
  | .rw => if keeps b off f.lo x || absentField b off f.lo then c else c.setF a f.lo f.w (x / 2 ^ z * 2 ^ z)
  | .w1c => c.clearF a f.lo f.w x
  | _ => c

/-- A write of a register without behaviour of its own. -/
def Core.writePlain (c : Core) (acc : Access) (b : Block) (r : RegRow) (a v : Nat) : Core :=
  (r.fields.filter fun f => !f.priv || isPriv acc).foldl (fun c f => c.writeField b a v f) c

/-! ### Limits (R384, R400, R450, R536) -/

/-- PWR_TWARN: a level above its trip is ignored and logged. -/
def Core.hTwarn (c : Core) (acc : Access) (v : Nat) : Core :=
  if !isPriv acc then c
  else [0, 1, 2].foldl (fun c k =>
    let x := v / 2 ^ (16 * k) % 2 ^ 12
    if tripLevel k < signed 12 x then c.reject pPwr 0xA0 v else c.setF (pPwr + 0xA0) (16 * k) 12 x) c

/-- PWR_PKG: WARN_W above 1.10 × TDP is ignored and logged. -/
def Core.hPkg (c : Core) (acc : Access) (v : Nat) : Core :=
  let w := v / 2 ^ 16 % 2 ^ 16
  if !isPriv acc then c else if 11 * c.tdp < 10 * w then c.reject pPwr 0x98 v else c.setF (pPwr + 0x98) 16 16 w

/-- CAP_PAIL_SIZE keeps its value while capture runs. CAP_PAIL_RD: while a capture consumer exists, a write by another is ignored and
logged. -/
def Core.hPailSize (c : Core) (acc : Access) (v : Nat) : Core :=
  if !isPriv acc || c.cap.state = 2 || keeps .cap 0xB0 0 (v % 2 ^ 18) then c else c.setF (pCap + 0xB0) 0 18 v
def Core.hPailRd (c : Core) (acc : Access) (v : Nat) : Core :=
  if !isPriv acc then c
  else match c.capSess with
    | some s => if acc.who = .session s then c.setF (pCap + 0xC0) 0 38 v else c.reject pCap 0xC0 v
    | none => c.setF (pCap + 0xC0) 0 38 v

/-! ### The registers with behaviour of their own, by page -/

/-- The common header. -/
def Core.writeHdr (c : Core) (acc : Access) (p off v : Nat) : Option Core :=
  if off = 0x18 then some (c.hPageCtrl acc p v)
  else if off = 0x30 then some (c.hEnable acc p v)
  else if off = 0x40 then some (c.hForce acc p v)
  else if off = 0x48 then some (c.hErrHead acc p v)
  else none

def writeDev (m : Mem) (c : Core) (acc : Access) (off v : Nat) : Option (Mem × Core) :=
  if off = 0x90 then some (m, c.hCensusReq acc v)
  else if off = 0xA0 then some (hConfirm m c acc v)
  else if off = 0xA8 then some (m, c.hFwi acc v)
  else none

def Core.writeTime (c : Core) (acc : Access) (off v : Nat) : Option Core :=
  let k := off % 0x20
  if off = 0x90 then some (c.hTimeNowSet acc v)
  else if off = 0x98 then some (c.hHoldHi acc (pTime + off) v)
  else if off = 0x628 then some (c.hHiRw acc (pTime + off) v)
  else if off = 0xA0 then some (c.hTimeIncr acc v)
  else if off = 0xB8 then some (c.hSwap acc v)
  else if off = 0xC0 then some (c.hTickPeriod acc v)
  else if 0x100 ≤ off ∧ off < 0x140 then some (c.hLaunchAt acc ((off - 0x100) / 8) v)
  else if 0x140 ≤ off ∧ off < 0x180 then some (c.hFordDelay acc ((off - 0x140) / 8) v)
  else if off = 0x208 then some (c.hTimeSlew acc v)
  else if off = 0x230 then some (c.hMkrCfg acc v)
  else if 0x500 ≤ off ∧ off < 0x580 ∧ k ≠ 0x10 then
    some (if k = 0 then c.hToutStart acc ((off - 0x500) / 0x20) v
      else if k = 8 then c.hHiRw acc (pTime + off) v else c.hTout acc ((off - 0x500) / 0x20) v)
  else if off = 0x610 then some (c.hBarrier acc v)
  else if off = 0x620 then some (c.hEpoch acc v)
  else none

def writeKey (m : Mem) (c : Core) (acc : Access) (off v : Nat) : Option (Mem × Core) :=
  if off = 0x80 then some (m, c.hKeyCfg acc v)
  else if off = 0x90 then some (ringCmd m c acc v)
  else if off = 0xC8 then some (m, c.hSlotCmd m acc v)
  else none

def writeTask (m : Mem) (c : Core) (acc : Access) (off v : Nat) : Option (Mem × Core) :=
  if off = 0x90 then some (m, c.hSqTail acc v)
  else if off = 0xA8 then some (hCqPtr m c acc v)
  else if off = 0xC8 then some (hTaskCtrl m c acc v)
  else none

def Core.writeCap (c : Core) (m : Mem) (acc : Access) (off v : Nat) : Option Core :=
  if off = 0x88 then some (c.hCapArm m acc v)
  else if off = 0x98 then some (c.hCapCtrl acc v)
  else if off = 0xB0 then some (c.hPailSize acc v)
  else if off = 0xC0 then some (c.hPailRd acc v)
  else none

def Core.writePass (c : Core) (m : Mem) (acc : Access) (off v : Nat) : Option Core :=
  if off < 0x100 then none
  else if off % 0x80 = 0 then some (c.hPassCfg acc ((off - 0x100) / 0x80) v)
  else if off % 0x80 = 0x20 then some (c.hLtx m acc ((off - 0x100) / 0x80) v)
  else none

def writeCtl (m : Mem) (c : Core) (acc : Access) (off v : Nat) : Option (Mem × Core) :=
  if off = 0x80 then some (m, c.hKwnCfg acc v)
  else if off = 0xA0 then some (m, c.hKwnCtrl acc v)
  else if off = 0x118 then some (hUpdCmd m c acc v)
  else none

def Core.writeSec (c : Core) (acc : Access) (off v : Nat) : Option Core :=
  if off = 0x100 then some (c.hMbxCtrl acc v)
  else if 0x200 ≤ off then some (c.hMbx acc ((off - 0x200) / 8) v)
  else none

def writeMdw (m : Mem) (c : Core) (acc : Access) (md off v : Nat) : Option (Mem × Core) :=
  if off = 0x80 then some (m, c.hMeadow acc md v)
  else if off = 0x90 then some (m, c.hRgnCtrl acc md v)
  else if off = 0x158 then some (hSave m c acc md v)
  else if off = 0x190 then some (m, c.hDigCtrl acc md v)
  else if 0xA00 ≤ off ∧ off % 0x20 = 0x18 then some (m, c.hConv acc md ((off - 0xA00) / 0x20) v)
  else none

/-- The hook of a register, when it has one. -/
def writeHook (m : Mem) (c : Core) (acc : Access) (b : Block) (i p off v : Nat) : Option (Mem × Core) :=
  let only := fun (o : Option Core) => o.map fun c' => (m, c')
  if off < 0x80 then only (c.writeHdr acc p off v)
  else match b with
    | .dev => writeDev m c acc off v
    | .time => only (c.writeTime acc off v)
    | .port => if off = 0x80 then some (m, c.hPortCfg acc v) else none
    | .sep =>
      if off = 0xC8 then some (m, c.hFilterCmd acc v) else if off = 0x160 then some (m, c.hRplCtrl acc v) else none
    | .comp0 => if 0x400 ≤ off then some (m, c.hCap acc ((off - 0x400) / 8) v) else none
    | .comp1 =>
      if off = 0x80 then some (m, c.hGate acc v) else if 0x400 ≤ off then some (m, c.hDeadline acc ((off - 0x400) / 8) v) else none
    | .key => writeKey m c acc off v
    | .task => writeTask m c acc off v
    | .cap => only (c.writeCap m acc off v)
    | .pass => only (c.writePass m acc off v)
    | .vlt => if off = 0x80 then some (m, c.hVltCfg acc i v) else none
    | .ctl => writeCtl m c acc off v
    | .sec => only (c.writeSec acc off v)
    | .flt => if off = 0x98 then some (hFltCtrl m c acc v) else none
    | .pwr =>
      if off = 0x80 then some (m, c.hPwrPt acc v) else if off = 0x98 then some (m, c.hPkg acc v)
      else if off = 0xA0 then some (m, c.hTwarn acc v) else none
    | .mdw => writeMdw m c acc i off v
    | _ => none

/-- Write a register (R454 to R456): an offset without a register ignores the write, and an emulated register does out of service. -/
def writeReg (m : Mem) (c : Core) (acc : Access) (a v : Nat) : Mem × Core :=
  let off := a % 0x1000
  match blockAt c.plains a, rowAt c.plains a with
  | some (b, i), some (_, r, _) =>
    if b = .rgn || (emulatedAt b off && !c.service) then (m, c)
    else match writeHook m c acc b i (pageOf a) off v with
      | some x => x
      | none => if b = .mdw && isRgnOff off then (m, c) else (m, c.writePlain acc b r a v)
  | _, _ => (m, c)

def execRegisterWrite (acc : Access) (addr : Nat) (v : Word64) (s : State) : Answer :=
  devStep (fun m c => writeReg m c acc addr (wv v)) s

/-- Whether a written value has a one in a field of View P (R443). -/
def touchesPriv (pl a v : Nat) : Bool :=
  match rowAt pl a with
  | some (_, r, _) => v &&& fieldMask r (fun f => f.priv) ≠ 0
  | none => false

end Sys2Proof.Machine
end

