-- ==== Sys2Proof/Machine/Requests.lean ====
section
/-! DEFINITION. The requests of a session: registers (R443), memory (R444, R421), submission (R445) and doorbells (R446); the boot ROM
accepts fewer (R489). -/

namespace Sys2Proof.Machine

/-! ### Registers -/

/-- The place of a register address: its window's view, whether it is a census view, and the address of the live register (R453). -/
def windowOf (a : Nat) : View × Bool × Nat :=
  (if a < 0x40000000 then .priv else .unpriv, a / 0x20000000 % 2 = 1, a % 0x20000000)

/-- Whether the ROM serves a session that waits for its image, and whether an address is one that it serves then (R489). -/
def Core.inRom (c : Core) : Bool := c.kwn.upload.isSome
def romPage (a : Nat) : Bool := (windowOf a).2.2 / 0x1000 = 0 || (windowOf a).2.2 / 0x1000 = 0xC0

/-- Why a burst of registers is refused as a whole: its form, the privileged view without privilege, an address that is no page of the
device, a write to a census view. -/
def Core.burstCode (c : Core) (x : Sess) (write : Bool) (addr n : Nat) : Option Nat :=
  let as := (List.range n).map fun i => addr + 8 * i
  if addr % 8 ≠ 0 || 2 ^ 48 ≤ addr || n = 0 || 64 < n then some nFormat
  else if c.inRom then
    (if !as.all romPage then some nType else if write && as.any (fun a => (windowOf a).2.1) then some nProtect else none)
  else if x.role ≠ .privileged && as.any (fun a => a < 0x40000000) then some nPriv
  else if as.any fun a => 0x80000000 ≤ a || (blockAt c.plains (windowOf a).2.2).isNone then some nRange
  else if write && as.any (fun a => (windowOf a).2.1) then some nProtect
  else none

/-- The mailbox's holder has made an access to it (R494). -/
def Core.mbxAccess (c : Core) (s a : Nat) : Core :=
  if pageOf a = pSec && 0x100 ≤ a % 0x1000 && a % 0x1000 < 0xF00 && c.sec.holder = some s then { c with sec := { c.sec with since := c.now } } else c

/-- Read one register through a window: its value and what the read changes; a census view is never changed (R471). -/
def Core.readAt (c : Core) (s addr : Nat) : Nat × Core :=
  let w := windowOf addr
  if w.2.1 then (c.readCensus w.1 w.2.2, c)
  else (c.readReg w.1 w.2.2, (c.readEffect w.2.2).mbxAccess s w.2.2)

/-- Read `n` registers in ascending order, each atomically. -/
def Core.readBurst (c : Core) (s addr : Nat) : Nat → List Byte × Core
  | 0 => ([], c)
  | n + 1 =>
    let x := c.readAt s addr
    let y := x.2.readBurst s (addr + 8) n
    (toLe 8 x.1 ++ y.1, y.2)

/-- The work of REG_READ. -/
def regReadWork (h : KwnHdr) (addr n : Nat) (x : Sess) (m : Mem) (c : Core) : Mem × Core × Reply :=
  match c.burstCode x false addr n with
  | some k => (m, c, .nak k)
  | none => let y := c.readBurst h.session addr n; (m, y.2, .resp (respBody y.1 []))

def execRegRead (h : KwnHdr) (addr count : Nat) (s : State) : Answer := devStep (fun m c => request m c h (regReadWork h addr count)) s

/-- Write registers in ascending order; the answer says whether a write through the unprivileged view touched a privileged field. -/
def writeBurst (s : Nat) : List Word64 → Nat → Mem → Core → Mem × Core × Bool
  | [], _, m, c => (m, c, false)
  | v :: t, addr, m, c =>
    let w := windowOf addr
    let x := writeReg m c ⟨w.1, .session s⟩ w.2.2 v.toNat
    let y := writeBurst s t (addr + 8) x.1 (x.2.mbxAccess s w.2.2)
    (y.1, y.2.1, y.2.2 || (w.1 = .unpriv && touchesPriv c.plains w.2.2 v.toNat))

/-- The work of REG_WRITE. -/
def regWriteWork (h : KwnHdr) (addr : Nat) (data : List Word64) (x : Sess) (m : Mem) (c : Core) : Mem × Core × Reply :=
  match c.burstCode x true addr data.length with
  | some k => (m, c, .nak k)
  | none =>
    let y := writeBurst h.session data addr m c
    (y.1, y.2.1, if y.2.2 then .nak nPriv else .resp (respBody [] []))

def execRegWrite (h : KwnHdr) (addr : Nat) (data : List Word64) (s : State) : Answer :=
  devStep (fun m c => request m c h (regWriteWork h addr data)) s

/-! ### Memory (R421, R444) -/

/-- Why a session that is not privileged is refused what needs privilege: TYPE (R427), or PRIV once its privilege was taken over (R440). -/
def Sess.denied (x : Sess) : Option Nat := if x.role = .privileged then none else some (if x.taken then nPriv else nType)

/-- Why an access to the memory windows is refused before it is tried: privilege, its form, an address that is not mapped. -/
def Core.memCode (c : Core) (x : Sess) (addr n : Nat) : Option Nat :=
  match x.denied with
  | some k => some k
  | none =>
    if addr % 8 ≠ 0 || n % 8 ≠ 0 || n < 8 || 4096 < n || 2 ^ 48 ≤ addr then some nFormat
    else if !c.mapped false addr n then some nRange
    else none

/-- The map of poisoned words of a read (R441): empty when there is none. -/
def poisonMap (m : Mem) (a n : Nat) : List Byte :=
  if (m.marks a n).isEmpty then []
  else (List.range (ceilDiv n 64)).map fun i =>
    BitVec.ofNat 8 (toMask ((List.range 8).filter fun k => 64 * i + 8 * k < n && m.poisoned (a + 64 * i + 8 * k)))

/-- Whether a read touches a cell of a running standing region, so that it waits for a free port cycle. -/
def Core.waitsForPort (c : Core) (a n : Nat) : Bool :=
  (meadowsOf a n).any fun m => c.rgnField m < 8 && ((c.rgn (c.rgnField m)).phase = .running || (c.rgn (c.rgnField m)).phase = .draining)

/-- The bytes that a host read returns: of a line that the fabric writes in this fc, the data from before that write (R56). -/
def Core.hostRead (c : Core) (m : Mem) (a n : Nat) : List Byte :=
  let bs := m.read a n
  if c.fab.wrA.isEmpty then bs
  else bs.mapIdx fun i b =>
    match c.fab.wrA.find? fun (e : Nat × Payload) => e.1 = (a + i) / 64 * 64 with
    | some e => BitVec.ofNat 8 (e.2.toNat / 256 ^ ((a + i) % 64))
    | none => b

/-- The work of MEM_READ. Whether a port cycle comes free within 10 µs follows from a schedule that no rule states whole: a free value.
No TAP in the WINDOW role is asked for: R61 lets a session's window access reach a cell through one and no rule says that a meadow
without one refuses it (DESIGN CHOICE, log 91). -/
def memReadWork (_ : KwnHdr) (addr n : Nat) (x : Sess) (m : Mem) (c : Core) : Mem × Core × Reply :=
  if c.inRom then (m, c, .nak nType)
  else match c.memCode x addr n with
    | some k => (m, c, .nak k)
    | none =>
      let go := fun (c : Core) => (m, (c.lpmMoved 1 addr n).readUe m addr n, Reply.resp (respBody (c.hostRead m addr n) (poisonMap m addr n)))
      if !c.waitsForPort addr n then go c
      else if c.fresh.1 % 2 = 1 then (m, c.fresh.2, .nak nBusy) else go c.fresh.2

def execMemRead (h : KwnHdr) (addr len : Nat) (s : State) : Answer := devStep (fun m c => request m c h (memReadWork h addr len)) s

/-- The lines of the MEM window that the host writes in this fc, with their old contents; those that the fabric wrote in the same fc
count a collision, and the host's data is kept (R56). -/
def Core.hostLines (c : Core) (m : Mem) (a n : Nat) : Core :=
  if a < 0x100000000 || 0x200000000 ≤ a then c
  else
    let first := a / 64
    let ls := (List.range ((a + n - 1) / 64 + 1 - first)).map fun i => 64 * (first + i)
    let hit := ls.filter fun l => c.fab.wrA.any fun (e : Nat × Payload) => e.1 = l
    let c := hit.foldl (fun c l => c.bump (pMdw ((l - 0x100000000) / 0x2000000) + 0xE0)) c
    { c with fab := { c.fab with wrB := ls.map (fun l => (l, m.line l)) ++ c.fab.wrB } }

/-- The work of MEM_WRITE. -/
def memWriteWork (_ : KwnHdr) (addr : Nat) (data : List Byte) (x : Sess) (m : Mem) (c : Core) : Mem × Core × Reply :=
  if c.inRom then (let y := c.romWrite m addr data; (m, y.1, y.2))
  else
    let n := data.length
    match c.memCode x addr n with
    | some k => (m, c, .nak k)
    | none =>
      if c.protected addr n then (m, c, .nak nProtect)
      else (m.store addr data, (c.hostLines m addr n).lpmMoved 1 addr n, .resp (respBody [] []))

/-- A boot image that has come whole ends the boot session. -/
def Core.romEnd (c : Core) : Core :=
  match c.kwn.upload with
  | some img => if 4096 ≤ img.length ∧ img.length = fld img 24 4 then c.hostLoaded img else c
  | none => c

def memWrite (m : Mem) (c : Core) (h : KwnHdr) (addr : Nat) (data : List Byte) : Mem × Core :=
  let x := request m c h (memWriteWork h addr data)
  (x.1, x.2.romEnd)

def execMemWrite (h : KwnHdr) (addr : Nat) (data : List Byte) (s : State) : Answer := devStep (fun m c => memWrite m c h addr data) s

/-! ### Submission (R445) -/

/-- Put descriptors into the submission ring from a place on. -/
def putDescs (base size : Nat) : List (List Byte) → Nat → Mem → Mem
  | [], _, m => m
  | d :: t, k, m => putDescs base size t (k + 1) (m.store (base + 64 * (k % size)) d)

/-- The work of SUBMIT. -/
def submitWork (_ : KwnHdr) (ds : List (List Byte)) (x : Sess) (m : Mem) (c : Core) : Mem × Core × Reply :=
  if c.inRom then (m, c, .nak nType)
  else match x.denied with
  | some k => (m, c, .nak k)
  | none =>
    let n := ds.length
    let size := 2 ^ c.getF (pTask + 0x88) 48 4
    let base := c.getF (pTask + 0x88) 0 48
    let tail := c.getF (pTask + 0x90) 0 12 % size
    let used := (tail + size - c.getF (pTask + 0x98) 0 12 % size) % size
    if n = 0 || 64 < n || ds.any (fun d => d.length ≠ 64) then (m, c, .nak nFormat)
    else if !c.service || size - 1 - used < n then (m, c, .nak nFull)
    else if !c.mapped false base (64 * size) then (m, c, .nak nRange)
    else if c.protected base (64 * size) then (m, c, .nak nProtect)
    else
      let c := (List.range n).foldl (fun c i => c.hostLines m (base + 64 * ((tail + i) % size)) 64) c
      (putDescs base size ds tail m, c.setF (pTask + 0x90) 0 12 ((tail + n) % size), .resp (respBody [] []))

def execSubmit (h : KwnHdr) (descs : List (List Byte)) (s : State) : Answer := devStep (fun m c => request m c h (submitWork h descs)) s

/-! ### Doorbells (R446) -/

/-- The registers that a doorbell may name. -/
def doorbellAt (a : Nat) : Bool :=
  a = pTask + 0x90 || a = pTask + 0xA8 || a = pTask + 0xB8 || (pPass + 0x118 ≤ a && a < pPass + 0x900 && (a - pPass - 0x118) % 0x80 = 0)

/-- The work of DOORBELL: a register write without an answer, or a discard. -/
def doorbellWork (h : KwnHdr) (addr v : Nat) (x : Sess) (m : Mem) (c : Core) : Mem × Core × Reply :=
  if c.inRom then (m, c, .nak nType)
  else if x.role ≠ .privileged || !doorbellAt addr then (m, c.discard, .posted)
  else
    let y := writeReg m c ⟨.priv, .session h.session⟩ addr v
    (y.1, y.2, .posted)

def execDoorbell (h : KwnHdr) (addr : Nat) (v : Word64) (s : State) : Answer :=
  devStep (fun m c => request m c h (doorbellWork h addr (wv v))) s

end Sys2Proof.Machine
end

