-- ==== Sys2Proof/Machine/Tick.lean ====
section
/-! DEFINITION. The passing of one fabric cycle, which is what a step with an empty queue does: clocks (R178, R528), schedule counts and
stalls (R79 to R82), the refresh rota (R405, R407), section feeds (R315), and the settling of what waits for time alone. -/

namespace Sys2Proof.Machine

/-! ### Stalls of the cycle that ends (R82) -/

/-- The attribution counter of a unit that holds an overdue item. -/
def aUnit : StallUnit → Nat
  | .cell n => pMdw (cellMeadow n) + 0x200 + 8 * (n % 256)
  | .vault m => pMdw m + 0xC0
  | .hot m => pMdw m + 0xC0
  | .ctx m => pMdw m + 0xC8
  | .replay => pSep + 0x170

/-- The stall-fc counter of a region: its own, or that of the SECTION tasks. -/
def aStallFc (g : Nat) : Nat := if g < 8 then pRgn g + 0xA0 else pTask + 0x120

/-- One fc of a region's stall: counted for the region and once for each unit; an entry of the hot class ends with its fc (R407). -/
def Core.stallFcOf (c : Core) (g : Nat) : Core :=
  let r := c.rgn g
  if !c.fabricOn || r.stall.isEmpty then c
  else
    let units := (r.stall.map fun (o : Overdue) => aUnit o.src).eraseDups
    let c := units.foldl (fun c a => c.bump a) (c.bump (aStallFc g))
    let left := r.stall.filter fun (o : Overdue) => match o.src with | .hot _ => false | _ => true
    c.setRgn g { r with stall := left, stallLen := if left.isEmpty then 0 else r.stallLen + 1, stallFc := r.stallFc + 1 }

/-- Whether a region's admission is held in this fc: a stall, a drain, or a fabric that does not move (R81, R86, R532). -/
def Core.holdsAdmission (c : Core) (r : Rgn) : Bool :=
  !c.fabricOn || !r.stall.isEmpty || r.phase = .draining || r.phase = .drained

/-- Schedule counts move by one in every region that moves; a held region remembers this boundary. -/
def Core.countFc (c : Core) : Core :=
  { c with rgns := c.rgns.map fun (e : Nat × Rgn) =>
      let r := if c.holdsAdmission e.2 then { e.2 with heldAt := c.now } else e.2
      (e.1, if c.rgnMoves e.1 then { r with sched := r.sched + 1 } else r) }

/-- Iterations whose fate is settled and whose results and deferred writes are long past leave the record. -/
def Core.pruneIters (c : Core) : Core :=
  { c with rgns := c.rgns.map fun (e : Nat × Rgn) =>
      (e.1, { e.2 with iters := e.2.iters.filter fun i =>
        i.fate = .pending || match e.2.bin i.set with
          | some l => e.2.sched < i.relSched + l.bin.report.lat + l.bin.report.dDef + 64
          | none => false }) }

/-! ### Clocks -/

/-- How far the vault clock of 2.6 GHz (R23, R402) moves in one fc of a power point (R528), in 1/88 of a vault cycle. -/
def pointVph (p : Nat) : Nat := if p = 0 then 104 else if p = 1 then 143 else 286

/-- Time moves on by one fc at the power point in force. Counts in fc stand still while the fabric is frozen (R532). -/
def Core.advanceFc (c : Core) : Core :=
  let p := c.getF aPt 0 2
  let on := c.fabricOn
  let c := c.advance (pointPh p) (pointVph p)
  if on then { c with clk := { c.clk with fc := c.clk.fc + 1 } } else c

/-- Rota periods that begin, and entry 15 of a period for hot vaults (R405 to R407). -/
def Core.rota (c : Core) (old : Nat) : Core :=
  let c := if old / 32 < c.clk.vc / 32 then c.rotaPeriod else c
  if (old + 17) / 32 < (c.clk.vc + 17) / 32 then (List.range 8).foldl (fun c g => c.hotStall g) c else c

/-! ### What waits for time alone -/

/-- The oldest waiting Kwanan frame goes out once the port is free (R235). -/
def Core.kwnDrain (c : Core) : Core :=
  let lp := c.getF (pPort + 0x80) 10 3
  match c.kwn.txq with
  | [] => c
  | n :: t =>
    if !c.portFree lp then c
    else { c with kwn := { c.kwn with txq := t },
                  comp := { c.comp with free := Store.set c.comp.free 0 lp (c.exactly (Store.get c.comp.free 0 lp) + c.lineSlot n) } }

/-- The oldest SERVICE answer goes out once its port is free (R218, R235). -/
def Core.answersDrain (c : Core) : Core :=
  match c.comp.answers with
  | [] => c
  | (lp, b) :: t =>
    if !c.portFree lp then c
    else
      let c := { c with comp := { c.comp with answers := t, free := Store.set c.comp.free 0 lp (c.now + c.lineSlot b.length) } }
      c.emit (.frame lp (b ++ fcsBytes false b) false (c.now + nsN 32))

/-- Frames that had ended a fabric cycle ago leave every logical port: what came about within the cycle, a bad verdict, still
finds a frame in progress that was in progress then. -/
def Core.portsSettle (c : Core) : Core :=
  ((List.range 8).foldl (fun c lp => c.flushTx lp (c.now - c.fcN 1)) c).kwnDrain.answersDrain

/-- The SECTION tasks that run are fed, or wait for their slot, which is counted (R315, R316). -/
def Core.sectionsFc (c : Core) (m : Mem) : Core :=
  ((c.task.table.filter fun (e : Nat × Task) => e.2.st = .running && dKind e.2.desc = 1 && e.2.finish.isNone).map (·.1)).foldl
    (fun c e => if (c.rgn (16 + e)).phase = .idle then c.bump (pTask + 0x130) else c.taskFeed m e) c

/-- The lines that the fabric and the host wrote in the cycle that ends no longer shadow the memory (R56), and a new cycle begins for W1C
and RC registers (R14, R15). -/
def Core.clearWrites (c : Core) : Core := { c.cycleRegs with fab := { c.fab with wrA := [], wrB := [], convNow := [], digNow := [] } }

/-- The section switches whose counts have come take effect (R64). -/
def Core.sectionsDue (c : Core) : Core := (List.range 8).foldl (fun c g => c.sectionDue g) c

/-- One fabric cycle. A device held in reset stands still. -/
def tick (m : Mem) (c : Core) : Mem × Core :=
  if c.inReset then (m, c)
  else
    let old := c.clk.vc
    let before := c.now
    let c := c.checkDue
    let c := (c.rgns.map fun (e : Nat × Rgn) => e.1).foldl (fun c g => c.stallFcOf g) c.countFc
    let c := ((c.clearWrites.advanceFc.rota old).pruneIters.sectionsFc m).portsSettle.slotSettle.ptLock.barMaster.lanesFc before
    let c := (((c.sectionsDue).delaysOut m).lookupsDue m).writesDue
    let x := seqOverflow m c
    capOverflow x.1 x.2

/-- What a step with an empty queue answers. -/
def execTick (s : State) : Answer := devStep tick s

end Sys2Proof.Machine
end

