-- ==== Sys2Proof/Machine/Dispatch.lean ====
section
/-! DEFINITION. The dispatch: one arm per command of the operation table, each a direct call of its meaning. -/

namespace Sys2Proof.Machine

/-- The effect of a command on everything but the queue. -/
def exec (i : Instr) (s : State) : Host.Outcome State Fault Refusal :=
  match i with
  | .frameStart lp phi rx bytes => Sys2Proof.Machine.execFrameStart lp phi rx bytes s
  | .fecUncorrectable lp frames => Sys2Proof.Machine.execFecUncorrectable lp frames s
  | .eventWordEmit src => Sys2Proof.Machine.execEventWordEmit src s
  | .fcsVerdict lp => Sys2Proof.Machine.execFcsVerdict lp s
  | .fordArrival n => Sys2Proof.Machine.execFordArrival n s
  | .fordRelease g => Sys2Proof.Machine.execFordRelease g s
  | .tokenArrive n => Sys2Proof.Machine.execTokenArrive n s
  | .orphan cell port => Sys2Proof.Machine.execOrphan cell port s
  | .stallStart r items => Sys2Proof.Machine.execStallStart r items s
  | .stallLimit r => Sys2Proof.Machine.execStallLimit r s
  | .dot cell => Sys2Proof.Machine.execDot cell s
  | .dotc cell => Sys2Proof.Machine.execDotc cell s
  | .exp2 cell => Sys2Proof.Machine.execExp2 cell s
  | .log2 cell => Sys2Proof.Machine.execLog2 cell s
  | .rcp cell => Sys2Proof.Machine.execRcp cell s
  | .rsqrt cell => Sys2Proof.Machine.execRsqrt cell s
  | .sqrt cell => Sys2Proof.Machine.execSqrt cell s
  | .tanh cell => Sys2Proof.Machine.execTanh cell s
  | .logistic cell => Sys2Proof.Machine.execLogistic cell s
  | .pwl cell => Sys2Proof.Machine.execPwl cell s
  | .min8 cell => Sys2Proof.Machine.execMin8 cell s
  | .max8 cell => Sys2Proof.Machine.execMax8 cell s
  | .argmax8 cell => Sys2Proof.Machine.execArgmax8 cell s
  | .sort8 cell => Sys2Proof.Machine.execSort8 cell s
  | .sum8 cell => Sys2Proof.Machine.execSum8 cell s
  | .add2 cell => Sys2Proof.Machine.execAdd2 cell s
  | .quant cell => Sys2Proof.Machine.execQuant cell s
  | .dequant cell => Sys2Proof.Machine.execDequant cell s
  | .leafMa cell => Sys2Proof.Machine.execLeafMa cell s
  | .leafMm cell => Sys2Proof.Machine.execLeafMm cell s
  | .combMa cell => Sys2Proof.Machine.execCombMa cell s
  | .combMm cell => Sys2Proof.Machine.execCombMm cell s
  | .param cell => Sys2Proof.Machine.execParam cell s
  | .read cell => Sys2Proof.Machine.execRead cell s
  | .write cell => Sys2Proof.Machine.execWrite cell s
  | .delay cell => Sys2Proof.Machine.execDelay cell s
  | .kcache cell => Sys2Proof.Machine.execKcache cell s
  | .fork cell => Sys2Proof.Machine.execFork cell s
  | .merge cell => Sys2Proof.Machine.execMerge cell s
  | .switch cell => Sys2Proof.Machine.execSwitch cell s
  | .select cell => Sys2Proof.Machine.execSelect cell s
  | .gather cell group => Sys2Proof.Machine.execGather cell group s
  | .align cell group => Sys2Proof.Machine.execAlign cell group s
  | .renumber cell => Sys2Proof.Machine.execRenumber cell s
  | .digest cell => Sys2Proof.Machine.execDigest cell s
  | .keyEventFire cell => Sys2Proof.Machine.execKeyEventFire cell s
  | .keyDeferredFire cell => Sys2Proof.Machine.execKeyDeferredFire cell s
  | .resolvePoint g src => Sys2Proof.Machine.execResolvePoint g src s
  | .vaultReadDone n => Sys2Proof.Machine.execVaultReadDone n s
  | .tapIngress cell => Sys2Proof.Machine.execTapIngress cell s
  | .tapResult cell => Sys2Proof.Machine.execTapResult cell s
  | .tapCapture cell => Sys2Proof.Machine.execTapCapture cell s
  | .sectionSwitch r next => Sys2Proof.Machine.execSectionSwitch r next s
  | .slotReloadDone m img => Sys2Proof.Machine.execSlotReloadDone m img s
  | .drain acc m => Sys2Proof.Machine.execDrain acc m s
  | .drainComplete g => Sys2Proof.Machine.execDrainComplete g s
  | .resume acc m => Sys2Proof.Machine.execResume acc m s
  | .halt acc m => Sys2Proof.Machine.execHalt acc m s
  | .resetRgn acc m => Sys2Proof.Machine.execResetRgn acc m s
  | .meadowMove acc m v => Sys2Proof.Machine.execMeadowMove acc m v s
  | .convCfgWrite acc m k v => Sys2Proof.Machine.execConvCfgWrite acc m k v s
  | .convClr acc m k => Sys2Proof.Machine.execConvClr acc m k s
  | .binaryLoad bin => Sys2Proof.Machine.execBinaryLoad bin s
  | .timeIncrWrite acc v => Sys2Proof.Machine.execTimeIncrWrite acc v s
  | .timeSlewWrite acc v => Sys2Proof.Machine.execTimeSlewWrite acc v s
  | .slewEnd => Sys2Proof.Machine.execSlewEnd s
  | .timeNowSet acc v => Sys2Proof.Machine.execTimeNowSet acc v s
  | .holdover => Sys2Proof.Machine.execHoldover s
  | .refclkTimeReturn => Sys2Proof.Machine.execRefclkTimeReturn s
  | .tinEdge n phi level held => Sys2Proof.Machine.execTinEdge n phi level held s
  | .tinTsPop n => Sys2Proof.Machine.execTinTsPop n s
  | .toutArm acc j v => Sys2Proof.Machine.execToutArm acc j v s
  | .toutEdge j => Sys2Proof.Machine.execToutEdge j s
  | .tickPeriodWrite acc v => Sys2Proof.Machine.execTickPeriodWrite acc v s
  | .fordDelayWrite acc g v => Sys2Proof.Machine.execFordDelayWrite acc g v s
  | .valleyEpochWrite acc v => Sys2Proof.Machine.execValleyEpochWrite acc v s
  | .launchAtWrite acc g v => Sys2Proof.Machine.execLaunchAtWrite acc g v s
  | .launch g => Sys2Proof.Machine.execLaunch g s
  | .timeMarkerSend l phi => Sys2Proof.Machine.execTimeMarkerSend l phi s
  | .timeMarkerReceive l phi rx => Sys2Proof.Machine.execTimeMarkerReceive l phi rx s
  | .barrierArm acc v => Sys2Proof.Machine.execBarrierArm acc v s
  | .barrierTokenReceive l => Sys2Proof.Machine.execBarrierTokenReceive l s
  | .barrierLaunch => Sys2Proof.Machine.execBarrierLaunch s
  | .ptpTransmit lp phi kind udpSum rxTime ptpOff bytes => Sys2Proof.Machine.execPtpTransmit lp phi kind udpSum rxTime ptpOff bytes s
  | .txtsPop => Sys2Proof.Machine.execTxtsPop s
  | .portCfgWrite acc v => Sys2Proof.Machine.execPortCfgWrite acc v s
  | .linkLoss lp => Sys2Proof.Machine.execLinkLoss lp s
  | .filterWrite acc v => Sys2Proof.Machine.execFilterWrite acc v s
  | .filterInvalidate acc v => Sys2Proof.Machine.execFilterInvalidate acc v s
  | .filterRead acc v => Sys2Proof.Machine.execFilterRead acc v s
  | .filterChangeEffect => Sys2Proof.Machine.execFilterChangeEffect s
  | .filterPendingClear => Sys2Proof.Machine.execFilterPendingClear s
  | .templateFrameStart lp => Sys2Proof.Machine.execTemplateFrameStart lp s
  | .compCapWrite acc t v => Sys2Proof.Machine.execCompCapWrite acc t v s
  | .compCapArm acc t v => Sys2Proof.Machine.execCompCapArm acc t v s
  | .gateOpen acc v => Sys2Proof.Machine.execGateOpen acc v s
  | .gateClose acc v => Sys2Proof.Machine.execGateClose acc v s
  | .killNAssert => Sys2Proof.Machine.execKillNAssert s
  | .killClear acc v => Sys2Proof.Machine.execKillClear acc v s
  | .resultRecordRelease => Sys2Proof.Machine.execResultRecordRelease s
  | .keyCfgWrite acc v => Sys2Proof.Machine.execKeyCfgWrite acc v s
  | .slotWrite acc v => Sys2Proof.Machine.execSlotWrite acc v s
  | .slotRead acc v => Sys2Proof.Machine.execSlotRead acc v s
  | .slotChangeEffect => Sys2Proof.Machine.execSlotChangeEffect s
  | .ringRead acc v => Sys2Proof.Machine.execRingRead acc v s
  | .ringReadCopy => Sys2Proof.Machine.execRingReadCopy s
  | .ringReadBusy => Sys2Proof.Machine.execRingReadBusy s
  | .ringWrite acc v => Sys2Proof.Machine.execRingWrite acc v s
  | .zeroAll acc v => Sys2Proof.Machine.execZeroAll acc v s
  | .publicationFlip => Sys2Proof.Machine.execPublicationFlip s
  | .censusRequest acc v => Sys2Proof.Machine.execCensusRequest acc v s
  | .census => Sys2Proof.Machine.execCensus s
  | .snapshotDone => Sys2Proof.Machine.execSnapshotDone s
  | .swapArm acc v => Sys2Proof.Machine.execSwapArm acc v s
  | .swapTick => Sys2Proof.Machine.execSwapTick s
  | .swapDrainDone g => Sys2Proof.Machine.execSwapDrainDone g s
  | .save acc m v => Sys2Proof.Machine.execSave acc m v s
  | .restore acc m v => Sys2Proof.Machine.execRestore acc m v s
  | .saveRestoreDone g => Sys2Proof.Machine.execSaveRestoreDone g s
  | .taskDoorbell acc v => Sys2Proof.Machine.execTaskDoorbell acc v s
  | .taskTake => Sys2Proof.Machine.execTaskTake s
  | .section_ e => Sys2Proof.Machine.execSection e s
  | .sectionEnd e => Sys2Proof.Machine.execSectionEnd e s
  | .move e => Sys2Proof.Machine.execMove e s
  | .publish e => Sys2Proof.Machine.execPublish e s
  | .swap e => Sys2Proof.Machine.execSwap e s
  | .snapshot e => Sys2Proof.Machine.execSnapshot e s
  | .captureArm e => Sys2Proof.Machine.execCaptureArm e s
  | .selftest e => Sys2Proof.Machine.execSelftest e s
  | .fence e => Sys2Proof.Machine.execFence e s
  | .note e => Sys2Proof.Machine.execNote e s
  | .taskComplete e => Sys2Proof.Machine.execTaskComplete e s
  | .abort acc v => Sys2Proof.Machine.execAbort acc v s
  | .taskRelease acc v => Sys2Proof.Machine.execTaskRelease acc v s
  | .flush acc m v => Sys2Proof.Machine.execFlush acc m v s
  | .digestRecordPop m => Sys2Proof.Machine.execDigestRecordPop m s
  | .replayStart acc v => Sys2Proof.Machine.execReplayStart acc v s
  | .replayStop acc v => Sys2Proof.Machine.execReplayStop acc v s
  | .replayRecordPresent => Sys2Proof.Machine.execReplayRecordPresent s
  | .passCfgWrite acc l v => Sys2Proof.Machine.execPassCfgWrite acc l v s
  | .laneLocked l => Sys2Proof.Machine.execLaneLocked l s
  | .laneLockLoss l => Sys2Proof.Machine.execLaneLockLoss l s
  | .versionSetReceive l rx => Sys2Proof.Machine.execVersionSetReceive l rx s
  | .idleSetReceive l rx => Sys2Proof.Machine.execIdleSetReceive l rx s
  | .packetStart l phi chars bad viol ended => Sys2Proof.Machine.execPacketStart l phi chars bad viol ended s
  | .packetVerdict l => Sys2Proof.Machine.execPacketVerdict l s
  | .passStreamTransmit l => Sys2Proof.Machine.execPassStreamTransmit l s
  | .linkTxQueue acc l v => Sys2Proof.Machine.execLinkTxQueue acc l v s
  | .linkRetryTimeout l => Sys2Proof.Machine.execLinkRetryTimeout l s
  | .sequencerStep => Sys2Proof.Machine.execSequencerStep s
  | .timerExpiry k => Sys2Proof.Machine.execTimerExpiry k s
  | .holdoffEnd => Sys2Proof.Machine.execHoldoffEnd s
  | .trigOutPulseEnd j => Sys2Proof.Machine.execTrigOutPulseEnd j s
  | .captureRecordWrite => Sys2Proof.Machine.execCaptureRecordWrite s
  | .captureArmWrite acc v => Sys2Proof.Machine.execCaptureArmWrite acc v s
  | .captureArmEffect => Sys2Proof.Machine.execCaptureArmEffect s
  | .stop acc v => Sys2Proof.Machine.execStop acc v s
  | .captureStopEffect => Sys2Proof.Machine.execCaptureStopEffect s
  | .trigInEdge n phi level held => Sys2Proof.Machine.execTrigInEdge n phi level held s
  | .stuck n => Sys2Proof.Machine.execStuck n s
  | .refreshEntry m correctable uncorrectable => Sys2Proof.Machine.execRefreshEntry m correctable uncorrectable s
  | .vaultHotEnter m temp => Sys2Proof.Machine.execVaultHotEnter m temp s
  | .vaultHotExit m temp => Sys2Proof.Machine.execVaultHotExit m temp s
  | .hotForceWrite acc p v => Sys2Proof.Machine.execHotForceWrite acc p v s
  | .lpddr6Recalibration ch => Sys2Proof.Machine.execLpddr6Recalibration ch s
  | .open_ h b => Sys2Proof.Machine.execOpen h b s
  | .authResponse h sig => Sys2Proof.Machine.execAuthResponse h sig s
  | .regRead h addr count => Sys2Proof.Machine.execRegRead h addr count s
  | .regWrite h addr data => Sys2Proof.Machine.execRegWrite h addr data s
  | .memRead h addr len => Sys2Proof.Machine.execMemRead h addr len s
  | .memWrite h addr data => Sys2Proof.Machine.execMemWrite h addr data s
  | .submit h descs => Sys2Proof.Machine.execSubmit h descs s
  | .doorbell h addr v => Sys2Proof.Machine.execDoorbell h addr v s
  | .ack h => Sys2Proof.Machine.execAck h s
  | .kwananRtoExpiry id => Sys2Proof.Machine.execKwananRtoExpiry id s
  | .standaloneAck id => Sys2Proof.Machine.execStandaloneAck id s
  | .idleClose id => Sys2Proof.Machine.execIdleClose id s
  | .close acc v => Sys2Proof.Machine.execClose acc v s
  | .captureData => Sys2Proof.Machine.execCaptureData s
  | .registerWrite acc addr v => Sys2Proof.Machine.execRegisterWrite acc addr v s
  | .rcRead acc addr => Sys2Proof.Machine.execRcRead acc addr s
  | .pageEnWrite acc page v => Sys2Proof.Machine.execPageEnWrite acc page v s
  | .blkReset acc page => Sys2Proof.Machine.execBlkReset acc page s
  | .freeze acc page v => Sys2Proof.Machine.execFreeze acc page v s
  | .evtForce acc page v => Sys2Proof.Machine.execEvtForce acc page v s
  | .pageNotice page => Sys2Proof.Machine.execPageNotice page s
  | .errHeadWrite acc page v => Sys2Proof.Machine.execErrHeadWrite acc page v s
  | .deadlineWrite acc t v => Sys2Proof.Machine.execDeadlineWrite acc t v s
  | .devFwiWrite acc v => Sys2Proof.Machine.execDevFwiWrite acc v s
  | .healthConfirm acc v => Sys2Proof.Machine.execHealthConfirm acc v s
  | .powerOn k => Sys2Proof.Machine.execPowerOn k s
  | .rstN k => Sys2Proof.Machine.execRstN k s
  | .firmwareStart majors => Sys2Proof.Machine.execFirmwareStart majors s
  | .fwProtect comp => Sys2Proof.Machine.execFwProtect comp s
  | .claim id => Sys2Proof.Machine.execClaim id s
  | .releaseMbx id => Sys2Proof.Machine.execReleaseMbx id s
  | .mailboxTimeout => Sys2Proof.Machine.execMailboxTimeout s
  | .challenge id => Sys2Proof.Machine.execChallenge id s
  | .enrol id => Sys2Proof.Machine.execEnrol id s
  | .release id => Sys2Proof.Machine.execRelease id s
  | .attest id => Sys2Proof.Machine.execAttest id s
  | .newIdentity id => Sys2Proof.Machine.execNewIdentity id s
  | .stage acc v => Sys2Proof.Machine.execStage acc v s
  | .stageDone ok => Sys2Proof.Machine.execStageDone ok s
  | .activateAt acc v => Sys2Proof.Machine.execActivateAt acc v s
  | .activate acc v => Sys2Proof.Machine.execActivate acc v s
  | .cancel acc v => Sys2Proof.Machine.execCancel acc v s
  | .updateActivation => Sys2Proof.Machine.execUpdateActivation s
  | .serviceResume => Sys2Proof.Machine.execServiceResume s
  | .confirmTimeout => Sys2Proof.Machine.execConfirmTimeout s
  | .watchdog core => Sys2Proof.Machine.execWatchdog core s
  | .enter acc v => Sys2Proof.Machine.execEnter acc v s
  | .exit acc v => Sys2Proof.Machine.execExit acc v s
  | .clockLoss kind plain => Sys2Proof.Machine.execClockLoss kind plain s
  | .sensorSample r => Sys2Proof.Machine.execSensorSample r s
  | .railSample rail mv amps power => Sys2Proof.Machine.execRailSample rail mv amps power s
  | .bistSliceStart => Sys2Proof.Machine.execBistSliceStart s
  | .bistSliceEnd sig => Sys2Proof.Machine.execBistSliceEnd sig s
  | .pwrPtArm acc v => Sys2Proof.Machine.execPwrPtArm acc v s
  | .powerPointBoundary => Sys2Proof.Machine.execPowerPointBoundary s
  | .powerPointResume => Sys2Proof.Machine.execPowerPointResume s
  | .mgResetCmd k value => Sys2Proof.Machine.execMgResetCmd k value s
  | .linkUp lp => Sys2Proof.Machine.execLinkUp lp s
  | .killNDeassert => Sys2Proof.Machine.execKillNDeassert s
  | .clockLocked kind plain => Sys2Proof.Machine.execClockLocked kind plain s
  | .toutPulseEnd j => Sys2Proof.Machine.execToutPulseEnd j s
  | .vaultWriteCommit m => Sys2Proof.Machine.execVaultWriteCommit m s
  | .snapshotTick => Sys2Proof.Machine.execSnapshotTick s
  | .stateUe unit word => Sys2Proof.Machine.execStateUe unit word s
  | .lpddr6PatrolScrub line correctable uncorrectable => Sys2Proof.Machine.execLpddr6PatrolScrub line correctable uncorrectable s
  | .ringCommandDone => Sys2Proof.Machine.execRingCommandDone s
  | .mailboxCommandDone ok => Sys2Proof.Machine.execMailboxCommandDone ok s
  | .blockResetDone page => Sys2Proof.Machine.execBlockResetDone page s
  | .rstNAssert => Sys2Proof.Machine.execRstNAssert s

end Sys2Proof.Machine
end

