-- ==== Sys2Proof/Safety.lean ====
section
/-! DEFINITION. What counts as a sound state: the memories keep their canonical form. -/

namespace Sys2Proof.Machine

/-- The invariant of the memories: byte lists in canonical form. -/
def Sound (s : State) : Prop := s.mem.wf = true

end Sys2Proof.Machine
end

