-- ==== Sys2Proof/WellFormed.lean ====
section
/-! DEFINITION. Which commands the device can meet at all: the port, lane, cell, meadow, region, output and page numbers
that the manual gives, and byte and level ranges. -/

namespace Sys2Proof

/-- A cell number (R44): 128 meadows of 256 cells. -/
def cellOk (n : Nat) : Bool := n < 32768

/-- A meadow number (R19). -/
def meadowOk (m : Nat) : Bool := m < 128

/-- A standing region (R77). -/
def regionOk (g : Nat) : Bool := g < 8

/-- A logical port (R210). -/
def lpOk (lp : Nat) : Bool := lp < 8

/-- A pass lane (R355). -/
def laneOk (l : Nat) : Bool := l < 16

/-- An instant within a time-unit cycle (R178). -/
def phiOk (phi : Nat) : Bool := phi < 65536

/-- A session's number (R428). -/
def sessOk (s : Nat) : Bool := s < 64

/-- A page base of the directory (R457). -/
def pageOk (p : Nat) : Bool := p % 4096 = 0 && p < 0x184000

/-- The access of a register write: the unprivileged view reaches a register too, where its field allows. -/
def accessOk (a : Access) : Bool := match a.who with | .firmware => true | .session n => sessOk n

/-- A command whose numbers lie in the manual's ranges. -/
def WellFormed : Instr → Bool
  | .frameStart lp phi _ bytes => lpOk lp && phiOk phi && bytes.length ≤ 9216
  | .fecUncorrectable lp _ => lpOk lp
  | .eventWordEmit src => src < 24
  | .fcsVerdict lp => lpOk lp
  | .fordArrival _ => true
  | .fordRelease g => regionOk g
  | .tokenArrive _ => true
  | .orphan cell port => cellOk cell && port < 4
  | .stallStart r _ => r < 4112
  | .stallLimit r => r < 4112
  | .dot cell | .dotc cell | .exp2 cell | .log2 cell | .rcp cell | .rsqrt cell | .sqrt cell | .tanh cell | .logistic cell
  | .pwl cell | .min8 cell | .max8 cell | .argmax8 cell | .sort8 cell | .sum8 cell | .add2 cell | .quant cell
  | .dequant cell | .leafMa cell | .leafMm cell | .combMa cell | .combMm cell | .param cell | .read cell | .write cell
  | .delay cell | .kcache cell | .fork cell | .merge cell | .switch cell | .select cell | .renumber cell | .digest cell
  | .keyEventFire cell | .keyDeferredFire cell | .tapIngress cell | .tapResult cell | .tapCapture cell => cellOk cell
  | .gather cell group | .align cell group => cellOk cell && group < 2
  | .resolvePoint g src => regionOk g && src < 36
  | .vaultReadDone _ => true
  | .sectionSwitch r next => r < 4112 && next.slot < 8
  | .slotReloadDone m img => meadowOk m && img.slot < 8 && img.bad.all cellOk
  | .drain acc m | .resume acc m | .halt acc m | .resetRgn acc m => accessOk acc && meadowOk m
  | .drainComplete g | .saveRestoreDone g | .swapDrainDone g | .launch g => regionOk g
  | .meadowMove acc m _ | .save acc m _ | .restore acc m _ | .flush acc m _ => accessOk acc && meadowOk m
  | .convCfgWrite acc m k _ => accessOk acc && meadowOk m && k < 32
  | .convClr acc m k => accessOk acc && meadowOk m && k < 32
  | .binaryLoad bin => bin.report.meadows.all meadowOk
  | .timeIncrWrite acc _ | .timeSlewWrite acc _ | .timeNowSet acc _ | .tickPeriodWrite acc _ | .valleyEpochWrite acc _
  | .barrierArm acc _ | .portCfgWrite acc _ | .filterWrite acc _ | .filterInvalidate acc _ | .filterRead acc _
  | .gateOpen acc _ | .gateClose acc _ | .killClear acc _ | .keyCfgWrite acc _ | .slotWrite acc _ | .slotRead acc _
  | .ringRead acc _ | .ringWrite acc _ | .zeroAll acc _ | .censusRequest acc _ | .swapArm acc _ | .taskDoorbell acc _
  | .abort acc _ | .taskRelease acc _ | .replayStart acc _ | .replayStop acc _ | .captureArmWrite acc _ | .stop acc _
  | .close acc _ | .devFwiWrite acc _ | .healthConfirm acc _ | .stage acc _ | .activateAt acc _ | .activate acc _
  | .cancel acc _ | .enter acc _ | .exit acc _ | .pwrPtArm acc _ => accessOk acc
  | .slewEnd | .holdover | .refclkTimeReturn | .barrierLaunch | .txtsPop | .filterChangeEffect | .filterPendingClear
  | .killNAssert | .killNDeassert | .resultRecordRelease | .slotChangeEffect | .ringReadCopy | .ringReadBusy
  | .publicationFlip | .census | .snapshotDone | .snapshotTick | .swapTick | .taskTake | .replayRecordPresent
  | .sequencerStep | .holdoffEnd | .captureRecordWrite | .captureArmEffect | .captureStopEffect | .captureData
  | .mailboxTimeout | .updateActivation | .serviceResume | .confirmTimeout | .bistSliceStart
  | .powerPointBoundary | .powerPointResume | .ringCommandDone | .rstNAssert => true
  | .tinEdge i phi _ _ => i < 4 && phiOk phi
  | .tinTsPop i => i < 4
  | .toutArm acc j _ => accessOk acc && j < 4
  | .toutEdge j | .toutPulseEnd j => j < 4
  | .fordDelayWrite acc g _ | .launchAtWrite acc g _ => accessOk acc && regionOk g
  | .timeMarkerSend l phi | .timeMarkerReceive l phi _ => laneOk l && phiOk phi
  | .barrierTokenReceive l | .laneLocked l | .laneLockLoss l | .packetVerdict l | .passStreamTransmit l
  | .linkRetryTimeout l => laneOk l
  | .ptpTransmit lp phi kind udpSum _ ptpOff bytes =>
    lpOk lp && phiOk phi && kind < 8 && udpSum.all (· < bytes.length) && ptpOff < bytes.length
  | .linkLoss lp | .linkUp lp | .templateFrameStart lp => lpOk lp
  | .compCapWrite acc t _ | .compCapArm acc t _ | .deadlineWrite acc t _ => accessOk acc && t < 256
  | .section_ e | .sectionEnd e | .move e | .publish e | .swap e | .snapshot e | .captureArm e | .selftest e | .fence e
  | .note e | .taskComplete e => e < 4096
  | .digestRecordPop m => meadowOk m
  | .passCfgWrite acc l _ | .linkTxQueue acc l _ => accessOk acc && laneOk l
  | .versionSetReceive l _ | .idleSetReceive l _ => laneOk l
  | .packetStart l phi chars _ _ _ => laneOk l && phiOk phi && chars.length ≤ 4096
  | .timerExpiry k => k < 4
  | .trigOutPulseEnd j => j < 8
  | .trigInEdge i phi _ _ => i < 8 && phiOk phi
  | .stuck i => i < 8
  | .refreshEntry m _ _ => meadowOk m
  | .vaultHotEnter m _ | .vaultHotExit m _ | .vaultWriteCommit m => meadowOk m
  | .hotForceWrite acc p _ => accessOk acc && p < 4
  | .lpddr6Recalibration ch => ch < 12
  | .open_ h _ | .authResponse h _ | .regRead h _ _ | .regWrite h _ _ | .memRead h _ _ | .memWrite h _ _ | .submit h _
  | .doorbell h _ _ | .ack h => h.session < 256
  | .kwananRtoExpiry s | .standaloneAck s | .idleClose s | .claim s | .releaseMbx s | .challenge s | .enrol s | .release s
  | .attest s | .newIdentity s => sessOk s
  | .registerWrite acc _ _ | .rcRead acc _ => accessOk acc
  | .pageEnWrite acc page _ | .freeze acc page _ | .evtForce acc page _ | .errHeadWrite acc page _ =>
    accessOk acc && pageOk page
  | .blkReset acc page => accessOk acc && pageOk page
  | .pageNotice page | .blockResetDone page => pageOk page
  | .powerOn _ | .rstN _ | .stageDone _ | .mailboxCommandDone _ => true
  | .firmwareStart majors => majors < 65536
  | .fwProtect comp => comp < 8
  | .watchdog core => core < 4
  | .clockLoss kind plain | .clockLocked kind plain => kind < 4 && plain < 4
  | .sensorSample _ => true
  | .railSample rail _ _ _ => rail < 10
  | .bistSliceEnd _ => true
  | .mgResetCmd _ value => value < 65536
  | .stateUe _ _ => true
  | .lpddr6PatrolScrub _ _ _ => true

end Sys2Proof
end

