-- ==== Sys2Proof/Certificates/Slice0/Obligations.lean ====
section
/-! DEFINITION. What the model is held to, stated for the provers. -/

open Sys2Proof Sys2Proof.Machine

/-! ### Words the statements share -/

/-- Command `i` completes in `s` and writes no memory: the queue and the memories stay, and `P` holds of the core after it. -/
def Sys2Proof.Stated.Runs (i : Instr) (s : State) (P : Core → Prop) : Prop :=
  ∃ c, exec i s = .next { s with core := c } ∧ P c

/-- Command `i` completes in `s`: the queue stays, and `P` holds of the memories and the core after it. -/
def Sys2Proof.Stated.RunsDev (i : Instr) (s : State) (P : Mem → Core → Prop) : Prop :=
  ∃ m c, exec i s = .next { s with mem := m, core := c } ∧ P m c

open Sys2Proof.Stated

/-- What a latched firing leaves (R46, R47, R50, R57): the outputs `outs` go on the cell's routes with the tag and set of the inputs,
POISON if an input has it, `poison` holds or the context holds an uncorrectable word, `lat` fc after the firing; each port it took from
has lost its oldest token, no other port anything; and the cell has fired in this fabric cycle. -/
def Sys2Proof.Stated.Fired (c d : Core) (cell : Nat) (x : Ctx) (ports : List Nat) (lat : Nat) (ts : List Token) (poison : Bool)
    (outs : List (Nat × Nat)) : Prop :=
  d.fab.fly = (c.place cell x lat
    { joinTok ts with poison := (joinTok ts).poison || poison || c.ctxPoison cell (joinTok ts).set } outs).fab.fly ∧
  (∀ p ∈ ports, d.heldAt cell p = (c.heldAt cell p).tail) ∧
  (∀ k, k ∉ ports.map (cell * 4 + ·) → Store.get d.fab.held [] k = Store.get c.fab.held [] k) ∧
  d.hasFired cell 0 = true

/-- An SFN command fires with latency `lat` and result `f` of its context and its two payloads whenever its cell is ready. -/
def Sys2Proof.Stated.SfnRuns (i : Nat → Instr) (op : SfnOp) (lat : Core → Nat → Nat)
    (f : SfnCtx → Nat → Nat → Nat × Cnt) : Prop :=
  ∀ (s : State) (cell : Nat) (x : Ctx) (k : SfnCtx) (ts : List Token),
    s.core.sfnReady cell op = some (x, k, ts) → s.core.early cell x 0 (joinTok ts) = false →
    Runs (i cell) s fun c =>
      Fired s.core c cell x (sfnPorts k) (lat s.core cell) ts false
        [(0, (f k ((ts.map (·.payload.toNat)).getD 0 0) ((ts.map (·.payload.toNat)).getD 1 0)).1)]

/-- The SFN functions of one operand (R54, R109 to R112): each lane that the mask names takes the function's value, after the
latency of the operation. -/
def Sys2Proof.Stated.SfnLaneFunctionsFire : Prop :=
  SfnRuns .exp2 .exp2 (fun _ _ => 6) (laneWork fnExp2) ∧
  SfnRuns .log2 .log2 (fun _ _ => 6) (laneWork fnLog2) ∧
  SfnRuns .rcp .rcp (fun c cell => c.rcpLat cell) (laneWork fnRcp) ∧
  SfnRuns .rsqrt .rsqrt (fun _ _ => 9) (laneWork fnRsqrt) ∧
  SfnRuns .sqrt .sqrt (fun _ _ => 9) (laneWork fnSqrt) ∧
  SfnRuns .tanh .tanh (fun _ _ => 7) (laneWork fnTanh) ∧
  SfnRuns .logistic .logistic (fun _ _ => 7) (laneWork fnLogistic) ∧
  SfnRuns .pwl .pwl (fun _ _ => 4) (fun k p q => laneWork (fnPwl k.pwl) k p q)

/-- The reductions of R113 and ADD2 (R54). -/
def Sys2Proof.Stated.SfnReductionsFire : Prop :=
  SfnRuns .min8 .min8 (fun _ _ => 3) (fun k p _ => extreme8 (Num.lt true) k.mask.toNat p) ∧
  SfnRuns .max8 .max8 (fun _ _ => 3) (fun k p _ => extreme8 (fun x y => Num.lt true y x) k.mask.toNat p) ∧
  SfnRuns .argmax8 .argmax8 (fun _ _ => 3) (fun k p _ => argmaxLanes k.mask.toNat p) ∧
  SfnRuns .sort8 .sort8 (fun _ _ => 6) (fun k p _ => sortLanes k.mask.toNat p) ∧
  SfnRuns .sum8 .sum8 (fun _ _ => 3) (fun k p _ => sumLanes k.mask.toNat p) ∧
  SfnRuns .add2 .add2 (fun _ _ => 3) (fun k p q => add2Lanes k.mask.toNat p q)

/-- The SFN functions of one operand and the reductions: a ready cell fires with the latency and the result of its operation.
Clauses may rest on log entry 32, which is the model's own. -/
def Obligations.SfnCellsFire : Prop := Stated.SfnLaneFunctionsFire ∧ Stated.SfnReductionsFire

/-- A SCAN command fires; in a case that the manual does not state the value is an open function of operation `n`, the context and the
operand (log entry 31), so that equal operands give equal results (R331). -/
def Sys2Proof.Stated.ScanRuns (i : Nat → Instr) (op : SfnOp) (lat n : Nat) (f : SfnCtx → Nat → Nat → Nat × Cnt) : Prop :=
  ∀ (s : State) (cell : Nat) (x : Ctx) (k : SfnCtx) (ts : List Token),
    s.core.sfnReady cell op = some (x, k, ts) → s.core.early cell x 0 (joinTok ts) = false →
    Runs (i cell) s fun c =>
      Fired s.core c cell x (sfnPorts k) lat ts false
        [(0, (f k (Config.corner [n, codeWidth k.code, b2n (codeIsInt k.code), k.mask.toNat, (ts.map (·.payload.toNat)).getD 0 0])
          ((ts.map (·.payload.toNat)).getD 0 0)).1)] ∧
      c.free = s.core.free

/-- The SCAN modes and PARAM (R139, R140). -/
def Sys2Proof.Stated.ScanFires : Prop :=
  ScanRuns .leafMa .leafMa 3 1 (fun k fr p => scanLeafMa k.mask.toNat fr p) ∧
  ScanRuns .leafMm .leafMm 3 2 (fun k fr p => scanLeafMm k.mask.toNat fr p) ∧
  ScanRuns .combMa .combMa 3 3 (fun k fr p => scanCombMa k.mask.toNat fr p) ∧
  ScanRuns .combMm .combMm 3 4 (fun k fr p => scanCombMm k.mask.toNat fr p) ∧
  ScanRuns .param .param 4 5 (fun k fr p => paramRecord k.code (k.mapping = .asym) fr p)

/-- DEQUANT (R115, R135) and QUANT (R116, R118, R135): a dynamic QUANT passes its scale record on in bytes [63:56], and a
stochastic one leaves its generator where its lanes have brought it. -/
def Sys2Proof.Stated.ConverterFires : Prop :=
  SfnRuns .dequant .dequant (fun _ _ => 3) (fun k p _ => dequantLanes k.code (dequantMap k p) k.mask.toNat p) ∧
  ∀ (s : State) (cell : Nat) (x : Ctx) (k : SfnCtx) (ts : List Token),
    s.core.sfnReady cell .quant = some (x, k, ts) → s.core.early cell x 0 (joinTok ts) = false →
    let rec_ := if k.dynamic then (ts.getD 1 (joinTok ts)).payload.toNat % 2 ^ 64 else 0
    let p := (ts.headD (joinTok ts)).payload.toNat
    let q := quantLanes k.code (if k.dynamic then recordMap rec_ else pinnedMap k) k.stochastic k.mask.toNat
      (Config.corner [0, codeWidth k.code, k.scale.toNat, unsigned 16 k.zero, k.mask.toNat, p, rec_]) p
      (s.core.gen cell k (joinTok ts).set) 0 8
    Runs (.quant cell) s fun c =>
      Fired s.core c cell x (sfnPorts k) 3 ts false [(0, if k.dynamic then q.1 % 2 ^ 448 + rec_ * 2 ^ 448 else q.1)] ∧
      (k.stochastic = true → c.gen cell k (joinTok ts).set = q.2.2.2)

/-- SCAN cells and the converters DEQUANT and QUANT fire.
Clauses may rest on log entries 29, 30 and 31, which are the model's own. -/
def Obligations.PlacementCellsFire : Prop := Stated.ScanFires ∧ Stated.ConverterFires

/-- DOT and DOTC (R51 to R53, R104): the firing takes the slot of its iteration's phase, sends the result as binary32 8 fc on,
with POISON where the slot holds a poisoned word (R57), and moves the iteration to its next phase.
Clauses may rest on log entry 19, which is the model's own. -/
def Obligations.MulFires : Prop :=
  ∀ (s : State) (cell : Nat) (chain : Bool) (x : Ctx) (k : MulCtx) (ts : List Token),
    s.core.mulReady cell chain = some (x, k, ts) → s.core.early cell x 0 (joinTok ts) = false →
    let t := joinTok ts
    let slot := s.core.mulSlot cell k t.tag t.set
    slot < 256 → k.first ≤ slot → slot < k.first + k.count →
    let bad := s.mem.poisonIn (aCell cell + 32 * slot) 32 || s.mem.poisonIn (aCell cell + 0x2000 + 8 * slot) 8
    Runs (if chain then .dotc cell else .dot cell) s fun c =>
      Fired s.core c cell x (if chain then [0, 1] else [0]) 8 ts bad
        [(0, enc32 (mulResult s.mem cell slot k t.payload.toNat
          (if chain then some (ts.getD 1 t).payload.toNat else none)).1)] ∧
      Store.get c.fab.phases 0 (s.core.phaseKey cell t.tag t.set) =
        (if Store.get s.core.fab.phases 0 (s.core.phaseKey cell t.tag t.set) + 1 < k.phases
          then Store.get s.core.fab.phases 0 (s.core.phaseKey cell t.tag t.set) + 1 else 0)

/-- DELAY inside its range (R55, R56): the token stands in its line of the SRAM, to leave it `dly` fc after its arrival; where the host
has written the line in this fabric cycle, the host's data stays. READ inside its range (R56, R548) sends the line as the reading port
sees it, with POISON where it holds a poisoned word (R57). -/
def Sys2Proof.Stated.MemReadsFire : Prop :=
  (∀ (s : State) (cell : Nat) (x : Ctx) (k : MemCtx) (ts : List Token) (a : Nat),
    s.core.memReady cell .delay = some (x, k, ts) → s.core.early cell x 0 (joinTok ts) = false →
    let t := joinTok ts
    let arr := ((s.core.heldAt cell 0).head?.map (·.arr)).getD 0
    let ad := aCell cell + a
    let coll := s.core.fab.wrB.any fun e => e.1 = ad
    delayLine k arr = some a →
    RunsDev (.delay cell) s fun m c =>
      c.fab.delays = s.core.fab.delays ++ [⟨{ t with poison := t.poison || s.core.ctxPoison cell t.set }, s.core.cellRgn cell, cell, x,
        arr + k.dly, ad⟩] ∧
      c.fab.fly = s.core.fab.fly ∧ c.heldAt cell 0 = (s.core.heldAt cell 0).tail ∧ c.hasFired cell 0 = true ∧
      (coll = false → m.read ad 64 = ofPayload t.payload) ∧ (coll = true → m = s.mem) ∧
      ∀ b, b < ad ∨ ad + 64 ≤ b → m.byte b = s.mem.byte b) ∧
  (∀ (s : State) (cell : Nat) (x : Ctx) (k : MemCtx) (ts : List Token) (a : Nat),
    s.core.memReady cell .read = some (x, k, ts) → s.core.early cell x 0 (joinTok ts) = false →
    s.core.memAddr cell k (joinTok ts).set (joinTok ts).payload.toNat = some a →
    s.core.debugOn (s.core.cellRgn cell) (joinTok ts).set = false →
    Runs (.read cell) s fun c =>
      Fired s.core c cell x [0] 3 ts (s.mem.poisonIn (aCell cell + a) 64)
        [(0, (s.core.memLine s.mem (aCell cell + a)).toNat)])

/-- WRITE inside its range (R548): the line takes the 64 bytes of the data token, and no other byte of memory changes; where
the host has written the line in this fabric cycle nothing is stored and COLLISIONS counts (R56). -/
def Sys2Proof.Stated.MemWriteStores : Prop :=
  ∀ (s : State) (cell : Nat) (x : Ctx) (k : MemCtx) (ts : List Token) (a : Nat),
    s.core.memReady cell .write = some (x, k, ts) → s.core.early cell x 0 (joinTok ts) = false →
    s.core.memAddr cell k (joinTok ts).set ((ts.getD 1 (joinTok ts)).payload.toNat) = some a →
    let coll := s.core.fab.wrB.any fun e => e.1 = aCell cell + a
    RunsDev (.write cell) s fun m c =>
      (coll = false → m.read (aCell cell + a) 64 = ofPayload (ts.headD (joinTok ts)).payload) ∧
      (coll = true → m = s.mem ∧ (s.core.frozenAt (pMdw (cellMeadow cell) + 0xE0) = false →
        c.rd (pMdw (cellMeadow cell) + 0xE0) = (s.core.rd (pMdw (cellMeadow cell) + 0xE0) + 1) % 2 ^ 48)) ∧
      (∀ b, b < aCell cell + a ∨ aCell cell + a + 64 ≤ b → m.byte b = s.mem.byte b) ∧
      c.hasFired cell 0 = true ∧ c.fab.fly = s.core.fab.fly

/-- MEM cells delay, read and write. -/
def Obligations.MemCellsFire : Prop := Stated.MemReadsFire ∧ Stated.MemWriteStores

/-! ### STR, TAP and KEY cells, stalls -/

/-- An STR command of group `grp` fires the complete match that came first, 2 fc on (R58, R59, R65): `toks` are the tokens of the
group's ports; each port loses its token of that tag and set; the outputs carry the tag that the operation gives (R343). -/
def Sys2Proof.Stated.StrRuns (i : Nat → Instr) (op : StrOp) (grp : Nat) : Prop :=
  ∀ (s : State) (cell : Nat) (x : Ctx) (k : StrCtx) (tag : Tag) (set : Bool) (toks : List (Nat × Token)),
    kindOf cell = .str → s.core.strReady cell grp op = some (tag, set) → s.core.strCtx cell set = some (x, k) → k.op = op →
    ((strNeed k grp).map fun p => (p, (s.core.strTok cell p tag set).map (·.tok))) = toks.map (fun t => (t.1, some t.2)) →
    s.core.early cell x (2 * grp) (joinTok (toks.map (·.2))) = false →
    Runs (i cell) s fun c =>
      c.fab.fly = (s.core.place cell x 2
        { joinTok (toks.map (·.2)) with
          tag := strTag k tag, set := set, poison := (joinTok (toks.map (·.2))).poison || s.core.ctxPoison cell set }
        (strWork k grp toks)).fab.fly ∧
      (∀ p ∈ strNeed k grp, c.heldAt cell p = dropOne tag set (s.core.heldAt cell p)) ∧
      (∀ q, q ∉ (strNeed k grp).map (cell * 4 + ·) → Store.get c.fab.held [] q = Store.get s.core.fab.held [] q) ∧
      c.hasFired cell grp = true

/-- FORK, SWITCH, SELECT, GATHER, ALIGN, RENUMBER and DIGEST fire (R58, R59, R65, R343); MERGE sends the oldest token of its
lowest-numbered port that holds one. Clauses may rest on log entries 33 and 84, which are the model's own. -/
def Obligations.StrFires : Prop :=
  StrRuns .fork .fork 0 ∧ StrRuns .switch .switch 0 ∧ StrRuns .select .select 0 ∧
  (∀ grp, StrRuns (fun cell => .gather cell grp) .gather grp) ∧ (∀ grp, StrRuns (fun cell => .align cell grp) .align grp) ∧
  StrRuns .renumber .renumber 0 ∧ StrRuns .digest .digest 0 ∧
  ∀ (s : State) (cell p : Nat) (x : Ctx) (k : StrCtx) (h : Held) (rest : List Held),
    kindOf cell = .str → s.core.mergeReady cell = some (h.tok.tag, h.tok.set) →
    s.core.strCtx cell h.tok.set = some (x, k) → k.op = .merge →
    ((strPorts k).filter fun q => (s.core.strTok cell q h.tok.tag h.tok.set).isSome).take 1 = [p] →
    s.core.heldAt cell p = h :: rest → s.core.early cell x 0 h.tok = false →
    Runs (.merge cell) s fun c =>
      c.fab.fly = (s.core.place cell x 2 { h.tok with poison := h.tok.poison || s.core.ctxPoison cell h.tok.set }
        [(0, h.tok.payload.toNat)]).fab.fly ∧
      c.heldAt cell p = rest ∧ c.hasFired cell 0 = true

/-- An orphan (R67): its meadow counts it and raises event 11, and its tag and set join the cell's orphan list. -/
def Sys2Proof.Stated.OrphanCounts : Prop :=
  ∀ (s : State) (cell port : Nat) (x : Ctx) (k : StrCtx) (grp : Nat) (h : Held),
    s.core.orphanReady cell port = some (x, k, grp, h) →
    (∀ set, s.core.debugOn (s.core.cellRgn cell) set = false) →
    let m := cellMeadow cell
    Runs (.orphan cell port) s fun c =>
      (s.core.frozenAt (pMdw m + 0xD0) = false → c.rd (pMdw m + 0xD0) = (s.core.rd (pMdw m + 0xD0) + 1) % 2 ^ 48) ∧
      c.getB (pMdw m + 0x38) 11 = true ∧
      (h.tok.tag, h.tok.set) ∈ Store.get c.fab.orphans [] cell ∧
      c.hasFired cell grp = true

/-- A token arrives when its travel is over (R46, R47): at a latched cell, at an STR cell that does not expect it as a late
partner, and at the owner of its ring (R254), it joins the end of its port's queue with the schedule count and fc of its arrival. At a
KEY cell that is not the owner it is dropped. -/
def Sys2Proof.Stated.TokenArrives : Prop :=
  ∀ (s : State) (i : Nat) (f : Fly), s.core.fab.fly[i]? = some f → s.core.mayArrive f = true →
    s.core.debugOn f.rgn f.tok.set = false →
    let c := s.core
    let joins := (kindOf f.dst ≠ .str ∧ kindOf f.dst ≠ .key) ∨
      (kindOf f.dst = .str ∧ (f.tok.tag, f.tok.set) ∉ Store.get c.fab.orphans [] f.dst) ∨
      (kindOf f.dst = .key ∧ ∃ it, (c.rgn f.rgn).iter f.tok.tag f.tok.set = some it ∧ c.keyOwns f.dst it = true)
    let drops := kindOf f.dst = .key ∧ ∃ it, (c.rgn f.rgn).iter f.tok.tag f.tok.set = some it ∧ c.keyOwns f.dst it = false
    (joins → (c.heldAt f.dst f.port).length < portRoom f.dst →
      Runs (.tokenArrive i) s fun d =>
        d.fab.fly = c.fab.fly.eraseIdx i ∧
        d.heldAt f.dst f.port = c.heldAt f.dst f.port ++ [⟨f.tok, (c.rgn f.rgn).sched, c.clk.fc⟩] ∧
        (∀ k, k ≠ f.dst * 4 + f.port → Store.get d.fab.held [] k = Store.get c.fab.held [] k)) ∧
    (drops → Runs (.tokenArrive i) s fun d => d.fab.fly = c.fab.fly.eraseIdx i ∧ d.fab.held = c.fab.held)

/-- Tokens arrive at their ports, and an orphan is counted and dropped. -/
def Obligations.TokensArrive : Prop := Stated.OrphanCounts ∧ Stated.TokenArrives

/-- A stall begins when every named item is overdue (R80), and STALLS counts it once (R82); a stall that has reached
FLT_STALL_LIMIT halts the region with fault kind 9 (R515). Clauses may rest on log entry 49, which is the model's own. -/
def Obligations.StallsBeginAndHalt : Prop :=
  (∀ (s : State) (g : Nat) (items : List Overdue), s.core.rgnLive g = true → items ≠ [] → items.all (s.core.overdue s.mem g) = true →
    Runs (.stallStart g items) s fun c =>
      (c.rgn g).stall = items ∧ (c.rgn g).stallLen = 0 ∧ (∀ h, h ≠ g → c.rgn h = s.core.rgn h) ∧
      (g < 8 → s.core.frozenAt (pRgn g + 0xA8) = false → c.rd (pRgn g + 0xA8) = (s.core.rd (pRgn g + 0xA8) + 1) % 2 ^ 48)) ∧
  (∀ (s : State) (g : Nat), (s.core.rgn g).stall ≠ [] → s.core.getF (pFlt + 0xC0) 0 32 ≠ 0 →
    s.core.getF (pFlt + 0xC0) 0 32 ≤ (s.core.rgn g).stallLen → (s.core.rgn g).phase ≠ .halted →
    Runs (.stallLimit g) s fun c => (c.rgn g).phase = .halted ∧ (c.rgn g).faultKind = 9)

/-- The TAP roles (R61): INGRESS sends its word on 1 fc later; CAPTURE hands the token to capture, where an open channel of kind 7
keeps it with the payload (R379); RESULT hands the result of the standing region that its context names to the composer (R231), and
writes a task's result to its OUT buffer (R315), but where a write is refused (R421).
Clauses may rest on log entries 26 and 92, which are the model's own. -/
def Obligations.TapFires : Prop :=
  (∀ (s : State) (cell : Nat) (x : Ctx) (k : TapCtx) (ts : List Token),
    s.core.tapReady cell .ingress = some (x, k, ts) → s.core.early cell x 0 (joinTok ts) = false →
    Runs (.tapIngress cell) s fun c => Fired s.core c cell x [0] 1 ts false [(0, (joinTok ts).payload.toNat)]) ∧
  (∀ (s : State) (cell : Nat) (x : Ctx) (k : TapCtx) (ts : List Token) (i : Iter),
    s.core.tapReady cell .capture = some (x, k, ts) → s.core.early cell x 0 (joinTok ts) = false →
    s.core.cellRgn cell < 8 → (s.core.rgn (s.core.cellRgn cell)).iter (joinTok ts).tag (joinTok ts).set = some i →
    s.core.cap.running = true → s.core.cap.stopped = false → s.core.cap.since ≤ i.tick → s.core.cap.mode 7 ≠ 0 →
    bit (fld s.core.cap.image 18 1) (s.core.cellRgn cell) = true →
    Runs (.tapCapture cell) s fun c =>
      c.heldAt cell 0 = (s.core.heldAt cell 0).tail ∧ c.hasFired cell 0 = true ∧
      ∃ o, c.cap.capQ = s.core.cap.capQ ++ [o] ∧ o.kind = 7 ∧ o.tick = i.tick ∧ o.cell = cell ∧
        o.match_ = ofPayload (joinTok ts).payload ∧ o.final = some s.core.now) ∧
  (∀ (s : State) (cell : Nat) (x : Ctx) (k : TapCtx) (ts : List Token) (i : Iter),
    s.core.tapReady cell .result = some (x, k, ts) → s.core.early cell x 0 (joinTok ts) = false →
    s.core.cellRgn cell < 16 → (s.core.rgn k.region).iter (joinTok ts).tag (joinTok ts).set = some i →
    let t := joinTok ts
    RunsDev (.tapResult cell) s fun m c =>
      m = s.mem ∧ c.heldAt cell 0 = (s.core.heldAt cell 0).tail ∧ c.hasFired cell 0 = true ∧
      (c.comp.results.map fun r => (r.rgn, r.tap, r.tag, r.set, r.tok)) =
        (s.core.comp.results.map fun r => (r.rgn, r.tap, r.tag, r.set, r.tok)) ++
          [(k.region, cell, t.tag, t.set, { t with poison := t.poison || s.core.ctxPoison cell t.set })]) ∧
  (∀ (s : State) (cell : Nat) (x : Ctx) (k : TapCtx) (ts : List Token),
    s.core.tapReady cell .result = some (x, k, ts) → s.core.early cell x 0 (joinTok ts) = false → 16 ≤ s.core.cellRgn cell →
    let e := s.core.cellRgn cell - 16
    let a := fld (Store.get s.core.task.table Task.free e).desc 56 8 + 64 * (joinTok ts).tag.toNat
    (s.core.protected a 64 = false → RunsDev (.tapResult cell) s fun m c =>
      m.read a 64 = ofPayload (joinTok ts).payload ∧ (∀ b, b < a ∨ a + 64 ≤ b → m.byte b = s.mem.byte b) ∧
      (Store.get c.task.table Task.free e).outs = (Store.get s.core.task.table Task.free e).outs + 1) ∧
    (s.core.protected a 64 = true → RunsDev (.tapResult cell) s fun m c =>
      m = s.mem ∧ (Store.get c.task.table Task.free e).finish = some 4))

/-- The key stage's firings (R255, R265): the event at the head of the fetch queue leaves it, and its iteration's dependence set
is final and its key status known; the deferred token that is due leaves its queue. The cell has fired. -/
def Sys2Proof.Stated.KeyCellsFire : Prop :=
  (∀ (s : State) (cell : Nat) (tok : Token) (i : Iter) (x : Ctx) (k : KeyCtx),
    s.core.keyReady cell = some (tok, i, x, k) →
    s.core.early cell x 0 tok = false → (s.core.rgn (s.core.cellRgn cell)).resetWait = false →
    Runs (.keyEventFire cell) s fun c =>
      c.heldAt cell 0 = (s.core.heldAt cell 0).tail ∧ c.hasFired cell 0 = true ∧
      ∃ j ∈ (c.rgn (s.core.cellRgn cell)).iters, j.tag = i.tag ∧ j.set = i.set ∧ j.final = true ∧ j.status.isSome = true) ∧
  (∀ (s : State) (cell : Nat) (tok : Token) (i : Iter) (x : Ctx) (k : KeyCtx),
    s.core.deferReady cell = some (tok, i, x, k) → s.core.early cell x 1 tok = false → (s.core.rgn (s.core.cellRgn cell)).resetWait = false →
    Runs (.keyDeferredFire cell) s fun c =>
      c.heldAt cell 1 = dropOne i.tag i.set (s.core.heldAt cell 1) ∧ c.hasFired cell 1 = true)

/-- An event of a ring applies its operations (R255): where its ring holds no record and the event no frame of its own, no frame is
kept and no snapshot runs, exactly the lines that the operations and the stamp change go to the vault's write queue, to be written 3 fc
after the apply, and the event is counted. -/
def Sys2Proof.Stated.KeyEventApplies : Prop :=
  ∀ (s : State) (cell : Nat) (tok : Token) (i : Iter) (x : Ctx) (k : KeyCtx) (km : KeyMap) (j l : Nat) (f : Fetched),
    s.core.keyReady cell = some (tok, i, x, k) →
    s.core.early cell x 0 tok = false → (s.core.rgn (s.core.cellRgn cell)).resetWait = false → s.core.ctxPoison cell tok.set = false →
    i.home = .ring j l → s.core.keyMapOf (s.core.cellRgn cell) i.set = some km →
    s.core.sep.frames = [] → s.core.key.undo = [] → s.core.key.snap = none → i.deps = [] → tok.poison = false →
    (s.core.fab.fetched.find? fun f => f.rgn = s.core.cellRgn cell && f.tag = i.tag && f.set = i.set) = some f → f.poison = false →
    let base := kmRingAt km j l
    let old := s.core.ringBytes s.mem base (kmStride km / 64)
    let new := stamp i.tick (runOps km k.ops k.entries (ofPayload tok.payload) old).ring
    Runs (.keyEventFire cell) s fun c =>
      c.fab.vwrites = s.core.fab.vwrites ++ (changedLines base old new).map (fun e =>
        ⟨(e.1 - 0x200000000) / 0x8000000, e.1, toPayload (slice new (e.1 - base) 64),
          some (s.core.cellRgn cell, (s.core.rgn (s.core.cellRgn cell)).sched + 3, cell)⟩) ∧
      (s.core.frozenAt (pKey + 0x180) = false → c.rd (pKey + 0x180) = (s.core.rd (pKey + 0x180) + 1) % 2 ^ 48)

/-- KEY and KCACHE cells fire, and key events are applied. Clauses may rest on log entries 18 and 76, which are the model's own. -/
def Obligations.KeyCellsWork : Prop := Stated.KeyCellsFire ∧ Stated.KeyEventApplies

/-- KCACHE (R256) makes the lookup that waits; on a hit the lines serve the event and its prefetch is discarded. A resolve point
(R287) whose instant has come is passed by its region. A vault read whose cycle has come delivers (R549), and a vault's oldest
write takes effect on its line and nowhere else, once its KEY cell has written it (R255). Clauses may rest on log entries 17, 18 and 48, which are the model's own. -/
def Obligations.RingDataMoves : Prop :=
  (∀ (s : State) (cell cell' at_ : Nat) (tag : Tag) (set : Bool) (k : MemCtx) (i : Iter) (x : Ctx) (y : KeyCtx),
    (s.core.key.lookups.find? fun (e : Lookup) => e.cell / 16 = cell / 16) = some ⟨cell', tag, set, at_⟩ →
    (s.core.ctx cell set).body = .mem k → k.op = .kcache → k.undo = false → kindOf cell = .mem →
    (s.core.rgn (s.core.cellRgn cell')).iter tag set = some i → s.core.keyCtx cell' set = some (x, y) →
    s.core.fetchSet s.mem (s.core.cellRgn cell') i y ≠ [] → s.core.hasCache cell' set = true →
    (s.core.fetchSet s.mem (s.core.cellRgn cell') i y).all (s.core.cached cell') = true →
    Runs (.kcache cell) s fun c =>
      (∀ e ∈ c.key.lookups, ¬ (e.cell = cell' ∧ e.tag = tag ∧ e.set = set)) ∧
      (⟨s.core.cellRgn cell', tag, set, false, true⟩ : Fetched) ∈ c.fab.fetched ∧
      ∀ v ∈ c.fab.vreads, ¬ (v.rgn = s.core.cellRgn cell' ∧ v.tag = tag ∧ v.set = set)) ∧
  (∀ (s : State) (g src : Nat) (f : Frame),
    (s.core.sep.frames.find? fun f => f.src % 64 = src && bit f.regions g && !f.resolved.contains g) = some f →
    f.tEnd + nsN (aSrc f.src) + nsN (s.core.dFord g) ≤ s.core.now →
    (s.core.rgn g).phase = .halted ∨ (((s.core.rgn g).phase = .running ∨ (s.core.rgn g).phase = .draining) ∧ s.core.safe = false ∧
      s.core.allBefore g (s.core.resolveSlot g f) = true) → f.verdict = some true → (s.core.rgn g).resetWait = false →
    Runs (.resolvePoint g src) s fun c =>
      (∀ u ∈ c.key.undo, u.rgn = g → (f.src, f.num) ∉ u.deps) ∧
      ∀ x ∈ c.sep.frames, x.src = f.src → x.num = f.num → g ∈ x.resolved) ∧
  (∀ (s : State) (i : Nat) (v : VRead), s.core.fab.vreads[i]? = some v → v.due ≤ s.core.clk.vc →
    Runs (.vaultReadDone i) s fun c =>
      c.fab.vreads = s.core.fab.vreads.eraseIdx i ∧
      ∃ f ∈ c.fab.fetched, f.rgn = v.rgn ∧ f.tag = v.tag ∧ f.set = v.set) ∧
  (∀ (s : State) (v : Nat) (w : VWrite), (s.core.fab.vwrites.find? fun w => w.vault = v) = some w → w.wait = none →
    RunsDev (.vaultWriteCommit v) s fun m c =>
      m.read w.addr 64 = ofPayload w.line ∧ (∀ b, b < w.addr ∨ w.addr + 64 ≤ b → m.byte b = s.mem.byte b) ∧
      c.fab.vwrites = s.core.fab.vwrites.erase w)

/-! ### Frames, events and the Ford -/

/-- A frame that starts on a port with link, where none is still arriving, is kept with the port's next frame number, its bytes
to the length limit, and its start at the reference plane (R26, R184, R218); the codewords that the port corrected are counted (R214).
Clauses may rest on log entries 22 and 27, which are the model's own. -/
def Obligations.FrameStartKeepsFrame : Prop :=
  ∀ (s : State) (lp phi deskew corr : Nat) (b : List Byte),
    let t := adjust (s.core.at_ phi) (signed 32 (s.core.getF (pTime + 0x210) 0 32) - (s.core.dRx : Int) - deskew)
    s.core.lpUp lp = true → (∀ f ∈ s.core.sep.frames, f.src = lp → f.tEnd ≤ t) →
    Runs (.frameStart lp phi ⟨deskew, corr⟩ b) s fun c =>
      ∃ f, c.sep.frames = s.core.sep.frames ++ [f] ∧ f.src = lp ∧ f.num = Store.get s.core.sep.counts 0 lp ∧ f.tStart = t ∧
        f.bytes = b.take 9216 ∧ f.uncorr = decide (9216 < b.length) ∧ f.verdict = none ∧
        Store.get c.sep.counts 0 lp = (Store.get s.core.sep.counts 0 lp + 1) % 65536 ∧
        (s.core.frozenAt (aLp lp + 0x30) = false →
          c.getF (aLp lp + 0x30) 0 32 = (s.core.getF (aLp lp + 0x30) 0 32 + corr) % 2 ^ 32)

/-- An uncorrectable codeword on a port with link spoils the frames it touches that have no verdict yet, and no other (R214). An
event word whose last byte is at the Separator, 58 ns after an Ethernet port's plane (R26), goes on its way to the Ford with its ingress timestamp, the regions of its frame, and the
words of R229 and R230. -/
def Sys2Proof.Stated.FramesYieldEvents : Prop :=
  (∀ (s : State) (lp : Nat) (nums : List Nat), s.core.lpUp lp = true →
    Runs (.fecUncorrectable lp nums) s fun c =>
      c.sep.frames = s.core.sep.frames.map fun (f : Frame) =>
        if f.src = lp ∧ f.verdict.isNone ∧ nums.contains f.num then { f with uncorr := true } else f) ∧
  (∀ (s : State) (src : Nat) (f : Frame) (p : Program) (k : ParseCase) (len : Nat),
    (s.core.sep.frames.find? fun f => f.src = src && !f.walkDone) = some f → s.core.progOf f = some p →
    let off := if f.walkCount = 0 ∧ f.walkOff = 0 then p.hdrSkip else f.walkOff
    let pay := slice f.bytes f.payOff f.payLen
    off < f.payLen → f.walkCount < p.maxMsg → 16 ≤ len → msgLen p pay off = len → off + len ≤ f.payLen →
    msgCase p pay off = some k → k.emit = true → msgShort p k len = false → f.payOff + off + len ≤ f.bytes.length →
    let n := s.core.msgTime f (f.payOff + off + len - 1)
    n + stage1 f ≤ s.core.now → s.core.en pSep = true →
    Runs (.eventWordEmit src) s fun c =>
      ∃ e, c.sep.inbox = s.core.sep.inbox ++ [e] ∧ e.src = f.src ∧ e.n = n ∧ e.tick = s.core.tickAt n ∧
        e.regions = maskBits 8 f.regions ∧ e.delta = 0 ∧
        e.word = toPayload (toLe 8 (srcClass f.src * 2 ^ 16 * 2 + srcIdx f.src * 2 ^ 20 +
            (msgFields p k (slice f.bytes (f.payOff + off) len)).2.1 + b2n (frameSpec f n) * 2 ^ 45 + f.num * 2 ^ 46) ++
          toLe 8 (linear n) ++ toLe 8 (s.core.tickAt n) ++ (msgFields p k (slice f.bytes (f.payOff + off) len)).1))

/-- The verdict of a port's oldest frame without one (R215), once its instant has come: the frame carries it, and a bad one is
counted. -/
def Sys2Proof.Stated.VerdictArrives : Prop :=
  ∀ (s : State) (lp : Nat) (f : Frame),
    (s.core.sep.frames.find? fun f => f.src = lp && f.verdict.isNone) = some f → lp < 8 → s.core.verdictAt f ≤ s.core.now →
    Runs (.fcsVerdict lp) s fun c =>
      (∀ x ∈ c.sep.frames, x.src = f.src → x.num = f.num → x.verdict = some (frameGood f)) ∧
      (frameGood f = false → s.core.frozenAt (aLp lp + 0x28) = false →
        c.rd (aLp lp + 0x28) = (s.core.rd (aLp lp + 0x28) + 1) % 2 ^ 48)

/-- Received frames yield their events, and verdicts settle them.
Clauses may rest on log entries 20 and 23, which are the model's own. -/
def Obligations.FramesAreDisposed : Prop := Stated.FramesYieldEvents ∧ Stated.VerdictArrives

/-- An event that reaches the Ford (R32): with room, it joins the buffer for the regions that take it, late where a due instant
has passed (R199); with the buffer of 4,096 full it is dropped and counted; in safe state it is counted and discarded (R511). Its
region releases the event that is ready once no other region's comes first (R29, R31): the next tag, set by the event's tick
(R48, R193), and the entry leaves the buffer with its last region (R198).
Clauses may rest on log entries 20 and 21, which are the model's own. -/
def Obligations.FordBuffersAndReleases : Prop :=
  (∀ (s : State) (i : Nat) (e : FordEv), s.core.sep.inbox[i]? = some e → (∀ x ∈ s.core.sep.inbox.take i, x.src ≠ e.src) →
    s.core.safe = false →
    (bit (pfld e.word 0 8) 45 = true ∨ ∀ f ∈ s.core.sep.frames, f.src = e.src → f.num = pfld e.word 0 8 / 2 ^ 46 % 65536 →
      f.verdict ≠ some false) →
    let rg := (e.regions.filter fun g => !(s.core.rgn g).replay).filter fun g => s.core.takesEvent g e.tick
    rg ≠ [] →
    (s.core.ford.buf.length < 4096 → Runs (.fordArrival i) s fun c =>
      c.sep.inbox = s.core.sep.inbox.eraseIdx i ∧
      c.ford.buf = s.core.ford.buf ++ [{ e with regions := rg, late := rg.any fun g => s.core.due g e < s.core.now }]) ∧
    (4096 ≤ s.core.ford.buf.length → Runs (.fordArrival i) s fun c =>
      c.ford.buf = s.core.ford.buf ∧ (s.core.frozenAt (pSep + 0x400 + 8 * e.src) = false →
        e.src < 36 → c.rd (pSep + 0x400 + 8 * e.src) = (s.core.rd (pSep + 0x400 + 8 * e.src) + 1) % 2 ^ 48))) ∧
  (∀ (s : State) (i : Nat) (e : FordEv), s.core.sep.inbox[i]? = some e → (∀ x ∈ s.core.sep.inbox.take i, x.src ≠ e.src) →
    s.core.safe = true → s.core.frozenAt (pFlt + 0x118) = false →
    Runs (.fordArrival i) s fun c =>
      c.ford = s.core.ford ∧ c.sep.inbox = s.core.sep.inbox.eraseIdx i ∧
      c.rd (pFlt + 0x118) = (s.core.rd (pFlt + 0x118) + 1) % 2 ^ 48) ∧
  (∀ (s : State) (g : Nat) (e : FordEv) (l : Loaded), (s.core.rgn g).cursor = none → s.core.fordReady g = some e →
    s.core.binFor g e.tick = some l → s.core.fordAhead g e = false →
    Runs (.fordRelease g) s fun c =>
      c.ford.buf = takeEv g e s.core.ford.buf ∧ (c.rgn g).admitted = (s.core.rgn g).admitted + 1 ∧
      ((c.rgn g).iters.map fun i => (i.tag, i.set, i.n, i.tick)) =
        ((s.core.rgn g).iters.map fun i => (i.tag, i.set, i.n, i.tick)) ++
          [(BitVec.ofNat 16 (s.core.rgn g).admitted, (s.core.rgn g).setFor e.tick, e.n, e.tick)])

/-! ### Ports, filters, templates, caps and the gate -/

/-- Of the registers only `a` may differ. -/
def Sys2Proof.Stated.OnlyReg (c d : Core) (a : Nat) : Prop := ∀ b, b ≠ a → d.rd b = c.rd b

/-- PORT_CFG and the links (R211, R216, R241): a privileged write sets the port enables, and MODE only while every port is
disabled; an unprivileged one changes nothing. Link loss and link of a port show in LINK; a frame on the port is cut off.
Clauses may rest on log entry 40, which is the model's own. -/
def Obligations.PortsAndLinks : Prop :=
  (∀ (s : State) (a : Access) (v : Word64), a.view = .priv →
    Runs (.portCfgWrite a v) s fun c =>
      c.getF (pPort + 0x80) 2 8 = v.toNat / 4 % 256 ∧
      c.getF (pPort + 0x80) 0 2 = (if s.core.getF (pPort + 0x80) 2 8 = 0 then v.toNat % 4 else s.core.getF (pPort + 0x80) 0 2)) ∧
  (∀ (s : State) (a : Access) (v : Word64), a.view ≠ .priv → Runs (.portCfgWrite a v) s fun c => c = s.core) ∧
  (∀ (s : State) (lp : Nat), lp < 8 → s.core.getB (pPort + 0x88) lp = true →
    Runs (.linkLoss lp) s fun c =>
      c.getB (pPort + 0x88) lp = false ∧ OnlyReg s.core c (pPort + 0x88) ∧
      c.sep.frames = s.core.sep.frames.map fun (f : Frame) =>
        if f.src = lp ∧ s.core.now < f.tEnd then { f with uncorr := true, tEnd := max f.tStart s.core.now } else f) ∧
  (∀ (s : State) (lp : Nat), lp < 8 → s.core.lpOn lp = true →
    Runs (.linkUp lp) s fun c => c.getB (pPort + 0x88) lp = true ∧ OnlyReg s.core c (pPort + 0x88))

/-- The filter table's staging (R223): WRITE and INVALIDATE with a tick at least 200 ns ahead and nothing pending are staged and
show PENDING; an ill-formed or untimely one leaves the table and shows REJECTED; READ copies an entry; the change takes effect at
its tick, and PENDING clears once every earlier frame has started at the Separator and none remains to be parsed.
Clauses may rest on log entry 40, which is the model's own. -/
def Obligations.FilterStaging : Prop :=
  (∀ (s : State) (a : Access) (v : Word64), a.view = .priv → s.core.sep.pending = none →
    s.core.lead200 (s.core.rd (pSep + 0xC0)) = true →
    let i := v.toNat % 4096
    let old := Store.get s.core.sep.filters [] i
    (filterOk s.core.stagedFilter = true → Runs (.filterWrite a v) s fun c =>
      Store.get c.sep.filters [] i = s.core.stagedFilter ∧ (∀ k, k ≠ i → Store.get c.sep.filters [] k = Store.get s.core.sep.filters [] k) ∧
      c.sep.pending = some (i, old, s.core.rd (pSep + 0xC0)) ∧ c.getB (pSep + 0xD0) 0 = true) ∧
    (filterOk s.core.stagedFilter = false → Runs (.filterWrite a v) s fun c =>
      c.sep = s.core.sep ∧ c.getB (pSep + 0xD0) 1 = true) ∧
    Runs (.filterInvalidate a v) s fun c =>
      Store.get c.sep.filters [] i = (if old = [] then [] else splice old 2 [BitVec.ofNat 8 (fld old 2 1 % 128)]) ∧
      c.sep.pending = some (i, old, s.core.rd (pSep + 0xC0)) ∧ c.getB (pSep + 0xD0) 0 = true) ∧
  (∀ (s : State) (a : Access) (v : Word64), a.view = .priv →
    Runs (.filterRead a v) s fun c =>
      c.sep = s.core.sep ∧ ∀ k, k < 8 →
        c.rd (pSep + 0x80 + 8 * k) = fld (Store.get s.core.sep.filters [] (v.toNat % 4096)) (8 * k) 8) ∧
  (∀ (s : State) (i t : Nat) (old : FilterEntry), s.core.sep.pending = some (i, old, t) → s.core.tickBegun t = true →
    Runs .filterChangeEffect s fun c => c.sep.pendingDone = true ∧ c.sep.filters = s.core.sep.filters ∧ c.regs = s.core.regs) ∧
  (∀ (s : State) (i t : Nat) (old : FilterEntry), s.core.sep.pending = some (i, old, t) → s.core.sep.pendingDone = true →
    s.core.allStarted (t * nsN s.core.tickP) = true →
    (∀ f ∈ s.core.sep.frames, f.walkDone = true ∨ t ≤ s.core.tickAt f.tStart) →
    Runs .filterPendingClear s fun c =>
      c.sep.pending = none ∧ c.getB (pSep + 0xD0) 0 = false ∧ OnlyReg s.core c (pSep + 0xD0))

/-- The head of a port's queue (R233 to R235): with the gate open it starts on the wire with its sequence number, and its template
counts it sent; with the gate closed it is dropped and counted. The first record in device order leaves once its flags are final
and no earlier event is open (R240). Clauses may rest on log entries 25 and 28, which are the model's own. -/
def Obligations.FramesLeave : Prop :=
  (∀ (s : State) (lp : Nat) (f : TxFrame) (rest : List TxFrame) (t : Nat), Store.get s.core.comp.inProg [] lp = [] →
    s.core.queue lp = f :: rest → s.core.lpUp lp = true → s.core.en pComp = true → s.core.mayStart lp f = some t → t ≤ s.core.now →
    let k := b2n f.set * 256 + f.t
    (s.core.gateOpen = true → Runs (.templateFrameStart lp) s fun c =>
      c.queue lp = rest ∧
      Store.get c.comp.inProg [] lp = [{ f with
        image := (match s.core.tmpl f.set f.t with
          | some tp => finishFrame tp (Store.get s.core.comp.seqs 0 k) f.image
          | none => f.image), start := s.core.exactly t }] ∧
      Store.get c.comp.seqs 0 k = (Store.get s.core.comp.seqs 0 k + 1) % 2 ^ 32 ∧
      (s.core.frozenAt (aTmpl f.t kSent) = false → c.rd (aTmpl f.t kSent) = (s.core.rd (aTmpl f.t kSent) + 1) % 2 ^ 48)) ∧
    (s.core.gateOpen = false → Runs (.templateFrameStart lp) s fun c =>
      c.queue lp = rest ∧ Store.get c.comp.inProg [] lp = [] ∧
      (s.core.frozenAt (aTmpl f.t kGated) = false → c.rd (aTmpl f.t kGated) = (s.core.rd (aTmpl f.t kGated) + 1) % 2 ^ 48))) ∧
  (∀ (s : State) (r : Result), s.core.firstResult = some r → s.core.flagsFinal r = true → s.core.earlierOpen r = false →
    Runs .resultRecordRelease s fun c => c.comp.results = s.core.comp.results.erase r)

/-- COMP_CAP and DEADLINE_NS (R237, R475): an unarmed cap takes PERIOD and BURST; arming with both above zero fills the bucket; an
armed cap refuses a lower PERIOD or a higher BURST. A deadline below 100 ns is refused. -/
def Sys2Proof.Stated.CapsAndDeadlines : Prop :=
  (∀ (s : State) (a : Access) (t : Nat) (v : Word64), a.view = .priv →
    let r := pComp + 0x400 + 8 * t
    let p := v.toNat % 2 ^ 32
    let b := v.toNat / 2 ^ 32 % 2 ^ 16
    (s.core.getB r 48 = false → Runs (.compCapWrite a t v) s fun c =>
      c.getF r 0 32 = p ∧ c.getF r 32 16 = b ∧ c.getB r 48 = false ∧ OnlyReg s.core c r) ∧
    (s.core.getB r 48 = false → p ≠ 0 → b ≠ 0 → Runs (.compCapArm a t v) s fun c =>
      c.getF r 0 32 = p ∧ c.getF r 32 16 = b ∧ c.getB r 48 = true ∧ c.bucket t = ⟨b, 0⟩ ∧ OnlyReg s.core c r) ∧
    (s.core.getB r 48 = true → s.core.getF r 0 32 ≤ p → b ≤ s.core.getF r 32 16 → Runs (.compCapWrite a t v) s fun c =>
      c.getF r 0 32 = p ∧ c.getF r 32 16 = b ∧ c.getB r 48 = true ∧ OnlyReg s.core c r) ∧
    (t < 256 → s.core.getB r 48 = true → (p < s.core.getF r 0 32 ∨ s.core.getF r 32 16 < b) → Runs (.compCapWrite a t v) s fun c =>
      c.rd r = s.core.rd r ∧ c.comp = s.core.comp)) ∧
  (∀ (s : State) (a : Access) (t : Nat) (v : Word64), a.view = .priv → t < 256 →
    let r := pComp1 + 0x400 + 8 * t
    (100 ≤ v.toNat % 2 ^ 16 → Runs (.deadlineWrite a t v) s fun c => c.getF r 0 16 = v.toNat % 2 ^ 16 ∧ OnlyReg s.core c r) ∧
    (v.toNat % 2 ^ 16 < 100 → Runs (.deadlineWrite a t v) s fun c => c.rd r = s.core.rd r))

/-- EGRESS_GATE and KILL_N (R238, R475): OPEN is set only with KILL_N high, KILL clear and the device not in safe state; closing
clears OPEN and leaves no frame in progress on any port; an accepted low level of KILL_N sets KILL and closes; KILL clears by a
write only while KILL_N is high, and not in the fabric cycle in which it was set (R14). -/
def Sys2Proof.Stated.EgressGate : Prop :=
  (∀ (s : State) (a : Access) (v : Word64), a.view = .priv → bit v.toNat 1 = false →
    s.core.getB aGate 2 = true → s.core.getB aGate 1 = false → s.core.safe = false →
    Runs (.gateOpen a v) s fun c => c.getB aGate 0 = true ∧ OnlyReg s.core c aGate) ∧
  (∀ (s : State) (a : Access) (v : Word64), a.view = .priv →
    (s.core.getB aGate 2 = false ∨ s.core.getB aGate 1 = true ∨ s.core.safe = true) →
    Runs (.gateOpen a v) s fun c => c.getB aGate 0 = s.core.getB aGate 0) ∧
  (∀ (s : State) (a : Access) (v : Word64), a.view = .priv →
    Runs (.gateClose a v) s fun c => c.getB aGate 0 = false ∧ ∀ lp, lp < 8 → Store.get c.comp.inProg [] lp = []) ∧
  (∀ (s : State) (a : Access) (v : Word64), a.view = .priv → s.core.getB aGate 2 = true → bit (s.core.cycGet aGate) 1 = false →
    Runs (.killClear a v) s fun c => c.getB aGate 1 = false) ∧
  (∀ s : State, s.core.pins.killN = true →
    Runs .killNAssert s fun c => c.pins.killN = false ∧ c.getB aGate 0 = false ∧ c.getB aGate 1 = true ∧ c.getB aGate 2 = false ∧
      ∀ lp, lp < 8 → Store.get c.comp.inProg [] lp = []) ∧
  (∀ s : State, Runs .killNDeassert s fun c => c.pins.killN = true ∧ c.getB aGate 2 = true ∧
    c.getB aGate 1 = s.core.getB aGate 1 ∧ OnlyReg s.core c aGate)

/-- Caps, deadlines and the egress gate. Clauses may rest on log entries 24 and 40, which are the model's own. -/
def Obligations.CapsAndGate : Prop := Stated.CapsAndDeadlines ∧ Stated.EgressGate

/-! ### Regions and binaries -/

/-- MDW_RGN_CTRL of the page that a region's anchor shows, written through the privileged view (R85, R86, R92): DRAIN of a running
region, RESUME of a drained one with no meadow lent, HALT of one in any state, RESET_RGN of a halted or drained one, which waits for
the last undo record (R290); other regions stay. DRAIN_COMPLETE ends a drain whose iterations and tokens are gone.
Clauses may rest on log entry 35, which is the model's own. -/
def Obligations.RegionControl : Prop :=
  (∀ (s : State) (a : Access) (m g : Nat), a.view = .priv → s.core.anchored m = some g →
    ((s.core.rgn g).phase = .running → Runs (.drain a m) s fun c =>
      c.rgn g = { s.core.rgn g with phase := .draining } ∧ (∀ h, h ≠ g → c.rgn h = s.core.rgn h) ∧ c.regs = s.core.regs) ∧
    ((s.core.rgn g).phase = .drained → s.core.lent g = [] → Runs (.resume a m) s fun c =>
      c.rgn g = { s.core.rgn g with phase := .running } ∧ (∀ h, h ≠ g → c.rgn h = s.core.rgn h) ∧ c.regs = s.core.regs) ∧
    ((s.core.rgn g).phase ≠ .halted → Runs (.halt a m) s fun c =>
      (c.rgn g).phase = .halted ∧ (c.rgn g).faultKind = 0) ∧
    ((s.core.rgn g).phase = .halted ∨ (s.core.rgn g).phase = .drained → s.core.hasRecords g = false →
      Runs (.resetRgn a m) s fun c => (c.rgn g).phase = .idle ∧ (c.rgn g).iters = [] ∧ (c.rgn g).sched = 0) ∧
    ((s.core.rgn g).phase = .halted ∨ (s.core.rgn g).phase = .drained → s.core.hasRecords g = true →
      Runs (.resetRgn a m) s fun c => (c.rgn g).resetWait = true ∧ (c.rgn g).phase = (s.core.rgn g).phase)) ∧
  (∀ (s : State) (g : Nat), (s.core.rgn g).phase = .draining → s.core.fabricOn = true → s.core.drainedNow g = true →
    Runs (.drainComplete g) s fun c => (c.rgn g).phase = .drained ∧ ∀ h, h ≠ g → (c.rgn h).phase = (s.core.rgn h).phase)

/-- MDW_REGION moves a meadow between regions that let it go and take it (R77, R90, R458), and refuses the numbers 8 to 14. The
converters' configuration (R144, R146, R148): THR and, in its range, WIN are set and the window restarts; CLR clears the statistics, of which
no lane has been counted in its fabric cycle. -/
def Sys2Proof.Stated.MeadowRegisters : Prop :=
  (∀ (s : State) (a : Access) (m : Nat) (v : Word64), a.view = .priv → m < s.core.meadows →
    (v.toNat % 16 < 8 ∨ v.toNat % 16 = 15 → s.core.en (pMdw m) = true → s.core.mayMove m (s.core.rgnField m) = true →
      s.core.mayMove m (v.toNat % 16) = true →
      Runs (.meadowMove a m v) s fun c => c.rgnField m = v.toNat % 16 ∧ OnlyReg s.core c (pMdw m + 0x80)) ∧
    (8 ≤ v.toNat % 16 → v.toNat % 16 ≤ 14 → Runs (.meadowMove a m v) s fun c => c.rgnField m = s.core.rgnField m)) ∧
  (∀ (s : State) (a : Access) (m k : Nat) (v : Word64), a.view = .priv → m < s.core.meadows → bit v.toNat 22 = false →
    Runs (.convCfgWrite a m k v) s fun c =>
      c.getF (aConv m k + 0x18) 0 16 = v.toNat % 2 ^ 16 ∧ c.convWin m k = ConvWin.empty ∧
      c.getF (aConv m k + 0x18) 16 6 = (if 10 ≤ v.toNat / 2 ^ 16 % 64 ∧ v.toNat / 2 ^ 16 % 64 ≤ 40 then v.toNat / 2 ^ 16 % 64
        else s.core.getF (aConv m k + 0x18) 16 6) ∧ OnlyReg s.core c (aConv m k + 0x18)) ∧
  (∀ (s : State) (a : Access) (m k : Nat), a.view = .priv → m < s.core.meadows → (∀ x ∈ s.core.fab.convNow, x.conv ≠ m * 32 + k) →
    Runs (.convClr a m k) s fun c =>
      c.rd (aConv m k) = 0 ∧ c.rd (aConv m k + 8) = 0 ∧ c.rd (aConv m k + 16) = 0 ∧ c.convWin m k = ConvWin.empty)

/-- A section switch to a slot (R64, R89) waits for its count; at its count it takes effect where the slot is of the running set and
loaded in every meadow, halts the region with kind 0x3 where it is not of the set, and leaves the section where the slot is not loaded.
The end of a slot's reload in one meadow (R57, R87, R88): the slot is loaded there and no longer loading, and the contexts with an
uncorrectable word are known. -/
def Sys2Proof.Stated.SectionsSwitch : Prop :=
  (∀ (s : State) (g slot count : Nat), g < 8 → s.core.rgnLive g = true → (∀ e ∈ (s.core.rgn g).pendSect, (s.core.rgn g).sched < e.2) →
    (count ≤ (s.core.rgn g).sched → slot / 4 = b2n (s.core.rgn g).set → s.core.loadingIn g slot = [] → s.core.unloadedIn g slot = [] →
      Runs (.sectionSwitch g ⟨slot, count⟩) s fun c => c.rgn g = { s.core.rgn g with sect := slot % 4 } ∧ c.regs = s.core.regs) ∧
    (count ≤ (s.core.rgn g).sched → slot / 4 = b2n (s.core.rgn g).set → s.core.loadingIn g slot = [] → s.core.unloadedIn g slot ≠ [] →
      Runs (.sectionSwitch g ⟨slot, count⟩) s fun c => c.rgn g = s.core.rgn g) ∧
    (count ≤ (s.core.rgn g).sched → slot / 4 ≠ b2n (s.core.rgn g).set →
      Runs (.sectionSwitch g ⟨slot, count⟩) s fun c =>
        (c.rgn g).phase = .halted ∧ (c.rgn g).faultKind = 3 ∧ (c.rgn g).sect = (s.core.rgn g).sect) ∧
    ((s.core.rgn g).sched < count → Runs (.sectionSwitch g ⟨slot, count⟩) s fun c =>
      c.rgn g = { s.core.rgn g with pendSect := (s.core.rgn g).pendSect ++ [(slot, count)] } ∧ c.regs = s.core.regs)) ∧
  (∀ (s : State) (m slot : Nat) (bad : List Nat) (l : Loaded), m * 8 + slot ∈ s.core.fab.loading →
    (s.core.rgn (s.core.rgnOf m)).bin (4 ≤ slot) = some l → (s.core.rgn (s.core.rgnOf m)).pendSect = [] →
    RunsDev (.slotReloadDone m ⟨slot, bad⟩) s fun _ c =>
      m * 8 + slot ∈ c.fab.loaded ∧ m * 8 + slot ∉ c.fab.loading ∧ ∀ n ∈ bad, cellMeadow n = m → n * 8 + slot ∈ c.fab.ctxBad)

/-- Meadow registers are written, and sections switch. Clauses may rest on log entries 40 and 88, which are the model's own. -/
def Obligations.MeadowsAreSetUp : Prop := Stated.MeadowRegisters ∧ Stated.SectionsSwitch

/-- BINARY_LOAD (R160): a binary that fails a check changes nothing but the completion that reports the code of the first; an accepted
standing binary stands in its region's set with its digest ids (R341), and a task binary is reported only.
Clauses may rest on log entries 14 and 15, which are the model's own. -/
def Obligations.BinaryLoads : Prop :=
  ∀ (s : State) (b : Binary),
    let task := b.report.region = 0xF && !b.report.standing
    let k := s.core.loadCode (if task then 0xF else b.report.region % 8) b
    (k ≠ 0 ∨ task = true → RunsDev (.binaryLoad b) s fun m c => m = s.mem ∧ c = s.core.emit (.load b.report.region k)) ∧
    (k = 0 → task = false → (s.core.rgn b.report.region).bins.length = 2 →
      RunsDev (.binaryLoad b) s fun _ c =>
        (c.rgn b.report.region).bin b.report.set = some (s.core.loadedOf b) ∧
        (c.rgn b.report.region).phase = (s.core.rgn b.report.region).phase ∧
        c.out = s.core.out ++ [.load b.report.region 0])

/-! ### The time unit -/

/-- Device time's correction (R179 to R182, R190): an increment in range is taken and one out of range refused; a slew whose
increment stays in range starts; device time, which takes the pair at the next time-unit cycle, and the tick period are written while nothing is launched or armed; the loss and the
return of REFCLK_TIME show in TIME_STAT. Clauses may rest on log entries 9 and 73, which are the model's own. -/
def Obligations.TimeIsSteered : Prop :=
  (∀ (s : State) (a : Access) (v : Word64), a.view = .priv →
    (incrOk ((v.toNat % 2 ^ 33 : Nat) : Int) = true → Runs (.timeIncrWrite a v) s fun c =>
      c.getF (pTime + 0xA0) 0 33 = v.toNat % 2 ^ 33 ∧ OnlyReg s.core c (pTime + 0xA0)) ∧
    (incrOk ((v.toNat % 2 ^ 33 : Nat) : Int) = false → Runs (.timeIncrWrite a v) s fun c =>
      c.rd (pTime + 0xA0) = s.core.rd (pTime + 0xA0) ∧ c.getB (pTime + 0x200) 3 = true)) ∧
  (∀ (s : State) (a : Access) (v : Word64), a.view = .priv →
    incrOk ((s.core.getF (pTime + 0xA0) 0 33 : Int) + signed 24 v.toNat) = true →
    Runs (.timeSlewWrite a v) s fun c =>
      c.clk.slewLeft = v.toNat / 2 ^ 24 % 2 ^ 32 ∧ c.getF (pTime + 0x208) 0 24 = v.toNat % 2 ^ 24 ∧
      c.getB aTStat 4 = decide (v.toNat / 2 ^ 24 % 2 ^ 32 ≠ 0)) ∧
  (∀ s : State, s.core.clk.slewLeft = 0 → Runs .slewEnd s fun c => c.getB aTStat 4 = false ∧ OnlyReg s.core c aTStat) ∧
  (∀ s : State, s.core.getB aTStat 1 = false →
    Runs .holdover s fun c => c.getB aTStat 1 = true ∧ c.getB aTStat 0 = false ∧ c.getB (pTime + 0x38) 8 = true) ∧
  (∀ s : State, s.core.getB aTStat 1 = true →
    Runs .refclkTimeReturn s fun c => c.getB aTStat 1 = false ∧ c.getB aTStat 0 = true ∧ OnlyReg s.core c aTStat) ∧
  (∀ (s : State) (a : Access) (v : Word64), a.view = .priv →
    (s.core.timeFree = true → pairOk v.toNat = true → Runs (.timeNowSet a v) s fun c =>
      c.clk.setAt = some (pairN v.toNat (s.core.heldHi (pTime + 0x98)) * 2 ^ 16) ∧ c.clk.acc = s.core.clk.acc ∧ c.regs = s.core.regs) ∧
    (s.core.timeFree = false ∨ pairOk v.toNat = false → Runs (.timeNowSet a v) s fun c =>
      c.clk = s.core.clk ∧ c.getB (pTime + 0x200) 3 = true) ∧
    (s.core.timeFree = true → Runs (.tickPeriodWrite a v) s fun c =>
      c.tickP = 2 ^ (v.toNat % 4) ∧ OnlyReg s.core c (pTime + 0xC0)) ∧
    (s.core.timeFree = false → Runs (.tickPeriodWrite a v) s fun c => c.tickP = s.core.tickP ∧ c.getB (pTime + 0x200) 3 = true))

/-- FORD_DELAY, VALLEY_EPOCH and LAUNCH_AT (R197, R200 to R203): a delay of 0 or of 12 to 1,000 ns is taken at once by a quiet region
and kept pending by another; the epoch is set while nothing is armed by valley count; a count to come arms a launch, zero disarms,
a count that has passed is missed; at its count a launchable region runs from its first tick with tags and schedule from zero, and one that
TIME_BAR_CTRL names (R206) is only disarmed.
Clauses may rest on log entry 72, which is the model's own. -/
def Obligations.LaunchesAndDelays : Prop :=
  (∀ (s : State) (a : Access) (g : Nat) (v : Word64), a.view = .priv → g < 8 →
    let d := v.toNat % 1024
    let r := pTime + 0x140 + 8 * g
    (d = 0 ∨ 12 ≤ d → d ≤ 1000 → (s.core.rgn g).quiet = true → Runs (.fordDelayWrite a g v) s fun c =>
      c.getF r 16 11 = d ∧ c.getF r 0 10 = d ∧ c.getB r 10 = false ∧ OnlyReg s.core c r) ∧
    (d = 0 ∨ 12 ≤ d → d ≤ 1000 → (s.core.rgn g).quiet = false → Runs (.fordDelayWrite a g v) s fun c =>
      c.getF r 16 11 = s.core.getF r 16 11 ∧ c.getF r 0 10 = d ∧ c.getB r 10 = true ∧ OnlyReg s.core c r) ∧
    ((1 ≤ d ∧ d ≤ 11) ∨ 1000 < d → Runs (.fordDelayWrite a g v) s fun c => c.rd r = s.core.rd r ∧ c.getB (pTime + 0x200) 3 = true)) ∧
  (∀ (s : State) (a : Access) (v : Word64), a.view = .priv → s.core.pins.launchArmed = [] → s.core.key.pub = none →
    s.core.key.pubArmed = [] → s.core.sec.armedAt = none → s.core.pwr.arm = none → v.toNat % 2 ^ 16 = 0 → pairOk v.toNat = true →
    Runs (.valleyEpochWrite a v) s fun c =>
      c.epoch = s.core.heldHi (pTime + 0x628) % 2 ^ 48 * 10 ^ 9 + v.toNat / 2 ^ 16 % 2 ^ 30) ∧
  (∀ (s : State) (a : Access) (g : Nat) (v : Word64), a.view = .priv → g < 8 →
    (v.toNat = 0 → Runs (.launchAtWrite a g v) s fun c => g ∉ c.pins.launchArmed ∧ c.rd (pTime + 0x100 + 8 * g) = 0) ∧
    (s.core.valley < v.toNat → Runs (.launchAtWrite a g v) s fun c =>
      g ∈ c.pins.launchArmed ∧ c.rd (pTime + 0x100 + 8 * g) = v.toNat) ∧
    (v.toNat ≠ 0 → v.toNat ≤ s.core.valley → Runs (.launchAtWrite a g v) s fun c =>
      c.pins = s.core.pins ∧ c.getB aTStat 2 = true ∧ c.getB (pTime + 0x38) 9 = true)) ∧
  (∀ (s : State) (g : Nat), g ∈ s.core.pins.launchArmed → s.core.valleyDue (s.core.rd (pTime + 0x100 + 8 * g)) = true →
    (s.core.barNames g = true → Runs (.launch g) s fun c =>
      g ∉ c.pins.launchArmed ∧ c.rgns = s.core.rgns ∧ c.regs = s.core.regs) ∧
    (s.core.barNames g = false → s.core.launchable g = true → Runs (.launch g) s fun c =>
      g ∉ c.pins.launchArmed ∧ (c.rgn g).phase = .running ∧ (c.rgn g).sched = 0 ∧ (c.rgn g).admitted = 0 ∧ (c.rgn g).iters = [] ∧
      (c.rgn g).firstTick = s.core.launchTick g ∧
      (c.rgn g).g0 = nsN (s.core.epoch + s.core.rd (pTime + 0x100 + 8 * g)) ∧ ∀ h, h ≠ g → c.rgn h = s.core.rgn h) ∧
    (s.core.barNames g = false → s.core.launchable g = false → Runs (.launch g) s fun c =>
      g ∉ c.pins.launchArmed ∧ c.rgns = s.core.rgns ∧ c.getB aTStat 2 = true))

/-- The TIN pins (R187, R209): an edge that has held its level for 4 ns changes the level, and where TIN_CFG selects it, it enters
the FIFO of 16 with its time, to an eighth of a time-unit cycle; a shorter pulse is counted; a read of TIN_TS_LO takes the oldest entry and latches its seconds. -/
def Sys2Proof.Stated.TinPins : Prop :=
  (∀ (s : State) (i phi : Nat) (level : Bool) (held : Nat), Store.get s.core.pins.tin false i ≠ level → s.core.getB (aTin i) 0 = true →
    (32 ≤ held → edgeWanted (s.core.getF (aTin i) 1 2) level = true →
      (Store.get s.core.pins.tinFifo [] i).length < 16 →
      Runs (.tinEdge i phi level held) s fun c =>
        Store.get c.pins.tin false i = level ∧
        Store.get c.pins.tinFifo [] i = Store.get s.core.pins.tinFifo [] i ++
          [⟨adjust (s.core.at_ (phi / 2 ^ 13 * 2 ^ 13)) (signed 32 (s.core.getF (aTin i) 32 32)), b2n level, s.core.pins.tinOvf.contains i⟩]) ∧
    (held < 32 → s.core.frozenAt (pTime + 0x5E0 + 8 * i) = false → Runs (.tinEdge i phi level held) s fun c =>
      c.pins = s.core.pins ∧ c.rd (pTime + 0x5E0 + 8 * i) = (s.core.rd (pTime + 0x5E0 + 8 * i) + 1) % 2 ^ 48)) ∧
  (∀ (s : State) (i : Nat) (e : Stamp) (t : List Stamp), Store.get s.core.pins.tinFifo [] i = e :: t →
    Runs (.tinTsPop i) s fun c =>
      Store.get c.pins.tinFifo [] i = t ∧ c.regs = s.core.regs ∧
      (Store.get c.latched 0 (pTime + 0x5A8 + 0x10 * i)).toNat =
        (timeHi e.n + 2 ^ 48 + e.info % 2 * 2 ^ 49 + b2n e.ovf * 2 ^ 50) % 2 ^ 64)

/-- The TOUT outputs (R189): a width of at least 2 ns arms an output for its start, a shorter one is refused; an edge whose instant has
come is put out and the output leaves the level that POL names for its width. -/
def Sys2Proof.Stated.ToutPins : Prop :=
  (∀ (s : State) (a : Access) (j : Nat) (v : Word64), a.view = .priv → j < 4 →
    let w := v.toNat / 8 % 2 ^ 32
    let start := pairN (s.core.rd (aTout j)) (s.core.rd (aTout j + 8))
    (2 ≤ w → v.toNat % 4 = 1 → s.core.now ≤ start / 2 ^ 13 * 2 ^ 13 → Runs (.toutArm a j v) s fun c =>
      (c.tout j).mode = 1 ∧ (c.tout j).width = w ∧ (c.tout j).start = start ∧ (c.tout j).next = 0 ∧ c.getF (aTout j + 0x18) 3 32 = w) ∧
    (w < 2 → Runs (.toutArm a j v) s fun c => c.pins = s.core.pins ∧ c.getB (pTime + 0x200) 3 = true)) ∧
  (∀ (s : State) (j : Nat), (s.core.tout j).mode ≠ 0 → (s.core.tout j).edgeAt (s.core.tout j).next ≤ s.core.now →
    Runs (.toutEdge j) s fun c =>
      c.out = s.core.out ++ [.edge j (!s.core.getB (aTout j + 0x18) 2) ((s.core.tout j).edgeAt (s.core.tout j).next)] ∧
      (c.tout j).level = (!s.core.getB (aTout j + 0x18) 2) ∧
      (c.tout j).next = (s.core.tout j).next + 1 ∧
      (c.tout j).pulseEnd = some ((s.core.tout j).edgeAt (s.core.tout j).next + nsN (s.core.tout j).width)) ∧
  (∀ (s : State) (j e : Nat), (s.core.tout j).pulseEnd = some e → e ≤ s.core.now →
    Runs (.toutPulseEnd j) s fun c =>
      c.out = s.core.out ++ [.edge j (s.core.getB (aTout j + 0x18) 2) e] ∧ (c.tout j).level = s.core.getB (aTout j + 0x18) 2 ∧ (c.tout j).pulseEnd = none)

/-- The time pins: TIN edges are stamped, TOUT outputs drive their edges.
Clauses may rest on log entries 34 and 73, which are the model's own. -/
def Obligations.TimePinsWork : Prop := Stated.TinPins ∧ Stated.ToutPins

/-- Time markers (R205) and PTP transmission (R208, R209): a lane in Time mode that is UP sends its first marker with its instant and
sequence number, and takes a sound marker's receive time and sequence; a frame of the control complex leaves on a free port, a
two-step one with its departure timestamp in the FIFO; a read of TIME_TXTS_LO takes the oldest timestamp.
Clauses may rest on log entries 16, 28 and 34, which are the model's own. -/
def Obligations.MarkersAndPtp : Prop :=
  (∀ (s : State) (l phi : Nat), s.core.laneMode l = 2 → s.core.laneState l = 3 → (s.core.lane l).mkT1 = none →
    let n := adjust (s.core.at_ phi) (signed 32 (s.core.getF (pTime + 0x240 + 8 * l) 32 32))
    let b := toLe 10 (s.core.valleyForm n) ++ toLe 10 (s.core.lane l).mkRx ++
      [BitVec.ofNat 8 ((s.core.lane l).mkSeq % 256), BitVec.ofNat 8 (s.core.lane l).mkRseq]
    Runs (.timeMarkerSend l phi) s fun c =>
      c.out = s.core.out ++ [.lane l (kMarker :: (b ++ [crc8 b]))] ∧ (c.lane l).mkT1 = some (s.core.valleyForm n) ∧
      (c.lane l).mkSeq = ((s.core.lane l).mkSeq + 1) % 256) ∧
  (∀ (s : State) (l phi : Nat) (rx : LaneChars), l < 16 → s.core.laneMode l = 2 → s.core.laneState l = 3 → rx.viol = 0 →
    rx.chars.length = 23 → rx.chars.drop 22 = [crc8 (rx.chars.take 22)] →
    let t4 := s.core.valleyForm (adjust (s.core.at_ phi) (signed 32 (s.core.getF (pTime + 0x240 + 8 * l) 0 32)))
    Runs (.timeMarkerReceive l phi rx) s fun c =>
      (c.lane l).mkRx = t4 % 2 ^ 80 ∧ (c.lane l).mkRseq = fld rx.chars 20 1 ∧
      ∀ t1, (s.core.lane l).mkT1 = some t1 → fld rx.chars 21 1 = ((s.core.lane l).mkSeq + 255) % 256 →
        c.rd (pTime + 0x300 + 0x20 * l) = t1 % 2 ^ 64 ∧ c.rd (pTime + 0x318 + 0x20 * l) = t4 % 2 ^ 64) ∧
  (∀ (s : State) (lp phi kind rx o : Nat) (b : List Byte), s.core.portFree lp = true →
    let t := adjust (s.core.at_ phi + nsN 32) (signed 32 (s.core.getF (pTime + 0x210) 32 32))
    let b' := if kind = 0 then addCorrection o (t % 2 ^ 16) (splice b (o + 34) (toBe 6 (timeHi t) ++ toBe 4 (t / 2 ^ 16 % 10 ^ 9)))
      else if kind = 1 then addCorrection o (unsigned 64 ((t : Int) - rx)) b else b
    Runs (.ptpTransmit lp phi kind none rx o b) s fun c =>
      c.out = s.core.out ++ [.frame lp (b' ++ fcsBytes false b') false t] ∧
      (kind = 2 → s.core.pins.txts.length < 16 →
        c.pins.txts = s.core.pins.txts ++ [⟨t, beNat (slice b (o + 30) 2) + lp * 2 ^ 16, s.core.pins.txtsOvf⟩])) ∧
  (∀ (s : State) (e : Stamp) (t : List Stamp), s.core.pins.txts = e :: t →
    Runs .txtsPop s fun c => c.pins.txts = t ∧ c.regs = s.core.regs ∧
      (Store.get c.latched 0 (pTime + 0x220)).toNat = timeHi e.n)

/-- The barrier (R206): arming sets its registers and waits for the lanes named; a K28.3 from a downstream lane is noted; one on a
follower's uplink releases, to launch HOLD fc later; at that cycle every launchable region named runs.
Clauses may rest on log entry 73, which is the model's own. -/
def Obligations.BarrierLaunches : Prop :=
  (∀ (s : State) (a : Access) (v : Word64), a.view = .priv → bit v.toNat 0 = true → s.core.getF aBarStat 0 2 = 0 →
    s.core.getF aBarStat 2 16 = 0 → v.toNat / 2 % 2 ^ 16 ≠ 0 →
    Runs (.barrierArm a v) s fun c =>
      c.getB aBar 0 = true ∧ c.getF aBar 1 16 = v.toNat / 2 % 2 ^ 16 ∧ c.getF aBar 18 16 = v.toNat / 2 ^ 18 % 2 ^ 16 ∧
      c.getF aBar 34 8 = v.toNat / 2 ^ 34 % 2 ^ 8 ∧ c.getF aBarStat 0 2 = 1 ∧ c.out = s.core.out) ∧
  (∀ (s : State) (l : Nat), l < 16 → 2 ≤ s.core.laneState l → s.core.getB aBar 17 = true → s.core.getB aBar (1 + l) = true →
    Runs (.barrierTokenReceive l) s fun c => c.getB aBarStat (2 + l) = true) ∧
  (∀ (s : State) (l : Nat), 2 ≤ s.core.laneState l → s.core.getB aBar 17 = false → l = s.core.getF (pTime + 0x230) 5 4 →
    (s.core.getF aBarStat 0 2 = 1 ∨ s.core.getF aBarStat 0 2 = 2) →
    Runs (.barrierTokenReceive l) s fun c =>
      c.getF aBarStat 0 2 = 3 ∧ c.pins.barDue = some (s.core.clk.fc + s.core.getF aBar 18 16)) ∧
  (∀ (s : State) (d : Nat), s.core.pins.barDue = some d → d ≤ s.core.clk.fc →
    Runs .barrierLaunch s fun c =>
      c.pins.barDue = none ∧ c.getF aBarStat 2 16 = 0 ∧
      ∀ g, bit (s.core.getF aBar 34 8) g = true → g < 8 → s.core.launchable g = true → (c.rgn g).phase = .running ∧ (c.rgn g).sched = 0)

/-! ### The key stage's commands, swaps, save and restore, replay -/

/-- KEY_CFG and the exact-match slots (R252, R275): a new owner is taken only while the old and the new are idle or drained; a slot
write with its tick ahead and none pending is staged, one without is rejected; a slot read copies 16 bytes; the staged write takes
effect at its tick, and PENDING clears once no earlier event is left to look up.
Clauses may rest on log entry 40, which is the model's own. -/
def Obligations.KeyConfigAndSlots : Prop :=
  (∀ (s : State) (a : Access) (v : Word64), a.view = .priv →
    let free := (s.core.rgn (s.core.getF (pKey + 0x80) 0 3)).quiet && (s.core.rgn (v.toNat % 8)).quiet
    Runs (.keyCfgWrite a v) s fun c =>
      (free = true → c.getF (pKey + 0x80) 0 3 = v.toNat % 8 ∧ c.getB (pKey + 0x80) 3 = bit v.toNat 3 ∧
        OnlyReg s.core c (pKey + 0x80)) ∧ (free = false → c = s.core)) ∧
  (∀ (s : State) (a : Access) (v : Word64), a.view = .priv →
    let t := s.core.rd (pKey + 0xC0)
    (∀ x, s.core.slotAddr (setBits v.toNat 25 2 1) = some x → s.core.key.slotPend = none → s.core.lead200 t = true →
      Runs (.slotWrite a v) s fun c =>
        c.key.slotPend = some ⟨x, s.mem.read x 16, s.core.stagedSlot, t, false⟩ ∧ c.getB (pKey + 0xD0) 0 = true ∧
        OnlyReg s.core c (pKey + 0xD0)) ∧
    (s.core.slotAddr (setBits v.toNat 25 2 1) = none ∨ s.core.key.slotPend.isSome = true ∨ s.core.lead200 t = false →
      Runs (.slotWrite a v) s fun c => c.key = s.core.key ∧ c.getB (pKey + 0xD0) 1 = true) ∧
    (∀ x, s.core.slotAddr (setBits v.toNat 25 2 2) = some x → Runs (.slotRead a v) s fun c =>
      c.rd (pKey + 0xB0) = fld (s.mem.read x 16) 0 8 ∧ c.rd (pKey + 0xB8) = fld (s.mem.read x 16) 8 4 ∧ c.key = s.core.key)) ∧
  (∀ (s : State) (p : SlotPend), s.core.key.slotPend = some p → p.done = false → s.core.tickBegun p.tick = true →
    RunsDev .slotChangeEffect s fun m c =>
      m.read p.addr p.new.length = p.new ∧ (∀ b, b < p.addr ∨ p.addr + p.new.length ≤ b → m.byte b = s.mem.byte b) ∧
      (s.core.eventBefore p.tick = false → c.key.slotPend = none ∧ c.getB (pKey + 0xD0) 0 = false) ∧
      (s.core.eventBefore p.tick = true → c.key.slotPend = some { p with done := true } ∧ c.regs = s.core.regs))

/-- Ring commands (R270, R271, R290): a READ of a quiet owner's ring puts its committed bytes into the buffer and ends with RESULT
OK; of a running owner's it waits, and is BUSY after 10 µs; WRITE puts the buffer into the ring and ZERO_ALL zeroes every ring, both
only while the owner is not running, and both leave no queued write behind.
Clauses may rest on log entries 12 and 51, which are the model's own. -/
def Obligations.RingCommands : Prop :=
  (∀ (s : State) (a : Access) (v : Word64) (k : KeyMap) (j l : Nat), a.view = .priv → Sound s →
    s.core.getB (pKey + 0xA0) 0 = false → s.core.keyMap = some k →
    let base := kmRingAt k j l
    let buf := s.core.rd (pKey + 0x98)
    let n := kmStride k / 64
    (ringNamed k (setBits v.toNat 28 2 1) = some (j, l) → s.core.ringBufOk true = true → s.core.ownerBusy = false →
      RunsDev (.ringRead a v) s fun m c =>
        m.read buf (kmRingSize k) = (s.core.committedRing s.mem base n).take (kmRingSize k) ∧
        (∀ b, b < buf ∨ buf + kmRingSize k ≤ b → m.byte b = s.mem.byte b) ∧ c.rd (pKey + 0xA0) = 0 ∧ c.key.ring = none) ∧
    (ringNamed k (setBits v.toNat 28 2 1) = some (j, l) → s.core.ringBufOk true = true → s.core.ownerBusy = true →
      RunsDev (.ringRead a v) s fun m c =>
        m = s.mem ∧ c.key.ring = some ⟨1, base, buf, s.core.now⟩ ∧ c.rd (pKey + 0xA0) = 1 ∧ OnlyReg s.core c (pKey + 0xA0)) ∧
    (ringNamed k (setBits v.toNat 28 2 2) = some (j, l) → s.core.ringBufOk false = true → s.core.ownerBusy = false →
      RunsDev (.ringWrite a v) s fun m c =>
        m.read base (kmRingSize k) = s.mem.read buf (kmRingSize k) ∧
        (∀ b, b < base ∨ base + kmRingSize k ≤ b → m.byte b = s.mem.byte b) ∧ c.rd (pKey + 0xA0) = 1 ∧
        ∀ w ∈ c.fab.vwrites, ¬(base ≤ w.addr ∧ w.addr < base + 64 * n)) ∧
    (s.core.ownerBusy = false → RunsDev (.zeroAll a v) s fun m c =>
      (∀ b, inArea k b = true → m.byte b = 0) ∧ (∀ b, inArea k b = false → m.byte b = s.mem.byte b) ∧
      c.rd (pKey + 0xA0) = 1 ∧ ∀ w ∈ c.fab.vwrites, inArea k w.addr = false) ∧
    (s.core.ownerBusy = true →
      (RunsDev (.ringWrite a v) s fun m c => m = s.mem ∧ c.rd (pKey + 0xA0) = 4) ∧
      RunsDev (.zeroAll a v) s fun m c => m = s.mem ∧ c.rd (pKey + 0xA0) = 4)) ∧
  (∀ (s : State) (r : RingCmd) (k : KeyMap), s.core.key.ring = some r → r.op = 1 → s.core.keyMap = some k →
    s.core.ownerBusy = false → RunsDev .ringReadCopy s fun m c =>
      m.read r.buf (kmRingSize k) = (s.core.committedRing s.mem r.ring (kmStride k / 64)).take (kmRingSize k) ∧
      (∀ b, b < r.buf ∨ r.buf + kmRingSize k ≤ b → m.byte b = s.mem.byte b) ∧ c.key.ring = none ∧ c.rd (pKey + 0xA0) = 0) ∧
  (∀ (s : State) (r : RingCmd), s.core.key.ring = some r →
    (r.op = 1 → r.since + nsN 10000 ≤ s.core.now → Runs .ringReadBusy s fun c =>
      c.key.ring = none ∧ c.rd (pKey + 0xA0) = 2 ∧ OnlyReg s.core c (pKey + 0xA0)) ∧
    (r.op ≠ 1 → Runs .ringCommandDone s fun c =>
      c.key.ring = none ∧ c.rd (pKey + 0xA0) = 0 ∧ OnlyReg s.core c (pKey + 0xA0)))

/-- Snapshots (R273, R274, R325): at its tick the copy begins, with the bank then shown, and KEY_SNAP_STAT reads COPYING; once every line is saved the image
stands at its destination behind a header that carries its digest, and KEY_SNAP_STAT reads DONE.
Clauses may rest on log entries 52 and 55, which are the model's own. -/
def Obligations.SnapshotsCopy : Prop :=
  (∀ (s : State) (x : Snap), s.core.key.snap = some x → x.copying = false → s.core.tickBegun x.tick = true →
    Runs .snapshotTick s fun c =>
      (let b := s.core.activeBank (x.tick - 1)
      c.key = { s.core.key with snap := some { x with copying := true, bank := b, flip := s.core.rd (pKey + 0xE8 + 8 * b) } }) ∧
      c.rd (pKey + 0x100) = 2 ∧
      OnlyReg s.core c (pKey + 0x100)) ∧
  (∀ (s : State) (x : Snap) (k : KeyMap), s.core.key.snap = some x → s.core.keyMap = some k → x.copying = true →
    s.core.snapSettled x = true →
    let n := 2 ^ 20 * kmStride k
    let g := s.core.getF (pKey + 0x80) 0 3
    let prog := (((s.core.rgn g).bin ((s.core.rgn g).setFor x.tick)).map (·.prog)).getD 0
    RunsDev .snapshotDone s fun m c =>
      c.key.snap = none ∧ c.rd (pKey + 0x100) = 3 ∧
      (∀ b, x.dst + 64 ≤ b → m.byte b = (snapImage s.mem s.core x k).byte b) ∧
      m.read x.dst 64 = snapHeader x k prog (crc64 ((snapImage s.mem s.core x k).read (x.dst + 64) n)))

/-- Configuration swaps (R296 to R299, R301): an arm that meets R296 is armed with the kind of each region decided, another one shows
REJ and changes no region; at the tick a halted region fails, a seamless one turns to its other set for events of the tick and later,
another holds them, one whose drained swap is still under way after it; when the old set has finished, the region enters slot 0 of the new one with the staged images written.
Clauses may rest on log entries 14 and 75, which are the model's own. -/
def Obligations.SwapsTakeEffect : Prop :=
  (∀ (s : State) (a : Access) (v : Word64), a.view = .priv →
    let t := s.core.rd (pTime + 0xB0)
    let sl := toMask ((maskBits 8 (v.toNat % 256)).filter s.core.seamless)
    (s.core.swapOk t (v.toNat % 256) = true → Runs (.swapArm a v) s fun c =>
      c.swapArmed = some (t, v.toNat % 256, sl) ∧ c.getF aSwap 0 8 = v.toNat % 256 ∧ c.getB aSwap 9 = true ∧
      c.getF aSwap 16 8 = sl % 256 ∧ c.getF aSwap 24 8 = 0 ∧ OnlyReg s.core c aSwap) ∧
    (s.core.swapOk t (v.toNat % 256) = false → Runs (.swapArm a v) s fun c =>
      c.swapArmed = s.core.swapArmed ∧ c.rgns = s.core.rgns ∧ c.getB aSwap 10 = true)) ∧
  (∀ (s : State) (t mask sl : Nat), s.core.swapArmed = some (t, mask, sl) → s.core.tickBegun t = true →
    Runs .swapTick s fun c =>
      c.swapArmed = none ∧ c.getB aSwap 9 = false ∧
      ∀ g, g < 8 →
        let r := s.core.rgn g
        (bit mask g = false → c.rgn g = r) ∧
        (bit mask g = true → r.phase = .halted → c.rgn g = r ∧ c.getB aSwap (24 + g) = true) ∧
        (bit mask g = true → r.phase ≠ .halted → r.swapHold = none → bit sl g = true →
          c.rgn g = { r with set := !r.set, setFrom := some (t, r.set) }) ∧
        (bit mask g = true → r.phase ≠ .halted → r.swapHold = none → bit sl g = false → c.rgn g = { r with swapHold := some t }) ∧
        (bit mask g = true → r.phase ≠ .halted → r.swapHold.isSome = true → c.rgn g = { r with swapNext := some t })) ∧
  (∀ (s : State) (g t : Nat), (s.core.rgn g).swapHold = some t → s.core.swapDrained g t = true →
    let r := s.core.rgn g
    RunsDev (.swapDrainDone g) s fun m c =>
      c.rgn g = { r with set := !r.set, sect := 0, swapHold := r.swapNext, swapNext := none, setFrom := some (t, r.set), heldAt := s.core.now } ∧
      (∀ h, h ≠ g → c.rgn h = s.core.rgn h) ∧ c.regs = s.core.regs ∧
      (∀ act sh, r.bin r.set = some act → r.bin (!r.set) = some sh → m = loadStaged s.mem act sh) ∧
      (r.bin r.set = none ∨ r.bin (!r.set) = none → m = s.mem))

/-- Save and restore (R346, R347, R353): a SAVE of a drained region writes its header and contents, and nothing outside; one in another
state ends with RESULT STATE; a RESTORE into an idle region of the image's binary leaves it drained at the image's set and count; and
SAVE_RESTORE_DONE shows the RESULT. -/
def Sys2Proof.Stated.SavesAndRestores : Prop :=
  (∀ (s : State) (a : Access) (md g : Nat) (v : Word64), a.view = .priv → s.core.anchored md = some g →
    s.core.getB (aSave g + 8) 0 = false →
    let r := s.core.rgn g
    let x := v.toNat % 2 ^ 48
    (∀ l, r.bin r.set = some l → r.phase = .drained → s.core.swapIsArmed = false → x % 4096 = 0 →
      let body := saveBytes (s.core.ringMap g) (s.core.saveOf s.mem g l)
      RunsDev (.save a md v) s fun m c =>
        c.rgns = s.core.rgns ∧
        (s.core.inLpm x (64 + body.length) = true →
          m.read x 64 = saveHeader g r l (64 + body.length) ∧ m.read (x + 64) body.length = body ∧
          (∀ b, b < x ∨ x + 64 + body.length ≤ b → m.byte b = s.mem.byte b) ∧ c.rd (aSave g + 8) = 1) ∧
        (s.core.inLpm x (64 + body.length) = false → m = s.mem ∧ c.rd (aSave g + 8) = 6)) ∧
    (r.phase ≠ .drained → RunsDev (.save a md v) s fun m c => m = s.mem ∧ c.rd (aSave g + 8) = 2) ∧
    (∀ l, let h := s.mem.read x 64
      r.phase = .idle → x % 4096 = 0 → s.core.inLpm x 64 = true → fld h 0 4 = 0x72766173 → fld h 4 1 = g → fld h 5 1 ≤ 1 →
      64 ≤ fld h 56 8 → s.core.inLpm x (fld h 56 8) = true → r.bin (fld h 5 1 = 1) = some l → fld h 8 8 = l.prog.toNat →
      fld h 16 8 = l.wgt.toNat →
      RunsDev (.restore a md v) s fun m c =>
        (∀ q, q ≠ g → c.rgn q = s.core.rgn q) ∧
        match saveBody l (s.mem.read (x + 64) (fld h 56 8 - 64)) with
        | none => m = s.mem ∧ c.rgns = s.core.rgns ∧ c.rd (aSave g + 8) = 4
        | some b => b.rings = [] →
          m.bytes = (b.mem.foldl (fun m e => m.store e.1 e.2) s.mem).bytes ∧ c.rd (aSave g + 8) = 1 ∧ (c.rgn g).phase = .drained ∧
          (c.rgn g).set = bit (fld h 5 1) 0 ∧ (c.rgn g).admitted = fld h 32 8 ∧
          (c.rgn g).cursor = some (fld h 40 8, fld h 48 4) ∧ (c.rgn g).bins = r.bins ∧
          (c.rgn g).g0 = unwrap (s.core.now - nsN r.delta) (fld h 24 8) + nsN r.delta) ∧
    (r.phase ≠ .idle → RunsDev (.restore a md v) s fun m c => m = s.mem ∧ c.rgns = s.core.rgns ∧ c.rd (aSave g + 8) = 2)) ∧
  (∀ (s : State) (g op result : Nat), (s.core.saving.find? fun e => e.1 = g) = some (g, op, result) →
    Runs (.saveRestoreDone g) s fun c =>
      c.rd (aSave g + 8) = 2 * result % 2 ^ 64 ∧ c.saving = Store.erase s.core.saving g ∧ OnlyReg s.core c (aSave g + 8))

/-- Digest records (R343, R344): FLUSH puts the record of the open window of a meadow's DIGEST cell into its FIFO, behind those of earlier
cycles, and the window goes on; a read of MDW_DIG_REC[0] takes the oldest record and holds its other words. -/
def Sys2Proof.Stated.DigestRecords : Prop :=
  (∀ (s : State) (a : Access) (m : Nat) (v : Word64) (cell slot : Nat) (x : StrCtx), a.view = .priv →
    s.core.digestCells m = [(cell, slot, x)] →
    let w := Store.get s.core.fab.digs DigWin.fresh (cell * 8 + slot)
    w.count ≠ 0 → Store.get s.core.fab.digNow 0 m = 0 → (Store.get s.core.fab.digFifo [] m).length < 64 →
    Runs (.flush a m v) s fun c =>
      Store.get c.fab.digFifo [] m = Store.get s.core.fab.digFifo [] m ++ [digRecord cell (4 ≤ slot) x.layer true w] ∧
      c.fab.digs = s.core.fab.digs ∧ c.regs = s.core.regs) ∧
  (∀ (s : State) (m : Nat) (r : List Byte) (t : List (List Byte)), Store.get s.core.fab.digFifo [] m = r :: t →
    Runs (.digestRecordPop m) s fun c =>
      Store.get c.fab.digFifo [] m = t ∧ c.regs = s.core.regs ∧
      ∀ i, 1 ≤ i → i ≤ 3 → (Store.get c.latched 0 (pMdw m + 0x170 + 8 * i)).toNat = fld r (8 * i) 8)

/-- Regions are saved and restored, and digest records are made, popped and flushed.
Clauses may rest on log entries 13, 33 and 34, which are the model's own. -/
def Obligations.SavesAndDigests : Prop := Stated.SavesAndRestores ∧ Stated.DigestRecords

/-- Replay (R349 to R352, R354): EN starts the reader at the first record and turns the named quiet regions to the file with the offset
DELTA; STOP halts it and gives quiet regions back; a record that is due is presented and POS moves on; the last one ends it with DONE;
a kind or an order the manual does not allow stops it with ORDER_ERR. -/
def Obligations.ReplayRuns : Prop :=
  (∀ (s : State) (a : Access) (v : Word64), a.view = .priv →
    ((∀ g, g < 8 → (bit v.toNat g = true ∨ bit (s.core.rd aRplCtrl) g = true) → (s.core.rgn g).quiet = true) →
      bit v.toNat 9 = false → s.core.getB aRplStat 0 = false →
      Runs (.replayStart a v) s fun c =>
        c.getF aRplCtrl 0 8 = v.toNat % 256 ∧ c.getB aRplStat 0 = true ∧ c.getF aRplStat 32 32 = 0 ∧
        ∀ g, g < 8 → bit v.toNat g = true → c.rgn g = (s.core.rgn g).offset (s.core.rd (pSep + 0x158))) ∧
    (bit v.toNat 8 = false → (∀ g, g < 8 → (s.core.rgn g).quiet = true) →
      Runs (.replayStop a v) s fun c =>
        c.getB aRplStat 0 = false ∧ c.getB aRplCtrl 9 = false ∧ ∀ g, g < 8 → (c.rgn g).replay = false)) ∧
  (∀ s : State, s.core.getB aRplStat 0 = true →
    let pos := s.core.getF aRplStat 32 32
    let at_ := s.core.rd (pSep + 0x148) + 80 * pos
    let d := s.core.rd (pSep + 0x158)
    let r := s.mem.read at_ 80
    let near := s.core.now - nsN d
    let n := unwrap near (recTs r)
    let ordered := pos = 0 ∨ lexLe (s.core.recKey near (s.mem.read (at_ - 80) 80)) (s.core.recKey near r) = true
    (s.core.rd (pSep + 0x150) ≤ pos → Runs .replayRecordPresent s fun c => c.getB aRplStat 1 = true ∧ c.getB aRplStat 0 = false) ∧
    (pos < s.core.rd (pSep + 0x150) → (fld r 0 1 ≠ 1 ∧ fld r 0 1 ≠ 2) ∨ ¬ordered →
      Runs .replayRecordPresent s fun c => c.getB aRplStat 2 = true ∧ c.getB aRplStat 0 = false) ∧
    (pos < s.core.rd (pSep + 0x150) → fld r 0 1 = 1 ∨ fld r 0 1 = 2 → ordered →
      nsN (aSrc (recSrc r)) + n + nsN d ≤ s.core.now →
      Runs .replayRecordPresent s fun c =>
        c.getF aRplStat 32 32 = (pos + 1) % 2 ^ 32 ∧
        (s.core.rd (pSep + 0x150) = pos + 1 → c.getB aRplStat 1 = true ∧ c.getB aRplStat 0 = false)))

/-! ### Capture and the sequencer -/

/-- What makes an arc fire for an observation (R391, R392): a match unit, or a counter that the observation brought to its limit. -/
def Sys2Proof.Stated.arcFires (k : Cap) (reached : List Bool) (o : Obs) (n : Nat) : Bool :=
  if n < 16 then k.matches_ n o else if n < 20 then reached.getD (n - 16) false else false

/-- The state that the two arcs of the current state lead to under a condition (R391). -/
def Sys2Proof.Stated.arcState (k : Cap) (fires : Nat → Bool) : Nat :=
  let a0 := slice k.image (640 + 16 * k.seqState) 8
  let a1 := slice k.image (648 + 16 * k.seqState) 8
  if fires (fld a0 0 1) then fld a0 1 1 else if fires (fld a1 0 1) then fld a1 1 1 else k.seqState

/-- Arming and stopping capture (R386): an arm that meets every condition holds the image for its tick, another one shows REJ and
leaves the state; at the tick channels and sequencer start afresh; STOP ends them at the first tick that starts at least 200 ns later.
Clauses may rest on log entries 39 and 57, which are the model's own. -/
def Obligations.CaptureArmsAndStops : Prop :=
  (∀ (s : State) (a : Access) (v : Word64), a.view = .priv →
    let x := v.toNat % 2 ^ 48
    let t := s.core.rd (pCap + 0x90)
    let ok := s.core.en pCap && (s.core.cap.state = 0 || s.core.cap.state = 3) && s.core.lead200 t && x % 64 = 0 &&
      s.core.mapped false x 1024 && !badImage (s.core.getF (pCap + 0x80) 0 16) (s.mem.read x 1024)
    Runs (.captureArmWrite a v) s fun c =>
      (ok = true → c.cap = { s.core.cap with armed := some (t, s.mem.read x 1024) } ∧ c.getF (pCap + 0x88) 0 48 = x ∧
        OnlyReg s.core c (pCap + 0x88)) ∧
      (ok = false → c.cap = s.core.cap ∧ c.getB (pCap + 0xA0) 10 = true)) ∧
  (∀ (s : State) (t : Nat) (i : List Byte), s.core.cap.armed = some (t, i) → s.core.tickBegun t = true →
    Runs .captureArmEffect s fun c =>
      c.cap = { Cap.idle with image := i, since := t, running := true, pulses := s.core.cap.pulses } ∧ c.regs = s.core.regs) ∧
  (∀ (s : State) (a : Access) (v : Word64), a.view = .priv →
    Runs (.stop a v) s fun c => ∃ t, c.cap = { s.core.cap with stopTick := some t } ∧ c.regs = s.core.regs ∧
      s.core.now + nsN 200 ≤ t * nsN s.core.tickP ∧ ∀ u, u < t → u * nsN s.core.tickP < s.core.now + nsN 200) ∧
  (∀ (s : State) (t : Nat), s.core.cap.stopTick = some t → s.core.tickBegun t = true →
    Runs .captureStopEffect s fun c => c.cap.state = 0 ∧ c.cap.running = false ∧ c.cap.capQ = [] ∧ c.cap.seqQ = [] ∧
      c.cap.seqState = s.core.cap.seqState ∧ c.cap.counters = s.core.cap.counters ∧ c.regs = s.core.regs)

/-- The sequencer (R389 to R396): an observation counts, and outside a hold-off the first arc of the state that fires sets the next
state, in a hold-off none does; more than 65,536 waiting observations halt it; a timer's expiry clears the timer and may fire an arc; a
hold-off ends at its tick; a pulse ends at its instant. Clauses may rest on log entry 57, which is the model's own. -/
def Obligations.SequencerSteps : Prop :=
  (∀ s : State, s.core.cap.running = true → s.core.cap.halted = false →
    let k := s.core.cap
    (∀ o, (k.seqQ.filter s.core.isFinal).length ≤ 65536 → s.core.merged true k.seqQ = some o →
      (∀ t i, k.nextTimed = some (t, i) → o.tick < t) →
      RunsDev .sequencerStep s fun m c =>
        m = s.mem ∧ c.cap.seqQ = (if c.cap.halted then [] else k.seqQ.erase o) ∧
        (k.holding = none → c.cap.seqState = arcState k (arcFires (k.count o).1 (k.count o).2 o)) ∧
        (k.holding ≠ none → c.cap.seqState = k.seqState ∧ c.cap.counters = (k.count o).1.counters)) ∧
    (65536 < (k.seqQ.filter s.core.isFinal).length → RunsDev .sequencerStep s fun _ c =>
      c.cap.halted = true ∧ c.cap.seqQ = [] ∧ c.cap.stopped = true ∧ (k.stopped = false → c.cap.reason = 3))) ∧
  (∀ (s : State) (n t : Nat), n < 4 → s.core.timedDue n = some t →
    Runs (.timerExpiry n) s fun c =>
      (s.core.cap.holding ≠ none → c = { s.core with cap := { s.core.cap with timers := s.core.cap.timers.set n none } }) ∧
      (s.core.cap.holding = none → c.cap.seqState = arcState s.core.cap fun i => i = 0x14 + n)) ∧
  (∀ (s : State) (t : Nat), s.core.timedDue 4 = some t →
    Runs .holdoffEnd s fun c => c = { s.core with cap := { s.core.cap with holding := none } }) ∧
  (∀ (s : State) (j t : Nat), (s.core.cap.pulses.find? fun e => e.1 = j) = some (j, t) → t ≤ s.core.now →
    Runs (.trigOutPulseEnd j) s fun c =>
      c.cap.pulses = Store.erase s.core.cap.pulses j ∧ c.getB (pCap + 0x148) j = false ∧
      (s.core.getB (pCap + 0x148) j = true → c.out = s.core.out ++ [.edge (4 + j) (s.core.cap.ball j false) t]))

/-- Records and trigger pins (R380 to R385, R397, R398): the next record of the merge goes into the pail at the write pointer, a WINDOW
record outside every window is left out, one that does not fit stops capture, and so does a full merge buffer; an edge that has held
its level for FILT ns changes the level, and where EVT is set sends its event; a shorter one is counted; a pin stuck for STUCK_US shows
STUCK. Clauses may rest on log entry 57, which is the model's own. -/
def Obligations.RecordsAndTriggerPins : Prop :=
  (∀ s : State, s.core.cap.running = true → s.core.cap.stopped = false →
    let k := s.core.cap
    let full := decide (2 ^ 23 < (k.capQ.map fun (o : Obs) => 32 + ceilDiv (k.cut o o.data).length 32 * 32).sum)
    (full = true → RunsDev .captureRecordWrite s fun _ c => c.cap.stopped = true ∧ c.cap.reason = 2 ∧ c.cap.capQ = []) ∧
    (∀ o, full = false → s.core.merged false k.capQ = some o → s.core.seqPassed (o.tick + k.pre + 1) = true →
      let win := k.mode o.kind = 2 && o.kind ≠ 9 && o.kind ≠ 10
      let r := s.core.markRecord o win
      ((win && !k.inWindow o.tick) = true → RunsDev .captureRecordWrite s fun m c =>
        m = s.mem ∧ c = { s.core with cap := { k with capQ := k.capQ.erase o } }) ∧
      ((win && !k.inWindow o.tick) = false → s.core.pailFits r.length = false → RunsDev .captureRecordWrite s fun _ c =>
        c.cap.stopped = true ∧ c.cap.reason = 1) ∧
      ((win && !k.inWindow o.tick) = false → s.core.pailFits r.length = true → RunsDev .captureRecordWrite s fun m c =>
        let p := s.core.padFor s.core.pailWr r.length
        let x := if p = 0 then s.core.pailWr else 0
        c.cap.capQ = k.capQ.erase o ∧ c.cap.recNo = (k.recNo + 1) % 2 ^ 32 ∧
        c.pailWr = (if s.core.pailSize ≤ x + r.length then 0 else x + r.length) % 2 ^ 64 ∧
        (s.core.mapped false (s.core.pailBase + x) r.length = true → m.read (s.core.pailBase + x) r.length = r) ∧
        (p = 0 → ∀ b, b < s.core.pailBase + x ∨ s.core.pailBase + x + r.length ≤ b → m.byte b = s.mem.byte b)))) ∧
  (∀ (s : State) (i phi held : Nat) (level : Bool), i < 8 → s.core.getB aTrigStat i ≠ level → s.core.getB (aTrig i) 0 = true →
    let n := adjust (s.core.at_ (phi / 2 ^ 16 * 2 ^ 16)) (signed 32 (s.core.getF (aTrig i) 32 32))
    (s.core.getF (aTrig i) 5 4 ≤ held → Runs (.trigInEdge i phi level held) s fun c =>
      c.getB aTrigStat i = level ∧ Store.get c.pins.trigSince 0 i = s.core.now ∧
      (edgeWanted (s.core.getF (aTrig i) 1 2) level = true → s.core.getB (aTrig i) 3 = true →
        ∃ e, c.sep.inbox = s.core.sep.inbox ++ [e] ∧ e.src = 24 + i ∧ e.n = n ∧ e.tick = s.core.tickAt n ∧
          e.regions = s.core.fedBy (24 + i) (s.core.tickAt n))) ∧
    (2 ≤ held → held < s.core.getF (aTrig i) 5 4 → s.core.frozenAt (pCap + 0x180 + 8 * i) = false →
      Runs (.trigInEdge i phi level held) s fun c =>
        c.rd (pCap + 0x180 + 8 * i) = (s.core.rd (pCap + 0x180 + 8 * i) + 1) % 2 ^ 48 ∧ OnlyReg s.core c (pCap + 0x180 + 8 * i))) ∧
  (∀ (s : State) (i : Nat), i < 8 →
    let us := s.core.getF (aTrig i) 16 16
    us ≠ 0 → s.core.getB aTrigStat i ≠ s.core.getB (aTrig i) 4 → s.core.getB aTrigStat (8 + i) = false →
    Store.get s.core.pins.trigSince 0 i + nsN (1000 * us) ≤ s.core.now →
    Runs (.stuck i) s fun c => c.getB aTrigStat (8 + i) = true ∧ c.getB (pCap + 0x38) 9 = true)

/-! ### Tasks -/

/-- Entry `e` is the task that the rounds dispatch next, of kind `k` (R310). -/
def Sys2Proof.Stated.Next (s : State) (e k : Nat) : Prop :=
  (∃ q n, s.core.nextTask s.mem = some (e, q, n)) ∧ dKind (s.core.taskAt e).desc = k

/-- Entry `e` runs from now on, and its work has ended with a status and code, or goes on. -/
def Sys2Proof.Stated.Dispatched (s : State) (c : Core) (e : Nat) (fin : Option Nat) (code : Nat) : Prop :=
  (c.taskAt e).st = .running ∧ (c.taskAt e).start = s.core.now ∧ (c.taskAt e).desc = (s.core.taskAt e).desc ∧
  (c.taskAt e).finish = fin ∧ (c.taskAt e).code = code

/-- Submission (R305 to R309): the doorbell moves the tail; the next descriptor is rejected with its code, which changes no entry, or
accepted: its entry is READY without an open predecessor, WAITING with one, and CANCELLED at once where one ended badly.
Clauses may rest on log entry 54, which is the model's own. -/
def Obligations.TasksAreSubmitted : Prop :=
  (∀ (s : State) (a : Access) (v : Word64), a.view = .priv → s.core.service = true →
    Runs (.taskDoorbell a v) s fun c => c.getF (pTask + 0x90) 0 12 = v.toNat % 2 ^ 12 ∧ OnlyReg s.core c (pTask + 0x90)) ∧
  (∀ s : State, s.core.taskOn = true →
    let size := 2 ^ s.core.getF (pTask + 0x88) 48 4
    let head := s.core.getF (pTask + 0x98) 0 12 % size
    let d := s.mem.read (s.core.getF (pTask + 0x88) 0 48 + 64 * head) 64
    head ≠ s.core.getF (pTask + 0x90) 0 12 % size →
    let left := (dPreds d).filter fun p => (s.core.taskAt p.1).st ≠ .done
    let bad := (dPreds d).any fun p => (s.core.taskAt p.1).st = .done && (s.core.taskAt p.1).status ≠ 0
    RunsDev .taskTake s fun _ c =>
      c.getF (pTask + 0x98) 0 12 = (head + 1) % size % 2 ^ 12 ∧
      (s.core.rejectCode d ≠ 0 → c.task.table = s.core.task.table) ∧
      (s.core.rejectCode d = 0 →
        let t := c.taskAt (dEntry d)
        t.desc = d ∧ t.gen = dGen d ∧ t.seq = s.core.task.nextSeq ∧ c.task.nextSeq = s.core.task.nextSeq + 1 ∧
        (left ≠ [] → t.st = .waiting) ∧ (left = [] → bad = false ∨ dTolerate d = true → t.st = .ready) ∧
        (left = [] → bad = true → dTolerate d = false → t.st = .done ∧ t.status = stCancelled)))

/-- MOVE, PUBLISH and the publication's instant (R267 to R269, R319 to R323): a MOVE in range copies its bytes by its completion, one out of range
or into a protected place moves nothing; a publication whose bank is free writes it and awaits its flip, another waits; at the instant of V a
written one flips with its tick and is logged FLIPPED, one not written is missed.
Clauses may rest on log entries 55 and 90, which are the model's own. -/
def Obligations.MovesAndPublications : Prop :=
  (∀ (s : State) (e : Nat), Sound s → Next s e 2 →
    let d := (s.core.taskAt e).desc
    let src := fld d 32 8
    let dst := fld d 40 8
    let n := fld d 48 8
    let inRange := n % 64 = 0 ∧ n ≤ 2 ^ 36 ∧ s.core.moveOk src n = true ∧ s.core.moveOk dst n = true ∧ overlaps src n dst n = false
    (¬inRange → RunsDev (.move e) s fun m c => m = s.mem ∧ Dispatched s c e (some stRange) 0) ∧
    (inRange → n ≠ 0 → s.core.moveShut dst n = true → RunsDev (.move e) s fun m c => m = s.mem ∧ Dispatched s c e (some stProtect) 0) ∧
    (inRange → n = 0 ∨ s.core.moveShut dst n = false → RunsDev (.move e) s fun m c =>
      m = s.mem ∧ Dispatched s c e (s.core.taskAt e).finish (s.core.taskAt e).code)) ∧
  (∀ (s : State) (e : Nat), Sound s → (s.core.taskAt e).st = .running → dKind (s.core.taskAt e).desc = 2 →
    (s.core.taskAt e).finish = none → s.core.task.waiting = [] → (∀ x, s.core.flt.slice ≠ some (x, some e)) →
    let d := (s.core.taskAt e).desc
    let src := fld d 32 8
    let dst := fld d 40 8
    let ring := s.core.getF (pTask + 0xA0) 0 48
    RunsDev (.taskComplete e) s fun m c =>
      (c.taskAt e).st = .done ∧ (c.taskAt e).status = stOk ∧
      ∀ b, b < ring ∨ ring + 32 * 4096 ≤ b →
        m.byte b = if dst ≤ b ∧ b < dst + fld d 48 8 then s.mem.byte (src + (b - dst)) else s.mem.byte b) ∧
  (∀ (s : State) (e : Nat) (k : KeyMap), Next s e 3 → s.core.keyMap = some k →
    let d := (s.core.taskAt e).desc
    let v := fld d 32 8
    let src := fld d 40 8
    let first := fld d 48 4 % 2 ^ 20
    let n := fld d 52 4
    let w := 8 * k.pubWords
    let b := s.core.pubTarget
    let at_ := fun i : Nat => kmRingAt k (homeOf (kmVaults k).length (first + i)).1 (homeOf (kmVaults k).length (first + i)).2 + kmBankOff k b
    (n = 0 ∨ 2 ^ 20 < first + n → RunsDev (.publish e) s fun m c => m = s.mem ∧ Dispatched s c e (some stRange) 0) ∧
    (n ≠ 0 → first + n ≤ 2 ^ 20 → k.pubWords ≠ 0 → src % 8 = 0 → s.core.mapped false src (n * 8 * k.pubWords) = true →
      (v < s.core.task.plogV → RunsDev (.publish e) s fun m c => m = s.mem ∧ Dispatched s c e (some stOrder) 0) ∧
      (s.core.task.plogV ≤ v → s.core.valleyDue v = false → s.core.pubFree b = false → RunsDev (.publish e) s fun m c =>
        m = s.mem ∧ Dispatched s c e (s.core.taskAt e).finish (s.core.taskAt e).code ∧
        c.key.pub = some ⟨e, v, s.core.tickOf v, b, first, n, 0, BitVec.ofNat 64 (fld d 24 8), fld d 4 2, false⟩) ∧
      (s.core.task.plogV ≤ v → s.core.valleyDue v = false → s.core.pubFree b = true →
        (∀ i j, i < j → j < n → at_ i + w ≤ at_ j ∨ at_ j + w ≤ at_ i) → RunsDev (.publish e) s fun m c =>
        (∀ i, i < n → m.read (at_ i) w = s.mem.read (src + i * w) w) ∧
        (∀ x, (∀ i, i < n → x < at_ i ∨ at_ i + w ≤ x) → m.byte x = s.mem.byte x) ∧
        c.key.pub = none ∧ c.key.pubArmed.map (fun p => (p.v, p.tick, p.bank, p.written)) = [(v, s.core.tickOf v, b, true)]))) ∧
  (∀ (s : State) (p : Pub), s.core.pubDue = some p → p.bank < 2 →
    let x := s.core.getF (pTask + 0xB0) 0 48 + 64 * s.core.plogTail
    RunsDev .publicationFlip s fun m c =>
      (p.written = true → c.rd (pKey + 0xE8 + 8 * p.bank) = p.tick % 2 ^ 64 ∧ c.key.recent = p.bank ∧
        c.key.pubArmed = s.core.key.pubArmed.erase p ∧ (s.core.mapped false x 64 = true → fld (m.read x 64) 25 1 = 0)) ∧
      (p.written = false → c.rd (pKey + 0xE8 + 8 * p.bank) = s.core.rd (pKey + 0xE8 + 8 * p.bank) ∧ c.key.pub = none ∧
        (c.taskAt p.task).finish = some stMissed ∧ (s.core.mapped false x 64 = true → fld (m.read x 64) 25 1 = 1)))

/-- SECTION (R314 to R316, R415): a task whose BIN is not mapped ends with RANGE, one whose binary the loader refuses with its code; an accepted one holds its meadows and loads the slots
of its first sections; at the end of a section its meadows go on to the next one, and the last one ends the task.
Clauses may rest on log entries 14, 53 and 79, which are the model's own. -/
def Obligations.SectionsRun : Prop :=
  (∀ (s : State) (e : Nat), Next s e 1 →
    let d := (s.core.taskAt e).desc
    let first := fld d 40 2
    let last := fld d 42 2
    let n := 64 * fld d 44 2
    let inp := fld d 48 8
    let out := fld d 56 8
    (s.core.binMapped d = false → RunsDev (.section_ e) s fun m c => m = s.mem ∧ Dispatched s c e (some stRange) 0) ∧
    (s.core.binMapped d = true → RunsDev (.section_ e) s fun _ c =>
      match binAt s.mem d with
      | none => Dispatched s c e (some stRefused) 1
      | some b =>
        let fresh := b.report.meadows.any fun x => Store.get s.core.task.lastBins 0 x ≠ progDigest b
        let code := if fresh then s.core.loadCode 0xF b else 0
        (last < first ∨ b.report.sections ≤ last ∨ n = 0 → Dispatched s c e (some stRefused) 6) ∧
        (first ≤ last → last < b.report.sections → n ≠ 0 → inp % 8 = 0 → out % 8 = 0 → s.core.mapped false inp n = true →
          s.core.mapped false out n = true → s.core.protected out n = false →
          (code ≠ 0 → Dispatched s c e (some stRefused) code) ∧
          (code = 0 → (c.taskAt e).st = .running ∧ (c.taskAt e).sect = first ∧ (c.taskAt e).fed = 0 ∧
            (∀ x ∈ b.report.meadows, (x, e) ∈ c.task.holders) ∧ (c.rgn (16 + e)).bin b.report.set = some (s.core.loadedOf b) ∧
            ∀ x ∈ b.report.meadows, ∀ i, i < min 4 (last + 1 - first) → x * 8 + slotOf b.report.set i ∈ c.fab.loading)))) ∧
  (∀ (s : State) (e : Nat), s.core.sectionOver e = true →
    let t := s.core.taskAt e
    Runs (.sectionEnd e) s fun c =>
      (t.sect = fld t.desc 42 2 → c.taskAt e = { t with finish := some stOk, code := 0 }) ∧
      (t.sect ≠ fld t.desc 42 2 → c.taskAt e = { t with sect := t.sect + 1, fed := 0, outs := 0 }))

/-- The other kinds (R324 to R326): SWAP loads and arms, SNAPSHOT waits for its tick, CAPTURE_ARM arms capture, SELFTEST holds its meadows
and starts its first slice, FENCE waits, and NOTE has no work.
Clauses may rest on log entries 53 and 64, which are the model's own. -/
def Obligations.OtherTasksRun : Prop :=
  (∀ (s : State) (e : Nat), Next s e 4 →
    let d := (s.core.taskAt e).desc
    (s.core.binMapped d = false → RunsDev (.swap e) s fun m c => m = s.mem ∧ Dispatched s c e (some stRange) 0) ∧
    (s.core.binMapped d = true → RunsDev (.swap e) s fun m c =>
      match binAt s.mem d with
      | none => m = s.mem ∧ Dispatched s c e (some stRefused) 1
      | some b =>
        let g := b.report.region
        (s.core.loadCode (g % 8) b ≠ 0 → m = s.mem ∧ Dispatched s c e (some stRefused) (s.core.loadCode (g % 8) b)) ∧
        (s.core.loadCode (g % 8) b = 0 → g ≠ fld d 40 1 → m = s.mem ∧ Dispatched s c e (some stRefused) 4) ∧
        (s.core.loadCode (g % 8) b = 0 → g = fld d 40 1 → (s.core.rgn g).bins.length = 2 →
          (c.rgn g).bin b.report.set = some (s.core.loadedOf b) ∧
          (bit (fld d 41 1) 0 = false → Dispatched s c e (some stOk) 0 ∧ c.swapArmed = s.core.swapArmed) ∧
          (bit (fld d 41 1) 0 = true →
            (Dispatched s c e (some stOk) 0 ∧ ∃ sl, c.swapArmed = some (fld d 48 8, fld d 56 1, sl)) ∨
            (Dispatched s c e (some stState) 0 ∧ c.swapArmed = s.core.swapArmed ∧ c.getB aSwap 10 = true))))) ∧
  (∀ (s : State) (e : Nat), Next s e 5 →
    let d := (s.core.taskAt e).desc
    let t := fld d 32 8
    let dst := fld d 40 8
    (s.core.keyMap = none → RunsDev (.snapshot e) s fun m c => m = s.mem ∧ Dispatched s c e (some stState) 0) ∧
    (∀ k, s.core.keyMap = some k → dst % 4096 = 0 → lpmBase ≤ dst → s.core.mapped false dst (64 + 2 ^ 20 * kmStride k) = true →
      (s.core.lead200 t = true → RunsDev (.snapshot e) s fun m c =>
        m = s.mem ∧ Dispatched s c e (s.core.taskAt e).finish (s.core.taskAt e).code ∧
        c.key.snap = some { tick := t, dst := dst, task := e, copying := false, bank := 0, flip := 0, saved := [], undo := [] } ∧ c.rd (pKey + 0x100) = 1 ∧ c.rd (pKey + 0x108) = t) ∧
      (s.core.lead200 t = false → RunsDev (.snapshot e) s fun m c => m = s.mem ∧ Dispatched s c e (some stState) 0))) ∧
  (∀ (s : State) (e : Nat), Next s e 6 →
    let d := (s.core.taskAt e).desc
    RunsDev (.captureArm e) s fun m c => m = s.mem ∧
      (s.core.capArm s.mem (fld d 32 8) (fld d 40 8) ≠ none → Dispatched s c e (some stOk) 0 ∧
        c.cap.armed = some (fld d 40 8, s.mem.read (fld d 32 8) 1024)) ∧
      (s.core.mapped false (fld d 32 8) 1024 = false → Dispatched s c e (some stRange) 0 ∧ c.cap = s.core.cap) ∧
      (s.core.mapped false (fld d 32 8) 1024 = true → s.core.capArm s.mem (fld d 32 8) (fld d 40 8) = none →
        Dispatched s c e (some stState) 0 ∧ c.cap = s.core.cap ∧
        c.getB (pCap + 0xA0) 10 = true)) ∧
  (∀ (s : State) (e : Nat), Next s e 7 →
    let ms := maskBits 128 (fld (s.core.taskAt e).desc 32 16)
    ((∃ x ∈ ms, s.core.meadows ≤ x) → RunsDev (.selftest e) s fun _ c => Dispatched s c e (some stRange) 0) ∧
    ((∀ x ∈ ms, x < s.core.meadows) → s.core.sliceOk = false → RunsDev (.selftest e) s fun _ c => Dispatched s c e (some stState) 0) ∧
    (∀ x rest, ms = x :: rest → (∀ y ∈ ms, y < s.core.meadows) → s.core.sliceOk = true → s.core.flt.slice = none →
      (s.core.taskAt e).finish = none → RunsDev (.selftest e) s fun m c =>
        m = s.mem ∧ (c.taskAt e).st = .running ∧ c.flt.slice = some (x, some e) ∧ (∀ y ∈ ms, (y, e) ∈ c.task.holders) ∧
        c.getF (pFlt + 0xA8) 0 7 = x ∧ c.getB (pFlt + 0xA8) 7 = true)) ∧
  (∀ (s : State) (e : Nat), Next s e 8 → RunsDev (.fence e) s fun m c =>
    m = s.mem ∧ c.regs = s.core.regs ∧ Dispatched s c e (s.core.taskAt e).finish (s.core.taskAt e).code) ∧
  (∀ (s : State) (e : Nat), Next s e 9 → RunsDev (.note e) s fun m c =>
    m = s.mem ∧ c.regs = s.core.regs ∧ Dispatched s c e (some stOk) 0)

/-- Ends of tasks (R317, R326 to R328): a RUNNING task whose work has ended is DONE with its status, and a FENCE once every task accepted
before it is; an abort ends a task that has not run, and a MOVE, with ABORTED; RELEASE takes the halted meadows of a task that no longer runs
to idle, also when its entry has taken another. Clauses may rest on log entry 79, which is the model's own. -/
def Obligations.TasksEnd : Prop :=
  (∀ (s : State) (e : Nat), (s.core.taskAt e).st = .running → (∀ x, s.core.flt.slice ≠ some (x, some e)) →
    let t := s.core.taskAt e
    (∀ st, t.finish = some st → RunsDev (.taskComplete e) s fun _ c =>
      (c.taskAt e).st = .done ∧ (c.taskAt e).status = st ∧ (c.taskAt e).code = t.code ∧ (c.taskAt e).finish = none) ∧
    (t.finish = none → dKind t.desc = 8 → s.core.fenceOpen t = true → RunsDev (.taskComplete e) s fun _ c =>
      (c.taskAt e).st = .done ∧ (c.taskAt e).status = stOk) ∧
    (t.finish = none → dKind t.desc = 8 → s.core.fenceOpen t = false → RunsDev (.taskComplete e) s fun m c =>
      m = s.mem ∧ c = s.core)) ∧
  (∀ (s : State) (a : Access) (v : Word64), a.view = .priv → s.core.service = true →
    let e := v.toNat % 4096
    let t := s.core.taskAt e
    t.gen = v.toNat / 4096 % 16 →
    (t.st = .waiting ∨ t.st = .ready ∨ (t.st = .running ∧ dKind t.desc = 2 ∧ t.finish = none) → RunsDev (.abort a v) s fun _ c =>
      (c.taskAt e).st = .done ∧ (c.taskAt e).status = stAborted) ∧
    (t.st = .free ∨ t.st = .done → RunsDev (.abort a v) s fun m c => m = s.mem ∧ c.task = s.core.task)) ∧
  (∀ (s : State) (a : Access) (v : Word64), a.view = .priv → s.core.service = true →
    let e := v.toNat % 4096
    let r := s.core.rgn (16 + e)
    r.phase = .halted → r.g0 = v.toNat / 4096 % 16 →
    ((s.core.taskAt e).st = .running → (s.core.taskAt e).gen ≠ v.toNat / 4096 % 16) →
    RunsDev (.taskRelease a v) s fun m c =>
      m = s.mem ∧ c.rgn (16 + e) = Rgn.idle ∧ c.task.holders = s.core.task.holders.filter (fun h => h.2 ≠ e) ∧
      ∀ f ∈ c.fab.fly, f.rgn ≠ 16 + e)

/-! ### Pass lanes, the vaults and LPDDR6, the census -/

/-- The lanes' states (R359 to R361, R372): PASS_CFG sets MODE and EN, and takes a lane OFF, into HUNT, or leaves its state; a lock takes
HUNT to SYNC; its loss goes back and is counted and shown; the third equal version set in a row decides for UP or REFUSED; another one
starts the count again. -/
def Sys2Proof.Stated.LanesComeUp : Prop :=
  (∀ (s : State) (a : Access) (l : Nat) (v : Word64), a.view = .priv → l < 16 →
    Runs (.passCfgWrite a l v) s fun c =>
      c.getF (aLane l) 0 18 = v.toNat % 2 ^ 18 ∧
      c.laneState l = (if (s.core.en pPass && bit v.toNat 0) = false then 0
        else if s.core.laneState l = 0 ∨ s.core.laneMode l ≠ v.toNat / 2 % 4 then 1 else s.core.laneState l)) ∧
  (∀ (s : State) (l : Nat), l < 16 →
    (s.core.laneState l = 1 → Runs (.laneLocked l) s fun c =>
      c.laneState l = 2 ∧ (c.lane l).adverts = [] ∧ OnlyReg s.core c (aLaneStat l)) ∧
    (2 ≤ s.core.laneState l → Runs (.laneLockLoss l) s fun c =>
      c.laneState l = 1 ∧ c.getB (aLaneStat l) 10 = true ∧ c.getB (pPass + 0x38) (8 + l) = true)) ∧
  (∀ (s : State) (l : Nat) (rx : LaneChars), l < 16 → s.core.laneState l = 2 → rx.viol = 0 → rx.chars.length = 4 →
    rx.chars.drop 3 = [crc8 (rx.chars.take 3)] →
    let adv := splice (rx.chars.take 3) 2 [BitVec.ofNat 8 (fld rx.chars 2 1 % 4)]
    let common := s.core.getF (pPass + 0x80) 0 8 &&& fld adv 0 1
    ((s.core.lane l).adverts.head? = some adv → 2 ≤ (s.core.lane l).adverts.length →
      Runs (.versionSetReceive l rx) s fun c =>
        c.laneState l = (if common ≠ 0 ∧ fld adv 2 1 % 4 = s.core.laneMode l then 3 else 4)) ∧
    ((s.core.lane l).adverts.head? ≠ some adv → Runs (.versionSetReceive l rx) s fun c =>
      c.laneState l = 2 ∧ (c.lane l).adverts = [adv]))

/-- Packets (R362 to R368): a packet on a lane that is UP takes the lane's next number and its instants; a Link packet that is good, next
in sequence and has room is accepted and its payload stands in the receive ring, another one sets NAK; a Stream packet carries its
verdict; an idle set's ACKSEQ frees the packets up to it; a command queues and sends a Link packet, an ill-formed one shows REJ; a
timeout resends all, and after 16 in a row discards them; the first result in device order leaves once its iteration has committed. -/
def Sys2Proof.Stated.PacketsPass : Prop :=
  (∀ (s : State) (l phi : Nat) (chars : List Byte) (bad : List Nat) (viol : Nat) (ended : Bool), l < 16 → s.core.laneState l = 3 →
    let t := adjust (s.core.at_ phi) (signed 32 (s.core.getF (pTime + 0x240 + 8 * l) 0 32))
    (∀ f ∈ s.core.sep.frames, f.src = 8 + l → f.tEnd ≤ t) →
    Runs (.packetStart l phi chars bad viol ended) s fun c =>
      ∃ f, c.sep.frames = s.core.sep.frames ++ [f] ∧ f.src = 8 + l ∧ f.num = Store.get s.core.sep.counts 0 (8 + l) ∧ f.bytes = chars ∧
        f.tStart = t ∧ f.tEnd = t + (fld chars 2 2 + 10) * 2 * 2 ^ 16 / 5 ∧ f.verdict = none ∧
        (s.core.laneMode l = 0 → f.cls = .data ∧ f.regions = s.core.getF (aLane l) 9 8 ∧ f.walkDone = false) ∧
        Store.get c.sep.counts 0 (8 + l) = (Store.get s.core.sep.counts 0 (8 + l) + 1) % 65536) ∧
  (∀ (s : State) (l : Nat) (f : Frame), l < 16 → (s.core.sep.frames.find? fun f => f.src = 8 + l && f.verdict.isNone) = some f →
    f.tEnd ≤ s.core.now →
    let good := packetGood (s.core.laneMode l) f
    let pay := slice f.bytes 4 (fld f.bytes 2 2)
    let next := good && fld f.bytes 1 1 = ((s.core.lane l).rxSeq + 1) % 256 && ceilDiv pay.length 64 ≤ s.core.rxFree l
    (f.cls = .data → RunsDev (.packetVerdict l) s fun m c =>
      m = s.mem ∧ ∀ x ∈ c.sep.frames, x.src = f.src → x.num = f.num → x.verdict = some good) ∧
    (f.cls ≠ .data → s.core.laneMode l = 1 → RunsDev (.packetVerdict l) s fun m c =>
      (next = true → (c.lane l).rxSeq = ((s.core.lane l).rxSeq + 1) % 256 ∧ (c.lane l).nak = false ∧
        (∀ i, i < ceilDiv pay.length 64 →
          let a := s.core.getF (aLane l + 0x10) 0 48 + 64 * ((s.core.getF (aLane l + 0x18) 32 24 + i) % s.core.rxUnits l)
          s.core.mapped true a 64 = true → m.read a ((pay.drop (64 * i)).take 64).length = (pay.drop (64 * i)).take 64)) ∧
      (next = false → m = s.mem ∧ (c.lane l).nak = true ∧ (c.lane l).rxSeq = (s.core.lane l).rxSeq))) ∧
  (∀ (s : State) (l : Nat) (rx : LaneChars) (i : Nat), l < 16 → s.core.laneState l = 3 → s.core.laneMode l = 1 → rx.viol = 0 →
    rx.chars.length = 3 → rx.chars.drop 2 = [crc8 (rx.chars.take 2)] → bit (fld rx.chars 0 1) 1 = false →
    ((s.core.lane l).unacked.findIdx? fun p => p.seq = fld rx.chars 1 1) = some i →
    Runs (.idleSetReceive l rx) s fun c =>
      (c.lane l).unacked = (s.core.lane l).unacked.drop (i + 1) ∧ (c.lane l).resends = 0 ∧ (c.lane l).fault = bit (fld rx.chars 0 1) 0) ∧
  (∀ (s : State) (a : Access) (l : Nat) (v : Word64), a.view = .priv → l < 16 → s.core.laneMode l = 1 → s.core.laneState l ≠ 0 →
    let x := s.core.lane l
    let addr := v.toNat % 2 ^ 48
    let n := v.toNat / 2 ^ 48 % 64
    let ok := 1 ≤ n ∧ n ≤ 32 ∧ addr % 64 = 0 ∧ x.unacked.length < 64 ∧ lpmBase ≤ addr ∧ s.core.mapped true addr (64 * n) = true
    (ok → Runs (.linkTxQueue a l v) s fun c =>
      (c.lane l).unacked = x.unacked ++ [⟨x.txSeq, s.mem.read addr (64 * n), s.core.laneSends l⟩] ∧ (c.lane l).txSeq = (x.txSeq + 1) % 256 ∧
      (s.core.laneSends l = true → c.out = s.core.out ++ [.lane l (packetSymbols 2 x.txSeq (s.mem.read addr (64 * n)))])) ∧
    (¬ok → Runs (.linkTxQueue a l v) s fun c => c.lanes = s.core.lanes ∧ c.getB (aLane l + 0x20) 54 = true)) ∧
  (∀ (s : State) (l : Nat), l < 16 → s.core.laneMode l = 1 → s.core.laneSends l = true →
    let x := s.core.lane l
    x.unacked ≠ [] → x.since + nsN 2000 ≤ s.core.now →
    (x.resends < 16 → Runs (.linkRetryTimeout l) s fun c =>
      c.out = s.core.out ++ x.unacked.map (fun p => .lane l (packetSymbols 2 p.seq p.data)) ∧ (c.lane l).resends = x.resends + 1 ∧
      (c.lane l).unacked = x.unacked.map fun p => { p with sent := true }) ∧
    (16 ≤ x.resends → Runs (.linkRetryTimeout l) s fun c => c.out = s.core.out ∧ (c.lane l).unacked = [] ∧ c.laneState l = 1)) ∧
  (∀ (s : State) (l : Nat) (r : LaneRes), l < 16 → s.core.laneSends l = true → s.core.laneMode l = 0 →
    leastBy (fun (a b : LaneRes) => lexLe a.order b.order) (s.core.lane l).txq = some r →
    s.core.fateOf r.rgn r.tag r.set = .committed →
    Runs (.passStreamTransmit l) s fun c =>
      c.out = s.core.out ++ [.lane l (packetSymbols 1 0 (ofPayload r.payload))] ∧ (c.lane l).txq = (s.core.lane l).txq.erase r)

/-- Pass lanes come up, and packets pass them. Clauses may rest on log entries 39 and 56, which are the model's own. -/
def Obligations.LanesAndPackets : Prop := Stated.LanesComeUp ∧ Stated.PacketsPass

/-- The vaults and LPDDR6 in service (R405 to R408, R410, R412, R417): a sensor above 85 °C asks for the hot class and 1 ms below 82 °C
leaves it; VLT_CFG is set; a refresh entry moves to the next row and, with scrub on, the scrub to its next line, where an uncorrectable
word takes the poison code; the patrol scrub of LPDDR6 does the same; a channel recalibrates at most once in 100 ms. -/
def Sys2Proof.Stated.MemoriesAreServed : Prop :=
  (∀ (s : State) (v : Nat) (t : Int), v < s.core.meadows →
    (1360 < t → Runs (.vaultHotEnter v t) s fun c =>
      v ∈ c.pwr.sensorHot ∧ c.getF (aVlt v) 0 12 = unsigned 12 t ∧ OnlyReg s.core c (aVlt v)) ∧
    (t < 1312 → ∀ t0, (s.core.pwr.coolSince.find? fun e => e.1 = v) = some (v, t0) → t0 + nsN 1000000 ≤ s.core.now →
      Runs (.vaultHotExit v t) s fun c => v ∉ c.pwr.sensorHot ∧ c.getF (aVlt v) 0 12 = unsigned 12 t) ∧
    (t < 1312 → (s.core.pwr.coolSince.find? fun e => e.1 = v) = none →
      Runs (.vaultHotExit v t) s fun c =>
        c.pwr.sensorHot = s.core.pwr.sensorHot ∧ (c.pwr.coolSince.find? fun e => e.1 = v) = some (v, s.core.now))) ∧
  (∀ (s : State) (a : Access) (p : Nat) (v : Word64), a.view = .priv → p < s.core.plains →
    Runs (.hotForceWrite a p v) s fun c => c.getF (aVltCfg p) 0 2 = v.toNat % 4 ∧ OnlyReg s.core c (aVltCfg p)) ∧
  (∀ (s : State) (v : Nat) (fix bad : List Nat), v < s.core.meadows →
    (s.core.clk.vc % 32 = 31 ∨ (s.core.clk.vc % 32 = 15 ∧ s.core.isHot v = true)) →
    Store.get s.core.fab.refresh 0 (1024 + v) ≠ s.core.clk.vc + 1 →
    RunsDev (.refreshEntry v fix bad) s fun m c =>
      m.bytes = s.mem.bytes ∧ Store.get c.fab.refresh 0 v = (Store.get s.core.fab.refresh 0 v + 1) % 65536 ∧
      (s.core.getB (aVltCfg (v / 32)) 0 = false → m = s.mem ∧ c.fab.scrub = s.core.fab.scrub ∧ c.regs = s.core.regs) ∧
      (s.core.getB (aVltCfg (v / 32)) 0 = true →
        Store.get c.fab.scrub 0 v = (Store.get s.core.fab.scrub 0 v + 1) % vaultLines ∧
        ∀ w ∈ bad, w < 8 → m.poisoned
          (aVault v (64 * scrubLine (Store.get s.core.fab.refresh 0 v) (Store.get s.core.fab.scrub 0 v)) + 8 * w) = true)) ∧
  (∀ (s : State) (line : Nat) (fix bad : List Nat), s.core.getB (pLpm + 0x80) 8 = true → s.core.getB (pLpm + 0x80) 2 = true →
    64 * line < s.core.lpmSize →
    RunsDev (.lpddr6PatrolScrub line fix bad) s fun m c =>
      m.bytes = s.mem.bytes ∧ c.fab = s.core.fab ∧ ∀ w ∈ bad, w < 8 → m.poisoned (lpmBase + 64 * line + 8 * w) = true) ∧
  (∀ (s : State) (ch : Nat), ch < 12 → s.core.service = true →
    (∀ t, (s.core.pwr.recal.find? fun e => e.1 = ch) = some (ch, t) → t + nsN 100000000 ≤ s.core.now) →
    Runs (.lpddr6Recalibration ch) s fun c =>
      (c.pwr.recal.find? fun e => e.1 = ch) = some (ch, s.core.now) ∧
      (s.core.frozenAt (aChan ch + 0x10) = false → c.rd (aChan ch + 0x10) = (s.core.rd (aChan ch + 0x10) + 1) % 2 ^ 48))

/-- The census (R470 to R472): a request for a tick at least 200 ns ahead is armed, another one shows REJ; at its tick the copy holds what
the registers read, and event 2 of every page is pending. -/
def Sys2Proof.Stated.CensusIsTaken : Prop :=
  (∀ (s : State) (a : Access) (v : Word64), a.view = .priv →
    (s.core.censusArmed = none → s.core.lead200 v.toNat = true → Runs (.censusRequest a v) s fun c =>
      c.censusArmed = some v.toNat ∧ c.rd 0x90 = v.toNat ∧ c.getB 0x98 1 = false) ∧
    (s.core.censusArmed.isSome = true ∨ s.core.lead200 v.toNat = false → Runs (.censusRequest a v) s fun c =>
      c.censusArmed = s.core.censusArmed ∧ c.census = s.core.census ∧ c.getB 0x98 2 = true)) ∧
  (∀ (s : State) (t : Nat), s.core.censusArmed = some t → s.core.tickBegun t = true →
    Runs .census s fun c =>
      c.censusArmed = none ∧ c.getB 0x98 1 = true ∧
      (∀ p ∈ s.core.pages, c.rd (p + 0x58) = t % 2 ^ 64 ∧ c.getB (p + 0x38) 2 = true) ∧
      (∀ off ∈ blockOffs .dev, off ≠ 0x58 → (Store.get c.census 0 (pDev + off)).toNat = s.core.readReg .priv (pDev + off) % 2 ^ 64))

/-- Vaults and LPDDR6 are served, and a census copies the counters.
Clauses may rest on log entries 47 and 58, which are the model's own. -/
def Obligations.MemoriesAndCensus : Prop := Stated.MemoriesAreServed ∧ Stated.CensusIsTaken

/-! ### Kwanan -/

/-- A sound message of an open session, the next in its sequence, has arrived: `c` is the core after its ACK and number are taken, `y`
the session as it then stands (R426, R429). -/
def Sys2Proof.Stated.Arrived (s : State) (h : KwnHdr) (c : Core) (y : Sess) : Prop :=
  s.core.kwnUp = true ∧ s.core.transportOn h.host = true ∧ c.sess h.session = some y ∧
  ∃ x, s.core.hdrSess h = some x ∧ (s.core.kwnArrive h x).takeSeq h = (true, c)

/-- The session's one answer to the message has left `c` in `d`: its type, the request's number, the next number and ACK (R428, R441). -/
def Sys2Proof.Stated.Answers (c d : Core) (h : KwnHdr) (y : Sess) (type : Nat) (body : List Byte) : Prop :=
  d.out = c.out ++ [.msg h.session type 1 h.seq ((y.txSeq + 1) % 2 ^ 32) y.rxSeq body]

/-- The body of NAK (R442). -/
def Sys2Proof.Stated.nakBody (k : Nat) : List Byte := BitVec.ofNat 8 k :: List.replicate 7 0

/-- Requests (R441 to R446): registers are read in one REG_RESP, and written one after another; a burst that is refused as a whole and a
memory access that R444 refuses are answered NAK with the reason; MEM_READ gives the bytes, as they were before a write of this fc (R56), with their poison map, and where it waits for
a port may answer BUSY instead; MEM_WRITE stores its bytes and no other; SUBMIT puts its descriptors at the tail and moves it; DOORBELL
writes a register without an answer, or is discarded. Clauses may rest on log entries 12, 41, 44 and 45, which are the model's own. -/
def Obligations.RequestsAreAnswered : Prop :=
  ∀ (s : State) (h : KwnHdr) (c : Core) (y : Sess), Arrived s h c y →
    (∀ addr n, (∀ k, c.burstCode y false addr n = some k → y.fits 8 = true → RunsDev (.regRead h addr n) s fun m d =>
        m = s.mem ∧ Answers c d h y 0x41 (nakBody k)) ∧
      (c.burstCode y false addr n = none → y.fits (respBody (c.readBurst h.session addr n).1 []).length = true →
        RunsDev (.regRead h addr n) s fun m d => m = s.mem ∧ Answers c d h y 0x12 (respBody (c.readBurst h.session addr n).1 []))) ∧
    (∀ addr data, (∀ k, c.burstCode y true addr data.length = some k → y.fits 8 = true → RunsDev (.regWrite h addr data) s fun m d =>
        m = s.mem ∧ Answers c d h y 0x41 (nakBody k)) ∧
      (∀ z, c.burstCode y true addr data.length = none →
        (writeBurst h.session data addr s.mem c).2.1.sess h.session = some z → z.fits 8 = true →
        RunsDev (.regWrite h addr data) s fun m d =>
          let w := writeBurst h.session data addr s.mem c
          m = w.1 ∧ d.regs = w.2.1.regs ∧
          (if w.2.2 then Answers w.2.1 d h z 0x41 (nakBody nPriv) else Answers w.2.1 d h z 0x12 (respBody [] [])))) ∧
    (∀ addr n, c.inRom = false →
      (∀ k, c.memCode y addr n = some k → y.fits 8 = true → RunsDev (.memRead h addr n) s fun m d =>
        m = s.mem ∧ Answers c d h y 0x41 (nakBody k)) ∧
      (c.memCode y addr n = none → y.fits 8 = true →
        y.fits (respBody (c.hostRead s.mem addr n) (poisonMap s.mem addr n)).length = true → RunsDev (.memRead h addr n) s fun m d =>
        m = s.mem ∧ (Answers c d h y 0x12 (respBody (c.hostRead s.mem addr n) (poisonMap s.mem addr n)) ∨
          (c.waitsForPort addr n = true ∧ Answers c d h y 0x41 (nakBody nBusy))))) ∧
    (∀ addr data, c.inRom = false → y.fits 8 = true →
      (∀ k, c.memCode y addr data.length = some k → RunsDev (.memWrite h addr data) s fun m d =>
        m = s.mem ∧ Answers c d h y 0x41 (nakBody k)) ∧
      (c.memCode y addr data.length = none → c.protected addr data.length = true → RunsDev (.memWrite h addr data) s fun m d =>
        m = s.mem ∧ Answers c d h y 0x41 (nakBody nProtect)) ∧
      (c.memCode y addr data.length = none → c.protected addr data.length = false → RunsDev (.memWrite h addr data) s fun m d =>
        m.read addr data.length = data ∧ (∀ b, b < addr ∨ addr + data.length ≤ b → m.byte b = s.mem.byte b) ∧
        Answers c d h y 0x12 (respBody [] []))) ∧
    (∀ ds : List (List Byte), c.inRom = false → y.role = .privileged → y.fits 8 = true → c.service = true → ds ≠ [] → ds.length ≤ 64 →
      (∀ d ∈ ds, d.length = 64) →
      let size := 2 ^ c.getF (pTask + 0x88) 48 4
      let base := c.getF (pTask + 0x88) 0 48
      let tail := c.getF (pTask + 0x90) 0 12 % size
      let used := (tail + size - c.getF (pTask + 0x98) 0 12 % size) % size
      (used + ds.length < size → c.mapped false base (64 * size) = true → c.protected base (64 * size) = false →
        RunsDev (.submit h ds) s fun m d =>
          (∀ i, i < ds.length → m.read (base + 64 * ((tail + i) % size)) 64 = ds.getD i []) ∧
          d.getF (pTask + 0x90) 0 12 = (tail + ds.length) % size % 2 ^ 12 ∧ Answers c d h y 0x12 (respBody [] [])) ∧
      (size ≤ used + ds.length → RunsDev (.submit h ds) s fun m d => m = s.mem ∧ Answers c d h y 0x41 (nakBody nFull))) ∧
    (∀ addr v, c.inRom = false →
      (y.role = .privileged → doorbellAt addr = true → RunsDev (.doorbell h addr v) s fun m d =>
        (m, d) = writeReg s.mem c ⟨.priv, .session h.session⟩ addr v.toNat) ∧
      (y.role ≠ .privileged ∨ doorbellAt addr = false → RunsDev (.doorbell h addr v) s fun m d =>
        m = s.mem ∧ d.out = c.out ∧ (c.frozenAt (pCtl + 0xB0) = false → d.rd (pCtl + 0xB0) = (c.rd (pCtl + 0xB0) + 1) % 2 ^ 48)))

/-- Sessions (R429 to R440, R450): an OPEN that no rule refuses takes the least free id with a new epoch and is acknowledged, and one
without a common version is answered NOVER; a candidate whose response verifies takes privilege from who had it, and the fourth failure
closes the session; an ACK frees the messages it covers; a timeout resends all, and the 32nd in a row closes; 16 messages, or 8 µs, are
acknowledged; an idle session, and one that KWN_CTRL names, closes; capture's bytes go to its consumer while they fit.
Clauses may rest on log entries 15, 59 and 60, which are the model's own. -/
def Obligations.SessionsLive : Prop :=
  (∀ (s : State) (h : KwnHdr) (b : OpenBody), s.core.kwnUp = true → s.core.transportOn h.host = true → h.wellFormed = true →
    (s.core.kwn.sess.find? fun e => e.2.host = h.host && e.2.hnonce = b.hnonce) = none → b.reservedZero = true → b.role ≤ 2 →
    b.streams ≤ 3 →
    (∀ major id, topMajor (s.core.getF (pCtl + 0x88) 0 16 &&& b.verMask) = some major →
      ((List.range (if s.core.kwn.upload.isSome then 1 else 64)).find? fun i => (s.core.sess i).isNone) = some id →
      b.role ≠ 1 ∨ s.core.capSess = none →
      Runs (.open_ h b) s fun c =>
        c.kwn.epochs = (s.core.kwn.epochs + 1) % 2 ^ 32 ∧
        (∃ body rest, c.out = s.core.out ++ .openAck id ((s.core.kwn.epochs + 1) % 2 ^ 32) h.host body :: rest ∧ fld body 0 2 = 256 * (major % 256)) ∧
        ∃ x, c.sess id = some x ∧ x.role = roleOf b.role ∧ x.host = h.host ∧ x.epoch = (s.core.kwn.epochs + 1) % 2 ^ 32 ∧ x.rxSeq = 0) ∧
    (topMajor (s.core.getF (pCtl + 0x88) 0 16 &&& b.verMask) = none → Runs (.open_ h b) s fun c =>
      c.kwn.sess = s.core.kwn.sess ∧ ∃ body, c.out = s.core.out ++ [.openAck 0xFF 0 h.host body] ∧ fld body 0 1 = 1)) ∧
  (∀ (s : State) (h : KwnHdr) (sig : List Byte) (c : Core) (y : Sess), Arrived s h c y → y.role = .candidate →
    c.kwn.upload = none → y.fits 8 = true →
    RunsDev (.authResponse h sig) s fun m d =>
      m = s.mem ∧
      (c.authOk h.session y sig = true → (d.sess h.session).map (·.role) = some .privileged ∧
        ∀ o, c.privSess = some o → o ≠ h.session → (d.sess o).map (·.role) = some .observer) ∧
      (c.authOk h.session y sig = false → y.fails < 3 → (d.sess h.session).map (·.fails) = some (y.fails + 1)) ∧
      (c.authOk h.session y sig = false → 3 ≤ y.fails → d.sess h.session = none)) ∧
  (∀ (s : State) (h : KwnHdr) (x : Sess), s.core.kwnUp = true → s.core.transportOn h.host = true → s.core.hdrSess h = some x →
    (h.ackv = true → h.gap = false → h.close = false → x.owed = false → seqLe h.ack x.txSeq = true →
      Runs (.ack h) s fun c => (c.sess h.session).map (·.sent) = some (x.sent.filter fun (p : Sent) => !seqLe p.seq h.ack) ∧
        c.out = s.core.out) ∧
    (h.close = true → Runs (.ack h) s fun c => c.sess h.session = none)) ∧
  (∀ (s : State) (id : Nat) (x : Sess), s.core.sess id = some x →
    (x.sent ≠ [] → x.sinceAck + nsN (s.core.getF (pCtl + 0x80) 32 16 * 1000) ≤ s.core.now →
      (x.timeouts < 31 → Runs (.kwananRtoExpiry id) s fun c =>
        c.out = s.core.out ++ x.sent.map (fun p => .msg id p.type 1 p.ref p.seq x.rxSeq p.body) ∧
        (c.sess id).map (·.timeouts) = some (x.timeouts + 1)) ∧
      (31 ≤ x.timeouts → Runs (.kwananRtoExpiry id) s fun c => c.sess id = none ∧ c.out = s.core.out)) ∧
    (16 ≤ x.unackedRx ∨ (x.unackedRx ≠ 0 ∧ x.rxAt + nsN 8000 ≤ s.core.now) → Runs (.standaloneAck id) s fun c =>
      c.out = s.core.out ++ [.msg id 0x40 1 0 ((x.txSeq + 1) % 2 ^ 32) x.rxSeq []] ∧ (c.sess id).map (·.unackedRx) = some 0) ∧
    (x.lastFrame + nsN (s.core.getF (pCtl + 0x80) 48 16 * 1000000) ≤ s.core.now → Runs (.idleClose id) s fun c =>
      c.sess id = none ∧ ∀ o, o ≠ id → c.sess o = s.core.sess o)) ∧
  (∀ (s : State) (a : Access) (v : Word64), a.view = .priv → s.core.service = true → bit v.toNat 6 = true →
    Runs (.close a v) s fun c => c.sess (v.toNat % 64) = none ∧ (∀ o, o ≠ v.toNat % 64 → c.sess o = s.core.sess o) ∧
      c.regs = s.core.regs) ∧
  (∀ (s : State) (id : Nat) (x : Sess), s.core.capSess = some id → s.core.sess id = some x →
    let p := s.core.kwn.capSend
    let n := min 8160 ((if p ≤ s.core.pailWr then s.core.pailWr - p else s.core.pailSize - p) / 32 * 32)
    n ≠ 0 → s.core.kwnUp = true → x.fits (16 + n) = true → Runs .captureData s fun c =>
      c.out = s.core.out ++ [.msg id 0x32 1 0 ((x.txSeq + 1) % 2 ^ 32) x.rxSeq
        (toLe 8 p ++ toLe 4 n ++ [0, 0, 0, 0] ++ s.mem.read (s.core.pailBase + p) n)] ∧
      c.kwn.capSend = (if p + n = s.core.pailSize then 0 else p + n))

/-! ### Registers and pages -/

/-- A register as seen from its address: its block and instance, and its row. -/
def Sys2Proof.Stated.RegAt (c : Core) (a : Nat) (b : Block) (i : Nat) (r : RegRow) : Prop :=
  blockAt c.plains a = some (b, i) ∧ ∃ k, rowAt c.plains a = some (b, r, k)

/-- What a read of RC register `a` shows (R15): the value from before this fabric cycle. -/
def Sys2Proof.Stated.RcShown (c : Core) (a : Nat) (b : Block) (i : Nat) : Prop :=
  blockAt c.plains a = some (b, i) ∧ c.word b i (pageOf a) (a % 0x1000) = c.rcWord a

/-- Register access (R12 to R15, R454 to R456): a write of an offset that holds no register, or of an emulated register out of service,
changes nothing; a write of a register without behaviour of its own changes no other register, an RW field takes its bits unless the
access may not write it, a W1C field loses the bits written as one that hardware has not set in this fabric cycle, and a field of another code stays; a read of
an RC register returns the value from before this cycle and leaves it the cycle's own update.
Clauses may rest on log entries 39, 40 and 42, which are the model's own. -/
def Obligations.RegistersAreWritten : Prop :=
  (∀ (s : State) (acc : Access) (a : Nat) (v : Word64),
    (rowAt s.core.plains a = none → RunsDev (.registerWrite acc a v) s fun m c => m = s.mem ∧ c = s.core) ∧
    (∀ b i r, RegAt s.core a b i r →
      (emulatedAt b (a % 0x1000) = true → s.core.service = false →
        RunsDev (.registerWrite acc a v) s fun m c => m = s.mem ∧ c = s.core) ∧
      (b ≠ .rgn → (b = .mdw → isRgnOff (a % 0x1000) = false) → (emulatedAt b (a % 0x1000) = false ∨ s.core.service = true) →
        writeHook s.mem s.core acc b i (pageOf a) (a % 0x1000) v.toNat = none →
        (∀ f ∈ r.fields, f.lo + f.w ≤ 64) →
        r.fields.Pairwise (fun f g => f.lo + f.w ≤ g.lo ∨ g.lo + g.w ≤ f.lo) →
        RunsDev (.registerWrite acc a v) s fun m c =>
          m = s.mem ∧ OnlyReg s.core c a ∧ ∀ f ∈ r.fields,
            let old := s.core.getF a f.lo f.w
            let x := v.toNat / 2 ^ f.lo % 2 ^ f.w
            let new := c.getF a f.lo f.w
            ((f.priv = true ∧ acc.view ≠ .priv) → new = old) ∧
            ((f.priv = false ∨ acc.view = .priv) →
              (f.acc = .rw → keeps b (a % 0x1000) f.lo x = false → absentField b (a % 0x1000) f.lo = false →
                (f.lo = 0 → zeroBits b (a % 0x1000) = 0) → new = x) ∧
              (f.acc = .w1c → new = old - (old &&& (x - (x &&& s.core.cycGet a / 2 ^ f.lo)))) ∧ (f.acc ≠ .rw → f.acc ≠ .w1c → new = old))))) ∧
  (∀ (s : State) (acc : Access) (a : Nat),
    (a = pKey + 0x1E0 ∨ a = pCap + 0xF8 → Runs (.rcRead acc a) s fun c =>
      c.rd a = s.core.cycGet (aRcNew a) ∧ OnlyReg s.core c a ∧ ∃ b i, RcShown s.core a b i) ∧
    (isRc s.core.plains a = false → Runs (.rcRead acc a) s fun c => c = s.core))

/-- PAGE_CTRL and block resets (R458, R461, R462): FREEZE is set as written, EN where it is not fixed and, to clear it, where the block is idle;
BLK_RESET begins on a page whose EN is clear and not fixed, and at its end the block's registers are at their reset values, armed caps apart (R237;
log entry 93 is the model's own). -/
def Sys2Proof.Stated.PagesAreControlled : Prop :=
  (∀ (s : State) (a : Access) (page : Nat) (v : Word64) (b : Block) (i : Nat), a.view = .priv →
    blockAt s.core.plains (pageOf page) = some (b, i) → b ≠ .rgn → bit v.toNat 1 = false →
    let p := pageOf page
    let new := if enFixed b = true ∨ (bit v.toNat 0 = false ∧ s.core.blockIdle b i = false) then s.core.en p else bit v.toNat 0
    (Runs (.pageEnWrite a page v) s fun c => c.getB (p + 0x18) 2 = bit v.toNat 2 ∧ c.en p = new) ∧
    (Runs (.freeze a page v) s fun c => c.getB (p + 0x18) 2 = bit v.toNat 2 ∧ c.en p = new)) ∧
  (∀ (s : State) (a : Access) (page : Nat) (b : Block) (i : Nat), a.view = .priv →
    blockAt s.core.plains (pageOf page) = some (b, i) → b ≠ .rgn →
    let p := pageOf page
    (enFixed b = false → s.core.en p = false → Runs (.blkReset a page) s fun c => c.getB (p + 0x18) 1 = true ∧ c.en p = false) ∧
    (enFixed b = true ∨ s.core.en p = true → Runs (.blkReset a page) s fun c => c.rd (p + 0x18) = s.core.rd (p + 0x18)) ∧
    (enFixed b = false → b ≠ .comp1 → s.core.getB (p + 0x18) 1 = true → Runs (.blockResetDone page) s fun c =>
      c.getB (p + 0x18) 1 = false ∧
      ∀ off, 0x80 ≤ off → off < 0xF00 → measuredAt (p + off) = false → (∀ e ∈ s.core.regs, e.1 = p + off → capArmed e = false) →
        c.rd (p + off) = rstWord (p + off) % 2 ^ 64))

/-- Events (R464): an event sets its PEND bit whether or not it is enabled. Writing EVT_FORCE sets PEND bits and nothing else: neither
EVT_RAW nor another register, the error log among them, nor any state of a block changes (a notice falls due, R465). -/
def Obligations.EvtForceSetsPend : Prop :=
  (∀ (c : Core) (p k : Nat), k < 64 → (c.event p k).getB (p + 0x38) k = true) ∧
  (∀ (s : State) (a : Access) (page : Nat) (v : Word64) (b : Block) (i : Nat), a.view = .priv →
    blockAt s.core.plains page = some (b, i) →
    Runs (.evtForce a page v) s fun c =>
      c.rd (pageOf page + 0x38) = s.core.rd (pageOf page + 0x38) ||| v.toNat ∧ OnlyReg s.core c (pageOf page + 0x38) ∧
      (∀ p, c.rawEvents p = s.core.rawEvents p) ∧ c = { s.core with regs := c.regs, notices := c.notices })

/-- Notices and the error log (R465, R469): a due notice of a page goes to the session that takes EVENT, no sooner than 1 µs after the last
and after those of lower pages that are due (R191),
and not at all when no enabled bit is pending any more; HEAD moves over unconsumed entries, and a write beyond them leaves it. -/
def Sys2Proof.Stated.NoticesAndLogHead : Prop :=
  (∀ (s : State) (page : Nat), pageOf page ∈ s.core.notices →
    let p := pageOf page
    (∀ t, (p, t) ∈ s.core.noticeAt → s.core.now < t + nsN 1000 → Runs (.pageNotice page) s fun c => c = s.core) ∧
    ((∀ t, (p, t) ∈ s.core.noticeAt → t + nsN 1000 ≤ s.core.now) → (∀ q ∈ s.core.notices, q < p → s.core.noticeWaits q = true) →
      (s.core.rd (p + 0x38) &&& s.core.rd (p + 0x30) = 0 → Runs (.pageNotice page) s fun c => p ∉ c.notices ∧ c.out = s.core.out) ∧
      (s.core.rd (p + 0x38) &&& s.core.rd (p + 0x30) ≠ 0 → ∀ id x, (s.core.sessWhere fun x => bit x.streams 0) = [id] →
        s.core.sess id = some x → x.fits 40 = true →
        Runs (.pageNotice page) s fun c => p ∉ c.notices ∧
          c.out = s.core.out ++ [.msg id 0x30 1 0 ((x.txSeq + 1) % 2 ^ 32) x.rxSeq
            (toLe 4 (Store.get x.lost 0 0x30) ++ [1, 0, 0, 0] ++ s.core.noticeBytes p 1 (s.core.rd (p + 0x38)))]))) ∧
  (∀ (s : State) (a : Access) (page : Nat) (v : Word64) (b : Block) (i : Nat), a.view = .priv →
    blockAt s.core.plains page = some (b, i) →
    let p := pageOf page
    let head := s.core.getF (p + 0x48) 0 4
    let tail := s.core.getF (p + 0x48) 8 4
    ((v.toNat % 16 + 16 - head) % 16 ≤ (tail + 16 - head) % 16 → Runs (.errHeadWrite a page v) s fun c =>
      c.getF (p + 0x48) 0 4 = v.toNat % 16 ∧ c.getF (p + 0x48) 8 4 = tail ∧ OnlyReg s.core c (p + 0x48)) ∧
    ((tail + 16 - head) % 16 < (v.toNat % 16 + 16 - head) % 16 → Runs (.errHeadWrite a page v) s fun c =>
      c.getF (p + 0x48) 0 4 = head))

/-- Pages are enabled, frozen and reset, and their notices and logs served.
Clauses may rest on log entry 38, which is the model's own. -/
def Obligations.PagesAndNotices : Prop := Stated.PagesAreControlled ∧ Stated.NoticesAndLogHead

/-! ### Start, security and update -/

/-- Starts of the device (R16, R522, R523, R544, R550; R479, R487): a start takes the straps of DEV_ID; one whose checks fail holds reset
with its code; one that passes zeroes the memories, forgets every region and session, and shows its cause; RST_N low resets and takes the identity away; MG_RESET_CMD starts
on its second writing within 1 ms; firmware shows its majors and waits, and DEV_FWI decides between service and no service.
Clauses may rest on log entries 7, 8, 66, 67 and 71, which are the model's own. -/
def Obligations.DeviceStarts : Prop :=
  (∀ (s : State) (k : StartChecks),
    let ok := fun (cause : Nat) (m : Mem) (c : Core) =>
      m.bytes = [] ∧ m.poison = [] ∧ c.inReset = false ∧ c.getF 0xB0 0 4 = cause ∧ c.rgns = [] ∧ c.kwn.sess = [] ∧ c.clk.acc = 0 ∧
      c.sec.ident = (identity { s.mem with bytes := [], poison := [] } k.puf).2 ∧ c.rd 0x80 = devId k.device ∧
      (k.bootHost = true → c.kwn.upload = some []) ∧ (k.bootHost = false → c.kwn.upload = some [] ∨ c.devState = 1)
    let held := fun (m : Mem) (c : Core) => m = s.mem ∧ c.inReset = true ∧ c.flt.heldReset = heldCode k ∧ c.rd 0x80 = devId k.device
    (heldCode k = 0 → RunsDev (.powerOn k) s (ok 1) ∧ RunsDev (.rstN k) s (ok 2)) ∧
    (heldCode k ≠ 0 → RunsDev (.powerOn k) s held ∧ RunsDev (.rstN k) s held) ∧
    (∀ t, s.core.flt.mgFirst = some t → s.core.now ≤ t + nsN 1000000 →
      (heldCode k = 0 → RunsDev (.mgResetCmd k 0xA5) s (ok 3)) ∧ (heldCode k ≠ 0 → RunsDev (.mgResetCmd k 0xA5) s held)) ∧
    (s.core.flt.mgFirst = none → RunsDev (.mgResetCmd k 0xA5) s fun m c =>
      m = s.mem ∧ c.regs = s.core.regs ∧ c.flt = { s.core.flt with mgFirst := some s.core.now }) ∧
    (∀ x, x ≠ 0xA5 → RunsDev (.mgResetCmd k x) s fun m c => m = s.mem ∧ c = s.core)) ∧
  (∀ s : State, Runs .rstNAssert s fun c => c.inReset = true ∧ c.sec.ident = none ∧ c.rgns = [] ∧ c.kwn.sess = [] ∧ c.clk.acc = 0) ∧
  (∀ (s : State) (majors : Nat), s.core.fwState = 1 → s.core.inReset = false → s.core.kwn.upload = none → s.core.sec.restart = none →
    s.core.safe = false → Runs (.firmwareStart majors) s fun c =>
      c.devState = 2 ∧ c.getF 0xA8 16 16 = majors % 2 ^ 16 ∧ c.sec.trialAt = if s.core.sec.trial then some s.core.now else none) ∧
  (∀ (s : State) (a : Access) (v : Word64), s.core.safe = false →
    let common := topMajor (v.toNat % 2 ^ 16 &&& s.core.getF 0xA8 16 16)
    (s.core.getB 0xA8 36 = true → a.view ≠ .priv → Runs (.devFwiWrite a v) s fun c =>
      c.rd 0xA8 = s.core.rd 0xA8 ∧ c.devState = s.core.devState) ∧
    (s.core.getB 0xA8 36 = false ∨ a.view = .priv → 2 ≤ s.core.fwState →
      (common = none → Runs (.devFwiWrite a v) s fun c => c.getF 0xA8 0 16 = v.toNat % 2 ^ 16 ∧ c.devState = 4 ∧ c.getB 0x88 3 = true) ∧
      (∀ k, common = some k → s.core.getB 0x88 4 = false → s.core.sec.restart = none → Runs (.devFwiWrite a v) s fun c =>
        c.devState = 3 ∧ c.getF 0xA8 32 4 = k ∧ c.getB 0xA8 36 = true ∧
        ∀ p ∈ [pPort, pSep, pComp, pComp1, pKey, pTask, pCap, pPass], c.en p = true)))

/-- The security mailbox (R493 to R496, R498): a free mailbox is claimed, a held one is not; its holder gives it back, or loses it after
10 s; a challenge, a report and a fresh identity need their conditions and answer NO_ID, ID_VALID, PRIV, FORMAT, NO_CHALLENGE or SIG_FAIL
without them; a command that writes flash runs until its end, which shows OK or FLASH.
Clauses may rest on log entries 15, 66 and 69, which are the model's own. -/
def Obligations.MailboxServesItsHolder : Prop :=
  (∀ (s : State) (id : Nat), s.core.service = true → s.core.sec.mbxOp = 0 →
    (s.core.sec.holder = none ∨ s.core.sec.holder = some id → Runs (.claim id) s fun c =>
      c.sec.holder = some id ∧ c.sec.since = s.core.now ∧ c.sec.mbxResult = mOk ∧ c.regs = s.core.regs) ∧
    (∀ o, s.core.sec.holder = some o → o ≠ id → Runs (.claim id) s fun c => c.sec = s.core.sec) ∧
    (s.core.sec.holder = some id →
      Runs (.releaseMbx id) s (fun c => c.sec.holder = none ∧ c.sec.challenge = none ∧ c.sec.mbxResult = mOk) ∧
      (s.core.sec.ident = none →
        Runs (.challenge id) s (fun c => c.sec.mbxResult = mNoId ∧ c.sec.challenge = s.core.sec.challenge) ∧
        Runs (.attest id) s (fun c => c.sec.mbxResult = mNoId ∧ c.regs = s.core.regs) ∧
        Runs (.newIdentity id) s (fun c => c.sec.mbxOp = 7)) ∧
      (s.core.sec.ident ≠ none →
        Runs (.challenge id) s (fun c => ∃ n, c.sec.challenge = some (n, s.core.now) ∧ n.length = 32 ∧ c.sec.mbxResult = mOk ∧
          ∀ i, i < 4 → c.rd (pSec + 0x200 + 8 * i) = fld n (8 * i) 8) ∧
        Runs (.attest id) s (fun c => c.sec.mbxResult = mOk ∧
          ∀ i, i < 16 → c.rd (pSec + 0x200 + 8 * i) = fld (s.core.report (s.core.mbxRead 0 32)) (8 * i) 8) ∧
        Runs (.newIdentity id) s (fun c => c.sec.mbxResult = mIdValid ∧ c.sec.mbxOp = 0)) ∧
      (s.core.privSess ≠ some id →
        Runs (.release id) s (fun c => c.sec.mbxResult = mPriv ∧ c.sec.mbxOp = 0) ∧
        (s.core.ownerValid = true → Runs (.enrol id) s fun c => c.sec.mbxResult = mPriv ∧ c.sec.mbxOp = 0)) ∧
      (s.core.privSess = some id → s.core.sec.ident ≠ none → Runs (.release id) s fun c => c.sec.mbxOp = 5) ∧
      (s.core.ownerValid = false ∨ s.core.privSess = some id → s.core.sec.ident ≠ none →
        let key := s.core.mbxRead 0 1793
        let len := leNat (s.core.mbxRead 1793 2)
        (key.head? ≠ some 0x0A ∨ 1462 < len → Runs (.enrol id) s fun c => c.sec.mbxResult = mFormat ∧ c.sec.mbxOp = 0) ∧
        (key.head? = some 0x0A → len ≤ 1462 →
          (s.core.sec.challenge = none → Runs (.enrol id) s fun c => c.sec.mbxResult = mNoChallenge ∧ c.sec.mbxOp = 0) ∧
          (∀ n t, s.core.sec.challenge = some (n, t) → s.core.now ≤ t + nsN 10000000000 →
            Runs (.enrol id) s fun c => c.sec.challenge = none ∧
              let good := signed1024 "SOHUS-OWNER-1" key (n ++ s.core.idDigest) (s.core.mbxRead 1795 len)
              (good = true → c.sec.mbxOp = 4 ∧ c.sec.mbxKey = key) ∧ (good = false → c.sec.mbxOp = 0 ∧ c.sec.mbxResult = mSigFail)))))) ∧
  (∀ (s : State) (id : Nat), s.core.sec.holder = some id → s.core.sec.since + nsN 10000000000 ≤ s.core.now →
    Runs .mailboxTimeout s fun c => c.sec.holder = none ∧ c.sec.challenge = none ∧ c.regs = s.core.regs) ∧
  (∀ s : State, s.core.sec.mbxOp ≠ 0 →
    RunsDev (.mailboxCommandDone false) s (fun m c => m = s.mem ∧ c.sec.mbxOp = 0 ∧ c.sec.mbxResult = mFlash) ∧
    RunsDev (.mailboxCommandDone true) s (fun m c => c.sec.mbxOp = 0 ∧ c.sec.mbxResult = mOk ∧ m.bytes = s.mem.bytes ∧
      (s.core.sec.mbxOp = 7 → m = putHelper s.mem s.core.sec.puf ∧ c.sec.owner = s.core.sec.owner) ∧
      (s.core.sec.mbxOp ≠ 7 → m = putOwner s.mem s.core s.core.sec.mbxKey ∧ c.sec.owner = s.core.ownerKey m)))

/-- A service restart under way (R501): every session is closed, what ran is recorded, the gate is shut, and the device shows that it starts. -/
def Sys2Proof.Stated.Restarted (c : Core) : Prop :=
  c.kwn.sess = [] ∧ c.sec.restart.isSome = true ∧ c.sec.armedAt = none ∧ c.getB aGate 0 = false ∧
  (c.safe = false → c.devState = 1)

/-- The update agent (R477, R499 to R502, R509): STAGE, ACTIVATE_AT, ACTIVATE and CANCEL answer their result codes or take their effect; the
staged image stands in the other slot; an armed count activates; service resumes with the regions that ran; a trial is confirmed, or falls
back when its time is over; the watchdog enters safe state and restarts; the third fault of a component in 10 s stops it.
Clauses may rest on log entries 68 and 70, which are the model's own. -/
def Obligations.UpdatesRun : Prop :=
  (∀ (s : State) (a : Access) (v : Word64), a.view = .priv → s.core.service = true →
    let src := s.core.rd (pCtl + 0x100)
    let len := s.core.rd (pCtl + 0x108)
    let img := s.mem.read src (min len (30 * 2 ^ 20))
    let code := if len < fld img 24 4 then 1 else s.core.imageCode (bootRec s.mem).floor (img.take (fld img 24 4))
    let busy := s.core.sec.trial || s.core.sec.armedAt.isSome || s.core.sec.stageBusy.isSome
    (busy = true → RunsDev (.stage a v) s fun m c => m = s.mem ∧ c.sec = s.core.sec ∧ c.getF aUpd 8 8 = 0x20) ∧
    (busy = false → lpmBase ≤ src → 4096 ≤ len → s.core.mapped false src len = true → RunsDev (.stage a v) s fun m c =>
      m = s.mem ∧ c.sec.staged = false ∧
      (code ≠ 0 → c.sec.stageBusy = none ∧ c.getF aUpd 8 8 = code % 256 ∧ c.getF aUpd 0 3 = 0) ∧
      (code = 0 → c.sec.stageBusy = some (img.take (fld img 24 4)) ∧ c.getF aUpd 0 3 = 1)) ∧
    (s.core.sec.staged = false → RunsDev (.activateAt a v) s (fun m c => m = s.mem ∧ c.sec = s.core.sec ∧ c.getF aUpd 8 8 = 0x24) ∧
      RunsDev (.activate a v) s (fun m c => m = s.mem ∧ c.sec = s.core.sec ∧ c.getF aUpd 8 8 = 0x24)) ∧
    (s.core.sec.staged = true → s.core.sec.armedAt = none → s.core.swapArmed = none →
      (s.core.rd (pCtl + 0x110) < s.core.valley + 1000000 → RunsDev (.activateAt a v) s fun m c =>
        m = s.mem ∧ c.sec = s.core.sec ∧ c.getF aUpd 8 8 = 0x22) ∧
      (s.core.valley + 1000000 ≤ s.core.rd (pCtl + 0x110) → RunsDev (.activateAt a v) s fun m c =>
        m = s.mem ∧ c.sec = { s.core.sec with armedAt := some (s.core.rd (pCtl + 0x110)) } ∧ c.getF aUpd 0 3 = 3)) ∧
    (s.core.sec.staged = true → s.core.swapArmed.isSome = true → RunsDev (.activate a v) s fun m c =>
      m = s.mem ∧ c.sec = s.core.sec ∧ c.getF aUpd 8 8 = 0x23) ∧
    (s.core.sec.staged = true → s.core.swapArmed = none → RunsDev (.activate a v) s fun _ c =>
      Restarted c ∧ c.sec.staged = false ∧ c.getF aUpd 0 3 = 0) ∧
    (s.core.sec.armedAt ≠ none → RunsDev (.cancel a v) s fun m c =>
      m = s.mem ∧ c.sec = { s.core.sec with armedAt := none } ∧ c.getF aUpd 0 3 = 2) ∧
    (s.core.sec.armedAt = none → RunsDev (.cancel a v) s fun m c => m = s.mem ∧ c = s.core)) ∧
  (∀ (s : State) (img : List Byte), s.core.sec.stageBusy = some img →
    RunsDev (.stageDone false) s (fun m c => m = s.mem ∧ c.sec = { s.core.sec with stageBusy := none } ∧ c.getF aUpd 8 8 = 0x21) ∧
    RunsDev (.stageDone true) s (fun m c => m.flashRead (slotAddr (1 - s.core.sec.slot)) img.length = img ∧ m.bytes = s.mem.bytes ∧
      c.sec = { s.core.sec with stageBusy := none, staged := true } ∧ c.getF aUpd 0 3 = 2 ∧ c.getF aUpd 8 8 = 0)) ∧
  (∀ (s : State) (v : Nat), s.core.sec.armedAt = some v →
    (s.core.valleyDue v = true → RunsDev .updateActivation s fun _ c => Restarted c ∧ c.sec.staged = false) ∧
    (s.core.valleyDue v = false → RunsDev .updateActivation s fun m c => m = s.mem ∧ c = s.core)) ∧
  (∀ (s : State) (t : Nat) (gate : Bool) (rs : List Nat), s.core.sec.restart = some (t, gate, rs) → s.core.fwState = 2 →
    s.core.getB 0xA8 36 = true → s.core.getB 0x88 4 = false → s.core.safe = false → (∀ g ∈ rs, (s.core.rgn g).phase ≠ .draining) →
    Runs .serviceResume s fun c =>
      c.sec.restart = none ∧ c.devState = 3 ∧
      (∀ g ∈ rs, (s.core.rgn g).phase = .drained → s.core.lent g = [] → (c.rgn g).phase = .running) ∧
      (gate = true → s.core.getB aGate 2 = true → s.core.getB aGate 1 = false → c.getB aGate 0 = true)) ∧
  (∀ (s : State) (a : Access) (v : Word64), a.view = .priv → v.toNat % 2 ^ 32 = 0x48454C54 → s.core.sec.trialAt ≠ none →
    RunsDev (.healthConfirm a v) s fun m c =>
      c.sec = { s.core.sec with trial := false, trialAt := none } ∧ c.getB 0xA0 33 = true ∧
      m = putRec s.mem { bootRec s.mem with active := s.core.sec.slot, trial := none, tried := false,
                                            floor := max (bootRec s.mem).floor s.core.sec.svn }) ∧
  (∀ s : State, s.core.sec.trialAt ≠ none → s.core.secondsLeft = 0 → RunsDev .confirmTimeout s fun _ c =>
    Restarted c ∧ c.sec.trial = false ∧ c.sec.slot = (bootRec s.mem).active ∧ c.getF aUpd 8 8 = 0x25) ∧
  (∀ (s : State) (core : Nat), RunsDev (.watchdog core) s fun _ c =>
    c.kwn.sess = [] ∧ c.sec.restart.isSome = true ∧ c.safe = true ∧ (s.core.safe = false → (0x45, core) ∈ c.flt.errors)) ∧
  (∀ (s : State) (comp : Nat), comp < 7 → 2 ≤ s.core.fwState → s.core.safe = false →
    let recent := s.core.sec.faults.filter fun (e : Nat × Nat) => s.core.now < e.2 + nsN 10000000000
    ((recent.filter fun (e : Nat × Nat) => e.1 = comp).length < 2 → RunsDev (.fwProtect comp) s fun m c =>
      m = s.mem ∧ c.sec.faults = recent ++ [(comp, s.core.now)] ∧ c.devState = s.core.devState) ∧
    (2 ≤ (recent.filter fun (e : Nat × Nat) => e.1 = comp).length →
      (comp ≠ 0 → RunsDev (.fwProtect comp) s fun m c => m = s.mem ∧ c.devState = 4) ∧
      (comp = 0 → RunsDev (.fwProtect comp) s fun _ c => Restarted c)))

/-! ### Safe state and power -/

/-- Class S errors and safe state (R506, R508 to R510, R513, R514): ENTER, a state error and a lost clock enter safe state with their cause
first, the gate shut, the Ford empty and no swap armed; one in safe state updates LAST_CAUSE and COUNT; EXIT leaves it while EXIT_OK holds,
with regions that ran halted, and is refused otherwise; a clock that locks again is no longer lost.
Clauses may rest on log entries 61 and 63, which are the model's own. -/
def Obligations.SafeStateIsEntered : Prop :=
  (∀ (s : State) (a : Access) (v : Word64) (unit word kind plain : Nat), s.core.safe = false →
    let entered := fun (code src : Nat) (c : Core) =>
      c.safe = true ∧ c.devState = 5 ∧ c.getF aFltState 8 8 = code ∧ c.getF aFltState 16 8 = code ∧ c.flt.errors = [(code, src)] ∧
      c.getB aGate 0 = false ∧ c.ford.buf = [] ∧ c.swapArmed = none ∧ c.cap.pulses = [] ∧ c.flt.stateBefore = s.core.devState ∧
      c.flt.slice = none;
    (a.view = .priv → bit v.toNat 1 = false → RunsDev (.enter a v) s fun _ c =>
      entered 0x46 (match a.who with | .firmware => 0 | .session _ => 1) c) ∧
    RunsDev (.stateUe unit word) s (fun _ c => entered 0x44 unit c) ∧
    (let p := (if kind = 0 then 0 else plain);
      kind ≤ 2 → p < s.core.plains → (kind, p) ∉ s.core.flt.unlocked → RunsDev (.clockLoss kind plain) s fun _ c =>
        entered 0x43 kind c ∧ c.flt.unlocked = s.core.flt.unlocked ++ [(kind, p)])) ∧
  (∀ (s : State) (unit word : Nat), s.core.safe = true → RunsDev (.stateUe unit word) s fun m c =>
    m = s.mem ∧ c.safe = true ∧ c.getF aFltState 8 8 = s.core.getF aFltState 8 8 ∧ c.getF aFltState 16 8 = 0x44 ∧
    c.getF aFltState 24 8 = min 255 (s.core.getF aFltState 24 8 + 1) ∧ c.rgns = s.core.rgns ∧ (0x44, unit) ∈ c.flt.errors) ∧
  (∀ (s : State) (a : Access) (v : Word64), a.view = .priv → bit v.toNat 0 = false →
    (s.core.exitOk = true → RunsDev (.exit a v) s fun m c =>
      m = s.mem ∧ c.safe = false ∧ c.devState = 3 ∧ c.flt.errors = [] ∧
      ∀ g, g < 8 → ((s.core.rgn g).phase = .running ∨ (s.core.rgn g).phase = .draining → (c.rgn g).phase = .halted) ∧
        ((s.core.rgn g).phase ≠ .running → (s.core.rgn g).phase ≠ .draining → (c.rgn g).phase = (s.core.rgn g).phase)) ∧
    (s.core.exitOk = false → RunsDev (.exit a v) s fun m c => m = s.mem ∧ c.safe = s.core.safe ∧ c.flt = s.core.flt ∧ c.rgns = s.core.rgns)) ∧
  (∀ (s : State) (kind plain : Nat), (kind, if kind = 0 then 0 else plain) ∈ s.core.flt.unlocked →
    Runs (.clockLocked kind plain) s fun c => (kind, if kind = 0 then 0 else plain) ∉ c.flt.unlocked)

/-- Sensors, rails and the self-test (R516 to R520, R534 to R536): a reading is held, a warning holds while it stands at its level, a trip
enters safe state with its sensor; a rail is shown and is out of range beyond 3 %, and outside 5 % for 10 µs it trips; a slice starts on
the next free meadow once its period has passed, or the period is counted; its right signature ends it, a wrong one shows the meadow and
enters safe state. Clauses may rest on log entries 16, 62 and 64, which are the model's own. -/
def Obligations.LimitsAreWatched : Prop :=
  (∀ (s : State) (r : Reading) (k : Nat), s.core.sensorKind r.source = some k →
    let t := signed 12 (unsigned 12 r.temp)
    (t < tripLevel k → RunsDev (.sensorSample r) s fun m c =>
      m = s.mem ∧ (c.pwr.temps.find? fun e => e.1 = r.source) = some (r.source, unsigned 12 r.temp % 2 ^ 12) ∧ c.safe = s.core.safe ∧
      c.pwr.warns.contains r.source = decide (s.core.warnLevel k ≤ t)) ∧
    (tripLevel k ≤ t → s.core.safe = false → RunsDev (.sensorSample r) s fun _ c =>
      c.safe = true ∧ c.flt.errors = [(0x41, r.source)] ∧ c.getF aFltState 8 8 = 0x41)) ∧
  (∀ (s : State) (r mv amps power : Nat), r < 10 → r ≠ 9 ∨ s.core.part = 1 → mv < 2 ^ 16 →
    RunsDev (.railSample r mv amps power) s (fun _ c =>
      c.getF (pPwr + 0x100 + 8 * r) 0 16 = mv ∧ c.getF (pPwr + 0x100 + 8 * r) 16 16 = amps % 2 ^ 16 ∧
      c.getB (pPwr + 0x100 + 8 * r) 32 = s.core.outside r mv 3 ∧ c.getF (pPwr + 0x98) 0 16 = power % 2 ^ 16) ∧
    (∀ t, (r, t) ∈ s.core.pwr.outSince → t + nsN 10000 ≤ s.core.now → s.core.outside r mv 5 = true → s.core.safe = false →
      RunsDev (.railSample r mv amps power) s fun _ c => c.safe = true ∧ (0x42, r) ∈ c.flt.errors)) ∧
  (∀ s : State, s.core.getB (pFlt + 0xA0) 0 = true →
    s.core.flt.lastAt + nsN (s.core.getF (pFlt + 0xA0) 1 16 * 1000000) ≤ s.core.now →
    (∀ md, s.core.nextMeadow = some md → s.core.sliceOk = true → s.core.safe = false → s.core.flt.slice = none →
      Runs .bistSliceStart s fun c =>
        c.flt.slice = some (md, none) ∧ c.flt.last = md ∧ c.flt.lastAt = s.core.now ∧ c.getB aBist 7 = true ∧ (md, 0xFFFF) ∈ c.task.holders) ∧
    (s.core.nextMeadow = none ∨ s.core.sliceOk = false ∨ s.core.safe = true ∨ s.core.flt.slice ≠ none →
      s.core.frozenAt (pFlt + 0x108) = false → Runs .bistSliceStart s fun c =>
        c.flt.slice = s.core.flt.slice ∧ c.flt.lastAt = s.core.now ∧
        c.rd (pFlt + 0x108) = (s.core.rd (pFlt + 0x108) + 1) % 2 ^ 48)) ∧
  (∀ (s : State) (sig : Word64) (md : Nat) (owner : Option Nat), s.core.flt.slice = some (md, owner) →
    RunsDev (.bistSliceEnd sig) s fun m c =>
      c.rd (pFlt + 0xB8) = sig.toNat ∧
      (sig = Config.bistSignature s.core.stepping → m = s.mem ∧ c.safe = s.core.safe ∧
        (c.flt.slice = none ∨ ∃ x e, c.flt.slice = some (x, some e))) ∧
      (sig ≠ Config.bistSignature s.core.stepping → c.safe = true ∧ c.flt.slice = none ∧ c.getB aBist 8 = true ∧
        c.getF aBist 9 7 = md % 2 ^ 7))

/-- The power-point commands complete (R530, R531): an arm that meets the conditions of R530 is armed; at the boundary of R531 the fabric
freezes; 64 ns after the freeze began it resumes at the target. -/
def Sys2Proof.Stated.PowerPointsComplete : Prop :=
  (∀ (s : State) (a : Access) (v : Word64), a.view = .priv →
    let at_ := s.core.rd (pPwr + 0x88)
    s.core.pwr.arm = none → v.toNat / 4 % 4 ≠ 3 → (at_ ≠ 0 → s.core.valley + 1000000 ≤ at_) →
    (at_ = 0 → (∀ g, g < 8 → (s.core.rgn g).phase ≠ .running ∧ (s.core.rgn g).stall = []) ∧
      ∀ e ∈ s.core.task.table, e.2.st ≠ .running) →
    ∃ t, exec (.pwrPtArm a v) s = .next t ∧ t.mem = s.mem ∧ t.pending = s.pending ∧
      t.core.pwr.arm = some ⟨v.toNat / 4 % 4, at_, s.core.now, higher (v.toNat / 4 % 4) (s.core.getF aPt 0 2)⟩ ∧
      t.core.getB aPt 5 = true) ∧
  (∀ (s : State) (x : PwrArm), s.core.pwr.arm = some x → s.core.clk.frozen = none →
    (x.at_ = 0 → x.raised = true → x.since + nsN 500000 ≤ s.core.now) → (x.at_ ≠ 0 → nsN (s.core.epoch + x.at_) ≤ s.core.now) →
    ∃ t, exec .powerPointBoundary s = .next t ∧ t.mem = s.mem ∧ t.pending = s.pending ∧
      t.core.clk.frozen = some s.core.now ∧ t.core.pwr.arm = some x) ∧
  (∀ (s : State) (t0 : Nat) (x : PwrArm), s.core.clk.frozen = some t0 → s.core.pwr.arm = some x → t0 + nsN 64 ≤ s.core.now →
    ∃ t, exec .powerPointResume s = .next t ∧ t.mem = s.mem ∧ t.pending = s.pending ∧
      t.core.clk.frozen = none ∧ t.core.pwr.arm = none ∧ t.core.getF aPt 0 2 = x.target % 4)

/-- Power points (R530 to R532): an accepted arm locks the standby PLLs to its target and raises FAB_VID at once for a higher one, another one
shows REJ; at its boundary the fabric freezes and the multiplexer of every plain moves; 64 ns later the fabric runs at the target, and what
was in flight is late. -/
def Sys2Proof.Stated.PowerPointsTakeEffect : Prop :=
  (∀ (s : State) (a : Access) (v : Word64), a.view = .priv →
    let target := v.toNat / 4 % 4
    let at_ := s.core.rd (pPwr + 0x88)
    (s.core.ptRejected target at_ = false → Runs (.pwrPtArm a v) s fun c =>
      c.pwr.arm = some ⟨target, at_, s.core.now, higher target (s.core.getF aPt 0 2)⟩ ∧ c.getB aPt 5 = true ∧
      c.getF aPt 0 2 = s.core.getF aPt 0 2 ∧
      (target < s.core.getF aPt 0 2 → ∀ p, p < s.core.plains → c.rd (aPlnVid p) = vidOf target)) ∧
    (s.core.ptRejected target at_ = true → Runs (.pwrPtArm a v) s fun c => c.pwr = s.core.pwr ∧ c.getB aPt 6 = true)) ∧
  (∀ (s : State) (x : PwrArm), s.core.pwr.arm = some x → s.core.clk.frozen = none →
    (x.at_ = 0 → x.raised = false ∨ x.since + nsN 500000 ≤ s.core.now) → (x.at_ ≠ 0 → s.core.valleyDue x.at_ = true) →
    Runs .powerPointBoundary s fun c =>
      c.clk.frozen = some s.core.now ∧ c.flt.slice = none ∧ c.pwr.arm = some x ∧
      ∀ p, p < s.core.plains → c.getF (aPlnClk p) 2 1 = 1 - s.core.getF (aPlnClk p) 2 1) ∧
  (∀ (s : State) (t : Nat) (x : PwrArm), s.core.clk.frozen = some t → s.core.pwr.arm = some x → t + nsN 64 ≤ s.core.now →
    Runs .powerPointResume s fun c =>
      c.clk.frozen = none ∧ c.pwr.arm = none ∧ c.getF aPt 0 2 = x.target % 4 ∧ c.getB aPt 5 = false ∧
      (∀ f ∈ c.fab.fly, f.tok.late = true) ∧ (∀ d ∈ c.fab.delays, d.tok.late = true) ∧ (∀ g, ∀ i ∈ (c.rgn g).iters, i.fate = .pending → i.late = true) ∧
      (∀ g, (c.rgn g).sched = (s.core.rgn g).sched))

/-- Power points change: the commands complete, and take the effects of R530 to R532.
Clauses may rest on log entries 46 and 65, which are the model's own. -/
def Obligations.PowerPointsChange : Prop := Stated.PowerPointsComplete ∧ Stated.PowerPointsTakeEffect

/-! ### What commands leave alone -/

/-- The frame of a command: where it answers a next state, that state has the queue and the memories it had, and `k` gives its core from
the core before it and the parts that the command may change. -/
def Sys2Proof.Stated.Keeps (k : Core → Core → Core) (i : Instr) : Prop :=
  ∀ s t : State, exec i s = .next t → t = { s with core := k s.core t.core }

/-- The frame of one firing (R46, R70): of the core only the registers, the log and its notices, the fabric, the regions, the composer and
what leaves on the ports may change, and of the regions none but the cell's own: a schedule fault halts no other. -/
def Obligations.FiringsKeepTheRest : Prop :=
  ∀ (cell port group : Nat), cell < 32768 → ∀ i ∈
    ([.dot cell, .dotc cell, .exp2 cell, .log2 cell, .rcp cell, .rsqrt cell, .sqrt cell, .tanh cell, .logistic cell, .pwl cell,
      .min8 cell, .max8 cell, .argmax8 cell, .sort8 cell, .sum8 cell, .add2 cell, .quant cell, .dequant cell, .leafMa cell,
      .leafMm cell, .combMa cell, .combMm cell, .param cell, .read cell, .delay cell, .fork cell, .merge cell, .switch cell,
      .select cell, .gather cell group, .align cell group, .renumber cell, .digest cell, .tapIngress cell, .orphan cell port] : List Instr),
    Keeps (fun c d => { c with regs := d.regs, cyc := d.cyc, notices := d.notices, errSeq := d.errSeq, fab := d.fab, rgns := d.rgns, comp := d.comp,
                               out := d.out, free := d.free }) i ∧
    ∀ s t : State, exec i s = .next t → ∀ g, g ≠ s.core.cellRgn cell → t.core.rgn g = s.core.rgn g

/-- The frame of the commands that write the settings of one page: of the core only registers and the log of that page change, and no register
of any other page. -/
def Obligations.SettingsKeepOtherPages : Prop :=
  ∀ (a : Access) (v : Word64) (g j m t page : Nat), g < 8 → j < 4 → m < 128 → t < 256 → ∀ e ∈
    ([(.errHeadWrite a page v, page), (.evtForce a page v, page), (.timeIncrWrite a v, pTime), (.tickPeriodWrite a v, pTime),
      (.valleyEpochWrite a v, pTime), (.fordDelayWrite a g v, pTime), (.holdover, pTime), (.slewEnd, pTime), (.refclkTimeReturn, pTime),
      (.meadowMove a m v, pMdw m), (.deadlineWrite a t v, pComp1), (.stuck g, pCap), (.keyCfgWrite a v, pKey), (.taskDoorbell a v, pTask),
      (.linkUp g, pPort), (.hotForceWrite a j v, pVlt j)] : List (Instr × Nat)),
    Keeps (fun c d => { c with regs := d.regs, cyc := d.cyc, latched := d.latched, notices := d.notices, errSeq := d.errSeq }) e.1 ∧
    ∀ s u : State, exec e.1 s = .next u → ∀ b, b / 4096 ≠ e.2 / 4096 → u.core.rd b = s.core.rd b

/-- The frames of commands that serve one part of the device: beside registers and their log they change that part and nothing else. -/
def Obligations.CommandsKeepOtherParts : Prop :=
  ∀ (a : Access) (v : Word64) (n p : Nat) (h : KwnHdr) (k : OpenBody) (on : Bool) (held corr : Nat) (items : List Overdue) (rx : LaneChars) (bytes : List Byte),
  (∀ i ∈ ([.holdoffEnd, .captureArmEffect, .stop a v, .captureStopEffect, .captureArmWrite a v] : List Instr),
    Keeps (fun c d => { c with regs := d.regs, cyc := d.cyc, notices := d.notices, errSeq := d.errSeq, cap := d.cap }) i) ∧
  (∀ i ∈ ([.compCapWrite a n v, .compCapArm a n v] : List Instr),
    Keeps (fun c d => { c with regs := d.regs, cyc := d.cyc, notices := d.notices, errSeq := d.errSeq, comp := d.comp }) i) ∧
  (∀ i ∈ ([.gateOpen a v, .gateClose a v, .killClear a v] : List Instr),
    Keeps (fun c d => { c with regs := d.regs, comp := d.comp, out := d.out, free := d.free }) i) ∧
  (∀ i ∈ ([.portCfgWrite a v, .filterWrite a v, .filterInvalidate a v, .filterRead a v, .filterChangeEffect, .filterPendingClear,
      .linkLoss n] : List Instr),
    Keeps (fun c d => { c with regs := d.regs, cyc := d.cyc, notices := d.notices, errSeq := d.errSeq, sep := d.sep }) i) ∧
  (∀ i ∈ ([.frameStart n p ⟨held, corr⟩ bytes, .tinEdge n p on held, .trigInEdge n p on held] : List Instr),
    Keeps (fun c d => { c with regs := d.regs, cyc := d.cyc, sep := d.sep, cap := d.cap, pins := d.pins }) i) ∧
  (∀ i ∈ ([.slotWrite a v, .slotRead a v, .ringReadBusy, .ringCommandDone, .snapshotTick] : List Instr),
    Keeps (fun c d => { c with regs := d.regs, cyc := d.cyc, notices := d.notices, errSeq := d.errSeq, key := d.key }) i) ∧
  (∀ i ∈ ([.replayStart a v, .replayStop a v, .drainComplete n, .stallStart n items] : List Instr),
    Keeps (fun c d => { c with regs := d.regs, rgns := d.rgns }) i) ∧
  (∀ i ∈ ([.vaultHotEnter n p, .vaultHotExit n p, .lpddr6Recalibration n, .pwrPtArm a v] : List Instr),
    Keeps (fun c d => { c with regs := d.regs, cyc := d.cyc, notices := d.notices, errSeq := d.errSeq, pwr := d.pwr }) i) ∧
  (∀ i ∈ ([.laneLocked n, .timeMarkerSend n p, .timeMarkerReceive n p rx] : List Instr),
    Keeps (fun c d => { c with regs := d.regs, lanes := d.lanes, out := d.out }) i) ∧
  (∀ i ∈ ([.tinTsPop n, .txtsPop, .toutEdge n, .toutPulseEnd n, .barrierArm a v, .barrierTokenReceive n, .killNDeassert, .launchAtWrite a n v]
      : List Instr),
    Keeps (fun c d => { c with regs := d.regs, cyc := d.cyc, notices := d.notices, latched := d.latched, pins := d.pins, out := d.out }) i) ∧
  (∀ i ∈ ([.launch n, .barrierLaunch] : List Instr),
    Keeps (fun c d => { c with regs := d.regs, cyc := d.cyc, notices := d.notices, sep := d.sep, ford := d.ford, fab := d.fab, rgns := d.rgns,
                               pins := d.pins }) i) ∧
  (∀ i ∈ ([.convCfgWrite a n p v, .convClr a n p, .digestRecordPop n, .flush a n v] : List Instr),
    Keeps (fun c d => { c with regs := d.regs, cyc := d.cyc, notices := d.notices, latched := d.latched, fab := d.fab }) i) ∧
  (∀ i ∈ ([.open_ h k, .ack h, .standaloneAck n, .captureData, .kwananRtoExpiry n, .idleClose n, .close a v] : List Instr),
    Keeps (fun c d => { c with regs := d.regs, kwn := d.kwn, sec := d.sec, out := d.out }) i) ∧
  (∀ i ∈ ([.claim n, .releaseMbx n, .challenge n, .enrol n, .release n, .attest n, .newIdentity n, .mailboxTimeout] : List Instr),
    Keeps (fun c d => { c with regs := d.regs, cyc := d.cyc, notices := d.notices, errSeq := d.errSeq, kwn := d.kwn, sec := d.sec }) i) ∧
  Keeps (fun c d => { c with regs := d.regs, cyc := d.cyc, notices := d.notices, errSeq := d.errSeq, censusArmed := d.censusArmed }) (.censusRequest a v) ∧
  Keeps (fun c d => { c with regs := d.regs, cyc := d.cyc, notices := d.notices, census := d.census, censusArmed := d.censusArmed }) .census ∧
  Keeps (fun c d => { c with regs := d.regs, cyc := d.cyc, notices := d.notices, errSeq := d.errSeq, swapArmed := d.swapArmed }) (.swapArm a v) ∧
  Keeps (fun c d => { c with regs := d.regs, saving := d.saving }) (.saveRestoreDone n) ∧
  Keeps (fun c d => { c with regs := d.regs, flt := d.flt }) (.clockLocked n p) ∧
  Keeps (fun c d => { c with regs := d.regs, cyc := d.cyc, notices := d.notices, sep := d.sep, lanes := d.lanes }) (.versionSetReceive n rx) ∧
  Keeps (fun c d => { c with regs := d.regs, cyc := d.cyc, notices := d.notices, errSeq := d.errSeq, lanes := d.lanes, out := d.out }) (.linkTxQueue a n v)

/-! ### The block as a whole -/

/-- LPDDR6 addresses (R413): the channel and the channel offset of the byte at offset A; a 256-byte block never spans two channels, and any
3,072 consecutive bytes aligned to 3,072 bytes spread evenly over all 12 channels. -/
def Obligations.Lpddr6Spreads : Prop :=
  (∀ A, lpmChannel A = A / 256 % 12 ∧ lpmOffset A = A / 3072 * 256 + A % 256) ∧
  (∀ B x, x < 256 → lpmChannel (256 * B + x) = lpmChannel (256 * B)) ∧
  (∀ B ch, ch < 12 → ((List.range 3072).filter fun i => lpmChannel (3072 * B + i) = ch).length = 256) ∧
  (∀ A B, lpmChannel A = lpmChannel B → lpmOffset A = lpmOffset B → A = B)

/-- The privileged view (R12): a command that writes registers of View P through the unprivileged view changes nothing. -/
def Obligations.UnprivilegedWritesChangeNothing : Prop :=
  ∀ (s : State) (a : Access) (v : Word64) (n k : Nat), a.view = .unpriv → ∀ i ∈
    ([.drain a n, .resume a n, .halt a n, .resetRgn a n, .meadowMove a n v, .convCfgWrite a n k v, .convClr a n k, .timeIncrWrite a v,
      .timeSlewWrite a v, .timeNowSet a v, .tickPeriodWrite a v, .fordDelayWrite a n v, .valleyEpochWrite a v,
      .launchAtWrite a n v, .barrierArm a v, .portCfgWrite a v, .filterWrite a v, .filterInvalidate a v, .filterRead a v,
      .compCapWrite a n v, .compCapArm a n v, .gateOpen a v, .gateClose a v, .killClear a v, .keyCfgWrite a v, .slotWrite a v,
      .slotRead a v, .ringRead a v, .ringWrite a v, .zeroAll a v, .censusRequest a v, .swapArm a v, .save a n v, .restore a n v,
      .taskDoorbell a v, .abort a v, .taskRelease a v, .flush a n v, .replayStart a v, .replayStop a v, .passCfgWrite a n v,
      .captureArmWrite a v, .stop a v, .hotForceWrite a n v, .close a v, .pageEnWrite a n v, .blkReset a n, .freeze a n v,
      .evtForce a n v, .errHeadWrite a n v, .deadlineWrite a n v, .healthConfirm a v, .stage a v, .activateAt a v, .activate a v,
      .cancel a v, .enter a v, .exit a v, .pwrPtArm a v] : List Instr), exec i s = .next s

/-- A step takes the command at the front of the queue and runs it on the state with the queue's rest; with an empty queue time moves on by
one fabric cycle, which changes no queue (log entry 2). -/
def Obligations.StepRunsFront : Prop :=
  (∀ (s : State) (i : Instr) (rest : List Instr), s.pending = i :: rest → step s = exec i { s with pending := rest }) ∧
  (∀ s : State, s.pending = [] → step s = execTick s ∧ ∃ m c, step s = .next { s with mem := m, core := c })

/-- The block at reset (R16, R178, R550): the memories are in canonical form and hold zero everywhere, every register reads its reset value,
device time is zero, every region is idle without a binary, and nothing waits.
Clauses may rest on log entries 7, 8, 9 and 77, which are the model's own. -/
def Obligations.ResetIsClean : Prop :=
  Sound State.reset ∧ (∀ b, State.reset.mem.byte b = 0) ∧ State.reset.mem.poison = [] ∧
  (∀ a, State.reset.core.rd a = rstWord a % 2 ^ 64) ∧ State.reset.core.now = 0 ∧ (∀ g, State.reset.core.rgn g = Rgn.idle) ∧
  (∀ e, State.reset.core.taskAt e = Task.free) ∧ State.reset.core.safe = false ∧ State.reset.pending = []

/-- Every step keeps the memories in canonical form: bytes and flash list rising addresses and no byte that an unlisted address reads as. -/
def Obligations.StepsKeepSound : Prop :=
  ∀ s t : State, Sound s → step s = .next t → Sound t
end

