-- ==== Sys2Proof/Laws/State.lean ====
section
/-! SUPPORT. What each named update of the core leaves as it was, one lemma per field, so that no later proof unfolds a record
update. -/

namespace Sys2Proof.Machine

/-! ### The two shapes of a meaning -/

theorem coreStep_eq (f : Mem → Core → Core) (s : State) : coreStep f s = .next { s with core := f s.mem s.core } := rfl
theorem devStep_eq (f : Mem → Core → Mem × Core) (s : State) :
    devStep f s = .next { s with mem := (f s.mem s.core).1, core := (f s.mem s.core).2 } := rfl

/-! ### Core.wr -/

@[simp] theorem Core.wr_clk (c : Core) (a v : Nat) : (c.wr a v).clk = c.clk := rfl
@[simp] theorem Core.wr_cyc (c : Core) (a v : Nat) : (c.wr a v).cyc = c.cyc := rfl
@[simp] theorem Core.wr_census (c : Core) (a v : Nat) : (c.wr a v).census = c.census := rfl
@[simp] theorem Core.wr_latched (c : Core) (a v : Nat) : (c.wr a v).latched = c.latched := rfl
@[simp] theorem Core.wr_notices (c : Core) (a v : Nat) : (c.wr a v).notices = c.notices := rfl
@[simp] theorem Core.wr_noticeAt (c : Core) (a v : Nat) : (c.wr a v).noticeAt = c.noticeAt := rfl
@[simp] theorem Core.wr_errSeq (c : Core) (a v : Nat) : (c.wr a v).errSeq = c.errSeq := rfl
@[simp] theorem Core.wr_sep (c : Core) (a v : Nat) : (c.wr a v).sep = c.sep := rfl
@[simp] theorem Core.wr_ford (c : Core) (a v : Nat) : (c.wr a v).ford = c.ford := rfl
@[simp] theorem Core.wr_fab (c : Core) (a v : Nat) : (c.wr a v).fab = c.fab := rfl
@[simp] theorem Core.wr_key (c : Core) (a v : Nat) : (c.wr a v).key = c.key := rfl
@[simp] theorem Core.wr_rgns (c : Core) (a v : Nat) : (c.wr a v).rgns = c.rgns := rfl
@[simp] theorem Core.wr_comp (c : Core) (a v : Nat) : (c.wr a v).comp = c.comp := rfl
@[simp] theorem Core.wr_task (c : Core) (a v : Nat) : (c.wr a v).task = c.task := rfl
@[simp] theorem Core.wr_cap (c : Core) (a v : Nat) : (c.wr a v).cap = c.cap := rfl
@[simp] theorem Core.wr_lanes (c : Core) (a v : Nat) : (c.wr a v).lanes = c.lanes := rfl
@[simp] theorem Core.wr_kwn (c : Core) (a v : Nat) : (c.wr a v).kwn = c.kwn := rfl
@[simp] theorem Core.wr_sec (c : Core) (a v : Nat) : (c.wr a v).sec = c.sec := rfl
@[simp] theorem Core.wr_flt (c : Core) (a v : Nat) : (c.wr a v).flt = c.flt := rfl
@[simp] theorem Core.wr_pwr (c : Core) (a v : Nat) : (c.wr a v).pwr = c.pwr := rfl
@[simp] theorem Core.wr_pins (c : Core) (a v : Nat) : (c.wr a v).pins = c.pins := rfl
@[simp] theorem Core.wr_swapArmed (c : Core) (a v : Nat) : (c.wr a v).swapArmed = c.swapArmed := rfl
@[simp] theorem Core.wr_censusArmed (c : Core) (a v : Nat) : (c.wr a v).censusArmed = c.censusArmed := rfl
@[simp] theorem Core.wr_saving (c : Core) (a v : Nat) : (c.wr a v).saving = c.saving := rfl
@[simp] theorem Core.wr_progs (c : Core) (a v : Nat) : (c.wr a v).progs = c.progs := rfl
@[simp] theorem Core.wr_tmpls (c : Core) (a v : Nat) : (c.wr a v).tmpls = c.tmpls := rfl
@[simp] theorem Core.wr_out (c : Core) (a v : Nat) : (c.wr a v).out = c.out := rfl
@[simp] theorem Core.wr_free (c : Core) (a v : Nat) : (c.wr a v).free = c.free := rfl

/-! ### Core.setF -/

@[simp] theorem Core.setF_clk (c : Core) (a lo w v : Nat) : (c.setF a lo w v).clk = c.clk := rfl
@[simp] theorem Core.setF_cyc (c : Core) (a lo w v : Nat) : (c.setF a lo w v).cyc = c.cyc := rfl
@[simp] theorem Core.setF_census (c : Core) (a lo w v : Nat) : (c.setF a lo w v).census = c.census := rfl
@[simp] theorem Core.setF_latched (c : Core) (a lo w v : Nat) : (c.setF a lo w v).latched = c.latched := rfl
@[simp] theorem Core.setF_notices (c : Core) (a lo w v : Nat) : (c.setF a lo w v).notices = c.notices := rfl
@[simp] theorem Core.setF_noticeAt (c : Core) (a lo w v : Nat) : (c.setF a lo w v).noticeAt = c.noticeAt := rfl
@[simp] theorem Core.setF_errSeq (c : Core) (a lo w v : Nat) : (c.setF a lo w v).errSeq = c.errSeq := rfl
@[simp] theorem Core.setF_sep (c : Core) (a lo w v : Nat) : (c.setF a lo w v).sep = c.sep := rfl
@[simp] theorem Core.setF_ford (c : Core) (a lo w v : Nat) : (c.setF a lo w v).ford = c.ford := rfl
@[simp] theorem Core.setF_fab (c : Core) (a lo w v : Nat) : (c.setF a lo w v).fab = c.fab := rfl
@[simp] theorem Core.setF_key (c : Core) (a lo w v : Nat) : (c.setF a lo w v).key = c.key := rfl
@[simp] theorem Core.setF_rgns (c : Core) (a lo w v : Nat) : (c.setF a lo w v).rgns = c.rgns := rfl
@[simp] theorem Core.setF_comp (c : Core) (a lo w v : Nat) : (c.setF a lo w v).comp = c.comp := rfl
@[simp] theorem Core.setF_task (c : Core) (a lo w v : Nat) : (c.setF a lo w v).task = c.task := rfl
@[simp] theorem Core.setF_cap (c : Core) (a lo w v : Nat) : (c.setF a lo w v).cap = c.cap := rfl
@[simp] theorem Core.setF_lanes (c : Core) (a lo w v : Nat) : (c.setF a lo w v).lanes = c.lanes := rfl
@[simp] theorem Core.setF_kwn (c : Core) (a lo w v : Nat) : (c.setF a lo w v).kwn = c.kwn := rfl
@[simp] theorem Core.setF_sec (c : Core) (a lo w v : Nat) : (c.setF a lo w v).sec = c.sec := rfl
@[simp] theorem Core.setF_flt (c : Core) (a lo w v : Nat) : (c.setF a lo w v).flt = c.flt := rfl
@[simp] theorem Core.setF_pwr (c : Core) (a lo w v : Nat) : (c.setF a lo w v).pwr = c.pwr := rfl
@[simp] theorem Core.setF_pins (c : Core) (a lo w v : Nat) : (c.setF a lo w v).pins = c.pins := rfl
@[simp] theorem Core.setF_swapArmed (c : Core) (a lo w v : Nat) : (c.setF a lo w v).swapArmed = c.swapArmed := rfl
@[simp] theorem Core.setF_censusArmed (c : Core) (a lo w v : Nat) : (c.setF a lo w v).censusArmed = c.censusArmed := rfl
@[simp] theorem Core.setF_saving (c : Core) (a lo w v : Nat) : (c.setF a lo w v).saving = c.saving := rfl
@[simp] theorem Core.setF_progs (c : Core) (a lo w v : Nat) : (c.setF a lo w v).progs = c.progs := rfl
@[simp] theorem Core.setF_tmpls (c : Core) (a lo w v : Nat) : (c.setF a lo w v).tmpls = c.tmpls := rfl
@[simp] theorem Core.setF_out (c : Core) (a lo w v : Nat) : (c.setF a lo w v).out = c.out := rfl
@[simp] theorem Core.setF_free (c : Core) (a lo w v : Nat) : (c.setF a lo w v).free = c.free := rfl

/-! ### Core.setRgn -/

@[simp] theorem Core.setRgn_clk (c : Core) (g : Nat) (r : Rgn) : (c.setRgn g r).clk = c.clk := rfl
@[simp] theorem Core.setRgn_regs (c : Core) (g : Nat) (r : Rgn) : (c.setRgn g r).regs = c.regs := rfl
@[simp] theorem Core.setRgn_cyc (c : Core) (g : Nat) (r : Rgn) : (c.setRgn g r).cyc = c.cyc := rfl
@[simp] theorem Core.setRgn_census (c : Core) (g : Nat) (r : Rgn) : (c.setRgn g r).census = c.census := rfl
@[simp] theorem Core.setRgn_latched (c : Core) (g : Nat) (r : Rgn) : (c.setRgn g r).latched = c.latched := rfl
@[simp] theorem Core.setRgn_notices (c : Core) (g : Nat) (r : Rgn) : (c.setRgn g r).notices = c.notices := rfl
@[simp] theorem Core.setRgn_noticeAt (c : Core) (g : Nat) (r : Rgn) : (c.setRgn g r).noticeAt = c.noticeAt := rfl
@[simp] theorem Core.setRgn_errSeq (c : Core) (g : Nat) (r : Rgn) : (c.setRgn g r).errSeq = c.errSeq := rfl
@[simp] theorem Core.setRgn_sep (c : Core) (g : Nat) (r : Rgn) : (c.setRgn g r).sep = c.sep := rfl
@[simp] theorem Core.setRgn_ford (c : Core) (g : Nat) (r : Rgn) : (c.setRgn g r).ford = c.ford := rfl
@[simp] theorem Core.setRgn_fab (c : Core) (g : Nat) (r : Rgn) : (c.setRgn g r).fab = c.fab := rfl
@[simp] theorem Core.setRgn_key (c : Core) (g : Nat) (r : Rgn) : (c.setRgn g r).key = c.key := rfl
@[simp] theorem Core.setRgn_comp (c : Core) (g : Nat) (r : Rgn) : (c.setRgn g r).comp = c.comp := rfl
@[simp] theorem Core.setRgn_task (c : Core) (g : Nat) (r : Rgn) : (c.setRgn g r).task = c.task := rfl
@[simp] theorem Core.setRgn_cap (c : Core) (g : Nat) (r : Rgn) : (c.setRgn g r).cap = c.cap := rfl
@[simp] theorem Core.setRgn_lanes (c : Core) (g : Nat) (r : Rgn) : (c.setRgn g r).lanes = c.lanes := rfl
@[simp] theorem Core.setRgn_kwn (c : Core) (g : Nat) (r : Rgn) : (c.setRgn g r).kwn = c.kwn := rfl
@[simp] theorem Core.setRgn_sec (c : Core) (g : Nat) (r : Rgn) : (c.setRgn g r).sec = c.sec := rfl
@[simp] theorem Core.setRgn_flt (c : Core) (g : Nat) (r : Rgn) : (c.setRgn g r).flt = c.flt := rfl
@[simp] theorem Core.setRgn_pwr (c : Core) (g : Nat) (r : Rgn) : (c.setRgn g r).pwr = c.pwr := rfl
@[simp] theorem Core.setRgn_pins (c : Core) (g : Nat) (r : Rgn) : (c.setRgn g r).pins = c.pins := rfl
@[simp] theorem Core.setRgn_swapArmed (c : Core) (g : Nat) (r : Rgn) : (c.setRgn g r).swapArmed = c.swapArmed := rfl
@[simp] theorem Core.setRgn_censusArmed (c : Core) (g : Nat) (r : Rgn) : (c.setRgn g r).censusArmed = c.censusArmed := rfl
@[simp] theorem Core.setRgn_saving (c : Core) (g : Nat) (r : Rgn) : (c.setRgn g r).saving = c.saving := rfl
@[simp] theorem Core.setRgn_progs (c : Core) (g : Nat) (r : Rgn) : (c.setRgn g r).progs = c.progs := rfl
@[simp] theorem Core.setRgn_tmpls (c : Core) (g : Nat) (r : Rgn) : (c.setRgn g r).tmpls = c.tmpls := rfl
@[simp] theorem Core.setRgn_out (c : Core) (g : Nat) (r : Rgn) : (c.setRgn g r).out = c.out := rfl
@[simp] theorem Core.setRgn_free (c : Core) (g : Nat) (r : Rgn) : (c.setRgn g r).free = c.free := rfl

/-! ### Core.modRgn -/

@[simp] theorem Core.modRgn_clk (c : Core) (g : Nat) (f : Rgn → Rgn) : (c.modRgn g f).clk = c.clk := rfl
@[simp] theorem Core.modRgn_regs (c : Core) (g : Nat) (f : Rgn → Rgn) : (c.modRgn g f).regs = c.regs := rfl
@[simp] theorem Core.modRgn_cyc (c : Core) (g : Nat) (f : Rgn → Rgn) : (c.modRgn g f).cyc = c.cyc := rfl
@[simp] theorem Core.modRgn_census (c : Core) (g : Nat) (f : Rgn → Rgn) : (c.modRgn g f).census = c.census := rfl
@[simp] theorem Core.modRgn_latched (c : Core) (g : Nat) (f : Rgn → Rgn) : (c.modRgn g f).latched = c.latched := rfl
@[simp] theorem Core.modRgn_notices (c : Core) (g : Nat) (f : Rgn → Rgn) : (c.modRgn g f).notices = c.notices := rfl
@[simp] theorem Core.modRgn_noticeAt (c : Core) (g : Nat) (f : Rgn → Rgn) : (c.modRgn g f).noticeAt = c.noticeAt := rfl
@[simp] theorem Core.modRgn_errSeq (c : Core) (g : Nat) (f : Rgn → Rgn) : (c.modRgn g f).errSeq = c.errSeq := rfl
@[simp] theorem Core.modRgn_sep (c : Core) (g : Nat) (f : Rgn → Rgn) : (c.modRgn g f).sep = c.sep := rfl
@[simp] theorem Core.modRgn_ford (c : Core) (g : Nat) (f : Rgn → Rgn) : (c.modRgn g f).ford = c.ford := rfl
@[simp] theorem Core.modRgn_fab (c : Core) (g : Nat) (f : Rgn → Rgn) : (c.modRgn g f).fab = c.fab := rfl
@[simp] theorem Core.modRgn_key (c : Core) (g : Nat) (f : Rgn → Rgn) : (c.modRgn g f).key = c.key := rfl
@[simp] theorem Core.modRgn_comp (c : Core) (g : Nat) (f : Rgn → Rgn) : (c.modRgn g f).comp = c.comp := rfl
@[simp] theorem Core.modRgn_task (c : Core) (g : Nat) (f : Rgn → Rgn) : (c.modRgn g f).task = c.task := rfl
@[simp] theorem Core.modRgn_cap (c : Core) (g : Nat) (f : Rgn → Rgn) : (c.modRgn g f).cap = c.cap := rfl
@[simp] theorem Core.modRgn_lanes (c : Core) (g : Nat) (f : Rgn → Rgn) : (c.modRgn g f).lanes = c.lanes := rfl
@[simp] theorem Core.modRgn_kwn (c : Core) (g : Nat) (f : Rgn → Rgn) : (c.modRgn g f).kwn = c.kwn := rfl
@[simp] theorem Core.modRgn_sec (c : Core) (g : Nat) (f : Rgn → Rgn) : (c.modRgn g f).sec = c.sec := rfl
@[simp] theorem Core.modRgn_flt (c : Core) (g : Nat) (f : Rgn → Rgn) : (c.modRgn g f).flt = c.flt := rfl
@[simp] theorem Core.modRgn_pwr (c : Core) (g : Nat) (f : Rgn → Rgn) : (c.modRgn g f).pwr = c.pwr := rfl
@[simp] theorem Core.modRgn_pins (c : Core) (g : Nat) (f : Rgn → Rgn) : (c.modRgn g f).pins = c.pins := rfl
@[simp] theorem Core.modRgn_swapArmed (c : Core) (g : Nat) (f : Rgn → Rgn) : (c.modRgn g f).swapArmed = c.swapArmed := rfl
@[simp] theorem Core.modRgn_censusArmed (c : Core) (g : Nat) (f : Rgn → Rgn) : (c.modRgn g f).censusArmed = c.censusArmed := rfl
@[simp] theorem Core.modRgn_saving (c : Core) (g : Nat) (f : Rgn → Rgn) : (c.modRgn g f).saving = c.saving := rfl
@[simp] theorem Core.modRgn_progs (c : Core) (g : Nat) (f : Rgn → Rgn) : (c.modRgn g f).progs = c.progs := rfl
@[simp] theorem Core.modRgn_tmpls (c : Core) (g : Nat) (f : Rgn → Rgn) : (c.modRgn g f).tmpls = c.tmpls := rfl
@[simp] theorem Core.modRgn_out (c : Core) (g : Nat) (f : Rgn → Rgn) : (c.modRgn g f).out = c.out := rfl
@[simp] theorem Core.modRgn_free (c : Core) (g : Nat) (f : Rgn → Rgn) : (c.modRgn g f).free = c.free := rfl

/-! ### Core.setSess -/

@[simp] theorem Core.setSess_clk (c : Core) (i : Nat) (x : Sess) : (c.setSess i x).clk = c.clk := rfl
@[simp] theorem Core.setSess_regs (c : Core) (i : Nat) (x : Sess) : (c.setSess i x).regs = c.regs := rfl
@[simp] theorem Core.setSess_cyc (c : Core) (i : Nat) (x : Sess) : (c.setSess i x).cyc = c.cyc := rfl
@[simp] theorem Core.setSess_census (c : Core) (i : Nat) (x : Sess) : (c.setSess i x).census = c.census := rfl
@[simp] theorem Core.setSess_latched (c : Core) (i : Nat) (x : Sess) : (c.setSess i x).latched = c.latched := rfl
@[simp] theorem Core.setSess_notices (c : Core) (i : Nat) (x : Sess) : (c.setSess i x).notices = c.notices := rfl
@[simp] theorem Core.setSess_noticeAt (c : Core) (i : Nat) (x : Sess) : (c.setSess i x).noticeAt = c.noticeAt := rfl
@[simp] theorem Core.setSess_errSeq (c : Core) (i : Nat) (x : Sess) : (c.setSess i x).errSeq = c.errSeq := rfl
@[simp] theorem Core.setSess_sep (c : Core) (i : Nat) (x : Sess) : (c.setSess i x).sep = c.sep := rfl
@[simp] theorem Core.setSess_ford (c : Core) (i : Nat) (x : Sess) : (c.setSess i x).ford = c.ford := rfl
@[simp] theorem Core.setSess_fab (c : Core) (i : Nat) (x : Sess) : (c.setSess i x).fab = c.fab := rfl
@[simp] theorem Core.setSess_key (c : Core) (i : Nat) (x : Sess) : (c.setSess i x).key = c.key := rfl
@[simp] theorem Core.setSess_rgns (c : Core) (i : Nat) (x : Sess) : (c.setSess i x).rgns = c.rgns := rfl
@[simp] theorem Core.setSess_comp (c : Core) (i : Nat) (x : Sess) : (c.setSess i x).comp = c.comp := rfl
@[simp] theorem Core.setSess_task (c : Core) (i : Nat) (x : Sess) : (c.setSess i x).task = c.task := rfl
@[simp] theorem Core.setSess_cap (c : Core) (i : Nat) (x : Sess) : (c.setSess i x).cap = c.cap := rfl
@[simp] theorem Core.setSess_lanes (c : Core) (i : Nat) (x : Sess) : (c.setSess i x).lanes = c.lanes := rfl
@[simp] theorem Core.setSess_sec (c : Core) (i : Nat) (x : Sess) : (c.setSess i x).sec = c.sec := rfl
@[simp] theorem Core.setSess_flt (c : Core) (i : Nat) (x : Sess) : (c.setSess i x).flt = c.flt := rfl
@[simp] theorem Core.setSess_pwr (c : Core) (i : Nat) (x : Sess) : (c.setSess i x).pwr = c.pwr := rfl
@[simp] theorem Core.setSess_pins (c : Core) (i : Nat) (x : Sess) : (c.setSess i x).pins = c.pins := rfl
@[simp] theorem Core.setSess_swapArmed (c : Core) (i : Nat) (x : Sess) : (c.setSess i x).swapArmed = c.swapArmed := rfl
@[simp] theorem Core.setSess_censusArmed (c : Core) (i : Nat) (x : Sess) : (c.setSess i x).censusArmed = c.censusArmed := rfl
@[simp] theorem Core.setSess_saving (c : Core) (i : Nat) (x : Sess) : (c.setSess i x).saving = c.saving := rfl
@[simp] theorem Core.setSess_progs (c : Core) (i : Nat) (x : Sess) : (c.setSess i x).progs = c.progs := rfl
@[simp] theorem Core.setSess_tmpls (c : Core) (i : Nat) (x : Sess) : (c.setSess i x).tmpls = c.tmpls := rfl
@[simp] theorem Core.setSess_out (c : Core) (i : Nat) (x : Sess) : (c.setSess i x).out = c.out := rfl
@[simp] theorem Core.setSess_free (c : Core) (i : Nat) (x : Sess) : (c.setSess i x).free = c.free := rfl

/-! ### Core.message -/

@[simp] theorem Core.message_clk (c : Core) (i : Nat) (x : Sess) (t f r q : Nat) (b : List Byte) : (c.message i x t f r q b).clk = c.clk := rfl
@[simp] theorem Core.message_regs (c : Core) (i : Nat) (x : Sess) (t f r q : Nat) (b : List Byte) : (c.message i x t f r q b).regs = c.regs := rfl
@[simp] theorem Core.message_cyc (c : Core) (i : Nat) (x : Sess) (t f r q : Nat) (b : List Byte) : (c.message i x t f r q b).cyc = c.cyc := rfl
@[simp] theorem Core.message_census (c : Core) (i : Nat) (x : Sess) (t f r q : Nat) (b : List Byte) : (c.message i x t f r q b).census = c.census := rfl
@[simp] theorem Core.message_latched (c : Core) (i : Nat) (x : Sess) (t f r q : Nat) (b : List Byte) : (c.message i x t f r q b).latched = c.latched := rfl
@[simp] theorem Core.message_notices (c : Core) (i : Nat) (x : Sess) (t f r q : Nat) (b : List Byte) : (c.message i x t f r q b).notices = c.notices := rfl
@[simp] theorem Core.message_noticeAt (c : Core) (i : Nat) (x : Sess) (t f r q : Nat) (b : List Byte) : (c.message i x t f r q b).noticeAt = c.noticeAt := rfl
@[simp] theorem Core.message_errSeq (c : Core) (i : Nat) (x : Sess) (t f r q : Nat) (b : List Byte) : (c.message i x t f r q b).errSeq = c.errSeq := rfl
@[simp] theorem Core.message_sep (c : Core) (i : Nat) (x : Sess) (t f r q : Nat) (b : List Byte) : (c.message i x t f r q b).sep = c.sep := rfl
@[simp] theorem Core.message_ford (c : Core) (i : Nat) (x : Sess) (t f r q : Nat) (b : List Byte) : (c.message i x t f r q b).ford = c.ford := rfl
@[simp] theorem Core.message_fab (c : Core) (i : Nat) (x : Sess) (t f r q : Nat) (b : List Byte) : (c.message i x t f r q b).fab = c.fab := rfl
@[simp] theorem Core.message_key (c : Core) (i : Nat) (x : Sess) (t f r q : Nat) (b : List Byte) : (c.message i x t f r q b).key = c.key := rfl
@[simp] theorem Core.message_rgns (c : Core) (i : Nat) (x : Sess) (t f r q : Nat) (b : List Byte) : (c.message i x t f r q b).rgns = c.rgns := rfl
@[simp] theorem Core.message_comp (c : Core) (i : Nat) (x : Sess) (t f r q : Nat) (b : List Byte) : (c.message i x t f r q b).comp = c.comp := rfl
@[simp] theorem Core.message_task (c : Core) (i : Nat) (x : Sess) (t f r q : Nat) (b : List Byte) : (c.message i x t f r q b).task = c.task := rfl
@[simp] theorem Core.message_cap (c : Core) (i : Nat) (x : Sess) (t f r q : Nat) (b : List Byte) : (c.message i x t f r q b).cap = c.cap := rfl
@[simp] theorem Core.message_lanes (c : Core) (i : Nat) (x : Sess) (t f r q : Nat) (b : List Byte) : (c.message i x t f r q b).lanes = c.lanes := rfl
@[simp] theorem Core.message_sec (c : Core) (i : Nat) (x : Sess) (t f r q : Nat) (b : List Byte) : (c.message i x t f r q b).sec = c.sec := rfl
@[simp] theorem Core.message_flt (c : Core) (i : Nat) (x : Sess) (t f r q : Nat) (b : List Byte) : (c.message i x t f r q b).flt = c.flt := rfl
@[simp] theorem Core.message_pwr (c : Core) (i : Nat) (x : Sess) (t f r q : Nat) (b : List Byte) : (c.message i x t f r q b).pwr = c.pwr := rfl
@[simp] theorem Core.message_pins (c : Core) (i : Nat) (x : Sess) (t f r q : Nat) (b : List Byte) : (c.message i x t f r q b).pins = c.pins := rfl
@[simp] theorem Core.message_swapArmed (c : Core) (i : Nat) (x : Sess) (t f r q : Nat) (b : List Byte) : (c.message i x t f r q b).swapArmed = c.swapArmed := rfl
@[simp] theorem Core.message_censusArmed (c : Core) (i : Nat) (x : Sess) (t f r q : Nat) (b : List Byte) : (c.message i x t f r q b).censusArmed = c.censusArmed := rfl
@[simp] theorem Core.message_saving (c : Core) (i : Nat) (x : Sess) (t f r q : Nat) (b : List Byte) : (c.message i x t f r q b).saving = c.saving := rfl
@[simp] theorem Core.message_progs (c : Core) (i : Nat) (x : Sess) (t f r q : Nat) (b : List Byte) : (c.message i x t f r q b).progs = c.progs := rfl
@[simp] theorem Core.message_tmpls (c : Core) (i : Nat) (x : Sess) (t f r q : Nat) (b : List Byte) : (c.message i x t f r q b).tmpls = c.tmpls := rfl
@[simp] theorem Core.message_free (c : Core) (i : Nat) (x : Sess) (t f r q : Nat) (b : List Byte) : (c.message i x t f r q b).free = c.free := rfl

/-! ### Core.setQueue -/

@[simp] theorem Core.setQueue_clk (c : Core) (lp : Nat) (q : List TxFrame) : (c.setQueue lp q).clk = c.clk := rfl
@[simp] theorem Core.setQueue_regs (c : Core) (lp : Nat) (q : List TxFrame) : (c.setQueue lp q).regs = c.regs := rfl
@[simp] theorem Core.setQueue_cyc (c : Core) (lp : Nat) (q : List TxFrame) : (c.setQueue lp q).cyc = c.cyc := rfl
@[simp] theorem Core.setQueue_census (c : Core) (lp : Nat) (q : List TxFrame) : (c.setQueue lp q).census = c.census := rfl
@[simp] theorem Core.setQueue_latched (c : Core) (lp : Nat) (q : List TxFrame) : (c.setQueue lp q).latched = c.latched := rfl
@[simp] theorem Core.setQueue_notices (c : Core) (lp : Nat) (q : List TxFrame) : (c.setQueue lp q).notices = c.notices := rfl
@[simp] theorem Core.setQueue_noticeAt (c : Core) (lp : Nat) (q : List TxFrame) : (c.setQueue lp q).noticeAt = c.noticeAt := rfl
@[simp] theorem Core.setQueue_errSeq (c : Core) (lp : Nat) (q : List TxFrame) : (c.setQueue lp q).errSeq = c.errSeq := rfl
@[simp] theorem Core.setQueue_sep (c : Core) (lp : Nat) (q : List TxFrame) : (c.setQueue lp q).sep = c.sep := rfl
@[simp] theorem Core.setQueue_ford (c : Core) (lp : Nat) (q : List TxFrame) : (c.setQueue lp q).ford = c.ford := rfl
@[simp] theorem Core.setQueue_fab (c : Core) (lp : Nat) (q : List TxFrame) : (c.setQueue lp q).fab = c.fab := rfl
@[simp] theorem Core.setQueue_key (c : Core) (lp : Nat) (q : List TxFrame) : (c.setQueue lp q).key = c.key := rfl
@[simp] theorem Core.setQueue_rgns (c : Core) (lp : Nat) (q : List TxFrame) : (c.setQueue lp q).rgns = c.rgns := rfl
@[simp] theorem Core.setQueue_task (c : Core) (lp : Nat) (q : List TxFrame) : (c.setQueue lp q).task = c.task := rfl
@[simp] theorem Core.setQueue_cap (c : Core) (lp : Nat) (q : List TxFrame) : (c.setQueue lp q).cap = c.cap := rfl
@[simp] theorem Core.setQueue_lanes (c : Core) (lp : Nat) (q : List TxFrame) : (c.setQueue lp q).lanes = c.lanes := rfl
@[simp] theorem Core.setQueue_kwn (c : Core) (lp : Nat) (q : List TxFrame) : (c.setQueue lp q).kwn = c.kwn := rfl
@[simp] theorem Core.setQueue_sec (c : Core) (lp : Nat) (q : List TxFrame) : (c.setQueue lp q).sec = c.sec := rfl
@[simp] theorem Core.setQueue_flt (c : Core) (lp : Nat) (q : List TxFrame) : (c.setQueue lp q).flt = c.flt := rfl
@[simp] theorem Core.setQueue_pwr (c : Core) (lp : Nat) (q : List TxFrame) : (c.setQueue lp q).pwr = c.pwr := rfl
@[simp] theorem Core.setQueue_pins (c : Core) (lp : Nat) (q : List TxFrame) : (c.setQueue lp q).pins = c.pins := rfl
@[simp] theorem Core.setQueue_swapArmed (c : Core) (lp : Nat) (q : List TxFrame) : (c.setQueue lp q).swapArmed = c.swapArmed := rfl
@[simp] theorem Core.setQueue_censusArmed (c : Core) (lp : Nat) (q : List TxFrame) : (c.setQueue lp q).censusArmed = c.censusArmed := rfl
@[simp] theorem Core.setQueue_saving (c : Core) (lp : Nat) (q : List TxFrame) : (c.setQueue lp q).saving = c.saving := rfl
@[simp] theorem Core.setQueue_progs (c : Core) (lp : Nat) (q : List TxFrame) : (c.setQueue lp q).progs = c.progs := rfl
@[simp] theorem Core.setQueue_tmpls (c : Core) (lp : Nat) (q : List TxFrame) : (c.setQueue lp q).tmpls = c.tmpls := rfl
@[simp] theorem Core.setQueue_out (c : Core) (lp : Nat) (q : List TxFrame) : (c.setQueue lp q).out = c.out := rfl
@[simp] theorem Core.setQueue_free (c : Core) (lp : Nat) (q : List TxFrame) : (c.setQueue lp q).free = c.free := rfl

/-! ### Core.modResults -/

@[simp] theorem Core.modResults_clk (c : Core) (p : Result → Bool) (f : Result → Result) : (c.modResults p f).clk = c.clk := rfl
@[simp] theorem Core.modResults_regs (c : Core) (p : Result → Bool) (f : Result → Result) : (c.modResults p f).regs = c.regs := rfl
@[simp] theorem Core.modResults_cyc (c : Core) (p : Result → Bool) (f : Result → Result) : (c.modResults p f).cyc = c.cyc := rfl
@[simp] theorem Core.modResults_census (c : Core) (p : Result → Bool) (f : Result → Result) : (c.modResults p f).census = c.census := rfl
@[simp] theorem Core.modResults_latched (c : Core) (p : Result → Bool) (f : Result → Result) : (c.modResults p f).latched = c.latched := rfl
@[simp] theorem Core.modResults_notices (c : Core) (p : Result → Bool) (f : Result → Result) : (c.modResults p f).notices = c.notices := rfl
@[simp] theorem Core.modResults_noticeAt (c : Core) (p : Result → Bool) (f : Result → Result) : (c.modResults p f).noticeAt = c.noticeAt := rfl
@[simp] theorem Core.modResults_errSeq (c : Core) (p : Result → Bool) (f : Result → Result) : (c.modResults p f).errSeq = c.errSeq := rfl
@[simp] theorem Core.modResults_sep (c : Core) (p : Result → Bool) (f : Result → Result) : (c.modResults p f).sep = c.sep := rfl
@[simp] theorem Core.modResults_ford (c : Core) (p : Result → Bool) (f : Result → Result) : (c.modResults p f).ford = c.ford := rfl
@[simp] theorem Core.modResults_fab (c : Core) (p : Result → Bool) (f : Result → Result) : (c.modResults p f).fab = c.fab := rfl
@[simp] theorem Core.modResults_key (c : Core) (p : Result → Bool) (f : Result → Result) : (c.modResults p f).key = c.key := rfl
@[simp] theorem Core.modResults_rgns (c : Core) (p : Result → Bool) (f : Result → Result) : (c.modResults p f).rgns = c.rgns := rfl
@[simp] theorem Core.modResults_task (c : Core) (p : Result → Bool) (f : Result → Result) : (c.modResults p f).task = c.task := rfl
@[simp] theorem Core.modResults_cap (c : Core) (p : Result → Bool) (f : Result → Result) : (c.modResults p f).cap = c.cap := rfl
@[simp] theorem Core.modResults_lanes (c : Core) (p : Result → Bool) (f : Result → Result) : (c.modResults p f).lanes = c.lanes := rfl
@[simp] theorem Core.modResults_kwn (c : Core) (p : Result → Bool) (f : Result → Result) : (c.modResults p f).kwn = c.kwn := rfl
@[simp] theorem Core.modResults_sec (c : Core) (p : Result → Bool) (f : Result → Result) : (c.modResults p f).sec = c.sec := rfl
@[simp] theorem Core.modResults_flt (c : Core) (p : Result → Bool) (f : Result → Result) : (c.modResults p f).flt = c.flt := rfl
@[simp] theorem Core.modResults_pwr (c : Core) (p : Result → Bool) (f : Result → Result) : (c.modResults p f).pwr = c.pwr := rfl
@[simp] theorem Core.modResults_pins (c : Core) (p : Result → Bool) (f : Result → Result) : (c.modResults p f).pins = c.pins := rfl
@[simp] theorem Core.modResults_swapArmed (c : Core) (p : Result → Bool) (f : Result → Result) : (c.modResults p f).swapArmed = c.swapArmed := rfl
@[simp] theorem Core.modResults_censusArmed (c : Core) (p : Result → Bool) (f : Result → Result) : (c.modResults p f).censusArmed = c.censusArmed := rfl
@[simp] theorem Core.modResults_saving (c : Core) (p : Result → Bool) (f : Result → Result) : (c.modResults p f).saving = c.saving := rfl
@[simp] theorem Core.modResults_progs (c : Core) (p : Result → Bool) (f : Result → Result) : (c.modResults p f).progs = c.progs := rfl
@[simp] theorem Core.modResults_tmpls (c : Core) (p : Result → Bool) (f : Result → Result) : (c.modResults p f).tmpls = c.tmpls := rfl
@[simp] theorem Core.modResults_out (c : Core) (p : Result → Bool) (f : Result → Result) : (c.modResults p f).out = c.out := rfl
@[simp] theorem Core.modResults_free (c : Core) (p : Result → Bool) (f : Result → Result) : (c.modResults p f).free = c.free := rfl

/-! ### Core.setHeld -/

@[simp] theorem Core.setHeld_clk (c : Core) (cell port : Nat) (l : List Held) : (c.setHeld cell port l).clk = c.clk := rfl
@[simp] theorem Core.setHeld_regs (c : Core) (cell port : Nat) (l : List Held) : (c.setHeld cell port l).regs = c.regs := rfl
@[simp] theorem Core.setHeld_cyc (c : Core) (cell port : Nat) (l : List Held) : (c.setHeld cell port l).cyc = c.cyc := rfl
@[simp] theorem Core.setHeld_census (c : Core) (cell port : Nat) (l : List Held) : (c.setHeld cell port l).census = c.census := rfl
@[simp] theorem Core.setHeld_latched (c : Core) (cell port : Nat) (l : List Held) : (c.setHeld cell port l).latched = c.latched := rfl
@[simp] theorem Core.setHeld_notices (c : Core) (cell port : Nat) (l : List Held) : (c.setHeld cell port l).notices = c.notices := rfl
@[simp] theorem Core.setHeld_noticeAt (c : Core) (cell port : Nat) (l : List Held) : (c.setHeld cell port l).noticeAt = c.noticeAt := rfl
@[simp] theorem Core.setHeld_errSeq (c : Core) (cell port : Nat) (l : List Held) : (c.setHeld cell port l).errSeq = c.errSeq := rfl
@[simp] theorem Core.setHeld_sep (c : Core) (cell port : Nat) (l : List Held) : (c.setHeld cell port l).sep = c.sep := rfl
@[simp] theorem Core.setHeld_ford (c : Core) (cell port : Nat) (l : List Held) : (c.setHeld cell port l).ford = c.ford := rfl
@[simp] theorem Core.setHeld_key (c : Core) (cell port : Nat) (l : List Held) : (c.setHeld cell port l).key = c.key := rfl
@[simp] theorem Core.setHeld_rgns (c : Core) (cell port : Nat) (l : List Held) : (c.setHeld cell port l).rgns = c.rgns := rfl
@[simp] theorem Core.setHeld_comp (c : Core) (cell port : Nat) (l : List Held) : (c.setHeld cell port l).comp = c.comp := rfl
@[simp] theorem Core.setHeld_task (c : Core) (cell port : Nat) (l : List Held) : (c.setHeld cell port l).task = c.task := rfl
@[simp] theorem Core.setHeld_cap (c : Core) (cell port : Nat) (l : List Held) : (c.setHeld cell port l).cap = c.cap := rfl
@[simp] theorem Core.setHeld_lanes (c : Core) (cell port : Nat) (l : List Held) : (c.setHeld cell port l).lanes = c.lanes := rfl
@[simp] theorem Core.setHeld_kwn (c : Core) (cell port : Nat) (l : List Held) : (c.setHeld cell port l).kwn = c.kwn := rfl
@[simp] theorem Core.setHeld_sec (c : Core) (cell port : Nat) (l : List Held) : (c.setHeld cell port l).sec = c.sec := rfl
@[simp] theorem Core.setHeld_flt (c : Core) (cell port : Nat) (l : List Held) : (c.setHeld cell port l).flt = c.flt := rfl
@[simp] theorem Core.setHeld_pwr (c : Core) (cell port : Nat) (l : List Held) : (c.setHeld cell port l).pwr = c.pwr := rfl
@[simp] theorem Core.setHeld_pins (c : Core) (cell port : Nat) (l : List Held) : (c.setHeld cell port l).pins = c.pins := rfl
@[simp] theorem Core.setHeld_swapArmed (c : Core) (cell port : Nat) (l : List Held) : (c.setHeld cell port l).swapArmed = c.swapArmed := rfl
@[simp] theorem Core.setHeld_censusArmed (c : Core) (cell port : Nat) (l : List Held) : (c.setHeld cell port l).censusArmed = c.censusArmed := rfl
@[simp] theorem Core.setHeld_saving (c : Core) (cell port : Nat) (l : List Held) : (c.setHeld cell port l).saving = c.saving := rfl
@[simp] theorem Core.setHeld_progs (c : Core) (cell port : Nat) (l : List Held) : (c.setHeld cell port l).progs = c.progs := rfl
@[simp] theorem Core.setHeld_tmpls (c : Core) (cell port : Nat) (l : List Held) : (c.setHeld cell port l).tmpls = c.tmpls := rfl
@[simp] theorem Core.setHeld_out (c : Core) (cell port : Nat) (l : List Held) : (c.setHeld cell port l).out = c.out := rfl
@[simp] theorem Core.setHeld_free (c : Core) (cell port : Nat) (l : List Held) : (c.setHeld cell port l).free = c.free := rfl

/-! ### Core.markFired -/

@[simp] theorem Core.markFired_clk (c : Core) (cell grp : Nat) : (c.markFired cell grp).clk = c.clk := rfl
@[simp] theorem Core.markFired_regs (c : Core) (cell grp : Nat) : (c.markFired cell grp).regs = c.regs := rfl
@[simp] theorem Core.markFired_cyc (c : Core) (cell grp : Nat) : (c.markFired cell grp).cyc = c.cyc := rfl
@[simp] theorem Core.markFired_census (c : Core) (cell grp : Nat) : (c.markFired cell grp).census = c.census := rfl
@[simp] theorem Core.markFired_latched (c : Core) (cell grp : Nat) : (c.markFired cell grp).latched = c.latched := rfl
@[simp] theorem Core.markFired_notices (c : Core) (cell grp : Nat) : (c.markFired cell grp).notices = c.notices := rfl
@[simp] theorem Core.markFired_noticeAt (c : Core) (cell grp : Nat) : (c.markFired cell grp).noticeAt = c.noticeAt := rfl
@[simp] theorem Core.markFired_errSeq (c : Core) (cell grp : Nat) : (c.markFired cell grp).errSeq = c.errSeq := rfl
@[simp] theorem Core.markFired_sep (c : Core) (cell grp : Nat) : (c.markFired cell grp).sep = c.sep := rfl
@[simp] theorem Core.markFired_ford (c : Core) (cell grp : Nat) : (c.markFired cell grp).ford = c.ford := rfl
@[simp] theorem Core.markFired_key (c : Core) (cell grp : Nat) : (c.markFired cell grp).key = c.key := rfl
@[simp] theorem Core.markFired_rgns (c : Core) (cell grp : Nat) : (c.markFired cell grp).rgns = c.rgns := rfl
@[simp] theorem Core.markFired_comp (c : Core) (cell grp : Nat) : (c.markFired cell grp).comp = c.comp := rfl
@[simp] theorem Core.markFired_task (c : Core) (cell grp : Nat) : (c.markFired cell grp).task = c.task := rfl
@[simp] theorem Core.markFired_cap (c : Core) (cell grp : Nat) : (c.markFired cell grp).cap = c.cap := rfl
@[simp] theorem Core.markFired_lanes (c : Core) (cell grp : Nat) : (c.markFired cell grp).lanes = c.lanes := rfl
@[simp] theorem Core.markFired_kwn (c : Core) (cell grp : Nat) : (c.markFired cell grp).kwn = c.kwn := rfl
@[simp] theorem Core.markFired_sec (c : Core) (cell grp : Nat) : (c.markFired cell grp).sec = c.sec := rfl
@[simp] theorem Core.markFired_flt (c : Core) (cell grp : Nat) : (c.markFired cell grp).flt = c.flt := rfl
@[simp] theorem Core.markFired_pwr (c : Core) (cell grp : Nat) : (c.markFired cell grp).pwr = c.pwr := rfl
@[simp] theorem Core.markFired_pins (c : Core) (cell grp : Nat) : (c.markFired cell grp).pins = c.pins := rfl
@[simp] theorem Core.markFired_swapArmed (c : Core) (cell grp : Nat) : (c.markFired cell grp).swapArmed = c.swapArmed := rfl
@[simp] theorem Core.markFired_censusArmed (c : Core) (cell grp : Nat) : (c.markFired cell grp).censusArmed = c.censusArmed := rfl
@[simp] theorem Core.markFired_saving (c : Core) (cell grp : Nat) : (c.markFired cell grp).saving = c.saving := rfl
@[simp] theorem Core.markFired_progs (c : Core) (cell grp : Nat) : (c.markFired cell grp).progs = c.progs := rfl
@[simp] theorem Core.markFired_tmpls (c : Core) (cell grp : Nat) : (c.markFired cell grp).tmpls = c.tmpls := rfl
@[simp] theorem Core.markFired_out (c : Core) (cell grp : Nat) : (c.markFired cell grp).out = c.out := rfl
@[simp] theorem Core.markFired_free (c : Core) (cell grp : Nat) : (c.markFired cell grp).free = c.free := rfl

/-! ### Core.place -/

@[simp] theorem Core.place_clk (c : Core) (cell : Nat) (x : Ctx) (lat : Nat) (t : Token) (l : List (Nat × Nat)) : (c.place cell x lat t l).clk = c.clk := rfl
@[simp] theorem Core.place_regs (c : Core) (cell : Nat) (x : Ctx) (lat : Nat) (t : Token) (l : List (Nat × Nat)) : (c.place cell x lat t l).regs = c.regs := rfl
@[simp] theorem Core.place_cyc (c : Core) (cell : Nat) (x : Ctx) (lat : Nat) (t : Token) (l : List (Nat × Nat)) : (c.place cell x lat t l).cyc = c.cyc := rfl
@[simp] theorem Core.place_census (c : Core) (cell : Nat) (x : Ctx) (lat : Nat) (t : Token) (l : List (Nat × Nat)) : (c.place cell x lat t l).census = c.census := rfl
@[simp] theorem Core.place_latched (c : Core) (cell : Nat) (x : Ctx) (lat : Nat) (t : Token) (l : List (Nat × Nat)) : (c.place cell x lat t l).latched = c.latched := rfl
@[simp] theorem Core.place_notices (c : Core) (cell : Nat) (x : Ctx) (lat : Nat) (t : Token) (l : List (Nat × Nat)) : (c.place cell x lat t l).notices = c.notices := rfl
@[simp] theorem Core.place_noticeAt (c : Core) (cell : Nat) (x : Ctx) (lat : Nat) (t : Token) (l : List (Nat × Nat)) : (c.place cell x lat t l).noticeAt = c.noticeAt := rfl
@[simp] theorem Core.place_errSeq (c : Core) (cell : Nat) (x : Ctx) (lat : Nat) (t : Token) (l : List (Nat × Nat)) : (c.place cell x lat t l).errSeq = c.errSeq := rfl
@[simp] theorem Core.place_sep (c : Core) (cell : Nat) (x : Ctx) (lat : Nat) (t : Token) (l : List (Nat × Nat)) : (c.place cell x lat t l).sep = c.sep := rfl
@[simp] theorem Core.place_ford (c : Core) (cell : Nat) (x : Ctx) (lat : Nat) (t : Token) (l : List (Nat × Nat)) : (c.place cell x lat t l).ford = c.ford := rfl
@[simp] theorem Core.place_key (c : Core) (cell : Nat) (x : Ctx) (lat : Nat) (t : Token) (l : List (Nat × Nat)) : (c.place cell x lat t l).key = c.key := rfl
@[simp] theorem Core.place_rgns (c : Core) (cell : Nat) (x : Ctx) (lat : Nat) (t : Token) (l : List (Nat × Nat)) : (c.place cell x lat t l).rgns = c.rgns := rfl
@[simp] theorem Core.place_comp (c : Core) (cell : Nat) (x : Ctx) (lat : Nat) (t : Token) (l : List (Nat × Nat)) : (c.place cell x lat t l).comp = c.comp := rfl
@[simp] theorem Core.place_task (c : Core) (cell : Nat) (x : Ctx) (lat : Nat) (t : Token) (l : List (Nat × Nat)) : (c.place cell x lat t l).task = c.task := rfl
@[simp] theorem Core.place_cap (c : Core) (cell : Nat) (x : Ctx) (lat : Nat) (t : Token) (l : List (Nat × Nat)) : (c.place cell x lat t l).cap = c.cap := rfl
@[simp] theorem Core.place_lanes (c : Core) (cell : Nat) (x : Ctx) (lat : Nat) (t : Token) (l : List (Nat × Nat)) : (c.place cell x lat t l).lanes = c.lanes := rfl
@[simp] theorem Core.place_kwn (c : Core) (cell : Nat) (x : Ctx) (lat : Nat) (t : Token) (l : List (Nat × Nat)) : (c.place cell x lat t l).kwn = c.kwn := rfl
@[simp] theorem Core.place_sec (c : Core) (cell : Nat) (x : Ctx) (lat : Nat) (t : Token) (l : List (Nat × Nat)) : (c.place cell x lat t l).sec = c.sec := rfl
@[simp] theorem Core.place_flt (c : Core) (cell : Nat) (x : Ctx) (lat : Nat) (t : Token) (l : List (Nat × Nat)) : (c.place cell x lat t l).flt = c.flt := rfl
@[simp] theorem Core.place_pwr (c : Core) (cell : Nat) (x : Ctx) (lat : Nat) (t : Token) (l : List (Nat × Nat)) : (c.place cell x lat t l).pwr = c.pwr := rfl
@[simp] theorem Core.place_pins (c : Core) (cell : Nat) (x : Ctx) (lat : Nat) (t : Token) (l : List (Nat × Nat)) : (c.place cell x lat t l).pins = c.pins := rfl
@[simp] theorem Core.place_swapArmed (c : Core) (cell : Nat) (x : Ctx) (lat : Nat) (t : Token) (l : List (Nat × Nat)) : (c.place cell x lat t l).swapArmed = c.swapArmed := rfl
@[simp] theorem Core.place_censusArmed (c : Core) (cell : Nat) (x : Ctx) (lat : Nat) (t : Token) (l : List (Nat × Nat)) : (c.place cell x lat t l).censusArmed = c.censusArmed := rfl
@[simp] theorem Core.place_saving (c : Core) (cell : Nat) (x : Ctx) (lat : Nat) (t : Token) (l : List (Nat × Nat)) : (c.place cell x lat t l).saving = c.saving := rfl
@[simp] theorem Core.place_progs (c : Core) (cell : Nat) (x : Ctx) (lat : Nat) (t : Token) (l : List (Nat × Nat)) : (c.place cell x lat t l).progs = c.progs := rfl
@[simp] theorem Core.place_tmpls (c : Core) (cell : Nat) (x : Ctx) (lat : Nat) (t : Token) (l : List (Nat × Nat)) : (c.place cell x lat t l).tmpls = c.tmpls := rfl
@[simp] theorem Core.place_out (c : Core) (cell : Nat) (x : Ctx) (lat : Nat) (t : Token) (l : List (Nat × Nat)) : (c.place cell x lat t l).out = c.out := rfl
@[simp] theorem Core.place_free (c : Core) (cell : Nat) (x : Ctx) (lat : Nat) (t : Token) (l : List (Nat × Nat)) : (c.place cell x lat t l).free = c.free := rfl

/-! ### Core.putFrame -/

@[simp] theorem Core.putFrame_clk (c : Core) (f : Frame) : (c.putFrame f).clk = c.clk := rfl
@[simp] theorem Core.putFrame_regs (c : Core) (f : Frame) : (c.putFrame f).regs = c.regs := rfl
@[simp] theorem Core.putFrame_cyc (c : Core) (f : Frame) : (c.putFrame f).cyc = c.cyc := rfl
@[simp] theorem Core.putFrame_census (c : Core) (f : Frame) : (c.putFrame f).census = c.census := rfl
@[simp] theorem Core.putFrame_latched (c : Core) (f : Frame) : (c.putFrame f).latched = c.latched := rfl
@[simp] theorem Core.putFrame_notices (c : Core) (f : Frame) : (c.putFrame f).notices = c.notices := rfl
@[simp] theorem Core.putFrame_noticeAt (c : Core) (f : Frame) : (c.putFrame f).noticeAt = c.noticeAt := rfl
@[simp] theorem Core.putFrame_errSeq (c : Core) (f : Frame) : (c.putFrame f).errSeq = c.errSeq := rfl
@[simp] theorem Core.putFrame_ford (c : Core) (f : Frame) : (c.putFrame f).ford = c.ford := rfl
@[simp] theorem Core.putFrame_fab (c : Core) (f : Frame) : (c.putFrame f).fab = c.fab := rfl
@[simp] theorem Core.putFrame_key (c : Core) (f : Frame) : (c.putFrame f).key = c.key := rfl
@[simp] theorem Core.putFrame_rgns (c : Core) (f : Frame) : (c.putFrame f).rgns = c.rgns := rfl
@[simp] theorem Core.putFrame_comp (c : Core) (f : Frame) : (c.putFrame f).comp = c.comp := rfl
@[simp] theorem Core.putFrame_task (c : Core) (f : Frame) : (c.putFrame f).task = c.task := rfl
@[simp] theorem Core.putFrame_cap (c : Core) (f : Frame) : (c.putFrame f).cap = c.cap := rfl
@[simp] theorem Core.putFrame_lanes (c : Core) (f : Frame) : (c.putFrame f).lanes = c.lanes := rfl
@[simp] theorem Core.putFrame_kwn (c : Core) (f : Frame) : (c.putFrame f).kwn = c.kwn := rfl
@[simp] theorem Core.putFrame_sec (c : Core) (f : Frame) : (c.putFrame f).sec = c.sec := rfl
@[simp] theorem Core.putFrame_flt (c : Core) (f : Frame) : (c.putFrame f).flt = c.flt := rfl
@[simp] theorem Core.putFrame_pwr (c : Core) (f : Frame) : (c.putFrame f).pwr = c.pwr := rfl
@[simp] theorem Core.putFrame_pins (c : Core) (f : Frame) : (c.putFrame f).pins = c.pins := rfl
@[simp] theorem Core.putFrame_swapArmed (c : Core) (f : Frame) : (c.putFrame f).swapArmed = c.swapArmed := rfl
@[simp] theorem Core.putFrame_censusArmed (c : Core) (f : Frame) : (c.putFrame f).censusArmed = c.censusArmed := rfl
@[simp] theorem Core.putFrame_saving (c : Core) (f : Frame) : (c.putFrame f).saving = c.saving := rfl
@[simp] theorem Core.putFrame_progs (c : Core) (f : Frame) : (c.putFrame f).progs = c.progs := rfl
@[simp] theorem Core.putFrame_tmpls (c : Core) (f : Frame) : (c.putFrame f).tmpls = c.tmpls := rfl
@[simp] theorem Core.putFrame_out (c : Core) (f : Frame) : (c.putFrame f).out = c.out := rfl
@[simp] theorem Core.putFrame_free (c : Core) (f : Frame) : (c.putFrame f).free = c.free := rfl

/-! ### Core.finalise -/

@[simp] theorem Core.finalise_clk (c : Core) (p : Obs → Bool) (f : Obs → Obs) : (c.finalise p f).clk = c.clk := rfl
@[simp] theorem Core.finalise_regs (c : Core) (p : Obs → Bool) (f : Obs → Obs) : (c.finalise p f).regs = c.regs := rfl
@[simp] theorem Core.finalise_cyc (c : Core) (p : Obs → Bool) (f : Obs → Obs) : (c.finalise p f).cyc = c.cyc := rfl
@[simp] theorem Core.finalise_census (c : Core) (p : Obs → Bool) (f : Obs → Obs) : (c.finalise p f).census = c.census := rfl
@[simp] theorem Core.finalise_latched (c : Core) (p : Obs → Bool) (f : Obs → Obs) : (c.finalise p f).latched = c.latched := rfl
@[simp] theorem Core.finalise_notices (c : Core) (p : Obs → Bool) (f : Obs → Obs) : (c.finalise p f).notices = c.notices := rfl
@[simp] theorem Core.finalise_noticeAt (c : Core) (p : Obs → Bool) (f : Obs → Obs) : (c.finalise p f).noticeAt = c.noticeAt := rfl
@[simp] theorem Core.finalise_errSeq (c : Core) (p : Obs → Bool) (f : Obs → Obs) : (c.finalise p f).errSeq = c.errSeq := rfl
@[simp] theorem Core.finalise_sep (c : Core) (p : Obs → Bool) (f : Obs → Obs) : (c.finalise p f).sep = c.sep := rfl
@[simp] theorem Core.finalise_ford (c : Core) (p : Obs → Bool) (f : Obs → Obs) : (c.finalise p f).ford = c.ford := rfl
@[simp] theorem Core.finalise_fab (c : Core) (p : Obs → Bool) (f : Obs → Obs) : (c.finalise p f).fab = c.fab := rfl
@[simp] theorem Core.finalise_key (c : Core) (p : Obs → Bool) (f : Obs → Obs) : (c.finalise p f).key = c.key := rfl
@[simp] theorem Core.finalise_rgns (c : Core) (p : Obs → Bool) (f : Obs → Obs) : (c.finalise p f).rgns = c.rgns := rfl
@[simp] theorem Core.finalise_comp (c : Core) (p : Obs → Bool) (f : Obs → Obs) : (c.finalise p f).comp = c.comp := rfl
@[simp] theorem Core.finalise_task (c : Core) (p : Obs → Bool) (f : Obs → Obs) : (c.finalise p f).task = c.task := rfl
@[simp] theorem Core.finalise_lanes (c : Core) (p : Obs → Bool) (f : Obs → Obs) : (c.finalise p f).lanes = c.lanes := rfl
@[simp] theorem Core.finalise_kwn (c : Core) (p : Obs → Bool) (f : Obs → Obs) : (c.finalise p f).kwn = c.kwn := rfl
@[simp] theorem Core.finalise_sec (c : Core) (p : Obs → Bool) (f : Obs → Obs) : (c.finalise p f).sec = c.sec := rfl
@[simp] theorem Core.finalise_flt (c : Core) (p : Obs → Bool) (f : Obs → Obs) : (c.finalise p f).flt = c.flt := rfl
@[simp] theorem Core.finalise_pwr (c : Core) (p : Obs → Bool) (f : Obs → Obs) : (c.finalise p f).pwr = c.pwr := rfl
@[simp] theorem Core.finalise_pins (c : Core) (p : Obs → Bool) (f : Obs → Obs) : (c.finalise p f).pins = c.pins := rfl
@[simp] theorem Core.finalise_swapArmed (c : Core) (p : Obs → Bool) (f : Obs → Obs) : (c.finalise p f).swapArmed = c.swapArmed := rfl
@[simp] theorem Core.finalise_censusArmed (c : Core) (p : Obs → Bool) (f : Obs → Obs) : (c.finalise p f).censusArmed = c.censusArmed := rfl
@[simp] theorem Core.finalise_saving (c : Core) (p : Obs → Bool) (f : Obs → Obs) : (c.finalise p f).saving = c.saving := rfl
@[simp] theorem Core.finalise_progs (c : Core) (p : Obs → Bool) (f : Obs → Obs) : (c.finalise p f).progs = c.progs := rfl
@[simp] theorem Core.finalise_tmpls (c : Core) (p : Obs → Bool) (f : Obs → Obs) : (c.finalise p f).tmpls = c.tmpls := rfl
@[simp] theorem Core.finalise_out (c : Core) (p : Obs → Bool) (f : Obs → Obs) : (c.finalise p f).out = c.out := rfl
@[simp] theorem Core.finalise_free (c : Core) (p : Obs → Bool) (f : Obs → Obs) : (c.finalise p f).free = c.free := rfl

/-! ### Core.emit -/

@[simp] theorem Core.emit_clk (c : Core) (x : Out) : (c.emit x).clk = c.clk := rfl
@[simp] theorem Core.emit_regs (c : Core) (x : Out) : (c.emit x).regs = c.regs := rfl
@[simp] theorem Core.emit_cyc (c : Core) (x : Out) : (c.emit x).cyc = c.cyc := rfl
@[simp] theorem Core.emit_census (c : Core) (x : Out) : (c.emit x).census = c.census := rfl
@[simp] theorem Core.emit_latched (c : Core) (x : Out) : (c.emit x).latched = c.latched := rfl
@[simp] theorem Core.emit_notices (c : Core) (x : Out) : (c.emit x).notices = c.notices := rfl
@[simp] theorem Core.emit_noticeAt (c : Core) (x : Out) : (c.emit x).noticeAt = c.noticeAt := rfl
@[simp] theorem Core.emit_errSeq (c : Core) (x : Out) : (c.emit x).errSeq = c.errSeq := rfl
@[simp] theorem Core.emit_sep (c : Core) (x : Out) : (c.emit x).sep = c.sep := rfl
@[simp] theorem Core.emit_ford (c : Core) (x : Out) : (c.emit x).ford = c.ford := rfl
@[simp] theorem Core.emit_fab (c : Core) (x : Out) : (c.emit x).fab = c.fab := rfl
@[simp] theorem Core.emit_key (c : Core) (x : Out) : (c.emit x).key = c.key := rfl
@[simp] theorem Core.emit_rgns (c : Core) (x : Out) : (c.emit x).rgns = c.rgns := rfl
@[simp] theorem Core.emit_comp (c : Core) (x : Out) : (c.emit x).comp = c.comp := rfl
@[simp] theorem Core.emit_task (c : Core) (x : Out) : (c.emit x).task = c.task := rfl
@[simp] theorem Core.emit_cap (c : Core) (x : Out) : (c.emit x).cap = c.cap := rfl
@[simp] theorem Core.emit_lanes (c : Core) (x : Out) : (c.emit x).lanes = c.lanes := rfl
@[simp] theorem Core.emit_kwn (c : Core) (x : Out) : (c.emit x).kwn = c.kwn := rfl
@[simp] theorem Core.emit_sec (c : Core) (x : Out) : (c.emit x).sec = c.sec := rfl
@[simp] theorem Core.emit_flt (c : Core) (x : Out) : (c.emit x).flt = c.flt := rfl
@[simp] theorem Core.emit_pwr (c : Core) (x : Out) : (c.emit x).pwr = c.pwr := rfl
@[simp] theorem Core.emit_pins (c : Core) (x : Out) : (c.emit x).pins = c.pins := rfl
@[simp] theorem Core.emit_swapArmed (c : Core) (x : Out) : (c.emit x).swapArmed = c.swapArmed := rfl
@[simp] theorem Core.emit_censusArmed (c : Core) (x : Out) : (c.emit x).censusArmed = c.censusArmed := rfl
@[simp] theorem Core.emit_saving (c : Core) (x : Out) : (c.emit x).saving = c.saving := rfl
@[simp] theorem Core.emit_progs (c : Core) (x : Out) : (c.emit x).progs = c.progs := rfl
@[simp] theorem Core.emit_tmpls (c : Core) (x : Out) : (c.emit x).tmpls = c.tmpls := rfl
@[simp] theorem Core.emit_free (c : Core) (x : Out) : (c.emit x).free = c.free := rfl

/-! ### Core.setLane -/

@[simp] theorem Core.setLane_clk (c : Core) (l : Nat) (x : Lane) : (c.setLane l x).clk = c.clk := rfl
@[simp] theorem Core.setLane_regs (c : Core) (l : Nat) (x : Lane) : (c.setLane l x).regs = c.regs := rfl
@[simp] theorem Core.setLane_cyc (c : Core) (l : Nat) (x : Lane) : (c.setLane l x).cyc = c.cyc := rfl
@[simp] theorem Core.setLane_census (c : Core) (l : Nat) (x : Lane) : (c.setLane l x).census = c.census := rfl
@[simp] theorem Core.setLane_latched (c : Core) (l : Nat) (x : Lane) : (c.setLane l x).latched = c.latched := rfl
@[simp] theorem Core.setLane_notices (c : Core) (l : Nat) (x : Lane) : (c.setLane l x).notices = c.notices := rfl
@[simp] theorem Core.setLane_noticeAt (c : Core) (l : Nat) (x : Lane) : (c.setLane l x).noticeAt = c.noticeAt := rfl
@[simp] theorem Core.setLane_errSeq (c : Core) (l : Nat) (x : Lane) : (c.setLane l x).errSeq = c.errSeq := rfl
@[simp] theorem Core.setLane_sep (c : Core) (l : Nat) (x : Lane) : (c.setLane l x).sep = c.sep := rfl
@[simp] theorem Core.setLane_ford (c : Core) (l : Nat) (x : Lane) : (c.setLane l x).ford = c.ford := rfl
@[simp] theorem Core.setLane_fab (c : Core) (l : Nat) (x : Lane) : (c.setLane l x).fab = c.fab := rfl
@[simp] theorem Core.setLane_key (c : Core) (l : Nat) (x : Lane) : (c.setLane l x).key = c.key := rfl
@[simp] theorem Core.setLane_rgns (c : Core) (l : Nat) (x : Lane) : (c.setLane l x).rgns = c.rgns := rfl
@[simp] theorem Core.setLane_comp (c : Core) (l : Nat) (x : Lane) : (c.setLane l x).comp = c.comp := rfl
@[simp] theorem Core.setLane_task (c : Core) (l : Nat) (x : Lane) : (c.setLane l x).task = c.task := rfl
@[simp] theorem Core.setLane_cap (c : Core) (l : Nat) (x : Lane) : (c.setLane l x).cap = c.cap := rfl
@[simp] theorem Core.setLane_kwn (c : Core) (l : Nat) (x : Lane) : (c.setLane l x).kwn = c.kwn := rfl
@[simp] theorem Core.setLane_sec (c : Core) (l : Nat) (x : Lane) : (c.setLane l x).sec = c.sec := rfl
@[simp] theorem Core.setLane_flt (c : Core) (l : Nat) (x : Lane) : (c.setLane l x).flt = c.flt := rfl
@[simp] theorem Core.setLane_pwr (c : Core) (l : Nat) (x : Lane) : (c.setLane l x).pwr = c.pwr := rfl
@[simp] theorem Core.setLane_pins (c : Core) (l : Nat) (x : Lane) : (c.setLane l x).pins = c.pins := rfl
@[simp] theorem Core.setLane_swapArmed (c : Core) (l : Nat) (x : Lane) : (c.setLane l x).swapArmed = c.swapArmed := rfl
@[simp] theorem Core.setLane_censusArmed (c : Core) (l : Nat) (x : Lane) : (c.setLane l x).censusArmed = c.censusArmed := rfl
@[simp] theorem Core.setLane_saving (c : Core) (l : Nat) (x : Lane) : (c.setLane l x).saving = c.saving := rfl
@[simp] theorem Core.setLane_progs (c : Core) (l : Nat) (x : Lane) : (c.setLane l x).progs = c.progs := rfl
@[simp] theorem Core.setLane_tmpls (c : Core) (l : Nat) (x : Lane) : (c.setLane l x).tmpls = c.tmpls := rfl
@[simp] theorem Core.setLane_out (c : Core) (l : Nat) (x : Lane) : (c.setLane l x).out = c.out := rfl
@[simp] theorem Core.setLane_free (c : Core) (l : Nat) (x : Lane) : (c.setLane l x).free = c.free := rfl

/-! ### Core.setTask -/

@[simp] theorem Core.setTask_clk (c : Core) (e : Nat) (k : Task) : (c.setTask e k).clk = c.clk := rfl
@[simp] theorem Core.setTask_regs (c : Core) (e : Nat) (k : Task) : (c.setTask e k).regs = c.regs := rfl
@[simp] theorem Core.setTask_cyc (c : Core) (e : Nat) (k : Task) : (c.setTask e k).cyc = c.cyc := rfl
@[simp] theorem Core.setTask_census (c : Core) (e : Nat) (k : Task) : (c.setTask e k).census = c.census := rfl
@[simp] theorem Core.setTask_latched (c : Core) (e : Nat) (k : Task) : (c.setTask e k).latched = c.latched := rfl
@[simp] theorem Core.setTask_notices (c : Core) (e : Nat) (k : Task) : (c.setTask e k).notices = c.notices := rfl
@[simp] theorem Core.setTask_noticeAt (c : Core) (e : Nat) (k : Task) : (c.setTask e k).noticeAt = c.noticeAt := rfl
@[simp] theorem Core.setTask_errSeq (c : Core) (e : Nat) (k : Task) : (c.setTask e k).errSeq = c.errSeq := rfl
@[simp] theorem Core.setTask_sep (c : Core) (e : Nat) (k : Task) : (c.setTask e k).sep = c.sep := rfl
@[simp] theorem Core.setTask_ford (c : Core) (e : Nat) (k : Task) : (c.setTask e k).ford = c.ford := rfl
@[simp] theorem Core.setTask_fab (c : Core) (e : Nat) (k : Task) : (c.setTask e k).fab = c.fab := rfl
@[simp] theorem Core.setTask_key (c : Core) (e : Nat) (k : Task) : (c.setTask e k).key = c.key := rfl
@[simp] theorem Core.setTask_rgns (c : Core) (e : Nat) (k : Task) : (c.setTask e k).rgns = c.rgns := rfl
@[simp] theorem Core.setTask_comp (c : Core) (e : Nat) (k : Task) : (c.setTask e k).comp = c.comp := rfl
@[simp] theorem Core.setTask_cap (c : Core) (e : Nat) (k : Task) : (c.setTask e k).cap = c.cap := rfl
@[simp] theorem Core.setTask_lanes (c : Core) (e : Nat) (k : Task) : (c.setTask e k).lanes = c.lanes := rfl
@[simp] theorem Core.setTask_kwn (c : Core) (e : Nat) (k : Task) : (c.setTask e k).kwn = c.kwn := rfl
@[simp] theorem Core.setTask_sec (c : Core) (e : Nat) (k : Task) : (c.setTask e k).sec = c.sec := rfl
@[simp] theorem Core.setTask_flt (c : Core) (e : Nat) (k : Task) : (c.setTask e k).flt = c.flt := rfl
@[simp] theorem Core.setTask_pwr (c : Core) (e : Nat) (k : Task) : (c.setTask e k).pwr = c.pwr := rfl
@[simp] theorem Core.setTask_pins (c : Core) (e : Nat) (k : Task) : (c.setTask e k).pins = c.pins := rfl
@[simp] theorem Core.setTask_swapArmed (c : Core) (e : Nat) (k : Task) : (c.setTask e k).swapArmed = c.swapArmed := rfl
@[simp] theorem Core.setTask_censusArmed (c : Core) (e : Nat) (k : Task) : (c.setTask e k).censusArmed = c.censusArmed := rfl
@[simp] theorem Core.setTask_saving (c : Core) (e : Nat) (k : Task) : (c.setTask e k).saving = c.saving := rfl
@[simp] theorem Core.setTask_progs (c : Core) (e : Nat) (k : Task) : (c.setTask e k).progs = c.progs := rfl
@[simp] theorem Core.setTask_tmpls (c : Core) (e : Nat) (k : Task) : (c.setTask e k).tmpls = c.tmpls := rfl
@[simp] theorem Core.setTask_out (c : Core) (e : Nat) (k : Task) : (c.setTask e k).out = c.out := rfl
@[simp] theorem Core.setTask_free (c : Core) (e : Nat) (k : Task) : (c.setTask e k).free = c.free := rfl

/-! ### Core.setTout -/

@[simp] theorem Core.setTout_clk (c : Core) (j : Nat) (x : Tout) : (c.setTout j x).clk = c.clk := rfl
@[simp] theorem Core.setTout_regs (c : Core) (j : Nat) (x : Tout) : (c.setTout j x).regs = c.regs := rfl
@[simp] theorem Core.setTout_cyc (c : Core) (j : Nat) (x : Tout) : (c.setTout j x).cyc = c.cyc := rfl
@[simp] theorem Core.setTout_census (c : Core) (j : Nat) (x : Tout) : (c.setTout j x).census = c.census := rfl
@[simp] theorem Core.setTout_latched (c : Core) (j : Nat) (x : Tout) : (c.setTout j x).latched = c.latched := rfl
@[simp] theorem Core.setTout_notices (c : Core) (j : Nat) (x : Tout) : (c.setTout j x).notices = c.notices := rfl
@[simp] theorem Core.setTout_noticeAt (c : Core) (j : Nat) (x : Tout) : (c.setTout j x).noticeAt = c.noticeAt := rfl
@[simp] theorem Core.setTout_errSeq (c : Core) (j : Nat) (x : Tout) : (c.setTout j x).errSeq = c.errSeq := rfl
@[simp] theorem Core.setTout_sep (c : Core) (j : Nat) (x : Tout) : (c.setTout j x).sep = c.sep := rfl
@[simp] theorem Core.setTout_ford (c : Core) (j : Nat) (x : Tout) : (c.setTout j x).ford = c.ford := rfl
@[simp] theorem Core.setTout_fab (c : Core) (j : Nat) (x : Tout) : (c.setTout j x).fab = c.fab := rfl
@[simp] theorem Core.setTout_key (c : Core) (j : Nat) (x : Tout) : (c.setTout j x).key = c.key := rfl
@[simp] theorem Core.setTout_rgns (c : Core) (j : Nat) (x : Tout) : (c.setTout j x).rgns = c.rgns := rfl
@[simp] theorem Core.setTout_comp (c : Core) (j : Nat) (x : Tout) : (c.setTout j x).comp = c.comp := rfl
@[simp] theorem Core.setTout_task (c : Core) (j : Nat) (x : Tout) : (c.setTout j x).task = c.task := rfl
@[simp] theorem Core.setTout_cap (c : Core) (j : Nat) (x : Tout) : (c.setTout j x).cap = c.cap := rfl
@[simp] theorem Core.setTout_lanes (c : Core) (j : Nat) (x : Tout) : (c.setTout j x).lanes = c.lanes := rfl
@[simp] theorem Core.setTout_kwn (c : Core) (j : Nat) (x : Tout) : (c.setTout j x).kwn = c.kwn := rfl
@[simp] theorem Core.setTout_sec (c : Core) (j : Nat) (x : Tout) : (c.setTout j x).sec = c.sec := rfl
@[simp] theorem Core.setTout_flt (c : Core) (j : Nat) (x : Tout) : (c.setTout j x).flt = c.flt := rfl
@[simp] theorem Core.setTout_pwr (c : Core) (j : Nat) (x : Tout) : (c.setTout j x).pwr = c.pwr := rfl
@[simp] theorem Core.setTout_swapArmed (c : Core) (j : Nat) (x : Tout) : (c.setTout j x).swapArmed = c.swapArmed := rfl
@[simp] theorem Core.setTout_censusArmed (c : Core) (j : Nat) (x : Tout) : (c.setTout j x).censusArmed = c.censusArmed := rfl
@[simp] theorem Core.setTout_saving (c : Core) (j : Nat) (x : Tout) : (c.setTout j x).saving = c.saving := rfl
@[simp] theorem Core.setTout_progs (c : Core) (j : Nat) (x : Tout) : (c.setTout j x).progs = c.progs := rfl
@[simp] theorem Core.setTout_tmpls (c : Core) (j : Nat) (x : Tout) : (c.setTout j x).tmpls = c.tmpls := rfl
@[simp] theorem Core.setTout_out (c : Core) (j : Nat) (x : Tout) : (c.setTout j x).out = c.out := rfl
@[simp] theorem Core.setTout_free (c : Core) (j : Nat) (x : Tout) : (c.setTout j x).free = c.free := rfl

/-! ### Core.bumpBy -/

@[simp] theorem Core.bumpBy_clk (c : Core) (a n : Nat) : (c.bumpBy a n).clk = c.clk := by unfold Core.bumpBy; split <;> rfl
@[simp] theorem Core.bumpBy_cyc (c : Core) (a n : Nat) : (c.bumpBy a n).cyc = c.cyc := by unfold Core.bumpBy; split <;> rfl
@[simp] theorem Core.bumpBy_census (c : Core) (a n : Nat) : (c.bumpBy a n).census = c.census := by unfold Core.bumpBy; split <;> rfl
@[simp] theorem Core.bumpBy_latched (c : Core) (a n : Nat) : (c.bumpBy a n).latched = c.latched := by unfold Core.bumpBy; split <;> rfl
@[simp] theorem Core.bumpBy_notices (c : Core) (a n : Nat) : (c.bumpBy a n).notices = c.notices := by unfold Core.bumpBy; split <;> rfl
@[simp] theorem Core.bumpBy_noticeAt (c : Core) (a n : Nat) : (c.bumpBy a n).noticeAt = c.noticeAt := by unfold Core.bumpBy; split <;> rfl
@[simp] theorem Core.bumpBy_errSeq (c : Core) (a n : Nat) : (c.bumpBy a n).errSeq = c.errSeq := by unfold Core.bumpBy; split <;> rfl
@[simp] theorem Core.bumpBy_sep (c : Core) (a n : Nat) : (c.bumpBy a n).sep = c.sep := by unfold Core.bumpBy; split <;> rfl
@[simp] theorem Core.bumpBy_ford (c : Core) (a n : Nat) : (c.bumpBy a n).ford = c.ford := by unfold Core.bumpBy; split <;> rfl
@[simp] theorem Core.bumpBy_fab (c : Core) (a n : Nat) : (c.bumpBy a n).fab = c.fab := by unfold Core.bumpBy; split <;> rfl
@[simp] theorem Core.bumpBy_key (c : Core) (a n : Nat) : (c.bumpBy a n).key = c.key := by unfold Core.bumpBy; split <;> rfl
@[simp] theorem Core.bumpBy_rgns (c : Core) (a n : Nat) : (c.bumpBy a n).rgns = c.rgns := by unfold Core.bumpBy; split <;> rfl
@[simp] theorem Core.bumpBy_comp (c : Core) (a n : Nat) : (c.bumpBy a n).comp = c.comp := by unfold Core.bumpBy; split <;> rfl
@[simp] theorem Core.bumpBy_task (c : Core) (a n : Nat) : (c.bumpBy a n).task = c.task := by unfold Core.bumpBy; split <;> rfl
@[simp] theorem Core.bumpBy_cap (c : Core) (a n : Nat) : (c.bumpBy a n).cap = c.cap := by unfold Core.bumpBy; split <;> rfl
@[simp] theorem Core.bumpBy_lanes (c : Core) (a n : Nat) : (c.bumpBy a n).lanes = c.lanes := by unfold Core.bumpBy; split <;> rfl
@[simp] theorem Core.bumpBy_kwn (c : Core) (a n : Nat) : (c.bumpBy a n).kwn = c.kwn := by unfold Core.bumpBy; split <;> rfl
@[simp] theorem Core.bumpBy_sec (c : Core) (a n : Nat) : (c.bumpBy a n).sec = c.sec := by unfold Core.bumpBy; split <;> rfl
@[simp] theorem Core.bumpBy_flt (c : Core) (a n : Nat) : (c.bumpBy a n).flt = c.flt := by unfold Core.bumpBy; split <;> rfl
@[simp] theorem Core.bumpBy_pwr (c : Core) (a n : Nat) : (c.bumpBy a n).pwr = c.pwr := by unfold Core.bumpBy; split <;> rfl
@[simp] theorem Core.bumpBy_pins (c : Core) (a n : Nat) : (c.bumpBy a n).pins = c.pins := by unfold Core.bumpBy; split <;> rfl
@[simp] theorem Core.bumpBy_swapArmed (c : Core) (a n : Nat) : (c.bumpBy a n).swapArmed = c.swapArmed := by unfold Core.bumpBy; split <;> rfl
@[simp] theorem Core.bumpBy_censusArmed (c : Core) (a n : Nat) : (c.bumpBy a n).censusArmed = c.censusArmed := by unfold Core.bumpBy; split <;> rfl
@[simp] theorem Core.bumpBy_saving (c : Core) (a n : Nat) : (c.bumpBy a n).saving = c.saving := by unfold Core.bumpBy; split <;> rfl
@[simp] theorem Core.bumpBy_progs (c : Core) (a n : Nat) : (c.bumpBy a n).progs = c.progs := by unfold Core.bumpBy; split <;> rfl
@[simp] theorem Core.bumpBy_tmpls (c : Core) (a n : Nat) : (c.bumpBy a n).tmpls = c.tmpls := by unfold Core.bumpBy; split <;> rfl
@[simp] theorem Core.bumpBy_out (c : Core) (a n : Nat) : (c.bumpBy a n).out = c.out := by unfold Core.bumpBy; split <;> rfl
@[simp] theorem Core.bumpBy_free (c : Core) (a n : Nat) : (c.bumpBy a n).free = c.free := by unfold Core.bumpBy; split <;> rfl

/-! ### Core.bump -/

@[simp] theorem Core.bump_clk (c : Core) (a : Nat) : (c.bump a).clk = c.clk := Core.bumpBy_clk c a 1
@[simp] theorem Core.bump_cyc (c : Core) (a : Nat) : (c.bump a).cyc = c.cyc := Core.bumpBy_cyc c a 1
@[simp] theorem Core.bump_census (c : Core) (a : Nat) : (c.bump a).census = c.census := Core.bumpBy_census c a 1
@[simp] theorem Core.bump_latched (c : Core) (a : Nat) : (c.bump a).latched = c.latched := Core.bumpBy_latched c a 1
@[simp] theorem Core.bump_notices (c : Core) (a : Nat) : (c.bump a).notices = c.notices := Core.bumpBy_notices c a 1
@[simp] theorem Core.bump_noticeAt (c : Core) (a : Nat) : (c.bump a).noticeAt = c.noticeAt := Core.bumpBy_noticeAt c a 1
@[simp] theorem Core.bump_errSeq (c : Core) (a : Nat) : (c.bump a).errSeq = c.errSeq := Core.bumpBy_errSeq c a 1
@[simp] theorem Core.bump_sep (c : Core) (a : Nat) : (c.bump a).sep = c.sep := Core.bumpBy_sep c a 1
@[simp] theorem Core.bump_ford (c : Core) (a : Nat) : (c.bump a).ford = c.ford := Core.bumpBy_ford c a 1
@[simp] theorem Core.bump_fab (c : Core) (a : Nat) : (c.bump a).fab = c.fab := Core.bumpBy_fab c a 1
@[simp] theorem Core.bump_key (c : Core) (a : Nat) : (c.bump a).key = c.key := Core.bumpBy_key c a 1
@[simp] theorem Core.bump_rgns (c : Core) (a : Nat) : (c.bump a).rgns = c.rgns := Core.bumpBy_rgns c a 1
@[simp] theorem Core.bump_comp (c : Core) (a : Nat) : (c.bump a).comp = c.comp := Core.bumpBy_comp c a 1
@[simp] theorem Core.bump_task (c : Core) (a : Nat) : (c.bump a).task = c.task := Core.bumpBy_task c a 1
@[simp] theorem Core.bump_cap (c : Core) (a : Nat) : (c.bump a).cap = c.cap := Core.bumpBy_cap c a 1
@[simp] theorem Core.bump_lanes (c : Core) (a : Nat) : (c.bump a).lanes = c.lanes := Core.bumpBy_lanes c a 1
@[simp] theorem Core.bump_kwn (c : Core) (a : Nat) : (c.bump a).kwn = c.kwn := Core.bumpBy_kwn c a 1
@[simp] theorem Core.bump_sec (c : Core) (a : Nat) : (c.bump a).sec = c.sec := Core.bumpBy_sec c a 1
@[simp] theorem Core.bump_flt (c : Core) (a : Nat) : (c.bump a).flt = c.flt := Core.bumpBy_flt c a 1
@[simp] theorem Core.bump_pwr (c : Core) (a : Nat) : (c.bump a).pwr = c.pwr := Core.bumpBy_pwr c a 1
@[simp] theorem Core.bump_pins (c : Core) (a : Nat) : (c.bump a).pins = c.pins := Core.bumpBy_pins c a 1
@[simp] theorem Core.bump_swapArmed (c : Core) (a : Nat) : (c.bump a).swapArmed = c.swapArmed := Core.bumpBy_swapArmed c a 1
@[simp] theorem Core.bump_censusArmed (c : Core) (a : Nat) : (c.bump a).censusArmed = c.censusArmed := Core.bumpBy_censusArmed c a 1
@[simp] theorem Core.bump_saving (c : Core) (a : Nat) : (c.bump a).saving = c.saving := Core.bumpBy_saving c a 1
@[simp] theorem Core.bump_progs (c : Core) (a : Nat) : (c.bump a).progs = c.progs := Core.bumpBy_progs c a 1
@[simp] theorem Core.bump_tmpls (c : Core) (a : Nat) : (c.bump a).tmpls = c.tmpls := Core.bumpBy_tmpls c a 1
@[simp] theorem Core.bump_out (c : Core) (a : Nat) : (c.bump a).out = c.out := Core.bumpBy_out c a 1
@[simp] theorem Core.bump_free (c : Core) (a : Nat) : (c.bump a).free = c.free := Core.bumpBy_free c a 1

/-! ### Core.setPend -/

@[simp] theorem Core.setPend_clk (c : Core) (p k : Nat) : (c.setPend p k).clk = c.clk := by unfold Core.setPend; dsimp only; split <;> rfl
@[simp] theorem Core.setPend_cyc (c : Core) (p k : Nat) : (c.setPend p k).cyc = c.cyc := by unfold Core.setPend; dsimp only; split <;> rfl
@[simp] theorem Core.setPend_census (c : Core) (p k : Nat) : (c.setPend p k).census = c.census := by unfold Core.setPend; dsimp only; split <;> rfl
@[simp] theorem Core.setPend_latched (c : Core) (p k : Nat) : (c.setPend p k).latched = c.latched := by unfold Core.setPend; dsimp only; split <;> rfl
@[simp] theorem Core.setPend_noticeAt (c : Core) (p k : Nat) : (c.setPend p k).noticeAt = c.noticeAt := by unfold Core.setPend; dsimp only; split <;> rfl
@[simp] theorem Core.setPend_errSeq (c : Core) (p k : Nat) : (c.setPend p k).errSeq = c.errSeq := by unfold Core.setPend; dsimp only; split <;> rfl
@[simp] theorem Core.setPend_sep (c : Core) (p k : Nat) : (c.setPend p k).sep = c.sep := by unfold Core.setPend; dsimp only; split <;> rfl
@[simp] theorem Core.setPend_ford (c : Core) (p k : Nat) : (c.setPend p k).ford = c.ford := by unfold Core.setPend; dsimp only; split <;> rfl
@[simp] theorem Core.setPend_fab (c : Core) (p k : Nat) : (c.setPend p k).fab = c.fab := by unfold Core.setPend; dsimp only; split <;> rfl
@[simp] theorem Core.setPend_key (c : Core) (p k : Nat) : (c.setPend p k).key = c.key := by unfold Core.setPend; dsimp only; split <;> rfl
@[simp] theorem Core.setPend_rgns (c : Core) (p k : Nat) : (c.setPend p k).rgns = c.rgns := by unfold Core.setPend; dsimp only; split <;> rfl
@[simp] theorem Core.setPend_comp (c : Core) (p k : Nat) : (c.setPend p k).comp = c.comp := by unfold Core.setPend; dsimp only; split <;> rfl
@[simp] theorem Core.setPend_task (c : Core) (p k : Nat) : (c.setPend p k).task = c.task := by unfold Core.setPend; dsimp only; split <;> rfl
@[simp] theorem Core.setPend_cap (c : Core) (p k : Nat) : (c.setPend p k).cap = c.cap := by unfold Core.setPend; dsimp only; split <;> rfl
@[simp] theorem Core.setPend_lanes (c : Core) (p k : Nat) : (c.setPend p k).lanes = c.lanes := by unfold Core.setPend; dsimp only; split <;> rfl
@[simp] theorem Core.setPend_kwn (c : Core) (p k : Nat) : (c.setPend p k).kwn = c.kwn := by unfold Core.setPend; dsimp only; split <;> rfl
@[simp] theorem Core.setPend_sec (c : Core) (p k : Nat) : (c.setPend p k).sec = c.sec := by unfold Core.setPend; dsimp only; split <;> rfl
@[simp] theorem Core.setPend_flt (c : Core) (p k : Nat) : (c.setPend p k).flt = c.flt := by unfold Core.setPend; dsimp only; split <;> rfl
@[simp] theorem Core.setPend_pwr (c : Core) (p k : Nat) : (c.setPend p k).pwr = c.pwr := by unfold Core.setPend; dsimp only; split <;> rfl
@[simp] theorem Core.setPend_pins (c : Core) (p k : Nat) : (c.setPend p k).pins = c.pins := by unfold Core.setPend; dsimp only; split <;> rfl
@[simp] theorem Core.setPend_swapArmed (c : Core) (p k : Nat) : (c.setPend p k).swapArmed = c.swapArmed := by unfold Core.setPend; dsimp only; split <;> rfl
@[simp] theorem Core.setPend_censusArmed (c : Core) (p k : Nat) : (c.setPend p k).censusArmed = c.censusArmed := by unfold Core.setPend; dsimp only; split <;> rfl
@[simp] theorem Core.setPend_saving (c : Core) (p k : Nat) : (c.setPend p k).saving = c.saving := by unfold Core.setPend; dsimp only; split <;> rfl
@[simp] theorem Core.setPend_progs (c : Core) (p k : Nat) : (c.setPend p k).progs = c.progs := by unfold Core.setPend; dsimp only; split <;> rfl
@[simp] theorem Core.setPend_tmpls (c : Core) (p k : Nat) : (c.setPend p k).tmpls = c.tmpls := by unfold Core.setPend; dsimp only; split <;> rfl
@[simp] theorem Core.setPend_out (c : Core) (p k : Nat) : (c.setPend p k).out = c.out := by unfold Core.setPend; dsimp only; split <;> rfl
@[simp] theorem Core.setPend_free (c : Core) (p k : Nat) : (c.setPend p k).free = c.free := by unfold Core.setPend; dsimp only; split <;> rfl

/-! ### Core.event -/

@[simp] theorem Core.event_clk (c : Core) (p k : Nat) : (c.event p k).clk = c.clk := Core.setPend_clk c p (2 ^ k)
@[simp] theorem Core.event_census (c : Core) (p k : Nat) : (c.event p k).census = c.census := Core.setPend_census c p (2 ^ k)
@[simp] theorem Core.event_latched (c : Core) (p k : Nat) : (c.event p k).latched = c.latched := Core.setPend_latched c p (2 ^ k)
@[simp] theorem Core.event_noticeAt (c : Core) (p k : Nat) : (c.event p k).noticeAt = c.noticeAt := Core.setPend_noticeAt c p (2 ^ k)
@[simp] theorem Core.event_errSeq (c : Core) (p k : Nat) : (c.event p k).errSeq = c.errSeq := Core.setPend_errSeq c p (2 ^ k)
@[simp] theorem Core.event_sep (c : Core) (p k : Nat) : (c.event p k).sep = c.sep := Core.setPend_sep c p (2 ^ k)
@[simp] theorem Core.event_ford (c : Core) (p k : Nat) : (c.event p k).ford = c.ford := Core.setPend_ford c p (2 ^ k)
@[simp] theorem Core.event_fab (c : Core) (p k : Nat) : (c.event p k).fab = c.fab := Core.setPend_fab c p (2 ^ k)
@[simp] theorem Core.event_key (c : Core) (p k : Nat) : (c.event p k).key = c.key := Core.setPend_key c p (2 ^ k)
@[simp] theorem Core.event_rgns (c : Core) (p k : Nat) : (c.event p k).rgns = c.rgns := Core.setPend_rgns c p (2 ^ k)
@[simp] theorem Core.event_comp (c : Core) (p k : Nat) : (c.event p k).comp = c.comp := Core.setPend_comp c p (2 ^ k)
@[simp] theorem Core.event_task (c : Core) (p k : Nat) : (c.event p k).task = c.task := Core.setPend_task c p (2 ^ k)
@[simp] theorem Core.event_cap (c : Core) (p k : Nat) : (c.event p k).cap = c.cap := Core.setPend_cap c p (2 ^ k)
@[simp] theorem Core.event_lanes (c : Core) (p k : Nat) : (c.event p k).lanes = c.lanes := Core.setPend_lanes c p (2 ^ k)
@[simp] theorem Core.event_kwn (c : Core) (p k : Nat) : (c.event p k).kwn = c.kwn := Core.setPend_kwn c p (2 ^ k)
@[simp] theorem Core.event_sec (c : Core) (p k : Nat) : (c.event p k).sec = c.sec := Core.setPend_sec c p (2 ^ k)
@[simp] theorem Core.event_flt (c : Core) (p k : Nat) : (c.event p k).flt = c.flt := Core.setPend_flt c p (2 ^ k)
@[simp] theorem Core.event_pwr (c : Core) (p k : Nat) : (c.event p k).pwr = c.pwr := Core.setPend_pwr c p (2 ^ k)
@[simp] theorem Core.event_pins (c : Core) (p k : Nat) : (c.event p k).pins = c.pins := Core.setPend_pins c p (2 ^ k)
@[simp] theorem Core.event_swapArmed (c : Core) (p k : Nat) : (c.event p k).swapArmed = c.swapArmed := Core.setPend_swapArmed c p (2 ^ k)
@[simp] theorem Core.event_censusArmed (c : Core) (p k : Nat) : (c.event p k).censusArmed = c.censusArmed := Core.setPend_censusArmed c p (2 ^ k)
@[simp] theorem Core.event_saving (c : Core) (p k : Nat) : (c.event p k).saving = c.saving := Core.setPend_saving c p (2 ^ k)
@[simp] theorem Core.event_progs (c : Core) (p k : Nat) : (c.event p k).progs = c.progs := Core.setPend_progs c p (2 ^ k)
@[simp] theorem Core.event_tmpls (c : Core) (p k : Nat) : (c.event p k).tmpls = c.tmpls := Core.setPend_tmpls c p (2 ^ k)
@[simp] theorem Core.event_out (c : Core) (p k : Nat) : (c.event p k).out = c.out := Core.setPend_out c p (2 ^ k)
@[simp] theorem Core.event_free (c : Core) (p k : Nat) : (c.event p k).free = c.free := Core.setPend_free c p (2 ^ k)

/-! ### Core.mark -/

@[simp] theorem Core.mark_clk (c : Core) (a m : Nat) : (c.mark a m).clk = c.clk := rfl
@[simp] theorem Core.mark_regs (c : Core) (a m : Nat) : (c.mark a m).regs = c.regs := rfl
@[simp] theorem Core.mark_census (c : Core) (a m : Nat) : (c.mark a m).census = c.census := rfl
@[simp] theorem Core.mark_latched (c : Core) (a m : Nat) : (c.mark a m).latched = c.latched := rfl
@[simp] theorem Core.mark_notices (c : Core) (a m : Nat) : (c.mark a m).notices = c.notices := rfl
@[simp] theorem Core.mark_noticeAt (c : Core) (a m : Nat) : (c.mark a m).noticeAt = c.noticeAt := rfl
@[simp] theorem Core.mark_errSeq (c : Core) (a m : Nat) : (c.mark a m).errSeq = c.errSeq := rfl
@[simp] theorem Core.mark_sep (c : Core) (a m : Nat) : (c.mark a m).sep = c.sep := rfl
@[simp] theorem Core.mark_ford (c : Core) (a m : Nat) : (c.mark a m).ford = c.ford := rfl
@[simp] theorem Core.mark_fab (c : Core) (a m : Nat) : (c.mark a m).fab = c.fab := rfl
@[simp] theorem Core.mark_key (c : Core) (a m : Nat) : (c.mark a m).key = c.key := rfl
@[simp] theorem Core.mark_rgns (c : Core) (a m : Nat) : (c.mark a m).rgns = c.rgns := rfl
@[simp] theorem Core.mark_comp (c : Core) (a m : Nat) : (c.mark a m).comp = c.comp := rfl
@[simp] theorem Core.mark_task (c : Core) (a m : Nat) : (c.mark a m).task = c.task := rfl
@[simp] theorem Core.mark_cap (c : Core) (a m : Nat) : (c.mark a m).cap = c.cap := rfl
@[simp] theorem Core.mark_lanes (c : Core) (a m : Nat) : (c.mark a m).lanes = c.lanes := rfl
@[simp] theorem Core.mark_kwn (c : Core) (a m : Nat) : (c.mark a m).kwn = c.kwn := rfl
@[simp] theorem Core.mark_sec (c : Core) (a m : Nat) : (c.mark a m).sec = c.sec := rfl
@[simp] theorem Core.mark_flt (c : Core) (a m : Nat) : (c.mark a m).flt = c.flt := rfl
@[simp] theorem Core.mark_pwr (c : Core) (a m : Nat) : (c.mark a m).pwr = c.pwr := rfl
@[simp] theorem Core.mark_pins (c : Core) (a m : Nat) : (c.mark a m).pins = c.pins := rfl
@[simp] theorem Core.mark_swapArmed (c : Core) (a m : Nat) : (c.mark a m).swapArmed = c.swapArmed := rfl
@[simp] theorem Core.mark_censusArmed (c : Core) (a m : Nat) : (c.mark a m).censusArmed = c.censusArmed := rfl
@[simp] theorem Core.mark_saving (c : Core) (a m : Nat) : (c.mark a m).saving = c.saving := rfl
@[simp] theorem Core.mark_progs (c : Core) (a m : Nat) : (c.mark a m).progs = c.progs := rfl
@[simp] theorem Core.mark_tmpls (c : Core) (a m : Nat) : (c.mark a m).tmpls = c.tmpls := rfl
@[simp] theorem Core.mark_out (c : Core) (a m : Nat) : (c.mark a m).out = c.out := rfl
@[simp] theorem Core.mark_free (c : Core) (a m : Nat) : (c.mark a m).free = c.free := rfl

/-! ### Core.raiseF -/

@[simp] theorem Core.raiseF_clk (c : Core) (a k : Nat) : (c.raiseF a k).clk = c.clk := rfl
@[simp] theorem Core.raiseF_census (c : Core) (a k : Nat) : (c.raiseF a k).census = c.census := rfl
@[simp] theorem Core.raiseF_latched (c : Core) (a k : Nat) : (c.raiseF a k).latched = c.latched := rfl
@[simp] theorem Core.raiseF_notices (c : Core) (a k : Nat) : (c.raiseF a k).notices = c.notices := rfl
@[simp] theorem Core.raiseF_noticeAt (c : Core) (a k : Nat) : (c.raiseF a k).noticeAt = c.noticeAt := rfl
@[simp] theorem Core.raiseF_errSeq (c : Core) (a k : Nat) : (c.raiseF a k).errSeq = c.errSeq := rfl
@[simp] theorem Core.raiseF_sep (c : Core) (a k : Nat) : (c.raiseF a k).sep = c.sep := rfl
@[simp] theorem Core.raiseF_ford (c : Core) (a k : Nat) : (c.raiseF a k).ford = c.ford := rfl
@[simp] theorem Core.raiseF_fab (c : Core) (a k : Nat) : (c.raiseF a k).fab = c.fab := rfl
@[simp] theorem Core.raiseF_key (c : Core) (a k : Nat) : (c.raiseF a k).key = c.key := rfl
@[simp] theorem Core.raiseF_rgns (c : Core) (a k : Nat) : (c.raiseF a k).rgns = c.rgns := rfl
@[simp] theorem Core.raiseF_comp (c : Core) (a k : Nat) : (c.raiseF a k).comp = c.comp := rfl
@[simp] theorem Core.raiseF_task (c : Core) (a k : Nat) : (c.raiseF a k).task = c.task := rfl
@[simp] theorem Core.raiseF_cap (c : Core) (a k : Nat) : (c.raiseF a k).cap = c.cap := rfl
@[simp] theorem Core.raiseF_lanes (c : Core) (a k : Nat) : (c.raiseF a k).lanes = c.lanes := rfl
@[simp] theorem Core.raiseF_kwn (c : Core) (a k : Nat) : (c.raiseF a k).kwn = c.kwn := rfl
@[simp] theorem Core.raiseF_sec (c : Core) (a k : Nat) : (c.raiseF a k).sec = c.sec := rfl
@[simp] theorem Core.raiseF_flt (c : Core) (a k : Nat) : (c.raiseF a k).flt = c.flt := rfl
@[simp] theorem Core.raiseF_pwr (c : Core) (a k : Nat) : (c.raiseF a k).pwr = c.pwr := rfl
@[simp] theorem Core.raiseF_pins (c : Core) (a k : Nat) : (c.raiseF a k).pins = c.pins := rfl
@[simp] theorem Core.raiseF_swapArmed (c : Core) (a k : Nat) : (c.raiseF a k).swapArmed = c.swapArmed := rfl
@[simp] theorem Core.raiseF_censusArmed (c : Core) (a k : Nat) : (c.raiseF a k).censusArmed = c.censusArmed := rfl
@[simp] theorem Core.raiseF_saving (c : Core) (a k : Nat) : (c.raiseF a k).saving = c.saving := rfl
@[simp] theorem Core.raiseF_progs (c : Core) (a k : Nat) : (c.raiseF a k).progs = c.progs := rfl
@[simp] theorem Core.raiseF_tmpls (c : Core) (a k : Nat) : (c.raiseF a k).tmpls = c.tmpls := rfl
@[simp] theorem Core.raiseF_out (c : Core) (a k : Nat) : (c.raiseF a k).out = c.out := rfl
@[simp] theorem Core.raiseF_free (c : Core) (a k : Nat) : (c.raiseF a k).free = c.free := rfl

/-! ### Core.clearF -/

@[simp] theorem Core.clearF_clk (c : Core) (a lo w x : Nat) : (c.clearF a lo w x).clk = c.clk := rfl
@[simp] theorem Core.clearF_cyc (c : Core) (a lo w x : Nat) : (c.clearF a lo w x).cyc = c.cyc := rfl
@[simp] theorem Core.clearF_census (c : Core) (a lo w x : Nat) : (c.clearF a lo w x).census = c.census := rfl
@[simp] theorem Core.clearF_latched (c : Core) (a lo w x : Nat) : (c.clearF a lo w x).latched = c.latched := rfl
@[simp] theorem Core.clearF_notices (c : Core) (a lo w x : Nat) : (c.clearF a lo w x).notices = c.notices := rfl
@[simp] theorem Core.clearF_noticeAt (c : Core) (a lo w x : Nat) : (c.clearF a lo w x).noticeAt = c.noticeAt := rfl
@[simp] theorem Core.clearF_errSeq (c : Core) (a lo w x : Nat) : (c.clearF a lo w x).errSeq = c.errSeq := rfl
@[simp] theorem Core.clearF_sep (c : Core) (a lo w x : Nat) : (c.clearF a lo w x).sep = c.sep := rfl
@[simp] theorem Core.clearF_ford (c : Core) (a lo w x : Nat) : (c.clearF a lo w x).ford = c.ford := rfl
@[simp] theorem Core.clearF_fab (c : Core) (a lo w x : Nat) : (c.clearF a lo w x).fab = c.fab := rfl
@[simp] theorem Core.clearF_key (c : Core) (a lo w x : Nat) : (c.clearF a lo w x).key = c.key := rfl
@[simp] theorem Core.clearF_rgns (c : Core) (a lo w x : Nat) : (c.clearF a lo w x).rgns = c.rgns := rfl
@[simp] theorem Core.clearF_comp (c : Core) (a lo w x : Nat) : (c.clearF a lo w x).comp = c.comp := rfl
@[simp] theorem Core.clearF_task (c : Core) (a lo w x : Nat) : (c.clearF a lo w x).task = c.task := rfl
@[simp] theorem Core.clearF_cap (c : Core) (a lo w x : Nat) : (c.clearF a lo w x).cap = c.cap := rfl
@[simp] theorem Core.clearF_lanes (c : Core) (a lo w x : Nat) : (c.clearF a lo w x).lanes = c.lanes := rfl
@[simp] theorem Core.clearF_kwn (c : Core) (a lo w x : Nat) : (c.clearF a lo w x).kwn = c.kwn := rfl
@[simp] theorem Core.clearF_sec (c : Core) (a lo w x : Nat) : (c.clearF a lo w x).sec = c.sec := rfl
@[simp] theorem Core.clearF_flt (c : Core) (a lo w x : Nat) : (c.clearF a lo w x).flt = c.flt := rfl
@[simp] theorem Core.clearF_pwr (c : Core) (a lo w x : Nat) : (c.clearF a lo w x).pwr = c.pwr := rfl
@[simp] theorem Core.clearF_pins (c : Core) (a lo w x : Nat) : (c.clearF a lo w x).pins = c.pins := rfl
@[simp] theorem Core.clearF_swapArmed (c : Core) (a lo w x : Nat) : (c.clearF a lo w x).swapArmed = c.swapArmed := rfl
@[simp] theorem Core.clearF_censusArmed (c : Core) (a lo w x : Nat) : (c.clearF a lo w x).censusArmed = c.censusArmed := rfl
@[simp] theorem Core.clearF_saving (c : Core) (a lo w x : Nat) : (c.clearF a lo w x).saving = c.saving := rfl
@[simp] theorem Core.clearF_progs (c : Core) (a lo w x : Nat) : (c.clearF a lo w x).progs = c.progs := rfl
@[simp] theorem Core.clearF_tmpls (c : Core) (a lo w x : Nat) : (c.clearF a lo w x).tmpls = c.tmpls := rfl
@[simp] theorem Core.clearF_out (c : Core) (a lo w x : Nat) : (c.clearF a lo w x).out = c.out := rfl
@[simp] theorem Core.clearF_free (c : Core) (a lo w x : Nat) : (c.clearF a lo w x).free = c.free := rfl

/-! ### Core.logFill -/

@[simp] theorem Core.logFill_clk (c : Core) (p i w x : Nat) : (c.logFill p i w x).clk = c.clk := by rw [Core.logFill, Core.wr_clk, Core.wr_clk]
@[simp] theorem Core.logFill_cyc (c : Core) (p i w x : Nat) : (c.logFill p i w x).cyc = c.cyc := by rw [Core.logFill, Core.wr_cyc, Core.wr_cyc]
@[simp] theorem Core.logFill_census (c : Core) (p i w x : Nat) : (c.logFill p i w x).census = c.census := by rw [Core.logFill, Core.wr_census, Core.wr_census]
@[simp] theorem Core.logFill_latched (c : Core) (p i w x : Nat) : (c.logFill p i w x).latched = c.latched := by rw [Core.logFill, Core.wr_latched, Core.wr_latched]
@[simp] theorem Core.logFill_notices (c : Core) (p i w x : Nat) : (c.logFill p i w x).notices = c.notices := by rw [Core.logFill, Core.wr_notices, Core.wr_notices]
@[simp] theorem Core.logFill_noticeAt (c : Core) (p i w x : Nat) : (c.logFill p i w x).noticeAt = c.noticeAt := by rw [Core.logFill, Core.wr_noticeAt, Core.wr_noticeAt]
@[simp] theorem Core.logFill_errSeq (c : Core) (p i w x : Nat) : (c.logFill p i w x).errSeq = c.errSeq := by rw [Core.logFill, Core.wr_errSeq, Core.wr_errSeq]
@[simp] theorem Core.logFill_sep (c : Core) (p i w x : Nat) : (c.logFill p i w x).sep = c.sep := by rw [Core.logFill, Core.wr_sep, Core.wr_sep]
@[simp] theorem Core.logFill_ford (c : Core) (p i w x : Nat) : (c.logFill p i w x).ford = c.ford := by rw [Core.logFill, Core.wr_ford, Core.wr_ford]
@[simp] theorem Core.logFill_fab (c : Core) (p i w x : Nat) : (c.logFill p i w x).fab = c.fab := by rw [Core.logFill, Core.wr_fab, Core.wr_fab]
@[simp] theorem Core.logFill_key (c : Core) (p i w x : Nat) : (c.logFill p i w x).key = c.key := by rw [Core.logFill, Core.wr_key, Core.wr_key]
@[simp] theorem Core.logFill_rgns (c : Core) (p i w x : Nat) : (c.logFill p i w x).rgns = c.rgns := by rw [Core.logFill, Core.wr_rgns, Core.wr_rgns]
@[simp] theorem Core.logFill_comp (c : Core) (p i w x : Nat) : (c.logFill p i w x).comp = c.comp := by rw [Core.logFill, Core.wr_comp, Core.wr_comp]
@[simp] theorem Core.logFill_task (c : Core) (p i w x : Nat) : (c.logFill p i w x).task = c.task := by rw [Core.logFill, Core.wr_task, Core.wr_task]
@[simp] theorem Core.logFill_cap (c : Core) (p i w x : Nat) : (c.logFill p i w x).cap = c.cap := by rw [Core.logFill, Core.wr_cap, Core.wr_cap]
@[simp] theorem Core.logFill_lanes (c : Core) (p i w x : Nat) : (c.logFill p i w x).lanes = c.lanes := by rw [Core.logFill, Core.wr_lanes, Core.wr_lanes]
@[simp] theorem Core.logFill_kwn (c : Core) (p i w x : Nat) : (c.logFill p i w x).kwn = c.kwn := by rw [Core.logFill, Core.wr_kwn, Core.wr_kwn]
@[simp] theorem Core.logFill_sec (c : Core) (p i w x : Nat) : (c.logFill p i w x).sec = c.sec := by rw [Core.logFill, Core.wr_sec, Core.wr_sec]
@[simp] theorem Core.logFill_flt (c : Core) (p i w x : Nat) : (c.logFill p i w x).flt = c.flt := by rw [Core.logFill, Core.wr_flt, Core.wr_flt]
@[simp] theorem Core.logFill_pwr (c : Core) (p i w x : Nat) : (c.logFill p i w x).pwr = c.pwr := by rw [Core.logFill, Core.wr_pwr, Core.wr_pwr]
@[simp] theorem Core.logFill_pins (c : Core) (p i w x : Nat) : (c.logFill p i w x).pins = c.pins := by rw [Core.logFill, Core.wr_pins, Core.wr_pins]
@[simp] theorem Core.logFill_swapArmed (c : Core) (p i w x : Nat) : (c.logFill p i w x).swapArmed = c.swapArmed := by rw [Core.logFill, Core.wr_swapArmed, Core.wr_swapArmed]
@[simp] theorem Core.logFill_censusArmed (c : Core) (p i w x : Nat) : (c.logFill p i w x).censusArmed = c.censusArmed := by rw [Core.logFill, Core.wr_censusArmed, Core.wr_censusArmed]
@[simp] theorem Core.logFill_saving (c : Core) (p i w x : Nat) : (c.logFill p i w x).saving = c.saving := by rw [Core.logFill, Core.wr_saving, Core.wr_saving]
@[simp] theorem Core.logFill_progs (c : Core) (p i w x : Nat) : (c.logFill p i w x).progs = c.progs := by rw [Core.logFill, Core.wr_progs, Core.wr_progs]
@[simp] theorem Core.logFill_tmpls (c : Core) (p i w x : Nat) : (c.logFill p i w x).tmpls = c.tmpls := by rw [Core.logFill, Core.wr_tmpls, Core.wr_tmpls]
@[simp] theorem Core.logFill_out (c : Core) (p i w x : Nat) : (c.logFill p i w x).out = c.out := by rw [Core.logFill, Core.wr_out, Core.wr_out]
@[simp] theorem Core.logFill_free (c : Core) (p i w x : Nat) : (c.logFill p i w x).free = c.free := by rw [Core.logFill, Core.wr_free, Core.wr_free]

/-! ### Core.logSink -/

@[simp] theorem Core.logSink_clk (c : Core) (p i n : Nat) : (c.logSink p i n).clk = c.clk := by induction n generalizing c i with | zero => rfl | succ n ih => rw [Core.logSink]; split; exacts [by rw [ih, Core.logFill_clk, Core.logFill_clk], rfl]
@[simp] theorem Core.logSink_cyc (c : Core) (p i n : Nat) : (c.logSink p i n).cyc = c.cyc := by induction n generalizing c i with | zero => rfl | succ n ih => rw [Core.logSink]; split; exacts [by rw [ih, Core.logFill_cyc, Core.logFill_cyc], rfl]
@[simp] theorem Core.logSink_census (c : Core) (p i n : Nat) : (c.logSink p i n).census = c.census := by induction n generalizing c i with | zero => rfl | succ n ih => rw [Core.logSink]; split; exacts [by rw [ih, Core.logFill_census, Core.logFill_census], rfl]
@[simp] theorem Core.logSink_latched (c : Core) (p i n : Nat) : (c.logSink p i n).latched = c.latched := by induction n generalizing c i with | zero => rfl | succ n ih => rw [Core.logSink]; split; exacts [by rw [ih, Core.logFill_latched, Core.logFill_latched], rfl]
@[simp] theorem Core.logSink_notices (c : Core) (p i n : Nat) : (c.logSink p i n).notices = c.notices := by induction n generalizing c i with | zero => rfl | succ n ih => rw [Core.logSink]; split; exacts [by rw [ih, Core.logFill_notices, Core.logFill_notices], rfl]
@[simp] theorem Core.logSink_noticeAt (c : Core) (p i n : Nat) : (c.logSink p i n).noticeAt = c.noticeAt := by induction n generalizing c i with | zero => rfl | succ n ih => rw [Core.logSink]; split; exacts [by rw [ih, Core.logFill_noticeAt, Core.logFill_noticeAt], rfl]
@[simp] theorem Core.logSink_errSeq (c : Core) (p i n : Nat) : (c.logSink p i n).errSeq = c.errSeq := by induction n generalizing c i with | zero => rfl | succ n ih => rw [Core.logSink]; split; exacts [by rw [ih, Core.logFill_errSeq, Core.logFill_errSeq], rfl]
@[simp] theorem Core.logSink_sep (c : Core) (p i n : Nat) : (c.logSink p i n).sep = c.sep := by induction n generalizing c i with | zero => rfl | succ n ih => rw [Core.logSink]; split; exacts [by rw [ih, Core.logFill_sep, Core.logFill_sep], rfl]
@[simp] theorem Core.logSink_ford (c : Core) (p i n : Nat) : (c.logSink p i n).ford = c.ford := by induction n generalizing c i with | zero => rfl | succ n ih => rw [Core.logSink]; split; exacts [by rw [ih, Core.logFill_ford, Core.logFill_ford], rfl]
@[simp] theorem Core.logSink_fab (c : Core) (p i n : Nat) : (c.logSink p i n).fab = c.fab := by induction n generalizing c i with | zero => rfl | succ n ih => rw [Core.logSink]; split; exacts [by rw [ih, Core.logFill_fab, Core.logFill_fab], rfl]
@[simp] theorem Core.logSink_key (c : Core) (p i n : Nat) : (c.logSink p i n).key = c.key := by induction n generalizing c i with | zero => rfl | succ n ih => rw [Core.logSink]; split; exacts [by rw [ih, Core.logFill_key, Core.logFill_key], rfl]
@[simp] theorem Core.logSink_rgns (c : Core) (p i n : Nat) : (c.logSink p i n).rgns = c.rgns := by induction n generalizing c i with | zero => rfl | succ n ih => rw [Core.logSink]; split; exacts [by rw [ih, Core.logFill_rgns, Core.logFill_rgns], rfl]
@[simp] theorem Core.logSink_comp (c : Core) (p i n : Nat) : (c.logSink p i n).comp = c.comp := by induction n generalizing c i with | zero => rfl | succ n ih => rw [Core.logSink]; split; exacts [by rw [ih, Core.logFill_comp, Core.logFill_comp], rfl]
@[simp] theorem Core.logSink_task (c : Core) (p i n : Nat) : (c.logSink p i n).task = c.task := by induction n generalizing c i with | zero => rfl | succ n ih => rw [Core.logSink]; split; exacts [by rw [ih, Core.logFill_task, Core.logFill_task], rfl]
@[simp] theorem Core.logSink_cap (c : Core) (p i n : Nat) : (c.logSink p i n).cap = c.cap := by induction n generalizing c i with | zero => rfl | succ n ih => rw [Core.logSink]; split; exacts [by rw [ih, Core.logFill_cap, Core.logFill_cap], rfl]
@[simp] theorem Core.logSink_lanes (c : Core) (p i n : Nat) : (c.logSink p i n).lanes = c.lanes := by induction n generalizing c i with | zero => rfl | succ n ih => rw [Core.logSink]; split; exacts [by rw [ih, Core.logFill_lanes, Core.logFill_lanes], rfl]
@[simp] theorem Core.logSink_kwn (c : Core) (p i n : Nat) : (c.logSink p i n).kwn = c.kwn := by induction n generalizing c i with | zero => rfl | succ n ih => rw [Core.logSink]; split; exacts [by rw [ih, Core.logFill_kwn, Core.logFill_kwn], rfl]
@[simp] theorem Core.logSink_sec (c : Core) (p i n : Nat) : (c.logSink p i n).sec = c.sec := by induction n generalizing c i with | zero => rfl | succ n ih => rw [Core.logSink]; split; exacts [by rw [ih, Core.logFill_sec, Core.logFill_sec], rfl]
@[simp] theorem Core.logSink_flt (c : Core) (p i n : Nat) : (c.logSink p i n).flt = c.flt := by induction n generalizing c i with | zero => rfl | succ n ih => rw [Core.logSink]; split; exacts [by rw [ih, Core.logFill_flt, Core.logFill_flt], rfl]
@[simp] theorem Core.logSink_pwr (c : Core) (p i n : Nat) : (c.logSink p i n).pwr = c.pwr := by induction n generalizing c i with | zero => rfl | succ n ih => rw [Core.logSink]; split; exacts [by rw [ih, Core.logFill_pwr, Core.logFill_pwr], rfl]
@[simp] theorem Core.logSink_pins (c : Core) (p i n : Nat) : (c.logSink p i n).pins = c.pins := by induction n generalizing c i with | zero => rfl | succ n ih => rw [Core.logSink]; split; exacts [by rw [ih, Core.logFill_pins, Core.logFill_pins], rfl]
@[simp] theorem Core.logSink_swapArmed (c : Core) (p i n : Nat) : (c.logSink p i n).swapArmed = c.swapArmed := by induction n generalizing c i with | zero => rfl | succ n ih => rw [Core.logSink]; split; exacts [by rw [ih, Core.logFill_swapArmed, Core.logFill_swapArmed], rfl]
@[simp] theorem Core.logSink_censusArmed (c : Core) (p i n : Nat) : (c.logSink p i n).censusArmed = c.censusArmed := by induction n generalizing c i with | zero => rfl | succ n ih => rw [Core.logSink]; split; exacts [by rw [ih, Core.logFill_censusArmed, Core.logFill_censusArmed], rfl]
@[simp] theorem Core.logSink_saving (c : Core) (p i n : Nat) : (c.logSink p i n).saving = c.saving := by induction n generalizing c i with | zero => rfl | succ n ih => rw [Core.logSink]; split; exacts [by rw [ih, Core.logFill_saving, Core.logFill_saving], rfl]
@[simp] theorem Core.logSink_progs (c : Core) (p i n : Nat) : (c.logSink p i n).progs = c.progs := by induction n generalizing c i with | zero => rfl | succ n ih => rw [Core.logSink]; split; exacts [by rw [ih, Core.logFill_progs, Core.logFill_progs], rfl]
@[simp] theorem Core.logSink_tmpls (c : Core) (p i n : Nat) : (c.logSink p i n).tmpls = c.tmpls := by induction n generalizing c i with | zero => rfl | succ n ih => rw [Core.logSink]; split; exacts [by rw [ih, Core.logFill_tmpls, Core.logFill_tmpls], rfl]
@[simp] theorem Core.logSink_out (c : Core) (p i n : Nat) : (c.logSink p i n).out = c.out := by induction n generalizing c i with | zero => rfl | succ n ih => rw [Core.logSink]; split; exacts [by rw [ih, Core.logFill_out, Core.logFill_out], rfl]
@[simp] theorem Core.logSink_free (c : Core) (p i n : Nat) : (c.logSink p i n).free = c.free := by induction n generalizing c i with | zero => rfl | succ n ih => rw [Core.logSink]; split; exacts [by rw [ih, Core.logFill_free, Core.logFill_free], rfl]

/-! ### Core.nextErr -/

@[simp] theorem Core.nextErr_clk (c : Core) (p : Nat) : (c.nextErr p).clk = c.clk := rfl
@[simp] theorem Core.nextErr_regs (c : Core) (p : Nat) : (c.nextErr p).regs = c.regs := rfl
@[simp] theorem Core.nextErr_cyc (c : Core) (p : Nat) : (c.nextErr p).cyc = c.cyc := rfl
@[simp] theorem Core.nextErr_census (c : Core) (p : Nat) : (c.nextErr p).census = c.census := rfl
@[simp] theorem Core.nextErr_latched (c : Core) (p : Nat) : (c.nextErr p).latched = c.latched := rfl
@[simp] theorem Core.nextErr_notices (c : Core) (p : Nat) : (c.nextErr p).notices = c.notices := rfl
@[simp] theorem Core.nextErr_noticeAt (c : Core) (p : Nat) : (c.nextErr p).noticeAt = c.noticeAt := rfl
@[simp] theorem Core.nextErr_sep (c : Core) (p : Nat) : (c.nextErr p).sep = c.sep := rfl
@[simp] theorem Core.nextErr_ford (c : Core) (p : Nat) : (c.nextErr p).ford = c.ford := rfl
@[simp] theorem Core.nextErr_fab (c : Core) (p : Nat) : (c.nextErr p).fab = c.fab := rfl
@[simp] theorem Core.nextErr_key (c : Core) (p : Nat) : (c.nextErr p).key = c.key := rfl
@[simp] theorem Core.nextErr_rgns (c : Core) (p : Nat) : (c.nextErr p).rgns = c.rgns := rfl
@[simp] theorem Core.nextErr_comp (c : Core) (p : Nat) : (c.nextErr p).comp = c.comp := rfl
@[simp] theorem Core.nextErr_task (c : Core) (p : Nat) : (c.nextErr p).task = c.task := rfl
@[simp] theorem Core.nextErr_cap (c : Core) (p : Nat) : (c.nextErr p).cap = c.cap := rfl
@[simp] theorem Core.nextErr_lanes (c : Core) (p : Nat) : (c.nextErr p).lanes = c.lanes := rfl
@[simp] theorem Core.nextErr_kwn (c : Core) (p : Nat) : (c.nextErr p).kwn = c.kwn := rfl
@[simp] theorem Core.nextErr_sec (c : Core) (p : Nat) : (c.nextErr p).sec = c.sec := rfl
@[simp] theorem Core.nextErr_flt (c : Core) (p : Nat) : (c.nextErr p).flt = c.flt := rfl
@[simp] theorem Core.nextErr_pwr (c : Core) (p : Nat) : (c.nextErr p).pwr = c.pwr := rfl
@[simp] theorem Core.nextErr_pins (c : Core) (p : Nat) : (c.nextErr p).pins = c.pins := rfl
@[simp] theorem Core.nextErr_swapArmed (c : Core) (p : Nat) : (c.nextErr p).swapArmed = c.swapArmed := rfl
@[simp] theorem Core.nextErr_censusArmed (c : Core) (p : Nat) : (c.nextErr p).censusArmed = c.censusArmed := rfl
@[simp] theorem Core.nextErr_saving (c : Core) (p : Nat) : (c.nextErr p).saving = c.saving := rfl
@[simp] theorem Core.nextErr_progs (c : Core) (p : Nat) : (c.nextErr p).progs = c.progs := rfl
@[simp] theorem Core.nextErr_tmpls (c : Core) (p : Nat) : (c.nextErr p).tmpls = c.tmpls := rfl
@[simp] theorem Core.nextErr_out (c : Core) (p : Nat) : (c.nextErr p).out = c.out := rfl
@[simp] theorem Core.nextErr_free (c : Core) (p : Nat) : (c.nextErr p).free = c.free := rfl

/-! ### Core.logLost -/

@[simp] theorem Core.logLost_clk (c : Core) (p cls : Nat) : (c.logLost p cls).clk = c.clk := by rw [Core.logLost, Core.event_clk, Core.mark_clk, Core.setF_clk]; split; exacts [rfl, Core.setF_clk _ _ _ _ _]
@[simp] theorem Core.logLost_census (c : Core) (p cls : Nat) : (c.logLost p cls).census = c.census := by rw [Core.logLost, Core.event_census, Core.mark_census, Core.setF_census]; split; exacts [rfl, Core.setF_census _ _ _ _ _]
@[simp] theorem Core.logLost_latched (c : Core) (p cls : Nat) : (c.logLost p cls).latched = c.latched := by rw [Core.logLost, Core.event_latched, Core.mark_latched, Core.setF_latched]; split; exacts [rfl, Core.setF_latched _ _ _ _ _]
@[simp] theorem Core.logLost_noticeAt (c : Core) (p cls : Nat) : (c.logLost p cls).noticeAt = c.noticeAt := by rw [Core.logLost, Core.event_noticeAt, Core.mark_noticeAt, Core.setF_noticeAt]; split; exacts [rfl, Core.setF_noticeAt _ _ _ _ _]
@[simp] theorem Core.logLost_errSeq (c : Core) (p cls : Nat) : (c.logLost p cls).errSeq = c.errSeq := by rw [Core.logLost, Core.event_errSeq, Core.mark_errSeq, Core.setF_errSeq]; split; exacts [rfl, Core.setF_errSeq _ _ _ _ _]
@[simp] theorem Core.logLost_sep (c : Core) (p cls : Nat) : (c.logLost p cls).sep = c.sep := by rw [Core.logLost, Core.event_sep, Core.mark_sep, Core.setF_sep]; split; exacts [rfl, Core.setF_sep _ _ _ _ _]
@[simp] theorem Core.logLost_ford (c : Core) (p cls : Nat) : (c.logLost p cls).ford = c.ford := by rw [Core.logLost, Core.event_ford, Core.mark_ford, Core.setF_ford]; split; exacts [rfl, Core.setF_ford _ _ _ _ _]
@[simp] theorem Core.logLost_fab (c : Core) (p cls : Nat) : (c.logLost p cls).fab = c.fab := by rw [Core.logLost, Core.event_fab, Core.mark_fab, Core.setF_fab]; split; exacts [rfl, Core.setF_fab _ _ _ _ _]
@[simp] theorem Core.logLost_key (c : Core) (p cls : Nat) : (c.logLost p cls).key = c.key := by rw [Core.logLost, Core.event_key, Core.mark_key, Core.setF_key]; split; exacts [rfl, Core.setF_key _ _ _ _ _]
@[simp] theorem Core.logLost_rgns (c : Core) (p cls : Nat) : (c.logLost p cls).rgns = c.rgns := by rw [Core.logLost, Core.event_rgns, Core.mark_rgns, Core.setF_rgns]; split; exacts [rfl, Core.setF_rgns _ _ _ _ _]
@[simp] theorem Core.logLost_comp (c : Core) (p cls : Nat) : (c.logLost p cls).comp = c.comp := by rw [Core.logLost, Core.event_comp, Core.mark_comp, Core.setF_comp]; split; exacts [rfl, Core.setF_comp _ _ _ _ _]
@[simp] theorem Core.logLost_task (c : Core) (p cls : Nat) : (c.logLost p cls).task = c.task := by rw [Core.logLost, Core.event_task, Core.mark_task, Core.setF_task]; split; exacts [rfl, Core.setF_task _ _ _ _ _]
@[simp] theorem Core.logLost_cap (c : Core) (p cls : Nat) : (c.logLost p cls).cap = c.cap := by rw [Core.logLost, Core.event_cap, Core.mark_cap, Core.setF_cap]; split; exacts [rfl, Core.setF_cap _ _ _ _ _]
@[simp] theorem Core.logLost_lanes (c : Core) (p cls : Nat) : (c.logLost p cls).lanes = c.lanes := by rw [Core.logLost, Core.event_lanes, Core.mark_lanes, Core.setF_lanes]; split; exacts [rfl, Core.setF_lanes _ _ _ _ _]
@[simp] theorem Core.logLost_kwn (c : Core) (p cls : Nat) : (c.logLost p cls).kwn = c.kwn := by rw [Core.logLost, Core.event_kwn, Core.mark_kwn, Core.setF_kwn]; split; exacts [rfl, Core.setF_kwn _ _ _ _ _]
@[simp] theorem Core.logLost_sec (c : Core) (p cls : Nat) : (c.logLost p cls).sec = c.sec := by rw [Core.logLost, Core.event_sec, Core.mark_sec, Core.setF_sec]; split; exacts [rfl, Core.setF_sec _ _ _ _ _]
@[simp] theorem Core.logLost_flt (c : Core) (p cls : Nat) : (c.logLost p cls).flt = c.flt := by rw [Core.logLost, Core.event_flt, Core.mark_flt, Core.setF_flt]; split; exacts [rfl, Core.setF_flt _ _ _ _ _]
@[simp] theorem Core.logLost_pwr (c : Core) (p cls : Nat) : (c.logLost p cls).pwr = c.pwr := by rw [Core.logLost, Core.event_pwr, Core.mark_pwr, Core.setF_pwr]; split; exacts [rfl, Core.setF_pwr _ _ _ _ _]
@[simp] theorem Core.logLost_pins (c : Core) (p cls : Nat) : (c.logLost p cls).pins = c.pins := by rw [Core.logLost, Core.event_pins, Core.mark_pins, Core.setF_pins]; split; exacts [rfl, Core.setF_pins _ _ _ _ _]
@[simp] theorem Core.logLost_swapArmed (c : Core) (p cls : Nat) : (c.logLost p cls).swapArmed = c.swapArmed := by rw [Core.logLost, Core.event_swapArmed, Core.mark_swapArmed, Core.setF_swapArmed]; split; exacts [rfl, Core.setF_swapArmed _ _ _ _ _]
@[simp] theorem Core.logLost_censusArmed (c : Core) (p cls : Nat) : (c.logLost p cls).censusArmed = c.censusArmed := by rw [Core.logLost, Core.event_censusArmed, Core.mark_censusArmed, Core.setF_censusArmed]; split; exacts [rfl, Core.setF_censusArmed _ _ _ _ _]
@[simp] theorem Core.logLost_saving (c : Core) (p cls : Nat) : (c.logLost p cls).saving = c.saving := by rw [Core.logLost, Core.event_saving, Core.mark_saving, Core.setF_saving]; split; exacts [rfl, Core.setF_saving _ _ _ _ _]
@[simp] theorem Core.logLost_progs (c : Core) (p cls : Nat) : (c.logLost p cls).progs = c.progs := by rw [Core.logLost, Core.event_progs, Core.mark_progs, Core.setF_progs]; split; exacts [rfl, Core.setF_progs _ _ _ _ _]
@[simp] theorem Core.logLost_tmpls (c : Core) (p cls : Nat) : (c.logLost p cls).tmpls = c.tmpls := by rw [Core.logLost, Core.event_tmpls, Core.mark_tmpls, Core.setF_tmpls]; split; exacts [rfl, Core.setF_tmpls _ _ _ _ _]
@[simp] theorem Core.logLost_out (c : Core) (p cls : Nat) : (c.logLost p cls).out = c.out := by rw [Core.logLost, Core.event_out, Core.mark_out, Core.setF_out]; split; exacts [rfl, Core.setF_out _ _ _ _ _]
@[simp] theorem Core.logLost_free (c : Core) (p cls : Nat) : (c.logLost p cls).free = c.free := by rw [Core.logLost, Core.event_free, Core.mark_free, Core.setF_free]; split; exacts [rfl, Core.setF_free _ _ _ _ _]

/-! ### Core.logPut -/

@[simp] theorem Core.logPut_clk (c : Core) (p q cls code sub src d u h t : Nat) : (c.logPut p q cls code sub src d u h t).clk = c.clk := by rw [Core.logPut, Core.event_clk, Core.setF_clk, Core.wr_clk, Core.wr_clk, Core.wr_clk, Core.wr_clk]
@[simp] theorem Core.logPut_census (c : Core) (p q cls code sub src d u h t : Nat) : (c.logPut p q cls code sub src d u h t).census = c.census := by rw [Core.logPut, Core.event_census, Core.setF_census, Core.wr_census, Core.wr_census, Core.wr_census, Core.wr_census]
@[simp] theorem Core.logPut_latched (c : Core) (p q cls code sub src d u h t : Nat) : (c.logPut p q cls code sub src d u h t).latched = c.latched := by rw [Core.logPut, Core.event_latched, Core.setF_latched, Core.wr_latched, Core.wr_latched, Core.wr_latched, Core.wr_latched]
@[simp] theorem Core.logPut_noticeAt (c : Core) (p q cls code sub src d u h t : Nat) : (c.logPut p q cls code sub src d u h t).noticeAt = c.noticeAt := by rw [Core.logPut, Core.event_noticeAt, Core.setF_noticeAt, Core.wr_noticeAt, Core.wr_noticeAt, Core.wr_noticeAt, Core.wr_noticeAt]
@[simp] theorem Core.logPut_errSeq (c : Core) (p q cls code sub src d u h t : Nat) : (c.logPut p q cls code sub src d u h t).errSeq = c.errSeq := by rw [Core.logPut, Core.event_errSeq, Core.setF_errSeq, Core.wr_errSeq, Core.wr_errSeq, Core.wr_errSeq, Core.wr_errSeq]
@[simp] theorem Core.logPut_sep (c : Core) (p q cls code sub src d u h t : Nat) : (c.logPut p q cls code sub src d u h t).sep = c.sep := by rw [Core.logPut, Core.event_sep, Core.setF_sep, Core.wr_sep, Core.wr_sep, Core.wr_sep, Core.wr_sep]
@[simp] theorem Core.logPut_ford (c : Core) (p q cls code sub src d u h t : Nat) : (c.logPut p q cls code sub src d u h t).ford = c.ford := by rw [Core.logPut, Core.event_ford, Core.setF_ford, Core.wr_ford, Core.wr_ford, Core.wr_ford, Core.wr_ford]
@[simp] theorem Core.logPut_fab (c : Core) (p q cls code sub src d u h t : Nat) : (c.logPut p q cls code sub src d u h t).fab = c.fab := by rw [Core.logPut, Core.event_fab, Core.setF_fab, Core.wr_fab, Core.wr_fab, Core.wr_fab, Core.wr_fab]
@[simp] theorem Core.logPut_key (c : Core) (p q cls code sub src d u h t : Nat) : (c.logPut p q cls code sub src d u h t).key = c.key := by rw [Core.logPut, Core.event_key, Core.setF_key, Core.wr_key, Core.wr_key, Core.wr_key, Core.wr_key]
@[simp] theorem Core.logPut_rgns (c : Core) (p q cls code sub src d u h t : Nat) : (c.logPut p q cls code sub src d u h t).rgns = c.rgns := by rw [Core.logPut, Core.event_rgns, Core.setF_rgns, Core.wr_rgns, Core.wr_rgns, Core.wr_rgns, Core.wr_rgns]
@[simp] theorem Core.logPut_comp (c : Core) (p q cls code sub src d u h t : Nat) : (c.logPut p q cls code sub src d u h t).comp = c.comp := by rw [Core.logPut, Core.event_comp, Core.setF_comp, Core.wr_comp, Core.wr_comp, Core.wr_comp, Core.wr_comp]
@[simp] theorem Core.logPut_task (c : Core) (p q cls code sub src d u h t : Nat) : (c.logPut p q cls code sub src d u h t).task = c.task := by rw [Core.logPut, Core.event_task, Core.setF_task, Core.wr_task, Core.wr_task, Core.wr_task, Core.wr_task]
@[simp] theorem Core.logPut_cap (c : Core) (p q cls code sub src d u h t : Nat) : (c.logPut p q cls code sub src d u h t).cap = c.cap := by rw [Core.logPut, Core.event_cap, Core.setF_cap, Core.wr_cap, Core.wr_cap, Core.wr_cap, Core.wr_cap]
@[simp] theorem Core.logPut_lanes (c : Core) (p q cls code sub src d u h t : Nat) : (c.logPut p q cls code sub src d u h t).lanes = c.lanes := by rw [Core.logPut, Core.event_lanes, Core.setF_lanes, Core.wr_lanes, Core.wr_lanes, Core.wr_lanes, Core.wr_lanes]
@[simp] theorem Core.logPut_kwn (c : Core) (p q cls code sub src d u h t : Nat) : (c.logPut p q cls code sub src d u h t).kwn = c.kwn := by rw [Core.logPut, Core.event_kwn, Core.setF_kwn, Core.wr_kwn, Core.wr_kwn, Core.wr_kwn, Core.wr_kwn]
@[simp] theorem Core.logPut_sec (c : Core) (p q cls code sub src d u h t : Nat) : (c.logPut p q cls code sub src d u h t).sec = c.sec := by rw [Core.logPut, Core.event_sec, Core.setF_sec, Core.wr_sec, Core.wr_sec, Core.wr_sec, Core.wr_sec]
@[simp] theorem Core.logPut_flt (c : Core) (p q cls code sub src d u h t : Nat) : (c.logPut p q cls code sub src d u h t).flt = c.flt := by rw [Core.logPut, Core.event_flt, Core.setF_flt, Core.wr_flt, Core.wr_flt, Core.wr_flt, Core.wr_flt]
@[simp] theorem Core.logPut_pwr (c : Core) (p q cls code sub src d u h t : Nat) : (c.logPut p q cls code sub src d u h t).pwr = c.pwr := by rw [Core.logPut, Core.event_pwr, Core.setF_pwr, Core.wr_pwr, Core.wr_pwr, Core.wr_pwr, Core.wr_pwr]
@[simp] theorem Core.logPut_pins (c : Core) (p q cls code sub src d u h t : Nat) : (c.logPut p q cls code sub src d u h t).pins = c.pins := by rw [Core.logPut, Core.event_pins, Core.setF_pins, Core.wr_pins, Core.wr_pins, Core.wr_pins, Core.wr_pins]
@[simp] theorem Core.logPut_swapArmed (c : Core) (p q cls code sub src d u h t : Nat) : (c.logPut p q cls code sub src d u h t).swapArmed = c.swapArmed := by rw [Core.logPut, Core.event_swapArmed, Core.setF_swapArmed, Core.wr_swapArmed, Core.wr_swapArmed, Core.wr_swapArmed, Core.wr_swapArmed]
@[simp] theorem Core.logPut_censusArmed (c : Core) (p q cls code sub src d u h t : Nat) : (c.logPut p q cls code sub src d u h t).censusArmed = c.censusArmed := by rw [Core.logPut, Core.event_censusArmed, Core.setF_censusArmed, Core.wr_censusArmed, Core.wr_censusArmed, Core.wr_censusArmed, Core.wr_censusArmed]
@[simp] theorem Core.logPut_saving (c : Core) (p q cls code sub src d u h t : Nat) : (c.logPut p q cls code sub src d u h t).saving = c.saving := by rw [Core.logPut, Core.event_saving, Core.setF_saving, Core.wr_saving, Core.wr_saving, Core.wr_saving, Core.wr_saving]
@[simp] theorem Core.logPut_progs (c : Core) (p q cls code sub src d u h t : Nat) : (c.logPut p q cls code sub src d u h t).progs = c.progs := by rw [Core.logPut, Core.event_progs, Core.setF_progs, Core.wr_progs, Core.wr_progs, Core.wr_progs, Core.wr_progs]
@[simp] theorem Core.logPut_tmpls (c : Core) (p q cls code sub src d u h t : Nat) : (c.logPut p q cls code sub src d u h t).tmpls = c.tmpls := by rw [Core.logPut, Core.event_tmpls, Core.setF_tmpls, Core.wr_tmpls, Core.wr_tmpls, Core.wr_tmpls, Core.wr_tmpls]
@[simp] theorem Core.logPut_out (c : Core) (p q cls code sub src d u h t : Nat) : (c.logPut p q cls code sub src d u h t).out = c.out := by rw [Core.logPut, Core.event_out, Core.setF_out, Core.wr_out, Core.wr_out, Core.wr_out, Core.wr_out]
@[simp] theorem Core.logPut_free (c : Core) (p q cls code sub src d u h t : Nat) : (c.logPut p q cls code sub src d u h t).free = c.free := by rw [Core.logPut, Core.event_free, Core.setF_free, Core.wr_free, Core.wr_free, Core.wr_free, Core.wr_free]

/-! ### Core.logErr -/

@[simp] theorem Core.logErr_clk (c : Core) (p cls code sub src d : Nat) : (c.logErr p cls code sub src d).clk = c.clk := by rw [Core.logErr]; split; ( split <;> simp only [Core.logLost_clk, Core.logSink_clk, Core.logFill_clk, Core.nextErr_clk] ); simp only [Core.logSink_clk, Core.logPut_clk, Core.nextErr_clk]
@[simp] theorem Core.logErr_census (c : Core) (p cls code sub src d : Nat) : (c.logErr p cls code sub src d).census = c.census := by rw [Core.logErr]; split; ( split <;> simp only [Core.logLost_census, Core.logSink_census, Core.logFill_census, Core.nextErr_census] ); simp only [Core.logSink_census, Core.logPut_census, Core.nextErr_census]
@[simp] theorem Core.logErr_latched (c : Core) (p cls code sub src d : Nat) : (c.logErr p cls code sub src d).latched = c.latched := by rw [Core.logErr]; split; ( split <;> simp only [Core.logLost_latched, Core.logSink_latched, Core.logFill_latched, Core.nextErr_latched] ); simp only [Core.logSink_latched, Core.logPut_latched, Core.nextErr_latched]
@[simp] theorem Core.logErr_noticeAt (c : Core) (p cls code sub src d : Nat) : (c.logErr p cls code sub src d).noticeAt = c.noticeAt := by rw [Core.logErr]; split; ( split <;> simp only [Core.logLost_noticeAt, Core.logSink_noticeAt, Core.logFill_noticeAt, Core.nextErr_noticeAt] ); simp only [Core.logSink_noticeAt, Core.logPut_noticeAt, Core.nextErr_noticeAt]
@[simp] theorem Core.logErr_sep (c : Core) (p cls code sub src d : Nat) : (c.logErr p cls code sub src d).sep = c.sep := by rw [Core.logErr]; split; ( split <;> simp only [Core.logLost_sep, Core.logSink_sep, Core.logFill_sep, Core.nextErr_sep] ); simp only [Core.logSink_sep, Core.logPut_sep, Core.nextErr_sep]
@[simp] theorem Core.logErr_ford (c : Core) (p cls code sub src d : Nat) : (c.logErr p cls code sub src d).ford = c.ford := by rw [Core.logErr]; split; ( split <;> simp only [Core.logLost_ford, Core.logSink_ford, Core.logFill_ford, Core.nextErr_ford] ); simp only [Core.logSink_ford, Core.logPut_ford, Core.nextErr_ford]
@[simp] theorem Core.logErr_fab (c : Core) (p cls code sub src d : Nat) : (c.logErr p cls code sub src d).fab = c.fab := by rw [Core.logErr]; split; ( split <;> simp only [Core.logLost_fab, Core.logSink_fab, Core.logFill_fab, Core.nextErr_fab] ); simp only [Core.logSink_fab, Core.logPut_fab, Core.nextErr_fab]
@[simp] theorem Core.logErr_key (c : Core) (p cls code sub src d : Nat) : (c.logErr p cls code sub src d).key = c.key := by rw [Core.logErr]; split; ( split <;> simp only [Core.logLost_key, Core.logSink_key, Core.logFill_key, Core.nextErr_key] ); simp only [Core.logSink_key, Core.logPut_key, Core.nextErr_key]
@[simp] theorem Core.logErr_rgns (c : Core) (p cls code sub src d : Nat) : (c.logErr p cls code sub src d).rgns = c.rgns := by rw [Core.logErr]; split; ( split <;> simp only [Core.logLost_rgns, Core.logSink_rgns, Core.logFill_rgns, Core.nextErr_rgns] ); simp only [Core.logSink_rgns, Core.logPut_rgns, Core.nextErr_rgns]
@[simp] theorem Core.logErr_comp (c : Core) (p cls code sub src d : Nat) : (c.logErr p cls code sub src d).comp = c.comp := by rw [Core.logErr]; split; ( split <;> simp only [Core.logLost_comp, Core.logSink_comp, Core.logFill_comp, Core.nextErr_comp] ); simp only [Core.logSink_comp, Core.logPut_comp, Core.nextErr_comp]
@[simp] theorem Core.logErr_task (c : Core) (p cls code sub src d : Nat) : (c.logErr p cls code sub src d).task = c.task := by rw [Core.logErr]; split; ( split <;> simp only [Core.logLost_task, Core.logSink_task, Core.logFill_task, Core.nextErr_task] ); simp only [Core.logSink_task, Core.logPut_task, Core.nextErr_task]
@[simp] theorem Core.logErr_cap (c : Core) (p cls code sub src d : Nat) : (c.logErr p cls code sub src d).cap = c.cap := by rw [Core.logErr]; split; ( split <;> simp only [Core.logLost_cap, Core.logSink_cap, Core.logFill_cap, Core.nextErr_cap] ); simp only [Core.logSink_cap, Core.logPut_cap, Core.nextErr_cap]
@[simp] theorem Core.logErr_lanes (c : Core) (p cls code sub src d : Nat) : (c.logErr p cls code sub src d).lanes = c.lanes := by rw [Core.logErr]; split; ( split <;> simp only [Core.logLost_lanes, Core.logSink_lanes, Core.logFill_lanes, Core.nextErr_lanes] ); simp only [Core.logSink_lanes, Core.logPut_lanes, Core.nextErr_lanes]
@[simp] theorem Core.logErr_kwn (c : Core) (p cls code sub src d : Nat) : (c.logErr p cls code sub src d).kwn = c.kwn := by rw [Core.logErr]; split; ( split <;> simp only [Core.logLost_kwn, Core.logSink_kwn, Core.logFill_kwn, Core.nextErr_kwn] ); simp only [Core.logSink_kwn, Core.logPut_kwn, Core.nextErr_kwn]
@[simp] theorem Core.logErr_sec (c : Core) (p cls code sub src d : Nat) : (c.logErr p cls code sub src d).sec = c.sec := by rw [Core.logErr]; split; ( split <;> simp only [Core.logLost_sec, Core.logSink_sec, Core.logFill_sec, Core.nextErr_sec] ); simp only [Core.logSink_sec, Core.logPut_sec, Core.nextErr_sec]
@[simp] theorem Core.logErr_flt (c : Core) (p cls code sub src d : Nat) : (c.logErr p cls code sub src d).flt = c.flt := by rw [Core.logErr]; split; ( split <;> simp only [Core.logLost_flt, Core.logSink_flt, Core.logFill_flt, Core.nextErr_flt] ); simp only [Core.logSink_flt, Core.logPut_flt, Core.nextErr_flt]
@[simp] theorem Core.logErr_pwr (c : Core) (p cls code sub src d : Nat) : (c.logErr p cls code sub src d).pwr = c.pwr := by rw [Core.logErr]; split; ( split <;> simp only [Core.logLost_pwr, Core.logSink_pwr, Core.logFill_pwr, Core.nextErr_pwr] ); simp only [Core.logSink_pwr, Core.logPut_pwr, Core.nextErr_pwr]
@[simp] theorem Core.logErr_pins (c : Core) (p cls code sub src d : Nat) : (c.logErr p cls code sub src d).pins = c.pins := by rw [Core.logErr]; split; ( split <;> simp only [Core.logLost_pins, Core.logSink_pins, Core.logFill_pins, Core.nextErr_pins] ); simp only [Core.logSink_pins, Core.logPut_pins, Core.nextErr_pins]
@[simp] theorem Core.logErr_swapArmed (c : Core) (p cls code sub src d : Nat) : (c.logErr p cls code sub src d).swapArmed = c.swapArmed := by rw [Core.logErr]; split; ( split <;> simp only [Core.logLost_swapArmed, Core.logSink_swapArmed, Core.logFill_swapArmed, Core.nextErr_swapArmed] ); simp only [Core.logSink_swapArmed, Core.logPut_swapArmed, Core.nextErr_swapArmed]
@[simp] theorem Core.logErr_censusArmed (c : Core) (p cls code sub src d : Nat) : (c.logErr p cls code sub src d).censusArmed = c.censusArmed := by rw [Core.logErr]; split; ( split <;> simp only [Core.logLost_censusArmed, Core.logSink_censusArmed, Core.logFill_censusArmed, Core.nextErr_censusArmed] ); simp only [Core.logSink_censusArmed, Core.logPut_censusArmed, Core.nextErr_censusArmed]
@[simp] theorem Core.logErr_saving (c : Core) (p cls code sub src d : Nat) : (c.logErr p cls code sub src d).saving = c.saving := by rw [Core.logErr]; split; ( split <;> simp only [Core.logLost_saving, Core.logSink_saving, Core.logFill_saving, Core.nextErr_saving] ); simp only [Core.logSink_saving, Core.logPut_saving, Core.nextErr_saving]
@[simp] theorem Core.logErr_progs (c : Core) (p cls code sub src d : Nat) : (c.logErr p cls code sub src d).progs = c.progs := by rw [Core.logErr]; split; ( split <;> simp only [Core.logLost_progs, Core.logSink_progs, Core.logFill_progs, Core.nextErr_progs] ); simp only [Core.logSink_progs, Core.logPut_progs, Core.nextErr_progs]
@[simp] theorem Core.logErr_tmpls (c : Core) (p cls code sub src d : Nat) : (c.logErr p cls code sub src d).tmpls = c.tmpls := by rw [Core.logErr]; split; ( split <;> simp only [Core.logLost_tmpls, Core.logSink_tmpls, Core.logFill_tmpls, Core.nextErr_tmpls] ); simp only [Core.logSink_tmpls, Core.logPut_tmpls, Core.nextErr_tmpls]
@[simp] theorem Core.logErr_out (c : Core) (p cls code sub src d : Nat) : (c.logErr p cls code sub src d).out = c.out := by rw [Core.logErr]; split; ( split <;> simp only [Core.logLost_out, Core.logSink_out, Core.logFill_out, Core.nextErr_out] ); simp only [Core.logSink_out, Core.logPut_out, Core.nextErr_out]
@[simp] theorem Core.logErr_free (c : Core) (p cls code sub src d : Nat) : (c.logErr p cls code sub src d).free = c.free := by rw [Core.logErr]; split; ( split <;> simp only [Core.logLost_free, Core.logSink_free, Core.logFill_free, Core.nextErr_free] ); simp only [Core.logSink_free, Core.logPut_free, Core.nextErr_free]

/-! ### Core.reject -/

@[simp] theorem Core.reject_clk (c : Core) (p o v : Nat) : (c.reject p o v).clk = c.clk := Core.logErr_clk c p clsC 1 0 o (v % 2 ^ 32)
@[simp] theorem Core.reject_census (c : Core) (p o v : Nat) : (c.reject p o v).census = c.census := Core.logErr_census c p clsC 1 0 o (v % 2 ^ 32)
@[simp] theorem Core.reject_latched (c : Core) (p o v : Nat) : (c.reject p o v).latched = c.latched := Core.logErr_latched c p clsC 1 0 o (v % 2 ^ 32)
@[simp] theorem Core.reject_noticeAt (c : Core) (p o v : Nat) : (c.reject p o v).noticeAt = c.noticeAt := Core.logErr_noticeAt c p clsC 1 0 o (v % 2 ^ 32)
@[simp] theorem Core.reject_sep (c : Core) (p o v : Nat) : (c.reject p o v).sep = c.sep := Core.logErr_sep c p clsC 1 0 o (v % 2 ^ 32)
@[simp] theorem Core.reject_ford (c : Core) (p o v : Nat) : (c.reject p o v).ford = c.ford := Core.logErr_ford c p clsC 1 0 o (v % 2 ^ 32)
@[simp] theorem Core.reject_fab (c : Core) (p o v : Nat) : (c.reject p o v).fab = c.fab := Core.logErr_fab c p clsC 1 0 o (v % 2 ^ 32)
@[simp] theorem Core.reject_key (c : Core) (p o v : Nat) : (c.reject p o v).key = c.key := Core.logErr_key c p clsC 1 0 o (v % 2 ^ 32)
@[simp] theorem Core.reject_rgns (c : Core) (p o v : Nat) : (c.reject p o v).rgns = c.rgns := Core.logErr_rgns c p clsC 1 0 o (v % 2 ^ 32)
@[simp] theorem Core.reject_comp (c : Core) (p o v : Nat) : (c.reject p o v).comp = c.comp := Core.logErr_comp c p clsC 1 0 o (v % 2 ^ 32)
@[simp] theorem Core.reject_task (c : Core) (p o v : Nat) : (c.reject p o v).task = c.task := Core.logErr_task c p clsC 1 0 o (v % 2 ^ 32)
@[simp] theorem Core.reject_cap (c : Core) (p o v : Nat) : (c.reject p o v).cap = c.cap := Core.logErr_cap c p clsC 1 0 o (v % 2 ^ 32)
@[simp] theorem Core.reject_lanes (c : Core) (p o v : Nat) : (c.reject p o v).lanes = c.lanes := Core.logErr_lanes c p clsC 1 0 o (v % 2 ^ 32)
@[simp] theorem Core.reject_kwn (c : Core) (p o v : Nat) : (c.reject p o v).kwn = c.kwn := Core.logErr_kwn c p clsC 1 0 o (v % 2 ^ 32)
@[simp] theorem Core.reject_sec (c : Core) (p o v : Nat) : (c.reject p o v).sec = c.sec := Core.logErr_sec c p clsC 1 0 o (v % 2 ^ 32)
@[simp] theorem Core.reject_flt (c : Core) (p o v : Nat) : (c.reject p o v).flt = c.flt := Core.logErr_flt c p clsC 1 0 o (v % 2 ^ 32)
@[simp] theorem Core.reject_pwr (c : Core) (p o v : Nat) : (c.reject p o v).pwr = c.pwr := Core.logErr_pwr c p clsC 1 0 o (v % 2 ^ 32)
@[simp] theorem Core.reject_pins (c : Core) (p o v : Nat) : (c.reject p o v).pins = c.pins := Core.logErr_pins c p clsC 1 0 o (v % 2 ^ 32)
@[simp] theorem Core.reject_swapArmed (c : Core) (p o v : Nat) : (c.reject p o v).swapArmed = c.swapArmed := Core.logErr_swapArmed c p clsC 1 0 o (v % 2 ^ 32)
@[simp] theorem Core.reject_censusArmed (c : Core) (p o v : Nat) : (c.reject p o v).censusArmed = c.censusArmed := Core.logErr_censusArmed c p clsC 1 0 o (v % 2 ^ 32)
@[simp] theorem Core.reject_saving (c : Core) (p o v : Nat) : (c.reject p o v).saving = c.saving := Core.logErr_saving c p clsC 1 0 o (v % 2 ^ 32)
@[simp] theorem Core.reject_progs (c : Core) (p o v : Nat) : (c.reject p o v).progs = c.progs := Core.logErr_progs c p clsC 1 0 o (v % 2 ^ 32)
@[simp] theorem Core.reject_tmpls (c : Core) (p o v : Nat) : (c.reject p o v).tmpls = c.tmpls := Core.logErr_tmpls c p clsC 1 0 o (v % 2 ^ 32)
@[simp] theorem Core.reject_out (c : Core) (p o v : Nat) : (c.reject p o v).out = c.out := Core.logErr_out c p clsC 1 0 o (v % 2 ^ 32)
@[simp] theorem Core.reject_free (c : Core) (p o v : Nat) : (c.reject p o v).free = c.free := Core.logErr_free c p clsC 1 0 o (v % 2 ^ 32)

/-! ### Core.observe -/

@[simp] theorem Core.observe_clk (c : Core) (x : Obs) : (c.observe x).clk = c.clk := by unfold Core.observe; dsimp only; split <;> rfl
@[simp] theorem Core.observe_regs (c : Core) (x : Obs) : (c.observe x).regs = c.regs := by unfold Core.observe; dsimp only; split <;> rfl
@[simp] theorem Core.observe_cyc (c : Core) (x : Obs) : (c.observe x).cyc = c.cyc := by unfold Core.observe; dsimp only; split <;> rfl
@[simp] theorem Core.observe_census (c : Core) (x : Obs) : (c.observe x).census = c.census := by unfold Core.observe; dsimp only; split <;> rfl
@[simp] theorem Core.observe_latched (c : Core) (x : Obs) : (c.observe x).latched = c.latched := by unfold Core.observe; dsimp only; split <;> rfl
@[simp] theorem Core.observe_notices (c : Core) (x : Obs) : (c.observe x).notices = c.notices := by unfold Core.observe; dsimp only; split <;> rfl
@[simp] theorem Core.observe_noticeAt (c : Core) (x : Obs) : (c.observe x).noticeAt = c.noticeAt := by unfold Core.observe; dsimp only; split <;> rfl
@[simp] theorem Core.observe_errSeq (c : Core) (x : Obs) : (c.observe x).errSeq = c.errSeq := by unfold Core.observe; dsimp only; split <;> rfl
@[simp] theorem Core.observe_sep (c : Core) (x : Obs) : (c.observe x).sep = c.sep := by unfold Core.observe; dsimp only; split <;> rfl
@[simp] theorem Core.observe_ford (c : Core) (x : Obs) : (c.observe x).ford = c.ford := by unfold Core.observe; dsimp only; split <;> rfl
@[simp] theorem Core.observe_fab (c : Core) (x : Obs) : (c.observe x).fab = c.fab := by unfold Core.observe; dsimp only; split <;> rfl
@[simp] theorem Core.observe_key (c : Core) (x : Obs) : (c.observe x).key = c.key := by unfold Core.observe; dsimp only; split <;> rfl
@[simp] theorem Core.observe_rgns (c : Core) (x : Obs) : (c.observe x).rgns = c.rgns := by unfold Core.observe; dsimp only; split <;> rfl
@[simp] theorem Core.observe_comp (c : Core) (x : Obs) : (c.observe x).comp = c.comp := by unfold Core.observe; dsimp only; split <;> rfl
@[simp] theorem Core.observe_task (c : Core) (x : Obs) : (c.observe x).task = c.task := by unfold Core.observe; dsimp only; split <;> rfl
@[simp] theorem Core.observe_lanes (c : Core) (x : Obs) : (c.observe x).lanes = c.lanes := by unfold Core.observe; dsimp only; split <;> rfl
@[simp] theorem Core.observe_kwn (c : Core) (x : Obs) : (c.observe x).kwn = c.kwn := by unfold Core.observe; dsimp only; split <;> rfl
@[simp] theorem Core.observe_sec (c : Core) (x : Obs) : (c.observe x).sec = c.sec := by unfold Core.observe; dsimp only; split <;> rfl
@[simp] theorem Core.observe_flt (c : Core) (x : Obs) : (c.observe x).flt = c.flt := by unfold Core.observe; dsimp only; split <;> rfl
@[simp] theorem Core.observe_pwr (c : Core) (x : Obs) : (c.observe x).pwr = c.pwr := by unfold Core.observe; dsimp only; split <;> rfl
@[simp] theorem Core.observe_pins (c : Core) (x : Obs) : (c.observe x).pins = c.pins := by unfold Core.observe; dsimp only; split <;> rfl
@[simp] theorem Core.observe_swapArmed (c : Core) (x : Obs) : (c.observe x).swapArmed = c.swapArmed := by unfold Core.observe; dsimp only; split <;> rfl
@[simp] theorem Core.observe_censusArmed (c : Core) (x : Obs) : (c.observe x).censusArmed = c.censusArmed := by unfold Core.observe; dsimp only; split <;> rfl
@[simp] theorem Core.observe_saving (c : Core) (x : Obs) : (c.observe x).saving = c.saving := by unfold Core.observe; dsimp only; split <;> rfl
@[simp] theorem Core.observe_progs (c : Core) (x : Obs) : (c.observe x).progs = c.progs := by unfold Core.observe; dsimp only; split <;> rfl
@[simp] theorem Core.observe_tmpls (c : Core) (x : Obs) : (c.observe x).tmpls = c.tmpls := by unfold Core.observe; dsimp only; split <;> rfl
@[simp] theorem Core.observe_out (c : Core) (x : Obs) : (c.observe x).out = c.out := by unfold Core.observe; dsimp only; split <;> rfl
@[simp] theorem Core.observe_free (c : Core) (x : Obs) : (c.observe x).free = c.free := by unfold Core.observe; dsimp only; split <;> rfl

end Sys2Proof.Machine
end

