-- ==== Sys2Proof/Laws/Store.lean ====
section
/-! SUPPORT. The laws of sparse tables and byte memories: what a key reads after a change, and that every memory operation keeps
the canonical form. -/

namespace Sys2Proof.Machine

variable {α : Type}

/-! ### Reading after a change -/

@[simp] theorem Store.get_nil (d : α) (k : Nat) : Store.get ([] : Store α) d k = d := rfl

theorem Store.get_cons (e : Nat × α) (s : Store α) (d : α) (k : Nat) :
    Store.get (e :: s) d k = if e.1 = k then e.2 else Store.get s d k := rfl

theorem Store.mem_erase (s : Store α) (k : Nat) (e : Nat × α) : e ∈ Store.erase s k ↔ e ∈ s ∧ e.1 ≠ k := by
  induction s with
  | nil => simp [Store.erase]
  | cons a t ih =>
    rw [Store.erase]
    split
    · rw [ih]; constructor
      · rintro ⟨h, n⟩; exact ⟨.tail _ h, n⟩
      · rintro ⟨h, n⟩
        cases h with
        | head => exact absurd (by assumption) n
        | tail _ h => exact ⟨h, n⟩
    · constructor
      · intro h
        cases h with
        | head => exact ⟨.head _, by assumption⟩
        | tail _ h => exact ⟨.tail _ (ih.1 h).1, (ih.1 h).2⟩
      · rintro ⟨h, n⟩
        cases h with
        | head => exact .head _
        | tail _ h => exact .tail _ (ih.2 ⟨h, n⟩)

@[simp] theorem Store.get_erase_self (s : Store α) (d : α) (k : Nat) : Store.get (Store.erase s k) d k = d := by
  induction s with
  | nil => rfl
  | cons a t ih =>
    rw [Store.erase]
    split
    · exact ih
    · rw [Store.get_cons, if_neg (by assumption)]; exact ih

theorem Store.get_erase_ne (s : Store α) (d : α) {k j : Nat} (h : j ≠ k) :
    Store.get (Store.erase s k) d j = Store.get s d j := by
  induction s with
  | nil => rfl
  | cons a t ih =>
    rw [Store.erase, Store.get_cons]
    split
    · rw [ih, if_neg (by simp_all [eq_comm])]
    · rw [Store.get_cons, ih]

theorem Store.get_insert_self (s : Store α) (d : α) (k : Nat) (v : α) (h : ∀ e ∈ s, e.1 ≠ k) :
    Store.get (Store.insert s k v) d k = v := by
  induction s with
  | nil => simp [Store.insert, Store.get_cons]
  | cons a t ih =>
    rw [Store.insert]
    split
    · simp [Store.get_cons]
    · rw [Store.get_cons, if_neg (h a (.head _))]
      exact ih fun e m => h e (.tail _ m)

theorem Store.get_insert_ne (s : Store α) (d : α) {k j : Nat} (v : α) (h : j ≠ k) :
    Store.get (Store.insert s k v) d j = Store.get s d j := by
  induction s with
  | nil => rw [Store.insert, Store.get_cons, if_neg (by simpa [eq_comm] using h)]
  | cons a t ih =>
    rw [Store.insert]
    split
    · rw [Store.get_cons, if_neg (by simpa [eq_comm] using h)]
    · rw [Store.get_cons, Store.get_cons, ih]

@[simp] theorem Store.get_set_self [DecidableEq α] (s : Store α) (d : α) (k : Nat) (v : α) :
    Store.get (Store.set s d k v) d k = v := by
  rw [Store.set]
  split
  · simp [*]
  · exact Store.get_insert_self _ _ _ _ fun e m => ((Store.mem_erase s k e).1 m).2

theorem Store.get_set_ne [DecidableEq α] (s : Store α) (d : α) {k j : Nat} (v : α) (h : j ≠ k) :
    Store.get (Store.set s d k v) d j = Store.get s d j := by
  rw [Store.set]
  split
  · exact Store.get_erase_ne s d h
  · rw [Store.get_insert_ne _ _ _ h, Store.get_erase_ne _ _ h]

theorem Store.get_set [DecidableEq α] (s : Store α) (d : α) (k j : Nat) (v : α) :
    Store.get (Store.set s d k v) d j = if j = k then v else Store.get s d j := by
  split
  · subst j; exact Store.get_set_self ..
  · exact Store.get_set_ne _ _ _ (by assumption)

/-- The entry that `find?` meets after an entry was put in the place of its key. -/
theorem Store.find_put (s : Store α) (k j : Nat) (v : α) :
    ((Store.insert (Store.erase s k) k v).find? fun e => e.1 = j) =
      if j = k then some (k, v) else s.find? fun e => e.1 = j := by
  have hE : ∀ s : Store α, j ≠ k → ((Store.erase s k).find? fun e => e.1 = j) = s.find? fun e => e.1 = j := by
    intro s h
    induction s with
    | nil => rfl
    | cons a t ih =>
      rw [Store.erase]
      split
      · rw [ih, List.find?_cons_of_neg]
        simp only [decide_eq_true_eq]; omega
      · simp only [List.find?_cons, ih]
  have hI : ∀ s : Store α, (∀ e ∈ s, e.1 ≠ k) → ((Store.insert s k v).find? fun e => e.1 = j) =
      if j = k then some (k, v) else s.find? fun e => e.1 = j := by
    intro s
    induction s with
    | nil =>
      intro _
      rw [Store.insert, List.find?_cons]
      by_cases e : j = k
      · simp [e]
      · simp [e, Ne.symm e]
    | cons a t ih =>
      intro h
      have ha := h a (.head _)
      rw [Store.insert]
      split
      · rw [List.find?_cons]
        by_cases e : j = k
        · simp [e]
        · simp [e, Ne.symm e]
      · rw [List.find?_cons, ih fun e m => h e (.tail _ m), List.find?_cons]
        by_cases e : j = k
        · subst e
          simp [ha]
        · simp only [e, if_false]
  rw [hI _ fun e m => ((Store.mem_erase s k e).1 m).2]
  split
  · rfl
  · exact hE s (by assumption)

/-! ### The canonical form -/

theorem Store.wf_iff [DecidableEq α] (d : α) (s : Store α) :
    Store.wf d s = true ↔ s.Pairwise (fun a b => a.1 < b.1) ∧ ∀ e ∈ s, e.2 ≠ d := by
  induction s with
  | nil => simp [Store.wf]
  | cons a t ih =>
    cases t with
    | nil => simp [Store.wf]
    | cons b t =>
      simp only [Store.wf, Bool.and_eq_true, decide_eq_true_eq, ih, List.pairwise_cons, List.mem_cons, forall_eq_or_imp]
      constructor
      · rintro ⟨⟨hab, ha⟩, ⟨hb, ht⟩, hd, hds⟩
        exact ⟨⟨⟨hab, fun e m => Nat.lt_trans hab (hb e m)⟩, hb, ht⟩, by simpa using ha, hd, hds⟩
      · rintro ⟨⟨⟨hab, _⟩, hb, ht⟩, ha, hd, hds⟩
        exact ⟨⟨hab, by simpa using ha⟩, ⟨hb, ht⟩, hd, hds⟩

theorem Store.wf_filter [DecidableEq α] (d : α) (s : Store α) (p : Nat × α → Bool) (h : Store.wf d s = true) :
    Store.wf d (s.filter p) = true := by
  rw [Store.wf_iff] at h ⊢
  exact ⟨h.1.filter p, fun e m => h.2 e (List.mem_filter.1 m).1⟩

theorem Store.erase_eq_filter (s : Store α) (k : Nat) : Store.erase s k = s.filter fun e => e.1 ≠ k := by
  induction s with
  | nil => rfl
  | cons a t ih => rw [Store.erase]; split <;> simp_all

theorem Store.mem_insert (s : Store α) (k : Nat) (v : α) (e : Nat × α) : e ∈ Store.insert s k v ↔ e = (k, v) ∨ e ∈ s := by
  induction s with
  | nil => simp [Store.insert]
  | cons a t ih =>
    rw [Store.insert]
    split
    · simp
    · simp only [List.mem_cons, ih]; tauto

theorem Store.wf_insert [DecidableEq α] (d : α) (s : Store α) (k : Nat) (v : α) (h : Store.wf d s = true) (hv : v ≠ d)
    (hk : ∀ e ∈ s, e.1 ≠ k) : Store.wf d (Store.insert s k v) = true := by
  rw [Store.wf_iff] at h ⊢
  refine ⟨?_, fun e m => ?_⟩
  · have hp := h.1
    clear h
    induction s with
    | nil => simp [Store.insert]
    | cons a t ih =>
      rw [List.pairwise_cons] at hp
      rw [Store.insert]
      split
      · rename_i hlt
        refine List.pairwise_cons.2 ⟨fun e m => ?_, List.pairwise_cons.2 hp⟩
        cases m with
        | head => exact hlt
        | tail _ m => exact Nat.lt_trans hlt (hp.1 e m)
      · refine List.pairwise_cons.2 ⟨fun e m => ?_, ih (fun e m => hk e (.tail _ m)) hp.2⟩
        rcases (Store.mem_insert t k v e).1 m with rfl | m
        · have := hk a (.head _); simp only; omega
        · exact hp.1 e m
  · rcases (Store.mem_insert s k v e).1 m with rfl | m
    · exact hv
    · exact h.2 e m

theorem Store.wf_set [DecidableEq α] (d : α) (s : Store α) (k : Nat) (v : α) (h : Store.wf d s = true) :
    Store.wf d (Store.set s d k v) = true := by
  have he : Store.wf d (Store.erase s k) = true := by rw [Store.erase_eq_filter]; exact Store.wf_filter d s _ h
  rw [Store.set]
  split
  · exact he
  · exact Store.wf_insert d _ k v he (by assumption) fun e m => ((Store.mem_erase s k e).1 m).2

/-! ### Byte memories -/

@[simp] theorem Mem.byte_setByte_self (m : Mem) (a : Nat) (b : Byte) : (m.setByte a b).byte a = b := by
  simp [Mem.byte, Mem.setByte]

theorem Mem.byte_setByte_ne (m : Mem) {a x : Nat} (b : Byte) (h : x ≠ a) : (m.setByte a b).byte x = m.byte x :=
  Store.get_set_ne _ _ _ h

theorem Mem.byte_write_out (m : Mem) (a x : Nat) (bs : List Byte) (h : x < a ∨ a + bs.length ≤ x) :
    (m.write a bs).byte x = m.byte x := by
  induction bs generalizing m a with
  | nil => rfl
  | cons b t ih =>
    simp only [List.length_cons] at h
    rw [Mem.write, ih _ _ (by omega), Mem.byte_setByte_ne _ _ (by omega)]

theorem Mem.byte_write_in (m : Mem) (a i : Nat) (bs : List Byte) (h : i < bs.length) :
    (m.write a bs).byte (a + i) = bs[i] := by
  induction bs generalizing m a i with
  | nil => exact absurd h (by simp)
  | cons b t ih =>
    rw [Mem.write]
    cases i with
    | zero => rw [Mem.byte_write_out _ _ _ _ (by omega)]; simp
    | succ i =>
      have := ih (m.setByte a b) (a + 1) i (by simpa using h)
      simpa [Nat.add_assoc, Nat.add_comm 1] using this

@[simp] theorem Mem.byte_unpoison (m : Mem) (a n x : Nat) : (m.unpoison a n).byte x = m.byte x := rfl

@[simp] theorem Mem.byte_setPoison (m : Mem) (a x : Nat) : (m.setPoison a).byte x = m.byte x := rfl

theorem Mem.byte_store_out (m : Mem) (a x : Nat) (bs : List Byte) (h : x < a ∨ a + bs.length ≤ x) :
    (m.store a bs).byte x = m.byte x := Mem.byte_write_out m a x bs h

theorem Mem.byte_store_in (m : Mem) (a i : Nat) (bs : List Byte) (h : i < bs.length) :
    (m.store a bs).byte (a + i) = bs[i] := Mem.byte_write_in m a i bs h

@[simp] theorem Mem.read_length (m : Mem) (a n : Nat) : (m.read a n).length = n := by
  induction n generalizing a with
  | zero => rfl
  | succ n ih => simp [Mem.read, ih]

theorem Mem.read_write (m : Mem) (a : Nat) (bs : List Byte) : (m.write a bs).read a bs.length = bs := by
  induction bs generalizing m a with
  | nil => rfl
  | cons b t ih =>
    simp only [List.length_cons, Mem.read, Mem.write]
    rw [ih, Mem.byte_write_out _ _ _ _ (by omega), Mem.byte_setByte_self]

theorem Mem.read_unpoison (m : Mem) (b k a n : Nat) : (m.unpoison b k).read a n = m.read a n := by
  induction n generalizing a with
  | zero => rfl
  | succ n ih => simp [Mem.read, ih]

theorem Mem.read_store (m : Mem) (a : Nat) (bs : List Byte) : (m.store a bs).read a bs.length = bs := by
  rw [Mem.store, Mem.read_unpoison, Mem.read_write]

/-! ### The canonical form of the memories -/

theorem Mem.wf_iff (m : Mem) : m.wf = true ↔ Store.wf (0 : Byte) m.bytes = true ∧ Store.wf (0 : Byte) m.flash = true := by
  simp [Mem.wf]

theorem Mem.wf_setByte (m : Mem) (a : Nat) (b : Byte) (h : m.wf = true) : (m.setByte a b).wf = true := by
  rw [Mem.wf_iff] at h ⊢
  exact ⟨Store.wf_set _ _ _ _ h.1, h.2⟩

theorem Mem.wf_write (m : Mem) (a : Nat) (bs : List Byte) (h : m.wf = true) : (m.write a bs).wf = true := by
  induction bs generalizing m a with
  | nil => exact h
  | cons b t ih => exact ih _ _ (Mem.wf_setByte m a b h)

theorem Mem.wf_unpoison (m : Mem) (a n : Nat) (h : m.wf = true) : (m.unpoison a n).wf = true := h

theorem Mem.wf_setPoison (m : Mem) (a : Nat) (h : m.wf = true) : (m.setPoison a).wf = true := h

theorem Mem.wf_store (m : Mem) (a : Nat) (bs : List Byte) (h : m.wf = true) : (m.store a bs).wf = true :=
  Mem.wf_write m a bs h

theorem Mem.wf_flashWrite (m : Mem) (a : Nat) (bs : List Byte) (h : m.wf = true) : (m.flashWrite a bs).wf = true := by
  induction bs generalizing m a with
  | nil => exact h
  | cons b t ih =>
    refine ih _ _ ?_
    rw [Mem.wf_iff] at h ⊢
    exact ⟨h.1, Store.wf_set _ _ _ _ h.2⟩

theorem Mem.wf_clear (m : Mem) (a n : Nat) (h : m.wf = true) : (m.clear a n).wf = true := by
  rw [Mem.wf_iff] at h ⊢
  exact ⟨Store.wf_filter _ _ _ h.1, h.2⟩

theorem Mem.wf_put (m : Mem) (l : List (Nat × Byte)) (h : m.wf = true) : (m.put l).wf = true := by
  rw [Mem.put]
  induction l generalizing m with
  | nil => exact h
  | cons e t ih => exact ih _ (Mem.wf_setByte m e.1 e.2 h)

theorem Mem.wf_foldl {β : Type} (l : List β) (f : Mem → β → Mem) (hf : ∀ m b, m.wf = true → (f m b).wf = true) (m : Mem)
    (h : m.wf = true) : (l.foldl f m).wf = true := by
  induction l generalizing m with
  | nil => exact h
  | cons e t ih => exact ih _ (hf m e h)

theorem Mem.wf_copy (m : Mem) (src dst n : Nat) (h : m.wf = true) : (m.copy src dst n).wf = true :=
  Mem.wf_foldl _ _ (fun m _ h => Mem.wf_setPoison m _ h) _ (Mem.wf_put _ _ (Mem.wf_clear m dst n h))

end Sys2Proof.Machine
end

