-- ==== Sys2Proof/Laws/Ops.lean ====
section
/-! SUPPORT. What the shared operations over registers do: reading after writing, fields, counters, events and the error log. -/

namespace Sys2Proof.Machine

/-! ### Fields of a number -/

theorem setBits_eq (v lo w x : Nat) :
    setBits v lo w x = v % 2 ^ lo + (x % 2 ^ w) * 2 ^ lo + v / 2 ^ lo / 2 ^ w * 2 ^ w * 2 ^ lo := by
  have h1 : v = v % 2 ^ lo + v / 2 ^ lo * 2 ^ lo := by rw [Nat.mul_comm]; exact (Nat.mod_add_div v (2 ^ lo)).symm
  have h2 : v / 2 ^ lo = v / 2 ^ lo % 2 ^ w + v / 2 ^ lo / 2 ^ w * 2 ^ w := by
    rw [Nat.mul_comm (v / 2 ^ lo / 2 ^ w)]; exact (Nat.mod_add_div (v / 2 ^ lo) (2 ^ w)).symm
  have h3 : v / 2 ^ lo * 2 ^ lo = v / 2 ^ lo % 2 ^ w * 2 ^ lo + v / 2 ^ lo / 2 ^ w * 2 ^ w * 2 ^ lo := by
    rw [← Nat.add_mul, ← h2]
  unfold setBits
  omega

theorem setBits_field (v lo w x : Nat) : setBits v lo w x / 2 ^ lo % 2 ^ w = x % 2 ^ w := by
  rw [setBits_eq, show v % 2 ^ lo + x % 2 ^ w * 2 ^ lo + v / 2 ^ lo / 2 ^ w * 2 ^ w * 2 ^ lo =
      v % 2 ^ lo + 2 ^ lo * (x % 2 ^ w + 2 ^ w * (v / 2 ^ lo / 2 ^ w)) by ring,
    Nat.add_mul_div_left _ _ (Nat.two_pow_pos lo), Nat.div_eq_of_lt (Nat.mod_lt _ (Nat.two_pow_pos lo)), Nat.zero_add,
    Nat.add_mul_mod_self_left, Nat.mod_mod]

theorem setBits_above (v lo w x l : Nat) (h : lo + w ≤ l) : setBits v lo w x / 2 ^ l = v / 2 ^ l := by
  have e : ∀ n : Nat, n / 2 ^ l = n / 2 ^ lo / 2 ^ w / 2 ^ (l - lo - w) := by
    intro n; rw [Nat.div_div_eq_div_mul, Nat.div_div_eq_div_mul, ← pow_add, ← pow_add]; congr 2; omega
  have : setBits v lo w x / 2 ^ lo / 2 ^ w = v / 2 ^ lo / 2 ^ w := by
    rw [setBits_eq, show v % 2 ^ lo + x % 2 ^ w * 2 ^ lo + v / 2 ^ lo / 2 ^ w * 2 ^ w * 2 ^ lo =
        v % 2 ^ lo + 2 ^ lo * (x % 2 ^ w + 2 ^ w * (v / 2 ^ lo / 2 ^ w)) by ring,
      Nat.add_mul_div_left _ _ (Nat.two_pow_pos lo), Nat.div_eq_of_lt (Nat.mod_lt _ (Nat.two_pow_pos lo)), Nat.zero_add,
      Nat.add_mul_div_left _ _ (Nat.two_pow_pos w), Nat.div_eq_of_lt (Nat.mod_lt _ (Nat.two_pow_pos w)), Nat.zero_add]
  rw [e, e, this]

theorem setBits_below (v lo w x : Nat) : setBits v lo w x % 2 ^ lo = v % 2 ^ lo := by
  rw [setBits_eq, show v % 2 ^ lo + x % 2 ^ w * 2 ^ lo + v / 2 ^ lo / 2 ^ w * 2 ^ w * 2 ^ lo =
      v % 2 ^ lo + 2 ^ lo * (x % 2 ^ w + 2 ^ w * (v / 2 ^ lo / 2 ^ w)) by ring, Nat.add_mul_mod_self_left, Nat.mod_mod]

/-- A field below the one that changes. -/
theorem setBits_field_below (v lo w x l k : Nat) (h : l + k ≤ lo) :
    setBits v lo w x / 2 ^ l % 2 ^ k = v / 2 ^ l % 2 ^ k := by
  have e : ∀ n : Nat, n / 2 ^ l % 2 ^ k = n % 2 ^ lo / 2 ^ l % 2 ^ k := by
    intro n
    obtain ⟨d, rfl⟩ : ∃ d, lo = l + (k + d) := ⟨lo - l - k, by omega⟩
    rw [pow_add, Nat.mod_mul_right_div_self, pow_add, Nat.mod_mul_right_mod]
  rw [e, setBits_below, ← e]

theorem setBits_lt (v lo w x n : Nat) (h : lo + w ≤ n) (hv : v < 2 ^ n) : setBits v lo w x < 2 ^ n := by
  have := setBits_above v lo w x n h
  rw [Nat.div_eq_of_lt hv] at this
  exact (Nat.div_eq_zero_iff_lt (Nat.two_pow_pos n)).1 this

/-! ### Registers -/

theorem Core.rd_lt (c : Core) (a : Nat) : c.rd a < 2 ^ 64 := BitVec.isLt _

/-- A register reads as it does in a core with the same registers. -/
theorem Core.rd_congr {c d : Core} (h : c.regs = d.regs) (a : Nat) : c.rd a = d.rd a := by rw [Core.rd, Core.rd, h]

@[simp] theorem Core.rd_wr_self (c : Core) (a v : Nat) : (c.wr a v).rd a = v % 2 ^ 64 := by
  rw [Core.rd, Core.wr]; simp [BitVec.toNat_ofNat]

theorem Core.rd_wr_ne (c : Core) {a b : Nat} (v : Nat) (h : b ≠ a) : (c.wr a v).rd b = c.rd b := by
  rw [Core.rd, Core.wr, Core.rd]
  dsimp only
  by_cases e : rstWord b = rstWord a
  · rw [← e, Store.get_set_ne _ _ _ h]
  · -- the default of another register is only met where the register is not listed
    rw [Store.set]
    split
    · rw [Store.get_erase_ne _ _ h]
    · rw [Store.get_insert_ne _ _ _ h, Store.get_erase_ne _ _ h]

theorem Core.rd_setF_self (c : Core) (a lo w v : Nat) (h : lo + w ≤ 64) :
    (c.setF a lo w v).rd a = setBits (c.rd a) lo w v := by
  rw [Core.setF, Core.rd_wr_self, Nat.mod_eq_of_lt (setBits_lt _ _ _ _ _ h (c.rd_lt a))]

theorem Core.rd_setF_ne (c : Core) {a b : Nat} (lo w v : Nat) (h : b ≠ a) : (c.setF a lo w v).rd b = c.rd b :=
  Core.rd_wr_ne c _ h

/-- A field reads as it was last written. -/
theorem Core.getF_setF_self (c : Core) (a lo w v : Nat) (h : lo + w ≤ 64) : (c.setF a lo w v).getF a lo w = v % 2 ^ w := by
  rw [Core.getF, Core.rd_setF_self c a lo w v h, setBits_field]

theorem Core.getF_setF_ne (c : Core) {a b : Nat} (lo w v l k : Nat) (h : b ≠ a) :
    (c.setF a lo w v).getF b l k = c.getF b l k := by rw [Core.getF, Core.rd_setF_ne c lo w v h, Core.getF]

/-- A field of the same register that does not overlap the one written. -/
theorem Core.getF_setF_apart (c : Core) (a lo w v l k : Nat) (h : lo + w ≤ 64) (hd : l + k ≤ lo ∨ lo + w ≤ l) :
    (c.setF a lo w v).getF a l k = c.getF a l k := by
  rw [Core.getF, Core.rd_setF_self c a lo w v h, Core.getF]
  rcases hd with hd | hd
  · exact setBits_field_below _ _ _ _ _ _ hd
  · rw [setBits_above _ _ _ _ _ hd]

theorem Core.getF_congr {c d : Core} (h : c.regs = d.regs) (a lo w : Nat) : c.getF a lo w = d.getF a lo w := by
  rw [Core.getF, Core.rd_congr h, Core.getF]

theorem Core.getF_wr_ne (c : Core) {a b : Nat} (v l k : Nat) (h : b ≠ a) : (c.wr a v).getF b l k = c.getF b l k := by
  rw [Core.getF, Core.rd_wr_ne c v h, Core.getF]

/-! ### Counters, events and the error log -/

theorem Core.rd_bumpBy_ne (c : Core) {a b : Nat} (n : Nat) (h : b ≠ a) : (c.bumpBy a n).rd b = c.rd b := by
  rw [Core.bumpBy]; split
  · rfl
  · exact Core.rd_wr_ne c _ h

/-- A counter whose page is not frozen counts modulo 2^48. -/
theorem Core.rd_bumpBy_self (c : Core) (a n : Nat) (h : c.frozenAt a = false) :
    (c.bumpBy a n).rd a = (c.rd a + n) % 2 ^ 48 := by
  rw [Core.bumpBy, h]
  simp only [Bool.false_eq_true, if_false, Core.rd_wr_self]
  exact Nat.mod_eq_of_lt (Nat.lt_of_lt_of_le (Nat.mod_lt _ (by decide)) (by decide))

theorem Core.rd_bump_ne (c : Core) {a b : Nat} (h : b ≠ a) : (c.bump a).rd b = c.rd b := Core.rd_bumpBy_ne c 1 h

theorem Core.rd_bump_self (c : Core) (a : Nat) (h : c.frozenAt a = false) : (c.bump a).rd a = (c.rd a + 1) % 2 ^ 48 :=
  Core.rd_bumpBy_self c a 1 h

theorem Core.setPend_regs (c : Core) (p m : Nat) : (c.setPend p m).regs = (c.wr (p + 0x38) (c.rd (p + 0x38) ||| m)).regs := by
  unfold Core.setPend; dsimp only; split <;> rfl

theorem Core.rd_setPend_ne (c : Core) {p b : Nat} (m : Nat) (h : b ≠ p + 0x38) : (c.setPend p m).rd b = c.rd b := by
  rw [Core.rd_congr (Core.setPend_regs c p m), Core.rd_wr_ne c _ h]

theorem Core.rd_setPend_self (c : Core) (p m : Nat) : (c.setPend p m).rd (p + 0x38) = (c.rd (p + 0x38) ||| m) % 2 ^ 64 := by
  rw [Core.rd_congr (Core.setPend_regs c p m), Core.rd_wr_self]

theorem Core.rd_event_ne (c : Core) {p b : Nat} (k : Nat) (h : b ≠ p + 0x38) : (c.event p k).rd b = c.rd b :=
  Core.rd_setPend_ne c _ h

theorem Core.rd_event_self (c : Core) (p k : Nat) : (c.event p k).rd (p + 0x38) = (c.rd (p + 0x38) ||| 2 ^ k) % 2 ^ 64 :=
  Core.rd_setPend_self c p _

/-- An event sets its bit of PEND. -/
theorem Core.getB_event_self (c : Core) (p k : Nat) (h : k < 64) : (c.event p k).getB (p + 0x38) k = true := by
  have e : ∀ v : Nat, (v / 2 ^ k % 2 ^ 1 = 1) ↔ v.testBit k = true := by
    intro v; rw [Nat.testBit_eq_decide_div_mod_eq]; simp
  rw [Core.getB, Core.getF, Core.rd_event_self]
  simp only [decide_eq_true_eq]
  rw [e, Nat.testBit_mod_two_pow]
  simp [h, Nat.testBit_or, Nat.testBit_two_pow_self]

theorem Core.getF_event_ne (c : Core) {p b : Nat} (k l w : Nat) (h : b ≠ p + 0x38) :
    (c.event p k).getF b l w = c.getF b l w := by rw [Core.getF, Core.rd_event_ne c k h, Core.getF]

theorem Core.getF_bump_ne (c : Core) {a b : Nat} (l w : Nat) (h : b ≠ a) : (c.bump a).getF b l w = c.getF b l w := by
  rw [Core.getF, Core.rd_bump_ne c h, Core.getF]

theorem Core.getF_bumpBy_ne (c : Core) {a b : Nat} (n l w : Nat) (h : b ≠ a) : (c.bumpBy a n).getF b l w = c.getF b l w := by
  rw [Core.getF, Core.rd_bumpBy_ne c n h, Core.getF]

/-- The registers of a page that logging an error may change. -/
def LogTouches (p b : Nat) : Prop := b = p + 0x38 ∨ b = p + 0x48 ∨ b = p + 0x50 ∨ (p + 0xF00 ≤ b ∧ b < p + 0x1000)

@[simp] theorem Core.rd_mark (c : Core) (a m b : Nat) : (c.mark a m).rd b = c.rd b := rfl
@[simp] theorem Core.getF_mark (c : Core) (a m b l w : Nat) : (c.mark a m).getF b l w = c.getF b l w := rfl

theorem Core.rd_logLost_ne (c : Core) {p b : Nat} (cls : Nat) (h : ¬ LogTouches p b) : (c.logLost p cls).rd b = c.rd b := by
  have h1 : b ≠ p + 0x38 := fun e => h (.inl e)
  have h2 : b ≠ p + 0x50 := fun e => h (.inr (.inr (.inl e)))
  rw [Core.logLost, Core.rd_event_ne _ _ h1, Core.rd_mark, Core.rd_setF_ne _ _ _ _ h2]
  split
  · rfl
  · exact Core.rd_setF_ne _ _ _ _ h2

theorem Core.rd_logPut_ne (c : Core) {p b : Nat} (q cls code sub src d u hd tl : Nat) (h : ¬ LogTouches p b) :
    (c.logPut p q cls code sub src d u hd tl).rd b = c.rd b := by
  have h1 : b ≠ p + 0x38 := fun e => h (.inl e)
  have h2 : b ≠ p + 0x48 := fun e => h (.inr (.inl e))
  have h3 : ∀ k, k < 0x20 → b ≠ p + 0xF00 + 0x20 * (tl % 8) + k := fun k hk e => h (.inr (.inr (.inr (by omega))))
  rw [Core.logPut, Core.rd_event_ne _ _ h1, Core.rd_setF_ne _ _ _ _ h2, Core.rd_wr_ne _ _ (h3 24 (by omega)),
    Core.rd_wr_ne _ _ (h3 16 (by omega)), Core.rd_wr_ne _ _ (h3 8 (by omega)), Core.rd_wr_ne _ _ (by simpa using h3 0 (by omega))]

theorem Core.rd_logFill_ne (c : Core) {p b : Nat} (i w x : Nat) (h : ¬ LogTouches p b) : (c.logFill p i w x).rd b = c.rd b := by
  have h3 : ∀ k, k < 0x20 → b ≠ aLog p i + k := fun k hk e => h (.inr (.inr (.inr (by unfold aLog at e; omega))))
  rw [Core.logFill, Core.rd_wr_ne _ _ (h3 24 (by omega)), Core.rd_wr_ne _ _ (h3 16 (by omega))]

theorem Core.rd_logSink_ne (c : Core) {p b : Nat} (i n : Nat) (h : ¬ LogTouches p b) : (c.logSink p i n).rd b = c.rd b := by
  induction n generalizing c i with
  | zero => rfl
  | succ n ih =>
    rw [Core.logSink]
    split
    · rw [ih, Core.rd_logFill_ne _ _ _ _ h, Core.rd_logFill_ne _ _ _ _ h]
    · rfl

/-- Logging an error changes only the log registers of its page. -/
theorem Core.rd_logErr_ne (c : Core) {p b : Nat} (cls code sub src d : Nat) (h : ¬ LogTouches p b) :
    (c.logErr p cls code sub src d).rd b = c.rd b := by
  rw [Core.logErr]
  split
  · split
    · exact (Core.rd_logLost_ne _ _ h).trans ((Core.rd_logSink_ne _ _ _ h).trans (Core.rd_logFill_ne _ _ _ _ h))
    · exact Core.rd_logLost_ne _ _ h
  · exact (Core.rd_logSink_ne _ _ _ h).trans (Core.rd_logPut_ne _ _ _ _ _ _ _ _ _ _ h)

theorem Core.getF_logErr_ne (c : Core) {p b : Nat} (cls code sub src d l w : Nat) (h : ¬ LogTouches p b) :
    (c.logErr p cls code sub src d).getF b l w = c.getF b l w := by
  rw [Core.getF, Core.rd_logErr_ne c _ _ _ _ _ h, Core.getF]

/-! ### Regions -/

@[simp] theorem Core.rgn_setRgn_self (c : Core) (g : Nat) (r : Rgn) : (c.setRgn g r).rgn g = r := by
  simp [Core.rgn, Core.setRgn]

theorem Core.rgn_setRgn_ne (c : Core) {g h : Nat} (r : Rgn) (n : h ≠ g) : (c.setRgn g r).rgn h = c.rgn h :=
  Store.get_set_ne _ _ _ n

@[simp] theorem Core.rgn_modRgn_self (c : Core) (g : Nat) (f : Rgn → Rgn) : (c.modRgn g f).rgn g = f (c.rgn g) :=
  Core.rgn_setRgn_self ..

theorem Core.rgn_modRgn_ne (c : Core) {g h : Nat} (f : Rgn → Rgn) (n : h ≠ g) : (c.modRgn g f).rgn h = c.rgn h :=
  Core.rgn_setRgn_ne _ _ n

theorem Core.rgn_congr {c d : Core} (h : c.rgns = d.rgns) (g : Nat) : c.rgn g = d.rgn g := by rw [Core.rgn, Core.rgn, h]

end Sys2Proof.Machine
end

