-- ==== Sys2Proof/Laws/Compose.lean ====
section
/-! SUPPORT. What the composer's shared operations, the fate of iterations and the halt of a region can change: registers,
notices and the error log, regions, the composer, lanes, what has left the device and the counter of free values; nothing else. -/

namespace Sys2Proof.Machine

/-- `d` differs from `c` at most in registers and what the cycle has done to them, notices, the error log's SEQ, regions, the composer, lanes, output and the
counter of free values. -/
structure EgressOnly (c d : Core) : Prop where
  clk : d.clk = c.clk
  census : d.census = c.census
  latched : d.latched = c.latched
  noticeAt : d.noticeAt = c.noticeAt
  sep : d.sep = c.sep
  ford : d.ford = c.ford
  fab : d.fab = c.fab
  key : d.key = c.key
  task : d.task = c.task
  cap : d.cap = c.cap
  kwn : d.kwn = c.kwn
  sec : d.sec = c.sec
  flt : d.flt = c.flt
  pwr : d.pwr = c.pwr
  pins : d.pins = c.pins
  swapArmed : d.swapArmed = c.swapArmed
  censusArmed : d.censusArmed = c.censusArmed
  saving : d.saving = c.saving
  progs : d.progs = c.progs
  tmpls : d.tmpls = c.tmpls

theorem EgressOnly.refl (c : Core) : EgressOnly c c :=
  ⟨rfl, rfl, rfl, rfl, rfl, rfl, rfl, rfl, rfl, rfl, rfl, rfl, rfl, rfl, rfl, rfl, rfl, rfl, rfl, rfl⟩

theorem EgressOnly.trans {c d e : Core} (h : EgressOnly c d) (k : EgressOnly d e) : EgressOnly c e :=
  ⟨k.clk.trans h.clk, k.census.trans h.census, k.latched.trans h.latched, k.noticeAt.trans h.noticeAt, k.sep.trans h.sep, k.ford.trans h.ford, k.fab.trans h.fab, k.key.trans h.key, k.task.trans h.task, k.cap.trans h.cap, k.kwn.trans h.kwn, k.sec.trans h.sec, k.flt.trans h.flt, k.pwr.trans h.pwr, k.pins.trans h.pins, k.swapArmed.trans h.swapArmed, k.censusArmed.trans h.censusArmed, k.saving.trans h.saving, k.progs.trans h.progs, k.tmpls.trans h.tmpls⟩

theorem EgressOnly.foldl {α : Type} (f : Core → α → Core) (h : ∀ c x, EgressOnly c (f c x)) (l : List α) (c : Core) :
    EgressOnly c (l.foldl f c) := by
  induction l generalizing c with
  | nil => exact .refl c
  | cons x l ih => exact (h c x).trans (ih _)

theorem EgressOnly.ite {c d e : Core} {p : Prop} [Decidable p] (h : EgressOnly c d) (k : EgressOnly c e) :
    EgressOnly c (if p then d else e) := by split <;> assumption

/-! ### Primitives -/

theorem EgressOnly.wr (c : Core) (a v : Nat) : EgressOnly c (c.wr a v) :=
  ⟨rfl, rfl, rfl, rfl, rfl, rfl, rfl, rfl, rfl, rfl, rfl, rfl, rfl, rfl, rfl, rfl, rfl, rfl, rfl, rfl⟩

theorem EgressOnly.mark (c : Core) (a v : Nat) : EgressOnly c (c.mark a v) :=
  ⟨rfl, rfl, rfl, rfl, rfl, rfl, rfl, rfl, rfl, rfl, rfl, rfl, rfl, rfl, rfl, rfl, rfl, rfl, rfl, rfl⟩

theorem EgressOnly.rcMax (c : Core) (a v : Nat) : EgressOnly c (c.rcMax a v) :=
  ⟨rfl, rfl, rfl, rfl, rfl, rfl, rfl, rfl, rfl, rfl, rfl, rfl, rfl, rfl, rfl, rfl, rfl, rfl, rfl, rfl⟩

theorem EgressOnly.setF (c : Core) (a lo w v : Nat) : EgressOnly c (c.setF a lo w v) :=
  ⟨rfl, rfl, rfl, rfl, rfl, rfl, rfl, rfl, rfl, rfl, rfl, rfl, rfl, rfl, rfl, rfl, rfl, rfl, rfl, rfl⟩

theorem EgressOnly.bumpBy (c : Core) (a n : Nat) : EgressOnly c (c.bumpBy a n) :=
  ⟨c.bumpBy_clk a n, c.bumpBy_census a n, c.bumpBy_latched a n, c.bumpBy_noticeAt a n, c.bumpBy_sep a n, c.bumpBy_ford a n, c.bumpBy_fab a n, c.bumpBy_key a n, c.bumpBy_task a n, c.bumpBy_cap a n, c.bumpBy_kwn a n, c.bumpBy_sec a n, c.bumpBy_flt a n, c.bumpBy_pwr a n, c.bumpBy_pins a n, c.bumpBy_swapArmed a n, c.bumpBy_censusArmed a n, c.bumpBy_saving a n, c.bumpBy_progs a n, c.bumpBy_tmpls a n⟩

theorem EgressOnly.bump (c : Core) (a : Nat) : EgressOnly c (c.bump a) :=
  ⟨c.bump_clk a, c.bump_census a, c.bump_latched a, c.bump_noticeAt a, c.bump_sep a, c.bump_ford a, c.bump_fab a, c.bump_key a, c.bump_task a, c.bump_cap a, c.bump_kwn a, c.bump_sec a, c.bump_flt a, c.bump_pwr a, c.bump_pins a, c.bump_swapArmed a, c.bump_censusArmed a, c.bump_saving a, c.bump_progs a, c.bump_tmpls a⟩

theorem EgressOnly.event (c : Core) (p k : Nat) : EgressOnly c (c.event p k) :=
  ⟨c.event_clk p k, c.event_census p k, c.event_latched p k, c.event_noticeAt p k, c.event_sep p k, c.event_ford p k, c.event_fab p k, c.event_key p k, c.event_task p k, c.event_cap p k, c.event_kwn p k, c.event_sec p k, c.event_flt p k, c.event_pwr p k, c.event_pins p k, c.event_swapArmed p k, c.event_censusArmed p k, c.event_saving p k, c.event_progs p k, c.event_tmpls p k⟩

theorem EgressOnly.logErr (c : Core) (p cls code sub src x : Nat) : EgressOnly c (c.logErr p cls code sub src x) :=
  ⟨c.logErr_clk p cls code sub src x, c.logErr_census p cls code sub src x, c.logErr_latched p cls code sub src x, c.logErr_noticeAt p cls code sub src x, c.logErr_sep p cls code sub src x, c.logErr_ford p cls code sub src x, c.logErr_fab p cls code sub src x, c.logErr_key p cls code sub src x, c.logErr_task p cls code sub src x, c.logErr_cap p cls code sub src x, c.logErr_kwn p cls code sub src x, c.logErr_sec p cls code sub src x, c.logErr_flt p cls code sub src x, c.logErr_pwr p cls code sub src x, c.logErr_pins p cls code sub src x, c.logErr_swapArmed p cls code sub src x, c.logErr_censusArmed p cls code sub src x, c.logErr_saving p cls code sub src x, c.logErr_progs p cls code sub src x, c.logErr_tmpls p cls code sub src x⟩

theorem EgressOnly.modRgn (c : Core) (g : Nat) (f : Rgn → Rgn) : EgressOnly c (c.modRgn g f) :=
  ⟨rfl, rfl, rfl, rfl, rfl, rfl, rfl, rfl, rfl, rfl, rfl, rfl, rfl, rfl, rfl, rfl, rfl, rfl, rfl, rfl⟩

theorem EgressOnly.setRgn (c : Core) (g : Nat) (r : Rgn) : EgressOnly c (c.setRgn g r) :=
  ⟨rfl, rfl, rfl, rfl, rfl, rfl, rfl, rfl, rfl, rfl, rfl, rfl, rfl, rfl, rfl, rfl, rfl, rfl, rfl, rfl⟩

theorem EgressOnly.setComp (c : Core) (x : Comp) : EgressOnly c ({ c with comp := x }) :=
  ⟨rfl, rfl, rfl, rfl, rfl, rfl, rfl, rfl, rfl, rfl, rfl, rfl, rfl, rfl, rfl, rfl, rfl, rfl, rfl, rfl⟩

theorem EgressOnly.setLanes (c : Core) (x : Store Lane) : EgressOnly c ({ c with lanes := x }) :=
  ⟨rfl, rfl, rfl, rfl, rfl, rfl, rfl, rfl, rfl, rfl, rfl, rfl, rfl, rfl, rfl, rfl, rfl, rfl, rfl, rfl⟩

theorem EgressOnly.emit (c : Core) (x : Out) : EgressOnly c (c.emit x) :=
  ⟨rfl, rfl, rfl, rfl, rfl, rfl, rfl, rfl, rfl, rfl, rfl, rfl, rfl, rfl, rfl, rfl, rfl, rfl, rfl, rfl⟩

theorem EgressOnly.fresh (c : Core) : EgressOnly c (c.fresh.2) :=
  ⟨rfl, rfl, rfl, rfl, rfl, rfl, rfl, rfl, rfl, rfl, rfl, rfl, rfl, rfl, rfl, rfl, rfl, rfl, rfl, rfl⟩

/-! ### Ending frames -/

theorem EgressOnly.flushTx (c : Core) (lp t : Nat) : EgressOnly c (c.flushTx lp t) := by
  unfold Core.flushTx
  split
  · exact .refl c
  · exact .ite ((EgressOnly.emit c _).trans (.setComp _ _)) (.refl c)

theorem EgressOnly.stompTx (c : Core) (lp t : Nat) (p : TxFrame → Bool) : EgressOnly c (c.stompTx lp t p) := by
  unfold Core.stompTx
  dsimp only
  refine (EgressOnly.flushTx c lp t).trans ?_
  split
  · exact .refl _
  · split
    · exact .refl _
    · exact (EgressOnly.bump _ _).trans (((EgressOnly.setComp _ _).trans (.emit _ _)).trans (.setComp _ _))

theorem EgressOnly.stompAll (c : Core) (t : Nat) (p : TxFrame → Bool) : EgressOnly c (c.stompAll t p) :=
  .foldl _ (fun c lp => .stompTx c lp t p) _ c

theorem EgressOnly.unqueue (c : Core) (p : TxFrame → Bool) : EgressOnly c (c.unqueue p) :=
  .foldl _ (fun c _ => .setComp c _) _ c

theorem EgressOnly.closeGate (c : Core) : EgressOnly c c.closeGate := .stompAll c _ _

theorem EgressOnly.closeEgress (c : Core) (g : Nat) : EgressOnly c (c.closeEgress g) :=
  ((EgressOnly.modRgn c g _).trans (.stompAll _ _ _)).trans (.unqueue _ _)

/-! ### Checks and fates -/

theorem EgressOnly.checked (c : Core) (r : Result) (f n : Nat) : EgressOnly c (c.checked r f n) := .setComp c _

theorem EgressOnly.noFrame (c : Core) (r : Result) : EgressOnly c (c.noFrame r) :=
  (EgressOnly.fresh c).trans (.checked _ _ _ _)

theorem EgressOnly.capTake (c : Core) (t n : Nat) : EgressOnly c (c.capTake t n).2 := by
  unfold Core.capTake
  dsimp only
  split
  · exact .refl c
  · exact .setComp c _

theorem EgressOnly.runChecks (c : Core) (base : Nat) (r : Result) : EgressOnly c (c.runChecks base r) := by
  unfold Core.runChecks
  split
  · exact .noFrame c r
  · dsimp only
    refine .ite (.checked ..) (.ite ((EgressOnly.bump ..).trans (.checked ..)) (.ite (.checked ..)
      (.ite ((EgressOnly.bump ..).trans (.checked ..)) (.ite ((EgressOnly.bump ..).trans (.checked ..)) ?_))))
    have h := EgressOnly.capTake c
    exact .ite (((h _ _).trans (.bump ..)).trans (.checked ..)) (.ite (((h _ _).trans (.bump ..)).trans (.checked ..))
      (((h _ _).trans (.setComp _ _)).trans (.checked ..)))

theorem EgressOnly.squashResults (c : Core) (t g : Nat) (tag : Tag) (set : Bool) :
    EgressOnly c (c.squashResults t g tag set) := by
  unfold Core.squashResults
  dsimp only
  exact ((((EgressOnly.stompAll c _ _).trans (.foldl _ (fun c _ => .bump c _) _ _)).trans (.unqueue _ _)).trans
    (.setLanes _ _)).trans (.setComp _ _)

theorem EgressOnly.checkHeld (c : Core) (g : Nat) (tag : Tag) (set : Bool) : EgressOnly c (c.checkHeld g tag set) :=
  .foldl _ (fun c r => .runChecks c _ r) _ c

theorem EgressOnly.checkDue (c : Core) : EgressOnly c c.checkDue := .foldl _ (fun c r => .runChecks c _ r) _ c

theorem EgressOnly.setFate (c : Core) (g : Nat) (i : Iter) (f : Fate) : EgressOnly c (c.setFate g i f) := by
  unfold Core.setFate
  dsimp only
  exact (EgressOnly.modRgn c g _).trans
    (.ite (((EgressOnly.bump ..).trans (.squashResults ..)).trans (.checkHeld ..)) (.checkHeld ..))

theorem EgressOnly.settleIter (c : Core) (g : Nat) (i : Iter) : EgressOnly c (c.settleIter g i) := by
  unfold Core.settleIter
  dsimp only
  exact .ite (.refl c) (.ite (.setFate ..) (.ite (.setFate ..) (.refl c)))

theorem EgressOnly.settleRgn (c : Core) (g : Nat) : EgressOnly c (c.settleRgn g) :=
  .foldl _ (fun c i => .settleIter c g i) _ c

theorem EgressOnly.settle (c : Core) : EgressOnly c c.settle := .foldl _ (fun c g => .settleRgn c g) _ c

/-! ### Halting a region -/

theorem EgressOnly.faultRecord (c : Core) (m cell port : Nat) (tag : Tag) (set : Bool) (kind cls code : Nat) :
    EgressOnly c (c.faultRecord m cell port tag set kind cls code) := ((EgressOnly.wr ..).trans (.mark ..)).trans (.logErr ..)

theorem EgressOnly.haltRgn (c : Core) (g m cell port : Nat) (tag : Tag) (set : Bool) (kind : Nat) :
    EgressOnly c (c.haltRgn g m cell port tag set kind) := by
  unfold Core.haltRgn
  dsimp only
  have h := fun r => ((EgressOnly.setRgn c g r).trans (.closeEgress _ g)).trans (.faultRecord _ m cell port tag set kind clsG 0x04)
  exact .ite (.refl c) (.ite (h _) ((h _).trans (.event ..)))

theorem EgressOnly.schedFault (c : Core) (cell port : Nat) (tag : Tag) (set : Bool) (kind : Nat) :
    EgressOnly c (c.schedFault cell port tag set kind) := .haltRgn ..

/-! ### What the regions keep -/

/-- A region but for the fates of its iterations, their undoing and the closing of its egress. -/
def Rgn.butFates (r : Rgn) : Rgn :=
  { r with iters := r.iters.map fun i => { i with fate := .pending, undone := false }, egressClosed := false }

theorem Rgn.butFates_undone (r : Rgn) (d : Nat × Nat) :
    ({ r with iters := r.iters.map fun (i : Iter) => if i.deps.contains d then { i with undone := true } else i } : Rgn).butFates =
      r.butFates := by
  have h : (r.iters.map fun (i : Iter) => if i.deps.contains d then { i with undone := true } else i).map
      (fun i => { i with fate := .pending, undone := false }) =
      r.iters.map fun (i : Iter) => { i with fate := .pending, undone := false } := by
    rw [List.map_map]
    refine List.map_congr_left fun i _ => ?_
    dsimp only [Function.comp]
    split <;> rfl
  unfold Rgn.butFates
  dsimp only
  rw [h]

/-- `d`'s regions differ from `c`'s at most in fates and closed egress. -/
def FatesOnly (c d : Core) : Prop := ∀ g, (d.rgn g).butFates = (c.rgn g).butFates

theorem FatesOnly.refl (c : Core) : FatesOnly c c := fun _ => rfl
theorem FatesOnly.trans {c d e : Core} (h : FatesOnly c d) (k : FatesOnly d e) : FatesOnly c e := fun g => (k g).trans (h g)
theorem FatesOnly.of_rgns {c d : Core} (h : d.rgns = c.rgns) : FatesOnly c d := fun g => by rw [Core.rgn_congr h]

theorem FatesOnly.foldl {α : Type} (f : Core → α → Core) (h : ∀ c x, FatesOnly c (f c x)) (l : List α) (c : Core) :
    FatesOnly c (l.foldl f c) := by
  induction l generalizing c with
  | nil => exact .refl c
  | cons x l ih => exact (h c x).trans (ih _)

theorem FatesOnly.ite {c d e : Core} {p : Prop} [Decidable p] (h : FatesOnly c d) (k : FatesOnly c e) :
    FatesOnly c (if p then d else e) := by split <;> assumption

theorem Core.rgns_foldl {α : Type} (f : Core → α → Core) (h : ∀ c x, (f c x).rgns = c.rgns) (l : List α) (c : Core) :
    (l.foldl f c).rgns = c.rgns := by
  induction l generalizing c with
  | nil => rfl
  | cons x l ih => exact (ih _).trans (h c x)

theorem Core.rgns_ite {c d e : Core} {p : Prop} [Decidable p] (h : d.rgns = c.rgns) (k : e.rgns = c.rgns) :
    (if p then d else e).rgns = c.rgns := by split <;> assumption

theorem Core.flushTx_rgns (c : Core) (lp t : Nat) : (c.flushTx lp t).rgns = c.rgns := by
  unfold Core.flushTx
  split
  · rfl
  · exact Core.rgns_ite rfl rfl

theorem Core.stompTx_rgns (c : Core) (lp t : Nat) (p : TxFrame → Bool) : (c.stompTx lp t p).rgns = c.rgns := by
  unfold Core.stompTx
  dsimp only
  split
  · exact Core.flushTx_rgns c lp t
  · split
    · exact Core.flushTx_rgns c lp t
    · exact (Core.bump_rgns _ _).trans (Core.flushTx_rgns c lp t)

theorem Core.stompAll_rgns (c : Core) (t : Nat) (p : TxFrame → Bool) : (c.stompAll t p).rgns = c.rgns :=
  Core.rgns_foldl _ (fun c lp => Core.stompTx_rgns c lp t p) _ c

theorem Core.unqueue_rgns (c : Core) (p : TxFrame → Bool) : (c.unqueue p).rgns = c.rgns := by
  unfold Core.unqueue
  exact Core.rgns_foldl (fun c lp => c.setQueue lp ((c.queue lp).filter fun f => !p f)) (fun _ _ => rfl) _ c

theorem Core.capTake_rgns (c : Core) (t n : Nat) : (c.capTake t n).2.rgns = c.rgns := by
  unfold Core.capTake
  dsimp only
  split <;> rfl

theorem Core.runChecks_rgns (c : Core) (base : Nat) (r : Result) : (c.runChecks base r).rgns = c.rgns := by
  unfold Core.runChecks
  split
  · rfl
  · dsimp only
    have b : ∀ (c : Core) a (r : Result) f n, ((c.bump a).checked r f n).rgns = c.rgns := fun c a _ _ _ => Core.bump_rgns c a
    have q : ∀ (c : Core) (r : Result) f n, (c.checked r f n).rgns = c.rgns := fun _ _ _ _ => rfl
    split
    · exact q _ _ _ _
    split
    · exact b _ _ _ _ _
    split
    · exact q _ _ _ _
    split
    · exact b _ _ _ _ _
    split
    · exact b _ _ _ _ _
    split
    · rw [b, Core.capTake_rgns]
    split
    · rw [b, Core.capTake_rgns]
    · rw [q, Core.setQueue_rgns, Core.capTake_rgns]

theorem Core.checkHeld_rgns (c : Core) (g : Nat) (tag : Tag) (set : Bool) : (c.checkHeld g tag set).rgns = c.rgns :=
  Core.rgns_foldl _ (fun c r => Core.runChecks_rgns c _ r) _ c

theorem Core.squashResults_rgns (c : Core) (t g : Nat) (tag : Tag) (set : Bool) :
    (c.squashResults t g tag set).rgns = c.rgns := by
  unfold Core.squashResults
  dsimp only
  rw [Core.modResults_rgns]
  dsimp only
  rw [Core.unqueue_rgns]
  exact ((Core.rgns_foldl (fun c (f : TxFrame) => c.bump (aTmpl f.t kSquashed))
    (fun c _ => Core.bump_rgns c _) _ _).trans (Core.stompAll_rgns c _ _))

theorem Rgn.butFates_modIter (r : Rgn) (tag : Tag) (set : Bool) (f : Fate) :
    (r.modIter tag set fun i => { i with fate := f }).butFates = r.butFates := by
  unfold Rgn.modIter Rgn.butFates
  simp only [List.map_map]
  congr 1
  apply List.map_congr_left
  intro i _
  simp only [Function.comp]
  split <;> rfl

theorem FatesOnly.modRgn (c : Core) (g : Nat) (f : Rgn → Rgn) (h : ∀ r, (f r).butFates = r.butFates) :
    FatesOnly c (c.modRgn g f) := by
  intro k
  by_cases e : k = g
  · subst e; rw [Core.rgn_modRgn_self, h]
  · rw [Core.rgn_modRgn_ne _ _ e]

theorem FatesOnly.setFate (c : Core) (g : Nat) (i : Iter) (f : Fate) : FatesOnly c (c.setFate g i f) := by
  unfold Core.setFate
  dsimp only
  refine (FatesOnly.modRgn c g (fun r => r.modIter i.tag i.set fun i => { i with fate := f })
    (fun r => Rgn.butFates_modIter r _ _ f)).trans (.of_rgns ?_)
  exact Core.rgns_ite ((Core.checkHeld_rgns ..).trans ((Core.squashResults_rgns ..).trans (Core.bump_rgns ..)))
    (Core.checkHeld_rgns ..)

theorem FatesOnly.settleIter (c : Core) (g : Nat) (i : Iter) : FatesOnly c (c.settleIter g i) := by
  unfold Core.settleIter
  dsimp only
  exact .ite (.refl c) (.ite (FatesOnly.setFate c g i _) (.ite (FatesOnly.setFate c g i _) (.refl c)))

/-- Settling a region gives fates to iterations and changes no region otherwise. -/
theorem FatesOnly.settleRgn (c : Core) (g : Nat) : FatesOnly c (c.settleRgn g) :=
  .foldl _ (fun c i => FatesOnly.settleIter c g i) _ c

theorem FatesOnly.settle (c : Core) : FatesOnly c c.settle := .foldl _ (fun c g => FatesOnly.settleRgn c g) _ c

theorem FatesOnly.closeEgress (c : Core) (g : Nat) : FatesOnly c (c.closeEgress g) :=
  (FatesOnly.modRgn c g (fun r => { r with egressClosed := true }) (fun _ => rfl)).trans
    (.of_rgns ((Core.unqueue_rgns ..).trans (Core.stompAll_rgns ..)))

theorem Core.faultRecord_rgns (c : Core) (m cell port : Nat) (tag : Tag) (set : Bool) (kind cls code : Nat) :
    (c.faultRecord m cell port tag set kind cls code).rgns = c.rgns := by
  rw [Core.faultRecord, Core.logErr_rgns, Core.mark_rgns, Core.wr_rgns]

/-- A halt takes a region in any other state to HALTED and keeps its fault kind (R70, R93). -/
theorem Core.haltRgn_phase (c : Core) (g m cell port : Nat) (tag : Tag) (set : Bool) (kind : Nat)
    (h : (c.rgn g).phase ≠ .halted) :
    ((c.haltRgn g m cell port tag set kind).rgn g).phase = .halted ∧
    ((c.haltRgn g m cell port tag set kind).rgn g).faultKind = kind % 16 := by
  have key : ∀ (d : Core) (r : Rgn), r.phase = .halted → r.faultKind = kind % 16 →
      d.rgns = ((c.setRgn g r).closeEgress g).rgns → (d.rgn g).phase = .halted ∧ (d.rgn g).faultKind = kind % 16 := by
    intro d r h1 h2 hd
    have e := FatesOnly.closeEgress (c.setRgn g r) g g
    rw [Core.rgn_setRgn_self, ← Core.rgn_congr hd] at e
    exact ⟨(congrArg Rgn.phase e).trans h1, (congrArg Rgn.faultKind e).trans h2⟩
  unfold Core.haltRgn
  simp only [h, if_false]
  split
  · exact key _ _ rfl rfl (Core.faultRecord_rgns ..)
  · exact key _ _ rfl rfl ((Core.event_rgns _ _ _).trans (Core.faultRecord_rgns ..))

/-! ### Registers outside the counters of regions and templates -/

/-- No register below the counters of regions and templates changes. -/
structure RdBelow (c d : Core) : Prop where
  rd : ∀ b, b < 0x20000000 → d.rd b = c.rd b

theorem RdBelow.refl (c : Core) : RdBelow c c := ⟨fun _ _ => rfl⟩
theorem RdBelow.trans {c d e : Core} (h : RdBelow c d) (k : RdBelow d e) : RdBelow c e :=
  ⟨fun b hb => (k.rd b hb).trans (h.rd b hb)⟩
theorem RdBelow.of_regs {c d : Core} (h : d.regs = c.regs) : RdBelow c d :=
  ⟨fun b _ => Core.rd_congr h b⟩

theorem RdBelow.foldl {α : Type} (f : Core → α → Core) (h : ∀ c x, RdBelow c (f c x)) (l : List α) (c : Core) :
    RdBelow c (l.foldl f c) := by
  induction l generalizing c with
  | nil => exact .refl c
  | cons x l ih => exact (h c x).trans (ih _)

theorem RdBelow.ite {c d e : Core} {p : Prop} [Decidable p] (h : RdBelow c d) (k : RdBelow c e) :
    RdBelow c (if p then d else e) := by split <;> assumption

theorem RdBelow.tmpl (c : Core) (t k : Nat) : RdBelow c (c.bump (aTmpl t k)) :=
  ⟨fun b hb => Core.rd_bump_ne c (by unfold aTmpl; omega)⟩

theorem RdBelow.rgn (c : Core) (g k : Nat) : RdBelow c (c.bump (pRgn g + k)) :=
  ⟨fun b hb => Core.rd_bump_ne c (by unfold pRgn; omega)⟩

theorem RdBelow.flushTx (c : Core) (lp t : Nat) : RdBelow c (c.flushTx lp t) := by
  unfold Core.flushTx
  split
  · exact .refl c
  · exact .ite (.of_regs rfl) (.refl c)

theorem RdBelow.stompTx (c : Core) (lp t : Nat) (p : TxFrame → Bool) : RdBelow c (c.stompTx lp t p) := by
  unfold Core.stompTx
  dsimp only
  refine (RdBelow.flushTx c lp t).trans ?_
  split
  · exact .refl _
  · split
    · exact .refl _
    · exact (RdBelow.tmpl _ _ _).trans (.of_regs rfl)

theorem RdBelow.stompAll (c : Core) (t : Nat) (p : TxFrame → Bool) : RdBelow c (c.stompAll t p) :=
  .foldl (fun c lp => c.stompTx lp t p) (fun c lp => .stompTx c lp t p) _ c

theorem RdBelow.unqueue (c : Core) (p : TxFrame → Bool) : RdBelow c (c.unqueue p) :=
  .foldl (fun c lp => c.setQueue lp ((c.queue lp).filter fun f => !p f)) (fun _ _ => .of_regs rfl) _ c

theorem RdBelow.closeGate (c : Core) : RdBelow c c.closeGate := .stompAll c _ _

theorem RdBelow.capTake (c : Core) (t n : Nat) : RdBelow c (c.capTake t n).2 := by
  unfold Core.capTake
  dsimp only
  split
  · exact .refl c
  · exact .of_regs rfl

theorem RdBelow.checked (c : Core) (r : Result) (f n : Nat) : RdBelow c (c.checked r f n) := .of_regs rfl

theorem RdBelow.runChecks (c : Core) (base : Nat) (r : Result) : RdBelow c (c.runChecks base r) := by
  unfold Core.runChecks
  split
  · exact .of_regs rfl
  · extract_lets first k f
    have h := RdBelow.capTake c
    split
    · exact .checked ..
    split
    · exact (RdBelow.tmpl ..).trans (.checked ..)
    split
    · exact .checked ..
    split
    · exact (RdBelow.tmpl ..).trans (.checked ..)
    split
    · exact (RdBelow.tmpl ..).trans (.checked ..)
    split
    · exact ((h _ _).trans (.tmpl ..)).trans (.checked ..)
    split
    · exact ((h _ _).trans (.tmpl ..)).trans (.checked ..)
    · exact ((h _ _).trans (RdBelow.of_regs (Core.setQueue_regs _ _ _))).trans (.checked ..)

theorem RdBelow.squashResults (c : Core) (t g : Nat) (tag : Tag) (set : Bool) : RdBelow c (c.squashResults t g tag set) := by
  unfold Core.squashResults
  extract_lets mine c1 w c2 c3 c4
  have h1 : RdBelow c c1 := .stompAll c _ _
  have h2 : RdBelow c1 c2 := .foldl (fun c (f : TxFrame) => c.bump (aTmpl f.t kSquashed)) (fun c _ => .tmpl c _ _) _ _
  have h3 : RdBelow c2 c3 := .unqueue _ _
  have h4 : c4.regs = c3.regs := by dsimp only [c4]
  refine ((h1.trans h2).trans h3).trans (.of_regs ?_)
  rw [Core.modResults_regs, h4]

theorem RdBelow.checkHeld (c : Core) (g : Nat) (tag : Tag) (set : Bool) : RdBelow c (c.checkHeld g tag set) := by
  unfold Core.checkHeld
  extract_lets l base
  exact .foldl (fun c r => c.runChecks base r) (fun c r => .runChecks c _ r) _ c

theorem RdBelow.setFate (c : Core) (g : Nat) (i : Iter) (f : Fate) : RdBelow c (c.setFate g i f) := by
  unfold Core.setFate
  extract_lets c1
  have h : RdBelow c c1 := .of_regs (Core.modRgn_regs _ _ _)
  exact h.trans (.ite (((RdBelow.rgn ..).trans (.squashResults ..)).trans (.checkHeld ..)) (.checkHeld ..))

theorem RdBelow.settleIter (c : Core) (g : Nat) (i : Iter) : RdBelow c (c.settleIter g i) := by
  unfold Core.settleIter
  extract_lets v
  exact .ite (.refl c) (.ite (.setFate ..) (.ite (.setFate ..) (.refl c)))

/-- Settling a region touches no register but counters of regions and templates. -/
theorem RdBelow.settleRgn (c : Core) (g : Nat) : RdBelow c (c.settleRgn g) :=
  .foldl (fun c i => c.settleIter g i) (fun c i => .settleIter c g i) _ c

theorem RdBelow.settle (c : Core) : RdBelow c c.settle :=
  .foldl (fun c g => c.settleRgn g) (fun c g => .settleRgn c g) _ c

theorem RdBelow.closeEgress (c : Core) (g : Nat) : RdBelow c (c.closeEgress g) := by
  unfold Core.closeEgress
  exact ((RdBelow.of_regs (Core.modRgn_regs _ _ _)).trans (.stompAll ..)).trans (.unqueue ..)

end Sys2Proof.Machine
end

