-- ==== Sys2Proof/Laws/Fabric.lean ====
section
/-! SUPPORT. What a firing does: the routes its outputs take, the latches it empties, and what the work in between keeps. -/

namespace Sys2Proof.Machine

/-! ### What decides a route -/

/-- The parts of the core that decide which region and schedule a cell's firing follows, and which track slots it may take. -/
def SameRoute (c d : Core) (cell : Nat) : Prop :=
  d.rgns = c.rgns ∧ d.cellRgn cell = c.cellRgn cell ∧ d.fab.owners = c.fab.owners

theorem Core.ownsRoute_congr {c d : Core} (h : d.fab.owners = c.fab.owners) (g : Nat) (r : Route) :
    d.ownsRoute g r = c.ownsRoute g r := by rw [Core.ownsRoute, Core.ownsRoute, h]

theorem Core.debugOn_congr {c d : Core} (h : d.rgns = c.rgns) (g : Nat) (set : Bool) : d.debugOn g set = c.debugOn g set := by
  rw [Core.debugOn, Core.debugOn, Core.binOf, Core.binOf, Core.rgn_congr h]

theorem Core.cellRgn_congr {c d : Core} {cell : Nat} (hr : d.rgnField (cellMeadow cell) = c.rgnField (cellMeadow cell))
    (ht : d.task = c.task) : d.cellRgn cell = c.cellRgn cell := by
  rw [Core.cellRgn, Core.cellRgn, Core.rgnOf, Core.rgnOf, hr, ht]

/-- The outputs of a firing take the same routes in a core that agrees on what decides them. -/
theorem Core.place_fly_congr {c d : Core} {cell : Nat} (h : SameRoute c d cell) (hf : d.fab.fly = c.fab.fly) (x : Ctx) (lat : Nat)
    (t : Token) (outs : List (Nat × Nat)) : (d.place cell x lat t outs).fab.fly = (c.place cell x lat t outs).fab.fly := by
  simp only [Core.place, h.2.1, Core.rgn_congr h.1, Core.debugOn_congr h.1, Core.ownsRoute_congr h.2.2, hf]

@[simp] theorem Core.place_held (c : Core) (cell : Nat) (x : Ctx) (lat : Nat) (t : Token) (outs : List (Nat × Nat)) :
    (c.place cell x lat t outs).fab.held = c.fab.held := rfl

@[simp] theorem Core.place_fired (c : Core) (cell : Nat) (x : Ctx) (lat : Nat) (t : Token) (outs : List (Nat × Nat)) :
    (c.place cell x lat t outs).fab.fired = c.fab.fired := rfl

@[simp] theorem Core.place_phases (c : Core) (cell : Nat) (x : Ctx) (lat : Nat) (t : Token) (outs : List (Nat × Nat)) :
    (c.place cell x lat t outs).fab.phases = c.fab.phases := rfl

@[simp] theorem Core.place_gens (c : Core) (cell : Nat) (x : Ctx) (lat : Nat) (t : Token) (outs : List (Nat × Nat)) :
    (c.place cell x lat t outs).fab.gens = c.fab.gens := rfl

/-! ### Latches -/

theorem Core.heldAt_eq (c : Core) (cell port : Nat) : c.heldAt cell port = Store.get c.fab.held [] (cell * 4 + port) := rfl

@[simp] theorem Core.setHeld_get (c : Core) (cell port k : Nat) (l : List Held) :
    Store.get (c.setHeld cell port l).fab.held [] k = if k = cell * 4 + port then l else Store.get c.fab.held [] k :=
  Store.get_set ..

@[simp] theorem Core.setHeld_fly (c : Core) (cell port : Nat) (l : List Held) : (c.setHeld cell port l).fab.fly = c.fab.fly := rfl
@[simp] theorem Core.setHeld_fired (c : Core) (cell port : Nat) (l : List Held) :
    (c.setHeld cell port l).fab.fired = c.fab.fired := rfl
@[simp] theorem Core.markFired_fly (c : Core) (cell grp : Nat) : (c.markFired cell grp).fab.fly = c.fab.fly := rfl
@[simp] theorem Core.markFired_held (c : Core) (cell grp : Nat) : (c.markFired cell grp).fab.held = c.fab.held := rfl

theorem Core.hasFired_markFired (c : Core) (cell grp : Nat) : (c.markFired cell grp).hasFired cell grp = true := by
  simp [Core.hasFired, Core.markFired]

theorem Core.hasFired_congr {c d : Core} (hf : d.fab.fired = c.fab.fired) (hc : d.clk = c.clk) (cell grp : Nat) :
    d.hasFired cell grp = c.hasFired cell grp := by rw [Core.hasFired, Core.hasFired, hf, hc]

/-- Meeting its context, a firing changes no more than the log of its meadow's page (R57). -/
theorem Core.readCtx_spec (c : Core) (cell : Nat) (set : Bool) :
    let d := c.readCtx cell set
    d.fab = c.fab ∧ d.rgns = c.rgns ∧ d.clk = c.clk ∧ d.task = c.task ∧ d.free = c.free ∧
    ∀ b, ¬ LogTouches (pMdw (cellMeadow cell)) b → d.rd b = c.rd b := by
  dsimp only
  unfold Core.readCtx Core.ueLog
  split
  · exact ⟨by simp, by simp, by simp, by simp, by simp, fun b hb => Core.rd_logErr_ne _ _ _ _ _ _ hb⟩
  · exact ⟨rfl, rfl, rfl, rfl, rfl, fun _ _ => rfl⟩

/-- The log of a page holds no MDW_REGION. -/
theorem not_logTouches_region (m n : Nat) : ¬ LogTouches (pMdw m) (pMdw n + 0x80) := by
  unfold LogTouches pMdw; omega

/-- The core after a cell has taken the oldest token of each port and met its context. -/
def Core.taken (c : Core) (cell : Nat) (ports : List Nat) (set : Bool) : Core :=
  ((ports.foldl (fun c p => c.setHeld cell p ((c.heldAt cell p).tail)) c).markFired cell 0).readCtx cell set

theorem Core.takeFold (cell : Nat) (ports : List Nat) (hn : ports.Nodup) (c : Core) :
    let d := ports.foldl (fun c p => c.setHeld cell p ((c.heldAt cell p).tail)) c
    (∀ p ∈ ports, d.heldAt cell p = (c.heldAt cell p).tail) ∧
    (∀ k, k ∉ ports.map (cell * 4 + ·) → Store.get d.fab.held [] k = Store.get c.fab.held [] k) ∧
    d = { c with fab := { c.fab with held := d.fab.held } } := by
  induction ports generalizing c with
  | nil => exact ⟨by simp, by simp, rfl⟩
  | cons p l ih =>
    obtain ⟨hp, hl⟩ := List.nodup_cons.1 hn
    have := ih hl (c.setHeld cell p ((c.heldAt cell p).tail))
    dsimp only [List.foldl] at this ⊢
    obtain ⟨h1, h2, h3⟩ := this
    refine ⟨fun q hq => ?_, fun k hk => ?_, h3.trans (by rw [Core.setHeld])⟩
    · rcases List.mem_cons.1 hq with rfl | hq
      · rw [Core.heldAt_eq, h2 _ (by simpa using hp)]; simp
      · rw [h1 q hq, Core.heldAt_eq, Core.setHeld_get, if_neg (by rintro e; exact hp (by rwa [Nat.add_left_cancel e] at hq))]
        rfl
    · simp only [List.map_cons, List.mem_cons, not_or] at hk
      rw [h2 k hk.2, Core.setHeld_get, if_neg hk.1]

/-- What `taken` changes: held tokens, the mark, and the log of the meadow's page. -/
theorem Core.taken_spec (c : Core) (cell : Nat) (ports : List Nat) (set : Bool) (hn : ports.Nodup) :
    let d := c.taken cell ports set
    (∀ p ∈ ports, d.heldAt cell p = (c.heldAt cell p).tail) ∧
    (∀ k, k ∉ ports.map (cell * 4 + ·) → Store.get d.fab.held [] k = Store.get c.fab.held [] k) ∧
    d.hasFired cell 0 = true ∧ d.fab = { c.fab with held := d.fab.held, fired := d.fab.fired } ∧
    d.rgns = c.rgns ∧ d.clk = c.clk ∧ d.task = c.task ∧ d.free = c.free ∧
    ∀ b, ¬ LogTouches (pMdw (cellMeadow cell)) b → d.rd b = c.rd b := by
  obtain ⟨h1, h2, h3⟩ := Core.takeFold cell ports hn c
  dsimp only
  unfold Core.taken
  generalize hd : ports.foldl (fun c p => c.setHeld cell p ((c.heldAt cell p).tail)) c = d at h1 h2 h3 ⊢
  obtain ⟨r1, r2, r3, r4, r5, r6⟩ := Core.readCtx_spec (d.markFired cell 0) cell set
  have e : d.markFired cell 0 =
      { c with fab := { c.fab with held := d.fab.held, fired := Store.set c.fab.fired 0 (cell * 2 + 0) (c.clk.fc + 1) } } :=
    (congrArg (fun d => d.markFired cell 0) h3).trans rfl
  refine ⟨fun p hp => ?_, fun k hk => ?_, ?_, ?_, ?_, ?_, ?_, ?_, fun b hb => ?_⟩
  · rw [Core.heldAt_eq, r1]; exact h1 p hp
  · rw [r1]; exact h2 k hk
  · rw [Core.hasFired_congr (by rw [r1]) r3]; exact Core.hasFired_markFired ..
  · rw [r1, e]
  · rw [r2, e]
  · rw [r3, e]
  · rw [r4, e]
  · rw [r5, e]
  · rw [r6 b hb, e]; rfl

/-- `taken` leaves the region of a cell as it was. -/
theorem Core.taken_cellRgn (c : Core) (cell : Nat) (ports : List Nat) (set : Bool) (hn : ports.Nodup) :
    (c.taken cell ports set).cellRgn cell = c.cellRgn cell := by
  obtain ⟨-, -, -, -, -, -, t, -, r⟩ := Core.taken_spec c cell ports set hn
  refine Core.cellRgn_congr ?_ t
  unfold Core.rgnField Core.getF
  rw [r _ (not_logTouches_region _ _)]

/-- A firing that is not early: take, work, place. -/
theorem Core.fire_eq (c : Core) (cell : Nat) (x : Ctx) (ports : List Nat) (lat : Nat) (ts : List Token)
    (work : Core → Core × Bool × List (Nat × Nat)) (he : c.early cell x 0 (joinTok ts) = false) :
    c.fire cell x ports lat ts work =
      (work (c.taken cell ports (joinTok ts).set)).1.place cell x lat
        { joinTok ts with
          poison := (joinTok ts).poison || (work (c.taken cell ports (joinTok ts).set)).2.1 || c.ctxPoison cell (joinTok ts).set }
        (work (c.taken cell ports (joinTok ts).set)).2.2 := by
  rw [Core.fire, he]; rfl

/-! ### Work that counts -/

/-- Counting where there is something to count. -/
theorem Core.rd_ifBump (c : Core) (a n : Nat) {b : Nat} (h : b ≠ a) :
    (if n = 0 then c else c.bumpBy a n).rd b = c.rd b := by
  split
  · rfl
  · exact Core.rd_bumpBy_ne c n h

theorem Core.rd_credit_ne (c : Core) (m : Nat) (k : Cnt) {b : Nat} (h : b % 0x1000 < 0xE8 ∨ 0xF8 < b % 0x1000) :
    (c.credit m k).rd b = c.rd b := by
  have hb : ∀ j, 0xE8 ≤ j → j ≤ 0xF8 → b ≠ pMdw m + j := by
    intro j h1 h2 hj
    have : (pMdw m + j) % 0x1000 = j := by unfold pMdw; omega
    rw [← hj] at this; omega
  unfold Core.credit
  exact (Core.rd_ifBump _ _ _ (hb 0xF8 (by decide) (by decide))).trans
    ((Core.rd_ifBump _ _ _ (hb 0xF0 (by decide) (by decide))).trans (Core.rd_ifBump _ _ _ (hb 0xE8 (by decide) (by decide))))

theorem Core.ifBump_clk (c : Core) (a n : Nat) : (if n = 0 then c else c.bumpBy a n).clk = c.clk := by
  split
  · rfl
  · exact Core.bumpBy_clk c a n
@[simp] theorem Core.credit_clk (c : Core) (m : Nat) (k : Cnt) : (c.credit m k).clk = c.clk := by
  unfold Core.credit
  exact (Core.ifBump_clk _ _ _).trans ((Core.ifBump_clk _ _ _).trans (Core.ifBump_clk _ _ _))

theorem Core.ifBump_fab (c : Core) (a n : Nat) : (if n = 0 then c else c.bumpBy a n).fab = c.fab := by
  split
  · rfl
  · exact Core.bumpBy_fab c a n
@[simp] theorem Core.credit_fab (c : Core) (m : Nat) (k : Cnt) : (c.credit m k).fab = c.fab := by
  unfold Core.credit
  exact (Core.ifBump_fab _ _ _).trans ((Core.ifBump_fab _ _ _).trans (Core.ifBump_fab _ _ _))

theorem Core.ifBump_rgns (c : Core) (a n : Nat) : (if n = 0 then c else c.bumpBy a n).rgns = c.rgns := by
  split
  · rfl
  · exact Core.bumpBy_rgns c a n
@[simp] theorem Core.credit_rgns (c : Core) (m : Nat) (k : Cnt) : (c.credit m k).rgns = c.rgns := by
  unfold Core.credit
  exact (Core.ifBump_rgns _ _ _).trans ((Core.ifBump_rgns _ _ _).trans (Core.ifBump_rgns _ _ _))

theorem Core.ifBump_task (c : Core) (a n : Nat) : (if n = 0 then c else c.bumpBy a n).task = c.task := by
  split
  · rfl
  · exact Core.bumpBy_task c a n
@[simp] theorem Core.credit_task (c : Core) (m : Nat) (k : Cnt) : (c.credit m k).task = c.task := by
  unfold Core.credit
  exact (Core.ifBump_task _ _ _).trans ((Core.ifBump_task _ _ _).trans (Core.ifBump_task _ _ _))

theorem Core.ifBump_free (c : Core) (a n : Nat) : (if n = 0 then c else c.bumpBy a n).free = c.free := by
  split
  · rfl
  · exact Core.bumpBy_free c a n
@[simp] theorem Core.credit_free (c : Core) (m : Nat) (k : Cnt) : (c.credit m k).free = c.free := by
  unfold Core.credit
  exact (Core.ifBump_free _ _ _).trans ((Core.ifBump_free _ _ _).trans (Core.ifBump_free _ _ _))


theorem Core.rgnField_credit (c : Core) (m : Nat) (k : Cnt) (n : Nat) : (c.credit m k).rgnField n = c.rgnField n := by
  unfold Core.rgnField Core.getF
  rw [Core.rd_credit_ne]
  left; unfold pMdw; omega

/-- A firing whose work keeps what decides the routes and the latches: its outputs on their routes, its ports less their
oldest token, nothing else taken, the mark set. -/
theorem Core.fire_spec (c : Core) (cell : Nat) (x : Ctx) (ports : List Nat) (lat : Nat) (ts : List Token)
    (work : Core → Core × Bool × List (Nat × Nat)) (poison : Bool) (outs : List (Nat × Nat))
    (he : c.early cell x 0 (joinTok ts) = false) (hn : ports.Nodup)
    (hw : (work (c.taken cell ports (joinTok ts).set)).2 = (poison, outs))
    (h1 : (work (c.taken cell ports (joinTok ts).set)).1.rgns = c.rgns)
    (h2 : (work (c.taken cell ports (joinTok ts).set)).1.cellRgn cell = c.cellRgn cell)
    (h3 : (work (c.taken cell ports (joinTok ts).set)).1.fab.fly = c.fab.fly)
    (h4 : (work (c.taken cell ports (joinTok ts).set)).1.fab.held = (c.taken cell ports (joinTok ts).set).fab.held)
    (h5 : (work (c.taken cell ports (joinTok ts).set)).1.fab.fired = (c.taken cell ports (joinTok ts).set).fab.fired)
    (h6 : (work (c.taken cell ports (joinTok ts).set)).1.clk = c.clk)
    (h7 : (work (c.taken cell ports (joinTok ts).set)).1.fab.owners = c.fab.owners) :
    let d := c.fire cell x ports lat ts work
    d.fab.fly = (c.place cell x lat
      { joinTok ts with poison := (joinTok ts).poison || poison || c.ctxPoison cell (joinTok ts).set } outs).fab.fly ∧
    (∀ p ∈ ports, d.heldAt cell p = (c.heldAt cell p).tail) ∧
    (∀ k, k ∉ ports.map (cell * 4 + ·) → Store.get d.fab.held [] k = Store.get c.fab.held [] k) ∧
    d.hasFired cell 0 = true := by
  obtain ⟨t1, t2, t3, -, -, t4, -⟩ := Core.taken_spec c cell ports (joinTok ts).set hn
  dsimp only
  rw [Core.fire_eq _ _ _ _ _ _ _ he, hw]
  refine ⟨?_, fun p hp => ?_, fun k hk => ?_, ?_⟩
  · exact Core.place_fly_congr ⟨h1, h2, h7⟩ h3 _ _ _ _
  · rw [Core.heldAt_eq, Core.place_held, h4]; exact t1 p hp
  · rw [Core.place_held, h4]; exact t2 k hk
  · rw [← t3]; exact Core.hasFired_congr (by rw [Core.place_fired, h5]) (by rw [Core.place_clk, h6, t4]) _ _

/-! ### The converter's statistics -/

/-- What the converter's statistics leave as it was: all but registers, notices, windows and the calibration cycle. -/
def convKept (c : Core) := (c.clk, c.rgns, c.task, c.free, { c.fab with convs := [], calAt := [], convNow := [] })

theorem convKept_wr (c : Core) (a v : Nat) : convKept (c.wr a v) = convKept c := rfl
theorem convKept_mark (c : Core) (a v : Nat) : convKept (c.mark a v) = convKept c := rfl
theorem convKept_bump (c : Core) (a : Nat) : convKept (c.bump a) = convKept c := by simp [convKept]
theorem convKept_event (c : Core) (p k : Nat) : convKept (c.event p k) = convKept c := by simp [convKept]
theorem convKept_calAt (c : Core) (v : Store Nat) : convKept { c with fab := { c.fab with calAt := v } } = convKept c := rfl
theorem convKept_setConvWin (c : Core) (m k : Nat) (w : ConvWin) : convKept (c.setConvWin m k w) = convKept c := rfl

theorem convKept_calEvent (c : Core) (m k : Nat) (tag : Tag) (set : Bool) : convKept (c.calEvent m k tag set) = convKept c := by
  unfold Core.calEvent
  dsimp only
  rw [convKept_event, convKept_calAt]
  split
  · rw [convKept_mark, convKept_wr]
  · rw [convKept_mark, convKept_wr, convKept_mark, convKept_wr]

theorem convKept_countLane (c : Core) (m k : Nat) (tag : Tag) (set : Bool) (l : LaneStat) :
    convKept (c.countLane m k tag set l) = convKept c := by
  unfold Core.countLane
  dsimp only
  split
  · rfl
  · rw [convKept_setConvWin]
    have h2 : ∀ (b : Bool) (c : Core), convKept (if b = true then c.calEvent m k tag set else c) = convKept c := by
      intro b c; split
      · exact convKept_calEvent ..
      · rfl
    rw [h2]
    have h3 : ∀ (b : Bool) (c : Core) a, convKept (if b = true then c.bump a else c) = convKept c := by
      intro b c a; split
      · exact convKept_bump ..
      · rfl
    split
    · rw [h3, convKept_bump]
    · rw [convKept_wr, h3, convKept_bump]

theorem convKept_convLane (c : Core) (m k : Nat) (tag : Tag) (set : Bool) (l : LaneStat) :
    convKept (c.convLane m k tag set l) = convKept c := by
  unfold Core.convLane
  split
  · rfl
  · have h1 : ∀ (c : Core) v, convKept ({ c with fab := { c.fab with convNow := v } } : Core) = convKept c := fun _ _ => rfl
    rw [h1, convKept_countLane]

theorem convKept_convCensus (c : Core) (m k : Nat) : convKept (c.convCensus m k) = convKept c := by
  unfold Core.convCensus
  split <;> rfl

theorem convKept_convLanes (c : Core) (m k : Nat) (tag : Tag) (set : Bool) (l : List LaneStat) :
    convKept (c.convLanes m k tag set l) = convKept c := by
  unfold Core.convLanes
  rw [convKept_convCensus]
  induction l generalizing c with
  | nil => rfl
  | cons x l ih => exact (ih _).trans (convKept_convLane ..)

/-- Counting a lane leaves MDW_REGION alone. -/
theorem Core.rd_countLane (c : Core) (m k : Nat) (hk : k < 32) (tag : Tag) (set : Bool) (l : LaneStat) (b : Nat) (hb : b % 0x1000 = 0x80) :
    (c.countLane m k tag set l).rd b = c.rd b := by
  have e : ∀ j, j < 0x1000 → j ≠ 0x80 → b ≠ pMdw m + j := by
    intro j h1 h2 h; have : (pMdw m + j) % 0x1000 = j := by unfold pMdw; omega
    omega
  have e2 : ∀ j, j < 0x20 → b ≠ aConv m k + j := by
    intro j h; unfold aConv; have := e (0xA00 + 0x20 * k + j) (by omega) (by omega); omega
  unfold Core.countLane
  dsimp only
  split
  · rfl
  · have h1 : ∀ (c : Core) (w), (c.setConvWin m k w).rd b = c.rd b := fun _ _ => rfl
    rw [h1]
    have h2 : ∀ (q : Bool) (c : Core), (if q = true then c.calEvent m k tag set else c).rd b = c.rd b := by
      intro q c; split
      · unfold Core.calEvent
        dsimp only
        rw [Core.rd_event_ne _ _ (by have := e 0x38 (by omega) (by omega); omega)]
        have h4 : ∀ (c : Core) v, ({c with fab := v} : Core).rd b = c.rd b := fun _ _ => rfl
        rw [h4]
        split
        · rw [Core.rd_mark, Core.rd_wr_ne _ _ (e 0x100 (by omega) (by omega))]
        · rw [Core.rd_mark, Core.rd_wr_ne _ _ (e 0x108 (by omega) (by omega)), Core.rd_mark,
            Core.rd_wr_ne _ _ (e 0x100 (by omega) (by omega))]
      · rfl
    rw [h2]
    have h3 : ∀ (q : Bool) (c : Core) j, j < 0x20 → (if q = true then c.bump (aConv m k + j) else c).rd b = c.rd b := by
      intro q c a ha; split
      · exact Core.rd_bump_ne _ (e2 a ha)
      · rfl
    split
    · rw [h3 _ _ 16 (by omega), Core.rd_bump_ne _ (by simpa using e2 0 (by omega))]
    · rw [Core.rd_wr_ne _ _ (e2 8 (by omega)), h3 _ _ 16 (by omega), Core.rd_bump_ne _ (by simpa using e2 0 (by omega))]

theorem Core.rd_convLanes (c : Core) (m k : Nat) (hk : k < 32) (tag : Tag) (set : Bool) (l : List LaneStat) (b : Nat) (hb : b % 0x1000 = 0x80) :
    (c.convLanes m k tag set l).rd b = c.rd b := by
  have h2 : ∀ c : Core, (c.convCensus m k).rd b = c.rd b := by intro c; unfold Core.convCensus; split <;> rfl
  unfold Core.convLanes
  rw [h2]
  induction l generalizing c with
  | nil => rfl
  | cons x l ih =>
    have h : (c.convLane m k tag set x).rd b = c.rd b := by
      unfold Core.convLane
      split
      · rfl
      · exact Core.rd_countLane c m k hk tag set x b hb
    exact (ih _).trans h

theorem convOf_lt (cell : Nat) : convOf cell < 32 := by
  unfold convOf cellTerrace b2n
  have : cell / 16 % 16 < 16 := Nat.mod_lt _ (by omega)
  split <;> omega



end Sys2Proof.Machine
end

