-- ==== Sys2Proof/Laws/Key.lean ====
section
/-! SUPPORT. What the key stage's shared operations can change: resolve points, records, snapshots, ring lines and views. -/

namespace Sys2Proof.Machine

/-- `d` differs from `c` at most in registers, notices, the error log's SEQ, regions, the composer, lanes, output, free values,
the frames kept, the key stage, and of the fabric in tokens on their routes, vault writes and ring data. -/
structure KeyOnly (c d : Core) : Prop where
  clk : d.clk = c.clk
  census : d.census = c.census
  latched : d.latched = c.latched
  noticeAt : d.noticeAt = c.noticeAt
  ford : d.ford = c.ford
  task : d.task = c.task
  cap : d.cap = c.cap
  kwn : d.kwn = c.kwn
  sec : d.sec = c.sec
  flt : d.flt = c.flt
  pwr : d.pwr = c.pwr
  pins : d.pins = c.pins
  swapArmed : d.swapArmed = c.swapArmed
  censusArmed : d.censusArmed = c.censusArmed
  saving : d.saving = c.saving
  progs : d.progs = c.progs
  tmpls : d.tmpls = c.tmpls
  held : d.fab.held = c.fab.held
  fired : d.fab.fired = c.fab.fired
  orphans : d.fab.orphans = c.fab.orphans
  ctxs : d.fab.ctxs = c.fab.ctxs
  gens : d.fab.gens = c.fab.gens
  ctrs : d.fab.ctrs = c.fab.ctrs
  phases : d.fab.phases = c.fab.phases
  digs : d.fab.digs = c.fab.digs

theorem KeyOnly.refl (c : Core) : KeyOnly c c :=
  ⟨rfl, rfl, rfl, rfl, rfl, rfl, rfl, rfl, rfl, rfl, rfl, rfl, rfl, rfl, rfl, rfl, rfl, rfl, rfl, rfl, rfl, rfl, rfl, rfl, rfl⟩

theorem KeyOnly.trans {c d e : Core} (h : KeyOnly c d) (k : KeyOnly d e) : KeyOnly c e :=
  ⟨k.clk.trans h.clk, k.census.trans h.census, k.latched.trans h.latched, k.noticeAt.trans h.noticeAt, k.ford.trans h.ford, k.task.trans h.task, k.cap.trans h.cap, k.kwn.trans h.kwn, k.sec.trans h.sec, k.flt.trans h.flt, k.pwr.trans h.pwr, k.pins.trans h.pins, k.swapArmed.trans h.swapArmed, k.censusArmed.trans h.censusArmed, k.saving.trans h.saving, k.progs.trans h.progs, k.tmpls.trans h.tmpls, k.held.trans h.held, k.fired.trans h.fired, k.orphans.trans h.orphans, k.ctxs.trans h.ctxs, k.gens.trans h.gens, k.ctrs.trans h.ctrs, k.phases.trans h.phases, k.digs.trans h.digs⟩

theorem EgressOnly.keyOnly {c d : Core} (h : EgressOnly c d) : KeyOnly c d :=
  ⟨h.clk, h.census, h.latched, h.noticeAt, h.ford, h.task, h.cap, h.kwn, h.sec, h.flt, h.pwr, h.pins, h.swapArmed, h.censusArmed, h.saving, h.progs, h.tmpls, by rw [h.fab], by rw [h.fab], by rw [h.fab], by rw [h.fab], by rw [h.fab], by rw [h.fab], by rw [h.fab], by rw [h.fab]⟩

theorem KeyOnly.foldl {α : Type} (f : Core → α → Core) (h : ∀ c x, KeyOnly c (f c x)) (l : List α) (c : Core) :
    KeyOnly c (l.foldl f c) := by
  induction l generalizing c with
  | nil => exact .refl c
  | cons x l ih => exact (h c x).trans (ih _)

theorem KeyOnly.ite {c d e : Core} {p : Prop} [Decidable p] (h : KeyOnly c d) (k : KeyOnly c e) :
    KeyOnly c (if p then d else e) := by split <;> assumption

theorem KeyOnly.putLine (c : Core) (a : Nat) (l : Payload) (w : Option (Nat × Nat × Nat)) : KeyOnly c (c.putLine a l w) :=
  ⟨rfl, rfl, rfl, rfl, rfl, rfl, rfl, rfl, rfl, rfl, rfl, rfl, rfl, rfl, rfl, rfl, rfl, rfl, rfl, rfl, rfl, rfl, rfl, rfl, rfl⟩

theorem KeyOnly.setKey (c : Core) (x : KeyStage) : KeyOnly c ({ c with key := x }) :=
  ⟨rfl, rfl, rfl, rfl, rfl, rfl, rfl, rfl, rfl, rfl, rfl, rfl, rfl, rfl, rfl, rfl, rfl, rfl, rfl, rfl, rfl, rfl, rfl, rfl, rfl⟩

theorem KeyOnly.setSep (c : Core) (x : Sep) : KeyOnly c ({ c with sep := x }) :=
  ⟨rfl, rfl, rfl, rfl, rfl, rfl, rfl, rfl, rfl, rfl, rfl, rfl, rfl, rfl, rfl, rfl, rfl, rfl, rfl, rfl, rfl, rfl, rfl, rfl, rfl⟩

theorem KeyOnly.place (c : Core) (cell : Nat) (x : Ctx) (lat : Nat) (t : Token) (outs : List (Nat × Nat)) : KeyOnly c (c.place cell x lat t outs) :=
  ⟨rfl, rfl, rfl, rfl, rfl, rfl, rfl, rfl, rfl, rfl, rfl, rfl, rfl, rfl, rfl, rfl, rfl, rfl, rfl, rfl, rfl, rfl, rfl, rfl, rfl⟩

theorem KeyOnly.cachePut (c : Core) (cell a : Nat) : KeyOnly c (c.cachePut cell a) :=
  ⟨rfl, rfl, rfl, rfl, rfl, rfl, rfl, rfl, rfl, rfl, rfl, rfl, rfl, rfl, rfl, rfl, rfl, rfl, rfl, rfl, rfl, rfl, rfl, rfl, rfl⟩

theorem KeyOnly.setFetched (c : Core) (x : List Fetched) : KeyOnly c ({ c with fab := { c.fab with fetched := x } }) :=
  ⟨rfl, rfl, rfl, rfl, rfl, rfl, rfl, rfl, rfl, rfl, rfl, rfl, rfl, rfl, rfl, rfl, rfl, rfl, rfl, rfl, rfl, rfl, rfl, rfl, rfl⟩

/-! ### Resolve points -/

/-- A resolve point (R287): the error log, undo records, restored lines, the frame and the fates of iterations. -/
theorem KeyOnly.resolveFrame (c : Core) (g : Nat) (f : Frame) : KeyOnly c (c.resolveFrame g f) := by
  unfold Core.resolveFrame
  extract_lets d c1 good live c2 snap _ c3 _ c4 c5
  have h1 : KeyOnly c c1 := .ite (.refl c) (EgressOnly.logErr ..).keyOnly
  have h2 : KeyOnly (c1.bumpBy (pKey + 0x1D8) live.2.length) c2 :=
    .foldl (fun c (e : Nat × Payload) => c.putLine e.1 e.2 none) (fun c e => .putLine c e.1 e.2 none) _ _
  have h3 : KeyOnly c2 c3 := .setKey _ _
  have h4 : KeyOnly c3 c4 := .setSep _ _
  have h5 : KeyOnly c4 c5 := .ite (.refl c4) (EgressOnly.modRgn ..).keyOnly
  exact (((((h1.trans (EgressOnly.bumpBy ..).keyOnly).trans h2).trans h3).trans h4).trans h5).trans
    (.ite (EgressOnly.settleRgn _ g).keyOnly (EgressOnly.settle _).keyOnly)

theorem KeyOnly.resolveUpTo (c : Core) (g : Nat) (p : Frame → Bool) : KeyOnly c (c.resolveUpTo g p) :=
  .foldl (fun c f => c.resolveFrame g f) (fun c f => .resolveFrame c g f) _ c

theorem KeyOnly.resolveFor (c : Core) (g slot : Nat) : KeyOnly c (c.resolveFor g slot) := .resolveUpTo ..

theorem KeyOnly.pruneFrames (c : Core) : KeyOnly c c.pruneFrames := .setSep c _

theorem FatesOnly.resolveFrame (c : Core) (g : Nat) (f : Frame) : FatesOnly c (c.resolveFrame g f) := by
  unfold Core.resolveFrame
  extract_lets d c1 good live c2 snap _ c3 _ c4 c5
  have h1 : c1.rgns = c.rgns := Core.rgns_ite rfl (Core.logErr_rgns ..)
  have h2 : c2.rgns = (c1.bumpBy (pKey + 0x1D8) live.2.length).rgns :=
    Core.rgns_foldl (fun c (e : Nat × Payload) => c.putLine e.1 e.2 none) (fun _ _ => rfl) _ _
  have h4 : c4.rgns = c2.rgns := rfl
  have h5 : FatesOnly c4 c5 := .ite (.refl c4) fun h => by
    rcases eq_or_ne h g with rfl | n
    · rw [Core.rgn_modRgn_self, Rgn.butFates_undone]
    · rw [Core.rgn_modRgn_ne _ _ n]
  exact ((FatesOnly.of_rgns (h4.trans (h2.trans ((Core.bumpBy_rgns ..).trans h1)))).trans h5).trans
    (.ite (FatesOnly.settleRgn _ g) (FatesOnly.settle _))

theorem FatesOnly.resolveUpTo (c : Core) (g : Nat) (p : Frame → Bool) : FatesOnly c (c.resolveUpTo g p) :=
  .foldl (fun c f => c.resolveFrame g f) (fun c f => FatesOnly.resolveFrame c g f) _ c

/-! ### Records, snapshots, lines and views -/

theorem KeyOnly.snapSave (c : Core) (m : Mem) (tick a : Nat) : KeyOnly c (c.snapSave m tick a) := by
  unfold Core.snapSave
  split
  · exact .refl c
  · exact .ite (.refl c) (.setKey c _)

theorem KeyOnly.snapApply (c : Core) (m : Mem) (cell g tick base : Nat) (deps : List (Nat × Nat)) (old new : List Byte)
    (run : List Byte → List Byte) : KeyOnly c (c.snapApply m cell g tick base deps old new run) := by
  unfold Core.snapApply
  split
  · exact .refl c
  · split
    · exact .foldl (fun c (e : Nat × Payload) => c.snapSave m tick e.1) (fun c e => .snapSave c m tick e.1) _ c
    · exact .setKey c _

theorem KeyOnly.record (c : Core) (cell g : Nat) (deps : List (Nat × Nat)) (ch : List (Nat × Payload)) :
    KeyOnly c (c.record cell g deps ch) := by
  unfold Core.record
  dsimp only
  exact .ite (.refl c) ((KeyOnly.setKey c _).trans (EgressOnly.rcMax _ (pKey + 0x1E0) _).keyOnly)

theorem KeyOnly.putRing (c : Core) (cell base : Nat) (old new : List Byte) : KeyOnly c (c.putRing cell base old new) := by
  unfold Core.putRing
  extract_lets g
  refine .foldl _ (fun d e => ?_) _ c
  generalize toPayload _ = l
  generalize some (g, _, cell) = w
  exact KeyOnly.putLine d e.1 l w

theorem KeyOnly.emitViews (c : Core) (cell : Nat) (x : Ctx) (k : KeyCtx) (km : Option KeyMap) (ring : Option (List Byte))
    (tok : Token) (tick : Nat) (poison : Bool) (status : Nat) : KeyOnly c (c.emitViews cell x k km ring tok tick poison status) :=
  .place ..

theorem KeyOnly.collected (c : Core) (g : Nat) (i : Iter) (deps : List (Nat × Nat)) (st : Nat) :
    KeyOnly c (c.collected g i deps st) := (EgressOnly.modRgn c g _).keyOnly

theorem KeyOnly.fireBare (c : Core) (cell g : Nat) (tok : Token) (i : Iter) (x : Ctx) (k : KeyCtx) :
    KeyOnly c (c.fireBare cell g tok i x k) := by
  unfold Core.fireBare
  dsimp only
  refine KeyOnly.trans ?_ (EgressOnly.settleRgn _ g).keyOnly
  refine KeyOnly.trans ?_ (.collected ..)
  refine KeyOnly.trans ?_ (.emitViews ..)
  exact KeyOnly.trans (.ite (.ite (EgressOnly.bump ..).keyOnly (.refl c)) (EgressOnly.bump ..).keyOnly) (.setFetched ..)

/-- Collect, apply, write and show (R255): nothing of the fabric but routes, vault writes and ring data. -/
theorem KeyOnly.fireRing (c : Core) (m : Mem) (cell g j l : Nat) (tok : Token) (i : Iter) (x : Ctx) (k : KeyCtx) (km : KeyMap) :
    KeyOnly c (c.fireRing m cell g j l tok i x k km) := by
  unfold Core.fireRing
  extract_lets base n got _ c1 poison c2 s c3 _ c4 deps c5 old inp run res new ch full c6 c7 c8 st d6 d7 d8 d9 d10
  have h1 : KeyOnly c c1 := .setFetched c _
  have h2 : KeyOnly c1 c2 := (EgressOnly.bump ..).keyOnly
  have h3 : KeyOnly c2 c3 := .ite (EgressOnly.bump ..).keyOnly (.refl _)
  have h4 : KeyOnly c3 c4 := .setKey _ _
  have h5 : KeyOnly c4 c5 := .ite (.refl _) (EgressOnly.bump ..).keyOnly
  refine ((((h1.trans h2).trans h3).trans h4).trans h5).trans ?_
  refine .ite ?_ ?_
  · have h6 : KeyOnly c5 c7 := (KeyOnly.emitViews ..).trans (.collected ..)
    refine h6.trans (.ite ?_ (EgressOnly.settleRgn _ g).keyOnly)
    exact (EgressOnly.bump c7 _).keyOnly.trans (.ite (.refl _) (EgressOnly.setFate ..).keyOnly)
  · have h6 : KeyOnly c5 d7 := ((EgressOnly.bumpBy ..).trans ((EgressOnly.bumpBy ..).trans (.bump ..))).keyOnly
    have h8 : KeyOnly d7 d8 := .snapApply ..
    have h9 : KeyOnly d8 d9 := (KeyOnly.record ..).trans (.putRing ..)
    have h10 : KeyOnly d9 d10 := .emitViews ..
    exact (((h6.trans h8).trans h9).trans h10).trans ((KeyOnly.collected ..).trans (EgressOnly.settleRgn _ g).keyOnly)

end Sys2Proof.Machine
end

