-- ==== Sys2Proof/Laws/PerInstr.lean ====
section
/-! SUPPORT. Statements for all commands, one lemma per command: the numbers of a well-formed command lie below the device's counts of
ports, lanes, cells, meadows, regions and pages. -/

namespace Sys2Proof.Laws.Ranges

/-- A session's number in an access, with the count of sessions (R428). -/
def sessOf : Access → List (Nat × Nat)
  | ⟨_, .session n⟩ => [(n, 64)]
  | ⟨_, .firmware⟩ => []

/-- The numbers a command carries, each with the count it must lie below. -/
def numbersOf : Instr → List (Nat × Nat)
  | .frameStart lp phi _ bytes => [(lp, 8), (phi, 65536), (bytes.length, 9217)]
  | .fecUncorrectable lp _ | .fcsVerdict lp | .linkLoss lp | .templateFrameStart lp | .linkUp lp => [(lp, 8)]
  | .eventWordEmit src => [(src, 24)]
  | .fordArrival _ | .tokenArrive _ | .vaultReadDone _ | .slewEnd | .holdover | .refclkTimeReturn | .barrierLaunch | .txtsPop
  | .filterChangeEffect | .filterPendingClear | .killNAssert | .resultRecordRelease | .slotChangeEffect | .ringReadCopy
  | .ringReadBusy | .publicationFlip | .census | .snapshotDone | .swapTick | .taskTake | .replayRecordPresent
  | .sequencerStep | .holdoffEnd | .captureRecordWrite | .captureArmEffect | .captureStopEffect | .captureData | .powerOn _
  | .rstN _ | .mailboxTimeout | .stageDone _ | .updateActivation | .serviceResume | .confirmTimeout | .sensorSample _
  | .bistSliceStart | .bistSliceEnd _ | .powerPointBoundary | .powerPointResume | .killNDeassert | .snapshotTick
  | .stateUe _ _ | .lpddr6PatrolScrub _ _ _ | .ringCommandDone | .mailboxCommandDone _ | .rstNAssert => []
  | .fordRelease g | .drainComplete g | .launch g | .swapDrainDone g | .saveRestoreDone g => [(g, 8)]
  | .orphan cell port => [(cell, 32768), (port, 4)]
  | .stallStart r _ | .stallLimit r => [(r, 4112)]
  | .dot cell | .dotc cell | .exp2 cell | .log2 cell | .rcp cell | .rsqrt cell | .sqrt cell | .tanh cell | .logistic cell
  | .pwl cell | .min8 cell | .max8 cell | .argmax8 cell | .sort8 cell | .sum8 cell | .add2 cell | .quant cell | .dequant cell
  | .leafMa cell | .leafMm cell | .combMa cell | .combMm cell | .param cell | .read cell | .write cell | .delay cell
  | .kcache cell | .fork cell | .merge cell | .switch cell | .select cell | .renumber cell | .digest cell
  | .keyEventFire cell | .keyDeferredFire cell | .tapIngress cell | .tapResult cell | .tapCapture cell => [(cell, 32768)]
  | .gather cell group | .align cell group => [(cell, 32768), (group, 2)]
  | .resolvePoint g src => [(g, 8), (src, 36)]
  | .sectionSwitch r next => [(r, 4112), (next.slot, 8)]
  | .slotReloadDone m img => [(m, 128), (img.slot, 8)]
  | .drain acc m | .resume acc m | .halt acc m | .resetRgn acc m | .meadowMove acc m _ | .save acc m _ | .restore acc m _
  | .flush acc m _ => sessOf acc ++ [(m, 128)]
  | .convCfgWrite acc m k _ | .convClr acc m k => sessOf acc ++ [(m, 128), (k, 32)]
  | .binaryLoad bin => bin.report.meadows.map fun m => (m, 128)
  | .timeIncrWrite acc _ | .timeSlewWrite acc _ | .timeNowSet acc _ | .tickPeriodWrite acc _ | .valleyEpochWrite acc _
  | .barrierArm acc _ | .portCfgWrite acc _ | .filterWrite acc _ | .filterInvalidate acc _ | .filterRead acc _
  | .gateOpen acc _ | .gateClose acc _ | .killClear acc _ | .keyCfgWrite acc _ | .slotWrite acc _ | .slotRead acc _
  | .ringRead acc _ | .ringWrite acc _ | .zeroAll acc _ | .censusRequest acc _ | .swapArm acc _ | .taskDoorbell acc _
  | .abort acc _ | .taskRelease acc _ | .replayStart acc _ | .replayStop acc _ | .captureArmWrite acc _ | .stop acc _
  | .close acc _ | .registerWrite acc _ _ | .rcRead acc _ | .devFwiWrite acc _ | .healthConfirm acc _ | .stage acc _
  | .activateAt acc _ | .activate acc _ | .cancel acc _ | .enter acc _ | .exit acc _ | .pwrPtArm acc _ => sessOf acc
  | .tinEdge i phi _ _ => [(i, 4), (phi, 65536)]
  | .tinTsPop i => [(i, 4)]
  | .toutArm acc j _ => sessOf acc ++ [(j, 4)]
  | .toutEdge j | .toutPulseEnd j => [(j, 4)]
  | .fordDelayWrite acc g _ | .launchAtWrite acc g _ => sessOf acc ++ [(g, 8)]
  | .timeMarkerSend l phi | .timeMarkerReceive l phi _ => [(l, 16), (phi, 65536)]
  | .barrierTokenReceive l | .laneLocked l | .laneLockLoss l | .versionSetReceive l _ | .idleSetReceive l _
  | .packetVerdict l | .passStreamTransmit l | .linkRetryTimeout l => [(l, 16)]
  | .ptpTransmit lp phi kind _ _ ptpOff bytes => [(lp, 8), (phi, 65536), (kind, 8), (ptpOff, bytes.length)]
  | .compCapWrite acc t _ | .compCapArm acc t _ | .deadlineWrite acc t _ => sessOf acc ++ [(t, 256)]
  | .section_ e | .sectionEnd e | .move e | .publish e | .swap e | .snapshot e | .captureArm e | .selftest e | .fence e
  | .note e | .taskComplete e => [(e, 4096)]
  | .digestRecordPop m | .refreshEntry m _ _ | .vaultHotEnter m _ | .vaultHotExit m _ | .vaultWriteCommit m => [(m, 128)]
  | .passCfgWrite acc l _ | .linkTxQueue acc l _ => sessOf acc ++ [(l, 16)]
  | .packetStart l phi chars _ _ _ => [(l, 16), (phi, 65536), (chars.length, 4097)]
  | .timerExpiry k => [(k, 4)]
  | .trigOutPulseEnd j => [(j, 8)]
  | .trigInEdge i phi _ _ => [(i, 8), (phi, 65536)]
  | .stuck i => [(i, 8)]
  | .hotForceWrite acc p _ => sessOf acc ++ [(p, 4)]
  | .lpddr6Recalibration ch => [(ch, 12)]
  | .open_ h _ | .authResponse h _ | .regRead h _ _ | .regWrite h _ _ | .memRead h _ _ | .memWrite h _ _ | .submit h _
  | .doorbell h _ _ | .ack h => [(h.session, 256)]
  | .kwananRtoExpiry id | .standaloneAck id | .idleClose id | .claim id | .releaseMbx id | .challenge id | .enrol id
  | .release id | .attest id | .newIdentity id => [(id, 64)]
  | .pageEnWrite acc page _ | .blkReset acc page | .freeze acc page _ | .evtForce acc page _ | .errHeadWrite acc page _ =>
    sessOf acc ++ [(page, 0x184000)]
  | .pageNotice page | .blockResetDone page => [(page, 0x184000)]
  | .firmwareStart majors => [(majors, 65536)]
  | .fwProtect comp => [(comp, 8)]
  | .watchdog core => [(core, 4)]
  | .clockLoss kind plain | .clockLocked kind plain => [(kind, 4), (plain, 4)]
  | .railSample rail _ _ _ => [(rail, 10)]
  | .mgResetCmd _ value => [(value, 65536)]

/-- In a well-formed command every number lies below its count. -/
def Statement (i : Instr) : Prop := WellFormed i = true → ∀ x ∈ numbersOf i, x.1 < x.2

theorem sessOf_lt (a : Access) (h : accessOk a = true) : ∀ x ∈ sessOf a, x.1 < x.2 := by
  obtain ⟨v, w⟩ := a
  cases w <;> simp_all [accessOk, sessOf, sessOk]

theorem all (i : Instr) : Statement i := by
  cases i <;> intro h x hx <;>
    simp only [numbersOf, WellFormed, Bool.and_eq_true, decide_eq_true_eq, List.mem_append, List.mem_cons, List.not_mem_nil, or_false,
      lpOk, phiOk, regionOk, cellOk, meadowOk, laneOk, sessOk, pageOk, List.mem_map, List.all_eq_true] at h hx <;>
    first
    | exact hx.elim
    | exact sessOf_lt _ h x hx
    | (subst hx; dsimp only; omega)
    | (rcases hx with rfl | rfl <;> dsimp only <;> omega)
    | (rcases hx with rfl | rfl | rfl <;> dsimp only <;> omega)
    | (rcases hx with rfl | rfl | rfl | rfl <;> dsimp only <;> omega)
    | (rcases hx with hx | hx
       · exact sessOf_lt _ (by tauto) x hx
       · first
         | (subst hx; dsimp only; omega)
         | (rcases hx with rfl | rfl <;> dsimp only <;> omega))
    | (obtain ⟨m, hm, rfl⟩ := hx
       exact h m hm)

theorem frameStart (lp : Nat) (phi : Nat) (rx : Reception) (bytes : List Byte) :
    Statement (.frameStart lp phi rx bytes) := all _
theorem fecUncorrectable (lp : Nat) (frames : List Nat) : Statement (.fecUncorrectable lp frames) := all _
theorem eventWordEmit (src : Nat) : Statement (.eventWordEmit src) := all _
theorem fcsVerdict (lp : Nat) : Statement (.fcsVerdict lp) := all _
theorem fordArrival (i : Nat) : Statement (.fordArrival i) := all _
theorem fordRelease (g : Nat) : Statement (.fordRelease g) := all _
theorem tokenArrive (i : Nat) : Statement (.tokenArrive i) := all _
theorem orphan (cell : Nat) (port : Nat) : Statement (.orphan cell port) := all _
theorem stallStart (r : Nat) (items : List Overdue) : Statement (.stallStart r items) := all _
theorem stallLimit (r : Nat) : Statement (.stallLimit r) := all _
theorem dot (cell : Nat) : Statement (.dot cell) := all _
theorem dotc (cell : Nat) : Statement (.dotc cell) := all _
theorem exp2 (cell : Nat) : Statement (.exp2 cell) := all _
theorem log2 (cell : Nat) : Statement (.log2 cell) := all _
theorem rcp (cell : Nat) : Statement (.rcp cell) := all _
theorem rsqrt (cell : Nat) : Statement (.rsqrt cell) := all _
theorem sqrt (cell : Nat) : Statement (.sqrt cell) := all _
theorem tanh (cell : Nat) : Statement (.tanh cell) := all _
theorem logistic (cell : Nat) : Statement (.logistic cell) := all _
theorem pwl (cell : Nat) : Statement (.pwl cell) := all _
theorem min8 (cell : Nat) : Statement (.min8 cell) := all _
theorem max8 (cell : Nat) : Statement (.max8 cell) := all _
theorem argmax8 (cell : Nat) : Statement (.argmax8 cell) := all _
theorem sort8 (cell : Nat) : Statement (.sort8 cell) := all _
theorem sum8 (cell : Nat) : Statement (.sum8 cell) := all _
theorem add2 (cell : Nat) : Statement (.add2 cell) := all _
theorem quant (cell : Nat) : Statement (.quant cell) := all _
theorem dequant (cell : Nat) : Statement (.dequant cell) := all _
theorem leafMa (cell : Nat) : Statement (.leafMa cell) := all _
theorem leafMm (cell : Nat) : Statement (.leafMm cell) := all _
theorem combMa (cell : Nat) : Statement (.combMa cell) := all _
theorem combMm (cell : Nat) : Statement (.combMm cell) := all _
theorem param (cell : Nat) : Statement (.param cell) := all _
theorem read (cell : Nat) : Statement (.read cell) := all _
theorem write (cell : Nat) : Statement (.write cell) := all _
theorem delay (cell : Nat) : Statement (.delay cell) := all _
theorem kcache (cell : Nat) : Statement (.kcache cell) := all _
theorem fork (cell : Nat) : Statement (.fork cell) := all _
theorem merge (cell : Nat) : Statement (.merge cell) := all _
theorem switch (cell : Nat) : Statement (.switch cell) := all _
theorem select (cell : Nat) : Statement (.select cell) := all _
theorem gather (cell : Nat) (group : Nat) : Statement (.gather cell group) := all _
theorem align (cell : Nat) (group : Nat) : Statement (.align cell group) := all _
theorem renumber (cell : Nat) : Statement (.renumber cell) := all _
theorem digest (cell : Nat) : Statement (.digest cell) := all _
theorem keyEventFire (cell : Nat) : Statement (.keyEventFire cell) := all _
theorem keyDeferredFire (cell : Nat) : Statement (.keyDeferredFire cell) := all _
theorem resolvePoint (g : Nat) (src : Nat) : Statement (.resolvePoint g src) := all _
theorem vaultReadDone (i : Nat) : Statement (.vaultReadDone i) := all _
theorem tapIngress (cell : Nat) : Statement (.tapIngress cell) := all _
theorem tapResult (cell : Nat) : Statement (.tapResult cell) := all _
theorem tapCapture (cell : Nat) : Statement (.tapCapture cell) := all _
theorem sectionSwitch (r : Nat) (next : SectionAt) : Statement (.sectionSwitch r next) := all _
theorem slotReloadDone (m : Nat) (img : SlotReload) : Statement (.slotReloadDone m img) := all _
theorem drain (acc : Access) (m : Nat) : Statement (.drain acc m) := all _
theorem drainComplete (g : Nat) : Statement (.drainComplete g) := all _
theorem resume (acc : Access) (m : Nat) : Statement (.resume acc m) := all _
theorem halt (acc : Access) (m : Nat) : Statement (.halt acc m) := all _
theorem resetRgn (acc : Access) (m : Nat) : Statement (.resetRgn acc m) := all _
theorem meadowMove (acc : Access) (m : Nat) (v : Word64) : Statement (.meadowMove acc m v) := all _
theorem convCfgWrite (acc : Access) (m : Nat) (k : Nat) (v : Word64) : Statement (.convCfgWrite acc m k v) := all _
theorem convClr (acc : Access) (m : Nat) (k : Nat) : Statement (.convClr acc m k) := all _
theorem binaryLoad (bin : Binary) : Statement (.binaryLoad bin) := all _
theorem timeIncrWrite (acc : Access) (v : Word64) : Statement (.timeIncrWrite acc v) := all _
theorem timeSlewWrite (acc : Access) (v : Word64) : Statement (.timeSlewWrite acc v) := all _
theorem slewEnd : Statement .slewEnd := all _
theorem timeNowSet (acc : Access) (v : Word64) : Statement (.timeNowSet acc v) := all _
theorem holdover : Statement .holdover := all _
theorem refclkTimeReturn : Statement .refclkTimeReturn := all _
theorem tinEdge (i : Nat) (phi : Nat) (level : Bool) (held : Nat) : Statement (.tinEdge i phi level held) := all _
theorem tinTsPop (i : Nat) : Statement (.tinTsPop i) := all _
theorem toutArm (acc : Access) (j : Nat) (v : Word64) : Statement (.toutArm acc j v) := all _
theorem toutEdge (j : Nat) : Statement (.toutEdge j) := all _
theorem tickPeriodWrite (acc : Access) (v : Word64) : Statement (.tickPeriodWrite acc v) := all _
theorem fordDelayWrite (acc : Access) (g : Nat) (v : Word64) : Statement (.fordDelayWrite acc g v) := all _
theorem valleyEpochWrite (acc : Access) (v : Word64) : Statement (.valleyEpochWrite acc v) := all _
theorem launchAtWrite (acc : Access) (g : Nat) (v : Word64) : Statement (.launchAtWrite acc g v) := all _
theorem launch (g : Nat) : Statement (.launch g) := all _
theorem timeMarkerSend (l : Nat) (phi : Nat) : Statement (.timeMarkerSend l phi) := all _
theorem timeMarkerReceive (l : Nat) (phi : Nat) (rx : LaneChars) : Statement (.timeMarkerReceive l phi rx) := all _
theorem barrierArm (acc : Access) (v : Word64) : Statement (.barrierArm acc v) := all _
theorem barrierTokenReceive (l : Nat) : Statement (.barrierTokenReceive l) := all _
theorem barrierLaunch : Statement .barrierLaunch := all _
theorem ptpTransmit (lp : Nat) (phi : Nat) (kind : Nat) (udpSum : Option Nat) (rxTime : Nat) (ptpOff : Nat) (bytes : List Byte) :
    Statement (.ptpTransmit lp phi kind udpSum rxTime ptpOff bytes) := all _
theorem txtsPop : Statement .txtsPop := all _
theorem portCfgWrite (acc : Access) (v : Word64) : Statement (.portCfgWrite acc v) := all _
theorem linkLoss (lp : Nat) : Statement (.linkLoss lp) := all _
theorem filterWrite (acc : Access) (v : Word64) : Statement (.filterWrite acc v) := all _
theorem filterInvalidate (acc : Access) (v : Word64) : Statement (.filterInvalidate acc v) := all _
theorem filterRead (acc : Access) (v : Word64) : Statement (.filterRead acc v) := all _
theorem filterChangeEffect : Statement .filterChangeEffect := all _
theorem filterPendingClear : Statement .filterPendingClear := all _
theorem templateFrameStart (lp : Nat) : Statement (.templateFrameStart lp) := all _
theorem compCapWrite (acc : Access) (t : Nat) (v : Word64) : Statement (.compCapWrite acc t v) := all _
theorem compCapArm (acc : Access) (t : Nat) (v : Word64) : Statement (.compCapArm acc t v) := all _
theorem gateOpen (acc : Access) (v : Word64) : Statement (.gateOpen acc v) := all _
theorem gateClose (acc : Access) (v : Word64) : Statement (.gateClose acc v) := all _
theorem killNAssert : Statement .killNAssert := all _
theorem killClear (acc : Access) (v : Word64) : Statement (.killClear acc v) := all _
theorem resultRecordRelease : Statement .resultRecordRelease := all _
theorem keyCfgWrite (acc : Access) (v : Word64) : Statement (.keyCfgWrite acc v) := all _
theorem slotWrite (acc : Access) (v : Word64) : Statement (.slotWrite acc v) := all _
theorem slotRead (acc : Access) (v : Word64) : Statement (.slotRead acc v) := all _
theorem slotChangeEffect : Statement .slotChangeEffect := all _
theorem ringRead (acc : Access) (v : Word64) : Statement (.ringRead acc v) := all _
theorem ringReadCopy : Statement .ringReadCopy := all _
theorem ringReadBusy : Statement .ringReadBusy := all _
theorem ringWrite (acc : Access) (v : Word64) : Statement (.ringWrite acc v) := all _
theorem zeroAll (acc : Access) (v : Word64) : Statement (.zeroAll acc v) := all _
theorem publicationFlip : Statement .publicationFlip := all _
theorem censusRequest (acc : Access) (v : Word64) : Statement (.censusRequest acc v) := all _
theorem census : Statement .census := all _
theorem snapshotDone : Statement .snapshotDone := all _
theorem swapArm (acc : Access) (v : Word64) : Statement (.swapArm acc v) := all _
theorem swapTick : Statement .swapTick := all _
theorem swapDrainDone (g : Nat) : Statement (.swapDrainDone g) := all _
theorem save (acc : Access) (m : Nat) (v : Word64) : Statement (.save acc m v) := all _
theorem restore (acc : Access) (m : Nat) (v : Word64) : Statement (.restore acc m v) := all _
theorem saveRestoreDone (g : Nat) : Statement (.saveRestoreDone g) := all _
theorem taskDoorbell (acc : Access) (v : Word64) : Statement (.taskDoorbell acc v) := all _
theorem taskTake : Statement .taskTake := all _
theorem section_ (e : Nat) : Statement (.section_ e) := all _
theorem sectionEnd (e : Nat) : Statement (.sectionEnd e) := all _
theorem move (e : Nat) : Statement (.move e) := all _
theorem publish (e : Nat) : Statement (.publish e) := all _
theorem swap (e : Nat) : Statement (.swap e) := all _
theorem snapshot (e : Nat) : Statement (.snapshot e) := all _
theorem captureArm (e : Nat) : Statement (.captureArm e) := all _
theorem selftest (e : Nat) : Statement (.selftest e) := all _
theorem fence (e : Nat) : Statement (.fence e) := all _
theorem note (e : Nat) : Statement (.note e) := all _
theorem taskComplete (e : Nat) : Statement (.taskComplete e) := all _
theorem abort (acc : Access) (v : Word64) : Statement (.abort acc v) := all _
theorem taskRelease (acc : Access) (v : Word64) : Statement (.taskRelease acc v) := all _
theorem flush (acc : Access) (m : Nat) (v : Word64) : Statement (.flush acc m v) := all _
theorem digestRecordPop (m : Nat) : Statement (.digestRecordPop m) := all _
theorem replayStart (acc : Access) (v : Word64) : Statement (.replayStart acc v) := all _
theorem replayStop (acc : Access) (v : Word64) : Statement (.replayStop acc v) := all _
theorem replayRecordPresent : Statement .replayRecordPresent := all _
theorem passCfgWrite (acc : Access) (l : Nat) (v : Word64) : Statement (.passCfgWrite acc l v) := all _
theorem laneLocked (l : Nat) : Statement (.laneLocked l) := all _
theorem laneLockLoss (l : Nat) : Statement (.laneLockLoss l) := all _
theorem versionSetReceive (l : Nat) (rx : LaneChars) : Statement (.versionSetReceive l rx) := all _
theorem idleSetReceive (l : Nat) (rx : LaneChars) : Statement (.idleSetReceive l rx) := all _
theorem packetStart (l : Nat) (phi : Nat) (chars : List Byte) (bad : List Nat) (viol : Nat) (ended : Bool) :
    Statement (.packetStart l phi chars bad viol ended) := all _
theorem packetVerdict (l : Nat) : Statement (.packetVerdict l) := all _
theorem passStreamTransmit (l : Nat) : Statement (.passStreamTransmit l) := all _
theorem linkTxQueue (acc : Access) (l : Nat) (v : Word64) : Statement (.linkTxQueue acc l v) := all _
theorem linkRetryTimeout (l : Nat) : Statement (.linkRetryTimeout l) := all _
theorem sequencerStep : Statement .sequencerStep := all _
theorem timerExpiry (k : Nat) : Statement (.timerExpiry k) := all _
theorem holdoffEnd : Statement .holdoffEnd := all _
theorem trigOutPulseEnd (j : Nat) : Statement (.trigOutPulseEnd j) := all _
theorem captureRecordWrite : Statement .captureRecordWrite := all _
theorem captureArmWrite (acc : Access) (v : Word64) : Statement (.captureArmWrite acc v) := all _
theorem captureArmEffect : Statement .captureArmEffect := all _
theorem stop (acc : Access) (v : Word64) : Statement (.stop acc v) := all _
theorem captureStopEffect : Statement .captureStopEffect := all _
theorem trigInEdge (i : Nat) (phi : Nat) (level : Bool) (held : Nat) : Statement (.trigInEdge i phi level held) := all _
theorem stuck (i : Nat) : Statement (.stuck i) := all _
theorem refreshEntry (m : Nat) (correctable : List Nat) (uncorrectable : List Nat) :
    Statement (.refreshEntry m correctable uncorrectable) := all _
theorem vaultHotEnter (m : Nat) (temp : Int) : Statement (.vaultHotEnter m temp) := all _
theorem vaultHotExit (m : Nat) (temp : Int) : Statement (.vaultHotExit m temp) := all _
theorem hotForceWrite (acc : Access) (p : Nat) (v : Word64) : Statement (.hotForceWrite acc p v) := all _
theorem lpddr6Recalibration (ch : Nat) : Statement (.lpddr6Recalibration ch) := all _
theorem open_ (h : KwnHdr) (b : OpenBody) : Statement (.open_ h b) := all _
theorem authResponse (h : KwnHdr) (sig : List Byte) : Statement (.authResponse h sig) := all _
theorem regRead (h : KwnHdr) (addr : Nat) (count : Nat) : Statement (.regRead h addr count) := all _
theorem regWrite (h : KwnHdr) (addr : Nat) (data : List Word64) : Statement (.regWrite h addr data) := all _
theorem memRead (h : KwnHdr) (addr : Nat) (len : Nat) : Statement (.memRead h addr len) := all _
theorem memWrite (h : KwnHdr) (addr : Nat) (data : List Byte) : Statement (.memWrite h addr data) := all _
theorem submit (h : KwnHdr) (descs : List (List Byte)) : Statement (.submit h descs) := all _
theorem doorbell (h : KwnHdr) (addr : Nat) (v : Word64) : Statement (.doorbell h addr v) := all _
theorem ack (h : KwnHdr) : Statement (.ack h) := all _
theorem kwananRtoExpiry (id : Nat) : Statement (.kwananRtoExpiry id) := all _
theorem standaloneAck (id : Nat) : Statement (.standaloneAck id) := all _
theorem idleClose (id : Nat) : Statement (.idleClose id) := all _
theorem close (acc : Access) (v : Word64) : Statement (.close acc v) := all _
theorem captureData : Statement .captureData := all _
theorem registerWrite (acc : Access) (addr : Nat) (v : Word64) : Statement (.registerWrite acc addr v) := all _
theorem rcRead (acc : Access) (addr : Nat) : Statement (.rcRead acc addr) := all _
theorem pageEnWrite (acc : Access) (page : Nat) (v : Word64) : Statement (.pageEnWrite acc page v) := all _
theorem blkReset (acc : Access) (page : Nat) : Statement (.blkReset acc page) := all _
theorem freeze (acc : Access) (page : Nat) (v : Word64) : Statement (.freeze acc page v) := all _
theorem evtForce (acc : Access) (page : Nat) (v : Word64) : Statement (.evtForce acc page v) := all _
theorem pageNotice (page : Nat) : Statement (.pageNotice page) := all _
theorem errHeadWrite (acc : Access) (page : Nat) (v : Word64) : Statement (.errHeadWrite acc page v) := all _
theorem deadlineWrite (acc : Access) (t : Nat) (v : Word64) : Statement (.deadlineWrite acc t v) := all _
theorem devFwiWrite (acc : Access) (v : Word64) : Statement (.devFwiWrite acc v) := all _
theorem healthConfirm (acc : Access) (v : Word64) : Statement (.healthConfirm acc v) := all _
theorem powerOn (k : StartChecks) : Statement (.powerOn k) := all _
theorem rstN (k : StartChecks) : Statement (.rstN k) := all _
theorem firmwareStart (majors : Nat) : Statement (.firmwareStart majors) := all _
theorem fwProtect (comp : Nat) : Statement (.fwProtect comp) := all _
theorem claim (id : Nat) : Statement (.claim id) := all _
theorem releaseMbx (id : Nat) : Statement (.releaseMbx id) := all _
theorem mailboxTimeout : Statement .mailboxTimeout := all _
theorem challenge (id : Nat) : Statement (.challenge id) := all _
theorem enrol (id : Nat) : Statement (.enrol id) := all _
theorem release (id : Nat) : Statement (.release id) := all _
theorem attest (id : Nat) : Statement (.attest id) := all _
theorem newIdentity (id : Nat) : Statement (.newIdentity id) := all _
theorem stage (acc : Access) (v : Word64) : Statement (.stage acc v) := all _
theorem stageDone (ok : Bool) : Statement (.stageDone ok) := all _
theorem activateAt (acc : Access) (v : Word64) : Statement (.activateAt acc v) := all _
theorem activate (acc : Access) (v : Word64) : Statement (.activate acc v) := all _
theorem cancel (acc : Access) (v : Word64) : Statement (.cancel acc v) := all _
theorem updateActivation : Statement .updateActivation := all _
theorem serviceResume : Statement .serviceResume := all _
theorem confirmTimeout : Statement .confirmTimeout := all _
theorem watchdog (core : Nat) : Statement (.watchdog core) := all _
theorem enter (acc : Access) (v : Word64) : Statement (.enter acc v) := all _
theorem exit (acc : Access) (v : Word64) : Statement (.exit acc v) := all _
theorem clockLoss (kind : Nat) (plain : Nat) : Statement (.clockLoss kind plain) := all _
theorem sensorSample (r : Reading) : Statement (.sensorSample r) := all _
theorem railSample (rail : Nat) (mv : Nat) (amps : Nat) (power : Nat) : Statement (.railSample rail mv amps power) := all _
theorem bistSliceStart : Statement .bistSliceStart := all _
theorem bistSliceEnd (sig : Word64) : Statement (.bistSliceEnd sig) := all _
theorem pwrPtArm (acc : Access) (v : Word64) : Statement (.pwrPtArm acc v) := all _
theorem powerPointBoundary : Statement .powerPointBoundary := all _
theorem powerPointResume : Statement .powerPointResume := all _
theorem mgResetCmd (k : StartChecks) (value : Nat) : Statement (.mgResetCmd k value) := all _
theorem linkUp (lp : Nat) : Statement (.linkUp lp) := all _
theorem killNDeassert : Statement .killNDeassert := all _
theorem clockLocked (kind : Nat) (plain : Nat) : Statement (.clockLocked kind plain) := all _
theorem toutPulseEnd (j : Nat) : Statement (.toutPulseEnd j) := all _
theorem vaultWriteCommit (m : Nat) : Statement (.vaultWriteCommit m) := all _
theorem snapshotTick : Statement .snapshotTick := all _
theorem stateUe (unit : Nat) (word : Nat) : Statement (.stateUe unit word) := all _
theorem lpddr6PatrolScrub (line : Nat) (correctable : List Nat) (uncorrectable : List Nat) :
    Statement (.lpddr6PatrolScrub line correctable uncorrectable) := all _
theorem ringCommandDone : Statement .ringCommandDone := all _
theorem mailboxCommandDone (ok : Bool) : Statement (.mailboxCommandDone ok) := all _
theorem blockResetDone (page : Nat) : Statement (.blockResetDone page) := all _
theorem rstNAssert : Statement .rstNAssert := all _

end Sys2Proof.Laws.Ranges
end

