-- ==== Sys2Proof/Tests/Slice0.lean ====
section
/-! SUPPORT. Witnesses: for each statement, and each clause of it, a state and operands that meet its hypotheses; and tests of the block
on small states with values from the manual's tables and examples. -/

open Sys2Proof Sys2Proof.Machine Sys2Proof.Stated

namespace Sys2Proof.Tests

set_option Elab.async false

/-! ### Small states -/

/-- The state with a core, and nothing else. -/
def st (c : Core) : State := { State.reset with core := c }

/-- Firmware through the privileged view, and through the unprivileged one. -/
def fw : Access := ⟨.priv, .firmware⟩
def user : Access := ⟨.unpriv, .firmware⟩

/-- Meadow 0 in region 0, which runs. -/
def run : Core := (Core.reset.setF (pMdw 0 + 0x80) 0 4 0).setRgn 0 { Rgn.idle with phase := .running }

/-- A token of tag 1 with a payload, and a queue that holds it. -/
def tok (p : Nat) : Token := { payload := BitVec.ofNat 512 p, tag := 1, set := false, poison := false, late := false, adm := 0 }
def q1 (p : Nat) : List Held := [⟨tok p, 0, 0⟩]

/-- The running region with one context in slot 0 of a cell and waiting tokens by port. -/
def cellSt (cell : Nat) (b : CtxBody) (held : List (Nat × List Held)) : State :=
  st { run with fab := { Fabric.empty with ctxs := [(cell * 8, ⟨b, [⟨0, 1, 0, []⟩], []⟩)],
                                           held := held.map fun (e : Nat × List Held) => (cell * 4 + e.1, e.2) } }

/-- An SFN, a MUL, a MEM, an STR and a TAP context. -/
def sfn (op : SfnOp) (dyn : Bool) : SfnCtx :=
  { op := op, mask := 255, code := .int8, mapping := .pow2, dynamic := dyn, shift := 0, scale := 0, zero := 0, stochastic := dyn, seed := 0,
    pwl := ⟨0, 0, [], []⟩ }
def mul (chain : Bool) : MulCtx :=
  { chain := chain, fmt := .int8, wfmt := .int8, dynamic := false, shift := 0, zero := 0, opScale := none, base := 0, stride := 1, phases := 2,
    first := 0, count := 4 }
def memc (op : MemOp) : MemCtx :=
  { op := op, base := 0, limit := 64, counter := false, start := 0, step := 0, field := 0, dly := 5, undo := false }
def strc (op : StrOp) (ports : List Nat) (groups : Bool) : StrCtx :=
  { op := op, ports := ports, groups := groups, windows := [4, 4, 4, 4], control := 0, gather := [], a := 1, b := 0, layer := 0, dwin := 1 }
def tapc (r : TapRole) : TapCtx := { role := r, region := 0, copy := 0, templates := [], record := true, txLane := none }

/-! ### Witnesses: cells -/

/-- Two-operand SFN operations have a token at both ports. -/
def sfnSt (op : SfnOp) (dyn : Bool) : State := cellSt 7 (.sfn (sfn op dyn)) [(0, q1 0x3F800000), (1, q1 0x40000000)]

theorem witness_SfnRuns : ∀ op ∈ ([.exp2, .log2, .rcp, .rsqrt, .sqrt, .tanh, .logistic, .pwl, .min8, .max8, .argmax8, .sort8, .sum8, .add2,
    .quant, .dequant, .leafMa, .leafMm, .combMa, .combMm, .param] : List SfnOp), ∃ x k ts,
    (sfnSt op false).core.sfnReady 7 op = some (x, k, ts) ∧ (sfnSt op false).core.early 7 x 0 (joinTok ts) = false := by
  intro op h
  simp only [List.mem_cons, List.not_mem_nil, or_false] at h
  rcases h with rfl | rfl | rfl | rfl | rfl | rfl | rfl | rfl | rfl | rfl | rfl | rfl | rfl | rfl | rfl | rfl | rfl | rfl | rfl | rfl | rfl <;>
    exact ⟨_, _, _, by rfl, by decide +kernel⟩

theorem witness_ConverterFires_dynamic : ∃ x k ts, (sfnSt .quant true).core.sfnReady 7 .quant = some (x, k, ts) ∧
    (sfnSt .quant true).core.early 7 x 0 (joinTok ts) = false ∧ k.dynamic = true ∧ k.stochastic = true :=
  ⟨_, _, _, by rfl, by decide +kernel⟩

theorem witness_MulFires : ∀ chain : Bool, ∃ x k ts,
    let s := cellSt 3 (.mul (mul chain)) [(0, q1 1), (1, q1 0)]
    s.core.mulReady 3 chain = some (x, k, ts) ∧ s.core.early 3 x 0 (joinTok ts) = false ∧
    s.core.mulSlot 3 k (joinTok ts).tag (joinTok ts).set < 256 ∧ k.first ≤ s.core.mulSlot 3 k (joinTok ts).tag (joinTok ts).set ∧
    s.core.mulSlot 3 k (joinTok ts).tag (joinTok ts).set < k.first + k.count
  | false => ⟨_, _, _, by rfl, by decide +kernel⟩
  | true => ⟨_, _, _, by rfl, by decide +kernel⟩

/-- The host has written the first line of a cell's memory in this fc. -/
def hostWrote (w : Bool) (s : State) : State :=
  if w then { s with core := { s.core with fab := { s.core.fab with wrB := [(aCell 2, 0)] } } } else s

theorem witness_MemReadsFire_delay : ∀ w : Bool, ∃ x k ts a, let s := hostWrote w (cellSt 2 (.mem (memc .delay)) [(0, q1 0)])
    s.core.memReady 2 .delay = some (x, k, ts) ∧ s.core.early 2 x 0 (joinTok ts) = false ∧
    delayLine k (((s.core.heldAt 2 0).head?.map (·.arr)).getD 0) = some a ∧
    (s.core.fab.wrB.any fun e => e.1 = aCell 2 + a) = w
  | false => ⟨_, _, _, 0, by rfl, by decide +kernel⟩
  | true => ⟨_, _, _, 0, by rfl, by decide +kernel⟩

theorem witness_MemReadsFire_read : ∃ x k ts a,
    let s := cellSt 2 (.mem (memc .read)) [(0, q1 63)]
    s.core.memReady 2 .read = some (x, k, ts) ∧ s.core.early 2 x 0 (joinTok ts) = false ∧
    s.core.memAddr 2 k (joinTok ts).set (joinTok ts).payload.toNat = some a ∧
    s.core.debugOn (s.core.cellRgn 2) (joinTok ts).set = false := ⟨_, _, _, 0, by rfl, by decide +kernel⟩

theorem witness_MemWriteStores : ∀ w : Bool, ∃ x k ts a,
    let s := hostWrote w (cellSt 2 (.mem (memc .write)) [(0, q1 7), (1, q1 0)])
    s.core.memReady 2 .write = some (x, k, ts) ∧ s.core.early 2 x 0 (joinTok ts) = false ∧
    s.core.memAddr 2 k (joinTok ts).set ((ts.getD 1 (joinTok ts)).payload.toNat) = some a ∧
    s.core.frozenAt (pMdw (cellMeadow 2) + 0xE0) = false ∧ (s.core.fab.wrB.any fun e => e.1 = aCell 2 + a) = w
  | false => ⟨_, _, _, 0, by rfl, by decide +kernel⟩
  | true => ⟨_, _, _, 0, by rfl, by decide +kernel⟩

/-- The state of an STR operation with two ports. -/
def strSt (op : StrOp) (groups : Bool) : State :=
  cellSt 1 (.str (strc op [0, 1, 2, 3] groups)) [(0, q1 0), (1, q1 0), (2, q1 0), (3, q1 0)]

theorem witness_StrRuns : ∀ e ∈ ([(.fork, false, 0), (.switch, false, 0), (.select, false, 0), (.gather, true, 0), (.gather, true, 1),
      (.align, false, 0), (.align, true, 1), (.renumber, false, 0), (.digest, false, 0)] : List (StrOp × Bool × Nat)), ∃ x k, ∃ toks : List (Nat × Token),
    kindOf 1 = .str ∧ (strSt e.1 e.2.1).core.strReady 1 e.2.2 e.1 = some (1, false) ∧
    (strSt e.1 e.2.1).core.strCtx 1 false = some (x, k) ∧ k.op = e.1 ∧ (strNeed k e.2.2).Nodup ∧
    ((strNeed k e.2.2).map fun p => (p, ((strSt e.1 e.2.1).core.strTok 1 p 1 false).map (·.tok))) =
      toks.map (fun (t : Nat × Token) => (t.1, some t.2)) ∧
    (strSt e.1 e.2.1).core.early 1 x (2 * e.2.2) (joinTok (toks.map (·.2))) = false := by
  intro e h
  simp only [List.mem_cons, List.not_mem_nil, or_false] at h
  rcases h with rfl | rfl | rfl | rfl | rfl | rfl | rfl | rfl | rfl
  · exact ⟨_, _, [(0, tok 0), (1, tok 0), (2, tok 0), (3, tok 0)], by decide +kernel, by decide +kernel, by rfl, by decide +kernel⟩
  · exact ⟨_, _, [(0, tok 0), (1, tok 0), (2, tok 0), (3, tok 0)], by decide +kernel, by decide +kernel, by rfl, by decide +kernel⟩
  · exact ⟨_, _, [(0, tok 0), (1, tok 0), (2, tok 0), (3, tok 0)], by decide +kernel, by decide +kernel, by rfl, by decide +kernel⟩
  · exact ⟨_, _, [(0, tok 0), (1, tok 0)], by decide +kernel, by decide +kernel, by rfl, by decide +kernel⟩
  · exact ⟨_, _, [(2, tok 0), (3, tok 0)], by decide +kernel, by decide +kernel, by rfl, by decide +kernel⟩
  · exact ⟨_, _, [(0, tok 0), (1, tok 0), (2, tok 0), (3, tok 0)], by decide +kernel, by decide +kernel, by rfl, by decide +kernel⟩
  · exact ⟨_, _, [(2, tok 0), (3, tok 0)], by decide +kernel, by decide +kernel, by rfl, by decide +kernel⟩
  · exact ⟨_, _, [(0, tok 0), (1, tok 0), (2, tok 0), (3, tok 0)], by decide +kernel, by decide +kernel, by rfl, by decide +kernel⟩
  · exact ⟨_, _, [(0, tok 0), (1, tok 0), (2, tok 0), (3, tok 0)], by decide +kernel, by decide +kernel, by rfl, by decide +kernel⟩

theorem witness_StrFires_merge : ∃ x k, let s := cellSt 1 (.str (strc .merge [1, 2] false)) [(2, q1 5)]
    kindOf 1 = .str ∧ s.core.mergeReady 1 = some (1, false) ∧ s.core.strCtx 1 false = some (x, k) ∧ k.op = .merge ∧
    ((strPorts k).filter fun q => (s.core.strTok 1 q 1 false).isSome).take 1 = [2] ∧ s.core.heldAt 1 2 = [⟨tok 5, 0, 0⟩] ∧
    s.core.early 1 x 0 (tok 5) = false := ⟨_, _, by decide +kernel, by decide +kernel, by rfl, by decide +kernel⟩

/-- A token that waits for partners past its window. -/
def orphSt : State :=
  { cellSt 1 (.str (strc .align [0, 1] false)) [(0, q1 0)] with
    core := (cellSt 1 (.str (strc .align [0, 1] false)) [(0, q1 0)]).core.modRgn 0 fun r => { r with sched := 9 } }

theorem witness_OrphanCounts : ∃ x k, orphSt.core.orphanReady 1 0 = some (x, k, 0, ⟨tok 0, 0, 0⟩) ∧
    (∀ set, orphSt.core.debugOn (orphSt.core.cellRgn 1) set = false) := ⟨_, _, by rfl, by decide +kernel⟩

/-- A key map over vault 0, and a binary with it. -/
def km : KeyMap := { mask := 1, kind := 0, n := 32, eu := 16, pubWords := 0, blog := 4, rsv := 0, ringBase := 0, tableBase := 0 }
def report0 : Report :=
  { magic := 0, verMask := 0, verMinor := 0, tableId := 0, canonical := true, debug := false, hotClass := false, standing := true,
    flagsHi := 0, region := 0, copies := 1, ii := 4, lat := 100, dDef := 10, keyBudget := 0, keyRateN := 0, keyRateW := 0, sections := 1,
    set := false, zero35 := 0, cells := [], meadows := [0], coresident := 0, zero72 := 0, tables := [] }
def bin0 : Binary :=
  { report := report0, mem := [], weight := [], vault := [], port := [], scan := [], section_ := [], images := [], weights := [],
    memInit := [], keyMap := some km, programs := [], templates := [], sources := [0], tracks := [] }

/-- The state with that binary in set A of region 0. -/
def keyed (s : State) : State := { s with core := s.core.modRgn 0 fun r => { r with bins := [some ⟨bin0, 0, 0, false⟩, none] } }

/-- A token on its way to a cell and port. -/
def flySt (dst : Nat) : State :=
  { cellSt 8 (.key { j := 0, copy := 0, fireOff := 4, ops := [], entries := [], deferred := [], views := [] }) [] with
    core := (let c := (cellSt 8 (.key { j := 0, copy := 0, fireOff := 4, ops := [], entries := [], deferred := [], views := [] }) []).core
             { c with fab := { c.fab with fly := [⟨tok 0, 0, 0, 3, dst, 0⟩] } }) }

/-- An iteration of tag 1 with a home. -/
def iter1 (h : KeyHome) : Iter :=
  { tag := 1, set := false, copy := 0, word := 0, src := 0, n := 0, tick := 5, relFc := 0, relSched := 0, relStall := 0, deps := [],
    fate := .pending, final := false, late := false, poison := false, slot := 0, home := h, status := none, undone := false }

/-- A state whose region 0 holds one iteration. -/
def withIter (s : State) (i : Iter) : State := { s with core := s.core.modRgn 0 fun r => { r with iters := [i] } }

theorem witness_TokenArrives_joins : ∀ dst ∈ [7, 1], (flySt dst).core.fab.fly[0]? = some ⟨tok 0, 0, 0, 3, dst, 0⟩ ∧
    (flySt dst).core.mayArrive ⟨tok 0, 0, 0, 3, dst, 0⟩ = true ∧ (flySt dst).core.debugOn 0 false = false ∧
    ((kindOf dst ≠ .str ∧ kindOf dst ≠ .key) ∨ (kindOf dst = .str ∧ ((1 : Tag), false) ∉ Store.get (flySt dst).core.fab.orphans [] dst)) ∧
    ((flySt dst).core.heldAt dst 0).length < portRoom dst := by decide +kernel

theorem witness_TokenArrives_owner : ∃ it, kindOf 8 = .key ∧
    ((withIter (keyed (flySt 8)) (iter1 (.ring 0 3))).core.rgn 0).iter 1 false = some it ∧
    (withIter (keyed (flySt 8)) (iter1 (.ring 0 3))).core.mayArrive ⟨tok 0, 0, 0, 3, 8, 0⟩ = true ∧
    (withIter (keyed (flySt 8)) (iter1 (.ring 0 3))).core.keyOwns 8 it = true := ⟨_, by decide +kernel, by rfl, by decide +kernel⟩

theorem witness_TokenArrives_drops : ∃ it, kindOf 8 = .key ∧
    ((withIter (keyed (flySt 8)) (iter1 (.ring 1 3))).core.rgn 0).iter 1 false = some it ∧
    (withIter (keyed (flySt 8)) (iter1 (.ring 1 3))).core.keyOwns 8 it = false := ⟨_, by decide +kernel, by rfl, by decide +kernel⟩

/-- A token late by some cycles, from cell 3, which its consumer is due to fire with. -/
def lateSt : State :=
  let s := withIter (cellSt 7 (.sfn (sfn .exp2 false)) []) (iter1 .null)
  { s with core := (let c := s.core
                    ({ c with fab := { c.fab with fly := [⟨tok 0, 0, 60, 3, 7, 0⟩],
                                                  ctxs := [(56, ⟨.sfn (sfn .exp2 false), [], [0]⟩)] } } : Core).modRgn 0 fun r =>
                      { r with sched := 50 }) }

theorem witness_StallsBegin : lateSt.core.rgnLive 0 = true ∧ ([⟨.cell 3, 1, false⟩] : List Overdue) ≠ [] ∧
    ([⟨.cell 3, 1, false⟩] : List Overdue).all (lateSt.core.overdue lateSt.mem 0) = true := by decide +kernel

/-- A region that has been stalled up to the limit. -/
def stalled : State := st (run.modRgn 0 fun r => { r with stall := [⟨.cell 3, 1, false⟩], stallLen := 2 ^ 32 })

theorem witness_StallsHalt : (stalled.core.rgn 0).stall ≠ [] ∧ stalled.core.getF (pFlt + 0xC0) 0 32 ≠ 0 ∧
    stalled.core.getF (pFlt + 0xC0) 0 32 ≤ (stalled.core.rgn 0).stallLen ∧
    (stalled.core.rgn 0).phase ≠ .halted := by decide +kernel

/-! ### Witnesses: TAP and KEY cells, rings -/

/-- A TAP of a role with one token, and an iteration for it. -/
def tapSt (r : TapRole) : State := withIter (cellSt 0 (.tap (tapc r)) [(0, q1 9)]) (iter1 .null)

theorem witness_TapFires_ingress : ∃ x k ts, (tapSt .ingress).core.tapReady 0 .ingress = some (x, k, ts) ∧
    (tapSt .ingress).core.early 0 x 0 (joinTok ts) = false := ⟨_, _, _, by rfl, by decide +kernel⟩

/-- Capture runs with channel 7 open for every region. -/
def capImage : List Byte := List.replicate 8 0 ++ [0, 0xFF] ++ List.replicate 16 0xFF ++ List.replicate 2022 0
def capOn (s : State) : State := { s with core := { s.core with cap := { Cap.idle with running := true, image := capImage } } }

theorem witness_TapFires_capture : ∃ x k ts i, let s := capOn (tapSt .capture)
    s.core.tapReady 0 .capture = some (x, k, ts) ∧ (s.core.rgn (s.core.cellRgn 0)).iter (joinTok ts).tag (joinTok ts).set = some i ∧
    s.core.early 0 x 0 (joinTok ts) = false ∧ s.core.cellRgn 0 < 8 ∧ s.core.cap.running = true ∧ s.core.cap.stopped = false ∧
    s.core.cap.since ≤ i.tick ∧ s.core.cap.mode 7 ≠ 0 ∧ bit (fld s.core.cap.image 18 1) (s.core.cellRgn 0) = true :=
  ⟨_, _, _, _, by rfl, by rfl, by decide +kernel⟩

theorem witness_TapFires_result : ∃ x k ts i, (tapSt .result).core.tapReady 0 .result = some (x, k, ts) ∧
    ((tapSt .result).core.rgn k.region).iter (joinTok ts).tag (joinTok ts).set = some i ∧
    (tapSt .result).core.early 0 x 0 (joinTok ts) = false ∧ (tapSt .result).core.cellRgn 0 < 16 := ⟨_, _, _, _, by rfl, by rfl, by decide +kernel⟩

/-- Meadow 0 held by the SECTION task in entry 2. -/
def taskTap : State :=
  { tapSt .result with
    core := (let c := (tapSt .result).core
             ({ c.setF (pMdw 0 + 0x80) 0 4 0xF with task := { c.task with holders := [(0, 2)] } } : Core).setRgn 18
               { Rgn.idle with phase := .running }) }

/-- The same with an OUT buffer in a memory cell of meadow 0, which another region holds. -/
def taskTapShut : State :=
  { taskTap with core := ({ taskTap.core with task := { taskTap.core.task with table := [(2, { Task.free with desc := List.replicate 56 0 ++ toLe 8 (aCell 258) })] } } : Core).setF (pMdw 1 + 0x80) 0 4 0 }

theorem witness_TapFires_task : ∀ e ∈ [(taskTap, false), (taskTapShut, true)], ∃ x k ts,
    e.1.core.tapReady 0 .result = some (x, k, ts) ∧ e.1.core.early 0 x 0 (joinTok ts) = false ∧ 16 ≤ e.1.core.cellRgn 0 ∧
    e.1.core.protected (fld (Store.get e.1.core.task.table Task.free (e.1.core.cellRgn 0 - 16)).desc 56 8 + 64 * (joinTok ts).tag.toNat) 64 = e.2 := by
  intro e h
  simp only [List.mem_cons, List.not_mem_nil, or_false] at h
  rcases h with rfl | rfl
  · exact ⟨_, _, _, by rfl, by decide +kernel⟩
  · exact ⟨_, _, _, by rfl, by decide +kernel⟩

/-- A KEY context of vault index 0. -/
def keyc : KeyCtx := { j := 0, copy := 0, fireOff := 0, ops := [], entries := [], deferred := [], views := [] }

/-- An event whose ring is local 3 of vault 0 waits at its KEY cell; its ring data is present. -/
def keySt : State :=
  let s := withIter (cellSt 8 (.key keyc) [(0, q1 0), (1, q1 0)]) (iter1 (.ring 0 3))
  { s with core := ({ s.core with fab := { s.core.fab with fetched := [⟨0, 1, false, false, false⟩] } } : Core).modRgn 0 fun r =>
      { r with sched := 50, bins := [some ⟨bin0, 0, 0, false⟩, none] } }

theorem witness_KeyCellsFire_event : ∃ t i x k, keySt.core.keyReady 8 = some (t, i, x, k) ∧ keySt.core.early 8 x 0 t = false ∧
    (keySt.core.rgn (keySt.core.cellRgn 8)).resetWait = false := ⟨_, _, _, _, by rfl, by decide +kernel⟩

theorem witness_KeyCellsFire_deferred : ∃ t i x k, keySt.core.deferReady 8 = some (t, i, x, k) ∧ keySt.core.early 8 x 1 t = false ∧
    (keySt.core.rgn (keySt.core.cellRgn 8)).resetWait = false := ⟨_, _, _, _, by rfl, by decide +kernel⟩

theorem witness_KeyEventApplies : ∃ t i x k m f,
    keySt.core.keyReady 8 = some (t, i, x, k) ∧ i.home = .ring 0 3 ∧ keySt.core.keyMapOf (keySt.core.cellRgn 8) i.set = some m ∧
    (keySt.core.fab.fetched.find? fun f => f.rgn = keySt.core.cellRgn 8 && f.tag = i.tag && f.set = i.set) = some f ∧ f.poison = false ∧
    keySt.core.early 8 x 0 t = false ∧ (keySt.core.rgn (keySt.core.cellRgn 8)).resetWait = false ∧ keySt.core.ctxPoison 8 t.set = false ∧
    keySt.core.sep.frames = [] ∧ keySt.core.key.undo = [] ∧ keySt.core.key.snap = none ∧ i.deps = [] ∧ t.poison = false ∧
    keySt.core.frozenAt (pKey + 0x180) = false :=
  ⟨_, _, _, _, _, _, by rfl, by rfl, by rfl, by rfl, by decide +kernel⟩

/-- A lookup that waits at the KCACHE cell beside cell 8, with the ring's head line cached. -/
def cacheSt : State :=
  let c := keySt.core
  { keySt with core := { c with
      fab := { c.fab with ctxs := [(2 * 8, ⟨.mem (memc .kcache), [], []⟩), (8 * 8, ⟨.key keyc, [], []⟩)] }
      key := { c.key with lookups := [⟨8, 1, false, 0⟩],
                          cache := [(cacheKey 8 (8589959552 / 64), [8589959552])] } } }

/-- The one line that the event fetches. -/
theorem cache_line : cacheSt.core.fetchSet cacheSt.mem (cacheSt.core.cellRgn 8) (iter1 (.ring 0 3)) keyc = [8589959552] := by
  decide +kernel

theorem witness_RingDataMoves_cache : ∃ k i x y,
    (cacheSt.core.key.lookups.find? fun (e : Lookup) => e.cell / 16 = 2 / 16) = some ⟨8, 1, false, 0⟩ ∧ (cacheSt.core.ctx 2 false).body = .mem k ∧
    k.op = .kcache ∧ k.undo = false ∧ kindOf 2 = .mem ∧ (cacheSt.core.rgn (cacheSt.core.cellRgn 8)).iter 1 false = some i ∧
    cacheSt.core.keyCtx 8 false = some (x, y) ∧ cacheSt.core.fetchSet cacheSt.mem (cacheSt.core.cellRgn 8) i y ≠ [] ∧
    cacheSt.core.hasCache 8 false = true ∧
    (cacheSt.core.fetchSet cacheSt.mem (cacheSt.core.cellRgn 8) i y).all (cacheSt.core.cached 8) = true :=
  ⟨_, _, _, _, by rfl, by rfl, by decide +kernel, by decide +kernel, by decide +kernel, by rfl, by rfl, by decide +kernel, by decide +kernel, by
    rw [cache_line]; simp [Core.cached, cacheSt, Store.get]⟩

/-- A frame of a source that has ended, with its verdict. -/
def frame (src : Nat) (v : Option Bool) : Frame :=
  { src := src, num := 1, tStart := 0, bytes := [], cls := .data, prog := 0, pset := false, regions := 1, payOff := 0, payLen := 0, implied := none,
    uncorr := false, bads := [], walkOff := 0, walkCount := 0, walkDone := true, tLast := 0, tEnd := 0, verdict := v, resolved := [] }
def resolveSt : State :=
  let c := (run.modRgn 0 fun r => { r with bins := [some ⟨bin0, 0, 0, false⟩, none] })
  st { c with sep := { c.sep with frames := [frame 0 (some true)] }, clk := { c.clk with acc := 2 ^ 70 } }

theorem witness_RingDataMoves_resolve : ∃ f, let s := resolveSt
    (s.core.sep.frames.find? fun f => f.src % 64 = 0 && bit f.regions 0 && !f.resolved.contains 0) = some f ∧
    f.tEnd + nsN (aSrc f.src) + nsN (s.core.dFord 0) ≤ s.core.now ∧
    ((s.core.rgn 0).phase = .halted ∨ (((s.core.rgn 0).phase = .running ∨ (s.core.rgn 0).phase = .draining) ∧ s.core.safe = false ∧
      s.core.allBefore 0 (s.core.resolveSlot 0 f) = true)) ∧ f.verdict = some true ∧ (s.core.rgn 0).resetWait = false :=
  ⟨_, by rfl, by decide +kernel⟩

theorem witness_RingDataMoves_vault : let v : VRead := ⟨0, 0, [aVault 0 0], 1, false, 0⟩
    let s := st { run with fab := { Fabric.empty with vreads := [v] } }
    s.core.fab.vreads[0]? = some v ∧ v.due ≤ s.core.clk.vc := by decide +kernel

theorem witness_RingDataMoves_write : let w : VWrite := ⟨3, aVault 3 0, 7, none⟩
    ((st { run with fab := { Fabric.empty with vwrites := [w] } }).core.fab.vwrites.find? fun w => w.vault = 3) = some w ∧ w.wait = none := by decide +kernel

/-! ### Witnesses: frames, the Ford, ports, templates -/

/-- Port 0 enabled and up; the blocks of the port's and the Separator's pages enabled. -/
def up : Core := (((Core.reset.setF (pPort + 0x18) 0 1 1).setF (pSep + 0x18) 0 1 1).setF (pPort + 0x80) 2 8 1).setF (pPort + 0x88) 0 1 1

/-- A late device time. -/
def late (c : Core) : Core := { c with clk := { c.clk with acc := 2 ^ 70 } }

theorem witness_FrameStartKeepsFrame : (st up).core.lpUp 0 = true ∧ (st up).core.sep.frames = [] := by decide +kernel

theorem witness_FramesYieldEvents_fec : (st up).core.lpUp 0 = true := by decide +kernel

/-- A parser of fixed messages of 16 bytes, and a frame of one such message. -/
def prog16 : Program :=
  { hdrSkip := 0, maxMsg := 4, lenCtrl := 0, lenVal := 16, lenAdd := 0, typeOff := 0, typeCtrl := 0, ncase := 1,
    cases := [⟨0, true, 0, 0, 0, 0, 0⟩], extracts := [] }
def msgFrame : Frame := { frame 0 none with bytes := List.replicate 16 7, payLen := 16, walkDone := false, tEnd := 2 ^ 59 }
def evSt : State := st (let c := late up; { c with sep := { c.sep with frames := [msgFrame] }, progs := [(0, prog16)] })

theorem witness_FramesYieldEvents_event : ∃ k,
    (evSt.core.sep.frames.find? fun f => f.src = 0 && !f.walkDone) = some msgFrame ∧ evSt.core.progOf msgFrame = some prog16 ∧
    msgCase prog16 (slice msgFrame.bytes msgFrame.payOff msgFrame.payLen) 0 = some k ∧ k.emit = true ∧ msgShort prog16 k 16 = false ∧
    0 < msgFrame.payLen ∧ msgFrame.walkCount < prog16.maxMsg ∧ msgLen prog16 (slice msgFrame.bytes 0 16) 0 = (16 : Nat) ∧
    0 + 16 ≤ msgFrame.payLen ∧ msgFrame.payOff + 0 + 16 ≤ msgFrame.bytes.length ∧
    evSt.core.msgTime msgFrame (msgFrame.payOff + 0 + 16 - 1) + stage1 msgFrame ≤ evSt.core.now ∧ evSt.core.en pSep = true :=
  ⟨_, by rfl, by rfl, by rfl, by decide +kernel⟩

/-- A frame that has ended, whose verdict is due. -/
def endSt : State := st (let c := late up; { c with sep := { c.sep with frames := [frame 0 none] } })

theorem witness_VerdictArrives : (endSt.core.sep.frames.find? fun f => f.src = 0 && f.verdict.isNone) = some (frame 0 none) ∧
    endSt.core.verdictAt (frame 0 none) ≤ endSt.core.now ∧
    ({ frame 0 none with uncorr := true } : Frame).verdict.isNone = true ∧ frameGood { frame 0 none with uncorr := true } = false := by
  decide +kernel

/-- An event on its way, and one in the buffer, for region 0. -/
def ev : FordEv := { word := 0, regions := [0], src := 0, n := 0, tick := 0, late := false, poison := false, msg := 0, delta := 0 }
def inSt (n : Nat) : State :=
  st (let c := run; { c with sep := { c.sep with inbox := [ev] }, ford := { c.ford with buf := List.replicate n ev } })

theorem witness_FordBuffers : ∀ n ∈ [0, 4096], (inSt n).core.sep.inbox[0]? = some ev ∧ (inSt n).core.sep.inbox.take 0 = [] ∧
    (inSt n).core.safe = false ∧ (inSt n).core.sep.frames = [] ∧
    ((ev.regions.filter fun g => !((inSt n).core.rgn g).replay).filter fun g => (inSt n).core.takesEvent g ev.tick) ≠ [] ∧
    (inSt n).core.ford.buf.length = n := by decide +kernel

/-- Safe state. -/
def safeOf (c : Core) : Core := (c.setF aFltState 0 1 1).setF 0x88 0 3 5

theorem witness_FordBuffers_safe : let s := st (safeOf (inSt 0).core)
    s.core.sep.inbox[0]? = some ev ∧ s.core.sep.inbox.take 0 = [] ∧ s.core.safe = true ∧ s.core.frozenAt (pFlt + 0x118) = false := by
  decide +kernel

/-- A buffered event whose time has come, in a region with a binary. -/
def relSt : State :=
  st (let c := late (run.modRgn 0 fun r => { r with bins := [some ⟨bin0, 0, 0, false⟩, none] })
      { c with ford := { c.ford with buf := [ev] } })

theorem witness_FordReleases : ∃ l, relSt.core.binFor 0 ev.tick = some l ∧ relSt.core.fordReady 0 = some ev ∧
    (relSt.core.rgn 0).cursor = none ∧ relSt.core.fordAhead 0 ev = false := ⟨_, by rfl, by decide +kernel⟩

theorem witness_PortsAndLinks : fw.view = .priv ∧ user.view ≠ .priv ∧ (st up).core.getB (pPort + 0x88) 0 = true ∧
    (st up).core.lpOn 0 = true ∧ (∀ m ∈ [0, 1], (st (Core.reset.setF (pPort + 0x80) 2 8 m)).core.getF (pPort + 0x80) 2 8 = m) := by
  decide +kernel

/-- A staged write of entry 5 at tick 1000: a filter of kind 2 is well formed, one of kind 3 is not. -/
def stageSt (kind : Nat) : State := st ((Core.reset.setF (pSep + 0x80) 16 8 kind).wr (pSep + 0xC0) 1000)

theorem witness_FilterStaging : (∀ k ∈ [0, 3], fw.view = .priv ∧ (stageSt k).core.sep.pending = none ∧
      (stageSt k).core.lead200 ((stageSt k).core.rd (pSep + 0xC0)) = true) ∧
    filterOk (stageSt 0).core.stagedFilter = true ∧ filterOk (stageSt 3).core.stagedFilter = false := by decide +kernel

/-- A pending change whose tick has begun, long after which every frame of before has reached the Separator. -/
def pendSt : State :=
  st (let c := Core.reset
      { c with clk := { c.clk with acc := 2 ^ 16 * (2 ^ 54 + Core.reset.dRx) },
               sep := { c.sep with pending := some (5, [], 1000), pendingDone := true } })

theorem pend_now : pendSt.core.now = 2 ^ 54 + Core.reset.dRx := by
  show (2 ^ 16 * (2 ^ 54 + Core.reset.dRx) + 0 * _ / 88) / 2 ^ 16 = _
  rw [Nat.zero_mul, Nat.zero_div, Nat.add_zero, Nat.mul_div_cancel_left _ (by decide)]

theorem pend_started : pendSt.core.allStarted (1000 * nsN pendSt.core.tickP) = true := by
  have h : pendSt.core.dRx = Core.reset.dRx := rfl
  have hs : signed 32 (pendSt.core.getF (pTime + 0x210) 0 32) = 0 := by decide +kernel
  have hp : 1000 * nsN pendSt.core.tickP + nsN 58 ≤ 2 ^ 40 := by decide +kernel
  simp only [Core.allStarted, adjust, pend_now, h, hs, Bool.and_eq_true, decide_eq_true_eq]
  omega

theorem witness_FilterStaging_effect : pendSt.core.sep.pending = some (5, [], 1000) ∧ pendSt.core.tickBegun 1000 = true ∧
    pendSt.core.sep.pendingDone = true ∧ pendSt.core.allStarted (1000 * nsN pendSt.core.tickP) = true ∧
    ∀ f ∈ pendSt.core.sep.frames, f.walkDone = true ∨ 1000 ≤ pendSt.core.tickAt f.tStart := by
  refine ⟨rfl, ?_, rfl, pend_started, fun f h => absurd h (List.not_mem_nil)⟩
  have hp : 1000 * nsN pendSt.core.tickP ≤ 2 ^ 40 := by decide +kernel
  simp only [Core.tickBegun, pend_now, decide_eq_true_eq]
  omega

/-- A frame at the head of a port's queue, with the gate open or closed. -/
def tx : TxFrame := { rgn := 0, tag := 1, set := false, tap := 0, t := 3, image := List.replicate 60 0, early := false, start := 0 }
def txSt (gate : Nat) : State :=
  st (let c := ((late up).setF (pComp + 0x18) 0 1 1).setF aGate 0 3 (4 + gate); { c with comp := { c.comp with queues := [(0, [tx])] } })

theorem witness_FramesLeave : ∀ o ∈ [0, 1], ∃ t, (txSt o).core.mayStart 0 tx = some t ∧ Store.get (txSt o).core.comp.inProg [] 0 = [] ∧
    (txSt o).core.queue 0 = [tx] ∧ (txSt o).core.lpUp 0 = true ∧ (txSt o).core.en pComp = true ∧ t ≤ (txSt o).core.now ∧
    (txSt o).core.gateOpen = decide (o = 1) := by
  intro o h
  simp only [List.mem_cons, List.not_mem_nil, or_false] at h
  rcases h with rfl | rfl <;> exact ⟨_, by rfl, by decide +kernel⟩

/-- A checked result of a committed iteration. -/
def res : Result :=
  { rgn := 0, tap := 0, tag := 1, set := false, tok := tok 0, t := none, n := 0, tick := 0, src := 0, flags := 0, first := none, record := true,
    held := false, checked := true, prog := 0, wgt := 0, inDig := 0 }
def resSt : State :=
  withIter (st { late run with comp := { Core.reset.comp with results := [res] } }) { iter1 .null with fate := .committed, final := true }

theorem witness_FramesLeave_record : resSt.core.firstResult = some res ∧ resSt.core.flagsFinal res = true ∧
    resSt.core.earlierOpen res = false := by decide +kernel

/-- An armed cap of template 255 with PERIOD 10 and BURST 20. -/
def capSt : State := st (((Core.reset.setF (pComp + 0x400 + 8 * 255) 0 32 10).setF (pComp + 0x400 + 8 * 255) 32 16 20).setF (pComp + 0x400 + 8 * 255) 48 1 1)

theorem witness_CapsAndDeadlines : let r := pComp + 0x400 + 8 * 255
    let p := fun (v : Word64) => v.toNat % 2 ^ 32
    let b := fun (v : Word64) => v.toNat / 2 ^ 32 % 2 ^ 16
    State.reset.core.getB r 48 = false ∧ p 0x100000001 ≠ 0 ∧ b 0x100000001 ≠ 0 ∧
    capSt.core.getB r 48 = true ∧
    (capSt.core.getF r 0 32 ≤ p 0x140000000A ∧ b 0x140000000A ≤ capSt.core.getF r 32 16) ∧
    p 0x1400000009 < capSt.core.getF r 0 32 ∧ capSt.core.getF r 32 16 < b 0x150000000A ∧
    100 ≤ (100 : Word64).toNat % 2 ^ 16 ∧ (99 : Word64).toNat % 2 ^ 16 < 100 := by decide +kernel

/-- The gate with its OPEN, KILL and KILL_N bits. -/
def gateSt (v : Nat) : State := st (Core.reset.setF aGate 0 3 v)

theorem witness_EgressGate : fw.view = .priv ∧ bit (0 : Word64).toNat 1 = false ∧
    ((gateSt 4).core.getB aGate 2 = true ∧ (gateSt 4).core.getB aGate 1 = false ∧ (gateSt 4).core.safe = false) ∧
    (gateSt 0).core.getB aGate 2 = false ∧ (gateSt 6).core.getB aGate 1 = true ∧ (st (safeOf Core.reset)).core.safe = true ∧
    bit ((gateSt 4).core.cycGet aGate) 1 = false ∧ State.reset.core.pins.killN = true := by decide +kernel

/-! ### Witnesses: regions, binaries, the time unit -/

/-- Region 0 with its binary in a phase. -/
def rgnSt (p : Phase) : State :=
  st ((Core.reset.setF (pMdw 0 + 0x80) 0 4 0).setRgn 0 { Rgn.idle with phase := p, bins := [some ⟨bin0, 0, 0, false⟩, none] })

/-- The same with an undo record of region 0. -/
def undoSt (p : Phase) : State :=
  { rgnSt p with core := { (rgnSt p).core with key := { (rgnSt p).core.key with undo := [⟨8, 0, aVault 0 0, 0, [(0, 1)]⟩] } } }

theorem witness_RegionControl : fw.view = .priv ∧
    ((rgnSt .running).core.anchored 0 = some 0 ∧ ((rgnSt .running).core.rgn 0).phase = .running) ∧
    ((rgnSt .drained).core.anchored 0 = some 0 ∧ ((rgnSt .drained).core.rgn 0).phase = .drained ∧ (rgnSt .drained).core.lent 0 = [] ∧
      (rgnSt .drained).core.hasRecords 0 = false) ∧
    ((undoSt .halted).core.anchored 0 = some 0 ∧ ((undoSt .halted).core.rgn 0).phase = .halted ∧ (undoSt .halted).core.hasRecords 0 = true) ∧
    ((rgnSt .draining).core.fabricOn = true ∧ ((rgnSt .draining).core.rgn 0).phase = .draining ∧
      (rgnSt .draining).core.drainedNow 0 = true) := by decide +kernel

/-- Meadow 0 of the task pool, enabled. -/
def mdwSt : State := st (Core.reset.setF (pMdw 0 + 0x18) 0 1 1)

theorem witness_MeadowRegisters : fw.view = .priv ∧ 0 < mdwSt.core.meadows ∧ mdwSt.core.en (pMdw 0) = true ∧
    mdwSt.core.mayMove 0 (mdwSt.core.rgnField 0) = true ∧
    (∀ v ∈ [0, 7, 15], (v % 16 < 8 ∨ v % 16 = 15) ∧ mdwSt.core.mayMove 0 (v % 16) = true) ∧
    (∀ v ∈ [(8 : Nat), 14], 8 ≤ v % 16 ∧ v % 16 ≤ 14) ∧ mdwSt.core.fab.convNow = [] ∧ bit (0 : Word64).toNat 22 = false := by decide +kernel

/-- Region 0 runs with slot 1 loaded in its meadow, and slot 2 loading. -/
def sectSt : State := { rgnSt .running with core := { (rgnSt .running).core with fab := { Fabric.empty with loaded := [0, 1], loading := [2] } } }

theorem witness_SectionsSwitch : sectSt.core.rgnLive 0 = true ∧ (sectSt.core.rgn 0).pendSect = [] ∧ (sectSt.core.rgn 0).sched = 0 ∧
    (1 / 4 = b2n (sectSt.core.rgn 0).set ∧ sectSt.core.loadingIn 0 1 = [] ∧ sectSt.core.unloadedIn 0 1 = []) ∧
    (3 / 4 = b2n (sectSt.core.rgn 0).set ∧ sectSt.core.loadingIn 0 3 = [] ∧ sectSt.core.unloadedIn 0 3 ≠ []) ∧
    5 / 4 ≠ b2n (sectSt.core.rgn 0).set ∧ 0 * 8 + 2 ∈ sectSt.core.fab.loading ∧
    (sectSt.core.rgn (sectSt.core.rgnOf 0)).bin (4 ≤ 2) = some ⟨bin0, 0, 0, false⟩ := by decide +kernel

/-- A binary that passes every check for region 0, one with a wrong MAGIC, and a task binary. -/
def goodBin : Binary := { bin0 with report := { report0 with magic := 0x76746D70, verMask := 2, tableId := 1 }, keyMap := none }
def taskBin : Binary := { goodBin with report := { goodBin.report with region := 0xF, standing := false, lat := 0, meadows := [] } }
def loadSt : State := st ((Core.reset.setF (pMdw 0 + 0x80) 0 4 0).setF (pMdw 0 + 0x18) 0 1 1)

theorem witness_BinaryLoads : loadSt.core.loadCode 0 bin0 = 1 ∧
    ((taskBin.report.region = 0xF && !taskBin.report.standing) = true ∧ loadSt.core.loadCode 0xF taskBin = 0) ∧
    (loadSt.core.loadCode 0 goodBin = 0 ∧ (goodBin.report.region = 0xF && !goodBin.report.standing) = false ∧
      (loadSt.core.rgn 0).bins.length = 2) := by decide +kernel

theorem witness_TimeIsSteered : let s := State.reset
    fw.view = .priv ∧ incrOk 0x100000000 = true ∧ incrOk ((0 : Nat) : Int) = false ∧
    incrOk ((s.core.getF (pTime + 0xA0) 0 33 : Int) + signed 24 (5 * 2 ^ 24 + 1)) = true ∧ s.core.clk.slewLeft = 0 ∧
    s.core.getB aTStat 1 = false ∧ (st (s.core.setF aTStat 1 1 1)).core.getB aTStat 1 = true ∧
    (s.core.timeFree = true ∧ pairOk 0 = true) ∧ (st run).core.timeFree = false ∧ pairOk (10 ^ 9 * 2 ^ 16) = false := by decide +kernel

theorem witness_LaunchesAndDelays : let s := State.reset
    fw.view = .priv ∧ (0 = 0 ∨ 12 ≤ 0) ∧ 12 ≤ 12 ∧ 1000 ≤ 1000 ∧ (s.core.rgn 0).quiet = true ∧ ((st run).core.rgn 0).quiet = false ∧
    ((1 ≤ 1 ∧ 1 ≤ 11) ∧ (1 ≤ 11 ∧ 11 ≤ 11) ∧ 1000 < 1001) ∧
    (s.core.pins.launchArmed = [] ∧ s.core.key.pub = none ∧ s.core.key.pubArmed = [] ∧ s.core.sec.armedAt = none ∧ s.core.pwr.arm = none ∧
      (5 * 2 ^ 16) % 2 ^ 16 = 0 ∧ pairOk (5 * 2 ^ 16) = true) ∧
    s.core.valley < 1 ∧ ((st (late Core.reset)).core.valley ≠ 0 ∧ 1 ≤ (st (late Core.reset)).core.valley) := by decide +kernel

/-- A launch of region 0 armed at valley count 1, whose time has come, with and without a binary. -/
def launchSt (ready : Bool) : State :=
  let c := late (if ready then (rgnSt .idle).core else Core.reset)
  st { c.wr (pTime + 0x100) 1 with pins := { c.pins with launchArmed := [0] }, pwr := { c.pwr with resetStat := true } }

/-- The same with region 0 named in an armed barrier. -/
def launchBar : State := { launchSt true with core := (launchSt true).core.setF aBar 34 8 1 }

theorem witness_LaunchesAndDelays_launch : (∀ b : Bool, 0 ∈ (launchSt b).core.pins.launchArmed ∧
      (launchSt b).core.valleyDue ((launchSt b).core.rd (pTime + 0x100 + 8 * 0)) = true ∧ (launchSt b).core.launchable 0 = b ∧
      (launchSt b).core.barNames 0 = false) ∧
    0 ∈ launchBar.core.pins.launchArmed ∧ launchBar.core.valleyDue (launchBar.core.rd (pTime + 0x100 + 8 * 0)) = true ∧
    launchBar.core.barNames 0 = true := by decide +kernel

/-- TIN 0 selects every edge. -/
def tinSt : State := st (let c := Core.reset.setF (aTin 0) 0 3 7; { c with pins := { c.pins with tinFifo := [(1, [⟨5, 1, false⟩])] } })

theorem witness_TinPins : Store.get tinSt.core.pins.tin false 0 ≠ true ∧ tinSt.core.getB (aTin 0) 0 = true ∧
    (32 ≤ 32 ∧ edgeWanted (tinSt.core.getF (aTin 0) 1 2) true = true ∧ (Store.get tinSt.core.pins.tinFifo [] 0).length < 16) ∧
    (31 < 32 ∧ tinSt.core.frozenAt (pTime + 0x5E0 + 8 * 0) = false) ∧
    Store.get tinSt.core.pins.tinFifo [] 1 = [⟨5, 1, false⟩] := by decide +kernel

/-- TOUT 0 armed once with its instant passed, and TOUT 1 high until an instant that has passed. -/
def toutSt : State :=
  st (let c := late Core.reset
      { c with pins := { c.pins with touts := [(0, { Tout.off with mode := 1, width := 2 }), (1, { Tout.off with pulseEnd := some 5, level := true })] } })

theorem witness_ToutPins : let v : Nat := 1 + 2 * 8
    fw.view = .priv ∧ 2 ≤ v / 8 % 2 ^ 32 ∧ v % 4 = 1 ∧
    State.reset.core.now ≤ pairN (State.reset.core.rd (aTout 0)) (State.reset.core.rd (aTout 0 + 8)) / 2 ^ 13 * 2 ^ 13 ∧
    (1 + 1 * 8) / 8 % 2 ^ 32 < 2 ∧
    ((toutSt.core.tout 0).mode ≠ 0 ∧ (toutSt.core.tout 0).edgeAt (toutSt.core.tout 0).next ≤ toutSt.core.now) ∧
    ((toutSt.core.tout 1).pulseEnd = some 5 ∧ 5 ≤ toutSt.core.now) := by decide +kernel

/-- Lane 0 in Time mode, UP, with a marker sent and its instant kept. -/
def laneSt (mode : Nat) : Core := ((Core.reset.setF (aLane 0) 0 1 1).setF (aLane 0) 1 2 mode).setF (pPass + 0x108) 0 3 3
def mkRx : LaneChars := ⟨0, List.replicate 22 0 ++ [crc8 (List.replicate 22 0)]⟩

theorem witness_MarkersAndPtp : let s := st (laneSt 2)
    (s.core.laneMode 0 = 2 ∧ s.core.laneState 0 = 3 ∧ (s.core.lane 0).mkT1 = none) ∧
    (mkRx.viol = 0 ∧ mkRx.chars.length = 23 ∧ mkRx.chars.drop 22 = [crc8 (mkRx.chars.take 22)]) ∧
    (st up).core.portFree 0 = true ∧ (st { up with pins := { up.pins with txts := [⟨5, 0, false⟩] } }).core.pins.txts = [⟨5, 0, false⟩] := by
  decide +kernel

/-- A barrier armed at a root, and at a follower that waits for its release. -/
def barSt (root stat : Nat) : State := st (((laneSt 1).setF aBar 0 18 (1 + 1 * 2 + root * 2 ^ 17)).setF aBarStat 0 2 stat)

theorem witness_BarrierLaunches : let s := State.reset
    (fw.view = .priv ∧ bit 3 0 = true ∧ s.core.getF aBarStat 0 2 = 0 ∧ s.core.getF aBarStat 2 16 = 0 ∧ 3 / 2 % 2 ^ 16 ≠ 0) ∧
    (2 ≤ (barSt 1 1).core.laneState 0 ∧ (barSt 1 1).core.getB aBar 17 = true ∧ (barSt 1 1).core.getB aBar (1 + 0) = true) ∧
    (2 ≤ (barSt 0 2).core.laneState 0 ∧ (barSt 0 2).core.getB aBar 17 = false ∧ 0 = (barSt 0 2).core.getF (pTime + 0x230) 5 4 ∧
      ((barSt 0 2).core.getF aBarStat 0 2 = 1 ∨ (barSt 0 2).core.getF aBarStat 0 2 = 2)) ∧
    ((st { Core.reset with pins := { Core.reset.pins with barDue := some 0 } }).core.pins.barDue = some 0 ∧ 0 ≤ Core.reset.clk.fc) := by decide +kernel

/-! ### Witnesses: key commands, swaps, save and restore, replay -/

/-- Region 0, with an exact-match or a grouped key map, owns the key stage. -/
def kmx : KeyMap := { mask := 1, kind := 1, n := 32, eu := 1, pubWords := 0, blog := 10, rsv := 0, ringBase := 0x20000, tableBase := 0 }
def ownSt (k : KeyMap) (p : Phase) : Core :=
  ((((rgnSt p).core.setRgn 0 { Rgn.idle with phase := p, bins := [some ⟨{ bin0 with keyMap := some k }, 0, 0, false⟩, none] }).setF
    (pKey + 0x18) 0 1 1).setF (pKey + 0x80) 3 1 1).wr (pKey + 0xC0) 1000
def slotPd : SlotPend := ⟨aVault 0 0, [], List.replicate 16 7, 1000, false⟩
def slotSt (done : Bool) : State :=
  let c := late (ownSt kmx (if done then .running else .idle))
  st { c with key := { c.key with slotPend := some slotPd },
              ford := { c.ford with buf := if done then [ev] else [] } }

theorem witness_KeyConfigAndSlots : fw.view = .priv ∧
    ((st (ownSt kmx .idle)).core.slotAddr (setBits 0 25 2 1) = some (aVault 0 0) ∧ (st (ownSt kmx .idle)).core.key.slotPend = none ∧
      (st (ownSt kmx .idle)).core.lead200 ((st (ownSt kmx .idle)).core.rd (pKey + 0xC0)) = true) ∧
    (State.reset.core.slotAddr (setBits 0 25 2 1) = none ∧ (slotSt false).core.key.slotPend.isSome = true ∧
      State.reset.core.lead200 (State.reset.core.rd (pKey + 0xC0)) = false) ∧
    (st (ownSt kmx .idle)).core.slotAddr (setBits 0 25 2 2) = some (aVault 0 0) ∧
    (∀ b : Bool, (slotSt b).core.key.slotPend = some slotPd ∧ slotPd.done = false ∧ (slotSt b).core.tickBegun slotPd.tick = true ∧
      (slotSt b).core.eventBefore slotPd.tick = b) := by decide +kernel

/-- The owner of rings, idle or running, with a buffer in LPDDR6. -/
def kmg : KeyMap := { km with eu := 1, blog := 0 }
def ringSt (p : Phase) : State := st (((ownSt kmg p).wr (pKey + 0x98) lpmBase).setF (pLpm + 0x80) 0 2 1)
def ringCmdSt (p : Phase) (op : Nat) : State :=
  let c := late (ringSt p).core
  st { c with key := { c.key with ring := some ⟨op, kmRingAt kmg 0 3, lpmBase, 0⟩ } }

/-- The memories of these states are sound. -/
theorem sound_st (c : Core) : Sound (st c) := by unfold Sound; rfl

theorem witness_RingCommands : fw.view = .priv ∧ (ringSt .idle).core.getB (pKey + 0xA0) 0 = false ∧
    (ringSt .idle).core.keyMap = some kmg ∧ ringNamed kmg (setBits 3 28 2 1) = some (0, 3) ∧ ringNamed kmg (setBits 3 28 2 2) = some (0, 3) ∧
    (∀ b : Bool, (ringSt .idle).core.ringBufOk b = true) ∧ (ringSt .idle).core.ownerBusy = false ∧
    (ringSt .running).core.ringBufOk true = true ∧ (ringSt .running).core.ownerBusy = true ∧
    (ringSt .running).core.keyMap = some kmg ∧
    (∀ op ∈ [1, 2], (ringCmdSt .idle op).core.key.ring = some ⟨op, kmRingAt kmg 0 3, lpmBase, 0⟩ ∧ (ringCmdSt .idle op).core.keyMap = some kmg ∧
      (ringCmdSt .idle op).core.ownerBusy = false ∧ 0 + nsN 10000 ≤ (ringCmdSt .idle op).core.now) := by decide +kernel

def snap0 (c : Bool) : Snap := { tick := 1000, dst := lpmBase, task := 0, copying := c, saved := [], undo := [], bank := 0, flip := 0 }
def snapSt (c : Bool) : State := let d := late (ownSt kmg .idle); st { d with key := { d.key with snap := some (snap0 c) } }

theorem witness_SnapshotsCopy : ((snapSt false).core.key.snap = some (snap0 false) ∧ (snap0 false).copying = false ∧
      (snapSt false).core.tickBegun (snap0 false).tick = true) ∧
    ((snapSt true).core.key.snap = some (snap0 true) ∧ (snapSt true).core.keyMap = some kmg ∧ (snap0 true).copying = true ∧
      (snapSt true).core.snapSettled (snap0 true) = true) := by decide +kernel

/-- Region 0 with binaries in both sets; a swap armed for it, seamless or not; one that holds for its old set. -/
def twoBin (p : Phase) : Core :=
  ((late Core.reset).setF (pMdw 0 + 0x80) 0 4 0).setRgn 0 { Rgn.idle with phase := p, bins := [some ⟨bin0, 0, 0, false⟩, some ⟨bin0, 0, 0, false⟩] }
def swapSt (p : Phase) (sl : Nat) : State := st { twoBin p with swapArmed := some (1000, 1, sl) }
def holdSt : State := st ((twoBin .idle).modRgn 0 fun r => { r with swapHold := some 5 })
/-- A swap armed for a region whose earlier one is still under way. -/
def nextSt : State := st { holdSt.core with swapArmed := some (1000, 1, 0) }

theorem witness_SwapsTakeEffect : fw.view = .priv ∧
    (st { twoBin .idle with clk := Core.reset.clk, fab := { Fabric.empty with loaded := [0, 1, 2, 3, 4, 5, 6, 7] } }).core.swapOk 1000 1 = true ∧
    State.reset.core.swapOk 0 1 = false ∧
    (∀ p ∈ [Phase.halted, .running], ∀ sl ∈ [0, 1], (swapSt p sl).core.swapArmed = some (1000, 1, sl) ∧
      (swapSt p sl).core.tickBegun 1000 = true ∧ ((swapSt p sl).core.rgn 0).phase = p) ∧ bit 1 1 = false ∧ bit 1 0 = true ∧
    ((nextSt.core.swapArmed = some (1000, 1, 0) ∧ nextSt.core.tickBegun 1000 = true ∧ (nextSt.core.rgn 0).phase ≠ .halted ∧
      (nextSt.core.rgn 0).swapHold.isSome = true) ∧ ((swapSt .running 0).core.rgn 0).swapHold = none) ∧
    (((holdSt.core.rgn 0).swapHold = some 5 ∧ holdSt.core.swapDrained 0 5 = true ∧
      (holdSt.core.rgn 0).bin (holdSt.core.rgn 0).set = some ⟨bin0, 0, 0, false⟩ ∧
      (holdSt.core.rgn 0).bin (!(holdSt.core.rgn 0).set) = some ⟨bin0, 0, 0, false⟩)) := by decide +kernel

/-- A save image of region 0 at the base of LPDDR6 that holds its header and, with SIZE 128, 64 bytes of zeros. -/
def saveHead (size : Nat) : List Byte := toLe 4 0x72766173 ++ List.replicate 52 0 ++ toLe 8 size
def restSt (size : Nat) : State :=
  { st ((rgnSt .idle).core.setF (pLpm + 0x80) 0 2 1) with mem := State.reset.mem.store lpmBase (saveHead size) }
/-- A drained region, with LPDDR6 trained or not. -/
def drSt (t : Nat) : State := st ((rgnSt .drained).core.setF (pLpm + 0x80) 0 2 t)

theorem witness_SavesAndRestores : fw.view = .priv ∧
    (∀ e ∈ [(1, true), (0, false)], (drSt e.1).core.anchored 0 = some 0 ∧ (drSt e.1).core.getB (aSave 0 + 8) 0 = false ∧
      ((drSt e.1).core.rgn 0).bin ((drSt e.1).core.rgn 0).set = some ⟨bin0, 0, 0, false⟩ ∧ ((drSt e.1).core.rgn 0).phase = .drained ∧
      (drSt e.1).core.swapIsArmed = false ∧ lpmBase % 2 ^ 48 % 4096 = 0 ∧
      (drSt e.1).core.inLpm lpmBase (64 + (saveBytes ((drSt e.1).core.ringMap 0) ((drSt e.1).core.saveOf (drSt e.1).mem 0 ⟨bin0, 0, 0, false⟩)).length) = e.2) ∧
    ((rgnSt .idle).core.anchored 0 = some 0 ∧ ((rgnSt .idle).core.rgn 0).phase ≠ .drained ∧ ((rgnSt .drained).core.rgn 0).phase ≠ .idle) ∧
    ((st { (rgnSt .drained).core with saving := [(0, 2, 1)] }).core.saving.find? fun e => e.1 = 0) = some (0, 2, 1) := by decide +kernel

theorem witness_SavesAndRestores_restore : ∀ e ∈ [(64, true), (128, false)],
    let s := restSt e.1
    let h := s.mem.read lpmBase 64
    s.core.anchored 0 = some 0 ∧ s.core.getB (aSave 0 + 8) 0 = false ∧ (s.core.rgn 0).phase = .idle ∧
      s.core.inLpm lpmBase 64 = true ∧ fld h 0 4 = 0x72766173 ∧ fld h 4 1 = 0 ∧ fld h 5 1 ≤ 1 ∧ 64 ≤ fld h 56 8 ∧
      s.core.inLpm lpmBase (fld h 56 8) = true ∧ (s.core.rgn 0).bin (fld h 5 1 = 1) = some ⟨bin0, 0, 0, false⟩ ∧
      fld h 8 8 = (0 : Word64).toNat ∧ fld h 16 8 = (0 : Word64).toNat ∧
      (saveBody ⟨bin0, 0, 0, false⟩ (s.mem.read (lpmBase + 64) (fld h 56 8 - 64))).isNone = e.2 ∧
      ((saveBody ⟨bin0, 0, 0, false⟩ (s.mem.read (lpmBase + 64) (fld h 56 8 - 64))).all fun b => b.rings.isEmpty) = true := by decide +kernel

/-- A DIGEST cell with an open window of one token. -/
def digSt : State :=
  let s := cellSt 1 (.str { strc .digest [0] false with dwin := 4 }) []
  { s with core := { s.core with fab := { s.core.fab with digs := [(8, { DigWin.fresh with count := 1 })], digFifo := [(3, [[1, 2]])] } } }

theorem witness_DigestRecords : ∃ x, digSt.core.digestCells 0 = [(1, 0, x)] ∧ fw.view = .priv ∧
    (Store.get digSt.core.fab.digs DigWin.fresh (1 * 8 + 0)).count ≠ 0 ∧
    Store.get digSt.core.fab.digNow 0 0 = 0 ∧ (Store.get digSt.core.fab.digFifo [] 0).length < 64 ∧ Store.get digSt.core.fab.digFifo [] 3 = [1, 2] :: [] :=
  ⟨{ strc .digest [0] false with dwin := 4 }, by decide +kernel⟩

/-- A replay of a number of records that begin with a byte. -/
def rplSt (kind count pos : Nat) : State :=
  { st ((((late Core.reset).wr (pSep + 0x148) lpmBase).wr (pSep + 0x150) count).wr aRplStat (1 + pos * 2 ^ 32)) with
    mem := State.reset.mem.store lpmBase [BitVec.ofNat 8 kind] }

theorem witness_ReplayRuns : let near := fun (s : State) => s.core.now - nsN (s.core.rd (pSep + 0x158))
    let r := fun (s : State) => s.mem.read (s.core.rd (pSep + 0x148) + 80 * s.core.getF aRplStat 32 32) 80
    (fw.view = .priv ∧ (∀ g, g < 8 → (State.reset.core.rgn g).quiet = true) ∧ bit (0 : Nat) 9 = false ∧ bit (0 : Nat) 8 = false ∧
      State.reset.core.getB aRplStat 0 = false) ∧
    ((rplSt 1 1 1).core.getB aRplStat 0 = true ∧ (rplSt 1 1 1).core.rd (pSep + 0x150) ≤ (rplSt 1 1 1).core.getF aRplStat 32 32) ∧
    ((rplSt 3 1 0).core.getF aRplStat 32 32 < (rplSt 3 1 0).core.rd (pSep + 0x150) ∧ fld (r (rplSt 3 1 0)) 0 1 ≠ 1 ∧
      fld (r (rplSt 3 1 0)) 0 1 ≠ 2) ∧
    ((rplSt 1 1 0).core.getF aRplStat 32 32 = 0 ∧ fld (r (rplSt 1 1 0)) 0 1 = 1 ∧
      nsN (aSrc (recSrc (r (rplSt 1 1 0)))) + unwrap (near (rplSt 1 1 0)) (recTs (r (rplSt 1 1 0))) +
        nsN ((rplSt 1 1 0).core.rd (pSep + 0x158)) ≤ (rplSt 1 1 0).core.now) := by decide +kernel

/-! ### Witnesses: capture and the sequencer -/

/-- A capture image that arms: MAGIC, major 1, no unit, counters of no unit, timers of one tick. -/
def armImage : List Byte :=
  toLe 4 0x6C696170 ++ toLe 2 2 ++ List.replicate 28 0 ++ [4] ++ List.replicate 541 0 ++
    (List.range 4).flatMap (fun _ => [0xFF, 0, 0, 0, 1, 0, 0, 0]) ++ (List.range 4).flatMap (fun _ => [1, 0, 0, 0, 0, 0, 0, 0])
def armSt : State :=
  { st (((((Core.reset.setF (pCap + 0x18) 0 1 1).setF (pCap + 0x80) 0 16 2).wr (pCap + 0x90) 1000).setF (pLpm + 0x80) 0 2 1)) with
    mem := State.reset.mem.store lpmBase armImage }

/-- An observation, and capture that runs with it in its queues. -/
def obs (kind : Nat) (d : List Byte) : Obs :=
  { kind := kind, tick := 5, cls := 1, idx := 0, ts := 0, rank := 0, rgn := 0, cell := 0, data := d, match_ := [], frame := 0, bad := false,
    final := some 0 }
def capCore (k : Cap) : Core := { late Core.reset with cap := k }
def capRun : Cap := { Cap.idle with running := true, image := capImage }

theorem witness_CaptureArmsAndStops : fw.view = .priv ∧
    (armSt.core.en pCap && (armSt.core.cap.state = 0 || armSt.core.cap.state = 3) && armSt.core.lead200 (armSt.core.rd (pCap + 0x90)) &&
      lpmBase % 64 = 0 && armSt.core.mapped false lpmBase 1024 &&
      !badImage (armSt.core.getF (pCap + 0x80) 0 16) (armSt.mem.read lpmBase 1024)) = true ∧ State.reset.core.en pCap = false ∧
    ((st (capCore { Cap.idle with armed := some (1000, []) })).core.cap.armed = some (1000, []) ∧
      (st (capCore { Cap.idle with armed := some (1000, []) })).core.tickBegun 1000 = true) ∧
    ((st (capCore { capRun with stopTick := some 1000 })).core.cap.stopTick = some 1000 ∧
      (st (capCore { capRun with stopTick := some 1000 })).core.tickBegun 1000 = true) := by decide +kernel

/-- The sequencer outside and in a hold-off. -/
def seqSt (h : Option (Option Nat)) : State := st (capCore { capRun with seqQ := [obs 8 []], holding := h })

theorem witness_SequencerSteps_obs : ∀ h ∈ [none, some none], (seqSt h).core.cap.running = true ∧ (seqSt h).core.cap.halted = false ∧
    ((seqSt h).core.cap.seqQ.filter (seqSt h).core.isFinal).length ≤ 65536 ∧
    (seqSt h).core.merged true (seqSt h).core.cap.seqQ = some (obs 8 []) ∧ (seqSt h).core.cap.nextTimed = none ∧
    (seqSt h).core.cap.holding = h := by decide +kernel

/-- More than 65,536 observations wait. -/
def seqFull : State := st (capCore { capRun with seqQ := List.replicate 65537 (obs 8 []) })

theorem witness_SequencerSteps_full : seqFull.core.cap.running = true ∧ seqFull.core.cap.halted = false ∧
    65536 < (seqFull.core.cap.seqQ.filter seqFull.core.isFinal).length := by
  refine ⟨rfl, rfl, ?_⟩
  have h : seqFull.core.isFinal (obs 8 []) = true := by decide +kernel
  have e : seqFull.core.cap.seqQ = List.replicate 65537 (obs 8 []) := rfl
  rw [e, List.filter_replicate_of_pos h, List.length_replicate]
  decide

/-- Timer 2 has expired, outside and in a hold-off; a timed hold-off has ended; a pulse of output 1 has ended. -/
def timSt (h : Option (Option Nat)) : State := st (capCore { capRun with timers := [none, none, some 5, none], holding := h })
def pulseSt : State := st { (capCore { capRun with pulses := [(1, 5)] }).setF (pCap + 0x148) 1 1 1 with fab := Fabric.empty }

theorem witness_SequencerSteps_timers : (∀ h ∈ [none, some none], (timSt h).core.timedDue 2 = some 5 ∧ (timSt h).core.cap.holding = h) ∧
    (st (capCore { capRun with holding := some (some 5) })).core.timedDue 4 = some 5 ∧
    ((pulseSt.core.cap.pulses.find? fun e => e.1 = 1) = some (1, 5) ∧ 5 ≤ pulseSt.core.now ∧ pulseSt.core.getB (pCap + 0x148) 1 = true) := by
  decide +kernel

/-- Capture of pins alone; a pail of some MiB with one record in the queue; a full merge buffer. -/
def pinRun (mode : Byte) : Cap := { capRun with image := List.replicate 9 0 ++ [mode] ++ List.replicate 1014 0 }
def pailSt (mib : Nat) (k : Cap) : State := st ((capCore { k with capQ := [obs 5 []] }).wr (pCap + 0xB0) mib)
def mergeFull : State := st (capCore { capRun with capQ := List.replicate 262145 (obs 8 []) })

theorem witness_Records_full : mergeFull.core.cap.running = true ∧ mergeFull.core.cap.stopped = false ∧
    2 ^ 23 < (mergeFull.core.cap.capQ.map fun (o : Obs) => 32 + ceilDiv (mergeFull.core.cap.cut o o.data).length 32 * 32).sum := by
  refine ⟨rfl, rfl, ?_⟩
  have e : mergeFull.core.cap.capQ = List.replicate 262145 (obs 8 []) := rfl
  have h : (32 + ceilDiv (mergeFull.core.cap.cut (obs 8 []) (obs 8 []).data).length 32 * 32) = 32 := by decide +kernel
  rw [e, List.map_replicate, List.sum_replicate, h]
  decide

theorem witness_Records : ∀ e ∈ [(0, false), (1, true)], let s := pailSt e.1 (pinRun 1)
    let k := s.core.cap
    s.core.cap.running = true ∧ s.core.cap.stopped = false ∧
    decide (2 ^ 23 < (k.capQ.map fun (o : Obs) => 32 + ceilDiv (k.cut o o.data).length 32 * 32).sum) = false ∧
    s.core.merged false k.capQ = some (obs 5 []) ∧ s.core.seqPassed (5 + k.pre + 1) = true ∧
    ((k.mode 5 = 2 && (5 : Nat) ≠ 9 && (5 : Nat) ≠ 10) && !k.inWindow 5) = false ∧
    s.core.pailFits (s.core.markRecord (obs 5 []) false).length = e.2 := by decide +kernel

theorem witness_Records_window : let k := (pailSt 1 (pinRun 2)).core.cap
    ((k.mode 5 = 2 && (5 : Nat) ≠ 9 && (5 : Nat) ≠ 10) && !k.inWindow 5) = true ∧
    (pailSt 1 (pinRun 2)).core.merged false k.capQ = some (obs 5 []) ∧ (pailSt 1 (pinRun 2)).core.seqPassed (5 + k.pre + 1) = true := by
  decide +kernel

/-- Trigger input 3 enabled with events on every edge, FILT 10 ns and STUCK_US 1. -/
def trigSt : State :=
  st (late (((Core.reset.setF (aTrig 3) 0 4 0xF).setF (aTrig 3) 5 4 10).setF (aTrig 3) 16 16 1))

theorem witness_TriggerPins : trigSt.core.getB aTrigStat 3 ≠ true ∧ trigSt.core.getB (aTrig 3) 0 = true ∧
    trigSt.core.getF (aTrig 3) 5 4 ≤ 10 ∧ edgeWanted (trigSt.core.getF (aTrig 3) 1 2) true = true ∧ trigSt.core.getB (aTrig 3) 3 = true ∧
    (2 ≤ 9 ∧ 9 < trigSt.core.getF (aTrig 3) 5 4 ∧ trigSt.core.frozenAt (pCap + 0x180 + 8 * 3) = false) ∧
    (trigSt.core.getF (aTrig 3) 16 16 ≠ 0 ∧ (st ((trigSt.core).setF (aTrig 3) 4 1 1)).core.getB aTrigStat 3 ≠
        (st ((trigSt.core).setF (aTrig 3) 4 1 1)).core.getB (aTrig 3) 4 ∧ trigSt.core.getB aTrigStat (8 + 3) = false ∧
      Store.get trigSt.core.pins.trigSince 0 3 + nsN (1000 * trigSt.core.getF (aTrig 3) 16 16) ≤ trigSt.core.now) := by decide +kernel

/-! ### Witnesses: tasks -/

/-- The task engine on: its page and EN, the service state, queues of 16 and a weight of 1 for queue 0. -/
def taskCore : Core :=
  ((((((((Core.reset.setF (pTask + 0x18) 0 1 1).setF (pTask + 0xC8) 18 1 1).setF 0x88 0 3 3).setF (pTask + 0x88) 0 48 lpmBase).setF
    (pTask + 0x88) 48 4 4).setF (pTask + 0xA0) 48 4 4).setF (pTask + 0xC0) 0 8 1).setF (pTask + 0x80) 0 16 2).setF (pLpm + 0x80) 0 2 1

/-- A descriptor: FORMAT 1, a kind, an entry with GEN 1, and ARGS from byte 32. -/
def desc (k e : Nat) (args : List Byte) : List Byte :=
  [1, BitVec.ofNat 8 k, 0, 0] ++ toLe 2 (e + 4096) ++ List.replicate 26 0 ++ (args ++ List.replicate 32 0).take 32

/-- A submission queue with one descriptor. -/
def subSt (d : List Byte) (tbl : Store Task) : State :=
  { st { taskCore.setF (pTask + 0x90) 0 12 1 with task := { Core.reset.task with table := tbl } } with mem := State.reset.mem.store lpmBase d }

theorem witness_TasksAreSubmitted : fw.view = .priv ∧ (st taskCore).core.service = true ∧
    (∀ d ∈ [desc 8 5 [], desc 0 5 []], (subSt d []).core.taskOn = true ∧
      (subSt d []).core.getF (pTask + 0x98) 0 12 % 2 ^ (subSt d []).core.getF (pTask + 0x88) 48 4 ≠
        (subSt d []).core.getF (pTask + 0x90) 0 12 % 2 ^ (subSt d []).core.getF (pTask + 0x88) 48 4) ∧
    ((subSt (desc 8 5 []) []).core.rejectCode (desc 8 5 []) = 0 ∧ (subSt (desc 0 5 []) []).core.rejectCode (desc 0 5 []) ≠ 0) ∧
    (let p := fun (s : TState) (st : Nat) => [(7, { Task.free with st := s, gen := 2, status := st })]
     let d := [1, 8, 0, 0] ++ toLe 2 (5 + 4096) ++ [1, 0] ++ toLe 2 (7 + 2 * 4096) ++ List.replicate 54 0
     (∀ x ∈ [p .running 0, p .done 0, p .done 1], (subSt d x).core.rejectCode d = 0) ∧
     ((dPreds d).filter fun q => ((subSt d (p .running 0)).core.taskAt q.1).st ≠ .done) ≠ [] ∧
     (((dPreds d).filter fun q => ((subSt d (p .done 1)).core.taskAt q.1).st ≠ .done) = [] ∧
       ((dPreds d).any fun q => ((subSt d (p .done 1)).core.taskAt q.1).st = .done && ((subSt d (p .done 1)).core.taskAt q.1).status ≠ 0) = true) ∧
     ((dPreds d).any fun q => ((subSt d (p .done 0)).core.taskAt q.1).st = .done && ((subSt d (p .done 0)).core.taskAt q.1).status ≠ 0) = false ∧
     dTolerate d = false) := by decide +kernel

/-- A READY task of a kind in entry 5, the next to be dispatched. -/
def rdy (c : Core) (k : Nat) (args : List Byte) : State :=
  st { c with task := { c.task with table := [(5, { Task.free with st := .ready, gen := 1, desc := desc k 5 args })] } }

/-- What Next asks, for states that decide it. -/
theorem next_of (s : State) (k : Nat) (h : s.core.nextTask s.mem = some (5, 0, 0)) (hk : dKind (s.core.taskAt 5).desc = k) : Next s 5 k :=
  ⟨⟨0, 0, h⟩, hk⟩

/-- A MOVE of 64 bytes in LPDDR6, one of 1 byte, and one into a meadow of region 0. -/
def mv (src dst n : Nat) : List Byte := toLe 8 src ++ toLe 8 dst ++ toLe 8 n
def moveOk (s : State) (src dst n : Nat) : Bool :=
  n % 64 = 0 && n ≤ 2 ^ 36 && s.core.moveOk src n && s.core.moveOk dst n && !overlaps src n dst n
def moveShutSt : State := rdy (taskCore.setF (pMdw 0 + 0x80) 0 4 0) 2 (mv lpmBase (aCell 2) 64)

theorem witness_Moves : Next (rdy taskCore 2 (mv lpmBase (lpmBase + 64) 64)) 5 2 ∧ Next (rdy taskCore 2 (mv lpmBase (lpmBase + 64) 1)) 5 2 ∧
    Next moveShutSt 5 2 :=
  ⟨next_of _ _ (by decide +kernel) (by decide +kernel), next_of _ _ (by decide +kernel) (by decide +kernel),
   next_of _ _ (by decide +kernel) (by decide +kernel)⟩

theorem witness_Moves_ranges : moveOk (rdy taskCore 2 []) lpmBase (lpmBase + 64) 1 = false ∧ moveOk moveShutSt lpmBase (aCell 2) 64 = true ∧
    moveShutSt.core.moveShut (aCell 2) 64 = true ∧ moveOk (rdy taskCore 2 []) lpmBase (lpmBase + 64) 64 = true ∧
    (rdy taskCore 2 []).core.moveShut (lpmBase + 64) 64 = false := by decide +kernel

/-- A MOVE of 64 bytes that runs. -/
def moveRun : State :=
  st { taskCore with task := { taskCore.task with
    table := [(5, { Task.free with st := .running, gen := 1, desc := desc 2 5 (mv lpmBase (lpmBase + 64) 64) })] } }

theorem witness_Moves_done : Sound moveRun ∧ (moveRun.core.taskAt 5).st = .running ∧ dKind (moveRun.core.taskAt 5).desc = 2 ∧
    (moveRun.core.taskAt 5).finish = none ∧ moveRun.core.task.waiting = [] ∧ moveRun.core.flt.slice = none :=
  ⟨sound_st _, by decide +kernel⟩

/-- A PUBLISH of one word to rings of a key map with two banks, at a valley count to come. -/
def kmp : KeyMap := { kmg with pubWords := 1 }
def pubCore (tbl : Bool) : Core :=
  let k := ownSt kmp .idle
  let c := ((((((((k.setF (pTask + 0x18) 0 1 1).setF (pTask + 0xC8) 18 1 1).setF 0x88 0 3 3).setF (pTask + 0xA0) 48 4 4).setF
    (pTask + 0xC0) 0 8 1).setF (pLpm + 0x80) 0 2 1).setF (pTask + 0xB0) 0 48 lpmBase).setF (pTask + 0xB0) 48 4 4)
  if tbl then c else { c with key := { c.key with pubArmed := [⟨9, 50, 50, 0, 0, 1, 0, 0, 0, true⟩] } }
def pb (v src first n : Nat) : List Byte := toLe 8 v ++ toLe 8 src ++ toLe 4 first ++ toLe 4 n

theorem witness_Publications : (∀ a ∈ [pb 5000 lpmBase 0 1, pb 5000 lpmBase 0 0], Next (rdy (pubCore true) 3 a) 5 3) ∧
    Next (rdy (pubCore false) 3 (pb 5000 lpmBase 0 1)) 5 3 := by
  refine ⟨?_, next_of _ _ (by decide +kernel) (by decide +kernel)⟩
  intro a h
  simp only [List.mem_cons, List.not_mem_nil, or_false] at h
  rcases h with rfl | rfl <;> exact next_of _ _ (by decide +kernel) (by decide +kernel)

theorem witness_Publications_ranges : let s := rdy (pubCore true) 3 (pb 5000 lpmBase 0 1)
    s.core.keyMap = some kmp ∧ ((0 : Nat) = 0 ∨ 2 ^ 20 < 0 + 0) ∧ 0 + 1 ≤ 2 ^ 20 ∧ kmp.pubWords ≠ 0 ∧ lpmBase % 8 = 0 ∧
    s.core.mapped false lpmBase (1 * 8 * kmp.pubWords) = true ∧
    (5000 < ({ s.core.task with plogV := 5001 } : TaskEng).plogV) ∧ s.core.task.plogV ≤ 5000 ∧ s.core.valleyDue 5000 = false ∧
    s.core.pubFree s.core.pubTarget = true ∧
    (rdy (pubCore false) 3 []).core.pubFree (rdy (pubCore false) 3 []).core.pubTarget = false := by decide +kernel

/-- A publication whose instant has come, written and not. -/
def pub0 (w : Bool) : Pub := ⟨9, 50, 50, 1, 0, 1, 0, 0, 0, w⟩
def flipSt (w : Bool) : State :=
  let c := late (pubCore true)
  st { c with key := { c.key with pubArmed := if w then [pub0 true] else [], pub := if w then none else some (pub0 false) } }

theorem witness_PublicationFlip : ∀ w : Bool, (flipSt w).core.pubDue = some (pub0 w) ∧ (pub0 w).bank < 2 ∧ (pub0 w).written = w ∧
    (flipSt w).core.mapped false ((flipSt w).core.getF (pTask + 0xB0) 0 48 + 64 * (flipSt w).core.plogTail) 64 = true := by decide +kernel

/-- A SECTION task waits with its binary at an address; what the binary is does not matter, for no meadow is held. -/
def secSt (a : Nat) : State :=
  rdy taskCore 1 (toLe 8 a ++ toLe 2 0 ++ toLe 2 0 ++ toLe 2 1 ++ toLe 2 0 ++ toLe 8 lpmBase ++ toLe 8 (lpmBase + 4096))

theorem sec_idle (s : State) (hb : ∀ x, x < s.core.meadows → s.core.meadowBusy x = false) (hk : dKind (s.core.taskAt 5).desc = 1)
    (hp : (s.core.rgn (16 + 5)).phase = .idle) : s.core.taskBusy s.mem 5 = false := by
  have h : ∀ x, s.core.meadowBusy x = false := by
    intro x
    by_cases hx : x < s.core.meadows
    · exact hb x hx
    · simp [Core.meadowBusy, hx]
  unfold Core.taskBusy
  simp only [hk, hp, if_true, ne_eq, not_true, decide_false, Bool.false_or]
  cases binAt s.mem (s.core.taskAt 5).desc with
  | none => rfl
  | some b => simp [h]

theorem sec_next (s : State) (hi : s.core.taskBusy s.mem 5 = false) (hk : dKind (s.core.taskAt 5).desc = 1)
    (hon : (!s.core.taskOn || s.core.cqFull || decide (s.core.task.waiting ≠ [])) = false)
    (ht : s.core.task.table = [(5, s.core.taskAt 5)]) (hr : (s.core.taskAt 5).st = .ready) (hq : dQueue (s.core.taskAt 5).desc = 0)
    (hr0 : s.core.task.roundQ = 0) (hn0 : s.core.task.roundN = 0) (hw : 0 < s.core.getF (pTask + 0xC0) (8 * 0) 8) : Next s 5 1 := by
  refine ⟨⟨0, 0, ?_⟩, hk⟩
  have hf : s.core.firstOf s.mem 0 = some 5 := by
    unfold Core.firstOf
    rw [ht]
    simp [hr, hq, hi, leastBy]
  unfold Core.nextTask
  rw [if_neg (by simpa using hon)]
  rw [show (9 : Nat) = 8 + 1 from rfl, List.range_succ_eq_map, List.findSome?_cons]
  simp only [hr0, hn0, Nat.zero_add, Nat.zero_mod, if_true]
  simp only [Nat.mul_zero] at hw
  simp [hw, hf]

theorem witness_Sections_next : ∀ e ∈ [(lpmBase, true), (0, false)],
    Next (secSt e.1) 5 1 ∧ (secSt e.1).core.binMapped ((secSt e.1).core.taskAt 5).desc = e.2 := by
  intro e h
  simp only [List.mem_cons, List.not_mem_nil, or_false] at h
  rcases h with rfl | rfl <;>
    exact ⟨sec_next _ (sec_idle _ (by decide +kernel) (by decide +kernel) (by decide +kernel)) (by decide +kernel) (by decide +kernel)
      (by decide +kernel) (by decide +kernel) (by decide +kernel) (by decide +kernel) (by decide +kernel) (by decide +kernel),
      by decide +kernel⟩

/-- A section whose inputs are all in and whose results are all out: the last one, and one before the last. -/
def overSt (last : Nat) : State :=
  st (({ taskCore with task := { Core.reset.task with
      table := [(5, { Task.free with st := .running, gen := 1, fed := 1,
                                     desc := desc 1 5 (toLe 8 0 ++ toLe 2 0 ++ toLe 2 last ++ toLe 2 1) })] } } : Core).setRgn 21
    { Rgn.idle with phase := .running })

theorem witness_SectionEnds : ∀ l ∈ [0, 1], (overSt l).core.sectionOver 5 = true ∧
    (((overSt l).core.taskAt 5).sect = fld ((overSt l).core.taskAt 5).desc 42 2 ↔ l = 0) := by decide +kernel

/-- Tasks of the other kinds. -/
def snapTask (t : Nat) : State := rdy (pubCore true) 5 (toLe 8 t ++ toLe 8 lpmBase)
def swapTask (a : Nat) : State := rdy taskCore 4 (toLe 8 a)
def capTask (ok : Bool) (a : Nat) : State :=
  let c := if ok then (((taskCore.setF (pCap + 0x18) 0 1 1).setF (pCap + 0x80) 0 16 2)) else taskCore
  { rdy c 6 (toLe 8 a ++ toLe 8 1000) with mem := State.reset.mem.store lpmBase armImage }
def testTask (p : Nat) (m : List Byte) : State := rdy (taskCore.setF (pPwr + 0x80) 0 2 p) 7 m
/-- The same on a part of 64 meadows. -/
def smallTask : State := rdy (taskCore.setF 0x80 16 3 2) 7 (List.replicate 16 0xFF)

theorem witness_OtherTasks : Next (swapTask 0) 5 4 ∧ Next (swapTask lpmBase) 5 4 ∧ Next (rdy taskCore 5 []) 5 5 ∧ Next (snapTask 1000) 5 5 ∧ Next (snapTask 0) 5 5 ∧
    Next (capTask true lpmBase) 5 6 ∧ Next (capTask false lpmBase) 5 6 ∧ Next (capTask true 0) 5 6 ∧ Next smallTask 5 7 ∧ Next (testTask 2 [6]) 5 7 ∧
    Next (testTask 0 [6]) 5 7 ∧ Next (rdy taskCore 8 []) 5 8 ∧ Next (rdy taskCore 9 []) 5 9 := by
  refine ⟨?_, ?_, ?_, ?_, ?_, ?_, ?_, ?_, ?_, ?_, ?_, ?_, ?_⟩ <;> exact next_of _ _ (by decide +kernel) (by decide +kernel)

theorem witness_OtherTasks_ranges : (rdy taskCore 5 []).core.keyMap = none ∧ (snapTask 1000).core.keyMap = some kmp ∧ lpmBase % 4096 = 0 ∧
    (snapTask 1000).core.mapped false lpmBase (64 + 2 ^ 20 * kmStride kmp) = true ∧ (snapTask 1000).core.lead200 1000 = true ∧
    (snapTask 0).core.lead200 0 = false ∧ (capTask true lpmBase).core.capArm (capTask true lpmBase).mem lpmBase 1000 ≠ none ∧
    (capTask false lpmBase).core.capArm (capTask false lpmBase).mem lpmBase 1000 = none ∧
    (capTask false lpmBase).core.mapped false lpmBase 1024 = true ∧ (capTask true 0).core.mapped false 0 1024 = false ∧
    (swapTask 0).core.binMapped ((swapTask 0).core.taskAt 5).desc = false ∧
    (swapTask lpmBase).core.binMapped ((swapTask lpmBase).core.taskAt 5).desc = true ∧
    (∃ x ∈ maskBits 128 (fld (smallTask.core.taskAt 5).desc 32 16), smallTask.core.meadows ≤ x) ∧
    (testTask 2 [6]).core.sliceOk = false ∧ (testTask 0 [6]).core.sliceOk = true ∧
    maskBits 128 (fld ((testTask 0 [6]).core.taskAt 5).desc 32 16) = 1 :: [2] ∧ (testTask 0 [6]).core.flt.slice = none ∧
    ((testTask 0 [6]).core.taskAt 5).finish = none := by decide +kernel

/-- A task in a state; the one of entry 6 is older. -/
def inTask (s6 : TState) (t : Task) : State :=
  st { taskCore with task := { Core.reset.task with table := [(5, { t with gen := 1, seq := 1 }), (6, { Task.free with st := s6 })] } }
def doneSt : State := st ((inTask .done { Task.free with st := .done }).core.setRgn 21 { Rgn.idle with phase := .halted, g0 := 1 })

theorem witness_TasksEnd : (∀ f ∈ [some stOk, none], ∀ s6 ∈ [TState.done, .running],
      let s := inTask s6 { Task.free with st := .running, finish := f, desc := desc 8 5 [] }
      (s.core.taskAt 5).st = .running ∧ s.core.flt.slice = none ∧ (s.core.taskAt 5).finish = f ∧ dKind (s.core.taskAt 5).desc = 8 ∧
      s.core.fenceOpen (s.core.taskAt 5) = decide (s6 = .done)) ∧
    fw.view = .priv ∧ taskCore.service = true ∧
    (∀ x ∈ [TState.waiting, .ready, .running, .free, .done], ((inTask .done { Task.free with st := x, desc := desc 2 5 [] }).core.taskAt 5).gen =
        (5 + 4096) / 4096 % 16 ∧ ((inTask .done { Task.free with st := x, desc := desc 2 5 [] }).core.taskAt 5).st = x ∧
        dKind ((inTask .done { Task.free with st := x, desc := desc 2 5 [] }).core.taskAt 5).desc = 2) ∧
    ((doneSt.core.rgn 21).phase = .halted ∧ (doneSt.core.rgn 21).g0 = (5 + 4096) / 4096 % 16 ∧ (doneSt.core.taskAt 5).st = .done) := by
  decide +kernel

/-! ### Witnesses: lanes, memories, the census -/

/-- Lane 0 in a state and mode. -/
def lane (mode stt : Nat) : Core := (laneSt mode).setF (pPass + 0x108) 0 3 stt

/-- A version set with its CRC, seen twice before or not. -/
def verRx : LaneChars := ⟨0, [2, 0, 0] ++ [crc8 [2, 0, 0]]⟩
def verSt (n : Nat) : State := st { lane 0 2 with lanes := [(0, { Lane.off with adverts := List.replicate n [2, 0, 0] })] }

theorem witness_LanesComeUp : fw.view = .priv ∧ (st (lane 0 1)).core.laneState 0 = 1 ∧ 2 ≤ (st (lane 0 2)).core.laneState 0 ∧
    (verRx.viol = 0 ∧ verRx.chars.length = 4 ∧ verRx.chars.drop 3 = [crc8 (verRx.chars.take 3)]) ∧
    (let adv := splice (verRx.chars.take 3) 2 [BitVec.ofNat 8 (fld verRx.chars 2 1 % 4)]
     (verSt 2).core.laneState 0 = 2 ∧ ((verSt 2).core.lane 0).adverts.head? = some adv ∧ 2 ≤ ((verSt 2).core.lane 0).adverts.length ∧
     ((verSt 0).core.lane 0).adverts.head? ≠ some adv) := by decide +kernel

/-- A Stream and a Link packet of lane 0 without a verdict; the Link packet is good and next in sequence. -/
def pktBytes : List Byte := [2, 0, 4, 0, 9, 9, 9, 9] ++ toLe 4 (crc32 [2, 0, 4, 0, 9, 9, 9, 9]).toNat
def pkt (c : FrameClass) : Frame := { frame 8 none with cls := c, bytes := pktBytes }
def pktSt (c : FrameClass) (room : Nat) : State :=
  let d := late (((lane 1 3).setF (aLane 0 + 0x10) 48 5 room).setF (aLane 0 + 0x10) 0 48 lpmBase)
  st { d with sep := { d.sep with frames := [pkt c] } }

/-- Packets kept for retransmission, resent n times. -/
def linkSt (n : Nat) : State := st { late (lane 1 3) with lanes := [(0, { Lane.off with unacked := [⟨6, [1], true⟩, ⟨7, [2], true⟩], resends := n })] }
def idleRx : LaneChars := ⟨0, [0, 7] ++ [crc8 [0, 7]]⟩

/-- A result that waits for lane 0. -/
def laneRes : LaneRes := ⟨0, 1, false, 5, [0]⟩
def streamSt : State := st { lane 0 3 with lanes := [(0, { Lane.off with txq := [laneRes] })] }

theorem witness_PacketsPass : ((st (lane 0 3)).core.laneState 0 = 3 ∧ (st (lane 0 3)).core.sep.frames = [] ∧ (st (lane 0 3)).core.laneMode 0 = 0) ∧
    (∀ c ∈ [FrameClass.data, .control], ((pktSt c 12).core.sep.frames.find? fun f => f.src = 8 + 0 && f.verdict.isNone) = some (pkt c) ∧
      (pkt c).tEnd ≤ (pktSt c 12).core.now ∧ (pktSt c 12).core.laneMode 0 = 1) ∧
    (packetGood 1 (pkt .control) && fld pktBytes 1 1 = (((pktSt .control 12).core.lane 0).rxSeq + 1) % 256 &&
      ceilDiv (slice pktBytes 4 4).length 64 ≤ (pktSt .control 12).core.rxFree 0) = true ∧
    decide (ceilDiv (slice pktBytes 4 4).length 64 ≤ (pktSt .control 6).core.rxFree 0) = false ∧
    ((linkSt 0).core.laneState 0 = 3 ∧ (linkSt 0).core.laneMode 0 = 1 ∧ idleRx.viol = 0 ∧ idleRx.chars.length = 3 ∧
      idleRx.chars.drop 2 = [crc8 (idleRx.chars.take 2)] ∧ bit (fld idleRx.chars 0 1) 1 = false ∧
      (((linkSt 0).core.lane 0).unacked.findIdx? fun p => p.seq = fld idleRx.chars 1 1) = some 1) ∧
    (∀ n ∈ [15, 16], (linkSt n).core.laneSends 0 = true ∧ ((linkSt n).core.lane 0).unacked ≠ [] ∧
      ((linkSt n).core.lane 0).since + nsN 2000 ≤ (linkSt n).core.now ∧ ((linkSt n).core.lane 0).resends = n) ∧
    (streamSt.core.laneSends 0 = true ∧ streamSt.core.laneMode 0 = 0 ∧
      leastBy (fun (a b : LaneRes) => lexLe a.order b.order) (streamSt.core.lane 0).txq = some laneRes ∧
      streamSt.core.fateOf 0 1 false = .committed) := by decide +kernel

theorem witness_PacketsPass_queue : let s := st ((lane 1 3).setF (pLpm + 0x80) 0 2 1)
    fw.view = .priv ∧ s.core.laneMode 0 = 1 ∧ s.core.laneState 0 ≠ 0 ∧
    (1 ≤ 1 ∧ 1 ≤ 32 ∧ lpmBase % 64 = 0 ∧ (s.core.lane 0).unacked.length < 64 ∧ lpmBase ≤ lpmBase ∧ s.core.mapped true lpmBase (64 * 1) = true) ∧
    s.core.laneSends 0 = true := by decide +kernel

/-- Vault 3: hot, cooling since 0, and neither. -/
def vltSt (hot : Bool) : State :=
  let c := late Core.reset
  st { c with pwr := { c.pwr with sensorHot := if hot then [3] else [], coolSince := if hot then [(3, 0)] else [] }, clk := { c.clk with vc := 31 } }

theorem witness_MemoriesAreServed : 3 < (vltSt true).core.meadows ∧ (1360 : Int) < 1361 ∧ (1311 : Int) < 1312 ∧
    (((vltSt true).core.pwr.coolSince.find? fun e => e.1 = 3) = some (3, 0) ∧ 0 + nsN 1000000 ≤ (vltSt true).core.now) ∧
    ((vltSt false).core.pwr.coolSince.find? fun e => e.1 = 3) = none ∧ fw.view = .priv ∧ 0 < State.reset.core.plains ∧
    ((vltSt true).core.clk.vc % 32 = 31 ∧ Store.get (vltSt true).core.fab.refresh 0 (1024 + 3) ≠ (vltSt true).core.clk.vc + 1) ∧
    (∀ b ∈ [0, 1], (st ((vltSt true).core.setF (aVltCfg 0) 0 1 b)).core.getB (aVltCfg (3 / 32)) 0 = decide (b = 1)) ∧
    (let s := st ((((Core.reset.setF (pLpm + 0x80) 8 1 1).setF (pLpm + 0x80) 2 1 1).setF (pLpm + 0x80) 0 2 1).setF 0x88 0 3 3)
     s.core.getB (pLpm + 0x80) 8 = true ∧ s.core.getB (pLpm + 0x80) 2 = true ∧ 64 * 0 < s.core.lpmSize ∧ s.core.service = true ∧
       (s.core.pwr.recal.find? fun e => e.1 = 11) = none) ∧
    (let s := st { (late Core.reset).setF 0x88 0 3 3 with pwr := { Core.reset.pwr with recal := [(11, 0)] } }
     (s.core.pwr.recal.find? fun e => e.1 = 11) = some (11, 0) ∧ 0 + nsN 100000000 ≤ s.core.now ∧ s.core.service = true) := by decide +kernel

theorem witness_CensusIsTaken : let s := State.reset
    fw.view = .priv ∧ s.core.censusArmed = none ∧ s.core.lead200 1000 = true ∧ s.core.lead200 0 = false ∧
    (st { late Core.reset with censusArmed := some 7 }).core.censusArmed = some 7 ∧
    (st { late Core.reset with censusArmed := some 7 }).core.tickBegun 7 = true := by decide +kernel

/-! ### Witnesses: Kwanan -/

/-- A session in a role, and service with raw Ethernet on. -/
def sess (r : Role) : Sess :=
  { role := r, host := .raw 5, hnonce := 9, epoch := 1, minor := 0, streams := 3, regions := 0xFF, rxSeq := 0, txSeq := 0, sent := [], timeouts := 0,
    sinceAck := 0, unackedRx := 0, rxAt := 0, lastFrame := 0, nonce := none, nonceAt := 0, fails := 0, lost := [], owed := false, taken := false, reqTick := 0 }
def kwnCore : Core :=
  let c := ((Core.reset.setF 0x88 0 3 3).setF (pCtl + 0x80) 16 1 1).setF (pLpm + 0x80) 0 2 1
  { c with pwr := { c.pwr with resetStat := true } }
def kwnSt (x : Sess) : State := st { kwnCore with kwn := { kwnCore.kwn with sess := [(3, x)] } }

/-- The header of the next message of session 3. -/
def hdr : KwnHdr := ⟨3, 1, 0, false, false, false, 1, .raw 5, true, 0⟩

/-- The core and the session once that message has arrived. -/
def arr (s : State) : Core := (((s.core.hdrSess hdr).map fun x => ((s.core.kwnArrive hdr x).takeSeq hdr).2).getD s.core)

theorem witness_Arrived : ∀ r ∈ [Role.observer, .capture, .candidate, .privileged], ∃ y, Arrived (kwnSt (sess r)) hdr (arr (kwnSt (sess r))) y ∧
    y.role = r ∧ y.fits 8 = true ∧ (arr (kwnSt (sess r))).inRom = false ∧ (arr (kwnSt (sess r))).kwn.upload = none := by
  intro r h
  simp only [List.mem_cons, List.not_mem_nil, or_false] at h
  rcases h with rfl | rfl | rfl | rfl <;>
    exact ⟨_, ⟨by decide +kernel, by decide +kernel, by rfl, _, by rfl, by rfl⟩, by decide +kernel, by decide +kernel, by decide +kernel,
      by decide +kernel⟩

/-- The core of privileged session 3 after its message, and of an observer's. -/
def pc : Core := arr (kwnSt (sess .privileged))
def px : Sess := { sess .privileged with rxSeq := 1, unackedRx := 1 }

theorem witness_Requests : pc.sess 3 = some px ∧
    (pc.burstCode px false 4 1 = some nFormat ∧ pc.burstCode px true (0x20000000) 1 = some nProtect) ∧
    (pc.burstCode px false 0 1 = none ∧ px.fits (respBody (pc.readBurst 3 0 1).1 []).length = true) ∧
    (pc.burstCode px true (pSec + 0x200) 1 = none ∧
      (writeBurst 3 [5] (pSec + 0x200) State.reset.mem pc).2.1.sess 3 = some px) ∧
    pc.inRom = false ∧ (pc.memCode px 0 8 = some nRange) ∧
    (pc.memCode px lpmBase 8 = none ∧ px.fits (respBody (State.reset.mem.read lpmBase 8) (poisonMap State.reset.mem lpmBase 8)).length = true) ∧
    ((pc.protected lpmBase 8) = false) := by decide +kernel

/-- A host write into a cell of a region that is not idle. -/
theorem witness_Requests_protect : let c := (pc.setF (pMdw 0 + 0x80) 0 4 0).setRgn 0 { Rgn.idle with phase := .halted }
    c.memCode px (aCell 2) 64 = none ∧ c.protected (aCell 2) 64 = true := by decide +kernel

/-- The submission queue of a submitting session. -/
def subCore (head : Nat) : Core :=
  (((pc.setF (pTask + 0x88) 0 48 lpmBase).setF (pTask + 0x88) 48 4 4).setF (pTask + 0x98) 0 12 head)

theorem witness_Requests_submit : let ds := [List.replicate 64 (1 : Byte)]
    px.role = .privileged ∧ px.fits 8 = true ∧ (subCore 0).service = true ∧ ds ≠ [] ∧ ds.length ≤ 64 ∧ (∀ d ∈ ds, d.length = 64) ∧
    ((0 + 2 ^ 4 - 0) % 2 ^ 4 + ds.length < 2 ^ (subCore 0).getF (pTask + 0x88) 48 4 ∧ (subCore 0).mapped false lpmBase (64 * 2 ^ 4) = true ∧
      (subCore 0).protected lpmBase (64 * 2 ^ 4) = false) ∧
    2 ^ (subCore 1).getF (pTask + 0x88) 48 4 ≤ (0 + 2 ^ 4 - (subCore 1).getF (pTask + 0x98) 0 12 % 2 ^ 4) % 2 ^ 4 + ds.length ∧
    doorbellAt (pTask + 0x90) = true ∧ doorbellAt 0 = false := by decide +kernel

/-- An OPEN as observer and as capture session. -/
def openB (role ver : Nat) : OpenBody := ⟨ver, 0, role, 3, 0xFF, 7, true⟩

theorem witness_SessionsLive_open : let s := st (kwnCore.setF (pCtl + 0x88) 0 16 2)
    s.core.kwnUp = true ∧ s.core.transportOn hdr.host = true ∧ hdr.wellFormed = true ∧
    (s.core.kwn.sess.find? fun e => e.2.host = hdr.host && e.2.hnonce = (openB 1 2).hnonce) = none ∧ (openB 1 2).reservedZero = true ∧
    (openB 1 2).role ≤ 2 ∧ (openB 1 2).streams ≤ 3 ∧ topMajor (s.core.getF (pCtl + 0x88) 0 16 &&& (openB 1 2).verMask) = some 1 ∧
    ((List.range (if s.core.kwn.upload.isSome then 1 else 64)).find? fun i => (s.core.sess i).isNone) = some 0 ∧ s.core.capSess = none ∧
    topMajor (s.core.getF (pCtl + 0x88) 0 16 &&& (openB 1 4).verMask) = none := by decide +kernel

/-- A session with one message unacknowledged, and its timeouts so far. -/
def sentSess (n : Nat) : Sess := { sess .observer with txSeq := 1, sent := [⟨1, 0x12, [], 0, none⟩], timeouts := n }
def lateKwn (x : Sess) : State := st (late (kwnSt x).core)

theorem witness_SessionsLive : let s := kwnSt (sentSess 0)
    (s.core.kwnUp = true ∧ s.core.transportOn hdr.host = true ∧ s.core.hdrSess { hdr with ackv := true, ack := 1 } = some (sentSess 0) ∧
      (sentSess 0).owed = false ∧ seqLe 1 (sentSess 0).txSeq = true ∧ s.core.hdrSess { hdr with close := true } = some (sentSess 0)) ∧
    (∀ n ∈ [30, 31], (lateKwn (sentSess n)).core.sess 3 = some (sentSess n) ∧ (sentSess n).sent ≠ [] ∧
      (sentSess n).sinceAck + nsN ((lateKwn (sentSess n)).core.getF (pCtl + 0x80) 32 16 * 1000) ≤ (lateKwn (sentSess n)).core.now) ∧
    16 ≤ ({ sess .observer with unackedRx := 16 } : Sess).unackedRx ∧
    (let x := { sess .observer with unackedRx := 1 }
     (lateKwn x).core.sess 3 = some x ∧ x.unackedRx ≠ 0 ∧ x.rxAt + nsN 8000 ≤ (lateKwn x).core.now ∧
       x.lastFrame + nsN ((lateKwn x).core.getF (pCtl + 0x80) 48 16 * 1000000) ≤ (lateKwn x).core.now) ∧
    (fw.view = .priv ∧ (kwnSt (sess .observer)).core.service = true ∧ bit (0x43 : Nat) 6 = true) := by decide +kernel

/-- Capture's consumer, with 64 bytes in a pail of 1 MiB. -/
def capKwn : State := st (((kwnSt (sess .capture)).core.wr (pCap + 0xB0) 1).wr (pCap + 0xB8) 64)

theorem witness_SessionsLive_capture : let p := capKwn.core.kwn.capSend
    let n := min 8160 ((if p ≤ capKwn.core.pailWr then capKwn.core.pailWr - p else capKwn.core.pailSize - p) / 32 * 32)
    capKwn.core.capSess = some 3 ∧ capKwn.core.sess 3 = some (sess .capture) ∧ n ≠ 0 ∧ capKwn.core.kwnUp = true ∧
    (sess .capture).fits (16 + n) = true := by decide +kernel

/-! ### Witnesses: registers and pages -/

theorem witness_RegistersAreWritten : let s := State.reset
    rowAt s.core.plains 0xF8 = none ∧
    (∃ b i r, RegAt s.core (pCtl + 0x80) b i r ∧ emulatedAt b ((pCtl + 0x80) % 0x1000) = true) ∧ s.core.service = false ∧
    isRc s.core.plains 0 = false := by
  refine ⟨by decide +kernel, ⟨_, _, _, ⟨by rfl, _, by rfl⟩, by decide +kernel⟩, by decide +kernel, by decide +kernel⟩

/-- TIN_CFG of pin 0 is a register without a behaviour of its own; both views write it. -/
theorem witness_RegistersAreWritten_plain : let s := State.reset
    ∃ b i r, RegAt s.core (pTime + 0x580) b i r ∧ b ≠ .rgn ∧ (b = .mdw → isRgnOff ((pTime + 0x580) % 0x1000) = false) ∧
      emulatedAt b ((pTime + 0x580) % 0x1000) = false ∧
      (writeHook s.mem s.core fw b i (pageOf (pTime + 0x580)) ((pTime + 0x580) % 0x1000) 7).isNone = true ∧
      (∀ f ∈ r.fields, f.lo + f.w ≤ 64) ∧ r.fields.Pairwise (fun f g => f.lo + f.w ≤ g.lo ∨ g.lo + g.w ≤ f.lo) ∧ r.fields ≠ [] := by
  exact ⟨_, _, _, ⟨by rfl, _, by rfl⟩, by decide +kernel, by decide +kernel, by decide +kernel, by decide +kernel, by decide +kernel,
    by decide +kernel, by decide +kernel⟩

theorem witness_PagesAreControlled : fw.view = .priv ∧ blockAt State.reset.core.plains (pageOf pCap) = some (.cap, 0) ∧ Block.cap ≠ .rgn ∧
    bit (0 : Nat) 1 = false ∧ bit (5 : Nat) 1 = false ∧ enFixed .cap = false ∧ State.reset.core.en pCap = false ∧
    (enFixed .time = true ∧ blockAt State.reset.core.plains (pageOf pTime) = some (.time, 0)) ∧
    (st (Core.reset.setF (pCap + 0x18) 0 1 1)).core.en pCap = true ∧ (st (Core.reset.setF (pCap + 0x18) 1 1 1)).core.getB (pCap + 0x18) 1 = true ∧
    ∀ e ∈ (st (Core.reset.setF (pCap + 0x18) 1 1 1)).core.regs, e.1 = pCap + 0x80 → capArmed e = false := by
  decide +kernel

theorem witness_EvtForceSetsPend : (63 : Nat) < 64 ∧ fw.view = .priv ∧ blockAt State.reset.core.plains pCap = some (.cap, 0) := by decide +kernel

/-- A page's notice is due, with an enabled bit pending or not, since its last one or at once. -/
def noticeSt (pend last : Nat) : State :=
  let c := late (kwnSt { sess .observer with streams := 1 }).core
  st { ((c.wr (pCap + 0x30) 1).wr (pCap + 0x38) pend) with notices := [pCap], noticeAt := [(pCap, if last = 0 then 0 else c.now)] }

theorem witness_NoticesAndLogHead : pageOf pCap ∈ (noticeSt 1 0).core.notices ∧
    (∀ n ∈ [0, 1], ∀ q ∈ (noticeSt n 0).core.notices, q < pCap → (noticeSt n 0).core.noticeWaits q = true) ∧
    ((pCap, (noticeSt 1 1).core.now) ∈ (noticeSt 1 1).core.noticeAt ∧ (noticeSt 1 1).core.now < (noticeSt 1 1).core.now + nsN 1000) ∧
    ((noticeSt 1 0).core.noticeAt = [(pCap, 0)] ∧ 0 + nsN 1000 ≤ (noticeSt 1 0).core.now) ∧
    (noticeSt 0 0).core.rd (pCap + 0x38) &&& (noticeSt 0 0).core.rd (pCap + 0x30) = 0 ∧
    ((noticeSt 1 0).core.rd (pCap + 0x38) &&& (noticeSt 1 0).core.rd (pCap + 0x30) ≠ 0 ∧
      ((noticeSt 1 0).core.sessWhere fun x => bit x.streams 0) = [3] ∧
      (noticeSt 1 0).core.sess 3 = some { sess .observer with streams := 1 } ∧ ({ sess .observer with streams := 1 } : Sess).fits 40 = true) ∧
    (fw.view = .priv ∧ blockAt State.reset.core.plains pCap = some (.cap, 0) ∧ (0 + 16 - 0) % 16 ≤ (0 + 16 - 0) % 16 ∧
      State.reset.core.getF (pCap + 0x48) 0 4 = 0 ∧ State.reset.core.getF (pCap + 0x48) 8 4 = 0) := by decide +kernel

/-! ### Witnesses: start, security, update -/

/-- Checks that pass, and checks with a failed rail. -/
def okStart : StartChecks := ⟨⟨.e7440, false⟩, true, true, none, true, false, 0, true, none, none, 1, []⟩
def badStart : StartChecks := { okStart with rails := false }

theorem witness_DeviceStarts : heldCode okStart = 0 ∧ heldCode badStart ≠ 0 ∧ ({ okStart with bootHost := true } : StartChecks).bootHost = true ∧
    (let s := st { Core.reset with flt := { Core.reset.flt with mgFirst := some 0 } }
     s.core.flt.mgFirst = some 0 ∧ s.core.now ≤ 0 + nsN 1000000) ∧ State.reset.core.flt.mgFirst = none ∧ (0xA4 : Nat) ≠ 0xA5 ∧
    (let s := st { (kwnCore.setF 0x88 0 3 1) with sec := { kwnCore.sec with trial := true } }
     s.core.fwState = 1 ∧ s.core.inReset = false ∧ s.core.kwn.upload = none ∧ s.core.sec.restart = none ∧ s.core.safe = false) := by decide +kernel

/-- Firmware of major 1 waits for DEV_FWI. -/
def fwiSt (locked : Nat) : State := st (((Core.reset.setF 0x88 0 3 2).setF 0xA8 16 16 2).setF 0xA8 36 1 locked)

theorem witness_DeviceStarts_fwi : (fwiSt 1).core.safe = false ∧ (fwiSt 1).core.getB 0xA8 36 = true ∧ user.view ≠ .priv ∧
    (fwiSt 0).core.getB 0xA8 36 = false ∧ 2 ≤ (fwiSt 0).core.fwState ∧ topMajor (4 % 2 ^ 16 &&& (fwiSt 0).core.getF 0xA8 16 16) = none ∧
    topMajor (6 % 2 ^ 16 &&& (fwiSt 0).core.getF 0xA8 16 16) = some 1 ∧ (fwiSt 0).core.getB 0x88 4 = false ∧
    (fwiSt 0).core.sec.restart = none := by decide +kernel

/-- The mailbox held by session 3 or by nobody, with identity or owner. -/
def mbx (h : Option Nat) (idn : Option (List Byte)) (own : List Byte) (r : Role) : Core :=
  let c := (kwnSt (sess r)).core
  { c with sec := { c.sec with holder := h, ident := idn, owner := own } }
/-- ENROL's key and signature length in the buffer. -/
def enrolC (head len : Nat) (ch : Option (List Byte × Nat)) : Core :=
  let c := ((mbx (some 3) (some [1]) [] .privileged).wr (pSec + 0x200) head).wr (pSec + 0x200 + 8 * 224) (len * 256)
  { c with sec := { c.sec with challenge := ch } }

theorem witness_MailboxServesItsHolder : let s := fun h i o r => st (mbx h i o r)
    ((s none none [] .observer).core.service = true ∧ (s none none [] .observer).core.sec.mbxOp = 0 ∧
      (s none none [] .observer).core.sec.holder = none ∧ (s (some 3) none [] .observer).core.sec.holder = some 3) ∧
    ((3 : Nat) ≠ 4 ∧ (s (some 3) none [] .observer).core.sec.ident = none ∧ (s (some 3) (some [1]) [] .observer).core.sec.ident ≠ none) ∧
    ((s (some 3) none [] .observer).core.privSess ≠ some 3 ∧ (s (some 3) none [7] .observer).core.ownerValid = true) ∧
    ((s (some 3) (some [1]) [] .privileged).core.privSess = some 3 ∧ (s (some 3) (some [1]) [] .observer).core.ownerValid = false) ∧
    ((enrolC 9 5 none).mbxRead 0 1793).head? ≠ some 0x0A ∧
    (((enrolC 10 5 none).mbxRead 0 1793).head? = some 0x0A ∧ leNat ((enrolC 10 5 none).mbxRead 1793 2) ≤ 1462 ∧
      (enrolC 10 5 none).sec.challenge = none) ∧
    ((enrolC 10 5 (some ([], 0))).sec.challenge = some ([], 0) ∧ (enrolC 10 5 (some ([], 0))).now ≤ 0 + nsN 10000000000) ∧
    1462 < leNat ((enrolC 10 1463 none).mbxRead 1793 2) ∧
    ((late (mbx (some 3) none [] .observer)).sec.holder = some 3 ∧
      (late (mbx (some 3) none [] .observer)).sec.since + nsN 10000000000 ≤ (late (mbx (some 3) none [] .observer)).now) ∧
    (∀ op ∈ [4, 5, 7], ({ Core.reset.sec with mbxOp := op } : Sec).mbxOp ≠ 0) := by decide +kernel

/-- The update agent in service with what is staged, armed, on trial and swapped. -/
def updSt (f : Sec → Sec) (swap : Option (Nat × Nat × Nat)) (at_ : Nat) : State :=
  st { ((kwnCore.wr (pCtl + 0x100) lpmBase).wr (pCtl + 0x108) 4096).wr (pCtl + 0x110) at_ with sec := f kwnCore.sec, swapArmed := swap }

theorem witness_UpdatesRun : let staged := fun (x : Sec) => { x with staged := true }
    (fw.view = .priv ∧ (updSt id none 0).core.service = true) ∧
    ((updSt (fun x => { x with trial := true }) none 0).core.sec.trial || false || false) = true ∧
    (((updSt id none 0).core.sec.trial || (updSt id none 0).core.sec.armedAt.isSome || (updSt id none 0).core.sec.stageBusy.isSome) = false ∧
      lpmBase ≤ (updSt id none 0).core.rd (pCtl + 0x100) ∧ 4096 ≤ (updSt id none 0).core.rd (pCtl + 0x108) ∧
      (updSt id none 0).core.mapped false lpmBase 4096 = true) ∧
    (updSt id none 0).core.sec.staged = false ∧
    ((updSt staged none 999999).core.sec.staged = true ∧ (updSt staged none 999999).core.sec.armedAt = none ∧
      (updSt staged none 999999).core.swapArmed = none ∧
      (updSt staged none 999999).core.rd (pCtl + 0x110) < (updSt staged none 999999).core.valley + 1000000) ∧
    (updSt staged none 1000000).core.valley + 1000000 ≤ (updSt staged none 1000000).core.rd (pCtl + 0x110) ∧
    (updSt staged (some (5, 1, 0)) 0).core.swapArmed.isSome = true ∧
    (updSt (fun x => { x with armedAt := some 0 }) none 0).core.sec.armedAt = some 0 ∧
    (updSt (fun x => { x with armedAt := some 0 }) none 0).core.valleyDue 0 = true ∧
    (updSt (fun x => { x with armedAt := some 9 }) none 0).core.valleyDue 9 = false ∧
    (updSt (fun x => { x with stageBusy := some [1] }) none 0).core.sec.stageBusy = some [1] := by decide +kernel

/-- A restart under way of a device whose region 0 had drained; the trial of an image; faults of component 2. -/
def resumeSt : State :=
  let c := (((rgnSt .drained).core.setF 0x88 0 3 2).setF 0xA8 36 1 1).setF aGate 0 3 4
  st { c with sec := { c.sec with restart := some (0, true, [0]) } }
def faultSt (n : Nat) : State :=
  st { Core.reset.setF 0x88 0 3 3 with sec := { Core.reset.sec with faults := List.replicate n (2, 0) } }

theorem witness_UpdatesRun_restart : (resumeSt.core.sec.restart = some (0, true, [0]) ∧ resumeSt.core.fwState = 2 ∧
      resumeSt.core.getB 0xA8 36 = true ∧ resumeSt.core.getB 0x88 4 = false ∧ resumeSt.core.safe = false ∧
      (∀ g ∈ [0], (resumeSt.core.rgn g).phase ≠ .draining) ∧ (resumeSt.core.rgn 0).phase = .drained ∧ resumeSt.core.lent 0 = [] ∧
      resumeSt.core.getB aGate 2 = true ∧ resumeSt.core.getB aGate 1 = false) ∧
    (fw.view = .priv ∧ 0x48454C54 % 2 ^ 32 = 0x48454C54 ∧
      (updSt (fun x => { x with trialAt := some 0 }) none 0).core.sec.trialAt ≠ none) ∧
    (late (updSt (fun x => { x with trialAt := some 0 }) none 0).core).secondsLeft = 0 ∧
    (∀ n ∈ [1, 2], 2 ≤ (faultSt n).core.fwState ∧ (faultSt n).core.safe = false ∧
      (((faultSt n).core.sec.faults.filter fun (e : Nat × Nat) => (faultSt n).core.now < e.2 + nsN 10000000000).filter
        fun (e : Nat × Nat) => e.1 = 2).length = n) := by decide +kernel

/-! ### Witnesses: safe state and power -/

/-- Safe state entered for a cause of the given errors. -/
def safeSt (e : List (Nat × Nat)) : State := st { safeOf run with flt := { Core.reset.flt with errors := e, unlocked := [(0, 0)] } }

theorem witness_SafeStateIsEntered : State.reset.core.safe = false ∧ fw.view = .priv ∧ bit (1 : Nat) 1 = false ∧ bit (2 : Nat) 0 = false ∧
    (∀ k ∈ [0, 2], k ≤ 2 ∧ (if k = 0 then 0 else 1) < State.reset.core.plains ∧ (k, if k = 0 then 0 else 1) ∉ State.reset.core.flt.unlocked) ∧
    (safeSt [(0x46, 0)]).core.safe = true ∧ (safeSt [(0x46, 0)]).core.exitOk = true ∧ (safeSt [(0x43, 0)]).core.exitOk = false ∧
    ((safeSt [(0x46, 0)]).core.rgn 0).phase = .running ∧ (0, if (0 : Nat) = 0 then 0 else 5) ∈ (safeSt []).core.flt.unlocked := by decide +kernel

/-- A rail that has been out of range since 0. -/
def railSt : State := st { late Core.reset with pwr := { Core.reset.pwr with outSince := [(1, 0)] } }

/-- The self-test enabled and due, with a meadow free or the fabric at P2. -/
def bistSt (p : Nat) : State := st (((late Core.reset).setF (pFlt + 0xA0) 0 1 1).setF (pPwr + 0x80) 0 2 p)
def sliceSt : State := st { Core.reset with flt := { Core.reset.flt with slice := some (4, none) } }

theorem witness_LimitsAreWatched : let s := State.reset
    (s.core.sensorKind 0 = some 0 ∧ signed 12 (unsigned 12 1679) < tripLevel 0 ∧ tripLevel 0 ≤ signed 12 (unsigned 12 1680) ∧ s.core.safe = false) ∧
    ((1 < 10 ∧ (1 ≠ 9 ∨ s.core.part = 1) ∧ 65535 < 2 ^ 16) ∧ (1, 0) ∈ railSt.core.pwr.outSince ∧ 0 + nsN 10000 ≤ railSt.core.now ∧
      railSt.core.outside 1 1000 5 = true ∧ railSt.core.safe = false) ∧
    (∀ p ∈ [0, 2], (bistSt p).core.getB (pFlt + 0xA0) 0 = true ∧
      (bistSt p).core.flt.lastAt + nsN ((bistSt p).core.getF (pFlt + 0xA0) 1 16 * 1000000) ≤ (bistSt p).core.now ∧
      (bistSt p).core.nextMeadow = some 0 ∧ (bistSt p).core.sliceOk = decide (p = 0) ∧ (bistSt p).core.safe = false ∧
      (bistSt p).core.flt.slice = none ∧ (bistSt p).core.frozenAt (pFlt + 0x108) = false) ∧
    sliceSt.core.flt.slice = some (4, none) := by decide +kernel

/-- The signature of a stepping, whatever it is, is one a slice may end with; so is another one. -/
theorem witness_LimitsAreWatched_sig (k : Nat) :
    (∃ sig : Word64, sig = Config.bistSignature k) ∧ ∃ sig : Word64, sig ≠ Config.bistSignature k :=
  ⟨⟨_, rfl⟩, ⟨Config.bistSignature k + 1, by simp⟩⟩

/-- A power-point change armed at once or for a count, and a freeze under way. -/
def ptSt (x : PwrArm) (frz : Option Nat) : State :=
  st { late Core.reset with pwr := { Core.reset.pwr with arm := some x }, clk := { (late Core.reset).clk with frozen := frz } }

theorem witness_PowerPointsChange : let s := State.reset
    fw.view = .priv ∧ (s.core.ptRejected (8 / 4 % 4) (s.core.rd (pPwr + 0x88)) = false ∧ s.core.ptRejected (12 / 4 % 4) (s.core.rd (pPwr + 0x88)) = true) ∧
    (s.core.ptRejected 0 (s.core.rd (pPwr + 0x88)) = false ∧ 0 < (st (s.core.setF aPt 0 2 2)).core.getF aPt 0 2) ∧
    (∀ x ∈ [(⟨2, 0, 0, false⟩ : PwrArm), ⟨0, 0, 0, true⟩, ⟨1, 7, 0, false⟩], (ptSt x none).core.pwr.arm = some x ∧ (ptSt x none).core.clk.frozen = none ∧
      (x.at_ = 0 → x.raised = false ∨ x.since + nsN 500000 ≤ (ptSt x none).core.now) ∧ (x.at_ ≠ 0 → (ptSt x none).core.valleyDue x.at_ = true)) ∧
    ((ptSt ⟨1, 0, 0, false⟩ (some 0)).core.clk.frozen = some 0 ∧ (ptSt ⟨1, 0, 0, false⟩ (some 0)).core.pwr.arm = some ⟨1, 0, 0, false⟩ ∧
      0 + nsN 64 ≤ (ptSt ⟨1, 0, 0, false⟩ (some 0)).core.now) := by decide +kernel

theorem witness_PowerPointsComplete : fw.view = .priv ∧
    (∀ n ∈ [0, 1000000], let s := st (Core.reset.wr (pPwr + 0x88) n)
      s.core.rd (pPwr + 0x88) = n ∧ s.core.pwr.arm = none ∧ (8 : Word64).toNat / 4 % 4 ≠ 3 ∧ s.core.valley + 1000000 ≤ 1000000 ∧
      (∀ g, g < 8 → (s.core.rgn g).phase ≠ .running ∧ (s.core.rgn g).stall = []) ∧ s.core.task.table = []) ∧
    (∀ x ∈ [(⟨2, 0, 0, false⟩ : PwrArm), ⟨0, 0, 0, true⟩, ⟨1, 7, 0, false⟩], (ptSt x none).core.pwr.arm = some x ∧ (ptSt x none).core.clk.frozen = none ∧
      (x.at_ = 0 → x.raised = true → x.since + nsN 500000 ≤ (ptSt x none).core.now) ∧
      (x.at_ ≠ 0 → nsN ((ptSt x none).core.epoch + x.at_) ≤ (ptSt x none).core.now)) := by decide +kernel

/-! ### Witnesses: frames, and the block as a whole -/

theorem witness_FiringsKeepTheRest : 7 < 32768 ∧ Instr.exp2 7 ∈ [Instr.exp2 7] ∧
    (∃ t, exec (.exp2 7) (sfnSt .exp2 false) = .next t) ∧ 5 ≠ (sfnSt .exp2 false).core.cellRgn 7 :=
  ⟨by decide, by simp, ⟨_, rfl⟩, by decide +kernel⟩

theorem witness_SettingsKeepOtherPages : (0 : Nat) < 8 ∧ (0 : Nat) < 4 ∧ (0 : Nat) < 128 ∧ (0 : Nat) < 256 ∧
    (∃ u, exec (.timeIncrWrite fw 5) State.reset = .next u) ∧ pCap / 4096 ≠ pTime / 4096 :=
  ⟨by decide, by decide, by decide, by decide, ⟨_, rfl⟩, by decide⟩

theorem witness_CommandsKeepOtherParts : ∃ t, exec (.stop fw 5) State.reset = .next t := ⟨_, rfl⟩

theorem witness_UnprivilegedWritesChangeNothing : user.view = .unpriv := rfl

theorem witness_StepRunsFront : (State.reset.withFetchWord 0 0).pending = [] ∧ State.reset.pending = [] ∧
    ({ State.reset with pending := [.census] } : State).pending = Instr.census :: [] := ⟨rfl, rfl, rfl⟩

theorem witness_StepsKeepSound : Sound State.reset ∧ ∃ t, step State.reset = .next t := ⟨by unfold Sound; rfl, ⟨_, rfl⟩⟩

theorem witness_Lpddr6Spreads : (255 : Nat) < 256 ∧ (11 : Nat) < 12 ∧ lpmChannel 6720 = lpmChannel 6720 := ⟨by decide, by decide, rfl⟩

/-! ### Terms that no sender can mean, refused by each check of WellFormed -/

def badHdr : KwnHdr := ⟨256, 1, 0, false, false, false, 1, .raw 5, true, 0⟩
def far : Access := ⟨.priv, .session 64⟩

theorem smoke_ports : ∀ i ∈ ([.frameStart 8 0 ⟨0, 0⟩ [], .frameStart 0 65536 ⟨0, 0⟩ [], .frameStart 0 0 ⟨0, 0⟩ (List.replicate 9217 0), .fecUncorrectable 8 [],
    .eventWordEmit 24, .fcsVerdict 8, .linkLoss 8, .linkUp 8, .templateFrameStart 8, .ptpTransmit 8 0 0 none 0 0 [0],
    .ptpTransmit 0 65536 0 none 0 0 [0], .ptpTransmit 0 0 8 none 0 0 [0], .ptpTransmit 0 0 0 (some 1) 0 0 [0], .ptpTransmit 0 0 0 none 0 1 [0],
    .compCapWrite fw 256 0, .compCapWrite far 0 0, .compCapArm fw 256 0, .compCapArm far 0 0, .deadlineWrite fw 256 0,
    .deadlineWrite far 0 0] : List Instr), WellFormed i = false := by decide +kernel

theorem smoke_cells : ∀ i ∈ ([.orphan 32768 0, .orphan 0 4, .stallStart 4112 [], .stallLimit 4112, .dot 32768, .dotc 32768, .exp2 32768,
    .log2 32768, .rcp 32768, .rsqrt 32768, .sqrt 32768, .tanh 32768, .logistic 32768, .pwl 32768, .min8 32768, .max8 32768,
    .argmax8 32768, .sort8 32768, .sum8 32768, .add2 32768, .quant 32768, .dequant 32768, .leafMa 32768, .leafMm 32768, .combMa 32768,
    .combMm 32768, .param 32768, .read 32768, .write 32768, .delay 32768, .kcache 32768, .fork 32768, .merge 32768, .switch 32768,
    .select 32768, .renumber 32768, .digest 32768, .keyEventFire 32768, .keyDeferredFire 32768, .tapIngress 32768, .tapResult 32768,
    .tapCapture 32768, .gather 32768 0, .gather 0 2, .align 32768 0, .align 0 2] : List Instr), WellFormed i = false := by decide +kernel

theorem smoke_regions : ∀ i ∈ ([.fordRelease 8, .resolvePoint 8 0, .resolvePoint 0 36, .sectionSwitch 4112 ⟨0, 0⟩, .sectionSwitch 0 ⟨8, 0⟩,
    .slotReloadDone 128 ⟨0, []⟩, .slotReloadDone 0 ⟨8, []⟩, .slotReloadDone 0 ⟨0, [32768]⟩, .drain fw 128, .drain far 0, .resume fw 128, .resume far 0, .halt fw 128, .halt far 0,
    .resetRgn fw 128, .resetRgn far 0, .drainComplete 8, .saveRestoreDone 8, .swapDrainDone 8, .launch 8, .meadowMove fw 128 0,
    .meadowMove far 0 0, .save fw 128 0, .save far 0 0, .restore fw 128 0, .restore far 0 0, .flush fw 128 0, .flush far 0 0,
    .convCfgWrite fw 128 0 0, .convCfgWrite fw 0 32 0, .convCfgWrite far 0 0 0, .convClr fw 128 0, .convClr fw 0 32, .convClr far 0 0,
    .digestRecordPop 128, .section_ 4096, .sectionEnd 4096, .move 4096, .publish 4096, .swap 4096, .snapshot 4096, .captureArm 4096,
    .selftest 4096, .fence 4096, .note 4096, .taskComplete 4096] : List Instr), WellFormed i = false := by decide +kernel

theorem smoke_settings : ∀ i ∈ ([.timeIncrWrite far 0, .timeSlewWrite far 0, .timeNowSet far 0, .tickPeriodWrite far 0,
    .valleyEpochWrite far 0, .barrierArm far 0, .portCfgWrite far 0, .filterWrite far 0, .filterInvalidate far 0, .filterRead far 0,
    .gateOpen far 0, .gateClose far 0, .killClear far 0, .keyCfgWrite far 0, .slotWrite far 0, .slotRead far 0, .ringRead far 0,
    .ringWrite far 0, .zeroAll far 0, .censusRequest far 0, .swapArm far 0, .taskDoorbell far 0, .abort far 0, .taskRelease far 0,
    .replayStart far 0, .replayStop far 0, .captureArmWrite far 0, .stop far 0, .close far 0, .devFwiWrite far 0, .healthConfirm far 0,
    .stage far 0, .activateAt far 0, .activate far 0, .cancel far 0, .enter far 0, .exit far 0, .pwrPtArm far 0] : List Instr),
    WellFormed i = false := by decide +kernel

theorem smoke_pins : ∀ i ∈ ([.tinEdge 4 0 true 0, .tinEdge 0 65536 true 0, .tinTsPop 4, .toutArm fw 4 0, .toutArm far 0 0, .toutEdge 4,
    .toutPulseEnd 4, .fordDelayWrite fw 8 0, .fordDelayWrite far 0 0, .launchAtWrite fw 8 0, .launchAtWrite far 0 0,
    .timeMarkerSend 16 0, .timeMarkerSend 0 65536, .timeMarkerReceive 16 0 ⟨0, []⟩, .timeMarkerReceive 0 65536 ⟨0, []⟩,
    .barrierTokenReceive 16, .laneLocked 16, .laneLockLoss 16, .packetVerdict 16, .passStreamTransmit 16, .linkRetryTimeout 16,
    .passCfgWrite fw 16 0, .passCfgWrite far 0 0, .linkTxQueue fw 16 0, .linkTxQueue far 0 0, .versionSetReceive 16 ⟨0, []⟩,
    .idleSetReceive 16 ⟨0, []⟩, .packetStart 16 0 [] [] 0 true, .packetStart 0 65536 [] [] 0 true,
    .packetStart 0 0 (List.replicate 4097 0) [] 0 true, .timerExpiry 4, .trigOutPulseEnd 8, .trigInEdge 8 0 true 0,
    .trigInEdge 0 65536 true 0, .stuck 8] : List Instr), WellFormed i = false := by decide +kernel

theorem smoke_memories : ∀ i ∈ ([.refreshEntry 128 [] [], .vaultHotEnter 128 0, .vaultHotExit 128 0, .vaultWriteCommit 128, .hotForceWrite fw 4 0,
    .hotForceWrite far 0 0, .lpddr6Recalibration 12, .railSample 10 0 0 0, .watchdog 4, .clockLoss 4 0, .clockLoss 0 4, .clockLocked 4 0,
    .clockLocked 0 4, .fwProtect 8, .firmwareStart 65536, .mgResetCmd okStart 65536] : List Instr), WellFormed i = false := by decide +kernel

theorem smoke_sessions : ∀ i ∈ ([.open_ badHdr ⟨1, 0, 0, 0, 0, 0, true⟩, .authResponse badHdr [], .regRead badHdr 0 1, .regWrite badHdr 0 [],
    .memRead badHdr 0 64, .memWrite badHdr 0 [], .submit badHdr [], .doorbell badHdr 0 0, .ack badHdr, .kwananRtoExpiry 64,
    .standaloneAck 64, .idleClose 64, .claim 64, .releaseMbx 64, .challenge 64, .enrol 64, .release 64, .attest 64, .newIdentity 64,
    .registerWrite far 0 0, .rcRead far 0, .pageEnWrite fw 1 0, .pageEnWrite far 0 0, .freeze fw 1 0, .freeze far 0 0, .evtForce fw 1 0,
    .evtForce far 0 0, .errHeadWrite fw 1 0, .errHeadWrite far 0 0, .blkReset fw 0x184000, .blkReset far 0, .pageNotice 1,
    .blockResetDone 0x184000, .binaryLoad { bin0 with report := { bin0.report with meadows := [128] } }] : List Instr),
    WellFormed i = false := by decide +kernel

/-- Terms at the last number of each range pass. -/
theorem smoke_passes : ∀ i ∈ ([.frameStart 7 65535 ⟨0, 0⟩ [], .eventWordEmit 23, .dot 32767, .gather 0 1, .resolvePoint 7 35, .sectionSwitch 4111 ⟨7, 0⟩,
    .convCfgWrite fw 127 31 0, .tinEdge 3 65535 true 0, .ptpTransmit 7 0 7 (some 0) 0 0 [0], .compCapWrite fw 255 0, .taskComplete 4095,
    .packetStart 15 0 [] [] 0 true, .railSample 9 0 0 0, .claim 63, .pageNotice 0x183000, .ack hdr] : List Instr), WellFormed i = true := by
  decide +kernel

/-! ### Values from the manual's examples -/

/-- The home of key 0x1_2345 (the example after R248). -/
theorem test_home : homeOf 29 0x12345 = (4, 25453) := by decide
theorem test_home_offset (k : KeyMap) (h : k.n = 32 ∧ k.eu = 1 ∧ k.ringBase = 0x400000 ∧ kmVaults k = List.range 29) :
    kmRingAt k 4 25453 = aVault 4 0x1389080 := by
  obtain ⟨h1, h2, h3, h4⟩ := h; simp [kmRingAt, kmStride, kmRingSize, aVault, h1, h2, h3, h4]

/-- A quote's case, and its message (the example of a three-message frame). -/
def quoteCase : ParseCase := { type := 0x41, emit := true, keyOff := 4, keyCtrl := 0x34, extFirst := 0, extCount := 1, minLen := 0 }
def quoteProg : Program :=
  { hdrSkip := 0, maxMsg := 64, lenCtrl := 7, lenVal := 0, lenAdd := 0, typeOff := 2, typeCtrl := 1, ncase := 1, cases := [quoteCase],
    extracts := [⟨8, 8, true, 8⟩] }
def quote : List Byte := [0, 40, 0x41, 0, 0, 1, 0x23, 0x45] ++ toBe 8 100000000 ++ List.replicate 24 0

theorem test_quote_len : msgLen quoteProg quote 0 = 40 := by decide
theorem test_quote_case : msgCase quoteProg quote 0 = some quoteCase := by decide
theorem test_quote_key : (msgFields quoteProg quoteCase quote).2 = (0x0000112345000000, false) := by decide +kernel
theorem test_quote_price : slice (msgFields quoteProg quoteCase quote).1 8 8 = [0x00, 0xE1, 0xF5, 0x05, 0, 0, 0, 0] := by decide +kernel

/-- One product of a MUL: INT8 -37 under s = -3 by the E4M3 code 0x5C is -111 (the example of R105). -/
theorem test_product : enc32 (product (expandM20 .int8 0 (-3) 0xDB).1 (expandM20 .e4m3 0 0 0x5C).1).1 = 0xC2DE0000 := by decide +kernel
/-- A lone product under the slot scale 2^-4. -/
theorem test_dot : enc32 (mulTail (mulBlock .int8 .e4m3 0 (-3) 0 0xDB [0x5C]) (dec32 0x3D800000).1 none none).1 = 0xC0DE0000 := by
  decide +kernel
/-- binary32 rounded to M20, a tie that rounds up (the example of R101). -/
theorem test_m20 : enc32 (expandM20 .binary32 0 0 0x3F801800).1 = 0x3F802000 := by decide +kernel
/-- A chain and the canonical tree disagree at 2^24. -/
def big (w : Nat) : Machine.Num := (dec32 w).1
theorem test_chain : enc32 (addR (addR (addR (big 0x4B800000) (big 0x3F800000)).1 (big 0x3F800000)).1 (big 0x3F800000)).1 = 0x4B800000 := by
  decide +kernel
theorem test_tree : (addTree 2 [big 0x4B800000, big 0x3F800000, big 0x3F800000, big 0x3F800000]).1.map enc32 = [0x4B800001] := by
  decide +kernel

/-- A pinned chunk: 9.296875, -4.625, 0.0703125, 2.3125, -1.0, 5.5, -0.3125, 3.1875 under s = -3 (the example of R142). -/
def chunk : Nat := lanesTo [0x4114C000, 0xC0940000, 0x3D900000, 0x40140000, 0xBF800000, 0x40B00000, 0xBEA00000, 0x404C0000]
def chunkQ := quantLanes .int8 ⟨false, -3, Num.one, 0⟩ false 255 0 chunk 0 0 8
theorem test_quant_codes : chunkQ.1 = leNat [0x4A, 0xDB, 0x01, 0x12, 0xF8, 0x2C, 0xFE, 0x1A] := by decide +kernel
theorem test_quant_stats : let c := Core.reset.convLanes 0 0 0 false chunkQ.2.2.1
    (c.rd (aConv 0 0), c.rd (aConv 0 0 + 8), c.rd (aConv 0 0 + 0x10)) = (8, 0x3C8A8000, 0) := by decide +kernel
theorem test_quant_saturates : let q := quantLanes .int8 ⟨false, -3, Num.one, 0⟩ false 255 0 0x41880000 0 0 8
    let c := (Core.reset.convLanes 0 0 0 false chunkQ.2.2.1).convLanes 0 0 0 false q.2.2.1
    (q.1, c.rd (aConv 0 0), c.rd (aConv 0 0 + 8), c.rd (aConv 0 0 + 0x10)) = (127, 16, 0x3FA42A00, 1) := by decide +kernel
/-- Dynamic scale records: 17.0 under INT8; -1.25 and 2.5, and 0.5 and 4.25, under UINT4 (the examples of R134 and R131). -/
theorem test_param_ma : (paramRecord .int8 false 0 0x41880000).1 = leNat [0, 0, 0x80, 0x3F, 0, 0, 0xFE, 0] := by decide +kernel
theorem test_param_mm : (paramRecord .uint4 true 0 (0xBFA00000 + 0x40200000 * 2 ^ 128)).1 = leNat [0, 0, 0x80, 0x3E, 5, 0, 0, 1] := by
  decide +kernel
theorem test_param_clamp : (paramRecord .uint4 true 0 (0x3F000000 + 0x40880000 * 2 ^ 128)).1 / 2 ^ 56 = 3 := by decide +kernel

/-- LPDDR6 spread (R413): offset 6,720 lies in channel 2 at offset 576. -/
theorem test_lpddr6 : (lpmChannel 6720, lpmOffset 6720) = (2, 576) := by decide

/-- TIME_SLEW: the combined increment of the example of R180 is in range, and the ends of the range of R179 are. -/
theorem test_incr : incrOk 4294741810 = true ∧ incrOk 0xFFC00000 = true ∧ incrOk 0xFFBFFFFF = false ∧ incrOk 0x100400000 = true ∧
    incrOk 0x100400001 = false := by decide

/-- The table's rows carry no bits, so no word spells a command. -/
theorem test_no_words (n w : Nat) : decodeTableWord n w = none := rfl

/-- On an empty queue the block takes one fabric cycle. -/
theorem test_idle_steps : ∃ t, step State.reset = .next t ∧ t.pending = [] := ⟨_, rfl, rfl⟩

end Sys2Proof.Tests
end

