-- ==== Sys2Proof/Proofs/Reset.lean ====
section
/-! PROOF. The step and the block at reset: O58 and O59. -/

namespace Sys2Proof.Machine

theorem step_nil {s : State} (h : s.pending = []) : step s = execTick s := by
  unfold step; rw [h]

theorem step_cons {s : State} {i : Instr} {rest : List Instr} (h : s.pending = i :: rest) :
    step s = exec i { s with pending := rest } := by
  unfold step; rw [h]

/-- A core without stored registers reads reset values (R16). -/
theorem rd_reset (a : Nat) : Core.reset.rd a = rstWord a % 2 ^ 64 := BitVec.toNat_ofNat (rstWord a) 64

end Sys2Proof.Machine

open Sys2Proof Sys2Proof.Machine Sys2Proof.Stated

/-- Settles O58, from the two branches of `step`. -/
theorem stepRunsFront : Obligations.StepRunsFront :=
  ⟨fun _ _ _ h => step_cons h, fun s h => ⟨step_nil h, _, _, (step_nil h).trans (devStep_eq tick s)⟩⟩

/-- Settles O59, by evaluating the state at reset. -/
theorem resetIsClean : Obligations.ResetIsClean := by
  unfold Obligations.ResetIsClean
  refine ⟨?_, ?_, rfl, rd_reset, ?_, ?_, ?_, ?_, rfl⟩
  · unfold Sound; decide
  · intro b; rfl
  · decide
  · intro g; rfl
  · intro e; rfl
  · decide
end

