-- ==== Sys2Proof/Proofs/Unprivileged.lean ====
section
/-! PROOF. What the privileged view guards (R12): no register hook of View P acts for an unprivileged access: O57. -/

namespace Sys2Proof.Machine

/-- A command whose function leaves the core leaves the state. -/
theorem coreStep_same {f : Mem → Core → Core} {s : State} (h : f s.mem s.core = s.core) : coreStep f s = .next s := by
  rw [coreStep_eq, h]

theorem devStep_same {f : Mem → Core → Mem × Core} {s : State} (h : f s.mem s.core = (s.mem, s.core)) : devStep f s = .next s := by
  rw [devStep_eq, h]

section
variable {a : Access} (h : isPriv a = false) (m : Mem) (c : Core) (n k v : Nat)
include h

theorem Core.hRgnCtrl_unpriv : c.hRgnCtrl a n v = c := by unfold Core.hRgnCtrl; split <;> simp [h]
theorem Core.hMeadow_unpriv : c.hMeadow a n v = c := by simp [Core.hMeadow, h]
theorem Core.hConv_unpriv : c.hConv a n k v = c := by simp [Core.hConv, h]
theorem Core.hTimeIncr_unpriv : c.hTimeIncr a v = c := by simp [Core.hTimeIncr, h]
theorem Core.hTimeSlew_unpriv : c.hTimeSlew a v = c := by simp [Core.hTimeSlew, h]
theorem Core.hTimeNowSet_unpriv : c.hTimeNowSet a v = c := by simp [Core.hTimeNowSet, h]
theorem Core.hTickPeriod_unpriv : c.hTickPeriod a v = c := by simp [Core.hTickPeriod, h]
theorem Core.hFordDelay_unpriv : c.hFordDelay a n v = c := by simp [Core.hFordDelay, h]
theorem Core.hEpoch_unpriv : c.hEpoch a v = c := by simp [Core.hEpoch, h]
theorem Core.hLaunchAt_unpriv : c.hLaunchAt a n v = c := by simp [Core.hLaunchAt, h]
theorem Core.hBarrier_unpriv : c.hBarrier a v = c := by simp [Core.hBarrier, h]
theorem Core.hPortCfg_unpriv : c.hPortCfg a v = c := by simp [Core.hPortCfg, h]
theorem Core.hFilterCmd_unpriv : c.hFilterCmd a v = c := by simp [Core.hFilterCmd, h]
theorem Core.hCap_unpriv : c.hCap a n v = c := by simp [Core.hCap, h]
theorem Core.hGate_unpriv : c.hGate a v = c := by simp [Core.hGate, h]
theorem Core.hKeyCfg_unpriv : c.hKeyCfg a v = c := by simp [Core.hKeyCfg, h]
theorem Core.hSlotCmd_unpriv : c.hSlotCmd m a v = c := by simp [Core.hSlotCmd, h]
theorem ringCmd_unpriv : ringCmd m c a v = (m, c) := by simp [ringCmd, h]
theorem Core.hCensusReq_unpriv : c.hCensusReq a v = c := by simp [Core.hCensusReq, h]
theorem Core.hSwap_unpriv : c.hSwap a v = c := by simp [Core.hSwap, h]
theorem hSave_unpriv : hSave m c a n v = (m, c) := by unfold hSave; split <;> simp [h]
theorem Core.hSqTail_unpriv : c.hSqTail a v = c := by simp [Core.hSqTail, h]
theorem hTaskCtrl_unpriv : hTaskCtrl m c a v = (m, c) := by simp [hTaskCtrl, h]
theorem Core.hDigCtrl_unpriv : c.hDigCtrl a n v = c := by simp [Core.hDigCtrl, h]
theorem Core.hRplCtrl_unpriv : c.hRplCtrl a v = c := by simp [Core.hRplCtrl, h]
theorem Core.hPassCfg_unpriv : c.hPassCfg a n v = c := by simp [Core.hPassCfg, h]
theorem Core.hCapArm_unpriv : c.hCapArm m a v = c := by simp [Core.hCapArm, h]
theorem Core.hCapCtrl_unpriv : c.hCapCtrl a v = c := by simp [Core.hCapCtrl, h]
theorem Core.hVltCfg_unpriv : c.hVltCfg a n v = c := by simp [Core.hVltCfg, h]
theorem Core.hKwnCtrl_unpriv : c.hKwnCtrl a v = c := by simp [Core.hKwnCtrl, h]
theorem Core.hPageCtrl_unpriv : c.hPageCtrl a n v = c := by unfold Core.hPageCtrl; split <;> simp [h]
theorem Core.hForce_unpriv : c.hForce a n v = c := by simp [Core.hForce, h]
theorem Core.hErrHead_unpriv : c.hErrHead a n v = c := by simp [Core.hErrHead, h]
theorem Core.hDeadline_unpriv : c.hDeadline a n v = c := by simp [Core.hDeadline, h]
theorem hConfirm_unpriv : hConfirm m c a v = (m, c) := by simp [hConfirm, h]
theorem hUpdCmd_unpriv : hUpdCmd m c a v = (m, c) := by simp [hUpdCmd, h]
theorem hFltCtrl_unpriv : hFltCtrl m c a v = (m, c) := by simp [hFltCtrl, h]
theorem Core.hPwrPt_unpriv : c.hPwrPt a v = c := by simp [Core.hPwrPt, h]

end

end Sys2Proof.Machine

open Sys2Proof Sys2Proof.Machine Sys2Proof.Stated

/-- Settles O57: each command runs the hook of its register, and none acts for an unprivileged access. -/
theorem unprivilegedWritesChangeNothing : Obligations.UnprivilegedWritesChangeNothing := by
  unfold Obligations.UnprivilegedWritesChangeNothing
  intro s a v n k hv
  have h : isPriv a = false := by simp [isPriv, hv]
  simp only [List.forall_mem_cons, List.not_mem_nil, false_imp_iff, implies_true, and_true]
  unfold exec
  exact ⟨coreStep_same (Core.hRgnCtrl_unpriv h ..), coreStep_same (Core.hRgnCtrl_unpriv h ..), coreStep_same (Core.hRgnCtrl_unpriv h ..),
    coreStep_same (Core.hRgnCtrl_unpriv h ..), coreStep_same (Core.hMeadow_unpriv h ..), coreStep_same (Core.hConv_unpriv h ..),
    coreStep_same (Core.hConv_unpriv h ..), coreStep_same (Core.hTimeIncr_unpriv h ..), coreStep_same (Core.hTimeSlew_unpriv h ..),
    coreStep_same (Core.hTimeNowSet_unpriv h ..), coreStep_same (Core.hTickPeriod_unpriv h ..), coreStep_same (Core.hFordDelay_unpriv h ..),
    coreStep_same (Core.hEpoch_unpriv h ..), coreStep_same (Core.hLaunchAt_unpriv h ..), coreStep_same (Core.hBarrier_unpriv h ..),
    coreStep_same (Core.hPortCfg_unpriv h ..), coreStep_same (Core.hFilterCmd_unpriv h ..), coreStep_same (Core.hFilterCmd_unpriv h ..),
    coreStep_same (Core.hFilterCmd_unpriv h ..), coreStep_same (Core.hCap_unpriv h ..), coreStep_same (Core.hCap_unpriv h ..),
    coreStep_same (Core.hGate_unpriv h ..), coreStep_same (Core.hGate_unpriv h ..), coreStep_same (Core.hGate_unpriv h ..),
    coreStep_same (Core.hKeyCfg_unpriv h ..), coreStep_same (Core.hSlotCmd_unpriv h ..), coreStep_same (Core.hSlotCmd_unpriv h ..),
    devStep_same (ringCmd_unpriv h ..), devStep_same (ringCmd_unpriv h ..), devStep_same (ringCmd_unpriv h ..),
    coreStep_same (Core.hCensusReq_unpriv h ..), coreStep_same (Core.hSwap_unpriv h ..), devStep_same (hSave_unpriv h ..),
    devStep_same (hSave_unpriv h ..), coreStep_same (Core.hSqTail_unpriv h ..), devStep_same (hTaskCtrl_unpriv h ..),
    devStep_same (hTaskCtrl_unpriv h ..), coreStep_same (Core.hDigCtrl_unpriv h ..), coreStep_same (Core.hRplCtrl_unpriv h ..),
    coreStep_same (Core.hRplCtrl_unpriv h ..), coreStep_same (Core.hPassCfg_unpriv h ..), coreStep_same (Core.hCapArm_unpriv h ..),
    coreStep_same (Core.hCapCtrl_unpriv h ..), coreStep_same (Core.hVltCfg_unpriv h ..), coreStep_same (Core.hKwnCtrl_unpriv h ..),
    coreStep_same (Core.hPageCtrl_unpriv h ..), coreStep_same (Core.hPageCtrl_unpriv h ..), coreStep_same (Core.hPageCtrl_unpriv h ..),
    coreStep_same (ite_eq_right_iff.mpr fun _ => Core.hForce_unpriv h ..),
    coreStep_same (ite_eq_right_iff.mpr fun _ => Core.hErrHead_unpriv h ..), coreStep_same (Core.hDeadline_unpriv h ..),
    devStep_same (hConfirm_unpriv h ..), devStep_same (hUpdCmd_unpriv h ..), devStep_same (hUpdCmd_unpriv h ..),
    devStep_same (hUpdCmd_unpriv h ..), devStep_same (hUpdCmd_unpriv h ..), devStep_same (hFltCtrl_unpriv h ..),
    devStep_same (hFltCtrl_unpriv h ..), coreStep_same (Core.hPwrPt_unpriv h ..)⟩
end

