-- ==== Sys2Proof/Proofs/Frames.lean ====
section
/-! PROOF LAYER. The parts of the core as one family, and what it means that an update changes only the parts of a list. -/

namespace Sys2Proof.Machine

/-- The parts of the core: one name for each field. -/
inductive Piece where
  | clk | regs | cyc | census | latched | notices | noticeAt | errSeq | sep | ford | fab | key | rgns | comp | task | cap | lanes | kwn
  | sec | flt | pwr | pins | swapArmed | censusArmed | saving | progs | tmpls | out | free
  deriving DecidableEq

/-- What a part holds. -/
@[reducible] def Piece.Holds : Piece → Type
  | .clk => Clk | .regs | .cyc | .census | .latched => Store Word64 | .notices => List Nat | .noticeAt | .errSeq => Store Nat
  | .sep => Sep | .ford => Ford | .fab => Fabric | .key => KeyStage | .rgns => Store Rgn | .comp => Comp | .task => TaskEng
  | .cap => Cap | .lanes => Store Lane | .kwn => Kwn | .sec => Sec | .flt => FltSt | .pwr => Pwr | .pins => Pins
  | .swapArmed => Option (Nat × Nat × Nat) | .censusArmed => Option Nat | .saving => Store (Nat × Nat) | .progs => Store Program
  | .tmpls => Store Template | .out => List Out | .free => Nat

/-- A part of a core. -/
def Core.piece (c : Core) : (x : Piece) → x.Holds
  | .clk => c.clk | .regs => c.regs | .cyc => c.cyc | .census => c.census | .latched => c.latched | .notices => c.notices
  | .noticeAt => c.noticeAt | .errSeq => c.errSeq | .sep => c.sep | .ford => c.ford | .fab => c.fab | .key => c.key
  | .rgns => c.rgns | .comp => c.comp | .task => c.task | .cap => c.cap | .lanes => c.lanes | .kwn => c.kwn | .sec => c.sec
  | .flt => c.flt | .pwr => c.pwr | .pins => c.pins | .swapArmed => c.swapArmed | .censusArmed => c.censusArmed
  | .saving => c.saving | .progs => c.progs | .tmpls => c.tmpls | .out => c.out | .free => c.free

/-- The core with one part replaced. -/
def Core.put (c : Core) : (x : Piece) → x.Holds → Core
  | .clk, v => { c with clk := v } | .regs, v => { c with regs := v } | .cyc, v => { c with cyc := v }
  | .census, v => { c with census := v } | .latched, v => { c with latched := v } | .notices, v => { c with notices := v }
  | .noticeAt, v => { c with noticeAt := v } | .errSeq, v => { c with errSeq := v } | .sep, v => { c with sep := v }
  | .ford, v => { c with ford := v } | .fab, v => { c with fab := v } | .key, v => { c with key := v }
  | .rgns, v => { c with rgns := v } | .comp, v => { c with comp := v } | .task, v => { c with task := v }
  | .cap, v => { c with cap := v } | .lanes, v => { c with lanes := v } | .kwn, v => { c with kwn := v }
  | .sec, v => { c with sec := v } | .flt, v => { c with flt := v } | .pwr, v => { c with pwr := v } | .pins, v => { c with pins := v }
  | .swapArmed, v => { c with swapArmed := v } | .censusArmed, v => { c with censusArmed := v } | .saving, v => { c with saving := v }
  | .progs, v => { c with progs := v } | .tmpls, v => { c with tmpls := v } | .out, v => { c with out := v }
  | .free, v => { c with free := v }

theorem Core.piece_put_ne (c : Core) {x y : Piece} (v : x.Holds) (h : y ≠ x) : (c.put x v).piece y = c.piece y := by
  cases x <;> cases y <;> try rfl
  all_goals exact absurd rfl h

theorem Core.eq_of_piece {c d : Core} (h : ∀ x, d.piece x = c.piece x) : d = c := by
  cases c; cases d
  rw [Core.mk.injEq]
  exact ⟨h .clk, h .regs, h .cyc, h .census, h .latched, h .notices, h .noticeAt, h .errSeq, h .sep, h .ford, h .fab, h .key, h .rgns,
    h .comp, h .task, h .cap, h .lanes, h .kwn, h .sec, h .flt, h .pwr, h .pins, h .swapArmed, h .censusArmed, h .saving, h .progs,
    h .tmpls, h .out, h .free⟩

/-- `d` differs from `c` at most in the parts `l`. -/
def Changes (l : List Piece) (c d : Core) : Prop := ∀ x, x ∉ l → d.piece x = c.piece x

/-- A frame by its list: from `d` come the parts of the list, from `c` all others. -/
def Picks (l : List Piece) (k : Core → Core → Core) : Prop :=
  ∀ c d x, (k c d).piece x = if x ∈ l then d.piece x else c.piece x

namespace Changes

variable {l m : List Piece} {c d e : Core}

theorem refl : Changes l c c := fun _ _ => rfl

theorem trans (h : Changes l c d) (k : Changes m d e) : Changes (l ++ m) c e := fun x hx =>
  (k x fun n => hx (List.mem_append_right l n)).trans (h x fun n => hx (List.mem_append_left m n))

theorem of_forall_mem (h : Changes m c d) (hm : ∀ x ∈ m, x ∈ l) : Changes l c d := fun x hx => h x fun n => hx (hm x n)

/-- A longer list; of two concrete lists `rfl` checks it. -/
theorem mono (h : Changes m c d) (hm : m.all l.contains = true) : Changes l c d :=
  h.of_forall_mem fun x hx => List.contains_iff_mem.mp (List.all_eq_true.mp hm x hx)

theorem ite {p : Prop} [Decidable p] (h : Changes l c d) (k : Changes l c e) : Changes l c (if p then d else e) := by
  split <;> assumption

/-- A step taken only under a condition. -/
theorem stepIf {p : Prop} [Decidable p] (h : Changes l c d) : Changes l c (if p then d else c) := h.ite refl

/-- A step left out under a condition. -/
theorem skipIf {p : Prop} [Decidable p] (h : Changes l c d) : Changes l c (if p then c else d) := refl.ite h

theorem foldl {α : Type} {f : Core → α → Core} (h : ∀ c x, Changes l c (f c x)) (xs : List α) (c : Core) :
    Changes l c (xs.foldl f c) := by
  induction xs generalizing c with
  | nil => exact refl
  | cons x xs ih => exact ((h c x).trans (ih _)).of_forall_mem fun _ hx => (List.mem_append.mp hx).elim id id

theorem put (x : Piece) {v : x.Holds} : Changes [x] c (c.put x v) :=
  fun _ hy => c.piece_put_ne v fun e => hy (e ▸ List.mem_singleton_self _)

/-- A core that keeps all parts but those of a list is the frame's. -/
theorem eq_picks {k : Core → Core → Core} (h : Changes l c d) (hk : Picks l k) : d = k c d := by
  refine Core.eq_of_piece fun x => ?_
  rw [hk]
  split
  case isTrue => rfl
  case isFalse hx => exact h x hx

end Changes

/-- Where a command answers a next state, it is the old one with a core that differs at most in the parts `l`. -/
def CommandChanges (l : List Piece) (i : Instr) : Prop :=
  ∀ s, ∃ d, Changes l s.core d ∧ exec i s = .next { s with core := d }

theorem CommandChanges.keeps {l : List Piece} {k : Core → Core → Core} {i : Instr} (h : CommandChanges l i) (hk : Picks l k) :
    Stated.Keeps k i := by
  intro s t ht
  obtain ⟨d, hd, hn⟩ := h s
  obtain rfl := Host.Outcome.next.inj (hn.symm.trans ht)
  exact congrArg (fun d => ({ s with core := d } : State)) (hd.eq_picks hk)

theorem keeps_all (l : List Piece) {k : Core → Core → Core} {is : List Instr} (hk : Picks l k)
    (h : ∀ i ∈ is, CommandChanges l i) : ∀ i ∈ is, Stated.Keeps k i := fun i hi => (h i hi).keeps hk

/-! ### The shared updates -/

section
variable {c : Core} {a lo w v n p k : Nat}

theorem changes_wr : Changes [.regs] c (c.wr a v) := .put .regs
theorem changes_setF : Changes [.regs] c (c.setF a lo w v) := changes_wr
theorem changes_clearF : Changes [.regs] c (c.clearF a lo w v) := changes_setF
theorem changes_bumpBy : Changes [.regs] c (c.bumpBy a n) := changes_wr.skipIf
theorem changes_bump : Changes [.regs] c (c.bump a) := changes_bumpBy
theorem changes_mark : Changes [.cyc] c (c.mark a n) := .put .cyc
theorem changes_raiseF : Changes [.regs, .cyc] c (c.raiseF a lo) := changes_setF.trans changes_mark
theorem changes_modRgn {g : Nat} {f : Rgn → Rgn} : Changes [.rgns] c (c.modRgn g f) := .put .rgns
theorem changes_emit {o : Out} : Changes [.out] c (c.emit o) := .put .out
theorem changes_setSess {i : Nat} {x : Sess} : Changes [.kwn] c (c.setSess i x) := .put .kwn

theorem changes_setPend : Changes [.regs, .notices] c (c.setPend p n) := by
  unfold Core.setPend
  extract_lets old en d
  have h : Changes [.regs] c d := changes_wr
  exact (h.trans (Changes.put .notices)).ite (h.mono rfl)

theorem changes_event : Changes [.regs, .cyc, .notices] c (c.event p k) := (changes_setPend.trans changes_mark).mono rfl

theorem changes_observe {o : Obs} : Changes [.cap] c (c.observe o) := Changes.skipIf (.put .cap)

theorem changes_logErr {cls code sub src d : Nat} : Changes [.regs, .cyc, .notices, .errSeq] c (c.logErr p cls code sub src d) := by
  intro x hx
  cases x
  case regs | cyc | notices | errSeq => simp at hx
  all_goals simp only [Core.piece]; simp

theorem changes_reject : Changes [.regs, .cyc, .notices, .errSeq] c (c.reject p n v) := changes_logErr

end

end Sys2Proof.Machine
end

