-- ==== Sys2Proof/Proofs/FramesCapture.lean ====
section
/-! PROOF LAYER. The parts of the core that the functions of the capture commands may change. -/

namespace Sys2Proof.Machine

variable {c : Core} {m : Mem} {a : Access} {v n p : Nat}

/-! ### Capture -/

theorem changes_holdoffEnd : Changes [.cap] c c.holdoffEnd := by
  unfold Core.holdoffEnd
  split
  · exact .refl
  · exact .put .cap

theorem changes_captureArmEffect : Changes [.cap] c c.captureArmEffect := by
  unfold Core.captureArmEffect
  split
  · exact (Changes.put .cap).stepIf
  · exact .refl

theorem changes_captureStopEffect : Changes [.cap] c c.captureStopEffect := by
  unfold Core.captureStopEffect
  split
  · exact (Changes.put .cap).stepIf
  · exact .refl

theorem changes_hCapCtrl : Changes [.cap] c (c.hCapCtrl a v) := (Changes.put .cap).stepIf

theorem changes_capArm {t : Nat} {d : Core} (h : c.capArm m p t = some d) : Changes [.cap] c d := by
  unfold Core.capArm at h
  extract_lets i at h
  split at h
  · obtain rfl := Option.some.inj h
    exact .put .cap
  · cases h

theorem changes_hCapArm : Changes [.regs, .cyc, .notices, .errSeq, .cap] c (c.hCapArm m a v) := by
  unfold Core.hCapArm
  split
  · exact .refl
  · extract_lets d
    have h : Changes [.regs] c d := changes_setF
    split
    · exact h.mono rfl
    · split
      case h_1 e he => exact (h.trans (changes_capArm he)).mono rfl
      case h_2 => exact (h.trans (changes_raiseF.trans changes_reject)).mono rfl

end Sys2Proof.Machine
end

