-- ==== Sys2Proof/Proofs/FramesTraffic.lean ====
section
/-! PROOF LAYER. The parts of the core that the functions of the composer, the gate, ports, the filter table and received frames may change. -/

namespace Sys2Proof.Machine

variable {c : Core} {m : Mem} {a : Access} {v n p : Nat}

/-! ### The composer -/

theorem changes_hCap : Changes [.regs, .cyc, .notices, .errSeq, .comp] c (c.hCap a n v) := by
  have two {r p b : Nat} : Changes [.regs] c ((c.setF r 0 32 p).setF r 32 16 b) := (changes_setF.trans changes_setF).mono rfl
  unfold Core.hCap
  extract_lets r p b d
  refine .skipIf (.ite (.ite (changes_reject.mono rfl) (two.mono rfl)) (.ite (two.mono rfl) (.ite (changes_reject.mono rfl) ?_)))
  exact ((two.trans changes_setF).trans (.put .comp)).mono rfl

theorem changes_flushTx {t : Nat} : Changes [.comp, .out] c (c.flushTx n t) := by
  unfold Core.flushTx
  split
  · exact .refl
  · exact ((changes_emit.trans (.put .comp)).mono rfl).stepIf

theorem changes_modResults {s : Result → Bool} {f : Result → Result} : Changes [.comp] c (c.modResults s f) := .put .comp

theorem changes_stompTx {t : Nat} {s : TxFrame → Bool} : Changes [.regs, .comp, .out] c (c.stompTx n t s) := by
  unfold Core.stompTx
  extract_lets d
  have h : Changes [.comp, .out] c d := changes_flushTx
  split
  · exact h.mono rfl
  · split
    · exact h.mono rfl
    · exact ((((h.trans changes_bump).trans changes_modResults).trans changes_emit).trans (.put .comp)).mono rfl

theorem changes_closeGate : Changes [.regs, .comp, .out] c c.closeGate := .foldl (fun _ _ => changes_stompTx) _ c

theorem changes_hGate : Changes [.regs, .comp, .out] c (c.hGate a v) := by
  unfold Core.hGate
  split
  · exact .refl
  · extract_lets may d
    have h : Changes [.regs] c d := changes_clearF.stepIf
    refine .ite (.ite ((h.trans changes_setF).mono rfl) (h.mono rfl)) ?_
    exact ((h.trans changes_setF).trans changes_closeGate).mono rfl

/-! ### The Separator -/

theorem changes_filterRej : Changes [.regs, .cyc, .notices, .errSeq] c (c.filterRej v) := (changes_raiseF.trans changes_reject).mono rfl

theorem changes_hFilterCmd : Changes [.regs, .cyc, .notices, .errSeq, .sep] c (c.hFilterCmd a v) := by
  unfold Core.hFilterCmd
  extract_lets i op
  refine .skipIf (.ite ?_ (.skipIf ?_))
  · exact (Changes.foldl (fun _ _ => changes_wr) _ c).mono rfl
  · extract_lets
    exact .ite (changes_filterRej.mono rfl) (((Changes.put .sep).trans changes_setF).mono rfl)

theorem changes_filterChangeEffect : Changes [.sep] c c.filterChangeEffect := by
  unfold Core.filterChangeEffect
  split
  · exact (Changes.put .sep).stepIf
  · exact .refl

theorem changes_filterPendingClear : Changes [.regs, .sep] c c.filterPendingClear := by
  unfold Core.filterPendingClear
  split
  · exact (((Changes.put .sep).trans changes_setF).mono rfl).stepIf
  · exact .refl

theorem changes_linkLoss : Changes [.regs, .sep] c (c.linkLoss n) := ((changes_setF.trans (.put .sep)).mono rfl).skipIf

theorem changes_hPortCfg : Changes [.regs, .cyc, .notices, .errSeq, .sep] c (c.hPortCfg a v) := by
  unfold Core.hPortCfg
  split
  · exact .refl
  · extract_lets r old bad d e new
    have hd : Changes [.regs, .cyc, .notices, .errSeq] c d := .ite changes_reject (changes_setF.mono rfl)
    have he : Changes [.regs] d e := ((changes_setF.trans changes_setF).trans changes_setF).mono rfl
    have port (c : Core) (p : Nat) : Changes [.regs, .sep] c
        (if bit new p && !bit old p then { c with sep := { c.sep with counts := Store.set c.sep.counts 0 p 0 } }
         else if bit old p && !bit new p then c.setF (pPort + 0x88) p 1 0 else c) :=
      .ite ((Changes.put .sep).mono rfl) (changes_setF.mono rfl).stepIf
    exact ((hd.trans he).trans (.foldl port _ e)).mono rfl

theorem changes_fecCorrected : Changes [.regs] c (c.fecCorrected n p) := changes_setF.skipIf

/-- Of the core, classifying a frame only counts what it drops. -/
theorem changes_classify {num t : Nat} {b : List Byte} : Changes [.regs] c (c.classify n num t b).1 := by
  unfold Core.classify
  extract_lets f implied f'
  split
  · exact changes_bump
  · split_ifs
    · exact .refl
    · exact .refl
    · exact .refl
    · exact .refl
    · exact changes_bump
    · split
      · exact changes_bump
      · exact .refl

theorem changes_frameStart {d k : Nat} {b : List Byte} : Changes [.regs, .sep, .cap] c (c.frameStart n p d k b) := by
  unfold Core.frameStart
  extract_lets t e num _ f r _ _ _ g
  have he : Changes [.regs] c e := changes_fecCorrected.stepIf
  have hf : Changes [.regs, .sep] c f := (he.trans (.put .sep)).mono rfl
  have hr : Changes [.regs, .sep] c r.1 := ((hf.trans changes_bump).trans changes_classify).mono rfl
  have hg : Changes [.regs, .sep] c g := (hr.trans (.put .sep)).mono rfl
  exact .ite (he.mono rfl) (.ite (hg.mono rfl) ((hg.trans changes_observe).mono rfl))

theorem changes_sendEvent {e : FordEv} : Changes [.sep, .cap] c (c.sendEvent e n p) := (Changes.put .sep).trans changes_observe

end Sys2Proof.Machine
end

