-- ==== Sys2Proof/Proofs/FramesKeys.lean ====
section
/-! PROOF LAYER. The parts of the core that the functions of edges on pins, KEY tables, stalls, drains and replay may change. -/

namespace Sys2Proof.Machine

variable {c : Core} {m : Mem} {a : Access} {v n p k : Nat} {on : Bool}

/-! ### Pins whose edges are events -/

theorem changes_pinEvent : Changes [.sep, .cap] c (c.pinEvent n p) := changes_sendEvent

theorem changes_tinPush : Changes [.pins] c (c.tinPush n p on) := Changes.ite (.put .pins) (.put .pins)

theorem changes_tinEdge : Changes [.regs, .cyc, .sep, .cap, .pins] c (c.tinEdge n p on k) := by
  unfold Core.tinEdge
  extract_lets r _ d t e f
  have hd : Changes [.pins] c d := .put .pins
  have he : Changes [.regs, .cyc, .pins] c e :=
    .ite (((hd.trans changes_wr).trans changes_mark).mono rfl) (hd.mono rfl)
  have hf : Changes [.regs, .cyc, .cap, .pins] c f := ((he.trans changes_tinPush).trans changes_observe).mono rfl
  exact .skipIf (.ite (changes_bump.mono rfl).stepIf
    (.ite (hd.mono rfl) (.ite (he.mono rfl) (.ite ((hf.trans changes_pinEvent).mono rfl) (hf.mono rfl)))))

theorem changes_trigInEdge : Changes [.regs, .sep, .cap, .pins] c (c.trigInEdge n p on k) := by
  unfold Core.trigInEdge
  extract_lets r d _ e t f
  have hd : Changes [.regs] c d := changes_setF
  have he : Changes [.regs, .pins] c e := hd.trans (.put .pins)
  have hf : Changes [.regs, .cap, .pins] c f := (he.trans changes_observe).mono rfl
  exact .skipIf (.ite (.ite (changes_bump.mono rfl) (changes_bump.mono rfl))
    (.ite (he.mono rfl) (.ite ((hf.trans changes_pinEvent).mono rfl) (hf.mono rfl))))

/-! ### KEY tables -/

theorem changes_slotRej : Changes [.regs, .cyc, .notices, .errSeq] c (c.slotRej v) := (changes_raiseF.trans changes_reject).mono rfl

theorem changes_hSlotCmd : Changes [.regs, .cyc, .notices, .errSeq, .key] c (c.hSlotCmd m a v) := by
  unfold Core.hSlotCmd
  extract_lets op
  refine .skipIf ?_
  split
  · exact changes_slotRej.mono rfl
  · extract_lets
    exact .ite ((changes_wr.trans changes_wr).mono rfl) (.ite (changes_slotRej.mono rfl) (((Changes.put .key).trans changes_setF).mono rfl))

theorem changes_ringEnd : Changes [.regs, .key] c (c.ringEnd n) := changes_wr.trans (.put .key)

theorem changes_ringReadBusy : Changes [.regs, .key] c c.ringReadBusy := by
  unfold Core.ringReadBusy
  split
  · exact changes_ringEnd.stepIf
  · exact .refl

theorem changes_ringCommandDone : Changes [.regs, .key] c c.ringCommandDone := by
  unfold Core.ringCommandDone
  split
  · exact changes_ringEnd.skipIf
  · exact .refl

theorem changes_snapshotTick : Changes [.regs, .key] c c.snapshotTick := by
  unfold Core.snapshotTick
  split
  · exact (((Changes.put .key).trans changes_wr).mono rfl).stepIf
  · exact .refl

/-! ### Regions -/

theorem changes_applyFord : Changes [.regs] c (c.applyFord n) := ((changes_setF.trans changes_setF).mono rfl).stepIf

theorem changes_onQuiet : Changes [.regs, .rgns] c (c.onQuiet n) := by
  unfold Core.onQuiet
  extract_lets d e
  have hd : Changes [.regs] c d := changes_applyFord
  have he : Changes [.regs, .rgns] c e := hd.trans changes_modRgn
  exact .ite (hd.mono rfl) (.ite he ((he.trans changes_setF).mono rfl))

theorem changes_drainComplete : Changes [.regs, .rgns] c (c.drainComplete n) := ((changes_modRgn.trans changes_onQuiet).mono rfl).stepIf

theorem changes_beginStall {items : List Overdue} : Changes [.regs, .rgns] c (c.beginStall n items) := by
  unfold Core.beginStall
  extract_lets d
  have hd : Changes [.regs] c d := changes_bump.stepIf
  exact hd.trans changes_modRgn

theorem changes_stallStart {items : List Overdue} : Changes [.regs, .rgns] c (c.stallStart m n items) := changes_beginStall.stepIf

theorem changes_rplHalt : Changes [.regs] c c.rplHalt := (changes_setF.trans changes_setF).mono rfl

theorem changes_rplStart : Changes [.regs, .rgns] c c.rplStart := by
  unfold Core.rplStart
  extract_lets d gs e
  have he : Changes [.rgns] c e := .foldl (fun _ _ => changes_modRgn) _ c
  exact .skipIf (((((he.trans changes_setF).trans changes_setF).trans changes_setF).trans changes_setF).mono rfl)

theorem changes_rplStop : Changes [.regs, .rgns] c c.rplStop := by
  unfold Core.rplStop
  extract_lets d e
  have hd : Changes [.regs] c d := (changes_rplHalt.trans changes_setF).mono rfl
  have he : Changes [.regs, .rgns] c e := (hd.trans (.foldl (fun _ _ => changes_onQuiet.stepIf) _ d)).mono rfl
  exact .ite he ((he.trans changes_setF).mono rfl)

theorem changes_hRplCtrl : Changes [.regs, .rgns] c (c.hRplCtrl a v) := by
  unfold Core.hRplCtrl
  extract_lets both d e
  have hd : Changes [.regs] c d := changes_setF.stepIf
  have he : Changes [.regs, .rgns] c e := .ite ((hd.trans changes_rplStart).mono rfl) (hd.mono rfl)
  exact .skipIf (.ite ((he.trans changes_rplStop).mono rfl) he)

end Sys2Proof.Machine
end

