-- ==== Sys2Proof/Proofs/FramesPins.lean ====
section
/-! PROOF LAYER. The parts of the core that the functions of memories and power points, lanes, pins, launches, converters and digests may change. -/

namespace Sys2Proof.Machine

variable {c : Core} {m : Mem} {a : Access} {v n p k : Nat} {t : Int}

/-! ### Vaults, LPDDR6 and power points -/

theorem changes_vaultSensor : Changes [.regs, .pwr] c (c.vaultSensor n t) := changes_setF.trans (.put .pwr)

theorem changes_vaultHotEnter : Changes [.regs, .pwr] c (c.vaultHotEnter n t) := changes_vaultSensor.stepIf

theorem changes_vaultHotExit : Changes [.regs, .pwr] c (c.vaultHotExit n t) := by
  unfold Core.vaultHotExit
  extract_lets d
  have hd : Changes [.regs, .pwr] c d := changes_vaultSensor
  refine .skipIf ?_
  split
  · exact .ite ((hd.trans (.put .pwr)).mono rfl) hd
  · exact hd

theorem changes_lpmRecal : Changes [.regs, .pwr] c (c.lpmRecal n) := Changes.skipIf (changes_bump.trans (.put .pwr))

theorem changes_driveVid : Changes [.regs] c (c.driveVid v) := .foldl (fun _ _ => changes_wr) _ c

theorem changes_standbyLock {b : Bool} : Changes [.regs] c (c.standbyLock b) := .foldl (fun _ _ => changes_setF) _ c

theorem changes_ptArm : Changes [.regs, .pwr] c (c.ptArm n v) := by
  unfold Core.ptArm
  extract_lets up d
  have hd : Changes [.regs] c d := (((changes_driveVid.stepIf).trans changes_standbyLock).trans changes_setF).mono rfl
  exact hd.trans (.put .pwr)

theorem changes_hPwrPt : Changes [.regs, .cyc, .notices, .errSeq, .pwr] c (c.hPwrPt a v) := by
  unfold Core.hPwrPt
  extract_lets d e
  have he : Changes [.regs] c e := (changes_setF.trans changes_clearF).mono rfl
  exact .skipIf (.ite (he.mono rfl)
    (.ite (((he.trans changes_raiseF).trans changes_reject).mono rfl) ((he.trans changes_ptArm).mono rfl)))

/-! ### Lanes -/

theorem changes_setLane {x : Lane} : Changes [.lanes] c (c.setLane n x) := .put .lanes

theorem changes_setLaneState : Changes [.regs] c (c.setLaneState n k) := changes_setF

theorem changes_laneLocked : Changes [.regs, .lanes] c (c.laneLocked n) := (changes_setLaneState.trans changes_setLane).skipIf

theorem changes_markerSend : Changes [.lanes, .out] c (c.markerSend n p) := (changes_setLane.trans changes_emit).skipIf

theorem changes_markerReceive {rx : LaneChars} : Changes [.regs, .lanes] c (c.markerReceive n p rx) := by
  unfold Core.markerReceive
  extract_lets b viol d x t t4 e r
  have hd : Changes [.regs] c d := changes_bumpBy.skipIf
  have he : Changes [.regs, .lanes] c e := hd.trans changes_setLane
  refine .ite (hd.mono rfl) ?_
  split
  · exact .ite (((((he.trans changes_wr).trans changes_wr).trans changes_wr).trans changes_wr).mono rfl) he
  · exact he

theorem changes_peerFault {f : Bool} : Changes [.regs, .cyc, .notices, .lanes] c (c.peerFault n f) := by
  unfold Core.peerFault
  extract_lets _ d
  have hd : Changes [.lanes] c d := changes_setLane
  exact .ite (((hd.trans changes_raiseF).trans changes_event).mono rfl) (hd.mono rfl)

theorem changes_decideLane {b : List Byte} : Changes [.regs, .sep, .lanes] c (c.decideLane n b) := by
  unfold Core.decideLane
  extract_lets common same d _ e
  have hd : Changes [.regs] c d := ((changes_setF.trans changes_setF).trans changes_setF).mono rfl
  have he : Changes [.regs, .sep] c e := hd.trans (.put .sep)
  exact .ite (((he.trans changes_setLane).trans changes_setLaneState).mono rfl) ((hd.trans changes_setLaneState).mono rfl)

theorem changes_versionSet {rx : LaneChars} : Changes [.regs, .cyc, .notices, .sep, .lanes] c (c.versionSet n rx) := by
  unfold Core.versionSet
  extract_lets d b adv e x seen f
  have hd : Changes [.regs] c d := changes_bumpBy
  have hf : Changes [.regs, .cyc, .notices, .lanes] c f := ((hd.trans changes_peerFault).trans changes_setLane).mono rfl
  exact .skipIf (.ite (hd.mono rfl) (.ite (.ite ((hf.trans changes_decideLane).mono rfl) (hf.mono rfl))
    (.ite (hf.mono rfl) ((hf.trans changes_setLaneState).mono rfl))))

theorem changes_vaultUe : Changes [.regs, .cyc, .notices, .errSeq] c (c.vaultUe n v) := (changes_bump.trans changes_logErr).mono rfl

theorem changes_ueLog : Changes [.regs, .cyc, .notices, .errSeq] c (c.ueLog n v) := changes_logErr

theorem changes_wordUe : Changes [.regs, .cyc, .notices, .errSeq] c (c.wordUe n) := by
  unfold Core.wordUe
  extract_lets ch
  exact .ite ((changes_bump.trans changes_logErr).mono rfl) (.ite changes_vaultUe changes_ueLog)

theorem changes_readUe : Changes [.regs, .cyc, .notices, .errSeq] c (c.readUe m n p) := .foldl (fun _ _ => changes_wordUe) _ c

theorem changes_lpmMoved : Changes [.regs] c (c.lpmMoved n p k) := changes_bumpBy.stepIf

theorem changes_sendPacket {pay : List Byte} : Changes [.regs, .out] c (c.sendPacket n p k pay) :=
  (changes_emit.trans changes_bump).mono rfl

theorem changes_ltxRej : Changes [.regs, .cyc, .notices, .errSeq] c (c.ltxRej n v) := (changes_raiseF.trans changes_reject).mono rfl

theorem changes_hLtx : Changes [.regs, .cyc, .notices, .errSeq, .lanes, .out] c (c.hLtx m a n v) := by
  unfold Core.hLtx
  extract_lets d addr len x bytes y e
  have hd : Changes [.regs] c d := changes_clearF
  have he : Changes [.regs, .cyc, .notices, .errSeq, .lanes] c e :=
    (((hd.trans changes_setLane).trans changes_readUe).trans changes_lpmMoved).mono rfl
  exact .skipIf (.ite (hd.mono rfl) (.ite ((hd.trans changes_ltxRej).mono rfl) (.ite ((he.trans changes_sendPacket).mono rfl) (he.mono rfl))))

/-! ### Pins, launches and the barrier -/

theorem changes_latch : Changes [.latched] c (c.latch n v) := .put .latched

theorem changes_tinPop : Changes [.latched, .pins] c (c.tinPop n) := by
  unfold Core.tinPop
  extract_lets hi
  split
  · exact changes_latch.mono rfl
  · exact ((Changes.put .pins).trans changes_latch).mono rfl

theorem changes_txtsPop : Changes [.latched, .pins] c c.txtsPop := by
  unfold Core.txtsPop
  split
  · exact (changes_latch.trans changes_latch).mono rfl
  · exact (((Changes.put .pins).trans changes_latch).trans changes_latch).mono rfl

theorem changes_setTout {x : Tout} : Changes [.pins] c (c.setTout n x) := .put .pins

theorem changes_toutEdge : Changes [.pins, .out] c (c.toutEdge n) := (changes_setTout.trans changes_emit).skipIf

theorem changes_toutPulseEnd : Changes [.pins, .out] c (c.toutPulseEnd n) := by
  unfold Core.toutPulseEnd
  extract_lets x
  split
  · exact (changes_setTout.trans changes_emit).skipIf
  · exact .refl

theorem changes_killDeassert : Changes [.regs, .pins] c c.killDeassert := changes_setF.trans (.put .pins)

theorem changes_launchMissed : Changes [.regs, .cyc, .notices] c c.launchMissed := (changes_raiseF.trans changes_event).mono rfl

theorem changes_hLaunchAt : Changes [.regs, .cyc, .notices, .pins] c (c.hLaunchAt a n v) := by
  unfold Core.hLaunchAt
  have arm {w : Nat} {l : List Nat} : Changes [.regs, .pins] c
      { c.wr (pTime + 0x100 + 8 * n) w with pins := { c.pins with launchArmed := l } } := changes_wr.trans (.put .pins)
  exact .skipIf (.ite (arm.mono rfl) (.ite (changes_launchMissed.mono rfl) (arm.mono rfl)))

theorem changes_sendBarrier : Changes [.out] c (c.sendBarrier n) := .foldl (fun _ _ => changes_emit) _ c

theorem changes_barRelease : Changes [.regs, .pins, .out] c c.barRelease := by
  unfold Core.barRelease
  extract_lets d
  have hd : Changes [.regs, .out] c d := (changes_sendBarrier.trans changes_setF).mono rfl
  exact ((hd.trans changes_setF).trans (.put .pins)).mono rfl

theorem changes_barProgress : Changes [.regs, .out] c c.barProgress := by
  unfold Core.barProgress
  extract_lets want d
  have hd : Changes [.regs] c d := changes_setF
  exact .stepIf (.ite (hd.mono rfl) (hd.trans changes_sendBarrier))

theorem changes_hBarrier : Changes [.regs, .out] c (c.hBarrier a v) := by
  unfold Core.hBarrier
  extract_lets d st
  have hd : Changes [.regs] c d := (((changes_setF.trans changes_setF).trans changes_setF).trans changes_setF).mono rfl
  exact .skipIf (.ite ((((hd.trans changes_setF).trans changes_setF).trans changes_barProgress).mono rfl) (hd.mono rfl))

theorem changes_barrierToken : Changes [.regs, .pins, .out] c (c.barrierToken n) :=
  .skipIf (.ite (changes_barRelease.stepIf) ((changes_setF.trans changes_barProgress).mono rfl).stepIf)

theorem changes_restartCells : Changes [.fab] c (c.restartCells n) := .put .fab

theorem changes_resolveAll : Changes [.sep] c (c.resolveAll n) := .put .sep

theorem changes_launchRgn : Changes [.regs, .sep, .ford, .fab, .rgns] c (c.launchRgn n p k) := by
  unfold Core.launchRgn
  extract_lets d old _ e f r
  have hd : Changes [.sep, .fab] c d := (changes_restartCells.trans changes_resolveAll).mono rfl
  have he : Changes [.sep, .ford, .fab] c e := (hd.trans (.put .ford)).mono rfl
  have hf : Changes [.sep, .ford, .fab, .rgns] c f := (he.trans changes_modRgn).mono rfl
  exact ((((hf.trans changes_wr).trans changes_wr).trans changes_wr).trans changes_wr).mono rfl

theorem changes_launch : Changes [.regs, .cyc, .notices, .sep, .ford, .fab, .rgns, .pins] c (c.launch n) := by
  unfold Core.launch
  extract_lets count first _ d
  have hd : Changes [.pins] c d := .put .pins
  exact .skipIf (.ite (hd.mono rfl) (.ite ((hd.trans changes_launchRgn).mono rfl) ((hd.trans changes_launchMissed).mono rfl)))

theorem changes_barrierLaunch : Changes [.regs, .cyc, .notices, .sep, .ford, .fab, .rgns, .pins] c c.barrierLaunch := by
  unfold Core.barrierLaunch
  split
  · exact .refl
  · refine .skipIf ?_
    extract_lets tick rs d
    have hd : Changes [.regs, .cyc, .notices, .sep, .ford, .fab, .rgns] c d :=
      .foldl (fun _ _ => .ite (changes_launchRgn.mono rfl) (changes_launchMissed.mono rfl)) _ c
    exact ((hd.trans changes_setF).trans (.put .pins)).mono rfl

/-! ### Converters and digests -/

theorem changes_setConvWin {w : ConvWin} : Changes [.fab] c (c.setConvWin n k w) := .put .fab

theorem changes_calEvent {tag : Tag} {set : Bool} : Changes [.regs, .cyc, .notices, .fab] c (c.calEvent n k tag set) := by
  unfold Core.calEvent
  extract_lets d keep e _ f
  have hd : Changes [.regs, .cyc] c d := changes_wr.trans changes_mark
  have he : Changes [.regs, .cyc] c e := .ite hd (((hd.trans changes_wr).trans changes_mark).mono rfl)
  exact ((he.trans (.put .fab)).trans changes_event).mono rfl

theorem changes_countLane {tag : Tag} {set : Bool} {l : LaneStat} :
    Changes [.regs, .cyc, .notices, .fab] c (c.countLane n k tag set l) := by
  unfold Core.countLane
  extract_lets r d e f thr w w' hit g w''
  have he : Changes [.regs] c e := .ite ((changes_bump.trans changes_bump).mono rfl) changes_bump
  have hf : Changes [.regs] c f := by
    unfold f
    split
    · exact he
    · exact (he.trans changes_wr).mono rfl
  have hg : Changes [.regs, .cyc, .notices, .fab] c g := .ite ((hf.trans changes_calEvent).mono rfl) (hf.mono rfl)
  exact .skipIf ((hg.trans changes_setConvWin).mono rfl)

theorem changes_convClr : Changes [.regs, .cyc, .notices, .fab] c (c.convClr n k) := by
  unfold Core.convClr
  extract_lets r d
  have hd : Changes [.regs, .fab] c d := (((changes_wr.trans changes_wr).trans changes_wr).trans changes_setConvWin).mono rfl
  exact (hd.trans (.foldl (fun _ _ => changes_countLane) _ d)).mono rfl

theorem changes_hConv : Changes [.regs, .cyc, .notices, .fab] c (c.hConv a n k v) := by
  unfold Core.hConv
  extract_lets r w d e f
  have hd : Changes [.regs] c d := changes_setF
  have he : Changes [.regs] c e := .ite ((hd.trans changes_setF).mono rfl) hd
  have hf : Changes [.regs, .fab] c f := he.trans changes_setConvWin
  exact .skipIf (.ite ((hf.trans changes_convClr).mono rfl) (hf.mono rfl))

theorem changes_digPush {b : List Byte} : Changes [.regs, .fab] c (c.digPush n b) := by
  unfold Core.digPush
  extract_lets f new old f' _ d
  have hd : Changes [.fab] c d := .put .fab
  exact .ite ((hd.trans changes_bump).mono rfl) (hd.mono rfl)

theorem changes_flushCell {e : Nat × Nat × StrCtx} : Changes [.regs, .fab] c (c.flushCell n e) := by
  unfold Core.flushCell
  extract_lets w x
  have hx : Changes [] c x.2 := by
    unfold x
    split <;> exact .refl
  exact (hx.trans changes_digPush).mono rfl

theorem changes_hDigCtrl : Changes [.regs, .fab] c (c.hDigCtrl a n v) := (Changes.foldl (fun _ _ => changes_flushCell) _ c).stepIf

theorem changes_digPop : Changes [.latched, .fab] c (c.digPop n) := by
  unfold Core.digPop
  split
  · exact .refl
  · extract_lets _ d
    have hd : Changes [.fab] c d := .put .fab
    exact (hd.trans (.foldl (fun _ _ => changes_latch) _ d)).mono rfl

end Sys2Proof.Machine
end

