-- ==== Sys2Proof/Proofs/FramesSessions.lean ====
section
/-! PROOF LAYER. The parts of the core that the functions of Kwanan sessions, the mailbox, census, swaps, copies and clocks may change. -/

namespace Sys2Proof.Machine

variable {c : Core} {m : Mem} {a : Access} {v n p k s : Nat} {x : Sess} {h : KwnHdr}

/-! ### Kwanan -/

theorem changes_message {t f r q : Nat} {b : List Byte} : Changes [.kwn, .out] c (c.message s x t f r q b) := by
  intro y hy
  cases y
  case kwn | out => simp at hy
  all_goals rfl

theorem changes_openAck {host : HostAddr} {e st j i nonce : Nat} : Changes [.kwn, .out] c (c.openAck s e host st j i nonce) := by
  intro y hy
  cases y
  case kwn | out => simp at hy
  all_goals rfl

theorem changes_sendAck {gap close : Bool} : Changes [.kwn, .out] c (c.sendAck s gap close) := by
  unfold Core.sendAck
  split
  · exact .refl
  · exact (changes_setSess.trans changes_message).mono rfl

theorem changes_sendTo {t r : Nat} {b : List Byte} {e : Option Nat} : Changes [.kwn, .out] c (c.sendTo s t r b e) := by
  unfold Core.sendTo
  split
  · exact .refl
  · exact (changes_setSess.trans changes_message).mono rfl

theorem changes_kwnResend : Changes [.regs, .kwn, .out] c (c.kwnResend s) := by
  unfold Core.kwnResend
  split
  · exact .refl
  · extract_lets d
    have hd : Changes [.regs, .kwn] c d := (changes_setSess.trans changes_bumpBy).mono rfl
    exact (hd.trans (.foldl (fun _ _ => changes_message) _ d)).mono rfl

theorem changes_dropHolder : Changes [.sec] c (c.dropHolder s) := Changes.stepIf (.put .sec)

theorem changes_closeSess : Changes [.kwn, .sec] c (c.closeSess s) := by
  unfold Core.closeSess
  split
  · exact .refl
  · exact (Changes.put .kwn).trans changes_dropHolder

theorem changes_discard : Changes [.regs] c c.discard := changes_bump

theorem changes_newNonce : Changes [.kwn] c c.newNonce.2 := .put .kwn

theorem changes_sendChallenge : Changes [.kwn, .out] c (c.sendChallenge s) := by
  unfold Core.sendChallenge
  split
  · exact .refl
  · extract_lets nonce d
    have hd : Changes [.kwn] c d := (changes_newNonce.trans changes_setSess).mono rfl
    exact .ite (changes_setSess.mono rfl) ((hd.trans changes_sendTo).mono rfl)

theorem changes_ackUpTo : Changes [.regs, .kwn, .out] c (c.ackUpTo s k) := by
  unfold Core.ackUpTo
  split
  · exact .refl
  · extract_lets done d e
    have hd : Changes [.kwn] c d := changes_setSess
    have he : Changes [.regs, .kwn] c e := by
      unfold e
      split
      · exact (hd.trans changes_wr).mono rfl
      · exact hd.mono rfl
    exact .skipIf (.ite ((he.trans changes_sendChallenge).mono rfl) (he.mono rfl))

theorem changes_kwnArrive : Changes [.regs, .kwn, .sec, .out] c (c.kwnArrive h x) := by
  unfold Core.kwnArrive
  extract_lets d e f
  have hd : Changes [.kwn] c d := changes_setSess
  have he : Changes [.regs, .kwn, .out] c e := .ite ((hd.trans changes_ackUpTo).mono rfl) (hd.mono rfl)
  have hf : Changes [.regs, .kwn, .out] c f := .ite ((he.trans changes_kwnResend).mono rfl) he
  exact .ite (((hf.trans changes_sendAck).trans changes_closeSess).mono rfl) (hf.mono rfl)

theorem changes_openSess {b : OpenBody} : Changes [.regs, .kwn, .out] c (c.openSess h b) := by
  unfold Core.openSess
  extract_lets rom no epoch y
  have hno (st : Nat) : Changes [.regs, .kwn, .out] c (no st) := changes_openAck.mono rfl
  split
  · exact changes_openAck.mono rfl
  · refine .ite (hno 4) ?_
    split
    · exact hno 1
    · split
      · exact hno 2
      · refine .ite (hno 3) ?_
        extract_lets d _ e f
        have hd : Changes [.regs, .kwn] c d := (((changes_wr.trans changes_wr).trans changes_wr).trans changes_setSess).mono rfl
        have hf : Changes [.regs, .kwn, .out] c f := ((hd.trans (.put .kwn)).trans changes_openAck).mono rfl
        exact .ite ((hf.trans changes_sendChallenge).mono rfl) hf

theorem changes_openMsg {b : OpenBody} : Changes [.regs, .kwn, .out] c (c.openMsg h b) :=
  .skipIf (.ite (changes_discard.mono rfl) changes_openSess)

theorem changes_ackMsg : Changes [.regs, .kwn, .sec, .out] c (c.ackMsg h) := by
  unfold Core.ackMsg
  refine .skipIf ?_
  split
  · exact changes_discard.mono rfl
  · exact changes_kwnArrive

theorem changes_standaloneAck : Changes [.kwn, .out] c (c.standaloneAck s) := by
  unfold Core.standaloneAck
  split
  · exact .refl
  · exact changes_sendAck.stepIf

theorem changes_captureData : Changes [.kwn, .out] c (c.captureData m) := by
  unfold Core.captureData
  split
  · exact .refl
  · extract_lets p wr n e
    split
    · exact .refl
    · exact .skipIf (((Changes.put .kwn).trans changes_sendTo).mono rfl)

theorem changes_rtoExpiry : Changes [.regs, .kwn, .sec, .out] c (c.rtoExpiry s) := by
  unfold Core.rtoExpiry
  split
  · exact .refl
  · exact .skipIf (.ite (changes_closeSess.mono rfl) ((changes_setSess.trans changes_kwnResend).mono rfl))

theorem changes_idleClose : Changes [.kwn, .sec] c (c.idleClose s) := by
  unfold Core.idleClose
  split
  · exact .refl
  · exact changes_closeSess.stepIf

theorem changes_hKwnCtrl : Changes [.kwn, .sec] c (c.hKwnCtrl a v) := changes_closeSess.stepIf

/-! ### The mailbox -/

theorem changes_mbxEnd : Changes [.sec] c (c.mbxEnd n) := .put .sec

theorem changes_mbxRun {key : List Byte} : Changes [.sec] c (c.mbxRun n key) := .put .sec

theorem changes_mbxWrite {b : List Byte} : Changes [.regs] c (c.mbxWrite b) := .foldl (fun _ _ => changes_wr) _ c

theorem changes_mbxCmd {work : Core → Core} (hw : ∀ d, Changes [.regs, .cyc, .notices, .errSeq, .kwn, .sec] d (work d)) :
    Changes [.regs, .cyc, .notices, .errSeq, .kwn, .sec] c (c.mbxCmd s n work) := by
  have hs : Changes [.sec] c { c with sec := { c.sec with since := c.now } } := .put .sec
  exact .skipIf (.ite (changes_reject.mono rfl) (.ite (changes_mbxEnd.mono rfl) ((hs.trans (hw _)).mono rfl)))

theorem changes_mbxClaim : Changes [.regs, .cyc, .notices, .errSeq, .sec] c (c.mbxClaim s) :=
  .skipIf (.ite (changes_reject.mono rfl) ((Changes.put .sec).mono rfl))

theorem changes_mbxChallenge : Changes [.regs, .kwn, .sec] c c.mbxChallenge := by
  unfold Core.mbxChallenge
  extract_lets nonce d
  have hd : Changes [.regs, .kwn] c d := (changes_newNonce.trans changes_mbxWrite).mono rfl
  exact .ite (changes_mbxEnd.mono rfl) (((hd.trans (.put .sec)).trans changes_mbxEnd).mono rfl)

theorem changes_mbxEnrol : Changes [.sec] c (c.mbxEnrol s) := by
  unfold Core.mbxEnrol
  extract_lets key len proof _ d
  refine .ite changes_mbxEnd (.ite changes_mbxEnd (.ite changes_mbxEnd ?_))
  split
  · exact changes_mbxEnd
  · have hd : Changes [.sec] c d := .put .sec
    exact .ite ((hd.trans changes_mbxEnd).mono rfl) (.ite ((hd.trans changes_mbxEnd).mono rfl) ((hd.trans changes_mbxRun).mono rfl))

theorem changes_mbxRelease : Changes [.sec] c (c.mbxRelease s) := .ite changes_mbxEnd (.ite changes_mbxEnd changes_mbxRun)

theorem changes_mbxAttest : Changes [.regs, .sec] c c.mbxAttest := .ite (changes_mbxEnd.mono rfl) (changes_mbxWrite.trans changes_mbxEnd)

theorem changes_mbxNewId : Changes [.sec] c c.mbxNewId := .ite changes_mbxEnd changes_mbxRun

theorem changes_mbxOp : Changes [.regs, .cyc, .notices, .errSeq, .kwn, .sec] c (c.mbxOp s n) := by
  unfold Core.mbxOp
  exact .ite (changes_mbxClaim.mono rfl)
    (.ite (changes_mbxCmd fun _ => (changes_dropHolder.trans changes_mbxEnd).mono rfl)
    (.ite (changes_mbxCmd fun _ => changes_mbxChallenge.mono rfl)
    (.ite (changes_mbxCmd fun _ => changes_mbxEnrol.mono rfl)
    (.ite (changes_mbxCmd fun _ => changes_mbxRelease.mono rfl)
    (.ite (changes_mbxCmd fun _ => changes_mbxAttest.mono rfl)
    (.stepIf (changes_mbxCmd fun _ => changes_mbxNewId.mono rfl)))))))

theorem changes_mbxTimeout : Changes [.sec] c c.mbxTimeout := by
  unfold Core.mbxTimeout
  split
  · exact changes_dropHolder.stepIf
  · exact .refl

/-! ### Census, swaps, copies and clocks -/

theorem changes_hCensusReq : Changes [.regs, .cyc, .notices, .errSeq, .censusArmed] c (c.hCensusReq a v) :=
  .skipIf (.ite ((changes_raiseF.trans changes_reject).mono rfl) (((changes_wr.trans changes_setF).trans (.put .censusArmed)).mono rfl))

theorem changes_cycSet : Changes [.cyc] c (c.cycSet n v) := .put .cyc

theorem changes_copyTaken {copy : Store Word64} : Changes [.census, .censusArmed] c { c with census := copy, censusArmed := none } := by
  intro y hy
  cases y
  case census | censusArmed => simp at hy
  all_goals rfl

theorem changes_census : Changes [.regs, .cyc, .notices, .census, .censusArmed] c c.census_ := by
  unfold Core.census_
  split
  · extract_lets copy _ d
    have hd : Changes [.regs, .cyc, .census, .censusArmed] c d :=
      ((changes_setF.trans changes_copyTaken).trans changes_cycSet).mono rfl
    exact .skipIf ((hd.trans (.foldl (fun _ _ => (changes_wr.trans changes_event).mono (l := [.regs, .cyc, .notices]) rfl) _ d)).mono rfl)
  · exact .refl

theorem changes_armSwap : Changes [.regs, .swapArmed] c (c.armSwap n v) :=
  ((((changes_setF.trans changes_setF).trans changes_setF).trans changes_setF).trans (.put .swapArmed)).mono rfl

theorem changes_hSwap : Changes [.regs, .cyc, .notices, .errSeq, .swapArmed] c (c.hSwap a v) := by
  unfold Core.hSwap
  extract_lets at_
  exact .skipIf (.ite ((changes_clearF.trans changes_setF).mono rfl)
    (.ite ((changes_clearF.trans changes_armSwap).mono rfl) ((changes_raiseF.trans changes_reject).mono rfl)))

theorem changes_saveRestoreDone : Changes [.regs, .saving] c (c.saveRestoreDone n) := by
  unfold Core.saveRestoreDone
  split
  · exact changes_wr.trans (.put .saving)
  · exact .refl

theorem changes_clockLocked : Changes [.regs, .flt] c (c.clockLocked n p) := by
  unfold Core.clockLocked
  extract_lets q _ d
  have hd : Changes [.flt] c d := .put .flt
  exact .skipIf (.ite ((hd.trans changes_setF).mono rfl) (hd.mono rfl))

end Sys2Proof.Machine
end

