-- ==== Sys2Proof/Proofs/OneCommandParts.lean ====
section
/-! PROOF. Frames of commands that serve one part: O55. -/

open Sys2Proof Sys2Proof.Machine Sys2Proof.Stated

/-- Settles O55: what each command's function changes lies in the parts of its frame. -/
theorem commandsKeepOtherParts : Obligations.CommandsKeepOtherParts := by
  unfold Obligations.CommandsKeepOtherParts
  intro a v n p h k on held corr items rx bytes
  refine ⟨?_, ?_, ?_, ?_, ?_, ?_, ?_, ?_, ?_, ?_, ?_, ?_, ?_, ?_, ?_, ?_, ?_, ?_, ?_, ?_, ?_⟩
  · refine keeps_all [.regs, .cyc, .notices, .errSeq, .cap] (fun c d x => by cases x <;> rfl) ?_
    simp only [List.forall_mem_cons, List.not_mem_nil, false_imp_iff, implies_true, and_true]
    exact ⟨fun _ => ⟨_, changes_holdoffEnd.mono rfl, rfl⟩, fun _ => ⟨_, changes_captureArmEffect.mono rfl, rfl⟩,
      fun _ => ⟨_, changes_hCapCtrl.mono rfl, rfl⟩, fun _ => ⟨_, changes_captureStopEffect.mono rfl, rfl⟩,
      fun _ => ⟨_, changes_hCapArm.mono rfl, rfl⟩⟩
  · refine keeps_all [.regs, .cyc, .notices, .errSeq, .comp] (fun c d x => by cases x <;> rfl) ?_
    simp only [List.forall_mem_cons, List.not_mem_nil, false_imp_iff, implies_true, and_true]
    exact ⟨fun _ => ⟨_, changes_hCap.mono rfl, rfl⟩, fun _ => ⟨_, changes_hCap.mono rfl, rfl⟩⟩
  · refine keeps_all [.regs, .comp, .out, .free] (fun c d x => by cases x <;> rfl) ?_
    simp only [List.forall_mem_cons, List.not_mem_nil, false_imp_iff, implies_true, and_true]
    exact ⟨fun _ => ⟨_, changes_hGate.mono rfl, rfl⟩, fun _ => ⟨_, changes_hGate.mono rfl, rfl⟩, fun _ => ⟨_, changes_hGate.mono rfl, rfl⟩⟩
  · refine keeps_all [.regs, .cyc, .notices, .errSeq, .sep] (fun c d x => by cases x <;> rfl) ?_
    simp only [List.forall_mem_cons, List.not_mem_nil, false_imp_iff, implies_true, and_true]
    exact ⟨fun _ => ⟨_, changes_hPortCfg.mono rfl, rfl⟩, fun _ => ⟨_, changes_hFilterCmd.mono rfl, rfl⟩,
      fun _ => ⟨_, changes_hFilterCmd.mono rfl, rfl⟩, fun _ => ⟨_, changes_hFilterCmd.mono rfl, rfl⟩,
      fun _ => ⟨_, changes_filterChangeEffect.mono rfl, rfl⟩, fun _ => ⟨_, changes_filterPendingClear.mono rfl, rfl⟩,
      fun _ => ⟨_, changes_linkLoss.mono rfl, rfl⟩⟩
  · refine keeps_all [.regs, .cyc, .sep, .cap, .pins] (fun c d x => by cases x <;> rfl) ?_
    simp only [List.forall_mem_cons, List.not_mem_nil, false_imp_iff, implies_true, and_true]
    exact ⟨fun _ => ⟨_, changes_frameStart.mono rfl, rfl⟩, fun _ => ⟨_, changes_tinEdge.mono rfl, rfl⟩,
      fun _ => ⟨_, changes_trigInEdge.mono rfl, rfl⟩⟩
  · refine keeps_all [.regs, .cyc, .notices, .errSeq, .key] (fun c d x => by cases x <;> rfl) ?_
    simp only [List.forall_mem_cons, List.not_mem_nil, false_imp_iff, implies_true, and_true]
    exact ⟨fun _ => ⟨_, changes_hSlotCmd.mono rfl, rfl⟩, fun _ => ⟨_, changes_hSlotCmd.mono rfl, rfl⟩,
      fun _ => ⟨_, changes_ringReadBusy.mono rfl, rfl⟩, fun _ => ⟨_, changes_ringCommandDone.mono rfl, rfl⟩,
      fun _ => ⟨_, changes_snapshotTick.mono rfl, rfl⟩⟩
  · refine keeps_all [.regs, .rgns] (fun c d x => by cases x <;> rfl) ?_
    simp only [List.forall_mem_cons, List.not_mem_nil, false_imp_iff, implies_true, and_true]
    exact ⟨fun _ => ⟨_, changes_hRplCtrl.mono rfl, rfl⟩, fun _ => ⟨_, changes_hRplCtrl.mono rfl, rfl⟩,
      fun _ => ⟨_, changes_drainComplete.mono rfl, rfl⟩, fun _ => ⟨_, changes_stallStart.mono rfl, rfl⟩⟩
  · refine keeps_all [.regs, .cyc, .notices, .errSeq, .pwr] (fun c d x => by cases x <;> rfl) ?_
    simp only [List.forall_mem_cons, List.not_mem_nil, false_imp_iff, implies_true, and_true]
    exact ⟨fun _ => ⟨_, changes_vaultHotEnter.mono rfl, rfl⟩, fun _ => ⟨_, changes_vaultHotExit.mono rfl, rfl⟩,
      fun _ => ⟨_, changes_lpmRecal.mono rfl, rfl⟩, fun _ => ⟨_, changes_hPwrPt.mono rfl, rfl⟩⟩
  · refine keeps_all [.regs, .lanes, .out] (fun c d x => by cases x <;> rfl) ?_
    simp only [List.forall_mem_cons, List.not_mem_nil, false_imp_iff, implies_true, and_true]
    exact ⟨fun _ => ⟨_, changes_laneLocked.mono rfl, rfl⟩, fun _ => ⟨_, changes_markerSend.mono rfl, rfl⟩,
      fun _ => ⟨_, changes_markerReceive.mono rfl, rfl⟩⟩
  · refine keeps_all [.regs, .cyc, .notices, .latched, .pins, .out] (fun c d x => by cases x <;> rfl) ?_
    simp only [List.forall_mem_cons, List.not_mem_nil, false_imp_iff, implies_true, and_true]
    exact ⟨fun _ => ⟨_, changes_tinPop.mono rfl, rfl⟩, fun _ => ⟨_, changes_txtsPop.mono rfl, rfl⟩,
      fun _ => ⟨_, changes_toutEdge.mono rfl, rfl⟩, fun _ => ⟨_, changes_toutPulseEnd.mono rfl, rfl⟩,
      fun _ => ⟨_, changes_hBarrier.mono rfl, rfl⟩, fun _ => ⟨_, changes_barrierToken.mono rfl, rfl⟩,
      fun _ => ⟨_, changes_killDeassert.mono rfl, rfl⟩, fun _ => ⟨_, changes_hLaunchAt.mono rfl, rfl⟩⟩
  · refine keeps_all [.regs, .cyc, .notices, .sep, .ford, .fab, .rgns, .pins] (fun c d x => by cases x <;> rfl) ?_
    simp only [List.forall_mem_cons, List.not_mem_nil, false_imp_iff, implies_true, and_true]
    exact ⟨fun _ => ⟨_, changes_launch.mono rfl, rfl⟩, fun _ => ⟨_, changes_barrierLaunch.mono rfl, rfl⟩⟩
  · refine keeps_all [.regs, .cyc, .notices, .latched, .fab] (fun c d x => by cases x <;> rfl) ?_
    simp only [List.forall_mem_cons, List.not_mem_nil, false_imp_iff, implies_true, and_true]
    exact ⟨fun _ => ⟨_, changes_hConv.mono rfl, rfl⟩, fun _ => ⟨_, changes_hConv.mono rfl, rfl⟩, fun _ => ⟨_, changes_digPop.mono rfl, rfl⟩,
      fun _ => ⟨_, changes_hDigCtrl.mono rfl, rfl⟩⟩
  · refine keeps_all [.regs, .kwn, .sec, .out] (fun c d x => by cases x <;> rfl) ?_
    simp only [List.forall_mem_cons, List.not_mem_nil, false_imp_iff, implies_true, and_true]
    exact ⟨fun _ => ⟨_, changes_openMsg.mono rfl, rfl⟩, fun _ => ⟨_, changes_ackMsg.mono rfl, rfl⟩,
      fun _ => ⟨_, changes_standaloneAck.mono rfl, rfl⟩, fun _ => ⟨_, changes_captureData.mono rfl, rfl⟩,
      fun _ => ⟨_, changes_rtoExpiry.mono rfl, rfl⟩, fun _ => ⟨_, changes_idleClose.mono rfl, rfl⟩,
      fun _ => ⟨_, changes_hKwnCtrl.mono rfl, rfl⟩⟩
  · refine keeps_all [.regs, .cyc, .notices, .errSeq, .kwn, .sec] (fun c d x => by cases x <;> rfl) ?_
    simp only [List.forall_mem_cons, List.not_mem_nil, false_imp_iff, implies_true, and_true]
    exact ⟨fun _ => ⟨_, changes_mbxOp.mono rfl, rfl⟩, fun _ => ⟨_, changes_mbxOp.mono rfl, rfl⟩, fun _ => ⟨_, changes_mbxOp.mono rfl, rfl⟩,
      fun _ => ⟨_, changes_mbxOp.mono rfl, rfl⟩, fun _ => ⟨_, changes_mbxOp.mono rfl, rfl⟩, fun _ => ⟨_, changes_mbxOp.mono rfl, rfl⟩,
      fun _ => ⟨_, changes_mbxOp.mono rfl, rfl⟩, fun _ => ⟨_, changes_mbxTimeout.mono rfl, rfl⟩⟩
  · exact CommandChanges.keeps (l := [.regs, .cyc, .notices, .errSeq, .censusArmed])
      (fun _ => ⟨_, changes_hCensusReq.mono rfl, rfl⟩) fun c d x => by cases x <;> rfl
  · exact CommandChanges.keeps (l := [.regs, .cyc, .notices, .census, .censusArmed])
      (fun _ => ⟨_, changes_census.mono rfl, rfl⟩) fun c d x => by cases x <;> rfl
  · exact CommandChanges.keeps (l := [.regs, .cyc, .notices, .errSeq, .swapArmed])
      (fun _ => ⟨_, changes_hSwap.mono rfl, rfl⟩) fun c d x => by cases x <;> rfl
  · exact CommandChanges.keeps (l := [.regs, .saving]) (fun _ => ⟨_, changes_saveRestoreDone.mono rfl, rfl⟩) fun c d x => by cases x <;> rfl
  · exact CommandChanges.keeps (l := [.regs, .flt]) (fun _ => ⟨_, changes_clockLocked.mono rfl, rfl⟩) fun c d x => by cases x <;> rfl
  · exact CommandChanges.keeps (l := [.regs, .cyc, .notices, .sep, .lanes])
      (fun _ => ⟨_, changes_versionSet.mono rfl, rfl⟩) fun c d x => by cases x <;> rfl
  · exact CommandChanges.keeps (l := [.regs, .cyc, .notices, .errSeq, .lanes, .out])
      (fun _ => ⟨_, changes_hLtx.mono rfl, rfl⟩) fun c d x => by cases x <;> rfl
end

