-- ==== Sys2Proof/Proofs/SettingsOfOnePage.lean ====
section
/-! PROOF. Settings of one page: of the core they change registers and the log, and of the registers those of the page. O54. -/

namespace Sys2Proof.Machine

/-- The parts of the core that writing a page's settings may change. -/
@[reducible] def settingParts : List Piece := [.regs, .cyc, .latched, .notices, .errSeq]

/-- From `c` to `d` only setting parts differ, and of the registers only those of the page with number `q`. -/
structure OnPage (q : Nat) (c d : Core) : Prop where
  parts : Changes settingParts c d
  rd : ∀ b, b / 4096 ≠ q → d.rd b = c.rd b

namespace OnPage

variable {q a p lo w v k off : Nat} {c d e : Core}

theorem refl : OnPage q c c := ⟨.refl, fun _ _ => rfl⟩

theorem trans (h : OnPage q c d) (k : OnPage q d e) : OnPage q c e :=
  ⟨(h.parts.trans k.parts).mono rfl, fun b hb => (k.rd b hb).trans (h.rd b hb)⟩

theorem ite {p : Prop} [Decidable p] (h : OnPage q c d) (k : OnPage q c e) : OnPage q c (if p then d else e) := by
  split <;> assumption

theorem setF (ha : a / 4096 = q) : OnPage q c (c.setF a lo w v) :=
  ⟨changes_setF.mono rfl, fun _ hb => Core.rd_setF_ne c lo w v fun e => hb (e ▸ ha)⟩

theorem raiseF (ha : a / 4096 = q) : OnPage q c (c.raiseF a lo) := ⟨changes_raiseF.mono rfl, (setF ha).rd⟩

theorem showHi {x : Option Nat} : OnPage q c (c.showHi a x) := ⟨(Changes.put .latched).mono rfl, fun _ _ => rfl⟩

theorem setPend (hp : p = 4096 * q) : OnPage q c (c.setPend p k) :=
  ⟨changes_setPend.mono rfl, fun b hb => Core.rd_setPend_ne c k (by omega)⟩

theorem event (hp : p = 4096 * q) : OnPage q c (c.event p k) :=
  ⟨changes_event.mono rfl, fun b hb => Core.rd_event_ne c k (by omega)⟩

theorem reject (hp : p = 4096 * q) : OnPage q c (c.reject p off v) :=
  ⟨changes_reject.mono rfl, fun b hb => Core.rd_logErr_ne c _ _ _ _ _ (by unfold LogTouches; omega)⟩

theorem timeRej : OnPage 16 c (c.timeRej off v) := trans (raiseF (by rfl)) (reject (by rfl))

theorem applyFord {g : Nat} (hg : g < 8) : OnPage 16 c (c.applyFord g) := by
  have ha : (pTime + 0x140 + 8 * g) / 4096 = 16 := by unfold pTime; omega
  exact ((setF ha).trans (setF ha)).ite refl

end OnPage

/-! ### The hooks -/

section
variable {c : Core} {a : Access} {g j m t p v : Nat}

theorem onPage_hErrHead : OnPage (p / 4096) c (c.hErrHead a (pageOf p) v) := by
  unfold Core.hErrHead
  extract_lets head tail
  have ha : (pageOf p + 0x48) / 4096 = p / 4096 := by unfold pageOf; omega
  exact .ite .refl (.ite (.setF ha) (.reject (by unfold pageOf; omega)))

theorem onPage_hForce : OnPage (p / 4096) c (c.hForce a (pageOf p) v) := .ite (.setPend (by unfold pageOf; omega)) .refl

theorem onPage_hTimeIncr : OnPage 16 c (c.hTimeIncr a v) := .ite .refl (.ite (.setF rfl) .timeRej)

theorem onPage_hTickPeriod : OnPage 16 c (c.hTickPeriod a v) := .ite .refl (.ite (.setF rfl) .timeRej)

theorem onPage_hEpoch : OnPage 16 c (c.hEpoch a v) :=
  .ite .refl (.ite .timeRej ((OnPage.trans (.setF (by rfl)) (.setF (by rfl))).trans .showHi))

theorem onPage_hFordDelay (hg : g < 8) : OnPage 16 c (c.hFordDelay a g v) := by
  unfold Core.hFordDelay
  extract_lets d r
  have ha : r / 4096 = 16 := by unfold r pTime; omega
  exact .ite .refl (.ite .timeRej (((OnPage.setF ha).trans (.setF ha)).trans (.applyFord hg)))

theorem onPage_enterHoldover : OnPage 16 c c.enterHoldover :=
  .ite .refl ((OnPage.trans (.setF (by rfl)) (.setF (by rfl))).trans (.event (by rfl)))

theorem onPage_slewEnd : OnPage 16 c c.slewEnd := .ite (.setF rfl) .refl

theorem onPage_refclkReturn : OnPage 16 c c.refclkReturn := .ite (OnPage.trans (.setF (by rfl)) (.setF (by rfl))) .refl

theorem onPage_hMeadow : OnPage (256 + m) c (c.hMeadow a m v) := by
  unfold Core.hMeadow
  extract_lets old new
  exact .ite .refl (.ite (.reject (by unfold pMdw; omega)) (.setF (by unfold pMdw; omega)))

theorem onPage_hDeadline (ht : t < 256) : OnPage 65 c (c.hDeadline a t v) := by
  unfold Core.hDeadline
  extract_lets d
  exact .ite .refl (.ite (.reject rfl) (.setF (by unfold pComp1; omega)))

theorem onPage_stuck : OnPage 112 c (c.stuck g) := by
  unfold Core.stuck
  extract_lets r us
  exact .ite .refl (OnPage.trans (.raiseF (by rfl)) (.event (by rfl)))

theorem onPage_hKeyCfg : OnPage 80 c (c.hKeyCfg a v) := .ite .refl (OnPage.trans (.setF (by rfl)) (.setF (by rfl)))

theorem onPage_hSqTail : OnPage 96 c (c.hSqTail a v) := .ite (.setF rfl) .refl

theorem onPage_linkUp : OnPage 32 c (c.linkUp g) := .ite (.setF rfl) .refl

theorem onPage_hVltCfg : OnPage (160 + j) c (c.hVltCfg a j v) := .ite (.setF (by unfold aVltCfg pVlt; omega)) .refl

end

/-- A command whose function writes settings of one page leaves every other page. -/
theorem keeps_of_onPage {q : Nat} {k : Core → Core → Core} {i : Instr} (hk : Picks settingParts k)
    (h : ∀ s, ∃ d, OnPage q s.core d ∧ exec i s = .next { s with core := d }) :
    Stated.Keeps k i ∧ ∀ s u : State, exec i s = .next u → ∀ b, b / 4096 ≠ q → u.core.rd b = s.core.rd b := by
  refine ⟨CommandChanges.keeps (fun s => ?_) hk, fun s u hu => ?_⟩
  · obtain ⟨d, hd, hn⟩ := h s
    exact ⟨d, hd.parts, hn⟩
  · obtain ⟨d, hd, hn⟩ := h s
    obtain rfl := Host.Outcome.next.inj (hn.symm.trans hu)
    exact hd.rd

end Sys2Proof.Machine

open Sys2Proof Sys2Proof.Machine Sys2Proof.Stated

/-- Settles O54, by the page that each hook writes. -/
theorem settingsKeepOtherPages : Obligations.SettingsKeepOtherPages := by
  unfold Obligations.SettingsKeepOtherPages
  intro a v g j m t page hg hj hm ht e he
  have hk : Picks settingParts fun c d =>
      { c with regs := d.regs, cyc := d.cyc, latched := d.latched, notices := d.notices, errSeq := d.errSeq } := fun c d x => by
    cases x <;> rfl
  have hmdw : pMdw m / 4096 = 256 + m := by unfold pMdw; omega
  have hvlt : pVlt j / 4096 = 160 + j := by unfold pVlt; omega
  refine keeps_of_onPage hk ?_
  revert e
  simp only [List.forall_mem_cons, List.not_mem_nil, false_imp_iff, implies_true, and_true, hmdw, hvlt]
  exact ⟨fun _ => ⟨_, .ite onPage_hErrHead .refl, rfl⟩, fun _ => ⟨_, .ite onPage_hForce .refl, rfl⟩, fun _ => ⟨_, onPage_hTimeIncr, rfl⟩,
    fun _ => ⟨_, onPage_hTickPeriod, rfl⟩, fun _ => ⟨_, onPage_hEpoch, rfl⟩, fun _ => ⟨_, onPage_hFordDelay hg, rfl⟩,
    fun _ => ⟨_, onPage_enterHoldover, rfl⟩, fun _ => ⟨_, onPage_slewEnd, rfl⟩, fun _ => ⟨_, onPage_refclkReturn, rfl⟩,
    fun _ => ⟨_, onPage_hMeadow, rfl⟩, fun _ => ⟨_, onPage_hDeadline ht, rfl⟩, fun _ => ⟨_, onPage_stuck, rfl⟩,
    fun _ => ⟨_, onPage_hKeyCfg, rfl⟩, fun _ => ⟨_, onPage_hSqTail, rfl⟩, fun _ => ⟨_, onPage_linkUp, rfl⟩,
    fun _ => ⟨_, onPage_hVltCfg, rfl⟩⟩
end

