-- ==== Sys2Proof/Proofs/RegisterWrites.lean ====
section
/-! PROOF. Writes of registers without behaviour of their own, field by field, and reads that clear: O44. -/

namespace Sys2Proof.Machine

/-! ### One field -/

/-- Two fields of a register that share no bit. -/
def Field.Apart (f g : Field) : Prop := f.lo + f.w ≤ g.lo ∨ g.lo + g.w ≤ f.lo

theorem Field.Apart.symm {f g : Field} (h : f.Apart g) : g.Apart f := Or.symm h

/-- What a field reads after a write of `v` to its register at `a`, where the access may write it (R13, R14). -/
def Core.fieldAfter (c : Core) (b : Block) (a v : Nat) (f : Field) : Nat :=
  let old := c.getF a f.lo f.w
  let x := v / 2 ^ f.lo % 2 ^ f.w
  let z := if f.lo = 0 then zeroBits b (a % 0x1000) else 0
  match f.acc with
  | .rw => if keeps b (a % 0x1000) f.lo x || absentField b (a % 0x1000) f.lo then old else x / 2 ^ z * 2 ^ z
  | .w1c => old - (old &&& (x - (x &&& c.cycGet a / 2 ^ f.lo)))
  | _ => old

section
variable {c : Core} {acc : Access} {b : Block} {a v : Nat} {f g : Field}

theorem Core.getF_lt (c : Core) (a lo w : Nat) : c.getF a lo w < 2 ^ w := Nat.mod_lt _ (Nat.two_pow_pos w)

/-- A write of a field leaves the core, or sets the field to what it then reads. -/
theorem Core.writeField_eq : c.writeField b a v f = c ∧ c.fieldAfter b a v f = c.getF a f.lo f.w ∨
    ∃ y, c.writeField b a v f = c.setF a f.lo f.w y ∧ c.fieldAfter b a v f = y % 2 ^ f.w := by
  cases hacc : f.acc
  case rw =>
    by_cases hk : keeps b (a % 0x1000) f.lo (v / 2 ^ f.lo % 2 ^ f.w) || absentField b (a % 0x1000) f.lo
    · left
      simp only [Core.writeField, Core.fieldAfter, hacc, hk, if_true, and_self]
    · right
      simp only [Core.writeField, Core.fieldAfter, hacc, hk]
      exact ⟨_, rfl, (Nat.mod_eq_of_lt ((Nat.div_mul_le_self ..).trans_lt (Nat.mod_lt _ (Nat.two_pow_pos _)))).symm⟩
  case w1c =>
    right
    simp only [Core.writeField, Core.fieldAfter, hacc, Core.clearF, Nat.mod_mod]
    exact ⟨_, rfl, (Nat.mod_eq_of_lt ((Nat.sub_le ..).trans_lt (c.getF_lt a f.lo f.w))).symm⟩
  all_goals
    left
    simp only [Core.writeField, Core.fieldAfter, hacc, and_self]

theorem Core.getF_writeField_self (hf : f.lo + f.w ≤ 64) : (c.writeField b a v f).getF a f.lo f.w = c.fieldAfter b a v f := by
  rcases c.writeField_eq (b := b) (a := a) (v := v) (f := f) with ⟨hw, hv⟩ | ⟨y, hw, hv⟩
  · rw [hw, hv]
  · rw [hw, hv, Core.getF_setF_self c a _ _ _ hf]

theorem Core.getF_writeField_apart (hg : g.lo + g.w ≤ 64) (h : g.Apart f) :
    (c.writeField b a v g).getF a f.lo f.w = c.getF a f.lo f.w := by
  rcases c.writeField_eq (b := b) (a := a) (v := v) (f := g) with ⟨hw, -⟩ | ⟨y, hw, -⟩
  · rw [hw]
  · rw [hw, Core.getF_setF_apart c a _ _ _ _ _ hg h.symm]

theorem Core.rd_writeField_ne {e : Nat} (he : e ≠ a) : (c.writeField b a v f).rd e = c.rd e := by
  rcases c.writeField_eq (b := b) (a := a) (v := v) (f := f) with ⟨hw, -⟩ | ⟨y, hw, -⟩
  · rw [hw]
  · rw [hw, Core.rd_setF_ne c _ _ _ he]

theorem Core.cycGet_writeField : (c.writeField b a v f).cycGet a = c.cycGet a := by
  rcases c.writeField_eq (b := b) (a := a) (v := v) (f := f) with ⟨hw, -⟩ | ⟨y, hw, -⟩
  · rw [hw]
  · rw [hw]; rfl

theorem Core.fieldAfter_writeField_apart (hg : g.lo + g.w ≤ 64) (h : g.Apart f) :
    (c.writeField b a v g).fieldAfter b a v f = c.fieldAfter b a v f := by
  simp only [Core.fieldAfter, Core.getF_writeField_apart hg h, Core.cycGet_writeField]

end

section
variable {c : Core} {b : Block} {a v : Nat} {f : Field}

theorem Core.fieldAfter_rw (h : f.acc = .rw) (hk : keeps b (a % 0x1000) f.lo (v / 2 ^ f.lo % 2 ^ f.w) = false)
    (ha : absentField b (a % 0x1000) f.lo = false) (hz : f.lo = 0 → zeroBits b (a % 0x1000) = 0) :
    c.fieldAfter b a v f = v / 2 ^ f.lo % 2 ^ f.w := by
  have z : (if f.lo = 0 then zeroBits b (a % 0x1000) else 0) = 0 := by
    split
    · exact hz ‹_›
    · rfl
  simp [Core.fieldAfter, h, hk, ha, z]

theorem Core.fieldAfter_w1c (h : f.acc = .w1c) : c.fieldAfter b a v f =
    c.getF a f.lo f.w - (c.getF a f.lo f.w &&& (v / 2 ^ f.lo % 2 ^ f.w - (v / 2 ^ f.lo % 2 ^ f.w &&& c.cycGet a / 2 ^ f.lo))) := by
  simp [Core.fieldAfter, h]

theorem Core.fieldAfter_other (h1 : f.acc ≠ .rw) (h2 : f.acc ≠ .w1c) : c.fieldAfter b a v f = c.getF a f.lo f.w := by
  cases h : f.acc
  case rw => exact absurd h h1
  case w1c => exact absurd h h2
  all_goals simp [Core.fieldAfter, h]

end

/-! ### The fields of a register -/

section
variable {c : Core} {b : Block} {a v : Nat} {fs : List Field}

theorem Core.rd_writeFields_ne {e : Nat} (he : e ≠ a) : (fs.foldl (fun c f => c.writeField b a v f) c).rd e = c.rd e := by
  induction fs generalizing c with
  | nil => rfl
  | cons g gs ih => exact ih.trans (Core.rd_writeField_ne he)

theorem Core.getF_writeFields_apart {f : Field} (hfs : ∀ g ∈ fs, g.lo + g.w ≤ 64) (h : ∀ g ∈ fs, g.Apart f) :
    (fs.foldl (fun c f => c.writeField b a v f) c).getF a f.lo f.w = c.getF a f.lo f.w := by
  induction fs generalizing c with
  | nil => rfl
  | cons g gs ih =>
    rw [List.forall_mem_cons] at hfs h
    exact (ih hfs.2 h.2).trans (Core.getF_writeField_apart hfs.1 h.1)

/-- Each field of a write is the field's own write: the others share no bit with it. -/
theorem Core.getF_writeFields {f : Field} (hfs : ∀ g ∈ fs, g.lo + g.w ≤ 64) (hp : fs.Pairwise Field.Apart) (hf : f ∈ fs) :
    (fs.foldl (fun c f => c.writeField b a v f) c).getF a f.lo f.w = c.fieldAfter b a v f := by
  induction fs generalizing c with
  | nil => cases hf
  | cons g gs ih =>
    rw [List.forall_mem_cons] at hfs
    obtain ⟨hg, hgs⟩ := List.pairwise_cons.mp hp
    rw [List.foldl_cons]
    by_cases hfg : f = g
    · subst hfg
      rw [Core.getF_writeFields_apart hfs.2 fun x hx => (hg x hx).symm, Core.getF_writeField_self hfs.1]
    · have hm : f ∈ gs := (List.mem_cons.mp hf).resolve_left hfg
      rw [ih hfs.2 hgs hm, Core.fieldAfter_writeField_apart hfs.1 (hg f hm)]

end

section
variable {c : Core} {acc : Access} {b : Block} {r : RegRow} {a v : Nat} {f : Field}

theorem Core.getF_writePlain (hr : ∀ g ∈ r.fields, g.lo + g.w ≤ 64) (hp : r.fields.Pairwise Field.Apart) (hf : f ∈ r.fields)
    (hv : f.priv = false ∨ isPriv acc = true) : (c.writePlain acc b r a v).getF a f.lo f.w = c.fieldAfter b a v f := by
  refine Core.getF_writeFields (fun g hg => hr g (List.mem_filter.mp hg).1) (hp.filter _) (List.mem_filter.mpr ⟨hf, ?_⟩)
  rcases hv with hv | hv <;> simp [hv]

theorem Core.getF_writePlain_unpriv (hr : ∀ g ∈ r.fields, g.lo + g.w ≤ 64) (hp : r.fields.Pairwise Field.Apart) (hf : f ∈ r.fields)
    (hv : f.priv = true) (ha : isPriv acc = false) : (c.writePlain acc b r a v).getF a f.lo f.w = c.getF a f.lo f.w := by
  refine Core.getF_writeFields_apart (fun g hg => hr g (List.mem_filter.mp hg).1) fun g hg => ?_
  obtain ⟨hm, hw⟩ := List.mem_filter.mp hg
  have hne : g ≠ f := by rintro rfl; simp [hv, ha] at hw
  have : Std.Symm Field.Apart := ⟨fun _ _ => Field.Apart.symm⟩
  exact hp.forall hm hf hne

/-! ### A write by its address -/

theorem writeReg_noRow {m : Mem} (h : rowAt c.plains a = none) : writeReg m c acc a v = (m, c) := by
  unfold writeReg
  rw [h]
  split
  · simp at *
  · rfl

section
variable {m : Mem} {i k : Nat} (hb : blockAt c.plains a = some (b, i)) (hr : rowAt c.plains a = some (b, r, k))
include hb hr

theorem writeReg_noService (he : emulatedAt b (a % 0x1000) = true) (hs : c.service = false) : writeReg m c acc a v = (m, c) := by
  simp only [writeReg, hb, hr, he, hs, Bool.not_false, Bool.and_self, Bool.or_true, if_true]

theorem writeReg_plain (hn : b ≠ .rgn) (hm : b = .mdw → isRgnOff (a % 0x1000) = false)
    (he : emulatedAt b (a % 0x1000) = false ∨ c.service = true)
    (hk : writeHook m c acc b i (pageOf a) (a % 0x1000) v = none) : writeReg m c acc a v = (m, c.writePlain acc b r a v) := by
  have h1 : (decide (b = .rgn) || (emulatedAt b (a % 0x1000) && !c.service)) = false := by rcases he with he | he <;> simp [hn, he]
  have h2 : (decide (b = .mdw) && isRgnOff (a % 0x1000)) = false := by
    by_cases hbm : b = .mdw
    · simp [hm hbm]
    · simp [hbm]
  simp only [writeReg, hb, hr, h1, hk, h2, Bool.false_eq_true, if_false]

end

end

theorem registerWrite_runs {s : State} {acc : Access} {a : Nat} {v : Word64} {x : Mem × Core} {P : Mem → Core → Prop}
    (h : writeReg s.mem s.core acc a v.toNat = x) (hP : P x.1 x.2) : Stated.RunsDev (.registerWrite acc a v) s P :=
  ⟨_, _, rfl, by rw [← h] at hP; exact hP⟩

/-! ### Reads that clear -/

theorem Core.cycGet_lt (c : Core) (a : Nat) : c.cycGet a < 2 ^ 64 := BitVec.isLt _

theorem Core.rd_rcClear_self (c : Core) (a : Nat) : (c.rcClear a).rd a = c.cycGet (aRcNew a) :=
  (Core.rd_wr_self c a _).trans (Nat.mod_eq_of_lt (c.cycGet_lt _))

theorem Core.rd_rcClear_ne (c : Core) {a b : Nat} (h : b ≠ a) : (c.rcClear a).rd b = c.rd b := Core.rd_wr_ne c _ h

end Sys2Proof.Machine

open Sys2Proof Sys2Proof.Machine Sys2Proof.Stated

/-- Settles O44: a write field by field, and a read that clears by `rcClear`. -/
theorem registersAreWritten : Obligations.RegistersAreWritten := by
  unfold Obligations.RegistersAreWritten
  refine ⟨fun s acc a v => ⟨fun hrow => ?_, fun b i r ⟨hblock, k, hrow⟩ => ⟨fun he hs => ?_, fun hn hm he hk hw hp => ?_⟩⟩,
    fun s acc a => ⟨?_, fun ha => ?_⟩⟩
  · exact registerWrite_runs (writeReg_noRow hrow) ⟨rfl, rfl⟩
  · exact registerWrite_runs (writeReg_noService hblock hrow he hs) ⟨rfl, rfl⟩
  · refine registerWrite_runs (writeReg_plain hblock hrow hn hm he hk)
      ⟨rfl, fun e => Core.rd_writeFields_ne, fun f hf => ⟨fun ⟨hpriv, hview⟩ => ?_, fun hview => ?_⟩⟩
    · exact Core.getF_writePlain_unpriv hw hp hf hpriv (decide_eq_false hview)
    · rw [Core.getF_writePlain hw hp hf (hview.imp_right decide_eq_true)]
      exact ⟨Core.fieldAfter_rw, Core.fieldAfter_w1c, Core.fieldAfter_other⟩
  · rintro (rfl | rfl)
    · exact ⟨_, rfl, Core.rd_rcClear_self .., fun _ => Core.rd_rcClear_ne _, .key, 0, rfl, rfl⟩
    · exact ⟨_, rfl, Core.rd_rcClear_self .., fun _ => Core.rd_rcClear_ne _, .cap, 0, rfl, rfl⟩
  · exact ⟨_, rfl, by simp [Core.rcRead, ha]⟩
end

