-- ==== Sys2Proof/Proofs/Booting.lean ====
section
/-! PROOF LAYER. Starting the device: what the boot's steps leave of the core and of the memories (R416, R488, R489). -/

namespace Sys2Proof.Machine

/-! ### What booting leaves -/

/-- The registers that a start settles before it boots: DEV_ID, the cause of the start and the safe state. -/
def BootReg (a : Nat) : Prop := a = 0x80 ∨ a = 0xB0 ∨ a = pFlt + 0x80

/-- A step of the boot: of the core it changes registers, security, Kwanan and fault state, but neither sessions nor identity, nor a
register settled before. -/
structure Boots (c d : Core) : Prop where
  parts : Changes [.regs, .kwn, .sec, .flt] c d
  sess : d.kwn.sess = c.kwn.sess
  ident : d.sec.ident = c.sec.ident
  rd : ∀ a, BootReg a → d.rd a = c.rd a

namespace Boots

variable {c d e : Core} {m : Mem} {a lo w v k : Nat}

theorem refl : Boots c c := ⟨.refl, rfl, rfl, fun _ _ => rfl⟩

theorem trans (h : Boots c d) (k : Boots d e) : Boots c e :=
  ⟨(h.parts.trans k.parts).mono rfl, k.sess.trans h.sess, k.ident.trans h.ident, fun a ha => (k.rd a ha).trans (h.rd a ha)⟩

theorem ite {p : Prop} [Decidable p] (h : Boots c d) (k : Boots c e) : Boots c (if p then d else e) := by split <;> assumption

theorem foldl {α : Type} {f : Core → α → Core} (h : ∀ c x, Boots c (f c x)) (xs : List α) (c : Core) : Boots c (xs.foldl f c) := by
  induction xs generalizing c with
  | nil => exact refl
  | cons x xs ih => exact (h c x).trans (ih _)

theorem wr (ha : ¬ BootReg a) : Boots c (c.wr a v) :=
  ⟨changes_wr.mono rfl, rfl, rfl, fun _ hb => Core.rd_wr_ne c v fun e => ha (e ▸ hb)⟩

theorem setF (ha : ¬ BootReg a) : Boots c (c.setF a lo w v) := wr ha

/-- Security state with the identity kept. -/
theorem setSec {s : Sec} (h : s.ident = c.sec.ident) : Boots c { c with sec := s } :=
  ⟨(Changes.put .sec).mono rfl, rfl, h, fun _ _ => rfl⟩

theorem setDevState : Boots c (c.setDevState k) := by
  unfold Core.setDevState
  exact .ite ⟨(Changes.put .flt).mono rfl, rfl, rfl, fun _ _ => rfl⟩ (setF (by unfold BootReg pFlt; omega))

theorem showBoot : Boots c c.showBoot := by
  have ha : ¬ BootReg (pSec + 0x80) := by unfold BootReg pSec pFlt; omega
  exact (((((setF ha).trans (setF ha)).trans (setF ha)).trans (setF ha)).trans (setF ha)).trans (setF ha)

theorem bootCode : Boots c (c.bootCode k) := setF (by unfold BootReg pSec pFlt; omega)

theorem showDigest {b : List Byte} (ha : pSec ≤ a ∧ a < pSec + 0x1000) : Boots c (c.showDigest a b) := by
  have write (c : Core) (i : Nat) (hi : i < 4) : Boots c (c.wr (a + 8 * i) (fld b (8 * i) 8)) :=
    wr (by unfold BootReg pFlt; unfold pSec at ha; omega)
  exact (((write _ 0 (by decide)).trans (write _ 1 (by decide))).trans (write _ 2 (by decide))).trans (write _ 3 (by decide))

theorem takeOwner : Boots c (c.takeOwner m) := by
  unfold Core.takeOwner
  extract_lets _ d
  have hd : Boots c d := setSec rfl
  exact (hd.trans (showDigest (by decide))).trans showBoot

theorem measureImage {b : List Byte} : Boots c (c.measureImage b) := setSec rfl

theorem runSlot {t : Bool} : Boots c (c.runSlot m k t) := by
  unfold Core.runSlot
  extract_lets d
  have hd : Boots c d := measureImage
  exact (hd.trans (setSec (by rfl))).trans showBoot

theorem eachPlain {f : Core → Nat → Core} (h : ∀ c p, Boots c (f c p)) : Boots c (c.eachPlain f) := foldl h _ c

theorem train : Boots c c.train := by
  unfold Core.train
  extract_lets v ch size d bad a e
  have hd : Boots c d := eachPlain fun _ p => wr (by unfold BootReg pVlt pFlt; omega)
  have ha : ¬ BootReg a := by unfold a BootReg pLpm pFlt; omega
  have he : Boots c e := (((hd.trans (setF ha)).trans (setF ha)).trans (setF ha)).trans (setF ha)
  exact he.trans (setF (by unfold BootReg pFlt; omega))

/-- The upload of the boot ROM begins (R489). -/
theorem upload {u : Option (List Byte)} : Boots c { c with kwn := { c.kwn with upload := u } } :=
  ⟨(Changes.put .kwn).mono rfl, rfl, rfl, fun _ _ => rfl⟩

theorem hostBoot : Boots c c.hostBoot := by
  have ha : ¬ BootReg (pCtl + 0x88) := by unfold BootReg pCtl pFlt; omega
  have hs : Boots (c.setF (pCtl + 0x88) 0 16 2) _ := (upload (u := some [])).trans
    (setSec (s := { c.sec with hostBoot := true }) (by rfl))
  exact ((setF ha).trans hs).trans showBoot

theorem flashBoot_core : Boots c (flashBoot m c).2 := by
  unfold flashBoot
  extract_lets r n b go k1 d o k2
  have hgo (c : Core) (k : Nat) (t : Bool) : Boots c (go c k t) := (runSlot.trans train).trans setDevState
  have hd : Boots c d := bootCode
  split
  · exact hgo ..
  · split
    · exact hd.trans (hgo ..)
    · exact (hd.trans bootCode).trans hostBoot

end Boots

theorem Core.upload_hostBoot (c : Core) : c.hostBoot.kwn.upload = some [] := rfl

theorem Core.devState_setDevState (c : Core) (k : Nat) (h : c.safe = false) : (c.setDevState k).devState = k % 8 := by
  unfold Core.setDevState
  rw [if_neg (by simp [h])]
  exact Core.getF_setF_self c 0x88 0 3 k (by decide)

theorem Boots.getF {c d : Core} (h : Boots c d) {a lo w : Nat} (ha : BootReg a) : d.getF a lo w = c.getF a lo w := by
  rw [Core.getF, h.rd a ha, Core.getF]

theorem Boots.safe {c d : Core} (h : Boots c d) : d.safe = c.safe := by
  rw [Core.safe, Core.getB, h.getF (.inr (.inr rfl)), Core.safe, Core.getB]

/-- A boot from flash runs an image, or waits for one from the host (R488, R489). -/
theorem flashBoot_runs {m : Mem} {c : Core} (h : c.safe = false) :
    (flashBoot m c).2.kwn.upload = some [] ∨ (flashBoot m c).2.devState = 1 := by
  unfold flashBoot
  extract_lets r n b go k1 d o k2
  have hgo (c : Core) (k : Nat) (t : Bool) (hc : c.safe = false) : (go c k t).devState = 1 :=
    Core.devState_setDevState _ 1 ((Boots.runSlot.trans .train).safe.trans hc)
  split
  · exact .inr (hgo _ _ _ h)
  · split
    · exact .inr (hgo _ _ _ (Boots.bootCode.safe.trans h))
    · exact .inl rfl

/-! ### The memories of a start -/

theorem flashWrite_keeps (m : Mem) (a : Nat) (b : List Byte) :
    (m.flashWrite a b).bytes = m.bytes ∧ (m.flashWrite a b).poison = m.poison := by
  induction b generalizing m a with
  | nil => exact ⟨rfl, rfl⟩
  | cons x xs ih => exact ih _ _

theorem identity_keeps (m : Mem) (puf : List Byte) :
    (identity m puf).1.bytes = m.bytes ∧ (identity m puf).1.poison = m.poison := by
  unfold identity
  extract_lets n
  unfold n
  split
  · exact ⟨rfl, rfl⟩
  · exact flashWrite_keeps ..

theorem flashBoot_keeps (m : Mem) (c : Core) :
    (flashBoot m c).1.bytes = m.bytes ∧ (flashBoot m c).1.poison = m.poison := by
  unfold flashBoot
  extract_lets r n b go k1 d o k2
  have hn : n.bytes = m.bytes ∧ n.poison = m.poison := by
    unfold n
    split
    · exact flashWrite_keeps ..
    · exact ⟨rfl, rfl⟩
  clear_value n go k1 d
  split
  · exact hn
  · split <;> exact hn

end Sys2Proof.Machine
end

