-- ==== Sys2Proof/Proofs/Starts.lean ====
section
/-! PROOF LAYER. Reset, and what a start has settled before it boots (R16, R522, R523, R550). -/

namespace Sys2Proof.Machine

/-! ### Entering and leaving reset -/

theorem devId_lt (d : Silicon) : devId d < 2 ^ 64 := by
  unfold devId
  cases d.part <;> cases d.b0 <;> decide

section
variable {c : Core} {k : StartChecks} {cause : Nat} {id : Option (List Byte)} {m : Mem}

theorem Core.rd_enterReset (c : Core) : c.enterReset.rd 0x80 = c.rd 0x80 := by
  unfold Core.enterReset
  extract_lets dev ver r _ s
  rw [Core.rd_setF_ne _ _ _ _ (by decide), Core.rd_wr_ne _ _ (by decide), Core.rd_setF_ne _ _ _ _ (by decide), Core.rd_wr_self]
  exact Nat.mod_eq_of_lt (c.rd_lt _)

theorem Core.safe_enterReset (c : Core) : c.enterReset.safe = false := by
  have h : c.enterReset.rd (pFlt + 0x80) = Core.reset.rd (pFlt + 0x80) := by
    unfold Core.enterReset
    rw [Core.rd_setF_ne _ _ _ _ (by decide), Core.rd_wr_ne _ _ (by decide), Core.rd_setF_ne _ _ _ _ (by decide),
      Core.rd_wr_ne _ _ (by decide)]
    exact Core.rd_congr rfl _
  rw [Core.safe, Core.getB, Core.getF, h]
  decide

/-- What every start that passes its checks has settled before it boots. -/
structure Settled (cause dev : Nat) (id : Option (List Byte)) (d : Core) : Prop where
  out : d.inReset = false
  cause : d.getF 0xB0 0 4 = cause
  rgns : d.rgns = []
  sess : d.kwn.sess = []
  time : d.clk.acc = 0
  ident : d.sec.ident = id
  dev : d.rd 0x80 = dev
  safe : d.safe = false

theorem Settled.boots {dev : Nat} {d : Core} (h : Settled cause dev id c) (k : Boots c d) : Settled cause dev id d where
  out := by rw [Core.inReset, show d.pwr = c.pwr from k.parts .pwr (by decide)]; exact h.out
  cause := (k.getF (.inr (.inl rfl))).trans h.cause
  rgns := (k.parts .rgns (by decide)).trans h.rgns
  sess := k.sess.trans h.sess
  time := by rw [show d.clk = c.clk from k.parts .clk (by decide)]; exact h.time
  ident := k.ident.trans h.ident
  dev := (k.rd _ (.inl rfl)).trans h.dev
  safe := k.safe.trans h.safe

/-- Out of reset, a core that was in it is settled but for the identity. -/
theorem settled_leaveReset {dev : Nat} (hc : cause < 16) (hr : c.rgns = []) (hs : c.kwn.sess = []) (ht : c.clk.acc = 0)
    (hd : c.rd 0x80 = dev) (hf : c.safe = false) :
    Settled cause dev (c.leaveReset cause k).sec.ident (c.leaveReset cause k) := by
  unfold Core.leaveReset
  extract_lets d _ _ _ _ e f g
  have hd0 : ∀ a, a ≠ 0xB0 → d.rd a = c.rd a := fun a ha => by rw [Core.rd_setF_ne _ _ _ _ ha, Core.rd_setF_ne _ _ _ _ ha]
  have he : Settled cause dev e.sec.ident e := by
    refine ⟨rfl, ?_, hr, hs, ht, rfl, (hd0 _ (by decide)).trans hd, ?_⟩
    · show d.getF 0xB0 0 4 = cause
      rw [Core.getF_setF_apart _ _ _ _ _ _ _ (by decide) (by decide), Core.getF_setF_self _ _ _ _ _ (by decide)]
      exact Nat.mod_eq_of_lt hc
    · show d.safe = false
      rw [Core.safe, Core.getB, Core.getF, hd0 _ (by decide), ← hf, Core.safe, Core.getB, Core.getF]
  have hg : Boots e (g.eachPlain fun c p => c.setF (aPlnClk p) 0 1 1) := by
    have h1 : ¬ BootReg aGate := by unfold BootReg aGate pComp1 pFlt; omega
    have h2 : ¬ BootReg aTStat := by unfold BootReg aTStat pTime pFlt; omega
    have h3 : ¬ BootReg (pTime + 0x610) := by unfold BootReg pTime pFlt; omega
    have h4 (p : Nat) : ¬ BootReg (aPlnClk p) := by unfold BootReg aPlnClk pPln pFlt; omega
    exact ((((Boots.setF h1).trans (.setF h1)).trans (.setF h2)).trans (.setF h3)).trans (.eachPlain fun _ p => .setF (h4 p))
  rw [hg.ident]
  exact he.boots hg

/-! ### A start -/

/-- The identity that a start derives, shown, and the owner it reads (R490 to R492). -/
def Core.identify (c : Core) (m : Mem) (id : Option (List Byte)) : Core :=
  let d : Core := { c with sec := { c.sec with ident := id } }
  (d.showDigest (pSec + 0x88) d.idDigest).takeOwner m

/-- The core of a start that has passed its checks, before it boots. -/
def Core.readyToBoot (c : Core) (m : Mem) (id : Option (List Byte)) (cause : Nat) (k : StartChecks) : Core :=
  ((c.strapId k.device).enterReset.leaveReset cause k).identify m id

theorem start_passes (h : heldCode k = 0) :
    start m c cause k =
      let r := identity { m with bytes := [], poison := [] } k.puf
      if k.bootHost then (r.1, (c.readyToBoot r.1 r.2 cause k).hostBoot) else flashBoot r.1 (c.readyToBoot r.1 r.2 cause k) :=
  if_neg (not_not.mpr h)

theorem start_fails (h : heldCode k ≠ 0) :
    start m c cause k = (m, { ((c.strapId k.device).enterReset).setF 0xB0 0 4 cause with
      flt := { (c.strapId k.device).enterReset.flt with
        heldReset := heldCode k, failMeadow := if heldCode k = 2 then k.failMeadow.getD 0 else 0 } }) :=
  if_pos h

theorem rd_strapped (c : Core) (d : Silicon) : (c.strapId d).enterReset.rd 0x80 = devId d := by
  rw [Core.rd_enterReset, Core.strapId, Core.rd_wr_self, Nat.mod_eq_of_lt (devId_lt d)]

theorem Settled.identify {dev : Nat} {i : Option (List Byte)} (h : Settled cause dev i c) :
    Settled cause dev id (c.identify m id) := by
  have hd : Settled cause dev id { c with sec := { c.sec with ident := id } } :=
    ⟨h.out, h.cause, h.rgns, h.sess, h.time, rfl, h.dev, h.safe⟩
  exact hd.boots ((Boots.showDigest (by decide)).trans .takeOwner)

theorem settled_readyToBoot (hc : cause < 16) : Settled cause (devId k.device) id (c.readyToBoot m id cause k) :=
  (settled_leaveReset hc rfl rfl rfl (rd_strapped ..) (Core.safe_enterReset _)).identify

/-- What a start that passes leaves (R16, R489, R550). -/
structure Started (m0 : Mem) (k : StartChecks) (cause : Nat) (m : Mem) (c : Core) : Prop where
  bytes : m.bytes = []
  poison : m.poison = []
  settled : Settled cause (devId k.device) (identity { m0 with bytes := [], poison := [] } k.puf).2 c
  host : k.bootHost = true → c.kwn.upload = some []
  flash : k.bootHost = false → c.kwn.upload = some [] ∨ c.devState = 1

theorem started_of_passes (h : heldCode k = 0) (hc : cause < 16) :
    Started m k cause (start m c cause k).1 (start m c cause k).2 := by
  rw [start_passes h]
  extract_lets r
  obtain ⟨hb, hp⟩ := identity_keeps { m with bytes := [], poison := [] } k.puf
  have hs : Settled cause (devId k.device) r.2 (c.readyToBoot r.1 r.2 cause k) := settled_readyToBoot hc
  by_cases hk : k.bootHost = true
  · rw [if_pos hk]
    exact ⟨hb, hp, hs.boots .hostBoot, fun _ => Core.upload_hostBoot _, fun h => absurd (hk.symm.trans h) (by decide)⟩
  · rw [if_neg hk]
    obtain ⟨hb', hp'⟩ := flashBoot_keeps r.1 (c.readyToBoot r.1 r.2 cause k)
    exact ⟨hb'.trans hb, hp'.trans hp, hs.boots .flashBoot_core, fun h => absurd h hk, fun _ => flashBoot_runs hs.safe⟩

end

end Sys2Proof.Machine
end

