-- ==== Sys2Proof/Proofs/Firmware.lean ====
section
/-! PROOF. Firmware's start and the handshake, and every start of the device: O47. -/

namespace Sys2Proof.Machine

section
variable {c : Core} {a k lo w v : Nat}

theorem Core.getB_eq_getF (c : Core) (a lo : Nat) : c.getB a lo = decide (c.getF a lo 1 = 1) := rfl

theorem Core.safe_congr {d : Core} (h : d.rd (pFlt + 0x80) = c.rd (pFlt + 0x80)) : d.safe = c.safe := by
  rw [Core.safe, Core.getB_eq_getF, Core.getF, h, Core.safe, Core.getB_eq_getF, Core.getF]

theorem Core.safe_setF (h : pFlt + 0x80 ≠ a) : (c.setF a lo w v).safe = c.safe := Core.safe_congr (Core.rd_setF_ne c lo w v h)

theorem Core.setDevState_of_not_safe (h : c.safe = false) : c.setDevState k = c.setF 0x88 0 3 k := if_neg (by simp [h])

theorem Core.devState_setF (h : 0x88 ≠ a) : (c.setF a lo w v).devState = c.devState := Core.getF_setF_ne c lo w v 0 3 h

theorem topMajor_lt {v k : Nat} (h : topMajor v = some k) : k < 16 := by
  have hm := List.mem_of_find?_eq_some h
  simpa using hm

theorem Core.now_congr {d : Core} (hc : d.clk = c.clk) (h : ∀ a, a = pTime + 0xA0 ∨ a = pTime + 0x208 → d.rd a = c.rd a) :
    d.now = c.now := by
  have hi : d.incr = c.incr := by
    simp only [Core.incr, Core.getF, hc, h (pTime + 0xA0) (.inl rfl), h (pTime + 0x208) (.inr rfl)]
  rw [Core.now, Core.now, hc, hi]

/-! ### Service -/

theorem Core.en_setEn {p q : Nat} (h : c.en q = true) : (c.setF (p + 0x18) 0 1 1).en q = true := by
  by_cases hpq : q = p
  · subst hpq
    rw [Core.en, Core.getB_eq_getF, Core.getF_setF_self _ _ _ _ _ (by decide)]
    rfl
  · rw [Core.en, Core.getB_eq_getF, Core.getF_setF_ne _ _ _ _ _ _ (by omega)]
    exact h

theorem Core.en_setEns {ps : List Nat} {q : Nat} (h : q ∈ ps ∨ c.en q = true) :
    (ps.foldl (fun c p => c.setF (p + 0x18) 0 1 1) c).en q = true := by
  induction ps generalizing c with
  | nil => exact h.resolve_left (by simp)
  | cons p ps ih =>
    refine ih ?_
    rcases h with h | h
    · rcases List.mem_cons.mp h with rfl | h
      · right
        rw [Core.en, Core.getB_eq_getF, Core.getF_setF_self _ _ _ _ _ (by decide)]
        rfl
      · exact .inl h
    · exact .inr (Core.en_setEn h)

theorem Core.rd_setEns {ps : List Nat} (h : ∀ p ∈ ps, a ≠ p + 0x18) :
    (ps.foldl (fun c p => c.setF (p + 0x18) 0 1 1) c).rd a = c.rd a := by
  induction ps generalizing c with
  | nil => rfl
  | cons p ps ih =>
    rw [List.forall_mem_cons] at h
    exact (ih h.2).trans (Core.rd_setF_ne _ _ _ _ h.1)

theorem Core.rd_laneSync {l : Nat} (h : a ≠ aLaneStat l) : (c.laneSync l).rd a = c.rd a := by
  unfold Core.laneSync
  extract_lets on
  split
  · exact Core.rd_setF_ne _ _ _ _ h
  · split
    · exact Core.rd_setF_ne c _ _ _ h
    · rfl

theorem Core.rd_laneSyncs {ls : List Nat} (h : ∀ l, a ≠ aLaneStat l) : (ls.foldl (fun c l => c.laneSync l) c).rd a = c.rd a := by
  induction ls generalizing c with
  | nil => rfl
  | cons l ls ih => exact ih.trans (Core.rd_laneSync (h l))

/-- The pages that service enables (R458). -/
def Core.servicePages (c : Core) : List Nat :=
  [pPort, pSep, pComp, pComp1, pKey, pTask, pCap, pPass] ++ (List.range c.meadows).map pMdw

theorem Core.servicePages_aligned {p : Nat} (h : p ∈ c.servicePages) : p % 0x1000 = 0 := by
  rcases List.mem_append.mp h with h | h
  · exact (by decide : ∀ p ∈ [pPort, pSep, pComp, pComp1, pKey, pTask, pCap, pPass], p % 0x1000 = 0) p h
  · obtain ⟨m, -, rfl⟩ := List.mem_map.mp h
    unfold pMdw
    omega

theorem aLaneStat_mod (l : Nat) : aLaneStat l % 0x80 = 8 := by
  unfold aLaneStat aLane pPass
  omega

theorem pPass_le_aLaneStat (l : Nat) : pPass ≤ aLaneStat l := by
  unfold aLaneStat aLane
  omega

theorem Core.enterService_eq : c.enterService =
    (List.range 16).foldl (fun c l => c.laneSync l) ((c.servicePages.foldl (fun c p => c.setF (p + 0x18) 0 1 1) c).setDevState 3) := rfl

section
variable (hs : c.safe = false)
include hs

theorem Core.safe_setEns : (c.servicePages.foldl (fun c p => c.setF (p + 0x18) 0 1 1) c).safe = false := by
  refine (Core.safe_congr (Core.rd_setEns fun p hp => ?_)).trans hs
  have := Core.servicePages_aligned hp
  unfold pFlt
  omega

theorem Core.rd_enterService (h1 : a ≠ 0x88) (h2 : a % 0x1000 ≠ 0x18) (h3 : a < pPass) : c.enterService.rd a = c.rd a := by
  have hl (l : Nat) : a ≠ aLaneStat l := by have := pPass_le_aLaneStat l; omega
  rw [Core.enterService_eq, Core.rd_laneSyncs hl, Core.setDevState_of_not_safe (Core.safe_setEns hs), Core.rd_setF_ne _ _ _ _ h1]
  refine Core.rd_setEns fun p hp => ?_
  have := Core.servicePages_aligned hp
  omega

theorem Core.devState_enterService : c.enterService.devState = 3 := by
  have hl (l : Nat) : 0x88 ≠ aLaneStat l := by have := pPass_le_aLaneStat l; unfold pPass at this; omega
  rw [Core.enterService_eq, Core.devState, Core.getF, Core.rd_laneSyncs hl, ← Core.getF,
    Core.setDevState_of_not_safe (Core.safe_setEns hs), Core.getF_setF_self _ _ _ _ _ (by decide)]
  rfl

theorem Core.en_enterService {p : Nat} (h : p ∈ [pPort, pSep, pComp, pComp1, pKey, pTask, pCap, pPass]) : c.enterService.en p = true := by
  have hp : p ∈ c.servicePages := List.mem_append_left _ h
  have ha := Core.servicePages_aligned hp
  have hl (l : Nat) : p + 0x18 ≠ aLaneStat l := by have := aLaneStat_mod l; omega
  rw [Core.en, Core.getB_eq_getF, Core.enterService_eq, Core.getF, Core.rd_laneSyncs hl, ← Core.getF,
    Core.setDevState_of_not_safe (Core.safe_setEns hs), Core.getF_setF_ne _ _ _ _ _ _ (by omega)]
  exact Core.en_setEns (.inl hp)

/-! ### The handshake (R479) -/

/-- Without a common major the handshake fails. -/
theorem Core.handshake_none (h : topMajor (c.getF 0xA8 0 16 &&& c.getF 0xA8 16 16) = none) :
    c.handshake.getF 0xA8 0 16 = c.getF 0xA8 0 16 ∧ c.handshake.devState = 4 ∧ c.handshake.getB 0x88 3 = true := by
  have hsafe : ((c.setF 0x88 3 1 1).setF 0xA8 36 1 0).safe = false :=
    (Core.safe_setF (by decide)).trans ((Core.safe_setF (by decide)).trans hs)
  have he : c.handshake = ((c.setF 0x88 3 1 1).setF 0xA8 36 1 0).setF 0x88 0 3 4 := by
    rw [← Core.setDevState_of_not_safe hsafe, Core.handshake]
    simp only [h]
  rw [he, Core.devState, Core.getB_eq_getF]
  refine ⟨?_, Core.getF_setF_self _ _ _ _ _ (by decide), ?_⟩
  · rw [Core.getF_setF_ne _ _ _ _ _ _ (by decide), Core.getF_setF_apart _ _ _ _ _ _ _ (by decide) (by decide),
      Core.getF_setF_ne _ _ _ _ _ _ (by decide)]
  · rw [Core.getF_setF_apart _ _ _ _ _ _ _ (by decide) (by decide), Core.getF_setF_ne _ _ _ _ _ _ (by decide),
      Core.getF_setF_self _ _ _ _ _ (by decide)]
    rfl

/-- The core with an agreement on a major, before service. -/
def Core.agreed (c : Core) (k : Nat) : Core := ((c.setF 0xA8 32 4 k).setF 0xA8 36 1 1).setF 0x88 3 1 0

omit hs in
theorem Core.getB_agreed : (c.agreed k).getB 0x88 4 = c.getB 0x88 4 := by
  rw [Core.agreed, Core.getB_eq_getF, Core.getF_setF_apart _ _ _ _ _ _ _ (by decide) (by decide),
    Core.getF_setF_ne _ _ _ _ _ _ (by decide), Core.getF_setF_ne _ _ _ _ _ _ (by decide), Core.getB_eq_getF]

omit hs in
theorem Core.getF_agreed : (c.agreed k).getF 0xA8 lo w = ((c.setF 0xA8 32 4 k).setF 0xA8 36 1 1).getF 0xA8 lo w :=
  Core.getF_setF_ne _ _ _ _ _ _ (by decide)

theorem Core.safe_agreed : (c.agreed k).safe = false := by
  rw [Core.agreed, Core.safe_setF (by decide), Core.safe_setF (by decide), Core.safe_setF (by decide), hs]

omit hs in
theorem Core.enters_of_trained (ht : c.getB 0x88 4 = false) (hr : c.sec.restart = none) :
    (if c.getB 0x88 4 then c.setDevState 4 else if c.sec.restart.isSome then c.setDevState 2 else c.enterService) = c.enterService := by
  rw [if_neg (by simp [ht]), if_neg (by simp [hr])]

omit hs in
theorem Core.handshake_enters (h : topMajor (c.getF 0xA8 0 16 &&& c.getF 0xA8 16 16) = some k) (ht : c.getB 0x88 4 = false)
    (hr : c.sec.restart = none) : c.handshake = (c.agreed k).enterService := by
  have htrain : (c.agreed k).getB 0x88 4 = false := Core.getB_agreed.trans ht
  have hrest : (c.agreed k).sec.restart = none := by
    rw [Core.agreed, Core.setF_sec, Core.setF_sec, Core.setF_sec, hr]
  simp only [Core.handshake, h]
  exact Core.enters_of_trained htrain hrest

/-- With a common major, and neither failed training nor a restart under way, service begins. -/
theorem Core.handshake_some (h : topMajor (c.getF 0xA8 0 16 &&& c.getF 0xA8 16 16) = some k) (ht : c.getB 0x88 4 = false)
    (hr : c.sec.restart = none) :
    c.handshake.devState = 3 ∧ c.handshake.getF 0xA8 32 4 = k ∧ c.handshake.getB 0xA8 36 = true ∧
    ∀ p ∈ [pPort, pSep, pComp, pComp1, pKey, pTask, pCap, pPass], c.handshake.en p = true := by
  have hsafe : (c.agreed k).safe = false := Core.safe_agreed hs
  have hF (lo w : Nat) : (c.agreed k).enterService.getF 0xA8 lo w = ((c.setF 0xA8 32 4 k).setF 0xA8 36 1 1).getF 0xA8 lo w := by
    rw [Core.getF, Core.rd_enterService hsafe (by decide) (by decide) (by decide), ← Core.getF, Core.getF_agreed]
  rw [Core.handshake_enters h ht hr]
  refine ⟨Core.devState_enterService hsafe, ?_, ?_, fun p => Core.en_enterService hsafe⟩
  · rw [hF, Core.getF_setF_apart _ _ _ _ _ _ _ (by decide) (by decide), Core.getF_setF_self _ _ _ _ _ (by decide)]
    exact Nat.mod_eq_of_lt (topMajor_lt h)
  · rw [Core.getB_eq_getF, hF, Core.getF_setF_self _ _ _ _ _ (by decide)]
    rfl

/-- Firmware that starts shows its majors and waits for the host (R487). -/
theorem Core.firmwareStart_waits (h1 : c.fwState = 1) (hi : c.inReset = false) (hu : c.kwn.upload = none) (hr : c.sec.restart = none) :
    (c.firmwareStart k).devState = 2 ∧ (c.firmwareStart k).getF 0xA8 16 16 = k % 2 ^ 16 ∧
    (c.firmwareStart k).sec.trialAt = if c.sec.trial then some c.now else none := by
  unfold Core.firmwareStart
  rw [if_neg (by simp [h1, hi, hu])]
  extract_lets d e f _ g
  have hd : d = ((c.setF 0xA8 16 16 k).setF (pCtl + 0x88) 0 24 2).setF 0x88 0 3 2 :=
    Core.setDevState_of_not_safe ((Core.safe_setF (by decide)).trans ((Core.safe_setF (by decide)).trans hs))
  have hed (a : Nat) (ha : a < pTask) : e.rd a = d.rd a := by
    have ht : a ≠ pTask + 0x80 ∧ a ≠ pCap + 0x80 ∧ a ≠ pPass + 0x80 := by unfold pTask at ha; unfold pTask pCap pPass; omega
    rw [Core.rd_setF_ne _ _ _ _ ht.2.2, Core.rd_setF_ne _ _ _ _ ht.2.1, Core.rd_setF_ne _ _ _ _ ht.1]
  have hfd (a : Nat) (ha : a < pTask) : f.rd a = d.rd a := by
    have ht : a ≠ pCtl + 0x120 := by unfold pTask at ha; unfold pCtl; omega
    unfold f
    split
    · exact (Core.rd_setF_ne _ _ _ _ ht).trans (hed a ha)
    · exact hed a ha
  have hdc (a : Nat) (h1 : a ≠ 0x88) (h2 : a ≠ 0xA8) (h3 : a ≠ pCtl + 0x88) : d.rd a = c.rd a := by
    rw [hd, Core.rd_setF_ne _ _ _ _ h1, Core.rd_setF_ne _ _ _ _ h3, Core.rd_setF_ne _ _ _ _ h2]
  have he : Changes [.regs] c e := by
    have h : Changes [.regs] c d := by
      rw [hd]
      exact ((changes_setF.trans changes_setF).trans changes_setF).mono rfl
    exact (((h.trans changes_setF).trans changes_setF).trans changes_setF).mono rfl
  have hf : Changes [.regs] c f := .ite ((he.trans changes_setF).mono rfl) he
  have hsec : f.sec = c.sec := hf .sec (by decide)
  have hclk : f.clk = c.clk := hf .clk (by decide)
  have hnow : f.now = c.now := Core.now_congr hclk fun a ha => by
    have hp : a < pTask ∧ a ≠ 0x88 ∧ a ≠ 0xA8 ∧ a ≠ pCtl + 0x88 := by unfold pTime at ha; unfold pTask pCtl; omega
    obtain ⟨ht, h1, h2, h3⟩ := hp
    exact (hfd a ht).trans (hdc a h1 h2 h3)
  have hg : g.sec.restart.isSome = false := by
    show f.sec.restart.isSome = false
    rw [hsec, hr]
    rfl
  rw [if_neg (by simp [hg])]
  refine ⟨?_, ?_, ?_⟩
  · show f.getF 0x88 0 3 = 2
    rw [Core.getF, hfd _ (by decide), ← Core.getF, hd, Core.getF_setF_self _ _ _ _ _ (by decide)]
    rfl
  · show f.getF 0xA8 16 16 = k % 2 ^ 16
    rw [Core.getF, hfd _ (by decide), ← Core.getF, hd, Core.getF_setF_ne _ _ _ _ _ _ (by decide),
      Core.getF_setF_ne _ _ _ _ _ _ (by decide), Core.getF_setF_self _ _ _ _ _ (by decide)]
  · show (if f.sec.trial then some f.now else none) = _
    rw [hsec, hnow]

end

end

/-! ### DEV_FWI and the commands that start the device -/

section
variable {c : Core} {a : Access} {v : Nat}

theorem Core.fwState_setF {r lo w x : Nat} (h : 0x88 ≠ r) : (c.setF r lo w x).fwState = c.fwState := by
  rw [Core.fwState, Core.fwState, Core.devState_setF h, Core.setF_flt]

theorem Core.hFwi_refused (h : c.getB 0xA8 36 = true) (ha : isPriv a = false) : c.hFwi a v = c.reject pDev 0xA8 v :=
  if_pos (by simp [h, ha])

theorem Core.hFwi_taken (h : c.getB 0xA8 36 = false ∨ isPriv a = true) (hf : 2 ≤ c.fwState) :
    c.hFwi a v = (c.setF 0xA8 0 16 v).handshake := by
  have hn : (c.getB 0xA8 36 && !isPriv a) = false := by rcases h with h | h <;> simp [h]
  exact (if_neg (by simp [hn])).trans (if_pos (by rwa [Core.fwState_setF (by decide)]))

theorem Core.getF_hostMajors : (c.setF 0xA8 0 16 v).getF 0xA8 0 16 = v % 2 ^ 16 := Core.getF_setF_self _ _ _ _ _ (by decide)

theorem Core.getF_fwMajors : (c.setF 0xA8 0 16 v).getF 0xA8 16 16 = c.getF 0xA8 16 16 :=
  Core.getF_setF_apart _ _ _ _ _ _ _ (by decide) (by decide)

theorem Core.inReset_enterReset (c : Core) : c.enterReset.inReset = true := rfl

/-- A start whose checks fail holds reset with its code (R522, R523). -/
structure HeldReset (m : Mem) (k : StartChecks) (m' : Mem) (c : Core) : Prop where
  mem : m' = m
  reset : c.inReset = true
  code : c.flt.heldReset = heldCode k
  dev : c.rd 0x80 = devId k.device

theorem heldReset_of_reset {m : Mem} {k : StartChecks} {cause : Nat} {f : FltSt} (hr : c.inReset = true) (hf : f.heldReset = heldCode k)
    (hd : c.rd 0x80 = devId k.device) : HeldReset m k m { c.setF 0xB0 0 4 cause with flt := f } :=
  ⟨rfl, hr, hf, (Core.rd_setF_ne c _ _ _ (by decide)).trans hd⟩

theorem heldReset_of_fails {m : Mem} {k : StartChecks} {cause : Nat} (h : heldCode k ≠ 0) :
    HeldReset m k (start m c cause k).1 (start m c cause k).2 := by
  rw [start_fails h]
  exact heldReset_of_reset (Core.inReset_enterReset _) rfl (rd_strapped ..)

theorem mgReset_twice {m : Mem} {k : StartChecks} {t : Nat} (h : c.flt.mgFirst = some t) (ht : c.now ≤ t + nsN 1000000) :
    mgReset m c k 0xA5 = start m c 3 k := by
  simp [mgReset, h, ht]

theorem mgReset_once {m : Mem} {k : StartChecks} (h : c.flt.mgFirst = none) :
    mgReset m c k 0xA5 = (m, { c with flt := { c.flt with mgFirst := some c.now } }) := by
  simp [mgReset, h]

theorem mgReset_other {m : Mem} {k : StartChecks} {x : Nat} (h : x ≠ 0xA5) : mgReset m c k x = (m, c) := if_pos h

end

theorem mgResetCmd_runs {s : State} {k : StartChecks} {x : Nat} {r : Mem × Core} {P : Mem → Core → Prop}
    (h : mgReset s.mem s.core k x = r) (hP : P r.1 r.2) : Stated.RunsDev (.mgResetCmd k x) s P := by
  subst h
  exact ⟨_, _, rfl, hP⟩

theorem devFwiWrite_runs {s : State} {a : Access} {v : Word64} {d : Core} {P : Core → Prop} (h : s.core.hFwi a v.toNat = d) (hP : P d) :
    Stated.Runs (.devFwiWrite a v) s P := by
  subst h
  exact ⟨_, rfl, hP⟩

end Sys2Proof.Machine

open Sys2Proof Sys2Proof.Machine Sys2Proof.Stated

/-- Settles O47: every start through what it settles before it boots, and the handshake case by case. -/
theorem deviceStarts : Obligations.DeviceStarts := by
  unfold Obligations.DeviceStarts
  refine ⟨fun s k => ?_, fun s => ⟨_, rfl, rfl, rfl, rfl, rfl, rfl⟩, fun s majors h1 hi hu hr hs => ?_, fun s a v hs => ?_⟩
  · intro ok held
    have pass (cause : Nat) (hc : cause < 16) (hk : heldCode k = 0) :
        ok cause (start s.mem s.core cause k).1 (start s.mem s.core cause k).2 := by
      obtain ⟨hb, hp, hd, hh, hf⟩ := started_of_passes (m := s.mem) (c := s.core) hk hc
      exact ⟨hb, hp, hd.out, hd.cause, hd.rgns, hd.sess, hd.time, hd.ident, hd.dev, hh, hf⟩
    have fail (cause : Nat) (hk : heldCode k ≠ 0) :
        held (start s.mem s.core cause k).1 (start s.mem s.core cause k).2 := by
      obtain ⟨hm, hr, hf, hd⟩ := heldReset_of_fails (m := s.mem) (c := s.core) (cause := cause) hk
      exact ⟨hm, hr, hf, hd⟩
    refine ⟨fun hk => ⟨⟨_, _, rfl, pass 1 (by decide) hk⟩, ⟨_, _, rfl, pass 2 (by decide) hk⟩⟩,
      fun hk => ⟨⟨_, _, rfl, fail 1 hk⟩, ⟨_, _, rfl, fail 2 hk⟩⟩, fun t ht hn => ?_, fun hn => ?_, fun x hx => ?_⟩
    · exact ⟨fun hk => mgResetCmd_runs (mgReset_twice ht hn) (pass 3 (by decide) hk),
        fun hk => mgResetCmd_runs (mgReset_twice ht hn) (fail 3 hk)⟩
    · exact mgResetCmd_runs (mgReset_once hn) ⟨rfl, rfl, rfl⟩
    · exact mgResetCmd_runs (mgReset_other hx) ⟨rfl, rfl⟩
  · exact ⟨_, rfl, Core.firmwareStart_waits hs h1 hi hu hr⟩
  · intro common
    generalize hd : s.core.setF 0xA8 0 16 v.toNat = d
    have hcommon : topMajor (d.getF 0xA8 0 16 &&& d.getF 0xA8 16 16) = common := by
      rw [← hd, Core.getF_hostMajors, Core.getF_fwMajors]
    have hsafe : d.safe = false := by rw [← hd, Core.safe_setF (by decide), hs]
    refine ⟨fun hb ha => ?_, fun hb hf => ?_⟩
    · refine devFwiWrite_runs (Core.hFwi_refused hb (decide_eq_false ha)) ⟨?_, ?_⟩
      · exact Core.rd_logErr_ne _ _ _ _ _ _ (by unfold LogTouches pDev; omega)
      · exact Core.getF_logErr_ne _ _ _ _ _ _ _ _ (by unfold LogTouches pDev; omega)
    · have taken : s.core.hFwi a v.toNat = d.handshake := hd ▸ Core.hFwi_taken (hb.imp_right decide_eq_true) hf
      refine ⟨fun hn => devFwiWrite_runs taken ?_, fun k hk ht hr => devFwiWrite_runs taken ?_⟩
      · obtain ⟨hmajors, hstate, hfail⟩ := Core.handshake_none hsafe (hcommon.trans hn)
        exact ⟨hmajors.trans (hd ▸ Core.getF_hostMajors), hstate, hfail⟩
      · refine Core.handshake_some hsafe (hcommon.trans hk) ?_ ?_
        · rw [← hd, Core.getB_eq_getF, Core.getF_setF_ne _ _ _ _ _ _ (by decide), ← Core.getB_eq_getF, ht]
        · rw [← hd, Core.setF_sec, hr]
end

