-- ==== Sys2Proof/Proofs/FrameStart.lean ====
section
/-! PROOF. A frame that starts on a port: its class, its number and the count of corrected codewords. O11. -/

namespace Sys2Proof.Machine

/-- A command whose meaning gives the core `d` runs exactly with what holds of `d`. -/
theorem runs_iff {i : Instr} {s : State} {d : Core} {P : Core → Prop} (h : exec i s = .next { s with core := d }) :
    Stated.Runs i s P ↔ P d := by
  constructor
  · rintro ⟨c, hc, hP⟩
    obtain rfl : d = c := congrArg State.core (Host.Outcome.next.inj (h.symm.trans hc))
    exact hP
  · exact fun hP => ⟨d, h, hP⟩

/-! ### Headers that fail a check of R219 -/

section
variable {b : List Byte} {end_ u n l3 o a : Nat} {vid : Option Nat} {h : Hdrs}

/-- The counters of R219. -/
def CheckCounter (a : Nat) : Prop := a = aNomatch ∨ a = aIpcsum ∨ a = aFrag

theorem CheckCounter.sep_le (h : CheckCounter a) : pSep ≤ a := by
  rcases h with rfl | rfl | rfl <;> decide

theorem udpHdrs_error (he : udpHdrs b end_ u n h = .error a) : CheckCounter a := by
  unfold udpHdrs at he
  extract_lets at he
  split at he
  · exact .inl (Except.error.inj he).symm
  · cases he

theorem ip4Hdrs_error (he : ip4Hdrs b end_ l3 h = .error a) : CheckCounter a := by
  unfold ip4Hdrs at he
  extract_lets at he
  split_ifs at he
  · exact .inl (Except.error.inj he).symm
  · exact .inr (.inl (Except.error.inj he).symm)
  · exact .inr (.inr (Except.error.inj he).symm)
  · exact .inl (Except.error.inj he).symm
  · exact udpHdrs_error he

theorem ip6Hdrs_error (he : ip6Hdrs b end_ l3 h = .error a) : CheckCounter a := by
  unfold ip6Hdrs at he
  extract_lets at he
  split_ifs at he
  · exact .inl (Except.error.inj he).symm
  · exact .inl (Except.error.inj he).symm
  · exact udpHdrs_error he

theorem etHdrs_error (he : etHdrs b end_ o vid = .error a) : CheckCounter a := by
  unfold etHdrs at he
  extract_lets at he
  split_ifs at he
  · exact .inl (Except.error.inj he).symm
  · exact ip4Hdrs_error he
  · exact ip6Hdrs_error he

theorem parseHdrs_error (he : parseHdrs b = .error a) : CheckCounter a := by
  unfold parseHdrs at he
  split at he
  · exact .inl (Except.error.inj he).symm
  · exact etHdrs_error he

end

/-! ### Classes -/

section
variable {c : Core} {lp num t a : Nat} {b : List Byte}

/-- Below the Separator's page classifying a frame leaves the registers. -/
theorem Core.rd_classify (ha : a < pSep) : (c.classify lp num t b).1.rd a = c.rd a := by
  have hbump {k : Nat} (hk : CheckCounter k) : (c.bump k).rd a = c.rd a :=
    Core.rd_bump_ne c (Nat.ne_of_lt (Nat.lt_of_lt_of_le ha hk.sep_le))
  unfold Core.classify
  extract_lets
  split
  · next he => exact hbump (parseHdrs_error he)
  · split_ifs
    any_goals rfl
    · exact hbump (.inl rfl)
    · split
      · exact hbump (.inl rfl)
      · rfl

/-- What a frame that has started is, whatever its class. -/
structure Frame.Started (lp num t : Nat) (b : List Byte) (f : Frame) : Prop where
  src : f.src = lp
  num : f.num = num
  tStart : f.tStart = t
  bytes : f.bytes = b
  verdict : f.verdict = none

theorem Core.started_classify : (c.classify lp num t b).2.Started lp num t b := by
  unfold Core.classify
  extract_lets
  split
  · exact ⟨rfl, rfl, rfl, rfl, rfl⟩
  · split_ifs
    any_goals exact ⟨rfl, rfl, rfl, rfl, rfl⟩
    split <;> exact ⟨rfl, rfl, rfl, rfl, rfl⟩

end

/-! ### A start on a port with link -/

section
variable {c : Core} {lp phi deskew corr a : Nat} {b : List Byte}

/-- The start of a frame at the reference plane (R184). -/
def Core.planeTime (c : Core) (phi deskew : Nat) : Nat :=
  adjust (c.at_ phi) (signed 32 (c.getF (pTime + 0x210) 0 32) - (c.dRx : Int) - deskew)

theorem Core.lt_of_lpUp (h : c.lpUp lp = true) : lp < 8 := by
  simp only [Core.lpUp, Core.lpOn, Bool.and_eq_true, decide_eq_true_eq] at h
  obtain ⟨⟨⟨-, hlt⟩, -⟩, -⟩ := h
  have hmode : c.getF (pPort + 0x80) 0 2 ≤ 3 := Nat.le_of_lt_succ (Nat.mod_lt _ (by decide))
  exact Nat.lt_of_lt_of_le hlt (Nat.pow_le_pow_right (by decide) hmode)

theorem Core.rd_fecCorrected_ne (h : a ≠ aLp lp + 0x30) : (c.fecCorrected lp corr).rd a = c.rd a := by
  unfold Core.fecCorrected
  extract_lets
  split
  · rfl
  · exact Core.rd_setF_ne c _ _ _ h

/-- Corrected codewords are counted modulo 2^32 (R214). -/
theorem Core.getF_fecCorrected (h : c.frozenAt (aLp lp + 0x30) = false) :
    (c.fecCorrected lp corr).getF (aLp lp + 0x30) 0 32 = (c.getF (aLp lp + 0x30) 0 32 + corr) % 2 ^ 32 := by
  unfold Core.fecCorrected
  simp only [h, Bool.false_eq_true, if_false]
  exact Core.getF_setF_self _ _ _ _ _ (by decide)

@[simp] theorem Core.sep_fecCorrected : (c.fecCorrected lp corr).sep = c.sep := changes_fecCorrected .sep (by decide)

@[simp] theorem Core.lpUp_fecCorrected : (c.fecCorrected lp corr).lpUp lp = c.lpUp lp := by
  have hrd (k : Nat) (hk : k < 0x100) : (c.fecCorrected lp corr).rd (pPort + k) = c.rd (pPort + k) :=
    Core.rd_fecCorrected_ne (by unfold aLp; omega)
  unfold Core.lpUp Core.lpOn Core.en Core.getB Core.getF
  rw [hrd 0x18 (by decide), hrd 0x80 (by decide), hrd 0x88 (by decide)]

@[simp] theorem Core.sep_classify {num t : Nat} : (c.classify lp num t b).1.sep = c.sep := changes_classify .sep (by decide)

@[simp] theorem Core.sep_observe {o : Obs} : (c.observe o).sep = c.sep := changes_observe .sep (by decide)

/-- What a start leaves: one frame more, the port's next number, and below the Separator's page no register changed but the port's
two counters. -/
structure Core.FrameKept (c d : Core) (lp corr t : Nat) (b : List Byte) : Prop where
  frame : ∃ f : Frame, d.sep.frames = c.sep.frames ++ [{ f with uncorr := decide (9216 < b.length) }] ∧
    f.Started lp (Store.get c.sep.counts 0 lp) t (b.take 9216)
  count : Store.get d.sep.counts 0 lp = (Store.get c.sep.counts 0 lp + 1) % 65536
  rd : ∀ a, a < pSep → a ≠ aLp lp + 0x20 → d.rd a = (c.fecCorrected lp corr).rd a

theorem Core.FrameKept.observed {d : Core} {t : Nat} {o : Obs} (h : c.FrameKept d lp corr t b) : c.FrameKept (d.observe o) lp corr t b :=
  ⟨by rw [Core.sep_observe]; exact h.frame, by rw [Core.sep_observe]; exact h.count,
    fun a ha hn => (Core.rd_congr (changes_observe .regs (by decide)) a).trans (h.rd a ha hn)⟩

theorem Core.frameKept_frameStart (hup : c.lpUp lp = true)
    (hfree : ∀ f ∈ c.sep.frames, f.src = lp → f.tEnd ≤ c.planeTime phi deskew) :
    c.FrameKept (c.frameStart lp phi deskew corr b) lp corr (c.planeTime phi deskew) b := by
  have hnone : c.sep.frames.any (fun f => f.src = lp && c.planeTime phi deskew < f.tEnd) = false := by
    simpa using hfree
  unfold Core.frameStart
  extract_lets t d n _ e r _ _ _ g
  have hd : d = c.fecCorrected lp corr := if_pos hup
  have hdsep : d.sep = c.sep := by rw [hd, Core.sep_fecCorrected]
  have hn : n = Store.get c.sep.counts 0 lp := by unfold n; rw [hdsep]
  have hrsep : r.1.sep = e.sep := Core.sep_classify.trans (e.bump_sep _)
  have hkept : c.FrameKept g lp corr t b := by
    refine ⟨⟨r.2, ?_, hn ▸ Core.started_classify⟩, ?_, fun a ha hne => ?_⟩
    · show r.1.sep.frames ++ _ = c.sep.frames ++ _
      rw [hrsep, ← hdsep]
    · show Store.get r.1.sep.counts 0 lp = _
      rw [hrsep, ← hn]
      exact Store.get_set_self _ _ _ _
    · calc r.1.rd a = (e.bump (aLp lp + 0x20)).rd a := Core.rd_classify ha
        _ = d.rd a := Core.rd_bump_ne e hne
        _ = (c.fecCorrected lp corr).rd a := by rw [hd]
  have hstay : (!d.lpUp lp || d.sep.frames.any (fun f => f.src = lp && t < f.tEnd)) = false := by
    rw [hdsep, hd, Core.lpUp_fecCorrected, hup]
    exact hnone
  rw [if_neg (by simp [hstay])]
  split
  · exact hkept
  · exact hkept.observed

end

end Sys2Proof.Machine

open Sys2Proof Sys2Proof.Machine Sys2Proof.Stated

/-- Settles O11: the frame is entered as it was classified, and only the port's two counters stand below the Separator's page. -/
theorem frameStartKeepsFrame : Obligations.FrameStartKeepsFrame := by
  unfold Obligations.FrameStartKeepsFrame
  intro s lp phi deskew corr b t hup hfree
  rw [runs_iff rfl]
  obtain ⟨⟨f, hframes, hf⟩, hcount, hrd⟩ := Core.frameKept_frameStart (corr := corr) (b := b) hup hfree
  refine ⟨_, hframes, hf.src, hf.num, hf.tStart, hf.bytes, rfl, hf.verdict, hcount, fun hfrozen => ?_⟩
  have hbelow : aLp lp + 0x30 < pSep := by
    have := Core.lt_of_lpUp hup
    unfold aLp pPort pSep
    omega
  rw [Core.getF, hrd _ hbelow (by omega), ← Core.getF, Core.getF_fecCorrected hfrozen]
end

