-- ==== Sys2Proof/Proofs/FordEvents.lean ====
section
/-! PROOF. Arrivals at the Ford and its releases. O13 fails, for an event that names a region the device does not have; for events that
name the eight regions, its clauses hold. -/

namespace Sys2Proof.Machine

/-! ### What an arrival reads, behind a change of the Separator's -/

/-- `d` differs from `c` at most in the Separator's state and in its counter of events for replay regions. -/
structure SepOnly (c d : Core) : Prop where
  changes : Changes [.regs, .sep] c d
  rd : ∀ a, a ≠ pSep + 0x180 → d.rd a = c.rd a

section
variable {c d : Core} {g t : Nat} {e : FordEv}

theorem SepOnly.rgn (h : SepOnly c d) : d.rgn g = c.rgn g := Core.rgn_congr (h.changes .rgns (by decide)) g

theorem SepOnly.ford (h : SepOnly c d) : d.ford = c.ford := h.changes .ford (by decide)

theorem SepOnly.now (h : SepOnly c d) : d.now = c.now :=
  Core.now_congr (h.changes .clk (by decide)) fun a ha => h.rd a (by unfold pTime at ha; unfold pSep; omega)

/-- Only of the device's regions: LAUNCH_AT of number 0x4010 would stand at the counter's address. -/
theorem SepOnly.takesEvent (h : SepOnly c d) (hg : g < 8) : d.takesEvent g t = c.takesEvent g t := by
  have hpins : d.pins = c.pins := h.changes .pins (by decide)
  have hlaunch : d.rd (pTime + 0x100 + 8 * g) = c.rd (pTime + 0x100 + 8 * g) := h.rd _ (by unfold pTime pSep; omega)
  unfold Core.takesEvent Core.barNames Core.launchTick Core.tickOf Core.epoch Core.tickP Core.getB Core.getF
  rw [h.rgn, hpins, hlaunch, h.rd _ (by decide), h.rd _ (by decide), h.rd _ (by decide), h.rd _ (by decide)]

theorem SepOnly.due (h : SepOnly c d) (hg : g < 8) : d.due g e = c.due g e := by
  have hdelay : d.rd (pTime + 0x140 + 8 * g) = c.rd (pTime + 0x140 + 8 * g) := h.rd _ (by unfold pTime pSep; omega)
  unfold Core.due Core.dFord Core.dFordRaw Core.getF
  rw [hdelay, h.rgn]

theorem SepOnly.frozenAt {a : Nat} (h : SepOnly c d) (ha : a < 0x20000000) : d.frozenAt a = c.frozenAt a := by
  have hpage (c : Core) : c.freezePage a = pageOf a := by
    unfold Core.freezePage
    rw [if_neg (by omega), if_neg (by omega), if_neg (by omega)]
  unfold Core.frozenAt Core.getB Core.getF
  rw [hpage, hpage, h.rd _ (by unfold pageOf pSep; omega)]

end

/-! ### The buffer -/

section
variable {c : Core} {e : FordEv}

/-- The regions of an event that take it. -/
def Core.takers (c : Core) (e : FordEv) : List Nat := e.regions.filter fun g => c.takesEvent g e.tick

/-- With room an event joins the buffer for the regions that take it, LATE where a due instant has passed (R32, R199). -/
theorem Core.fordAccept_room (ht : c.takers e ≠ []) (hroom : c.ford.buf.length < 4096) :
    (c.fordAccept e).sep = c.sep ∧
    (c.fordAccept e).ford.buf = c.ford.buf ++ [{ e with regions := c.takers e, late := (c.takers e).any fun g => c.due g e < c.now }] := by
  unfold Core.fordAccept
  extract_lets e' late f live d
  have hd : d.sep = c.sep ∧ d.ford = c.ford := by
    unfold d
    split
    · exact ⟨by simp, by simp⟩
    · exact ⟨rfl, rfl⟩
  obtain ⟨hsep, hford⟩ := hd
  have he : e'.regions ≠ [] := ht
  rw [if_neg he, if_neg (by omega)]
  refine ⟨hsep, ?_⟩
  show d.ford.buf ++ _ = _
  rw [hford]
  rfl

/-- With the buffer full it is dropped and counted (R32). -/
theorem Core.fordAccept_full (ht : c.takers e ≠ []) (hfull : 4096 ≤ c.ford.buf.length) :
    (c.fordAccept e).ford = c.ford ∧ (c.fordAccept e).regs = (c.bump (pSep + 0x400 + 8 * e.src)).regs := by
  have h : c.fordAccept e = (c.bump (pSep + 0x400 + 8 * e.src)).observe (lossObs { e with regions := c.takers e } c.now) := by
    unfold Core.fordAccept
    extract_lets e'
    have he : e'.regions ≠ [] := ht
    rw [if_neg he, if_pos hfull]
    rfl
  rw [h]
  exact ⟨(changes_observe .ford (by decide)).trans (c.bump_ford _), changes_observe .regs (by decide)⟩

end

/-! ### Arrivals -/

section
variable {c : Core} {e : FordEv} {i : Nat}

/-- The regions that an event names and that no replay has taken (R349). -/
def Core.liveRegions (c : Core) (e : FordEv) : List Nat := e.regions.filter fun g => !(c.rgn g).replay

/-- The core once an event is no longer on its way. -/
def Core.arrived (c : Core) (i : Nat) : Core := { c with sep := { c.sep with inbox := c.sep.inbox.eraseIdx i } }

/-- In safe state an arrival is only counted (R511). -/
theorem Core.fordArrival_safe (he : c.sep.inbox[i]? = some e) (hfirst : ∀ x ∈ c.sep.inbox.take i, x.src ≠ e.src) (hs : c.safe = true) :
    c.fordArrival i = (c.arrived i).bump (pFlt + 0x118) := by
  unfold Core.fordArrival
  rw [he]
  dsimp only
  rw [if_neg (by simpa using hfirst)]
  exact if_pos hs

/-- Otherwise an event whose frame is not known to be bad, or that is speculative, is accepted for its live regions. -/
theorem Core.fordArrival_live (he : c.sep.inbox[i]? = some e) (hfirst : ∀ x ∈ c.sep.inbox.take i, x.src ≠ e.src) (hs : c.safe = false)
    (hgood : bit (pfld e.word 0 8) 45 = true ∨
      ∀ f ∈ c.sep.frames, f.src = e.src → f.num = pfld e.word 0 8 / 2 ^ 46 % 65536 → f.verdict ≠ some false) :
    ∃ d, SepOnly c d ∧ d.sep.inbox = c.sep.inbox.eraseIdx i ∧
      c.fordArrival i = d.fordAccept { e with regions := c.liveRegions e } := by
  have hput : SepOnly c (c.arrived i) := ⟨(Changes.put .sep).mono rfl, fun _ _ => rfl⟩
  have hcount : SepOnly c ((c.arrived i).bump (pSep + 0x180)) :=
    ⟨(hput.changes.trans changes_bump).mono rfl, fun a ha => (Core.rd_bump_ne _ ha).trans (hput.rd a ha)⟩
  refine ⟨if (c.liveRegions e).length < e.regions.length then (c.arrived i).bump (pSep + 0x180) else c.arrived i, ?_, ?_, ?_⟩
  · split <;> assumption
  · split
    · rw [Core.bump_sep]; rfl
    · rfl
  · unfold Core.fordArrival
    rw [he]
    dsimp only
    rw [if_neg (by simpa using hfirst)]
    refine (if_neg (Bool.eq_false_iff.mp hs)).trans (if_neg fun hbad => ?_)
    simp only [Bool.and_eq_true, Bool.not_eq_true', List.any_eq_true, decide_eq_true_eq] at hbad
    obtain ⟨⟨-, f, hf, ⟨hsrc, hnum⟩, hv⟩, hspec⟩ := hbad
    rcases hgood with hgood | hgood
    · exact absurd (hspec.symm.trans hgood) (by decide)
    · exact hgood f hf hsrc hnum hv

end

/-! ### Releases -/

section
variable {c : Core} {m : Mem} {g : Nat} {l : Loaded} {e : FordEv}

theorem changes_prefetch {i : Iter} : Changes [.fab] c (c.prefetch m g i) := by
  unfold Core.prefetch
  split
  · exact .put .fab
  · exact .refl

/-- What names an iteration: its tag, set, instant and tick. -/
def Iter.name (i : Iter) : Tag × Bool × Nat × Nat := (i.tag, i.set, i.n, i.tick)

theorem Rgn.names_butFates (r : Rgn) : r.butFates.iters.map Iter.name = r.iters.map Iter.name := by
  unfold Rgn.butFates
  rw [List.map_map]
  rfl

/-- A release takes the event out of the buffer and gives its region an iteration with the next tag (R48, R193, R198). -/
theorem Core.fordEnter_takes :
    (c.fordEnter m g l e).ford.buf = takeEv g e c.ford.buf ∧
    ((c.fordEnter m g l e).rgn g).admitted = (c.rgn g).admitted + 1 ∧
    ((c.fordEnter m g l e).rgn g).iters.map Iter.name =
      (c.rgn g).iters.map Iter.name ++ [(BitVec.ofNat 16 (c.rgn g).admitted, (c.rgn g).setFor e.tick, e.n, e.tick)] := by
  unfold Core.fordEnter
  extract_lets r due slot set tag copy held w0 spec word home i dbg tok new taken entered made _ _ sent counted
  have hs : Changes [.regs, .fab] sent (counted.prefetch m g i) :=
    ((changes_bump.stepIf : Changes [.regs] sent counted).trans changes_prefetch).mono rfl
  have hford : (counted.prefetch m g i).ford = sent.ford := hs .ford (by decide)
  have hrgn : (counted.prefetch m g i).rgn g = entered.rgn g := Core.rgn_congr (hs .rgns (by decide)) g
  have hfates : (((counted.prefetch m g i).settleRgn g).rgn g).butFates = (entered.rgn g).butFates :=
    hrgn ▸ FatesOnly.settleRgn (counted.prefetch m g i) g g
  have hentered : entered.rgn g = _ := Core.rgn_setRgn_self ..
  refine ⟨?_, ?_, ?_⟩
  · show ((counted.prefetch m g i).settleRgn g).ford.buf = _
    rw [(EgressOnly.settleRgn _ g).ford, hford]
    rfl
  · show (((counted.prefetch m g i).settleRgn g).rgn g).butFates.admitted = _
    rw [hfates, hentered]
    rfl
  · show (((counted.prefetch m g i).settleRgn g).rgn g).iters.map Iter.name = _
    rw [← Rgn.names_butFates, hfates, hentered, Rgn.names_butFates]
    exact List.map_append

theorem Core.fordRelease_ready (hcursor : (c.rgn g).cursor = none) (hready : c.fordReady g = some e) (hbin : c.binFor g e.tick = some l)
    (hahead : c.fordAhead g e = false) : c.fordRelease m g = c.fordEnter m g l e := by
  unfold Core.fordRelease
  simp [hcursor, hready, hbin, hahead]

end

/-! ### The clauses that hold -/

section
variable {s : State} {i : Nat} {e : FordEv}

theorem runs_fordArrival {P : Core → Prop} : Stated.Runs (.fordArrival i) s P ↔ P (s.core.fordArrival i) := runs_iff rfl

/-- Out of safe state, of an event that names the eight regions only: which regions take it, and whether it is late, is as the state before
the arrival has it. -/
theorem fordArrival_accepts (he : s.core.sep.inbox[i]? = some e) (hfirst : ∀ x ∈ s.core.sep.inbox.take i, x.src ≠ e.src)
    (hs : s.core.safe = false)
    (hgood : bit (pfld e.word 0 8) 45 = true ∨
      ∀ f ∈ s.core.sep.frames, f.src = e.src → f.num = pfld e.word 0 8 / 2 ^ 46 % 65536 → f.verdict ≠ some false)
    (hregions : ∀ g ∈ e.regions, g < 8) :
    let rg := (s.core.liveRegions e).filter fun g => s.core.takesEvent g e.tick
    rg ≠ [] →
    (s.core.ford.buf.length < 4096 → Stated.Runs (.fordArrival i) s fun c =>
      c.sep.inbox = s.core.sep.inbox.eraseIdx i ∧
      c.ford.buf = s.core.ford.buf ++ [{ e with regions := rg, late := rg.any fun g => s.core.due g e < s.core.now }]) ∧
    (4096 ≤ s.core.ford.buf.length → Stated.Runs (.fordArrival i) s fun c =>
      c.ford.buf = s.core.ford.buf ∧ (s.core.frozenAt (pSep + 0x400 + 8 * e.src) = false →
        e.src < 36 → c.rd (pSep + 0x400 + 8 * e.src) = (s.core.rd (pSep + 0x400 + 8 * e.src) + 1) % 2 ^ 48)) := by
  intro rg hrg
  obtain ⟨d, hd, hinbox, harrival⟩ := Core.fordArrival_live he hfirst hs hgood
  have hlt (g : Nat) (hg : g ∈ s.core.liveRegions e) : g < 8 := hregions g (List.mem_filter.mp hg).1
  have htakers : d.takers { e with regions := s.core.liveRegions e } = rg :=
    List.filter_congr fun g hg => hd.takesEvent (hlt g hg)
  have hlate : (rg.any fun g => decide (d.due g e < d.now)) = rg.any fun g => decide (s.core.due g e < s.core.now) := by
    rw [Bool.eq_iff_iff, List.any_eq_true, List.any_eq_true]
    exact exists_congr fun g => and_congr_right fun hg => by rw [hd.due (hlt g (List.mem_filter.mp hg).1), hd.now]
  refine ⟨fun hroom => runs_fordArrival.mpr ?_, fun hfull => runs_fordArrival.mpr ?_⟩
  · rw [harrival]
    obtain ⟨hsep, hbuf⟩ := Core.fordAccept_room (htakers ▸ hrg) (hd.ford ▸ hroom)
    refine ⟨(congrArg Sep.inbox hsep).trans hinbox, hbuf.trans ?_⟩
    rw [htakers, hd.ford]
    exact congrArg (fun b => s.core.ford.buf ++ [{ e with regions := rg, late := b }]) hlate
  · rw [harrival]
    obtain ⟨hford, hregs⟩ := Core.fordAccept_full (htakers ▸ hrg) (hd.ford ▸ hfull)
    refine ⟨congrArg Ford.buf (hford.trans hd.ford), fun hfrozen hsrc => ?_⟩
    rw [Core.rd_congr hregs, Core.rd_bump_self d _ ((hd.frozenAt (by unfold pSep; omega)).trans hfrozen), hd.rd _ (by unfold pSep; omega)]

theorem fordArrival_discards (he : s.core.sep.inbox[i]? = some e) (hfirst : ∀ x ∈ s.core.sep.inbox.take i, x.src ≠ e.src)
    (hs : s.core.safe = true) (hfrozen : s.core.frozenAt (pFlt + 0x118) = false) :
    Stated.Runs (.fordArrival i) s fun c =>
      c.ford = s.core.ford ∧ c.sep.inbox = s.core.sep.inbox.eraseIdx i ∧
      c.rd (pFlt + 0x118) = (s.core.rd (pFlt + 0x118) + 1) % 2 ^ 48 := by
  rw [runs_fordArrival, Core.fordArrival_safe he hfirst hs]
  exact ⟨Core.bump_ford _ _, congrArg Sep.inbox (Core.bump_sep _ _), Core.rd_bump_self _ _ hfrozen⟩

theorem fordRelease_enters {g : Nat} {l : Loaded} (hcursor : (s.core.rgn g).cursor = none) (hready : s.core.fordReady g = some e)
    (hbin : s.core.binFor g e.tick = some l) (hahead : s.core.fordAhead g e = false) :
    Stated.Runs (.fordRelease g) s fun c =>
      c.ford.buf = takeEv g e s.core.ford.buf ∧ (c.rgn g).admitted = (s.core.rgn g).admitted + 1 ∧
      (c.rgn g).iters.map Iter.name = (s.core.rgn g).iters.map Iter.name ++
        [(BitVec.ofNat 16 (s.core.rgn g).admitted, (s.core.rgn g).setFor e.tick, e.n, e.tick)] :=
  (runs_iff (d := s.core.fordRelease s.mem g) rfl).mpr (Core.fordRelease_ready hcursor hready hbin hahead ▸ Core.fordEnter_takes)

end

/-! ### A region the device does not have -/

/-- A region number whose LAUNCH_AT would stand at the Separator's counter of events for replay regions. -/
def strayRegion : Nat := 0x4010

/-- An event for region 0 and for that number. -/
def strayEvent : FordEv :=
  { word := 0, regions := [0, strayRegion], src := 0, n := 0, tick := 0, late := false, poison := false, msg := 0, delta := 0 }

/-- It is on its way. Region 0 replays, so that the arrival is counted, and the stray number is armed to launch. -/
def strayState : State :=
  let c := (Core.reset.wr (pSep + 0x180) 1).setRgn 0 { Rgn.idle with replay := true }
  { State.reset with
    core := { c with sep := { c.sep with inbox := [strayEvent] }, pins := { c.pins with launchArmed := [strayRegion] } } }

end Sys2Proof.Machine

open Sys2Proof Sys2Proof.Machine Sys2Proof.Stated

/-- Refutes O13: the clause on room does not say that the event's regions are among the eight. `strayEvent` names the number 0x4010,
whose LAUNCH_AT the model reads at 0x10100 + 8 × 0x4010 = 0x30180, where the Separator counts events for replay regions. The arrival counts
there first, from 1 to 2, which moves that number's first tick from 0 to 1 (ticks of 2 ns), so that nothing takes the event of tick 0 any
more and the buffer stays empty. `fordArrival_accepts`, `fordArrival_discards` and `fordRelease_enters` are the clauses that hold. -/
theorem not_fordBuffersAndReleases : ¬ Obligations.FordBuffersAndReleases := by
  unfold Obligations.FordBuffersAndReleases
  rintro ⟨harrive, -, -⟩
  obtain ⟨hroom, -⟩ := harrive strayState 0 strayEvent rfl (by decide) (by decide +kernel) (.inr (by decide +kernel)) (by decide +kernel)
  obtain ⟨-, hbuf⟩ := runs_fordArrival.mp (hroom (by decide +kernel))
  have hempty : (strayState.core.fordArrival 0).ford.buf = [] := by decide +kernel
  exact List.append_ne_nil_of_right_ne_nil _ (List.cons_ne_nil _ _) (hbuf.symm.trans hempty)
end

