-- ==== Sys2Proof/Proofs/Firings.lean ====
section
/-! PROOF LAYER. What the work of a firing may touch (R46, R47, R57), and the firings of SFN and MUL cells. O1, O3. -/

namespace Sys2Proof.Machine

/-! ### Work that leaves a firing as it is -/

/-- `d` differs from `c` in nothing that decides the routes of a firing of `cell`, what waits at a port or what has fired. -/
structure FiringKept (cell : Nat) (c d : Core) : Prop where
  route : SameRoute c d cell
  fly : d.fab.fly = c.fab.fly
  held : d.fab.held = c.fab.held
  fired : d.fab.fired = c.fab.fired
  clk : d.clk = c.clk

namespace FiringKept

variable {cell : Nat} {c d e : Core}

theorem refl : FiringKept cell c c := ⟨⟨rfl, rfl, rfl⟩, rfl, rfl, rfl, rfl⟩

theorem trans (h : FiringKept cell c d) (k : FiringKept cell d e) : FiringKept cell c e where
  route :=
    have ⟨hr, hg, ho⟩ := h.route
    have ⟨kr, kg, ko⟩ := k.route
    ⟨kr.trans hr, kg.trans hg, ko.trans ho⟩
  fly := k.fly.trans h.fly
  held := k.held.trans h.held
  fired := k.fired.trans h.fired
  clk := k.clk.trans h.clk

/-- A step taken only under a condition. -/
theorem stepIf {p : Prop} [Decidable p] (h : FiringKept cell c d) : FiringKept cell c (if p then d else c) := by
  split
  · exact h
  · exact refl

/-- Of the registers only MDW_REGION of its meadow decides a cell's region. -/
theorem of_rd (h : Changes [.regs, .cyc, .notices, .errSeq] c d)
    (hr : d.rd (pMdw (cellMeadow cell) + 0x80) = c.rd (pMdw (cellMeadow cell) + 0x80)) : FiringKept cell c d := by
  have hfab : d.fab = c.fab := h .fab (by decide)
  have hfield : d.rgnField (cellMeadow cell) = c.rgnField (cellMeadow cell) := by
    unfold Core.rgnField Core.getF
    rw [hr]
  exact ⟨⟨h .rgns (by decide), Core.cellRgn_congr hfield (h .task (by decide)), by rw [hfab]⟩,
    by rw [hfab], by rw [hfab], by rw [hfab], h .clk (by decide)⟩

theorem ueLog {n line : Nat} : FiringKept cell c (c.ueLog n line) :=
  of_rd changes_ueLog (Core.rd_logErr_ne _ _ _ _ _ _ (not_logTouches_region _ _))

theorem bump {a : Nat} (ha : a ≠ pMdw (cellMeadow cell) + 0x80) : FiringKept cell c (c.bump a) :=
  of_rd (changes_bump.mono rfl) (Core.rd_bump_ne c ha.symm)

theorem credit {m : Nat} {k : Cnt} : FiringKept cell c (c.credit m k) :=
  ⟨⟨Core.credit_rgns .., Core.cellRgn_congr (Core.rgnField_credit ..) (Core.credit_task ..), by rw [Core.credit_fab]⟩,
    by rw [Core.credit_fab], by rw [Core.credit_fab], by rw [Core.credit_fab], Core.credit_clk ..⟩

end FiringKept

/-! ### Latched firings -/

section
variable {c : Core} {cell lat : Nat} {x : Ctx} {ports : List Nat} {ts : List Token} {work : Core → Core × Bool × List (Nat × Nat)}

/-- The index of a slot's tables follows from the regions and the cell's region. -/
theorem Core.slotKey_congr {c d : Core} (h : SameRoute c d cell) (set : Bool) : d.slotKey cell set = c.slotKey cell set := by
  obtain ⟨hr, hg, -⟩ := h
  have hg' : d.rgnOf (cellMeadow cell) = c.rgnOf (cellMeadow cell) := hg
  rw [Core.slotKey, Core.slotKey, hg', Core.rgn_congr hr]

/-- Taking its tokens, a cell keeps the route of its firing. -/
theorem Core.taken_route (hn : ports.Nodup) (set : Bool) : SameRoute c (c.taken cell ports set) cell := by
  obtain ⟨-, -, -, hfab, hr, -⟩ := Core.taken_spec c cell ports set hn
  exact ⟨hr, Core.taken_cellRgn c cell ports set hn, by rw [hfab]⟩

/-- A firing in time whose work leaves it as it is fires as R46, R47 and R57 say. -/
theorem fired_of_work {poison : Bool} {outs : List (Nat × Nat)} (he : c.early cell x 0 (joinTok ts) = false) (hn : ports.Nodup)
    (hw : (work (c.taken cell ports (joinTok ts).set)).2 = (poison, outs))
    (hk : FiringKept cell (c.taken cell ports (joinTok ts).set) (work (c.taken cell ports (joinTok ts).set)).1) :
    Stated.Fired c (c.fire cell x ports lat ts work) cell x ports lat ts poison outs := by
  obtain ⟨-, -, -, hfab, hrgns, hclk, -⟩ := Core.taken_spec c cell ports (joinTok ts).set hn
  have hfly : (c.taken cell ports (joinTok ts).set).fab.fly = c.fab.fly := by rw [hfab]
  have howners : (c.taken cell ports (joinTok ts).set).fab.owners = c.fab.owners := by rw [hfab]
  obtain ⟨kr, kg, ko⟩ := hk.route
  exact Core.fire_spec c cell x ports lat ts work poison outs he hn hw (kr.trans hrgns)
    (kg.trans (Core.taken_cellRgn c cell ports _ hn)) (hk.fly.trans hfly) hk.held hk.fired (hk.clk.trans hclk) (ko.trans howners)

end

/-! ### SFN cells -/

theorem sfnPorts_nodup (k : SfnCtx) : (sfnPorts k).Nodup := by
  unfold sfnPorts
  split <;> decide

theorem Core.sfnFire_ready {c : Core} {cell : Nat} {op : SfnOp} {x : Ctx} {k : SfnCtx} {ts : List Token}
    (h : c.sfnReady cell op = some (x, k, ts)) (lat : Nat) (f : SfnCtx → Nat → Nat → Nat × Cnt) :
    c.sfnFire cell op lat f = c.fire cell x (sfnPorts k) lat ts fun c =>
      let r := f k ((ts.map (·.payload.toNat)).getD 0 0) ((ts.map (·.payload.toNat)).getD 1 0)
      (c.credit (cellMeadow cell) r.2, false, [(0, r.1)]) := by
  unfold Core.sfnFire
  rw [h]

/-- A command whose meaning is an SFN firing fires its cell whenever it is ready. -/
theorem sfnRuns_of_exec {i : Nat → Instr} {op : SfnOp} {lat : Core → Nat → Nat} {f : SfnCtx → Nat → Nat → Nat × Cnt}
    (hi : ∀ cell s, exec (i cell) s = coreStep (fun _ c => c.sfnFire cell op (lat c cell) f) s) : Stated.SfnRuns i op lat f := by
  intro s cell x k ts hready hearly
  refine (runs_iff (hi cell s)).mpr ?_
  beta_reduce
  rw [Core.sfnFire_ready hready]
  exact fired_of_work hearly (sfnPorts_nodup k) rfl .credit

/-! ### MUL cells -/

section
variable {c : Core} {m : Mem} {cell : Nat} {chain : Bool} {x : Ctx} {k : MulCtx} {ts : List Token} {tag : Tag} {set : Bool}

/-- Moving an iteration to its next phase leaves the firing as it is. -/
theorem FiringKept.nextPhase : FiringKept cell c (c.nextPhase cell k tag set) := ⟨⟨rfl, rfl, rfl⟩, rfl, rfl, rfl, rfl⟩

theorem Core.nextPhase_get : Store.get (c.nextPhase cell k tag set).fab.phases 0 (c.phaseKey cell tag set) =
    if Store.get c.fab.phases 0 (c.phaseKey cell tag set) + 1 < k.phases
      then Store.get c.fab.phases 0 (c.phaseKey cell tag set) + 1 else 0 := Store.get_set_self ..

theorem Core.phaseKey_congr {c d : Core} (h : SameRoute c d cell) : d.phaseKey cell tag set = c.phaseKey cell tag set := by
  rw [Core.phaseKey, Core.phaseKey, Core.slotKey_congr h]

/-- The work of a MUL firing: the next phase, the counters, an uncorrectable word of the slot, the product. -/
def mulWork (m : Mem) (cell slot : Nat) (chain bad : Bool) (k : MulCtx) (ts : List Token) (c : Core) : Core × Bool × List (Nat × Nat) :=
  let t := joinTok ts
  let r := mulResult m cell slot k t.payload.toNat (if chain then (ts.getD 1 t).payload.toNat else none)
  let c := (c.nextPhase cell k t.tag t.set).credit (cellMeadow cell) r.2
  let c := if bad then c.ueLog cell (slot / 2) else c
  (c, bad, [(0, enc32 r.1)])

theorem Core.mulFire_ready (h : c.mulReady cell chain = some (x, k, ts)) {slot : Nat}
    (hslot : c.mulSlot cell k (joinTok ts).tag (joinTok ts).set = slot)
    (hin : slot < 256) (hfirst : k.first ≤ slot) (hlast : slot < k.first + k.count) :
    c.mulFire m cell chain = c.fire cell x (if chain then [0, 1] else [0]) 8 ts (mulWork m cell slot chain
      (m.poisonIn (aCell cell + 32 * slot) 32 || m.poisonIn (aCell cell + 0x2000 + 8 * slot) 8) k ts) := by
  unfold Core.mulFire
  rw [h]
  dsimp only
  rw [hslot, if_neg (by omega)]
  rfl

theorem FiringKept.mulWork {slot : Nat} {bad : Bool} : FiringKept cell c (mulWork m cell slot chain bad k ts c).1 :=
  (FiringKept.nextPhase.trans .credit).trans FiringKept.ueLog.stepIf

/-- The work of a MUL firing leaves the phases as the next phase has them. -/
theorem mulWork_phases {slot : Nat} {bad : Bool} : (Machine.mulWork m cell slot chain bad k ts c).1.fab.phases =
    (c.nextPhase cell k (joinTok ts).tag (joinTok ts).set).fab.phases := by
  unfold Machine.mulWork
  dsimp only
  have hlog (d : Core) : (if bad = true then d.ueLog cell (slot / 2) else d).fab = d.fab := by
    split
    · exact changes_ueLog .fab (by decide)
    · rfl
  rw [hlog, Core.credit_fab]

/-- Where the slot lies in the store and the context's range, DOT and DOTC fire it and move the iteration on (R51 to R53). -/
theorem mulFire_fires {slot : Nat} (hready : c.mulReady cell chain = some (x, k, ts)) (he : c.early cell x 0 (joinTok ts) = false)
    (hslot : c.mulSlot cell k (joinTok ts).tag (joinTok ts).set = slot)
    (hin : slot < 256) (hfirst : k.first ≤ slot) (hlast : slot < k.first + k.count) :
    let t := joinTok ts
    let bad := m.poisonIn (aCell cell + 32 * slot) 32 || m.poisonIn (aCell cell + 0x2000 + 8 * slot) 8
    Stated.Fired c (c.mulFire m cell chain) cell x (if chain then [0, 1] else [0]) 8 ts bad
      [(0, enc32 (mulResult m cell slot k t.payload.toNat (if chain then some (ts.getD 1 t).payload.toNat else none)).1)] ∧
    (c.mulFire m cell chain).fab.phases =
      ((c.taken cell (if chain then [0, 1] else [0]) t.set).nextPhase cell k t.tag t.set).fab.phases := by
  have hn : (if chain then [0, 1] else [0] : List Nat).Nodup := by split <;> decide
  dsimp only
  rw [Core.mulFire_ready hready hslot hin hfirst hlast]
  refine ⟨fired_of_work he hn (by cases chain <;> rfl) .mulWork, ?_⟩
  rw [Core.fire_eq _ _ _ _ _ _ _ he, Core.place_phases, mulWork_phases]

/-- The next phase of an iteration after a firing has taken its tokens. -/
theorem Core.taken_nextPhase_get {ports : List Nat} (hn : ports.Nodup) :
    Store.get ((c.taken cell ports set).nextPhase cell k tag set).fab.phases 0 (c.phaseKey cell tag set) =
      if Store.get c.fab.phases 0 (c.phaseKey cell tag set) + 1 < k.phases
        then Store.get c.fab.phases 0 (c.phaseKey cell tag set) + 1 else 0 := by
  obtain ⟨-, -, -, hfab, -⟩ := Core.taken_spec c cell ports set hn
  have hphases : (c.taken cell ports set).fab.phases = c.fab.phases := by rw [hfab]
  rw [← Core.phaseKey_congr (Core.taken_route hn set), Core.nextPhase_get, hphases]

end

end Sys2Proof.Machine

open Sys2Proof Sys2Proof.Machine Sys2Proof.Stated

/-- Settles O1: each command is the firing of its cell with its own latency and function. -/
theorem sfnCellsFire : Obligations.SfnCellsFire := by
  have runs {i op lat f} := @sfnRuns_of_exec i op lat f
  exact ⟨⟨runs fun _ _ => rfl, runs fun _ _ => rfl, runs fun _ _ => rfl, runs fun _ _ => rfl, runs fun _ _ => rfl, runs fun _ _ => rfl,
      runs fun _ _ => rfl, runs fun _ _ => rfl⟩,
    ⟨runs fun _ _ => rfl, runs fun _ _ => rfl, runs fun _ _ => rfl, runs fun _ _ => rfl, runs fun _ _ => rfl, runs fun _ _ => rfl⟩⟩

/-- Settles O3, by the firing of the phase's slot and the phase that follows. -/
theorem mulFires : Obligations.MulFires := by
  intro s cell chain x k ts hready hearly t slot hin hfirst hlast bad
  have hn : (if chain then [0, 1] else [0] : List Nat).Nodup := by split <;> decide
  have hexec : exec (if chain then .dotc cell else .dot cell) s = .next { s with core := s.core.mulFire s.mem cell chain } := by
    cases chain <;> rfl
  obtain ⟨hfired, hphases⟩ := mulFire_fires (m := s.mem) hready hearly rfl hin hfirst hlast
  refine (runs_iff hexec).mpr ⟨hfired, ?_⟩
  rw [hphases]
  exact Core.taken_nextPhase_get hn

end

