-- ==== Sys2Proof/Proofs/MemCells.lean ====
section
/-! PROOF. The firings of MEM cells: tokens delayed, lines read and written (R55, R56, R57, R548). O4. -/

namespace Sys2Proof.Machine

theorem runsDev_iff {i : Instr} {s : State} {r : Mem × Core} {P : Mem → Core → Prop}
    (h : exec i s = .next { s with mem := r.1, core := r.2 }) : Stated.RunsDev i s P ↔ P r.1 r.2 := by
  constructor
  · rintro ⟨m, c, hc, hP⟩
    have hs := Host.Outcome.next.inj (h.symm.trans hc)
    obtain rfl : r.1 = m := congrArg State.mem hs
    obtain rfl : r.2 = c := congrArg State.core hs
    exact hP
  · exact fun hP => ⟨r.1, r.2, h, hP⟩

/-! ### What freezes a counter -/

theorem Core.anchor_congr {c d : Core} (hr : d.rgns = c.rgns) (h : ∀ b, b % 0x1000 = 0x80 → d.rd b = c.rd b) (g : Nat) :
    d.anchor g = c.anchor g := by
  have hfield (m : Nat) : d.rgnField m = c.rgnField m := by
    unfold Core.rgnField Core.getF
    rw [h _ (by unfold pMdw; omega)]
  have hmeadows : d.meadows = c.meadows := by
    unfold Core.meadows Core.plains Core.getF
    rw [h _ (by decide)]
  unfold Core.anchor
  simp only [Core.rgn_congr hr, hfield, hmeadows]

theorem freezePage_mod (c : Core) (a : Nat) : c.freezePage a % 0x1000 = 0 := by
  unfold Core.freezePage pageOf pCtl pComp pMdw
  split
  · rfl
  split
  · rfl
  split <;> omega

/-- Whether a counter is frozen is read from the pages' control registers, MDW_REGION of the meadows, the part and the regions. -/
theorem Core.frozenAt_congr {c d : Core} (hr : d.rgns = c.rgns) (h : ∀ b, b % 0x1000 = 0x18 ∨ b % 0x1000 = 0x80 → d.rd b = c.rd b)
    (a : Nat) : d.frozenAt a = c.frozenAt a := by
  have hpage : d.freezePage a = c.freezePage a := by
    unfold Core.freezePage
    rw [Core.anchor_congr hr fun b hb => h b (.inr hb)]
  unfold Core.frozenAt Core.getB Core.getF
  rw [hpage, h _ (.inl (by have := freezePage_mod c a; omega))]

/-- A cell that takes its tokens freezes no counter and lets none go. -/
theorem Core.taken_frozenAt {c : Core} {cell : Nat} {ports : List Nat} (hn : ports.Nodup) (set : Bool) (a : Nat) :
    (c.taken cell ports set).frozenAt a = c.frozenAt a := by
  obtain ⟨-, -, -, -, hr, -, -, -, hrd⟩ := Core.taken_spec c cell ports set hn
  exact Core.frozenAt_congr hr (fun b hb => hrd b (by unfold LogTouches pMdw; omega)) a

/-! ### A line that one port writes unless the other has -/

theorem length_toLe (n v : Nat) : (toLe n v).length = n := by
  induction n generalizing v with
  | zero => rfl
  | succ n ih => exact congrArg (· + 1) (ih _)

/-- The host's data stays (R56); else the line takes the payload, and no other byte changes. -/
theorem Mem.storeLine_unless (m : Mem) (ad : Nat) (p : Payload) (coll : Bool) :
    let m' := if coll then m else m.store ad (ofPayload p)
    (coll = false → m'.read ad 64 = ofPayload p) ∧ (coll = true → m' = m) ∧
    ∀ b, b < ad ∨ ad + 64 ≤ b → m'.byte b = m.byte b := by
  have hlen : (ofPayload p).length = 64 := length_toLe 64 _
  cases coll
  case true => exact ⟨nofun, fun _ => rfl, fun _ _ => rfl⟩
  case false =>
    refine ⟨fun _ => ?_, nofun, fun b hb => Mem.byte_store_out m ad b _ (by omega)⟩
    have hread := Mem.read_store m ad (ofPayload p)
    rwa [hlen] at hread

/-- COLLISIONS counts in a meadow's page, away from MDW_REGION. -/
theorem FiringKept.bumpCollisions {c : Core} {cell : Nat} : FiringKept cell c (c.bump (pMdw (cellMeadow cell) + 0xE0)) := .bump (by omega)

theorem fly_of_fired_nil {c d : Core} {cell lat : Nat} {x : Ctx} {ports : List Nat} {ts : List Token} {poison : Bool}
    (h : Stated.Fired c d cell x ports lat ts poison []) : d.fab.fly = c.fab.fly :=
  h.1.trans (List.append_nil _)

/-! ### DELAY -/

section
variable {c : Core} {m : Mem} {cell a : Nat} {x : Ctx} {k : MemCtx} {ts : List Token}

/-- The work of a DELAY: the token goes into its line, and a collision counts. -/
def delayWork (m : Mem) (cell due ad : Nat) (coll : Bool) (x : Ctx) (t : Token) (c : Core) : Core × Bool × List (Nat × Nat) :=
  let c := c.delayPut m cell due ad x t
  (if coll then c.bump (pMdw (cellMeadow cell) + 0xE0) else c, false, [])

theorem FiringKept.delayWork {due ad : Nat} {coll : Bool} {t : Token} : FiringKept cell c (delayWork m cell due ad coll x t c).1 :=
  have hput : FiringKept cell c (c.delayPut m cell due ad x t) := ⟨⟨rfl, rfl, rfl⟩, rfl, rfl, rfl, rfl⟩
  hput.trans FiringKept.bumpCollisions.stepIf

theorem delayWork_delays {due ad : Nat} {coll : Bool} {t : Token} : (Machine.delayWork m cell due ad coll x t c).1.fab.delays =
    c.fab.delays ++ [⟨t, c.cellRgn cell, cell, x, due, ad⟩] := by
  unfold Machine.delayWork
  dsimp only
  split
  · rw [Core.bump_fab]
    rfl
  · rfl

/-- DELAY inside its range: the firing and what the line holds then. -/
theorem Core.delayFire_ready (h : c.memReady cell .delay = some (x, k, ts)) (he : c.early cell x 0 (joinTok ts) = false)
    (ha : delayLine k (((c.heldAt cell 0).head?.map (·.arr)).getD 0) = some a) :
    let t := joinTok ts
    let arr := ((c.heldAt cell 0).head?.map (·.arr)).getD 0
    let ad := aCell cell + a
    let coll := c.fab.wrB.any fun e => e.1 = ad
    c.delayFire m cell = (if coll then m else m.store ad (ofPayload t.payload), c.fire cell x [0] 0 ts
      (Machine.delayWork m cell (arr + k.dly) ad coll x { t with poison := t.poison || c.ctxPoison cell t.set })) := by
  dsimp only
  unfold Core.delayFire
  rw [h]
  dsimp only
  rw [ha]
  dsimp only
  rw [if_neg (by simp [he])]
  rfl

/-! ### READ -/

/-- The work of a READ: the counter steps, an uncorrectable word is logged, the line goes out. -/
def readWork (m : Mem) (cell a : Nat) (bad : Bool) (k : MemCtx) (set : Bool) (c : Core) : Core × Bool × List (Nat × Nat) :=
  let c := c.memStep cell k set
  (if bad then c.ueLog cell (a / 64) else c, bad, [(0, (c.memLine m (aCell cell + a)).toNat)])

/-- The counter of a MEM context steps in a table of its own. -/
theorem FiringKept.memStep {set : Bool} : FiringKept cell c (c.memStep cell k set) := by
  unfold Core.memStep
  split
  · exact .refl
  · exact ⟨⟨rfl, rfl, rfl⟩, rfl, rfl, rfl, rfl⟩

theorem FiringKept.readWork {bad set : Bool} : FiringKept cell c (readWork m cell a bad k set c).1 :=
  FiringKept.memStep.trans FiringKept.ueLog.stepIf

/-- Nor does it change the lines that the ports wrote in this cycle. -/
theorem Core.memLine_memStep {set : Bool} (ad : Nat) : (c.memStep cell k set).memLine m ad = c.memLine m ad := by
  unfold Core.memStep
  split <;> rfl

theorem Core.memLine_taken {ports : List Nat} (hn : ports.Nodup) (set : Bool) (ad : Nat) :
    (c.taken cell ports set).memLine m ad = c.memLine m ad := by
  obtain ⟨-, -, -, hfab, -⟩ := Core.taken_spec c cell ports set hn
  unfold Core.memLine
  rw [hfab]

theorem Core.readFire_ready (h : c.memReady cell .read = some (x, k, ts))
    (ha : c.memAddr cell k (joinTok ts).set (joinTok ts).payload.toNat = some a)
    (hd : c.debugOn (c.cellRgn cell) (joinTok ts).set = false) :
    c.readFire m cell =
      c.fire cell x [0] 3 ts (Machine.readWork m cell a (m.poisonIn (aCell cell + a) 64) k (joinTok ts).set) := by
  unfold Core.readFire
  rw [h]
  dsimp only
  rw [ha]
  dsimp only
  rw [if_neg (by simp [hd])]
  rfl

/-! ### WRITE -/

theorem memPorts_nodup (k : MemCtx) : (memPorts k).Nodup := by
  unfold memPorts
  split <;> decide

/-- The work of a WRITE: the counter steps, the line is noted as written, a collision counts. -/
def writeWork (m : Mem) (cell a : Nat) (coll : Bool) (k : MemCtx) (set : Bool) (c : Core) : Core × Bool × List (Nat × Nat) :=
  let c := c.memStep cell k set
  let c := { c with fab := { c.fab with wrA := (aCell cell + a, m.line (aCell cell + a)) :: c.fab.wrA,
                                        written := insertNat (cell * 2048 + a / 64) c.fab.written } }
  (if coll then c.bump (pMdw (cellMeadow cell) + 0xE0) else c, false, [])

theorem FiringKept.writeWork {coll set : Bool} : FiringKept cell c (writeWork m cell a coll k set c).1 := by
  unfold Machine.writeWork
  extract_lets d f e
  have he : FiringKept cell d e := ⟨⟨rfl, rfl, rfl⟩, rfl, rfl, rfl, rfl⟩
  exact (FiringKept.memStep.trans he).trans FiringKept.bumpCollisions.stepIf

theorem Core.writeFire_ready (h : c.memReady cell .write = some (x, k, ts)) (he : c.early cell x 0 (joinTok ts) = false)
    (ha : c.memAddr cell k (joinTok ts).set ((ts.getD 1 (joinTok ts)).payload.toNat) = some a) :
    let coll := c.fab.wrB.any fun e => e.1 = aCell cell + a
    c.writeFire m cell = (if coll then m else m.store (aCell cell + a) (ofPayload (ts.headD (joinTok ts)).payload),
      c.fire cell x (memPorts k) 1 ts (Machine.writeWork m cell a coll k (joinTok ts).set)) := by
  dsimp only
  unfold Core.writeFire
  rw [h]
  dsimp only
  rw [ha]
  dsimp only
  rw [if_neg (by simp [he])]
  rfl

theorem Core.memStep_regs {set : Bool} : (c.memStep cell k set).regs = c.regs ∧ (c.memStep cell k set).rgns = c.rgns := by
  unfold Core.memStep
  split <;> exact ⟨rfl, rfl⟩

/-- A WRITE that collides counts in COLLISIONS of its meadow (R56). -/
theorem rd_writeWork_collisions {set : Bool} (hf : c.frozenAt (pMdw (cellMeadow cell) + 0xE0) = false) :
    (Machine.writeWork m cell a true k set c).1.rd (pMdw (cellMeadow cell) + 0xE0) =
      (c.rd (pMdw (cellMeadow cell) + 0xE0) + 1) % 2 ^ 48 := by
  unfold Machine.writeWork
  extract_lets d f e
  obtain ⟨hregs, hrgns⟩ : e.regs = c.regs ∧ e.rgns = c.rgns := Core.memStep_regs (cell := cell) (k := k) (set := set)
  have hrd (b : Nat) : e.rd b = c.rd b := Core.rd_congr hregs b
  dsimp only
  rw [if_pos rfl, Core.rd_bump_self e _ ((Core.frozenAt_congr hrgns (fun b _ => hrd b) _).trans hf), hrd]

end

end Sys2Proof.Machine

open Sys2Proof Sys2Proof.Machine Sys2Proof.Stated

/-- DELAY and READ, each by the firing of its work. -/
theorem memReadsFire : Stated.MemReadsFire := by
  constructor
  case left =>
    intro s cell x k ts a hready hearly t arr ad coll hline
    refine (runsDev_iff (r := s.core.delayFire s.mem cell) rfl).mpr ?_
    have hn : ([0] : List Nat).Nodup := by decide
    obtain ⟨-, -, -, hfab, -⟩ := Core.taken_spec s.core cell [0] t.set hn
    have hdelays : (s.core.taken cell [0] t.set).fab.delays = s.core.fab.delays := by rw [hfab]
    obtain ⟨hread, hhost, hframe⟩ := s.mem.storeLine_unless ad t.payload coll
    rw [Core.delayFire_ready hready hearly hline]
    have hfired := fired_of_work (lat := 0) hearly hn rfl (FiringKept.delayWork (m := s.mem) (due := arr + k.dly) (ad := ad) (coll := coll)
      (x := x) (t := { t with poison := t.poison || s.core.ctxPoison cell t.set }))
    have ⟨_, hports, _, hmark⟩ := hfired
    refine ⟨?_, fly_of_fired_nil hfired, hports 0 (by decide), hmark, hread, hhost, hframe⟩
    rw [Core.fire_eq _ _ _ _ _ _ _ hearly]
    refine delayWork_delays.trans ?_
    rw [hdelays, Core.taken_cellRgn _ _ _ _ hn]
  case right =>
    intro s cell x k ts a hready hearly haddr hdebug
    have hn : ([0] : List Nat).Nodup := by decide
    refine (runs_iff (d := s.core.readFire s.mem cell) rfl).mpr ?_
    rw [Core.readFire_ready hready haddr hdebug]
    refine fired_of_work hearly hn ?_ .readWork
    unfold readWork
    dsimp only
    rw [Core.memLine_memStep, Core.memLine_taken hn]

theorem memWriteStores : Stated.MemWriteStores := by
  intro s cell x k ts a hready hearly haddr coll
  have hn := memPorts_nodup k
  refine (runsDev_iff (r := s.core.writeFire s.mem cell) rfl).mpr ?_
  obtain ⟨hread, hhost, hframe⟩ := s.mem.storeLine_unless (aCell cell + a) (ts.headD (joinTok ts)).payload coll
  rw [Core.writeFire_ready hready hearly haddr]
  have hfired := fired_of_work (lat := 1) hearly hn rfl
    (FiringKept.writeWork (m := s.mem) (a := a) (coll := coll) (k := k) (set := (joinTok ts).set))
  have ⟨_, _, _, hmark⟩ := hfired
  refine ⟨hread, fun hcoll => ⟨hhost hcoll, fun hf => ?_⟩, hframe, hmark, fly_of_fired_nil hfired⟩
  obtain ⟨-, -, -, -, -, -, -, -, hrd⟩ := Core.taken_spec s.core cell (memPorts k) (joinTok ts).set hn
  rw [Core.fire_eq _ _ _ _ _ _ _ hearly]
  refine (Core.rd_congr (Core.place_regs ..) _).trans ?_
  rw [show (s.core.fab.wrB.any fun e => e.1 = aCell cell + a) = true from hcoll,
    rd_writeWork_collisions ((Core.taken_frozenAt hn _ _).trans hf), hrd _ (by unfold LogTouches pMdw; omega)]

/-- Settles O4: the firings of DELAY, READ and WRITE, and the line that each stores or sends. -/
theorem memCellsFire : Obligations.MemCellsFire := ⟨memReadsFire, memWriteStores⟩

end

