-- ==== Sys2Proof/Proofs/StrCells.lean ====
section
/-! PROOF. The firings of STR cells: the match that is complete leaves its ports, and its outputs go on their routes (R58, R59, R65,
R343). O5. -/

namespace Sys2Proof.Machine

/-! ### Ports -/

section
variable {cell : Nat}

/-- Changing the waiting tokens of some ports, each by `f`, changes no others and nothing else. -/
theorem Core.heldFold (f : List Held → List Held) (ports : List Nat) (hn : ports.Nodup) (c : Core) :
    let d := ports.foldl (fun c p => c.setHeld cell p (f (c.heldAt cell p))) c
    (∀ p ∈ ports, d.heldAt cell p = f (c.heldAt cell p)) ∧
    (∀ q, q ∉ ports.map (cell * 4 + ·) → Store.get d.fab.held [] q = Store.get c.fab.held [] q) ∧
    d = { c with fab := { c.fab with held := d.fab.held } } := by
  induction ports generalizing c with
  | nil => exact ⟨by simp, by simp, rfl⟩
  | cons p ps ih =>
    obtain ⟨hp, hps⟩ := List.nodup_cons.mp hn
    obtain ⟨hself, hother, hrest⟩ := ih hps (c.setHeld cell p (f (c.heldAt cell p)))
    refine ⟨fun q hq => ?_, fun q hq => ?_, hrest.trans (by rw [Core.setHeld]; rfl)⟩
    · rcases List.mem_cons.mp hq with rfl | hq
      · exact (hother _ (by simpa using hp)).trans ((Core.setHeld_get ..).trans (if_pos rfl))
      · have hne : q ≠ p := fun e => hp (e ▸ hq)
        refine (hself q hq).trans (congrArg f ?_)
        exact (Core.setHeld_get ..).trans (if_neg (by omega))
    · obtain ⟨hqp, hqps⟩ := not_or.mp (mt List.mem_cons.mpr hq)
      exact (hother q hqps).trans ((Core.setHeld_get ..).trans (if_neg hqp))

theorem strPorts_nodup (k : StrCtx) : (strPorts k).Nodup := List.Nodup.filter _ (by decide)

theorem strNeed_nodup (k : StrCtx) (grp : Nat) : (strNeed k grp).Nodup := by
  unfold strNeed
  split
  · exact (strPorts_nodup k).filter _
  · split
    · exact strPorts_nodup k
    · exact List.nodup_nil

/-- The core after a group has taken a match from its ports and met its context. -/
def Core.matched (c : Core) (cell grp : Nat) (need : List Nat) (tag : Tag) (set : Bool) : Core :=
  ((need.foldl (fun c p => c.setHeld cell p (dropOne tag set (c.heldAt cell p))) c).markFired cell grp).readCtx cell set

variable {c : Core} {grp : Nat} {need : List Nat} {tag : Tag} {set : Bool}

/-- What `matched` changes: the tokens of the match, the mark, and the log of the meadow's page. -/
theorem Core.matched_spec (hn : need.Nodup) :
    let d := c.matched cell grp need tag set
    (∀ p ∈ need, d.heldAt cell p = dropOne tag set (c.heldAt cell p)) ∧
    (∀ q, q ∉ need.map (cell * 4 + ·) → Store.get d.fab.held [] q = Store.get c.fab.held [] q) ∧
    d.hasFired cell grp = true ∧ d.fab.fly = c.fab.fly ∧ SameRoute c d cell ∧
    ∀ b, ¬ LogTouches (pMdw (cellMeadow cell)) b → d.rd b = c.rd b := by
  obtain ⟨hself, hother, hrest⟩ := Core.heldFold (cell := cell) (dropOne tag set) need hn c
  unfold Core.matched
  generalize need.foldl (fun c p => c.setHeld cell p (dropOne tag set (c.heldAt cell p))) c = d at hself hother hrest ⊢
  obtain ⟨hfab, hrgns, hclk, htask, -, hrd⟩ := Core.readCtx_spec (d.markFired cell grp) cell set
  have hd : d.fab.fly = c.fab.fly ∧ d.fab.owners = c.fab.owners ∧ d.rgns = c.rgns ∧ d.task = c.task ∧ d.regs = c.regs := by
    rw [hrest]
    exact ⟨rfl, rfl, rfl, rfl, rfl⟩
  obtain ⟨dfly, downers, drgns, dtask, dregs⟩ := hd
  have hrd' (b : Nat) (hb : ¬ LogTouches (pMdw (cellMeadow cell)) b) :
      ((d.markFired cell grp).readCtx cell set).rd b = c.rd b := (hrd b hb).trans (Core.rd_congr dregs b)
  refine ⟨fun p hp => ?_, fun q hq => ?_, ?_, ?_, ⟨hrgns.trans drgns, ?_, ?_⟩, hrd'⟩
  · rw [Core.heldAt_eq, hfab]
    exact hself p hp
  · rw [hfab]
    exact hother q hq
  · rw [Core.hasFired_congr (by rw [hfab]) hclk]
    exact Core.hasFired_markFired d cell grp
  · rw [hfab]
    exact dfly
  · refine Core.cellRgn_congr ?_ (htask.trans dtask)
    unfold Core.rgnField Core.getF
    rw [hrd' _ (not_logTouches_region _ _)]
  · rw [hfab]
    exact downers

end

/-! ### Digests -/

section
variable {c : Core} {cell m b : Nat} {r : List Byte} {k : StrCtx} {t : Token}

/-- A digest record changes its meadow's FIFO, or the count of lost records in its page. -/
theorem FiringKept.digPush : FiringKept cell c (c.digPush m r) := by
  unfold Core.digPush
  extract_lets f n old f' fab d
  have hd : FiringKept cell c d := ⟨⟨rfl, rfl, rfl⟩, rfl, rfl, rfl, rfl⟩
  exact hd.trans (FiringKept.bump (by unfold pMdw; omega)).stepIf

theorem Core.rd_digPush (hb : b ≠ pMdw m + 0x198) : (c.digPush m r).rd b = c.rd b := by
  unfold Core.digPush
  extract_lets f n old f' fab d
  split
  · exact Core.rd_bump_ne d hb
  · rfl

theorem FiringKept.digFold : FiringKept cell c (c.digFold cell k t) := by
  unfold Core.digFold
  extract_lets key w w' put
  have hput (w : DigWin) : FiringKept cell c (put c w) := ⟨⟨rfl, rfl, rfl⟩, rfl, rfl, rfl, rfl⟩
  split
  · exact (hput _).trans .digPush
  · exact hput _

theorem Core.rd_digFold (hb : b ≠ pMdw (cellMeadow cell) + 0x198) : (c.digFold cell k t).rd b = c.rd b := by
  unfold Core.digFold
  extract_lets key w w' put
  have hput (w : DigWin) : (put c w).rd b = c.rd b := rfl
  split
  · exact (Core.rd_digPush hb).trans (hput _)
  · exact hput _

end

/-! ### A group in time -/

section
variable {c : Core} {cell grp : Nat} {x : Ctx} {k : StrCtx} {need : List Nat} {tag : Tag} {set : Bool}

/-- The ports that a group's firing takes from: MERGE its lowest that holds the match, any other all that the group requires. -/
def Core.strTakes (c : Core) (cell grp : Nat) (k : StrCtx) (tag : Tag) (set : Bool) : List Nat :=
  if k.op = .merge then ((strPorts k).filter fun p => (c.strTok cell p tag set).isSome).take 1 else strNeed k grp

theorem Core.strTakes_nodup : (c.strTakes cell grp k tag set).Nodup := by
  unfold Core.strTakes
  split
  · exact (((strPorts_nodup k).filter _).take)
  · exact strNeed_nodup k grp

/-- The tokens of a match by port. -/
def Core.strGot (c : Core) (cell : Nat) (need : List Nat) (tag : Tag) (set : Bool) : List (Nat × Option Token) :=
  need.map fun p => (p, (c.strTok cell p tag set).map (·.tok))

/-- The core when the outputs go on their routes: the match is taken, and DIGEST has folded it. -/
def Core.strDone (c : Core) (cell grp : Nat) (k : StrCtx) (need : List Nat) (tag : Tag) (set : Bool) (t : Token) : Core :=
  let d := c.matched cell grp need tag set
  if k.op = .digest then d.digFold cell k t else d

/-- A token that stands for one that is missing (R67). -/
def missingTok (tag : Tag) (set : Bool) : Token := { payload := 0, tag := tag, set := set, poison := true, late := false, adm := 0 }

/-- A firing that is not early: take, fold, place. -/
theorem Core.strFire_inTime {got : List (Nat × Option Token)} (hneed : c.strTakes cell grp k tag set = need)
    (hgot : c.strGot cell need tag set = got) (he : c.early cell x (2 * grp) (joinTok (got.filterMap (·.2))) = false) :
    let base := joinTok (got.filterMap (·.2))
    let toks := got.map fun t => (t.1, t.2.getD (missingTok tag set))
    let out := { base with
      tag := strTag k tag, set := set, poison := base.poison || (got.any fun t => t.2.isNone) || c.ctxPoison cell set }
    c.strFire cell grp x k tag set =
      (c.strDone cell grp k need tag set { out with payload := (toks.head?.map (·.2.payload)).getD 0 }).place cell x 2 out
        (strWork k grp toks) := by
  subst hneed hgot
  exact if_neg (by rw [← Bool.not_eq_true] at he; exact he)

variable {t : Token}

/-- What stands when the outputs go on their routes. -/
theorem Core.strDone_spec (hn : need.Nodup) :
    let d := c.strDone cell grp k need tag set t
    (∀ p ∈ need, d.heldAt cell p = dropOne tag set (c.heldAt cell p)) ∧
    (∀ q, q ∉ need.map (cell * 4 + ·) → Store.get d.fab.held [] q = Store.get c.fab.held [] q) ∧
    d.hasFired cell grp = true ∧ d.fab.fly = c.fab.fly ∧ SameRoute c d cell := by
  obtain ⟨hself, hother, hmark, hfly, ⟨hrgns, hrgn, howners⟩, -⟩ :=
    Core.matched_spec (c := c) (cell := cell) (grp := grp) (tag := tag) (set := set) hn
  have hk : FiringKept cell (c.matched cell grp need tag set) (c.strDone cell grp k need tag set t) := FiringKept.digFold.stepIf
  obtain ⟨kr, kg, ko⟩ := hk.route
  refine ⟨fun p hp => ?_, fun q hq => ?_, ?_, hk.fly.trans hfly, kr.trans hrgns, kg.trans hrgn, ko.trans howners⟩
  · rw [Core.heldAt_eq, hk.held]
    exact hself p hp
  · rw [hk.held]
    exact hother q hq
  · rw [Core.hasFired_congr hk.fired hk.clk]
    exact hmark

/-- The complete match of a group fires: its tokens leave their ports, and the outputs go on their routes 2 fc on (R58, R65). -/
theorem strFire_complete {toks : List (Nat × Token)} (hneed : c.strTakes cell grp k tag set = need)
    (hgot : c.strGot cell need tag set = toks.map fun t => (t.1, some t.2))
    (he : c.early cell x (2 * grp) (joinTok (toks.map (·.2))) = false) :
    let d := c.strFire cell grp x k tag set
    d.fab.fly = (c.place cell x 2
      { joinTok (toks.map (·.2)) with
        tag := strTag k tag, set := set, poison := (joinTok (toks.map (·.2))).poison || c.ctxPoison cell set }
      (strWork k grp toks)).fab.fly ∧
    (∀ p ∈ need, d.heldAt cell p = dropOne tag set (c.heldAt cell p)) ∧
    (∀ q, q ∉ need.map (cell * 4 + ·) → Store.get d.fab.held [] q = Store.get c.fab.held [] q) ∧
    d.hasFired cell grp = true := by
  have htoks : (toks.map fun t => (t.1, some t.2)).filterMap (·.2) = toks.map (·.2) := by simp [List.filterMap_map]
  have hall : (toks.map fun t => (t.1, some t.2)).any (fun t => t.2.isNone) = false := by simp
  have hout : (toks.map fun t => (t.1, some t.2)).map (fun t => (t.1, t.2.getD (missingTok tag set))) = toks := by
    simp [Function.comp_def]
  have hfire := Core.strFire_inTime hneed hgot (by rw [htoks]; exact he)
  rw [htoks, hall, hout] at hfire
  have hn : need.Nodup := hneed ▸ Core.strTakes_nodup
  dsimp only at hfire ⊢
  rw [Bool.or_false] at hfire
  rw [hfire]
  obtain ⟨hself, hother, hmark, hfly, hroute⟩ :=
    Core.strDone_spec (c := c) (cell := cell) (grp := grp) (k := k) (tag := tag) (set := set) hn
  exact ⟨Core.place_fly_congr hroute hfly _ _ _ _, hself, hother, hmark⟩

end

/-! ### The commands -/

/-- A command whose meaning is the step of an operation other than MERGE fires the complete match that came first. -/
theorem strRuns_of_exec {i : Nat → Instr} {op : StrOp} {grp : Nat} (hop : op ≠ .merge)
    (hi : ∀ cell s, exec (i cell) s = coreStep (fun _ c => c.strStep cell grp op) s) : Stated.StrRuns i op grp := by
  intro s cell x k tag set toks hkind hready hctx hk hgot hearly
  have hstep : s.core.strStep cell grp op = s.core.strFire cell grp x k tag set := by
    unfold Core.strStep
    rw [if_neg (not_not.mpr hkind), if_neg hop, hready]
    dsimp only
    rw [hctx]
  refine (runs_iff (hi cell s)).mpr ?_
  beta_reduce
  rw [hstep]
  exact strFire_complete (if_neg (hk ▸ hop)) hgot hearly

theorem joinTok_singleton (t : Token) : joinTok [t] = t := by
  simp [joinTok]

theorem dropOne_head (h : Held) (rest : List Held) : dropOne h.tok.tag h.tok.set (h :: rest) = rest := if_pos ⟨rfl, rfl⟩

/-- MERGE fires the oldest token of its lowest-numbered port that holds one (R58). -/
theorem merge_fires {s : State} {cell p : Nat} {x : Ctx} {k : StrCtx} {h : Held} {rest : List Held} (hkind : kindOf cell = .str)
    (hready : s.core.mergeReady cell = some (h.tok.tag, h.tok.set)) (hctx : s.core.strCtx cell h.tok.set = some (x, k))
    (hk : k.op = .merge)
    (hport : ((strPorts k).filter fun q => (s.core.strTok cell q h.tok.tag h.tok.set).isSome).take 1 = [p])
    (hheld : s.core.heldAt cell p = h :: rest) (hearly : s.core.early cell x 0 h.tok = false) :
    Stated.Runs (.merge cell) s fun c =>
      c.fab.fly = (s.core.place cell x 2 { h.tok with poison := h.tok.poison || s.core.ctxPoison cell h.tok.set }
        [(0, h.tok.payload.toNat)]).fab.fly ∧
      c.heldAt cell p = rest ∧ c.hasFired cell 0 = true := by
  have hstep : s.core.strStep cell 0 .merge = s.core.strFire cell 0 x k h.tok.tag h.tok.set := by
    unfold Core.strStep
    rw [if_neg (not_not.mpr hkind), if_pos rfl, hready]
    dsimp only
    rw [hctx]
  have hgot : s.core.strGot cell [p] h.tok.tag h.tok.set = [(p, h.tok)].map fun t => (t.1, some t.2) := by
    simp [Core.strGot, Core.strTok, hheld]
  have htag : strTag k h.tok.tag = h.tok.tag := if_neg (by simp [hk])
  have hwork : strWork k 0 [(p, h.tok)] = [(0, h.tok.payload.toNat)] := by simp [strWork, hk]
  have hjoin : joinTok ([(p, h.tok)].map (·.2)) = h.tok := joinTok_singleton h.tok
  have hfire := strFire_complete (grp := 0) ((if_pos hk).trans hport) hgot (hjoin.symm ▸ hearly)
  rw [hjoin, htag, hwork] at hfire
  obtain ⟨hfly, hself, -, hmark⟩ := hfire
  refine (runs_iff (d := s.core.strStep cell 0 .merge) rfl).mpr ?_
  rw [hstep]
  refine ⟨hfly, (hself p (by simp)).trans ?_, hmark⟩
  rw [hheld, dropOne_head]

end Sys2Proof.Machine

open Sys2Proof Sys2Proof.Machine Sys2Proof.Stated

/-- Settles O5: the operations that need a complete match by the step they share, MERGE by the one token that it takes. -/
theorem strFires : Obligations.StrFires := by
  have runs {i op grp} (hop : op ≠ .merge) := @strRuns_of_exec i op grp hop
  exact ⟨runs nofun fun _ _ => rfl, runs nofun fun _ _ => rfl, runs nofun fun _ _ => rfl, fun _ => runs nofun fun _ _ => rfl,
    fun _ => runs nofun fun _ _ => rfl, runs nofun fun _ _ => rfl, runs nofun fun _ _ => rfl,
    fun _ _ _ _ _ _ _ => merge_fires⟩

end

