-- ==== Sys2Proof/Proofs/TokensAndStalls.lean ====
section
/-! PROOF. Orphans, tokens that arrive, and stalls (R46, R47, R67, R80, R82, R254, R515). O6, O7. -/

namespace Sys2Proof.Machine

/-! ### Bits of PEND stay set while errors are logged -/

theorem Core.getB_iff_testBit (c : Core) (a k : Nat) : c.getB a k = true ↔ (c.rd a).testBit k = true := by
  rw [Core.getB, Core.getF, Nat.testBit_eq_decide_div_mod_eq, pow_one]

/-- The bits of page `p`'s PEND that `c` has set, `d` has too. -/
def PendGrows (p : Nat) (c d : Core) : Prop := ∀ k, c.getB (p + 0x38) k = true → d.getB (p + 0x38) k = true

namespace PendGrows

variable {p : Nat} {c d e : Core}

theorem refl : PendGrows p c c := fun _ h => h

theorem trans (h : PendGrows p c d) (k : PendGrows p d e) : PendGrows p c e := fun j hj => k j (h j hj)

theorem of_rd (h : d.rd (p + 0x38) = c.rd (p + 0x38)) : PendGrows p c d := fun j hj => by
  rw [Core.getB_iff_testBit, h]
  exact (Core.getB_iff_testBit ..).mp hj

theorem stepIf {q : Prop} [Decidable q] (h : PendGrows p c d) : PendGrows p c (if q then d else c) := by
  split
  · exact h
  · exact refl

theorem event (k : Nat) : PendGrows p c (c.event p k) := fun j hj => by
  rw [Core.getB_iff_testBit] at hj ⊢
  have hj64 : j < 64 := (Nat.pow_lt_pow_iff_right (by decide)).mp ((Nat.ge_two_pow_of_testBit hj).trans_lt (c.rd_lt _))
  rw [Core.rd_event_self, Nat.testBit_mod_two_pow, Nat.testBit_or, hj]
  simp [hj64]

/-- Of what logging an error writes, only its event touches PEND. -/
theorem logLost (cls : Nat) : PendGrows p c (c.logLost p cls) := by
  have hset (c : Core) (lo w v : Nat) : PendGrows p c (c.setF (p + 0x50) lo w v) := of_rd (Core.rd_setF_ne c _ _ _ (by omega))
  unfold Core.logLost
  have hcount : PendGrows p c (if c.frozenAt p then c else c.setF (p + 0x50) 0 48 (c.getF (p + 0x50) 0 48 + 1)) := by
    split
    · exact refl
    · exact hset _ _ _ _
  exact ((hcount.trans (hset _ _ _ _)).trans (of_rd (Core.rd_mark ..))).trans (event 1)

theorem logPut {q cls code sub src x u hd tl : Nat} : PendGrows p c (c.logPut p q cls code sub src x u hd tl) := by
  have hwr (c : Core) (a v : Nat) (ha : p + 0x38 < a) : PendGrows p c (c.wr a v) := of_rd (Core.rd_wr_ne c _ (by omega))
  unfold Core.logPut
  extract_lets first a
  exact (((((hwr c _ _ (by omega)).trans (hwr _ _ _ (by omega))).trans (hwr _ _ _ (by omega))).trans (hwr _ _ _ (by omega))).trans
    (hwr _ _ _ (by omega))).trans (event 0)

theorem logFill {i w x : Nat} : PendGrows p c (c.logFill p i w x) := by
  have hwr (c : Core) (a v : Nat) (ha : p + 0x38 < a) : PendGrows p c (c.wr a v) := of_rd (Core.rd_wr_ne c _ (by omega))
  unfold Core.logFill aLog
  exact (hwr c _ _ (by omega)).trans (hwr _ _ _ (by omega))

theorem logSink {i n : Nat} : PendGrows p c (c.logSink p i n) := by
  induction n generalizing c i with
  | zero => exact refl
  | succ n ih =>
    rw [Core.logSink]
    split
    · exact (logFill.trans logFill).trans ih
    · exact refl

theorem logErr {cls code sub src x : Nat} : PendGrows p c (c.logErr p cls code sub src x) := by
  have hnext : PendGrows p c (c.nextErr p) := of_rd rfl
  unfold Core.logErr
  extract_lets head tail used
  split
  · split
    · exact ((hnext.trans logFill).trans logSink).trans (logLost _)
    · exact hnext.trans (logLost _)
  · exact (hnext.trans logPut).trans logSink

end PendGrows

/-! ### Orphans -/

section
variable {c : Core} {cell port grp : Nat} {x : Ctx} {k : StrCtx} {h : Held} {tag : Tag} {set : Bool}

/-- An STR firing touches of the registers only its meadow's log and count of lost digest records, and keeps what is pending. -/
theorem Core.strDone_regs {need : List Nat} {t : Token} (hn : need.Nodup) :
    let d := c.strDone cell grp k need tag set t
    (∀ b, ¬ LogTouches (pMdw (cellMeadow cell)) b → b ≠ pMdw (cellMeadow cell) + 0x198 → d.rd b = c.rd b) ∧
    PendGrows (pMdw (cellMeadow cell)) c d := by
  obtain ⟨-, -, -, -, -, hrd⟩ := Core.matched_spec (c := c) (cell := cell) (grp := grp) (tag := tag) (set := set) hn
  have hfold {b : Nat} (hb : b ≠ pMdw (cellMeadow cell) + 0x198) :
      (c.strDone cell grp k need tag set t).rd b = (c.matched cell grp need tag set).rd b := by
    unfold Core.strDone
    dsimp only
    split
    · exact Core.rd_digFold hb
    · rfl
  have hmatched : PendGrows (pMdw (cellMeadow cell)) c (c.matched cell grp need tag set) := by
    obtain ⟨-, -, hrest⟩ := Core.heldFold (cell := cell) (dropOne tag set) need hn c
    unfold Core.matched
    generalize need.foldl (fun c p => c.setHeld cell p (dropOne tag set (c.heldAt cell p))) c = d at hrest ⊢
    have hd : PendGrows (pMdw (cellMeadow cell)) c (d.markFired cell grp) := .of_rd (Core.rd_congr (by rw [hrest]; rfl) _)
    exact hd.trans PendGrows.logErr.stepIf
  exact ⟨fun b hb hb' => (hfold hb').trans (hrd b hb), hmatched.trans (.of_rd (hfold (by omega)))⟩

/-- What any STR firing that is not early leaves of registers, and that its group has fired. -/
theorem strFire_regs (he : ∀ t, c.early cell x (2 * grp) t = false) :
    let d := c.strFire cell grp x k tag set
    (∀ b, ¬ LogTouches (pMdw (cellMeadow cell)) b → b ≠ pMdw (cellMeadow cell) + 0x198 → d.rd b = c.rd b) ∧
    PendGrows (pMdw (cellMeadow cell)) c d ∧ d.hasFired cell grp = true := by
  have hn : (c.strTakes cell grp k tag set).Nodup := Core.strTakes_nodup
  dsimp only
  rw [Core.strFire_inTime rfl rfl (he _)]
  obtain ⟨hrd, hpend⟩ := Core.strDone_regs (c := c) (cell := cell) (grp := grp) (k := k) (tag := tag) (set := set) hn
  obtain ⟨-, -, hmark, -⟩ := Core.strDone_spec (c := c) (cell := cell) (grp := grp) (k := k) (tag := tag) (set := set) hn
  exact ⟨hrd, hpend, hmark⟩

/-- An orphan before its firing: counted, recorded, and its event raised (R67). -/
def Core.orphanNoted (c : Core) (cell port : Nat) (h : Held) : Core :=
  ((c.bump (pMdw (cellMeadow cell) + 0xD0)).faultRecord (cellMeadow cell) cell port h.tok.tag h.tok.set 0x5 clsD 0x05).event
    (pMdw (cellMeadow cell)) 11

/-- An orphan joins its cell's orphan list, of which the oldest of 16 leaves (R67). -/
def Core.orphanListed (c : Core) (cell : Nat) (h : Held) : Core :=
  let l := Store.get c.fab.orphans [] cell
  { c with fab := { c.fab with
      orphans := Store.set c.fab.orphans [] cell ((if 16 ≤ l.length then l.drop 1 else l) ++ [(h.tok.tag, h.tok.set)]) } }

theorem Core.orphanFire_ready (hready : c.orphanReady cell port = some (x, k, grp, h)) :
    c.orphanFire cell port = ((c.orphanNoted cell port h).strFire cell grp x k h.tok.tag h.tok.set).orphanListed cell h := by
  unfold Core.orphanFire
  rw [hready]
  rfl

theorem Core.mem_orphanListed : (h.tok.tag, h.tok.set) ∈ Store.get (c.orphanListed cell h).fab.orphans [] cell := by
  unfold Core.orphanListed
  rw [Store.get_set_self]
  exact List.mem_append_right _ (List.mem_singleton_self _)

theorem Core.orphanListed_rd (b : Nat) : (c.orphanListed cell h).rd b = c.rd b := rfl

theorem Core.orphanListed_hasFired : (c.orphanListed cell h).hasFired cell grp = c.hasFired cell grp := rfl

theorem Core.rd_orphanNoted {b : Nat} (hlog : ¬ LogTouches (pMdw (cellMeadow cell)) b) (hfault : b ≠ pMdw (cellMeadow cell) + 0xB0) :
    (c.orphanNoted cell port h).rd b = (c.bump (pMdw (cellMeadow cell) + 0xD0)).rd b := by
  have hpend : b ≠ pMdw (cellMeadow cell) + 0x38 := fun e => hlog (.inl e)
  unfold Core.orphanNoted Core.faultRecord
  rw [Core.rd_event_ne _ _ hpend, Core.rd_logErr_ne _ _ _ _ _ _ hlog, Core.rd_mark, Core.rd_wr_ne _ _ hfault]

theorem Core.orphanNoted_rgns : (c.orphanNoted cell port h).rgns = c.rgns ∧
    (c.orphanNoted cell port h).cellRgn cell = c.cellRgn cell := by
  have hrgns : (c.orphanNoted cell port h).rgns = c.rgns := by
    unfold Core.orphanNoted
    rw [Core.event_rgns, Core.faultRecord_rgns, Core.bump_rgns]
  have htask : (c.orphanNoted cell port h).task = c.task :=
    (((EgressOnly.bump ..).trans (.faultRecord ..)).trans (.event ..)).task
  refine ⟨hrgns, Core.cellRgn_congr ?_ htask⟩
  unfold Core.rgnField Core.getF
  rw [Core.rd_orphanNoted (not_logTouches_region _ _) (by omega), Core.rd_bump_ne _ (by omega)]

/-- Only a debug binary fires early (R170). -/
theorem Core.not_early {t : Token} {port : Nat} (h : c.debugOn (c.cellRgn cell) t.set = false) : c.early cell x port t = false := by
  unfold Core.early
  dsimp only
  rw [h, Bool.false_and]

end

/-! ### Arrivals -/

section
variable {c : Core} {f : Fly} {i : Nat} {p : Overdue → Bool}

/-- A token has left its route, and where it was overdue the stall no longer waits for it (R80). -/
def Core.landed (c : Core) (i : Nat) (f : Fly) : Core :=
  ({ c with fab := { c.fab with fly := c.fab.fly.eraseIdx i } } : Core).itemDone f.rgn fun o =>
    o.src = .cell f.src && o.tag = f.tok.tag && o.set = f.tok.set

theorem Core.tokenArrive_due (hi : c.fab.fly[i]? = some f) (hmay : c.mayArrive f = true) :
    c.tokenArrive i = (c.landed i f).arrive f := by
  unfold Core.tokenArrive
  rw [hi]
  dsimp only
  rw [hmay]
  rfl

/-- Of the regions, the end of an overdue item changes only the stall of its own. -/
theorem Core.itemDone_rgn (g h : Nat) : ∃ o n, (c.itemDone g p).rgn h = { c.rgn h with stall := o, stallLen := n } := by
  unfold Core.itemDone
  extract_lets r rest
  by_cases e : h = g
  · subst e
    exact ⟨_, _, Core.rgn_setRgn_self ..⟩
  · exact ⟨_, _, Core.rgn_setRgn_ne _ _ e⟩

/-- What `landed` keeps. -/
theorem Core.landed_spec :
    let d := c.landed i f
    d.fab = { c.fab with fly := c.fab.fly.eraseIdx i } ∧ d.clk = c.clk ∧ d.task = c.task ∧ d.regs = c.regs ∧
    ∀ h, ∃ o n, d.rgn h = { c.rgn h with stall := o, stallLen := n } :=
  ⟨rfl, rfl, rfl, rfl, fun h => Core.itemDone_rgn (c := { c with fab := { c.fab with fly := c.fab.fly.eraseIdx i } }) f.rgn h⟩

theorem Core.landed_heldAt (cell port : Nat) : (c.landed i f).heldAt cell port = c.heldAt cell port := rfl

theorem Core.landed_binOf (g : Nat) (set : Bool) : (c.landed i f).binOf g set = c.binOf g set := by
  obtain ⟨-, -, -, -, hrgn⟩ := Core.landed_spec (c := c) (i := i) (f := f)
  obtain ⟨o, n, hg⟩ := hrgn g
  unfold Core.binOf
  rw [hg]
  rfl

theorem Core.landed_debugOn (g : Nat) (set : Bool) : (c.landed i f).debugOn g set = c.debugOn g set := by
  unfold Core.debugOn
  rw [Core.landed_binOf]

theorem Core.landed_iter (g : Nat) (tag : Tag) (set : Bool) : ((c.landed i f).rgn g).iter tag set = (c.rgn g).iter tag set := by
  obtain ⟨-, -, -, -, hrgn⟩ := Core.landed_spec (c := c) (i := i) (f := f)
  obtain ⟨o, n, hg⟩ := hrgn g
  rw [hg]
  rfl

theorem Core.landed_sched (g : Nat) : ((c.landed i f).rgn g).sched = (c.rgn g).sched := by
  obtain ⟨-, -, -, -, hrgn⟩ := Core.landed_spec (c := c) (i := i) (f := f)
  obtain ⟨o, n, hg⟩ := hrgn g
  rw [hg]

theorem Core.landed_rgnOf (m : Nat) : (c.landed i f).rgnOf m = c.rgnOf m := rfl

/-- The owner of a ring stays, as no context, binary or meadow changes. -/
theorem Core.landed_keyOwns (cell : Nat) (it : Iter) : (c.landed i f).keyOwns cell it = c.keyOwns cell it := by
  obtain ⟨-, -, -, -, hrgn⟩ := Core.landed_spec (c := c) (i := i) (f := f)
  have hctx (set : Bool) : (c.landed i f).ctx cell set = c.ctx cell set := by
    obtain ⟨o, n, hg⟩ := hrgn (c.rgnOf (cellMeadow cell))
    unfold Core.ctx
    rw [Core.landed_rgnOf, hg]
    rfl
  have hcellRgn : (c.landed i f).cellRgn cell = c.cellRgn cell := rfl
  have hmap (g : Nat) (set : Bool) : (c.landed i f).keyMapOf g set = c.keyMapOf g set :=
    congrArg (Option.bind · fun l : Loaded => l.bin.keyMap) (Core.landed_binOf g set)
  unfold Core.keyOwns Core.keyCtx Core.atHome
  simp only [hctx, hcellRgn, hmap, Core.landed_binOf]

/-- A token at the end of its port's queue, with the schedule count and the fc of its arrival (R47). -/
theorem Core.enqueue_landed :
    let d := (c.landed i f).enqueue f
    d.fab.fly = c.fab.fly.eraseIdx i ∧
    d.heldAt f.dst f.port = c.heldAt f.dst f.port ++ [⟨f.tok, (c.rgn f.rgn).sched, c.clk.fc⟩] ∧
    ∀ k, k ≠ f.dst * 4 + f.port → Store.get d.fab.held [] k = Store.get c.fab.held [] k := by
  refine ⟨rfl, ?_, fun k hk => ?_⟩
  · refine (Core.setHeld_get ..).trans ((if_pos rfl).trans ?_)
    rw [Core.landed_heldAt, Core.landed_sched]
    rfl
  · exact (Core.setHeld_get ..).trans (if_neg hk)

/-- Only a debug binary looks for a token of the same tag and set at the port (R170). -/
theorem Core.arrive_str (hd : c.debugOn f.rgn f.tok.set = false) (hkind : kindOf f.dst = .str) : c.arrive f = c.arriveStr f := by
  unfold Core.arrive
  rw [hd, hkind]
  exact if_neg Bool.false_ne_true

theorem Core.arrive_key (hd : c.debugOn f.rgn f.tok.set = false) (hkind : kindOf f.dst = .key) : c.arrive f = c.arriveKey f := by
  unfold Core.arrive
  rw [hd, hkind]
  exact if_neg Bool.false_ne_true

theorem Core.arrive_latch (hd : c.debugOn f.rgn f.tok.set = false) (hstr : kindOf f.dst ≠ .str) (hkey : kindOf f.dst ≠ .key)
    (hroom : (c.heldAt f.dst f.port).length < portRoom f.dst) : c.arrive f = c.enqueue f := by
  unfold Core.arrive
  rw [hd]
  refine (if_neg Bool.false_ne_true).trans ?_
  cases hkind : kindOf f.dst with
  | str => exact absurd hkind hstr
  | key => exact absurd hkind hkey
  | tap | mem | mul | sfn => exact if_neg (by omega)

/-- With room at its port, a token whose cell takes it joins the queue; of the rest only the lookups of the key stage may change. -/
theorem Core.arrive_joins (hd : c.debugOn f.rgn f.tok.set = false) (hroom : (c.heldAt f.dst f.port).length < portRoom f.dst)
    (hjoins : (kindOf f.dst ≠ .str ∧ kindOf f.dst ≠ .key) ∨
      (kindOf f.dst = .str ∧ (f.tok.tag, f.tok.set) ∉ Store.get c.fab.orphans [] f.dst) ∨
      (kindOf f.dst = .key ∧ ∃ it, (c.rgn f.rgn).iter f.tok.tag f.tok.set = some it ∧ c.keyOwns f.dst it = true)) :
    ∃ key, c.arrive f = { c.enqueue f with key := key } := by
  have hfull : ¬ portRoom f.dst ≤ (c.heldAt f.dst f.port).length := by omega
  rcases hjoins with ⟨hstr, hkey⟩ | ⟨hstr, horphan⟩ | ⟨hkey, it, hit, howns⟩
  · exact ⟨c.key, Core.arrive_latch hd hstr hkey hroom⟩
  · refine ⟨c.key, (Core.arrive_str hd hstr).trans ?_⟩
    unfold Core.arriveStr
    dsimp only
    rw [if_neg (by simpa using horphan), if_neg hfull]
    rfl
  · rw [Core.arrive_key hd hkey]
    unfold Core.arriveKey
    rw [hit]
    dsimp only
    rw [howns, if_neg (by simp), if_neg hfull]
    split
    · exact ⟨_, rfl⟩
    · exact ⟨c.key, rfl⟩

/-- A KEY cell that is not the owner drops the token (R254). -/
theorem Core.arrive_drops (hd : c.debugOn f.rgn f.tok.set = false) (hkey : kindOf f.dst = .key) {it : Iter}
    (hit : (c.rgn f.rgn).iter f.tok.tag f.tok.set = some it) (howns : c.keyOwns f.dst it = false) : c.arrive f = c := by
  rw [Core.arrive_key hd hkey]
  unfold Core.arriveKey
  rw [hit]
  dsimp only
  rw [howns, if_pos (by rfl)]

end

/-! ### Stalls -/

section
variable {c : Core} {g : Nat} {items : List Overdue}

/-- A stall begins: the region holds its items, and a standing region counts it (R80, R82). -/
theorem Core.beginStall_spec :
    let d := c.beginStall g items
    (d.rgn g).stall = items ∧ (d.rgn g).stallLen = 0 ∧ (∀ h, h ≠ g → d.rgn h = c.rgn h) ∧
    (g < 8 → c.frozenAt (pRgn g + 0xA8) = false → d.rd (pRgn g + 0xA8) = (c.rd (pRgn g + 0xA8) + 1) % 2 ^ 48) := by
  unfold Core.beginStall
  extract_lets d
  have hrgns : d.rgns = c.rgns := Core.rgns_ite (Core.bump_rgns ..) rfl
  rw [Core.rgn_modRgn_self]
  refine ⟨rfl, rfl, fun h hne => ?_, fun hg hf => ?_⟩
  · rw [Core.rgn_modRgn_ne _ _ hne, Core.rgn_congr hrgns]
  · rw [Core.rd_congr (Core.modRgn_regs ..), show d = c.bump (pRgn g + 0xA8) from if_pos hg, Core.rd_bump_self _ _ hf]

end

end Sys2Proof.Machine

open Sys2Proof Sys2Proof.Machine Sys2Proof.Stated

theorem orphanCounts : Stated.OrphanCounts := by
  intro s cell port x k grp h hready hdebug
  dsimp only
  obtain ⟨hrgns, hrgn⟩ := Core.orphanNoted_rgns (c := s.core) (cell := cell) (port := port) (h := h)
  have hearly (t : Token) : (s.core.orphanNoted cell port h).early cell x (2 * grp) t = false := Core.not_early <| by
    rw [Core.debugOn_congr hrgns, hrgn]
    exact hdebug t.set
  obtain ⟨hrd, hpend, hmark⟩ := strFire_regs (k := k) (tag := h.tok.tag) (set := h.tok.set) hearly
  have hlog : ¬ LogTouches (pMdw (cellMeadow cell)) (pMdw (cellMeadow cell) + 0xD0) := by unfold LogTouches; omega
  refine (runs_iff (d := s.core.orphanFire cell port) rfl).mpr ?_
  rw [Core.orphanFire_ready hready]
  have hraised := hpend 11 (Core.getB_event_self _ _ _ (by decide))
  refine ⟨fun hf => ?_, PendGrows.of_rd (Core.orphanListed_rd _) 11 hraised, Core.mem_orphanListed,
    Core.orphanListed_hasFired.trans hmark⟩
  rw [Core.orphanListed_rd]
  calc ((s.core.orphanNoted cell port h).strFire cell grp x k h.tok.tag h.tok.set).rd (pMdw (cellMeadow cell) + 0xD0)
    _ = (s.core.orphanNoted cell port h).rd (pMdw (cellMeadow cell) + 0xD0) := hrd _ hlog (by omega)
    _ = (s.core.bump (pMdw (cellMeadow cell) + 0xD0)).rd (pMdw (cellMeadow cell) + 0xD0) := Core.rd_orphanNoted hlog (by omega)
    _ = (s.core.rd (pMdw (cellMeadow cell) + 0xD0) + 1) % 2 ^ 48 := Core.rd_bump_self _ _ hf

theorem tokenArrives : Stated.TokenArrives := by
  intro s i f hfly hmay hdebug c joins drops
  have harrive : c.tokenArrive i = (c.landed i f).arrive f := Core.tokenArrive_due hfly hmay
  have hd : (c.landed i f).debugOn f.rgn f.tok.set = false := (Core.landed_debugOn ..).trans hdebug
  refine ⟨fun hjoins hroom => (runs_iff (d := c.tokenArrive i) rfl).mpr ?_, fun hdrops => (runs_iff (d := c.tokenArrive i) rfl).mpr ?_⟩
  · obtain ⟨key, hkey⟩ := Core.arrive_joins (c := c.landed i f) hd hroom <| by
      simp only [Core.landed_iter, Core.landed_keyOwns]
      exact hjoins
    rw [harrive, hkey]
    exact Core.enqueue_landed
  · obtain ⟨hkind, it, hit, howns⟩ := hdrops
    rw [harrive, Core.arrive_drops hd hkind ((Core.landed_iter ..).trans hit) ((Core.landed_keyOwns ..).trans howns)]
    exact ⟨rfl, rfl⟩

/-- Settles O6: an orphan through its notice and its firing, an arrival through the token that has landed. -/
theorem tokensArrive : Obligations.TokensArrive := ⟨orphanCounts, tokenArrives⟩

/-- Settles O7: the beginning of a stall, and the halt of one that has reached the limit. -/
theorem stallsBeginAndHalt : Obligations.StallsBeginAndHalt := by
  refine ⟨fun s g items hlive hitems hdue => ?_, fun s g hstall hlim hlen hphase => ?_⟩
  · have hbegin : s.core.stallStart s.mem g items = s.core.beginStall g items := if_pos (by simp [hlive, hitems, hdue])
    refine (runs_iff (d := s.core.stallStart s.mem g items) rfl).mpr ?_
    rw [hbegin]
    exact Core.beginStall_spec
  · have hhalt : ∃ m cell port tag set, s.core.stallLimit g = s.core.haltRgn g m cell port tag set 0x9 :=
      ⟨_, _, _, _, _, if_neg (by simp [hstall, hlim]; omega)⟩
    obtain ⟨m, cell, port, tag, set, hhalt⟩ := hhalt
    refine (runs_iff (d := s.core.stallLimit g) rfl).mpr ?_
    rw [hhalt]
    exact Core.haltRgn_phase _ _ _ _ _ _ _ _ hphase

end

