-- ==== Sys2Proof/Proofs/TapCells.lean ====
section
/-! PROOF. The firings of TAP cells (R61). O8 fails, for a token of CAPTURE whose event lies after the tick of a STOP that has not come
into effect; its clauses on INGRESS and RESULT hold, and that on CAPTURE before the stop. -/

namespace Sys2Proof.Machine

/-! ### The core after a TAP has taken its token -/

section
variable {c : Core} {cell : Nat} {ports : List Nat} {set : Bool}

theorem changes_taken (hn : ports.Nodup) : Changes [.fab, .regs, .cyc, .notices, .errSeq] c (c.taken cell ports set) := by
  obtain ⟨-, -, hrest⟩ := Core.heldFold (cell := cell) List.tail ports hn c
  unfold Core.taken
  generalize ports.foldl (fun c p => c.setHeld cell p ((c.heldAt cell p).tail)) c = d at hrest ⊢
  have hd : Changes [.fab] c (d.markFired cell 0) := by
    rw [hrest]
    exact .put .fab
  exact hd.trans changes_ueLog.stepIf

/-- A TAP takes from its one port. -/
theorem Core.taken_port0 : ((c.setHeld cell 0 ((c.heldAt cell 0).tail)).markFired cell 0).readCtx cell set = c.taken cell [0] set := rfl

/-- No register below the meadows' pages changes. -/
theorem Core.rd_taken {a : Nat} (hn : ports.Nodup) (ha : a < 0x100000) : (c.taken cell ports set).rd a = c.rd a := by
  obtain ⟨-, -, -, -, -, -, -, -, hrd⟩ := Core.taken_spec c cell ports set hn
  exact hrd a (by unfold LogTouches pMdw; omega)

theorem Core.taken_now (hn : ports.Nodup) : (c.taken cell ports set).now = c.now :=
  Core.now_congr (changes_taken hn .clk (by decide)) fun a ha => Core.rd_taken hn (by unfold pTime at ha; omega)

/-- A write that is refused before the token is taken is refused after it, and the other way round (R421). -/
theorem Core.taken_protected (hn : ports.Nodup) (a n : Nat) : (c.taken cell ports set).protected a n = c.protected a n := by
  obtain ⟨-, -, -, -, hrgns, -, -, -, hrd⟩ := Core.taken_spec c cell ports set hn
  have hfield (m : Nat) : (c.taken cell ports set).rgnField m = c.rgnField m := by
    unfold Core.rgnField Core.getF
    rw [hrd _ (not_logTouches_region _ _)]
  have hmap : (c.taken cell ports set).keyMap = c.keyMap := by
    unfold Core.keyMap Core.keyOwner Core.keyMapOf Core.en Core.getB Core.getF
    simp only [Core.rgn_congr hrgns]
    rw [Core.rd_taken hn (by decide), Core.rd_taken hn (by decide)]
  unfold Core.protected Core.inRings
  simp only [hfield, hmap, Core.rgn_congr hrgns]

end

/-! ### INGRESS -/

section
variable {s : State} {cell : Nat} {x : Ctx} {k : TapCtx} {ts : List Token} {i : Iter}

/-- INGRESS sends its word on 1 fc later (R61). -/
theorem tapIngress_fires (hready : s.core.tapReady cell .ingress = some (x, k, ts)) (he : s.core.early cell x 0 (joinTok ts) = false) :
    Stated.Runs (.tapIngress cell) s fun c => Stated.Fired s.core c cell x [0] 1 ts false [(0, (joinTok ts).payload.toNat)] := by
  have hfire : s.core.tapIngress cell = s.core.fire cell x [0] 1 ts fun c => (c, false, [(0, (joinTok ts).payload.toNat)]) := by
    unfold Core.tapIngress
    rw [hready]
  refine (runs_iff (d := s.core.tapIngress cell) rfl).mpr ?_
  rw [hfire]
  exact fired_of_work he (by decide) rfl .refl

/-! ### CAPTURE -/

/-- What CAPTURE hands on: the token's observation (R374, R379). -/
def Core.tapObs (c : Core) (cell : Nat) (t : Token) (i : Iter) : Obs :=
  let g := c.cellRgn cell
  let late := t.late || i.late || (c.rgn g).stallFc ≠ i.relStall
  let data := toLe 2 t.tag.toNat ++ [BitVec.ofNat 8 (b2n t.set + 2 * b2n t.poison + 4 * b2n late), BitVec.ofNat 8 g] ++
    toLe 2 cell ++ toLe 10 0 ++ ofPayload t.payload
  { kind := 7, tick := i.tick, cls := srcClass i.src, idx := srcIdx i.src, ts := i.n, rank := 2, rgn := g, cell := cell, data := data,
    match_ := ofPayload t.payload, frame := 0, bad := false, final := some c.now }

theorem Core.tapObs_spec (c : Core) (t : Token) :
    let o := c.tapObs cell t i
    o.kind = 7 ∧ o.tick = i.tick ∧ o.cell = cell ∧ o.rgn = c.cellRgn cell ∧ o.match_ = ofPayload t.payload ∧
    o.final = some c.now :=
  ⟨rfl, rfl, rfl, rfl, rfl, rfl⟩

theorem Core.tapCapture_ready (hready : s.core.tapReady cell .capture = some (x, k, ts)) (he : s.core.early cell x 0 (joinTok ts) = false)
    (hg : s.core.cellRgn cell < 8) (hi : (s.core.rgn (s.core.cellRgn cell)).iter (joinTok ts).tag (joinTok ts).set = some i) :
    ∃ t, t.payload = (joinTok ts).payload ∧ s.core.tapCapture cell =
      (s.core.taken cell [0] (joinTok ts).set).observe ((s.core.taken cell [0] (joinTok ts).set).tapObs cell t i) := by
  have hn : ([0] : List Nat).Nodup := by decide
  obtain ⟨-, -, -, -, hrgns, -⟩ := Core.taken_spec s.core cell [0] (joinTok ts).set hn
  refine ⟨{ joinTok ts with poison := (joinTok ts).poison || s.core.ctxPoison cell (joinTok ts).set }, rfl, ?_⟩
  unfold Core.tapCapture Core.tapObs
  rw [hready]
  dsimp only
  simp only [Core.rgn_congr hrgns, Core.taken_cellRgn _ _ _ _ hn, he, Core.taken_port0, hi]
  rw [if_neg (by simp), if_neg (by omega)]

/-- An open channel keeps an observation that capture does not shut out. -/
theorem Core.observe_capQ {c : Core} {o : Obs} (hshut : c.cap.shut o.tick = false) (hstopped : c.cap.stopped = false)
    (hmode : c.cap.mode o.kind ≠ 0) (hsel : c.cap.selects o = true) : (c.observe o).cap.capQ = c.cap.capQ ++ [o] := by
  unfold Core.observe
  extract_lets k k1 k2
  have h1 : k1.capQ = c.cap.capQ ++ [o] := by
    unfold k1
    rw [if_pos (by simp [k, hstopped, hmode, hsel])]
  have h2 : k2.capQ = k1.capQ := by
    unfold k2
    split <;> rfl
  rw [if_neg (by simp [k, hshut])]
  exact h2.trans h1

/-- CAPTURE hands the token on, and an open channel of kind 7 keeps it, for an event before the tick of a stop (R379, R380). -/
theorem tapCapture_keeps (hready : s.core.tapReady cell .capture = some (x, k, ts)) (he : s.core.early cell x 0 (joinTok ts) = false)
    (hg : s.core.cellRgn cell < 8) (hi : (s.core.rgn (s.core.cellRgn cell)).iter (joinTok ts).tag (joinTok ts).set = some i)
    (hrun : s.core.cap.running = true) (hstopped : s.core.cap.stopped = false) (hsince : s.core.cap.since ≤ i.tick)
    (hstop : ∀ u, s.core.cap.stopTick = some u → i.tick < u)
    (hmode : s.core.cap.mode 7 ≠ 0) (hsel : bit (fld s.core.cap.image 18 1) (s.core.cellRgn cell) = true) :
    Stated.Runs (.tapCapture cell) s fun c =>
      c.heldAt cell 0 = (s.core.heldAt cell 0).tail ∧ c.hasFired cell 0 = true ∧
      ∃ o : Obs, c.cap.capQ = s.core.cap.capQ ++ [o] ∧ o.kind = 7 ∧ o.tick = i.tick ∧ o.cell = cell ∧
        o.match_ = ofPayload (joinTok ts).payload ∧ o.final = some s.core.now := by
  have hn : ([0] : List Nat).Nodup := by decide
  obtain ⟨hports, -, hmark, -, hrgns, -⟩ := Core.taken_spec s.core cell [0] (joinTok ts).set hn
  have hcap : (s.core.taken cell [0] (joinTok ts).set).cap = s.core.cap := changes_taken hn .cap (by decide)
  have hopen : s.core.cap.shut i.tick = false := by
    unfold Cap.shut
    cases hu : s.core.cap.stopTick with
    | none => simp [hrun, hsince]
    | some u => simp [hrun, hsince, hstop u hu]
  refine (runs_iff (d := s.core.tapCapture cell) rfl).mpr ?_
  obtain ⟨t, ht, hcapture⟩ := Core.tapCapture_ready hready he hg hi
  rw [hcapture]
  obtain ⟨hkind, htick, hcell, hrgn, hmatch, hfinal⟩ :=
    Core.tapObs_spec (cell := cell) (i := i) (s.core.taken cell [0] (joinTok ts).set) t
  generalize (s.core.taken cell [0] (joinTok ts).set).tapObs cell t i = o at hkind htick hcell hrgn hmatch hfinal ⊢
  rw [Core.taken_cellRgn _ _ _ _ hn] at hrgn
  rw [Core.taken_now hn] at hfinal
  refine ⟨?_, ?_, o, ?_, hkind, htick, hcell, hmatch.trans (congrArg ofPayload ht), hfinal⟩
  · rw [Core.heldAt_eq, Core.observe_fab]
    exact hports 0 (by decide)
  · rw [Core.hasFired_congr (by rw [Core.observe_fab]) (Core.observe_clk ..)]
    exact hmark
  · rw [← hcap]
    refine Core.observe_capQ ?_ ?_ ?_ ?_
    · rwa [hcap, htick]
    · rwa [hcap]
    · rwa [hcap, hkind]
    · unfold Cap.selects
      rwa [if_pos (.inr hkind), hcap, hrgn]

/-! ### RESULT -/

theorem changes_measure {c : Core} {g : Nat} : Changes [.regs, .cyc, .notices] c (c.measure g i) := by
  unfold Core.measure
  extract_lets lat net a l d e
  have hd : Changes [.regs] c d := .skipIf ((changes_wr.trans changes_wr).mono rfl)
  have he : Changes [.regs] c e := (hd.trans changes_bump).mono rfl
  exact .ite (he.mono rfl) ((he.trans (changes_bump.trans changes_event)).mono rfl)

theorem changes_laneQueue {c : Core} {g : Nat} {t : Token} : Changes [.regs, .lanes] c (c.laneQueue g cell k t i) := by
  unfold Core.laneQueue
  split
  · exact .refl
  · extract_lets a q
    exact .skipIf (.ite (changes_bump.mono rfl) ((Changes.put .lanes).mono rfl))

/-- What the composer goes by in a result. -/
def Result.key (r : Result) : Nat × Nat × Tag × Bool × Token := (r.rgn, r.tap, r.tag, r.set, r.tok)

theorem Core.takeResult_spec {c : Core} {r : Result} :
    let d := c.takeResult r i
    d.fab = c.fab ∧ d.clk = c.clk ∧ d.comp.results.map Result.key = c.comp.results.map Result.key ++ [r.key] := by
  unfold Core.takeResult
  extract_lets held comp d e f
  have hcomp : e.comp = d.comp := Core.observe_comp ..
  have he : e.fab = c.fab ∧ e.clk = c.clk ∧ e.comp.results.map Result.key = c.comp.results.map Result.key ++ [r.key] :=
    ⟨Core.observe_fab .., Core.observe_clk .., by rw [hcomp]; exact List.map_append⟩
  unfold f
  split
  · split
    · rw [Core.bump_fab, Core.bump_clk, Core.bump_comp]
      exact he
    · exact he
  · exact he

/-- The core of a RESULT firing with a result for the composer. -/
theorem Core.tapResult_ready {m : Mem} (hready : s.core.tapReady cell .result = some (x, k, ts))
    (he : s.core.early cell x 0 (joinTok ts) = false) (hg : s.core.cellRgn cell < 16)
    (hi : (s.core.rgn k.region).iter (joinTok ts).tag (joinTok ts).set = some i) :
    ∃ c, Changes [.regs, .cyc, .notices] (s.core.taken cell [0] (joinTok ts).set) c ∧
      s.core.tapResult m cell = (m,
        let t := { joinTok ts with poison := (joinTok ts).poison || s.core.ctxPoison cell (joinTok ts).set }
        (c.takeResult (c.resultOf k.region cell k t i) i).laneQueue k.region cell k t i) := by
  obtain ⟨-, -, -, -, hrgns, -⟩ := Core.taken_spec s.core cell [0] (joinTok ts).set (by decide)
  unfold Core.tapResult
  rw [hready]
  dsimp only
  rw [he, Core.taken_port0, Core.rgn_congr hrgns, hi]
  dsimp only
  rw [if_neg (by simp), if_neg (by omega)]
  exact ⟨_, (changes_measure.trans (m := [.regs]) changes_bump.stepIf).mono rfl, rfl⟩

/-- RESULT hands the result of the standing region that its context names to the composer (R231). -/
theorem tapResult_composes (hready : s.core.tapReady cell .result = some (x, k, ts)) (he : s.core.early cell x 0 (joinTok ts) = false)
    (hg : s.core.cellRgn cell < 16) (hi : (s.core.rgn k.region).iter (joinTok ts).tag (joinTok ts).set = some i) :
    Stated.RunsDev (.tapResult cell) s fun m c =>
      m = s.mem ∧ c.heldAt cell 0 = (s.core.heldAt cell 0).tail ∧ c.hasFired cell 0 = true ∧
      c.comp.results.map Result.key = s.core.comp.results.map Result.key ++
        [(k.region, cell, (joinTok ts).tag, (joinTok ts).set,
          { joinTok ts with poison := (joinTok ts).poison || s.core.ctxPoison cell (joinTok ts).set })] := by
  have hn : ([0] : List Nat).Nodup := by decide
  obtain ⟨hports, -, hmark, -⟩ := Core.taken_spec s.core cell [0] (joinTok ts).set hn
  have hcomp : (s.core.taken cell [0] (joinTok ts).set).comp = s.core.comp := changes_taken hn .comp (by decide)
  obtain ⟨c, hc, hresult⟩ := Core.tapResult_ready (m := s.mem) hready he hg hi
  refine (runsDev_iff (r := s.core.tapResult s.mem cell) rfl).mpr ?_
  rw [hresult]
  dsimp only
  generalize ht : ({ joinTok ts with poison := (joinTok ts).poison || s.core.ctxPoison cell (joinTok ts).set } : Token) = t
  obtain ⟨hfab, hclk, hresults⟩ := Core.takeResult_spec (i := i) (c := c) (r := c.resultOf k.region cell k t i)
  generalize c.takeResult (c.resultOf k.region cell k t i) i = d at hfab hclk hresults ⊢
  have hq : Changes [.regs, .lanes] d (d.laneQueue k.region cell k t i) := changes_laneQueue
  have hfab' : (d.laneQueue k.region cell k t i).fab = (s.core.taken cell [0] (joinTok ts).set).fab :=
    (hq .fab (by decide)).trans (hfab.trans (hc .fab (by decide)))
  have hclk' : (d.laneQueue k.region cell k t i).clk = (s.core.taken cell [0] (joinTok ts).set).clk :=
    (hq .clk (by decide)).trans (hclk.trans (hc .clk (by decide)))
  have hcomp' : (d.laneQueue k.region cell k t i).comp = d.comp := hq .comp (by decide)
  have hccomp : c.comp = s.core.comp := (hc .comp (by decide)).trans hcomp
  refine ⟨rfl, ?_, ?_, ?_⟩
  · rw [Core.heldAt_eq, hfab']
    exact hports 0 (by decide)
  · rw [Core.hasFired_congr (by rw [hfab']) hclk']
    exact hmark
  · rw [hcomp', hresults, hccomp, ← ht]
    rfl

/-- A task's RESULT writes its token to the OUT buffer (R315), but where a write is refused, which ends the task (R421). -/
theorem tapResult_writes (hready : s.core.tapReady cell .result = some (x, k, ts)) (he : s.core.early cell x 0 (joinTok ts) = false)
    (hg : 16 ≤ s.core.cellRgn cell) :
    let e := s.core.cellRgn cell - 16
    let a := fld (Store.get s.core.task.table Task.free e).desc 56 8 + 64 * (joinTok ts).tag.toNat
    (s.core.protected a 64 = false → Stated.RunsDev (.tapResult cell) s fun m c =>
      m.read a 64 = ofPayload (joinTok ts).payload ∧ (∀ b, b < a ∨ a + 64 ≤ b → m.byte b = s.mem.byte b) ∧
      (Store.get c.task.table Task.free e).outs = (Store.get s.core.task.table Task.free e).outs + 1) ∧
    (s.core.protected a 64 = true → Stated.RunsDev (.tapResult cell) s fun m c =>
      m = s.mem ∧ (Store.get c.task.table Task.free e).finish = some 4) := by
  have hn : ([0] : List Nat).Nodup := by decide
  obtain ⟨-, -, -, -, -, -, htask, -⟩ := Core.taken_spec s.core cell [0] (joinTok ts).set hn
  obtain ⟨t, htag, hpayload, hresult⟩ : ∃ t : Token, t.tag = (joinTok ts).tag ∧ t.payload = (joinTok ts).payload ∧
      s.core.tapResult s.mem cell = (s.core.taken cell [0] (joinTok ts).set).tapTask s.mem (s.core.cellRgn cell) t := by
    refine ⟨{ joinTok ts with poison := (joinTok ts).poison || s.core.ctxPoison cell (joinTok ts).set }, rfl, rfl, ?_⟩
    unfold Core.tapResult
    rw [hready]
    dsimp only
    rw [he, Core.taken_port0, if_neg (by simp), if_pos hg]
  intro e a
  have hprotected := Core.taken_protected (c := s.core) (cell := cell) (set := (joinTok ts).set) hn a 64
  refine ⟨fun hfree => (runsDev_iff (r := s.core.tapResult s.mem cell) rfl).mpr ?_,
    fun hshut => (runsDev_iff (r := s.core.tapResult s.mem cell) rfl).mpr ?_⟩
  · rw [hresult]
    unfold Core.tapTask
    dsimp only
    rw [htask, htag, if_neg (by rw [hprotected, hfree]; exact Bool.false_ne_true)]
    obtain ⟨hread, -, hframe⟩ := s.mem.storeLine_unless a t.payload false
    refine ⟨(hread rfl).trans (congrArg ofPayload hpayload), hframe, ?_⟩
    dsimp only
    rw [Store.get_set_self]
  · rw [hresult]
    unfold Core.tapTask
    dsimp only
    rw [htask, htag, if_pos (by rw [hprotected, hshut])]
    refine ⟨rfl, ?_⟩
    dsimp only
    rw [Store.get_set_self]

end

/-! ### A stop that has not come into effect -/

/-- A token of tag 1 whose event belongs to tick 5. -/
def stopToken : Token := { payload := 0, tag := 1, set := false, poison := false, late := false, adm := 0 }

/-- Its iteration. -/
def stopIter : Iter :=
  { tag := 1, set := false, copy := 0, word := 0, src := 0, n := 0, tick := 5, relFc := 0, relSched := 0, relStall := 0, deps := [],
    fate := .pending, final := false, late := false, poison := false, slot := 0, home := .null, status := none, undone := false }

/-- The context of a CAPTURE TAP. -/
def stopCtx : Ctx :=
  { body := .tap { role := .capture, copy := 0, region := 0, templates := [], record := false, txLane := none }, routes := [], fires := [] }

/-- A configuration image with channel 7 on for region 0. -/
def stopImage : List Byte := [0, 0, 0, 0, 0, 0, 0, 0, 0, 4, 0, 0, 0, 0, 0, 0, 0, 0, 1]

/-- Region 0 runs on meadow 0, whose cell 0 holds the token; capture runs, and a STOP has set tick 5 as its first tick without capture. -/
def stopState : State :=
  let c := (Core.reset.setF (pMdw 0 + 0x80) 0 4 0).setRgn 0 { Rgn.idle with phase := .running, iters := [stopIter] }
  { State.reset with
    core := { c with
      fab := { c.fab with ctxs := [(0, stopCtx)], held := [(0, [⟨stopToken, 0, 0⟩])] }
      cap := { c.cap with running := true, stopTick := some 5, image := stopImage } } }

end Sys2Proof.Machine

open Sys2Proof Sys2Proof.Machine Sys2Proof.Stated

/-- Refutes O8: the clause on CAPTURE asks that capture has not stopped, but not that no stop is due. In `stopState` a STOP has named
tick 5, to which the token's event belongs, and capture keeps no observation of the stop tick or later (R376, R380), so that none joins
its queue. `tapIngress_fires`, `tapCapture_keeps`, `tapResult_composes` and `tapResult_writes` are the clauses that hold. -/
theorem not_tapFires : ¬ Obligations.TapFires := by
  unfold Obligations.TapFires
  rintro ⟨-, hcapture, -⟩
  have hkept := hcapture stopState 0 stopCtx _ [stopToken] stopIter rfl (by decide +kernel) (by decide +kernel) (by decide +kernel) rfl rfl
    (by decide) (by decide) (by decide +kernel)
  obtain ⟨-, -, o, hqueue, -⟩ := (runs_iff (d := stopState.core.tapCapture 0) rfl).mp hkept
  have hnone : (stopState.core.tapCapture 0).cap.capQ = [] := by decide +kernel
  exact List.append_ne_nil_of_right_ne_nil _ (List.cons_ne_nil _ _) (hqueue.symm.trans hnone)

end

