-- ==== Sys2Proof/Proofs/RegionControl.lean ====
section
/-! PROOF. MDW_RGN_CTRL and the end of a drain (R85, R86, R92, R290). O18. -/

namespace Sys2Proof.Machine

section
variable {c : Core} {g m : Nat} {a : Access}

/-- A privileged write in the page that shows a region's anchor acts on that region, bit by bit. -/
theorem Core.hRgnCtrl_priv (ha : a.view = .priv) (hm : c.anchored m = some g) (v : Nat) :
    c.hRgnCtrl a m v =
      (let c := if bit v 0 then c.drain g else c
       let c := if bit v 1 then c.resume g else c
       let c := if bit v 2 then c.haltCmd g m else c
       if bit v 3 then c.resetRgn g else c) := by
  unfold Core.hRgnCtrl
  rw [hm]
  exact if_neg (by simp [isPriv, ha])

/-- Of one bit alone it is that bit's command. -/
theorem Core.hRgnCtrl_drain (ha : a.view = .priv) (hm : c.anchored m = some g) : c.hRgnCtrl a m 1 = c.drain g := by
  rw [Core.hRgnCtrl_priv ha hm]
  simp [bit]

theorem Core.hRgnCtrl_resume (ha : a.view = .priv) (hm : c.anchored m = some g) : c.hRgnCtrl a m 2 = c.resume g := by
  rw [Core.hRgnCtrl_priv ha hm]
  simp [bit]

theorem Core.hRgnCtrl_halt (ha : a.view = .priv) (hm : c.anchored m = some g) : c.hRgnCtrl a m 4 = c.haltCmd g m := by
  rw [Core.hRgnCtrl_priv ha hm]
  simp [bit]

theorem Core.hRgnCtrl_reset (ha : a.view = .priv) (hm : c.anchored m = some g) : c.hRgnCtrl a m 8 = c.resetRgn g := by
  rw [Core.hRgnCtrl_priv ha hm]
  simp [bit]

/-- Of the regions, a pending FORD_DELAY that comes into force changes none. -/
theorem Core.applyFord_rgns : (c.applyFord g).rgns = c.rgns := changes_applyFord .rgns (by decide)

/-- A region that has become quiet: only its own replay may end (R354). -/
theorem Core.onQuiet_rgn :
    ((c.onQuiet g).rgn g).phase = (c.rgn g).phase ∧ ((c.onQuiet g).rgn g).iters = (c.rgn g).iters ∧
    ((c.onQuiet g).rgn g).sched = (c.rgn g).sched ∧ ∀ h, h ≠ g → (c.onQuiet g).rgn h = c.rgn h := by
  unfold Core.onQuiet
  extract_lets d e
  have hd (h : Nat) : d.rgn h = c.rgn h := Core.rgn_congr Core.applyFord_rgns h
  have he : (e.rgn g).phase = (c.rgn g).phase ∧ (e.rgn g).iters = (c.rgn g).iters ∧ (e.rgn g).sched = (c.rgn g).sched ∧
      ∀ h, h ≠ g → e.rgn h = c.rgn h := by
    unfold e
    rw [Core.rgn_modRgn_self, hd]
    exact ⟨rfl, rfl, rfl, fun h hne => (Core.rgn_modRgn_ne _ _ hne).trans (hd h)⟩
  split
  · rw [hd]
    exact ⟨rfl, rfl, rfl, fun h _ => hd h⟩
  · split
    · exact he
    · exact he

/-- A region that is reset is idle and empty (R92). -/
theorem Core.resetNow_rgn :
    ((c.resetNow g).rgn g).phase = .idle ∧ ((c.resetNow g).rgn g).iters = [] ∧ ((c.resetNow g).rgn g).sched = 0 := by
  unfold Core.resetNow
  extract_lets d e
  obtain ⟨hphase, hiters, hsched, -⟩ := Core.onQuiet_rgn (c := e) (g := g)
  rw [hphase, hiters, hsched]
  unfold e
  rw [Core.rgn_modRgn_self]
  exact ⟨rfl, rfl, rfl⟩

/-- RESET_RGN of a halted or drained region: at once, or, where it holds undo records, later (R92, R290). -/
theorem Core.resetRgn_now (hphase : (c.rgn g).phase = .halted ∨ (c.rgn g).phase = .drained) (hrec : c.hasRecords g = false) :
    c.resetRgn g = c.resetNow g := by
  unfold Core.resetRgn
  dsimp only
  rw [if_neg (by rcases hphase with h | h <;> simp [h]), if_neg (by simp [hrec])]

theorem Core.resetRgn_waits (hphase : (c.rgn g).phase = .halted ∨ (c.rgn g).phase = .drained) (hrec : c.hasRecords g = true) :
    c.resetRgn g = c.setRgn g { c.rgn g with resetWait := true } := by
  unfold Core.resetRgn
  dsimp only
  rw [if_neg (by rcases hphase with h | h <;> simp [h]), if_pos hrec]

/-- A change of one region's phase: that region, no other, no register. -/
theorem Core.setPhase_spec (p : Phase) :
    let d := c.modRgn g fun r => { r with phase := p }
    d.rgn g = { c.rgn g with phase := p } ∧ (∀ h, h ≠ g → d.rgn h = c.rgn h) ∧ d.regs = c.regs :=
  ⟨Core.rgn_modRgn_self .., fun _ hne => Core.rgn_modRgn_ne _ _ hne, rfl⟩

end

/-! ### The commands -/

section
variable {s : State} {a : Access} {m g : Nat} (ha : a.view = .priv) (hm : s.core.anchored m = some g)
include ha hm

theorem drain_runs {P : Core → Prop} : Stated.Runs (.drain a m) s P ↔ P (s.core.drain g) :=
  (runs_iff (d := s.core.hRgnCtrl a m 1) rfl).trans (by rw [Core.hRgnCtrl_drain ha hm])

theorem resume_runs {P : Core → Prop} : Stated.Runs (.resume a m) s P ↔ P (s.core.resume g) :=
  (runs_iff (d := s.core.hRgnCtrl a m 2) rfl).trans (by rw [Core.hRgnCtrl_resume ha hm])

theorem halt_runs {P : Core → Prop} : Stated.Runs (.halt a m) s P ↔ P (s.core.haltCmd g m) :=
  (runs_iff (d := s.core.hRgnCtrl a m 4) rfl).trans (by rw [Core.hRgnCtrl_halt ha hm])

theorem resetRgn_runs {P : Core → Prop} : Stated.Runs (.resetRgn a m) s P ↔ P (s.core.resetRgn g) :=
  (runs_iff (d := s.core.hRgnCtrl a m 8) rfl).trans (by rw [Core.hRgnCtrl_reset ha hm])

end

/-- DRAIN_COMPLETE ends a drain whose iterations and tokens are gone (R85). -/
theorem drainComplete_drains {s : State} {g : Nat} (hphase : (s.core.rgn g).phase = .draining) (hon : s.core.fabricOn = true)
    (hgone : s.core.drainedNow g = true) :
    Stated.Runs (.drainComplete g) s fun c => (c.rgn g).phase = .drained ∧ ∀ h, h ≠ g → (c.rgn h).phase = (s.core.rgn h).phase := by
  have hdone : s.core.drainComplete g = (s.core.modRgn g fun r => { r with phase := .drained }).onQuiet g := by
    unfold Core.drainComplete
    rw [if_pos ⟨hphase, hon, hgone⟩]
  refine (runs_iff (d := s.core.drainComplete g) rfl).mpr ?_
  rw [hdone]
  obtain ⟨hself, hother, -⟩ := Core.setPhase_spec (c := s.core) (g := g) .drained
  obtain ⟨hq, -, -, hqother⟩ := Core.onQuiet_rgn (c := s.core.modRgn g fun r => { r with phase := .drained }) (g := g)
  exact ⟨hq.trans (congrArg Rgn.phase hself), fun h hne => congrArg Rgn.phase ((hqother h hne).trans (hother h hne))⟩

end Sys2Proof.Machine

open Sys2Proof Sys2Proof.Machine Sys2Proof.Stated

/-- Settles O18: each bit of MDW_RGN_CTRL by its command, and the end of a drain. -/
theorem regionControl : Obligations.RegionControl := by
  refine ⟨fun s a m g ha hm => ⟨fun hphase => ?_, fun hphase hlent => ?_, fun hphase => ?_, fun hphase hrec => ?_,
    fun hphase hrec => ?_⟩, fun s g => drainComplete_drains⟩
  · rw [drain_runs ha hm, show s.core.drain g = _ from if_pos hphase]
    exact Core.setPhase_spec .draining
  · rw [resume_runs ha hm, show s.core.resume g = _ from if_pos ⟨hphase, hlent⟩]
    exact Core.setPhase_spec .running
  · rw [halt_runs ha hm]
    exact Core.haltRgn_phase _ _ _ _ _ _ _ _ hphase
  · rw [resetRgn_runs ha hm, Core.resetRgn_now hphase hrec]
    exact Core.resetNow_rgn
  · rw [resetRgn_runs ha hm, Core.resetRgn_waits hphase hrec, Core.rgn_setRgn_self]
    exact ⟨rfl, rfl⟩

end

