-- ==== Sys2Proof/Proofs/MeadowSettings.lean ====
section
/-! PROOF. Meadow settings, section switches and the reload of slots (R57, R64, R77, R87 to R90, R144, R146, R148, R458). O19. -/

namespace Sys2Proof.Machine

/-! ### MDW_REGION -/

section
variable {c : Core} {a : Access} {m k v : Nat}

theorem Core.hMeadow_moves (ha : a.view = .priv) (hm : m < c.meadows) (hv : v % 16 < 8 ∨ v % 16 = 15) (hen : c.en (pMdw m) = true)
    (hold : c.mayMove m (c.rgnField m) = true) (hnew : c.mayMove m (v % 16) = true) :
    c.hMeadow a m v = c.setF (pMdw m + 0x80) 0 4 (v % 16) := by
  unfold Core.hMeadow
  dsimp only
  rw [if_neg (by simp [isPriv, ha, hm]), if_neg]
  rw [hen, hold, hnew]
  simp only [Bool.not_true, Bool.false_eq_true, or_false]
  omega

theorem Core.hMeadow_refuses (ha : a.view = .priv) (hm : m < c.meadows) (hlo : 8 ≤ v % 16) (hhi : v % 16 ≤ 14) :
    c.hMeadow a m v = c.reject (pMdw m) 0x80 v := by
  unfold Core.hMeadow
  dsimp only
  rw [if_neg (by simp [isPriv, ha, hm]), if_pos (.inl ⟨hlo, hhi⟩)]

theorem Core.rgnField_reject {p off : Nat} (n : Nat) : (c.reject (pMdw p) off v).rgnField n = c.rgnField n := by
  unfold Core.rgnField Core.getF Core.reject
  rw [Core.rd_logErr_ne _ _ _ _ _ _ (not_logTouches_region _ _)]

/-! ### MDW_CONV_CFG -/

/-- The configuration that a write leaves, the window aside: THR, and WIN in its range. -/
def Core.convSet (c : Core) (m k v : Nat) : Core :=
  let c := c.setF (aConv m k + 0x18) 0 16 v
  if 10 ≤ v / 2 ^ 16 % 64 ∧ v / 2 ^ 16 % 64 ≤ 40 then c.setF (aConv m k + 0x18) 16 6 (v / 2 ^ 16 % 64) else c

theorem Core.hConv_priv (ha : a.view = .priv) (hm : m < c.meadows) : c.hConv a m k v =
    if bit v 22 then ((c.convSet m k v).setConvWin m k ConvWin.empty).convClr m k
    else (c.convSet m k v).setConvWin m k ConvWin.empty := by
  unfold Core.hConv
  dsimp only
  rw [if_neg (by simp [isPriv, ha, hm])]
  rfl

theorem Core.convWin_setConvWin {w : ConvWin} : (c.setConvWin m k w).convWin m k = w := Store.get_set_self ..

theorem Core.setConvWin_rd {w : ConvWin} (b : Nat) : (c.setConvWin m k w).rd b = c.rd b := rfl

theorem Core.convSet_spec :
    (c.convSet m k v).getF (aConv m k + 0x18) 0 16 = v % 2 ^ 16 ∧
    (c.convSet m k v).getF (aConv m k + 0x18) 16 6 = (if 10 ≤ v / 2 ^ 16 % 64 ∧ v / 2 ^ 16 % 64 ≤ 40 then v / 2 ^ 16 % 64
      else c.getF (aConv m k + 0x18) 16 6) ∧ Stated.OnlyReg c (c.convSet m k v) (aConv m k + 0x18) := by
  unfold Core.convSet
  extract_lets d
  have hthr : d.getF (aConv m k + 0x18) 0 16 = v % 2 ^ 16 := Core.getF_setF_self _ _ _ _ _ (by decide)
  have hwin : d.getF (aConv m k + 0x18) 16 6 = c.getF (aConv m k + 0x18) 16 6 := Core.getF_setF_apart _ _ _ _ _ _ _ (by decide) (by decide)
  have honly : Stated.OnlyReg c d (aConv m k + 0x18) := fun b hb => Core.rd_setF_ne _ _ _ _ hb
  split
  · refine ⟨(Core.getF_setF_apart _ _ _ _ _ _ _ (by decide) (by decide)).trans hthr, ?_,
      fun b hb => (Core.rd_setF_ne _ _ _ _ hb).trans (honly b hb)⟩
    rw [Core.getF_setF_self _ _ _ _ _ (by decide)]
    omega
  · exact ⟨hthr, hwin, honly⟩

theorem Core.convSet_fab : (c.convSet m k v).fab = c.fab :=
  have h : Changes [.regs] c (c.convSet m k v) := (changes_setF.trans changes_setF.stepIf).mono rfl
  h .fab (by decide)

/-- CLR where no lane has been counted in the cycle: the statistics and the window start from zero (R146). -/
theorem Core.convClr_spec (h : ∀ x ∈ c.fab.convNow, x.conv ≠ m * 32 + k) :
    let d := c.convClr m k
    d.rd (aConv m k) = 0 ∧ d.rd (aConv m k + 8) = 0 ∧ d.rd (aConv m k + 16) = 0 ∧ d.convWin m k = ConvWin.empty := by
  have hnone : (c.fab.convNow.filter fun (x : ConvLane) => x.conv = m * 32 + k) = [] := by
    simpa [List.filter_eq_nil_iff] using h
  have hclr : c.convClr m k = (((c.wr (aConv m k) 0).wr (aConv m k + 8) 0).wr (aConv m k + 16) 0).setConvWin m k ConvWin.empty := by
    unfold Core.convClr
    dsimp only
    rw [show (((c.wr (aConv m k) 0).wr (aConv m k + 8) 0).wr (aConv m k + 16) 0 |>.setConvWin m k ConvWin.empty).fab.convNow =
      c.fab.convNow from rfl, hnone]
    rfl
  dsimp only
  rw [hclr, Core.setConvWin_rd, Core.setConvWin_rd, Core.setConvWin_rd, Core.convWin_setConvWin]
  refine ⟨?_, ?_, by rw [Core.rd_wr_self, Nat.zero_mod], rfl⟩
  · rw [Core.rd_wr_ne _ _ (by omega), Core.rd_wr_ne _ _ (by omega), Core.rd_wr_self, Nat.zero_mod]
  · rw [Core.rd_wr_ne _ _ (by omega), Core.rd_wr_self, Nat.zero_mod]

theorem Core.setConvWin_convNow {w : ConvWin} : (c.setConvWin m k w).fab.convNow = c.fab.convNow := rfl

/-- CONV_CLR writes the configuration as it stands, with CLR set. -/
theorem convClr_exec {s : State} (ha : a.view = .priv) (hm : m < s.core.meadows) :
    exec (.convClr a m k) s = .next { s with core :=
      ((s.core.convSet m k (setBits (s.core.rd (aConv m k + 0x18)) 22 1 1)).setConvWin m k ConvWin.empty).convClr m k } := by
  have hbit (v : Nat) : bit (setBits v 22 1 1) 22 = true := by
    rw [bit, decide_eq_true_iff]
    exact setBits_field v 22 1 1
  have hexec : exec (.convClr a m k) s =
      .next { s with core := s.core.hConv a m k (setBits (s.core.rd (aConv m k + 0x18)) 22 1 1) } := rfl
  rw [hexec, Core.hConv_priv ha hm, if_pos (hbit _)]

end

/-! ### Section switches -/

section
variable {c : Core} {g slot count : Nat}

/-- The core in which a switch waits with those before it. -/
def Core.switchQueued (c : Core) (g slot count : Nat) : Core :=
  c.modRgn g fun r => { r with pendSect := r.pendSect ++ [(slot, count)] }

theorem Core.sectionSwitch_live (hlive : c.rgnLive g = true) :
    c.sectionSwitch g slot count = (c.switchQueued g slot count).sectionDue g := by
  have hmoves : c.rgnMoves g = true := by
    unfold Core.rgnLive at hlive
    unfold Core.rgnMoves
    simp only [Bool.and_eq_true, Bool.or_eq_true] at hlive ⊢
    obtain ⟨⟨hon, hphase⟩, hstall⟩ := hlive
    exact ⟨⟨hon, .inl hphase⟩, hstall⟩
  unfold Core.sectionSwitch
  rw [hmoves]
  rfl

theorem Core.switchQueued_rgn :
    (c.switchQueued g slot count).rgn g = { c.rgn g with pendSect := (c.rgn g).pendSect ++ [(slot, count)] } := Core.rgn_modRgn_self ..

theorem Core.switchQueued_live : (c.switchQueued g slot count).rgnLive g = c.rgnLive g := by
  unfold Core.rgnLive
  rw [Core.switchQueued_rgn]
  rfl

variable (hpend : ∀ e ∈ (c.rgn g).pendSect, (c.rgn g).sched < e.2)
include hpend

/-- Before its count a switch waits. -/
theorem Core.sectionDue_waits (hcount : (c.rgn g).sched < count) :
    (c.switchQueued g slot count).sectionDue g = c.switchQueued g slot count := by
  have hnone : ((c.rgn g).pendSect ++ [(slot, count)]).find? (fun e => e.2 ≤ (c.rgn g).sched) = none := by
    rw [List.find?_eq_none]
    intro e he
    rcases List.mem_append.mp he with he | he
    · simpa using hpend e he
    · obtain rfl := List.mem_singleton.mp he
      simpa using hcount
  unfold Core.sectionDue
  dsimp only
  rw [Core.switchQueued_rgn, hnone]

/-- At its count it takes effect, unless its slot is of the running set and still being loaded. -/
theorem Core.sectionDue_acts (hlive : c.rgnLive g = true) (hcount : count ≤ (c.rgn g).sched)
    (hready : slot / 4 = b2n (c.rgn g).set → c.loadingIn g slot = []) :
    (c.switchQueued g slot count).sectionDue g = ((c.switchQueued g slot count).setRgn g (c.rgn g)).sectionNow g slot := by
  have hnone : (c.rgn g).pendSect.find? (fun e => e.2 ≤ (c.rgn g).sched) = none := by
    rw [List.find?_eq_none]
    exact fun e he => by simpa using hpend e he
  have hfind : ((c.rgn g).pendSect ++ [(slot, count)]).find? (fun e => e.2 ≤ (c.rgn g).sched) = some (slot, count) := by
    rw [List.find?_append, hnone]
    simp [hcount]
  have hnew : (slot, count) ∉ (c.rgn g).pendSect := fun he => absurd (hpend _ he) (by simpa using hcount)
  have herase : ((c.rgn g).pendSect ++ [(slot, count)]).erase (slot, count) = (c.rgn g).pendSect := by
    rw [List.erase_append_right _ hnew, List.erase_cons_head, List.append_nil]
  have hloading : (c.switchQueued g slot count).loadingIn g slot = c.loadingIn g slot := by
    unfold Core.loadingIn
    rw [Core.switchQueued_rgn]
    rfl
  unfold Core.sectionDue
  rw [Core.switchQueued_rgn]
  dsimp only
  rw [hfind]
  dsimp only
  rw [Core.switchQueued_live, hlive, if_neg (by simp), if_neg (by rw [hloading]; exact fun h => h.2 (hready h.1)), herase]

end

section
variable {c : Core} {g slot : Nat}

/-- Reloading the slot that a section left writes no region and no register. -/
theorem Core.reloadLeft_keeps (old : Nat) : (c.reloadLeft g old).rgns = c.rgns ∧ (c.reloadLeft g old).regs = c.regs := by
  unfold Core.reloadLeft
  split
  · exact ⟨rfl, rfl⟩
  · dsimp only
    split
    · exact ⟨rfl, rfl⟩
    · exact ⟨rfl, rfl⟩

/-- A switch to a slot that is loaded in every meadow (R64). -/
theorem Core.sectionNow_loaded (hset : slot / 4 = b2n (c.rgn g).set) (hloaded : c.unloadedIn g slot = []) :
    (c.sectionNow g slot).rgn g = { c.rgn g with sect := slot % 4 } ∧ (c.sectionNow g slot).regs = c.regs := by
  unfold Core.sectionNow
  extract_lets r m old d
  rw [if_neg (not_not.mpr hset), if_neg (not_not.mpr hloaded)]
  have hd : d.rgn g = { c.rgn g with sect := slot % 4 } ∧ d.regs = c.regs := ⟨Core.rgn_setRgn_self .., rfl⟩
  split
  · obtain ⟨hrgns, hregs⟩ := Core.reloadLeft_keeps (c := d) (g := g) old
    exact ⟨(Core.rgn_congr hrgns g).trans hd.1, hregs.trans hd.2⟩
  · exact hd

/-- To a slot that is not, it is refused (R89). -/
theorem Core.sectionNow_unloaded (hset : slot / 4 = b2n (c.rgn g).set) (hunloaded : c.unloadedIn g slot ≠ []) :
    (c.sectionNow g slot).rgn g = c.rgn g := by
  unfold Core.sectionNow
  extract_lets r m old d
  rw [if_neg (not_not.mpr hset), if_pos hunloaded]
  exact Core.rgn_congr (changes_reject .rgns (by decide)) g

theorem Rgn.sect_butFates (r : Rgn) : r.butFates.sect = r.sect := rfl

/-- A halt leaves the section. -/
theorem Core.haltRgn_sect (h m cell port : Nat) (tag : Tag) (set : Bool) (kind : Nat) :
    ((c.haltRgn g m cell port tag set kind).rgn h).sect = (c.rgn h).sect := by
  unfold Core.haltRgn
  extract_lets r d e
  have hd : (d.rgn h).sect = (c.rgn h).sect := by
    unfold d
    by_cases heq : h = g
    · rw [heq, Core.rgn_setRgn_self]
    · rw [Core.rgn_setRgn_ne _ _ heq]
  have hclose : ((d.closeEgress g).rgn h).sect = (d.rgn h).sect := by
    rw [← Rgn.sect_butFates, FatesOnly.closeEgress d g h, Rgn.sect_butFates]
  have he : (e.rgn h).sect = (c.rgn h).sect := by
    rw [Core.rgn_congr (Core.faultRecord_rgns ..)]
    exact hclose.trans hd
  split
  · rfl
  · split
    · exact he
    · rw [Core.rgn_congr (Core.event_rgns ..)]
      exact he

/-- A switch to a slot outside the running set halts the region with kind 0x3 (R64). -/
theorem Core.sectionNow_outside (hset : slot / 4 ≠ b2n (c.rgn g).set) (hphase : (c.rgn g).phase ≠ .halted) :
    ((c.sectionNow g slot).rgn g).phase = .halted ∧ ((c.sectionNow g slot).rgn g).faultKind = 3 ∧
    ((c.sectionNow g slot).rgn g).sect = (c.rgn g).sect := by
  have hhalt : c.sectionNow g slot = c.haltRgn g (c.anchorOf g) (256 * c.anchorOf g) 0 0 (c.rgn g).set 0x3 := by
    unfold Core.sectionNow
    dsimp only
    rw [if_pos hset]
  rw [hhalt]
  obtain ⟨h1, h2⟩ := Core.haltRgn_phase c g (c.anchorOf g) (256 * c.anchorOf g) 0 0 (c.rgn g).set 0x3 hphase
  exact ⟨h1, h2, Core.haltRgn_sect ..⟩

/-- A region that runs is not halted. -/
theorem Core.phase_of_rgnLive (h : c.rgnLive g = true) : (c.rgn g).phase ≠ .halted := by
  intro hp
  unfold Core.rgnLive at h
  simp [hp] at h

end

/-! ### The end of a reload -/

section
variable {c : Core} {m : Mem} {md slot : Nat} {b : Binary} {sec : Nat} {l : List Nat} {x : Nat}

theorem mem_insertNat {k : Nat} : x ∈ insertNat k l ↔ x = k ∨ x ∈ l := by
  induction l with
  | nil => simp [insertNat]
  | cons y l ih =>
    rw [insertNat]
    split
    · simp
    split
    · subst_vars
      simp
    · simp only [List.mem_cons, ih]
      exact or_left_comm

/-- Writing a section's image into one meadow's slot changes the fabric alone; the slot is loaded there, and loading no longer. -/
theorem putSection_spec {ok : WeightSlot → Bool} :
    let d := (putSection m c b sec slot [md] ok).2
    Changes [.fab] c d ∧ md * 8 + slot ∈ d.fab.loaded ∧ md * 8 + slot ∉ d.fab.loading := by
  refine ⟨?_, ?_, ?_⟩
  · exact (Changes.put .fab)
  · exact mem_insertNat.mpr (.inl rfl)
  · unfold putSection
    simp

/-- A slot that no pending switch names is waited for by nothing. -/
theorem Rgn.waitsFor_nil {r : Rgn} (h : r.pendSect = []) : r.waitsFor slot = false := by
  unfold Rgn.waitsFor
  rw [h]
  rfl

/-- Beginning a SECTION task's section changes its region alone. -/
theorem changes_taskBegin {e : Nat} : Changes [.rgns] c (c.taskBegin e) := by
  unfold Core.taskBegin
  dsimp only
  exact .skipIf (.skipIf (.put .rgns))

theorem Core.sectionDue_nil {g : Nat} (h : (c.rgn g).pendSect = []) : c.sectionDue g = c := by
  unfold Core.sectionDue
  dsimp only
  rw [h]
  rfl

/-- The core when meadow `md`'s image of a slot is complete: the image in place, its bytes counted, its bad contexts known. -/
def Core.imaged (c : Core) (m : Mem) (b : Binary) (md slot : Nat) (bad : List Nat) : Core :=
  let g := c.rgnOf md
  let sec := c.holding g slot
  let r := putSection m c b sec slot [md] fun _ => true
  let n := 131072 + 40 * (b.weights.filter fun w => w.section_ = sec && w.cell / 256 = md).length
  let far := b.section_.any fun e => e.index = sec && e.lpddr
  let c := if far then r.2.bumpBy (pLpm + 0x100 + 8 * (if g < 8 then 1 else 4)) n else r.2
  { c with fab := { c.fab with ctxBad := c.fab.ctxBad ++ (bad.filter fun n => cellMeadow n = md).map fun n => n * 8 + slot } }

theorem Core.imaged_spec {bad : List Nat} :
    Changes [.fab, .regs] c (c.imaged m b md slot bad) ∧ md * 8 + slot ∈ (c.imaged m b md slot bad).fab.loaded ∧
    md * 8 + slot ∉ (c.imaged m b md slot bad).fab.loading ∧
    ∀ n ∈ bad, cellMeadow n = md → n * 8 + slot ∈ (c.imaged m b md slot bad).fab.ctxBad := by
  unfold Core.imaged
  extract_lets g sec r n far d fab
  obtain ⟨hr, hloaded, hnotloading⟩ := putSection_spec (m := m) (c := c) (b := b) (sec := sec) (slot := slot) (md := md)
    (ok := fun _ => true)
  have hd : Changes [.regs] r.2 d := changes_bumpBy.stepIf
  have hfab : fab = r.2.fab := hd .fab (by decide)
  refine ⟨((hr.trans hd).trans (.put .fab)).mono rfl, ?_, ?_, fun n hn hmd => List.mem_append_right _ ?_⟩
  · rw [hfab]
    exact hloaded
  · rw [hfab]
    exact hnotloading
  · exact List.mem_map.mpr ⟨n, List.mem_filter.mpr ⟨hn, by simpa using hmd⟩, rfl⟩

/-- The end of a reload in a region that waits for no switch. -/
theorem slotReloadDone_loading {bad : List Nat} {l : Loaded} (hloading : md * 8 + slot ∈ c.fab.loading)
    (hbin : (c.rgn (c.rgnOf md)).bin (4 ≤ slot) = some l) :
    (slotReloadDone m c md slot bad).2 =
      let d := c.imaged m l.bin md slot bad
      let e := if (d.rgn (c.rgnOf md)).waitsFor slot then d.itemDone (c.rgnOf md) fun o => o.src = .ctx md else d
      if 16 ≤ c.rgnOf md then e.taskBegin (c.rgnOf md - 16) else e.sectionDue (c.rgnOf md) := by
  unfold slotReloadDone
  extract_lets g
  have hg : (c.rgn g).bin (4 ≤ slot) = some l := hbin
  rw [if_neg (by simpa using hloading), hg]
  rfl

/-- The slot is loaded in the meadow and no longer loading, and the contexts with an uncorrectable word are known (R57, R87, R88). -/
theorem slotReloadDone_spec {bad : List Nat} {l : Loaded} (hloading : md * 8 + slot ∈ c.fab.loading)
    (hbin : (c.rgn (c.rgnOf md)).bin (4 ≤ slot) = some l) (hpend : (c.rgn (c.rgnOf md)).pendSect = []) :
    let d := (slotReloadDone m c md slot bad).2
    md * 8 + slot ∈ d.fab.loaded ∧ md * 8 + slot ∉ d.fab.loading ∧
    ∀ n ∈ bad, cellMeadow n = md → n * 8 + slot ∈ d.fab.ctxBad := by
  obtain ⟨hchanges, hspec⟩ := Core.imaged_spec (c := c) (m := m) (b := l.bin) (md := md) (slot := slot) (bad := bad)
  have hpend' : ((c.imaged m l.bin md slot bad).rgn (c.rgnOf md)).pendSect = [] := by
    rw [Core.rgn_congr (hchanges .rgns (by decide)), hpend]
  have hfab : (slotReloadDone m c md slot bad).2.fab = (c.imaged m l.bin md slot bad).fab := by
    rw [slotReloadDone_loading hloading hbin]
    dsimp only
    rw [Rgn.waitsFor_nil hpend', if_neg Bool.false_ne_true]
    split
    · exact changes_taskBegin .fab (by decide)
    · rw [Core.sectionDue_nil hpend']
  dsimp only
  rw [hfab]
  exact hspec

end

end Sys2Proof.Machine

open Sys2Proof Sys2Proof.Machine Sys2Proof.Stated

theorem meadowRegisters : Stated.MeadowRegisters := by
  refine ⟨fun s a m v ha hm => ⟨fun hv hen hold hnew => ?_, fun hlo hhi => ?_⟩, fun s a m k v ha hm hclr => ?_,
    fun s a m k ha hm hnow => ?_⟩
  · refine (runs_iff (d := s.core.hMeadow a m v.toNat) rfl).mpr ?_
    rw [Core.hMeadow_moves ha hm hv hen hold hnew]
    refine ⟨?_, fun b hb => Core.rd_setF_ne _ _ _ _ hb⟩
    exact (Core.getF_setF_self _ _ _ _ _ (by decide)).trans (Nat.mod_mod _ _)
  · refine (runs_iff (d := s.core.hMeadow a m v.toNat) rfl).mpr ?_
    rw [Core.hMeadow_refuses ha hm hlo hhi]
    exact Core.rgnField_reject m
  · refine (runs_iff (d := s.core.hConv a m k v.toNat) rfl).mpr ?_
    rw [Core.hConv_priv ha hm, if_neg (by rw [hclr]; exact Bool.false_ne_true)]
    obtain ⟨hthr, hwin, honly⟩ := Core.convSet_spec (c := s.core) (m := m) (k := k) (v := v.toNat)
    exact ⟨hthr, Core.convWin_setConvWin, hwin, honly⟩
  · exact (runs_iff (convClr_exec ha hm)).mpr (Core.convClr_spec (by rwa [Core.setConvWin_convNow, Core.convSet_fab]))

theorem sectionsSwitch : Stated.SectionsSwitch := by
  refine ⟨fun s g slot count hg hlive hpend => ?_, fun s m slot bad l hloading hbin hpend => ?_⟩
  case refine_2 => exact (runsDev_iff (r := slotReloadDone s.mem s.core m slot bad) rfl).mpr (slotReloadDone_spec hloading hbin hpend)
  have hexec {P : Core → Prop} :
      Stated.Runs (.sectionSwitch g ⟨slot, count⟩) s P ↔ P ((s.core.switchQueued g slot count).sectionDue g) := by
    refine (runs_iff (d := if g < 8 then s.core.sectionSwitch g slot count else s.core) rfl).trans ?_
    rw [if_pos hg, Core.sectionSwitch_live hlive]
  let c := (s.core.switchQueued g slot count).setRgn g (s.core.rgn g)
  have hrgn : c.rgn g = s.core.rgn g := Core.rgn_setRgn_self ..
  have hunloaded : c.unloadedIn g slot = s.core.unloadedIn g slot := by
    unfold Core.unloadedIn
    rw [hrgn]
    rfl
  refine ⟨fun hcount hset hnone hloaded => ?_, fun hcount hset hnone hloaded => ?_, fun hcount hset => ?_, fun hcount => ?_⟩
  · rw [hexec, Core.sectionDue_acts hpend hlive hcount fun _ => hnone]
    obtain ⟨hsect, hregs⟩ := Core.sectionNow_loaded (c := c) (hrgn ▸ hset) (hunloaded.trans hloaded)
    exact ⟨hsect.trans (by rw [hrgn]), hregs⟩
  · rw [hexec, Core.sectionDue_acts hpend hlive hcount fun _ => hnone]
    exact (Core.sectionNow_unloaded (c := c) (hrgn ▸ hset) (hunloaded ▸ hloaded)).trans hrgn
  · rw [hexec, Core.sectionDue_acts hpend hlive hcount fun h => absurd h hset]
    have hhalted := Core.sectionNow_outside (c := c) (hrgn ▸ hset) (hrgn ▸ Core.phase_of_rgnLive hlive)
    rwa [hrgn] at hhalted
  · rw [hexec, Core.sectionDue_waits hpend hcount]
    exact ⟨Core.switchQueued_rgn, rfl⟩

/-- Settles O19: the meadow's registers, and the switches and reloads of sections. -/
theorem meadowsAreSetUp : Obligations.MeadowsAreSetUp := ⟨meadowRegisters, sectionsSwitch⟩

end

