-- ==== Sys2Proof/Proofs/Converters.lean ====
section
/-! PROOF. The firings of SCAN cells and of the converters DEQUANT and QUANT (R115, R116, R118, R119, R135, R139, R140). O2. -/

namespace Sys2Proof.Machine

/-! ### SCAN and DEQUANT: SFN firings -/

/-- An SFN firing in time leaves the free values as they are. -/
theorem Core.sfnFire_free {c : Core} {cell lat : Nat} {op : SfnOp} {x : Ctx} {k : SfnCtx} {ts : List Token}
    (hready : c.sfnReady cell op = some (x, k, ts)) (hearly : c.early cell x 0 (joinTok ts) = false)
    (f : SfnCtx → Nat → Nat → Nat × Cnt) : (c.sfnFire cell op lat f).free = c.free := by
  obtain ⟨-, -, -, -, -, -, -, hfree, -⟩ := Core.taken_spec c cell (sfnPorts k) (joinTok ts).set (sfnPorts_nodup k)
  rw [Core.sfnFire_ready hready, Core.fire_eq _ _ _ _ _ _ _ hearly, Core.place_free, Core.credit_free, hfree]

/-- A command whose meaning is a SCAN firing fires its cell whenever it is ready. -/
theorem scanRuns_of_exec {i : Nat → Instr} {op : SfnOp} {lat n : Nat} {f : SfnCtx → Nat → Nat → Nat × Cnt}
    (hi : ∀ cell s, exec (i cell) s = coreStep (fun _ c => c.scanFire cell op lat n f) s) : Stated.ScanRuns i op lat n f := by
  intro s cell x k ts hready hearly
  rw [runs_iff (hi cell s)]
  have hfired := (runs_iff (hi cell s)).mp (sfnRuns_of_exec (lat := fun _ _ => lat) hi s cell x k ts hready hearly)
  exact ⟨hfired, Core.sfnFire_free hready hearly _⟩

/-- Of the function of an SFN firing only the payload it sends is stated, not what it counts. -/
theorem sfnRuns_of_payload {i : Nat → Instr} {op : SfnOp} {lat : Core → Nat → Nat} {f g : SfnCtx → Nat → Nat → Nat × Cnt}
    (h : Stated.SfnRuns i op lat f) (hfg : ∀ k p q, (g k p q).1 = (f k p q).1) : Stated.SfnRuns i op lat g := by
  intro s cell x k ts hready hearly
  rw [hfg]
  exact h s cell x k ts hready hearly

/-! ### The generator of a context slot (R119) -/

section
variable {c d : Core} {cell : Nat} {k : SfnCtx} {set : Bool}

theorem Core.gen_congr (h : SameRoute c d cell) (hgens : d.fab.gens = c.fab.gens) : d.gen cell k set = c.gen cell k set := by
  rw [Core.gen, Core.gen, hgens, Core.slotKey_congr h]

theorem Core.gen_setGen {g : Word32} : (c.setGen cell set g).gen cell k set = g := by
  have hfind : ((c.setGen cell set g).fab.gens.find? fun e => e.1 = c.slotKey cell set) = some (c.slotKey cell set, g) :=
    (Store.find_put ..).trans (if_pos rfl)
  have hkey : (c.setGen cell set g).slotKey cell set = c.slotKey cell set := rfl
  rw [Core.gen, hkey, hfind]
  rfl

end

/-! ### What QUANT does to the core keeps its firing -/

section
variable {c d : Core} {cell : Nat} {tag : Tag} {set : Bool} {l : List LaneStat}

theorem FiringKept.setGen {g : Word32} : FiringKept cell c (c.setGen cell set g) := ⟨⟨rfl, rfl, rfl⟩, rfl, rfl, rfl, rfl⟩

/-- A step left out under a condition. -/
theorem FiringKept.skipIf {p : Prop} [Decidable p] (h : FiringKept cell c d) : FiringKept cell c (if p then c else d) := by
  split
  · exact refl
  · exact h

/-- The converter's statistics leave the clock, the regions and the tasks, and of the fabric they change their own parts only. -/
theorem Core.convLanes_spec (c : Core) (m n : Nat) (tag : Tag) (set : Bool) (l : List LaneStat) :
    let d := c.convLanes m n tag set l
    d.clk = c.clk ∧ d.rgns = c.rgns ∧ d.task = c.task ∧
    d.fab = { c.fab with convs := d.fab.convs, calAt := d.fab.calAt, convNow := d.fab.convNow } := by
  intro d
  obtain ⟨hclk, hrgns, htask, -, hfab⟩ : d.clk = c.clk ∧ d.rgns = c.rgns ∧ d.task = c.task ∧ d.free = c.free ∧ _ = _ := by
    simpa only [convKept, Prod.mk.injEq] using convKept_convLanes c m n tag set l
  exact ⟨hclk, hrgns, htask,
    congrArg (fun f : Fabric => { f with convs := d.fab.convs, calAt := d.fab.calAt, convNow := d.fab.convNow }) hfab⟩

theorem Core.convLanes_gens {m n : Nat} : (c.convLanes m n tag set l).fab.gens = c.fab.gens := by
  obtain ⟨-, -, -, hfab⟩ := Core.convLanes_spec c m n tag set l
  rw [hfab]

theorem Core.rgnField_convLanes {n : Nat} (hn : n < 32) (m j : Nat) : (c.convLanes m n tag set l).rgnField j = c.rgnField j := by
  unfold Core.rgnField Core.getF
  rw [Core.rd_convLanes c m n hn tag set l _ (by unfold pMdw; omega)]

theorem FiringKept.convLanes : FiringKept cell c (c.convLanes (cellMeadow cell) (convOf cell) tag set l) := by
  obtain ⟨hclk, hrgns, htask, hfab⟩ := Core.convLanes_spec c (cellMeadow cell) (convOf cell) tag set l
  exact ⟨⟨hrgns, Core.cellRgn_congr (Core.rgnField_convLanes (convOf_lt cell) _ _) htask, by rw [hfab]⟩,
    by rw [hfab], by rw [hfab], by rw [hfab], hclk⟩

end

/-! ### QUANT -/

/-- The scale record of a QUANT firing: a dynamic context takes it from its second token (R135). -/
def quantRecord (k : SfnCtx) (ts : List Token) : Nat :=
  if k.dynamic then (ts.getD 1 (joinTok ts)).payload.toNat % 2 ^ 64 else 0

/-- The lanes of a QUANT firing (R116, R118). -/
def Core.quantised (c : Core) (cell : Nat) (k : SfnCtx) (ts : List Token) : Nat × Cnt × List LaneStat × Word32 :=
  let p := (ts.headD (joinTok ts)).payload.toNat
  quantLanes k.code (if k.dynamic then recordMap (quantRecord k ts) else pinnedMap k) k.stochastic k.mask.toNat
    (Config.corner [0, codeWidth k.code, k.scale.toNat, unsigned 16 k.zero, k.mask.toNat, p, quantRecord k ts]) p
    (c.gen cell k (joinTok ts).set) 0 8

/-- The payload that QUANT sends: a dynamic one passes its record on in bytes [63:56]. -/
def quantPayload (k : SfnCtx) (record codes : Nat) : Nat :=
  if k.dynamic then codes % 2 ^ 448 + record * 2 ^ 448 else codes

/-- The work of a QUANT firing with the lanes `q`: the counters, the generator, the converter's statistics, the payload. -/
def quantWork (cell : Nat) (k : SfnCtx) (ts : List Token) (q : Nat × Cnt × List LaneStat × Word32) (c : Core) :
    Core × Bool × List (Nat × Nat) :=
  let t := joinTok ts
  let c := c.credit (cellMeadow cell) ((if k.dynamic then recordCnt (quantRecord k ts) else Cnt.zero).add q.2.1)
  let c := if k.stochastic then c.setGen cell t.set q.2.2.2 else c
  let c := if t.poison then c else c.convLanes (cellMeadow cell) (convOf cell) t.tag t.set q.2.2.1
  (c, false, [(0, quantPayload k (quantRecord k ts) q.1)])

section
variable {c : Core} {cell : Nat} {x : Ctx} {k : SfnCtx} {ts : List Token} {q : Nat × Cnt × List LaneStat × Word32}

theorem Core.quantFire_ready (h : c.sfnReady cell .quant = some (x, k, ts)) :
    c.quantFire cell = c.fire cell x (sfnPorts k) 3 ts (quantWork cell k ts (c.quantised cell k ts)) := by
  unfold Core.quantFire
  rw [h]
  rfl

theorem FiringKept.quantWork : FiringKept cell c (quantWork cell k ts q c).1 :=
  (FiringKept.credit.trans FiringKept.setGen.stepIf).trans FiringKept.convLanes.skipIf

/-- A stochastic QUANT's work leaves the generator where its lanes have brought it. -/
theorem quantWork_gen (hk : k.stochastic = true) : (quantWork cell k ts q c).1.gen cell k (joinTok ts).set = q.2.2.2 := by
  unfold quantWork
  dsimp only
  rw [if_pos hk]
  split
  · exact Core.gen_setGen
  · exact (Core.gen_congr FiringKept.convLanes.route Core.convLanes_gens).trans Core.gen_setGen

/-- A ready QUANT cell fires with its lanes, and a stochastic one moves its generator on. -/
theorem quantFire_fires (hready : c.sfnReady cell .quant = some (x, k, ts)) (hearly : c.early cell x 0 (joinTok ts) = false) :
    Stated.Fired c (c.quantFire cell) cell x (sfnPorts k) 3 ts false
      [(0, quantPayload k (quantRecord k ts) (c.quantised cell k ts).1)] ∧
    (k.stochastic = true → (c.quantFire cell).gen cell k (joinTok ts).set = (c.quantised cell k ts).2.2.2) := by
  rw [Core.quantFire_ready hready]
  refine ⟨fired_of_work hearly (sfnPorts_nodup k) rfl .quantWork, fun hk => ?_⟩
  rw [Core.fire_eq _ _ _ _ _ _ _ hearly]
  exact (Core.gen_congr ⟨rfl, rfl, rfl⟩ rfl).trans (quantWork_gen hk)

end

end Sys2Proof.Machine

open Sys2Proof Sys2Proof.Machine Sys2Proof.Stated

theorem scanFires : Stated.ScanFires := by
  have runs {i op lat n f} := @scanRuns_of_exec i op lat n f
  exact ⟨runs fun _ _ => rfl, runs fun _ _ => rfl, runs fun _ _ => rfl, runs fun _ _ => rfl, runs fun _ _ => rfl⟩

theorem converterFires : Stated.ConverterFires := by
  refine ⟨sfnRuns_of_payload (sfnRuns_of_exec fun _ _ => rfl) fun _ _ _ => rfl, fun s cell x k ts hready hearly => ?_⟩
  exact (runs_iff (d := s.core.quantFire cell) rfl).mpr (quantFire_fires hready hearly)

/-- Settles O2: the SCAN commands and DEQUANT are SFN firings, and QUANT's work leaves its firing as it is. -/
theorem placementCellsFire : Obligations.PlacementCellsFire := ⟨scanFires, converterFires⟩
end

