-- ==== Sys2Proof/Proofs/BinaryLoads.lean ====
section
/-! PROOF. The loader: binaries refused, checked for a task, and placed in their region's set (R160, R341). O20. -/

namespace Sys2Proof.Machine

/-! ### What each step of a load changes -/

section
variable {c d : Core} {m : Mem} {b : Binary}

/-- A fold that carries the memories along changes what each of its steps may change. -/
theorem Changes.foldl_snd {α : Type} {l : List Piece} {f : Mem × Core → α → Mem × Core} (h : ∀ x a, Changes l x.2 (f x a).2)
    (xs : List α) (x : Mem × Core) : Changes l x.2 (xs.foldl f x).2 := by
  induction xs generalizing x with
  | nil => exact .refl
  | cons a xs ih => exact ((h x a).trans (ih _)).of_forall_mem fun _ hx => (List.mem_append.mp hx).elim id id

theorem changes_clearSlot {ms : List Nat} {slot : Nat} : Changes [.fab] c (c.clearSlot ms slot) := .put .fab

theorem changes_putSection {sec slot : Nat} {ms : List Nat} {ok : WeightSlot → Bool} :
    Changes [.fab] c (putSection m c b sec slot ms ok).2 := .put .fab

theorem changes_putSet : Changes [.progs, .tmpls, .comp] c (c.putSet b) := by
  intro x hx
  cases x
  case progs | tmpls | comp => simp at hx
  all_goals rfl

theorem changes_claimTracks {g : Nat} : Changes [.fab] c (c.claimTracks g) := .put .fab

theorem changes_recordBin : Changes [.sec] c (c.recordBin b) := .put .sec

/-- What the loader records of a binary it takes from the registers alone (R173). -/
theorem Core.loadedOf_congr (h : d.regs = c.regs) : d.loadedOf b = c.loadedOf b := by
  unfold Core.loadedOf Core.isB0
  rw [Core.getF_congr h]

end

/-! ### A standing binary in its set -/

/-- A region with a loaded binary in the binary's set. -/
def Rgn.withBin (r : Rgn) (b : Binary) (l : Loaded) : Rgn :=
  { r with bins := setAt r.bins (b2n b.report.set) (some l), sect := if b.report.set = r.set then 0 else r.sect,
           anchor := r.anchorAfter b }

theorem Rgn.bin_withBin {r : Rgn} {b : Binary} {l : Loaded} (h : r.bins.length = 2) :
    (r.withBin b l).bin b.report.set = some l := by
  have hset : b2n b.report.set < r.bins.length := by
    rw [h]
    cases b.report.set <;> decide
  unfold Rgn.bin Rgn.withBin setAt
  rw [List.getD_eq_getElem?_getD, List.getElem?_set_self hset]
  rfl

section
variable {m : Mem} {c : Core} {b : Binary}

/-- A load writes images, programs and templates, puts the binary into its region, and claims its tracks. -/
theorem loadStanding_steps : ∃ d, Changes [.fab, .progs, .tmpls, .comp] c d ∧
    Changes [.fab, .task] (d.modRgn b.report.region fun r => r.withBin b (c.loadedOf b)) (loadStanding m c b).2 := by
  unfold loadStanding
  extract_lets g set r live old slots m₁ cleared gone fab emptied r1 placed claimed task
  have hcleared : Changes [.fab] c cleared := .foldl (fun _ _ => changes_clearSlot) _ _
  have hemptied : Changes [.fab] c emptied := (hcleared.trans (.put .fab)).mono rfl
  have hsections : Changes [.fab] emptied r1.2 := by
    refine .foldl_snd (fun x e => ?_) (firstSections b) (m₁, emptied)
    exact ((changes_putSection (m := x.1)).trans (.put .fab)).mono rfl
  have hloaded : emptied.loadedOf b = c.loadedOf b := Core.loadedOf_congr (hemptied .regs (by decide))
  refine ⟨r1.2.putSet b, ((hemptied.trans hsections).trans changes_putSet).mono rfl, ?_⟩
  rw [← hloaded]
  exact (changes_claimTracks.trans (.put .task)).mono rfl

/-- The binary stands in its region's set, the region's phase stays, and nothing is reported. -/
theorem loadStanding_spec (hbins : (c.rgn b.report.region).bins.length = 2) :
    let d := (loadStanding m c b).2
    (d.rgn b.report.region).bin b.report.set = some (c.loadedOf b) ∧
    (d.rgn b.report.region).phase = (c.rgn b.report.region).phase ∧ d.out = c.out := by
  obtain ⟨d, hd, hload⟩ := loadStanding_steps (m := m) (c := c) (b := b)
  have hold : d.rgn b.report.region = c.rgn b.report.region := Core.rgn_congr (hd .rgns (by decide)) _
  have hnew : (loadStanding m c b).2.rgn b.report.region = (c.rgn b.report.region).withBin b (c.loadedOf b) := by
    rw [Core.rgn_congr (hload .rgns (by decide)), Core.rgn_modRgn_self, hold]
  dsimp only
  rw [hnew]
  exact ⟨Rgn.bin_withBin hbins, rfl, (hload .out (by decide)).trans (hd .out (by decide))⟩

/-! ### BINARY_LOAD -/

/-- Whether a binary is loaded for tasks. -/
def isTaskBin (b : Binary) : Bool := b.report.region = 0xF && !b.report.standing

/-- The code that BINARY_LOAD reports. -/
def Core.binaryCode (c : Core) (b : Binary) : Nat := c.loadCode (if isTaskBin b then 0xF else b.report.region % 8) b

/-- BINARY_LOAD through its names: recorded and loaded with code 0 for no task, and reported. -/
theorem binaryLoad_eq : binaryLoad m c b =
    let r := if c.binaryCode b = 0 ∧ !isTaskBin b then loadStanding m (c.recordBin b) b else (m, c)
    (r.1, r.2.emit (.load b.report.region (c.binaryCode b))) := rfl

/-- A refused binary and a task binary are reported only. -/
theorem binaryLoad_reports (h : c.binaryCode b ≠ 0 ∨ isTaskBin b = true) :
    binaryLoad m c b = (m, c.emit (.load b.report.region (c.binaryCode b))) := by
  have hstop : ¬ (c.binaryCode b = 0 ∧ (!isTaskBin b) = true) := by
    rintro ⟨hcode, hstanding⟩
    exact h.elim (· hcode) fun htask => by simp [htask] at hstanding
  rw [binaryLoad_eq, if_neg hstop]

/-- An accepted standing binary is recorded, loaded and reported. -/
theorem binaryLoad_loads (hcode : c.binaryCode b = 0) (htask : isTaskBin b = false) :
    binaryLoad m c b =
      ((loadStanding m (c.recordBin b) b).1, (loadStanding m (c.recordBin b) b).2.emit (.load b.report.region 0)) := by
  rw [binaryLoad_eq, if_pos ⟨hcode, by rw [htask]; rfl⟩, hcode]

end

end Sys2Proof.Machine

open Sys2Proof Sys2Proof.Machine Sys2Proof.Stated

/-- Settles O20: a refused binary and a task binary leave the one report, and a load's steps leave the region as the binary's
entry makes it. -/
theorem binaryLoads : Obligations.BinaryLoads := by
  intro s b
  refine ⟨fun hreport => ?_, fun hcode htask hbins => ?_⟩
  · refine (runsDev_iff (r := binaryLoad s.mem s.core b) rfl).mpr ?_
    rw [binaryLoad_reports hreport]
    exact ⟨rfl, rfl⟩
  · refine (runsDev_iff (r := binaryLoad s.mem s.core b) rfl).mpr ?_
    rw [binaryLoad_loads (c := s.core) hcode htask]
    obtain ⟨hbin, hphase, hout⟩ := loadStanding_spec (m := s.mem) (c := s.core.recordBin b) hbins
    exact ⟨hbin, hphase, congrArg (· ++ [Out.load b.report.region 0]) hout⟩

end

