-- ==== Sys2Proof/Proofs/TimeRegisters.lean ====
section
/-! PROOF LAYER. Registers of the time unit: single bits, rejected writes, and what device time is read from. -/

namespace Sys2Proof.Machine

section
variable {c d : Core} {a b lo w v k off : Nat}

/-! ### One bit of a register -/

theorem Core.getF_of_rd (h : d.rd a = c.rd a) : d.getF a lo w = c.getF a lo w := by rw [Core.getF, h, Core.getF]

theorem Core.getB_of_rd (h : d.rd a = c.rd a) : d.getB a k = c.getB a k := by
  rw [Core.getB_eq_getF, Core.getF_of_rd h, Core.getB_eq_getF]

theorem Core.getB_setF_self (c : Core) (a k v : Nat) (h : k < 64) : (c.setF a k 1 v).getB a k = decide (v % 2 = 1) := by
  rw [Core.getB_eq_getF, Core.getF_setF_self c a k 1 v h, pow_one]

theorem Core.getB_setF_ne (h : b ≠ a) : (c.setF a lo w v).getB b k = c.getB b k := Core.getB_of_rd (Core.rd_setF_ne c lo w v h)

theorem Core.getB_setF_apart (c : Core) (a lo w v k : Nat) (h : lo + w ≤ 64) (hk : k < lo ∨ lo + w ≤ k) :
    (c.setF a lo w v).getB a k = c.getB a k := by
  rw [Core.getB_eq_getF, Core.getF_setF_apart c a lo w v k 1 h hk, Core.getB_eq_getF]

theorem Core.getB_raiseF_self (c : Core) (a k : Nat) (h : k < 64) : (c.raiseF a k).getB a k = true :=
  (Core.getB_setF_self c a k 1 h).trans rfl

theorem Core.rd_raiseF_ne (h : b ≠ a) : (c.raiseF a k).rd b = c.rd b := Core.rd_setF_ne c k 1 1 h

/-! ### Writes taken and rejected -/

theorem isPriv_of_view {a : Access} (h : a.view = .priv) : isPriv a = true := decide_eq_true h

theorem changes_timeRej : Changes [.regs, .cyc, .notices, .errSeq] c (c.timeRej off v) := (changes_raiseF.trans changes_reject).mono rfl

/-- A rejected write of the time page sets its bit of TIME_STAT. -/
theorem Core.getB_timeRej : (c.timeRej off v).getB (pTime + 0x200) 3 = true :=
  (Core.getB_of_rd (Core.rd_logErr_ne _ _ _ _ _ _ (by unfold LogTouches; decide))).trans (Core.getB_raiseF_self _ _ _ (by decide))

theorem Core.rd_timeRej_ne (hstat : b ≠ pTime + 0x200) (hlog : ¬ LogTouches pTime b) : (c.timeRej off v).rd b = c.rd b :=
  (Core.rd_logErr_ne _ _ _ _ _ _ hlog).trans (Core.rd_raiseF_ne hstat)

/-! ### What device time is read from -/

theorem Core.at_congr (hc : d.clk = c.clk) (h : ∀ a, a = pTime + 0xA0 ∨ a = pTime + 0x208 → d.rd a = c.rd a) (phi : Nat) :
    d.at_ phi = c.at_ phi := by
  have hi : d.incr = c.incr := by
    simp only [Core.incr, Core.getF, hc, h (pTime + 0xA0) (.inl rfl), h (pTime + 0x208) (.inr rfl)]
  rw [Core.at_, Core.at_, hc, hi]

theorem Core.epoch_congr (h : ∀ a, a = pTime + 0x620 ∨ a = pTime + 0x628 → d.rd a = c.rd a) : d.epoch = c.epoch := by
  rw [Core.epoch, Core.getF_of_rd (h _ (.inr rfl)), Core.getF_of_rd (h _ (.inl rfl)), Core.epoch]

end

end Sys2Proof.Machine
end

