-- ==== Sys2Proof/Proofs/TimeSteering.lean ====
section
/-! PROOF. Device time: its increment, slews, holdover, the time written and the tick period (R179 to R182, R190). O21. -/

namespace Sys2Proof.Machine

section
variable {c : Core} {a : Access} {v : Nat}

/-! ### The increment and slews -/

theorem Core.hTimeIncr_takes (ha : a.view = .priv) (h : incrOk ((v % 2 ^ 33 : Nat) : Int) = true) :
    c.hTimeIncr a v = c.setF (pTime + 0xA0) 0 33 (v % 2 ^ 33) := by
  simp only [Core.hTimeIncr, isPriv_of_view ha, h, Bool.not_true, Bool.false_eq_true, if_false, if_true]

theorem Core.hTimeIncr_refuses (ha : a.view = .priv) (h : incrOk ((v % 2 ^ 33 : Nat) : Int) = false) :
    c.hTimeIncr a v = c.timeRej 0xA0 v := by
  simp only [Core.hTimeIncr, isPriv_of_view ha, h, Bool.not_true, Bool.false_eq_true, if_false]

theorem Core.getF_setClk (c : Core) (k : Clk) (r lo w : Nat) : ({ c with clk := k } : Core).getF r lo w = c.getF r lo w := rfl

/-- The core of a slew that has begun (R180): `n` cycles at the increment moved by the offset of `v`. -/
def Core.slewing (c : Core) (v n : Nat) : Core :=
  let d := (c.setF (pTime + 0x208) 0 24 v).setF (pTime + 0x208) 24 32 n
  { d with clk := { d.clk with slewLeft := n } }.setF aTStat 4 1 (b2n (n ≠ 0))

theorem Core.hTimeSlew_starts (ha : a.view = .priv) (h : incrOk ((c.getF (pTime + 0xA0) 0 33 : Int) + signed 24 v) = true) :
    c.hTimeSlew a v = c.slewing v (v / 2 ^ 24 % 2 ^ 32) := by
  simp only [Core.hTimeSlew, isPriv_of_view ha, h, Bool.not_true, Bool.false_eq_true, if_false]
  rfl

theorem decide_b2n_mod (b : Bool) : decide (b2n b % 2 = 1) = b := by cases b <;> rfl

theorem Core.slewing_spec (n : Nat) :
    (c.slewing v n).clk.slewLeft = n ∧ (c.slewing v n).getF (pTime + 0x208) 0 24 = v % 2 ^ 24 ∧
    (c.slewing v n).getB aTStat 4 = decide (n ≠ 0) := by
  unfold Core.slewing
  extract_lets d
  have hoff : d.getF (pTime + 0x208) 0 24 = v % 2 ^ 24 :=
    (Core.getF_setF_apart _ _ _ _ _ _ _ (by decide) (by decide)).trans (Core.getF_setF_self _ _ _ _ _ (by decide))
  refine ⟨rfl, ?_, (Core.getB_setF_self _ _ _ _ (by decide)).trans (decide_b2n_mod _)⟩
  rw [Core.getF_setF_ne _ _ _ _ _ _ (by decide), Core.getF_setClk, hoff]

/-! ### Holdover -/

theorem Core.slewEnd_spec (h : c.clk.slewLeft = 0) :
    c.slewEnd.getB aTStat 4 = false ∧ Stated.OnlyReg c c.slewEnd aTStat := by
  rw [show c.slewEnd = c.setF aTStat 4 1 0 from if_pos h]
  exact ⟨Core.getB_setF_self _ _ _ _ (by decide), fun b hb => Core.rd_setF_ne _ _ _ _ hb⟩

theorem Core.enterHoldover_spec (h : c.getB aTStat 1 = false) :
    c.enterHoldover.getB aTStat 1 = true ∧ c.enterHoldover.getB aTStat 0 = false ∧ c.enterHoldover.getB (pTime + 0x38) 8 = true := by
  rw [show c.enterHoldover = ((c.setF aTStat 1 1 1).setF aTStat 0 1 0).event pTime 8 from if_neg (by simp [h])]
  have hevent (d : Core) : (d.event pTime 8).rd aTStat = d.rd aTStat := Core.rd_event_ne d 8 (by decide)
  refine ⟨?_, ?_, Core.getB_event_self _ _ _ (by decide)⟩
  · rw [Core.getB_of_rd (hevent _), Core.getB_setF_apart _ _ _ _ _ _ (by decide) (by decide)]
    exact Core.getB_setF_self _ _ _ _ (by decide)
  · rw [Core.getB_of_rd (hevent _)]
    exact Core.getB_setF_self _ _ _ _ (by decide)

theorem Core.refclkReturn_spec (h : c.getB aTStat 1 = true) :
    c.refclkReturn.getB aTStat 1 = false ∧ c.refclkReturn.getB aTStat 0 = true ∧ Stated.OnlyReg c c.refclkReturn aTStat := by
  rw [show c.refclkReturn = (c.setF aTStat 1 1 0).setF aTStat 0 1 1 from if_pos h]
  refine ⟨?_, Core.getB_setF_self _ _ _ _ (by decide), fun b hb => ?_⟩
  · rw [Core.getB_setF_apart _ _ _ _ _ _ (by decide) (by decide)]
    exact Core.getB_setF_self _ _ _ _ (by decide)
  · rw [Core.rd_setF_ne _ _ _ _ hb, Core.rd_setF_ne _ _ _ _ hb]

/-! ### The time and the tick period -/

theorem Core.hTimeNowSet_takes (ha : a.view = .priv) (hfree : c.timeFree = true) (hv : pairOk v = true) :
    c.hTimeNowSet a v = { c with clk := { c.clk with setAt := some (pairN v (c.heldHi (pTime + 0x98)) * 2 ^ 16) } } := by
  simp only [Core.hTimeNowSet, isPriv_of_view ha, hfree, hv, Bool.not_true, Bool.or_false, Bool.false_eq_true, if_false]

theorem Core.hTimeNowSet_refuses (ha : a.view = .priv) (h : c.timeFree = false ∨ pairOk v = false) :
    c.hTimeNowSet a v = c.timeRej 0x90 v := by
  unfold Core.hTimeNowSet
  rw [if_neg (by simp [isPriv_of_view ha]), if_pos (by simpa using h)]

theorem Core.hTickPeriod_takes (ha : a.view = .priv) (hfree : c.timeFree = true) :
    c.hTickPeriod a v = c.setF (pTime + 0xC0) 0 2 v := by
  simp only [Core.hTickPeriod, isPriv_of_view ha, hfree, Bool.not_true, Bool.false_eq_true, if_false, if_true]

theorem Core.hTickPeriod_refuses (ha : a.view = .priv) (hfree : c.timeFree = false) : c.hTickPeriod a v = c.timeRej 0xC0 v := by
  simp only [Core.hTickPeriod, isPriv_of_view ha, hfree, Bool.not_true, Bool.false_eq_true, if_false]

theorem Core.tickP_of_getF {k : Nat} (h : c.getF (pTime + 0xC0) 0 2 = k) : c.tickP = 2 ^ k := by rw [Core.tickP, h]

/-! ### The commands -/

theorem timeIncrWrite_runs {s : State} {a : Access} {v : Word64} {P : Core → Prop} :
    Stated.Runs (.timeIncrWrite a v) s P ↔ P (s.core.hTimeIncr a v.toNat) := runs_iff rfl

theorem timeNowSet_runs {s : State} {a : Access} {v : Word64} {P : Core → Prop} :
    Stated.Runs (.timeNowSet a v) s P ↔ P (s.core.hTimeNowSet a v.toNat) := runs_iff rfl

theorem tickPeriodWrite_runs {s : State} {a : Access} {v : Word64} {P : Core → Prop} :
    Stated.Runs (.tickPeriodWrite a v) s P ↔ P (s.core.hTickPeriod a v.toNat) := runs_iff rfl

end

end Sys2Proof.Machine

open Sys2Proof Sys2Proof.Machine Sys2Proof.Stated

/-- Settles O21: each command through what its function does when taken and when refused. -/
theorem timeIsSteered : Obligations.TimeIsSteered := by
  refine ⟨fun s a v ha => ⟨fun hok => ?_, fun hout => ?_⟩, fun s a v ha hok => ?_, fun s hleft => ?_, fun s hon => ?_, fun s hoff => ?_,
    fun s a v ha => ⟨fun hfree hv => ?_, fun hno => ?_, fun hfree => ?_, fun hbusy => ?_⟩⟩
  · rw [timeIncrWrite_runs, Core.hTimeIncr_takes ha hok]
    refine ⟨?_, fun b hb => Core.rd_setF_ne _ _ _ _ hb⟩
    rw [Core.getF_setF_self _ _ _ _ _ (by decide), Nat.mod_mod]
  · rw [timeIncrWrite_runs, Core.hTimeIncr_refuses ha hout]
    exact ⟨Core.rd_timeRej_ne (by decide) (by unfold LogTouches; decide), Core.getB_timeRej⟩
  · refine (runs_iff (d := s.core.hTimeSlew a v.toNat) rfl).mpr ?_
    rw [Core.hTimeSlew_starts ha hok]
    exact Core.slewing_spec _
  · exact (runs_iff (d := s.core.slewEnd) rfl).mpr (Core.slewEnd_spec hleft)
  · exact (runs_iff (d := s.core.enterHoldover) rfl).mpr (Core.enterHoldover_spec hon)
  · exact (runs_iff (d := s.core.refclkReturn) rfl).mpr (Core.refclkReturn_spec hoff)
  · rw [timeNowSet_runs, Core.hTimeNowSet_takes ha hfree hv]
    exact ⟨rfl, rfl, rfl⟩
  · rw [timeNowSet_runs, Core.hTimeNowSet_refuses ha hno]
    exact ⟨changes_timeRej .clk (by decide), Core.getB_timeRej⟩
  · rw [tickPeriodWrite_runs, Core.hTickPeriod_takes ha hfree]
    exact ⟨Core.tickP_of_getF (Core.getF_setF_self _ _ _ _ _ (by decide)), fun b hb => Core.rd_setF_ne _ _ _ _ hb⟩
  · rw [tickPeriodWrite_runs, Core.hTickPeriod_refuses ha hbusy]
    exact ⟨congrArg (2 ^ ·) (Core.getF_of_rd (Core.rd_timeRej_ne (by decide) (by unfold LogTouches; decide))), Core.getB_timeRej⟩

end

