-- ==== Sys2Proof/Proofs/Launches.lean ====
section
/-! PROOF. Ford delays, the valley epoch and launches by valley count (R197, R200 to R203, R334). O22. -/

namespace Sys2Proof.Machine

section
variable {c : Core} {a : Access} {g v : Nat}

/-! ### FORD_DELAY -/

/-- FORD_DELAY of a region. -/
def aFord (g : Nat) : Nat := pTime + 0x140 + 8 * g

/-- The core in which a new delay is pending. -/
def Core.fordPending (c : Core) (g d : Nat) : Core := (c.setF (aFord g) 0 10 d).setF (aFord g) 10 1 1

theorem Core.hFordDelay_pends (ha : a.view = .priv) (hlo : v % 1024 = 0 ∨ 12 ≤ v % 1024) (hhi : v % 1024 ≤ 1000) :
    c.hFordDelay a g v = (c.fordPending g (v % 1024)).applyFord g := by
  unfold Core.hFordDelay
  dsimp only
  rw [if_neg (by simp [isPriv_of_view ha]), if_neg (by omega)]
  rfl

theorem Core.hFordDelay_refuses (ha : a.view = .priv) (h : (1 ≤ v % 1024 ∧ v % 1024 ≤ 11) ∨ 1000 < v % 1024) :
    c.hFordDelay a g v = c.timeRej (0x140 + 8 * g) v := by
  unfold Core.hFordDelay
  dsimp only
  rw [if_neg (by simp [isPriv_of_view ha]), if_pos h]

theorem Core.fordPending_spec (d : Nat) :
    (c.fordPending g d).getF (aFord g) 0 10 = d % 1024 ∧ (c.fordPending g d).getB (aFord g) 10 = true ∧
    (c.fordPending g d).getF (aFord g) 16 11 = c.getF (aFord g) 16 11 ∧ Stated.OnlyReg c (c.fordPending g d) (aFord g) := by
  unfold Core.fordPending
  refine ⟨?_, Core.getB_setF_self _ _ _ _ (by decide), ?_, fun b hb => ?_⟩
  · exact (Core.getF_setF_apart _ _ _ _ _ _ _ (by decide) (by decide)).trans (Core.getF_setF_self _ _ _ _ _ (by decide))
  · rw [Core.getF_setF_apart _ _ _ _ _ _ _ (by decide) (by decide), Core.getF_setF_apart _ _ _ _ _ _ _ (by decide) (by decide)]
  · rw [Core.rd_setF_ne _ _ _ _ hb, Core.rd_setF_ne _ _ _ _ hb]

theorem Core.rgn_fordPending (d h : Nat) : (c.fordPending g d).rgn h = c.rgn h :=
  Core.rgn_congr (by rw [Core.fordPending, Core.setF_rgns, Core.setF_rgns]) h

theorem Core.applyFord_busy (hbusy : (c.rgn g).quiet = false) : c.applyFord g = c := by
  unfold Core.applyFord
  dsimp only
  rw [if_neg (by simp [hbusy])]

/-- In a quiet region a pending delay comes into force. -/
theorem Core.applyFord_spec (hg : g < 8) (hquiet : (c.rgn g).quiet = true) (hpend : c.getB (aFord g) 10 = true) :
    (c.applyFord g).getF (aFord g) 16 11 = c.getF (aFord g) 0 10 ∧ (c.applyFord g).getF (aFord g) 0 10 = c.getF (aFord g) 0 10 ∧
    (c.applyFord g).getB (aFord g) 10 = false ∧ Stated.OnlyReg c (c.applyFord g) (aFord g) := by
  have happly : c.applyFord g = (c.setF (aFord g) 16 11 (c.getF (aFord g) 0 10)).setF (aFord g) 10 1 0 := if_pos ⟨hg, hquiet, hpend⟩
  have hlt : c.getF (aFord g) 0 10 < 2 ^ 11 := (c.getF_lt _ _ _).trans (by decide)
  rw [happly]
  refine ⟨?_, ?_, Core.getB_setF_self _ _ _ _ (by decide), fun b hb => ?_⟩
  · rw [Core.getF_setF_apart _ _ _ _ _ _ _ (by decide) (by decide), Core.getF_setF_self _ _ _ _ _ (by decide), Nat.mod_eq_of_lt hlt]
  · rw [Core.getF_setF_apart _ _ _ _ _ _ _ (by decide) (by decide), Core.getF_setF_apart _ _ _ _ _ _ _ (by decide) (by decide)]
  · rw [Core.rd_setF_ne _ _ _ _ hb, Core.rd_setF_ne _ _ _ _ hb]

/-! ### VALLEY_EPOCH -/

/-- The core with a new epoch. -/
def Core.withEpoch (c : Core) (v : Nat) : Core :=
  ((c.setF (pTime + 0x620) 16 30 (v / 2 ^ 16)).setF (pTime + 0x628) 0 48 (c.heldHi (pTime + 0x628))).showHi (pTime + 0x628) none

theorem Core.hEpoch_sets (ha : a.view = .priv) (hlaunch : c.pins.launchArmed = []) (hpub : c.key.pub = none) (harmed : c.key.pubArmed = [])
    (hupd : c.sec.armedAt = none) (hpwr : c.pwr.arm = none) (hfrac : v % 2 ^ 16 = 0) (hv : pairOk v = true) :
    c.hEpoch a v = c.withEpoch v := by
  unfold Core.hEpoch
  rw [if_neg (by simp [isPriv_of_view ha]), hpwr, if_neg (by simp [hlaunch, hpub, harmed, hupd, hfrac, hv, -Nat.reducePow])]
  rfl

theorem Core.epoch_withEpoch : (c.withEpoch v).epoch = c.heldHi (pTime + 0x628) % 2 ^ 48 * 10 ^ 9 + v / 2 ^ 16 % 2 ^ 30 := by
  have hshow (d : Core) : (d.showHi (pTime + 0x628) none).epoch = d.epoch := rfl
  rw [Core.withEpoch, hshow, Core.epoch, Core.getF_setF_self _ _ _ _ _ (by decide), Core.getF_setF_ne _ _ _ _ _ _ (by decide),
    Core.getF_setF_self _ _ _ _ _ (by decide)]

/-! ### LAUNCH_AT -/

/-- LAUNCH_AT of a region. -/
def aLaunch (g : Nat) : Nat := pTime + 0x100 + 8 * g

/-- The core in which a list of regions is armed for launch. -/
def Core.withArmed (c : Core) (gs : List Nat) : Core := { c with pins := { c.pins with launchArmed := gs } }

theorem Core.rd_withArmed (gs : List Nat) (b : Nat) : (c.withArmed gs).rd b = c.rd b := rfl

/-- The core in which region `g` is no longer armed. -/
def Core.disarmed (c : Core) (g : Nat) : Core := c.withArmed (c.pins.launchArmed.filter (· ≠ g))

theorem Core.not_mem_disarmed : g ∉ (c.disarmed g).pins.launchArmed := by simp [Core.disarmed, Core.withArmed]

theorem Core.hLaunchAt_disarms (ha : a.view = .priv) : c.hLaunchAt a g 0 = (c.wr (aLaunch g) 0).disarmed g := by
  unfold Core.hLaunchAt
  rw [if_neg (by simp [isPriv_of_view ha]), if_pos rfl]
  rfl

theorem Core.hLaunchAt_arms (ha : a.view = .priv) (hv : c.valley < v) :
    c.hLaunchAt a g v = (c.wr (aLaunch g) v).withArmed (insertNat g c.pins.launchArmed) := by
  unfold Core.hLaunchAt
  rw [if_neg (by simp [isPriv_of_view ha]), if_neg (by omega), if_neg (by omega)]
  rfl

theorem Core.hLaunchAt_misses (ha : a.view = .priv) (h0 : v ≠ 0) (hv : v ≤ c.valley) : c.hLaunchAt a g v = c.launchMissed := by
  unfold Core.hLaunchAt
  rw [if_neg (by simp [isPriv_of_view ha]), if_neg h0, if_pos hv]

/-- A launch that is missed shows in TIME_STAT and as an event. -/
theorem Core.launchMissed_shown : c.launchMissed.getB aTStat 2 = true ∧ c.launchMissed.getB (pTime + 0x38) 9 = true := by
  unfold Core.launchMissed
  exact ⟨(Core.getB_of_rd (Core.rd_event_ne _ _ (by decide))).trans (Core.getB_raiseF_self _ _ _ (by decide)),
    Core.getB_event_self _ _ _ (by decide)⟩

theorem Core.rd_launchMissed_ne {b : Nat} (hstat : b ≠ aTStat) (hpend : b ≠ pTime + 0x38) : c.launchMissed.rd b = c.rd b :=
  (Core.rd_event_ne _ _ hpend).trans (Core.rd_raiseF_ne hstat)

theorem Core.pins_launchMissed : c.launchMissed.pins = c.pins := changes_launchMissed .pins (by decide)

/-! ### A launch -/

/-- A region that starts from its first tick. -/
def Rgn.launched (r : Rgn) (g0 first : Nat) : Rgn :=
  { r with phase := .running, faultKind := 0, sched := 0, stall := [], stallLen := 0, stallFc := 0, g0 := g0, firstTick := first,
           admitted := 0, relSlot := 0, relPos := 0, relCount := 0, heldAt := 0, lateAt := 0, latePrev := 0, egressClosed := false,
           iters := [], sect := 0, cursor := none, swapHold := none, swapNext := none, pendSect := [], setFrom := none }

/-- A launch starts its region, changes no other, and of the registers only those of the region's latencies. -/
theorem Core.launchRgn_spec (c : Core) (g g0 first : Nat) :
    (c.launchRgn g g0 first).rgn g = (c.rgn g).launched g0 first ∧
    (∀ h, h ≠ g → (c.launchRgn g g0 first).rgn h = c.rgn h) ∧
    ∀ b, b < pRgn 0 → (c.launchRgn g g0 first).rd b = c.rd b := by
  unfold Core.launchRgn
  extract_lets d old _ e f r
  have he : Changes [.sep, .ford, .fab] c e := ((changes_restartCells.trans changes_resolveAll).trans (.put .ford)).mono rfl
  have hold (h : Nat) : e.rgn h = c.rgn h := Core.rgn_congr (he .rgns (by decide)) h
  have hwr (x : Core) (n k h : Nat) : (x.wr n k).rgn h = x.rgn h := rfl
  simp only [hwr]
  refine ⟨?_, fun h hne => ?_, fun b hb => ?_⟩
  · rw [show f.rgn g = _ from Core.rgn_modRgn_self .., hold]
    rfl
  · rw [show f.rgn h = _ from Core.rgn_modRgn_ne _ _ hne, hold]
  · have hr : pRgn 0 ≤ r := by unfold r pRgn; omega
    rw [Core.rd_wr_ne _ _ (by omega), Core.rd_wr_ne _ _ (by omega), Core.rd_wr_ne _ _ (by omega), Core.rd_wr_ne _ _ (by omega)]
    exact Core.rd_congr (he .regs (by decide)) b

theorem Core.pins_launchRgn {g0 first : Nat} : (c.launchRgn g g0 first).pins = c.pins := changes_launchRgn .pins (by decide)

/-- A launch that is due, by what becomes of it. -/
theorem Core.launch_due (harmed : g ∈ c.pins.launchArmed) (hdue : c.valleyDue (c.rd (aLaunch g)) = true) :
    c.launch g = if c.barNames g then c.disarmed g
      else if c.launchable g then (c.disarmed g).launchRgn g (nsN (c.epoch + c.rd (aLaunch g))) (c.launchTick g)
      else (c.disarmed g).launchMissed := by
  unfold Core.launch
  dsimp only
  rw [if_neg]
  · rfl
  · have hc : c.valleyDue (c.rd (pTime + 0x100 + 8 * g)) = true := hdue
    simp [harmed, hc]

/-! ### The commands -/

theorem fordDelayWrite_runs {s : State} {v : Word64} {P : Core → Prop} :
    Stated.Runs (.fordDelayWrite a g v) s P ↔ P (s.core.hFordDelay a g v.toNat) := runs_iff rfl

theorem launchAtWrite_runs {s : State} {v : Word64} {P : Core → Prop} :
    Stated.Runs (.launchAtWrite a g v) s P ↔ P (s.core.hLaunchAt a g v.toNat) := runs_iff rfl

theorem launch_runs {s : State} {P : Core → Prop} : Stated.Runs (.launch g) s P ↔ P (s.core.launch g) := runs_iff rfl

end

section
variable {s : State} {a : Access} {g : Nat} {v : Word64} (ha : a.view = .priv)
include ha

/-- FORD_DELAY in range, of a quiet region and of another. -/
theorem fordDelayWrite_taken (hg : g < 8) (hlo : v.toNat % 1024 = 0 ∨ 12 ≤ v.toNat % 1024) (hhi : v.toNat % 1024 ≤ 1000) :
    ((s.core.rgn g).quiet = true → Stated.Runs (.fordDelayWrite a g v) s fun c =>
      c.getF (aFord g) 16 11 = v.toNat % 1024 ∧ c.getF (aFord g) 0 10 = v.toNat % 1024 ∧ c.getB (aFord g) 10 = false ∧
      Stated.OnlyReg s.core c (aFord g)) ∧
    ((s.core.rgn g).quiet = false → Stated.Runs (.fordDelayWrite a g v) s fun c =>
      c.getF (aFord g) 16 11 = s.core.getF (aFord g) 16 11 ∧ c.getF (aFord g) 0 10 = v.toNat % 1024 ∧ c.getB (aFord g) 10 = true ∧
      Stated.OnlyReg s.core c (aFord g)) := by
  obtain ⟨hnext, hpend, hforce, honly⟩ := Core.fordPending_spec (c := s.core) (g := g) (v.toNat % 1024)
  rw [Nat.mod_mod] at hnext
  rw [fordDelayWrite_runs, fordDelayWrite_runs, Core.hFordDelay_pends ha hlo hhi, ← Core.rgn_fordPending (v.toNat % 1024)]
  refine ⟨fun hquiet => ?_, fun hbusy => ?_⟩
  · obtain ⟨h1, h2, h3, h4⟩ := Core.applyFord_spec hg hquiet hpend
    exact ⟨h1.trans hnext, h2.trans hnext, h3, fun b hb => (h4 b hb).trans (honly b hb)⟩
  · rw [Core.applyFord_busy hbusy]
    exact ⟨hforce, hnext, hpend, honly⟩

/-- LAUNCH_AT of zero, of a count to come and of one that has passed. -/
theorem launchAtWrite_cases :
    (v.toNat = 0 → Stated.Runs (.launchAtWrite a g v) s fun c => g ∉ c.pins.launchArmed ∧ c.rd (aLaunch g) = 0) ∧
    (s.core.valley < v.toNat → Stated.Runs (.launchAtWrite a g v) s fun c =>
      g ∈ c.pins.launchArmed ∧ c.rd (aLaunch g) = v.toNat) ∧
    (v.toNat ≠ 0 → v.toNat ≤ s.core.valley → Stated.Runs (.launchAtWrite a g v) s fun c =>
      c.pins = s.core.pins ∧ c.getB aTStat 2 = true ∧ c.getB (pTime + 0x38) 9 = true) := by
  rw [launchAtWrite_runs, launchAtWrite_runs, launchAtWrite_runs]
  refine ⟨fun hzero => ?_, fun hahead => ?_, fun h0 hpast => ?_⟩
  · rw [hzero, Core.hLaunchAt_disarms ha]
    refine ⟨Core.not_mem_disarmed, ?_⟩
    rw [Core.disarmed, Core.rd_withArmed, Core.rd_wr_self, Nat.zero_mod]
  · rw [Core.hLaunchAt_arms ha hahead]
    refine ⟨mem_insertNat.mpr (.inl rfl), ?_⟩
    rw [Core.rd_withArmed, Core.rd_wr_self, Nat.mod_eq_of_lt v.isLt]
  · rw [Core.hLaunchAt_misses ha h0 hpast]
    exact ⟨Core.pins_launchMissed, Core.launchMissed_shown⟩

end

end Sys2Proof.Machine

open Sys2Proof Sys2Proof.Machine Sys2Proof.Stated

/-- Settles O22: each register by what its write leaves, and a due launch by what becomes of it. -/
theorem launchesAndDelays : Obligations.LaunchesAndDelays := by
  refine ⟨fun s a g v ha hg => ⟨fun hlo hhi => (fordDelayWrite_taken ha hg hlo hhi).1,
    fun hlo hhi => (fordDelayWrite_taken ha hg hlo hhi).2, fun hout => ?_⟩, fun s a v ha hlaunch hpub harmed hupd hpwr hfrac hv => ?_, fun s a g v ha _ => launchAtWrite_cases ha,
    fun s g harmed hdue => ?_⟩
  · rw [fordDelayWrite_runs, Core.hFordDelay_refuses ha hout]
    have hne : aFord g ≠ pTime + 0x200 ∧ ¬ LogTouches pTime (aFord g) := by unfold LogTouches aFord; omega
    exact ⟨Core.rd_timeRej_ne hne.1 hne.2, Core.getB_timeRej⟩
  · refine (runs_iff (d := s.core.hEpoch a v.toNat) rfl).mpr ?_
    rw [Core.hEpoch_sets ha hlaunch hpub harmed hupd hpwr hfrac hv]
    exact Core.epoch_withEpoch
  · rw [launch_runs, launch_runs, launch_runs, Core.launch_due harmed hdue]
    obtain ⟨hself, hother, -⟩ := (s.core.disarmed g).launchRgn_spec g (nsN (s.core.epoch + s.core.rd (aLaunch g))) (s.core.launchTick g)
    refine ⟨fun hbar => ?_, fun hbar hok => ?_, fun hbar hno => ?_⟩
    · rw [if_pos hbar]
      exact ⟨Core.not_mem_disarmed, rfl, rfl⟩
    · rw [if_neg (by simp [hbar]), if_pos hok, hself, Core.pins_launchRgn]
      exact ⟨Core.not_mem_disarmed, rfl, rfl, rfl, rfl, rfl, rfl, hother⟩
    · rw [if_neg (by simp [hbar]), if_neg (by simp [hno])]
      rw [Core.pins_launchMissed]
      exact ⟨Core.not_mem_disarmed, changes_launchMissed .rgns (by decide), Core.launchMissed_shown.1⟩

end

