-- ==== Sys2Proof/Proofs/Barrier.lean ====
section
/-! PROOF. The barrier: armed, gathered, released and launched (R206). O25. -/

namespace Sys2Proof.Machine

section
variable {c : Core} {a : Access} {l k v : Nat}

/-! ### What its registers show -/

theorem Core.sendBarrier_regs (n : Nat) : (c.sendBarrier n).regs = c.regs := changes_sendBarrier .regs (by decide)

/-- The core whose barrier launches at a fabric cycle, or at none. -/
def Core.withBarDue (c : Core) (d : Option Nat) : Core := { c with pins := { c.pins with barDue := d } }

theorem Core.getF_withBarDue (d : Option Nat) (b lo w : Nat) : (c.withBarDue d).getF b lo w = c.getF b lo w := rfl

/-- A barrier for which a lane in LANES has not sent its K28.3 stays as it is. -/
theorem Core.barProgress_waits (h : c.getF aBarStat 2 16 &&& c.getF aBar 1 16 ≠ c.getF aBar 1 16) : c.barProgress = c := by
  unfold Core.barProgress
  dsimp only
  rw [if_neg fun hall => h hall.2]

/-- A barrier that goes on changes the state in TIME_BAR_STAT, not the lanes noted there. -/
theorem Core.getB_barProgress (hk : 2 ≤ k) : c.barProgress.getB aBarStat k = c.getB aBarStat k := by
  have hstate : (c.setF aBarStat 0 2 2).getB aBarStat k = c.getB aBarStat k :=
    Core.getB_setF_apart _ _ _ _ _ _ (by decide) (.inr hk)
  unfold Core.barProgress
  extract_lets want d
  split
  · split
    · exact hstate
    · exact (Core.getB_of_rd (Core.rd_congr (Core.sendBarrier_regs _) _)).trans hstate
  · rfl

/-! ### Arming -/

/-- The core with the settings of TIME_BAR_CTRL. -/
def Core.barSettings (c : Core) (v : Nat) : Core :=
  (((c.setF aBar 1 16 (v / 2)).setF aBar 17 1 (v / 2 ^ 17)).setF aBar 18 16 (v / 2 ^ 18)).setF aBar 34 8 (v / 2 ^ 34)

theorem Core.barSettings_spec :
    (c.barSettings v).getF aBar 1 16 = v / 2 % 2 ^ 16 ∧ (c.barSettings v).getF aBar 18 16 = v / 2 ^ 18 % 2 ^ 16 ∧
    (c.barSettings v).getF aBar 34 8 = v / 2 ^ 34 % 2 ^ 8 ∧ ∀ b, b ≠ aBar → (c.barSettings v).rd b = c.rd b := by
  unfold Core.barSettings
  refine ⟨?_, ?_, Core.getF_setF_self _ _ _ _ _ (by decide), fun b hb => ?_⟩
  · rw [Core.getF_setF_apart _ _ _ _ _ _ _ (by decide) (by decide), Core.getF_setF_apart _ _ _ _ _ _ _ (by decide) (by decide),
      Core.getF_setF_apart _ _ _ _ _ _ _ (by decide) (by decide), Core.getF_setF_self _ _ _ _ _ (by decide)]
  · rw [Core.getF_setF_apart _ _ _ _ _ _ _ (by decide) (by decide), Core.getF_setF_self _ _ _ _ _ (by decide)]
  · rw [Core.rd_setF_ne _ _ _ _ hb, Core.rd_setF_ne _ _ _ _ hb, Core.rd_setF_ne _ _ _ _ hb, Core.rd_setF_ne _ _ _ _ hb]

/-- The core with an armed barrier. -/
def Core.barArmed (c : Core) (v : Nat) : Core := ((c.barSettings v).setF aBar 0 1 1).setF aBarStat 0 2 1

theorem Core.hBarrier_priv (ha : a.view = .priv) : c.hBarrier a v =
    (let d := c.barSettings v
     if bit v 0 && (d.getF aBarStat 0 2 = 0 || (d.getF aBarStat 0 2 = 3 && d.pins.barDue.isNone)) then
      ((d.setF aBar 0 1 1).setF aBarStat 0 2 1).barProgress
    else d) := by
  unfold Core.hBarrier
  exact if_neg (by simp [isPriv_of_view ha])

theorem Core.hBarrier_arms (ha : a.view = .priv) (hv : bit v 0 = true) (hidle : c.getF aBarStat 0 2 = 0) :
    c.hBarrier a v = (c.barArmed v).barProgress := by
  obtain ⟨-, -, -, hrd⟩ := Core.barSettings_spec (c := c) (v := v)
  have hstat : (c.barSettings v).getF aBarStat 0 2 = 0 := (Core.getF_of_rd (hrd _ (by decide))).trans hidle
  rw [Core.hBarrier_priv ha]
  dsimp only
  rw [if_pos (by rw [hstat, hv]; rfl), Core.barArmed]

theorem Core.barArmed_spec :
    (c.barArmed v).getB aBar 0 = true ∧ (c.barArmed v).getF aBar 1 16 = v / 2 % 2 ^ 16 ∧
    (c.barArmed v).getF aBar 18 16 = v / 2 ^ 18 % 2 ^ 16 ∧ (c.barArmed v).getF aBar 34 8 = v / 2 ^ 34 % 2 ^ 8 ∧
    (c.barArmed v).getF aBarStat 0 2 = 1 ∧ (c.barArmed v).getF aBarStat 2 16 = c.getF aBarStat 2 16 ∧ (c.barArmed v).out = c.out := by
  obtain ⟨hlanes, hhold, hrgns, hrd⟩ := Core.barSettings_spec (c := c) (v := v)
  have hfield {lo w : Nat} (hlo : 1 ≤ lo) : (c.barArmed v).getF aBar lo w = (c.barSettings v).getF aBar lo w := by
    rw [Core.barArmed, Core.getF_setF_ne _ _ _ _ _ _ (by decide), Core.getF_setF_apart _ _ _ _ _ _ _ (by decide) (.inr hlo)]
  refine ⟨?_, (hfield (by decide)).trans hlanes, (hfield (by decide)).trans hhold, (hfield (by decide)).trans hrgns,
    Core.getF_setF_self _ _ _ _ _ (by decide), ?_, ?_⟩
  · rw [Core.barArmed, Core.getB_setF_ne (by decide), Core.getB_setF_self _ _ _ _ (by decide)]
    rfl
  · rw [Core.barArmed, Core.getF_setF_apart _ _ _ _ _ _ _ (by decide) (by decide), Core.getF_setF_ne _ _ _ _ _ _ (by decide),
      Core.getF_of_rd (hrd _ (by decide))]
  · rw [Core.barArmed, Core.setF_out, Core.setF_out, Core.barSettings, Core.setF_out, Core.setF_out, Core.setF_out, Core.setF_out]

/-! ### A K28.3 -/

theorem Core.barrierToken_gathers (hup : 2 ≤ c.laneState l) (hroot : c.getB aBar 17 = true) (hnamed : c.getB aBar (1 + l) = true) :
    c.barrierToken l = (c.setF aBarStat (2 + l) 1 1).barProgress := by
  unfold Core.barrierToken
  dsimp only
  rw [if_neg (by omega), if_neg (by simp [hroot]), if_pos hnamed]

theorem Core.barrierToken_releases (hup : 2 ≤ c.laneState l) (hfollower : c.getB aBar 17 = false)
    (hlink : l = c.getF (pTime + 0x230) 5 4) (harmed : c.getF aBarStat 0 2 = 1 ∨ c.getF aBarStat 0 2 = 2) :
    c.barrierToken l = c.barRelease := by
  unfold Core.barrierToken
  dsimp only
  rw [if_neg (by omega), if_pos (by simp [hfollower, hlink]), if_pos harmed]

/-- A release shows in TIME_BAR_STAT, and the launch is due HOLD fc later. -/
theorem Core.barRelease_spec :
    c.barRelease.getF aBarStat 0 2 = 3 ∧ c.barRelease.pins.barDue = some (c.clk.fc + c.getF aBar 18 16) := by
  unfold Core.barRelease
  extract_lets d
  have hclk : d.clk = c.clk :=
    (changes_sendBarrier.trans changes_setF : Changes ([.out] ++ [.regs]) c d) .clk (by decide)
  have hhold : d.getF aBar 18 16 = c.getF aBar 18 16 :=
    (Core.getF_setF_ne _ _ _ _ _ _ (by decide)).trans (Core.getF_congr (Core.sendBarrier_regs _) _ _ _)
  refine ⟨?_, by rw [hclk, hhold]⟩
  exact (Core.getF_withBarDue (c := d.setF aBar 0 1 0) _ _ _ _).trans <|
    (Core.getF_setF_ne _ _ _ _ _ _ (by decide)).trans (Core.getF_setF_self _ _ _ _ _ (by decide))

/-! ### The launch -/

theorem mem_maskBits {n g : Nat} : g ∈ maskBits n v ↔ g < n ∧ bit v g = true := by
  rw [maskBits, List.mem_filter, List.mem_range]

theorem nodup_maskBits {n : Nat} : (maskBits n v).Nodup := List.nodup_range.filter _

/-- One region of a barrier's launch at tick `t`. -/
def Core.barStart (c : Core) (t g : Nat) : Core :=
  if c.launchable g then c.launchRgn g (t * nsN c.tickP) (t % 2 ^ 64) else c.launchMissed

theorem Core.launchable_congr {d : Core} {g : Nat} (hr : d.rgn g = c.rgn g) (hsafe : d.safe = c.safe) (hclk : d.clk = c.clk)
    (hpwr : d.pwr = c.pwr) (hsec : d.sec = c.sec) : d.launchable g = c.launchable g := by
  simp only [Core.launchable, Core.fabricOn, Core.inReset, hr, hsafe, hclk, hpwr, hsec]

/-- Starting one region leaves the others, and whether they may be launched. -/
theorem Core.barStart_other {t g h : Nat} (hne : h ≠ g) :
    (c.barStart t g).rgn h = c.rgn h ∧ (c.barStart t g).launchable h = c.launchable h := by
  have hkept : Changes [.regs, .cyc, .notices, .sep, .ford, .fab, .rgns] c (c.barStart t g) :=
    .ite (changes_launchRgn.mono rfl) (changes_launchMissed.mono rfl)
  have hboth : (c.barStart t g).rgn h = c.rgn h ∧ (c.barStart t g).rd (pFlt + 0x80) = c.rd (pFlt + 0x80) := by
    unfold Core.barStart
    split
    · obtain ⟨-, hother, hrd⟩ := c.launchRgn_spec g (t * nsN c.tickP) (t % 2 ^ 64)
      exact ⟨hother h hne, hrd _ (by decide)⟩
    · exact ⟨Core.rgn_congr (changes_launchMissed .rgns (by decide)) h, Core.rd_launchMissed_ne (by decide) (by decide)⟩
  exact ⟨hboth.1, Core.launchable_congr hboth.1 (Core.safe_congr hboth.2) (hkept .clk (by decide)) (hkept .pwr (by decide))
    (hkept .sec (by decide))⟩

theorem Core.barStart_self {t g : Nat} (h : c.launchable g = true) :
    ((c.barStart t g).rgn g).phase = .running ∧ ((c.barStart t g).rgn g).sched = 0 := by
  rw [Core.barStart, if_pos h, (c.launchRgn_spec g _ _).1]
  exact ⟨rfl, rfl⟩

/-- The regions of a barrier, started one after another. -/
def Core.barStarts (c : Core) (t : Nat) (gs : List Nat) : Core := gs.foldl (fun c g => c.barStart t g) c

theorem Core.rgn_barStarts {t h : Nat} {gs : List Nat} (hh : h ∉ gs) : (c.barStarts t gs).rgn h = c.rgn h := by
  induction gs generalizing c with
  | nil => rfl
  | cons g gs ih =>
    obtain ⟨hne, hgs⟩ := List.ne_and_not_mem_of_not_mem_cons hh
    exact (ih hgs).trans (Core.barStart_other hne).1

/-- Every region of the list that may be launched runs from its first tick. -/
theorem Core.barStarts_run {t h : Nat} {gs : List Nat} (hn : gs.Nodup) (hh : h ∈ gs) (hok : c.launchable h = true) :
    ((c.barStarts t gs).rgn h).phase = .running ∧ ((c.barStarts t gs).rgn h).sched = 0 := by
  induction gs generalizing c with
  | nil => cases hh
  | cons g gs ih =>
    obtain ⟨hg, hn⟩ := List.nodup_cons.mp hn
    rw [show c.barStarts t (g :: gs) = (c.barStart t g).barStarts t gs from rfl]
    rcases List.mem_cons.mp hh with rfl | hh
    · rw [Core.rgn_barStarts hg]
      exact Core.barStart_self hok
    · have hne : h ≠ g := fun e => hg (e ▸ hh)
      exact ih hn hh ((Core.barStart_other hne).2.trans hok)

/-- At its cycle a barrier starts the regions it names, and holds nothing any more. -/
theorem Core.barrierLaunch_due {d : Nat} (hd : c.pins.barDue = some d) (hdue : d ≤ c.clk.fc) :
    c.barrierLaunch =
      ((c.barStarts (c.now / nsN c.tickP) (maskBits 8 (c.getF aBar 34 8))).setF aBarStat 2 16 0).withBarDue none := by
  unfold Core.barrierLaunch
  rw [hd]
  dsimp only
  rw [if_neg (by omega)]
  rfl

end

/-! ### The commands -/

section
variable {s : State}

theorem barrierArm_arms {a : Access} {v : Word64} (ha : a.view = .priv) (hv : bit v.toNat 0 = true)
    (hidle : s.core.getF aBarStat 0 2 = 0) (hnone : s.core.getF aBarStat 2 16 = 0) (hlanes : v.toNat / 2 % 2 ^ 16 ≠ 0) {P : Core → Prop} :
    Stated.Runs (.barrierArm a v) s P ↔ P (s.core.barArmed v.toNat) := by
  obtain ⟨-, hwant, -, -, -, hgot, -⟩ := Core.barArmed_spec (c := s.core) (v := v.toNat)
  refine (runs_iff (d := s.core.hBarrier a v.toNat) rfl).trans ?_
  rw [Core.hBarrier_arms ha hv hidle, Core.barProgress_waits]
  rw [hgot, hnone, hwant, Nat.zero_and]
  exact hlanes.symm

theorem barrierTokenReceive_runs {l : Nat} {P : Core → Prop} :
    Stated.Runs (.barrierTokenReceive l) s P ↔ P (s.core.barrierToken l) := runs_iff rfl

/-- BARRIER_LAUNCH at its cycle. -/
theorem barrierLaunch_launches {d : Nat} (hd : s.core.pins.barDue = some d) (hdue : d ≤ s.core.clk.fc) :
    Stated.Runs .barrierLaunch s fun c => c.pins.barDue = none ∧ c.getF aBarStat 2 16 = 0 ∧
      ∀ g, bit (s.core.getF aBar 34 8) g = true → g < 8 → s.core.launchable g = true →
        (c.rgn g).phase = .running ∧ (c.rgn g).sched = 0 := by
  refine (runs_iff (d := s.core.barrierLaunch) rfl).mpr ?_
  rw [Core.barrierLaunch_due hd hdue]
  refine ⟨rfl, ?_, fun g hbit hg hok => ?_⟩
  · rw [Core.getF_withBarDue]
    exact Core.getF_setF_self _ _ _ _ _ (by decide)
  · exact Core.barStarts_run nodup_maskBits (mem_maskBits.mpr ⟨hg, hbit⟩) hok

end

end Sys2Proof.Machine

open Sys2Proof Sys2Proof.Machine Sys2Proof.Stated

/-- Settles O25: arming waits for the lanes named, a K28.3 is noted or releases, and the launch starts each region in turn. -/
theorem barrierLaunches : Obligations.BarrierLaunches := by
  refine ⟨fun s a v ha hv hidle hnone hlanes => ?_, fun s l hl hup hroot hnamed => ?_, fun s l hup hfollower hlink harmed => ?_,
    fun s d hd hdue => barrierLaunch_launches hd hdue⟩
  · rw [barrierArm_arms ha hv hidle hnone hlanes]
    obtain ⟨harm, hwant, hhold, hrgns, hstate, -, hout⟩ := Core.barArmed_spec (c := s.core) (v := v.toNat)
    exact ⟨harm, hwant, hhold, hrgns, hstate, hout⟩
  · rw [barrierTokenReceive_runs, Core.barrierToken_gathers hup hroot hnamed, Core.getB_barProgress (by omega)]
    exact Core.getB_setF_self _ _ _ _ (by omega)
  · rw [barrierTokenReceive_runs, Core.barrierToken_releases hup hfollower hlink harmed]
    exact Core.barRelease_spec

end

