-- ==== Sys2Proof/Proofs/TimePins.lean ====
section
/-! PROOF. The TIN pins and their FIFOs, and the edges of the TOUT outputs (R187, R189, R209). O23. -/

namespace Sys2Proof.Machine

section
variable {c d : Core} {i n phi held : Nat} {level : Bool}

/-! ### TIN -/

/-- The core whose pin `i` has taken a level. -/
def Core.tinSettled (c : Core) (i : Nat) (level : Bool) : Core :=
  { c with pins := { c.pins with tin := Store.set c.pins.tin false i level } }

/-- The time of an edge of pin `i`, to an eighth of a time-unit cycle. -/
def Core.tinTime (c : Core) (i phi : Nat) : Nat := adjust (c.at_ (phi / 2 ^ 13 * 2 ^ 13)) (signed 32 (c.getF (aTin i) 32 32))

theorem Core.tinTime_tinSettled : (c.tinSettled i level).tinTime i phi = c.tinTime i phi := by
  have hregs : (c.tinSettled i level).regs = c.regs := rfl
  have hat (x : Nat) : (c.tinSettled i level).at_ x = c.at_ x := Core.at_congr rfl (fun b _ => Core.rd_congr hregs b) x
  rw [Core.tinTime, hat, Core.getF_congr hregs, Core.tinTime]

theorem Core.tinPush_pins_congr (h : d.pins = c.pins) : (d.tinPush i n level).pins = (c.tinPush i n level).pins := by
  unfold Core.tinPush
  dsimp only
  rw [h]
  split <;> rfl

/-- An edge enters a FIFO that has room at its end. -/
theorem Core.tinPush_room (h : (Store.get c.pins.tinFifo [] i).length < 16) :
    (c.tinPush i n level).pins.tin = c.pins.tin ∧ Store.get (c.tinPush i n level).pins.tinFifo [] i =
      Store.get c.pins.tinFifo [] i ++ [⟨n, b2n level, c.pins.tinOvf.contains i⟩] := by
  unfold Core.tinPush
  dsimp only
  rw [if_neg (by omega)]
  exact ⟨rfl, Store.get_set_self ..⟩

section
variable (hnew : Store.get c.pins.tin false i ≠ level) (hon : c.getB (aTin i) 0 = true)
include hnew hon

/-- Of the pins, a selected edge changes the level and the FIFO: its observation, its event word and PPS are elsewhere. -/
theorem Core.tinEdge_accepted (hheld : 32 ≤ held) (hwanted : edgeWanted (c.getF (aTin i) 1 2) level = true) :
    (c.tinEdge i phi level held).pins = ((c.tinSettled i level).tinPush i (c.tinTime i phi) level).pins := by
  unfold Core.tinEdge
  extract_lets r _ d t e f
  have hset : d = c.tinSettled i level := rfl
  have htime : t = c.tinTime i phi := by
    rw [← Core.tinTime_tinSettled (level := level)]
    rfl
  have hd (b lo w : Nat) : d.getF b lo w = c.getF b lo w := rfl
  have he : e.pins = d.pins ∧ e.getF r 1 2 = d.getF r 1 2 := by
    unfold e
    split
    case isTrue hpps =>
      have hne : r ≠ pTime + 0x600 := by unfold r aTin; omega
      exact ⟨(Core.mark_pins ..).trans (Core.wr_pins ..), (Core.getF_mark ..).trans (Core.getF_wr_ne _ _ _ _ hne)⟩
    case isFalse => exact ⟨rfl, rfl⟩
  have hf : f.pins = ((c.tinSettled i level).tinPush i (c.tinTime i phi) level).pins := by
    unfold f
    rw [Core.observe_pins, Core.tinPush_pins_congr he.1, hset, htime]
  rw [if_neg hnew, if_neg (by omega), if_neg (by rw [Core.getB_eq_getF, hd, ← Core.getB_eq_getF]; simp [r, hon]),
    if_neg (by rw [he.2, hd]; simp [r, hwanted])]
  split
  · exact (changes_pinEvent .pins (by decide)).trans hf
  · exact hf

/-- A pulse that is too short is counted. -/
theorem Core.tinEdge_short (hheld : held < 32) : c.tinEdge i phi level held = c.bump (pTime + 0x5E0 + 8 * i) := by
  unfold Core.tinEdge
  dsimp only
  rw [if_neg hnew, if_pos hheld, if_pos hon]

end

/-- A latched value, as a later read shows it. -/
theorem Core.latched_latch (a v : Nat) : (Store.get (c.latch a v).latched 0 a).toNat = v % 2 ^ 64 := by
  rw [Core.latch, Store.get_set_self, BitVec.toNat_ofNat]

theorem Core.latched_latch_ne {a r v : Nat} (h : r ≠ a) : Store.get (c.latch a v).latched 0 r = Store.get c.latched 0 r :=
  Store.get_set_ne _ _ _ h

/-- A read of a FIFO takes its oldest entry and latches its seconds. -/
theorem Core.tinPop_spec {e : Stamp} {t : List Stamp} (h : Store.get c.pins.tinFifo [] i = e :: t) :
    Store.get (c.tinPop i).pins.tinFifo [] i = t ∧ (Store.get (c.tinPop i).latched 0 (pTime + 0x5A8 + 0x10 * i)).toNat =
      (timeHi e.n + 2 ^ 48 + e.info % 2 * 2 ^ 49 + b2n e.ovf * 2 ^ 50) % 2 ^ 64 := by
  unfold Core.tinPop
  dsimp only
  rw [h]
  exact ⟨Store.get_set_self .., Core.latched_latch _ _⟩

end

/-! ### TOUT -/

section
variable {c : Core} {a : Access} {j v w : Nat}

theorem Core.tout_setTout (x : Tout) : (c.setTout j x).tout j = x := Store.get_set_self ..

/-- The core with the settings of TOUT_CTRL. -/
def Core.toutSettings (c : Core) (j v : Nat) : Core :=
  ((c.clearF (aTout j + 0x18) 35 1 (v / 2 ^ 35)).setF (aTout j + 0x18) 0 3 v).setF (aTout j + 0x18) 3 32 (v / 8 % 2 ^ 32)

theorem Core.toutSettings_spec :
    (c.toutSettings j v).getF (aTout j + 0x18) 3 32 = v / 8 % 2 ^ 32 ∧
    ∀ b, b ≠ aTout j + 0x18 → (c.toutSettings j v).rd b = c.rd b := by
  unfold Core.toutSettings
  refine ⟨?_, fun b hb => ?_⟩
  · rw [Core.getF_setF_self _ _ _ _ _ (by decide), Nat.mod_mod]
  · rw [Core.rd_setF_ne _ _ _ _ hb, Core.rd_setF_ne _ _ _ _ hb]
    exact Core.rd_setF_ne _ _ _ _ hb

theorem Core.now_toutSettings : (c.toutSettings j v).now = c.now := by
  refine Core.now_congr ?_ fun b hb => Core.toutSettings_spec.2 b (by unfold aTout; omega)
  exact (changes_clearF.trans (changes_setF.trans changes_setF) : Changes ([.regs] ++ ([.regs] ++ [.regs])) c (c.toutSettings j v))
    .clk (by decide)

theorem Core.hTout_once (ha : a.view = .priv) (hw : 2 ≤ v / 8 % 2 ^ 32) (hmode : v % 4 = 1) :
    c.hTout a j v = (c.toutSettings j v).armTout j 1 (v / 8 % 2 ^ 32) := by
  unfold Core.hTout
  dsimp only
  rw [if_neg (by simp [isPriv_of_view ha]), hmode, if_neg (by omega)]
  rfl

theorem Core.hTout_refuses (ha : a.view = .priv) (hw : v / 8 % 2 ^ 32 < 2) : c.hTout a j v = c.timeRej (0x518 + 0x20 * j) v := by
  unfold Core.hTout
  dsimp only
  rw [if_neg (by simp [isPriv_of_view ha]), if_pos (.inl hw)]

/-- The start that an output's registers name. -/
def Core.toutStart (c : Core) (j : Nat) : Nat := pairN (c.rd (aTout j)) (c.rd (aTout j + 8))

/-- An output armed once for an instant that has not passed. -/
theorem Core.armTout_once (h : c.now ≤ c.toutStart j / 2 ^ 13 * 2 ^ 13) :
    ∃ t : Tout, t.mode = 1 ∧ t.width = w ∧ t.start = c.toutStart j ∧ t.next = 0 ∧ c.armTout j 1 w = c.setTout j t := by
  unfold Core.armTout
  extract_lets r s p pN old t
  refine ⟨t, rfl, rfl, rfl, rfl, ?_⟩
  have hedge : t.edgeAt 0 = c.toutStart j / 2 ^ 13 * 2 ^ 13 := by rw [Tout.edgeAt, Nat.zero_mul, Nat.add_zero]; rfl
  rw [if_neg (by decide), if_pos (hedge ▸ h)]

/-- An output whose instant has come: the core after its edge, with the output as it then is. -/
def Tout.fired (t : Tout) (pol : Bool) : Tout :=
  { t with next := t.next + 1, mode := if t.mode = 1 then 0 else t.mode, level := !pol,
           pulseEnd := some (t.edgeAt t.next + nsN t.width) }

theorem Core.toutEdge_due (harmed : (c.tout j).mode ≠ 0) (hdue : (c.tout j).edgeAt (c.tout j).next ≤ c.now) :
    c.toutEdge j = (c.setTout j ((c.tout j).fired (c.getB (aTout j + 0x18) 2))).emit
      (.edge j (!c.getB (aTout j + 0x18) 2) ((c.tout j).edgeAt (c.tout j).next)) := by
  unfold Core.toutEdge
  dsimp only
  rw [if_neg]
  · rfl
  · simp [Tout.armed, harmed, hdue]

theorem Core.toutPulseEnd_due {e : Nat} (hend : (c.tout j).pulseEnd = some e) (hdue : e ≤ c.now) :
    c.toutPulseEnd j = (c.setTout j { c.tout j with level := c.getB (aTout j + 0x18) 2, pulseEnd := none }).emit
      (.edge j (c.getB (aTout j + 0x18) 2) e) := by
  unfold Core.toutPulseEnd
  dsimp only
  rw [hend]
  dsimp only
  rw [if_neg (by omega)]

theorem Core.tout_emit (o : Out) : (c.emit o).tout j = c.tout j := rfl

/-! ### The commands -/

theorem tinEdge_runs {s : State} {i phi held : Nat} {level : Bool} {P : Core → Prop} :
    Stated.Runs (.tinEdge i phi level held) s P ↔ P (s.core.tinEdge i phi level held) := runs_iff rfl

theorem toutArm_runs {s : State} {v : Word64} {P : Core → Prop} :
    Stated.Runs (.toutArm a j v) s P ↔ P (s.core.hTout a j v.toNat) := runs_iff rfl

/-- TOUT_CTRL arms an output once. -/
theorem toutArm_arms {s : State} {v : Word64} (ha : a.view = .priv) (hw : 2 ≤ v.toNat / 8 % 2 ^ 32) (hmode : v.toNat % 4 = 1)
    (hstart : s.core.now ≤ s.core.toutStart j / 2 ^ 13 * 2 ^ 13) :
    Stated.Runs (.toutArm a j v) s fun c => (c.tout j).mode = 1 ∧ (c.tout j).width = v.toNat / 8 % 2 ^ 32 ∧
      (c.tout j).start = s.core.toutStart j ∧ (c.tout j).next = 0 ∧ c.getF (aTout j + 0x18) 3 32 = v.toNat / 8 % 2 ^ 32 := by
  obtain ⟨hwidth, hrd⟩ := Core.toutSettings_spec (c := s.core) (j := j) (v := v.toNat)
  have hsame : (s.core.toutSettings j v.toNat).toutStart j = s.core.toutStart j := by
    unfold Core.toutStart
    rw [hrd _ (by omega), hrd _ (by omega)]
  obtain ⟨t, h1, h2, h3, h4, harm⟩ := Core.armTout_once (c := s.core.toutSettings j v.toNat) (j := j) (w := v.toNat / 8 % 2 ^ 32)
    (by rw [Core.now_toutSettings, hsame]; exact hstart)
  rw [toutArm_runs, Core.hTout_once ha hw hmode, harm, Core.tout_setTout]
  exact ⟨h1, h2, h3.trans hsame, h4, (Core.getF_congr (Core.setTout_regs ..) _ _ _).trans hwidth⟩

end

end Sys2Proof.Machine

open Sys2Proof Sys2Proof.Machine Sys2Proof.Stated

theorem tinPins : Stated.TinPins := by
  refine ⟨fun s i phi level held hnew hon => ⟨fun hheld hwanted hroom => ?_, fun hheld hfrozen => ?_⟩, fun s i e t hfifo => ?_⟩
  · obtain ⟨htin, hfifo⟩ := Core.tinPush_room (c := s.core.tinSettled i level) (n := s.core.tinTime i phi) (level := level) hroom
    rw [tinEdge_runs, Core.tinEdge_accepted hnew hon hheld hwanted, htin, hfifo]
    exact ⟨Store.get_set_self .., rfl⟩
  · rw [tinEdge_runs, Core.tinEdge_short hnew hon hheld]
    exact ⟨Core.bump_pins .., Core.rd_bump_self _ _ hfrozen⟩
  · refine (runs_iff (d := s.core.tinPop i) rfl).mpr ?_
    obtain ⟨hrest, hhi⟩ := Core.tinPop_spec hfifo
    exact ⟨hrest, changes_tinPop .regs (by decide), hhi⟩

theorem toutPins : Stated.ToutPins := by
  refine ⟨fun s a j v ha _ => ⟨fun hw hmode hstart => toutArm_arms ha hw hmode hstart, fun hw => ?_⟩, fun s j harmed hdue => ?_,
    fun s j e hend hdue => ?_⟩
  · rw [toutArm_runs, Core.hTout_refuses ha hw]
    exact ⟨changes_timeRej .pins (by decide), Core.getB_timeRej⟩
  · refine (runs_iff (d := s.core.toutEdge j) rfl).mpr ?_
    rw [Core.toutEdge_due harmed hdue, Core.tout_emit, Core.tout_setTout]
    exact ⟨rfl, rfl, rfl, rfl⟩
  · refine (runs_iff (d := s.core.toutPulseEnd j) rfl).mpr ?_
    rw [Core.toutPulseEnd_due hend hdue, Core.tout_emit, Core.tout_setTout]
    exact ⟨rfl, rfl, rfl⟩

/-- Settles O23: the pins that are read and the outputs that are driven. -/
theorem timePinsWork : Obligations.TimePinsWork := ⟨tinPins, toutPins⟩

end

