-- ==== Sys2Proof/Proofs/MarkersAndPtp.lean ====
section
/-! PROOF. Time markers and the frames and timestamps of PTP (R205, R208, R209). O24. -/

namespace Sys2Proof.Machine

section
variable {c : Core} {l phi : Nat}

/-! ### Markers sent -/

theorem Core.lane_setLane (x : Lane) : (c.setLane l x).lane l = x := Store.get_set_self ..
theorem Core.lane_emit (o : Out) : (c.emit o).lane l = c.lane l := rfl
theorem Core.lane_wr (a v : Nat) : (c.wr a v).lane l = c.lane l := rfl

/-- The instant of a marker that lane `l` sends. -/
def Core.markerT1 (c : Core) (l phi : Nat) : Nat :=
  c.valleyForm (adjust (c.at_ phi) (signed 32 (c.getF (pTime + 0x240 + 8 * l) 32 32)))

/-- The bytes of a marker before its CHECK. -/
def Core.markerBytes (c : Core) (l phi : Nat) : List Byte :=
  toLe 10 (c.markerT1 l phi) ++ toLe 10 (c.lane l).mkRx ++ [BitVec.ofNat 8 ((c.lane l).mkSeq % 256), BitVec.ofNat 8 (c.lane l).mkRseq]

/-- The first marker of a lane is always due. -/
theorem Core.markerSend_first (hmode : c.laneMode l = 2) (hup : c.laneState l = 3) (hfirst : (c.lane l).mkT1 = none) :
    c.markerSend l phi =
      (c.setLane l { c.lane l with mkSeq := ((c.lane l).mkSeq + 1) % 256, mkT1 := some (c.markerT1 l phi) }).emit
        (.lane l (kMarker :: (c.markerBytes l phi ++ [crc8 (c.markerBytes l phi)]))) := by
  unfold Core.markerSend
  dsimp only
  rw [hfirst, if_neg (by simp [hmode, hup])]
  rfl

/-! ### Markers received -/

/-- The receive time of a marker on lane `l`. -/
def Core.markerT4 (c : Core) (l phi : Nat) : Nat :=
  c.valleyForm (adjust (c.at_ phi) (signed 32 (c.getF (pTime + 0x240 + 8 * l) 0 32)))

/-- Counting code violations of the lane leaves what a marker's receive time is read from. -/
theorem Core.markerT4_bumpBy (n : Nat) : (c.bumpBy (aLane l + 0x40) n).markerT4 l phi = c.markerT4 l phi := by
  have hrd {b : Nat} (hb : b ≠ aLane l + 0x40) : (c.bumpBy (aLane l + 0x40) n).rd b = c.rd b := Core.rd_bumpBy_ne c n hb
  have hlow {b : Nat} (hb : b < pPass) : (c.bumpBy (aLane l + 0x40) n).rd b = c.rd b := hrd (by unfold aLane; omega)
  have hepoch : (c.bumpBy (aLane l + 0x40) n).epoch = c.epoch :=
    Core.epoch_congr fun b hb => hlow (by rcases hb with rfl | rfl <;> decide)
  have hat : (c.bumpBy (aLane l + 0x40) n).at_ phi = c.at_ phi :=
    Core.at_congr (Core.bumpBy_clk ..) (fun b hb => hlow (by rcases hb with rfl | rfl <;> decide)) phi
  rw [Core.markerT4, Core.valleyForm, hat, hepoch, Core.getF_of_rd (hrd (by unfold aLane pPass pTime; omega))]
  rfl

/-- The lane that has taken a marker. -/
def Lane.marked (x : Lane) (t4 : Nat) (b : List Byte) : Lane := { x with mkRx := t4 % 2 ^ 80, mkRseq := fld b 20 1 }

/-- A sound marker gives its lane the receive time and the sequence number; one that answers the last marker sent latches the exchange. -/
theorem Core.markerReceive_sound {rx : LaneChars} (hl : l < 16) (hmode : c.laneMode l = 2) (hup : c.laneState l = 3) (hviol : rx.viol = 0)
    (hlen : rx.chars.length = 23) (hcheck : rx.chars.drop 22 = [crc8 (rx.chars.take 22)]) :
    (c.markerReceive l phi rx).lane l = (c.lane l).marked (c.markerT4 l phi) rx.chars ∧
    ∀ t1, (c.lane l).mkT1 = some t1 → fld rx.chars 21 1 = ((c.lane l).mkSeq + 255) % 256 →
      (c.markerReceive l phi rx).rd (pTime + 0x300 + 0x20 * l) = t1 % 2 ^ 64 ∧
      (c.markerReceive l phi rx).rd (pTime + 0x318 + 0x20 * l) = c.markerT4 l phi % 2 ^ 64 := by
  unfold Core.markerReceive
  extract_lets b viol d x t t4 e r
  have hd : d = c.bumpBy (aLane l + 0x40) viol := if_neg (by simp [hup]; omega)
  have hmode' : d.laneMode l = 2 := by
    rw [hd, Core.laneMode, Core.getF_bumpBy_ne _ _ _ _ (by omega)]
    exact hmode
  have hup' : d.laneState l = 3 := by
    rw [hd, Core.laneState, Core.getF_bumpBy_ne _ _ _ _ (by unfold aLane; omega)]
    exact hup
  have hx : x = c.lane l := by
    unfold x
    rw [hd, Core.lane, Core.bumpBy_lanes, Core.lane]
  have ht4 : t4 = c.markerT4 l phi := by
    rw [← Core.markerT4_bumpBy (l := l) viol, ← hd]
    rfl
  have he : e.lane l = (c.lane l).marked (c.markerT4 l phi) rx.chars := by
    rw [← ht4, ← hx]
    exact Core.lane_setLane _
  have hnext : r + 24 = pTime + 0x318 + 0x20 * l := by unfold r; omega
  rw [if_neg (by simp [hmode', hup', hviol, b, hlen, hcheck]), hx, ← ht4, ← hnext]
  split
  case h_1 t1 hsent =>
    split
    case isTrue hanswer =>
      rw [Core.lane_wr, Core.lane_wr, Core.lane_wr, Core.lane_wr]
      refine ⟨ht4 ▸ he, fun t1' hsent' _ => ?_⟩
      obtain rfl : t1 = t1' := Option.some.inj (hsent.symm.trans hsent')
      refine ⟨?_, (Core.rd_wr_self ..).trans (Nat.mod_mod _ _)⟩
      rw [Core.rd_wr_ne _ _ (by omega), Core.rd_wr_ne _ _ (by omega), Core.rd_wr_ne _ _ (by omega)]
      exact (Core.rd_wr_self ..).trans (Nat.mod_mod _ _)
    case isFalse hother => exact ⟨ht4 ▸ he, fun t1' _ hanswer => absurd hanswer hother⟩
  case h_2 hnone => exact ⟨ht4 ▸ he, fun t1 hsent _ => absurd (hnone.symm.trans hsent) (by simp)⟩

end

/-! ### PTP frames -/

section
variable {c : Core} {lp phi kind rx o : Nat} {b : List Byte}

theorem changes_txtsPush {n q : Nat} : Changes [.pins] c (c.txtsPush n q lp) := Changes.ite (.put .pins) (.put .pins)

theorem Core.txtsPush_room {n q : Nat} (h : c.pins.txts.length < 16) :
    (c.txtsPush n q lp).pins.txts = c.pins.txts ++ [⟨n, q + lp * 2 ^ 16, c.pins.txtsOvf⟩] := by
  rw [show c.txtsPush n q lp = _ from if_neg (by omega)]

/-- The departure time of a frame of the control complex. -/
def Core.ptpTime (c : Core) (phi : Nat) : Nat := adjust (c.at_ phi + nsN 32) (signed 32 (c.getF (pTime + 0x210) 32 32))

/-- A PTP frame with what its kind writes into it on departure at `t`. -/
def ptpStamped (kind rx o t : Nat) (b : List Byte) : List Byte :=
  if kind = 0 then addCorrection o (t % 2 ^ 16) (splice b (o + 34) (toBe 6 (timeHi t) ++ toBe 4 (t / 2 ^ 16 % 10 ^ 9)))
  else if kind = 1 then addCorrection o (unsigned 64 ((t : Int) - rx)) b else b

/-- The core in which the departure timestamp of a two-step frame is kept. -/
def Core.ptpStamp (c : Core) (lp kind o t : Nat) (b : List Byte) : Core :=
  if kind = 2 then c.txtsPush t (beNat (slice b (o + 30) 2)) lp else c

/-- The core in which logical port `lp` is free from `t` on. -/
def Core.lpFreeFrom (c : Core) (lp t : Nat) : Core := { c with comp := { c.comp with free := Store.set c.comp.free 0 lp t } }

theorem Core.ptpTransmit_free (hfree : c.portFree lp = true) : ∃ t, c.ptpTransmit lp phi kind none rx o b =
    ((c.ptpStamp lp kind o (c.ptpTime phi) b).lpFreeFrom lp t).emit (.frame lp
      (ptpStamped kind rx o (c.ptpTime phi) b ++ fcsBytes false (ptpStamped kind rx o (c.ptpTime phi) b)) false (c.ptpTime phi)) := by
  unfold Core.ptpTransmit
  dsimp only
  rw [if_neg (by simp [hfree])]
  exact ⟨_, rfl⟩

/-- A frame leaves as it is stamped, and the timestamp of a two-step one is kept. -/
theorem Core.ptpTransmit_spec (hfree : c.portFree lp = true) :
    (c.ptpTransmit lp phi kind none rx o b).out = c.out ++ [.frame lp
      (ptpStamped kind rx o (c.ptpTime phi) b ++ fcsBytes false (ptpStamped kind rx o (c.ptpTime phi) b)) false (c.ptpTime phi)] ∧
    (kind = 2 → c.pins.txts.length < 16 → (c.ptpTransmit lp phi kind none rx o b).pins.txts =
      c.pins.txts ++ [⟨c.ptpTime phi, beNat (slice b (o + 30) 2) + lp * 2 ^ 16, c.pins.txtsOvf⟩]) := by
  obtain ⟨t, hsent⟩ := Core.ptpTransmit_free (phi := phi) (kind := kind) (rx := rx) (o := o) (b := b) hfree
  have hout : (c.ptpStamp lp kind o (c.ptpTime phi) b).out = c.out :=
    (Changes.stepIf changes_txtsPush : Changes [.pins] c (c.ptpStamp lp kind o (c.ptpTime phi) b)) .out (by decide)
  rw [hsent]
  refine ⟨congrArg (· ++ _) hout, fun hkind hroom => ?_⟩
  rw [Core.emit_pins, Core.lpFreeFrom, Core.ptpStamp, if_pos hkind, Core.txtsPush_room hroom]

/-- A read of the FIFO of timestamps takes the oldest and latches its seconds. -/
theorem Core.txtsPop_spec {e : Stamp} {t : List Stamp} (h : c.pins.txts = e :: t) :
    c.txtsPop.pins.txts = t ∧ (Store.get c.txtsPop.latched 0 (pTime + 0x220)).toNat = timeHi e.n := by
  have hlt : timeHi e.n < 2 ^ 64 := (Nat.mod_lt _ (Nat.two_pow_pos 48)).trans (by decide)
  unfold Core.txtsPop
  rw [h]
  dsimp only
  refine ⟨rfl, ?_⟩
  rw [Core.latched_latch_ne (by decide), Core.latched_latch, Nat.mod_eq_of_lt hlt]

end

end Sys2Proof.Machine

open Sys2Proof Sys2Proof.Machine Sys2Proof.Stated

/-- Settles O24: a marker sent and a marker taken, a frame that leaves and a timestamp that is read. -/
theorem markersAndPtp : Obligations.MarkersAndPtp := by
  refine ⟨fun s l phi hmode hup hfirst => ?_, fun s l phi rx hl hmode hup hviol hlen hcheck => ?_, fun s lp phi kind rx o b hfree => ?_,
    fun s e t hfifo => ?_⟩
  · refine (runs_iff (d := s.core.markerSend l phi) rfl).mpr ?_
    rw [Core.markerSend_first hmode hup hfirst, Core.lane_emit, Core.lane_setLane]
    exact ⟨congrArg (· ++ _) (Core.setLane_out ..), rfl, rfl⟩
  · refine (runs_iff (d := s.core.markerReceive l phi rx) rfl).mpr ?_
    obtain ⟨hlane, hexchange⟩ := Core.markerReceive_sound (phi := phi) hl hmode hup hviol hlen hcheck
    rw [hlane]
    exact ⟨rfl, rfl, hexchange⟩
  · exact (runs_iff (d := s.core.ptpTransmit lp phi kind none rx o b) rfl).mpr (Core.ptpTransmit_spec hfree)
  · refine (runs_iff (d := s.core.txtsPop) rfl).mpr ?_
    obtain ⟨hrest, hhi⟩ := Core.txtsPop_spec hfifo
    exact ⟨hrest, changes_txtsPop .regs (by decide), hhi⟩

end

