-- ==== Sys2Proof/Proofs/CapsAndGate.lean ====
section
/-! PROOF. Frame caps, deadlines, the egress gate and KILL_N (R14, R236 to R238, R475). O17. -/

namespace Sys2Proof.Machine

section
variable {c : Core} {a : Access} {r t v p b : Nat}

/-! ### COMP_CAP -/

/-- The core in which the cap at `r` has taken PERIOD and BURST. -/
def Core.capSet (c : Core) (r p b : Nat) : Core := (c.setF r 0 32 p).setF r 32 16 b

/-- PERIOD and BURST of a word, and its bit ARM, once ARM has been written into it. -/
theorem capWord_fields (v x : Nat) : setBits v 48 1 x % 2 ^ 32 = v % 2 ^ 32 ∧
    setBits v 48 1 x / 2 ^ 32 % 2 ^ 16 = v / 2 ^ 32 % 2 ^ 16 ∧ bit (setBits v 48 1 x) 48 = decide (x % 2 = 1) := by
  refine ⟨?_, setBits_field_below v 48 1 x 32 16 (by decide), congrArg (fun n => decide (n = 1)) (setBits_field v 48 1 x)⟩
  simpa only [pow_zero, Nat.div_one] using setBits_field_below v 48 1 x 0 32 (by decide)

theorem Core.capSet_spec : (c.capSet r p b).getF r 0 32 = p % 2 ^ 32 ∧ (c.capSet r p b).getF r 32 16 = b % 2 ^ 16 ∧
    (c.capSet r p b).getB r 48 = c.getB r 48 ∧ Stated.OnlyReg c (c.capSet r p b) r := by
  unfold Core.capSet
  refine ⟨?_, Core.getF_setF_self _ _ _ _ _ (by decide), ?_, fun e he => ?_⟩
  · rw [Core.getF_setF_apart _ _ _ _ _ _ _ (by decide) (by decide), Core.getF_setF_self _ _ _ _ _ (by decide)]
  · rw [Core.getB_setF_apart _ _ _ _ _ _ (by decide) (by decide), Core.getB_setF_apart _ _ _ _ _ _ (by decide) (by decide)]
  · rw [Core.rd_setF_ne _ _ _ _ he, Core.rd_setF_ne _ _ _ _ he]

/-- The core with the bucket of template `t` replaced. -/
def Core.setBucket (c : Core) (t : Nat) (x : Bucket) : Core :=
  { c with comp := { c.comp with buckets := Store.set c.comp.buckets ⟨0, 0⟩ t x } }

theorem Core.setBucket_rd (x : Bucket) (e : Nat) : (c.setBucket t x).rd e = c.rd e := rfl

theorem Core.bucket_setBucket (x : Bucket) : (c.setBucket t x).bucket t = x := Store.get_set_self ..

/-- The core in which the cap of template `t`, at `r`, is armed and its bucket full (R237). -/
def Core.capArmed (c : Core) (r t p b : Nat) : Core := ((c.capSet r p b).setF r 48 1 1).setBucket t ⟨b, 0⟩

theorem Core.capArmed_spec :
    (c.capArmed r t p b).getF r 0 32 = p % 2 ^ 32 ∧ (c.capArmed r t p b).getF r 32 16 = b % 2 ^ 16 ∧
    (c.capArmed r t p b).getB r 48 = true ∧ (c.capArmed r t p b).bucket t = ⟨b, 0⟩ ∧ Stated.OnlyReg c (c.capArmed r t p b) r := by
  obtain ⟨hp, hb, -, honly⟩ := Core.capSet_spec (c := c) (r := r) (p := p) (b := b)
  unfold Core.capArmed
  refine ⟨?_, ?_, ?_, Core.bucket_setBucket _, fun e he => ?_⟩
  · rw [Core.getF_of_rd (Core.setBucket_rd _ _), Core.getF_setF_apart _ _ _ _ _ _ _ (by decide) (by decide), hp]
  · rw [Core.getF_of_rd (Core.setBucket_rd _ _), Core.getF_setF_apart _ _ _ _ _ _ _ (by decide) (by decide), hb]
  · rw [Core.getB_of_rd (Core.setBucket_rd _ _)]
    exact Core.getB_setF_self _ _ _ _ (by decide)
  · rw [Core.setBucket_rd, Core.rd_setF_ne _ _ _ _ he]
    exact honly e he

section
variable (ha : a.view = .priv)
include ha

theorem Core.hCap_unarmed (hr : c.getB (pComp + 0x400 + 8 * t) 48 = false) (hv : bit v 48 = false) :
    c.hCap a t v = c.capSet (pComp + 0x400 + 8 * t) (v % 2 ^ 32) (v / 2 ^ 32 % 2 ^ 16) := by
  unfold Core.hCap
  dsimp only
  rw [if_neg (by simp [isPriv_of_view ha]), if_neg (Bool.eq_false_iff.mp hr), if_pos (by simp [hv])]
  rfl

theorem Core.hCap_arms (hr : c.getB (pComp + 0x400 + 8 * t) 48 = false) (hv : bit v 48 = true) (hp : v % 2 ^ 32 ≠ 0)
    (hb : v / 2 ^ 32 % 2 ^ 16 ≠ 0) : c.hCap a t v = c.capArmed (pComp + 0x400 + 8 * t) t (v % 2 ^ 32) (v / 2 ^ 32 % 2 ^ 16) := by
  unfold Core.hCap
  dsimp only
  rw [if_neg (by simp [isPriv_of_view ha]), if_neg (Bool.eq_false_iff.mp hr), if_neg (by simp [hv]), if_neg (not_or.mpr ⟨hp, hb⟩)]
  rfl

theorem Core.hCap_tightens (hr : c.getB (pComp + 0x400 + 8 * t) 48 = true) (hp : c.getF (pComp + 0x400 + 8 * t) 0 32 ≤ v % 2 ^ 32)
    (hb : v / 2 ^ 32 % 2 ^ 16 ≤ c.getF (pComp + 0x400 + 8 * t) 32 16) :
    c.hCap a t v = c.capSet (pComp + 0x400 + 8 * t) (v % 2 ^ 32) (v / 2 ^ 32 % 2 ^ 16) := by
  unfold Core.hCap
  extract_lets
  rw [if_neg (by simp [isPriv_of_view ha]), if_pos hr, if_neg (not_or.mpr ⟨Nat.not_lt.mpr hp, Nat.not_lt.mpr hb⟩)]
  rfl

theorem Core.hCap_refuses (hr : c.getB (pComp + 0x400 + 8 * t) 48 = true)
    (h : v % 2 ^ 32 < c.getF (pComp + 0x400 + 8 * t) 0 32 ∨ c.getF (pComp + 0x400 + 8 * t) 32 16 < v / 2 ^ 32 % 2 ^ 16) :
    c.hCap a t v = c.reject pComp (0x400 + 8 * t) v := by
  unfold Core.hCap
  extract_lets
  rw [if_neg (by simp [isPriv_of_view ha]), if_pos hr, if_pos h]

/-! ### DEADLINE_NS -/

theorem Core.hDeadline_takes (hv : 100 ≤ v % 2 ^ 16) : c.hDeadline a t v = c.setF (pComp1 + 0x400 + 8 * t) 0 16 (v % 2 ^ 16) := by
  unfold Core.hDeadline
  extract_lets
  rw [if_neg (by simp [isPriv_of_view ha]), if_neg (not_lt_of_ge hv)]

theorem Core.hDeadline_refuses (hv : v % 2 ^ 16 < 100) : c.hDeadline a t v = c.reject pComp1 (0x400 + 8 * t) v := by
  unfold Core.hDeadline
  extract_lets
  rw [if_neg (by simp [isPriv_of_view ha]), if_pos hv]

end

/-- The settings of a page's 256 templates are no log registers: rejecting a write leaves them. -/
theorem Core.rd_reject_template {q off : Nat} (ht : t < 256) : (c.reject q off v).rd (q + 0x400 + 8 * t) = c.rd (q + 0x400 + 8 * t) :=
  Core.rd_logErr_ne _ _ _ _ _ _ (by unfold LogTouches; omega)

/-! ### Frames in progress -/

section
variable {lp k : Nat} {s : TxFrame → Bool}

/-- The frame in progress on port `k`, if any. -/
def Core.onWire (c : Core) (k : Nat) : List TxFrame := Store.get c.comp.inProg [] k

/-- Ending the frame of port `lp` empties that port or leaves what is in progress as it was. -/
theorem Core.flushTx_inProg :
    (c.flushTx lp t).comp.inProg = c.comp.inProg ∨ (c.flushTx lp t).comp.inProg = Store.set c.comp.inProg [] lp [] := by
  unfold Core.flushTx
  split
  · exact .inl rfl
  · split
    · exact .inr rfl
    · exact .inl rfl

theorem Core.onWire_flushTx_empty (h : c.onWire k = []) : (c.flushTx lp t).onWire k = [] := by
  unfold Core.onWire at h ⊢
  rcases Core.flushTx_inProg (c := c) (lp := lp) (t := t) with e | e
  · rw [e, h]
  · rw [e, Store.get_set, h, ite_self]

/-- A stomp ends the frame in progress on its port where the predicate names it, and lets no frame start. -/
theorem Core.onWire_stompTx (h : k = lp ∧ (∀ f, s f = true) ∨ c.onWire k = []) : (c.stompTx lp t s).onWire k = [] := by
  unfold Core.stompTx
  extract_lets d
  have hd : k = lp ∧ (∀ f, s f = true) ∨ d.onWire k = [] := h.imp_right Core.onWire_flushTx_empty
  split
  · next hnone =>
    rcases hd with ⟨rfl, -⟩ | hd
    · exact hnone
    · exact hd
  · next f _ hf =>
    split
    · next hs =>
      rcases hd with ⟨rfl, hall⟩ | hd
      · simp [hall] at hs
      · exact hd
    · extract_lets sent bytes padded e g
      have he : e.comp.inProg = d.comp.inProg := congrArg Comp.inProg (d.bump_comp _)
      show Store.get (Store.set e.comp.inProg [] lp []) [] k = []
      rw [Store.get_set, he]
      split
      · rfl
      · next hk => exact hd.resolve_left fun h => hk h.1

theorem Core.onWire_stompTxs (ls : List Nat) (h : k ∈ ls ∨ c.onWire k = []) :
    (ls.foldl (fun c lp => c.stompTx lp t fun _ => true) c).onWire k = [] := by
  induction ls generalizing c with
  | nil => exact h.resolve_left (List.not_mem_nil)
  | cons l ls ih =>
    refine ih ?_
    rcases h with h | h
    · rcases List.mem_cons.mp h with rfl | h
      · exact .inr (Core.onWire_stompTx (.inl ⟨rfl, fun _ => rfl⟩))
      · exact .inl h
    · exact .inr (Core.onWire_stompTx (.inr h))

/-- A gate that closes leaves no frame in progress on any port (R238). -/
theorem Core.onWire_closeGate (hk : k < 8) : c.closeGate.onWire k = [] := by
  unfold Core.closeGate Core.stompAll
  exact Core.onWire_stompTxs _ (.inl (List.mem_range.mpr hk))

end

/-! ### EGRESS_GATE -/

/-- The core in which a write of EGRESS_GATE has cleared KILL as far as it may. -/
def Core.killWritten (c : Core) (v : Nat) : Core := if c.getB aGate 2 then c.clearF aGate 1 1 (v / 2) else c

theorem Core.killWritten_spec : (c.killWritten v).getB aGate 0 = c.getB aGate 0 ∧ Stated.OnlyReg c (c.killWritten v) aGate := by
  unfold Core.killWritten
  split
  · exact ⟨Core.getB_setF_apart _ _ _ _ _ _ (by decide) (by decide), fun e he => Core.rd_setF_ne _ _ _ _ he⟩
  · exact ⟨rfl, fun _ _ => rfl⟩

/-- With KILL_N high a one written to KILL clears it, unless KILL was set in this fabric cycle (R14). -/
theorem Core.killWritten_clears (hpin : c.getB aGate 2 = true) (hv : bit v 1 = true) (hcyc : bit (c.cycGet aGate) 1 = false) :
    (c.killWritten v).getB aGate 1 = false := by
  have hv1 : v / 2 % 2 ^ 1 = 1 := of_decide_eq_true hv
  have hcyc0 : c.cycGet aGate / 2 ^ 1 % 2 = 0 := (Nat.mod_two_eq_zero_or_one _).resolve_right (of_decide_eq_false hcyc)
  have hkill : c.getF aGate 1 1 % 2 = c.getF aGate 1 1 := Nat.mod_eq_of_lt (c.getF_lt aGate 1 1)
  unfold Core.killWritten
  rw [if_pos hpin, Core.clearF, hv1, Nat.one_and_eq_mod_two, hcyc0, Nat.and_one_is_mod, hkill, Nat.sub_self]
  exact Core.getB_setF_self _ _ _ _ (by decide)

/-- Whether a write may open the gate: KILL_N high, KILL clear, not in safe state. -/
def Core.mayOpen (c : Core) : Bool := c.getB aGate 2 && !c.getB aGate 1 && !c.safe

section
variable (ha : a.view = .priv)
include ha

theorem Core.hGate_priv : c.hGate a v =
    if bit v 0 then (if c.mayOpen then (c.killWritten v).setF aGate 0 1 1 else c.killWritten v) else (c.killWritten v).shutGate := by
  unfold Core.hGate
  rw [if_neg (by simp [isPriv_of_view ha])]
  rfl

theorem Core.hGate_opens (hv : bit v 0 = true) (hmay : c.mayOpen = true) : c.hGate a v = (c.killWritten v).setF aGate 0 1 1 := by
  rw [Core.hGate_priv ha, if_pos hv, if_pos hmay]

theorem Core.hGate_stays (hv : bit v 0 = true) (hmay : c.mayOpen = false) : c.hGate a v = c.killWritten v := by
  rw [Core.hGate_priv ha, if_pos hv, if_neg (Bool.eq_false_iff.mp hmay)]

theorem Core.hGate_closes (hv : bit v 0 = false) : c.hGate a v = (c.killWritten v).shutGate := by
  rw [Core.hGate_priv ha, if_neg (Bool.eq_false_iff.mp hv)]

end

/-- Closing the gate clears OPEN, ends the frames in progress and leaves the other bits of its register. -/
theorem Core.shutGate_spec : c.shutGate.getB aGate 0 = false ∧ (∀ k, 0 < k → c.shutGate.getB aGate k = c.getB aGate k) ∧
    ∀ lp, lp < 8 → c.shutGate.onWire lp = [] := by
  have hrd : c.shutGate.rd aGate = (c.setF aGate 0 1 0).rd aGate := (RdBelow.closeGate _).rd _ (by decide)
  refine ⟨?_, fun k hk => ?_, fun lp => Core.onWire_closeGate⟩
  · rw [Core.getB_of_rd hrd]
    exact Core.getB_setF_self _ _ _ _ (by decide)
  · rw [Core.getB_of_rd hrd]
    exact Core.getB_setF_apart _ _ _ _ _ _ (by decide) (.inr hk)

/-- A write that clears KILL leaves it clear, whatever the same write does to OPEN. -/
theorem Core.hGate_clears (ha : a.view = .priv) (hpin : c.getB aGate 2 = true) (hv : bit v 1 = true)
    (hcyc : bit (c.cycGet aGate) 1 = false) : (c.hGate a v).getB aGate 1 = false := by
  have hkill := Core.killWritten_clears hpin hv hcyc
  obtain ⟨-, hrest, -⟩ := Core.shutGate_spec (c := c.killWritten v)
  cases hopen : bit v 0
  case false => rw [Core.hGate_closes ha hopen, hrest 1 (by decide), hkill]
  case true =>
    cases hmay : c.mayOpen
    case false => rw [Core.hGate_stays ha hopen hmay, hkill]
    case true => rw [Core.hGate_opens ha hopen hmay, Core.getB_setF_apart _ _ _ _ _ _ (by decide) (by decide), hkill]

/-! ### KILL_N -/

/-- The core in which the pin's level and KILL stand as an accepted low level leaves them. -/
def Core.killRaised (c : Core) : Core := (c.setF aGate 2 1 0).raiseF aGate 1

theorem Core.killRaised_spec : c.killRaised.getB aGate 1 = true ∧ c.killRaised.getB aGate 2 = false := by
  have hrd : c.killRaised.rd aGate = ((c.setF aGate 2 1 0).setF aGate 1 1 1).rd aGate := Core.rd_mark ..
  refine ⟨Core.getB_raiseF_self _ _ _ (by decide), ?_⟩
  rw [Core.getB_of_rd hrd, Core.getB_setF_apart _ _ _ _ _ _ (by decide) (by decide)]
  exact Core.getB_setF_self _ _ _ _ (by decide)

/-- The core with the pins `x`, but KILL_N at a level. -/
def Core.withKillN (c : Core) (x : Pins) (level : Bool) : Core := { c with pins := { x with killN := level } }

theorem Core.killAssert_high (h : c.pins.killN = true) : c.killAssert = c.killRaised.shutGate.withKillN c.pins false := by
  unfold Core.killAssert
  rw [if_neg (by simp [h])]
  rfl

theorem Core.rd_withKillN (x : Pins) (level : Bool) (e : Nat) : (c.withKillN x level).rd e = c.rd e := rfl

theorem Core.onWire_withKillN (x : Pins) (level : Bool) (lp : Nat) : (c.withKillN x level).onWire lp = c.onWire lp := rfl

theorem Core.killAssert_spec (h : c.pins.killN = true) :
    c.killAssert.pins.killN = false ∧ c.killAssert.getB aGate 0 = false ∧ c.killAssert.getB aGate 1 = true ∧
    c.killAssert.getB aGate 2 = false ∧ ∀ lp, lp < 8 → c.killAssert.onWire lp = [] := by
  obtain ⟨hkill, hpin⟩ := c.killRaised_spec
  obtain ⟨hopen, hrest, hwire⟩ := Core.shutGate_spec (c := c.killRaised)
  have hgate (k : Nat) : c.killAssert.getB aGate k = c.killRaised.shutGate.getB aGate k :=
    Core.killAssert_high h ▸ Core.getB_of_rd (Core.rd_withKillN _ _ _)
  rw [hgate, hgate, hgate, Core.killAssert_high h]
  refine ⟨rfl, hopen, (hrest 1 (by decide)).trans hkill, (hrest 2 (by decide)).trans hpin, fun lp hlp => ?_⟩
  rw [Core.onWire_withKillN]
  exact hwire lp hlp

theorem Core.killDeassert_spec : c.killDeassert.pins.killN = true ∧ c.killDeassert.getB aGate 2 = true ∧
    c.killDeassert.getB aGate 1 = c.getB aGate 1 ∧ Stated.OnlyReg c c.killDeassert aGate :=
  ⟨rfl, Core.getB_setF_self c aGate 2 1 (by decide), Core.getB_setF_apart c aGate 2 1 1 1 (by decide) (by decide),
    fun _ he => Core.rd_setF_ne c _ _ _ he⟩

end

/-! ### The commands -/

section
variable {s : State} {a : Access} {v : Word64} {P : Core → Prop}

theorem capWrite_runs {t : Nat} : Stated.Runs (.compCapWrite a t v) s P ↔ P (s.core.hCap a t (setBits v.toNat 48 1 0)) := runs_iff rfl

theorem deadlineWrite_runs {t : Nat} : Stated.Runs (.deadlineWrite a t v) s P ↔ P (s.core.hDeadline a t v.toNat) := runs_iff rfl

theorem gateOpen_runs : Stated.Runs (.gateOpen a v) s P ↔ P (s.core.hGate a (setBits v.toNat 0 1 1)) := runs_iff rfl

theorem gateClose_runs : Stated.Runs (.gateClose a v) s P ↔ P (s.core.hGate a (setBits v.toNat 0 1 0)) := runs_iff rfl

theorem killClear_runs : Stated.Runs (.killClear a v) s P ↔ P (s.core.hGate a (setBits v.toNat 1 1 1)) := runs_iff rfl

theorem bit_setBits_one (v k : Nat) : bit (setBits v k 1 1) k = true := decide_eq_true (setBits_field v k 1 1)

theorem bit_setBits_zero (v k : Nat) : bit (setBits v k 1 0) k = false :=
  decide_eq_false (ne_of_eq_of_ne (setBits_field v k 1 0) Nat.zero_ne_one)

end

theorem capsAndDeadlines : Stated.CapsAndDeadlines := by
  refine ⟨fun s a t v ha => ?_, fun s a t v ha ht => ?_⟩
  · obtain ⟨hp0, hb0, hv0⟩ := capWord_fields v.toNat 0
    obtain ⟨hp1, hb1, hv1⟩ := capWord_fields v.toNat 1
    refine ⟨fun hr => ?_, fun hr hp hb => ?_, fun hr hp hb => ?_, fun ht hr h => ?_⟩
    · rw [capWrite_runs, Core.hCap_unarmed ha hr hv0, hp0, hb0]
      obtain ⟨hp, hb, harm, honly⟩ := Core.capSet_spec (c := s.core) (r := pComp + 0x400 + 8 * t) (p := v.toNat % 2 ^ 32)
        (b := v.toNat / 2 ^ 32 % 2 ^ 16)
      exact ⟨hp.trans (Nat.mod_mod _ _), hb.trans (Nat.mod_mod _ _), harm.trans hr, honly⟩
    · refine (runs_iff (d := s.core.hCap a t (setBits v.toNat 48 1 1)) rfl).mpr ?_
      rw [Core.hCap_arms ha hr hv1 (hp1.symm ▸ hp) (hb1.symm ▸ hb), hp1, hb1]
      obtain ⟨hp, hb, harm, hfull, honly⟩ := Core.capArmed_spec (c := s.core) (r := pComp + 0x400 + 8 * t) (t := t)
        (p := v.toNat % 2 ^ 32) (b := v.toNat / 2 ^ 32 % 2 ^ 16)
      exact ⟨hp.trans (Nat.mod_mod _ _), hb.trans (Nat.mod_mod _ _), harm, hfull, honly⟩
    · rw [capWrite_runs, Core.hCap_tightens ha hr (hp0.symm ▸ hp) (hb0.symm ▸ hb), hp0, hb0]
      obtain ⟨hp, hb, harm, honly⟩ := Core.capSet_spec (c := s.core) (r := pComp + 0x400 + 8 * t) (p := v.toNat % 2 ^ 32)
        (b := v.toNat / 2 ^ 32 % 2 ^ 16)
      exact ⟨hp.trans (Nat.mod_mod _ _), hb.trans (Nat.mod_mod _ _), harm.trans hr, honly⟩
    · rw [capWrite_runs, Core.hCap_refuses ha hr (by rw [hp0, hb0]; exact h)]
      exact ⟨Core.rd_reject_template ht, changes_reject .comp (by decide)⟩
  · refine ⟨fun hv => ?_, fun hv => ?_⟩
    · rw [deadlineWrite_runs, Core.hDeadline_takes ha hv]
      exact ⟨(Core.getF_setF_self _ _ _ _ _ (by decide)).trans (Nat.mod_mod _ _), fun b hb => Core.rd_setF_ne _ _ _ _ hb⟩
    · rw [deadlineWrite_runs, Core.hDeadline_refuses ha hv]
      exact Core.rd_reject_template ht

theorem egressGate : Stated.EgressGate := by
  refine ⟨fun s a v ha _ hpin hkill hsafe => ?_, fun s a v ha hno => ?_, fun s a v ha => ?_, fun s a v ha hpin hcyc => ?_, fun s hpin => ?_,
    fun s => ?_⟩
  · have hmay : s.core.mayOpen = true := by simp [Core.mayOpen, hpin, hkill, hsafe]
    rw [gateOpen_runs, Core.hGate_opens ha (bit_setBits_one _ _) hmay]
    exact ⟨Core.getB_setF_self _ _ _ _ (by decide), fun b hb => (Core.rd_setF_ne _ _ _ _ hb).trans (Core.killWritten_spec.2 b hb)⟩
  · have hmay : s.core.mayOpen = false := by rcases hno with h | h | h <;> simp [Core.mayOpen, h]
    rw [gateOpen_runs, Core.hGate_stays ha (bit_setBits_one _ _) hmay]
    exact Core.killWritten_spec.1
  · have hcloses := Core.hGate_closes (c := s.core) ha (bit_setBits_zero v.toNat 0)
    rw [gateClose_runs, hcloses]
    obtain ⟨hopen, -, hwire⟩ := Core.shutGate_spec (c := s.core.killWritten (setBits v.toNat 0 1 0))
    exact ⟨hopen, hwire⟩
  · exact killClear_runs.mpr (Core.hGate_clears ha hpin (bit_setBits_one _ _) hcyc)
  · exact (runs_iff (d := s.core.killAssert) rfl).mpr (Core.killAssert_spec hpin)
  · exact (runs_iff (d := s.core.killDeassert) rfl).mpr Core.killDeassert_spec

end Sys2Proof.Machine

open Sys2Proof Sys2Proof.Machine Sys2Proof.Stated

/-- Settles O17: the caps and deadlines by what a write does when taken and when refused, the gate by what a write may do to OPEN and KILL. -/
theorem capsAndGate : Obligations.CapsAndGate := ⟨capsAndDeadlines, egressGate⟩
end

