-- ==== Sys2Proof/Proofs/PortsAndLinks.lean ====
section
/-! PROOF. PORT_CFG and the links of the Ethernet ports (R211, R216, R241, R540). O14. -/

namespace Sys2Proof.Machine

section
variable {c : Core} {a : Access} {v lp old new b : Nat}

/-! ### PORT_CFG -/

/-- The core once the enables have gone from `old` to `new` for port `p` (R216, R241): enabled, it counts its frames from zero; disabled,
it has no link. -/
def Core.portSwitched (c : Core) (old new p : Nat) : Core :=
  if bit new p && !bit old p then { c with sep := { c.sep with counts := Store.set c.sep.counts 0 p 0 } }
  else if bit old p && !bit new p then c.setF (pPort + 0x88) p 1 0 else c

theorem Core.rd_portSwitched {p : Nat} (hb : b ≠ pPort + 0x88) : (c.portSwitched old new p).rd b = c.rd b := by
  unfold Core.portSwitched
  split
  · rfl
  · split
    · exact Core.rd_setF_ne _ _ _ _ hb
    · rfl

theorem Core.rd_portsSwitched (ps : List Nat) (hb : b ≠ pPort + 0x88) :
    (ps.foldl (fun c p => c.portSwitched old new p) c).rd b = c.rd b := by
  induction ps generalizing c with
  | nil => rfl
  | cons p ps ih => exact ih.trans (Core.rd_portSwitched hb)

/-- The core once a write of PORT_CFG has set MODE, or has been refused because a port is enabled (R211). -/
def Core.modeWritten (c : Core) (v : Nat) : Core :=
  if c.getF (pPort + 0x80) 2 8 ≠ 0 && c.getF (pPort + 0x80) 0 2 ≠ v % 4 then c.reject pPort 0x80 v else c.setF (pPort + 0x80) 0 2 v

/-- MODE changes only while every port is disabled. -/
theorem Core.getF_modeWritten : (c.modeWritten v).getF (pPort + 0x80) 0 2 =
    if c.getF (pPort + 0x80) 2 8 = 0 then v % 4 else c.getF (pPort + 0x80) 0 2 := by
  have hset : (c.setF (pPort + 0x80) 0 2 v).getF (pPort + 0x80) 0 2 = v % 4 := Core.getF_setF_self _ _ _ _ _ (by decide)
  have hrefused : (c.reject pPort 0x80 v).getF (pPort + 0x80) 0 2 = c.getF (pPort + 0x80) 0 2 :=
    Core.getF_logErr_ne _ _ _ _ _ _ _ _ (by unfold LogTouches; decide)
  unfold Core.modeWritten
  by_cases hold : c.getF (pPort + 0x80) 2 8 = 0
  · rw [if_neg (by simp [hold]), if_pos hold, hset]
  · rw [if_neg hold]
    by_cases hmode : c.getF (pPort + 0x80) 0 2 = v % 4
    · rw [if_neg (by simp [hmode]), hset, hmode]
    · rw [if_pos (by simp [hold, hmode]), hrefused]

/-- The core once a write of PORT_CFG has set the enables and the two port numbers. -/
def Core.portsWritten (c : Core) (v : Nat) : Core :=
  ((c.setF (pPort + 0x80) 2 8 (v / 4)).setF (pPort + 0x80) 10 3 (v / 2 ^ 10)).setF (pPort + 0x80) 13 3 (v / 2 ^ 13)

theorem Core.portsWritten_spec : (c.portsWritten v).getF (pPort + 0x80) 2 8 = v / 4 % 256 ∧
    (c.portsWritten v).getF (pPort + 0x80) 0 2 = c.getF (pPort + 0x80) 0 2 := by
  unfold Core.portsWritten
  constructor
  · rw [Core.getF_setF_apart _ _ _ _ _ _ _ (by decide) (by decide), Core.getF_setF_apart _ _ _ _ _ _ _ (by decide) (by decide)]
    exact Core.getF_setF_self _ _ _ _ _ (by decide)
  · rw [Core.getF_setF_apart _ _ _ _ _ _ _ (by decide) (by decide), Core.getF_setF_apart _ _ _ _ _ _ _ (by decide) (by decide),
      Core.getF_setF_apart _ _ _ _ _ _ _ (by decide) (by decide)]

theorem Core.hPortCfg_priv (ha : a.view = .priv) : c.hPortCfg a v =
    (List.range 8).foldl (fun e p => e.portSwitched (c.getF (pPort + 0x80) 2 8)
      (((c.modeWritten v).portsWritten v).getF (pPort + 0x80) 2 8) p) ((c.modeWritten v).portsWritten v) := by
  unfold Core.hPortCfg
  rw [if_neg (by simp [isPriv_of_view ha])]
  rfl

theorem Core.hPortCfg_spec (ha : a.view = .priv) : (c.hPortCfg a v).getF (pPort + 0x80) 2 8 = v / 4 % 256 ∧
    (c.hPortCfg a v).getF (pPort + 0x80) 0 2 =
      if c.getF (pPort + 0x80) 2 8 = 0 then v % 4 else c.getF (pPort + 0x80) 0 2 := by
  obtain ⟨henables, hmode⟩ := Core.portsWritten_spec (c := c.modeWritten v) (v := v)
  rw [Core.hPortCfg_priv ha, Core.getF_of_rd (Core.rd_portsSwitched _ (by decide)), Core.getF_of_rd (Core.rd_portsSwitched _ (by decide))]
  exact ⟨henables, hmode.trans Core.getF_modeWritten⟩

/-! ### Links -/

/-- A frame of a port whose link is lost at the instant `t`: where it is still arriving, it ends there, spoilt (R540). -/
def Frame.cutOff (f : Frame) (lp t : Nat) : Frame :=
  if f.src = lp ∧ t < f.tEnd then { f with uncorr := true, tEnd := max f.tStart t } else f

/-- LINK is no setting of the time unit. -/
theorem Core.now_setLink (k : Nat) : (c.setF (pPort + 0x88) lp 1 k).now = c.now :=
  Core.now_congr rfl fun b hb => Core.rd_setF_ne _ _ _ _ (by rcases hb with rfl | rfl <;> decide)

/-- LINK of one port, and no other register, takes the bit that is written. -/
theorem Core.setLink_spec (k : Nat) (hlp : lp < 8) : (c.setF (pPort + 0x88) lp 1 k).getB (pPort + 0x88) lp = decide (k % 2 = 1) ∧
    Stated.OnlyReg c (c.setF (pPort + 0x88) lp 1 k) (pPort + 0x88) :=
  ⟨Core.getB_setF_self _ _ _ _ (by omega), fun _ hb => Core.rd_setF_ne _ _ _ _ hb⟩

/-- The core with each frame that is kept changed. -/
def Core.mapFrames (c : Core) (g : Frame → Frame) : Core := { c with sep := { c.sep with frames := c.sep.frames.map g } }

theorem Core.rd_mapFrames (g : Frame → Frame) (b : Nat) : (c.mapFrames g).rd b = c.rd b := rfl

theorem Core.linkLoss_up (h : c.getB (pPort + 0x88) lp = true) :
    c.linkLoss lp = (c.setF (pPort + 0x88) lp 1 0).mapFrames fun f => f.cutOff lp c.now := by
  unfold Core.linkLoss
  rw [if_neg (by simp [h])]
  dsimp only
  rw [Core.now_setLink]
  rfl

theorem Core.linkLoss_spec (hlp : lp < 8) (h : c.getB (pPort + 0x88) lp = true) :
    (c.linkLoss lp).getB (pPort + 0x88) lp = false ∧ Stated.OnlyReg c (c.linkLoss lp) (pPort + 0x88) ∧
    (c.linkLoss lp).sep.frames = c.sep.frames.map fun f => f.cutOff lp c.now := by
  obtain ⟨hlink, honly⟩ := Core.setLink_spec (c := c) 0 hlp
  rw [Core.linkLoss_up h, Core.getB_of_rd (Core.rd_mapFrames _ _)]
  exact ⟨hlink, honly, rfl⟩

theorem Core.linkUp_on (h : c.lpOn lp = true) : c.linkUp lp = c.setF (pPort + 0x88) lp 1 1 := if_pos h

end

end Sys2Proof.Machine

open Sys2Proof Sys2Proof.Machine Sys2Proof.Stated

/-- Settles O14: PORT_CFG field by field, behind the ports that it switches, and LINK as each change leaves it. -/
theorem portsAndLinks : Obligations.PortsAndLinks := by
  refine ⟨fun s a v ha => ?_, fun s a v ha => ?_, fun s lp hlp hup => ?_, fun s lp hlp hon => ?_⟩
  · exact (runs_iff (d := s.core.hPortCfg a v.toNat) rfl).mpr (Core.hPortCfg_spec ha)
  · exact (runs_iff (d := s.core.hPortCfg a v.toNat) rfl).mpr (Core.hPortCfg_unpriv (decide_eq_false ha) _ _)
  · exact (runs_iff (d := s.core.linkLoss lp) rfl).mpr (Core.linkLoss_spec hlp hup)
  · refine (runs_iff (d := s.core.linkUp lp) rfl).mpr ?_
    rw [Core.linkUp_on hon]
    exact Core.setLink_spec 1 hlp
end

