-- ==== Sys2Proof/Proofs/FilterTable.lean ====
section
/-! PROOF. The filter table's staging area: changes staged, rejected, read, in force and over (R223). O15. -/

namespace Sys2Proof.Machine

/-! ### Little-endian fields -/

theorem leNat_lt (l : List Byte) : leNat l < 256 ^ l.length := by
  induction l with
  | nil => exact Nat.one_pos
  | cons b t ih =>
    have hb : b.toNat < 256 := b.isLt
    rw [leNat, List.length_cons, pow_succ]
    omega

theorem length_slice (l : List Byte) (o n : Nat) : (slice l o n).length = n := by
  unfold slice
  rw [List.length_append, List.length_take, List.length_drop, List.length_replicate]
  omega

theorem fld_lt (l : List Byte) (o n : Nat) : fld l o n < 256 ^ n := (leNat_lt _).trans_eq (by rw [length_slice])

section
variable {c : Core} {a : Access} {v k : Nat}

/-! ### A row of registers -/

/-- A write of each register `q + 8k` of a row leaves in it what was written there. -/
theorem Core.rd_wrRow {q : Nat} {x : Nat → Nat} (ks : List Nat) (hn : ks.Nodup) (hk : k ∈ ks) :
    (ks.foldl (fun c k => c.wr (q + 8 * k) (x k)) c).rd (q + 8 * k) = x k % 2 ^ 64 := by
  have hkeep (ks : List Nat) (c : Core) (h : k ∉ ks) :
      (ks.foldl (fun c k => c.wr (q + 8 * k) (x k)) c).rd (q + 8 * k) = c.rd (q + 8 * k) := by
    induction ks generalizing c with
    | nil => rfl
    | cons j ks ih =>
      obtain ⟨hj, hks⟩ := not_or.mp (mt List.mem_cons.mpr h)
      exact (ih _ hks).trans (Core.rd_wr_ne _ _ (by omega))
  induction ks generalizing c with
  | nil => cases hk
  | cons j ks ih =>
    obtain ⟨hj, hks⟩ := List.nodup_cons.mp hn
    rw [List.foldl_cons]
    rcases List.mem_cons.mp hk with rfl | hk
    · rw [hkeep _ _ hj, Core.rd_wr_self]
    · exact ih hks hk

/-! ### SEP_FLT_CMD -/

/-- The entry and the operation of a command's word. -/
theorem filterCmd_fields (v op : Nat) : setBits v 12 2 op % 4096 = v % 4096 ∧ setBits v 12 2 op / 4096 % 4 = op % 4 :=
  ⟨setBits_below v 12 2 op, setBits_field v 12 2 op⟩

/-- Entry `i` with its valid bit cleared. -/
def invalidated (e : FilterEntry) : FilterEntry := if e = [] then [] else splice e 2 [BitVec.ofNat 8 (fld e 2 1 % 128)]

/-- The core in which a change of entry `i` to `e` is staged for the tick of SEP_FLT_TICK and shows PENDING. -/
def Core.filterStaged (c : Core) (i : Nat) (e : FilterEntry) : Core :=
  let change := some (i, Store.get c.sep.filters [] i, c.rd (pSep + 0xC0))
  let d := { c with sep := { c.sep with filters := Store.set c.sep.filters [] i e, pending := change, pendingDone := false } }
  d.setF (pSep + 0xD0) 0 1 1

theorem Core.filterStaged_spec (i : Nat) (e : FilterEntry) :
    Store.get (c.filterStaged i e).sep.filters [] i = e ∧
    (∀ k, k ≠ i → Store.get (c.filterStaged i e).sep.filters [] k = Store.get c.sep.filters [] k) ∧
    (c.filterStaged i e).sep.pending = some (i, Store.get c.sep.filters [] i, c.rd (pSep + 0xC0)) ∧
    (c.filterStaged i e).getB (pSep + 0xD0) 0 = true :=
  ⟨Store.get_set_self .., fun _ hk => Store.get_set_ne _ _ _ hk, rfl, Core.getB_setF_self _ _ _ _ (by decide)⟩

/-- A rejected change leaves the table and shows REJECTED. -/
theorem Core.filterRej_spec : (c.filterRej v).sep = c.sep ∧ (c.filterRej v).getB (pSep + 0xD0) 1 = true := by
  have hlog : (c.filterRej v).rd (pSep + 0xD0) = (c.raiseF (pSep + 0xD0) 1).rd (pSep + 0xD0) :=
    Core.rd_logErr_ne _ _ _ _ _ _ (by unfold LogTouches; decide)
  rw [Core.getB_of_rd hlog]
  exact ⟨changes_filterRej .sep (by decide), Core.getB_raiseF_self _ _ _ (by decide)⟩

section
variable (ha : a.view = .priv)
include ha

theorem Core.hFilterCmd_reads : c.hFilterCmd a (setBits v 12 2 3) =
    (List.range 8).foldl (fun d k => d.wr (pSep + 0x80 + 8 * k) (fld (Store.get c.sep.filters [] (v % 4096)) (8 * k) 8)) c := by
  obtain ⟨hentry, hop⟩ := filterCmd_fields v 3
  unfold Core.hFilterCmd
  dsimp only
  rw [if_neg (by simp [isPriv_of_view ha]), if_pos hop, hentry]

theorem Core.hFilterCmd_rejects (hbad : filterOk c.stagedFilter = false) :
    c.hFilterCmd a (setBits v 12 2 1) = c.filterRej (setBits v 12 2 1) := by
  obtain ⟨-, hop⟩ := filterCmd_fields v 1
  unfold Core.hFilterCmd
  dsimp only
  rw [if_neg (by simp [isPriv_of_view ha]), hop, if_neg (by decide), if_neg (by decide), if_pos (by simp [hbad])]

section
variable (hfree : c.sep.pending = none) (hlead : c.lead200 (c.rd (pSep + 0xC0)) = true)
include hfree hlead

theorem Core.hFilterCmd_writes (hok : filterOk c.stagedFilter = true) :
    c.hFilterCmd a (setBits v 12 2 1) = c.filterStaged (v % 4096) c.stagedFilter := by
  obtain ⟨hentry, hop⟩ := filterCmd_fields v 1
  unfold Core.hFilterCmd
  dsimp only
  rw [if_neg (by simp [isPriv_of_view ha]), hop, hentry, if_neg (by decide), if_neg (by decide), if_neg (by simp [hfree, hlead, hok]),
    if_pos (by decide)]
  rfl

theorem Core.hFilterCmd_invalidates :
    c.hFilterCmd a (setBits v 12 2 2) = c.filterStaged (v % 4096) (invalidated (Store.get c.sep.filters [] (v % 4096))) := by
  obtain ⟨hentry, hop⟩ := filterCmd_fields v 2
  unfold Core.hFilterCmd
  dsimp only
  rw [if_neg (by simp [isPriv_of_view ha]), hop, hentry, if_neg (by decide), if_neg (by decide), if_neg (by simp [hfree, hlead]),
    if_neg (by decide)]
  rfl

end

end

/-- READ copies each word of the entry (R223). -/
theorem Core.hFilterCmd_reads_spec (ha : a.view = .priv) : (c.hFilterCmd a (setBits v 12 2 3)).sep = c.sep ∧
    ∀ k, k < 8 → (c.hFilterCmd a (setBits v 12 2 3)).rd (pSep + 0x80 + 8 * k) =
      fld (Store.get c.sep.filters [] (v % 4096)) (8 * k) 8 := by
  have hwrites : Changes [.regs] c (c.hFilterCmd a (setBits v 12 2 3)) := by
    rw [Core.hFilterCmd_reads ha]
    exact .foldl (fun _ _ => changes_wr) _ c
  refine ⟨hwrites .sep (by decide), fun k hk => ?_⟩
  rw [Core.hFilterCmd_reads ha, Core.rd_wrRow _ List.nodup_range (List.mem_range.mpr hk)]
  exact Nat.mod_eq_of_lt (fld_lt _ _ 8)

/-! ### The change in force, and over -/

section
variable {i t : Nat} {old : FilterEntry} (h : c.sep.pending = some (i, old, t))
include h

theorem Core.filterChangeEffect_spec (ht : c.tickBegun t = true) :
    c.filterChangeEffect.sep.pendingDone = true ∧ c.filterChangeEffect.sep.filters = c.sep.filters ∧
    c.filterChangeEffect.regs = c.regs := by
  unfold Core.filterChangeEffect
  rw [h]
  dsimp only
  rw [if_pos ht]
  exact ⟨rfl, rfl, rfl⟩

theorem Core.filterPendingClear_spec (hdone : c.sep.pendingDone = true) (hstarted : c.allStarted (t * nsN c.tickP) = true)
    (hparsed : ∀ f ∈ c.sep.frames, f.walkDone = true ∨ t ≤ c.tickAt f.tStart) :
    c.filterPendingClear.sep.pending = none ∧ c.filterPendingClear.getB (pSep + 0xD0) 0 = false ∧
    Stated.OnlyReg c c.filterPendingClear (pSep + 0xD0) := by
  have hall : (c.sep.frames.all fun f => f.walkDone || decide (t ≤ c.tickAt f.tStart)) = true := by simpa using hparsed
  unfold Core.filterPendingClear
  rw [h]
  dsimp only
  rw [if_pos (by rw [hdone, hstarted, hall]; rfl)]
  exact ⟨rfl, Core.getB_setF_self _ _ _ _ (by decide), fun b hb => Core.rd_setF_ne _ _ _ _ hb⟩

end

end

/-! ### The commands -/

section
variable {s : State} {a : Access} {v : Word64} {P : Core → Prop}

theorem filterWrite_runs : Stated.Runs (.filterWrite a v) s P ↔ P (s.core.hFilterCmd a (setBits v.toNat 12 2 1)) := runs_iff rfl

theorem filterInvalidate_runs : Stated.Runs (.filterInvalidate a v) s P ↔ P (s.core.hFilterCmd a (setBits v.toNat 12 2 2)) := runs_iff rfl

end

end Sys2Proof.Machine

open Sys2Proof Sys2Proof.Machine Sys2Proof.Stated

/-- Settles O15: the command by its operation, and the pending change by the two instants it waits for. -/
theorem filterStaging : Obligations.FilterStaging := by
  refine ⟨fun s a v ha hfree hlead => ⟨fun hok => ?_, fun hbad => ?_, ?_⟩, fun s a v ha => ?_, fun s i t old h ht => ?_,
    fun s i t old h hdone hstarted hparsed => ?_⟩
  · rw [filterWrite_runs, Core.hFilterCmd_writes ha hfree hlead hok]
    exact Core.filterStaged_spec _ _
  · rw [filterWrite_runs, Core.hFilterCmd_rejects ha hbad]
    exact Core.filterRej_spec
  · rw [filterInvalidate_runs, Core.hFilterCmd_invalidates ha hfree hlead]
    obtain ⟨hentry, -, hpending, hshown⟩ := Core.filterStaged_spec (c := s.core) (v.toNat % 4096)
      (invalidated (Store.get s.core.sep.filters [] (v.toNat % 4096)))
    exact ⟨hentry, hpending, hshown⟩
  · exact (runs_iff (d := s.core.hFilterCmd a (setBits v.toNat 12 2 3)) rfl).mpr (Core.hFilterCmd_reads_spec ha)
  · exact (runs_iff (d := s.core.filterChangeEffect) rfl).mpr (Core.filterChangeEffect_spec h ht)
  · exact (runs_iff (d := s.core.filterPendingClear) rfl).mpr (Core.filterPendingClear_spec h hdone hstarted hparsed)
end

