-- ==== Sys2Proof/Proofs/FramesLeave.lean ====
section
/-! PROOF. Template frames that start on the wire and result records that are released (R233 to R235, R240). O16. -/

namespace Sys2Proof.Machine

section
variable {c : Core} {lp t0 : Nat} {f : TxFrame} {rest : List TxFrame}

/-! ### The queue's head -/

theorem Core.flushTx_idle {t : Nat} (h : Store.get c.comp.inProg [] lp = []) : c.flushTx lp t = c := by
  unfold Core.flushTx
  rw [h]

theorem Core.templateFrameStart_due {t : Nat} (hidle : Store.get c.comp.inProg [] lp = []) (hqueue : c.queue lp = f :: rest)
    (hup : c.lpUp lp = true) (hen : c.en pComp = true) (hstart : c.mayStart lp f = some t) (hdue : t ≤ c.now) :
    c.templateFrameStart lp = if c.gateOpen then c.startFrame lp (c.exactly t) f else c.gateFrame lp f := by
  unfold Core.templateFrameStart
  rw [Core.flushTx_idle hidle]
  dsimp only
  rw [hqueue]
  dsimp only
  rw [if_neg (by simp [hup, hen, hidle]), hstart]
  dsimp only
  rw [if_neg (Nat.not_lt.mpr hdue)]
  cases c.gateOpen <;> rfl

/-- The core in which the head of a port's queue has left it and counter `k` of its template has counted it. -/
def Core.headCounted (c : Core) (lp : Nat) (f : TxFrame) (k : Nat) : Core := (c.setQueue lp (c.queue lp).tail).bump (aTmpl f.t k)

theorem Core.headCounted_comp (k : Nat) : (c.headCounted lp f k).comp = (c.setQueue lp (c.queue lp).tail).comp := Core.bump_comp _ _

theorem Core.queue_headCounted (hqueue : c.queue lp = f :: rest) (k : Nat) : (c.headCounted lp f k).queue lp = rest := by
  rw [Core.queue, Core.headCounted_comp, hqueue]
  exact Store.get_set_self ..

theorem Core.rd_headCounted {k : Nat} (h : c.frozenAt (aTmpl f.t k) = false) :
    (c.headCounted lp f k).rd (aTmpl f.t k) = (c.rd (aTmpl f.t k) + 1) % 2 ^ 48 := by
  have hfrozen : (c.setQueue lp (c.queue lp).tail).frozenAt (aTmpl f.t k) = false :=
    (Core.frozenAt_congr (Core.setQueue_rgns _ _ _) (fun _ _ => Core.rd_congr (Core.setQueue_regs _ _ _) _) _).trans h
  rw [Core.headCounted, Core.rd_bump_self _ _ hfrozen, Core.rd_congr (Core.setQueue_regs _ _ _)]

/-! ### With the gate open -/

/-- The image of a frame as it starts: its template's, with the sequence number and the checksums (R233). -/
def Core.finished (c : Core) (f : TxFrame) : List Byte :=
  match c.tmpl f.set f.t with
  | some tp => finishFrame tp (Store.get c.comp.seqs 0 (b2n f.set * 256 + f.t)) f.image
  | none => f.image

theorem Core.startFrame_inProg : (c.startFrame lp t0 f).comp.inProg =
    Store.set (c.headCounted lp f kSent).comp.inProg [] lp [{ f with image := c.finished f, start := t0 }] := rfl

theorem Core.startFrame_seqs : (c.startFrame lp t0 f).comp.seqs = Store.set (c.headCounted lp f kSent).comp.seqs 0 (b2n f.set * 256 + f.t)
    ((Store.get c.comp.seqs 0 (b2n f.set * 256 + f.t) + 1) % 2 ^ 32) := rfl

theorem Core.startFrame_spec (hqueue : c.queue lp = f :: rest) :
    (c.startFrame lp t0 f).queue lp = rest ∧
    Store.get (c.startFrame lp t0 f).comp.inProg [] lp = [{ f with image := c.finished f, start := t0 }] ∧
    Store.get (c.startFrame lp t0 f).comp.seqs 0 (b2n f.set * 256 + f.t) =
      (Store.get c.comp.seqs 0 (b2n f.set * 256 + f.t) + 1) % 2 ^ 32 ∧
    (c.frozenAt (aTmpl f.t kSent) = false →
      (c.startFrame lp t0 f).rd (aTmpl f.t kSent) = (c.rd (aTmpl f.t kSent) + 1) % 2 ^ 48) := by
  refine ⟨Core.queue_headCounted hqueue kSent, ?_, ?_, Core.rd_headCounted⟩
  · rw [Core.startFrame_inProg, Store.get_set_self]
  · rw [Core.startFrame_seqs, Store.get_set_self]

/-! ### With the gate closed -/

theorem Core.gateFrame_spec (hidle : Store.get c.comp.inProg [] lp = []) (hqueue : c.queue lp = f :: rest) :
    (c.gateFrame lp f).queue lp = rest ∧ Store.get (c.gateFrame lp f).comp.inProg [] lp = [] ∧
    (c.frozenAt (aTmpl f.t kGated) = false → (c.gateFrame lp f).rd (aTmpl f.t kGated) = (c.rd (aTmpl f.t kGated) + 1) % 2 ^ 48) := by
  refine ⟨Core.queue_headCounted hqueue kGated, ?_, Core.rd_headCounted⟩
  show Store.get (c.headCounted lp f kGated).comp.inProg [] lp = []
  rw [Core.headCounted_comp]
  exact hidle

/-! ### Records -/

theorem changes_sendEntries {s type : Nat} {l : List (List Byte)} : Changes [.regs, .kwn, .out] c (c.sendEntries s type l) := by
  unfold Core.sendEntries
  split
  · exact .refl
  · extract_lets lost body d
    have hd : Changes [.kwn] c d := changes_setSess
    exact .ite ((hd.trans changes_sendTo).mono rfl) ((changes_setSess.trans changes_bumpBy).mono rfl)

/-- Releasing a record takes it out of the results, and of the composer changes nothing else. -/
theorem Core.releaseRecord_comp (r : Result) : (c.releaseRecord r).comp = { c.comp with results := c.comp.results.erase r } := by
  unfold Core.releaseRecord
  extract_lets _ d e
  split
  · exact (Changes.foldl (fun _ _ => changes_sendEntries) _ e : Changes [.regs, .kwn, .out] e _) .comp (by decide)
  · rfl

theorem Core.resultRelease_final {r : Result} (hfirst : c.firstResult = some r) (hflags : c.flagsFinal r = true)
    (hearlier : c.earlierOpen r = false) : c.resultRelease = c.releaseRecord r := by
  unfold Core.resultRelease
  rw [hfirst]
  exact if_pos (by simp [hflags, hearlier])

end

end Sys2Proof.Machine

open Sys2Proof Sys2Proof.Machine Sys2Proof.Stated

/-- Settles O16: the head of a queue by the gate, and the record that is released. -/
theorem framesLeave : Obligations.FramesLeave := by
  refine ⟨fun s lp f rest t hidle hqueue hup hen hstart hdue => ⟨fun hopen => ?_, fun hclosed => ?_⟩,
    fun s r hfirst hflags hearlier => ?_⟩
  · refine (runs_iff (d := s.core.templateFrameStart lp) rfl).mpr ?_
    rw [Core.templateFrameStart_due hidle hqueue hup hen hstart hdue, if_pos hopen]
    exact Core.startFrame_spec hqueue
  · refine (runs_iff (d := s.core.templateFrameStart lp) rfl).mpr ?_
    rw [Core.templateFrameStart_due hidle hqueue hup hen hstart hdue, if_neg (Bool.eq_false_iff.mp hclosed)]
    exact Core.gateFrame_spec hidle hqueue
  · refine (runs_iff (d := s.core.resultRelease) rfl).mpr ?_
    rw [Core.resultRelease_final hfirst hflags hearlier, Core.releaseRecord_comp]
end

