-- ==== Sys2Proof/Proofs/FramesDisposed.lean ====
section
/-! PROOF. What becomes of received frames: codewords, event words and verdicts (R26, R214, R215, R226 to R230, R279). O12. -/

namespace Sys2Proof.Machine

section
variable {c : Core} {lp src len : Nat} {f : Frame} {p : Program} {k : ParseCase}

/-! ### Codewords -/

/-- A frame that a bad codeword of port `lp` touches, where it has no verdict yet (R214). -/
def Frame.spoilt (f : Frame) (lp : Nat) (nums : List Nat) : Frame :=
  if f.src = lp ∧ f.verdict.isNone ∧ nums.contains f.num then { f with uncorr := true } else f

theorem Core.fecUncorrectable_frames (hup : c.lpUp lp = true) (nums : List Nat) :
    (c.fecUncorrectable lp nums).sep.frames = c.sep.frames.map fun f => f.spoilt lp nums := by
  unfold Core.fecUncorrectable
  extract_lets a d
  have hd : d.sep = c.sep := (changes_setF.skipIf : Changes [.regs] c d) .sep (by decide)
  rw [if_neg (by simp [hup]), hd]
  rfl

/-! ### Event words -/

/-- The walk of a frame stands at a message that is whole and well formed, which its program's case `k` emits (R226). -/
structure Frame.Emits (f : Frame) (p : Program) (k : ParseCase) (len : Nat) : Prop where
  inside : f.walkOff < f.payLen
  count : f.walkCount < p.maxMsg
  least : 16 ≤ len
  length : msgLen p (slice f.bytes f.payOff f.payLen) f.walkOff = len
  fits : f.walkOff + len ≤ f.payLen
  selected : msgCase p (slice f.bytes f.payOff f.payLen) f.walkOff = some k
  emit : k.emit = true
  whole : msgShort p k len = false
  arrived : f.payOff + f.walkOff + len ≤ f.bytes.length

theorem Core.walk_emits (h : f.Emits p k len) (hnow : c.msgTime f (f.payOff + f.walkOff + len - 1) + stage1 f ≤ c.now) (fuel : Nat) :
    c.walk f p (fuel + 1) =
      (c.emitMsg f p k f.walkOff len).putFrame { f with walkOff := f.walkOff + len, walkCount := f.walkCount + 1 } := by
  obtain ⟨hinside, hcount, hleast, hlength, hfits, hselected, hemit, hwhole, harrived⟩ := h
  unfold Core.walk
  dsimp only
  rw [hlength, if_neg (by omega), if_neg (by omega), hselected]
  dsimp only
  rw [if_neg (by simp [hemit]), Int.toNat_natCast, if_neg (by simp [hwhole]), if_neg (Nat.not_lt.mpr harrived),
    if_neg (Nat.not_lt.mpr hnow)]

theorem Core.sendEvent_inbox (e : FordEv) (mask frame : Nat) : (c.sendEvent e mask frame).sep.inbox = c.sep.inbox ++ [e] :=
  congrArg Sep.inbox Core.sep_observe

/-- The event of a message goes on its way to the Ford, with its ingress timestamp, the regions of its frame and the words of R229
and R230. -/
theorem Core.emitMsg_inbox {off n : Nat} (hen : c.en pSep = true) (hn : c.msgTime f (f.payOff + off + len - 1) = n) :
    ∃ e, (c.emitMsg f p k off len).sep.inbox = c.sep.inbox ++ [e] ∧ e.src = f.src ∧ e.n = n ∧ e.tick = c.tickAt n ∧
      e.regions = maskBits 8 f.regions ∧ e.delta = 0 ∧
      e.word = toPayload (toLe 8 (srcClass f.src * 2 ^ 16 * 2 + srcIdx f.src * 2 ^ 20 +
          (msgFields p k (slice f.bytes (f.payOff + off) len)).2.1 + b2n (frameSpec f n) * 2 ^ 45 + f.num * 2 ^ 46) ++
        toLe 8 (linear n) ++ toLe 8 (c.tickAt n) ++ (msgFields p k (slice f.bytes (f.payOff + off) len)).1) := by
  subst hn
  unfold Core.emitMsg
  extract_lets msg x n tick w0 word poison d e
  have hsep : e.sep = c.sep := (Core.bump_sep d _).trans ((changes_bump.stepIf : Changes [.regs] c d) .sep (by decide))
  have hd : d.en pSep = true := by
    refine (Core.getB_of_rd ?_).trans hen
    unfold d
    split
    · exact Core.rd_bump_ne _ (by decide)
    · rfl
  rw [if_pos hd, Core.sendEvent_inbox, hsep]
  exact ⟨_, rfl, rfl, rfl, rfl, rfl, rfl, rfl⟩

/-- The offset at which the walk of a frame goes on: it begins behind what the program skips. -/
def Frame.walkFrom (f : Frame) (p : Program) : Nat := if f.walkCount = 0 ∧ f.walkOff = 0 then p.hdrSkip else f.walkOff

theorem Core.eventWordEmit_walks (hfind : (c.sep.frames.find? fun f => f.src = src && !f.walkDone) = some f)
    (hprog : c.progOf f = some p) : c.eventWordEmit src = (c.walk { f with walkOff := f.walkFrom p } p 66).pruneFrames := by
  have hfrom : (if f.walkCount = 0 ∧ f.walkOff = 0 then { f with walkOff := p.hdrSkip } else f) = { f with walkOff := f.walkFrom p } := by
    unfold Frame.walkFrom
    split <;> rfl
  unfold Core.eventWordEmit
  rw [hfind]
  dsimp only
  rw [hprog]
  dsimp only
  rw [hfrom]

/-! ### Verdicts -/

theorem Core.mem_putFrame {g x : Frame} (hx : x ∈ (c.putFrame g).sep.frames) (hsrc : x.src = g.src) (hnum : x.num = g.num) : x = g := by
  obtain ⟨y, -, rfl⟩ := List.mem_map.mp hx
  by_cases h : y.src = g.src ∧ y.num = g.num
  · exact if_pos h
  · rw [if_neg h] at hsrc hnum
    exact absurd ⟨hsrc, hnum⟩ h

theorem changes_observeVerdict {good : Bool} : Changes [.cap] c (c.observeVerdict f good) :=
  (Changes.trans (.put .cap) changes_observe).mono rfl

/-- Discarding a bad frame's events keeps the frames, and of the registers changes the Separator's counter of them. -/
theorem Core.dropUnreleased_spec : (c.dropUnreleased f).sep.frames = c.sep.frames ∧
    ∀ b, b ≠ pSep + 0x140 → (c.dropUnreleased f).rd b = c.rd b := by
  unfold Core.dropUnreleased
  extract_lets mine n d
  have hd : d.sep = c.sep := c.bumpBy_sep _ _
  refine ⟨?_, fun b hb => Core.rd_bumpBy_ne c _ hb⟩
  show d.sep.frames = c.sep.frames
  rw [hd]

theorem Core.rd_pruneFrames (b : Nat) : c.pruneFrames.rd b = c.rd b := rfl

theorem Core.mem_pruneFrames {x : Frame} (hx : x ∈ c.pruneFrames.sep.frames) : x ∈ c.sep.frames := (List.mem_filter.mp hx).1

/-- A verdict stands in its frame, and below the Separator's page it changes no register. -/
theorem Core.verdict_spec (good : Bool) :
    (∀ x ∈ (c.verdict f good).sep.frames, x.src = f.src → x.num = f.num → x.verdict = some good) ∧
    ∀ b, b < pSep → (c.verdict f good).rd b = c.rd b := by
  unfold Core.verdict
  extract_lets d e g
  have he : Changes [.cap] d e := changes_observeVerdict
  have hg : g.sep.frames = d.sep.frames ∧ ∀ b, b < pSep → g.rd b = d.rd b := by
    unfold g
    split
    · exact ⟨congrArg Sep.frames (he .sep (by decide)), fun b _ => Core.rd_congr (he .regs (by decide)) b⟩
    · obtain ⟨hframes, hrd⟩ := Core.dropUnreleased_spec (c := e) (f := f)
      exact ⟨hframes.trans (congrArg Sep.frames (he .sep (by decide))),
        fun b hb => (hrd b (by omega)).trans (Core.rd_congr (he .regs (by decide)) b)⟩
  clear_value g
  obtain ⟨hframes, hrd⟩ := hg
  refine ⟨fun x hx hsrc hnum => ?_, fun b hb => ?_⟩
  · have hx : x ∈ d.sep.frames := by
      have hx := Core.mem_pruneFrames hx
      rwa [(EgressOnly.settle g).sep, hframes] at hx
    rw [Core.mem_putFrame hx hsrc hnum]
  · rw [Core.rd_pruneFrames, (RdBelow.settle g).rd b (by unfold pSep at hb; omega), hrd b hb]
    exact Core.rd_congr (Core.putFrame_regs ..) b

/-- FCS_VERDICT of a due frame counts a bad one; whatever its class asks for besides, the frame takes its verdict. -/
theorem Core.fcsVerdict_due (hfind : (c.sep.frames.find? fun f => f.src = lp && f.verdict.isNone) = some f) (hlp : lp < 8)
    (hdue : c.verdictAt f ≤ c.now) :
    ∃ d : Core, c.fcsVerdict lp = d.verdict f (frameGood f) ∧
      d.rd (aLp lp + 0x28) = (if frameGood f then c else c.bump (aLp lp + 0x28)).rd (aLp lp + 0x28) := by
  unfold Core.fcsVerdict
  rw [hfind]
  dsimp only
  rw [if_neg (not_or.mpr ⟨Nat.not_le.mpr hlp, Nat.not_lt.mpr hdue⟩)]
  refine ⟨_, rfl, ?_⟩
  split
  · exact Core.rd_bump_ne _ (by omega)
  · split <;> rfl
  · split <;> rfl
  · split
    · unfold Core.answer
      split <;> rfl
    · rfl
  · rfl

theorem Core.fcsVerdict_spec (hfind : (c.sep.frames.find? fun f => f.src = lp && f.verdict.isNone) = some f) (hlp : lp < 8)
    (hdue : c.verdictAt f ≤ c.now) :
    (∀ x ∈ (c.fcsVerdict lp).sep.frames, x.src = f.src → x.num = f.num → x.verdict = some (frameGood f)) ∧
    (frameGood f = false → c.frozenAt (aLp lp + 0x28) = false →
      (c.fcsVerdict lp).rd (aLp lp + 0x28) = (c.rd (aLp lp + 0x28) + 1) % 2 ^ 48) := by
  obtain ⟨d, hd, hrd⟩ := Core.fcsVerdict_due hfind hlp hdue
  obtain ⟨hframes, hbelow⟩ := Core.verdict_spec (c := d) (f := f) (frameGood f)
  rw [hd]
  refine ⟨hframes, fun hbad hfrozen => ?_⟩
  rw [hbelow _ (by unfold aLp pPort pSep; omega), hrd, if_neg (Bool.eq_false_iff.mp hbad), Core.rd_bump_self c _ hfrozen]

end

/-! ### The two statements -/

theorem framesYieldEvents : Stated.FramesYieldEvents := by
  constructor
  · intro s lp nums hup
    exact (runs_iff (d := s.core.fecUncorrectable lp nums) rfl).mpr (Core.fecUncorrectable_frames hup nums)
  · intro s src f p k len hfind hprog off pay hinside hcount hleast hlen hfits hcase hemit hwhole harrived n hnow hen
    have h : Frame.Emits { f with walkOff := f.walkFrom p } p k len :=
      ⟨hinside, hcount, hleast, hlen, hfits, hcase, hemit, hwhole, harrived⟩
    refine (runs_iff (d := s.core.eventWordEmit src) rfl).mpr ?_
    rw [Core.eventWordEmit_walks hfind hprog, Core.walk_emits h hnow]
    exact Core.emitMsg_inbox hen rfl

theorem verdictArrives : Stated.VerdictArrives := fun s lp _ hfind hlp hdue =>
  (runs_iff (d := s.core.fcsVerdict lp) rfl).mpr (Core.fcsVerdict_spec hfind hlp hdue)

end Sys2Proof.Machine

open Sys2Proof Sys2Proof.Machine Sys2Proof.Stated

/-- Settles O12: codewords and event words, and the verdict of a frame. -/
theorem framesAreDisposed : Obligations.FramesAreDisposed := ⟨framesYieldEvents, verdictArrives⟩
end

