-- ==== Sys2Proof/Proofs/KeySlots.lean ====
section
/-! PROOF. KEY_CFG and the exact-match slots (R252, R275). O26. -/

namespace Sys2Proof.Machine

section
variable {c : Core} {m : Mem} {a : Access} {v x : Nat}

/-! ### KEY_CFG -/

/-- Between quiet owners the new owner and its enable are taken (R275). -/
theorem Core.hKeyCfg_takes (ha : a.view = .priv)
    (h : ((c.rgn (c.getF (pKey + 0x80) 0 3)).quiet && (c.rgn (v % 8)).quiet) = true) :
    c.hKeyCfg a v = (c.setF (pKey + 0x80) 0 3 v).setF (pKey + 0x80) 3 1 (v / 8) := by
  obtain ⟨hold, hnew⟩ := Bool.and_eq_true_iff.mp h
  unfold Core.hKeyCfg
  dsimp only
  rw [if_neg (by simp [isPriv_of_view ha, hold, hnew])]

theorem Core.hKeyCfg_refuses (h : ((c.rgn (c.getF (pKey + 0x80) 0 3)).quiet && (c.rgn (v % 8)).quiet) = false) :
    c.hKeyCfg a v = c := by
  unfold Core.hKeyCfg
  dsimp only
  rw [if_pos (by rcases Bool.and_eq_false_iff.mp h with h | h <;> simp [h])]

/-- KEY_CFG after a write that was taken. -/
theorem Core.keyCfg_spec :
    let d := (c.setF (pKey + 0x80) 0 3 v).setF (pKey + 0x80) 3 1 (v / 8)
    d.getF (pKey + 0x80) 0 3 = v % 8 ∧ d.getB (pKey + 0x80) 3 = bit v 3 ∧ Stated.OnlyReg c d (pKey + 0x80) :=
  ⟨(Core.getF_setF_apart _ _ _ _ _ _ _ (by decide) (.inl (by decide))).trans (Core.getF_setF_self _ _ _ _ _ (by decide)),
    Core.getB_setF_self _ _ _ _ (by decide),
    fun _ hb => (Core.rd_setF_ne _ _ _ _ hb).trans (Core.rd_setF_ne _ _ _ _ hb)⟩

/-! ### KEY_SLOT_CMD -/

/-- The operation of a slot command's word. -/
theorem slotCmd_op (v op : Nat) : setBits v 25 2 op / 2 ^ 25 % 4 = op % 4 := setBits_field v 25 2 op

/-- The core in which a write of the slot at `x` waits for the tick of KEY_SLOT_TICK and shows PENDING. -/
def Core.slotStaged (c : Core) (m : Mem) (x : Nat) : Core :=
  let change := some ⟨x, m.read x 16, c.stagedSlot, c.rd (pKey + 0xC0), false⟩
  let d := { c with key := { c.key with slotPend := change } }
  d.setF (pKey + 0xD0) 0 1 1

theorem Core.slotStaged_spec :
    (c.slotStaged m x).key.slotPend = some ⟨x, m.read x 16, c.stagedSlot, c.rd (pKey + 0xC0), false⟩ ∧
    (c.slotStaged m x).getB (pKey + 0xD0) 0 = true ∧ Stated.OnlyReg c (c.slotStaged m x) (pKey + 0xD0) :=
  ⟨rfl, Core.getB_setF_self _ _ _ _ (by decide), fun _ hb => Core.rd_setF_ne _ _ _ _ hb⟩

/-- A rejected slot command leaves the key stage and shows REJECTED. -/
theorem Core.slotRej_spec : (c.slotRej v).key = c.key ∧ (c.slotRej v).getB (pKey + 0xD0) 1 = true := by
  have hlog : (c.slotRej v).rd (pKey + 0xD0) = (c.raiseF (pKey + 0xD0) 1).rd (pKey + 0xD0) :=
    Core.rd_logErr_ne _ _ _ _ _ _ (by unfold LogTouches; decide)
  rw [Core.getB_of_rd hlog]
  exact ⟨changes_slotRej .key (by decide), Core.getB_raiseF_self _ _ _ (by decide)⟩

section
variable (ha : a.view = .priv)
include ha

theorem Core.hSlotCmd_stages (haddr : c.slotAddr (setBits v 25 2 1) = some x) (hfree : c.key.slotPend = none)
    (hlead : c.lead200 (c.rd (pKey + 0xC0)) = true) : c.hSlotCmd m a (setBits v 25 2 1) = c.slotStaged m x := by
  unfold Core.hSlotCmd
  dsimp only
  rw [slotCmd_op, if_neg (by simp [isPriv_of_view ha]), haddr]
  dsimp only
  rw [if_neg (by decide), if_neg (by simp [hfree, hlead])]
  rfl

theorem Core.hSlotCmd_rejects (h : c.slotAddr (setBits v 25 2 1) = none ∨ c.key.slotPend.isSome = true ∨
    c.lead200 (c.rd (pKey + 0xC0)) = false) : c.hSlotCmd m a (setBits v 25 2 1) = c.slotRej (setBits v 25 2 1) := by
  unfold Core.hSlotCmd
  dsimp only
  rw [slotCmd_op, if_neg (by simp [isPriv_of_view ha])]
  cases haddr : c.slotAddr (setBits v 25 2 1) with
  | none => rfl
  | some x =>
    have hlate : (c.key.slotPend.isSome || !c.lead200 (c.rd (pKey + 0xC0))) = true := by
      rcases h with h | h | h
      · exact absurd (haddr.symm.trans h) (by simp)
      · simp [h]
      · simp [h]
    dsimp only
    rw [if_neg (by decide), if_pos hlate]

theorem Core.hSlotCmd_reads (haddr : c.slotAddr (setBits v 25 2 2) = some x) : c.hSlotCmd m a (setBits v 25 2 2) =
    (c.wr (pKey + 0xB0) (fld (m.read x 16) 0 8)).wr (pKey + 0xB8) (fld (m.read x 16) 8 4) := by
  unfold Core.hSlotCmd
  dsimp only
  rw [slotCmd_op, if_neg (by simp [isPriv_of_view ha]), haddr]
  dsimp only
  rw [if_pos (by decide)]

end

/-- A read shows the 16 bytes of the slot in its two registers. -/
theorem Core.slotShown_spec (l : List Byte) :
    let d := (c.wr (pKey + 0xB0) (fld l 0 8)).wr (pKey + 0xB8) (fld l 8 4)
    d.rd (pKey + 0xB0) = fld l 0 8 ∧ d.rd (pKey + 0xB8) = fld l 8 4 ∧ d.key = c.key := by
  refine ⟨?_, ?_, rfl⟩
  · rw [Core.rd_wr_ne _ _ (by decide), Core.rd_wr_self]
    exact Nat.mod_eq_of_lt (fld_lt l 0 8)
  · rw [Core.rd_wr_self]
    exact Nat.mod_eq_of_lt ((fld_lt l 8 4).trans (by decide))

/-! ### The staged write takes effect -/

/-- The key stage after the staged write has taken effect: PENDING clears at once where no earlier event is left to look up. -/
theorem Core.slotSettle_done {p : SlotPend} :
    let d : Core := { c with key := { c.key with slotPend := some { p with done := true } } }
    (c.eventBefore p.tick = false → d.slotSettle.key.slotPend = none ∧ d.slotSettle.getB (pKey + 0xD0) 0 = false) ∧
    (c.eventBefore p.tick = true → d.slotSettle.key.slotPend = some { p with done := true } ∧ d.slotSettle.regs = c.regs) := by
  intro d
  have hbefore : d.slotSettle = if !c.eventBefore p.tick then
      ({ c with key := { c.key with slotPend := none } } : Core).setF (pKey + 0xD0) 0 1 0
    else { c with key := { c.key with slotPend := some { p with done := true } } } := rfl
  rw [hbefore]
  refine ⟨fun h => ?_, fun h => ?_⟩
  · rw [if_pos (by simp [h])]
    exact ⟨rfl, Core.getB_setF_self _ _ _ _ (by decide)⟩
  · rw [if_neg (by simp [h])]
    exact ⟨rfl, rfl⟩

theorem slotChangeEffect_due {p : SlotPend} (hpend : c.key.slotPend = some p) (hdone : p.done = false)
    (htick : c.tickBegun p.tick = true) : slotChangeEffect m c =
      (m.store p.addr p.new, ({ c with key := { c.key with slotPend := some { p with done := true } } } : Core).slotSettle) := by
  unfold slotChangeEffect
  rw [hpend]
  dsimp only
  rw [if_neg (by simp [hdone]), if_pos htick]

end

/-! ### The commands -/

section
variable {s : State} {a : Access} {v : Word64} {P : Core → Prop}

theorem keyCfgWrite_runs : Stated.Runs (.keyCfgWrite a v) s P ↔ P (s.core.hKeyCfg a v.toNat) := runs_iff rfl

theorem slotWrite_runs : Stated.Runs (.slotWrite a v) s P ↔ P (s.core.hSlotCmd s.mem a (setBits v.toNat 25 2 1)) := runs_iff rfl

theorem slotRead_runs : Stated.Runs (.slotRead a v) s P ↔ P (s.core.hSlotCmd s.mem a (setBits v.toNat 25 2 2)) := runs_iff rfl

end

end Sys2Proof.Machine

open Sys2Proof Sys2Proof.Machine Sys2Proof.Stated

/-- Settles O26: KEY_CFG by whether both owners are quiet, a slot command by its operation, and the staged write by its tick. -/
theorem keyConfigAndSlots : Obligations.KeyConfigAndSlots := by
  refine ⟨fun s a v ha => ?_, fun s a v ha => ⟨fun x haddr hfree hlead => ?_, fun h => ?_, fun x haddr => ?_⟩,
    fun s p hpend hdone htick => ?_⟩
  · refine keyCfgWrite_runs.mpr ⟨fun hfree => ?_, fun hbusy => Core.hKeyCfg_refuses hbusy⟩
    rw [Core.hKeyCfg_takes ha hfree]
    exact Core.keyCfg_spec
  · rw [slotWrite_runs, Core.hSlotCmd_stages ha haddr hfree hlead]
    exact Core.slotStaged_spec
  · rw [slotWrite_runs, Core.hSlotCmd_rejects ha h]
    exact Core.slotRej_spec
  · rw [slotRead_runs, Core.hSlotCmd_reads ha haddr]
    exact Core.slotShown_spec _
  · refine (runsDev_iff (r := slotChangeEffect s.mem s.core) rfl).mpr ?_
    rw [slotChangeEffect_due hpend hdone htick]
    exact ⟨Mem.read_store .., fun b hb => Mem.byte_store_out _ _ _ _ hb, Core.slotSettle_done⟩
end

