-- ==== Sys2Proof/Proofs/MemoryRanges.lean ====
section
/-! PROOF LAYER. What the bytes of memory read after a range has been cleared, listed bytes put, and a range copied; the poison marks
touch no byte. -/

namespace Sys2Proof.Machine

variable {m m' : Mem} {a b n : Nat}

/-! ### Ranges read -/

/-- Two ranges that agree byte by byte read alike. -/
theorem Mem.read_congr (h : ∀ i, i < n → m.byte (a + i) = m'.byte (b + i)) : m.read a n = m'.read b n := by
  induction n generalizing a b with
  | zero => rfl
  | succ n ih =>
    have h0 : m.byte a = m'.byte b := h 0 (Nat.succ_pos n)
    have hnext (i : Nat) (hi : i < n) : m.byte (a + 1 + i) = m'.byte (b + 1 + i) := by
      rw [Nat.add_right_comm a, Nat.add_right_comm b]
      exact h (i + 1) (Nat.succ_lt_succ hi)
    rw [Mem.read, Mem.read, h0, ih hnext]

/-- The bytes stored are read back. -/
theorem Mem.read_store_of_length {bs : List Byte} (h : bs.length = n) : (m.store a bs).read a n = bs := by
  rw [← h]
  exact Mem.read_store m a bs

/-! ### Poison marks -/

@[simp] theorem Mem.byte_setPoisons (f : Nat → Nat) (ws : List Nat) (m : Mem) :
    (ws.foldl (fun x w => x.setPoison (f w)) m).byte b = m.byte b := by
  induction ws generalizing m with
  | nil => rfl
  | cons w ws ih => exact ih _

/-! ### Ranges cleared -/

/-- A table of which only the keys of a predicate are kept. -/
theorem Store.get_filter_key {α : Type} (p : Nat → Bool) (s : Store α) (d : α) (k : Nat) :
    Store.get (s.filter fun e => p e.1) d k = if p k then Store.get s d k else d := by
  induction s with
  | nil => exact (ite_self d).symm
  | cons e s ih =>
    rw [List.filter_cons, Store.get_cons]
    by_cases hk : e.1 = k
    · subst hk
      cases hp : p e.1 with
      | true => simp [Store.get_cons]
      | false => simpa [hp] using ih
    · cases hp : p e.1 with
      | true => simpa [Store.get_cons, hk] using ih
      | false => simpa [hk] using ih

/-- A cleared range reads zero, and no other byte changes. -/
theorem Mem.byte_clear : (m.clear a n).byte b = if a ≤ b ∧ b < a + n then 0 else m.byte b := by
  have h := Store.get_filter_key (fun k => !(decide (a ≤ k) && decide (k < a + n))) m.bytes 0 b
  refine (show (m.clear a n).byte b = _ from h).trans ?_
  by_cases hb : a ≤ b ∧ b < a + n
  · simp [hb]
  · have hout : (!(decide (a ≤ b) && decide (b < a + n))) = true := by
      rw [← Bool.decide_and, decide_eq_false hb]
      rfl
    rw [if_pos hout, if_neg hb, Mem.byte]

/-- Several ranges, each cleared. -/
theorem Mem.byte_clears {β : Type} (f : β → Nat × Nat) (vs : List β) (m : Mem) :
    (vs.foldl (fun m v => m.clear (f v).1 (f v).2) m).byte b =
      if (vs.any fun v => decide ((f v).1 ≤ b) && decide (b < (f v).1 + (f v).2)) then 0 else m.byte b := by
  induction vs generalizing m with
  | nil => rfl
  | cons v vs ih =>
    rw [List.foldl_cons, ih, Mem.byte_clear, List.any_cons]
    by_cases hv : (f v).1 ≤ b ∧ b < (f v).1 + (f v).2
    · simp [hv]
    · have hout : (decide ((f v).1 ≤ b) && decide (b < (f v).1 + (f v).2)) = false := by
        rw [← Bool.decide_and, decide_eq_false hv]
      rw [if_neg hv, hout, Bool.false_or]

/-! ### Listed bytes -/

theorem Mem.byte_put_other {l : List (Nat × Byte)} (h : ∀ e ∈ l, e.1 ≠ b) : (m.put l).byte b = m.byte b := by
  unfold Mem.put
  induction l generalizing m with
  | nil => rfl
  | cons e l ih =>
    obtain ⟨he, hl⟩ := List.forall_mem_cons.mp h
    exact (ih hl).trans (Mem.byte_setByte_ne m e.2 he.symm)

/-- Of bytes listed once each, every one is put. -/
theorem Mem.byte_put_mem {l : List (Nat × Byte)} {x : Byte} (hn : l.Pairwise fun d e => d.1 ≠ e.1) (h : (b, x) ∈ l) :
    (m.put l).byte b = x := by
  induction l generalizing m with
  | nil => cases h
  | cons e l ih =>
    obtain ⟨he, hl⟩ := List.pairwise_cons.mp hn
    rcases List.mem_cons.mp h with rfl | h
    · refine (Mem.byte_put_other fun d hd => (he d hd).symm).trans ?_
      exact Mem.byte_setByte_self m b x
    · exact ih hl h

/-- What a table in canonical form holds under a key is its entry. -/
theorem Store.get_of_mem {α : Type} {s : Store α} {k : Nat} {x : α} (d : α) (hs : s.Pairwise fun e f => e.1 < f.1)
    (h : (k, x) ∈ s) : Store.get s d k = x := by
  induction s with
  | nil => cases h
  | cons e s ih =>
    obtain ⟨he, hs⟩ := List.pairwise_cons.mp hs
    rcases List.mem_cons.mp h with rfl | h
    · exact if_pos rfl
    · rw [Store.get_cons, if_neg (he (k, x) h).ne]
      exact ih hs h

/-- A key without an entry reads the default. -/
theorem Store.get_of_not_mem {α : Type} {s : Store α} {k : Nat} (d : α) (h : ∀ e ∈ s, e.1 ≠ k) : Store.get s d k = d := by
  induction s with
  | nil => rfl
  | cons e s ih =>
    obtain ⟨he, hs⟩ := List.forall_mem_cons.mp h
    rw [Store.get_cons, if_neg he]
    exact ih hs

/-! ### Ranges copied -/

section
variable {src dst : Nat}

/-- The listed bytes of a range, moved, are as many as the memory lists, each once. -/
theorem Mem.listed_nodup (hm : m.wf = true) : (m.listed src n dst).Pairwise fun d e => d.1 ≠ e.1 := by
  obtain ⟨hkeys, -⟩ := (Store.wf_iff 0 m.bytes).mp ((Mem.wf_iff m).mp hm).1
  unfold Mem.listed
  refine List.pairwise_map.mpr ((hkeys.filter _).imp_of_mem fun {d e} hd he hlt => ?_)
  have hd' := (List.mem_filter.mp hd).2
  simp only [Bool.and_eq_true, decide_eq_true_eq] at hd'
  omega

/-- A copy: the range of the destination takes the bytes of the source, and no other byte changes (R409). -/
theorem Mem.byte_copy (hm : m.wf = true) :
    (m.copy src dst n).byte b = if dst ≤ b ∧ b < dst + n then m.byte (src + (b - dst)) else m.byte b := by
  unfold Mem.copy
  rw [Mem.byte_setPoisons (fun a => a - src + dst)]
  by_cases hb : dst ≤ b ∧ b < dst + n
  · rw [if_pos hb]
    by_cases hx : ∃ x, (src + (b - dst), x) ∈ m.bytes
    · obtain ⟨x, hx⟩ := hx
      have hlisted : (b, x) ∈ m.listed src n dst := by
        refine List.mem_map.mpr ⟨(src + (b - dst), x), List.mem_filter.mpr ⟨hx, ?_⟩, ?_⟩
        · simp only [Bool.and_eq_true, decide_eq_true_eq]
          omega
        · rw [Prod.mk.injEq]
          exact ⟨by omega, rfl⟩
      obtain ⟨hkeys, -⟩ := (Store.wf_iff 0 m.bytes).mp ((Mem.wf_iff m).mp hm).1
      rw [Mem.byte_put_mem (Mem.listed_nodup hm) hlisted]
      exact (Store.get_of_mem 0 hkeys hx).symm
    · rw [Mem.byte_put_other, Mem.byte_clear, if_pos hb]
      · exact (Store.get_of_not_mem (0 : Byte) fun e (he : e ∈ m.bytes) hk => hx ⟨e.2, by rw [← hk]; exact he⟩).symm
      · intro e he hk
        obtain ⟨d, hd, rfl⟩ := List.mem_map.mp he
        obtain ⟨hmem, hin⟩ := List.mem_filter.mp hd
        simp only [Bool.and_eq_true, decide_eq_true_eq] at hin
        refine hx ⟨d.2, ?_⟩
        have hkey : src + (b - dst) = d.1 := by
          simp only at hk
          omega
        rw [hkey]
        exact hmem
  · rw [if_neg hb, Mem.byte_put_other, Mem.byte_clear, if_neg hb]
    intro e he hk
    obtain ⟨d, hd, rfl⟩ := List.mem_map.mp he
    obtain ⟨-, hin⟩ := List.mem_filter.mp hd
    simp only [Bool.and_eq_true, decide_eq_true_eq] at hin
    simp only at hk
    omega

theorem Mem.read_copy (hm : m.wf = true) : (m.copy src dst n).read dst n = m.read src n :=
  Mem.read_congr fun i hi => by rw [Mem.byte_copy hm, if_pos (by omega), Nat.add_sub_cancel_left]

theorem Mem.byte_copy_out (hm : m.wf = true) (h : b < dst ∨ dst + n ≤ b) : (m.copy src dst n).byte b = m.byte b := by
  rw [Mem.byte_copy hm, if_neg (by omega)]

end

end Sys2Proof.Machine
end

