-- ==== Sys2Proof/Proofs/RingCommands.lean ====
section
/-! PROOF. Ring reads, writes and ZERO_ALL (R270, R271, R290). O27. -/

namespace Sys2Proof.Machine

section
variable {c : Core} {m : Mem} {k : KeyMap} {base buf b : Nat}

/-! ### The end of a command, and one that goes on -/

theorem Core.ringEnd_spec (r : Nat) : (c.ringEnd r).key.ring = none ∧ (c.ringEnd r).rd (pKey + 0xA0) = 2 * r % 2 ^ 64 ∧
    Stated.OnlyReg c (c.ringEnd r) (pKey + 0xA0) :=
  have hregs : (c.ringEnd r).regs = (c.wr (pKey + 0xA0) (2 * r)).regs := rfl
  ⟨rfl, (Core.rd_congr hregs _).trans (Core.rd_wr_self _ _ _), fun b hb => (Core.rd_congr hregs b).trans (Core.rd_wr_ne _ _ hb)⟩

/-- The core in which a ring command is in progress. -/
def Core.ringBusy (c : Core) (op ring buf : Nat) : Core :=
  { c.wr (pKey + 0xA0) 1 with key := { c.key with ring := some { op := op, ring := ring, buf := buf, since := c.now } } }

theorem Core.ringBusy_spec (op : Nat) : (c.ringBusy op base buf).key.ring = some ⟨op, base, buf, c.now⟩ ∧
    (c.ringBusy op base buf).rd (pKey + 0xA0) = 1 ∧ Stated.OnlyReg c (c.ringBusy op base buf) (pKey + 0xA0) :=
  have hregs : (c.ringBusy op base buf).regs = (c.wr (pKey + 0xA0) 1).regs := rfl
  ⟨rfl, (Core.rd_congr hregs _).trans (Core.rd_wr_self _ _ _), fun b hb => (Core.rd_congr hregs b).trans (Core.rd_wr_ne _ _ hb)⟩

theorem Core.ringBusy_fab (op : Nat) : (c.ringBusy op base buf).fab = c.fab := rfl

/-! ### A ring and its lines -/

/-- A ring lies within the lines of its stride. -/
theorem kmRingSize_le (k : KeyMap) : kmRingSize k ≤ 64 * (kmStride k / 64) := by unfold kmStride; omega

theorem Core.length_committedRing (n : Nat) : (c.committedRing m base n).length = 64 * n := by
  unfold Core.committedRing ofPayload
  simp [List.length_flatMap, length_toLe, Nat.mul_comm]

/-- A copy of a ring's committed bytes changes the buffer, and no other byte (R270). -/
theorem ringCopy_spec : (ringCopy m c k base buf).1.read buf (kmRingSize k) =
      (c.committedRing m base (kmStride k / 64)).take (kmRingSize k) ∧
    ∀ b, b < buf ∨ buf + kmRingSize k ≤ b → (ringCopy m c k base buf).1.byte b = m.byte b := by
  have hlen : ((c.committedRing m base (kmStride k / 64)).take (kmRingSize k)).length = kmRingSize k := by
    rw [List.length_take, Core.length_committedRing]
    exact Nat.min_eq_left (kmRingSize_le k)
  unfold ringCopy
  refine ⟨?_, fun b hb => ?_⟩
  · refine Eq.trans (Mem.read_congr fun i _ => Mem.byte_setPoisons (fun w => w - base + buf) _ _) ?_
    exact Mem.read_store_of_length hlen
  · refine (Mem.byte_setPoisons (fun w => w - base + buf) _ _).trans (Mem.byte_store_out _ _ _ _ ?_)
    rwa [hlen]

/-! ### Writes given up -/

/-- The lines that a command writes have no write under way behind it (R290). -/
theorem Core.forgetLines_vwrites {p : Nat → Bool} {w : VWrite} (hw : w ∈ (c.forgetLines p).fab.vwrites) : p w.addr = false := by
  have h := (List.mem_filter.mp hw).2
  simpa using h

/-- A RESET_RGN that takes effect leaves the writes under way. -/
theorem Core.resetNow_vwrites (g : Nat) : (c.resetNow g).fab.vwrites = c.fab.vwrites := by
  unfold Core.resetNow
  extract_lets d e
  have hquiet : (e.onQuiet g).fab = e.fab := changes_onQuiet .fab (by decide)
  rw [hquiet]
  rfl

theorem Core.resetDue_vwrites (g : Nat) : (c.resetDue g).fab.vwrites = c.fab.vwrites := by
  unfold Core.resetDue
  split
  · exact Core.resetNow_vwrites g
  · rfl

/-- The core after every RESET_RGN that waited for the last record. -/
def Core.resetsDue (c : Core) : Core := (List.range 8).foldl (fun c g => c.resetDue g) c

theorem Core.resetsDue_vwrites : c.resetsDue.fab.vwrites = c.fab.vwrites := by
  unfold Core.resetsDue
  generalize List.range 8 = gs
  induction gs generalizing c with
  | nil => rfl
  | cons g gs ih => exact ih.trans (Core.resetDue_vwrites g)

/-- WRITE: the ring takes the bytes of the buffer, no other byte changes, and no write to its lines is left (R270, R290). -/
theorem ringPut_spec (hm : m.wf = true) :
    (ringPut m c k base buf).1.read base (kmRingSize k) = m.read buf (kmRingSize k) ∧
    (∀ b, b < base ∨ base + kmRingSize k ≤ b → (ringPut m c k base buf).1.byte b = m.byte b) ∧
    ∀ w ∈ (ringPut m c k base buf).2.fab.vwrites, ¬(base ≤ w.addr ∧ w.addr < base + 64 * (kmStride k / 64)) := by
  refine ⟨Mem.read_copy hm, fun b hb => Mem.byte_copy_out hm hb, fun w hw => ?_⟩
  unfold ringPut at hw
  dsimp only at hw
  rw [show (Core.readUe _ _ _ _).fab = _ from changes_readUe .fab (by decide)] at hw
  simpa using Core.forgetLines_vwrites hw

/-- ZERO_ALL: the ring areas read zero, no other byte changes, and no write to their lines is left (R271, R290). -/
theorem ringZero_spec : (∀ b, (ringZero m c k).1.byte b = if inArea k b then 0 else m.byte b) ∧
    ∀ w ∈ (ringZero m c k).2.fab.vwrites, inArea k w.addr = false :=
  ⟨fun _ => Mem.byte_clears (kmArea k) (kmVaults k) m, fun _ hw => Core.forgetLines_vwrites hw⟩

end

/-! ### KEY_RING_CMD -/

section
variable {c : Core} {m : Mem} {k : KeyMap} {a : Access} {v j l : Nat}

/-- The operation of a ring command's word. -/
theorem ringCmd_op (v op : Nat) : setBits v 28 2 op / 2 ^ 28 % 4 = op % 4 := setBits_field v 28 2 op

variable {op : Nat} (ha : a.view = .priv) (hidle : c.getB (pKey + 0xA0) 0 = false) (hk : c.keyMap = some k)
include ha hidle hk

/-- While the owner runs, WRITE and ZERO_ALL end with RESULT 2. -/
theorem ringCmd_refuses (hop : op = 2 ∨ op = 3) (hbusy : c.ownerBusy = true) :
    ringCmd m c a (setBits v 28 2 op) = (m, c.ringEnd 2) := by
  unfold ringCmd
  extract_lets o buf busy done
  have ho : o = op := (ringCmd_op v op).trans (Nat.mod_eq_of_lt (by omega))
  clear_value o
  subst ho
  rw [if_neg (by simp [isPriv_of_view ha]), if_neg (by simp [hidle]), if_neg (by omega)]
  split
  case h_1 h => exact absurd (hk.symm.trans h) nofun
  case h_2 =>
    have hne : o ≠ 1 := by omega
    rw [if_pos (by simp [hne, hbusy])]

/-- ZERO_ALL zeroes every ring and goes on until it is done. -/
theorem ringCmd_zeroes (hquiet : c.ownerBusy = false) : ringCmd m c a (setBits v 28 2 3) =
    ((ringZero m c k).1, (ringZero m c k).2.resetsDue.ringBusy 3 0 (c.rd (pKey + 0x98))) := by
  unfold ringCmd
  extract_lets o buf busy done
  have ho : o = 3 := ringCmd_op v 3
  clear_value o
  subst ho
  have hgoes : busy = fun c ring => c.ringBusy 3 ring buf := rfl
  have hdone : done = Core.resetsDue := rfl
  rw [if_neg (by simp [isPriv_of_view ha]), if_neg (by simp [hidle]), if_neg (by decide), hgoes, hdone]
  split
  case h_1 h => exact absurd (hk.symm.trans h) nofun
  case h_2 h =>
    obtain rfl := Option.some.inj (hk.symm.trans h)
    rw [if_neg (by simp [hquiet]), if_pos rfl]

/-- READ and WRITE of a ring that exists, with a buffer that they may use. -/
theorem ringCmd_named (hop : op = 1 ∨ op = 2 ∧ c.ownerBusy = false) (hnamed : ringNamed k (setBits v 28 2 op) = some (j, l))
    (hbuf : c.ringBufOk (op = 1) = true) : ringCmd m c a (setBits v 28 2 op) =
      let base := kmRingAt k j l
      let buf := c.rd (pKey + 0x98)
      if op = 2 then ((ringPut m c k base buf).1, (ringPut m c k base buf).2.resetsDue.ringBusy op base buf)
      else if c.ownerBusy then (m, c.ringBusy op base buf)
      else ((ringCopy m c k base buf).1, (ringCopy m c k base buf).2.ringEnd 0) := by
  unfold ringCmd
  extract_lets o buf busy done
  have ho : o = op := (ringCmd_op v op).trans (Nat.mod_eq_of_lt (by omega))
  clear_value o
  subst ho
  have hgoes : busy = fun c ring => c.ringBusy o ring buf := rfl
  have hdone : done = Core.resetsDue := rfl
  rw [if_neg (by simp [isPriv_of_view ha]), if_neg (by simp [hidle]), if_neg (by omega), hgoes, hdone]
  split
  case h_1 h => exact absurd (hk.symm.trans h) nofun
  case h_2 h =>
    obtain rfl := Option.some.inj (hk.symm.trans h)
    have hfree : ¬ (o ≠ 1 && c.ownerBusy) = true := by
      rcases hop with rfl | ⟨-, hquiet⟩
      · simp
      · simp [hquiet]
    rw [if_neg hfree, if_neg (by omega)]
    split
    case h_1 h => exact absurd (hnamed.symm.trans h) nofun
    case h_2 h =>
      obtain ⟨rfl, rfl⟩ := Prod.mk.inj (Option.some.inj (hnamed.symm.trans h))
      rw [if_neg (by simp [hbuf])]

end

/-! ### A command in progress -/

section
variable {c : Core} {m : Mem} {r : RingCmd} (hr : c.key.ring = some r)
include hr

/-- A READ that waits is made once the owner admits nothing any more (R270). -/
theorem ringReadCopy_quiet {k : KeyMap} (hop : r.op = 1) (hk : c.keyMap = some k) (hquiet : c.ownerBusy = false) :
    ringReadCopy m c = ((ringCopy m c k r.ring r.buf).1, (ringCopy m c k r.ring r.buf).2.ringEnd 0) := by
  obtain ⟨g, hg, -⟩ := Option.bind_eq_some_iff.mp hk
  unfold ringReadCopy
  rw [hr, hk, hg]
  simp [hop, hquiet]

theorem Core.ringReadBusy_late (hop : r.op = 1) (hlate : r.since + nsN 10000 ≤ c.now) : c.ringReadBusy = c.ringEnd 1 := by
  unfold Core.ringReadBusy
  rw [hr]
  exact if_pos (by simp [hop, hlate])

theorem Core.ringCommandDone_ends (hop : r.op ≠ 1) : c.ringCommandDone = c.ringEnd 0 := by
  unfold Core.ringCommandDone
  rw [hr]
  exact if_neg hop

end

/-! ### The commands -/

section
variable {s : State} {a : Access} {v : Word64} {P : Mem → Core → Prop}

theorem runsDev_devStep {i : Instr} {f : Mem → Core → Mem × Core} (h : exec i s = devStep f s) :
    Stated.RunsDev i s P ↔ P (f s.mem s.core).1 (f s.mem s.core).2 :=
  runsDev_iff (r := f s.mem s.core) (h.trans (devStep_eq f s))

theorem ringRead_runs : Stated.RunsDev (.ringRead a v) s P ↔
    P (ringCmd s.mem s.core a (setBits v.toNat 28 2 1)).1 (ringCmd s.mem s.core a (setBits v.toNat 28 2 1)).2 := 
  runsDev_devStep (f := fun m c => ringCmd m c a (setBits v.toNat 28 2 1)) rfl

theorem ringWrite_runs : Stated.RunsDev (.ringWrite a v) s P ↔
    P (ringCmd s.mem s.core a (setBits v.toNat 28 2 2)).1 (ringCmd s.mem s.core a (setBits v.toNat 28 2 2)).2 := 
  runsDev_devStep (f := fun m c => ringCmd m c a (setBits v.toNat 28 2 2)) rfl

theorem zeroAll_runs : Stated.RunsDev (.zeroAll a v) s P ↔
    P (ringCmd s.mem s.core a (setBits v.toNat 28 2 3)).1 (ringCmd s.mem s.core a (setBits v.toNat 28 2 3)).2 := 
  runsDev_devStep (f := fun m c => ringCmd m c a (setBits v.toNat 28 2 3)) rfl

end

end Sys2Proof.Machine

open Sys2Proof Sys2Proof.Machine Sys2Proof.Stated

/-- Settles O27: KEY_RING_CMD by its operation and by whether the owner runs, and the ways in which a command in progress ends. -/
theorem ringCommands : Obligations.RingCommands := by
  refine ⟨fun s a v k j l ha hm hidle hk => ⟨fun hnamed hbuf hquiet => ?_, fun hnamed hbuf hbusy => ?_, fun hnamed hbuf hquiet => ?_,
    fun hquiet => ?_, fun hbusy => ⟨?_, ?_⟩⟩, fun s r k hr hop hk hquiet => ?_, fun s r hr => ⟨fun hop hlate => ?_, fun hop => ?_⟩⟩
  · rw [ringRead_runs, ringCmd_named ha hidle hk (.inl rfl) hnamed hbuf, if_neg (by decide), if_neg (by simp [hquiet])]
    obtain ⟨hread, hkept⟩ := ringCopy_spec (m := s.mem) (c := s.core) (k := k) (base := kmRingAt k j l) (buf := s.core.rd (pKey + 0x98))
    obtain ⟨hnone, hstat, -⟩ := (ringCopy s.mem s.core k (kmRingAt k j l) (s.core.rd (pKey + 0x98))).2.ringEnd_spec 0
    exact ⟨hread, hkept, hstat, hnone⟩
  · rw [ringRead_runs, ringCmd_named ha hidle hk (.inl rfl) hnamed hbuf, if_neg (by decide), if_pos hbusy]
    exact ⟨rfl, Core.ringBusy_spec 1⟩
  · rw [ringWrite_runs, ringCmd_named ha hidle hk (.inr ⟨rfl, hquiet⟩) hnamed hbuf, if_pos rfl]
    obtain ⟨hread, hkept, hgone⟩ := ringPut_spec (c := s.core) (k := k) (base := kmRingAt k j l) (buf := s.core.rd (pKey + 0x98)) hm
    refine ⟨hread, hkept, (Core.ringBusy_spec 2).2.1, fun w hw => hgone w ?_⟩
    rwa [Core.ringBusy_fab, Core.resetsDue_vwrites] at hw
  · rw [zeroAll_runs, ringCmd_zeroes ha hidle hk hquiet]
    obtain ⟨hbytes, hgone⟩ := ringZero_spec (m := s.mem) (c := s.core) (k := k)
    refine ⟨fun b hb => (hbytes b).trans (if_pos hb), fun b hb => (hbytes b).trans (if_neg (by simp [hb])), (Core.ringBusy_spec 3).2.1,
      fun w hw => hgone w ?_⟩
    rwa [Core.ringBusy_fab, Core.resetsDue_vwrites] at hw
  · rw [ringWrite_runs, ringCmd_refuses ha hidle hk (.inl rfl) hbusy]
    exact ⟨rfl, (Core.ringEnd_spec 2).2.1⟩
  · rw [zeroAll_runs, ringCmd_refuses ha hidle hk (.inr rfl) hbusy]
    exact ⟨rfl, (Core.ringEnd_spec 2).2.1⟩
  · refine (runsDev_iff (r := ringReadCopy s.mem s.core) rfl).mpr ?_
    rw [ringReadCopy_quiet hr hop hk hquiet]
    obtain ⟨hread, hkept⟩ := ringCopy_spec (m := s.mem) (c := s.core) (k := k) (base := r.ring) (buf := r.buf)
    obtain ⟨hnone, hstat, -⟩ := (ringCopy s.mem s.core k r.ring r.buf).2.ringEnd_spec 0
    exact ⟨hread, hkept, hnone, hstat⟩
  · refine (runs_iff (d := s.core.ringReadBusy) rfl).mpr ?_
    rw [Core.ringReadBusy_late hr hop hlate]
    exact Core.ringEnd_spec 1
  · refine (runs_iff (d := s.core.ringCommandDone) rfl).mpr ?_
    rw [Core.ringCommandDone_ends hr hop]
    exact Core.ringEnd_spec 0
end

