-- ==== Sys2Proof/Proofs/Snapshots.lean ====
section
/-! PROOF. The tick at which a snapshot begins, and its image (R273, R274, R325). O28. -/

namespace Sys2Proof.Machine

section
variable {c : Core} {m : Mem} {x : Snap}

/-! ### The tick -/

/-- A snapshot whose copy has begun: with the bank that is active for the tick before its own, and that bank's flip tick (R273). -/
def Core.snapBegun (c : Core) (x : Snap) : Core :=
  let b := c.activeBank (x.tick - 1)
  let y := { x with copying := true, bank := b, flip := c.rd (pKey + 0xE8 + 8 * b) }
  ({ c with key := { c.key with snap := some y } } : Core).wr (pKey + 0x100) 2

theorem Core.snapshotTick_begins (hx : c.key.snap = some x) (hcopy : x.copying = false)
    (htick : c.tickBegun x.tick = true) : c.snapshotTick = c.snapBegun x := by
  unfold Core.snapshotTick
  rw [hx]
  dsimp only
  rw [if_pos (by simp [hcopy, htick])]
  rfl

/-! ### The image -/

/-- The header's parts come to one line (R325). -/
theorem length_snapHeader (x : Snap) (k : KeyMap) (prog digest : Word64) : (snapHeader x k prog digest).length = 64 := by
  unfold snapHeader
  simp only [List.length_append, length_toLe, List.length_singleton]

/-- The core after the copy has ended. -/
def Core.snapEnded (c : Core) (x : Snap) (n : Nat) : Core :=
  (({ c with key := { c.key with snap := none } } : Core).lpmMoved 5 x.dst (64 + n)).wr (pKey + 0x100) 3

theorem Core.snapEnded_spec (n : Nat) : (c.snapEnded x n).key.snap = none ∧ (c.snapEnded x n).rd (pKey + 0x100) = 3 :=
  ⟨congrArg KeyStage.snap (changes_lpmMoved .key (by decide)), Core.rd_wr_self _ _ _⟩

theorem snapshotDone_ends {k : KeyMap} (hx : c.key.snap = some x) (hk : c.keyMap = some k) (hcopy : x.copying = true)
    (hsettled : c.snapSettled x = true) :
    let n := 2 ^ 20 * kmStride k
    let g := c.getF (pKey + 0x80) 0 3
    let prog := (((c.rgn g).bin ((c.rgn g).setFor x.tick)).map (·.prog)).getD 0
    let image := snapImage m c x k
    snapshotDone m c = (image.store x.dst (snapHeader x k prog (crc64 (image.read (x.dst + 64) n))), c.snapEnded x n) := by
  unfold snapshotDone
  rw [hx, hk]
  dsimp only
  rw [if_pos (by simp [hcopy, hsettled])]
  rfl

end

end Sys2Proof.Machine

open Sys2Proof Sys2Proof.Machine Sys2Proof.Stated

/-- Settles O28: the copy as its tick leaves it, and the image behind the header that is stored in front of it. -/
theorem snapshotsCopy : Obligations.SnapshotsCopy := by
  refine ⟨fun s x hx hcopy htick => ?_, fun s x k hx hk hcopy hsettled => ?_⟩
  · refine (runs_iff (d := s.core.snapshotTick) rfl).mpr ?_
    rw [Core.snapshotTick_begins hx hcopy htick]
    exact ⟨rfl, Core.rd_wr_self _ _ _, fun b hb => Core.rd_wr_ne _ _ hb⟩
  · intro n g prog
    have hlen (digest : Word64) : (snapHeader x k prog digest).length = 64 := length_snapHeader x k prog digest
    obtain ⟨hnone, hstat⟩ := Core.snapEnded_spec (c := s.core) (x := x) n
    refine (runsDev_iff (r := snapshotDone s.mem s.core) rfl).mpr ?_
    rw [snapshotDone_ends hx hk hcopy hsettled]
    exact ⟨hnone, hstat, fun b hb => Mem.byte_store_out _ _ _ _ (.inr (by rw [hlen]; exact hb)), Mem.read_store_of_length (hlen _)⟩
end

