-- ==== Sys2Proof/Proofs/RingData.lean ====
section
/-! PROOF. Key caches, resolve points and vault accesses (R253, R255, R256, R287, R549). O10. -/

namespace Sys2Proof.Machine

/-! ### Key caches -/

section
variable {c : Core} {m : Mem} {cell : Nat} {tag : Tag} {set : Bool}

/-- Lines put into a cache change the cache alone. -/
theorem Core.cachePuts_spec (ls : List Nat) : (ls.foldl (fun c a => c.cachePut cell a) c).fab = c.fab ∧
    (ls.foldl (fun c a => c.cachePut cell a) c).key.lookups = c.key.lookups := by
  induction ls generalizing c with
  | nil => exact ⟨rfl, rfl⟩
  | cons a ls ih => exact ih

/-- A lookup with every line in the cache: it waits no more, the cached lines serve its event, and its prefetch is discarded (R256). -/
theorem Core.lookup_hit {i : Iter} {x : Ctx} {y : KeyCtx} (hi : (c.rgn (c.cellRgn cell)).iter tag set = some i)
    (hy : c.keyCtx cell set = some (x, y)) (hlines : c.fetchSet m (c.cellRgn cell) i y ≠ []) (hcache : c.hasCache cell set = true)
    (hall : (c.fetchSet m (c.cellRgn cell) i y).all (c.cached cell) = true) :
    (∀ e ∈ (c.lookup m cell tag set).key.lookups, ¬ (e.cell = cell ∧ e.tag = tag ∧ e.set = set)) ∧
    (⟨c.cellRgn cell, tag, set, false, true⟩ : Fetched) ∈ (c.lookup m cell tag set).fab.fetched ∧
    ∀ v ∈ (c.lookup m cell tag set).fab.vreads, ¬ (v.rgn = c.cellRgn cell ∧ v.tag = tag ∧ v.set = set) := by
  unfold Core.lookup
  extract_lets g _ d keep
  have hkept (e : Lookup) (he : e ∈ d.key.lookups) : ¬ (e.cell = cell ∧ e.tag = tag ∧ e.set = set) := by
    have h := (List.mem_filter.mp he).2
    simpa [imp_iff_not_or, or_assoc] using h
  have hiter : (d.rgn g).iter tag set = some i := hi
  have hctx : d.keyCtx cell set = some (x, y) := hy
  rw [hiter, hctx]
  dsimp only
  have hls : d.fetchSet m g i y = c.fetchSet m (c.cellRgn cell) i y := rfl
  have hhit : (decide (d.fetchSet m g i y ≠ []) && d.hasCache cell set && (d.fetchSet m g i y).all (d.cached cell)) = true := by
    rw [hls, decide_eq_true hlines]
    exact (Bool.and_eq_true_iff.mpr ⟨hcache, hall⟩)
  rw [if_pos hhit]
  obtain ⟨-, hlookups⟩ := Core.cachePuts_spec (c := d) (cell := cell) (d.fetchSet m g i y)
  refine ⟨fun e he => hkept e (hlookups ▸ he), List.mem_append_right _ (List.mem_singleton_self _), fun v hv => ?_⟩
  have h := (List.mem_filter.mp hv).2
  simpa [keep, g, imp_iff_not_or, or_assoc] using h

theorem Core.kcacheFire_looks {cell' at_ : Nat} {k : MemCtx}
    (hfind : (c.key.lookups.find? fun e => e.cell / 16 = cell / 16) = some ⟨cell', tag, set, at_⟩)
    (hbody : (c.ctx cell set).body = .mem k) (hop : k.op = .kcache) (hundo : k.undo = false) (hkind : kindOf cell = .mem) :
    c.kcacheFire m cell = c.lookup m cell' tag set := by
  unfold Core.kcacheFire
  rw [hfind]
  dsimp only
  rw [hbody]
  dsimp only
  rw [if_pos (by simp [hop, hundo, hkind])]

end

/-! ### Resolve points -/

section
variable {c : Core} {g : Nat} {f : Frame}

/-- A frame with a good verdict is in no dependence set of its region's records any more. -/
theorem not_mem_deps_resolveRecs {d : Nat × Nat} {l : List Undo} {u : Undo} (hu : u ∈ (resolveRecs g d true l).1) (hg : u.rgn = g) :
    d ∉ u.deps := by
  unfold resolveRecs at hu
  obtain ⟨w, -, rfl⟩ := List.mem_map.mp (List.mem_filter.mp hu).1
  by_cases hit : (decide (w.rgn = g) && w.deps.contains d) = true
  · rw [if_pos hit]
    intro hd
    simpa using (List.mem_filter.mp hd).2
  · rw [if_neg hit] at hg ⊢
    simpa [hg] using hit

/-- A frame as its resolve point in a region leaves it (R287). -/
def Frame.resolvedFor (x f : Frame) (g : Nat) : Frame :=
  if x.src = f.src ∧ x.num = f.num then
    { x with resolved := insertNat g x.resolved, verdict := some (x.verdict.getD false) }
  else x

theorem Frame.mem_resolvedFor {x : Frame} (hsrc : (x.resolvedFor f g).src = f.src) (hnum : (x.resolvedFor f g).num = f.num) :
    g ∈ (x.resolvedFor f g).resolved := by
  unfold Frame.resolvedFor at hsrc hnum ⊢
  split
  · exact mem_insertNat.mpr (.inl rfl)
  · next h =>
    rw [if_neg h] at hsrc hnum
    exact absurd ⟨hsrc, hnum⟩ h

/-- The resolve point of a frame with a good verdict: the records and the frames (R287). -/
theorem Core.resolveFrame_good (hv : f.verdict = some true) :
    (c.resolveFrame g f).key.undo = (resolveRecs g (f.src, f.num) true c.key.undo).1 ∧
    (c.resolveFrame g f).sep.frames = c.sep.frames.map fun x => x.resolvedFor f g := by
  unfold Core.resolveFrame
  extract_lets d c1 good live c2 snap _ c3 _ c4 c5
  have hsome : f.verdict.isSome = true := by rw [hv]; rfl
  have hc1 : c1 = c := if_pos hsome
  have hc5 : c5 = c4 := if_pos hv
  have hgood : decide good = true := decide_eq_true hv
  have hc2 : c2.sep = c.sep := by
    have hfold (ls : List (Nat × Payload)) (e : Core) : (ls.foldl (fun c e => c.putLine e.1 e.2 none) e).sep = e.sep := by
      induction ls generalizing e with
      | nil => rfl
      | cons l ls ih => exact ih _
    exact (hfold _ _).trans ((Core.bumpBy_sep ..).trans (by rw [hc1]))
  rw [if_pos hsome, (EgressOnly.settleRgn c5 g).key, (EgressOnly.settleRgn c5 g).sep, hc5]
  refine ⟨?_, ?_⟩
  · show live.1 = _
    unfold live
    rw [hgood, hc1]
  · show c3.sep.frames.map _ = _
    rw [show c3.sep = c.sep from hc2]
    rfl

/-- A region that waits for no reset is not reset. -/
theorem Core.resetDue_idle (h : (c.rgn g).resetWait = false) : c.resetDue g = c := by
  unfold Core.resetDue
  exact if_neg (by simp [h])

theorem FatesOnly.resetWait {d : Core} (h : FatesOnly c d) (g : Nat) : (d.rgn g).resetWait = (c.rgn g).resetWait :=
  (congrArg Rgn.resetWait (h g) : (d.rgn g).butFates.resetWait = (c.rgn g).butFates.resetWait)

/-- What a resolve point waits for: that every event before it has been collected, or in a halted region nothing but the verdict. -/
theorem Core.resolvePoint_due {src : Nat}
    (hfind : (c.sep.frames.find? fun f => f.src % 64 = src && bit f.regions g && !f.resolved.contains g) = some f)
    (hdue : f.tEnd + nsN (aSrc f.src) + nsN (c.dFord g) ≤ c.now)
    (hphase : (c.rgn g).phase = .halted ∨ (((c.rgn g).phase = .running ∨ (c.rgn g).phase = .draining) ∧ c.safe = false ∧
      c.allBefore g (c.resolveSlot g f) = true)) (hv : f.verdict = some true) :
    c.resolvePoint g src = ((c.resolveFrame g f).resetDue g).pruneFrames := by
  unfold Core.resolvePoint
  rw [hfind]
  dsimp only
  refine if_pos (Bool.and_eq_true_iff.mpr ⟨decide_eq_true hdue, ?_⟩)
  rcases hphase with hhalt | ⟨hrun, hsafe, hbefore⟩
  · rw [if_pos (by simp [hhalt]), hv]
    rfl
  · rw [if_neg (by rcases hrun with h | h <;> simp [h, hsafe]), hbefore]
    rcases hrun with h | h <;> simp [h]

theorem Core.resolvePoint_good {src : Nat}
    (hfind : (c.sep.frames.find? fun f => f.src % 64 = src && bit f.regions g && !f.resolved.contains g) = some f)
    (hdue : f.tEnd + nsN (aSrc f.src) + nsN (c.dFord g) ≤ c.now)
    (hphase : (c.rgn g).phase = .halted ∨ (((c.rgn g).phase = .running ∨ (c.rgn g).phase = .draining) ∧ c.safe = false ∧
      c.allBefore g (c.resolveSlot g f) = true)) (hv : f.verdict = some true) (hwait : (c.rgn g).resetWait = false) :
    (∀ u ∈ (c.resolvePoint g src).key.undo, u.rgn = g → (f.src, f.num) ∉ u.deps) ∧
    ∀ x ∈ (c.resolvePoint g src).sep.frames, x.src = f.src → x.num = f.num → g ∈ x.resolved := by
  obtain ⟨hundo, hframes⟩ := Core.resolveFrame_good (c := c) (g := g) hv
  rw [Core.resolvePoint_due hfind hdue hphase hv,
    Core.resetDue_idle (((FatesOnly.resolveFrame c g f).resetWait g).trans hwait)]
  refine ⟨fun u hu hg => ?_, fun x hx hsrc hnum => ?_⟩
  · rw [show (c.resolveFrame g f).pruneFrames.key = (c.resolveFrame g f).key from rfl, hundo] at hu
    exact not_mem_deps_resolveRecs hu hg
  · have hx := Core.mem_pruneFrames hx
    rw [hframes] at hx
    obtain ⟨y, -, rfl⟩ := List.mem_map.mp hx
    exact Frame.mem_resolvedFor hsrc hnum

end

/-! ### Vault accesses -/

section
variable {c : Core} {m : Mem}

/-- A read whose cycle has come leaves the vault's queue, and its event's data is there (R253, R549). -/
theorem Core.vaultReadDone_delivers {i : Nat} {v : VRead} (hi : c.fab.vreads[i]? = some v) (hdue : v.due ≤ c.clk.vc) :
    (c.vaultReadDone m i).fab.vreads = c.fab.vreads.eraseIdx i ∧
    ∃ f ∈ (c.vaultReadDone m i).fab.fetched, f.rgn = v.rgn ∧ f.tag = v.tag ∧ f.set = v.set := by
  unfold Core.vaultReadDone
  rw [hi]
  dsimp only
  rw [if_neg (Nat.not_lt.mpr hdue)]
  generalize (m.poison.filter fun w => v.lines.any fun l => decide (l ≤ 8 * w) && decide (8 * w < l + 64) &&
    !c.fab.vwrites.any fun q => decide (q.addr = l)) = words
  have hwords : (words.foldl (fun c w => c.vaultUe v.vault w) c).fab = c.fab :=
    Changes.foldl (fun _ _ => changes_vaultUe) words c .fab (by decide)
  generalize words.foldl (fun c w => c.vaultUe v.vault w) c = d at hwords ⊢
  refine ⟨congrArg (fun x : Fabric => x.vreads.eraseIdx i) hwords, ?_⟩
  unfold Core.itemDone
  dsimp only
  split
  · next had =>
    obtain ⟨f, hf, hf'⟩ := List.any_eq_true.mp had
    exact ⟨f, hf, by simpa [and_assoc] using hf'⟩
  · exact ⟨_, List.mem_append_right _ (List.mem_singleton_self _), rfl, rfl, rfl⟩

/-- The oldest write of a vault, once its KEY cell has written it, takes effect on its line (R403, R549). -/
theorem vaultCommit_oldest {v : Nat} {w : VWrite} (hfind : (c.fab.vwrites.find? fun w => w.vault = v) = some w)
    (hwait : w.wait = none) : vaultCommit m c v =
      (m.store w.addr (ofPayload w.line), { c with fab := { c.fab with vwrites := c.fab.vwrites.erase w } }) := by
  unfold vaultCommit
  rw [hfind]
  dsimp only
  rw [if_neg (by simp [hwait])]

end

end Sys2Proof.Machine

open Sys2Proof Sys2Proof.Machine Sys2Proof.Stated

/-- Settles O10: the lookup that hits, the resolve point of a frame whose verdict is good, and the two accesses of a vault. -/
theorem ringDataMoves : Obligations.RingDataMoves := by
  refine ⟨fun s cell cell' at_ tag set k i x y hfind hbody hop hundo hkind hi hy hlines hcache hall => ?_,
    fun s g src f hfind hdue hphase hv hwait => ?_, fun s i v hi hdue => ?_, fun s v w hfind hwait => ?_⟩
  · refine (runs_iff (d := s.core.kcacheFire s.mem cell) rfl).mpr ?_
    rw [Core.kcacheFire_looks hfind hbody hop hundo hkind]
    exact Core.lookup_hit hi hy hlines hcache hall
  · exact (runs_iff (d := s.core.resolvePoint g src) rfl).mpr (Core.resolvePoint_good hfind hdue hphase hv hwait)
  · exact (runs_iff (d := s.core.vaultReadDone s.mem i) rfl).mpr (Core.vaultReadDone_delivers hi hdue)
  · refine (runsDev_iff (r := vaultCommit s.mem s.core v) rfl).mpr ?_
    have hlen : (ofPayload w.line).length = 64 := length_toLe 64 _
    rw [vaultCommit_oldest hfind hwait]
    exact ⟨Mem.read_store_of_length hlen, fun b hb => Mem.byte_store_out _ _ _ _ (by rw [hlen]; exact hb), rfl⟩
end

