-- ==== Sys2Proof/Proofs/KeyCells.lean ====
section
/-! PROOF. KEY_EVENT_FIRE and KEY_DEFERRED_FIRE (R255, R265), and the lines that an event writes (R255). O9. -/

namespace Sys2Proof.Machine

/-! ### The iteration that a firing collects -/

section
variable {r : Rgn} {tag : Tag} {set : Bool} {i : Iter}

theorem Rgn.iter_name (h : r.iter tag set = some i) : i.tag = tag ∧ i.set = set := by
  simpa using List.find?_some h

/-- Whether a region holds an iteration of a name. -/
def Rgn.named (r : Rgn) (tag : Tag) (set : Bool) : Prop := ∃ j ∈ r.iters, j.tag = tag ∧ j.set = set

/-- Whether it holds one whose dependence set is final and whose key status is known. -/
def Rgn.gathered (r : Rgn) (tag : Tag) (set : Bool) : Prop :=
  ∃ j ∈ r.iters, j.tag = tag ∧ j.set = set ∧ j.final = true ∧ j.status.isSome = true

theorem Rgn.named_of_iter (h : r.iter tag set = some i) : r.named tag set :=
  ⟨i, List.mem_of_find?_eq_some h, Rgn.iter_name h⟩

/-- An iteration of a region, as far as fates go, is one of a region that agrees with it but for fates. -/
theorem Rgn.mem_of_butFates {q : Rgn} (h : q.butFates = r.butFates) {j : Iter} (hj : j ∈ r.iters) :
    ∃ k ∈ q.iters, ({ k with fate := .pending, undone := false } : Iter) = { j with fate := .pending, undone := false } := by
  have hiters : q.iters.map (fun i => ({ i with fate := .pending, undone := false } : Iter)) =
      r.iters.map fun i => { i with fate := .pending, undone := false } := congrArg Rgn.iters h
  exact List.mem_map.mp (hiters ▸ List.mem_map_of_mem hj)

theorem Rgn.named.of_butFates {q : Rgn} (hr : r.named tag set) (h : q.butFates = r.butFates) : q.named tag set := by
  obtain ⟨j, hj, htag, hset⟩ := hr
  obtain ⟨k, hk, he⟩ := Rgn.mem_of_butFates h hj
  exact ⟨k, hk, (congrArg Iter.tag he).trans htag, (congrArg Iter.set he).trans hset⟩

theorem Rgn.gathered.of_butFates {q : Rgn} (hr : r.gathered tag set) (h : q.butFates = r.butFates) : q.gathered tag set := by
  obtain ⟨j, hj, htag, hset, hfinal, hstatus⟩ := hr
  obtain ⟨k, hk, he⟩ := Rgn.mem_of_butFates h hj
  exact ⟨k, hk, (congrArg Iter.tag he).trans htag, (congrArg Iter.set he).trans hset, (congrArg Iter.final he).trans hfinal,
    (congrArg (fun i : Iter => i.status.isSome) he).trans hstatus⟩

/-- The iteration that stands for a name, or else one of that name, has that name. -/
theorem Rgn.getD_iter_name (h : i.tag = tag ∧ i.set = set) :
    ((r.iter tag set).getD i).tag = tag ∧ ((r.iter tag set).getD i).set = set := by
  cases hj : r.iter tag set with
  | none => exact h
  | some j => exact Rgn.iter_name hj

end

/-! ### A firing collects its iteration once -/

section
variable {c d : Core} {m : Mem} {cell g j l : Nat} {tok : Token} {i : Iter} {x : Ctx} {k : KeyCtx} {km : KeyMap}

/-- `d` is `c` after a collect of the iteration, with nothing of the regions but fates changed before and after it. -/
def Collects (c d : Core) (g : Nat) (i : Iter) : Prop :=
  ∃ (a : Core) (deps : List (Nat × Nat)) (status : Nat), FatesOnly c a ∧ FatesOnly (a.collected g i deps status) d

theorem Collects.resetWait (h : Collects c d g i) : (d.rgn g).resetWait = (c.rgn g).resetWait := by
  obtain ⟨a, deps, status, hbefore, hafter⟩ := h
  rw [hafter.resetWait, Core.collected, Core.rgn_modRgn_self]
  exact hbefore.resetWait g

theorem Collects.gathered (h : Collects c d g i) (hi : (c.rgn g).named i.tag i.set) : (d.rgn g).gathered i.tag i.set := by
  obtain ⟨a, deps, status, hbefore, hafter⟩ := h
  obtain ⟨j, hj, hname⟩ := hi.of_butFates (hbefore g)
  have hcollected : ((a.collected g i deps status).rgn g).gathered i.tag i.set := by
    rw [Core.collected, Core.rgn_modRgn_self]
    refine ⟨_, List.mem_map_of_mem hj, ?_⟩
    rw [if_pos (by simpa using hname)]
    exact ⟨hname.1, hname.2, rfl, rfl⟩
  exact hcollected.of_butFates (hafter g)

theorem Core.snapSave_rgns (c : Core) (m : Mem) (tick a : Nat) : (c.snapSave m tick a).rgns = c.rgns := by
  unfold Core.snapSave
  split
  · rfl
  · exact Core.rgns_ite rfl rfl

theorem Core.snapApply_rgns (c : Core) (m : Mem) (cell g tick base : Nat) (deps : List (Nat × Nat)) (old new : List Byte)
    (run : List Byte → List Byte) : (c.snapApply m cell g tick base deps old new run).rgns = c.rgns := by
  unfold Core.snapApply
  split
  · rfl
  · split
    · exact Core.rgns_foldl (fun c (e : Nat × Payload) => c.snapSave m tick e.1) (fun c e => Core.snapSave_rgns c m tick e.1) _ c
    · rfl

theorem Core.record_rgns (c : Core) (cell g : Nat) (deps : List (Nat × Nat)) (ch : List (Nat × Payload)) :
    (c.record cell g deps ch).rgns = c.rgns := by
  unfold Core.record
  exact Core.rgns_ite rfl rfl

theorem Core.putRing_rgns (c : Core) (cell base : Nat) (old new : List Byte) : (c.putRing cell base old new).rgns = c.rgns := by
  unfold Core.putRing
  extract_lets g
  refine Core.rgns_foldl _ (fun d e => ?_) _ c
  rfl

theorem Core.fireBare_collects : Collects c (c.fireBare cell g tok i x k) g i := by
  unfold Core.fireBare
  extract_lets null c1 status got _ c2 poison c3
  refine ⟨c3, i.deps, status, .of_rgns ?_, FatesOnly.settleRgn _ g⟩
  show c1.rgns = c.rgns
  exact Core.rgns_ite (Core.rgns_ite (Core.bump_rgns ..) rfl) (Core.bump_rgns ..)

theorem Core.fireRing_collects : Collects c (c.fireRing m cell g j l tok i x k km) g i := by
  unfold Core.fireRing
  extract_lets base n got _ c1 poison c2 s c3 _ c4 deps c5 old inp run res new ch full c6 c7 c8 st d6 d7 d8 d9 d10
  have h2 : c2.rgns = c.rgns := Core.bump_rgns ..
  have h3 : c3.rgns = c2.rgns := Core.rgns_ite (Core.bump_rgns ..) rfl
  have h5 : c5.rgns = c.rgns := (Core.rgns_ite rfl (Core.bump_rgns ..) : c5.rgns = c3.rgns).trans (h3.trans h2)
  split
  · refine ⟨c6, deps, 0, .of_rgns h5, .ite ?_ (FatesOnly.settleRgn c7 g)⟩
    have h8 : FatesOnly c7 c8 := .of_rgns (Core.bump_rgns ..)
    exact .ite h8 (h8.trans (FatesOnly.setFate c8 g _ _))
  · refine ⟨d10, deps, st, .of_rgns ?_, FatesOnly.settleRgn _ g⟩
    have h7 : d7.rgns = c5.rgns := (Core.bump_rgns ..).trans ((Core.bumpBy_rgns ..).trans (Core.bumpBy_rgns ..))
    have h9 : d9.rgns = d7.rgns := (Core.putRing_rgns ..).trans ((Core.record_rgns ..).trans (Core.snapApply_rgns ..))
    exact h9.trans (h7.trans h5)

/-- What an event does once the resolve points before it have come: with its ring, or without one (R254, R255). -/
def Core.keyApplied (c : Core) (m : Mem) (cell g : Nat) (tok : Token) (i : Iter) (x : Ctx) (k : KeyCtx) : Core :=
  match i.home, c.keyMapOf g i.set with
  | .ring j l, some km => c.fireRing m cell g j l tok i x k km
  | _, _ => c.fireBare cell g tok i x k

theorem Core.keyApplied_collects : Collects c (c.keyApplied m cell g tok i x k) g i := by
  unfold Core.keyApplied
  split
  · exact Core.fireRing_collects
  · exact Core.fireBare_collects

theorem KeyOnly.keyApplied : KeyOnly c (c.keyApplied m cell g tok i x k) := by
  unfold Core.keyApplied
  split
  · exact KeyOnly.fireRing ..
  · exact KeyOnly.fireBare ..

end

/-! ### KEY_EVENT_FIRE -/

section
variable {c : Core} {m : Mem} {cell : Nat} {tok : Token} {i : Iter} {x : Ctx} {k : KeyCtx}

/-- The iteration of an event that is ready stands in the cell's region under the token's name. -/
theorem Core.keyReady_iter (h : c.keyReady cell = some (tok, i, x, k)) :
    (c.rgn (c.cellRgn cell)).iter tok.tag tok.set = some i := by
  unfold Core.keyReady at h
  extract_lets g r at h
  split at h
  · exact absurd h nofun
  split at h
  · exact absurd h nofun
  next held _ =>
  split at h
  · next e y q he hy =>
    extract_lets due here have_ ahead at h
    split at h
    · cases h
      exact he
    · exact absurd h nofun
  · exact absurd h nofun

/-- An event that is ready and not early takes its token, lets the resolve points before it come, and is collected. -/
theorem Core.keyEventFire_ready (h : c.keyReady cell = some (tok, i, x, k)) (he : c.early cell x 0 tok = false) :
    c.keyEventFire m cell =
      ((((c.taken cell [0] tok.set).resolveFor (c.cellRgn cell) i.slot).keyApplied m cell (c.cellRgn cell)
        { tok with poison := tok.poison || c.ctxPoison cell tok.set }
        (((((c.taken cell [0] tok.set).resolveFor (c.cellRgn cell) i.slot).rgn (c.cellRgn cell)).iter i.tag i.set).getD i) x k).resetDue
        (c.cellRgn cell)).pruneFrames := by
  unfold Core.keyEventFire
  rw [h]
  dsimp only
  rw [he, if_neg Bool.false_ne_true]
  rfl

theorem Core.keyEventFire_fires (h : c.keyReady cell = some (tok, i, x, k)) (he : c.early cell x 0 tok = false)
    (hwait : (c.rgn (c.cellRgn cell)).resetWait = false) :
    (c.keyEventFire m cell).heldAt cell 0 = (c.heldAt cell 0).tail ∧ (c.keyEventFire m cell).hasFired cell 0 = true ∧
    ((c.keyEventFire m cell).rgn (c.cellRgn cell)).gathered i.tag i.set := by
  obtain ⟨hheld, -, hfired, -, hrgns, -⟩ := Core.taken_spec c cell [0] tok.set (List.nodup_singleton 0)
  have hiter := Core.keyReady_iter h
  have hname := Rgn.iter_name hiter
  rw [Core.keyEventFire_ready h he]
  generalize c.cellRgn cell = g at *
  generalize c.taken cell [0] tok.set = t at *
  have hresolved : FatesOnly t (t.resolveFor g i.slot) := FatesOnly.resolveUpTo t g _
  have hkey : KeyOnly t (t.resolveFor g i.slot) := KeyOnly.resolveFor ..
  generalize t.resolveFor g i.slot = d at *
  obtain ⟨htag, hset⟩ := Rgn.getD_iter_name (r := d.rgn g) (i := i) ⟨rfl, rfl⟩
  generalize ((d.rgn g).iter i.tag i.set).getD i = i' at *
  generalize ({ tok with poison := tok.poison || c.ctxPoison cell tok.set } : Token) = tok'
  have happlied : Collects d (d.keyApplied m cell g tok' i' x k) g i' := Core.keyApplied_collects
  replace hkey := hkey.trans (KeyOnly.keyApplied (m := m) (cell := cell) (g := g) (tok := tok') (i := i') (x := x) (k := k))
  rw [Core.resetDue_idle (happlied.resetWait.trans ((hresolved.resetWait g).trans ((congrArg Rgn.resetWait (Core.rgn_congr hrgns g)).trans hwait)))]
  refine ⟨?_, ?_, ?_⟩
  · rw [← hheld 0 (List.mem_singleton_self 0)]
    exact congrArg (fun l => Store.get l [] (cell * 4 + 0)) hkey.held
  · exact (Core.hasFired_congr hkey.fired hkey.clk cell 0).trans hfired
  · rw [← htag, ← hset]
    refine happlied.gathered (Rgn.named.of_butFates ?_ (hresolved g))
    rw [Core.rgn_congr hrgns, htag, hset, hname.1, hname.2]
    exact Rgn.named_of_iter hiter

end

/-! ### KEY_DEFERRED_FIRE -/

section
variable {c d e : Core} {m : Mem} {cell g : Nat} {tok : Token} {i : Iter} {x : Ctx} {k : KeyCtx}

/-- A step of the key stage that touches no region but for fates. -/
def KeyFates (c d : Core) : Prop := KeyOnly c d ∧ FatesOnly c d

theorem KeyFates.trans (h : KeyFates c d) (h' : KeyFates d e) : KeyFates c e := ⟨h.1.trans h'.1, h.2.trans h'.2⟩

theorem KeyFates.ite {p : Prop} [Decidable p] (h : KeyFates c d) (h' : KeyFates c e) : KeyFates c (if p then d else e) := by
  split <;> assumption

theorem KeyFates.refl (c : Core) : KeyFates c c := ⟨.refl c, .refl c⟩

theorem KeyFates.bumpBy (c : Core) (a n : Nat) : KeyFates c (c.bumpBy a n) :=
  ⟨(EgressOnly.bumpBy ..).keyOnly, .of_rgns (Core.bumpBy_rgns ..)⟩

theorem KeyFates.resolveUpTo (c : Core) (g : Nat) (p : Frame → Bool) : KeyFates c (c.resolveUpTo g p) :=
  ⟨.resolveUpTo c g p, FatesOnly.resolveUpTo c g p⟩

/-- A change that is carried into a snapshot, recorded and written. -/
theorem KeyFates.change (c : Core) (m : Mem) (cell g tick base : Nat) (deps : List (Nat × Nat)) (ch : List (Nat × Payload))
    (old new : List Byte) (run : List Byte → List Byte) :
    KeyFates c (((c.snapApply m cell g tick base deps old new run).record cell g deps ch).putRing cell base old new) :=
  ⟨((KeyOnly.snapApply ..).trans (.record ..)).trans (.putRing ..),
    .of_rgns ((Core.putRing_rgns ..).trans ((Core.record_rgns ..).trans (Core.snapApply_rgns ..)))⟩

/-- A deferred token that is due and not early leaves its queue; what it writes then touches no region but for fates. -/
theorem Core.keyDeferredFire_ready (h : c.deferReady cell = some (tok, i, x, k)) (he : c.early cell x 1 tok = false) :
    ∃ d, KeyFates (((c.setHeld cell 1 (dropOne i.tag i.set (c.heldAt cell 1))).markFired cell 1).readCtx cell tok.set) d ∧
      c.keyDeferredFire m cell = (d.resetDue (c.cellRgn cell)).pruneFrames := by
  unfold Core.keyDeferredFire
  split
  · next hnone => exact absurd (h.symm.trans hnone) nofun
  next _ i' x' k' hsome =>
  obtain ⟨rfl, rfl, rfl, rfl⟩ : tok = _ ∧ i = i' ∧ x = x' ∧ k = k' := by simpa using h.symm.trans hsome
  extract_lets g tok' t pos drop d j own w
  refine ⟨_, ?_, if_neg (by rw [he]; exact Bool.false_ne_true)⟩
  refine (KeyFates.resolveUpTo t g _ : KeyFates t d).trans ?_
  have hdrop : KeyFates d (drop d) := .ite (.bumpBy ..) (.refl d)
  unfold w
  split
  · next j' l km _ _ =>
    refine .ite hdrop ?_
    extract_lets base n old run res deps ch bad c1 c2
    exact .ite (.refl d) (.ite hdrop (((KeyFates.bumpBy ..).trans (.bumpBy ..)).trans (.change ..)))
  · exact hdrop

theorem Core.keyDeferredFire_fires (h : c.deferReady cell = some (tok, i, x, k)) (he : c.early cell x 1 tok = false)
    (hwait : (c.rgn (c.cellRgn cell)).resetWait = false) :
    (c.keyDeferredFire m cell).heldAt cell 1 = dropOne i.tag i.set (c.heldAt cell 1) ∧
    (c.keyDeferredFire m cell).hasFired cell 1 = true := by
  obtain ⟨d, ⟨hkey, hfates⟩, hd⟩ := Core.keyDeferredFire_ready (m := m) h he
  obtain ⟨hfab, hrgns, hclk, -⟩ :=
    Core.readCtx_spec ((c.setHeld cell 1 (dropOne i.tag i.set (c.heldAt cell 1))).markFired cell 1) cell tok.set
  have hidle : d.resetDue (c.cellRgn cell) = d :=
    Core.resetDue_idle ((hfates.resetWait _).trans ((congrArg Rgn.resetWait (Core.rgn_congr hrgns _)).trans hwait))
  rw [hd, hidle]
  refine ⟨?_, ?_⟩
  · rw [Core.heldAt_eq]
    show Store.get d.fab.held [] _ = _
    rw [hkey.held, hfab]
    exact (Core.setHeld_get ..).trans (if_pos rfl)
  · refine (Core.hasFired_congr (hkey.fired.trans (congrArg Fabric.fired hfab)) (hkey.clk.trans hclk) cell 1).trans ?_
    exact Core.hasFired_markFired ..

end

/-! ### The lines that an event writes -/

section
variable {c d e : Core} {m : Mem} {cell g j l : Nat} {tok : Token} {i : Iter} {x : Ctx} {k : KeyCtx} {km : KeyMap}

/-- `d` agrees with `c` on what decides the lines that an event writes and where it is counted: queued writes, regions, tasks, records,
the snapshot, the pages' control registers, MDW_REGION and the count of events. -/
structure WritesAlike (c d : Core) : Prop where
  vwrites : d.fab.vwrites = c.fab.vwrites
  rgns : d.rgns = c.rgns
  task : d.task = c.task
  undo : d.key.undo = c.key.undo
  snap : d.key.snap = c.key.snap
  rd : ∀ b, b % 0x1000 = 0x18 ∨ b % 0x1000 = 0x80 ∨ b = pKey + 0x180 → d.rd b = c.rd b

theorem WritesAlike.refl (c : Core) : WritesAlike c c := ⟨rfl, rfl, rfl, rfl, rfl, fun _ _ => rfl⟩

theorem WritesAlike.trans (h : WritesAlike c d) (h' : WritesAlike d e) : WritesAlike c e :=
  ⟨h'.vwrites.trans h.vwrites, h'.rgns.trans h.rgns, h'.task.trans h.task, h'.undo.trans h.undo, h'.snap.trans h.snap,
    fun b hb => (h'.rd b hb).trans (h.rd b hb)⟩

theorem WritesAlike.ite {p : Prop} [Decidable p] (h : WritesAlike c d) (h' : WritesAlike c e) :
    WritesAlike c (if p then d else e) := by split <;> assumption

/-- A counter of the key stage's page but that of its events. -/
theorem WritesAlike.bumpBy {a : Nat} (n : Nat) (ha : a % 0x1000 ≠ 0x18 ∧ a % 0x1000 ≠ 0x80 ∧ a ≠ pKey + 0x180) :
    WritesAlike c (c.bumpBy a n) :=
  ⟨by rw [Core.bumpBy_fab], Core.bumpBy_rgns .., Core.bumpBy_task .., by rw [Core.bumpBy_key], by rw [Core.bumpBy_key],
    fun b hb => Core.rd_bumpBy_ne c n (by omega)⟩

theorem WritesAlike.frozenAt (h : WritesAlike c d) (a : Nat) : d.frozenAt a = c.frozenAt a :=
  Core.frozenAt_congr h.rgns (fun b hb => h.rd b (hb.imp_right .inl)) a

/-- A cell that takes its tokens. -/
theorem WritesAlike.taken {ports : List Nat} (hn : ports.Nodup) (set : Bool) : WritesAlike c (c.taken cell ports set) := by
  obtain ⟨-, -, -, hfab, hrgns, -, htask, -, hrd⟩ := Core.taken_spec c cell ports set hn
  have hkey : (c.taken cell ports set).key = c.key := changes_taken hn .key (by decide)
  exact ⟨by rw [hfab], hrgns, htask, by rw [hkey], by rw [hkey], fun b hb => hrd b (by unfold LogTouches pMdw; unfold pKey at hb; omega)⟩

theorem WritesAlike.ringBytes (h : WritesAlike c d) (m : Mem) (a n : Nat) : d.ringBytes m a n = c.ringBytes m a n := by
  unfold Core.ringBytes Core.ringLine
  rw [h.vwrites]

/-- The lines of a change as they stand in the vault's write queue (R255). -/
def Core.queuedLines (c : Core) (cell base : Nat) (old new : List Byte) : List VWrite :=
  (changedLines base old new).map fun e => ⟨(e.1 - 0x200000000) / 0x8000000, e.1, toPayload (slice new (e.1 - base) 64),
    some (c.cellRgn cell, (c.rgn (c.cellRgn cell)).sched + 3, cell)⟩

theorem Core.queuedLines_congr (hr : d.rgns = c.rgns) (ht : d.task = c.task) (hrd : ∀ b, b % 0x1000 = 0x80 → d.rd b = c.rd b)
    (cell base : Nat) (old new : List Byte) : d.queuedLines cell base old new = c.queuedLines cell base old new := by
  have hcell : d.cellRgn cell = c.cellRgn cell := by
    refine Core.cellRgn_congr ?_ ht
    unfold Core.rgnField Core.getF
    rw [hrd _ (by unfold pMdw; omega)]
  unfold Core.queuedLines
  rw [hcell, Core.rgn_congr hr]

theorem WritesAlike.queuedLines (h : WritesAlike c d) (cell base : Nat) (old new : List Byte) :
    d.queuedLines cell base old new = c.queuedLines cell base old new :=
  Core.queuedLines_congr h.rgns h.task (fun b hb => h.rd b (.inr (.inl hb))) cell base old new

theorem Core.putRing_vwrites (c : Core) (cell base : Nat) (old new : List Byte) :
    (c.putRing cell base old new).fab.vwrites = c.fab.vwrites ++ c.queuedLines cell base old new := by
  unfold Core.putRing Core.queuedLines
  extract_lets g
  suffices h : ∀ (ls : List (Nat × Payload)) (d : Core), d.rgns = c.rgns →
      (ls.foldl (fun c e => c.putLine e.1 (toPayload (slice new (e.1 - base) 64)) (some (g, (c.rgn g).sched + 3, cell))) d).fab.vwrites =
        d.fab.vwrites ++ ls.map fun e => ⟨(e.1 - 0x200000000) / 0x8000000, e.1, toPayload (slice new (e.1 - base) 64),
          some (g, (c.rgn g).sched + 3, cell)⟩ from h _ c rfl
  intro ls
  induction ls with
  | nil => exact fun d _ => (List.append_nil _).symm
  | cons a ls ih =>
    intro d hd
    refine (ih (d.putLine a.1 (toPayload (slice new (a.1 - base) 64)) (some (g, (d.rgn g).sched + 3, cell))) hd).trans ?_
    rw [← Core.rgn_congr hd g]
    exact List.append_assoc ..

theorem Core.putRing_regs (c : Core) (cell base : Nat) (old new : List Byte) : (c.putRing cell base old new).regs = c.regs := by
  unfold Core.putRing
  extract_lets g
  clear_value g
  generalize changedLines base old new = ls
  induction ls generalizing c with
  | nil => rfl
  | cons a ls ih => exact ih _

/-- No record, no dependence (R282). -/
theorem Core.ringDeps_nil (h : c.key.undo = []) (base n : Nat) : c.ringDeps base n = [] := by
  unfold Core.ringDeps
  rw [h]
  rfl

/-- An event that names no frame, in a ring without records and with no snapshot running, writes its changed lines and is counted (R255). -/
theorem Core.fireRing_clean {f : Fetched} (hundo : c.key.undo = []) (hsnap : c.key.snap = none) (hdeps : i.deps = [])
    (htok : tok.poison = false)
    (hgot : (c.fab.fetched.find? fun f => f.rgn = g && f.tag = i.tag && f.set = i.set) = some f) (hf : f.poison = false) :
    (c.fireRing m cell g j l tok i x k km).fab.vwrites = c.fab.vwrites ++ c.queuedLines cell (kmRingAt km j l)
      (c.ringBytes m (kmRingAt km j l) (kmStride km / 64)) (stamp i.tick
        (runOps km k.ops k.entries (ofPayload tok.payload) (c.ringBytes m (kmRingAt km j l) (kmStride km / 64))).ring) ∧
    (c.frozenAt (pKey + 0x180) = false →
      (c.fireRing m cell g j l tok i x k km).rd (pKey + 0x180) = (c.rd (pKey + 0x180) + 1) % 2 ^ 48) := by
  unfold Core.fireRing
  extract_lets base n got _ c1 poison c2 s c3 _ c4 deps c5 old inp run res new ch full c6 c7 c8 st d6 d7 d8 d9 d10
  have h1 : WritesAlike c c1 := ⟨rfl, rfl, rfl, rfl, rfl, fun _ _ => rfl⟩
  have h2 : WritesAlike c1 c2 := .bumpBy 1 (by unfold pKey; split <;> decide)
  have h3 : WritesAlike c2 c3 := .ite (.bumpBy 1 (by decide)) (.refl c2)
  have h4 : WritesAlike c3 c4 := ⟨rfl, rfl, rfl, rfl, rfl, fun _ _ => rfl⟩
  replace h4 : WritesAlike c c4 := (h1.trans h2).trans (h3.trans h4)
  have hnone : deps = [] := by
    unfold deps
    rw [hdeps, Core.ringDeps_nil (h4.undo.trans hundo)]
    rfl
  have h5 : WritesAlike c c5 := by
    unfold c5
    rw [if_pos (hnone.trans hdeps.symm)]
    exact h4
  have hclean : poison = false := by
    unfold poison got
    rw [htok, hgot]
    exact hf
  have hfull : full = false := by simp [full, hnone]
  rw [if_neg (by simp [hclean, hfull])]
  have hcounts : WritesAlike c5 ((c5.bumpBy (pKey + 0x1C8) res.conv).bumpBy (pKey + 0x1C0) res.sat) :=
    (WritesAlike.bumpBy _ (by decide)).trans (.bumpBy _ (by decide))
  have h6 := h5.trans hcounts
  have h8 : d8 = d7 := by
    have hd7 : d7.key.snap = none := by
      show (Core.bump _ _).key.snap = none
      rw [Core.bump_key]
      exact h6.snap.trans hsnap
    unfold d8 Core.snapApply
    rw [hd7]
  have h9 : d9 = d7.putRing cell base old new := by
    unfold d9
    rw [h8, Core.record, if_pos hnone]
  have h7 : d7.fab.vwrites = c.fab.vwrites := (congrArg Fabric.vwrites (Core.bump_fab ..)).trans h6.vwrites
  have hold : old = c.ringBytes m base n := h5.ringBytes m base n
  refine ⟨?_, fun hcounted => ?_⟩
  · rw [(EgressOnly.settleRgn _ g).fab]
    show d9.fab.vwrites = _
    rw [h9, Core.putRing_vwrites, h7, ← hold]
    refine congrArg (c.fab.vwrites ++ ·) ?_
    refine (Core.queuedLines_congr (Core.bump_rgns ..) (Core.bump_task ..) (fun b hb => Core.rd_bump_ne _ ?_) ..).trans
      (h6.queuedLines ..)
    unfold pKey
    omega
  · rw [(RdBelow.settleRgn _ g).rd _ (by decide)]
    show d9.rd _ = _
    rw [h9, Core.rd_congr (Core.putRing_regs ..)]
    refine (Core.rd_bump_self _ _ ((h6.frozenAt _).trans hcounted)).trans ?_
    rw [h6.rd _ (.inr (.inr rfl))]

/-- An event that is ready, whose ring is known and clean, writes its changed lines and is counted (R255). -/
theorem Core.keyEventFire_applies {f : Fetched} (h : c.keyReady cell = some (tok, i, x, k)) (he : c.early cell x 0 tok = false)
    (hwait : (c.rgn (c.cellRgn cell)).resetWait = false) (hctx : c.ctxPoison cell tok.set = false) (hhome : i.home = .ring j l)
    (hkm : c.keyMapOf (c.cellRgn cell) i.set = some km) (hframes : c.sep.frames = []) (hundo : c.key.undo = [])
    (hsnap : c.key.snap = none) (hdeps : i.deps = []) (htok : tok.poison = false)
    (hgot : (c.fab.fetched.find? fun f => f.rgn = c.cellRgn cell && f.tag = i.tag && f.set = i.set) = some f) (hf : f.poison = false) :
    (c.keyEventFire m cell).fab.vwrites = c.fab.vwrites ++ c.queuedLines cell (kmRingAt km j l)
      (c.ringBytes m (kmRingAt km j l) (kmStride km / 64)) (stamp i.tick
        (runOps km k.ops k.entries (ofPayload tok.payload) (c.ringBytes m (kmRingAt km j l) (kmStride km / 64))).ring) ∧
    (c.frozenAt (pKey + 0x180) = false → (c.keyEventFire m cell).rd (pKey + 0x180) = (c.rd (pKey + 0x180) + 1) % 2 ^ 48) := by
  have hn : [0].Nodup := List.nodup_singleton 0
  obtain ⟨-, -, -, hfab, hrgns, -⟩ := Core.taken_spec c cell [0] tok.set hn
  have halike : WritesAlike c (c.taken cell [0] tok.set) := .taken hn tok.set
  have hsep : (c.taken cell [0] tok.set).sep = c.sep := changes_taken hn .sep (by decide)
  have hiter := Core.keyReady_iter h
  obtain ⟨htag, hset⟩ := Rgn.iter_name hiter
  rw [Core.keyEventFire_ready h he, hctx, htok]
  have hq := halike.queuedLines cell
  have hbytes := halike.ringBytes m
  have hfrozen := halike.frozenAt (pKey + 0x180)
  have hcount := halike.rd (pKey + 0x180) (.inr (.inr rfl))
  generalize c.taken cell [0] tok.set = t at *
  have hresolve : t.resolveFor (c.cellRgn cell) i.slot = t := by
    unfold Core.resolveFor Core.resolveUpTo
    rw [hsep, hframes]
    rfl
  have hsame : ((t.rgn (c.cellRgn cell)).iter i.tag i.set).getD i = i := by
    rw [Core.rgn_congr hrgns, htag, hset, hiter]
    rfl
  have happlied : t.keyApplied m cell (c.cellRgn cell) { tok with poison := false || false } i x k =
      t.fireRing m cell (c.cellRgn cell) j l { tok with poison := false || false } i x k km := by
    have hmap : t.keyMapOf (c.cellRgn cell) i.set = some km := by
      unfold Core.keyMapOf at hkm ⊢
      rw [Core.rgn_congr hrgns]
      exact hkm
    unfold Core.keyApplied
    rw [hhome, hmap]
  rw [hresolve, hsame, happlied, Core.resetDue_idle
    (Core.fireRing_collects.resetWait.trans ((congrArg Rgn.resetWait (Core.rgn_congr hrgns _)).trans hwait))]
  have hfetched : t.fab.fetched = c.fab.fetched := by rw [hfab]
  obtain ⟨hwrites, hcounts⟩ := Core.fireRing_clean (c := t) (m := m) (cell := cell) (g := c.cellRgn cell) (j := j) (l := l)
    (tok := { tok with poison := false || false }) (i := i) (x := x) (k := k) (km := km) (f := f) (halike.undo.trans hundo)
    (halike.snap.trans hsnap) hdeps rfl (by rw [hfetched]; exact hgot) hf
  rw [hq, hbytes, halike.vwrites] at hwrites
  rw [hfrozen, hcount] at hcounts
  exact ⟨hwrites, hcounts⟩

end

end Sys2Proof.Machine

open Sys2Proof Sys2Proof.Machine Sys2Proof.Stated

/-- Settles O9: a firing collects its iteration once and touches no region else but for fates, and a clean ring takes the change as it is. -/
theorem keyCellsWork : Obligations.KeyCellsWork := by
  refine ⟨⟨fun s cell tok i x k h he hwait => ?_, fun s cell tok i x k h he hwait => ?_⟩,
    fun s cell tok i x k km j l f h he hwait hctx hhome hkm hframes hundo hsnap hdeps htok hgot hf => ?_⟩
  · exact (runs_iff (d := s.core.keyEventFire s.mem cell) rfl).mpr (Core.keyEventFire_fires h he hwait)
  · exact (runs_iff (d := s.core.keyDeferredFire s.mem cell) rfl).mpr (Core.keyDeferredFire_fires h he hwait)
  · exact (runs_iff (d := s.core.keyEventFire s.mem cell) rfl).mpr
      (Core.keyEventFire_applies h he hwait hctx hhome hkm hframes hundo hsnap hdeps htok hgot hf)
end

