-- ==== Sys2Proof/Proofs/TaskDispatch.lean ====
section
/-! PROOF LAYER. The dispatch of a task (R310): what its work finds, and how it ends. -/

namespace Sys2Proof.Machine

section
variable {c : Core} {m : Mem} {e q n : Nat}

/-- The core in which a task has just begun. -/
def Core.dispatched (c : Core) (e q n : Nat) : Core :=
  let d := c.setTask e { c.taskAt e with st := .running, start := c.now }
  { d with task := { d.task with roundQ := q, roundN := n + 1 } }

/-- The next task of a kind: its work is done in the core in which it has just begun. -/
theorem dispatch_next {s : State} {kind : Nat} {work : Mem → Core → Nat → List Byte → Mem × Core} (h : Stated.Next s e kind) :
    ∃ q n, dispatch kind work e s.mem s.core = work s.mem (s.core.dispatched e q n) e (s.core.taskAt e).desc := by
  obtain ⟨⟨q, n, hnext⟩, hkind⟩ := h
  refine ⟨q, n, ?_⟩
  unfold dispatch
  rw [hnext]
  exact if_neg (by simp [hkind])

theorem Core.taskAt_setTask (t : Task) : (c.setTask e t).taskAt e = t := Store.get_set_self ..

theorem Core.taskAt_dispatched : (c.dispatched e q n).taskAt e = { c.taskAt e with st := .running, start := c.now } :=
  Core.taskAt_setTask (c := c) { c.taskAt e with st := .running, start := c.now }

theorem Core.taskAt_ends (st code : Nat) : (c.ends e st code).taskAt e = { c.taskAt e with finish := some st, code := code } :=
  Core.taskAt_setTask _

/-- A task whose work goes on. -/
theorem dispatched_goes {s : State} : Stated.Dispatched s (s.core.dispatched e q n) e (s.core.taskAt e).finish (s.core.taskAt e).code := by
  unfold Stated.Dispatched
  rw [Core.taskAt_dispatched]
  exact ⟨rfl, rfl, rfl, rfl, rfl⟩

/-- A task whose work has ended as soon as it began. -/
theorem dispatched_ends {s : State} (st : Nat) : Stated.Dispatched s ((s.core.dispatched e q n).ends e st 0) e (some st) 0 := by
  unfold Stated.Dispatched
  rw [Core.taskAt_ends, Core.taskAt_dispatched]
  exact ⟨rfl, rfl, rfl, rfl, rfl⟩

theorem Core.mapped_dispatched (a k : Nat) : (c.dispatched e q n).mapped false a k = c.mapped false a k := rfl
theorem Core.keyMap_dispatched : (c.dispatched e q n).keyMap = c.keyMap := rfl
theorem Core.moveShut_dispatched (a k : Nat) : (c.dispatched e q n).moveShut a k = c.moveShut a k := rfl
theorem Core.activeBank_dispatched (t : Nat) : (c.dispatched e q n).activeBank t = c.activeBank t := rfl
theorem Core.pubTarget_dispatched : (c.dispatched e q n).pubTarget = c.pubTarget := by
  unfold Core.pubTarget
  rw [Core.activeBank_dispatched]
theorem Core.pubFree_dispatched (b : Nat) : (c.dispatched e q n).pubFree b = c.pubFree b := rfl
theorem Core.valleyDue_dispatched (v : Nat) : (c.dispatched e q n).valleyDue v = c.valleyDue v := rfl
theorem Core.tickOf_dispatched (v : Nat) : (c.dispatched e q n).tickOf v = c.tickOf v := rfl

end

end Sys2Proof.Machine
end

