-- ==== Sys2Proof/Proofs/Moves.lean ====
section
/-! PROOF. MOVE (R319): its dispatch, and the copy that its completion makes (R327). O36. -/

namespace Sys2Proof.Machine

/-! ### The dispatch of a MOVE -/

section
variable {c : Core} {m : Mem} {e : Nat} {d : List Byte}

/-- The ranges that a MOVE may have (R319). -/
def Core.moveInRange (c : Core) (d : List Byte) : Prop :=
  fld d 48 8 % 64 = 0 ∧ fld d 48 8 ≤ 2 ^ 36 ∧ c.moveOk (fld d 32 8) (fld d 48 8) = true ∧
    c.moveOk (fld d 40 8) (fld d 48 8) = true ∧ overlaps (fld d 32 8) (fld d 48 8) (fld d 40 8) (fld d 48 8) = false

theorem moveWork_range (h : ¬c.moveInRange d) : moveWork m c e d = (m, c.ends e stRange 0) := by
  unfold moveWork
  refine if_pos ?_
  by_contra hc
  refine h ?_
  simpa [Core.moveInRange, and_assoc] using hc

theorem moveWork_inRange (h : c.moveInRange d) : moveWork m c e d =
    if fld d 48 8 ≠ 0 && c.moveShut (fld d 40 8) (fld d 48 8) then (m, c.ends e stProtect 0) else (m, c) := by
  unfold moveWork
  refine if_neg ?_
  obtain ⟨hlines, hsize, hsrc, hdst, hapart⟩ := h
  simpa [hlines, hsrc, hdst, hapart] using hsize

end

/-! ### Registers that reads and messages leave -/

section
variable {c : Core} {m : Mem} {b : Nat}

/-- An uncorrectable word is counted and logged by its memory's page. -/
theorem Core.rd_wordUe (a : Nat) (hb : b < pLpm) : (c.wordUe a).rd b = c.rd b := by
  unfold pLpm at hb
  unfold Core.wordUe
  extract_lets ch
  split
  · rw [Core.rd_logErr_ne _ _ _ _ _ _ (by unfold LogTouches pLpm; omega), Core.rd_bump_ne _ (by unfold aChan pLpm; omega)]
  split
  · unfold Core.vaultUe
    rw [Core.rd_logErr_ne _ _ _ _ _ _ (by unfold LogTouches pVlt; omega), Core.rd_bump_ne _ (by unfold aVlt pVlt; omega)]
  · exact Core.rd_logErr_ne _ _ _ _ _ _ (by unfold LogTouches pMdw; omega)

theorem Core.rd_readUe (a n : Nat) (hb : b < pLpm) : (c.readUe m a n).rd b = c.rd b := by
  unfold Core.readUe
  generalize m.marks a n = ws
  induction ws generalizing c with
  | nil => rfl
  | cons w ws ih => exact ih.trans (Core.rd_wordUe w hb)

theorem Core.rd_lpmMoved (cls a n : Nat) (hb : b < pLpm) : (c.lpmMoved cls a n).rd b = c.rd b := by
  unfold Core.lpmMoved
  split
  · exact Core.rd_bumpBy_ne c n (by omega)
  · rfl

theorem Core.sendTo_regs (s type ref : Nat) (body : List Byte) (e : Option Nat) : (c.sendTo s type ref body e).regs = c.regs := by
  unfold Core.sendTo
  split <;> rfl

/-- Entries of a stream that do not fit are counted by their session alone. -/
theorem Core.rd_sendEntries (s type : Nat) (l : List (List Byte)) (hb : b < 0x30100000) : (c.sendEntries s type l).rd b = c.rd b := by
  unfold Core.sendEntries
  split
  · rfl
  · extract_lets lost body d
    split
    · exact Core.rd_congr (Core.sendTo_regs ..) b
    · exact Core.rd_bumpBy_ne _ _ (by unfold aSess; omega)

end

/-! ### Completions write nothing but their ring -/

/-- A memory that differs from `m₀` in the completion ring alone, with its base and the completions that wait as they must be (R327). -/
structure CqApart (m₀ : Mem) (ring : Nat) (m : Mem) (c : Core) : Prop where
  bytes : ∀ b, b < ring ∨ ring + 32 * 4096 ≤ b → m.byte b = m₀.byte b
  base : c.getF (pTask + 0xA0) 0 48 = ring
  waiting : ∀ w ∈ c.task.waiting, w.1.length = 32

section
variable {m₀ m : Mem} {c d : Core} {ring : Nat}

/-- A step that leaves the memory, the ring's base and the completions that wait. -/
theorem CqApart.of_core (h : CqApart m₀ ring m c) (hrd : d.rd (pTask + 0xA0) = c.rd (pTask + 0xA0))
    (hw : d.task.waiting = c.task.waiting) : CqApart m₀ ring m d :=
  ⟨h.bytes, (Core.getF_of_rd hrd).trans h.base, by rw [hw]; exact h.waiting⟩

theorem length_completion (d : List Byte) (status code flags start end_ : Nat) :
    (completion d status code flags start end_).length = 32 := by
  simp [completion, length_slice, length_toLe]

theorem changes_cqPut {b : List Byte} {notify : Bool} : Changes [.regs, .kwn, .out] c (cqPut m c b notify).2 := by
  unfold cqPut
  extract_lets _ d
  have hd : Changes [.regs] c d := changes_setF
  dsimp only
  split
  · split
    · exact (hd.trans changes_sendEntries).mono rfl
    · exact hd.mono rfl
  · exact hd.mono rfl

theorem rd_cqPut (b : List Byte) (notify : Bool) : (cqPut m c b notify).2.rd (pTask + 0xA0) = c.rd (pTask + 0xA0) := by
  unfold cqPut
  extract_lets _ d
  have hd : d.rd (pTask + 0xA0) = c.rd (pTask + 0xA0) := Core.rd_setF_ne _ _ _ _ (by decide)
  dsimp only
  split
  · split
    · exact (Core.rd_sendEntries _ _ _ (by decide)).trans hd
    · exact hd
  · exact hd

/-- A completion that is written lies in the ring. -/
theorem CqApart.cqPut {b : List Byte} (h : CqApart m₀ ring m c) (hb : b.length = 32) (notify : Bool) :
    CqApart m₀ ring (cqPut m c b notify).1 (cqPut m c b notify).2 := by
  refine CqApart.of_core (c := c) ⟨fun x hx => ?_, h.base, h.waiting⟩ (rd_cqPut b notify)
    (congrArg TaskEng.waiting (changes_cqPut .task (by decide)))
  have htail : c.cqTail < 4096 := Nat.mod_lt _ (by decide)
  refine Eq.trans ?_ (h.bytes x hx)
  show (putMapped c m _ _).byte x = _
  unfold putMapped
  split
  · exact Mem.byte_store_out _ _ _ _ (by rw [h.base, hb]; omega)
  · rfl

theorem CqApart.cqFlush {fuel : Nat} (h : CqApart m₀ ring m c) : CqApart m₀ ring (cqFlush fuel m c).1 (cqFlush fuel m c).2 := by
  induction fuel generalizing m c with
  | zero => exact h
  | succ fuel ih =>
    unfold Machine.cqFlush
    split
    · next fuel' w rest hfuel hwaiting =>
      obtain rfl := Nat.succ.inj hfuel
      split
      · exact h
      · have hall := List.forall_mem_cons.mp (hwaiting ▸ h.waiting)
        exact ih (CqApart.cqPut (c := { c with task := { c.task with waiting := rest } }) ⟨h.bytes, h.base, hall.2⟩ hall.1 w.2)
    · exact h

theorem CqApart.complete {t : List Byte} {status code flags start : Nat} (h : CqApart m₀ ring m c) :
    CqApart m₀ ring (complete m c t status code flags start).1 (complete m c t status code flags start).2 := by
  unfold Machine.complete
  extract_lets d w
  refine CqApart.cqFlush ⟨h.bytes, (Core.getF_bump_ne _ _ _ (by decide)).trans h.base, fun x hx => ?_⟩
  rcases List.mem_append.mp hx with hx | hx
  · refine h.waiting x ?_
    rwa [show d.task = c.task from Core.bump_task ..] at hx
  · obtain rfl := List.mem_singleton.mp hx
    exact length_completion ..

theorem cqPut_table (m : Mem) (c : Core) (b : List Byte) (notify : Bool) : (cqPut m c b notify).2.task.table = c.task.table :=
  congrArg TaskEng.table (changes_cqPut .task (by decide))

theorem cqFlush_table (fuel : Nat) (m : Mem) (c : Core) : (cqFlush fuel m c).2.task.table = c.task.table := by
  induction fuel generalizing m c with
  | zero => rfl
  | succ fuel ih =>
    unfold cqFlush
    split
    · next fuel' w rest hfuel _ =>
      obtain rfl := Nat.succ.inj hfuel
      split
      · rfl
      · exact (ih _ _).trans (cqPut_table ..)
    · rfl

theorem complete_table (m : Mem) (c : Core) (t : List Byte) (status code flags start : Nat) :
    (complete m c t status code flags start).2.task.table = c.task.table := by
  unfold complete
  extract_lets d w
  refine (cqFlush_table ..).trans ?_
  show d.task.table = _
  rw [show d.task = c.task from Core.bump_task ..]

end

/-! ### A task that is done stays as it is -/

/-- Entry `e` is DONE and stands as `t`; the table lists nothing else under it. -/
structure EntryDone (e : Nat) (t : Task) (l : Store Task) : Prop where
  entry : Store.get l Task.free e = t
  done : ∀ en ∈ l, en.1 = e → en.2.st = .done

section
variable {e x : Nat} {t u : Task} {l : Store Task} {c : Core}

theorem Store.mem_set {α : Type} [DecidableEq α] {s : Store α} {d v : α} {k : Nat} {en : Nat × α} (h : en ∈ Store.set s d k v) :
    en = (k, v) ∨ en ∈ s ∧ en.1 ≠ k := by
  unfold Store.set at h
  split at h
  · exact .inr ((Store.mem_erase ..).mp h)
  · exact ((Store.mem_insert ..).mp h).imp_right fun h => (Store.mem_erase ..).mp h

theorem EntryDone.of_set (h : t.st = .done) : EntryDone e t (Store.set l Task.free e t) :=
  ⟨Store.get_set_self .., fun en hen he => (Store.mem_set hen).elim (fun heq => by rw [heq]; exact h) fun hout => absurd he hout.2⟩

/-- Another entry changes. -/
theorem EntryDone.set (h : EntryDone e t l) (hx : x ≠ e) : EntryDone e t (Store.set l Task.free x u) :=
  ⟨(Store.get_set_ne _ _ _ hx.symm).trans h.entry, fun en hen he =>
    (Store.mem_set hen).elim (fun heq => absurd (by rw [← he, heq]) hx) fun hin => h.done en hin.1 he⟩

theorem EntryDone.ready (h : EntryDone e t c.task.table) (hx : x ≠ e) : EntryDone e t (c.ready x).2.task.table := by
  unfold Core.ready
  extract_lets t'
  split
  · exact h
  · split
    · exact h
    · exact h.set (u := { t' with st := .ready, order := c.task.nextOrder }) hx

end

/-! ### The completions that one completion brings about -/

/-- Entry `e` is DONE, and nothing but the completion ring has been written. -/
structure Over (m₀ : Mem) (ring e : Nat) (t : Task) (m : Mem) (c : Core) : Prop where
  apart : CqApart m₀ ring m c
  stands : EntryDone e t c.task.table

section
variable {m₀ m : Mem} {ring e x : Nat} {t u : Task} {c : Core}

theorem Over.setTask (h : Over m₀ ring e t m c) (hx : x ≠ e) : Over m₀ ring e t m (c.setTask x u) :=
  ⟨h.apart.of_core rfl rfl, h.stands.set hx⟩

theorem Over.bump {a : Nat} (h : Over m₀ ring e t m c) (ha : pTask + 0xA0 ≠ a) : Over m₀ ring e t m (c.bump a) := by
  have htask : (c.bump a).task = c.task := Core.bump_task ..
  exact ⟨h.apart.of_core (Core.rd_bump_ne c ha) (congrArg TaskEng.waiting htask), by rw [htask]; exact h.stands⟩

theorem Over.complete {d : List Byte} {status code flags start : Nat} (h : Over m₀ ring e t m c) :
    Over m₀ ring e t (complete m c d status code flags start).1 (complete m c d status code flags start).2 :=
  ⟨h.apart.complete, by rw [complete_table]; exact h.stands⟩

theorem Over.ready (h : Over m₀ ring e t m c) (hx : x ≠ e) : Over m₀ ring e t m (c.ready x).2 := by
  unfold Core.ready
  extract_lets t'
  split
  · exact h
  split
  · exact h
  · exact h.setTask hx

/-- What a completion wakes is WAITING, so it is not the entry that is DONE. -/
theorem Over.wake {gen status : Nat} (h : Over m₀ ring e t m c) :
    e ∉ (c.wake x gen status).1 ∧ Over m₀ ring e t m (c.wake x gen status).2 := by
  unfold Core.wake
  have hwoken : e ∉ (([], c) : List Nat × Core).1 ∧ Over m₀ ring e t m (([], c) : List Nat × Core).2 := ⟨List.not_mem_nil, h⟩
  have hdone := h.stands.done
  generalize (([], c) : List Nat × Core) = y at hwoken ⊢
  generalize c.task.table = l at hdone ⊢
  induction l generalizing y with
  | nil => exact hwoken
  | cons en l ih =>
    obtain ⟨hen, hl⟩ := List.forall_mem_cons.mp hdone
    obtain ⟨hnot, hover⟩ := hwoken
    refine ih _ ?_ hl
    dsimp only
    split
    · next hwaits =>
      have hother : en.1 ≠ e := by
        rintro rfl
        simp [hen rfl] at hwaits
      refine ⟨?_, (hover.setTask hother).ready hother⟩
      split
      · simpa using ⟨hnot, hother.symm⟩
      · exact hnot
    · exact ⟨hnot, hover⟩

/-- Completing other entries. -/
theorem Over.finishAll {fuel : Nat} {l : List (Nat × Nat × Nat)} (h : Over m₀ ring e t m c) (hl : ∀ x ∈ l, x.1 ≠ e) :
    Over m₀ ring e t (finishAll fuel l (m, c)).1 (finishAll fuel l (m, c)).2 := by
  induction fuel generalizing l m c with
  | zero => exact h
  | succ fuel ih =>
    cases l with
    | nil => exact h
    | cons y l =>
      obtain ⟨x, status, code⟩ := y
      obtain ⟨hx, hl⟩ := List.forall_mem_cons.mp hl
      unfold Machine.finishAll
      extract_lets t' c1 c2 r w
      have h1 : Over m₀ ring e t m c1 := h.setTask hx
      have h2 : Over m₀ ring e t m c2 := by
        unfold c2
        split
        · exact h1.bump (by decide)
        · exact h1
      have hr : Over m₀ ring e t r.1 r.2 := h2.complete
      obtain ⟨hnot, hw⟩ := hr.wake (x := x) (gen := t'.gen) (status := status)
      refine ih hw fun z hz => ?_
      rcases List.mem_append.mp hz with hz | hz
      · exact hl z hz
      · obtain ⟨q, hq, rfl⟩ := List.mem_map.mp hz
        rintro rfl
        exact hnot hq

/-- A task completes: its entry is DONE, and no byte but those of the completion ring changes (R327). -/
theorem finishTask_over {status code : Nat} (h : CqApart m₀ ring m c) (hstatus : status ≠ stCancelled) :
    Over m₀ ring e { c.taskAt e with st := .done, status := status, code := code, finish := none }
      (finishTask m c e status code).1 (finishTask m c e status code).2 := by
  unfold finishTask
  have hall : Over m₀ ring e { c.taskAt e with st := .done, status := status, code := code, finish := none }
      (finishAll 4097 [(e, status, code)] (m, c)).1 (finishAll 4097 [(e, status, code)] (m, c)).2 := by
    unfold finishAll
    extract_lets t' c1 c2 r w
    have h1 : Over m₀ ring e { c.taskAt e with st := .done, status := status, code := code, finish := none } m c1 :=
      ⟨h.of_core rfl rfl, EntryDone.of_set rfl⟩
    have hc2 : c2 = c1 := if_neg hstatus
    have hr : Over m₀ ring e _ r.1 r.2 := Over.complete (hc2 ▸ h1)
    obtain ⟨hnot, hw⟩ := hr.wake (x := e) (gen := t'.gen) (status := status)
    refine Over.finishAll hw fun z hz => ?_
    obtain ⟨q, hq, rfl⟩ := List.mem_map.mp hz
    rintro rfl
    exact hnot hq
  generalize Machine.finishAll 4097 [(e, status, code)] (m, c) = r at hall ⊢
  exact ⟨hall.apart.of_core rfl rfl, hall.stands⟩

end

/-! ### The completion of a MOVE -/

section
variable {c : Core} {m : Mem} {e : Nat}

/-- The copy of a MOVE ends its task OK. -/
theorem taskProgress_move (hst : (c.taskAt e).st = .running) (hk : dKind (c.taskAt e).desc = 2) (hfin : (c.taskAt e).finish = none) :
    taskProgress m c e = ((moveCopy m c (c.taskAt e).desc (fld (c.taskAt e).desc 48 8)).1,
      (moveCopy m c (c.taskAt e).desc (fld (c.taskAt e).desc 48 8)).2.ends e stOk 0) := by
  unfold taskProgress
  extract_lets t k r
  have hkind : k = 2 := hk
  rw [if_neg (by simp [t, hst, hfin]), if_neg (by rw [hkind]; decide), if_pos hkind]

/-- A task of kind MOVE logs nothing and gives nothing back (R322, R327). -/
theorem endTask_move {status code : Nat} (hk : dKind (c.taskAt e).desc = 2) : endTask m c e status code = finishTask m c e status code := by
  unfold endTask noteLog Core.giveBack
  simp [hk]

theorem changes_moveCopy {d : List Byte} {n : Nat} : Changes [.regs, .cyc, .notices, .errSeq] c (moveCopy m c d n).2 :=
  (((changes_readUe (m := m)).trans changes_lpmMoved).trans changes_lpmMoved).mono rfl

theorem rd_moveCopy {d : List Byte} {n b : Nat} (hb : b < pLpm) : (moveCopy m c d n).2.rd b = c.rd b :=
  (Core.rd_lpmMoved _ _ _ hb).trans ((Core.rd_lpmMoved _ _ _ hb).trans (Core.rd_readUe _ _ hb))

theorem taskComplete_move (hst : (c.taskAt e).st = .running) (hk : dKind (c.taskAt e).desc = 2) (hfin : (c.taskAt e).finish = none)
    (hslice : ∀ x, c.flt.slice ≠ some (x, some e)) :
    let d := (c.taskAt e).desc
    taskComplete m c e =
      finishTask (moveCopy m c d (fld d 48 8)).1 ((moveCopy m c d (fld d 48 8)).2.ends e stOk 0) e stOk 0 := by
  extract_lets d
  have htask : (moveCopy m c d (fld d 48 8)).2.task = c.task := changes_moveCopy .task (by decide)
  have hflt : (moveCopy m c d (fld d 48 8)).2.flt = c.flt := changes_moveCopy .flt (by decide)
  unfold taskComplete
  rw [taskProgress_move hst hk hfin]
  generalize moveCopy m c (c.taskAt e).desc (fld (c.taskAt e).desc 48 8) = copied at htask hflt ⊢
  have hat : (copied.2.ends e stOk 0).taskAt e = { c.taskAt e with finish := some stOk, code := 0 } := by
    rw [Core.taskAt_ends, Core.taskAt, htask]
    rfl
  extract_lets r t slice
  have ht : t = { c.taskAt e with finish := some stOk, code := 0 } := hat
  have hfree : slice = false := by
    unfold slice
    rw [show r.2.flt = c.flt from hflt]
    split
    · next md x hx =>
      refine decide_eq_false fun hxe => hslice md ?_
      rw [hx, hxe]
    · rfl
  rw [hfree, ht]
  dsimp only
  rw [if_pos (by simp [hst])]
  exact endTask_move (by rw [hat]; exact hk)

/-- A MOVE that completes: its entry is DONE and OK, its bytes stand at the destination, and beside them only the completion ring is written. -/
theorem taskComplete_moves (hm : m.wf = true) (hst : (c.taskAt e).st = .running) (hk : dKind (c.taskAt e).desc = 2)
    (hfin : (c.taskAt e).finish = none) (hwaiting : c.task.waiting = []) (hslice : ∀ x, c.flt.slice ≠ some (x, some e)) :
    let d := (c.taskAt e).desc
    let ring := c.getF (pTask + 0xA0) 0 48
    ((taskComplete m c e).2.taskAt e).st = .done ∧ ((taskComplete m c e).2.taskAt e).status = stOk ∧
    ∀ b, b < ring ∨ ring + 32 * 4096 ≤ b → (taskComplete m c e).1.byte b =
      if fld d 40 8 ≤ b ∧ b < fld d 40 8 + fld d 48 8 then m.byte (fld d 32 8 + (b - fld d 40 8)) else m.byte b := by
  extract_lets d ring
  have hbytes : (moveCopy m c d (fld d 48 8)).1 = m.copy (fld d 32 8) (fld d 40 8) (fld d 48 8) := rfl
  have hrd : (moveCopy m c d (fld d 48 8)).2.rd (pTask + 0xA0) = c.rd (pTask + 0xA0) := rd_moveCopy (by decide)
  have htask : (moveCopy m c d (fld d 48 8)).2.task = c.task := changes_moveCopy .task (by decide)
  rw [taskComplete_move hst hk hfin hslice]
  generalize moveCopy m c d (fld d 48 8) = r at hbytes hrd htask ⊢
  have hapart : CqApart r.1 ring r.1 (r.2.ends e stOk 0) := by
    refine CqApart.of_core (c := r.2) ⟨fun _ _ => rfl, Core.getF_of_rd hrd, ?_⟩ rfl rfl
    rw [htask, hwaiting]
    exact List.forall_mem_nil _
  obtain ⟨hover, hstands⟩ := finishTask_over (e := e) (code := 0) hapart (by decide : stOk ≠ stCancelled)
  refine ⟨congrArg Task.st hstands.entry, congrArg Task.status hstands.entry, fun b hb => (hover.bytes b hb).trans ?_⟩
  rw [hbytes]
  exact Mem.byte_copy hm

end

end Sys2Proof.Machine
end

