-- ==== Sys2Proof/Proofs/Publications.lean ====
section
/-! PROOF. PUBLISH, the write of its bank and the instant of V (R267 to R269, R320 to R323), and with MOVE the whole of O36. -/

namespace Sys2Proof.Machine

/-! ### Several stores -/

section
variable {m : Mem} {A : Nat → Nat} {B : Nat → List Byte} {w : Nat} {is : List Nat} {b i : Nat}

/-- Stores leave a byte that none of them meets. -/
theorem Mem.byte_stores_out (h : ∀ i ∈ is, b < A i ∨ A i + (B i).length ≤ b) :
    (is.foldl (fun m i => m.store (A i) (B i)) m).byte b = m.byte b := by
  induction is generalizing m with
  | nil => rfl
  | cons j js ih =>
    obtain ⟨hj, hjs⟩ := List.forall_mem_cons.mp h
    exact (ih hjs).trans (Mem.byte_store_out m _ _ _ hj)

/-- Of stores of one length that do not meet, each is read back. -/
theorem Mem.read_stores (hB : ∀ i, (B i).length = w) (hapart : is.Pairwise fun i j => A i + w ≤ A j ∨ A j + w ≤ A i) (hi : i ∈ is) :
    (is.foldl (fun m i => m.store (A i) (B i)) m).read (A i) w = B i := by
  induction is generalizing m with
  | nil => cases hi
  | cons j js ih =>
    obtain ⟨hj, hjs⟩ := List.pairwise_cons.mp hapart
    rw [List.foldl_cons]
    rcases List.mem_cons.mp hi with rfl | hi
    · refine Eq.trans (Mem.read_congr fun x hx => Mem.byte_stores_out fun y hy => ?_) (Mem.read_store_of_length (m := m) (hB i))
      have hxy := hj y hy
      rw [hB]
      omega
    · exact ih hjs hi

end

/-! ### The publication log -/

section
variable {c : Core} {m : Mem} {p : Pub} {v tick status : Nat} {digest : Word64}

theorem Core.mapped_congr {c d : Core} (hpart : d.rd 0x80 = c.rd 0x80) (hlpm : d.rd (pLpm + 0x80) = c.rd (pLpm + 0x80)) (a n : Nat) :
    d.mapped false a n = c.mapped false a n := by
  unfold Core.mapped Core.memMapped Core.meadows Core.plains Core.lpmSize Core.getF
  rw [hpart, hlpm]

/-- An entry of the log is one line, with the outcome in its byte 25 (R322); of registers only the log's tail changes. -/
theorem plogPut_spec : (∃ b : List Byte, b.length = 64 ∧ fld b 25 1 = status % 256 ∧ (plogPut m c p v tick status digest).1 =
      putMapped c m (c.getF (pTask + 0xB0) 0 48 + 64 * c.plogTail) b) ∧
    (∀ b, b ≠ pTask + 0xB8 → (plogPut m c p v tick status digest).2.rd b = c.rd b) ∧
    (plogPut m c p v tick status digest).2.key = c.key ∧ (plogPut m c p v tick status digest).2.task.table = c.task.table := by
  unfold plogPut
  extract_lets prog bytes m' d
  have hlen : bytes.length = 64 := by simp [bytes, length_toLe]
  have hbyte : fld bytes 25 1 = status % 256 := by simp [bytes, fld, slice, toLe, leNat]
  have hd (b : Nat) (hb : b ≠ pTask + 0xB8) : d.rd b = c.rd b := Core.rd_setF_ne c _ _ _ hb
  clear_value bytes
  have hput : m' = putMapped c m (c.getF (pTask + 0xB0) 0 48 + 64 * c.plogTail) bytes := rfl
  have hkey : d.key = c.key := rfl
  have htable : d.task.table = c.task.table := rfl
  clear_value d m'
  exact ⟨⟨bytes, hlen, hbyte, hput⟩, hd, hkey, htable⟩

/-- The core that a publication's outcome is logged in: flips and misses are counted. -/
def Core.plogCounted (c : Core) (status : Nat) : Core :=
  if status = 0 then c.bump (pTask + 0x138) else if status = 1 then c.bump (pKey + 0x1D0) else c

theorem Core.rd_plogCounted {b : Nat} (htask : b ≠ pTask + 0x138) (hkey : b ≠ pKey + 0x1D0) : (c.plogCounted status).rd b = c.rd b := by
  unfold Core.plogCounted
  split
  · exact Core.rd_bump_ne c htask
  split
  · exact Core.rd_bump_ne c hkey
  · rfl

theorem changes_plogCounted : Changes [.regs] c (c.plogCounted status) := .ite changes_bump changes_bump.stepIf

/-- The outcome of a publication as the log shows it, and what it leaves. -/
theorem plogPub_spec (hstatus : status < 256) :
    let x := c.getF (pTask + 0xB0) 0 48 + 64 * c.plogTail
    (c.mapped false x 64 = true → fld ((plogPub m c p status).1.read x 64) 25 1 = status) ∧
    (∀ b, b ≠ pTask + 0xB8 → b ≠ pTask + 0x138 → b ≠ pKey + 0x1D0 → (plogPub m c p status).2.rd b = c.rd b) ∧
    (plogPub m c p status).2.key = c.key ∧ (plogPub m c p status).2.task.table = c.task.table := by
  intro x
  have hplog : plogPub m c p status =
      plogPut m (c.plogCounted status) p p.v p.tick status (if status = 1 && !p.written then 0 else p.digest) := rfl
  rw [hplog]
  generalize (if status = 1 && !p.written then 0 else p.digest) = digest
  have hrd {b : Nat} (h1 : b ≠ pTask + 0x138) (h2 : b ≠ pKey + 0x1D0) : (c.plogCounted status).rd b = c.rd b := Core.rd_plogCounted h1 h2
  have hkey : (c.plogCounted status).key = c.key := changes_plogCounted .key (by decide)
  have htask : (c.plogCounted status).task = c.task := changes_plogCounted .task (by decide)
  have hat : (c.plogCounted status).getF (pTask + 0xB0) 0 48 + 64 * (c.plogCounted status).plogTail = x := by
    unfold x Core.plogTail Core.getF
    rw [hrd (by decide) (by decide), hrd (by decide) (by decide)]
  have hmapped : (c.plogCounted status).mapped false x 64 = c.mapped false x 64 :=
    Core.mapped_congr (hrd (by decide) (by decide)) (hrd (by decide) (by decide)) x 64
  generalize c.plogCounted status = d at *
  obtain ⟨⟨bs, hlen, hbyte, hput⟩, hkept, hsame, htable⟩ :=
    plogPut_spec (c := d) (m := m) (p := p) (v := p.v) (tick := p.tick) (status := status) (digest := digest)
  refine ⟨fun hx => ?_, fun b h1 h2 h3 => (hkept b h1).trans (hrd h2 h3), hsame.trans hkey, htable.trans (by rw [htask])⟩
  rw [hput, hat, putMapped, hlen, if_pos (hmapped.trans hx), Mem.read_store_of_length hlen, hbyte, Nat.mod_eq_of_lt hstatus]

end

/-! ### The instant of V -/

section
variable {c : Core} {m : Mem} {p : Pub}

/-- A publication that is written flips at its instant (R268). -/
theorem publicationFlip_flips (hp : c.pubDue = some p) (hw : p.written = true) : publicationFlip m c =
    plogPub m { c.wr (pKey + 0xE8 + 8 * p.bank) p.tick with
      key := { c.key with pubArmed := c.key.pubArmed.erase p, recent := p.bank } } p 0 := by
  unfold publicationFlip
  rw [hp]
  exact if_pos hw

/-- One that is not is missed (R269). -/
theorem publicationFlip_misses (hp : c.pubDue = some p) (hw : p.written = false) : publicationFlip m c =
    plogPub m (({ c with key := { c.key with pub := none } } : Core).modTask p.task fun t => { t with finish := some stMissed }) p 1 := by
  unfold publicationFlip
  rw [hp]
  exact if_neg (by simp [hw])

theorem flip_spec (hp : c.pubDue = some p) (hw : p.written = true) (hbank : p.bank < 2) :
    let x := c.getF (pTask + 0xB0) 0 48 + 64 * c.plogTail
    let r := publicationFlip m c
    r.2.rd (pKey + 0xE8 + 8 * p.bank) = p.tick % 2 ^ 64 ∧ r.2.key.recent = p.bank ∧ r.2.key.pubArmed = c.key.pubArmed.erase p ∧
    (c.mapped false x 64 = true → fld (r.1.read x 64) 25 1 = 0) := by
  intro x r
  have hr : r = _ := publicationFlip_flips (m := m) hp hw
  generalize hd : ({ c.wr (pKey + 0xE8 + 8 * p.bank) p.tick with
    key := { c.key with pubArmed := c.key.pubArmed.erase p, recent := p.bank } } : Core) = d at hr
  have hregs : d.regs = (c.wr (pKey + 0xE8 + 8 * p.bank) p.tick).regs := by rw [← hd]
  have hrd (b : Nat) (hb : b ≠ pKey + 0xE8 + 8 * p.bank) : d.rd b = c.rd b := (Core.rd_congr hregs b).trans (Core.rd_wr_ne _ _ hb)
  obtain ⟨hentry, hkept, hkey, -⟩ := plogPub_spec (c := d) (m := m) (p := p) (status := 0) (by decide)
  unfold pKey at *
  have hx : d.getF (pTask + 0xB0) 0 48 + 64 * d.plogTail = x := by
    unfold x Core.plogTail Core.getF
    rw [hrd _ (by unfold pTask; omega), hrd _ (by unfold pTask; omega)]
  rw [hr]
  refine ⟨?_, by rw [hkey, ← hd], by rw [hkey, ← hd], fun hmapped => ?_⟩
  · rw [hkept _ (by unfold pTask; omega) (by unfold pTask; omega) (by omega), Core.rd_congr hregs, Core.rd_wr_self]
  · rw [hx] at hentry
    refine hentry ((Core.mapped_congr (hrd _ (by omega)) (hrd _ (by unfold pLpm; omega)) x 64).trans hmapped)

theorem miss_spec (hp : c.pubDue = some p) (hw : p.written = false) (hbank : p.bank < 2) :
    let x := c.getF (pTask + 0xB0) 0 48 + 64 * c.plogTail
    let r := publicationFlip m c
    r.2.rd (pKey + 0xE8 + 8 * p.bank) = c.rd (pKey + 0xE8 + 8 * p.bank) ∧ r.2.key.pub = none ∧
    (r.2.taskAt p.task).finish = some stMissed ∧ (c.mapped false x 64 = true → fld (r.1.read x 64) 25 1 = 1) := by
  intro x r
  have hr : r = _ := publicationFlip_misses (m := m) hp hw
  obtain ⟨hentry, hkept, hkey, htable⟩ := plogPub_spec (m := m) (p := p) (status := 1) (by decide)
    (c := ({ c with key := { c.key with pub := none } } : Core).modTask p.task fun t => { t with finish := some stMissed })
  rw [hr]
  refine ⟨?_, congrArg KeyStage.pub hkey, ?_, hentry⟩
  · unfold pKey at *
    exact hkept _ (by unfold pTask; omega) (by unfold pTask; omega) (by omega)
  · unfold Core.taskAt
    rw [htable]
    exact congrArg Task.finish (Core.taskAt_setTask _)

end

/-! ### PUBLISH up to its wait -/

section
variable {c : Core} {m : Mem} {e : Nat} {d : List Byte} {k : KeyMap}

/-- The publication that a task asks for (R320). -/
def Core.pubOf (c : Core) (e : Nat) (d : List Byte) : Pub :=
  ⟨e, fld d 32 8, c.tickOf (fld d 32 8), c.pubTarget, fld d 48 4 % 2 ^ 20, fld d 52 4, 0, BitVec.ofNat 64 (fld d 24 8), fld d 4 2, false⟩

/-- The core in which that publication waits. -/
def Core.pubWaits (c : Core) (e : Nat) (d : List Byte) : Core := { c with key := { c.key with pub := some (c.pubOf e d) } }

theorem publishWork_range (h : fld d 52 4 = 0 ∨ 2 ^ 20 < fld d 48 4 % 2 ^ 20 + fld d 52 4) :
    publishWork m c e d = (m, c.ends e stRange 0) := by
  unfold publishWork
  exact if_pos (by simpa using h)

variable (hn : fld d 52 4 ≠ 0) (hlast : fld d 48 4 % 2 ^ 20 + fld d 52 4 ≤ 2 ^ 20) (hk : c.keyMap = some k) (hwords : k.pubWords ≠ 0)
  (haligned : fld d 40 8 % 8 = 0) (hmapped : c.mapped false (fld d 40 8) (fld d 52 4 * 8 * k.pubWords) = true)
include hn hlast hk hwords haligned hmapped

/-- A PUBLISH whose arguments are good, by its V (R320). -/
theorem publishWork_args : publishWork m c e d =
    if fld d 32 8 < c.task.plogV then (m, c.ends e stOrder 0)
    else if c.valleyDue (fld d 32 8) then plogPub m (c.ends e stMissed 0) (c.pubOf e d) 1
    else pubTry m (c.pubWaits e d) := by
  unfold publishWork
  extract_lets v src first n words p
  have hw : words = k.pubWords := by
    unfold words
    rw [hk]
    rfl
  have hrange : ¬ (n = 0 || 2 ^ 20 < first + n) = true := by simpa [n, hn, first] using hlast
  have hsource : ¬ (src % 8 ≠ 0 || !c.mapped false src (n * 8 * words)) = true := by simp [src, haligned, n, hw, hmapped]
  rw [if_neg hrange, if_neg (hw ▸ hwords), if_neg hsource]
  rfl

/-- The same of a task that has just begun. -/
theorem publishWork_dispatched (q r : Nat) : publishWork m (c.dispatched e q r) e d =
    if fld d 32 8 < c.task.plogV then (m, (c.dispatched e q r).ends e stOrder 0)
    else if c.valleyDue (fld d 32 8) then plogPub m ((c.dispatched e q r).ends e stMissed 0) ((c.dispatched e q r).pubOf e d) 1
    else pubTry m ((c.dispatched e q r).pubWaits e d) := by
  rw [publishWork_args hn hlast (Core.keyMap_dispatched.trans hk) hwords haligned ((Core.mapped_dispatched ..).trans hmapped),
    Core.valleyDue_dispatched]
  rfl

end

section
variable {c : Core} {e q r : Nat} {d : List Byte}

theorem Core.pubOf_dispatched : (c.dispatched e q r).pubOf e d = c.pubOf e d := by
  unfold Core.pubOf
  rw [Core.tickOf_dispatched, Core.pubTarget_dispatched]

theorem Core.activeBank_pubWaits (t : Nat) : (c.pubWaits e d).activeBank t = c.activeBank t := rfl

theorem Core.pubTarget_pubWaits : (c.pubWaits e d).pubTarget = c.pubTarget := by
  unfold Core.pubTarget
  rw [Core.activeBank_pubWaits]

/-- That a publication waits does not take its bank. -/
theorem Core.pubFree_pubWaits (b : Nat) : (c.pubWaits e d).pubFree b = c.pubFree b := rfl

/-- The bank that a publication just dispatched writes is free as it was. -/
theorem Core.pubFree_dispatched_waits : ((c.dispatched e q r).pubWaits e d).pubFree ((c.dispatched e q r).pubWaits e d).pubTarget =
    c.pubFree c.pubTarget := by
  rw [Core.pubTarget_pubWaits, Core.pubTarget_dispatched, Core.pubFree_pubWaits, Core.pubFree_dispatched]

theorem Core.keyMap_pubWaits : (c.pubWaits e d).keyMap = c.keyMap := rfl
theorem Core.valleyDue_pubWaits (v : Nat) : (c.pubWaits e d).valleyDue v = c.valleyDue v := rfl

end

/-! ### The write of a bank -/

section
variable {c : Core} {m : Mem} {e : Nat} {d : List Byte} {k : KeyMap} {p : Pub} {src : Nat}

/-- Where the bank of a publication's i-th ring lies (R267). -/
def pubAt (k : KeyMap) (p : Pub) (i : Nat) : Nat :=
  kmRingAt k (homeOf (kmVaults k).length (p.first + i)).1 (homeOf (kmVaults k).length (p.first + i)).2 + kmBankOff k p.bank

/-- Writing rings stores their records. -/
theorem pubRings_mem (A : Nat → Nat) (B : Nat → List Byte) (is : List Nat) (m : Mem) (c : Core) :
    (is.foldl (fun (x : Mem × Core) i => pubRing x.1 x.2 (A i) (B i)) (m, c)).1 = is.foldl (fun m i => m.store (A i) (B i)) m := by
  induction is generalizing m c with
  | nil => rfl
  | cons i is ih => exact ih _ _

/-- The bytes that a publication writes are its records, each in its ring's bank. -/
theorem byte_pubWrite (b : Nat) : (pubWrite m c k p src).1.byte b = ((List.range p.count).foldl (fun x i =>
    x.store (pubAt k p i) (m.read (src + i * (8 * k.pubWords)) (8 * k.pubWords))) m).byte b := by
  unfold pubWrite
  extract_lets n at_ off d marks r
  refine (Mem.byte_setPoisons _ _ _).trans (congrArg (fun x => Mem.byte x b) ?_)
  exact pubRings_mem (fun i => at_ i + off) (fun i => m.read (src + i * n) n) _ m d

theorem pubWrite_spec (hapart : ∀ i j, i < j → j < p.count →
      pubAt k p i + 8 * k.pubWords ≤ pubAt k p j ∨ pubAt k p j + 8 * k.pubWords ≤ pubAt k p i) :
    (∀ i, i < p.count → (pubWrite m c k p src).1.read (pubAt k p i) (8 * k.pubWords) =
      m.read (src + i * (8 * k.pubWords)) (8 * k.pubWords)) ∧
    ∀ b, (∀ i, i < p.count → b < pubAt k p i ∨ pubAt k p i + 8 * k.pubWords ≤ b) → (pubWrite m c k p src).1.byte b = m.byte b := by
  refine ⟨fun i hi => ?_, fun b hb => ?_⟩
  · rw [Mem.read_congr fun x _ => byte_pubWrite _]
    refine Mem.read_stores (fun j => Mem.read_length ..) ?_ (List.mem_range.mpr hi)
    refine List.pairwise_lt_range.imp_of_mem fun {i j} _ hj hij => hapart i j hij (List.mem_range.mp hj)
  · rw [byte_pubWrite]
    refine Mem.byte_stores_out fun i hi => ?_
    rw [Mem.read_length]
    exact hb i (List.mem_range.mp hi)

/-- A publication as it is once written: with its bank and its digest. -/
def Pub.inBank (p : Pub) (m : Mem) (bank src n : Nat) : Pub :=
  { p with bank := bank, written := true, digest := crc64 (m.read src n) }

/-- A publication whose bank is not free waits (R269). -/
theorem pubTry_waits (hfree : c.pubFree c.pubTarget = false) : pubTry m c = (m, c) := by
  unfold pubTry
  split
  · exact if_pos (by simp [hfree])
  · rfl

/-- One whose bank is free is written and awaits its flip (R269). -/
theorem pubTry_writes (hp : c.key.pub = some p) (hk : c.keyMap = some k) (hfree : c.pubFree c.pubTarget = true)
    (hdue : c.valleyDue p.v = false) (hsrc : fld (c.taskAt p.task).desc 40 8 = src) :
    let q := p.inBank m c.pubTarget src (p.count * 8 * k.pubWords)
    (pubTry m c).1 = (pubWrite m c k q src).1 ∧ (pubTry m c).2.key.pub = none ∧ (pubTry m c).2.key.pubArmed = [q] := by
  intro q
  unfold pubTry
  split
  · next p' k' hp' hk' =>
    obtain rfl := Option.some.inj (hp.symm.trans hp')
    obtain rfl := Option.some.inj (hk.symm.trans hk')
    rw [if_neg (by simp [hfree, hdue]), hsrc]
    exact ⟨rfl, rfl, rfl⟩
  · next hnone => exact absurd hk (hnone _ _ hp)

end

end Sys2Proof.Machine

open Sys2Proof Sys2Proof.Machine Sys2Proof.Stated

/-- Settles O36: a MOVE by its ranges and its completion, a PUBLISH by its arguments, its V and its bank, and the instant of V by whether
the publication is written. -/
theorem movesAndPublications : Obligations.MovesAndPublications := by
  refine ⟨fun s e hm hnext => ?_, fun s e hm hst hk hfin hwaiting hslice => ?_, fun s e k hnext hk => ?_, fun s p hp hbank => ?_⟩
  · intro d src dst n inRange
    obtain ⟨q, r, hwork⟩ := dispatch_next (work := moveWork) hnext
    have hrange : (s.core.dispatched e q r).moveInRange d ↔ inRange := Iff.rfl
    have hshut : (s.core.dispatched e q r).moveShut dst n = s.core.moveShut dst n := Core.moveShut_dispatched dst n
    have hruns {P : Mem → Core → Prop} : RunsDev (.move e) s P ↔
        P (moveWork s.mem (s.core.dispatched e q r) e d).1 (moveWork s.mem (s.core.dispatched e q r) e d).2 := by
      rw [← hwork]
      exact runsDev_devStep (f := fun m c => dispatch 2 moveWork e m c) rfl
    refine ⟨fun hout => ?_, fun hin hsome hclosed => ?_, fun hin hopen => ?_⟩
    · rw [hruns, moveWork_range (hrange.not.mpr hout)]
      exact ⟨rfl, dispatched_ends stRange⟩
    · rw [hruns, moveWork_inRange (hrange.mpr hin), if_pos (Bool.and_eq_true_iff.mpr ⟨decide_eq_true hsome, hshut.trans hclosed⟩)]
      exact ⟨rfl, dispatched_ends stProtect⟩
    · rw [hruns, moveWork_inRange (hrange.mpr hin), if_neg]
      · exact ⟨rfl, dispatched_goes⟩
      · intro hboth
        obtain ⟨hsome, hclosed⟩ := Bool.and_eq_true_iff.mp hboth
        rcases hopen with hnone | hopen
        · exact of_decide_eq_true hsome hnone
        · exact absurd (hshut.symm.trans hclosed) (by rw [hopen]; exact Bool.false_ne_true)
  · exact (runsDev_devStep (f := fun m c => taskComplete m c e) rfl).mpr (taskComplete_moves hm hst hk hfin hwaiting hslice)
  · intro d v src first n w b at_
    obtain ⟨q, r, hwork⟩ := dispatch_next (work := publishWork) hnext
    have hruns {P : Mem → Core → Prop} : RunsDev (.publish e) s P ↔
        P (publishWork s.mem (s.core.dispatched e q r) e d).1 (publishWork s.mem (s.core.dispatched e q r) e d).2 := by
      rw [← hwork]
      exact runsDev_devStep (f := fun m c => dispatch 3 publishWork e m c) rfl
    refine ⟨fun hnone => ?_, fun hn hlast hwords haligned hmapped => ?_⟩
    · rw [hruns, publishWork_range hnone]
      exact ⟨rfl, dispatched_ends stRange⟩
    have hargs := publishWork_dispatched (m := s.mem) (e := e) hn hlast hk hwords haligned hmapped q r
    refine ⟨fun hearly => ?_, fun hv hdue hbusy => ?_, fun hv hdue hfree hapart => ?_⟩
    · rw [hruns, hargs, if_pos hearly]
      exact ⟨rfl, dispatched_ends stOrder⟩
    · rw [hruns, hargs, if_neg (Nat.not_lt.mpr hv), if_neg (by rw [hdue]; exact Bool.false_ne_true),
        pubTry_waits (Core.pubFree_dispatched_waits.trans hbusy)]
      exact ⟨rfl, dispatched_goes, congrArg some Core.pubOf_dispatched⟩
    · rw [hruns, hargs, if_neg (Nat.not_lt.mpr hv), if_neg (by rw [hdue]; exact Bool.false_ne_true)]
      have hsource : fld (((s.core.dispatched e q r).pubWaits e d).taskAt (s.core.pubOf e d).task).desc 40 8 = src := by
        show fld ((s.core.dispatched e q r).taskAt e).desc 40 8 = src
        rw [Core.taskAt_dispatched]
      obtain ⟨hmem, hnone, harmed⟩ := pubTry_writes (c := (s.core.dispatched e q r).pubWaits e d) (m := s.mem) (src := src)
        (congrArg some Core.pubOf_dispatched) ((Core.keyMap_pubWaits.trans Core.keyMap_dispatched).trans hk)
        (Core.pubFree_dispatched_waits.trans hfree)
        (((Core.valleyDue_pubWaits v).trans (Core.valleyDue_dispatched v)).trans hdue)
        hsource
      have hbank : ((s.core.dispatched e q r).pubWaits e d).pubTarget = b := Core.pubTarget_pubWaits.trans Core.pubTarget_dispatched
      rw [hbank] at hmem harmed
      obtain ⟨hread, hkept⟩ := pubWrite_spec (m := s.mem) (c := (s.core.dispatched e q r).pubWaits e d) (k := k) (src := src)
        (p := (s.core.pubOf e d).inBank s.mem b src ((s.core.pubOf e d).count * 8 * k.pubWords)) hapart
      rw [hmem]
      exact ⟨hread, hkept, hnone, by rw [harmed]; rfl⟩
  · refine (runsDev_devStep (f := publicationFlip) rfl).mpr ⟨fun hw => flip_spec hp hw hbank, fun hw => miss_spec hp hw hbank⟩
end

