-- ==== Sys2Proof/Proofs/ConfigurationSwaps.lean ====
section
/-! PROOF. SWAP_AT, the swap tick and the end of a drained swap (R296 to R299, R301). O29. -/

namespace Sys2Proof.Machine

/-! ### Setting one bit of a field -/

section
variable {c : Core} {a lo w k j : Nat}

theorem Core.getB_of_field (hlo : lo ≤ k) (hhi : k < lo + w) : c.getB a k = (c.getF a lo w).testBit (k - lo) := by
  have hsub : k - lo < w := by omega
  rw [Bool.eq_iff_iff, Core.getB_iff_testBit, Core.getF, Nat.testBit_mod_two_pow, Nat.testBit_div_two_pow, Nat.sub_add_cancel hlo]
  simp [hsub]

/-- A field written with one more bit keeps the bits it has. -/
theorem Core.getB_setF_or (h : lo + w ≤ 64) (hj : j < w) :
    (c.setF a lo w (c.getF a lo w ||| 2 ^ j)).getB a k = (c.getB a k || decide (k = lo + j)) := by
  by_cases hk : lo ≤ k ∧ k < lo + w
  · obtain ⟨hlo, hhi⟩ := hk
    have hsub : k - lo < w := by omega
    have hbit : j = k - lo ↔ k = lo + j := by omega
    rw [Core.getB_of_field hlo hhi, Core.getF_setF_self _ _ _ _ _ h, Core.getB_of_field hlo hhi, Nat.testBit_mod_two_pow,
      Nat.testBit_or, Nat.testBit_two_pow]
    simp [hsub, hbit]
  · rw [Core.getB_setF_apart _ _ _ _ _ _ h (by omega), decide_eq_false (by omega), Bool.or_false]

end

/-! ### SWAP_AT -/

section
variable {c : Core} {a : Access} {v t mask sl : Nat}

/-- A write of ARM arms a swap that meets R296, and is rejected otherwise. -/
theorem Core.hSwap_arm (ha : a.view = .priv) : c.hSwap a (setBits v 8 1 1) =
    if c.swapOk (c.rd (pTime + 0xB0)) (v % 256) then
      (c.clearF aSwap 10 1 (setBits v 8 1 1 / 2 ^ 10)).armSwap (c.rd (pTime + 0xB0)) (v % 256)
    else (c.raiseF aSwap 10).reject pTime 0xB8 (setBits v 8 1 1) := by
  have hmask : setBits v 8 1 1 % 256 = v % 256 := setBits_below v 8 1 1
  unfold Core.hSwap
  dsimp only
  rw [if_neg (by simp [isPriv_of_view ha]), if_neg (by simp [bit_setBits_one]), hmask]

/-- The core with another armed swap, or with none. -/
def Core.withSwapArmed (c : Core) (x : Option (Nat × Nat × Nat)) : Core := { c with swapArmed := x }

theorem Core.swapArmed_withSwapArmed (x : Option (Nat × Nat × Nat)) : (c.withSwapArmed x).swapArmed = x := rfl

theorem Core.rd_withSwapArmed (x : Option (Nat × Nat × Nat)) (b : Nat) : (c.withSwapArmed x).rd b = c.rd b := rfl

theorem Core.getF_withSwapArmed (x : Option (Nat × Nat × Nat)) (b lo w : Nat) : (c.withSwapArmed x).getF b lo w = c.getF b lo w := rfl

theorem Core.getB_withSwapArmed (x : Option (Nat × Nat × Nat)) (b k : Nat) : (c.withSwapArmed x).getB b k = c.getB b k := rfl

/-- SWAP_AT when a swap of the regions in `mask` is armed, those in `sl` seamless: no failure shows. -/
def Core.swapShown (c : Core) (mask sl : Nat) : Core :=
  (((c.setF aSwap 0 8 mask).setF aSwap 9 1 1).setF aSwap 16 8 sl).setF aSwap 24 8 0

theorem Core.swapShown_spec :
    (c.swapShown mask sl).getF aSwap 0 8 = mask % 256 ∧ (c.swapShown mask sl).getB aSwap 9 = true ∧
    (c.swapShown mask sl).getF aSwap 16 8 = sl % 256 ∧ (c.swapShown mask sl).getF aSwap 24 8 = 0 ∧
    Stated.OnlyReg c (c.swapShown mask sl) aSwap := by
  unfold Core.swapShown
  refine ⟨?_, ?_, ?_, Core.getF_setF_self _ _ _ _ _ (by decide), fun b hb => ?_⟩
  · rw [Core.getF_setF_apart _ _ _ _ _ _ _ (by decide) (by decide), Core.getF_setF_apart _ _ _ _ _ _ _ (by decide) (by decide),
      Core.getF_setF_apart _ _ _ _ _ _ _ (by decide) (by decide)]
    exact Core.getF_setF_self _ _ _ _ _ (by decide)
  · rw [Core.getB_setF_apart _ _ _ _ _ _ (by decide) (by decide), Core.getB_setF_apart _ _ _ _ _ _ (by decide) (by decide)]
    exact Core.getB_setF_self _ _ _ _ (by decide)
  · rw [Core.getF_setF_apart _ _ _ _ _ _ _ (by decide) (by decide)]
    exact Core.getF_setF_self _ _ _ _ _ (by decide)
  · rw [Core.rd_setF_ne _ _ _ _ hb, Core.rd_setF_ne _ _ _ _ hb, Core.rd_setF_ne _ _ _ _ hb, Core.rd_setF_ne _ _ _ _ hb]

/-- Arming decides each region's kind and shows it. -/
theorem Core.armSwap_spec :
    let sl := toMask ((maskBits 8 mask).filter c.seamless)
    let d := c.armSwap t mask
    d.swapArmed = some (t, mask, sl) ∧ d.getF aSwap 0 8 = mask % 256 ∧ d.getB aSwap 9 = true ∧ d.getF aSwap 16 8 = sl % 256 ∧
    d.getF aSwap 24 8 = 0 ∧ Stated.OnlyReg c d aSwap := by
  intro sl d
  obtain ⟨hmask, harm, hkinds, hfails, honly⟩ := Core.swapShown_spec (c := c) (mask := mask) (sl := sl)
  have hd : d = (c.swapShown mask sl).withSwapArmed (some (t, mask, sl)) := rfl
  rw [hd, Core.getF_withSwapArmed, Core.getB_withSwapArmed, Core.getF_withSwapArmed, Core.getF_withSwapArmed]
  exact ⟨Core.swapArmed_withSwapArmed _, hmask, harm, hkinds, hfails, fun b hb => (Core.rd_withSwapArmed _ b).trans (honly b hb)⟩

/-- The kind of a region's swap is not read from SWAP_AT (R297). -/
theorem Core.seamless_clearF {lo w x : Nat} : (c.clearF aSwap lo w x).seamless = c.seamless := by
  have hrd (b : Nat) (hb : b ≠ aSwap) : (c.clearF aSwap lo w x).rd b = c.rd b := Core.rd_setF_ne _ _ _ _ hb
  have hfield (m : Nat) : (c.clearF aSwap lo w x).rgnField m = c.rgnField m :=
    Core.getF_of_rd (hrd _ (by unfold aSwap pMdw pTime; omega))
  have howner : (c.clearF aSwap lo w x).getF (pKey + 0x80) 0 3 = c.getF (pKey + 0x80) 0 3 := Core.getF_of_rd (hrd _ (by decide))
  have hrgn (g : Nat) : (c.clearF aSwap lo w x).rgn g = c.rgn g := Core.rgn_congr (changes_clearF .rgns (by decide)) g
  funext g
  simp only [Core.seamless, hrgn, hfield, howner]

/-- A rejected arm leaves the armed swap and the regions, and shows REJ. -/
theorem Core.swapRejected_spec {x : Nat} :
    let d := (c.raiseF aSwap 10).reject pTime 0xB8 x
    d.swapArmed = c.swapArmed ∧ d.rgns = c.rgns ∧ d.getB aSwap 10 = true := by
  intro d
  have hlog : d.rd aSwap = (c.raiseF aSwap 10).rd aSwap := Core.rd_logErr_ne _ _ _ _ _ _ (by unfold LogTouches; decide)
  have hkept : Changes ([.regs, .cyc] ++ [.regs, .cyc, .notices, .errSeq]) c d := changes_raiseF.trans changes_reject
  exact ⟨hkept .swapArmed (by decide), hkept .rgns (by decide),
    (Core.getB_of_rd hlog).trans (Core.getB_raiseF_self _ _ _ (by decide))⟩

end

/-! ### The swap tick -/

/-- A region after the swap tick (R298, R299, R301). -/
def Rgn.swapped (r : Rgn) (t : Nat) (seamless : Bool) : Rgn :=
  if r.phase = .halted then r
  else if r.swapHold.isSome then { r with swapNext := some t }
  else if seamless then { r with set := !r.set, setFrom := some (t, r.set) }
  else { r with swapHold := some t }

section
variable {r : Rgn} {t : Nat} {b : Bool}

theorem Rgn.swapped_halted (h : r.phase = .halted) : r.swapped t b = r := if_pos h

theorem Rgn.swapped_underWay (h : r.phase ≠ .halted) (hhold : r.swapHold.isSome = true) :
    r.swapped t b = { r with swapNext := some t } := by rw [Rgn.swapped, if_neg h, if_pos hhold]

theorem Rgn.swapped_seamless (h : r.phase ≠ .halted) (hfree : r.swapHold = none) :
    r.swapped t true = { r with set := !r.set, setFrom := some (t, r.set) } := by
  rw [Rgn.swapped, if_neg h, if_neg (by simp [hfree]), if_pos rfl]

theorem Rgn.swapped_drained (h : r.phase ≠ .halted) (hfree : r.swapHold = none) :
    r.swapped t false = { r with swapHold := some t } := by
  rw [Rgn.swapped, if_neg h, if_neg (by simp [hfree]), if_neg Bool.false_ne_true]

theorem Rgn.phase_swapped : (r.swapped t b).phase = r.phase := by
  unfold Rgn.swapped
  split
  · rfl
  · split
    · rfl
    · split <;> rfl

end

section
variable {c : Core} {t g h k : Nat} {b : Bool}

/-- The core in which a halted region's failure shows in SWAP_AT (R301). -/
def Core.swapFailed (c : Core) (t g : Nat) : Core :=
  (c.setF aSwap 24 8 (c.getF aSwap 24 8 ||| 2 ^ g)).logErr pTime clsC 0x09 0 g (t % 2 ^ 32)

/-- The swap of a region that is halted fails; that of another one changes the region alone. -/
theorem Core.swapRgn_eq : c.swapRgn t b g =
    if (c.rgn g).phase = .halted then c.swapFailed t g else c.setRgn g ((c.rgn g).swapped t b) := by
  unfold Core.swapRgn Rgn.swapped
  dsimp only
  split
  · rfl
  · split
    · rfl
    · split <;> rfl

theorem Core.rgns_swapFailed : (c.swapFailed t g).rgns = c.rgns := by
  rw [Core.swapFailed, Core.logErr_rgns, Core.setF_rgns]

theorem Core.swapArmed_swapFailed : (c.swapFailed t g).swapArmed = c.swapArmed := by
  rw [Core.swapFailed, Core.logErr_swapArmed, Core.setF_swapArmed]

theorem Core.getB_swapFailed (hg : g < 8) : (c.swapFailed t g).getB aSwap k = (c.getB aSwap k || decide (k = 24 + g)) :=
  (Core.getB_of_rd (Core.rd_logErr_ne _ _ _ _ _ _ (by unfold LogTouches; decide))).trans (Core.getB_setF_or (by decide) hg)

theorem Core.rgn_swapRgn_self : (c.swapRgn t b g).rgn g = (c.rgn g).swapped t b := by
  rw [Core.swapRgn_eq]
  split
  · next hhalted => rw [Core.rgn_congr Core.rgns_swapFailed, Rgn.swapped_halted hhalted]
  · exact Core.rgn_setRgn_self ..

theorem Core.rgn_swapRgn_ne (hne : h ≠ g) : (c.swapRgn t b g).rgn h = c.rgn h := by
  rw [Core.swapRgn_eq]
  split
  · exact Core.rgn_congr Core.rgns_swapFailed h
  · exact Core.rgn_setRgn_ne _ _ hne

theorem Core.phase_swapRgn : ((c.swapRgn t b g).rgn h).phase = (c.rgn h).phase := by
  by_cases hne : h = g
  · rw [hne, Core.rgn_swapRgn_self, Rgn.phase_swapped]
  · rw [Core.rgn_swapRgn_ne hne]

theorem Core.swapArmed_swapRgn : (c.swapRgn t b g).swapArmed = c.swapArmed := by
  rw [Core.swapRgn_eq]
  split
  · exact Core.swapArmed_swapFailed
  · rfl

/-- The bits of SWAP_AT: a halted region sets its own. -/
theorem Core.getB_swapRgn (hg : g < 8) : (c.swapRgn t b g).getB aSwap k = true ↔
    c.getB aSwap k = true ∨ (c.rgn g).phase = .halted ∧ k = 24 + g := by
  rw [Core.swapRgn_eq]
  split
  · next hhalted => simp [Core.getB_swapFailed hg, hhalted]
  · next hlive =>
    have hkept : (c.setRgn g ((c.rgn g).swapped t b)).getB aSwap k = c.getB aSwap k := rfl
    simp [hlive, hkept]

end

/-- Regions swapped one after another, each by its kind in `sl`. -/
def Core.swapRgns (c : Core) (t sl : Nat) (gs : List Nat) : Core := gs.foldl (fun c g => c.swapRgn t (bit sl g) g) c

section
variable {c : Core} {t sl h k : Nat} {gs : List Nat}

theorem Core.swapRgns_cons (g : Nat) : c.swapRgns t sl (g :: gs) = (c.swapRgn t (bit sl g) g).swapRgns t sl gs := rfl

theorem Core.swapArmed_swapRgns : (c.swapRgns t sl gs).swapArmed = c.swapArmed := by
  induction gs generalizing c with
  | nil => rfl
  | cons g gs ih => exact ih.trans Core.swapArmed_swapRgn

theorem Core.rgn_swapRgns_notMem (hh : h ∉ gs) : (c.swapRgns t sl gs).rgn h = c.rgn h := by
  induction gs generalizing c with
  | nil => rfl
  | cons g gs ih =>
    obtain ⟨hne, hgs⟩ := List.ne_and_not_mem_of_not_mem_cons hh
    exact (ih hgs).trans (Core.rgn_swapRgn_ne hne)

/-- Of regions that differ, each is swapped once. -/
theorem Core.rgn_swapRgns_mem (hn : gs.Nodup) (hh : h ∈ gs) : (c.swapRgns t sl gs).rgn h = (c.rgn h).swapped t (bit sl h) := by
  induction gs generalizing c with
  | nil => cases hh
  | cons g gs ih =>
    obtain ⟨hg, hn⟩ := List.nodup_cons.mp hn
    rw [Core.swapRgns_cons]
    rcases List.mem_cons.mp hh with rfl | hh
    · rw [Core.rgn_swapRgns_notMem hg, Core.rgn_swapRgn_self]
    · have hne : h ≠ g := fun e => hg (e ▸ hh)
      rw [ih hn hh, Core.rgn_swapRgn_ne hne]

/-- The bits of SWAP_AT afterwards: those it had, and one for each halted region (R301). -/
theorem Core.getB_swapRgns (hgs : ∀ g ∈ gs, g < 8) : (c.swapRgns t sl gs).getB aSwap k = true ↔
    c.getB aSwap k = true ∨ ∃ g ∈ gs, (c.rgn g).phase = .halted ∧ k = 24 + g := by
  induction gs generalizing c with
  | nil => simp [Core.swapRgns]
  | cons g gs ih =>
    obtain ⟨hg, hgs⟩ := List.forall_mem_cons.mp hgs
    rw [Core.swapRgns_cons, ih hgs, Core.getB_swapRgn hg]
    simp only [Core.phase_swapRgn, List.exists_mem_cons_iff, or_assoc]

variable {mask : Nat}

/-- The core whose swap is no longer armed (R296). -/
def Core.swapBegun (c : Core) : Core := (c.setF aSwap 9 1 0).withSwapArmed none

/-- At its tick an armed swap is carried out in every region it names. -/
theorem Core.swapTick_due (harmed : c.swapArmed = some (t, mask, sl)) (hdue : c.tickBegun t = true) :
    c.swapTick = c.swapBegun.swapRgns t sl (maskBits 8 mask) := by
  unfold Core.swapTick
  rw [harmed]
  dsimp only
  rw [if_pos hdue]
  rfl

/-- ARM goes: no region's failure shows in its bit. -/
theorem Core.getB_arm_swapRgns (hgs : ∀ g ∈ gs, g < 8) : (c.swapBegun.swapRgns t sl gs).getB aSwap 9 = false := by
  rw [← Bool.not_eq_true, Core.getB_swapRgns hgs]
  rintro (harm | ⟨g, -, -, heq⟩)
  · rw [Core.swapBegun, Core.getB_withSwapArmed, Core.getB_setF_self _ _ _ _ (by decide)] at harm
    exact absurd harm (by decide)
  · omega

end

/-! ### The end of a drained swap -/

section
variable {m : Mem} {c : Core} {g t : Nat}

/-- A region that has entered the set a drained swap of tick `t` turned to, at device time `now` (R299). -/
def Rgn.entered (r : Rgn) (t now : Nat) : Rgn :=
  { r with set := !r.set, sect := 0, swapHold := r.swapNext, swapNext := none, setFrom := some (t, r.set), heldAt := now }

/-- The memories once the images staged for a drained swap of the region are written (R299): it takes a binary in both sets. -/
def stagedWritten (m : Mem) (r : Rgn) : Mem :=
  match r.bin r.set, r.bin (!r.set) with
  | some act, some sh => loadStaged m act sh
  | _, _ => m

theorem stagedWritten_both {r : Rgn} {act sh : Loaded} (hact : r.bin r.set = some act) (hsh : r.bin (!r.set) = some sh) :
    stagedWritten m r = loadStaged m act sh := by rw [stagedWritten, hact, hsh]

theorem stagedWritten_none {r : Rgn} (h : r.bin r.set = none ∨ r.bin (!r.set) = none) : stagedWritten m r = m := by
  unfold stagedWritten
  split
  · next act sh hact hsh => simp [hact, hsh] at h
  · rfl

/-- When the old set has finished, the staged images are written and the region enters the new one. -/
theorem swapDrainDone_drained (hhold : (c.rgn g).swapHold = some t) (hdrained : c.swapDrained g t = true) :
    swapDrainDone m c g = (stagedWritten m (c.rgn g), c.setRgn g ((c.rgn g).entered t c.now)) := by
  unfold swapDrainDone
  dsimp only
  rw [hhold]
  dsimp only
  rw [if_neg (by simp [hdrained])]
  rfl

end

/-! ### The commands -/

section
variable {s : State} {P : Core → Prop}

theorem swapArm_runs {a : Access} {v : Word64} : Stated.Runs (.swapArm a v) s P ↔ P (s.core.hSwap a (setBits v.toNat 8 1 1)) :=
  runs_iff rfl

theorem swapTick_runs : Stated.Runs .swapTick s P ↔ P s.core.swapTick := runs_iff rfl

theorem swapDrainDone_runs {g : Nat} {P : Mem → Core → Prop} : Stated.RunsDev (.swapDrainDone g) s P ↔
    P (swapDrainDone s.mem s.core g).1 (swapDrainDone s.mem s.core g).2 :=
  runsDev_devStep (f := fun m c => swapDrainDone m c g) rfl

end

end Sys2Proof.Machine

open Sys2Proof Sys2Proof.Machine Sys2Proof.Stated

/-- Settles O29: the arm by R296, the tick region by region, and the end of a drained swap by whether both sets hold a binary. -/
theorem swapsTakeEffect : Obligations.SwapsTakeEffect := by
  refine ⟨fun s a v ha => ⟨fun hok => ?_, fun hbad => ?_⟩, fun s t mask sl harmed hdue => ?_, fun s g t hhold hdrained => ?_⟩
  · rw [swapArm_runs, Core.hSwap_arm ha, if_pos hok]
    obtain ⟨harmed, hmask, harm, hkinds, hfails, honly⟩ := Core.armSwap_spec
      (c := s.core.clearF aSwap 10 1 (setBits v.toNat 8 1 1 / 2 ^ 10)) (t := s.core.rd (pTime + 0xB0)) (mask := v.toNat % 256)
    rw [Core.seamless_clearF] at harmed hkinds
    exact ⟨harmed, hmask.trans (Nat.mod_mod _ _), harm, hkinds, hfails, fun b hb => (honly b hb).trans (Core.rd_setF_ne _ _ _ _ hb)⟩
  · rw [swapArm_runs, Core.hSwap_arm ha, if_neg (by simp [hbad])]
    exact Core.swapRejected_spec
  · rw [swapTick_runs, Core.swapTick_due harmed hdue]
    have hgs : ∀ g ∈ maskBits 8 mask, g < 8 := fun g hg => (mem_maskBits.mp hg).1
    refine ⟨Core.swapArmed_swapRgns, Core.getB_arm_swapRgns hgs, fun g hg => ?_⟩
    have hswapped (hbit : bit mask g = true) :
        (s.core.swapBegun.swapRgns t sl (maskBits 8 mask)).rgn g = (s.core.rgn g).swapped t (bit sl g) :=
      Core.rgn_swapRgns_mem nodup_maskBits (mem_maskBits.mpr ⟨hg, hbit⟩)
    refine ⟨fun hbit => ?_, fun hbit hhalted => ⟨?_, ?_⟩, fun hbit hlive hfree hkind => ?_, fun hbit hlive hfree hkind => ?_,
      fun hbit hlive hhold => ?_⟩
    · exact Core.rgn_swapRgns_notMem fun hmem => absurd (mem_maskBits.mp hmem).2 (by simp [hbit])
    · rw [hswapped hbit, Rgn.swapped_halted hhalted]
    · exact (Core.getB_swapRgns hgs).mpr (.inr ⟨g, mem_maskBits.mpr ⟨hg, hbit⟩, hhalted, rfl⟩)
    · rw [hswapped hbit, hkind, Rgn.swapped_seamless hlive hfree]
    · rw [hswapped hbit, hkind, Rgn.swapped_drained hlive hfree]
    · rw [hswapped hbit, Rgn.swapped_underWay hlive hhold]
  · rw [swapDrainDone_runs, swapDrainDone_drained hhold hdrained]
    exact ⟨Core.rgn_setRgn_self .., fun h hne => Core.rgn_setRgn_ne _ _ hne, rfl, fun act sh hact hsh => stagedWritten_both hact hsh,
      stagedWritten_none⟩
end

