-- ==== Sys2Proof/Proofs/Replay.lean ====
section
/-! PROOF. The replay reader: its start, its stop and the records it presents (R349 to R352, R354). O31. -/

namespace Sys2Proof.Machine

/-! ### Bits of a written word -/

section
variable {v x j k : Nat}

theorem bit_eq_testBit : bit v k = v.testBit k := by rw [bit, Nat.testBit_eq_decide_div_mod_eq]

/-- A bit set in a word leaves the others as they are. -/
theorem bit_setBits_ne (h : k ≠ j) : bit (setBits v j 1 x) k = bit v k := by
  rcases Nat.lt_or_gt_of_ne h with hlt | hgt
  · have hbelow := setBits_field_below v j 1 x k 1 hlt
    rw [pow_one] at hbelow
    rw [bit, bit, hbelow]
  · rw [bit, bit, setBits_above v j 1 x k hgt]

/-- The low bits of a word. -/
theorem bit_mod_two_pow {w : Nat} (h : k < w) : bit (v % 2 ^ w) k = bit v k := by
  rw [bit_eq_testBit, bit_eq_testBit, Nat.testBit_mod_two_pow, decide_eq_true h, Bool.true_and]

theorem bit_or : bit (v ||| x) k = (bit v k || bit x k) := by simp only [bit_eq_testBit, Nat.testBit_or]

end

/-! ### Regions turned to the file -/

/-- Regions turned to the file one after another, with the offset `d` (R351). -/
def Core.offsetRgns (c : Core) (d : Nat) (gs : List Nat) : Core := gs.foldl (fun c g => c.modRgn g fun r => r.offset d) c

section
variable {c : Core} {d g : Nat} {gs : List Nat}

theorem Core.regs_offsetRgns : (c.offsetRgns d gs).regs = c.regs := by
  induction gs generalizing c with
  | nil => rfl
  | cons h gs ih => exact ih

theorem Core.rgn_offsetRgns_notMem (hg : g ∉ gs) : (c.offsetRgns d gs).rgn g = c.rgn g := by
  induction gs generalizing c with
  | nil => rfl
  | cons h gs ih =>
    obtain ⟨hne, hgs⟩ := List.ne_and_not_mem_of_not_mem_cons hg
    exact (ih hgs).trans (Core.rgn_modRgn_ne _ _ hne)

/-- Of regions that differ, each is moved once. -/
theorem Core.rgn_offsetRgns_mem (hn : gs.Nodup) (hg : g ∈ gs) : (c.offsetRgns d gs).rgn g = (c.rgn g).offset d := by
  induction gs generalizing c with
  | nil => cases hg
  | cons h gs ih =>
    obtain ⟨hh, hn⟩ := List.nodup_cons.mp hn
    rcases List.mem_cons.mp hg with rfl | hg
    · exact (Core.rgn_offsetRgns_notMem hh).trans (Core.rgn_modRgn_self ..)
    · have hne : g ≠ h := fun e => hh (e ▸ hg)
      exact (ih hn hg).trans (congrArg (·.offset d) (Core.rgn_modRgn_ne _ _ hne))

end

/-! ### EN -/

section
variable {c : Core} {a : Access} {v : Nat}

/-- The core whose reader stands at its first record, in progress. -/
def Core.rplOpened (c : Core) : Core := (((c.setF aRplCtrl 8 1 1).setF aRplCtrl 9 1 0).setF aRplStat 0 1 1).setF aRplStat 32 32 0

theorem Core.rplOpened_spec : c.rplOpened.getF aRplCtrl 0 8 = c.getF aRplCtrl 0 8 ∧ c.rplOpened.getB aRplStat 0 = true ∧
    c.rplOpened.getF aRplStat 32 32 = 0 ∧ c.rplOpened.rgns = c.rgns := by
  unfold Core.rplOpened
  refine ⟨?_, ?_, (Core.getF_setF_self _ _ _ _ _ (by decide)).trans (Nat.zero_mod _), ?_⟩
  · rw [Core.getF_setF_ne _ _ _ _ _ _ (by decide), Core.getF_setF_ne _ _ _ _ _ _ (by decide),
      Core.getF_setF_apart _ _ _ _ _ _ _ (by decide) (by decide), Core.getF_setF_apart _ _ _ _ _ _ _ (by decide) (by decide)]
  · exact (Core.getB_setF_apart _ _ _ _ _ _ (by decide) (by decide)).trans (Core.getB_setF_self _ _ _ _ (by decide))
  · rw [Core.setF_rgns, Core.setF_rgns, Core.setF_rgns, Core.setF_rgns]

/-- A reader that is not in progress starts, and the regions that REGIONS names turn to the file. -/
theorem Core.rplStart_idle (hidle : c.getB aRplStat 0 = false) :
    c.rplStart = (c.offsetRgns (c.rd (pSep + 0x158)) (maskBits 8 (c.getF aRplCtrl 0 8))).rplOpened := by
  unfold Core.rplStart
  rw [if_neg (by simp [hidle])]
  rfl

/-- A privileged write while the regions it names, old and new, are quiet: REGIONS is taken, then EN and STOP act. -/
theorem Core.hRplCtrl_quiet (ha : a.view = .priv)
    (hquiet : ∀ g, g < 8 → bit v g = true ∨ bit (c.rd aRplCtrl) g = true → (c.rgn g).quiet = true) :
    c.hRplCtrl a v =
      (let c := c.setF aRplCtrl 0 8 v
       let c := if bit v 8 then c.rplStart else c
       if bit v 9 then c.rplStop else c) := by
  have hboth : ((maskBits 8 (c.getF aRplCtrl 0 8 ||| v % 256)).all fun g => (c.rgn g).quiet) = true := by
    refine List.all_eq_true.mpr fun g hg => ?_
    obtain ⟨hlt, hbit⟩ := mem_maskBits.mp hg
    refine hquiet g hlt ?_
    have hnew : bit (v % 256) g = bit v g := bit_mod_two_pow (w := 8) hlt
    rw [bit_or, hnew, Core.getF, pow_zero, Nat.div_one, bit_mod_two_pow hlt, Bool.or_eq_true] at hbit
    exact hbit.symm
  unfold Core.hRplCtrl
  rw [if_neg (by simp [isPriv_of_view ha])]
  dsimp only
  rw [if_pos hboth]

/-- EN alone, between quiet regions, with the reader idle. -/
theorem Core.hRplCtrl_starts (ha : a.view = .priv)
    (hquiet : ∀ g, g < 8 → bit v g = true ∨ bit (c.rd aRplCtrl) g = true → (c.rgn g).quiet = true) (hstop : bit v 9 = false)
    (hidle : c.getB aRplStat 0 = false) : c.hRplCtrl a (setBits v 8 1 1) =
      ((c.setF aRplCtrl 0 8 (setBits v 8 1 1)).offsetRgns (c.rd (pSep + 0x158)) (maskBits 8 (v % 2 ^ 8))).rplOpened := by
  rw [Core.hRplCtrl_quiet ha fun g hg h => hquiet g hg (by rwa [bit_setBits_ne (by omega)] at h)]
  dsimp only
  rw [if_pos (bit_setBits_one v 8), bit_setBits_ne (by decide), hstop, if_neg (by decide),
    Core.rplStart_idle ((Core.getB_setF_ne (by decide)).trans hidle), Core.rd_setF_ne _ _ _ _ (by decide),
    Core.getF_setF_self _ _ _ _ _ (by decide), setBits_below]

end

/-! ### STOP -/

section
variable {c d : Core} {a : Access} {g v : Nat} {gs : List Nat}

/-- The reader is halted. -/
theorem Core.rplHalt_spec : c.rplHalt.getB aRplStat 0 = false ∧ c.rplHalt.rgns = c.rgns ∧
    (∀ k, k ≠ 0 → c.rplHalt.getB aRplStat k = c.getB aRplStat k) ∧ c.rplHalt.getF aRplStat 32 32 = c.getF aRplStat 32 32 := by
  unfold Core.rplHalt
  refine ⟨?_, ?_, fun k hk => ?_, ?_⟩
  · exact (Core.getB_setF_ne (by decide)).trans (Core.getB_setF_self _ _ _ _ (by decide))
  · rw [Core.setF_rgns, Core.setF_rgns]
  · exact (Core.getB_setF_ne (by decide)).trans (Core.getB_setF_apart _ _ _ _ _ _ (by decide) (by omega))
  · exact (Core.getF_setF_ne _ _ _ _ _ _ (by decide)).trans (Core.getF_setF_apart _ _ _ _ _ _ _ (by decide) (by decide))

/-- A replay that has been told to stop, as long as a region takes its inputs from the file (R354). -/
def Core.Stopping (c : Core) : Prop := c.getB aRplCtrl 9 = true ∨ ∀ h, h < 8 → (c.rgn h).replay = false

/-- From `c` to `d` the stop goes on: a region given back stays so, every phase stays, and so does the reader. -/
structure StopsOn (c d : Core) : Prop where
  stopping : d.Stopping
  replay : ∀ h, (c.rgn h).replay = false → (d.rgn h).replay = false
  quiet : ∀ h, (d.rgn h).quiet = (c.rgn h).quiet
  stat : d.rd aRplStat = c.rd aRplStat

theorem StopsOn.refl (h : c.Stopping) : StopsOn c c := ⟨h, fun _ hr => hr, fun _ => rfl, rfl⟩

theorem StopsOn.trans {e : Core} (h : StopsOn c d) (k : StopsOn d e) : StopsOn c e :=
  ⟨k.stopping, fun g hr => k.replay g (h.replay g hr), fun g => (k.quiet g).trans (h.quiet g), k.stat.trans h.stat⟩

theorem Core.any_replay_eq_false :
    ((List.range 8).any fun h => (c.rgn h).replay) = false ↔ ∀ h, h < 8 → (c.rgn h).replay = false := by
  simp

/-- A quiet region is given back, and with the last one the stop is over (R354). -/
theorem Core.onQuiet_stops (hg : g < 8) (hstop : c.Stopping) : StopsOn c (c.onQuiet g) ∧ ((c.onQuiet g).rgn g).replay = false := by
  have hrd (b : Nat) (hb : b / 4096 = 48) : (c.applyFord g).rd b = c.rd b := (OnPage.applyFord hg).rd b (by omega)
  have hrgn (h : Nat) : (c.applyFord g).rgn h = c.rgn h := Core.rgn_congr Core.applyFord_rgns h
  have hctrl : (c.applyFord g).getB aRplCtrl 9 = c.getB aRplCtrl 9 := Core.getB_of_rd (hrd _ (by decide))
  have hlive : StopsOn c (c.applyFord g) := by
    refine ⟨?_, fun h hr => by rwa [hrgn], fun h => by rw [hrgn], hrd _ (by decide)⟩
    simpa only [Core.Stopping, hctrl, hrgn] using hstop
  unfold Core.onQuiet
  extract_lets d e
  split
  case isTrue hleft =>
    refine ⟨hlive, ?_⟩
    rcases Bool.or_eq_true_iff.mp hleft with hoff | hoff
    · have hover : d.getB aRplCtrl 9 ≠ true := Bool.eq_false_iff.mp ((Bool.not_eq_true' _).mp hoff)
      exact hlive.stopping.resolve_left hover g hg
    · exact (Bool.not_eq_true' _).mp hoff
  case isFalse htakes =>
    rw [Bool.or_eq_true, not_or, Bool.not_eq_true', Bool.not_eq_true', Bool.not_eq_false, Bool.not_eq_false] at htakes
    obtain ⟨hctl, -⟩ := htakes
    have hback : (e.rgn g).replay = false := by unfold e; rw [Core.rgn_modRgn_self]
    have hother (h : Nat) (hne : h ≠ g) : e.rgn h = d.rgn h := Core.rgn_modRgn_ne _ _ hne
    have hquiet (h : Nat) : (e.rgn h).quiet = (d.rgn h).quiet := by
      by_cases hne : h = g
      · subst hne
        unfold e
        rw [Core.rgn_modRgn_self]
        rfl
      · rw [hother h hne]
    have hreplay (h : Nat) (hr : (d.rgn h).replay = false) : (e.rgn h).replay = false := by
      by_cases hne : h = g
      · exact hne ▸ hback
      · rwa [hother h hne]
    have hgone : StopsOn d e := ⟨.inl hctl, hreplay, hquiet, rfl⟩
    split
    case isTrue => exact ⟨hlive.trans hgone, hback⟩
    case isFalse hlast =>
      have hnone := Core.any_replay_eq_false.mp (Bool.eq_false_iff.mpr hlast)
      exact ⟨(hlive.trans hgone).trans ⟨.inr hnone, fun _ hr => hr, fun _ => rfl, Core.rd_setF_ne _ _ _ _ (by decide)⟩, hback⟩

/-- The quiet ones of the regions given back, one after another. -/
def Core.backToLive (c : Core) (gs : List Nat) : Core := gs.foldl (fun c g => if (c.rgn g).quiet then c.onQuiet g else c) c

theorem Core.backToLive_stops (hquiet : ∀ g, g ∈ gs → g < 8 ∧ (c.rgn g).quiet = true) (hstop : c.Stopping) :
    StopsOn c (c.backToLive gs) ∧ ∀ g ∈ gs, ((c.backToLive gs).rgn g).replay = false := by
  induction gs generalizing c with
  | nil => exact ⟨.refl hstop, nofun⟩
  | cons g gs ih =>
    obtain ⟨⟨hg, hq⟩, hgs⟩ := List.forall_mem_cons.mp hquiet
    obtain ⟨hone, hback⟩ := Core.onQuiet_stops hg hstop
    have hnext : c.backToLive (g :: gs) = (c.onQuiet g).backToLive gs := by
      unfold Core.backToLive
      rw [List.foldl_cons, if_pos hq]
    obtain ⟨hrest, hall⟩ := ih (fun h hh => ⟨(hgs h hh).1, (hone.quiet h).trans (hgs h hh).2⟩) hone.stopping
    rw [hnext]
    exact ⟨hone.trans hrest, List.forall_mem_cons.mpr ⟨hrest.replay g hback, hall⟩⟩

/-- A STOP halts the reader, gives the quiet regions back, and is over when no region takes its inputs from the file any more. -/
theorem Core.rplStop_eq : c.rplStop =
    (let d := (c.rplHalt.setF aRplCtrl 9 1 1).backToLive (List.range 8)
     if (List.range 8).any fun h => (d.rgn h).replay then d else d.setF aRplCtrl 9 1 0) := rfl

/-- STOP while every region is quiet: each is given back, and the stop is over (R354). -/
theorem Core.rplStop_quiet (hquiet : ∀ g, g < 8 → (c.rgn g).quiet = true) :
    c.rplStop.getB aRplStat 0 = false ∧ c.rplStop.getB aRplCtrl 9 = false ∧ ∀ g, g < 8 → (c.rplStop.rgn g).replay = false := by
  obtain ⟨hidle, hrgns, -, -⟩ := Core.rplHalt_spec (c := c)
  have hd : (c.rplHalt.setF aRplCtrl 9 1 1).getB aRplStat 0 = false := (Core.getB_setF_ne (by decide)).trans hidle
  have hstop : (c.rplHalt.setF aRplCtrl 9 1 1).Stopping := .inl (Core.getB_setF_self _ _ _ _ (by decide))
  have hrgn (g : Nat) : (c.rplHalt.setF aRplCtrl 9 1 1).rgn g = c.rgn g := Core.rgn_congr ((Core.setF_rgns ..).trans hrgns) g
  obtain ⟨hgiven, hall⟩ := Core.backToLive_stops (gs := List.range 8)
    (fun g hg => ⟨List.mem_range.mp hg, (congrArg Rgn.quiet (hrgn g)).trans (hquiet g (List.mem_range.mp hg))⟩) hstop
  rw [Core.rplStop_eq]
  generalize (c.rplHalt.setF aRplCtrl 9 1 1).backToLive (List.range 8) = d at hgiven hall ⊢
  have hnone (g : Nat) (hg : g < 8) : (d.rgn g).replay = false := hall g (List.mem_range.mpr hg)
  dsimp only
  rw [Core.any_replay_eq_false.mpr hnone, if_neg (by decide)]
  refine ⟨?_, Core.getB_setF_self _ _ _ _ (by decide), hnone⟩
  exact (Core.getB_setF_ne (by decide)).trans ((Core.getB_of_rd hgiven.stat).trans hd)

/-- STOP alone, while every region is quiet. -/
theorem Core.hRplCtrl_stops (ha : a.view = .priv) (hquiet : ∀ g, g < 8 → (c.rgn g).quiet = true) (hen : bit v 8 = false) :
    c.hRplCtrl a (setBits v 9 1 1) = (c.setF aRplCtrl 0 8 (setBits v 9 1 1)).rplStop := by
  rw [Core.hRplCtrl_quiet ha fun g hg _ => hquiet g hg]
  dsimp only
  rw [if_pos (bit_setBits_one v 9), bit_setBits_ne (by decide), hen, if_neg (by decide)]

end

/-! ### Presenting a record -/

section
variable {c : Core} {m : Mem} {b : Nat}

/-- What an event that reaches the Ford leaves of the registers: all but the counters of drops and late events, and the log of the
Separator's page. -/
theorem Core.rd_fordAccept (e : FordEv) (hb : b < pSep + 0x400) (hlog : ¬ LogTouches pSep b) : (c.fordAccept e).rd b = c.rd b := by
  unfold Core.fordAccept
  extract_lets e' late f live d
  have hd : d.rd b = c.rd b := by
    unfold d
    split
    · rw [Core.rd_logErr_ne _ _ _ _ _ _ hlog, Core.rd_bump_ne _ (by omega)]
    · rfl
  split
  · rfl
  split
  · rw [Core.rd_congr (Core.observe_regs _ _), Core.rd_bump_ne _ (by omega)]
  · exact hd

theorem Core.rd_rplEvent {r : List Byte} {n d : Nat} {poison : Bool} (hb : b < pSep + 0x400) (hlog : ¬ LogTouches pSep b) :
    (c.rplEvent r n d poison).rd b = c.rd b := by
  unfold Core.rplEvent
  extract_lets w w0 src num gs f same feed sep e
  have he : e.rd b = c.rd b := by
    unfold e
    split <;> rfl
  split
  · rw [Core.rd_bump_ne _ (by unfold pFlt; unfold pSep at hb; omega), he]
  · rw [Core.rd_fordAccept _ hb hlog, he]

theorem Core.rd_rplVerdict {r : List Byte} {n d : Nat} (hb : b < 0x20000000) : (c.rplVerdict r n d).rd b = c.rd b := by
  unfold Core.rplVerdict
  split
  · rfl
  · rw [Core.rd_pruneFrames, (RdBelow.settle _).rd b hb]
    rfl

/-- The core once a record has been read and presented, as its kind says (R351, R352). -/
def Core.rplGiven (c : Core) (m : Mem) (a n d : Nat) : Core :=
  let r := m.read a 80
  let c := (c.readUe m a 80).lpmMoved 3 a 80
  if fld r 0 1 = 1 then c.rplEvent r n d (m.poisonIn a 80) else c.rplVerdict r n d

theorem Core.rd_rplGiven {a n d : Nat} (hb : b < pSep + 0x400) (hlog : ¬ LogTouches pSep b) :
    (c.rplGiven m a n d).rd b = c.rd b := by
  unfold Core.rplGiven
  extract_lets r e
  have hread : e.rd b = c.rd b := by
    have hlow : b < pLpm := by unfold pLpm; unfold pSep at hb; omega
    exact (Core.rd_lpmMoved _ _ _ hlow).trans (Core.rd_readUe _ _ hlow)
  split
  · exact (Core.rd_rplEvent hb hlog).trans hread
  · exact (Core.rd_rplVerdict (by unfold pSep at hb; omega)).trans hread

/-- The core whose reader stands at record `pos`; a region that waited for the reader waits no longer. -/
def Core.rplMoved (c : Core) (pos : Nat) : Core :=
  (List.range 8).foldl (fun c g => if (c.rgn g).replay then c.itemDone g fun o => o.src = .replay else c) (c.setF aRplStat 32 32 pos)

theorem Core.regs_rplMoved {pos : Nat} : (c.rplMoved pos).regs = (c.setF aRplStat 32 32 pos).regs := by
  unfold Core.rplMoved
  generalize c.setF aRplStat 32 32 pos = d
  generalize List.range 8 = gs
  induction gs generalizing d with
  | nil => rfl
  | cons g gs ih =>
    rw [List.foldl_cons, ih]
    split <;> rfl

/-- The core whose reader is done. -/
def Core.rplDone (c : Core) : Core := (c.raiseF aRplStat 1).rplHalt

theorem Core.rplDone_spec : c.rplDone.getB aRplStat 1 = true ∧ c.rplDone.getB aRplStat 0 = false ∧
    c.rplDone.getF aRplStat 32 32 = c.getF aRplStat 32 32 := by
  obtain ⟨hidle, -, hstat, hpos⟩ := Core.rplHalt_spec (c := c.raiseF aRplStat 1)
  refine ⟨(hstat 1 (by decide)).trans (Core.getB_raiseF_self _ _ _ (by decide)), hidle, hpos.trans ?_⟩
  unfold Core.raiseF
  rw [Core.getF_mark]
  exact Core.getF_setF_apart _ _ _ _ _ _ _ (by decide) (by decide)

/-- A record that stops the reader shows ORDER_ERR. -/
theorem Core.rplErr_spec : c.rplErr.getB aRplStat 2 = true ∧ c.rplErr.getB aRplStat 0 = false := by
  obtain ⟨hidle, -, hstat, -⟩ := Core.rplHalt_spec (c := (c.raiseF aRplStat 2).reject pSep 0x160 (c.rd aRplCtrl))
  refine ⟨(hstat 2 (by decide)).trans ?_, hidle⟩
  exact (Core.getB_of_rd (Core.rd_logErr_ne _ _ _ _ _ _ (by unfold LogTouches; decide))).trans
    (Core.getB_raiseF_self _ _ _ (by decide))

/-- The address of the record that the reader stands at, the record, and where device time lies for the file. -/
def Core.rplAt (c : Core) : Nat := c.rd (pSep + 0x148) + 80 * c.getF aRplStat 32 32
def Core.rplRec (c : Core) (m : Mem) : List Byte := m.read c.rplAt 80
def Core.rplNear (c : Core) : Nat := c.now - nsN (c.rd (pSep + 0x158))

/-- The instant that a record carries, unwrapped near device time. -/
def Core.rplTime (c : Core) (m : Mem) : Nat := unwrap c.rplNear (recTs (c.rplRec m))

/-- Whether the record that the reader stands at comes in the order of R350 behind the one before it. -/
def Core.rplOrdered (c : Core) (m : Mem) : Prop := c.getF aRplStat 32 32 = 0 ∨
  lexLe (c.recKey c.rplNear (m.read (c.rplAt - 80) 80)) (c.recKey c.rplNear (c.rplRec m)) = true

/-- Whether the reader stops at its record: it is of a kind that the manual does not know, or comes before the one before it. -/
def Core.rplBad (c : Core) (m : Mem) : Bool :=
  (fld (c.rplRec m) 0 1 ≠ 1 && fld (c.rplRec m) 0 1 ≠ 2) ||
    (0 < c.getF aRplStat 32 32 && !lexLe (c.recKey c.rplNear (m.read (c.rplAt - 80) 80)) (c.recKey c.rplNear (c.rplRec m)))

theorem Core.rplBad_iff :
    c.rplBad m = true ↔ (fld (c.rplRec m) 0 1 ≠ 1 ∧ fld (c.rplRec m) 0 1 ≠ 2) ∨ ¬ c.rplOrdered m := by
  simp [Core.rplBad, Core.rplOrdered, Nat.pos_iff_ne_zero]

theorem Core.rplBad_eq_false :
    c.rplBad m = false ↔ (fld (c.rplRec m) 0 1 = 1 ∨ fld (c.rplRec m) 0 1 = 2) ∧ c.rplOrdered m := by
  rw [← Bool.not_eq_true, Core.rplBad_iff, not_or, not_not, not_and_or, not_not, not_not]

/-- The core once the reader has presented its record and moved on; behind the last one it is done. -/
def Core.rplNext (c : Core) (m : Mem) : Core :=
  let d := (c.rplGiven m c.rplAt (c.rplTime m) (c.rd (pSep + 0x158))).rplMoved (c.getF aRplStat 32 32 + 1)
  if d.rd (pSep + 0x150) ≤ c.getF aRplStat 32 32 + 1 then d.rplDone else d

/-- What a reader in progress does, case by case. -/
theorem Core.rplPresent_eq (hrun : c.getB aRplStat 0 = true) : c.rplPresent m =
    if c.rd (pSep + 0x150) ≤ c.getF aRplStat 32 32 then c.rplDone
    else if c.rplBad m then c.rplErr
    else if c.now < c.rplTime m + nsN (aSrc (recSrc (c.rplRec m))) + nsN (c.rd (pSep + 0x158)) then c
    else c.rplNext m := by
  refine if_neg ?_
  rw [hrun]
  decide

/-- POS moves on by one; with the last record of the file the reader is done (R354). -/
theorem Core.rplNext_spec : (c.rplNext m).getF aRplStat 32 32 = (c.getF aRplStat 32 32 + 1) % 2 ^ 32 ∧
    (c.rd (pSep + 0x150) = c.getF aRplStat 32 32 + 1 →
      (c.rplNext m).getB aRplStat 1 = true ∧ (c.rplNext m).getB aRplStat 0 = false) := by
  unfold Core.rplNext
  extract_lets d
  have hd : d.getF aRplStat 32 32 = (c.getF aRplStat 32 32 + 1) % 2 ^ 32 :=
    (Core.getF_congr Core.regs_rplMoved _ _ _).trans (Core.getF_setF_self _ _ _ _ _ (by decide))
  have hcount : d.rd (pSep + 0x150) = c.rd (pSep + 0x150) :=
    ((Core.rd_congr Core.regs_rplMoved _).trans (Core.rd_setF_ne _ _ _ _ (by decide))).trans
      (Core.rd_rplGiven (by decide) (by unfold LogTouches; decide))
  obtain ⟨hdone, hidle, hkept⟩ := Core.rplDone_spec (c := d)
  rw [hcount]
  split
  case isTrue hlast => exact ⟨hkept.trans hd, fun _ => ⟨hdone, hidle⟩⟩
  case isFalse hmore => exact ⟨hd, fun hlast => absurd hlast.le hmore⟩

end

/-! ### The commands -/

section
variable {s : State} {a : Access} {v : Word64} {P : Core → Prop}

theorem replayStart_runs : Stated.Runs (.replayStart a v) s P ↔ P (s.core.hRplCtrl a (setBits v.toNat 8 1 1)) := runs_iff rfl

theorem replayStop_runs : Stated.Runs (.replayStop a v) s P ↔ P (s.core.hRplCtrl a (setBits v.toNat 9 1 1)) := runs_iff rfl

theorem replayRecordPresent_runs : Stated.Runs .replayRecordPresent s P ↔ P (s.core.rplPresent s.mem) := runs_iff rfl

end

end Sys2Proof.Machine

open Sys2Proof Sys2Proof.Machine Sys2Proof.Stated

/-- Settles O31: EN and STOP between quiet regions, and a record by whether it stands behind the last one, is one the manual does not
allow, or is due. -/
theorem replayRuns : Obligations.ReplayRuns := by
  refine ⟨fun s a v ha => ⟨fun hquiet hstop hidle => ?_, fun hen hquiet => ?_⟩, fun s hrun => ⟨fun hpast => ?_, fun hpos hbad => ?_,
    fun hpos hkind hord hdue => ?_⟩⟩
  · rw [replayStart_runs, Core.hRplCtrl_starts ha hquiet hstop hidle]
    obtain ⟨hregions, hbegun, hfirst, hrgns⟩ := Core.rplOpened_spec (c := (s.core.setF aRplCtrl 0 8 (setBits v.toNat 8 1 1)).offsetRgns
      (s.core.rd (pSep + 0x158)) (maskBits 8 (v.toNat % 2 ^ 8)))
    refine ⟨?_, hbegun, hfirst, fun g hg hbit => ?_⟩
    · rw [hregions, Core.getF_congr Core.regs_offsetRgns, Core.getF_setF_self _ _ _ _ _ (by decide)]
      exact setBits_below v.toNat 8 1 1
    · have hmem : g ∈ maskBits 8 (v.toNat % 2 ^ 8) := mem_maskBits.mpr ⟨hg, (bit_mod_two_pow hg).trans hbit⟩
      exact (Core.rgn_congr hrgns g).trans (Core.rgn_offsetRgns_mem nodup_maskBits hmem)
  · rw [replayStop_runs, Core.hRplCtrl_stops ha hquiet hen]
    exact Core.rplStop_quiet hquiet
  · rw [replayRecordPresent_runs, Core.rplPresent_eq hrun, if_pos hpast]
    obtain ⟨hdone, hidle, -⟩ := Core.rplDone_spec (c := s.core)
    exact ⟨hdone, hidle⟩
  · rw [replayRecordPresent_runs, Core.rplPresent_eq hrun, if_neg (by omega), if_pos (Core.rplBad_iff.mpr hbad)]
    exact Core.rplErr_spec
  · have hgood : s.core.rplBad s.mem = false := Core.rplBad_eq_false.mpr ⟨hkind, hord⟩
    have hcome : ¬ s.core.now < s.core.rplTime s.mem + nsN (aSrc (recSrc (s.core.rplRec s.mem))) + nsN (s.core.rd (pSep + 0x158)) := by
      rw [Nat.not_lt, Nat.add_comm (s.core.rplTime s.mem)]
      exact hdue
    rw [replayRecordPresent_runs, Core.rplPresent_eq hrun, if_neg (by omega), hgood, if_neg (by decide), if_neg hcome]
    exact Core.rplNext_spec
end

