-- ==== Sys2Proof/Proofs/SavesAndDigests.lean ====
section
/-! PROOF. Save and restore of a region (R346, R347, R353) and digest records (R343, R344). O30. -/

namespace Sys2Proof.Machine

/-! ### Memory read in two parts -/

section
variable {m : Mem} {a n k : Nat} {h b : List Byte}

theorem Mem.read_add : m.read a (n + k) = m.read a n ++ m.read (a + n) k := by
  induction n generalizing a with
  | zero => rw [Nat.zero_add]; rfl
  | succ n ih => rw [Nat.add_right_comm, Mem.read, ih, Mem.read, List.cons_append, Nat.add_right_comm, Nat.add_assoc]

/-- Of bytes stored in two parts, each is read back at its place, and nothing outside changes. -/
theorem Mem.store_append_spec (hlen : h.length = n) :
    (m.store a (h ++ b)).read a n = h ∧ (m.store a (h ++ b)).read (a + n) b.length = b ∧
      ∀ x, x < a ∨ a + n + b.length ≤ x → (m.store a (h ++ b)).byte x = m.byte x := by
  have hall := Mem.read_store m a (h ++ b)
  rw [List.length_append, hlen, Mem.read_add] at hall
  obtain ⟨hfirst, hrest⟩ := List.append_inj hall ((Mem.read_length ..).trans hlen.symm)
  exact ⟨hfirst, hrest, fun x hx => Mem.byte_store_out m a x _ (by rw [List.length_append]; omega)⟩

end

/-! ### What the address register of a save does not touch -/

section
variable {c : Core} {m : Mem} {g v : Nat}

theorem Core.rd_wr_save {b : Nat} (hb : b % 4096 ≠ 0x158) : (c.wr (aSave g) v).rd b = c.rd b :=
  Core.rd_wr_ne c v (by unfold aSave pRgn; omega)

theorem Core.getF_wr_save {b lo w : Nat} (hb : b % 4096 ≠ 0x158) : (c.wr (aSave g) v).getF b lo w = c.getF b lo w :=
  Core.getF_of_rd (Core.rd_wr_save hb)

theorem Core.getB_wr_save {b k : Nat} (hb : b % 4096 ≠ 0x158) : (c.wr (aSave g) v).getB b k = c.getB b k :=
  Core.getB_of_rd (Core.rd_wr_save hb)

theorem Core.cellRgn_wr_save (cell : Nat) : (c.wr (aSave g) v).cellRgn cell = c.cellRgn cell :=
  Core.cellRgn_congr (Core.getF_wr_save (by unfold pMdw; omega)) rfl

theorem Core.keyOwner_wr_save : (c.wr (aSave g) v).keyOwner = c.keyOwner := by
  unfold Core.keyOwner Core.en
  rw [Core.getB_wr_save (by decide), Core.getB_wr_save (by decide), Core.getF_wr_save (by decide)]

theorem Core.ringMap_wr_save (h : Nat) : (c.wr (aSave g) v).ringMap h = c.ringMap h := by
  unfold Core.ringMap Core.keyMap
  rw [Core.keyOwner_wr_save]
  rfl

theorem Core.ringRanges_wr_save (h : Nat) : (c.wr (aSave g) v).ringRanges h = c.ringRanges h := by
  unfold Core.ringRanges
  rw [Core.ringMap_wr_save]

theorem Core.saveOf_wr_save (h : Nat) (l : Loaded) : (c.wr (aSave g) v).saveOf m h l = c.saveOf m h l := by
  unfold Core.saveOf
  simp only [Core.cellRgn_wr_save, Core.ringRanges_wr_save]
  rw [Core.rd_wr_save (by decide), Core.rd_wr_save (by decide)]
  rfl

theorem Core.now_wr_save : (c.wr (aSave g) v).now = c.now :=
  Core.now_congr rfl fun a ha => Core.rd_wr_save (by unfold pTime at ha; omega)

theorem Core.inLpm_wr_save (a n : Nat) : (c.wr (aSave g) v).inLpm a n = c.inLpm a n := by
  unfold Core.inLpm
  rw [Core.mapped_congr (Core.rd_wr_save (by decide)) (Core.rd_wr_save (by decide))]

end

/-! ### How a command ends -/

section
variable {c : Core} {g op result : Nat}

theorem Core.saveEnd_spec : (c.saveEnd g result).rd (aSave g + 8) = 2 * result % 2 ^ 64 ∧
    (c.saveEnd g result).saving = Store.erase c.saving g ∧ (c.saveEnd g result).rgns = c.rgns ∧
    Stated.OnlyReg c (c.saveEnd g result) (aSave g + 8) :=
  ⟨Core.rd_wr_self .., rfl, rfl, fun _ hb => Core.rd_wr_ne _ _ hb⟩

theorem Core.saveBusy_spec : (c.saveBusy g op result).rd (aSave g + 8) = 1 ∧ (c.saveBusy g op result).rgns = c.rgns :=
  ⟨Core.rd_wr_self .., rfl⟩

theorem Core.saveRestoreDone_ends (h : (c.saving.find? fun e => e.1 = g) = some (g, op, result)) :
    c.saveRestoreDone g = c.saveEnd g result := by
  unfold Core.saveRestoreDone
  rw [h]

end

/-! ### SAVE -/

section
variable {c : Core} {m : Mem} {g a : Nat} {l : Loaded}

theorem length_saveHeader (r : Rgn) (size : Nat) : (saveHeader g r l size).length = 64 := by
  simp only [saveHeader, List.length_append, length_toLe]

/-- A region that is not drained is not saved. -/
theorem saveRgn_undrained (h : (c.rgn g).phase ≠ .drained) : saveRgn m c g a = (m, c.saveEnd g 1) := by
  unfold saveRgn
  extract_lets r
  split
  · rfl
  · exact if_pos (.inl h)

/-- The core once the ranges of a save have been read, its image moved and the copy begun. -/
def Core.saved (c : Core) (m : Mem) (g a n : Nat) (l : Loaded) : Core :=
  (((memRanges l ++ c.ringRanges g).foldl (fun c x => c.readUe m x.1 x.2) c).lpmMoved 2 a n).saveBusy g 1 0

theorem Core.saved_rgns {n : Nat} : (c.saved m g a n l).rgns = c.rgns := by
  have hread : Changes [.regs, .cyc, .notices, .errSeq] c
      ((memRanges l ++ c.ringRanges g).foldl (fun c x => c.readUe m x.1 x.2) c) := .foldl (fun _ _ => changes_readUe) _ c
  exact (hread.trans changes_lpmMoved) .rgns (by decide)

variable (hbin : (c.rgn g).bin (c.rgn g).set = some l) (hphase : (c.rgn g).phase = .drained) (hswap : c.swapIsArmed = false)
include hbin hphase hswap

/-- The image of a drained region must lie in mapped memory. -/
theorem saveRgn_unmapped (hout : c.inLpm a (64 + (saveBytes (c.ringMap g) (c.saveOf m g l)).length) = false) :
    saveRgn m c g a = (m, c.saveEnd g 3) := by
  unfold saveRgn
  dsimp only
  rw [hbin]
  dsimp only
  rw [if_neg (by simp [hphase, hswap]), if_pos (.inr (by rw [hout]; rfl))]

/-- A drained region is saved: header, then contents (R346). -/
theorem saveRgn_drained (halign : a % 4096 = 0) (hin : c.inLpm a (64 + (saveBytes (c.ringMap g) (c.saveOf m g l)).length) = true) :
    saveRgn m c g a =
      (let body := saveBytes (c.ringMap g) (c.saveOf m g l)
       let n := 64 + body.length
       (m.store a (saveHeader g (c.rgn g) l n ++ body), c.saved m g a n l)) := by
  unfold saveRgn
  dsimp only
  rw [hbin]
  dsimp only
  rw [if_neg (by simp [hphase, hswap]), if_neg (by simp [halign, hin])]
  rfl

end

/-! ### RESTORE -/

section
variable {c : Core} {m : Mem} {g a : Nat} {l : Loaded} {b : SaveBody} {h : List Byte}

/-- A region that is not idle takes no image. -/
theorem restoreRgn_unready (hphase : (c.rgn g).phase ≠ .idle) : restoreRgn m c g a = (m, c.saveEnd g 1) := if_pos hphase

/-- The image at an address is one of a region's binary `l` that an idle region may take (R347). -/
structure Restorable (m : Mem) (c : Core) (g a : Nat) (l : Loaded) : Prop where
  idle : (c.rgn g).phase = .idle
  aligned : a % 4096 = 0
  headMapped : c.inLpm a 64 = true
  magic : fld (m.read a 64) 0 4 = 0x72766173
  region : fld (m.read a 64) 4 1 = g
  set : fld (m.read a 64) 5 1 ≤ 1
  size : 64 ≤ fld (m.read a 64) 56 8
  allMapped : c.inLpm a (fld (m.read a 64) 56 8) = true
  bin : (c.rgn g).bin (fld (m.read a 64) 5 1 = 1) = some l
  prog : fld (m.read a 64) 8 8 = l.prog.toNat
  wgt : fld (m.read a 64) 16 8 = l.wgt.toNat

/-- The contents that an image gives a binary. -/
def imageBody (m : Mem) (a : Nat) (l : Loaded) : Option SaveBody := saveBody l (m.read (a + 64) (fld (m.read a 64) 56 8 - 64))

/-- The contents are in place, and the command goes on until SAVE_RESTORE_DONE. -/
def restoring (x : Mem × Core) (g : Nat) : Mem × Core := (x.1, x.2.saveBusy g 2 0)

/-- What a RESTORE of an image of binary `l` does, by what the image holds. -/
def takeImage (m : Mem) (c : Core) (g a : Nat) (l : Loaded) : Mem × Core :=
  match imageBody m a l with
  | none => (m, c.saveEnd g 2)
  | some b =>
    if b.rings ≠ [] ∧ c.keyOwner ≠ some g then (m, c.saveEnd g 2)
    else restoring (putSave m (c.lpmMoved 2 a (fld (m.read a 64) 56 8)) g (m.read a 64) b) g

namespace Restorable

variable (hr : Restorable m c g a l)
include hr

theorem wr_save (v : Nat) : Restorable m (c.wr (aSave g) v) g a l :=
  { hr with headMapped := (Core.inLpm_wr_save ..).trans hr.headMapped, allMapped := (Core.inLpm_wr_save ..).trans hr.allMapped }

/-- Every check of the header is passed; what follows depends on the contents. -/
theorem restores : restoreRgn m c g a = takeImage m c g a l := by
  unfold restoreRgn
  dsimp only
  rw [if_neg (by simp [hr.idle]), if_neg (by simp [hr.aligned, hr.headMapped]),
    if_neg (by simp [hr.magic, hr.region, hr.set, hr.size]), if_neg (by simp [hr.allMapped]), hr.bin]
  dsimp only
  rw [if_neg (by simp [hr.prog, hr.wgt])]
  unfold takeImage imageBody
  cases saveBody l (m.read (a + 64) (fld (m.read a 64) 56 8 - 64)) with
  | none => rfl
  | some b => rfl

end Restorable

/-- Of the regions an image changes the restored one (R347). -/
theorem putSave_rgn : (putSave m c g h b).2.rgn g = (c.rgn g).restored h b c.now ∧
    ∀ q, q ≠ g → (putSave m c g h b).2.rgn q = c.rgn q := by
  unfold putSave
  extract_lets d key e fab f m'
  have hself : d.rgn g = (c.rgn g).restored h b c.now := Core.rgn_modRgn_self ..
  have hother (q : Nat) (hq : q ≠ g) : d.rgn q = c.rgn q := Core.rgn_modRgn_ne _ _ hq
  have he : e.rgns = d.rgns := by
    unfold e
    split <;> rfl
  have hf : f.rgns = e.rgns := by
    unfold f
    split <;> rfl
  have hall (q : Nat) : (f.applyFord g).rgn q = d.rgn q := Core.rgn_congr (Core.applyFord_rgns.trans (hf.trans he)) q
  exact ⟨(hall g).trans hself, fun q hq => (hall q).trans (hother q hq)⟩

theorem Mem.bytes_setPoisons (ws : List Nat) (m : Mem) : (ws.foldl (fun m a => m.setPoison a) m).bytes = m.bytes := by
  induction ws generalizing m with
  | nil => rfl
  | cons w ws ih => exact ih _

/-- Without rings an image fills the MEM ranges. -/
theorem putSave_bytes (hrings : b.rings = []) :
    (putSave m c g h b).1.bytes = (b.mem.foldl (fun m e => m.store e.1 e.2) m).bytes := by
  unfold putSave
  extract_lets d key e fab f m'
  refine (Mem.bytes_setPoisons _ _).trans ?_
  unfold m'
  rw [hrings, List.append_nil]

theorem takeImage_unreadable (hbody : imageBody m a l = none) : takeImage m c g a l = (m, c.saveEnd g 2) := by
  unfold takeImage
  rw [hbody]

theorem takeImage_readable (hbody : imageBody m a l = some b) : takeImage m c g a l =
    if b.rings ≠ [] ∧ c.keyOwner ≠ some g then (m, c.saveEnd g 2)
    else restoring (putSave m (c.lpmMoved 2 a (fld (m.read a 64) 56 8)) g (m.read a 64) b) g := by
  unfold takeImage
  rw [hbody]

/-- Counting the bytes moved changes no region, and not device time. -/
theorem Core.lpmMoved_spec {cls n : Nat} : (c.lpmMoved cls a n).rgns = c.rgns ∧ (c.lpmMoved cls a n).now = c.now := by
  have hparts : Changes [.regs] c (c.lpmMoved cls a n) := changes_lpmMoved
  exact ⟨hparts .rgns (by decide),
    Core.now_congr (hparts .clk (by decide)) fun b hb => Core.rd_lpmMoved _ _ _ (by unfold pTime at hb; unfold pLpm; omega)⟩

/-- Whatever the image holds, the other regions stay. -/
theorem takeImage_others {q : Nat} (hq : q ≠ g) : (takeImage m c g a l).2.rgn q = c.rgn q := by
  cases hbody : imageBody m a l with
  | none => rw [takeImage_unreadable hbody]; rfl
  | some b =>
    rw [takeImage_readable hbody]
    split
    · rfl
    · obtain ⟨-, hothers⟩ := putSave_rgn (m := m) (c := c.lpmMoved 2 a (fld (m.read a 64) 56 8)) (g := g) (h := m.read a 64) (b := b)
      exact (hothers q hq).trans (Core.rgn_congr Core.lpmMoved_spec.1 q)

/-- An image without rings fills the MEM ranges and leaves the region as its header gives it (R347). -/
theorem takeImage_ringless (hbody : imageBody m a l = some b) (hrings : b.rings = []) :
    (takeImage m c g a l).1.bytes = (b.mem.foldl (fun m e => m.store e.1 e.2) m).bytes ∧
    (takeImage m c g a l).2.rd (aSave g + 8) = 1 ∧ (takeImage m c g a l).2.rgn g = (c.rgn g).restored (m.read a 64) b c.now := by
  obtain ⟨hrgns, hnow⟩ := Core.lpmMoved_spec (c := c) (a := a) (cls := 2) (n := fld (m.read a 64) 56 8)
  rw [takeImage_readable hbody, if_neg fun h => h.1 hrings]
  unfold restoring
  dsimp only
  refine ⟨putSave_bytes hrings, Core.saveBusy_spec.1, ?_⟩
  obtain ⟨hself, -⟩ := putSave_rgn (m := m) (c := c.lpmMoved 2 a (fld (m.read a 64) 56 8)) (g := g) (h := m.read a 64) (b := b)
  rw [hnow, Core.rgn_congr hrgns] at hself
  exact hself

end

/-! ### MDW_RGN_SAVE -/

section
variable {c : Core} {m : Mem} {a : Access} {md g v : Nat} (ha : a.view = .priv) (hanchor : c.anchored md = some g)
  (hidle : c.getB (aSave g + 8) 0 = false)
include ha hanchor hidle

/-- A privileged command, with none in progress, acts on the region that the meadow anchors. -/
theorem hSave_acts (op : Nat) : hSave m c a md (setBits v 48 2 op) =
    if op % 4 = 1 then saveRgn m (c.wr (aSave g) (v % 2 ^ 48)) g (v % 2 ^ 48)
    else if op % 4 = 2 then restoreRgn m (c.wr (aSave g) (v % 2 ^ 48)) g (v % 2 ^ 48)
    else (m, c.wr (aSave g) (v % 2 ^ 48)) := by
  have hop : setBits v 48 2 op / 2 ^ 48 % 4 = op % 4 := setBits_field v 48 2 op
  unfold hSave
  rw [hanchor]
  dsimp only
  rw [if_neg (by simp [isPriv_of_view ha]), if_neg (by simp [hidle]), setBits_below, hop]

theorem hSave_saves : hSave m c a md (setBits v 48 2 1) = saveRgn m (c.wr (aSave g) (v % 2 ^ 48)) g (v % 2 ^ 48) :=
  (hSave_acts ha hanchor hidle 1).trans (if_pos rfl)

theorem hSave_restores : hSave m c a md (setBits v 48 2 2) = restoreRgn m (c.wr (aSave g) (v % 2 ^ 48)) g (v % 2 ^ 48) :=
  (hSave_acts ha hanchor hidle 2).trans ((if_neg (by decide)).trans (if_pos rfl))

end

/-! ### Digest records -/

section
variable {c : Core} {a : Access} {m v : Nat} {r : List Byte} {t : List (List Byte)}

/-- A record behind those of earlier cycles, into a FIFO with room (R344). -/
theorem Core.digPush_room (hnow : Store.get c.fab.digNow 0 m = 0) (hroom : (Store.get c.fab.digFifo [] m).length < 64) :
    Store.get (c.digPush m r).fab.digFifo [] m = Store.get c.fab.digFifo [] m ++ [r] ∧ (c.digPush m r).fab.digs = c.fab.digs ∧
      (c.digPush m r).regs = c.regs := by
  unfold Core.digPush
  dsimp only
  rw [if_neg (by omega), hnow]
  refine ⟨?_, rfl, rfl⟩
  refine (Store.get_set_self ..).trans ?_
  rw [Nat.sub_zero, List.take_length, List.drop_length]
  exact List.take_of_length_le (by rw [List.length_append]; exact hroom)

/-- FLUSH alone takes the window of every DIGEST cell of the meadow (R343). -/
theorem Core.hDigCtrl_flush (ha : a.view = .priv) :
    c.hDigCtrl a m (setBits v 7 1 1) = (c.digestCells m).foldl (fun c e => c.flushCell m e) c :=
  if_pos (by rw [isPriv_of_view ha, bit_setBits_one]; rfl)

/-- A window that has a token gives the record of what it holds. -/
theorem Core.flushCell_used {cell slot : Nat} {x : StrCtx} (h : (Store.get c.fab.digs DigWin.fresh (cell * 8 + slot)).count ≠ 0) :
    c.flushCell m (cell, slot, x) =
      c.digPush m (digRecord cell (4 ≤ slot) x.layer true (Store.get c.fab.digs DigWin.fresh (cell * 8 + slot))) := by
  unfold Core.flushCell
  dsimp only
  rw [if_neg h]

/-- Words that stand side by side, latched one after another. -/
def Core.latchWords (c : Core) (p : Nat) (f : Nat → Nat) (is : List Nat) : Core := is.foldl (fun c i => c.latch (p + 8 * i) (f i)) c

section
variable {p i : Nat} {f : Nat → Nat} {is : List Nat}

theorem Core.latched_latchWords_notMem (hi : i ∉ is) :
    Store.get (c.latchWords p f is).latched 0 (p + 8 * i) = Store.get c.latched 0 (p + 8 * i) := by
  induction is generalizing c with
  | nil => rfl
  | cons j is ih =>
    obtain ⟨hne, hi⟩ := List.ne_and_not_mem_of_not_mem_cons hi
    exact (ih hi).trans (Core.latched_latch_ne (by omega))

theorem Core.latched_latchWords_mem (hn : is.Nodup) (hi : i ∈ is) :
    (Store.get (c.latchWords p f is).latched 0 (p + 8 * i)).toNat = f i % 2 ^ 64 := by
  induction is generalizing c with
  | nil => cases hi
  | cons j is ih =>
    obtain ⟨hj, hn⟩ := List.nodup_cons.mp hn
    rcases List.mem_cons.mp hi with rfl | hi
    · exact (congrArg BitVec.toNat (Core.latched_latchWords_notMem hj)).trans (Core.latched_latch ..)
    · exact ih hn hi

end

/-- A read of the first word takes the oldest record and holds its other three (R344). -/
theorem Core.digPop_spec (hfifo : Store.get c.fab.digFifo [] m = r :: t) :
    Store.get (c.digPop m).fab.digFifo [] m = t ∧ (c.digPop m).regs = c.regs ∧
    ∀ i, 1 ≤ i → i ≤ 3 → (Store.get (c.digPop m).latched 0 (pMdw m + 0x170 + 8 * i)).toNat = fld r (8 * i) 8 := by
  have hpop : c.digPop m = ({ c with fab := { c.fab with digFifo := Store.set c.fab.digFifo [] m t } } : Core).latchWords
      (pMdw m + 0x170) (fun i => fld r (8 * i) 8) [1, 2, 3] := by
    unfold Core.digPop
    rw [hfifo]
    rfl
  rw [hpop]
  refine ⟨Store.get_set_self .., rfl, fun i hlo hhi => ?_⟩
  have hi : i ∈ [1, 2, 3] := by simp; omega
  exact (Core.latched_latchWords_mem (by decide) hi).trans (Nat.mod_eq_of_lt (fld_lt r (8 * i) 8))

end

/-! ### The commands -/

section
variable {s : State} {a : Access} {md g m : Nat} {v : Word64}

section
variable {P : Mem → Core → Prop}

theorem save_runs : Stated.RunsDev (.save a md v) s P ↔
    P (hSave s.mem s.core a md (setBits v.toNat 48 2 1)).1 (hSave s.mem s.core a md (setBits v.toNat 48 2 1)).2 :=
  runsDev_devStep (f := fun m c => hSave m c a md (setBits v.toNat 48 2 1)) rfl

theorem restore_runs : Stated.RunsDev (.restore a md v) s P ↔
    P (hSave s.mem s.core a md (setBits v.toNat 48 2 2)).1 (hSave s.mem s.core a md (setBits v.toNat 48 2 2)).2 :=
  runsDev_devStep (f := fun m c => hSave m c a md (setBits v.toNat 48 2 2)) rfl

end

variable {P : Core → Prop}

theorem saveRestoreDone_runs : Stated.Runs (.saveRestoreDone g) s P ↔ P (s.core.saveRestoreDone g) := runs_iff rfl

theorem flush_runs : Stated.Runs (.flush a m v) s P ↔ P (s.core.hDigCtrl a m (setBits v.toNat 7 1 1)) := runs_iff rfl

theorem digestRecordPop_runs : Stated.Runs (.digestRecordPop m) s P ↔ P (s.core.digPop m) := runs_iff rfl

end

end Sys2Proof.Machine

open Sys2Proof Sys2Proof.Machine Sys2Proof.Stated

/-- The clauses of FLUSH and of reads of the FIFO. -/
theorem digestRecords : DigestRecords := by
  refine ⟨fun s a m v cell slot x ha hcells => ?_, fun s m r t hfifo => ?_⟩
  · intro w hused hnow hroom
    rw [flush_runs, Core.hDigCtrl_flush ha, hcells, List.foldl_cons, List.foldl_nil, Core.flushCell_used hused]
    exact Core.digPush_room hnow hroom
  · rw [digestRecordPop_runs]
    exact Core.digPop_spec hfifo

/-- The clauses of SAVE, RESTORE and the end of a copy. -/
theorem savesAndRestores : SavesAndRestores := by
  refine ⟨fun s a md g v ha hanchor hidle => ?_, fun s g op result hsaving => ?_⟩
  · intro r x
    have hsave : hSave s.mem s.core a md (setBits v.toNat 48 2 1) = saveRgn s.mem (s.core.wr (aSave g) x) g x :=
      hSave_saves ha hanchor hidle
    have hrestore : hSave s.mem s.core a md (setBits v.toNat 48 2 2) = restoreRgn s.mem (s.core.wr (aSave g) x) g x :=
      hSave_restores ha hanchor hidle
    clear_value x
    refine ⟨fun l hbin hdrained hswap halign => ?_, fun hbusy => ?_, fun l => ?_, fun hbusy => ?_⟩
    · have hbody : saveBytes ((s.core.wr (aSave g) x).ringMap g) ((s.core.wr (aSave g) x).saveOf s.mem g l) =
          saveBytes (s.core.ringMap g) (s.core.saveOf s.mem g l) := by rw [Core.ringMap_wr_save, Core.saveOf_wr_save]
      intro body
      rw [save_runs, hsave]
      cases hin : s.core.inLpm x (64 + body.length) with
      | false =>
        rw [saveRgn_unmapped (c := s.core.wr (aSave g) x) hbin hdrained hswap (by rw [hbody, Core.inLpm_wr_save]; exact hin)]
        exact ⟨rfl, nofun, fun _ => ⟨rfl, Core.saveEnd_spec.1⟩⟩
      | true =>
        rw [saveRgn_drained (c := s.core.wr (aSave g) x) hbin hdrained hswap halign (by rw [hbody, Core.inLpm_wr_save]; exact hin), hbody]
        obtain ⟨hhead, hrest, hout⟩ := Mem.store_append_spec (m := s.mem) (a := x) (b := body)
          (length_saveHeader (g := g) (l := l) r (64 + body.length))
        exact ⟨Core.saved_rgns, fun _ => ⟨hhead, hrest, hout, Core.saveBusy_spec.1⟩, nofun⟩
    · rw [save_runs, hsave, saveRgn_undrained (c := s.core.wr (aSave g) x) hbusy]
      exact ⟨rfl, Core.saveEnd_spec.1⟩
    · intro h hready halign hhead hmagic hregion hset hsize hall hbin hprog hwgt
      have himage : Restorable s.mem s.core g x l := ⟨hready, halign, hhead, hmagic, hregion, hset, hsize, hall, hbin, hprog, hwgt⟩
      rw [restore_runs, hrestore, (himage.wr_save x).restores]
      refine ⟨fun q hq => takeImage_others hq, ?_⟩
      cases hbody : imageBody s.mem x l with
      | none =>
        rw [show saveBody l (s.mem.read (x + 64) (fld h 56 8 - 64)) = none from hbody, takeImage_unreadable hbody]
        exact ⟨rfl, rfl, Core.saveEnd_spec.1⟩
      | some b =>
        rw [show saveBody l (s.mem.read (x + 64) (fld h 56 8 - 64)) = some b from hbody]
        intro hrings
        obtain ⟨hbytes, hbusy, hrgn⟩ := takeImage_ringless (c := s.core.wr (aSave g) x) (g := g) hbody hrings
        rw [hrgn, Core.now_wr_save]
        exact ⟨hbytes, hbusy, rfl, rfl, rfl, rfl, rfl, rfl⟩
    · rw [restore_runs, hrestore, restoreRgn_unready (c := s.core.wr (aSave g) x) hbusy]
      exact ⟨rfl, rfl, Core.saveEnd_spec.1⟩
  · rw [saveRestoreDone_runs, Core.saveRestoreDone_ends hsaving]
    obtain ⟨hresult, herased, -, honly⟩ := Core.saveEnd_spec (c := s.core) (g := g) (result := result)
    exact ⟨hresult, herased, honly⟩

/-- Settles O30: save and restore, and digest records. -/
theorem savesAndDigests : Obligations.SavesAndDigests := ⟨savesAndRestores, digestRecords⟩
end

