-- ==== Sys2Proof/Proofs/CanonicalMemories.lean ====
section
/-! PROOF. The canonical form of the memories: every function that writes memory keeps it, and with them every command and the passing
of a cycle (R420, log entry 77). O60. -/

namespace Sys2Proof.Machine

section
variable {m : Mem} {c : Core} {a : Access} {v n g e l : Nat}

/-! ### Several writes in turn -/

/-- The memory of an answer that names it. -/
theorem wf_fst {d : Core} (hm : m.wf = true) : (m, d).1.wf = true := hm

theorem wf_ite {p : Prop} [Decidable p] {x y : Mem × Core} (hx : x.1.wf = true) (hy : y.1.wf = true) :
    (if p then x else y).1.wf = true := by
  split
  · exact hx
  · exact hy

/-- Writes in turn, of memory and core together, keep the canonical form where each does. -/
theorem wf_foldl_pair {β : Type} {f : Mem × Core → β → Mem × Core} (hf : ∀ x b, x.1.wf = true → (f x b).1.wf = true) (xs : List β)
    (x : Mem × Core) (hx : x.1.wf = true) : (xs.foldl f x).1.wf = true := by
  induction xs generalizing x with
  | nil => exact hx
  | cons b xs ih => exact ih _ (hf x b hx)

theorem wf_setPoisons {β : Type} {f : β → Nat} (xs : List β) (hm : m.wf = true) :
    (xs.foldl (fun m x => m.setPoison (f x)) m).wf = true :=
  Mem.wf_foldl xs _ (fun m x => Mem.wf_setPoison m (f x)) m hm

theorem wf_putMapped {b : List Byte} {x : Nat} (hm : m.wf = true) : (putMapped c m x b).wf = true := by
  unfold putMapped
  split
  · exact Mem.wf_store _ _ _ hm
  · exact hm

/-! ### The fabric and the loader -/

theorem wf_vaultCommit (hm : m.wf = true) : (vaultCommit m c v).1.wf = true := by
  unfold vaultCommit
  split
  · exact hm
  · split
    · exact hm
    · exact Mem.wf_store _ _ _ hm

theorem wf_tapTask {t : Token} (hm : m.wf = true) : (c.tapTask m g t).1.wf = true := by
  unfold Core.tapTask
  dsimp only
  split
  · exact hm
  · exact Mem.wf_store _ _ _ hm

theorem wf_tapResult (hm : m.wf = true) : (c.tapResult m n).1.wf = true := by
  unfold Core.tapResult
  dsimp only
  split
  · exact hm
  · split
    · exact hm
    · split
      · exact wf_tapTask hm
      · split <;> exact hm

theorem wf_writeFire (hm : m.wf = true) : (c.writeFire m n).1.wf = true := by
  unfold Core.writeFire
  dsimp only
  split
  · exact hm
  · split
    · exact hm
    · split
      · exact hm
      · dsimp only
        split
        · exact hm
        · exact Mem.wf_store _ _ _ hm

theorem wf_delayFire (hm : m.wf = true) : (c.delayFire m n).1.wf = true := by
  unfold Core.delayFire
  dsimp only
  split
  · exact hm
  · split
    · exact hm
    · split
      · exact hm
      · dsimp only
        split
        · exact hm
        · exact Mem.wf_store _ _ _ hm

theorem wf_putWeight {w : WeightSlot} (hm : m.wf = true) : (putWeight m w).wf = true :=
  Mem.wf_store _ _ _ (Mem.wf_store _ _ _ hm)

theorem wf_putSection {b : Binary} {sec slot : Nat} {ms : List Nat} {ok : WeightSlot → Bool} (hm : m.wf = true) :
    (putSection m c b sec slot ms ok).1.wf = true := Mem.wf_foldl _ _ (fun _ _ => wf_putWeight) m hm

theorem wf_slotReloadDone {md slot : Nat} {bad : List Nat} (hm : m.wf = true) : (slotReloadDone m c md slot bad).1.wf = true := by
  unfold slotReloadDone
  dsimp only
  split
  · exact hm
  · split
    · exact hm
    · exact wf_putSection (c := c) (slot := slot) hm

theorem wf_putMem {b : Binary} {x : MemEntry} (hm : m.wf = true) : (putMem b m x).wf = true := Mem.wf_store _ _ _ hm

theorem wf_putMems {b : Binary} {xs : List MemEntry} (hm : m.wf = true) : (xs.foldl (putMem b) m).wf = true :=
  Mem.wf_foldl _ _ (fun _ _ => wf_putMem) m hm

theorem wf_loadStanding {b : Binary} (hm : m.wf = true) : (loadStanding m c b).1.wf = true := by
  unfold loadStanding
  extract_lets g set r live old slots m₁ cleared gone fab emptied r1 placed claimed task
  have hsections : r1.1.wf = true := by
    refine wf_foldl_pair (fun x e hx => ?_) (firstSections b) (m₁, emptied) (wf_putMems hm)
    exact wf_fst (wf_putSection hx)
  exact wf_fst hsections

theorem wf_loadStaged {act sh : Loaded} (hm : m.wf = true) : (loadStaged m act sh).wf = true :=
  Mem.wf_foldl _ _ (fun _ _ => wf_putWeight) _ (wf_putMems hm)

theorem wf_binaryLoad {b : Binary} (hm : m.wf = true) : (binaryLoad m c b).1.wf = true := by
  unfold binaryLoad
  extract_lets task k r
  show r.1.wf = true
  unfold r
  split
  · exact wf_loadStanding hm
  · exact hm

/-! ### The key stage's commands, swaps, save and restore -/

theorem wf_slotChangeEffect (hm : m.wf = true) : (slotChangeEffect m c).1.wf = true := by
  unfold slotChangeEffect
  split
  · split
    · exact hm
    · split
      · exact Mem.wf_store _ _ _ hm
      · exact hm
  · exact hm

theorem wf_ringCopy {k : KeyMap} {base buf : Nat} (hm : m.wf = true) : (ringCopy m c k base buf).1.wf = true :=
  wf_setPoisons _ (Mem.wf_store _ _ _ hm)

theorem wf_ringPut {k : KeyMap} {base buf : Nat} (hm : m.wf = true) : (ringPut m c k base buf).1.wf = true := Mem.wf_copy _ _ _ _ hm

theorem wf_ringZero {k : KeyMap} (hm : m.wf = true) : (ringZero m c k).1.wf = true :=
  Mem.wf_foldl _ _ (fun m _ => Mem.wf_clear m _ _) m hm

theorem wf_ringCmd (hm : m.wf = true) : (ringCmd m c a v).1.wf = true := by
  unfold ringCmd
  dsimp only
  repeat' split
  all_goals simp only [hm, wf_ringZero, wf_ringPut, wf_ringCopy]

theorem wf_ringReadCopy (hm : m.wf = true) : (ringReadCopy m c).1.wf = true := by
  unfold ringReadCopy
  split
  · dsimp only
    split
    · exact wf_ringCopy hm
    · exact hm
  · exact hm

theorem wf_snapImage {s : Snap} {k : KeyMap} (hm : m.wf = true) : (snapImage m c s k).wf = true := by
  refine wf_setPoisons _ (Mem.wf_foldl _ _ (fun m x hm => ?_) _ (Mem.wf_put _ _ (Mem.wf_clear _ _ _ hm)))
  split
  · exact Mem.wf_store _ _ _ hm
  · exact hm

theorem wf_snapshotDone (hm : m.wf = true) : (snapshotDone m c).1.wf = true := by
  unfold snapshotDone
  split
  · split
    · exact Mem.wf_store _ _ _ (wf_snapImage hm)
    · exact hm
  · exact hm

theorem wf_swapDrainDone (hm : m.wf = true) : (swapDrainDone m c g).1.wf = true := by
  unfold swapDrainDone
  dsimp only
  split
  · exact hm
  · split
    · exact hm
    · dsimp only
      split
      · exact wf_loadStaged hm
      · exact hm

theorem wf_saveRgn {x : Nat} (hm : m.wf = true) : (saveRgn m c g x).1.wf = true := by
  unfold saveRgn
  dsimp only
  split
  · exact hm
  · split
    · exact hm
    · split
      · exact hm
      · exact Mem.wf_store _ _ _ hm

theorem wf_stores {xs : List (Nat × List Byte)} (hm : m.wf = true) : (xs.foldl (fun m x => m.store x.1 x.2) m).wf = true :=
  Mem.wf_foldl _ _ (fun m _ => Mem.wf_store m _ _) m hm

theorem wf_putSave {h : List Byte} {b : SaveBody} (hm : m.wf = true) : (putSave m c g h b).1.wf = true :=
  wf_setPoisons _ (wf_stores hm)

theorem wf_restoreRgn {x : Nat} (hm : m.wf = true) : (restoreRgn m c g x).1.wf = true := by
  unfold restoreRgn
  dsimp only
  repeat' split
  all_goals simp only [hm, wf_putSave]

theorem wf_hSave {md : Nat} (hm : m.wf = true) : (hSave m c a md v).1.wf = true := by
  unfold hSave
  dsimp only
  repeat' split
  all_goals simp only [hm, wf_saveRgn, wf_restoreRgn]

/-! ### Capture, the memories and the lanes -/

theorem wf_pailPut {r : List Byte} (hm : m.wf = true) : (pailPut m c r).1.wf = true := by
  unfold pailPut
  extract_lets wr p m1 o m2 nxt d
  have h1 : m1.wf = true := by
    unfold m1
    split
    · exact hm
    · exact wf_putMapped hm
  exact wf_putMapped h1

theorem wf_capStop (hm : m.wf = true) : (capStop m c n).1.wf = true := by
  unfold capStop
  refine wf_ite hm ?_
  exact wf_fst (wf_ite hm (wf_pailPut hm))

theorem wf_seqOverflow (hm : m.wf = true) : (seqOverflow m c).1.wf = true := by
  unfold seqOverflow
  dsimp only
  split
  · exact hm
  · exact wf_capStop hm

theorem wf_capOverflow (hm : m.wf = true) : (capOverflow m c).1.wf = true := by
  unfold capOverflow
  dsimp only
  split
  · exact wf_capStop hm
  · exact hm

theorem wf_sequencerStep (hm : m.wf = true) : (sequencerStep m c).1.wf = true := by
  unfold sequencerStep
  dsimp only
  repeat' split
  all_goals exact wf_seqOverflow hm

theorem wf_captureRecordWrite (hm : m.wf = true) : (captureRecordWrite m c).1.wf = true := by
  unfold captureRecordWrite
  dsimp only
  repeat' split
  all_goals simp only [hm, wf_capOverflow, wf_capStop, wf_pailPut]

theorem wf_rxPut {pay : List Byte} (hm : m.wf = true) : (rxPut m c l pay).1.wf = true := by
  refine Mem.wf_foldl _ _ (fun m i hm => ?_) m hm
  dsimp only
  split
  · exact Mem.wf_store _ _ _ hm
  · exact hm

theorem wf_linkAccept {f : Frame} {good : Bool} (hm : m.wf = true) : (linkAccept m c l f good).1.wf = true := by
  unfold linkAccept
  dsimp only
  split
  · exact wf_rxPut hm
  · exact hm

theorem wf_packetVerdict (hm : m.wf = true) : (packetVerdict m c l).1.wf = true := by
  unfold packetVerdict
  dsimp only
  repeat' split
  all_goals simp only [hm, wf_linkAccept]

theorem wf_scrubWords {x : Nat} {fix bad : List Nat} {ce : Core → Core} (hm : m.wf = true) :
    (scrubWords m c x fix bad ce).1.wf = true := wf_setPoisons _ hm

theorem wf_refreshEntry {fix bad : List Nat} (hm : m.wf = true) : (refreshEntry m c v fix bad).1.wf = true := by
  unfold refreshEntry
  dsimp only
  split
  · exact hm
  · split
    · exact hm
    · exact wf_scrubWords hm

theorem wf_lpmScrub {fix bad : List Nat} (hm : m.wf = true) : (lpmScrub m c n fix bad).1.wf = true := by
  unfold lpmScrub
  dsimp only
  split
  · exact hm
  · exact wf_scrubWords hm

/-! ### Tasks -/

theorem wf_cqPut {b : List Byte} {notify : Bool} (hm : m.wf = true) : (cqPut m c b notify).1.wf = true := by
  unfold cqPut
  exact wf_putMapped hm

theorem wf_cqFlush {fuel : Nat} (hm : m.wf = true) : (cqFlush fuel m c).1.wf = true := by
  induction fuel generalizing m c with
  | zero => exact hm
  | succ fuel ih =>
    unfold cqFlush
    split
    · split
      · exact hm
      · next fuel' w rest h _ _ =>
        cases h
        exact ih (wf_cqPut hm)
    · exact hm

theorem wf_complete {d : List Byte} {status code flags start : Nat} (hm : m.wf = true) :
    (complete m c d status code flags start).1.wf = true := wf_cqFlush hm

theorem wf_finishAll {fuel : Nat} {es : List (Nat × Nat × Nat)} (hm : m.wf = true) : (finishAll fuel es (m, c)).1.wf = true := by
  induction fuel generalizing m c es with
  | zero => exact hm
  | succ fuel ih =>
    cases es with
    | nil => exact hm
    | cons x es => exact ih (wf_complete hm)

theorem wf_finishTask {status code : Nat} (hm : m.wf = true) : (finishTask m c e status code).1.wf = true := by
  unfold finishTask
  exact wf_finishAll hm

theorem wf_accept {d : List Byte} (hm : m.wf = true) : (accept m c d).1.wf = true := by
  unfold accept
  dsimp only
  split
  · exact wf_finishTask hm
  · exact hm

theorem wf_taskTake (hm : m.wf = true) : (taskTake m c).1.wf = true := by
  unfold taskTake
  dsimp only
  split
  · exact hm
  · split
    · exact wf_accept hm
    · exact wf_complete hm

theorem wf_plogPut {p : Pub} {t status : Nat} {digest : Word64} (hm : m.wf = true) : (plogPut m c p v t status digest).1.wf = true :=
  wf_putMapped hm

theorem wf_plogPub {p : Pub} {status : Nat} (hm : m.wf = true) : (plogPub m c p status).1.wf = true := wf_plogPut hm

theorem wf_pubRing {off : Nat} {b : List Byte} (hm : m.wf = true) : (pubRing m c off b).1.wf = true := Mem.wf_store _ _ _ hm

theorem wf_pubWrite {k : KeyMap} {p : Pub} {src : Nat} (hm : m.wf = true) : (pubWrite m c k p src).1.wf = true :=
  wf_setPoisons _ (wf_foldl_pair (fun _ _ => wf_pubRing) _ _ hm)

theorem wf_pubTry (hm : m.wf = true) : (pubTry m c).1.wf = true := by
  unfold pubTry
  split
  · split
    · exact hm
    · exact wf_pubWrite hm
  · exact hm

theorem wf_publicationFlip (hm : m.wf = true) : (publicationFlip m c).1.wf = true := by
  unfold publicationFlip
  dsimp only
  split
  · exact hm
  · split <;> exact wf_plogPub hm

theorem wf_dispatch {kind : Nat} {work : Mem → Core → Nat → List Byte → Mem × Core} (hm : m.wf = true)
    (hw : ∀ c d, (work m c e d).1.wf = true) : (dispatch kind work e m c).1.wf = true := by
  unfold dispatch
  dsimp only
  split
  · exact hm
  · split
    · exact hm
    · exact hw _ _

section
variable {d : List Byte}

theorem wf_sectionStart {b : Binary} {fresh : Bool} (hm : m.wf = true) : (sectionStart m c e d b fresh).1.wf = true := by
  unfold sectionStart
  dsimp only
  split
  · exact wf_putMems hm
  · exact hm

theorem wf_sectionWork (hm : m.wf = true) : (sectionWork m c e d).1.wf = true := by
  unfold sectionWork
  dsimp only
  repeat' split
  all_goals simp only [hm, wf_sectionStart]

theorem wf_moveWork (hm : m.wf = true) : (moveWork m c e d).1.wf = true := by
  unfold moveWork
  dsimp only
  repeat' split
  all_goals exact hm

theorem wf_moveCopy (hm : m.wf = true) : (moveCopy m c d n).1.wf = true := Mem.wf_copy _ _ _ _ hm

theorem wf_publishWork (hm : m.wf = true) : (publishWork m c e d).1.wf = true := by
  unfold publishWork
  dsimp only
  repeat' split
  all_goals simp only [hm, wf_plogPub, wf_pubTry]

theorem wf_swapWork (hm : m.wf = true) : (swapWork m c e d).1.wf = true := by
  unfold swapWork
  dsimp only
  repeat' split
  all_goals simp only [hm, wf_loadStanding]

theorem wf_snapshotWork (hm : m.wf = true) : (snapshotWork m c e d).1.wf = true := by
  unfold snapshotWork
  dsimp only
  repeat' split
  all_goals exact hm

theorem wf_captureArmWork (hm : m.wf = true) : (captureArmWork m c e d).1.wf = true := by
  unfold captureArmWork
  repeat' split
  all_goals exact hm

theorem wf_selftestWork (hm : m.wf = true) : (selftestWork m c e d).1.wf = true := by
  unfold selftestWork
  dsimp only
  repeat' split
  all_goals exact hm

end

theorem wf_taskProgress (hm : m.wf = true) : (taskProgress m c e).1.wf = true := by
  unfold taskProgress
  dsimp only
  repeat' split
  all_goals simp only [hm, wf_moveCopy, wf_pubTry]

theorem wf_noteLog {t : Task} (hm : m.wf = true) : (noteLog m c t).1.wf = true := by
  unfold noteLog
  dsimp only
  split
  · exact wf_plogPut hm
  · exact hm

theorem wf_endTask {status code : Nat} (hm : m.wf = true) : (endTask m c e status code).1.wf = true := wf_finishTask (wf_noteLog hm)

theorem wf_taskComplete (hm : m.wf = true) : (taskComplete m c e).1.wf = true := by
  have hr := wf_taskProgress (c := c) (e := e) hm
  unfold taskComplete
  extract_lets r t slice
  split
  · split
    · exact wf_endTask hr
    · exact hr
  · exact hr

theorem wf_abortRunning (hm : m.wf = true) : (abortRunning m c e).1.wf = true := by
  unfold abortRunning
  dsimp only
  repeat' split
  all_goals simp only [hm, wf_endTask, wf_moveCopy, wf_plogPub, wf_taskComplete]

theorem wf_abortTask (hm : m.wf = true) : (abortTask m c e).1.wf = true := by
  unfold abortTask
  dsimp only
  split
  · exact wf_finishTask hm
  · exact wf_finishTask hm
  · exact wf_abortRunning hm
  · exact hm

theorem wf_hTaskCtrl (hm : m.wf = true) : (hTaskCtrl m c a v).1.wf = true := by
  unfold hTaskCtrl
  dsimp only
  repeat' split
  all_goals simp only [hm, wf_abortTask]

theorem wf_hCqPtr (hm : m.wf = true) : (hCqPtr m c a v).1.wf = true := by
  unfold hCqPtr
  dsimp only
  split
  · exact hm
  · exact wf_cqFlush hm

/-! ### Safe state, self-test and power -/

theorem wf_abortAll (hm : m.wf = true) : (abortAll m c).1.wf = true := wf_foldl_pair (fun _ _ => wf_abortRunning) _ _ hm

theorem wf_safeEnter (hm : m.wf = true) : (safeEnter m c).1.wf = true := by
  unfold safeEnter
  exact wf_fst (wf_abortAll hm)

theorem wf_errS {page code source detail : Nat} (hm : m.wf = true) : (errS m c page code source detail).1.wf = true := by
  unfold errS
  extract_lets logged logged' first entered counted listed
  clear_value first listed
  refine wf_ite ?_ (wf_fst hm)
  exact wf_safeEnter hm

theorem wf_hFltCtrl (hm : m.wf = true) : (hFltCtrl m c a v).1.wf = true := by
  unfold hFltCtrl
  dsimp only
  split
  · exact hm
  · split
    · exact wf_errS hm
    · exact hm

theorem wf_sliceEnd {sig : Word64} (hm : m.wf = true) : (sliceEnd m c sig).1.wf = true := by
  unfold sliceEnd
  dsimp only
  split
  · exact hm
  · split
    · exact hm
    · exact wf_errS hm

theorem wf_sensorSample {r : Reading} (hm : m.wf = true) : (sensorSample m c r).1.wf = true := by
  unfold sensorSample
  dsimp only
  split
  · exact hm
  · split
    · exact wf_errS hm
    · exact hm

theorem wf_railSample {r mv amps power : Nat} (hm : m.wf = true) : (railSample m c r mv amps power).1.wf = true := by
  unfold railSample
  extract_lets c1 x n
  have hx : x.1.wf = true := by
    unfold x
    split
    · exact wf_errS hm
    · exact hm
  split
  · exact hm
  · split
    · exact wf_errS hx
    · exact hx

theorem wf_clockLoss {kind plain : Nat} (hm : m.wf = true) : (clockLoss m c kind plain).1.wf = true := by
  unfold clockLoss
  extract_lets p c1 c2 c3
  split
  · exact hm
  · exact wf_errS hm

/-! ### Starts, security and update -/

theorem wf_putRec {r : BootRec} (hm : m.wf = true) : (putRec m r).wf = true := Mem.wf_flashWrite _ _ _ hm

theorem wf_putHelper {puf : List Byte} (hm : m.wf = true) : (putHelper m puf).wf = true := Mem.wf_flashWrite _ _ _ hm

theorem wf_identity {puf : List Byte} (hm : m.wf = true) : (identity m puf).1.wf = true := by
  unfold identity
  dsimp only
  split
  · exact hm
  · exact wf_putHelper hm

theorem wf_flashBoot (hm : m.wf = true) : (flashBoot m c).1.wf = true := by
  unfold flashBoot
  dsimp only
  repeat' split
  all_goals simp only [hm, wf_putRec]

/-- The memories as every start zeroes them (R550). -/
theorem wf_zeroed (hm : m.wf = true) : ({ m with bytes := [], poison := [] } : Mem).wf = true :=
  (Mem.wf_iff _).mpr ⟨rfl, ((Mem.wf_iff m).mp hm).2⟩

theorem wf_start {cause : Nat} {k : StartChecks} (hm : m.wf = true) : (start m c cause k).1.wf = true := by
  unfold start
  dsimp only
  split
  · exact hm
  · split
    · exact wf_identity (wf_zeroed hm)
    · exact wf_flashBoot (wf_identity (wf_zeroed hm))

theorem wf_mgReset {k : StartChecks} (hm : m.wf = true) : (mgReset m c k v).1.wf = true := by
  unfold mgReset
  repeat' split
  all_goals simp only [hm, wf_start]

theorem wf_putOwner {key : List Byte} (hm : m.wf = true) : (putOwner m c key).wf = true := Mem.wf_flashWrite _ _ _ hm

theorem wf_mbxDone {ok : Bool} (hm : m.wf = true) : (mbxDone m c ok).1.wf = true := by
  unfold mbxDone
  dsimp only
  repeat' split
  all_goals simp only [hm, wf_putHelper, wf_putOwner]

theorem wf_pause (hm : m.wf = true) : (pause m c).1.wf = true := by
  unfold pause
  exact wf_fst (wf_abortAll hm)

theorem wf_activateNow (hm : m.wf = true) : (activateNow m c).1.wf = true := wf_putRec (wf_pause hm)

theorem wf_fallBack (hm : m.wf = true) : (fallBack m c).1.wf = true := wf_putRec (wf_pause hm)

theorem wf_stageDone {ok : Bool} (hm : m.wf = true) : (stageDone m c ok).1.wf = true := by
  unfold stageDone
  dsimp only
  split
  · exact hm
  · split
    · exact hm
    · exact wf_putRec (Mem.wf_flashWrite _ _ _ hm)

theorem wf_updNow (hm : m.wf = true) : (updNow m c).1.wf = true := by
  unfold updNow
  repeat' split
  all_goals simp only [hm, wf_activateNow]

theorem wf_hUpdCmd (hm : m.wf = true) : (hUpdCmd m c a v).1.wf = true := by
  unfold hUpdCmd
  dsimp only
  repeat' split
  all_goals simp only [hm, wf_updNow]

theorem wf_updActivation (hm : m.wf = true) : (updActivation m c).1.wf = true := by
  unfold updActivation
  repeat' split
  all_goals simp only [hm, wf_activateNow]

theorem wf_hConfirm (hm : m.wf = true) : (hConfirm m c a v).1.wf = true := by
  unfold hConfirm
  dsimp only
  split
  · exact hm
  · exact wf_putRec hm

theorem wf_confirmTimeout (hm : m.wf = true) : (confirmTimeout m c).1.wf = true := by
  unfold confirmTimeout
  split
  · exact wf_fallBack hm
  · exact hm

theorem wf_watchdog (hm : m.wf = true) : (watchdog m c n).1.wf = true := wf_pause (wf_errS hm)

theorem wf_fwProtect (hm : m.wf = true) : (fwProtect m c n).1.wf = true := by
  unfold fwProtect
  extract_lets c1 l k c2
  split
  · exact hm
  · split
    · exact wf_pause hm
    · exact hm

/-! ### Registers and requests -/

section
variable {x : Mem × Core} {off : Nat}

theorem wf_writeDev (hm : m.wf = true) (hx : writeDev m c a off v = some x) : x.1.wf = true := by
  unfold writeDev at hx
  repeat' split at hx
  all_goals cases hx
  all_goals simp only [hm, wf_hConfirm]

theorem wf_writeKey (hm : m.wf = true) (hx : writeKey m c a off v = some x) : x.1.wf = true := by
  unfold writeKey at hx
  repeat' split at hx
  all_goals cases hx
  all_goals simp only [hm, wf_ringCmd]

theorem wf_writeTask (hm : m.wf = true) (hx : writeTask m c a off v = some x) : x.1.wf = true := by
  unfold writeTask at hx
  repeat' split at hx
  all_goals cases hx
  all_goals simp only [hm, wf_hCqPtr, wf_hTaskCtrl]

theorem wf_writeCtl (hm : m.wf = true) (hx : writeCtl m c a off v = some x) : x.1.wf = true := by
  unfold writeCtl at hx
  repeat' split at hx
  all_goals cases hx
  all_goals simp only [hm, wf_hUpdCmd]

theorem wf_writeMdw {md : Nat} (hm : m.wf = true) (hx : writeMdw m c a md off v = some x) : x.1.wf = true := by
  unfold writeMdw at hx
  repeat' split at hx
  all_goals cases hx
  all_goals simp only [hm, wf_hSave]

/-- A hook writes no memory but through the five pages whose registers have commands of their own that do, and FLT_CTRL. -/
theorem wf_writeHook {b : Block} {i p : Nat} (hm : m.wf = true) (hx : writeHook m c a b i p off v = some x) : x.1.wf = true := by
  have only : ∀ {o : Option Core}, (o.map fun c' => (m, c')) = some x → x.1.wf = true := by
    intro o ho
    obtain ⟨c', -, rfl⟩ := Option.map_eq_some_iff.mp ho
    exact hm
  unfold writeHook at hx
  dsimp only at hx
  split at hx
  · exact only hx
  · cases b
    case dev => exact wf_writeDev hm hx
    case key => exact wf_writeKey hm hx
    case task => exact wf_writeTask hm hx
    case ctl => exact wf_writeCtl hm hx
    case mdw => exact wf_writeMdw hm hx
    case time | cap | pass | sec => exact only hx
    case flt =>
      dsimp only at hx
      split at hx <;> cases hx
      exact wf_hFltCtrl hm
    all_goals
      dsimp only at hx
      repeat' split at hx
      all_goals cases hx
      all_goals exact hm

end

theorem wf_writeReg {x : Nat} (hm : m.wf = true) : (writeReg m c a x v).1.wf = true := by
  unfold writeReg
  dsimp only
  split
  · split
    · exact hm
    · split
      · next h => exact wf_writeHook hm h
      · split <;> exact hm
  · exact hm

theorem wf_request {h : KwnHdr} {work : Sess → Mem → Core → Mem × Core × Reply} (hm : m.wf = true)
    (hw : ∀ x c, (work x m c).1.wf = true) : (request m c h work).1.wf = true := by
  unfold request
  dsimp only
  repeat' split
  all_goals simp only [hm, hw]

section
variable {h : KwnHdr} {x : Sess}

theorem wf_authWork {sig : List Byte} (hm : m.wf = true) : (authWork h sig x m c).1.wf = true := by
  unfold authWork
  repeat' split
  all_goals exact hm

theorem wf_regReadWork (hm : m.wf = true) : (regReadWork h v n x m c).1.wf = true := by
  unfold regReadWork
  split <;> exact hm

theorem wf_writeBurst {s addr : Nat} {data : List Word64} (hm : m.wf = true) : (writeBurst s data addr m c).1.wf = true := by
  induction data generalizing addr m c with
  | nil => exact hm
  | cons v t ih => exact ih (wf_writeReg hm)

theorem wf_regWriteWork {data : List Word64} (hm : m.wf = true) : (regWriteWork h v data x m c).1.wf = true := by
  unfold regWriteWork
  split
  · exact hm
  · exact wf_writeBurst hm

theorem wf_memReadWork (hm : m.wf = true) : (memReadWork h v n x m c).1.wf = true := by
  unfold memReadWork
  dsimp only
  repeat' split
  all_goals exact hm

theorem wf_memWriteWork {data : List Byte} (hm : m.wf = true) : (memWriteWork h v data x m c).1.wf = true := by
  unfold memWriteWork
  dsimp only
  split
  · exact hm
  · split
    · exact hm
    · split
      · exact hm
      · exact Mem.wf_store _ _ _ hm

theorem wf_memWrite {data : List Byte} (hm : m.wf = true) : (memWrite m c h v data).1.wf = true :=
  wf_request hm fun _ _ => wf_memWriteWork hm

theorem wf_putDescs {base size k : Nat} {ds : List (List Byte)} (hm : m.wf = true) : (putDescs base size ds k m).wf = true := by
  induction ds generalizing k m with
  | nil => exact hm
  | cons d ds ih => exact ih (Mem.wf_store _ _ _ hm)

theorem wf_submitWork {ds : List (List Byte)} (hm : m.wf = true) : (submitWork h ds x m c).1.wf = true := by
  unfold submitWork
  dsimp only
  repeat' split
  all_goals simp only [hm, wf_putDescs]

theorem wf_doorbellWork (hm : m.wf = true) : (doorbellWork h v n x m c).1.wf = true := by
  unfold doorbellWork
  dsimp only
  repeat' split
  all_goals simp only [hm, wf_writeReg]

end

/-! ### The step -/

theorem wf_tick (hm : m.wf = true) : (tick m c).1.wf = true := by
  unfold tick
  split
  · exact hm
  · exact wf_capOverflow (wf_seqOverflow hm)

end

/-- A command keeps the canonical form: those that write memory by the function that does, all others write none. -/
theorem wf_exec {i : Instr} {s t : State} (hm : s.mem.wf = true) (ht : exec i s = .next t) : t.mem.wf = true := by
  have next : ∀ x : State, x.mem.wf = true → exec i s = .next x → t.mem.wf = true := fun x hx hi => by
    obtain rfl := Host.Outcome.next.inj (hi.symm.trans ht)
    exact hx
  cases i
  all_goals refine next _ ?_ rfl
  case write => exact wf_writeFire hm
  case delay => exact wf_delayFire hm
  case tapResult => exact wf_tapResult hm
  case slotReloadDone => exact wf_slotReloadDone hm
  case binaryLoad => exact wf_binaryLoad hm
  case slotChangeEffect => exact wf_slotChangeEffect hm
  case ringRead | ringWrite | zeroAll => exact wf_ringCmd hm
  case ringReadCopy => exact wf_ringReadCopy hm
  case publicationFlip => exact wf_publicationFlip hm
  case snapshotDone => exact wf_snapshotDone hm
  case swapDrainDone => exact wf_swapDrainDone hm
  case save | restore => exact wf_hSave hm
  case taskTake => exact wf_taskTake hm
  case section_ => exact wf_dispatch hm fun _ _ => wf_sectionWork hm
  case move => exact wf_dispatch hm fun _ _ => wf_moveWork hm
  case publish => exact wf_dispatch hm fun _ _ => wf_publishWork hm
  case swap => exact wf_dispatch hm fun _ _ => wf_swapWork hm
  case snapshot => exact wf_dispatch hm fun _ _ => wf_snapshotWork hm
  case captureArm => exact wf_dispatch hm fun _ _ => wf_captureArmWork hm
  case selftest => exact wf_dispatch hm fun _ _ => wf_selftestWork hm
  case fence | note => exact wf_dispatch hm fun _ _ => hm
  case taskComplete => exact wf_taskComplete hm
  case abort | taskRelease => exact wf_hTaskCtrl hm
  case packetVerdict => exact wf_packetVerdict hm
  case sequencerStep => exact wf_sequencerStep hm
  case captureRecordWrite => exact wf_captureRecordWrite hm
  case refreshEntry => exact wf_refreshEntry hm
  case lpddr6PatrolScrub => exact wf_lpmScrub hm
  case vaultWriteCommit => exact wf_vaultCommit hm
  case authResponse => exact wf_request hm fun _ _ => wf_authWork hm
  case regRead => exact wf_request hm fun _ _ => wf_regReadWork hm
  case regWrite => exact wf_request hm fun _ _ => wf_regWriteWork hm
  case memRead => exact wf_request hm fun _ _ => wf_memReadWork hm
  case memWrite => exact wf_memWrite hm
  case submit => exact wf_request hm fun _ _ => wf_submitWork hm
  case doorbell => exact wf_request hm fun _ _ => wf_doorbellWork hm
  case registerWrite => exact wf_writeReg hm
  case healthConfirm => exact wf_hConfirm hm
  case powerOn | rstN => exact wf_start hm
  case mgResetCmd => exact wf_mgReset hm
  case fwProtect =>
    dsimp only
    split
    · exact wf_fwProtect hm
    · exact hm
  case stage | activateAt | activate | cancel => exact wf_hUpdCmd hm
  case stageDone => exact wf_stageDone hm
  case updateActivation => exact wf_updActivation hm
  case confirmTimeout => exact wf_confirmTimeout hm
  case watchdog => exact wf_watchdog hm
  case mailboxCommandDone => exact wf_mbxDone hm
  case enter | exit => exact wf_hFltCtrl hm
  case clockLoss => exact wf_clockLoss hm
  case stateUe => exact wf_errS hm
  case sensorSample => exact wf_sensorSample hm
  case railSample =>
    dsimp only
    split
    · exact wf_railSample hm
    · exact hm
  case bistSliceEnd => exact wf_sliceEnd hm
  all_goals exact hm

end Sys2Proof.Machine

open Sys2Proof Sys2Proof.Machine

/-- Settles O60: a cycle that passes, and every command, by the function of memory and core that it answers with. -/
theorem stepsKeepSound : Obligations.StepsKeepSound := by
  intro s t hs ht
  cases hp : s.pending with
  | nil =>
    obtain rfl := Host.Outcome.next.inj ((step_nil hp).symm.trans ht)
    exact wf_tick hs
  | cons i rest => exact wf_exec (s := { s with pending := rest }) hs ((step_cons hp).symm.trans ht)
end

