-- ==== Sys2Proof/Proofs/LpddrSpread.lean ====
section
/-! PROOF. The spread of LPDDR6 addresses over the channels (R413): channel and channel offset by block and byte of a group of 3,072. -/

namespace Sys2Proof.Machine

/-- The offset of a byte is fixed by the group of 3,072 bytes, the channel in the group and the byte in the block. -/
theorem lpm_address (A : Nat) : A = 3072 * (lpmOffset A / 256) + 256 * lpmChannel A + lpmOffset A % 256 := by
  unfold lpmOffset lpmChannel
  omega

theorem lpmChannel_block (B x : Nat) (hx : x < 256) : lpmChannel (256 * B + x) = lpmChannel (256 * B) := by
  unfold lpmChannel
  omega

/-- In a group of 3,072 bytes a channel holds one block of 256 consecutive bytes. -/
theorem lpmChannel_group (B i ch : Nat) (hi : i < 3072) : lpmChannel (3072 * B + i) = ch ↔ 256 * ch ≤ i ∧ i < 256 * ch + 256 := by
  unfold lpmChannel
  omega

theorem count_block_of_range (lo n total : Nat) (h : lo + n ≤ total) :
    ((List.range total).filter fun i => decide (lo ≤ i ∧ i < lo + n)).length = n := by
  have hcut : total = lo + (n + (total - lo - n)) := by omega
  rw [hcut, List.range_add, List.range_add, List.filter_append, List.map_append, List.filter_append]
  have below : (List.range lo).filter (fun i => decide (lo ≤ i ∧ i < lo + n)) = [] := by
    simp only [List.filter_eq_nil_iff, List.mem_range, decide_eq_true_eq]
    omega
  have inside : ((List.range n).map (lo + ·)).filter (fun i => decide (lo ≤ i ∧ i < lo + n)) = (List.range n).map (lo + ·) := by
    simp only [List.filter_eq_self, List.mem_map, List.mem_range, decide_eq_true_eq]
    rintro _ ⟨k, hk, rfl⟩
    omega
  have above : (((List.range (total - lo - n)).map (n + ·)).map (lo + ·)).filter (fun i => decide (lo ≤ i ∧ i < lo + n)) = [] := by
    simp only [List.filter_eq_nil_iff, List.mem_map, List.mem_range, decide_eq_true_eq]
    rintro _ ⟨_, ⟨k, hk, rfl⟩, rfl⟩
    omega
  rw [below, inside, above]
  simp

theorem lpmChannel_even (B ch : Nat) (hch : ch < 12) :
    ((List.range 3072).filter fun i => lpmChannel (3072 * B + i) = ch).length = 256 := by
  have hblock : (List.range 3072).filter (fun i => lpmChannel (3072 * B + i) = ch) =
      (List.range 3072).filter fun i => decide (256 * ch ≤ i ∧ i < 256 * ch + 256) :=
    List.filter_congr fun i hi => by simp [lpmChannel_group B i ch (List.mem_range.mp hi)]
  rw [hblock]
  exact count_block_of_range (256 * ch) 256 3072 (by omega)

end Sys2Proof.Machine

open Sys2Proof Sys2Proof.Machine

/-- Settles O56: an address is its group of 3,072 bytes, the channel's block in the group and the byte in the block. -/
theorem lpddr6Spreads : Obligations.Lpddr6Spreads := by
  refine ⟨fun A => ⟨rfl, rfl⟩, fun B x hx => lpmChannel_block B x hx, fun B ch hch => lpmChannel_even B ch hch, ?_⟩
  intro A B hc ho
  rw [lpm_address A, lpm_address B, hc, ho]
end

