-- ==== Sys2Proof/Proofs/ForcedEvents.lean ====
section
/-! PROOF. EVT_FORCE (R464): setting PEND bits leaves every other register, and with them the raw events of every page. -/

namespace Sys2Proof.Machine

variable {c d : Core} {a b p v n : Nat}

theorem Core.hForce_priv {acc : Access} (h : acc.view = .priv) : c.hForce acc p v = c.setPend p v := if_pos (isPriv_of_view h)

theorem Core.rd_setPend_or (c : Core) (p : Nat) {v : Nat} (hv : v < 2 ^ 64) : (c.setPend p v).rd (p + 0x38) = c.rd (p + 0x38) ||| v := by
  rw [Core.rd_setPend_self, Nat.mod_eq_of_lt (Nat.or_lt_two_pow (c.rd_lt _) hv)]

theorem setPend_frame (c : Core) (p v : Nat) : c.setPend p v = { c with regs := (c.setPend p v).regs, notices := (c.setPend p v).notices } :=
  changes_setPend.eq_picks (k := fun c d => { c with regs := d.regs, notices := d.notices })
    fun c d x => by cases x <;> rfl

/-- No raw event is read from an EVT_PEND register. -/
theorem Core.rawEvents_setPend (c : Core) (q v p : Nat) : (c.setPend (pageOf q) v).rawEvents p = c.rawEvents p := by
  have hrd : ∀ b lo w, b % 0x1000 ≠ 0x38 → (c.setPend (pageOf q) v).getF b lo w = c.getF b lo w := fun b lo w hb =>
    Core.getF_of_rd (Core.rd_setPend_ne c v fun e => hb (by rw [e, pageOf]; omega))
  have hlane : (c.setPend (pageOf q) v).laneState = c.laneState := funext fun l => hrd _ 0 3 (by unfold pPass; omega)
  have hfault : (c.setPend (pageOf q) v).lane = c.lane := funext fun l => congrArg (Store.get · Lane.off l) (Core.setPend_lanes c _ v)
  have hsafe : (c.setPend (pageOf q) v).safe = c.safe := Core.safe_congr (Core.rd_setPend_ne c v fun e => by unfold pFlt pageOf at e; omega)
  simp only [Core.rawEvents, hlane, hfault, hsafe, Core.setPend_cap, Core.setPend_pwr,
    hrd (pTime + 0x200) 1 1 (by decide), hrd (pCap + 0x140) 8 8 (by decide)]

end Sys2Proof.Machine

open Sys2Proof Sys2Proof.Machine

/-- Settles O45: EVT_FORCE is `Core.setPend` of its page, whose frame is the registers but one and the notices. -/
theorem evtForceSetsPend : Obligations.EvtForceSetsPend := by
  refine ⟨fun c p k hk => Core.getB_event_self c p k hk, fun s a page v b i hv hb => ?_⟩
  refine (runs_iff (d := s.core.setPend (pageOf page) v.toNat) ?_).mpr ⟨?_, ?_, ?_, ?_⟩
  · show Host.Outcome.next _ = _
    simp only [hb, Option.isSome_some, if_true, Core.hForce_priv hv, wv]
  · exact Core.rd_setPend_or s.core _ v.isLt
  · exact fun x hx => Core.rd_setPend_ne s.core _ hx
  · exact Core.rawEvents_setPend s.core page _
  · exact setPend_frame s.core _ _
end

