-- ==== Sys2Proof/Proofs/CaptureControl.lean ====
section
/-! PROOF. Arming and stopping capture (R386): the conditions of an arm read nothing that the image address is written to. -/

namespace Sys2Proof.Machine

variable {m : Mem} {c d : Core} {a : Access} {t v x : Nat} {i : List Byte}

/-! ### The arm -/

/-- The conditions of an arm for tick `t` with the image at `x` (R386, R387). -/
def Core.capArmable (c : Core) (m : Mem) (x t : Nat) : Bool :=
  c.en pCap && (c.cap.state = 0 || c.cap.state = 3) && c.lead200 t && x % 64 = 0 && c.mapped false x 1024 &&
    !badImage (c.getF (pCap + 0x80) 0 16) (m.read x 1024)

theorem Core.capArm_of_armable (h : c.capArmable m x t = true) :
    c.capArm m x t = some { c with cap := { c.cap with armed := some (t, m.read x 1024) } } := if_pos h

theorem Core.capArm_of_not_armable (h : c.capArmable m x t = false) : c.capArm m x t = none := if_neg (Bool.eq_false_iff.mp h)

/-- Device time and the tick period, and with them whether a tick is far enough ahead, come from the clock and three registers. -/
theorem Core.lead200_congr (hc : d.clk = c.clk)
    (h : ∀ a, a = pTime + 0xA0 ∨ a = pTime + 0x208 ∨ a = pTime + 0xC0 → d.rd a = c.rd a) (t : Nat) : d.lead200 t = c.lead200 t := by
  have hnow : d.now = c.now := Core.now_congr hc fun a ha => h a (ha.imp id .inl)
  have htick : d.tickP = c.tickP := Core.tickP_of_getF (Core.getF_of_rd (h _ (.inr (.inr rfl))))
  rw [Core.lead200, hnow, htick, Core.lead200]

/-- The conditions of an arm do not read CAP_ARM. -/
theorem Core.capArmable_setF : (c.setF (pCap + 0x88) 0 48 v).capArmable m x t = c.capArmable m x t := by
  have hrd : ∀ b, b ≠ pCap + 0x88 → (c.setF (pCap + 0x88) 0 48 v).rd b = c.rd b := fun b hb => Core.rd_setF_ne c _ _ _ hb
  have hen : (c.setF (pCap + 0x88) 0 48 v).en pCap = c.en pCap := Core.getB_of_rd (hrd _ (by decide))
  have hlead : (c.setF (pCap + 0x88) 0 48 v).lead200 t = c.lead200 t :=
    Core.lead200_congr (c := c) (d := c.setF (pCap + 0x88) 0 48 v) rfl (fun b hb => hrd b (by rcases hb with rfl | rfl | rfl <;> decide)) t
  have hmap : (c.setF (pCap + 0x88) 0 48 v).mapped false x 1024 = c.mapped false x 1024 :=
    Core.mapped_congr (hrd _ (by decide)) (hrd _ (by decide)) x 1024
  have hmajors : (c.setF (pCap + 0x88) 0 48 v).getF (pCap + 0x80) 0 16 = c.getF (pCap + 0x80) 0 16 :=
    Core.getF_of_rd (hrd _ (by decide))
  rw [Core.capArmable, hen, hlead, hmap, hmajors]
  rfl

theorem Core.capRej_spec (c : Core) (off v : Nat) : (c.capRej off v).cap = c.cap ∧ (c.capRej off v).getB (pCap + 0xA0) 10 = true := by
  have hlog : (c.capRej off v).rd (pCap + 0xA0) = (c.raiseF (pCap + 0xA0) 10).rd (pCap + 0xA0) :=
    Core.rd_logErr_ne _ _ _ _ _ _ (by unfold LogTouches; decide)
  rw [Core.getB_of_rd hlog]
  exact ⟨(changes_raiseF.trans changes_reject) .cap (by decide), Core.getB_raiseF_self _ _ _ (by decide)⟩

section
variable (ha : a.view = .priv) (hgo : bit v 48 = true)
include ha hgo

/-- CAP_ARM with GO, by a privileged access: the address is held, and the arm is tried on it. -/
theorem Core.hCapArm_go : c.hCapArm m a v =
    ((c.setF (pCap + 0x88) 0 48 v).capArm m (v % 2 ^ 48) (c.rd (pCap + 0x90))).getD ((c.setF (pCap + 0x88) 0 48 v).capRej 0x88 v) := by
  have hat : (c.setF (pCap + 0x88) 0 48 v).rd (pCap + 0x90) = c.rd (pCap + 0x90) := Core.rd_setF_ne c _ _ _ (by decide)
  unfold Core.hCapArm
  dsimp only
  rw [if_neg (by simp [isPriv_of_view ha]), if_neg (by simp [hgo]), hat]
  generalize Core.capArm _ m _ _ = r
  cases r <;> rfl

theorem Core.hCapArm_arms (h : c.capArmable m (v % 2 ^ 48) (c.rd (pCap + 0x90)) = true) :
    (c.hCapArm m a v).cap = { c.cap with armed := some (c.rd (pCap + 0x90), m.read (v % 2 ^ 48) 1024) } ∧
    (c.hCapArm m a v).getF (pCap + 0x88) 0 48 = v % 2 ^ 48 ∧ Stated.OnlyReg c (c.hCapArm m a v) (pCap + 0x88) := by
  rw [Core.hCapArm_go ha hgo, Core.capArm_of_armable (Core.capArmable_setF.trans h), Option.getD_some]
  exact ⟨rfl, Core.getF_setF_self c _ _ _ _ (by decide), fun b hb => Core.rd_setF_ne c _ _ _ hb⟩

theorem Core.hCapArm_rejects (h : c.capArmable m (v % 2 ^ 48) (c.rd (pCap + 0x90)) = false) :
    (c.hCapArm m a v).cap = c.cap ∧ (c.hCapArm m a v).getB (pCap + 0xA0) 10 = true := by
  rw [Core.hCapArm_go ha hgo, Core.capArm_of_not_armable (Core.capArmable_setF.trans h), Option.getD_none]
  obtain ⟨hcap, hrej⟩ := Core.capRej_spec (c.setF (pCap + 0x88) 0 48 v) 0x88 v
  exact ⟨hcap.trans rfl, hrej⟩

end

theorem Core.captureArmEffect_begun (harm : c.cap.armed = some (t, i)) (hbegun : c.tickBegun t = true) :
    c.captureArmEffect = { c with cap := { Cap.idle with image := i, since := t, running := true, pulses := c.cap.pulses } } := by
  rw [Core.captureArmEffect, harm]
  exact if_pos hbegun

/-! ### The stop -/

/-- `ceilDiv` is the least multiple that reaches a value. -/
theorem le_ceilDiv_mul (n : Nat) {p : Nat} (hp : 0 < p) : n ≤ ceilDiv n p * p := by
  have := Nat.lt_div_mul_add (a := n + p - 1) hp
  rw [ceilDiv]
  omega

theorem mul_lt_of_lt_ceilDiv {n p u : Nat} (hp : 0 < p) (hu : u < ceilDiv n p) : u * p < n := by
  have := (Nat.le_div_iff_mul_le hp).mp (Nat.succ_le_of_lt hu)
  rw [Nat.succ_mul] at this
  omega

theorem Core.tick_length_pos (c : Core) : 0 < nsN c.tickP := by
  unfold nsN Core.tickP
  positivity

theorem Core.hCapCtrl_stop (ha : a.view = .priv) : c.hCapCtrl a (setBits v 0 1 1) =
    { c with cap := { c.cap with stopTick := some (ceilDiv (c.now + nsN 200) (nsN c.tickP)) } } := by
  rw [Core.hCapCtrl, if_pos (by rw [isPriv_of_view ha, bit_setBits_one]; rfl)]

theorem Core.captureStopEffect_begun (hstop : c.cap.stopTick = some t) (hbegun : c.tickBegun t = true) :
    c.captureStopEffect = { c with cap :=
      { Cap.idle with image := c.cap.image, counters := c.cap.counters, seqState := c.cap.seqState, pulses := c.cap.pulses } } := by
  rw [Core.captureStopEffect, hstop]
  exact if_pos hbegun

end Sys2Proof.Machine

open Sys2Proof Sys2Proof.Machine

/-- Settles O32: an arm whose conditions hold and one whose conditions fail, the arm's tick, STOP and the stop's tick. -/
theorem captureArmsAndStops : Obligations.CaptureArmsAndStops := by
  refine ⟨fun s a v ha => ?_, fun s t i harm hbegun => ?_, fun s a v ha => ?_, fun s t hstop hbegun => ?_⟩
  · have hgo := bit_setBits_one v.toNat 48
    have haddr := setBits_below v.toNat 48 1 1
    rw [runs_iff (d := s.core.hCapArm s.mem a (setBits v.toNat 48 1 1)) rfl, ← haddr]
    exact ⟨fun hok => Core.hCapArm_arms ha hgo hok, fun hok => Core.hCapArm_rejects ha hgo hok⟩
  · rw [runs_iff (d := s.core.captureArmEffect) rfl, Core.captureArmEffect_begun harm hbegun]
    exact ⟨rfl, rfl⟩
  · rw [runs_iff (d := s.core.hCapCtrl a (setBits v.toNat 0 1 1)) rfl, Core.hCapCtrl_stop ha]
    have hp := s.core.tick_length_pos
    exact ⟨_, rfl, rfl, le_ceilDiv_mul _ hp, fun u hu => mul_lt_of_lt_ceilDiv hp hu⟩
  · rw [runs_iff (d := s.core.captureStopEffect) rfl, Core.captureStopEffect_begun hstop hbegun]
    exact ⟨rfl, rfl, rfl, rfl, rfl, rfl, rfl⟩
end

