-- ==== Sys2Proof/Proofs/Sequencer.lean ====
section
/-! PROOF. The sequencer (R389 to R396): what an arc, an observation, a timer, a hold-off and a pulse do to the state and the queues, and
how capture stops (R385). -/

namespace Sys2Proof.Machine

variable {m : Mem} {c d : Core} {o : Obs} {a j k n t : Nat}

/-! ### Arcs -/

/-- A fold of steps that keep the waiting observations. -/
theorem seqQ_foldl {α : Type} {f : Core → α → Core} (h : ∀ c x, (f c x).cap.seqQ = c.cap.seqQ) (l : List α) (c : Core) :
    (l.foldl f c).cap.seqQ = c.cap.seqQ := by
  induction l generalizing c with
  | nil => rfl
  | cons x xs ih => exact (ih _).trans (h c x)

theorem Core.driveOuts_seqQ (c : Core) (outs : Nat) (level : Bool) (till : Option Nat) :
    (c.driveOuts outs level till).cap.seqQ = c.cap.seqQ := by
  unfold Core.driveOuts
  split
  · rfl
  · refine seqQ_foldl (fun c i => ?_) _ c
    dsimp only
    split <;> rfl

theorem Core.trigger_seqQ (c : Core) (x : Obs) (l e n : Nat) : (c.trigger x l e n).cap.seqQ = c.cap.seqQ := by
  unfold Core.trigger
  rw [Core.bump_cap]

/-- A step taken under a condition that keeps the waiting observations. -/
theorem seqQ_stepIf {b : Bool} (h : d.cap.seqQ = c.cap.seqQ) : (if b then d else c).cap.seqQ = c.cap.seqQ := by
  cases b
  · rfl
  · exact h

/-- A fired arc leads to its state, and the waiting observations stay. -/
theorem Core.arcAct_spec (c : Core) (x : Obs) (a : List Byte) (n : Nat) :
    (c.arcAct x a n).cap.seqState = fld a 1 1 ∧ (c.arcAct x a n).cap.seqQ = c.cap.seqQ := by
  unfold Core.arcAct
  extract_lets act sel outs left_ k1 c1 dur k2 c2 c3 c4 c5 c6 k7 c7 k8
  have h1 : c1.cap.seqQ = c.cap.seqQ := seqQ_stepIf rfl
  have h2 : c2.cap.seqQ = c1.cap.seqQ := by
    unfold c2
    split
    · rfl
    · split <;> rfl
  have h3 : c3.cap.seqQ = c2.cap.seqQ := seqQ_stepIf (Core.driveOuts_seqQ _ _ _ _)
  have h4 : c4.cap.seqQ = c3.cap.seqQ := seqQ_stepIf (Core.driveOuts_seqQ _ _ _ _)
  have h5 : c5.cap.seqQ = c4.cap.seqQ := seqQ_stepIf (Core.driveOuts_seqQ _ _ _ _)
  have h6 : c6.cap.seqQ = c5.cap.seqQ := seqQ_stepIf (Core.trigger_seqQ _ _ _ _ _)
  have h7 : c7.cap.seqQ = c6.cap.seqQ := seqQ_stepIf rfl
  exact ⟨rfl, h7.trans (h6.trans (h5.trans (h4.trans (h3.trans (h2.trans h1)))))⟩

/-- The first arc of the state that fires sets the next state (R391). -/
theorem Core.tryArcs_spec (c : Core) (x : Obs) (cond : Nat → Bool) :
    (c.tryArcs x cond).cap.seqState = Stated.arcState c.cap cond ∧ (c.tryArcs x cond).cap.seqQ = c.cap.seqQ := by
  unfold Core.tryArcs Stated.arcState
  dsimp only
  split
  · exact Core.arcAct_spec c x _ 0
  · split
    · exact Core.arcAct_spec c x _ 1
    · exact ⟨rfl, rfl⟩

/-! ### Observations -/

theorem Cap.holdStep_keeps (k : Cap) (o : Obs) : (k.holdStep o).seqState = k.seqState ∧ (k.holdStep o).seqQ = k.seqQ ∧
    (k.holdStep o).counters = k.counters := by
  unfold Cap.holdStep
  split <;> exact ⟨rfl, rfl, rfl⟩

/-- In a hold-off an observation is counted and no arc fires. -/
theorem Core.seqStep_holding (h : c.cap.holding ≠ none) : (c.seqStep o).cap.seqState = c.cap.seqState ∧
    (c.seqStep o).cap.seqQ = c.cap.seqQ ∧ (c.seqStep o).cap.counters = (c.cap.count o).1.counters := by
  have hstep : c.seqStep o = { c with cap := (c.cap.count o).1.holdStep o } := if_pos (Option.isSome_iff_ne_none.mpr h)
  rw [hstep]
  exact Cap.holdStep_keeps _ o

/-- Outside a hold-off an observation fires the first arc whose condition holds. -/
theorem Core.seqStep_arcs (h : c.cap.holding = none) : (c.seqStep o).cap.seqQ = c.cap.seqQ ∧
    (c.seqStep o).cap.seqState = Stated.arcState c.cap (Stated.arcFires (c.cap.count o).1 (c.cap.count o).2 o) := by
  have hstep : c.seqStep o = { c with cap := (c.cap.count o).1 }.tryArcs o (Stated.arcFires (c.cap.count o).1 (c.cap.count o).2 o) :=
    if_neg (show ¬ c.cap.holding.isSome = true by simp [h])
  rw [hstep]
  obtain ⟨hstate, hq⟩ := Core.tryArcs_spec { c with cap := (c.cap.count o).1 } o (Stated.arcFires (c.cap.count o).1 (c.cap.count o).2 o)
  exact ⟨hq, hstate⟩

/-! ### Capture stops -/

theorem pailPut_cap (m : Mem) (c : Core) (r : List Byte) :
    (pailPut m c r).2.cap = { c.cap with recNo := (c.cap.recNo + 1) % 2 ^ 32 } := by
  unfold pailPut
  extract_lets wr p m1 o m2 nxt d
  have hd : d.cap = c.cap := (changes_wr.trans (changes_bump.trans changes_lpmMoved)) .cap (by decide)
  clear_value d
  show { d.cap with recNo := (d.cap.recNo + 1) % 2 ^ 32 } = _
  rw [hd]

/-- The record of a stop of capture (R385). -/
def Core.overflowMark (c : Core) (n : Nat) : Obs :=
  { (firstObs c.cap.capQ).getD (timedObs c.tick c.now) with
    kind := 0xA, data := [BitVec.ofNat 8 n] ++ toLe 7 0 ++ toLe 8 (linear c.now), match_ := [], frame := 0, bad := false,
    final := some c.now }

/-- The pail behind the record of a stop. -/
def overflowPut (m : Mem) (c : Core) (n : Nat) : Mem × Core :=
  if c.pailSize = 0 then (m, c) else pailPut m c (c.markRecord (c.overflowMark n) false)

/-- Capture has stopped for a reason. -/
def Core.captureStopped (c : Core) (n : Nat) : Core :=
  { c with cap := { c.cap with stopped := true, reason := n, capQ := [] } }.event pCap 8

theorem capStop_live (hrun : c.cap.running = true) (hlive : c.cap.stopped = false) :
    capStop m c n = ((overflowPut m c n).1, (overflowPut m c n).2.captureStopped n) :=
  if_neg (by simp [hrun, hlive])

theorem capStop_live_core (hrun : c.cap.running = true) (hlive : c.cap.stopped = false) :
    (capStop m c n).2 = (overflowPut m c n).2.captureStopped n := congrArg Prod.snd (capStop_live hrun hlive)

theorem capStop_stopped (h : c.cap.stopped = true) : capStop m c n = (m, c) := if_pos (by simp [h])

theorem overflowPut_cap (m : Mem) (c : Core) (n : Nat) :
    (overflowPut m c n).2.cap.halted = c.cap.halted ∧ (overflowPut m c n).2.cap.seqQ = c.cap.seqQ := by
  unfold overflowPut
  split
  · exact ⟨rfl, rfl⟩
  · rw [pailPut_cap]
    exact ⟨rfl, rfl⟩

theorem Core.captureStopped_spec (c : Core) (n : Nat) :
    (c.captureStopped n).cap.stopped = true ∧ (c.captureStopped n).cap.halted = c.cap.halted ∧
    (c.captureStopped n).cap.seqQ = c.cap.seqQ ∧ (c.captureStopped n).cap.reason = n ∧ (c.captureStopped n).cap.capQ = [] := by
  have hcap : (c.captureStopped n).cap = { c.cap with stopped := true, reason := n, capQ := [] } := Core.event_cap _ pCap 8
  rw [hcap]
  exact ⟨rfl, rfl, rfl, rfl, rfl⟩

/-- A stop of capture leaves the sequencer as it is, and its reason is the first one's. -/
theorem capStop_spec (m : Mem) (c : Core) (n : Nat) (hrun : c.cap.running = true) :
    (capStop m c n).2.cap.stopped = true ∧ (capStop m c n).2.cap.halted = c.cap.halted ∧ (capStop m c n).2.cap.seqQ = c.cap.seqQ ∧
    (c.cap.stopped = false → (capStop m c n).2.cap.reason = n ∧ (capStop m c n).2.cap.capQ = []) := by
  cases hstop : c.cap.stopped
  · obtain ⟨hhalt, hq⟩ := overflowPut_cap m c n
    obtain ⟨hstopped, hhalted, hqueue, hreason, hcapQ⟩ := (overflowPut m c n).2.captureStopped_spec n
    rw [capStop_live_core hrun hstop]
    exact ⟨hstopped, hhalted.trans hhalt, hqueue.trans hq, fun _ => ⟨hreason, hcapQ⟩⟩
  · rw [capStop_stopped hstop]
    exact ⟨hstop, rfl, rfl, fun h => absurd h.symm Bool.false_ne_true⟩

/-! ### The overflow of the sequencer's queue -/

theorem seqOverflow_few (h : (c.cap.seqQ.filter c.isFinal).length ≤ 65536) : seqOverflow m c = (m, c) := by
  unfold seqOverflow
  exact if_pos (by simp [h])

theorem seqOverflow_spec (hrun : c.cap.running = true) (hlive : c.cap.halted = false)
    (h : 65536 < (c.cap.seqQ.filter c.isFinal).length) :
    (seqOverflow m c).2.cap.halted = true ∧ (seqOverflow m c).2.cap.seqQ = [] ∧ (seqOverflow m c).2.cap.stopped = true ∧
    (c.cap.stopped = false → (seqOverflow m c).2.cap.reason = 3) := by
  unfold seqOverflow
  extract_lets n d
  have hd : d.cap = c.cap := changes_logErr.trans changes_event .cap (by decide)
  rw [if_neg (by simp [n, hrun, hlive, h])]
  obtain ⟨hstop, hhalt, hq, hreason⟩ := capStop_spec m { d with cap := { d.cap with halted := true, seqQ := [] } } 3 (by rw [hd, hrun])
  exact ⟨hhalt, hq, hstop, fun hs => (hreason (by rw [hd, hs])).1⟩

theorem sequencerStep_overflows (hrun : c.cap.running = true) (hlive : c.cap.halted = false)
    (h : 65536 < (c.cap.seqQ.filter c.isFinal).length) : sequencerStep m c = seqOverflow m c := by
  obtain ⟨hhalt, -⟩ := seqOverflow_spec (m := m) hrun hlive h
  unfold sequencerStep
  exact if_pos (by rw [hhalt]; rfl)

/-! ### The step -/

/-- The sequencer has taken an observation from the merge, and noted how far it lags. -/
def Core.seqTaken (c : Core) (o : Obs) (lag : Nat) : Core :=
  { c.rcMax (pCap + 0xF8) lag with cap := { c.cap with seqQ := c.cap.seqQ.erase o, passed := max c.cap.passed (o.final.getD 0) } }

theorem sequencerStep_takes (hrun : c.cap.running = true) (hlive : c.cap.halted = false)
    (hfew : (c.cap.seqQ.filter c.isFinal).length ≤ 65536) (hnext : c.merged true c.cap.seqQ = some o)
    (htimed : ∀ t i, c.cap.nextTimed = some (t, i) → o.tick < t) : ∃ lag, sequencerStep m c =
      (m, if ((c.seqTaken o lag).seqStep o).cap.halted then
        { (c.seqTaken o lag).seqStep o with cap := { ((c.seqTaken o lag).seqStep o).cap with seqQ := [] } }
        else (c.seqTaken o lag).seqStep o) := by
  unfold sequencerStep
  rw [seqOverflow_few hfew]
  dsimp only
  rw [if_neg (by simp [hrun, hlive]), hnext]
  dsimp only
  refine ⟨_, (if_neg ?_).trans rfl⟩
  split
  · simpa using htimed _ _ ‹_›
  · exact Bool.false_ne_true

theorem sequencerStep_spec (hrun : c.cap.running = true) (hlive : c.cap.halted = false)
    (hfew : (c.cap.seqQ.filter c.isFinal).length ≤ 65536) (hnext : c.merged true c.cap.seqQ = some o)
    (htimed : ∀ t i, c.cap.nextTimed = some (t, i) → o.tick < t) :
    (sequencerStep m c).1 = m ∧
    (sequencerStep m c).2.cap.seqQ = (if (sequencerStep m c).2.cap.halted then [] else c.cap.seqQ.erase o) ∧
    (c.cap.holding = none → (sequencerStep m c).2.cap.seqState =
      Stated.arcState c.cap (Stated.arcFires (c.cap.count o).1 (c.cap.count o).2 o)) ∧
    (c.cap.holding ≠ none → (sequencerStep m c).2.cap.seqState = c.cap.seqState ∧
      (sequencerStep m c).2.cap.counters = (c.cap.count o).1.counters) := by
  obtain ⟨lag, hstep⟩ := sequencerStep_takes (m := m) hrun hlive hfew hnext htimed
  rw [hstep]
  have hq : ((c.seqTaken o lag).seqStep o).cap.seqQ = c.cap.seqQ.erase o := by
    by_cases h : c.cap.holding = none
    · exact (Core.seqStep_arcs (c := c.seqTaken o lag) h).1
    · exact (Core.seqStep_holding (c := c.seqTaken o lag) h).2.1
  have harcs := fun h => (Core.seqStep_arcs (c := c.seqTaken o lag) (o := o) h).2
  have hholds := fun h => Core.seqStep_holding (c := c.seqTaken o lag) (o := o) h
  generalize (c.seqTaken o lag).seqStep o = d at hq harcs hholds
  refine ⟨rfl, ?_, fun h => ?_, fun h => ?_⟩
  · cases hd : d.cap.halted <;> simp [hd, hq]
  · rw [apply_ite (fun e : Core => e.cap.seqState), ite_self]
    exact harcs h
  · obtain ⟨hstate, -, hcount⟩ := hholds h
    rw [apply_ite (fun e : Core => e.cap.seqState), apply_ite (fun e : Core => e.cap.counters), ite_self, ite_self]
    exact ⟨hstate, hcount⟩

/-! ### Timers, hold-offs and pulses -/

theorem Core.timerExpiry_due (h : c.timedDue k = some t) : c.timerExpiry k =
    (if c.cap.holding.isSome then { c with cap := { c.cap with timers := c.cap.timers.set k none } }
     else { c with cap := { c.cap with timers := c.cap.timers.set k none } }.tryArcs (timedObs t (t * nsN c.tickP)) fun n => n = 0x14 + k) := by
  rw [Core.timerExpiry, h]
  rfl

theorem Core.timerExpiry_spec (h : c.timedDue k = some t) :
    (c.cap.holding ≠ none → c.timerExpiry k = { c with cap := { c.cap with timers := c.cap.timers.set k none } }) ∧
    (c.cap.holding = none → (c.timerExpiry k).cap.seqState = Stated.arcState c.cap fun i => i = 0x14 + k) := by
  rw [Core.timerExpiry_due h]
  refine ⟨fun hh => if_pos (Option.isSome_iff_ne_none.mpr hh), fun hh => ?_⟩
  rw [if_neg (by simp [hh])]
  exact (Core.tryArcs_spec _ _ _).1

theorem Core.holdoffEnd_due (h : c.timedDue 4 = some t) : c.holdoffEnd = { c with cap := { c.cap with holding := none } } := by
  rw [Core.holdoffEnd, h]

/-- A trigger output is one of the bits of its register. -/
theorem Core.lt_of_getB {i : Nat} (h : c.getB a i = true) : i < 64 := by
  by_contra hi
  rw [Core.getB_iff_testBit, Nat.testBit_lt_two_pow
    (Nat.lt_of_lt_of_le (c.rd_lt _) (Nat.pow_le_pow_right (by decide) (Nat.not_lt.mp hi)))] at h
  exact absurd h (by decide)

/-- The pulse of an output no longer waits. -/
def Core.pulseDropped (c : Core) (j : Nat) : Core := { c with cap := { c.cap with pulses := Store.erase c.cap.pulses j } }

theorem Core.trigPulseEnd_due (hfind : (c.cap.pulses.find? fun e => e.1 = j) = some (j, t)) (hdue : t ≤ c.now) :
    c.trigPulseEnd j = if c.getB (pCap + 0x148) j then
      ((c.pulseDropped j).setF (pCap + 0x148) j 1 0).emit (.edge (4 + j) (c.cap.ball j false) t) else c.pulseDropped j := by
  unfold Core.trigPulseEnd
  rw [hfind]
  exact if_neg (Nat.not_lt.mpr hdue)

theorem Core.trigPulseEnd_spec (hfind : (c.cap.pulses.find? fun e => e.1 = j) = some (j, t)) (hdue : t ≤ c.now) :
    (c.trigPulseEnd j).cap.pulses = Store.erase c.cap.pulses j ∧ (c.trigPulseEnd j).getB (pCap + 0x148) j = false ∧
    (c.getB (pCap + 0x148) j = true → (c.trigPulseEnd j).out = c.out ++ [.edge (4 + j) (c.cap.ball j false) t]) := by
  rw [Core.trigPulseEnd_due hfind hdue]
  cases hhigh : c.getB (pCap + 0x148) j
  · exact ⟨rfl, hhigh, fun h => absurd h Bool.false_ne_true⟩
  · exact ⟨rfl, Core.getB_setF_self (c.pulseDropped j) _ j 0 (Core.lt_of_getB hhigh), fun _ => rfl⟩

end Sys2Proof.Machine

open Sys2Proof Sys2Proof.Machine

/-- Settles O33: the merge's next observation, an overflowing queue, the timers, the end of a hold-off and of a pulse. -/
theorem sequencerSteps : Obligations.SequencerSteps := by
  refine ⟨fun s hrun hlive => ⟨fun o hfew hnext htimed => ?_, fun hmany => ?_⟩, fun s n t hn h => ?_, fun s t h => ?_, fun s j t hfind hdue => ?_⟩
  · exact (runsDev_devStep (f := sequencerStep) rfl).mpr (sequencerStep_spec hrun hlive hfew hnext htimed)
  · rw [runsDev_devStep (f := sequencerStep) rfl, sequencerStep_overflows hrun hlive hmany]
    exact seqOverflow_spec hrun hlive hmany
  · refine (runs_iff (d := s.core.timerExpiry n) ?_).mpr (Core.timerExpiry_spec h)
    show Host.Outcome.next { s with core := if n < 4 then s.core.timerExpiry n else s.core } = _
    rw [if_pos hn]
  · exact (runs_iff (d := s.core.holdoffEnd) rfl).mpr (Core.holdoffEnd_due h)
  · exact (runs_iff (d := s.core.trigPulseEnd j) rfl).mpr (Core.trigPulseEnd_spec hfind hdue)
end

