-- ==== Sys2Proof/Proofs/CaptureRecords.lean ====
section
/-! PROOF. Capture records and trigger pins (R380 to R385, R397, R398): the writer's next record, the pail, and an edge on a pin. -/

namespace Sys2Proof.Machine

variable {m : Mem} {c d : Core} {o : Obs} {i phi held n t : Nat} {r : List Byte} {level : Bool}

/-! ### The pail -/

theorem Mem.read_putMapped (m : Mem) {a : Nat} (h : c.mapped false a r.length = true) : (putMapped c m a r).read a r.length = r := by
  rw [putMapped, if_pos h, Mem.read_store]

theorem Mem.byte_putMapped_out (c : Core) (m : Mem) {a b : Nat} (h : b < a ∨ a + r.length ≤ b) :
    (putMapped c m a r).byte b = m.byte b := by
  unfold putMapped
  split
  · exact Mem.byte_store_out m a b r h
  · rfl

/-- Where a record goes in the pail: behind its PAD, or at the write pointer. -/
def Core.pailAt (c : Core) (n : Nat) : Nat := if c.padFor c.pailWr n = 0 then c.pailWr else 0

theorem pailPut_spec (m : Mem) (c : Core) (r : List Byte) :
    (pailPut m c r).2.pailWr = (if c.pailSize ≤ c.pailAt r.length + r.length then 0 else c.pailAt r.length + r.length) % 2 ^ 64 ∧
    (c.mapped false (c.pailBase + c.pailAt r.length) r.length = true →
      (pailPut m c r).1.read (c.pailBase + c.pailAt r.length) r.length = r) ∧
    (c.padFor c.pailWr r.length = 0 → ∀ b, b < c.pailBase + c.pailAt r.length ∨ c.pailBase + c.pailAt r.length + r.length ≤ b →
      (pailPut m c r).1.byte b = m.byte b) := by
  unfold pailPut
  extract_lets wr p m1 x m2 nxt d
  have hwr : d.rd (pCap + 0xB8) = nxt % 2 ^ 64 := by
    unfold d
    rw [Core.rd_lpmMoved _ _ _ (by decide), Core.rd_bump_ne _ (by decide), Core.rd_wr_self]
  refine ⟨hwr, fun hmap => Mem.read_putMapped m1 hmap, fun hpad b hb => ?_⟩
  have hm : m1 = m := if_pos hpad
  exact (Mem.byte_putMapped_out c m1 hb).trans (congrArg (Mem.byte · b) hm)

/-! ### The writer -/

theorem captureRecordWrite_full (hrun : c.cap.running = true)
    (h : 2 ^ 23 < (c.cap.capQ.map fun (o : Obs) => 32 + ceilDiv (c.cap.cut o o.data).length 32 * 32).sum) :
    captureRecordWrite m c = capStop m c 2 := by
  obtain ⟨hstop, -⟩ := capStop_spec m c 2 hrun
  have hover : capOverflow m c = capStop m c 2 := if_pos h
  unfold captureRecordWrite
  rw [hover]
  exact if_pos (by rw [hstop, Bool.or_true])

/-- Capture after the writer has taken an observation out of its merge. -/
def Core.capTaken (c : Core) (o : Obs) (windows : List (Nat × Nat)) : Core :=
  { c with cap := { c.cap with capQ := c.cap.capQ.erase o, windows := windows } }

/-- Whether an observation is of a channel that is on only in windows (R382). -/
def Cap.windowed (k : Cap) (o : Obs) : Bool := k.mode o.kind = 2 && o.kind ≠ 9 && o.kind ≠ 10

section
variable (hrun : c.cap.running = true) (hlive : c.cap.stopped = false)
  (hroom : decide (2 ^ 23 < (c.cap.capQ.map fun (o : Obs) => 32 + ceilDiv (c.cap.cut o o.data).length 32 * 32).sum) = false)
  (hnext : c.merged false c.cap.capQ = some o) (hpassed : c.seqPassed (o.tick + c.cap.pre + 1) = true)
include hrun hlive hroom hnext hpassed

/-- What becomes of the merge's next record. -/
theorem captureRecordWrite_next : captureRecordWrite m c =
    (if c.cap.windowed o && !c.cap.inWindow o.tick then (m, c.capTaken o c.cap.windows)
     else if !c.pailFits (c.markRecord o (c.cap.windowed o)).length then capStop m c 1
     else pailPut m (c.capTaken o (c.cap.windows.filter fun w => o.tick ≤ w.2)) (c.markRecord o (c.cap.windowed o))) := by
  have hover : capOverflow m c = (m, c) := if_neg (of_decide_eq_false hroom)
  unfold captureRecordWrite
  rw [hover]
  dsimp only
  rw [if_neg (by simp [hrun, hlive]), hnext]
  dsimp only
  rw [if_neg (by simp [hpassed])]
  rfl

theorem captureRecordWrite_discards (hwin : (c.cap.windowed o && !c.cap.inWindow o.tick) = true) :
    captureRecordWrite m c = (m, c.capTaken o c.cap.windows) :=
  (captureRecordWrite_next hrun hlive hroom hnext hpassed).trans (if_pos hwin)

theorem captureRecordWrite_stops (hwin : (c.cap.windowed o && !c.cap.inWindow o.tick) = false)
    (hfits : c.pailFits (c.markRecord o (c.cap.windowed o)).length = false) : captureRecordWrite m c = capStop m c 1 :=
  (captureRecordWrite_next hrun hlive hroom hnext hpassed).trans ((if_neg (by simp [hwin])).trans (if_pos (by simp [hfits])))

theorem captureRecordWrite_writes (hwin : (c.cap.windowed o && !c.cap.inWindow o.tick) = false)
    (hfits : c.pailFits (c.markRecord o (c.cap.windowed o)).length = true) : captureRecordWrite m c =
      pailPut m (c.capTaken o (c.cap.windows.filter fun w => o.tick ≤ w.2)) (c.markRecord o (c.cap.windowed o)) :=
  (captureRecordWrite_next hrun hlive hroom hnext hpassed).trans ((if_neg (by simp [hwin])).trans (if_neg (by simp [hfits])))

end

/-- The pail's registers and the map do not depend on what capture holds. -/
theorem pailPut_capTaken (m : Mem) (c : Core) (o : Obs) (ws : List (Nat × Nat)) (r : List Byte) :
    (pailPut m (c.capTaken o ws) r).2.cap.capQ = c.cap.capQ.erase o ∧
    (pailPut m (c.capTaken o ws) r).2.cap.recNo = (c.cap.recNo + 1) % 2 ^ 32 ∧
    (pailPut m (c.capTaken o ws) r).2.pailWr =
      (if c.pailSize ≤ c.pailAt r.length + r.length then 0 else c.pailAt r.length + r.length) % 2 ^ 64 ∧
    (c.mapped false (c.pailBase + c.pailAt r.length) r.length = true →
      (pailPut m (c.capTaken o ws) r).1.read (c.pailBase + c.pailAt r.length) r.length = r) ∧
    (c.padFor c.pailWr r.length = 0 → ∀ b, b < c.pailBase + c.pailAt r.length ∨ c.pailBase + c.pailAt r.length + r.length ≤ b →
      (pailPut m (c.capTaken o ws) r).1.byte b = m.byte b) := by
  obtain ⟨hwr, hread, hout⟩ := pailPut_spec m (c.capTaken o ws) r
  have hrd : ∀ a, (c.capTaken o ws).rd a = c.rd a := fun _ => rfl
  have hbase : (c.capTaken o ws).pailBase = c.pailBase := hrd _
  have hwrite : (c.capTaken o ws).pailWr = c.pailWr := hrd _
  have hsize : (c.capTaken o ws).pailSize = c.pailSize := by rw [Core.pailSize, hrd, Core.pailSize]
  have hpad : ∀ k n, (c.capTaken o ws).padFor k n = c.padFor k n := fun k n => by rw [Core.padFor, hsize, Core.padFor]
  have hat : (c.capTaken o ws).pailAt r.length = c.pailAt r.length := by rw [Core.pailAt, hwrite, hpad, Core.pailAt]
  have hmap : ∀ a n, (c.capTaken o ws).mapped false a n = c.mapped false a n := Core.mapped_congr (hrd _) (hrd _)
  rw [hbase, hat, hmap] at hread
  rw [hwrite, hpad, hbase, hat] at hout
  rw [hsize, hat] at hwr
  rw [pailPut_cap]
  exact ⟨rfl, rfl, hwr, hread, hout⟩

/-! ### Trigger pins -/

theorem Core.getB_setLevel (c : Core) (a k : Nat) (b : Bool) (hk : k < 64) : (c.setF a k 1 (b2n b)).getB a k = b := by
  rw [Core.getB_setF_self c a k _ hk]
  cases b <;> rfl

theorem Core.tickAt_congr (h : d.rd (pTime + 0xC0) = c.rd (pTime + 0xC0)) (n : Nat) : d.tickAt n = c.tickAt n := by
  rw [Core.tickAt, Core.tickP_of_getF (Core.getF_of_rd h)]
  rfl

theorem Core.fedBy_congr (h : d.rgns = c.rgns) (src t : Nat) : d.fedBy src t = c.fedBy src t := by
  simp only [Core.fedBy, Core.binFor, Core.rgn, h]

/-- A trigger pin at a new level (R397). -/
def Core.trigLevel (c : Core) (i : Nat) (level : Bool) : Core :=
  { c.setF aTrigStat i 1 (b2n level) with
    pins := { c.pins with trigSince := Store.set c.pins.trigSince 0 i (c.setF aTrigStat i 1 (b2n level)).now } }

theorem Core.rd_trigLevel {b : Nat} (h : b ≠ aTrigStat) : (c.trigLevel i level).rd b = c.rd b := Core.rd_setF_ne c _ _ _ h

/-- The timestamp of an edge at `phi` on trigger pin i. -/
def Core.trigStamp (c : Core) (i phi : Nat) : Nat := adjust (c.at_ (phi / 2 ^ 16 * 2 ^ 16)) (signed 32 (c.getF (aTrig i) 32 32))

section
variable (hi : i < 8) (hlevel : c.getB aTrigStat i ≠ level) (hen : c.getB (aTrig i) 0 = true)
include hi hlevel hen

/-- An edge that has held its level changes it; whether it is observed and sends an event depends on EDGE and EVT. -/
theorem Core.trigInEdge_accepted (hheld : c.getF (aTrig i) 5 4 ≤ held) : c.trigInEdge i phi level held =
    (if edgeWanted (c.getF (aTrig i) 1 2) level then
       (if c.getB (aTrig i) 3 then
         ((c.trigLevel i level).observe ((c.trigLevel i level).pinObs i (c.trigStamp i phi) level)).pinEvent i (c.trigStamp i phi)
        else (c.trigLevel i level).observe ((c.trigLevel i level).pinObs i (c.trigStamp i phi) level))
     else c.trigLevel i level) := by
  have hcfg : ∀ b, b ≠ aTrigStat → (c.trigLevel i level).rd b = c.rd b := fun b hb => Core.rd_trigLevel hb
  have htrig : aTrig i ≠ aTrigStat := by unfold aTrig aTrigStat; omega
  have hat := Core.at_congr (c := c) (d := c.trigLevel i level) rfl
    (fun a ha => hcfg a (by rcases ha with rfl | rfl <;> decide)) (phi / 2 ^ 16 * 2 ^ 16)
  have hstamp : adjust ((c.trigLevel i level).at_ (phi / 2 ^ 16 * 2 ^ 16)) (signed 32 ((c.trigLevel i level).getF (aTrig i) 32 32)) =
      c.trigStamp i phi := by rw [hat, Core.getF_of_rd (hcfg _ htrig), Core.trigStamp]
  have hedge : (c.trigLevel i level).getF (aTrig i) 1 2 = c.getF (aTrig i) 1 2 := Core.getF_of_rd (hcfg _ htrig)
  have hevt : ∀ x, ((c.trigLevel i level).observe x).getB (aTrig i) 3 = c.getB (aTrig i) 3 := fun x =>
    Core.getB_of_rd ((Core.rd_congr (changes_observe .regs (by decide)) _).trans (hcfg _ htrig))
  unfold Core.trigInEdge
  dsimp only
  rw [if_neg (by simp [hlevel, hen, hi]), if_neg (Nat.not_lt.mpr hheld)]
  change (if (!edgeWanted ((c.trigLevel i level).getF (aTrig i) 1 2) level) = true then c.trigLevel i level else _) = _
  rw [hedge]
  cases edgeWanted (c.getF (aTrig i) 1 2) level
  · exact (if_pos rfl).trans (if_neg Bool.false_ne_true).symm
  · rw [if_neg (by decide), if_pos rfl, ← hstamp, ← hevt]
    rfl

theorem Core.trigInEdge_frame (hheld : c.getF (aTrig i) 5 4 ≤ held) :
    Changes [.sep, .cap] (c.trigLevel i level) (c.trigInEdge i phi level held) := by
  rw [Core.trigInEdge_accepted hi hlevel hen hheld]
  exact .ite (.ite ((changes_observe.trans changes_pinEvent).mono rfl) (changes_observe.mono rfl)) .refl

theorem Core.trigInEdge_level (hheld : c.getF (aTrig i) 5 4 ≤ held) :
    (c.trigInEdge i phi level held).getB aTrigStat i = level ∧
    Store.get (c.trigInEdge i phi level held).pins.trigSince 0 i = c.now := by
  have hframe := Core.trigInEdge_frame (phi := phi) hi hlevel hen hheld
  refine ⟨?_, ?_⟩
  · rw [Core.getB_of_rd (Core.rd_congr (hframe .regs (by decide)) _)]
    exact Core.getB_setLevel c _ _ _ (by omega)
  · rw [show (c.trigInEdge i phi level held).pins = (c.trigLevel i level).pins from hframe .pins (by decide)]
    exact (Store.get_set_self _ _ _ _).trans
      (Core.now_congr rfl fun a ha => Core.rd_setF_ne c _ _ _ (by rcases ha with rfl | rfl <;> decide))

theorem Core.trigInEdge_event (hheld : c.getF (aTrig i) 5 4 ≤ held) (hedge : edgeWanted (c.getF (aTrig i) 1 2) level = true)
    (hevt : c.getB (aTrig i) 3 = true) : ∃ e, (c.trigInEdge i phi level held).sep.inbox = c.sep.inbox ++ [e] ∧ e.src = 24 + i ∧
      e.n = c.trigStamp i phi ∧ e.tick = c.tickAt (c.trigStamp i phi) ∧
      e.regions = c.fedBy (24 + i) (c.tickAt (c.trigStamp i phi)) := by
  rw [Core.trigInEdge_accepted hi hlevel hen hheld, if_pos hedge, if_pos hevt]
  generalize hd : (c.trigLevel i level).observe _ = d
  have hframe : Changes [.cap] (c.trigLevel i level) d := hd ▸ changes_observe
  have htick : d.tickAt (c.trigStamp i phi) = c.tickAt (c.trigStamp i phi) :=
    Core.tickAt_congr ((Core.rd_congr (hframe .regs (by decide)) _).trans (Core.rd_trigLevel (by decide))) _
  have hfed := Core.fedBy_congr (hframe .rgns (by decide) : d.rgns = c.rgns) (24 + i) (c.tickAt (c.trigStamp i phi))
  have hinbox : d.sep.inbox = c.sep.inbox := congrArg Sep.inbox (hframe .sep (by decide))
  unfold Core.pinEvent
  rw [Core.sendEvent_inbox, hinbox, htick, hfed]
  exact ⟨_, rfl, rfl, rfl, rfl, rfl⟩

theorem Core.trigInEdge_short (hmin : 2 ≤ held) (hheld : held < c.getF (aTrig i) 5 4) :
    c.trigInEdge i phi level held = c.bump (pCap + 0x180 + 8 * i) := by
  unfold Core.trigInEdge
  dsimp only
  rw [if_neg (by simp [hlevel, hen, hi]), if_pos hheld, if_neg (Nat.not_lt.mpr hmin)]

end

theorem Core.stuck_spec (hi : i < 8) (hus : c.getF (aTrig i) 16 16 ≠ 0) (hlevel : c.getB aTrigStat i ≠ c.getB (aTrig i) 4)
    (hfirst : c.getB aTrigStat (8 + i) = false)
    (hlong : Store.get c.pins.trigSince 0 i + nsN (1000 * c.getF (aTrig i) 16 16) ≤ c.now) :
    (c.stuck i).getB aTrigStat (8 + i) = true ∧ (c.stuck i).getB (pCap + 0x38) 9 = true := by
  have hstuck : c.stuck i = (c.raiseF aTrigStat (8 + i)).event pCap 9 := by
    unfold Core.stuck
    exact if_neg (by simp [hi, hus, hlevel, hfirst, hlong])
  rw [hstuck]
  refine ⟨?_, Core.getB_event_self _ _ _ (by decide)⟩
  rw [Core.getB_of_rd (Core.rd_event_ne _ _ (by decide))]
  exact Core.getB_raiseF_self c _ _ (by omega)

end Sys2Proof.Machine

open Sys2Proof Sys2Proof.Machine

/-- Settles O34: the writer by what becomes of the merge's next record, the pins by how long the level has held. -/
theorem recordsAndTriggerPins : Obligations.RecordsAndTriggerPins := by
  refine ⟨fun s hrun hlive => ⟨fun hfull => ?_, fun o hroom hnext hpassed => ⟨fun hwin => ?_, fun hwin hfits => ?_, fun hwin hfits => ?_⟩⟩,
    fun s i phi held level hi hlevel hen => ⟨fun hheld => ?_, fun hmin hheld hfrozen => ?_⟩, fun s i hi hus hlevel hfirst hlong => ?_⟩
  · rw [runsDev_devStep (f := captureRecordWrite) rfl, captureRecordWrite_full hrun (of_decide_eq_true hfull)]
    obtain ⟨hstop, -, -, hlast⟩ := capStop_spec s.mem s.core 2 hrun
    exact ⟨hstop, hlast hlive⟩
  · rw [runsDev_devStep (f := captureRecordWrite) rfl, captureRecordWrite_discards hrun hlive hroom hnext hpassed hwin]
    exact ⟨rfl, rfl⟩
  · rw [runsDev_devStep (f := captureRecordWrite) rfl, captureRecordWrite_stops hrun hlive hroom hnext hpassed hwin hfits]
    obtain ⟨hstop, -, -, hlast⟩ := capStop_spec s.mem s.core 1 hrun
    exact ⟨hstop, (hlast hlive).1⟩
  · rw [runsDev_devStep (f := captureRecordWrite) rfl, captureRecordWrite_writes hrun hlive hroom hnext hpassed hwin hfits]
    exact pailPut_capTaken s.mem s.core o _ _
  · obtain ⟨hstat, hsince⟩ := Core.trigInEdge_level (phi := phi) hi hlevel hen hheld
    exact (runs_iff (d := s.core.trigInEdge i phi level held) rfl).mpr
      ⟨hstat, hsince, fun hedge hevt => Core.trigInEdge_event hi hlevel hen hheld hedge hevt⟩
  · rw [runs_iff (d := s.core.trigInEdge i phi level held) rfl, Core.trigInEdge_short hi hlevel hen hmin hheld]
    exact ⟨Core.rd_bump_self _ _ hfrozen, fun b hb => Core.rd_bump_ne _ hb⟩
  · exact (runs_iff (d := s.core.stuck i) rfl).mpr (Core.stuck_spec hi hus hlevel hfirst hlong)
end

