-- ==== Sys2Proof/Proofs/MemoriesServed.lean ====
section
/-! PROOF. The vaults and LPDDR6 in service (R405 to R408, R410, R412, R417): sensors and the hot class, refresh and scrub,
recalibration. -/

namespace Sys2Proof.Machine

variable {m : Mem} {c d : Core} {a : Access} {v w x n p t0 ch line : Nat} {t : Int} {fix bad : List Nat} {ce : Core → Core}

/-! ### The hot class -/

theorem unsigned_mod (w : Nat) (t : Int) : unsigned w t % 2 ^ w = unsigned w t := by
  have hpos : (0 : Int) < 2 ^ w := by positivity
  have hlt := Int.emod_lt_of_pos t hpos
  have hnn := Int.emod_nonneg t (ne_of_gt hpos)
  refine Nat.mod_eq_of_lt ?_
  unfold unsigned
  zify
  rwa [Int.toNat_of_nonneg hnn]

theorem Core.vaultSensor_shown (c : Core) (v : Nat) (t : Int) :
    (c.vaultSensor v t).getF (aVlt v) 0 12 = unsigned 12 t ∧ Stated.OnlyReg c (c.vaultSensor v t) (aVlt v) :=
  ⟨(Core.getF_setF_self c (aVlt v) 0 12 _ (by decide)).trans (unsigned_mod 12 t), fun _ hb => Core.rd_setF_ne c _ _ _ hb⟩

theorem Core.now_vaultSensor (c : Core) (v : Nat) (t : Int) : (c.vaultSensor v t).now = c.now :=
  Core.now_congr (changes_vaultSensor .clk (by decide)) fun b hb => (Core.vaultSensor_shown c v t).2 b
    (by rcases hb with rfl | rfl <;> unfold pTime aVlt pVlt <;> omega)

theorem Core.vaultHotEnter_spec (hv : v < c.meadows) (ht : 1360 < t) : v ∈ (c.vaultHotEnter v t).pwr.sensorHot ∧
    (c.vaultHotEnter v t).getF (aVlt v) 0 12 = unsigned 12 t ∧ Stated.OnlyReg c (c.vaultHotEnter v t) (aVlt v) := by
  have henter : c.vaultHotEnter v t = c.vaultSensor v t := if_pos (by simp [hv, ht])
  have hhot : (c.vaultSensor v t).pwr.sensorHot = insertNat v c.pwr.sensorHot := if_pos ht
  rw [henter, hhot]
  exact ⟨mem_insertNat.mpr (.inl rfl), Core.vaultSensor_shown c v t⟩

/-- A key that is not listed has nothing to erase. -/
theorem Store.erase_of_find_none {α : Type} {s : Store α} {k : Nat} (h : (s.find? fun e => e.1 = k) = none) : Store.erase s k = s := by
  rw [Store.erase_eq_filter, List.filter_eq_self]
  intro e he
  simpa using List.find?_eq_none.mp h e he

/-- A reading below 82 °C asks for no hot class, and its time runs from the first one. -/
theorem Core.vaultSensor_cool (ht : t < 1312) : (c.vaultSensor v t).pwr.sensorHot = c.pwr.sensorHot ∧
    (((c.vaultSensor v t).pwr.coolSince.find? fun e => e.1 = v) =
      ((c.pwr.coolSince.find? fun e => e.1 = v).or (some (v, c.now)))) := by
  have hclock := Core.now_vaultSensor c v t
  have hsince : (c.vaultSensor v t).pwr.coolSince =
      if c.pwr.coolSince.any fun e => e.1 = v then c.pwr.coolSince else Store.insert c.pwr.coolSince v (c.vaultSensor v t).now := if_pos ht
  refine ⟨if_neg (by omega), ?_⟩
  rw [hsince, hclock]
  cases hfind : c.pwr.coolSince.find? fun e => e.1 = v with
  | some e =>
    rw [if_pos (List.any_eq_true.mpr ⟨e, List.mem_of_find?_eq_some hfind, List.find?_some hfind⟩), hfind, Option.some_or]
  | none =>
    have herase := Store.erase_of_find_none hfind
    have hput := Store.find_put c.pwr.coolSince v v c.now
    rw [herase, if_pos rfl] at hput
    have habsent : ¬ (c.pwr.coolSince.any fun e => e.1 = v) = true := by
      rw [List.any_eq_true]
      rintro ⟨e, he, hkey⟩
      exact List.find?_eq_none.mp hfind e he hkey
    rw [if_neg habsent, hput, Option.none_or]

/-- Whether a vault whose sensor reads cool leaves the hot class, by when it became cool. -/
theorem Core.vaultHotExit_cool (hv : v < c.meadows) (ht : t < 1312)
    (hfind : ((c.vaultSensor v t).pwr.coolSince.find? fun e => e.1 = v) = some (v, t0)) : c.vaultHotExit v t =
      if t0 + nsN 1000000 ≤ c.now then
        { c.vaultSensor v t with pwr := { (c.vaultSensor v t).pwr with sensorHot := c.pwr.sensorHot.filter (· ≠ v) } }
      else c.vaultSensor v t := by
  unfold Core.vaultHotExit
  rw [if_neg (by simp [hv, ht])]
  dsimp only
  rw [hfind]
  dsimp only
  rw [Core.now_vaultSensor, (Core.vaultSensor_cool ht).1]

theorem Core.vaultHotExit_leaves (hv : v < c.meadows) (ht : t < 1312)
    (hfind : (c.pwr.coolSince.find? fun e => e.1 = v) = some (v, t0)) (hlong : t0 + nsN 1000000 ≤ c.now) :
    v ∉ (c.vaultHotExit v t).pwr.sensorHot ∧ (c.vaultHotExit v t).getF (aVlt v) 0 12 = unsigned 12 t := by
  obtain ⟨-, hsince⟩ := Core.vaultSensor_cool (c := c) (v := v) ht
  rw [hfind, Option.some_or] at hsince
  rw [Core.vaultHotExit_cool hv ht hsince, if_pos hlong]
  exact ⟨by simp [List.mem_filter], (Core.vaultSensor_shown c v t).1⟩

theorem Core.vaultHotExit_waits (hv : v < c.meadows) (ht : t < 1312) (hfind : (c.pwr.coolSince.find? fun e => e.1 = v) = none) :
    (c.vaultHotExit v t).pwr.sensorHot = c.pwr.sensorHot ∧
    ((c.vaultHotExit v t).pwr.coolSince.find? fun e => e.1 = v) = some (v, c.now) := by
  obtain ⟨hhot, hsince⟩ := Core.vaultSensor_cool (c := c) (v := v) ht
  rw [hfind, Option.none_or] at hsince
  have hshort : ¬ c.now + nsN 1000000 ≤ c.now := by
    have : 0 < nsN 1000000 := by decide
    omega
  rw [Core.vaultHotExit_cool hv ht hsince, if_neg hshort]
  exact ⟨hhot, hsince⟩

/-! ### Refresh and scrub -/

theorem Mem.poisoned_setPoison_self (m : Mem) (x : Nat) : (m.setPoison x).poisoned x = true :=
  List.contains_iff_mem.mpr (mem_insertNat.mpr (.inl rfl))

theorem Mem.poisoned_setPoison (m : Mem) (x y : Nat) (h : m.poisoned x = true) : (m.setPoison y).poisoned x = true :=
  List.contains_iff_mem.mpr (mem_insertNat.mpr (.inr (List.contains_iff_mem.mp h)))

theorem Mem.poisoned_setPoisons {ws : List Nat} (h : m.poisoned x = true ∨ x ∈ ws) :
    (ws.foldl (fun m w => m.setPoison w) m).poisoned x = true := by
  induction ws generalizing m with
  | nil => exact h.resolve_right (List.not_mem_nil)
  | cons w ws ih =>
    refine ih ?_
    rcases h with h | h
    · exact .inl (m.poisoned_setPoison x w h)
    · rcases List.mem_cons.mp h with rfl | h
      · exact .inl (m.poisoned_setPoison_self x)
      · exact .inr h

/-- A scrub keeps the bytes, poisons the words that cannot be corrected, and counts and logs on the memory's page. -/
theorem scrubWords_spec (hce : ∀ e, Changes [.regs, .cyc, .notices, .errSeq] e (ce e)) :
    (scrubWords m c x fix bad ce).1.bytes = m.bytes ∧
    Changes [.regs, .cyc, .notices, .errSeq] c (scrubWords m c x fix bad ce).2 ∧
    ∀ w ∈ bad, w < 8 → (scrubWords m c x fix bad ce).1.poisoned (x + 8 * w) = true := by
  unfold scrubWords
  extract_lets words good d
  have hd : Changes [.regs, .cyc, .notices, .errSeq] c d := .foldl (fun e _ => hce e) good c
  refine ⟨Mem.bytes_setPoisons words m, (hd.trans (.foldl (fun _ _ => changes_wordUe) words d)).mono rfl, fun w hw hlt => ?_⟩
  refine Mem.poisoned_setPoisons (.inr (List.mem_eraseDups.mpr (List.mem_append_left _ ?_)))
  exact List.mem_map_of_mem (List.mem_filter.mpr ⟨hw, decide_eq_true hlt⟩)

theorem changes_corrected {pg k i l : Nat} : Changes [.regs, .cyc, .notices, .errSeq] c (c.corrected pg k i l) :=
  (changes_bump.trans changes_logErr).mono rfl

/-- A vault has moved to its next row in this entry. -/
def Core.rowRefreshed (c : Core) (v : Nat) : Core :=
  let taken := Store.set c.fab.refresh 0 (1024 + v) (c.clk.vc + 1)
  { c with fab := { c.fab with refresh := Store.set taken 0 v ((Store.get c.fab.refresh 0 v + 1) % 65536) } }

/-- A vault's scrub has moved to its next line. -/
def Core.scrubMoved (c : Core) (v : Nat) : Core :=
  { c with fab := { c.fab with scrub := Store.set c.fab.scrub 0 v ((Store.get c.fab.scrub 0 v + 1) % vaultLines) } }

section
variable (hv : v < c.meadows) (hdue : c.clk.vc % 32 = 31 ∨ (c.clk.vc % 32 = 15 ∧ c.isHot v = true))
  (honce : Store.get c.fab.refresh 0 (1024 + v) ≠ c.clk.vc + 1)
include hv hdue honce

theorem refreshEntry_due : refreshEntry m c v fix bad =
    if !c.getB (aVltCfg (v / 32)) 0 then (m, c.rowRefreshed v)
    else scrubWords m ((c.rowRefreshed v).scrubMoved v)
      (aVault v (64 * scrubLine (Store.get c.fab.refresh 0 v) (Store.get c.fab.scrub 0 v))) fix bad fun e =>
        e.corrected (pVlt (v / 32)) (aVlt v + 8) v (scrubLine (Store.get c.fab.refresh 0 v) (Store.get c.fab.scrub 0 v)) := by
  unfold refreshEntry
  refine (if_neg ?_).trans rfl
  rcases hdue with h | ⟨h, hhot⟩
  · simp [hv, h, honce]
  · simp [hv, h, hhot, honce]

theorem refreshEntry_spec :
    (refreshEntry m c v fix bad).1.bytes = m.bytes ∧
    Store.get (refreshEntry m c v fix bad).2.fab.refresh 0 v = (Store.get c.fab.refresh 0 v + 1) % 65536 ∧
    (c.getB (aVltCfg (v / 32)) 0 = false → (refreshEntry m c v fix bad).1 = m ∧ (refreshEntry m c v fix bad).2.fab.scrub = c.fab.scrub ∧
      (refreshEntry m c v fix bad).2.regs = c.regs) ∧
    (c.getB (aVltCfg (v / 32)) 0 = true →
      Store.get (refreshEntry m c v fix bad).2.fab.scrub 0 v = (Store.get c.fab.scrub 0 v + 1) % vaultLines ∧
      ∀ w ∈ bad, w < 8 → (refreshEntry m c v fix bad).1.poisoned
        (aVault v (64 * scrubLine (Store.get c.fab.refresh 0 v) (Store.get c.fab.scrub 0 v)) + 8 * w) = true) := by
  rw [refreshEntry_due hv hdue honce]
  cases hscrub : c.getB (aVltCfg (v / 32)) 0
  · exact ⟨rfl, Store.get_set_self _ _ _ _, fun _ => ⟨rfl, rfl, rfl⟩, fun h => absurd h Bool.false_ne_true⟩
  · rw [if_neg (by decide)]
    obtain ⟨hbytes, hkeep, hpoison⟩ := scrubWords_spec (m := m) (c := (c.rowRefreshed v).scrubMoved v) (fix := fix) (bad := bad)
      (x := aVault v (64 * scrubLine (Store.get c.fab.refresh 0 v) (Store.get c.fab.scrub 0 v)))
      (ce := fun e => e.corrected (pVlt (v / 32)) (aVlt v + 8) v (scrubLine (Store.get c.fab.refresh 0 v) (Store.get c.fab.scrub 0 v)))
      (fun _ => changes_corrected)
    have hfab := hkeep .fab (by decide)
    generalize scrubWords m ((c.rowRefreshed v).scrubMoved v) _ fix bad _ = r at hbytes hfab hpoison
    have hfab : r.2.fab = ((c.rowRefreshed v).scrubMoved v).fab := hfab
    rw [hfab]
    exact ⟨hbytes, Store.get_set_self _ _ _ _, fun h => absurd h.symm Bool.false_ne_true, fun _ => ⟨Store.get_set_self _ _ _ _, hpoison⟩⟩

end

theorem lpmScrub_spec (hpart : c.getB (pLpm + 0x80) 8 = true) (hon : c.getB (pLpm + 0x80) 2 = true) (hline : 64 * line < c.lpmSize) :
    (lpmScrub m c line fix bad).1.bytes = m.bytes ∧ (lpmScrub m c line fix bad).2.fab = c.fab ∧
    ∀ w ∈ bad, w < 8 → (lpmScrub m c line fix bad).1.poisoned (lpmBase + 64 * line + 8 * w) = true := by
  unfold lpmScrub
  rw [if_neg (by simp [hpart, hon, hline])]
  obtain ⟨hbytes, hkeep, hpoison⟩ := scrubWords_spec (m := m) (c := c) (x := lpmBase + 64 * line) (fix := fix) (bad := bad)
    (ce := fun e => e.corrected pLpm (aChan (lpmChannel (64 * line))) (lpmChannel (64 * line)) (lpmOffset (64 * line) / 64))
    (fun _ => changes_corrected)
  exact ⟨hbytes, hkeep .fab (by decide), hpoison⟩

/-! ### Recalibration -/

theorem Core.lpmRecal_spec (hch : ch < 12) (hserv : c.service = true)
    (hold : ∀ t, (c.pwr.recal.find? fun e => e.1 = ch) = some (ch, t) → t + nsN 100000000 ≤ c.now) :
    ((c.lpmRecal ch).pwr.recal.find? fun e => e.1 = ch) = some (ch, c.now) ∧
    (c.frozenAt (aChan ch + 0x10) = false → (c.lpmRecal ch).rd (aChan ch + 0x10) = (c.rd (aChan ch + 0x10) + 1) % 2 ^ 48) := by
  have hrecal : c.lpmRecal ch =
      { c.bump (aChan ch + 0x10) with pwr := { c.pwr with recal := Store.insert (Store.erase c.pwr.recal ch) ch c.now } } := by
    unfold Core.lpmRecal
    refine if_neg ?_
    cases hfind : c.pwr.recal.find? fun e => e.1 = ch with
    | none => simp [hch, hserv]
    | some e =>
      obtain rfl : e.1 = ch := by simpa using List.find?_some hfind
      simpa [hch, hserv] using hold e.2 hfind
  rw [hrecal]
  refine ⟨?_, fun hfrozen => Core.rd_bump_self c _ hfrozen⟩
  exact (Store.find_put c.pwr.recal ch ch c.now).trans (if_pos rfl)

end Sys2Proof.Machine

open Sys2Proof Sys2Proof.Machine

theorem memoriesAreServed : Stated.MemoriesAreServed := by
  refine ⟨fun s v t hv => ⟨fun ht => ?_, fun ht t0 hfind hlong => ?_, fun ht hfind => ?_⟩, fun s a p v ha hp => ?_,
    fun s v fix bad hv hdue honce => ?_, fun s line fix bad hpart hon hline => ?_, fun s ch hch hserv hold => ?_⟩
  · exact (runs_iff (d := s.core.vaultHotEnter v t) rfl).mpr (Core.vaultHotEnter_spec hv ht)
  · exact (runs_iff (d := s.core.vaultHotExit v t) rfl).mpr (Core.vaultHotExit_leaves hv ht hfind hlong)
  · exact (runs_iff (d := s.core.vaultHotExit v t) rfl).mpr (Core.vaultHotExit_waits hv ht hfind)
  · rw [runs_iff (d := s.core.hVltCfg a p v.toNat) rfl, Core.hVltCfg, if_pos (by simp [isPriv_of_view ha, hp])]
    exact ⟨Core.getF_setF_self _ _ _ _ _ (by decide), fun b hb => Core.rd_setF_ne _ _ _ _ hb⟩
  · exact (runsDev_devStep (f := fun m c => refreshEntry m c v fix bad) rfl).mpr (refreshEntry_spec hv hdue honce)
  · exact (runsDev_devStep (f := fun m c => lpmScrub m c line fix bad) rfl).mpr (lpmScrub_spec hpart hon hline)
  · exact (runs_iff (d := s.core.lpmRecal ch) rfl).mpr (Core.lpmRecal_spec hch hserv hold)
end

