-- ==== Sys2Proof/Proofs/CensusCopies.lean ====
section
/-! PROOF. The census (R470 to R472): its request, and at its tick the copy of every page. -/

namespace Sys2Proof.Machine

variable {c d : Core} {a : Access} {p off t v : Nat}

/-! ### The request -/

/-- A census is armed for a tick. -/
def Core.withCensusArmed (c : Core) (v : Nat) : Core := { (c.wr 0x90 v).setF 0x98 1 1 0 with censusArmed := some v }

theorem Core.hCensusReq_arms (ha : a.view = .priv) (hfree : c.censusArmed = none) (hlead : c.lead200 v = true) :
    c.hCensusReq a v = c.withCensusArmed v := by
  unfold Core.hCensusReq
  rw [if_neg (by simp [isPriv_of_view ha]), if_neg (by simp [hfree, hlead])]
  rfl

theorem Core.rd_withCensusArmed (c : Core) (v b : Nat) : (c.withCensusArmed v).rd b = ((c.wr 0x90 v).setF 0x98 1 1 0).rd b := rfl

theorem Core.hCensusReq_rejects (ha : a.view = .priv) (h : c.censusArmed.isSome = true ∨ c.lead200 v = false) :
    c.hCensusReq a v = (c.raiseF 0x98 2).reject 0 0x90 v := by
  unfold Core.hCensusReq
  rw [if_neg (by simp [isPriv_of_view ha]), if_pos (by rcases h with h | h <;> simp [h])]

theorem Core.withCensusArmed_spec (c : Core) (hv : v < 2 ^ 64) : (c.withCensusArmed v).censusArmed = some v ∧
    (c.withCensusArmed v).rd 0x90 = v ∧ (c.withCensusArmed v).getB 0x98 1 = false := by
  refine ⟨rfl, ?_, ?_⟩
  · rw [Core.rd_withCensusArmed, Core.rd_setF_ne _ _ _ _ (by decide), Core.rd_wr_self, Nat.mod_eq_of_lt hv]
  · rw [Core.getB_of_rd (Core.rd_withCensusArmed c v _)]
    exact Core.getB_setF_self _ _ _ _ (by decide)

theorem Core.censusRejected_spec : ((c.raiseF 0x98 2).reject 0 0x90 v).censusArmed = c.censusArmed ∧
    ((c.raiseF 0x98 2).reject 0 0x90 v).census = c.census ∧ ((c.raiseF 0x98 2).reject 0 0x90 v).getB 0x98 2 = true := by
  have hframe : Changes [.regs, .cyc, .notices, .errSeq] c ((c.raiseF 0x98 2).reject 0 0x90 v) :=
    (changes_raiseF.trans changes_reject).mono rfl
  refine ⟨hframe .censusArmed (by decide), hframe .census (by decide), ?_⟩
  exact (Core.getB_of_rd (Core.rd_logErr_ne _ _ _ _ _ _ (by unfold LogTouches; decide))).trans (Core.getB_raiseF_self c _ _ (by decide))

/-! ### The pages -/

theorem Core.pages_aligned (h : p ∈ c.pages) : p % 0x1000 = 0 := by
  have hvlt : ∀ q ∈ (List.range c.plains).map pVlt, q % 0x1000 = 0 := by
    simp only [List.mem_map, pVlt]
    rintro _ ⟨i, -, rfl⟩
    omega
  have hpln : ∀ q ∈ (List.range c.plains).map pPln, q % 0x1000 = 0 := by
    simp only [List.mem_map, pPln]
    rintro _ ⟨i, -, rfl⟩
    omega
  have hmdw : ∀ q ∈ (List.range c.meadows).map pMdw, q % 0x1000 = 0 := by
    simp only [List.mem_map, pMdw]
    rintro _ ⟨i, -, rfl⟩
    omega
  simp only [Core.pages, List.append_assoc, List.mem_append] at h
  rcases h with h | h | h | h
  · exact (by decide : ∀ q ∈ [pDev, pTime, pPort, pSep, pComp, pComp1, pKey, pTask, pCap, pPass, pLpm, pCtl, pSec, pFlt, pPwr],
      q % 0x1000 = 0) p h
  · exact hvlt p h
  · exact hpln p h
  · exact hmdw p h

/-- The last register of a row lies on the page. -/
def RegRow.onPage (r : RegRow) : Bool := r.off + (r.count - 1) * r.stride < 0x1000

theorem off_lt_of_mem_rowOffs {r : RegRow} (hr : RegRow.onPage r = true) (h : off ∈ rowOffs r) : off < 0x1000 := by
  obtain ⟨i, hi, rfl⟩ := List.mem_map.mp h
  have hle : i * r.stride ≤ (r.count - 1) * r.stride := Nat.mul_le_mul_right _ (Nat.le_sub_one_of_lt (List.mem_range.mp hi))
  have := of_decide_eq_true hr
  omega

theorem blockRows_onPage (b : Block) : (blockRows b).all RegRow.onPage = true := by cases b <;> decide

theorem off_lt_of_mem_blockOffs {b : Block} (h : off ∈ blockOffs b) : off < 0x1000 := by
  obtain ⟨r, hr, hoff⟩ := List.mem_flatMap.mp h
  have hrows : ∀ k, r ∈ blockRows k → RegRow.onPage r = true := fun k hk => List.all_eq_true.mp (blockRows_onPage k) r hk
  refine off_lt_of_mem_rowOffs ?_ hoff
  rcases List.mem_append.mp hr with hr | hr
  · exact hrows .hdr (List.mem_filter.mp hr).1
  · cases b
    case mdw => exact (List.mem_append.mp hr).elim (hrows .mdw) (hrows .rgn)
    all_goals exact hrows _ hr

/-! ### The copy -/

/-- A table filled from a list in which a key stands with one value only. -/
theorem Store.get_foldl_set {α : Type} [DecidableEq α] {l : List (Nat × α)} {k : Nat} {x d : α} (s : Store α)
    (hone : ∀ e ∈ l, e.1 = k → e.2 = x) (h : Store.get s d k = x ∨ ∃ e ∈ l, e.1 = k) :
    Store.get (l.foldl (fun s e => Store.set s d e.1 e.2) s) d k = x := by
  induction l generalizing s with
  | nil => exact h.resolve_right fun ⟨e, he, _⟩ => absurd he List.not_mem_nil
  | cons e l ih =>
    refine ih _ (fun f hf => hone f (List.mem_cons_of_mem _ hf)) ?_
    by_cases hk : e.1 = k
    · left
      rw [← hone e (List.mem_cons_self ..) hk, ← hk]
      exact Store.get_set_self _ _ _ _
    · rcases h with h | ⟨f, hf, hfk⟩
      · exact .inl ((Store.get_set_ne _ _ _ (Ne.symm hk)).trans h)
      · exact .inr ⟨f, (List.mem_cons.mp hf).resolve_left fun e => hk (e ▸ hfk), hfk⟩

/-- What a census of tick t copies of a register of a page. -/
def Core.censusWord (c : Core) (t p off : Nat) : Nat := if off = 0x58 then t else c.readReg .priv (p + off)

theorem Core.pageCopy_of_block {b : Block} {i : Nat} (h : blockAt c.plains p = some (b, i)) : c.pageCopy t p =
    (blockOffs b).filterMap fun off =>
      if c.censusWord t p off % 2 ^ 64 = 0 then none else some (p + off, BitVec.ofNat 64 (c.censusWord t p off)) := by
  unfold Core.pageCopy
  rw [h]
  rfl

theorem Core.entry_of_mem_pageCopy {e : Nat × Word64} (h : e ∈ c.pageCopy t p) :
    ∃ off < 0x1000, e = (p + off, BitVec.ofNat 64 (c.censusWord t p off)) := by
  cases hblk : blockAt c.plains p with
  | none =>
    unfold Core.pageCopy at h
    rw [hblk] at h
    exact absurd h List.not_mem_nil
  | some x =>
    rw [Core.pageCopy_of_block (b := x.1) (i := x.2) hblk] at h
    obtain ⟨off, hoff, he⟩ := List.mem_filterMap.mp h
    refine ⟨off, off_lt_of_mem_blockOffs hoff, ?_⟩
    by_cases hzero : c.censusWord t p off % 2 ^ 64 = 0
    · rw [if_pos hzero] at he
      cases he
    · rw [if_neg hzero] at he
      exact (Option.some.inj he).symm

theorem Core.mem_pageCopy {b : Block} {i : Nat} (hblk : blockAt c.plains p = some (b, i)) (hoff : off ∈ blockOffs b)
    (hne : c.censusWord t p off % 2 ^ 64 ≠ 0) : (p + off, BitVec.ofNat 64 (c.censusWord t p off)) ∈ c.pageCopy t p := by
  rw [Core.pageCopy_of_block hblk]
  exact List.mem_filterMap.mpr ⟨off, hoff, if_neg hne⟩

/-- The copy that a census of tick t takes. -/
def Core.censusCopy (c : Core) (t : Nat) : Store Word64 :=
  (c.pages.flatMap (c.pageCopy t)).foldl (fun (s : Store Word64) e => Store.set s 0 e.1 e.2) []

theorem Core.censusCopy_dev (c : Core) (t : Nat) (hoff : off ∈ blockOffs .dev) (htick : off ≠ 0x58) :
    (Store.get (c.censusCopy t) 0 (pDev + off)).toNat = c.readReg .priv (pDev + off) % 2 ^ 64 := by
  have hlt := off_lt_of_mem_blockOffs hoff
  have hword : c.censusWord t pDev off = c.readReg .priv (pDev + off) := if_neg htick
  have hget : Store.get (c.censusCopy t) 0 (pDev + off) = BitVec.ofNat 64 (c.censusWord t pDev off) := by
    refine Store.get_foldl_set [] (fun e he hk => ?_) ?_
    · obtain ⟨p, hp, he⟩ := List.mem_flatMap.mp he
      obtain ⟨off', hlt', rfl⟩ := Core.entry_of_mem_pageCopy he
      have halign := Core.pages_aligned hp
      have hkey : p + off' = 0 + off := hk
      obtain rfl : p = pDev := by unfold pDev; omega
      obtain rfl : off' = off := by unfold pDev at hkey; omega
      rfl
    · by_cases hzero : c.censusWord t pDev off % 2 ^ 64 = 0
      · exact .inl (BitVec.eq_of_toNat_eq (by rw [BitVec.toNat_ofNat, hzero]; rfl)).symm
      · exact .inr ⟨_, List.mem_flatMap.mpr ⟨pDev, by simp [Core.pages], Core.mem_pageCopy rfl hoff hzero⟩, rfl⟩
  rw [hget, BitVec.toNat_ofNat, hword]

/-! ### The tick -/

/-- The census of the device at a tick, before the pages show it. -/
def Core.censusTaken (c : Core) (t : Nat) : Core :=
  ({ c.setF 0x98 1 1 1 with census := c.censusCopy t, censusArmed := none } : Core).cycSet aCensusNow 1

/-- CENSUS_TICK and event 2 of a page. -/
def Core.censusShown (t : Nat) (c : Core) (p : Nat) : Core := (c.wr (p + 0x58) t).event p 2

theorem Core.census_due (harm : c.censusArmed = some t) (hbegun : c.tickBegun t = true) :
    c.census_ = (c.censusTaken t).pages.foldl (Core.censusShown t) (c.censusTaken t) := by
  unfold Core.census_
  rw [harm]
  exact if_neg (by simp [hbegun])

theorem changes_censusShown : Changes [.regs, .cyc, .notices] c (c.censusShown t p) := (changes_wr.trans changes_event).mono rfl

theorem Core.rd_censusShown {b : Nat} (htick : b ≠ p + 0x58) (hpend : b ≠ p + 0x38) : (Core.censusShown t c p).rd b = c.rd b :=
  (Core.rd_event_ne _ _ hpend).trans (Core.rd_wr_ne c t htick)

theorem Core.rd_censusShown_self : (Core.censusShown t c p).rd (p + 0x58) = t % 2 ^ 64 :=
  (Core.rd_event_ne _ _ (by omega)).trans (Core.rd_wr_self c _ t)

/-- A page shows the tick and the event of a census, and the showing of another page leaves it so. -/
def Core.CensusOn (t : Nat) (c : Core) (p : Nat) : Prop := c.rd (p + 0x58) = t % 2 ^ 64 ∧ c.getB (p + 0x38) 2 = true

theorem Core.censusOn_self : Core.CensusOn t (Core.censusShown t c p) p :=
  ⟨Core.rd_censusShown_self, Core.getB_event_self _ _ _ (by decide)⟩

theorem Core.CensusOn.shown {q : Nat} (h : Core.CensusOn t c p) (hp : p % 0x1000 = 0) (hq : q % 0x1000 = 0) :
    Core.CensusOn t (Core.censusShown t c q) p := by
  by_cases hpq : p = q
  · exact hpq ▸ Core.censusOn_self
  · obtain ⟨htick, hpend⟩ := h
    have hrd : ∀ k, k < 0x1000 → (Core.censusShown t c q).rd (p + k) = c.rd (p + k) := fun k hk =>
      Core.rd_censusShown (by omega) (by omega)
    exact ⟨(hrd 0x58 (by decide)).trans htick, (Core.getB_of_rd (hrd 0x38 (by decide))).trans hpend⟩

theorem Core.censusShown_pages {ps : List Nat} (hps : ∀ q ∈ ps, q % 0x1000 = 0) (hp : p % 0x1000 = 0)
    (h : Core.CensusOn t c p ∨ p ∈ ps) : Core.CensusOn t (ps.foldl (Core.censusShown t) c) p := by
  induction ps generalizing c with
  | nil => exact h.resolve_right List.not_mem_nil
  | cons q ps ih =>
    refine ih (fun x hx => hps x (List.mem_cons_of_mem _ hx)) ?_
    rcases h with h | h
    · exact .inl (h.shown hp (hps q (List.mem_cons_self ..)))
    · rcases List.mem_cons.mp h with rfl | h
      · exact .inl Core.censusOn_self
      · exact .inr h

theorem Core.rd_censusShown_pages {ps : List Nat} {b : Nat} (hps : ∀ q ∈ ps, q % 0x1000 = 0) (hb : b % 0x1000 ≠ 0x58 ∧ b % 0x1000 ≠ 0x38) :
    (ps.foldl (Core.censusShown t) c).rd b = c.rd b := by
  induction ps generalizing c with
  | nil => rfl
  | cons q ps ih =>
    have hq := hps q (List.mem_cons_self ..)
    exact (ih fun x hx => hps x (List.mem_cons_of_mem _ hx)).trans (Core.rd_censusShown (by omega) (by omega))

theorem Core.pages_censusTaken (c : Core) (t : Nat) : (c.censusTaken t).pages = c.pages := by
  have hplains : (c.censusTaken t).plains = c.plains := Core.getF_of_rd (Core.rd_setF_ne c 1 1 1 (by decide))
  unfold Core.pages Core.meadows
  rw [hplains]

theorem Core.census_spec (harm : c.censusArmed = some t) (hbegun : c.tickBegun t = true) :
    c.census_.censusArmed = none ∧ c.census_.getB 0x98 1 = true ∧
    (∀ p ∈ c.pages, c.census_.rd (p + 0x58) = t % 2 ^ 64 ∧ c.census_.getB (p + 0x38) 2 = true) ∧
    (∀ off ∈ blockOffs .dev, off ≠ 0x58 →
      (Store.get c.census_.census 0 (pDev + off)).toNat = c.readReg .priv (pDev + off) % 2 ^ 64) := by
  rw [Core.census_due harm hbegun, Core.pages_censusTaken]
  have hframe : Changes [.regs, .cyc, .notices] (c.censusTaken t) (c.pages.foldl (Core.censusShown t) (c.censusTaken t)) :=
    .foldl (fun _ _ => changes_censusShown) _ _
  have haligned : ∀ q ∈ c.pages, q % 0x1000 = 0 := fun _ => Core.pages_aligned
  have hcensus : (c.pages.foldl (Core.censusShown t) (c.censusTaken t)).census = c.censusCopy t := hframe .census (by decide)
  refine ⟨hframe .censusArmed (by decide), ?_, fun p hp => Core.censusShown_pages haligned (haligned p hp) (.inr hp), fun off hoff htick => ?_⟩
  · rw [Core.getB_of_rd (Core.rd_censusShown_pages haligned (by decide))]
    exact Core.getB_setF_self c _ _ _ (by decide)
  · rw [hcensus]
    exact Core.censusCopy_dev c t hoff htick

end Sys2Proof.Machine

open Sys2Proof Sys2Proof.Machine

theorem censusIsTaken : Stated.CensusIsTaken := by
  refine ⟨fun s a v ha => ⟨fun hfree hlead => ?_, fun h => ?_⟩, fun s t harm hbegun => ?_⟩
  · rw [runs_iff (d := s.core.hCensusReq a v.toNat) rfl, Core.hCensusReq_arms ha hfree hlead]
    exact Core.withCensusArmed_spec s.core v.isLt
  · rw [runs_iff (d := s.core.hCensusReq a v.toNat) rfl, Core.hCensusReq_rejects ha h]
    exact Core.censusRejected_spec
  · exact (runs_iff (d := s.core.census_) rfl).mpr (Core.census_spec harm hbegun)

/-- Settles O41: the memories in service, and the census. -/
theorem memoriesAndCensus : Obligations.MemoriesAndCensus := ⟨memoriesAreServed, censusIsTaken⟩
end

