-- ==== Sys2Proof/Proofs/PagesNotices.lean ====
section
/-! PROOF. Page control and block resets (R458, R461, R462), notices and the head of the error log (R465, R469). -/

namespace Sys2Proof.Machine

variable {c d : Core} {a : Access} {b : Block} {i p page v id n : Nat} {x : Sess}

/-! ### Writes of PAGE_CTRL -/

theorem pageOf_mod (a : Nat) : pageOf a % 0x1000 = 0 := by
  unfold pageOf
  omega

/-- Whether a block is idle is not read from a PAGE_CTRL register. -/
theorem Core.blockIdle_setF (hp : p % 0x1000 = 0) (lo w x : Nat) (b : Block) (i : Nat) :
    (c.setF (p + 0x18) lo w x).blockIdle b i = c.blockIdle b i := by
  have hget : ∀ a l k, a % 0x1000 ≠ 0x18 → (c.setF (p + 0x18) lo w x).getF a l k = c.getF a l k := fun a l k ha =>
    Core.getF_setF_ne c _ _ _ _ _ (by omega)
  have hlane : (c.setF (p + 0x18) lo w x).laneState = c.laneState := funext fun l => hget _ _ _ (by unfold pPass; omega)
  have hmdw : (c.setF (p + 0x18) lo w x).rgnField i = c.rgnField i := hget _ _ _ (by unfold pMdw; omega)
  have hrgn : (c.setF (p + 0x18) lo w x).rgn = c.rgn := rfl
  have hrpl : (c.setF (p + 0x18) lo w x).getB aRplStat 0 = c.getB aRplStat 0 := by
    rw [Core.getB_eq_getF, hget _ _ _ (by decide), Core.getB_eq_getF]
  unfold Core.blockIdle
  rw [hrgn, hlane, hmdw, hrpl, hget _ _ _ (by decide)]
  rfl

theorem Core.rd_reject_ctrl (c : Core) (p off v : Nat) : (c.reject p off v).rd (p + 0x18) = c.rd (p + 0x18) :=
  Core.rd_logErr_ne _ _ _ _ _ _ (by unfold LogTouches; omega)

/-- A write of EN leaves it where it is fixed, and where the block that is to be disabled works; FREEZE stays. -/
theorem Core.setEn_spec (hp : p % 0x1000 = 0) : (c.setEn b i p v).getB (p + 0x18) 2 = c.getB (p + 0x18) 2 ∧
    (c.setEn b i p v).en p = (if enFixed b = true ∨ (bit v 0 = false ∧ c.blockIdle b i = false) then c.en p else bit v 0) := by
  unfold Core.setEn
  by_cases hfixed : enFixed b = true
  · rw [if_pos (by simp [hfixed]), if_pos (.inl hfixed)]
    exact ⟨rfl, rfl⟩
  by_cases hsame : c.en p = bit v 0
  · rw [if_pos (by simp [hsame]), hsame, ite_self]
    exact ⟨rfl, rfl⟩
  rw [if_neg (by simp [hfixed, hsame])]
  by_cases hworks : bit v 0 = false ∧ c.blockIdle b i = false
  · rw [if_pos (by simp [hworks.1, hworks.2]), if_pos (.inr hworks)]
    exact ⟨Core.getB_of_rd (Core.rd_reject_ctrl c p _ v), Core.getB_of_rd (Core.rd_reject_ctrl c p _ v)⟩
  · rw [if_neg (by simpa using hworks), if_neg (by simp only [not_or]; exact ⟨hfixed, hworks⟩)]
    have hrd : ∀ d : Core, d.rd (p + 0x18) = (c.setF (p + 0x18) 0 1 v).rd (p + 0x18) →
        d.getB (p + 0x18) 2 = c.getB (p + 0x18) 2 ∧ d.en p = bit v 0 := fun d hd =>
      ⟨(Core.getB_of_rd hd).trans (Core.getB_setF_apart c _ _ _ _ _ (by decide) (by decide)),
        (Core.getB_of_rd hd).trans ((Core.getB_setF_self c _ 0 v (by decide)).trans (by rw [bit, pow_zero, Nat.div_one]))⟩
    refine hrd _ ?_
    split
    · exact Core.rd_laneSyncs fun l e => by have := aLaneStat_mod l; omega
    · rfl

section
variable (ha : a.view = .priv) (hblk : blockAt c.plains p = some (b, i)) (hrgn : b ≠ .rgn) (hp : p % 0x1000 = 0)
include ha hblk hrgn

theorem Core.hPageCtrl_eq : c.hPageCtrl a p v = (if bit v 1 then
    ((c.setF (p + 0x18) 2 1 (v / 4)).setEn b i p v).beginReset b p v else (c.setF (p + 0x18) 2 1 (v / 4)).setEn b i p v) := by
  unfold Core.hPageCtrl
  rw [hblk]
  exact if_neg (by simp [isPriv_of_view ha, hrgn])

include hp

theorem Core.hPageCtrl_spec (hreset : bit v 1 = false) : (c.hPageCtrl a p v).getB (p + 0x18) 2 = bit v 2 ∧
    (c.hPageCtrl a p v).en p =
      (if enFixed b = true ∨ (bit v 0 = false ∧ c.blockIdle b i = false) then c.en p else bit v 0) := by
  obtain ⟨hfreeze, hen⟩ := Core.setEn_spec (c := c.setF (p + 0x18) 2 1 (v / 4)) (b := b) (i := i) (v := v) hp
  have hkept : (c.setF (p + 0x18) 2 1 (v / 4)).en p = c.en p := Core.getB_setF_apart c _ _ _ _ _ (by decide) (by decide)
  rw [Core.blockIdle_setF hp, hkept] at hen
  rw [Core.hPageCtrl_eq ha hblk hrgn, if_neg (by simp [hreset])]
  exact ⟨hfreeze.trans (Core.getB_setF_self c _ 2 _ (by decide)), hen⟩

end

/-! ### Block resets -/

/-- A field written with what it holds leaves the word. -/
theorem setBits_same {lo w x : Nat} (h : x % 2 ^ w = v / 2 ^ lo % 2 ^ w) : setBits v lo w x = v := by
  rw [setBits, h]
  exact Nat.sub_add_cancel ((Nat.mul_le_mul_right _ (Nat.mod_le _ _)).trans (Nat.div_mul_le_self _ _))

/-- The write of BLK_RESET: the register's word with the bit set. -/
theorem Core.hPageCtrl_reset (ha : a.view = .priv) (hblk : blockAt c.plains p = some (b, i)) (hrgn : b ≠ .rgn) :
    ∃ d : Core, d.rd (p + 0x18) = c.rd (p + 0x18) ∧
      c.hPageCtrl a p (setBits (c.rd (p + 0x18)) 1 1 1) = d.beginReset b p (setBits (c.rd (p + 0x18)) 1 1 1) := by
  generalize hw : setBits (c.rd (p + 0x18)) 1 1 1 = w
  have hbit : bit w 1 = true := hw ▸ bit_setBits_one _ 1
  have hen : c.en p = bit w 0 := by
    have hfield := setBits_field_below (c.rd (p + 0x18)) 1 1 1 0 1 (by decide)
    rw [pow_zero, Nat.div_one, Nat.div_one, pow_one, hw] at hfield
    rw [bit, pow_zero, Nat.div_one, hfield, Core.en, Core.getB, Core.getF, pow_zero, Nat.div_one, pow_one]
  have hfreeze : w / 4 % 2 ^ 1 = c.rd (p + 0x18) / 2 ^ 2 % 2 ^ 1 := by
    have habove := setBits_above (c.rd (p + 0x18)) 1 1 1 2 (by decide)
    rw [hw] at habove
    exact congrArg (· % 2 ^ 1) habove
  have hkept : (c.setF (p + 0x18) 2 1 (w / 4)).rd (p + 0x18) = c.rd (p + 0x18) :=
    (Core.rd_setF_self c _ 2 1 _ (by decide)).trans (setBits_same hfreeze)
  have hstays : (c.setF (p + 0x18) 2 1 (w / 4)).setEn b i p w = c.setF (p + 0x18) 2 1 (w / 4) := by
    unfold Core.setEn
    rw [Core.en, Core.getB_of_rd hkept]
    exact if_pos (by simpa using .inr hen)
  refine ⟨c.setF (p + 0x18) 2 1 (w / 4), hkept, ?_⟩
  rw [Core.hPageCtrl_eq ha hblk hrgn, if_pos hbit, hstays]

theorem Core.beginReset_takes (hfixed : enFixed b = false) (hen : c.en p = false) :
    (c.beginReset b p v).getB (p + 0x18) 1 = true ∧ (c.beginReset b p v).en p = false := by
  have htake : c.beginReset b p v = c.setF (p + 0x18) 1 1 1 := if_neg (by simp [hfixed, hen])
  rw [htake]
  exact ⟨Core.getB_setF_self c _ 1 1 (by decide), (Core.getB_setF_apart c _ _ _ _ _ (by decide) (by decide)).trans hen⟩

theorem Core.beginReset_refuses (h : enFixed b = true ∨ c.en p = true) : (c.beginReset b p v).rd (p + 0x18) = c.rd (p + 0x18) := by
  have hrefuse : c.beginReset b p v = c.reject p 0x18 v := if_pos (by simpa using h)
  rw [hrefuse, Core.rd_reject_ctrl]

/-- Behind the registers of a page that is not a meadow's no register is cleared. -/
theorem Core.clearBlock_regs (hb : b ≠ .mdw) : (c.clearBlock b i).regs = c.regs := by
  have hreplay : ∀ gs : List Nat, (gs.foldl (fun c g => c.modRgn g fun r => { r with replay := false, delta := 0 }) c).regs = c.regs := fun gs =>
    (Changes.foldl (l := [.rgns]) (fun _ _ => changes_modRgn) gs c) .regs (by decide)
  cases b
  case mdw => exact absurd rfl hb
  case sep =>
    simp only [Core.clearBlock]
    exact hreplay _
  all_goals rfl

theorem mdw_page (h : blockAt n p = some (.mdw, i)) : 0x100000 ≤ p := by
  unfold blockAt at h
  extract_lets pg at h
  have hpage : pg = p / 0x1000 := rfl
  clear_value pg
  simp only [ite_eq_iff, Option.some.injEq, Prod.mk.injEq, reduceCtorEq, false_and, and_false, false_or, or_false] at h
  omega

/-- Armed caps are registers of the composer's page. -/
theorem capArmed_off_comp {e : Nat × Word64} (h : 0x100000 ≤ e.1) : capArmed e = false := by
  refine Bool.eq_false_iff.mpr fun harmed => ?_
  unfold capArmed at harmed
  rw [Bool.and_eq_true, Bool.and_eq_true] at harmed
  have hhi := of_decide_eq_true harmed.1.2
  unfold pComp at hhi
  omega

/-- A register that is not listed reads its reset value. -/
theorem Core.rd_of_not_listed (h : ∀ e ∈ c.regs, e.1 ≠ n) : c.rd n = rstWord n % 2 ^ 64 := by
  have hget : Store.get c.regs (BitVec.ofNat 64 (rstWord n)) n = BitVec.ofNat 64 (rstWord n) := Store.get_of_not_mem _ h
  rw [Core.rd, hget, BitVec.toNat_ofNat]

/-- The registers of a block after its reset. -/
def Core.blockCleared (c : Core) (b : Block) (i p : Nat) : Core :=
  { c.clearBlock b i with regs := (c.clearBlock b i).regs.filter fun (e : Nat × Word64) => !ownedBy p e.1 || measuredAt e.1 || Machine.capArmed e }

theorem Core.blockResetDone_due (hblk : blockAt c.plains p = some (b, i)) (hrgn : b ≠ .rgn) (hfixed : enFixed b = false) (hcomp : b ≠ .comp1)
    (hbusy : c.getB (p + 0x18) 1 = true) : c.blockResetDone p = (c.blockCleared b i p).setF (p + 0x18) 1 1 0 := by
  unfold Core.blockResetDone
  rw [hblk]
  dsimp only
  rw [if_neg (by simp [hfixed, hrgn, hbusy]), if_neg hcomp]
  rfl

theorem Core.rd_blockCleared {off : Nat} (hblk : blockAt c.plains p = some (b, i)) (hp : p % 0x1000 = 0) (hlo : 0x80 ≤ off) (hhi : off < 0xF00)
    (hmeasured : measuredAt (p + off) = false) (harmed : ∀ e ∈ c.regs, e.1 = p + off → Machine.capArmed e = false) :
    (c.blockCleared b i p).rd (p + off) = rstWord (p + off) % 2 ^ 64 := by
  have howned : ownedBy p (p + off) = true := by
    have hpage : pageOf (p + off) = p := by unfold pageOf; omega
    have hoff : (p + off) % 0x1000 = off := by omega
    simp [ownedBy, hpage, hoff, hlo, hhi]
  have hkept : ∀ e ∈ (c.clearBlock b i).regs, e.1 = p + off → Machine.capArmed e = false := by
    intro e he hkey
    by_cases hb : b = .mdw
    · subst hb
      have := mdw_page hblk
      exact capArmed_off_comp (by omega)
    · rw [Core.clearBlock_regs hb] at he
      exact harmed e he hkey
  refine Core.rd_of_not_listed fun e he hkey => ?_
  obtain ⟨hmem, hkeep⟩ := List.mem_filter.mp he
  rw [hkept e hmem hkey, hkey, howned, hmeasured] at hkeep
  exact absurd hkeep (by decide)

theorem Core.blockResetDone_spec (hblk : blockAt c.plains p = some (b, i)) (hp : p % 0x1000 = 0) (hrgn : b ≠ .rgn) (hfixed : enFixed b = false)
    (hcomp : b ≠ .comp1) (hbusy : c.getB (p + 0x18) 1 = true) : (c.blockResetDone p).getB (p + 0x18) 1 = false ∧
    ∀ off, 0x80 ≤ off → off < 0xF00 → measuredAt (p + off) = false → (∀ e ∈ c.regs, e.1 = p + off → Machine.capArmed e = false) →
      (c.blockResetDone p).rd (p + off) = rstWord (p + off) % 2 ^ 64 := by
  rw [Core.blockResetDone_due hblk hrgn hfixed hcomp hbusy]
  refine ⟨Core.getB_setF_self _ _ 1 0 (by decide), fun off hlo hhi hmeasured harmed => ?_⟩
  rw [Core.rd_setF_ne _ _ _ _ (by omega)]
  exact Core.rd_blockCleared hblk hp hlo hhi hmeasured harmed

/-! ### The head of the log -/

/-- Logging an error leaves HEAD. -/
theorem Core.getF_logLost_head (c : Core) (p cls : Nat) : (c.logLost p cls).getF (p + 0x48) 0 4 = c.getF (p + 0x48) 0 4 := by
  refine Core.getF_of_rd ?_
  rw [Core.logLost, Core.rd_event_ne _ _ (by omega), Core.rd_mark, Core.rd_setF_ne _ _ _ _ (by omega)]
  split
  · rfl
  · exact Core.rd_setF_ne _ _ _ _ (by omega)

theorem Core.rd_logFill_head (c : Core) (p k w x : Nat) : (c.logFill p k w x).rd (p + 0x48) = c.rd (p + 0x48) := by
  rw [Core.logFill, Core.rd_wr_ne _ _ (by unfold aLog; omega), Core.rd_wr_ne _ _ (by unfold aLog; omega)]

theorem Core.rd_logSink_head (c : Core) (p k n : Nat) : (c.logSink p k n).rd (p + 0x48) = c.rd (p + 0x48) := by
  induction n generalizing c k with
  | zero => rfl
  | succ n ih =>
    rw [Core.logSink]
    split
    · rw [ih, Core.rd_logFill_head, Core.rd_logFill_head]
    · rfl

theorem Core.getF_logPut_head (c : Core) (p q cls code sub src d u hd tl : Nat) :
    (c.logPut p q cls code sub src d u hd tl).getF (p + 0x48) 0 4 = c.getF (p + 0x48) 0 4 := by
  rw [Core.logPut, Core.getF_event_ne _ _ _ _ (by omega), Core.getF_setF_apart _ _ _ _ _ _ _ (by decide) (by decide)]
  refine Core.getF_of_rd ?_
  rw [Core.rd_wr_ne _ _ (by omega), Core.rd_wr_ne _ _ (by omega), Core.rd_wr_ne _ _ (by omega), Core.rd_wr_ne _ _ (by omega)]

theorem Core.getF_logErr_head (c : Core) (p cls code sub src d : Nat) :
    (c.logErr p cls code sub src d).getF (p + 0x48) 0 4 = c.getF (p + 0x48) 0 4 := by
  rw [Core.logErr]
  split
  · split
    · rw [Core.getF_logLost_head, Core.getF_of_rd (Core.rd_logSink_head _ _ _ _), Core.getF_of_rd (Core.rd_logFill_head _ _ _ _ _)]
      rfl
    · rw [Core.getF_logLost_head]
      rfl
  · rw [Core.getF_of_rd (Core.rd_logSink_head _ _ _ _), Core.getF_logPut_head]
    rfl

theorem Core.hErrHead_moves (ha : a.view = .priv)
    (h : (v % 16 + 16 - c.getF (p + 0x48) 0 4) % 16 ≤ (c.getF (p + 0x48) 8 4 + 16 - c.getF (p + 0x48) 0 4) % 16) :
    (c.hErrHead a p v).getF (p + 0x48) 0 4 = v % 16 ∧ (c.hErrHead a p v).getF (p + 0x48) 8 4 = c.getF (p + 0x48) 8 4 ∧
    Stated.OnlyReg c (c.hErrHead a p v) (p + 0x48) := by
  have hmove : c.hErrHead a p v = c.setF (p + 0x48) 0 4 v := by
    unfold Core.hErrHead
    rw [if_neg (by simp [isPriv_of_view ha])]
    exact if_pos h
  rw [hmove]
  exact ⟨Core.getF_setF_self _ _ _ _ _ (by decide), Core.getF_setF_apart _ _ _ _ _ _ _ (by decide) (by decide),
    fun b hb => Core.rd_setF_ne _ _ _ _ hb⟩

theorem Core.hErrHead_stays (ha : a.view = .priv)
    (h : (c.getF (p + 0x48) 8 4 + 16 - c.getF (p + 0x48) 0 4) % 16 < (v % 16 + 16 - c.getF (p + 0x48) 0 4) % 16) :
    (c.hErrHead a p v).getF (p + 0x48) 0 4 = c.getF (p + 0x48) 0 4 := by
  have hreject : c.hErrHead a p v = c.reject p 0x48 v := by
    unfold Core.hErrHead
    rw [if_neg (by simp [isPriv_of_view ha])]
    exact if_neg (Nat.not_le.mpr h)
  rw [hreject]
  exact Core.getF_logErr_head _ _ _ _ _ _ _

/-! ### Notices -/

theorem Core.sess_setSess (c : Core) (s : Nat) (x : Sess) : (c.setSess s x).sess s = some x := by
  rw [Core.sess, show (c.setSess s x).kwn.sess = Store.insert (Store.erase c.kwn.sess s) s x from rfl, Store.find_put, if_pos rfl]
  rfl

/-- A sequenced message goes out with the session's next number and its ACK. -/
theorem Core.sendTo_out {s type ref : Nat} {body : List Byte} {e : Option Nat} (hx : c.sess s = some x) :
    (c.sendTo s type ref body e).out = c.out ++ [.msg s type 1 ref ((x.txSeq + 1) % 2 ^ 32) x.rxSeq body] := by
  unfold Core.sendTo
  rw [hx]
  dsimp only [Core.message, Core.setSess]
  split <;> rfl

/-- Stream entries that fit go out behind the number of those lost. -/
theorem Core.sendEntries_out {s type : Nat} {l : List (List Byte)} (hx : c.sess s = some x) (hfit : x.fits (8 + l.flatten.length) = true) :
    (c.sendEntries s type l).out = c.out ++ [.msg s type 1 0 ((x.txSeq + 1) % 2 ^ 32) x.rxSeq
      (toLe 4 (Store.get x.lost 0 type) ++ [BitVec.ofNat 8 l.length, 0, 0, 0] ++ l.flatten)] := by
  have hlen : (toLe 4 (Store.get x.lost 0 type) ++ [BitVec.ofNat 8 l.length, 0, 0, 0] ++ l.flatten).length = 8 + l.flatten.length := by
    simp only [List.length_append, length_toLe, List.length_cons, List.length_nil]
  unfold Core.sendEntries
  rw [hx]
  dsimp only
  rw [hlen, if_pos hfit, Core.sendTo_out (Core.sess_setSess _ _ _)]
  rfl

theorem length_noticeBytes (c : Core) (p k w : Nat) : (c.noticeBytes p k w).length = 32 := by
  simp only [Core.noticeBytes, List.length_append, length_toLe, List.length_cons, List.length_nil]

theorem Core.pageNotice_waits {t : Nat} (hlast : (p, t) ∈ c.noticeAt) (hsoon : c.now < t + nsN 1000) : c.pageNotice p = c := by
  have hwait : c.noticeWaits p = true := by
    unfold Core.noticeWaits
    rw [Bool.or_eq_true, List.any_eq_true]
    exact .inr ⟨(p, t), hlast, by simpa using hsoon⟩
  exact if_pos (by rw [hwait, Bool.true_or])

/-- The notice of a page is no longer due. -/
def Core.noticeTaken (c : Core) (p : Nat) : Core := { c with notices := c.notices.filter (· ≠ p) }

/-- The notice of a page is built now. -/
def Core.noticeBuilt (c : Core) (p : Nat) : Core :=
  { c.noticeTaken p with noticeAt := Store.insert (Store.erase c.noticeAt p) p c.now }

theorem Core.not_mem_noticeTaken (c : Core) (p : Nat) : p ∉ (c.noticeTaken p).notices := fun h =>
  of_decide_eq_true (List.mem_filter.mp h).2 rfl

section
variable (hdue : p ∈ c.notices) (hlast : ∀ t, (p, t) ∈ c.noticeAt → t + nsN 1000 ≤ c.now)
  (hfirst : ∀ q ∈ c.notices, q < p → c.noticeWaits q = true)
include hdue hlast hfirst

theorem Core.pageNotice_due : c.pageNotice p = (if c.rd (p + 0x38) &&& c.rd (p + 0x30) = 0 then c.noticeTaken p else
    ((c.noticeBuilt p).sessWhere fun x => bit x.streams 0).foldl
      (fun d s => d.sendEntries s 0x30 [d.noticeBytes p 1 (d.rd (p + 0x38))]) (c.noticeBuilt p)) := by
  have hready : c.noticeWaits p = false := by
    have hnow : ¬ ∃ e ∈ c.noticeAt, (decide (e.1 = p) && decide (c.now < e.2 + nsN 1000)) = true := by
      rintro ⟨⟨q, t⟩, he, hsoon⟩
      rw [Bool.and_eq_true] at hsoon
      obtain rfl : q = p := of_decide_eq_true hsoon.1
      exact absurd (of_decide_eq_true hsoon.2) (Nat.not_lt.mpr (hlast t he))
    unfold Core.noticeWaits
    rw [List.contains_iff_mem.mpr hdue, Bool.not_true, Bool.false_or, ← Bool.not_eq_true, List.any_eq_true]
    exact hnow
  have hlower : (c.notices.any fun q => q < p && !c.noticeWaits q) = false := by
    rw [← Bool.not_eq_true, List.any_eq_true]
    rintro ⟨q, hq, hqp⟩
    rw [Bool.and_eq_true] at hqp
    have hwait := hfirst q hq (of_decide_eq_true hqp.1)
    rw [hwait] at hqp
    exact Bool.false_ne_true hqp.2
  unfold Core.pageNotice
  rw [if_neg (by rw [hready, hlower]; decide)]
  rfl

theorem Core.pageNotice_unwanted (hnone : c.rd (p + 0x38) &&& c.rd (p + 0x30) = 0) :
    p ∉ (c.pageNotice p).notices ∧ (c.pageNotice p).out = c.out := by
  rw [Core.pageNotice_due hdue hlast hfirst, if_pos hnone]
  exact ⟨c.not_mem_noticeTaken p, rfl⟩

theorem Core.pageNotice_sent (hsome : c.rd (p + 0x38) &&& c.rd (p + 0x30) ≠ 0) (hwho : (c.sessWhere fun x => bit x.streams 0) = [id])
    (hx : c.sess id = some x) (hfit : x.fits 40 = true) : p ∉ (c.pageNotice p).notices ∧
    (c.pageNotice p).out = c.out ++ [.msg id 0x30 1 0 ((x.txSeq + 1) % 2 ^ 32) x.rxSeq
      (toLe 4 (Store.get x.lost 0 0x30) ++ [1, 0, 0, 0] ++ c.noticeBytes p 1 (c.rd (p + 0x38)))] := by
  have hsent : c.pageNotice p = (c.noticeBuilt p).sendEntries id 0x30 [c.noticeBytes p 1 (c.rd (p + 0x38))] := by
    rw [Core.pageNotice_due hdue hlast hfirst, if_neg hsome]
    change ((c.sessWhere fun x => bit x.streams 0).foldl _ _ : Core) = _
    rw [hwho]
    rfl
  rw [hsent, Core.sendEntries_out (c := c.noticeBuilt p) hx (by simpa [length_noticeBytes] using hfit)]
  refine ⟨?_, by simp [Core.noticeBuilt, Core.noticeTaken]⟩
  rw [show ((c.noticeBuilt p).sendEntries id 0x30 [c.noticeBytes p 1 (c.rd (p + 0x38))]).notices = (c.noticeTaken p).notices from
    changes_sendEntries .notices (by decide)]
  exact c.not_mem_noticeTaken p

end

end Sys2Proof.Machine

open Sys2Proof Sys2Proof.Machine

theorem pagesAreControlled : Stated.PagesAreControlled := by
  refine ⟨fun s a page v b i ha hblk hrgn hreset => ?_, fun s a page b i ha hblk hrgn => ?_⟩
  · have hspec := Core.hPageCtrl_spec ha hblk hrgn (pageOf_mod page) hreset
    exact ⟨(runs_iff (d := s.core.hPageCtrl a (pageOf page) v.toNat) rfl).mpr hspec,
      (runs_iff (d := s.core.hPageCtrl a (pageOf page) v.toNat) rfl).mpr hspec⟩
  · obtain ⟨d, hd, hreset⟩ := Core.hPageCtrl_reset ha hblk hrgn
    have hen : d.en (pageOf page) = s.core.en (pageOf page) := Core.getB_of_rd hd
    refine ⟨fun hfixed hoff => ?_, fun h => ?_, fun hfixed hcomp hbusy => ?_⟩
    · rw [runs_iff (d := s.core.hPageCtrl a (pageOf page) (setBits (s.core.rd (pageOf page + 0x18)) 1 1 1)) rfl, hreset]
      exact Core.beginReset_takes hfixed (hen.trans hoff)
    · rw [runs_iff (d := s.core.hPageCtrl a (pageOf page) (setBits (s.core.rd (pageOf page + 0x18)) 1 1 1)) rfl, hreset]
      exact (Core.beginReset_refuses (hen ▸ h)).trans hd
    · exact (runs_iff (d := s.core.blockResetDone (pageOf page)) rfl).mpr
        (Core.blockResetDone_spec hblk (pageOf_mod page) hrgn hfixed hcomp hbusy)

theorem noticesAndLogHead : Stated.NoticesAndLogHead := by
  refine ⟨fun s page hdue => ⟨fun t hlast hsoon => ?_, fun hlast hfirst => ⟨fun hnone => ?_, fun hsome id x hwho hx hfit => ?_⟩⟩,
    fun s a page v b i ha hblk => ?_⟩
  · exact (runs_iff (d := s.core.pageNotice (pageOf page)) rfl).mpr (Core.pageNotice_waits hlast hsoon)
  · exact (runs_iff (d := s.core.pageNotice (pageOf page)) rfl).mpr (Core.pageNotice_unwanted hdue hlast hfirst hnone)
  · exact (runs_iff (d := s.core.pageNotice (pageOf page)) rfl).mpr (Core.pageNotice_sent hdue hlast hfirst hsome hwho hx hfit)
  · have hrun : exec (.errHeadWrite a page v) s = .next { s with core := s.core.hErrHead a (pageOf page) v.toNat } := by
      show Host.Outcome.next { s with core := if (blockAt s.core.plains page).isSome then _ else _ } = _
      rw [hblk]
      rfl
    exact ⟨fun h => (runs_iff hrun).mpr (Core.hErrHead_moves ha h), fun h => (runs_iff hrun).mpr (Core.hErrHead_stays ha h)⟩

/-- Settles O46: page control and block resets, then notices and the head of the log. -/
theorem pagesAndNotices : Obligations.PagesAndNotices := ⟨pagesAreControlled, noticesAndLogHead⟩
end

