-- ==== Sys2Proof/Proofs/Mailbox.lean ====
section
/-! PROOF. The security mailbox (R493 to R496, R498): its bytes, its holder, and what each command answers. -/

namespace Sys2Proof.Machine

variable {m : Mem} {c d : Core} {s id op o k n t a : Nat}

/-! ### Bytes -/

theorem slice_append_left {l r : List Byte} (h : o + n ≤ l.length) : slice (l ++ r) o n = slice l o n := by
  unfold slice
  rw [List.drop_append_of_le_length (by omega), List.take_append_of_le_length (by rw [List.length_drop]; omega),
    show n - ((l ++ r).length - o) = 0 by rw [List.length_append]; omega, show n - (l.length - o) = 0 by omega]

theorem fld_append_left {l r : List Byte} (h : o + n ≤ l.length) : fld (l ++ r) o n = fld l o n := by
  rw [fld, slice_append_left h, fld]

theorem splice_whole {l b : List Byte} (h : b.length = l.length) : splice l 0 b = b := by
  rw [splice, List.take_zero, List.nil_append, Nat.zero_add, ← h, List.take_append_of_le_length (Nat.le_refl _), List.take_length]

theorem length_shake256 (b : List Byte) : (shake256 b).length = 32 := by
  simp only [shake256, List.length_flatMap, length_toLe]
  rfl

/-! ### The mailbox's registers -/

/-- Register k of the mailbox after its word was written from bytes that fill it. -/
theorem mbxWord_full (c : Core) (b : List Byte) (h : 8 * k + 8 ≤ b.length) :
    (c.wr (pSec + 0x200 + 8 * k) (leNat (splice (toLe 8 (c.rd (pSec + 0x200 + 8 * k))) 0
      (slice b (8 * k) (min 8 (b.length - 8 * k)))))).rd (pSec + 0x200 + 8 * k) = fld b (8 * k) 8 := by
  rw [show min 8 (b.length - 8 * k) = 8 by omega, splice_whole (by rw [length_slice, length_toLe]), Core.rd_wr_self]
  exact Nat.mod_eq_of_lt (fld_lt b (8 * k) 8)

/-- A fold of steps one of which sets a register and the others leave it. -/
theorem Core.rd_foldl_one {α : Type} {f : Core → α → Core} {x : Nat} {j : α} {l : List α} (hset : ∀ c, (f c j).rd a = x)
    (hkeep : ∀ c i, i ≠ j → (f c i).rd a = c.rd a) (h : j ∈ l ∨ c.rd a = x) : (l.foldl f c).rd a = x := by
  induction l generalizing c with
  | nil => exact h.resolve_left List.not_mem_nil
  | cons i l ih =>
    refine ih ?_
    by_cases hij : i = j
    · exact .inr (hij ▸ hset c)
    · rcases h with h | h
      · exact .inl ((List.mem_cons.mp h).resolve_left (Ne.symm hij))
      · exact .inr ((hkeep c i hij).trans h)

theorem Core.rd_mbxWrite (c : Core) {b : List Byte} (h : 8 * k + 8 ≤ b.length) :
    (c.mbxWrite b).rd (pSec + 0x200 + 8 * k) = fld b (8 * k) 8 := by
  refine Core.rd_foldl_one (j := k) (fun c => mbxWord_full c b h) (fun c i hi => Core.rd_wr_ne c _ (by omega)) (.inl ?_)
  exact List.mem_range.mpr (by omega)

theorem Core.rd_mbxWrite_below (c : Core) (b : List Byte) (h : a < pSec + 0x200) : (c.mbxWrite b).rd a = c.rd a := by
  unfold Core.mbxWrite
  induction List.range ((b.length + 7) / 8) generalizing c with
  | nil => rfl
  | cons i l ih => exact (ih _).trans (Core.rd_wr_ne c _ (by omega))

theorem Core.mbxRead_congr (h : d.regs = c.regs) (o n : Nat) : d.mbxRead o n = c.mbxRead o n := by
  unfold Core.mbxRead
  simp only [Core.rd_congr h]

/-! ### Holding the mailbox -/

/-- The mailbox after an access of its holder. -/
def Core.mbxHeld (c : Core) : Core := { c with sec := { c.sec with since := c.now } }

section
variable (hserv : c.service = true)
include hserv

theorem Core.mbxClaim_held {o : Nat} (h : c.sec.holder = some o) (hne : o ≠ id) : (c.mbxOp id 1).sec = c.sec := by
  have hreject : c.mbxOp id 1 = c.reject pSec 0x100 1 := by
    show c.mbxClaim id = _
    unfold Core.mbxClaim
    rw [if_neg (by simp [hserv]), if_pos (by simp [h, hne])]
  rw [hreject]
  exact changes_reject .sec (by decide)

variable (hidle : c.sec.mbxOp = 0)
include hidle

theorem Core.mbxClaim_free (h : c.sec.holder = none ∨ c.sec.holder = some id) : c.mbxOp id 1 =
    { c with sec := { c.sec with holder := some id, since := c.now, mbxResult := mOk,
                                 challenge := if c.sec.holder.isNone then none else c.sec.challenge } } := by
  show c.mbxClaim id = _
  unfold Core.mbxClaim
  rw [if_neg (by simp [hserv]), if_neg (by rcases h with h | h <;> simp [hidle, h])]

theorem Core.mbxCmd_held (work : Core → Core) (h : c.sec.holder = some id) : c.mbxCmd id op work = work c.mbxHeld := by
  unfold Core.mbxCmd
  rw [if_neg (by simp [hserv]), if_neg (by simp [hidle, h]), if_neg (by simp [h])]
  rfl

/-! ### Commands -/

variable (hold : c.sec.holder = some id)
include hold

theorem Core.mbxOp_givesBack : (c.mbxOp id 2).sec.holder = none ∧ (c.mbxOp id 2).sec.challenge = none ∧
    (c.mbxOp id 2).sec.mbxResult = mOk := by
  have hop : c.mbxOp id 2 = (c.mbxHeld.dropHolder id).mbxEnd mOk :=
    Core.mbxCmd_held hserv hidle (fun d => (d.dropHolder id).mbxEnd mOk) hold
  have hdrop : c.mbxHeld.dropHolder id = { c.mbxHeld with sec := { c.mbxHeld.sec with holder := none, challenge := none } } := if_pos hold
  rw [hop, hdrop]
  exact ⟨rfl, rfl, rfl⟩

theorem Core.mbxOp_challenge : c.mbxOp id 3 = c.mbxHeld.mbxChallenge := Core.mbxCmd_held hserv hidle (fun d => d.mbxChallenge) hold
theorem Core.mbxOp_enrol : c.mbxOp id 4 = c.mbxHeld.mbxEnrol id := Core.mbxCmd_held hserv hidle (fun d => d.mbxEnrol id) hold
theorem Core.mbxOp_release : c.mbxOp id 5 = c.mbxHeld.mbxRelease id := Core.mbxCmd_held hserv hidle (fun d => d.mbxRelease id) hold
theorem Core.mbxOp_attest : c.mbxOp id 6 = c.mbxHeld.mbxAttest := Core.mbxCmd_held hserv hidle (fun d => d.mbxAttest) hold
theorem Core.mbxOp_newId : c.mbxOp id 7 = c.mbxHeld.mbxNewId := Core.mbxCmd_held hserv hidle (fun d => d.mbxNewId) hold

end

/-- Without identity a challenge, a report and a release answer NO_ID. -/
theorem Core.mbxChallenge_noId (h : c.sec.ident = none) : c.mbxChallenge = c.mbxEnd mNoId := if_pos (by simp [h])
theorem Core.mbxAttest_noId (h : c.sec.ident = none) : c.mbxAttest = c.mbxEnd mNoId := if_pos (by simp [h])
theorem Core.mbxNewId_runs (h : c.sec.ident = none) : c.mbxNewId = c.mbxRun 7 [] := if_neg (by simp [h])
theorem Core.mbxNewId_refuses (h : c.sec.ident ≠ none) : c.mbxNewId = c.mbxEnd mIdValid :=
  if_pos (Option.isSome_iff_ne_none.mpr h)

theorem Core.mbxChallenge_fresh (h : c.sec.ident ≠ none) : ∃ x, c.mbxChallenge.sec.challenge = some (x, c.now) ∧ x.length = 32 ∧
    c.mbxChallenge.sec.mbxResult = mOk ∧ ∀ i, i < 4 → c.mbxChallenge.rd (pSec + 0x200 + 8 * i) = fld x (8 * i) 8 := by
  obtain ⟨y, hy⟩ := Option.ne_none_iff_exists'.mp h
  unfold Core.mbxChallenge
  rw [if_neg (by simp [hy])]
  extract_lets x d
  have hlen : x.1.length = 32 := length_slice _ _ _
  have hclk : d.clk = c.clk := (changes_newNonce.trans changes_mbxWrite) .clk (by decide)
  have hnow : d.now = c.now := Core.now_congr hclk fun b hb => Core.rd_mbxWrite_below _ _ (by rcases hb with rfl | rfl <;> decide)
  refine ⟨x.1, ?_, hlen, rfl, fun i hi => ?_⟩
  · rw [← hnow]
    rfl
  · have hword := Core.rd_mbxWrite x.2 (k := i) (b := x.1 ++ x.2.idDigest ++ x.2.idKey.take 1793)
      (by rw [List.append_assoc, List.length_append]; omega)
    rw [List.append_assoc, fld_append_left (by omega), ← List.append_assoc] at hword
    exact hword

theorem length_report (c : Core) {b : List Byte} (hb : b.length = 32) : 128 ≤ (c.report b).length := by
  have hid : c.idDigest.length = 32 := by
    unfold Core.idDigest
    split
    · exact length_shake256 _
    · exact List.length_replicate
  have howner : c.ownerDigest.length = 32 := by
    unfold Core.ownerDigest
    split
    · exact length_shake256 _
    · exact List.length_replicate
  simp only [Core.report, List.length_append, length_toLe, hb, hid, howner, List.length_cons, List.length_nil]
  omega

theorem Core.mbxAttest_reports (h : c.sec.ident ≠ none) : c.mbxAttest.sec.mbxResult = mOk ∧
    ∀ i, i < 16 → c.mbxAttest.rd (pSec + 0x200 + 8 * i) = fld (c.report (c.mbxRead 0 32)) (8 * i) 8 := by
  obtain ⟨y, hy⟩ := Option.ne_none_iff_exists'.mp h
  unfold Core.mbxAttest
  rw [if_neg (by simp [hy])]
  extract_lets r sig
  have hr : c.report (c.mbxRead 0 32) = r := rfl
  have hlen : 128 ≤ r.length := length_report c (length_slice _ _ _)
  rw [hr]
  clear_value sig r
  refine ⟨rfl, fun i hi => ?_⟩
  have hword := Core.rd_mbxWrite c (k := i) (b := r ++ toLe 2 sig.length ++ sig)
    (by rw [List.append_assoc, List.length_append]; omega)
  rw [List.append_assoc, fld_append_left (by omega), ← List.append_assoc] at hword
  exact hword

theorem Core.mbxRelease_spec : (c.privSess ≠ some id → c.mbxRelease id = c.mbxEnd mPriv) ∧
    (c.privSess = some id → c.sec.ident ≠ none → c.mbxRelease id = c.mbxRun 5 (List.replicate 1793 0)) := by
  unfold Core.mbxRelease Core.isPrivSess
  refine ⟨fun hpriv => if_pos (by simp [hpriv]), fun hpriv hid => ?_⟩
  rw [if_neg (by simp [hpriv]), if_neg (by simp [hid])]

/-! ### Enrolment -/

/-- The challenge has been used. -/
def Core.challengeUsed (c : Core) : Core := { c with sec := { c.sec with challenge := none } }

theorem Core.mbxEnrol_unprivileged (howner : c.ownerValid = true) (hpriv : c.privSess ≠ some id) : c.mbxEnrol id = c.mbxEnd mPriv :=
  if_pos (by simp [howner, Core.isPrivSess, hpriv])

section
variable (hright : c.ownerValid = false ∨ c.privSess = some id) (hid : c.sec.ident ≠ none)
include hright hid

/-- An enrolment that the session may ask for, up to the form of its key. -/
theorem Core.mbxEnrol_allowed : c.mbxEnrol id =
    if (c.mbxRead 0 1793).head? ≠ some 0x0A || 1462 < leNat (c.mbxRead 1793 2) then c.mbxEnd mFormat
    else match c.sec.challenge with
      | none => c.mbxEnd mNoChallenge
      | some (x, t) =>
        if t + nsN 10000000000 < c.now then c.challengeUsed.mbxEnd mNoChallenge
        else if !signed1024 "SOHUS-OWNER-1" (c.mbxRead 0 1793) (x ++ c.idDigest) (c.mbxRead 1795 (leNat (c.mbxRead 1793 2))) then
          c.challengeUsed.mbxEnd mSigFail
        else c.challengeUsed.mbxRun 4 (c.mbxRead 0 1793) := by
  unfold Core.mbxEnrol
  dsimp only
  rw [if_neg (by rcases hright with h | h <;> simp [Core.isPrivSess, h]), if_neg (by simp [hid])]
  rfl

theorem Core.mbxEnrol_malformed (h : (c.mbxRead 0 1793).head? ≠ some 0x0A ∨ 1462 < leNat (c.mbxRead 1793 2)) :
    c.mbxEnrol id = c.mbxEnd mFormat := by
  rw [Core.mbxEnrol_allowed hright hid]
  exact if_pos (by simpa using h)

variable (hform : (c.mbxRead 0 1793).head? = some 0x0A) (hlen : leNat (c.mbxRead 1793 2) ≤ 1462)
include hform hlen

theorem Core.mbxEnrol_unchallenged (h : c.sec.challenge = none) : c.mbxEnrol id = c.mbxEnd mNoChallenge := by
  rw [Core.mbxEnrol_allowed hright hid, if_neg (by simpa [hform] using hlen), h]

/-- An enrolment within the 10 s of its challenge uses it up, and the signature decides. -/
theorem Core.mbxEnrol_signed {x : List Byte} (h : c.sec.challenge = some (x, t)) (hsoon : c.now ≤ t + nsN 10000000000) :
    (c.mbxEnrol id).sec.challenge = none ∧
    (signed1024 "SOHUS-OWNER-1" (c.mbxRead 0 1793) (x ++ c.idDigest) (c.mbxRead 1795 (leNat (c.mbxRead 1793 2))) = true →
      (c.mbxEnrol id).sec.mbxOp = 4 ∧ (c.mbxEnrol id).sec.mbxKey = c.mbxRead 0 1793) ∧
    (signed1024 "SOHUS-OWNER-1" (c.mbxRead 0 1793) (x ++ c.idDigest) (c.mbxRead 1795 (leNat (c.mbxRead 1793 2))) = false →
      (c.mbxEnrol id).sec.mbxOp = 0 ∧ (c.mbxEnrol id).sec.mbxResult = mSigFail) := by
  rw [Core.mbxEnrol_allowed hright hid, if_neg (by simpa [hform] using hlen), h]
  dsimp only
  rw [if_neg (Nat.not_lt.mpr hsoon)]
  cases signed1024 "SOHUS-OWNER-1" (c.mbxRead 0 1793) (x ++ c.idDigest) (c.mbxRead 1795 (leNat (c.mbxRead 1793 2)))
  · exact ⟨rfl, fun h => absurd h Bool.false_ne_true, fun _ => ⟨rfl, rfl⟩⟩
  · exact ⟨rfl, fun _ => ⟨rfl, rfl⟩, fun h => absurd h.symm Bool.false_ne_true⟩

end

/-! ### The end of the holder's time and of a command -/

theorem Core.mbxTimeout_late (h : c.sec.holder = some id) (hlate : c.sec.since + nsN 10000000000 ≤ c.now) :
    c.mbxTimeout = { c with sec := { c.sec with holder := none, challenge := none } } := by
  unfold Core.mbxTimeout
  rw [h]
  dsimp only
  rw [if_pos hlate]
  exact if_pos h

theorem mbxDone_fails (h : c.sec.mbxOp ≠ 0) : mbxDone m c false = (m, c.mbxEnd mFlash) := by
  unfold mbxDone
  exact (if_neg h).trans (if_pos rfl)

theorem mbxDone_identity (h : c.sec.mbxOp = 7) : mbxDone m c true = (putHelper m c.sec.puf, c.mbxEnd mOk) := by
  unfold mbxDone
  dsimp only
  rw [h, if_neg (by decide), if_neg (by decide), if_pos rfl]

theorem mbxDone_owner (h : c.sec.mbxOp ≠ 0) (hop : c.sec.mbxOp ≠ 7) :
    mbxDone m c true = (putOwner m c c.sec.mbxKey, (c.takeOwner (putOwner m c c.sec.mbxKey)).mbxEnd mOk) := by
  unfold mbxDone
  dsimp only
  rw [if_neg h, if_neg (by decide), if_neg hop]

theorem changes_showBoot : Changes [.regs] c c.showBoot :=
  (((((changes_setF.trans changes_setF).trans changes_setF).trans changes_setF).trans changes_setF).trans changes_setF).mono rfl

theorem changes_showDigest {b : List Byte} : Changes [.regs] c (c.showDigest a b) := .foldl (fun _ _ => changes_wr) _ c

/-- An owner record in force leaves only registers and the owner's key changed. -/
theorem Core.takeOwner_sec (c : Core) (m : Mem) : (c.takeOwner m).sec = { c.sec with owner := c.ownerKey m } :=
  (changes_showDigest.trans changes_showBoot) .sec (by decide)

theorem Core.takeOwner_ends (c : Core) (m : Mem) : ((c.takeOwner m).mbxEnd mOk).sec.mbxOp = 0 ∧
    ((c.takeOwner m).mbxEnd mOk).sec.mbxResult = mOk ∧ ((c.takeOwner m).mbxEnd mOk).sec.owner = c.ownerKey m := by
  have hend : ∀ e : Core, (e.mbxEnd mOk).sec.mbxOp = 0 ∧ (e.mbxEnd mOk).sec.mbxResult = mOk ∧ (e.mbxEnd mOk).sec.owner = e.sec.owner :=
    fun _ => ⟨rfl, rfl, rfl⟩
  obtain ⟨hop, hresult, howner⟩ := hend (c.takeOwner m)
  have htaken := Core.takeOwner_sec c m
  generalize c.ownerKey m = k at htaken ⊢
  exact ⟨hop, hresult, howner.trans (congrArg Sec.owner htaken)⟩

/-! ### The commands of a holder -/

theorem Core.mbxRead_mbxHeld (c : Core) (o n : Nat) : c.mbxHeld.mbxRead o n = c.mbxRead o n := Core.mbxRead_congr rfl o n

theorem Core.report_mbxHeld (c : Core) (b : List Byte) : c.mbxHeld.report b = c.report b := rfl

section
variable (hserv : c.service = true) (hidle : c.sec.mbxOp = 0) (hold : c.sec.holder = some id)
include hserv hidle hold

theorem Core.mbxOp_noId (h : c.sec.ident = none) :
    ((c.mbxOp id 3).sec.mbxResult = mNoId ∧ (c.mbxOp id 3).sec.challenge = c.sec.challenge) ∧
    ((c.mbxOp id 6).sec.mbxResult = mNoId ∧ (c.mbxOp id 6).regs = c.regs) ∧ (c.mbxOp id 7).sec.mbxOp = 7 := by
  rw [Core.mbxOp_challenge hserv hidle hold, Core.mbxOp_attest hserv hidle hold, Core.mbxOp_newId hserv hidle hold,
    Core.mbxChallenge_noId (c := c.mbxHeld) h, Core.mbxAttest_noId (c := c.mbxHeld) h, Core.mbxNewId_runs (c := c.mbxHeld) h]
  exact ⟨⟨rfl, rfl⟩, ⟨rfl, rfl⟩, rfl⟩

theorem Core.mbxOp_identified (h : c.sec.ident ≠ none) :
    (∃ x, (c.mbxOp id 3).sec.challenge = some (x, c.now) ∧ x.length = 32 ∧ (c.mbxOp id 3).sec.mbxResult = mOk ∧
      ∀ i, i < 4 → (c.mbxOp id 3).rd (pSec + 0x200 + 8 * i) = fld x (8 * i) 8) ∧
    ((c.mbxOp id 6).sec.mbxResult = mOk ∧
      ∀ i, i < 16 → (c.mbxOp id 6).rd (pSec + 0x200 + 8 * i) = fld (c.report (c.mbxRead 0 32)) (8 * i) 8) ∧
    (c.mbxOp id 7).sec.mbxResult = mIdValid ∧ (c.mbxOp id 7).sec.mbxOp = 0 := by
  have hreport := Core.mbxAttest_reports (c := c.mbxHeld) h
  rw [Core.mbxRead_mbxHeld, Core.report_mbxHeld] at hreport
  rw [Core.mbxOp_challenge hserv hidle hold, Core.mbxOp_attest hserv hidle hold, Core.mbxOp_newId hserv hidle hold,
    Core.mbxNewId_refuses (c := c.mbxHeld) h]
  exact ⟨Core.mbxChallenge_fresh (c := c.mbxHeld) h, hreport, rfl, rfl⟩

theorem Core.mbxOp_unprivileged (h : c.privSess ≠ some id) :
    ((c.mbxOp id 5).sec.mbxResult = mPriv ∧ (c.mbxOp id 5).sec.mbxOp = 0) ∧
    (c.ownerValid = true → (c.mbxOp id 4).sec.mbxResult = mPriv ∧ (c.mbxOp id 4).sec.mbxOp = 0) := by
  refine ⟨?_, fun howner => ?_⟩
  · rw [Core.mbxOp_release hserv hidle hold, (Core.mbxRelease_spec (c := c.mbxHeld)).1 h]
    exact ⟨rfl, rfl⟩
  · rw [Core.mbxOp_enrol hserv hidle hold, Core.mbxEnrol_unprivileged (c := c.mbxHeld) howner h]
    exact ⟨rfl, rfl⟩

theorem Core.mbxOp_releases (hpriv : c.privSess = some id) (hid : c.sec.ident ≠ none) : (c.mbxOp id 5).sec.mbxOp = 5 := by
  rw [Core.mbxOp_release hserv hidle hold, (Core.mbxRelease_spec (c := c.mbxHeld)).2 hpriv hid]
  rfl

theorem Core.mbxOp_enrols (hright : c.ownerValid = false ∨ c.privSess = some id) (hid : c.sec.ident ≠ none) :
    ((c.mbxRead 0 1793).head? ≠ some 0x0A ∨ 1462 < leNat (c.mbxRead 1793 2) →
      (c.mbxOp id 4).sec.mbxResult = mFormat ∧ (c.mbxOp id 4).sec.mbxOp = 0) ∧
    ((c.mbxRead 0 1793).head? = some 0x0A → leNat (c.mbxRead 1793 2) ≤ 1462 →
      (c.sec.challenge = none → (c.mbxOp id 4).sec.mbxResult = mNoChallenge ∧ (c.mbxOp id 4).sec.mbxOp = 0) ∧
      ∀ x t, c.sec.challenge = some (x, t) → c.now ≤ t + nsN 10000000000 → (c.mbxOp id 4).sec.challenge = none ∧
        (signed1024 "SOHUS-OWNER-1" (c.mbxRead 0 1793) (x ++ c.idDigest) (c.mbxRead 1795 (leNat (c.mbxRead 1793 2))) = true →
          (c.mbxOp id 4).sec.mbxOp = 4 ∧ (c.mbxOp id 4).sec.mbxKey = c.mbxRead 0 1793) ∧
        (signed1024 "SOHUS-OWNER-1" (c.mbxRead 0 1793) (x ++ c.idDigest) (c.mbxRead 1795 (leNat (c.mbxRead 1793 2))) = false →
          (c.mbxOp id 4).sec.mbxOp = 0 ∧ (c.mbxOp id 4).sec.mbxResult = mSigFail)) := by
  rw [Core.mbxOp_enrol hserv hidle hold]
  simp only [← c.mbxRead_mbxHeld]
  refine ⟨fun h => ?_, fun hform hlen => ⟨fun h => ?_, fun x t h hsoon => ?_⟩⟩
  · rw [Core.mbxEnrol_malformed (c := c.mbxHeld) hright hid h]
    exact ⟨rfl, rfl⟩
  · rw [Core.mbxEnrol_unchallenged (c := c.mbxHeld) hright hid hform hlen h]
    exact ⟨rfl, rfl⟩
  · exact Core.mbxEnrol_signed (c := c.mbxHeld) hright hid hform hlen h hsoon

end

end Sys2Proof.Machine

open Sys2Proof Sys2Proof.Machine

/-- Settles O48: the claim, the holder's commands one by one, the end of the holder's time, and the end of a command. -/
theorem mailboxServesItsHolder : Obligations.MailboxServesItsHolder := by
  refine ⟨fun s id hserv hidle => ⟨fun hfree => ?_, fun o hheld hne => ?_, fun hold => ?_⟩, fun s id hold hlate => ?_, fun s hop => ⟨?_, ?_⟩⟩
  · exact (runs_iff (d := s.core.mbxOp id 1) rfl).mpr (by rw [Core.mbxClaim_free hserv hidle hfree]; exact ⟨rfl, rfl, rfl, rfl⟩)
  · exact (runs_iff (d := s.core.mbxOp id 1) rfl).mpr (Core.mbxClaim_held hserv hheld hne)
  · rw [runs_iff (d := s.core.mbxOp id 2) rfl, runs_iff (d := s.core.mbxOp id 3) rfl, runs_iff (d := s.core.mbxOp id 6) rfl,
      runs_iff (d := s.core.mbxOp id 7) rfl, runs_iff (d := s.core.mbxOp id 3) rfl, runs_iff (d := s.core.mbxOp id 6) rfl,
      runs_iff (d := s.core.mbxOp id 7) rfl, runs_iff (d := s.core.mbxOp id 5) rfl, runs_iff (d := s.core.mbxOp id 4) rfl,
      runs_iff (d := s.core.mbxOp id 5) rfl]
    refine ⟨Core.mbxOp_givesBack hserv hidle hold, Core.mbxOp_noId hserv hidle hold, Core.mbxOp_identified hserv hidle hold,
      Core.mbxOp_unprivileged hserv hidle hold, Core.mbxOp_releases hserv hidle hold, fun hright hid => ?_⟩
    obtain ⟨hmalformed, hformed⟩ := Core.mbxOp_enrols hserv hidle hold hright hid
    refine ⟨fun h => (runs_iff (d := s.core.mbxOp id 4) rfl).mpr (hmalformed h), fun hform hlen => ?_⟩
    obtain ⟨hnone, hsome⟩ := hformed hform hlen
    exact ⟨fun h => (runs_iff (d := s.core.mbxOp id 4) rfl).mpr (hnone h),
      fun x t h hsoon => (runs_iff (d := s.core.mbxOp id 4) rfl).mpr (hsome x t h hsoon)⟩
  · exact (runs_iff (d := s.core.mbxTimeout) rfl).mpr (by rw [Core.mbxTimeout_late hold hlate]; exact ⟨rfl, rfl, rfl⟩)
  · exact (runsDev_devStep (f := fun m c => mbxDone m c false) rfl).mpr (by rw [mbxDone_fails hop]; exact ⟨rfl, rfl, rfl⟩)
  · refine (runsDev_devStep (f := fun m c => mbxDone m c true) rfl).mpr ?_
    by_cases h7 : s.core.sec.mbxOp = 7
    · rw [mbxDone_identity h7]
      exact ⟨rfl, rfl, (flashWrite_keeps _ _ _).1, fun _ => ⟨rfl, rfl⟩, fun h => absurd h7 h⟩
    · obtain ⟨hended, hresult, howner⟩ := s.core.takeOwner_ends (putOwner s.mem s.core s.core.sec.mbxKey)
      rw [mbxDone_owner hop h7]
      dsimp only
      exact ⟨hended, hresult, (flashWrite_keeps _ _ _).1, fun h => absurd h h7, fun _ => ⟨rfl, howner⟩⟩
end

