-- ==== Sys2Proof/Proofs/PowerPoints.lean ====
section
/-! PROOF. Power points (R530 to R532): arms, the boundary and the resumption. -/

namespace Sys2Proof.Machine

variable {c d : Core} {s : State} {a : Access} {b p v t0 target at_ : Nat} {x : PwrArm}

/-! ### Loops over the plains -/

theorem aPlnClk_mod (p : Nat) : aPlnClk p % 0x1000 = 0x80 ∧ 0x180000 ≤ aPlnClk p := by
  unfold aPlnClk pPln
  omega

theorem aPlnVid_mod (p : Nat) : aPlnVid p % 0x1000 = 0x88 ∧ 0x180000 ≤ aPlnVid p := by
  unfold aPlnVid pPln
  omega

theorem aPlnClk_inj {p q : Nat} (h : q ≠ p) : aPlnClk p ≠ aPlnClk q := by
  unfold aPlnClk pPln
  omega

theorem aPlnVid_inj {p q : Nat} (h : q ≠ p) : aPlnVid p ≠ aPlnVid q := by
  unfold aPlnVid pPln
  omega

/-- What every step of a loop over the plains keeps, the loop keeps. -/
theorem Core.eachPlain_keeps {β : Type} (g : Core → β) {f : Core → Nat → Core} (h : ∀ c p, g (f c p) = g c) (c : Core) :
    g (c.eachPlain f) = g c := by
  unfold Core.eachPlain
  generalize List.range c.plains = l
  induction l generalizing c with
  | nil => rfl
  | cons p l ih => exact (ih _).trans (h c p)

/-- What only the step of one item changes, a loop over distinct items changes once. -/
theorem foldl_once {β : Type} (g : Core → β) (k : β → β) {f : Core → Nat → Core} (hset : ∀ c, g (f c p) = k (g c))
    (hkeep : ∀ c q, q ≠ p → g (f c q) = g c) (l : List Nat) (c : Core) (hl : l.Nodup) :
    g (l.foldl f c) = if p ∈ l then k (g c) else g c := by
  induction l generalizing c with
  | nil => rfl
  | cons q l ih =>
    obtain ⟨hq, hl⟩ := List.nodup_cons.mp hl
    rw [List.foldl_cons, ih _ hl]
    by_cases hqp : q = p
    · subst hqp
      rw [if_neg hq, if_pos List.mem_cons_self, hset]
    · rw [hkeep c q hqp]
      exact if_congr (by simp [Ne.symm hqp]) rfl rfl

theorem Core.eachPlain_once {β : Type} (g : Core → β) (k : β → β) {f : Core → Nat → Core} (hset : ∀ c, g (f c p) = k (g c))
    (hkeep : ∀ c q, q ≠ p → g (f c q) = g c) (hp : p < c.plains) : g (c.eachPlain f) = k (g c) :=
  (foldl_once g k hset hkeep _ c List.nodup_range).trans (if_pos (List.mem_range.mpr hp))

theorem Core.rd_driveVid_ne (h : ∀ p, b ≠ aPlnVid p) : (c.driveVid v).rd b = c.rd b :=
  Core.eachPlain_keeps (fun c => c.rd b) (fun _ p => Core.rd_wr_ne _ _ (h p)) c

theorem Core.rd_driveVid_self (hp : p < c.plains) : (c.driveVid v).rd (aPlnVid p) = v % 2 ^ 64 :=
  Core.eachPlain_once (fun c => c.rd (aPlnVid p)) (fun _ => v % 2 ^ 64) (fun _ => Core.rd_wr_self _ _ _)
    (fun _ _ hq => Core.rd_wr_ne _ _ (aPlnVid_inj hq)) hp

theorem Core.rd_standbyLock_ne {on : Bool} (h : ∀ p, b ≠ aPlnClk p) : (c.standbyLock on).rd b = c.rd b :=
  Core.eachPlain_keeps (fun c => c.rd b) (fun _ p => Core.rd_setF_ne _ _ _ _ (h p)) c

/-- The lock bits of a plain lie beside its multiplexer. -/
theorem Core.mux_standbyLock {on : Bool} : (c.standbyLock on).getF (aPlnClk p) 2 1 = c.getF (aPlnClk p) 2 1 := by
  refine Core.eachPlain_keeps (fun c => c.getF (aPlnClk p) 2 1) (fun c q => ?_) c
  by_cases hq : q = p
  · subst hq
    exact Core.getF_setF_apart c _ _ _ _ _ _ (by omega) (by omega)
  · exact Core.getF_setF_ne c _ _ _ _ _ (aPlnClk_inj hq)

/-- The multiplexer of every plain moves to its standby PLL. -/
def Core.moveMux (c : Core) : Core := c.eachPlain fun c p => c.setF (aPlnClk p) 2 1 (1 - c.getF (aPlnClk p) 2 1)

theorem changes_moveMux : Changes [.regs] c c.moveMux := .foldl (fun _ _ => changes_setF) _ c

theorem Core.rd_moveMux_ne (h : ∀ p, b ≠ aPlnClk p) : c.moveMux.rd b = c.rd b :=
  Core.eachPlain_keeps (fun c => c.rd b) (fun _ p => Core.rd_setF_ne _ _ _ _ (h p)) c

theorem Core.mux_moveMux (hp : p < c.plains) : c.moveMux.getF (aPlnClk p) 2 1 = 1 - c.getF (aPlnClk p) 2 1 :=
  Core.eachPlain_once (fun c => c.getF (aPlnClk p) 2 1) (fun x => 1 - x)
    (fun c => (Core.getF_setF_self c _ 2 1 _ (by decide)).trans (Nat.mod_eq_of_lt (by omega)))
    (fun _ _ hq => Core.getF_setF_ne _ _ _ _ _ _ (aPlnClk_inj hq)) hp

/-! ### Arms -/

/-- What a write of PWR_PT does before it looks at ARM: the target is kept, and REJ cleared where the word says so. -/
def Core.ptTarget (c : Core) (v : Nat) : Core := (c.setF aPt 2 2 (v / 4)).clearF aPt 6 1 (v / 2 ^ 6)

theorem changes_ptTarget : Changes [.regs] c (c.ptTarget v) := (changes_setF.trans changes_clearF).mono rfl

theorem Core.rd_ptTarget_ne (h : b ≠ aPt) : (c.ptTarget v).rd b = c.rd b :=
  (Core.rd_setF_ne _ _ _ _ h).trans (Core.rd_setF_ne c _ _ _ h)

theorem Core.getF_ptTarget : (c.ptTarget v).getF aPt 2 2 = v / 4 % 4 ∧ (c.ptTarget v).getF aPt 0 2 = c.getF aPt 0 2 :=
  ⟨(Core.getF_setF_apart _ _ _ _ _ _ _ (by decide) (by decide)).trans (Core.getF_setF_self c _ _ _ _ (by decide)),
    (Core.getF_setF_apart _ _ _ _ _ _ _ (by decide) (by decide)).trans (Core.getF_setF_apart c _ _ _ _ _ _ (by decide) (by decide))⟩

theorem Core.now_ptTarget : (c.ptTarget v).now = c.now :=
  Core.now_congr (changes_ptTarget .clk (by decide)) fun _ hb => Core.rd_ptTarget_ne (by rcases hb with rfl | rfl <;> decide)

theorem Core.ptRejected_ptTarget : (c.ptTarget v).ptRejected target at_ = c.ptRejected target at_ := by
  have hvalley : (c.ptTarget v).valley = c.valley := by
    rw [Core.valley, Core.now_ptTarget, Core.epoch_congr fun _ hb => Core.rd_ptTarget_ne (by rcases hb with rfl | rfl <;> decide),
      Core.valley]
  have hpwr : (c.ptTarget v).pwr = c.pwr := changes_ptTarget .pwr (by decide)
  have htask : (c.ptTarget v).task = c.task := changes_ptTarget .task (by decide)
  have hrgn : (c.ptTarget v).rgn = c.rgn := funext fun g => congrArg (Store.get · Rgn.idle g) (changes_ptTarget .rgns (by decide))
  rw [Core.ptRejected, hvalley, hpwr, htask, hrgn, Core.ptRejected]

/-- A privileged write of PWR_PT that arms. -/
theorem Core.hPwrPt_arms (ha : a.view = .priv) : c.hPwrPt a (setBits v 4 1 1) =
    if c.ptRejected (v / 4 % 4) (c.rd (pPwr + 0x88)) then
      ((c.ptTarget (setBits v 4 1 1)).raiseF aPt 6).reject pPwr 0x80 (setBits v 4 1 1)
    else (c.ptTarget (setBits v 4 1 1)).ptArm (v / 4 % 4) (c.rd (pPwr + 0x88)) := by
  have hbit : bit (setBits v 4 1 1) 4 = true := bit_setBits_one v 4
  have htarget : setBits v 4 1 1 / 4 % 4 = v / 4 % 4 := setBits_field_below v 4 1 1 2 2 (by decide)
  generalize setBits v 4 1 1 = w at hbit htarget ⊢
  have hfield : (c.ptTarget w).getF aPt 2 2 = v / 4 % 4 := Core.getF_ptTarget.1.trans htarget
  have hat : (c.ptTarget w).rd (pPwr + 0x88) = c.rd (pPwr + 0x88) := Core.rd_ptTarget_ne (by decide)
  have hwrite : c.hPwrPt a w = if (c.ptTarget w).ptRejected ((c.ptTarget w).getF aPt 2 2) ((c.ptTarget w).rd (pPwr + 0x88)) then
      ((c.ptTarget w).raiseF aPt 6).reject pPwr 0x80 w
      else (c.ptTarget w).ptArm ((c.ptTarget w).getF aPt 2 2) ((c.ptTarget w).rd (pPwr + 0x88)) := by
    refine (if_neg (by simp [isPriv_of_view ha])).trans ?_
    exact if_neg (by simp [hbit])
  rw [hwrite, hfield, hat, Core.ptRejected_ptTarget]

/-- The arm before it is kept: the voltage is raised for a higher target and the standby PLLs leave their lock. -/
def Core.ptRaised (c : Core) (target : Nat) : Core :=
  ((if higher target (c.getF aPt 0 2) then c.driveVid (vidOf target) else c).standbyLock false).setF aPt 5 1 1

theorem Core.ptArm_eq (c : Core) (target at_ : Nat) : c.ptArm target at_ = { c.ptRaised target with
    pwr := { (c.ptRaised target).pwr with arm := some ⟨target, at_, (c.ptRaised target).now, higher target (c.getF aPt 0 2)⟩ } } := rfl

theorem changes_ptRaised : Changes [.regs] c (c.ptRaised target) :=
  (((changes_driveVid.stepIf).trans changes_standbyLock).trans changes_setF).mono rfl

theorem Core.rd_ptRaised_ne (hpt : b ≠ aPt) (hclk : ∀ p, b ≠ aPlnClk p) (hvid : ∀ p, b ≠ aPlnVid p) :
    (c.ptRaised target).rd b = c.rd b := by
  refine ((Core.rd_setF_ne _ _ _ _ hpt).trans (Core.rd_standbyLock_ne hclk)).trans ?_
  split
  · exact Core.rd_driveVid_ne hvid
  · rfl

theorem Core.getF_ptRaised : (c.ptRaised target).getF aPt 0 2 = c.getF aPt 0 2 := by
  refine (Core.getF_setF_apart _ _ _ _ _ _ _ (by decide) (by decide)).trans (Core.getF_of_rd ?_)
  refine (Core.rd_standbyLock_ne fun p => ?_).trans ?_
  · exact fun h => absurd (h ▸ (aPlnClk_mod p).2) (by decide)
  · split
    · exact Core.rd_driveVid_ne fun p h => absurd (h ▸ (aPlnVid_mod p).2) (by decide)
    · rfl

theorem Core.now_ptRaised : (c.ptRaised target).now = c.now := by
  refine Core.now_congr (changes_ptRaised .clk (by decide)) fun b hb => ?_
  have hlow : b < 0x180000 := by rcases hb with rfl | rfl <;> decide
  refine Core.rd_ptRaised_ne ?_ (fun p => ?_) fun p => ?_
  · rcases hb with rfl | rfl <;> decide
  · have := (aPlnClk_mod p).2
    omega
  · have := (aPlnVid_mod p).2
    omega

theorem vidOf_mod (p : Nat) : vidOf p % 2 ^ 64 = vidOf p := by
  unfold vidOf
  split
  · rfl
  · split <;> rfl

theorem Core.vid_ptRaised (hup : target < c.getF aPt 0 2) (hp : p < c.plains) : (c.ptRaised target).rd (aPlnVid p) = vidOf target := by
  have hlow := (aPlnVid_mod p)
  refine (Core.rd_setF_ne _ _ _ _ (by unfold aPt pPwr; omega)).trans ((Core.rd_standbyLock_ne fun q => ?_).trans ?_)
  · have := aPlnClk_mod q
    omega
  · rw [if_pos (by simpa [higher] using hup), Core.rd_driveVid_self hp, vidOf_mod]

theorem Core.ptArm_spec (c : Core) (target at_ : Nat) :
    (c.ptArm target at_).pwr.arm = some ⟨target, at_, c.now, higher target (c.getF aPt 0 2)⟩ ∧ (c.ptArm target at_).getB aPt 5 = true ∧
    (c.ptArm target at_).getF aPt 0 2 = c.getF aPt 0 2 ∧
    (target < c.getF aPt 0 2 → ∀ p, p < c.plains → (c.ptArm target at_).rd (aPlnVid p) = vidOf target) := by
  rw [Core.ptArm_eq, Core.now_ptRaised]
  exact ⟨rfl, (Core.getB_setF_self _ aPt 5 1 (by decide)).trans rfl, Core.getF_ptRaised, fun hup p hp => Core.vid_ptRaised hup hp⟩

theorem pwrPtArm_runs {v : Word64} {P : Core → Prop} : Stated.Runs (.pwrPtArm a v) s P ↔ P (s.core.hPwrPt a (setBits v.toNat 4 1 1)) :=
  runs_iff (d := s.core.hPwrPt a (setBits v.toNat 4 1 1)) rfl

theorem pwrPtArm_armed {v : Word64} (ha : a.view = .priv)
    (hok : s.core.ptRejected (v.toNat / 4 % 4) (s.core.rd (pPwr + 0x88)) = false) : Stated.Runs (.pwrPtArm a v) s fun c =>
      c.pwr.arm = some ⟨v.toNat / 4 % 4, s.core.rd (pPwr + 0x88), s.core.now, higher (v.toNat / 4 % 4) (s.core.getF aPt 0 2)⟩ ∧
      c.getB aPt 5 = true ∧ c.getF aPt 0 2 = s.core.getF aPt 0 2 ∧
      (v.toNat / 4 % 4 < s.core.getF aPt 0 2 → ∀ p, p < s.core.plains → c.rd (aPlnVid p) = vidOf (v.toNat / 4 % 4)) := by
  rw [pwrPtArm_runs, Core.hPwrPt_arms ha, if_neg (by simp [hok])]
  have hspec := Core.ptArm_spec (s.core.ptTarget (setBits v.toNat 4 1 1)) (v.toNat / 4 % 4) (s.core.rd (pPwr + 0x88))
  have hplains : (s.core.ptTarget (setBits v.toNat 4 1 1)).plains = s.core.plains := Core.getF_of_rd (Core.rd_ptTarget_ne (by decide))
  rwa [Core.now_ptTarget, Core.getF_ptTarget.2, hplains] at hspec

theorem pwrPtArm_rejected {v : Word64} (ha : a.view = .priv)
    (hno : s.core.ptRejected (v.toNat / 4 % 4) (s.core.rd (pPwr + 0x88)) = true) :
    Stated.Runs (.pwrPtArm a v) s fun c => c.pwr = s.core.pwr ∧ c.getB aPt 6 = true := by
  rw [pwrPtArm_runs, Core.hPwrPt_arms ha, if_pos hno]
  refine ⟨((changes_ptTarget.trans changes_raiseF).trans changes_reject) .pwr (by decide), ?_⟩
  refine (Core.getB_of_rd (Core.rd_logErr_ne _ _ _ _ _ _ ?_)).trans (Core.getB_raiseF_self _ aPt 6 (by decide))
  unfold LogTouches
  decide

/-- An arm that meets the conditions of R530 is not rejected. -/
theorem Core.ptRejected_eq_false (harm : c.pwr.arm = none) (htarget : target ≠ 3) (hlead : at_ ≠ 0 → c.valley + 1000000 ≤ at_)
    (hidle : at_ = 0 → (∀ g, g < 8 → (c.rgn g).phase ≠ .running ∧ (c.rgn g).stall = []) ∧ ∀ e ∈ c.task.table, e.2.st ≠ .running) :
    c.ptRejected target at_ = false := by
  unfold Core.ptRejected
  rw [harm]
  by_cases hat : at_ = 0
  · obtain ⟨hrgn, htask⟩ := hidle hat
    have hrgns : ((List.range 8).any fun g => (c.rgn g).phase = .running || !(c.rgn g).stall.isEmpty) = false := by
      rw [List.any_eq_false]
      intro g hg
      simp [hrgn g (List.mem_range.mp hg)]
    have htasks : (c.task.table.any fun (e : Nat × Task) => e.2.st = .running) = false := by
      rw [List.any_eq_false]
      intro e he
      simp [htask e he]
    simp [hat, htarget, hrgns, htasks]
  · have := hlead hat
    simp [hat, htarget]
    omega

/-! ### The boundary and the resumption -/

/-- An abandoned slice is shown, counted and signalled (R518). -/
def Core.sliceDropped (c : Core) : Core :=
  (({ c.setF aBist 7 1 0 with flt := { c.flt with slice := none } } : Core).bump (pFlt + 0x110)).event pFlt 10

/-- The meadow of an abandoned slice is released, or its task ends. -/
theorem Core.abandonSlice_cases (c : Core) : (c.flt.slice = none ∧ c.abandonSlice = c) ∨
    c.abandonSlice = c.sliceDropped.unhold 0xFFFF ∨ ∃ e, c.abandonSlice = c.sliceDropped.ends e stState 0 := by
  unfold Core.abandonSlice
  cases h : c.flt.slice with
  | none => exact .inl ⟨rfl, rfl⟩
  | some w =>
    obtain ⟨md, owner⟩ := w
    cases owner with
    | none => exact .inr (.inl rfl)
    | some e => exact .inr (.inr ⟨e, rfl⟩)

theorem changes_sliceDropped : Changes [.regs, .cyc, .notices, .flt] c c.sliceDropped :=
  ((changes_setF.trans (.put .flt (v := { c.flt with slice := none }))).trans (changes_bump.trans changes_event)).mono rfl

theorem Core.sliceDropped_flt : c.sliceDropped.flt = { c.flt with slice := none } :=
  (changes_bump.trans changes_event) .flt (by decide)

theorem Core.rd_sliceDropped_ne (hb : b ≠ aBist) (hcount : b ≠ pFlt + 0x110) (hpend : b ≠ pFlt + 0x38) :
    c.sliceDropped.rd b = c.rd b :=
  ((Core.rd_event_ne _ _ hpend).trans (Core.rd_bump_ne _ hcount)).trans (Core.rd_setF_ne c _ _ _ hb)

theorem changes_abandonSlice : Changes [.regs, .cyc, .notices, .flt, .task] c c.abandonSlice := by
  rcases c.abandonSlice_cases with ⟨-, h⟩ | h | ⟨e, h⟩ <;> rw [h]
  · exact .refl
  · exact (changes_sliceDropped.trans (.put .task)).mono rfl
  · exact (changes_sliceDropped.trans (.put .task)).mono rfl

theorem Core.abandonSlice_flt (c : Core) : c.abandonSlice.flt = { c.flt with slice := none } := by
  rcases c.abandonSlice_cases with ⟨hnone, h⟩ | h | ⟨e, h⟩ <;> rw [h]
  · rw [← hnone]
  · exact Core.sliceDropped_flt
  · exact Core.sliceDropped_flt

theorem Core.rd_abandonSlice_ne (hb : b ≠ aBist) (hcount : b ≠ pFlt + 0x110) (hpend : b ≠ pFlt + 0x38) : c.abandonSlice.rd b = c.rd b := by
  rcases c.abandonSlice_cases with ⟨-, h⟩ | h | ⟨e, h⟩ <;> rw [h]
  · exact Core.rd_sliceDropped_ne hb hcount hpend
  · exact Core.rd_sliceDropped_ne hb hcount hpend

/-- The fabric freezes with the multiplexers moved. -/
def Core.ptFreeze (c : Core) : Core :=
  { (c.standbyLock true).moveMux with clk := { (c.standbyLock true).moveMux.clk with frozen := some (c.standbyLock true).moveMux.now } }

theorem Core.ptBoundary_eq (harm : c.pwr.arm = some x) (hfrozen : c.clk.frozen = none)
    (hzero : x.at_ = 0 → x.raised = false ∨ x.since + nsN 500000 ≤ c.now) (hcount : x.at_ ≠ 0 → c.valleyDue x.at_ = true) :
    c.ptBoundary = c.ptFreeze.abandonSlice := by
  unfold Core.ptBoundary
  rw [harm]
  refine if_neg ?_
  rw [hfrozen]
  by_cases hat : x.at_ = 0
  · rcases hzero hat with h | h
    · simp [hat, h]
    · simp [hat, h]
  · simp [hat, hcount hat]

theorem Core.ptFreeze_spec (c : Core) : c.ptFreeze.clk.frozen = some c.now ∧ c.ptFreeze.pwr = c.pwr ∧
    ∀ p, p < c.plains → c.ptFreeze.getF (aPlnClk p) 2 1 = 1 - c.getF (aPlnClk p) 2 1 := by
  have hchanges : Changes [.regs] c (c.standbyLock true).moveMux := (changes_standbyLock.trans changes_moveMux).mono rfl
  have hlow : ∀ b, b < 0x180000 → (c.standbyLock true).moveMux.rd b = c.rd b ∧ (c.standbyLock true).rd b = c.rd b := fun b hb => by
    have hne : ∀ p, b ≠ aPlnClk p := fun p => by
      have := (aPlnClk_mod p).2
      omega
    exact ⟨(Core.rd_moveMux_ne hne).trans (Core.rd_standbyLock_ne hne), Core.rd_standbyLock_ne hne⟩
  have hnow : (c.standbyLock true).moveMux.now = c.now := Core.now_congr (hchanges .clk (by decide)) fun b hb =>
    (hlow b (by rcases hb with rfl | rfl <;> decide)).1
  refine ⟨congrArg some hnow, hchanges .pwr (by decide), fun p hp => ?_⟩
  have hplains : (c.standbyLock true).plains = c.plains := Core.getF_of_rd (hlow 0x80 (by decide)).2
  exact (Core.mux_moveMux (by omega)).trans (by rw [Core.mux_standbyLock])

theorem powerPointBoundary_runs {P : Core → Prop} : Stated.Runs .powerPointBoundary s P ↔ P s.core.ptBoundary :=
  runs_iff (d := s.core.ptBoundary) rfl

theorem powerPointBoundary_freezes (harm : s.core.pwr.arm = some x) (hfrozen : s.core.clk.frozen = none)
    (hzero : x.at_ = 0 → x.raised = false ∨ x.since + nsN 500000 ≤ s.core.now) (hcount : x.at_ ≠ 0 → s.core.valleyDue x.at_ = true) :
    Stated.Runs .powerPointBoundary s fun c =>
      c.clk.frozen = some s.core.now ∧ c.flt.slice = none ∧ c.pwr.arm = some x ∧
      ∀ p, p < s.core.plains → c.getF (aPlnClk p) 2 1 = 1 - s.core.getF (aPlnClk p) 2 1 := by
  rw [powerPointBoundary_runs, Core.ptBoundary_eq harm hfrozen hzero hcount]
  obtain ⟨hclk, hpwr, hmux⟩ := Core.ptFreeze_spec s.core
  refine ⟨(congrArg Clk.frozen (changes_abandonSlice .clk (by decide))).trans hclk, congrArg FltSt.slice (Core.abandonSlice_flt _),
    (congrArg Pwr.arm (changes_abandonSlice .pwr (by decide))).trans ((congrArg Pwr.arm hpwr).trans harm), fun p hp => ?_⟩
  have hclkReg := aPlnClk_mod p
  exact (Core.getF_of_rd (Core.rd_abandonSlice_ne (by unfold aBist pFlt; omega) (by unfold pFlt; omega)
    (by unfold pFlt; omega))).trans (hmux p hp)

/-- The fabric has resumed: what was in flight is late, and PWR_PT shows the target. -/
def Core.ptLanded (c : Core) (target : Nat) : Core :=
  (((c.allLate.setF aPt 0 2 target).setF aPt 5 1 0).bump (pPwr + 0x90)).event pPwr 11

/-- The freeze and the arm are over. -/
def Core.ptThawed (c : Core) : Core := { c with clk := { c.clk with frozen := none }, pwr := { c.pwr with arm := none } }

theorem Core.ptResume_eq (hfrozen : c.clk.frozen = some t0) (harm : c.pwr.arm = some x) (hlong : t0 + nsN 64 ≤ c.now) :
    c.ptResume = if higher (c.getF aPt 0 2) x.target then (c.ptLanded x.target).ptThawed.driveVid (vidOf x.target)
      else (c.ptLanded x.target).ptThawed := by
  unfold Core.ptResume
  rw [hfrozen, harm]
  exact if_neg (by omega)

/-- A region whose iterations in flight are late. -/
def Rgn.tardy (r : Rgn) : Rgn := { r with iters := r.iters.map fun (i : Iter) => if i.fate = .pending then { i with late := true } else i }

theorem Store.get_map {α β : Type} (f : α → β) (l : Store α) (z : α) (k : Nat) :
    Store.get (l.map fun e => (e.1, f e.2)) (f z) k = f (Store.get l z k) := by
  induction l with
  | nil => rfl
  | cons e l ih =>
    rw [List.map_cons, Store.get, Store.get, ih]
    split <;> rfl

theorem Core.rgn_allLate (c : Core) (g : Nat) : c.allLate.rgn g = (c.rgn g).tardy := Store.get_map Rgn.tardy c.rgns Rgn.idle g

theorem Rgn.late_tardy (r : Rgn) : ∀ i ∈ r.tardy.iters, i.fate = .pending → i.late = true := by
  intro i hi hpending
  obtain ⟨j, -, rfl⟩ := List.mem_map.mp hi
  by_cases hj : j.fate = .pending
  · rw [if_pos hj]
  · rw [if_neg hj] at hpending
    exact absurd hpending hj

theorem Core.ptLanded_changes : Changes [.regs, .cyc, .notices] c.allLate (c.ptLanded target) :=
  (((changes_setF.trans changes_setF).trans changes_bump).trans changes_event).mono rfl

theorem Core.ptLanded_pt : (c.ptLanded target).getF aPt 0 2 = target % 4 ∧ (c.ptLanded target).getB aPt 5 = false := by
  have hrest : ∀ d : Core, ((d.bump (pPwr + 0x90)).event pPwr 11).rd aPt = d.rd aPt := fun d =>
    (Core.rd_event_ne _ _ (by decide)).trans (Core.rd_bump_ne _ (by decide))
  refine ⟨(Core.getF_of_rd (hrest _)).trans ?_, (Core.getB_of_rd (hrest _)).trans (Core.getB_setF_self _ aPt 5 0 (by decide))⟩
  exact (Core.getF_setF_apart _ _ _ _ _ _ _ (by decide) (by decide)).trans (Core.getF_setF_self _ _ _ _ _ (by decide))

/-- The fall of the voltage to a lower target changes registers of the plains only. -/
theorem Core.ptResume_frame (hfrozen : c.clk.frozen = some t0) (harm : c.pwr.arm = some x) (hlong : t0 + nsN 64 ≤ c.now) :
    Changes [.regs] (c.ptLanded x.target).ptThawed c.ptResume ∧ c.ptResume.rd aPt = (c.ptLanded x.target).rd aPt := by
  rw [Core.ptResume_eq hfrozen harm hlong]
  refine ⟨changes_driveVid.stepIf, ?_⟩
  split
  · exact Core.rd_driveVid_ne fun p h => absurd (h ▸ (aPlnVid_mod p).2) (by decide)
  · rfl

theorem powerPointResume_runs {P : Core → Prop} : Stated.Runs .powerPointResume s P ↔ P s.core.ptResume :=
  runs_iff (d := s.core.ptResume) rfl

theorem powerPointResume_resumes (hfrozen : s.core.clk.frozen = some t0) (harm : s.core.pwr.arm = some x)
    (hlong : t0 + nsN 64 ≤ s.core.now) : Stated.Runs .powerPointResume s fun c =>
      c.clk.frozen = none ∧ c.pwr.arm = none ∧ c.getF aPt 0 2 = x.target % 4 ∧ c.getB aPt 5 = false ∧
      (∀ f ∈ c.fab.fly, f.tok.late = true) ∧ (∀ d ∈ c.fab.delays, d.tok.late = true) ∧
      (∀ g, ∀ i ∈ (c.rgn g).iters, i.fate = .pending → i.late = true) ∧ (∀ g, (c.rgn g).sched = (s.core.rgn g).sched) := by
  rw [powerPointResume_runs]
  obtain ⟨hframe, hpt⟩ := Core.ptResume_frame hfrozen harm hlong
  have hlanded := Core.ptLanded_changes (c := s.core) (target := x.target)
  have hfab : s.core.ptResume.fab = s.core.allLate.fab := (hframe .fab (by decide)).trans (hlanded .fab (by decide))
  have hrgn : ∀ g, s.core.ptResume.rgn g = (s.core.rgn g).tardy := fun g =>
    (congrArg (Store.get · Rgn.idle g) ((hframe .rgns (by decide)).trans (hlanded .rgns (by decide)))).trans (Core.rgn_allLate _ g)
  refine ⟨congrArg Clk.frozen (hframe .clk (by decide)), congrArg Pwr.arm (hframe .pwr (by decide)),
    (Core.getF_of_rd hpt).trans Core.ptLanded_pt.1, (Core.getB_of_rd hpt).trans Core.ptLanded_pt.2, ?_, ?_, fun g => ?_, fun g => ?_⟩
  · rw [hfab]
    rintro f hf
    obtain ⟨e, -, rfl⟩ := List.mem_map.mp hf
    rfl
  · rw [hfab]
    rintro f hf
    obtain ⟨e, -, rfl⟩ := List.mem_map.mp hf
    rfl
  · rw [hrgn]
    exact Rgn.late_tardy _
  · rw [hrgn]
    rfl

/-! ### The commands complete -/

theorem powerPointsTakeEffect : Stated.PowerPointsTakeEffect :=
  ⟨fun _ _ _ ha => ⟨pwrPtArm_armed ha, pwrPtArm_rejected ha⟩,
    fun _ _ harm hfrozen hzero hcount => powerPointBoundary_freezes harm hfrozen hzero hcount,
    fun _ _ _ hfrozen harm hlong => powerPointResume_resumes hfrozen harm hlong⟩

theorem powerPointsComplete : Stated.PowerPointsComplete := by
  refine ⟨?_, ?_, ?_⟩
  · intro s a v ha at_ harm htarget hlead hidle
    obtain ⟨c, hexec, harmed, hshown, -⟩ := pwrPtArm_armed ha (Core.ptRejected_eq_false harm htarget hlead hidle)
    exact ⟨_, hexec, rfl, rfl, harmed, hshown⟩
  · intro s x harm hfrozen hzero hcount
    have hdue : x.at_ = 0 → x.raised = false ∨ x.since + nsN 500000 ≤ s.core.now := fun hat => by
      cases hraised : x.raised with
      | false => exact .inl rfl
      | true => exact .inr (hzero hat hraised)
    obtain ⟨c, hexec, hclk, -, hpwr, -⟩ := powerPointBoundary_freezes harm hfrozen hdue fun hat => decide_eq_true (hcount hat)
    exact ⟨_, hexec, rfl, rfl, hclk, hpwr⟩
  · intro s t0 x hfrozen harm hlong
    obtain ⟨c, hexec, hclk, hpwr, hpt, -⟩ := powerPointResume_resumes hfrozen harm hlong
    exact ⟨_, hexec, rfl, rfl, hclk, hpwr, hpt⟩

end Sys2Proof.Machine

open Sys2Proof Sys2Proof.Machine

/-- Settles O52: an arm's registers are written in loops over the plains, each of which changes a plain's own registers once; an
abandoned slice changes FLT's page and the task table only. -/
theorem powerPointsChange : Obligations.PowerPointsChange := ⟨powerPointsComplete, powerPointsTakeEffect⟩

end

