-- ==== Sys2Proof/Proofs/TasksEnd.lean ====
section
/-! PROOF. What the end of tasks leaves alone when safe state aborts them (R328, R510): the modes of the device, the pages FLT and PWR,
and the egress gate. -/

namespace Sys2Proof.Machine

variable {m : Mem} {c d : Core} {a b e g p n : Nat}

/-! ### The registers of the device's modes -/

/-- DEV_STATUS, EGRESS_GATE, and the registers of FLT and PWR apart from what every page has. -/
def ModeReg (b : Nat) : Prop := b = 0x88 ∨ b = aGate ∨ (pFlt + 0x80 ≤ b ∧ b < pFlt + 0x400) ∨ (pPwr + 0x80 ≤ b ∧ b < pPwr + 0x400)

theorem ModeReg.place (h : ModeReg b) : 0x80 ≤ b % 0x1000 ∧ b % 0x1000 < 0x400 ∧
    (b = 0x88 ∨ b = 0x41080 ∨ b / 0x1000 = 0xD0 ∨ b / 0x1000 = 0xE0) := by
  unfold ModeReg aGate pComp1 pFlt pPwr at h
  omega

/-- The logs and events of a page lie apart from the registers of the modes. -/
theorem ModeReg.not_logTouches (h : ModeReg b) (hp : p % 0x1000 = 0) : ¬ LogTouches p b := by
  have := h.place
  unfold LogTouches
  omega

theorem modeReg_devStatus : ModeReg 0x88 := .inl rfl
theorem modeReg_gate : ModeReg aGate := .inr (.inl rfl)
theorem modeReg_fltState : ModeReg aFltState := .inr (.inr (.inl (by decide)))
theorem modeReg_bist : ModeReg aBist := .inr (.inr (.inl (by decide)))

/-! ### Steps that spare them -/

/-- The parts that the end of tasks may change. -/
def taskPieces : List Piece := [.regs, .cyc, .notices, .errSeq, .fab, .key, .rgns, .comp, .task, .lanes, .kwn, .out, .free]

/-- A step that leaves the modes: their registers and their parts of the core. -/
structure Spares (c d : Core) : Prop where
  parts : Changes taskPieces c d
  rd : ∀ b, ModeReg b → d.rd b = c.rd b

namespace Spares

theorem refl : Spares c c := ⟨.refl, fun _ _ => rfl⟩

theorem trans {e : Core} (h : Spares c d) (k : Spares d e) : Spares c e :=
  ⟨(h.parts.trans k.parts).of_forall_mem fun _ hx => (List.mem_append.mp hx).elim id id, fun b hb => (k.rd b hb).trans (h.rd b hb)⟩

theorem ite {e : Core} {p : Prop} [Decidable p] (h : Spares c d) (k : Spares c e) : Spares c (if p then d else e) := by
  split <;> assumption

/-- A step that changes no register. -/
theorem of_changes {l : List Piece} (h : Changes l c d) (hl : l.all taskPieces.contains = true) (hregs : Piece.regs ∉ l) : Spares c d :=
  ⟨h.mono hl, fun b _ => Core.rd_congr (h .regs hregs) b⟩

theorem foldl {α : Type} {f : Core → α → Core} (h : ∀ c x, Spares c (f c x)) (l : List α) (c : Core) : Spares c (l.foldl f c) := by
  induction l generalizing c with
  | nil => exact refl
  | cons x l ih => exact (h c x).trans (ih _)

theorem wr {v : Nat} (ha : ∀ b, ModeReg b → b ≠ a) : Spares c (c.wr a v) :=
  ⟨changes_wr.mono rfl, fun b hb => Core.rd_wr_ne c _ (ha b hb)⟩

theorem setF {lo w v : Nat} (ha : ∀ b, ModeReg b → b ≠ a) : Spares c (c.setF a lo w v) :=
  ⟨changes_setF.mono rfl, fun b hb => Core.rd_setF_ne c _ _ _ (ha b hb)⟩

theorem bumpBy {v : Nat} (ha : ∀ b, ModeReg b → b ≠ a) : Spares c (c.bumpBy a v) :=
  ⟨changes_bumpBy.mono rfl, fun b hb => Core.rd_bumpBy_ne c _ (ha b hb)⟩

theorem bump (ha : ∀ b, ModeReg b → b ≠ a) : Spares c (c.bump a) := bumpBy ha

theorem mark {v : Nat} : Spares c (c.mark a v) := of_changes changes_mark rfl (by decide)

theorem event {k : Nat} (hp : p % 0x1000 = 0) : Spares c (c.event p k) :=
  ⟨changes_event.mono rfl, fun _ hb => Core.rd_event_ne c _ fun h => hb.not_logTouches hp (.inl h)⟩

theorem logErr {cls code sub src detail : Nat} (hp : p % 0x1000 = 0) : Spares c (c.logErr p cls code sub src detail) :=
  ⟨changes_logErr.mono rfl, fun _ hb => Core.rd_logErr_ne c _ _ _ _ _ (hb.not_logTouches hp)⟩

/-! ### The end of a region's work -/

theorem stompTx {lp t : Nat} {q : TxFrame → Bool} : Spares c (c.stompTx lp t q) :=
  ⟨changes_stompTx.mono rfl, fun b hb => (RdBelow.stompTx c lp t q).rd b (by have := hb.place; omega)⟩

theorem stompAll {t : Nat} {q : TxFrame → Bool} : Spares c (c.stompAll t q) := foldl (fun _ _ => stompTx) _ c

theorem closeEgress : Spares c (c.closeEgress g) := by
  have hrgn : ∀ d : Core, Spares c d → Spares c ((d.stompAll d.now fun f => f.rgn = g).unqueue fun f => f.rgn = g) := fun d hd =>
    (hd.trans stompAll).trans (foldl (fun _ _ => of_changes (.put .comp) rfl (by decide)) _ _)
  exact hrgn _ (of_changes changes_modRgn rfl (by decide))

theorem faultRecord {m cell port kind cls code : Nat} {tag : Tag} {set : Bool} :
    Spares c (c.faultRecord m cell port tag set kind cls code) := by
  refine ((wr fun b hb => ?_).trans mark).trans (logErr (by unfold pMdw; omega))
  have := hb.place
  unfold pMdw
  omega

theorem haltRgn {m cell port kind : Nat} {tag : Tag} {set : Bool} : Spares c (c.haltRgn g m cell port tag set kind) := by
  unfold Core.haltRgn
  extract_lets r d f
  have hf : Spares c f := ((of_changes (.put .rgns) rfl (by decide)).trans closeEgress).trans faultRecord
  exact refl.ite (hf.ite (hf.trans (event (by unfold pMdw; omega))))

theorem dropSection : Spares c (c.dropSection e) := by
  have hclear : Changes [.fab, .key, .lanes] c (c.clearTokens (16 + e)) := by
    show Changes _ c (((c.put .fab (c.clearTokens (16 + e)).fab).put .key (c.clearTokens (16 + e)).key).put .lanes
      (c.clearTokens (16 + e)).lanes)
    exact ((Changes.put .fab).trans ((Changes.put .key).trans (.put .lanes))).mono rfl
  have hrest : Changes [.task, .rgns, .fab] (c.clearTokens (16 + e)) (c.dropSection e) :=
    ((((Changes.put .task).trans (.put .rgns)).trans (.put .fab)).trans (.put .fab)).mono rfl
  exact of_changes (hclear.trans hrest) rfl (by decide)

/-! ### Completions -/

theorem readUe {a n : Nat} : Spares c (c.readUe m a n) := by
  refine foldl (fun c w => ?_) _ c
  unfold Core.wordUe
  extract_lets ch
  refine ite ?_ (ite ?_ ?_)
  · refine (bump fun b hb => ?_).trans (logErr (by decide))
    have := hb.place
    have : ch < 12 := Nat.mod_lt _ (by decide)
    unfold aChan pLpm
    omega
  · refine (bump fun b hb => ?_).trans (logErr (by unfold pVlt; omega))
    have := hb.place
    unfold aVlt pVlt
    omega
  · exact logErr (by unfold pMdw; omega)

theorem lpmMoved {k : Nat} (hk : k ≤ 5) : Spares c (c.lpmMoved k a n) := by
  refine ite (bumpBy fun b hb => ?_) refl
  have := hb.place
  unfold pLpm
  omega

theorem moveCopy {l : List Byte} : Spares c (moveCopy m c l n).2 := (readUe.trans (lpmMoved (by decide))).trans (lpmMoved (by decide))

theorem sendEntries {s type : Nat} {l : List (List Byte)} : Spares c (c.sendEntries s type l) :=
  ⟨changes_sendEntries.mono rfl, fun b hb => Core.rd_sendEntries s type l (by have := hb.place; omega)⟩

/-- A register of the task page. -/
theorem ne_task (hb : ModeReg b) (ha : a / 0x1000 = 0x60) : b ≠ a := by
  have := hb.place
  omega

theorem cqPut {l : List Byte} {notify : Bool} : Spares c (cqPut m c l notify).2 := by
  have hset : ∀ v, Spares c (c.setF (pTask + 0xA8) 16 12 v) := fun v => setF fun b hb => ne_task hb (by decide)
  unfold Machine.cqPut
  dsimp only
  split
  · split
    · exact (hset _).trans sendEntries
    · exact hset _
  · exact hset _

theorem cqFlush {fuel : Nat} : Spares c (cqFlush fuel m c).2 := by
  induction fuel generalizing m c with
  | zero => exact refl
  | succ fuel ih =>
    unfold Machine.cqFlush
    split
    · next fuel' w rest hfuel hwaiting =>
      obtain rfl := Nat.succ.inj hfuel
      split
      · exact refl
      · have hrest : Spares c { c with task := { c.task with waiting := rest } } := of_changes (.put .task) rfl (by decide)
        exact (hrest.trans cqPut).trans ih
    · exact refl

theorem complete {l : List Byte} {status code flags start : Nat} : Spares c (complete m c l status code flags start).2 := by
  unfold Machine.complete
  extract_lets d w
  have hd : Spares c d := bump fun b hb => ne_task hb (by decide)
  exact (hd.trans (of_changes (.put .task) rfl (by decide))).trans cqFlush

theorem modTask {f : Task → Task} : Spares c (c.modTask e f) := of_changes (.put .task) rfl (by decide)

theorem ready : Spares c (c.ready e).2 := by
  unfold Core.ready
  extract_lets t
  split
  · exact refl
  split
  · exact refl
  · exact of_changes (.put .task) rfl (by decide)

theorem wake {gen status : Nat} : Spares c (c.wake e gen status).2 := by
  unfold Core.wake
  suffices h : ∀ (l : List (Nat × Task)) (y : List Nat × Core), Spares c y.2 → Spares c (l.foldl _ y).2 from h _ _ refl
  intro l
  induction l with
  | nil => exact fun _ hy => hy
  | cons en l ih =>
    intro y hy
    refine ih _ ?_
    dsimp only
    split
    · exact (hy.trans modTask).trans ready
    · exact hy

theorem finishAll {fuel : Nat} {l : List (Nat × Nat × Nat)} : Spares c (finishAll fuel l (m, c)).2 := by
  induction fuel generalizing l m c with
  | zero => exact refl
  | succ fuel ih =>
    cases l with
    | nil => exact refl
    | cons y l =>
      obtain ⟨x, status, code⟩ := y
      unfold Machine.finishAll
      extract_lets t c1 c2 r w
      have h1 : Spares c c1 := of_changes (.put .task) rfl (by decide)
      have h2 : Spares c c2 := (h1.trans (bump fun b hb => ne_task hb (by decide))).ite h1
      exact ((h2.trans complete).trans wake).trans ih

theorem finishTask {status code : Nat} : Spares c (finishTask m c e status code).2 :=
  finishAll.trans (of_changes (.put .task) rfl (by decide))

theorem plogPut {q : Pub} {v tick status : Nat} {digest : Word64} : Spares c (plogPut m c q v tick status digest).2 :=
  (setF fun b hb => ne_task hb (by decide)).trans (of_changes (.put .task) rfl (by decide))

theorem plogPub {q : Pub} {status : Nat} : Spares c (plogPub m c q status).2 := by
  refine Spares.trans (d := if status = 0 then c.bump (pTask + 0x138) else if status = 1 then c.bump (pKey + 0x1D0) else c) ?_ plogPut
  refine ite (bump fun b hb => ne_task hb (by decide)) (ite (bump fun b hb => ?_) refl)
  have := hb.place
  unfold pKey
  omega

theorem noteLog {t : Task} : Spares c (noteLog m c t).2 := by
  unfold Machine.noteLog
  split
  · exact plogPut
  · exact refl

theorem giveBack {status : Nat} : Spares c (c.giveBack e status) := by
  unfold Core.giveBack
  extract_lets k d
  have hd : Spares c d := modTask.ite refl
  exact ite (hd.ite (hd.trans dropSection)) (ite (of_changes (.put .task) rfl (by decide)) refl)

theorem endTask {status code : Nat} : Spares c (endTask m c e status code).2 := (noteLog.trans giveBack).trans finishTask

/-! ### Aborts -/

/-- A task whose work has ended completes. -/
theorem taskComplete_ends {status code : Nat} : Spares c (taskComplete m (c.ends e status code) e).2 := by
  have hends : Spares c (c.ends e status code) := modTask
  have hprogress : taskProgress m (c.ends e status code) e = (m, c.ends e status code) := by
    unfold taskProgress
    exact if_pos (by rw [Core.taskAt_ends]; simp)
  unfold taskComplete
  rw [hprogress]
  dsimp only
  rw [Core.taskAt_ends]
  dsimp only
  split
  · exact hends.trans endTask
  · exact hends

theorem abortRunning : Spares c (abortRunning m c e).2 := by
  unfold Machine.abortRunning
  extract_lets t k mine g a x r words
  split
  · split
    · exact refl
    · exact haltRgn.trans endTask
  split
  · split
    · exact refl
    · have hfresh : Spares c x.2 := of_changes (.put .free) rfl (by decide)
      exact (hfresh.trans moveCopy).trans endTask
  split
  · split
    · exact refl
    · have hkey : ∀ k : KeyStage, Spares c { c with key := k } := fun k => of_changes (.put .key) rfl (by decide)
      exact ((hkey _).trans plogPub).trans endTask
  split
  · split
    · exact refl
    · have hkey : ∀ k : KeyStage, Spares c (({ c with key := k } : Core).wr (pKey + 0x100) 0) := fun k => by
        refine (of_changes (.put .key) rfl (by decide)).trans (wr fun b hb => ?_)
        have := hb.place
        unfold pKey
        omega
      exact (hkey _).trans endTask
  split
  · split
    · exact taskComplete_ends
    · exact refl
  · exact refl

theorem abortAll : Spares c (abortAll m c).2 := by
  unfold Machine.abortAll
  suffices h : ∀ (l : List Nat) (y : Mem × Core), Spares c y.2 → Spares c (l.foldl (fun r e => Machine.abortRunning r.1 r.2 e) y).2 from
    h _ _ refl
  intro l
  induction l with
  | nil => exact fun _ hy => hy
  | cons e l ih => exact fun y hy => ih _ (hy.trans abortRunning)

end Spares

end Sys2Proof.Machine
end

