-- ==== Sys2Proof/Proofs/SafeState.lean ====
section
/-! PROOF. Class S errors and safe state (R506, R508 to R510, R513, R514). -/

namespace Sys2Proof.Machine

variable {m : Mem} {c d : Core} {s : State} {a : Access} {b g v p page code source detail kind plain : Nat}

/-! ### What an error records -/

/-- The error is logged by the page that detected it, with a copy in FLT. -/
def Core.errLogged (c : Core) (page code source detail : Nat) : Core :=
  if page = pFlt then c.logErr page clsS code 0 source detail
  else (c.logErr page clsS code 0 source detail).logErr pFlt clsS code 0 source detail

/-- The core with another state of FLT. -/
def Core.withFlt (c : Core) (f : FltSt) : Core := { c with flt := f }

theorem Core.rd_withFlt (c : Core) (f : FltSt) (b : Nat) : (c.withFlt f).rd b = c.rd b := rfl

theorem changes_withFlt {f : FltSt} : Changes [.flt] c (c.withFlt f) := .put .flt

/-- The first error of a safe state begins its record. -/
def Core.errFirst (c : Core) (code : Nat) : Core :=
  ((c.setF aFltState 8 8 code).setF aFltState 24 8 0).withFlt { c.flt with errors := [] }

/-- LAST_CAUSE and COUNT of FLT_STATE take the error. -/
def Core.errCounted (c : Core) (code : Nat) : Core := (c.setF aFltState 16 8 code).setF aFltState 24 8 (min 255 (c.getF aFltState 24 8 + 1))

/-- The error is among those of this safe state. -/
def Core.errListed (c : Core) (x : Nat × Nat) : Core := if c.flt.errors.contains x then c else c.withFlt { c.flt with errors := c.flt.errors ++ [x] }

def Core.errNoted (c : Core) (code source : Nat) : Core := (c.errCounted code).errListed (code, source)

theorem Core.errLogged_spares (hp : page % 0x1000 = 0) : Spares c (c.errLogged page code source detail) :=
  .ite (.logErr hp) ((Spares.logErr hp).trans (.logErr (by decide)))

theorem changes_errLogged : Changes [.regs, .cyc, .notices, .errSeq] c (c.errLogged page code source detail) :=
  .ite changes_logErr ((changes_logErr.trans changes_logErr).mono rfl)

theorem Core.errLogged_safe (hp : page % 0x1000 = 0) : (c.errLogged page code source detail).safe = c.safe :=
  Core.safe_congr ((Core.errLogged_spares hp).rd _ modeReg_fltState)

/-- An error is the first of its safe state, which it enters, or one more. -/
theorem errS_eq (m : Mem) (c : Core) (hp : page % 0x1000 = 0) : errS m c page code source detail =
    if c.safe then (m, (c.errLogged page code source detail).errNoted code source)
    else safeEnter m (((c.errLogged page code source detail).errFirst code).errNoted code source) := by
  have hsafe := Core.errLogged_safe (c := c) (code := code) (source := source) (detail := detail) hp
  unfold errS
  extract_lets c1 c2 first src srcFlt c3 c4 src' c5
  have h2 : c2 = c.errLogged page code source detail := rfl
  clear_value c2
  have hfirst : first = !c2.safe := rfl
  clear_value first
  have h3 : c3 = if first = true then c2.errFirst code else c2 := rfl
  clear_value c3
  have h4 : c4 = c3.errCounted code := rfl
  clear_value c4
  have h5 : c5 = c4.errListed (code, source) := rfl
  rw [h5, h4, ← Core.errNoted, h3, hfirst, h2, hsafe]
  cases c.safe with
  | false => simp only [Bool.not_false, if_true, Bool.false_eq_true, if_false]
  | true => simp only [Bool.not_true, if_true, Bool.false_eq_true, if_false]

theorem Core.errFirst_rd (hb : b ≠ aFltState) : (c.errFirst code).rd b = c.rd b :=
  (Core.rd_withFlt _ _ b).trans ((Core.rd_setF_ne _ _ _ _ hb).trans (Core.rd_setF_ne c _ _ _ hb))

theorem Core.errFirst_first : (c.errFirst code).getF aFltState 8 8 = code % 256 :=
  (Core.getF_of_rd (Core.rd_withFlt _ _ _)).trans
    ((Core.getF_setF_apart _ _ _ _ _ _ _ (by decide) (by decide)).trans (Core.getF_setF_self c _ _ _ _ (by decide)))

theorem changes_errFirst : Changes [.regs, .flt] c (c.errFirst code) :=
  ((changes_setF.trans changes_setF).trans changes_withFlt).mono rfl

theorem Core.errListed_regs (c : Core) (x : Nat × Nat) : (c.errListed x).regs = c.regs := by
  unfold Core.errListed
  split <;> rfl

theorem changes_errNoted : Changes [.regs, .flt] c (c.errNoted code source) :=
  ((changes_setF.trans changes_setF).trans (.skipIf changes_withFlt)).mono rfl

theorem Core.errNoted_rd (hb : b ≠ aFltState) : (c.errNoted code source).rd b = c.rd b :=
  (Core.rd_congr (Core.errListed_regs _ _) b).trans ((Core.rd_setF_ne _ _ _ _ hb).trans (Core.rd_setF_ne c _ _ _ hb))

/-- The fields of FLT_STATE below LAST_CAUSE stay. -/
theorem Core.errNoted_below {lo w : Nat} (h : lo + w ≤ 16) : (c.errNoted code source).getF aFltState lo w = c.getF aFltState lo w :=
  (Core.getF_congr (Core.errListed_regs _ _) _ _ _).trans ((Core.getF_setF_apart _ _ _ _ _ _ _ (by decide) (.inl (by omega))).trans
    (Core.getF_setF_apart c _ _ _ _ _ _ (by decide) (.inl h)))

theorem Core.errNoted_last : (c.errNoted code source).getF aFltState 16 8 = code % 256 :=
  (Core.getF_congr (Core.errListed_regs _ _) _ _ _).trans ((Core.getF_setF_apart _ _ _ _ _ _ _ (by decide) (by decide)).trans
    (Core.getF_setF_self c _ _ _ _ (by decide)))

theorem Core.errNoted_count : (c.errNoted code source).getF aFltState 24 8 = min 255 (c.getF aFltState 24 8 + 1) :=
  (Core.getF_congr (Core.errListed_regs _ _) _ _ _).trans ((Core.getF_setF_self _ _ _ _ _ (by decide)).trans (Nat.mod_eq_of_lt (by omega)))

/-- The errors of this safe state with one more. -/
def noteErr (l : List (Nat × Nat)) (x : Nat × Nat) : List (Nat × Nat) := if l.contains x then l else l ++ [x]

theorem mem_noteErr {l : List (Nat × Nat)} {x : Nat × Nat} : x ∈ noteErr l x := by
  unfold noteErr
  split
  next h => exact List.contains_iff_mem.mp h
  next => exact List.mem_append_right _ (List.mem_singleton_self x)

theorem Core.errListed_flt (c : Core) (x : Nat × Nat) : (c.errListed x).flt = { c.flt with errors := noteErr c.flt.errors x } := by
  unfold Core.errListed noteErr
  split <;> rfl

theorem Core.errNoted_flt : (c.errNoted code source).flt = { c.flt with errors := noteErr c.flt.errors (code, source) } := by
  rw [Core.errNoted, Core.errListed_flt, Core.errCounted, Core.setF_flt, Core.setF_flt]

/-! ### What entering safe state stops -/

theorem changes_driveOuts {outs : Nat} {level : Bool} {till : Option Nat} :
    Changes [.regs, .cap, .out] c (c.driveOuts outs level till) := by
  refine .skipIf (.foldl (fun c j => ?_) _ c)
  have hdrive : Changes [.regs, .out] c (if c.getB (pCap + 0x148) j = level then c
      else (c.setF (pCap + 0x148) j 1 (b2n level)).emit (.edge (4 + j) (c.cap.ball j level) c.now)) :=
    .skipIf (changes_setF.trans changes_emit)
  exact (hdrive.trans (.put .cap)).mono rfl

theorem Core.rd_driveOuts {outs : Nat} {level : Bool} {till : Option Nat} (hb : b ≠ pCap + 0x148) :
    (c.driveOuts outs level till).rd b = c.rd b := by
  unfold Core.driveOuts
  split
  · rfl
  · next h =>
    clear h
    generalize maskBits 8 outs = l
    induction l generalizing c with
    | nil => rfl
    | cons j l ih =>
      refine ih.trans ?_
      dsimp only
      split
      · rfl
      · exact Core.rd_setF_ne c _ _ _ hb

theorem changes_dropOuts : Changes [.regs, .cap, .out] c c.dropOuts := (changes_driveOuts.trans (.put .cap)).mono rfl

/-- No swap is armed. -/
def Core.unswapped (c : Core) : Core := { c with swapArmed := none }

theorem changes_unswapped : Changes [.swapArmed] c c.unswapped := .put .swapArmed

theorem Core.rd_unswapped (c : Core) (b : Nat) : c.unswapped.rd b = c.rd b := rfl

theorem Core.swapArmed_unswapped (c : Core) : c.unswapped.swapArmed = none := rfl

/-- An armed swap is disarmed, and its page shows and logs it. -/
theorem Core.dropSwap_cases (c : Core) : (c.swapArmed = none ∧ c.dropSwap = c) ∨ ∃ x y source detail, c.dropSwap =
    ((c.setF aSwap 9 1 0).setF aSwap 24 8 (c.getF aSwap 24 8 ||| x)).unswapped.logErr pTime clsC 0x09 y source detail := by
  unfold Core.dropSwap
  cases h : c.swapArmed with
  | none => exact .inl ⟨rfl, rfl⟩
  | some w => exact .inr ⟨_, _, _, _, rfl⟩

theorem changes_dropSwap : Changes [.regs, .cyc, .notices, .errSeq, .swapArmed] c c.dropSwap := by
  rcases c.dropSwap_cases with ⟨-, h⟩ | ⟨x, y, source, detail, h⟩ <;> rw [h]
  · exact .refl
  · exact (((changes_setF.trans changes_setF).trans changes_unswapped).trans changes_logErr).mono rfl

theorem Core.dropSwap_swapArmed (c : Core) : c.dropSwap.swapArmed = none := by
  rcases c.dropSwap_cases with ⟨hnone, h⟩ | ⟨x, y, source, detail, h⟩ <;> rw [h]
  · exact hnone
  · rw [Core.logErr_swapArmed, Core.swapArmed_unswapped]

theorem Core.rd_dropSwap (hb : ModeReg b) : c.dropSwap.rd b = c.rd b := by
  have hplace := hb.place
  have hswap : b ≠ aSwap := by
    unfold aSwap pTime
    omega
  rcases c.dropSwap_cases with ⟨-, h⟩ | ⟨x, y, source, detail, h⟩ <;> rw [h]
  have hlog : ∀ d : Core, (d.unswapped.logErr pTime clsC 0x09 y source detail).rd b = d.rd b := fun d =>
    (Core.rd_logErr_ne _ _ _ _ _ _ (hb.not_logTouches (by decide))).trans (Core.rd_unswapped d b)
  rw [hlog, Core.rd_setF_ne _ _ _ _ hswap, Core.rd_setF_ne _ _ _ _ hswap]

theorem changes_dropLinks : Changes [.lanes] c c.dropLinks := .foldl (fun _ _ => changes_setLane) _ c

/-- The Ford holds nothing. -/
def Core.fordEmptied (c : Core) : Core := { c with ford := { c.ford with buf := [] } }

/-- The gate is shut, the Ford empty, no slice runs and every task that ran is aborted. -/
def safeAborts (m : Mem) (c : Core) : Mem × Core := abortAll m c.shutGate.fordEmptied.abandonSlice

/-- The trigger outputs, an armed swap and the lanes' retransmission state are dropped as well. -/
def Core.safeDrops (c : Core) : Core := c.dropOuts.dropSwap.dropLinks

/-- FLT_STATE and DEV_STATUS show safe state. -/
def Core.safeMarked (c : Core) : Core := (c.setF aFltState 0 1 1).setF 0x88 0 3 5

/-- FLT shows the tick and the time of entry and counts it. -/
def Core.safeTimed (c : Core) : Core := ((c.wr (pFlt + 0x88) c.tick).wr (pFlt + 0x90) (linear c.now)).bump (pFlt + 0x120)

/-- Safe state is shown, the state before it kept. -/
def Core.safeShown (c : Core) : Core :=
  ((c.safeMarked.safeTimed.withFlt { c.safeMarked.safeTimed.flt with stateBefore := c.devState }).event pFlt 8).emit .interrupt

theorem safeEnter_eq (m : Mem) (c : Core) : safeEnter m c = ((safeAborts m c).1, (safeAborts m c).2.safeDrops.safeShown) := by
  unfold safeEnter
  extract_lets c1 src c2 r c3 st c4 c5
  have h1 : c1 = c.shutGate := rfl
  clear_value c1
  have h2 : c2 = c1.fordEmptied := rfl
  clear_value c2
  have hr : r = abortAll m c2.abandonSlice := rfl
  clear_value r
  have h3 : c3 = r.2.safeDrops := rfl
  clear_value c3
  have h4 : c4 = c3.safeMarked := rfl
  clear_value c4
  have h5 : c5 = c4.safeTimed := rfl
  clear_value c5
  rw [safeAborts, ← h1, ← h2, ← hr, ← h3, Core.safeShown, ← h4, ← h5]
  rfl

/-! ### The aborts keep the errors and close the gate -/

theorem Core.getF_abandonSlice_bist {lo w : Nat} (h : 8 ≤ lo) : c.abandonSlice.getF aBist lo w = c.getF aBist lo w := by
  have hdrop : c.sliceDropped.getF aBist lo w = c.getF aBist lo w :=
    (Core.getF_of_rd ((Core.rd_event_ne _ _ (by decide)).trans (Core.rd_bump_ne _ (by decide)))).trans
      (Core.getF_setF_apart c _ _ _ _ _ _ (by decide) (.inr h))
  rcases c.abandonSlice_cases with ⟨-, hs⟩ | hs | ⟨e, hs⟩ <;> rw [hs]
  · exact hdrop
  · exact hdrop

theorem Core.rd_fordEmptied (c : Core) (b : Nat) : c.fordEmptied.rd b = c.rd b := rfl

theorem Core.rd_shutGate (hb : ModeReg b) (hgate : b ≠ aGate) : c.shutGate.rd b = c.rd b :=
  ((RdBelow.closeGate _).rd b (by have := hb.place; omega)).trans (Core.rd_setF_ne c _ _ _ hgate)

theorem Core.shutGate_flt : c.shutGate.flt = c.flt := changes_closeGate .flt (by decide)

/-- What the aborts leave of a core. -/
structure SafeStop (c d : Core) : Prop where
  flt : d.flt = { c.flt with slice := none }
  gate : d.getB aGate 0 = false
  ford : d.ford.buf = []
  bist : ∀ lo w, 8 ≤ lo → d.getF aBist lo w = c.getF aBist lo w
  rd : ∀ b, ModeReg b → b ≠ aGate → b ≠ aBist → b ≠ pFlt + 0x110 → d.rd b = c.rd b

theorem Core.fordEmptied_ford (c : Core) : c.fordEmptied.ford.buf = [] := rfl
theorem Core.fordEmptied_flt (c : Core) : c.fordEmptied.flt = c.flt := rfl

theorem safeAborts_spares (m : Mem) (c : Core) : Spares c.shutGate.fordEmptied.abandonSlice (safeAborts m c).2 := Spares.abortAll

theorem safeAborts_stop (m : Mem) (c : Core) : SafeStop c (safeAborts m c).2 := by
  have haborts := safeAborts_spares m c
  generalize (safeAborts m c).2 = r at haborts ⊢
  have hflt : r.flt = c.shutGate.fordEmptied.abandonSlice.flt := haborts.parts .flt (by decide)
  have hford : r.ford = c.shutGate.fordEmptied.abandonSlice.ford := haborts.parts .ford (by decide)
  have hford' : c.shutGate.fordEmptied.abandonSlice.ford = c.shutGate.fordEmptied.ford := changes_abandonSlice .ford (by decide)
  have hpend : ∀ {b}, ModeReg b → b ≠ pFlt + 0x38 := fun hb h => by
    have := hb.place
    unfold pFlt at h
    omega
  have hslice : ∀ b, ModeReg b → b ≠ aBist → b ≠ pFlt + 0x110 → r.rd b = c.shutGate.rd b := fun b hb hbist hcount =>
    (haborts.rd b hb).trans ((Core.rd_abandonSlice_ne hbist hcount (hpend hb)).trans (Core.rd_fordEmptied _ b))
  refine ⟨?_, ?_, ?_, fun lo w hlo => ?_, fun b hb hgate hbist hcount => ?_⟩
  · rw [hflt, Core.abandonSlice_flt, Core.fordEmptied_flt, Core.shutGate_flt]
  · exact (Core.getB_of_rd (hslice _ modeReg_gate (by decide) (by decide))).trans Core.shutGate_spec.1
  · rw [hford, hford', Core.fordEmptied_ford]
  · refine (Core.getF_of_rd (haborts.rd _ modeReg_bist)).trans ((Core.getF_abandonSlice_bist hlo).trans ?_)
    exact Core.getF_of_rd ((Core.rd_fordEmptied _ _).trans (Core.rd_shutGate modeReg_bist (by decide)))
  · exact (hslice b hb hbist hcount).trans (Core.rd_shutGate hb hgate)

theorem Core.rd_safeDrops (hb : ModeReg b) : c.safeDrops.rd b = c.rd b := by
  refine (Core.rd_congr (changes_dropLinks .regs (by decide)) b).trans ((Core.rd_dropSwap hb).trans (Core.rd_driveOuts ?_))
  have := hb.place
  unfold pCap
  omega

theorem changes_safeDrops : Changes [.regs, .cap, .out, .cyc, .notices, .errSeq, .swapArmed, .lanes] c c.safeDrops :=
  ((changes_dropOuts.trans changes_dropSwap).trans changes_dropLinks).mono rfl

theorem Core.safeDrops_swapArmed : c.safeDrops.swapArmed = none :=
  (changes_dropLinks .swapArmed (by decide)).trans c.dropOuts.dropSwap_swapArmed

theorem Core.safeDrops_pulses : c.safeDrops.cap.pulses = [] :=
  congrArg Cap.pulses ((changes_dropLinks .cap (by decide)).trans (changes_dropSwap .cap (by decide)) : c.safeDrops.cap = c.dropOuts.cap)

/-! ### The entry -/

theorem Core.rd_safeTimed (hb : b ≠ pFlt + 0x88) (hb' : b ≠ pFlt + 0x90) (hcount : b ≠ pFlt + 0x120) : c.safeTimed.rd b = c.rd b :=
  (Core.rd_bump_ne _ hcount).trans ((Core.rd_wr_ne _ _ hb').trans (Core.rd_wr_ne c _ hb))

theorem changes_safeTimed : Changes [.regs] c c.safeTimed := ((changes_wr.trans changes_wr).trans changes_bump).mono rfl

theorem changes_safeMarked : Changes [.regs] c c.safeMarked := (changes_setF.trans changes_setF).mono rfl

theorem changes_safeShown : Changes [.regs, .flt, .cyc, .notices, .out] c c.safeShown :=
  ((((changes_safeMarked.trans changes_safeTimed).trans changes_withFlt).trans changes_event).trans changes_emit).mono rfl

theorem Core.safeShown_flt : c.safeShown.flt = { c.flt with stateBefore := c.devState } := by
  have hparts : c.safeMarked.safeTimed.flt = c.flt := (changes_safeMarked.trans changes_safeTimed) .flt (by decide)
  refine ((changes_event.trans changes_emit) .flt (by decide)).trans ?_
  show FltSt.mk _ _ _ _ _ _ _ _ _ = _
  rw [hparts]

theorem Core.rd_safeShown (hb : b ≠ pFlt + 0x88) (hb' : b ≠ pFlt + 0x90) (hcount : b ≠ pFlt + 0x120) (hpend : b ≠ pFlt + 0x38) :
    c.safeShown.rd b = c.safeMarked.rd b :=
  (Core.rd_event_ne _ _ hpend).trans ((Core.rd_withFlt _ _ b).trans (Core.rd_safeTimed hb hb' hcount))

theorem Core.safeShown_state : c.safeShown.safe = true ∧ c.safeShown.devState = 5 ∧
    ∀ lo w, 1 ≤ lo → c.safeShown.getF aFltState lo w = c.getF aFltState lo w := by
  have hstate : c.safeShown.rd aFltState = (c.setF aFltState 0 1 1).rd aFltState :=
    (Core.rd_safeShown (by decide) (by decide) (by decide) (by decide)).trans (Core.rd_setF_ne _ _ _ _ (by decide))
  refine ⟨(Core.getB_of_rd hstate).trans (Core.getB_setF_self c _ 0 1 (by decide)), ?_, fun lo w hlo => ?_⟩
  · exact (Core.getF_of_rd (Core.rd_safeShown (by decide) (by decide) (by decide) (by decide))).trans (Core.getF_setF_self _ _ _ _ _ (by decide))
  · exact (Core.getF_of_rd hstate).trans (Core.getF_setF_apart c _ _ _ _ _ _ (by decide) (.inr hlo))

/-- The registers of the power page, and the signature of the last slice. -/
def LimitReg (b : Nat) : Prop := b = pFlt + 0xB8 ∨ (pPwr + 0x80 ≤ b ∧ b < pPwr + 0x400)

theorem LimitReg.mode (h : LimitReg b) : ModeReg b ∧ b ≠ 0x88 ∧ b ≠ aGate ∧ b ≠ aFltState ∧ b ≠ aBist ∧ b ≠ pFlt + 0x110 ∧
    b ≠ pFlt + 0x88 ∧ b ≠ pFlt + 0x90 ∧ b ≠ pFlt + 0x120 ∧ b ≠ pFlt + 0x38 := by
  unfold LimitReg at h
  unfold ModeReg aGate aFltState aBist pComp1
  unfold pFlt pPwr at *
  omega

/-- A core in safe state, entered from another. -/
structure Entered (c d : Core) : Prop where
  safe : d.safe = true
  state : d.devState = 5
  causes : ∀ lo w, 8 ≤ lo → d.getF aFltState lo w = c.getF aFltState lo w
  flt : d.flt = { c.flt with slice := none, stateBefore := c.devState }
  gate : d.getB aGate 0 = false
  ford : d.ford.buf = []
  swap : d.swapArmed = none
  pulses : d.cap.pulses = []
  bist : ∀ lo w, 8 ≤ lo → d.getF aBist lo w = c.getF aBist lo w
  rd : ∀ b, LimitReg b → d.rd b = c.rd b

theorem safeEnter_entered (m : Mem) (c : Core) : Entered c (safeEnter m c).2 := by
  rw [safeEnter_eq]
  obtain ⟨hflt, hgate, hford, hbist, hrd⟩ := safeAborts_stop m c
  dsimp only
  generalize (safeAborts m c).2 = d at hflt hgate hford hbist hrd ⊢
  obtain ⟨hsafe, hstate, hcauses⟩ := Core.safeShown_state (c := d.safeDrops)
  have hshown : ∀ b, ModeReg b → b ≠ 0x88 → b ≠ aFltState → b ≠ pFlt + 0x88 → b ≠ pFlt + 0x90 → b ≠ pFlt + 0x120 → b ≠ pFlt + 0x38 →
      d.safeDrops.safeShown.rd b = d.rd b := fun b hb hdev hmark h1 h2 h3 h4 =>
    (Core.rd_safeShown h1 h2 h3 h4).trans ((Core.rd_setF_ne _ _ _ _ hdev).trans ((Core.rd_setF_ne _ _ _ _ hmark).trans (Core.rd_safeDrops hb)))
  refine ⟨hsafe, hstate, fun lo w hlo => ?_, ?_, ?_, ?_, ?_, ?_, fun lo w hlo => ?_, fun b hb => ?_⟩
  · exact (hcauses lo w (by omega)).trans (Core.getF_of_rd ((Core.rd_safeDrops modeReg_fltState).trans
      (hrd _ modeReg_fltState (by decide) (by decide) (by decide))))
  · have hdev : d.safeDrops.devState = c.devState := Core.getF_of_rd ((Core.rd_safeDrops modeReg_devStatus).trans
      (hrd _ modeReg_devStatus (by decide) (by decide) (by decide)))
    rw [Core.safeShown_flt, show d.safeDrops.flt = d.flt from changes_safeDrops .flt (by decide), hflt, hdev]
  · exact (Core.getB_of_rd (hshown _ modeReg_gate (by decide) (by decide) (by decide) (by decide) (by decide) (by decide))).trans hgate
  · exact (congrArg Ford.buf ((changes_safeDrops.trans changes_safeShown) .ford (by decide))).trans hford
  · exact (changes_safeShown .swapArmed (by decide)).trans Core.safeDrops_swapArmed
  · exact (congrArg Cap.pulses (changes_safeShown .cap (by decide))).trans Core.safeDrops_pulses
  · exact (Core.getF_of_rd (hshown _ modeReg_bist (by decide) (by decide) (by decide) (by decide) (by decide) (by decide))).trans (hbist lo w hlo)
  · obtain ⟨hmode, hdev, hnGate, hmark, hnBist, hnCount, h1, h2, h3, h4⟩ := hb.mode
    exact (hshown b hmode hdev hmark h1 h2 h3 h4).trans (hrd b hmode hnGate hnBist hnCount)

/-! ### Errors -/

/-- The first error of a safe state, of a code and a source, has struck. -/
structure Struck (c : Core) (code source : Nat) (d : Core) : Prop where
  safe : d.safe = true
  state : d.devState = 5
  first : d.getF aFltState 8 8 = code % 256
  last : d.getF aFltState 16 8 = code % 256
  flt : d.flt = { c.flt with errors := [(code, source)], slice := none, stateBefore := c.devState }
  gate : d.getB aGate 0 = false
  ford : d.ford.buf = []
  swap : d.swapArmed = none
  pulses : d.cap.pulses = []
  bist : ∀ lo w, 8 ≤ lo → d.getF aBist lo w = c.getF aBist lo w
  rd : ∀ b, LimitReg b → d.rd b = c.rd b

theorem Core.errFirst_flt : (c.errFirst code).flt = { c.flt with errors := [] } := rfl

theorem errS_first (m : Mem) (hp : page % 0x1000 = 0) (hsafe : c.safe = false) :
    Struck c code source (errS m c page code source detail).2 := by
  rw [errS_eq m c hp, if_neg (by simp [hsafe])]
  have hlogged := Core.errLogged_spares (c := c) (code := code) (source := source) (detail := detail) hp
  have hparts : (c.errLogged page code source detail).flt = c.flt := changes_errLogged .flt (by decide)
  generalize c.errLogged page code source detail = d at hlogged hparts ⊢
  have hrd : ∀ b, ModeReg b → b ≠ aFltState → ((d.errFirst code).errNoted code source).rd b = c.rd b := fun b hb hne =>
    (Core.errNoted_rd hne).trans ((Core.errFirst_rd hne).trans (hlogged.rd b hb))
  have hflt : ((d.errFirst code).errNoted code source).flt = { c.flt with errors := [(code, source)] } := by
    rw [Core.errNoted_flt, Core.errFirst_flt, hparts]
    rfl
  have hfirst : ((d.errFirst code).errNoted code source).getF aFltState 8 8 = code % 256 :=
    (Core.errNoted_below (by decide)).trans Core.errFirst_first
  have hlast : ((d.errFirst code).errNoted code source).getF aFltState 16 8 = code % 256 := Core.errNoted_last
  generalize (d.errFirst code).errNoted code source = e at hrd hflt hfirst hlast ⊢
  obtain ⟨hs, hstate, hcauses, hefl, hgate, hford, hswap, hpulses, hbist, hlim⟩ := safeEnter_entered m e
  have hdev : e.devState = c.devState := Core.getF_of_rd (hrd _ modeReg_devStatus (by decide))
  refine ⟨hs, hstate, (hcauses 8 8 (by decide)).trans hfirst, (hcauses 16 8 (by decide)).trans hlast, ?_, hgate, hford, hswap, hpulses,
    fun lo w hlo => ?_, fun b hb => ?_⟩
  · rw [hefl, hflt, hdev]
  · exact (hbist lo w hlo).trans (Core.getF_of_rd (hrd _ modeReg_bist (by decide)))
  · exact (hlim b hb).trans (hrd b hb.mode.1 hb.mode.2.2.2.1)

/-- One more error of a safe state. -/
structure StruckAgain (c : Core) (code source : Nat) (d : Core) : Prop where
  safe : d.safe = true
  first : d.getF aFltState 8 8 = c.getF aFltState 8 8
  last : d.getF aFltState 16 8 = code % 256
  count : d.getF aFltState 24 8 = min 255 (c.getF aFltState 24 8 + 1)
  rgns : d.rgns = c.rgns
  flt : d.flt = { c.flt with errors := noteErr c.flt.errors (code, source) }
  rd : ∀ b, ModeReg b → b ≠ aFltState → d.rd b = c.rd b

theorem errS_again (m : Mem) (hp : page % 0x1000 = 0) (hsafe : c.safe = true) :
    (errS m c page code source detail).1 = m ∧ StruckAgain c code source (errS m c page code source detail).2 := by
  rw [errS_eq m c hp, if_pos hsafe]
  refine ⟨rfl, ?_⟩
  have hlogged := Core.errLogged_spares (c := c) (code := code) (source := source) (detail := detail) hp
  have hparts : (c.errLogged page code source detail).flt = c.flt := changes_errLogged .flt (by decide)
  have hrgns : (c.errLogged page code source detail).rgns = c.rgns := changes_errLogged .rgns (by decide)
  dsimp only
  generalize c.errLogged page code source detail = d at hlogged hparts hrgns ⊢
  have hstate : ∀ lo w, d.getF aFltState lo w = c.getF aFltState lo w := fun _ _ => Core.getF_of_rd (hlogged.rd _ modeReg_fltState)
  refine ⟨?_, ?_, Core.errNoted_last, ?_, ?_, ?_, fun b hb hne => ?_⟩
  · refine Eq.trans ?_ hsafe
    have hbit : (d.errNoted code source).getF aFltState 0 1 = c.getF aFltState 0 1 := (Core.errNoted_below (by decide)).trans (hstate 0 1)
    exact congrArg (fun x => decide (x = 1)) hbit
  · exact (Core.errNoted_below (by decide)).trans (hstate 8 8)
  · rw [Core.errNoted_count, hstate]
  · exact (changes_errNoted .rgns (by decide)).trans hrgns
  · rw [Core.errNoted_flt, hparts]
  · exact (Core.errNoted_rd hne).trans (hlogged.rd b hb)

/-! ### What enters safe state -/

/-- The clause of O50 about a safe state entered. -/
theorem Struck.entered {d : Core} (h : Struck c code source d) (hcode : code < 256) (hstate : c.devState = s.core.devState) :
    d.safe = true ∧ d.devState = 5 ∧ d.getF aFltState 8 8 = code ∧ d.getF aFltState 16 8 = code ∧ d.flt.errors = [(code, source)] ∧
    d.getB aGate 0 = false ∧ d.ford.buf = [] ∧ d.swapArmed = none ∧ d.cap.pulses = [] ∧ d.flt.stateBefore = s.core.devState ∧
    d.flt.slice = none := by
  obtain ⟨hsafe, hdev, hfirst, hlast, hflt, hgate, hford, hswap, hpulses, -, -⟩ := h
  rw [Nat.mod_eq_of_lt hcode] at hfirst hlast
  rw [hflt]
  exact ⟨hsafe, hdev, hfirst, hlast, rfl, hgate, hford, hswap, hpulses, hstate, rfl⟩

/-- The source of a forced safe state: who wrote. -/
def enterSource (a : Access) : Nat := match a.who with | .firmware => 0 | .session _ => 1

theorem hFltCtrl_enter (m : Mem) (ha : a.view = .priv) (hexit : bit v 1 = false) :
    hFltCtrl m c a (setBits v 0 1 1) = errS m c pFlt 0x46 (enterSource a) 0 := by
  have hset : bit (setBits v 0 1 1) 0 = true := bit_setBits_one v 0
  have hkeep : bit (setBits v 0 1 1) 1 = false := (bit_setBits_ne (by decide)).trans hexit
  generalize setBits v 0 1 1 = w at hset hkeep ⊢
  unfold hFltCtrl
  rw [if_neg (by simp [isPriv_of_view ha])]
  dsimp only
  rw [hset, hkeep]
  exact if_pos rfl

theorem hFltCtrl_exit (m : Mem) (ha : a.view = .priv) (henter : bit v 0 = false) :
    hFltCtrl m c a (setBits v 1 1 1) = (m, if c.exitOk then c.safeExit else c.reject pFlt 0x98 (setBits v 1 1 1)) := by
  have hset : bit (setBits v 1 1 1) 1 = true := bit_setBits_one v 1
  have hkeep : bit (setBits v 1 1 1) 0 = false := (bit_setBits_ne (by decide)).trans henter
  generalize setBits v 1 1 1 = w at hset hkeep ⊢
  unfold hFltCtrl
  rw [if_neg (by simp [isPriv_of_view ha])]
  dsimp only
  rw [hset, hkeep]
  exact if_neg (by decide)

theorem enter_enters {v : Word64} (hsafe : s.core.safe = false) (ha : a.view = .priv) (hexit : bit v.toNat 1 = false) :
    Stated.RunsDev (.enter a v) s fun _ c => Struck s.core 0x46 (enterSource a) c := by
  refine (runsDev_devStep (f := fun m c => hFltCtrl m c a (setBits v.toNat 0 1 1)) rfl).mpr ?_
  rw [hFltCtrl_enter s.mem ha hexit]
  exact errS_first s.mem (by decide) hsafe

/-- The page that detects a state error. -/
def statePage (unit : Nat) : Nat := if unit = 0 then pKey else if unit = 1 then pTime else pCtl

theorem statePage_mod (unit : Nat) : statePage unit % 0x1000 = 0 := by
  unfold statePage
  split
  · decide
  · split <;> decide

theorem stateUe_runs {unit word : Nat} {P : Mem → Core → Prop} : Stated.RunsDev (.stateUe unit word) s P ↔
    P (errS s.mem s.core (statePage unit) 0x44 unit word).1 (errS s.mem s.core (statePage unit) 0x44 unit word).2 :=
  runsDev_devStep (f := fun m c => errS m c (statePage unit) 0x44 unit word) rfl

/-! ### Lost clocks -/

/-- A clock is lost: it is kept, and a PLL that unlocks is shown by its plain. -/
def Core.clockGone (c : Core) (kind p : Nat) : Core :=
  let d := c.withFlt { c.flt with unlocked := c.flt.unlocked ++ [(kind, p)] }
  let d := if kind = 1 then d.setF (aPlnClk p) (d.getF (aPlnClk p) 2 1) 1 0 else d
  if kind = 0 then d else (d.raiseF (aPlnClk p) 3).event (pPln p) 8

theorem clockLoss_eq (m : Mem) (hkind : kind ≤ 2) (hp : (if kind = 0 then 0 else plain) < c.plains)
    (hlocked : (kind, if kind = 0 then 0 else plain) ∉ c.flt.unlocked) : clockLoss m c kind plain =
      errS m (c.clockGone kind (if kind = 0 then 0 else plain))
        (if kind = 0 then pPwr else pPln (if kind = 0 then 0 else plain)) 0x43 kind (if kind = 0 then 0 else plain) := by
  unfold clockLoss
  extract_lets p
  refine (if_neg ?_).trans rfl
  have hnot : c.flt.unlocked.contains (kind, p) = false := by
    rw [Bool.eq_false_iff]
    exact fun h => hlocked (List.contains_iff_mem.mp h)
  rw [hnot]
  simp only [Bool.or_false, Bool.or_eq_true, decide_eq_true_eq, not_or]
  exact ⟨by omega, Nat.not_le.mpr hp⟩

theorem Core.clockGone_spec (c : Core) (kind p : Nat) : (c.clockGone kind p).flt = { c.flt with unlocked := c.flt.unlocked ++ [(kind, p)] } ∧
    ∀ b, b < 0x180000 → (c.clockGone kind p).rd b = c.rd b := by
  have hclk := (aPlnClk_mod p).2
  unfold Core.clockGone
  extract_lets src d e
  have hd : d.flt = { c.flt with unlocked := c.flt.unlocked ++ [(kind, p)] } := rfl
  have hdrd : ∀ b, d.rd b = c.rd b := fun b => rfl
  clear_value d
  have he : e.flt = d.flt ∧ ∀ b, b < 0x180000 → e.rd b = d.rd b := by
    unfold e
    split
    · exact ⟨rfl, fun b hb => Core.rd_setF_ne _ _ _ _ (by omega)⟩
    · exact ⟨rfl, fun _ _ => rfl⟩
  clear_value e
  rw [← hd, ← he.1]
  split
  · exact ⟨rfl, fun b hb => (he.2 b hb).trans (hdrd b)⟩
  · refine ⟨(changes_raiseF.trans changes_event) .flt (by decide), fun b hb => ?_⟩
    exact (Core.rd_event_ne _ _ (by unfold pPln; omega)).trans ((Core.rd_raiseF_ne (by omega)).trans ((he.2 b hb).trans (hdrd b)))

theorem clockLoss_runs {P : Mem → Core → Prop} : Stated.RunsDev (.clockLoss kind plain) s P ↔
    P (clockLoss s.mem s.core kind plain).1 (clockLoss s.mem s.core kind plain).2 :=
  runsDev_devStep (f := fun m c => clockLoss m c kind plain) rfl

theorem clockLoss_struck (hsafe : s.core.safe = false) (hkind : kind ≤ 2) (hp : (if kind = 0 then 0 else plain) < s.core.plains)
    (hlocked : (kind, if kind = 0 then 0 else plain) ∉ s.core.flt.unlocked) :
    Stated.RunsDev (.clockLoss kind plain) s fun _ c => Struck (s.core.clockGone kind (if kind = 0 then 0 else plain)) 0x43 kind c := by
  rw [clockLoss_runs, clockLoss_eq s.mem hkind hp hlocked]
  refine errS_first s.mem ?_ ((Core.safe_congr ((Core.clockGone_spec _ _ _).2 _ (by decide))).trans hsafe)
  split
  · decide
  · unfold pPln
    omega

/-! ### The exit -/

/-- The state of a standing region after an exit: what was running or draining is halted. -/
def exitPhase (p : Phase) : Phase := if p = .running || p = .draining then .halted else p

theorem Rgn.phase_of_butFates {q r : Rgn} (h : q.butFates = r.butFates) : q.phase = r.phase :=
  (congrArg Rgn.phase h : q.butFates.phase = r.butFates.phase)

theorem Core.phase_closeEgress (c : Core) (g h : Nat) : ((c.closeEgress g).rgn h).phase = (c.rgn h).phase :=
  Rgn.phase_of_butFates (FatesOnly.closeEgress c g h)

theorem Core.phase_exitRgn (c : Core) (g : Nat) : ((c.exitRgn g).rgn g).phase = exitPhase (c.rgn g).phase ∧
    ∀ h, h ≠ g → ((c.exitRgn g).rgn h).phase = (c.rgn h).phase := by
  unfold Core.exitRgn exitPhase
  extract_lets r
  split
  · refine ⟨?_, fun h hne => ?_⟩
    · rw [Core.phase_closeEgress, Core.rgn_setRgn_self]
    · rw [Core.phase_closeEgress, Core.rgn_setRgn_ne _ _ hne]
  · exact ⟨rfl, fun _ _ => rfl⟩

theorem Core.exitRgn_spares (c : Core) (g : Nat) : Spares c (c.exitRgn g) :=
  .ite ((Spares.of_changes (.put .rgns) rfl (by decide)).trans .closeEgress) .refl

/-- Every standing region is halted if it ran. -/
def Core.exitRgns (c : Core) : Core := (List.range 8).foldl (fun c g => c.exitRgn g) c

/-- FLT_STATE and DEV_STATUS show service again. -/
def Core.exitMarked (c : Core) : Core := (c.setF aFltState 0 1 0).setF 0x88 0 3 3

/-- No error stands. -/
def Core.errorsOver (c : Core) : Core := c.withFlt { c.flt with errors := [] }

theorem Core.safeExit_eq (c : Core) : c.safeExit = c.exitRgns.exitMarked.errorsOver := by
  unfold Core.safeExit
  extract_lets d e
  have hd : d = c.exitRgns := rfl
  clear_value d
  have he : e = d.exitMarked := rfl
  clear_value e
  rw [← hd, ← he]
  rfl

theorem Core.phase_exitRgns (c : Core) (hg : g < 8) : (c.exitRgns.rgn g).phase = exitPhase (c.rgn g).phase :=
  (foldl_once (fun c => (c.rgn g).phase) exitPhase (fun c => (c.phase_exitRgn g).1) (fun c q hq => (c.phase_exitRgn q).2 g hq.symm)
    _ c List.nodup_range).trans (if_pos (List.mem_range.mpr hg))

theorem Core.rgn_exitMarked (c : Core) (f : FltSt) (g : Nat) : (c.exitMarked.withFlt f).rgn g = c.rgn g := rfl

theorem Core.errors_withFlt (c : Core) (f : FltSt) : (c.withFlt f).flt = f := rfl

theorem Core.safeExit_spec (c : Core) : c.safeExit.safe = false ∧ c.safeExit.devState = 3 ∧ c.safeExit.flt.errors = [] ∧
    ∀ g, g < 8 → (c.safeExit.rgn g).phase = exitPhase (c.rgn g).phase := by
  rw [Core.safeExit_eq, Core.errorsOver]
  refine ⟨?_, ?_, ?_, fun g hg => ?_⟩
  · refine (Core.getB_of_rd ((Core.rd_withFlt _ _ _).trans (Core.rd_setF_ne _ _ _ _ (by decide)))).trans ?_
    exact (Core.getB_setF_self _ aFltState 0 0 (by decide)).trans rfl
  · exact (Core.getF_of_rd (Core.rd_withFlt _ _ _)).trans (Core.getF_setF_self _ _ _ _ _ (by decide))
  · rw [Core.errors_withFlt]
  · rw [Core.rgn_exitMarked, Core.phase_exitRgns c hg]

theorem exit_runs {v : Word64} {P : Mem → Core → Prop} (ha : a.view = .priv) (henter : bit v.toNat 0 = false) :
    Stated.RunsDev (.exit a v) s P ↔
      P s.mem (if s.core.exitOk then s.core.safeExit else s.core.reject pFlt 0x98 (setBits v.toNat 1 1 1)) := by
  refine (runsDev_devStep (f := fun m c => hFltCtrl m c a (setBits v.toNat 1 1 1)) rfl).trans ?_
  rw [hFltCtrl_exit s.mem ha henter]

theorem exit_leaves {v : Word64} (ha : a.view = .priv) (henter : bit v.toNat 0 = false) (hok : s.core.exitOk = true) :
    Stated.RunsDev (.exit a v) s fun m c => m = s.mem ∧ c.safe = false ∧ c.devState = 3 ∧ c.flt.errors = [] ∧
      ∀ g, g < 8 → ((s.core.rgn g).phase = .running ∨ (s.core.rgn g).phase = .draining → (c.rgn g).phase = .halted) ∧
        ((s.core.rgn g).phase ≠ .running → (s.core.rgn g).phase ≠ .draining → (c.rgn g).phase = (s.core.rgn g).phase) := by
  rw [exit_runs ha henter, if_pos hok]
  obtain ⟨hsafe, hstate, herrors, hphase⟩ := s.core.safeExit_spec
  refine ⟨rfl, hsafe, hstate, herrors, fun g hg => ⟨fun hran => ?_, fun hrun hdrain => ?_⟩⟩
  · rw [hphase g hg]
    exact if_pos (by simpa using hran)
  · rw [hphase g hg]
    exact if_neg (by simp [hrun, hdrain])

theorem exit_refused {v : Word64} (ha : a.view = .priv) (henter : bit v.toNat 0 = false) (hno : s.core.exitOk = false) :
    Stated.RunsDev (.exit a v) s fun m c => m = s.mem ∧ c.safe = s.core.safe ∧ c.flt = s.core.flt ∧ c.rgns = s.core.rgns := by
  rw [exit_runs ha henter, if_neg (by simp [hno])]
  exact ⟨rfl, Core.safe_congr (Core.rd_logErr_ne _ _ _ _ _ _ (modeReg_fltState.not_logTouches (by decide))),
    changes_reject .flt (by decide), changes_reject .rgns (by decide)⟩

/-! ### Clocks that are back -/

theorem clockLocked_locks (hlost : (kind, if kind = 0 then 0 else plain) ∈ s.core.flt.unlocked) :
    Stated.Runs (.clockLocked kind plain) s fun c => (kind, if kind = 0 then 0 else plain) ∉ c.flt.unlocked := by
  refine (runs_iff (d := s.core.clockLocked kind plain) rfl).mpr ?_
  unfold Core.clockLocked
  extract_lets p src d
  rw [if_neg (by simpa using hlost)]
  have hd : d.flt.unlocked = s.core.flt.unlocked.filter (· ≠ (kind, p)) := rfl
  have hgone : (kind, p) ∉ d.flt.unlocked := by
    rw [hd]
    simp
  split
  · exact hgone
  · exact hgone

end Sys2Proof.Machine

open Sys2Proof Sys2Proof.Machine

/-- Settles O50: an error's record and the entry into safe state are followed stage by stage; the tasks that the entry aborts leave the
modes of the device (`Spares`). -/
theorem safeStateIsEntered : Obligations.SafeStateIsEntered := by
  refine ⟨?_, ?_, fun s a v ha henter => ⟨exit_leaves ha henter, exit_refused ha henter⟩, fun s kind plain => clockLocked_locks⟩
  · intro s a v unit word kind plain hsafe entered
    refine ⟨fun ha hexit => ?_, ?_, ?_⟩
    · obtain ⟨m, c, hexec, hstruck⟩ := enter_enters hsafe ha hexit
      exact ⟨m, c, hexec, hstruck.entered (by decide) rfl⟩
    · exact stateUe_runs.mpr ((errS_first s.mem (statePage_mod unit) hsafe).entered (by decide) rfl)
    · intro p hkind hp hlocked
      obtain ⟨m, c, hexec, hstruck⟩ := clockLoss_struck hsafe hkind hp hlocked
      obtain ⟨hflt, hrd⟩ := Core.clockGone_spec s.core kind p
      refine ⟨m, c, hexec, hstruck.entered (by decide) (Core.getF_of_rd (hrd _ (by decide))), ?_⟩
      rw [hstruck.flt, hflt]
  · intro s unit word hsafe
    obtain ⟨hmem, hstruck⟩ := errS_again (code := 0x44) (source := unit) (detail := word) s.mem (statePage_mod unit) hsafe
    refine stateUe_runs.mpr ⟨hmem, hstruck.safe, hstruck.first, hstruck.last, hstruck.count, hstruck.rgns, ?_⟩
    rw [hstruck.flt]
    exact mem_noteErr

end

