-- ==== Sys2Proof/Proofs/Limits.lean ====
section
/-! PROOF. Sensors, rails and their limits (R534 to R537), and the slices of the self-test (R516 to R520). -/

namespace Sys2Proof.Machine

variable {m : Mem} {c d : Core} {s : State} {b k r w ev mv amps power page code source detail md : Nat} {t : Int} {on out : Bool}
  {owner : Option Nat} {sig : Word64}

/-! ### Readings -/

/-- A reading of a width reads back as the number it shows. -/
theorem unsigned_signed {w x : Nat} (hx : x < 2 ^ w) : unsigned w (signed w x) = x := by
  have hpos : (0 : Int) < 2 ^ w := by positivity
  have hlt : (x : Int) < 2 ^ w := by exact_mod_cast hx
  unfold unsigned signed
  rw [Nat.mod_eq_of_lt hx]
  have hmod : ((x : Int) % 2 ^ w) = x := Int.emod_eq_of_lt (by positivity) hlt
  split
  · rw [Int.sub_emod_right, hmod, hmod, Int.toNat_natCast]
  · rw [hmod, hmod, Int.toNat_natCast]

theorem unsigned_lt (w : Nat) (i : Int) : unsigned w i < 2 ^ w := by
  have h := unsigned_mod w i
  have := Nat.mod_lt (unsigned w i) (Nat.two_pow_pos w)
  omega

/-! ### Warnings -/

theorem changes_warn : Changes [.regs, .cyc, .notices, .pwr, .out] c (c.warn w ev on) := by
  refine .ite (.skipIf ?_) ((Changes.put .pwr).mono rfl)
  exact (((Changes.put .pwr).trans changes_event).trans changes_emit).mono rfl

theorem Core.rd_warn (hb : b ≠ pPwr + 0x38) : (c.warn w ev on).rd b = c.rd b := by
  unfold Core.warn
  split
  · split
    · rfl
    · exact Core.rd_event_ne _ ev hb
  · rfl

/-- The warnings that hold. -/
def Core.withWarns (c : Core) (l : List Nat) : Core := { c with pwr := { c.pwr with warns := l } }

/-- A warning changes nothing of the power state but the warnings, among which it then is while it holds. -/
theorem Core.warn_pwr (c : Core) (w ev : Nat) (on : Bool) : ∃ l, (c.warn w ev on).pwr = { c.pwr with warns := l } ∧ l.contains w = on := by
  unfold Core.warn
  cases on with
  | false =>
    refine ⟨_, rfl, ?_⟩
    rw [Bool.eq_false_iff]
    intro h
    simpa using List.contains_iff_mem.mp h
  | true =>
    by_cases hw : c.pwr.warns.contains w = true
    · rw [if_pos rfl, if_pos hw]
      exact ⟨_, rfl, hw⟩
    · rw [if_pos rfl, if_neg hw]
      refine ⟨insertNat w c.pwr.warns, ?_, List.contains_iff_mem.mpr (mem_insertNat.mpr (.inl rfl))⟩
      exact (changes_event.trans changes_emit) .pwr (by decide)

/-! ### Sensors -/

/-- The register of a reading of a vault or of a plain. -/
theorem Core.showTemp_spec (c : Core) (src k : Nat) (t : Int) :
    (((c.showTemp src k t).pwr.temps.find? fun e => e.1 = src) = some (src, unsigned 12 t)) ∧
    (c.showTemp src k t).pwr.warns = c.pwr.warns ∧ (c.showTemp src k t).safe = c.safe := by
  unfold Core.showTemp
  extract_lets v p d e
  have hd : d.pwr.temps = Store.insert (Store.erase c.pwr.temps src) src v ∧ d.pwr.warns = c.pwr.warns ∧ d.rd aFltState = c.rd aFltState :=
    ⟨rfl, rfl, rfl⟩
  clear_value d
  have he : e.pwr.temps = d.pwr.temps ∧ e.pwr.warns = d.pwr.warns ∧ e.rd aFltState = d.rd aFltState := by
    unfold e
    split
    · exact ⟨rfl, rfl, Core.rd_setF_ne _ _ _ _ (by unfold aFltState pFlt pPln; omega)⟩
    · split
      · exact ⟨rfl, rfl, (Core.vaultSensor_shown d _ t).2 _ (by unfold aFltState pFlt aVlt pVlt; omega)⟩
      · exact ⟨rfl, rfl, rfl⟩
  clear_value e
  obtain ⟨htemps, hwarns, hstate⟩ := hd
  obtain ⟨htemps', hwarns', hstate'⟩ := he
  refine ⟨?_, hwarns'.trans hwarns, Core.safe_congr ((Core.rd_setF_ne _ _ _ _ (by decide)).trans (hstate'.trans hstate))⟩
  show (e.pwr.temps.find? fun x => x.1 = src) = _
  rw [htemps', htemps, Store.find_put, if_pos rfl]

theorem sensorSample_eq (m : Mem) {x : Reading} (hk : c.sensorKind x.source = some k) : sensorSample m c x =
    if tripLevel k ≤ signed 12 (unsigned 12 x.temp) && ((c.showTemp x.source k (signed 12 (unsigned 12 x.temp))).warn x.source 8
        (c.warnLevel k ≤ signed 12 (unsigned 12 x.temp))).newTrip 0x41 x.source then
      errS m ((c.showTemp x.source k (signed 12 (unsigned 12 x.temp))).warn x.source 8 (c.warnLevel k ≤ signed 12 (unsigned 12 x.temp)))
        (sensorPage x.source) 0x41 x.source (unsigned 32 (signed 12 (unsigned 12 x.temp)))
    else (m, (c.showTemp x.source k (signed 12 (unsigned 12 x.temp))).warn x.source 8 (c.warnLevel k ≤ signed 12 (unsigned 12 x.temp))) := by
  unfold sensorSample
  rw [hk]

theorem sensorPage_mod (src : Nat) : sensorPage src % 0x1000 = 0 := by
  unfold sensorPage
  split
  · unfold pPln
    omega
  · split
    · decide
    · unfold pVlt
      omega

theorem sensorSample_runs {x : Reading} {P : Mem → Core → Prop} : Stated.RunsDev (.sensorSample x) s P ↔
    P (sensorSample s.mem s.core x).1 (sensorSample s.mem s.core x).2 := runsDev_devStep (f := fun m c => sensorSample m c x) rfl

/-- A reading is kept, and its warning holds while it stands at its level. -/
theorem Core.sensorShown_spec (c : Core) (x : Reading) (k : Nat) :
    let t := signed 12 (unsigned 12 x.temp)
    let d := (c.showTemp x.source k t).warn x.source 8 (c.warnLevel k ≤ t)
    (d.pwr.temps.find? fun e => e.1 = x.source) = some (x.source, unsigned 12 x.temp % 2 ^ 12) ∧ d.safe = c.safe ∧
      d.pwr.warns.contains x.source = decide (c.warnLevel k ≤ t) := by
  intro t d
  obtain ⟨htemps, -, hsafe⟩ := c.showTemp_spec x.source k t
  obtain ⟨l, hpwr, hl⟩ := (c.showTemp x.source k t).warn_pwr x.source 8 (c.warnLevel k ≤ t)
  refine ⟨?_, (Core.safe_congr (Core.rd_warn (by decide))).trans hsafe, ?_⟩
  · rw [show d.pwr = _ from hpwr]
    rw [unsigned_signed (unsigned_lt 12 x.temp)] at htemps
    rw [unsigned_mod]
    exact htemps
  · rw [show d.pwr = _ from hpwr]
    exact hl

/-! ### Rails -/

/-- What keeps the modes' registers that a rail's sample reads: those below FLT, and FLT_STATE. -/
def RailKeeps (c d : Core) : Prop := d.clk = c.clk ∧ ∀ b, b < 0xD0000 ∨ b = aFltState → d.rd b = c.rd b

theorem RailKeeps.trans {e : Core} (h : RailKeeps c d) (g : RailKeeps d e) : RailKeeps c e :=
  ⟨g.1.trans h.1, fun b hb => (g.2 b hb).trans (h.2 b hb)⟩

theorem RailKeeps.safe (h : RailKeeps c d) : d.safe = c.safe := Core.safe_congr (h.2 _ (.inr rfl))

theorem RailKeeps.now (h : RailKeeps c d) : d.now = c.now :=
  Core.now_congr h.1 fun b hb => h.2 b (.inl (by rcases hb with rfl | rfl <;> decide))

theorem RailKeeps.warn : RailKeeps c (c.warn w ev on) :=
  ⟨changes_warn .clk (by decide), fun b hb => Core.rd_warn (by unfold aFltState pFlt at hb; unfold pPwr; omega)⟩

theorem RailKeeps.setF {a lo w v : Nat} (ha : 0xE0000 ≤ a) : RailKeeps c (c.setF a lo w v) :=
  ⟨rfl, fun b hb => Core.rd_setF_ne c _ _ _ (by unfold aFltState pFlt at hb; omega)⟩

theorem RailKeeps.abandonSlice : RailKeeps c c.abandonSlice :=
  ⟨changes_abandonSlice .clk (by decide), fun b hb => by
    unfold aFltState pFlt at hb
    exact Core.rd_abandonSlice_ne (by unfold aBist pFlt; omega) (by unfold pFlt; omega) (by unfold pFlt; omega)⟩

/-- The register that shows a rail. -/
def aRail (r : Nat) : Nat := pPwr + 0x100 + 8 * r

/-- A rail's voltage, current and range are shown. -/
def Core.railShown (c : Core) (r mv amps : Nat) : Core :=
  ((c.setF (aRail r) 0 16 mv).setF (aRail r) 16 16 amps).setF (aRail r) 32 1 (b2n (c.outside r mv 3))

theorem Core.showRail_eq (c : Core) (r mv amps : Nat) : c.showRail r mv amps =
    if c.outside r mv 3 then ((c.railShown r mv amps).warn (wRail r) 10 (c.outside r mv 3)).abandonSlice
    else (c.railShown r mv amps).warn (wRail r) 10 (c.outside r mv 3) := rfl

theorem Core.railShown_fields (c : Core) (r mv amps : Nat) : (c.railShown r mv amps).getF (aRail r) 0 16 = mv % 2 ^ 16 ∧
    (c.railShown r mv amps).getF (aRail r) 16 16 = amps % 2 ^ 16 ∧ (c.railShown r mv amps).getB (aRail r) 32 = c.outside r mv 3 := by
  refine ⟨?_, ?_, ?_⟩
  · exact (Core.getF_setF_apart _ _ _ _ _ _ _ (by decide) (by decide)).trans
      ((Core.getF_setF_apart _ _ _ _ _ _ _ (by decide) (by decide)).trans (Core.getF_setF_self c _ _ _ _ (by decide)))
  · exact (Core.getF_setF_apart _ _ _ _ _ _ _ (by decide) (by decide)).trans (Core.getF_setF_self _ _ _ _ _ (by decide))
  · refine (Core.getB_setF_self _ (aRail r) 32 _ (by decide)).trans ?_
    cases c.outside r mv 3 <;> rfl

/-- What a rail's sample shows before it looks for trips. -/
def Core.railSampled (c : Core) (r mv amps power : Nat) : Core :=
  ((c.showRail r (mv % 2 ^ 16) amps).railSince r (c.outside r (mv % 2 ^ 16) 5)).showPower (power % 2 ^ 16)

theorem Core.rd_showRail (hb : b = aRail r) : (c.showRail r mv amps).rd b = (c.railShown r mv amps).rd b := by
  subst hb
  rw [Core.showRail_eq]
  have hwarn : ∀ on, ((c.railShown r mv amps).warn (wRail r) 10 on).rd (aRail r) = (c.railShown r mv amps).rd (aRail r) := fun on =>
    Core.rd_warn (by unfold aRail; omega)
  split
  · exact (Core.rd_abandonSlice_ne (by unfold aRail aBist pPwr pFlt; omega) (by unfold aRail pPwr pFlt; omega)
      (by unfold aRail pPwr pFlt; omega)).trans (hwarn _)
  · exact hwarn _

theorem Core.rd_railSince (c : Core) (r : Nat) (out : Bool) (b : Nat) : (c.railSince r out).rd b = c.rd b := rfl

theorem Core.railSampled_rail (c : Core) (r mv amps power : Nat) :
    (c.railSampled r mv amps power).rd (aRail r) = (c.railShown r (mv % 2 ^ 16) amps).rd (aRail r) :=
  ((Core.rd_warn (by unfold aRail; omega)).trans (Core.rd_setF_ne _ _ _ _ (by unfold aRail; omega))).trans
    ((Core.rd_railSince _ _ _ _).trans (Core.rd_showRail rfl))

theorem Core.railSampled_power (c : Core) (r mv amps power : Nat) :
    (c.railSampled r mv amps power).getF (pPwr + 0x98) 0 16 = power % 2 ^ 16 :=
  (Core.getF_of_rd (Core.rd_warn (by decide))).trans ((Core.getF_setF_self _ _ _ _ _ (by decide)).trans (Nat.mod_mod _ _))

theorem RailKeeps.showRail : RailKeeps c (c.showRail r mv amps) := by
  have ha : 0xE0000 ≤ aRail r := by
    unfold aRail pPwr
    omega
  have hshown : RailKeeps c (c.railShown r mv amps) := ((RailKeeps.setF ha).trans (.setF ha)).trans (.setF ha)
  rw [Core.showRail_eq]
  split
  · exact (hshown.trans .warn).trans .abandonSlice
  · exact hshown.trans .warn

theorem RailKeeps.railSampled : RailKeeps c (c.railSampled r mv amps power) := by
  have hsince : ∀ d : Core, ∀ out, RailKeeps d (d.railSince r out) := fun d out => ⟨rfl, fun _ _ => rfl⟩
  exact (RailKeeps.showRail.trans (hsince _ _)).trans ((RailKeeps.setF (by decide)).trans .warn)

theorem Core.outSince_warn : (c.warn w ev on).pwr.outSince = c.pwr.outSince := by
  obtain ⟨l, hpwr, -⟩ := c.warn_pwr w ev on
  rw [hpwr]

theorem Core.pwr_railShown : (c.railShown r mv amps).pwr = c.pwr := by
  rw [Core.railShown, Core.setF_pwr, Core.setF_pwr, Core.setF_pwr]

theorem Core.pwr_abandonSlice : c.abandonSlice.pwr = c.pwr := changes_abandonSlice .pwr (by decide)

theorem Core.outSince_showRail : (c.showRail r mv amps).pwr.outSince = c.pwr.outSince := by
  rw [Core.showRail_eq]
  split
  · rw [Core.pwr_abandonSlice, Core.outSince_warn, Core.pwr_railShown]
  · rw [Core.outSince_warn, Core.pwr_railShown]

/-- A rail that stays outside ±5 % keeps the instant since when. -/
theorem Core.outSince_railSince {t0 : Nat} (h : (r, t0) ∈ c.pwr.outSince) : (c.railSince r true).pwr.outSince = c.pwr.outSince :=
  if_pos (List.any_eq_true.mpr ⟨_, h, decide_eq_true rfl⟩)

theorem Core.railSampled_trips {t0 : Nat} (h : (r, t0) ∈ c.pwr.outSince) (hlong : t0 + nsN 10000 ≤ c.now)
    (hout : c.outside r (mv % 2 ^ 16) 5 = true) : (c.railSampled r mv amps power).railTrip r = true := by
  have hsince : (c.railSampled r mv amps power).pwr.outSince = c.pwr.outSince := by
    have hkept : (r, t0) ∈ (c.showRail r (mv % 2 ^ 16) amps).pwr.outSince := by
      rw [Core.outSince_showRail]
      exact h
    rw [Core.railSampled, hout]
    exact Core.outSince_warn.trans ((Core.outSince_railSince hkept).trans Core.outSince_showRail)
  unfold Core.railTrip
  rw [hsince, RailKeeps.railSampled.now]
  exact List.any_eq_true.mpr ⟨_, h, by simpa using hlong⟩

/-- The rail's own trip. -/
def railFirst (m : Mem) (c : Core) (r mv : Nat) : Mem × Core :=
  if c.railTrip r && c.newTrip 0x42 r then errS m c pPwr 0x42 r (mv % 2 ^ 16) else (m, c)

/-- The trip of package power, of a source that is a free value. -/
def powerTrip (x : Mem × Core) (power tdp : Nat) : Mem × Core :=
  if 11 * 8 * tdp < 10 * (power % 2 ^ 16) && !(x.2.safe && x.2.flt.errors.any fun (e : Nat × Nat) => e.1 = 0x42) then
    errS x.1 x.2.fresh.2 pPwr 0x42 (x.2.fresh.1 % 2 ^ 32) (power % 2 ^ 16)
  else x

theorem railSample_eq (m : Mem) (hr : r ≠ 9 ∨ c.part = 1) : railSample m c r mv amps power =
    powerTrip (railFirst m (c.railSampled r mv amps power) r mv) power (c.railSampled r mv amps power).tdp := by
  unfold railSample
  rw [if_neg (by omega)]
  rfl

/-- An error leaves the registers of the limits. -/
theorem rd_errS (hp : page % 0x1000 = 0) (hb : LimitReg b) : (errS m c page code source detail).2.rd b = c.rd b := by
  cases hsafe : c.safe with
  | false => exact (errS_first m hp hsafe).rd b hb
  | true => exact (errS_again m hp hsafe).2.rd b hb.mode.1 hb.mode.2.2.2.1

theorem rd_railFirst (hb : LimitReg b) : (railFirst m c r mv).2.rd b = c.rd b := by
  unfold railFirst
  split
  · exact rd_errS (by decide) hb
  · rfl

theorem Core.rd_fresh (c : Core) (b : Nat) : c.fresh.2.rd b = c.rd b := rfl

theorem rd_powerTrip {x : Mem × Core} {tdp : Nat} (hb : LimitReg b) : (powerTrip x power tdp).2.rd b = x.2.rd b := by
  unfold powerTrip
  split
  · exact (rd_errS (by decide) hb).trans (Core.rd_fresh _ b)
  · rfl

theorem limitReg_rail (hr : r < 10) : LimitReg (aRail r) := by
  unfold LimitReg aRail pPwr
  omega

theorem railSample_runs (hr : r < 10) {P : Mem → Core → Prop} : Stated.RunsDev (.railSample r mv amps power) s P ↔
    P (railSample s.mem s.core r mv amps power).1 (railSample s.mem s.core r mv amps power).2 := by
  refine (runsDev_devStep (f := fun m c => if r < 10 then railSample m c r mv amps power else (m, c)) rfl).trans ?_
  rw [if_pos hr]

theorem railSample_shown (hr : r < 10) (hpart : r ≠ 9 ∨ s.core.part = 1) (hmv : mv < 2 ^ 16) :
    Stated.RunsDev (.railSample r mv amps power) s fun _ c =>
      c.getF (aRail r) 0 16 = mv ∧ c.getF (aRail r) 16 16 = amps % 2 ^ 16 ∧ c.getB (aRail r) 32 = s.core.outside r mv 3 ∧
      c.getF (pPwr + 0x98) 0 16 = power % 2 ^ 16 := by
  rw [railSample_runs hr, railSample_eq s.mem hpart]
  have hrail := fun tdp => (rd_powerTrip (power := power) (tdp := tdp) (limitReg_rail hr)).trans ((rd_railFirst (m := s.mem) (mv := mv) (r := r) (limitReg_rail hr)).trans
    (s.core.railSampled_rail r mv amps power))
  have hpower := fun tdp => (rd_powerTrip (x := railFirst s.mem (s.core.railSampled r mv amps power) r mv) (power := power) (tdp := tdp)
    (.inr (by decide) : LimitReg (pPwr + 0x98))).trans (rd_railFirst (.inr (by decide)))
  obtain ⟨hvolts, hamps, hout⟩ := s.core.railShown_fields r (mv % 2 ^ 16) amps
  rw [Nat.mod_mod, Nat.mod_eq_of_lt hmv] at hvolts
  rw [Nat.mod_eq_of_lt hmv] at hamps hout hrail
  exact ⟨(Core.getF_of_rd (hrail _)).trans hvolts, (Core.getF_of_rd (hrail _)).trans hamps, (Core.getB_of_rd (hrail _)).trans hout,
    (Core.getF_of_rd (hpower _)).trans (s.core.railSampled_power r mv amps power)⟩

theorem railSample_trips {t0 : Nat} (hr : r < 10) (hpart : r ≠ 9 ∨ s.core.part = 1) (hmv : mv < 2 ^ 16)
    (h : (r, t0) ∈ s.core.pwr.outSince) (hlong : t0 + nsN 10000 ≤ s.core.now) (hout : s.core.outside r mv 5 = true)
    (hsafe : s.core.safe = false) :
    Stated.RunsDev (.railSample r mv amps power) s fun _ c => c.safe = true ∧ (0x42, r) ∈ c.flt.errors := by
  rw [railSample_runs hr, railSample_eq s.mem hpart]
  have hshownSafe : (s.core.railSampled r mv amps power).safe = false := RailKeeps.railSampled.safe.trans hsafe
  have htrip := Core.railSampled_trips (amps := amps) (power := power) h hlong ((Nat.mod_eq_of_lt hmv).symm ▸ hout)
  generalize s.core.railSampled r mv amps power = d at hshownSafe htrip ⊢
  have hfirst : railFirst s.mem d r mv = errS s.mem d pPwr 0x42 r (mv % 2 ^ 16) :=
    if_pos (by simp [htrip, Core.newTrip, hshownSafe])
  have hstruck := errS_first (code := 0x42) (source := r) (detail := mv % 2 ^ 16) s.mem (page := pPwr) (by decide) hshownSafe
  rw [hfirst]
  generalize errS s.mem d pPwr 0x42 r (mv % 2 ^ 16) = x at hstruck ⊢
  have herrors : x.2.flt.errors = [(0x42, r)] := by rw [hstruck.flt]
  have hpower : powerTrip x power d.tdp = x := if_neg (by simp [hstruck.safe, herrors])
  rw [hpower]
  exact ⟨hstruck.safe, herrors ▸ List.mem_singleton_self _⟩

/-! ### Slices start -/

/-- The period of the self-test begins anew. -/
def Core.sliceDue (c : Core) : Core := { c with flt := { c.flt with lastAt := c.now } }

theorem Core.nextMeadow_sliceDue (c : Core) : c.sliceDue.nextMeadow = c.nextMeadow := rfl
theorem Core.rd_sliceDue (c : Core) (b : Nat) : c.sliceDue.rd b = c.rd b := rfl

theorem Core.sliceStart_due (hon : c.getB (pFlt + 0xA0) 0 = true)
    (hdue : c.flt.lastAt + nsN (c.getF (pFlt + 0xA0) 1 16 * 1000000) ≤ c.now) : c.sliceStart =
      match c.nextMeadow with
      | some md => if c.sliceOk && !c.safe && c.flt.slice.isNone then (c.sliceDue.hold [md] 0xFFFF).beginSlice md none
        else c.sliceDue.bump (pFlt + 0x108)
      | none => c.sliceDue.bump (pFlt + 0x108) := by
  unfold Core.sliceStart
  dsimp only
  rw [if_neg (by simpa [hon] using hdue)]
  rfl

/-- A slice that begins is shown, and its meadow's state saved. -/
def Core.sliceBegun (c : Core) (md : Nat) : Core :=
  ((c.fresh.2.setF aBist 0 7 md).setF aBist 7 1 1).bumpBy (pLpm + 0x100) c.fresh.1

/-- The slice that runs. -/
def Core.withSlice (c : Core) (md : Nat) (owner : Option Nat) : Core := c.withFlt { c.flt with slice := some (md, owner), last := md }

theorem Core.beginSlice_eq (c : Core) (md : Nat) (owner : Option Nat) : c.beginSlice md owner = (c.sliceBegun md).withSlice md owner := rfl

theorem Core.flt_sliceBegun (c : Core) (md : Nat) : (c.sliceBegun md).flt = c.flt := by
  rw [Core.sliceBegun, Core.bumpBy_flt, Core.setF_flt, Core.setF_flt]
  rfl

theorem Core.task_beginSlice (c : Core) (md : Nat) (owner : Option Nat) : (c.beginSlice md owner).task = c.task := by
  have hbegun : (c.sliceBegun md).task = c.task := by
    rw [Core.sliceBegun, Core.bumpBy_task, Core.setF_task, Core.setF_task]
    rfl
  exact (changes_withFlt .task (by decide) : ((c.sliceBegun md).withSlice md owner).task = _).trans hbegun

theorem Core.beginSlice_spec (c : Core) (md : Nat) (owner : Option Nat) :
    (c.beginSlice md owner).flt = { c.flt with slice := some (md, owner), last := md } ∧ (c.beginSlice md owner).getB aBist 7 = true ∧
    ∀ b, b ≠ aBist → b ≠ pLpm + 0x100 → (c.beginSlice md owner).rd b = c.rd b := by
  have hrd : ∀ b, ((c.sliceBegun md).withSlice md owner).rd b = (c.sliceBegun md).rd b := fun b => Core.rd_withFlt _ _ b
  rw [Core.beginSlice_eq]
  refine ⟨?_, ?_, fun b hb hmoved => ?_⟩
  · rw [Core.withSlice, Core.errors_withFlt, Core.flt_sliceBegun]
  · exact (Core.getB_of_rd ((hrd _).trans (Core.rd_bumpBy_ne _ _ (by decide)))).trans (Core.getB_setF_self _ _ 7 1 (by decide))
  · exact (hrd b).trans ((Core.rd_bumpBy_ne _ _ hmoved).trans ((Core.rd_setF_ne _ _ _ _ hb).trans (Core.rd_setF_ne _ _ _ _ hb)))

theorem bistSliceStart_runs {P : Core → Prop} : Stated.Runs .bistSliceStart s P ↔ P s.core.sliceStart := runs_iff (d := s.core.sliceStart) rfl

theorem bistSliceStart_starts (hon : s.core.getB (pFlt + 0xA0) 0 = true)
    (hdue : s.core.flt.lastAt + nsN (s.core.getF (pFlt + 0xA0) 1 16 * 1000000) ≤ s.core.now) (hnext : s.core.nextMeadow = some md)
    (hok : s.core.sliceOk = true) (hsafe : s.core.safe = false) (hnone : s.core.flt.slice = none) :
    Stated.Runs .bistSliceStart s fun c => c.flt.slice = some (md, none) ∧ c.flt.last = md ∧ c.flt.lastAt = s.core.now ∧
      c.getB aBist 7 = true ∧ (md, 0xFFFF) ∈ c.task.holders := by
  rw [bistSliceStart_runs, Core.sliceStart_due hon hdue, hnext]
  dsimp only
  rw [if_pos (by simp [hok, hsafe, hnone])]
  obtain ⟨hflt, hbist, -⟩ := (s.core.sliceDue.hold [md] 0xFFFF).beginSlice_spec md none
  rw [hflt, Core.task_beginSlice]
  exact ⟨rfl, rfl, rfl, hbist, (Store.mem_insert _ _ _ _).mpr (.inl rfl)⟩

theorem bistSliceStart_skips (hon : s.core.getB (pFlt + 0xA0) 0 = true)
    (hdue : s.core.flt.lastAt + nsN (s.core.getF (pFlt + 0xA0) 1 16 * 1000000) ≤ s.core.now)
    (hnot : s.core.nextMeadow = none ∨ s.core.sliceOk = false ∨ s.core.safe = true ∨ s.core.flt.slice ≠ none)
    (hfree : s.core.frozenAt (pFlt + 0x108) = false) : Stated.Runs .bistSliceStart s fun c =>
      c.flt.slice = s.core.flt.slice ∧ c.flt.lastAt = s.core.now ∧ c.rd (pFlt + 0x108) = (s.core.rd (pFlt + 0x108) + 1) % 2 ^ 48 := by
  have hskip : s.core.sliceStart = s.core.sliceDue.bump (pFlt + 0x108) := by
    rw [Core.sliceStart_due hon hdue]
    cases hnext : s.core.nextMeadow with
    | none => rfl
    | some md =>
      refine if_neg ?_
      rcases hnot with h | h | h | h
      · simp [hnext] at h
      · simp [h]
      · simp [h]
      · obtain ⟨w, hw⟩ := Option.ne_none_iff_exists'.mp h
        simp [hw]
  rw [bistSliceStart_runs, hskip, Core.bump_flt]
  exact ⟨rfl, rfl, Core.rd_bump_self _ _ hfree⟩

/-! ### Slices end -/

/-- What follows a slice: nothing, the end of its task, or the next slice of a task. -/
theorem Core.moreSlices_spec (c : Core) : (c.moreSlices.flt.slice = c.flt.slice ∨ ∃ x e, c.moreSlices.flt.slice = some (x, some e)) ∧
    ∀ b, b ≠ aBist → b ≠ pLpm + 0x100 → c.moreSlices.rd b = c.rd b := by
  unfold Core.moreSlices
  split
  next e _ _ =>
    unfold Core.nextTaskSlice
    extract_lets t
    split
    · exact ⟨.inl rfl, fun _ _ _ => rfl⟩
    · split
      · exact ⟨.inl rfl, fun _ _ _ => rfl⟩
      next md _ =>
        split
        · obtain ⟨hflt, -, hrd⟩ := c.beginSlice_spec md (some e)
          exact ⟨.inr ⟨md, e, by rw [hflt]⟩, hrd⟩
        · exact ⟨.inl rfl, fun _ _ _ => rfl⟩
  · exact ⟨.inl rfl, fun _ _ _ => rfl⟩

/-- The slice is over and its meadow's state read back. -/
def Core.sliceDone (c : Core) : Core :=
  (((c.fresh.2.setF aBist 7 1 0).withFlt { c.flt with slice := none }).bump (pFlt + 0x100)).bumpBy (pLpm + 0x100) c.fresh.1

theorem Core.sliceOver_eq (c : Core) (owner : Option Nat) : c.sliceOver owner = match owner with
    | none => (c.sliceDone.unhold 0xFFFF).moreSlices
    | some e => (c.sliceDone.modTask e fun t => { t with sect := t.sect + 1 }).moreSlices := rfl

theorem Core.sliceDone_spec (c : Core) : c.sliceDone.flt.slice = none ∧
    ∀ b, b ≠ aBist → b ≠ pFlt + 0x100 → b ≠ pLpm + 0x100 → c.sliceDone.rd b = c.rd b := by
  refine ⟨?_, fun b hb hcount hmoved => ?_⟩
  · rw [Core.sliceDone, Core.bumpBy_flt, Core.bump_flt, Core.errors_withFlt]
  · exact (Core.rd_bumpBy_ne _ _ hmoved).trans ((Core.rd_bump_ne _ hcount).trans ((Core.rd_withFlt _ _ b).trans (Core.rd_setF_ne _ _ _ _ hb)))

theorem Core.sliceOver_spec (c : Core) (owner : Option Nat) :
    ((c.sliceOver owner).flt.slice = none ∨ ∃ x e, (c.sliceOver owner).flt.slice = some (x, some e)) ∧
    ∀ b, b ≠ aBist → b ≠ pFlt + 0x100 → b ≠ pLpm + 0x100 → (c.sliceOver owner).rd b = c.rd b := by
  obtain ⟨hslice, hrd⟩ := c.sliceDone_spec
  have hmore : ∀ d : Core, d.flt = c.sliceDone.flt → d.regs = c.sliceDone.regs →
      (d.moreSlices.flt.slice = none ∨ ∃ x e, d.moreSlices.flt.slice = some (x, some e)) ∧
      ∀ b, b ≠ aBist → b ≠ pFlt + 0x100 → b ≠ pLpm + 0x100 → d.moreSlices.rd b = c.rd b := fun d hflt hregs => by
    obtain ⟨hnext, hkeep⟩ := d.moreSlices_spec
    rw [hflt, hslice] at hnext
    exact ⟨hnext, fun b hb hcount hmoved => (hkeep b hb hmoved).trans ((Core.rd_congr hregs b).trans (hrd b hb hcount hmoved))⟩
  rw [Core.sliceOver_eq]
  cases owner with
  | none => exact hmore _ rfl rfl
  | some e => exact hmore _ rfl rfl

/-- A wrong signature shows the meadow and ends the slice. -/
def Core.sliceFailed (c : Core) (md : Nat) : Core :=
  ((((c.setF aBist 7 1 0).withFlt { c.flt with slice := none }).setF aBist 8 1 1).setF aBist 9 7 md).event pFlt 9

theorem sliceFail_eq (m : Mem) (c : Core) (md : Nat) (owner : Option Nat) (sig : Word64) : sliceFail m c md owner sig = errS m
    (match owner with | some e => (c.sliceFailed md).ends e stSelftest md | none => c.sliceFailed md) (pMdw md) 0x40 md
    ((sig ^^^ Config.bistSignature (match owner with
      | some e => (c.sliceFailed md).ends e stSelftest md | none => c.sliceFailed md).stepping).toNat % 2 ^ 32) := rfl

theorem Core.sliceFailed_spec (c : Core) (md : Nat) : (c.sliceFailed md).flt.slice = none ∧ (c.sliceFailed md).getB aBist 8 = true ∧
    (c.sliceFailed md).getF aBist 9 7 = md % 2 ^ 7 ∧ (c.sliceFailed md).rd (pFlt + 0xB8) = c.rd (pFlt + 0xB8) := by
  have hrd : ∀ b, b ≠ pFlt + 0x38 → (c.sliceFailed md).rd b =
      ((((c.setF aBist 7 1 0).withFlt { c.flt with slice := none }).setF aBist 8 1 1).setF aBist 9 7 md).rd b := fun b hb =>
    Core.rd_event_ne _ _ hb
  refine ⟨?_, (Core.getB_of_rd (hrd _ (by decide))).trans ?_, (Core.getF_of_rd (hrd _ (by decide))).trans ?_, (hrd _ (by decide)).trans ?_⟩
  · rw [Core.sliceFailed, Core.event_flt, Core.setF_flt, Core.setF_flt, Core.errors_withFlt]
  · exact (Core.getB_setF_apart _ _ _ _ _ _ (by decide) (by decide)).trans (Core.getB_setF_self _ _ 8 1 (by decide))
  · exact Core.getF_setF_self _ _ _ _ _ (by decide)
  · exact (Core.rd_setF_ne _ _ _ _ (by decide)).trans ((Core.rd_setF_ne _ _ _ _ (by decide)).trans
      ((Core.rd_withFlt _ _ _).trans (Core.rd_setF_ne _ _ _ _ (by decide))))

/-- An error where no slice runs leaves FLT_BIST as it is, above the bit of the slice that runs. -/
theorem errS_bist (hp : page % 0x1000 = 0) (hslice : c.flt.slice = none) : (errS m c page code source detail).2.safe = true ∧
    (errS m c page code source detail).2.flt.slice = none ∧
    ∀ lo w, 8 ≤ lo → (errS m c page code source detail).2.getF aBist lo w = c.getF aBist lo w := by
  cases hsafe : c.safe with
  | false =>
    have h := errS_first (code := code) (source := source) (detail := detail) m hp hsafe
    exact ⟨h.safe, by rw [h.flt], h.bist⟩
  | true =>
    obtain ⟨-, h⟩ := errS_again (code := code) (source := source) (detail := detail) m hp hsafe
    exact ⟨h.safe, by rw [h.flt]; exact hslice, fun _ _ _ => Core.getF_of_rd (h.rd _ modeReg_bist (by decide))⟩

theorem sliceFail_spec (m : Mem) (c : Core) (md : Nat) (owner : Option Nat) (sig : Word64) :
    (sliceFail m c md owner sig).2.safe = true ∧ (sliceFail m c md owner sig).2.flt.slice = none ∧
    (sliceFail m c md owner sig).2.getB aBist 8 = true ∧ (sliceFail m c md owner sig).2.getF aBist 9 7 = md % 2 ^ 7 ∧
    (sliceFail m c md owner sig).2.rd (pFlt + 0xB8) = c.rd (pFlt + 0xB8) := by
  rw [sliceFail_eq]
  obtain ⟨hslice, hfail, hmeadow, hsig⟩ := c.sliceFailed_spec md
  have hpage : pMdw md % 0x1000 = 0 := by
    unfold pMdw
    omega
  have herr : ∀ d : Core, ∀ x, d.flt = (c.sliceFailed md).flt → d.regs = (c.sliceFailed md).regs →
      (errS m d (pMdw md) 0x40 md x).2.safe = true ∧ (errS m d (pMdw md) 0x40 md x).2.flt.slice = none ∧
      (errS m d (pMdw md) 0x40 md x).2.getB aBist 8 = true ∧ (errS m d (pMdw md) 0x40 md x).2.getF aBist 9 7 = md % 2 ^ 7 ∧
      (errS m d (pMdw md) 0x40 md x).2.rd (pFlt + 0xB8) = c.rd (pFlt + 0xB8) := fun d x hflt hregs => by
    obtain ⟨hsafe, hnone, hbist⟩ := errS_bist (m := m) (c := d) (code := 0x40) (source := md) (detail := x) hpage (by rw [hflt, hslice])
    refine ⟨hsafe, hnone, ?_, ?_, ?_⟩
    · refine Eq.trans ?_ hfail
      rw [Core.getB_eq_getF, hbist 8 1 (by decide), Core.getF_congr hregs, Core.getB_eq_getF]
    · rw [hbist 9 7 (by decide), Core.getF_congr hregs, hmeadow]
    · exact (rd_errS hpage (.inl rfl)).trans ((Core.rd_congr hregs _).trans hsig)
  cases owner with
  | none => exact herr _ _ rfl rfl
  | some e => exact herr _ _ rfl rfl

theorem bistSliceEnd_runs {P : Mem → Core → Prop} : Stated.RunsDev (.bistSliceEnd sig) s P ↔
    P (sliceEnd s.mem s.core sig).1 (sliceEnd s.mem s.core sig).2 := runsDev_devStep (f := fun m c => sliceEnd m c sig) rfl

theorem sliceEnd_eq (m : Mem) (h : c.flt.slice = some (md, owner)) : sliceEnd m c sig =
    if sig = Config.bistSignature c.stepping then (m, (c.wr (pFlt + 0xB8) sig.toNat).sliceOver owner)
    else sliceFail m (c.wr (pFlt + 0xB8) sig.toNat) md owner sig := by
  have hstep : (c.wr (pFlt + 0xB8) sig.toNat).stepping = c.stepping := Core.getF_wr_ne c _ _ _ (by decide)
  unfold sliceEnd
  rw [h]
  dsimp only
  rw [hstep]

theorem bistSliceEnd_ends (h : s.core.flt.slice = some (md, owner)) : Stated.RunsDev (.bistSliceEnd sig) s fun m c =>
    c.rd (pFlt + 0xB8) = sig.toNat ∧
    (sig = Config.bistSignature s.core.stepping → m = s.mem ∧ c.safe = s.core.safe ∧
      (c.flt.slice = none ∨ ∃ x e, c.flt.slice = some (x, some e))) ∧
    (sig ≠ Config.bistSignature s.core.stepping → c.safe = true ∧ c.flt.slice = none ∧ c.getB aBist 8 = true ∧
      c.getF aBist 9 7 = md % 2 ^ 7) := by
  rw [bistSliceEnd_runs, sliceEnd_eq s.mem h]
  have hsig : (s.core.wr (pFlt + 0xB8) sig.toNat).rd (pFlt + 0xB8) = sig.toNat :=
    (Core.rd_wr_self _ _ _).trans (Nat.mod_eq_of_lt sig.isLt)
  by_cases hright : sig = Config.bistSignature s.core.stepping
  · rw [if_pos hright]
    obtain ⟨hslice, hrd⟩ := (s.core.wr (pFlt + 0xB8) sig.toNat).sliceOver_spec owner
    refine ⟨(hrd _ (by decide) (by decide) (by decide)).trans hsig, fun _ => ⟨rfl, Core.safe_congr ?_, hslice⟩, fun hne => absurd hright hne⟩
    exact (hrd _ (by decide) (by decide) (by decide)).trans (Core.rd_wr_ne _ _ (by decide))
  · rw [if_neg hright]
    obtain ⟨hsafe, hslice, hfail, hmeadow, hshown⟩ := sliceFail_spec s.mem (s.core.wr (pFlt + 0xB8) sig.toNat) md owner sig
    exact ⟨hshown.trans hsig, fun heq => absurd heq hright, fun _ => ⟨hsafe, hslice, hfail, hmeadow⟩⟩

end Sys2Proof.Machine

open Sys2Proof Sys2Proof.Machine

/-- Settles O51: what a reading shows is kept by the error that it may raise, and an error's record names its sensor or rail. -/
theorem limitsAreWatched : Obligations.LimitsAreWatched := by
  refine ⟨?_, fun s r mv amps power hr hpart hmv => ⟨railSample_shown hr hpart hmv, fun t0 h hlong hout hsafe =>
    railSample_trips hr hpart hmv h hlong hout hsafe⟩, fun s hon hdue => ⟨fun md hnext hok hsafe hnone =>
    bistSliceStart_starts hon hdue hnext hok hsafe hnone, bistSliceStart_skips hon hdue⟩, fun s sig md owner h => bistSliceEnd_ends h⟩
  intro s x k hk t
  obtain ⟨htemps, hsafe, hwarns⟩ := s.core.sensorShown_spec x k
  rw [sensorSample_runs, sensorSample_runs, sensorSample_eq s.mem hk]
  refine ⟨fun hcool => ?_, fun htrip hnotSafe => ?_⟩
  · have hcool' : ¬ tripLevel k ≤ signed 12 (unsigned 12 x.temp) := not_le.mpr hcool
    rw [if_neg (by simp [hcool'])]
    exact ⟨rfl, htemps, hsafe, hwarns⟩
  · have hshown := hsafe.trans hnotSafe
    have htrip' : tripLevel k ≤ signed 12 (unsigned 12 x.temp) := htrip
    rw [if_pos (by simp [htrip', Core.newTrip, hshown])]
    have hstruck := errS_first (code := 0x41) (source := x.source) (detail := unsigned 32 t) s.mem (sensorPage_mod x.source) hshown
    exact ⟨hstruck.safe, by rw [hstruck.flt], hstruck.first⟩

end

