-- ==== Sys2Proof/Proofs/Updates.lean ====
section
/-! PROOF. The update agent (R499 to R502), the service restart, the watchdog (R509) and protection faults (R477). -/

namespace Sys2Proof.Machine

variable {m : Mem} {c d : Core} {s : State} {a : Access} {e g l n p v id k : Nat}

/-! ### The end of tasks leaves the flash -/

theorem Mem.flash_write (m : Mem) (x : Nat) (b : List Byte) : (m.write x b).flash = m.flash := by
  induction b generalizing m x with
  | nil => rfl
  | cons y b ih => exact ih _ _

theorem Mem.flash_store (m : Mem) (x : Nat) (b : List Byte) : (m.store x b).flash = m.flash := Mem.flash_write m x b

theorem Mem.flash_foldl {α : Type} {f : Mem → α → Mem} (h : ∀ m x, (f m x).flash = m.flash) (l : List α) (m : Mem) :
    (l.foldl f m).flash = m.flash := by
  induction l generalizing m with
  | nil => rfl
  | cons x l ih => exact (ih _).trans (h m x)

theorem Mem.flash_copy (m : Mem) (src dst n : Nat) : (m.copy src dst n).flash = m.flash :=
  (Mem.flash_foldl (f := fun m x => m.setPoison (x - src + dst)) (fun _ _ => rfl) _ _).trans
    (Mem.flash_foldl (f := fun (m : Mem) (x : Nat × Byte) => m.setByte x.1 x.2) (fun _ _ => rfl) _ _)

theorem flash_putMapped (c : Core) (m : Mem) (x : Nat) (b : List Byte) : (putMapped c m x b).flash = m.flash := by
  unfold putMapped
  split
  · exact Mem.flash_store m x b
  · rfl

theorem flash_cqFlush (fuel : Nat) (m : Mem) (c : Core) : (cqFlush fuel m c).1.flash = m.flash := by
  induction fuel generalizing m c with
  | zero => rfl
  | succ fuel ih =>
    unfold cqFlush
    split
    · next fuel' w rest hfuel hwaiting =>
      obtain rfl := Nat.succ.inj hfuel
      split
      · rfl
      · exact (ih _ _).trans (flash_putMapped _ _ _ _)
    · rfl

theorem flash_finishAll (fuel : Nat) (es : List (Nat × Nat × Nat)) (m : Mem) (c : Core) : (finishAll fuel es (m, c)).1.flash = m.flash := by
  induction fuel generalizing es m c with
  | zero => rfl
  | succ fuel ih =>
    cases es with
    | nil => rfl
    | cons x es => exact (ih _ _ _).trans (flash_cqFlush _ _ _)

theorem flash_plogPub (m : Mem) (c : Core) (q : Pub) (status : Nat) : (plogPub m c q status).1.flash = m.flash := flash_putMapped _ _ _ _

theorem flash_endTask (m : Mem) (c : Core) (e status code : Nat) : (endTask m c e status code).1.flash = m.flash := by
  refine (flash_finishAll _ _ _ _).trans ?_
  unfold noteLog
  split
  · exact flash_putMapped _ _ _ _
  · rfl

theorem flash_taskComplete_ends (m : Mem) (c : Core) (e status code : Nat) : (taskComplete m (c.ends e status code) e).1.flash = m.flash := by
  have hprogress : taskProgress m (c.ends e status code) e = (m, c.ends e status code) := by
    unfold taskProgress
    exact if_pos (by rw [Core.taskAt_ends]; simp)
  unfold taskComplete
  rw [hprogress]
  dsimp only
  rw [Core.taskAt_ends]
  dsimp only
  split
  · exact flash_endTask _ _ _ _ _
  · rfl

theorem flash_abortRunning (m : Mem) (c : Core) (e : Nat) : (abortRunning m c e).1.flash = m.flash := by
  unfold abortRunning
  extract_lets t k mine g a x r words
  split
  · split
    · rfl
    · exact flash_endTask _ _ _ _ _
  split
  · split
    · rfl
    · exact (flash_endTask _ _ _ _ _).trans (Mem.flash_copy _ _ _ _)
  split
  · split
    · rfl
    · exact (flash_endTask _ _ _ _ _).trans (flash_plogPub _ _ _ _)
  split
  · split
    · rfl
    · exact flash_endTask _ _ _ _ _
  split
  · split
    · exact flash_taskComplete_ends _ _ _ _ _
    · rfl
  · rfl

theorem flash_abortAll (m : Mem) (c : Core) : (abortAll m c).1.flash = m.flash := by
  unfold abortAll
  suffices h : ∀ (l : List Nat) (y : Mem × Core), (l.foldl (fun r e => abortRunning r.1 r.2 e) y).1.flash = y.1.flash from h _ _
  intro l
  induction l with
  | nil => exact fun _ => rfl
  | cons e l ih => exact fun y => (ih _).trans (flash_abortRunning _ _ _)

/-! ### Every session closes -/

/-- The ids of the sessions. -/
def Core.sessIds (c : Core) : List Nat := c.kwn.sess.map (·.1)

theorem Core.mem_sessIds_of_sess {x : Sess} (h : c.sess id = some x) : id ∈ c.sessIds := by
  unfold Core.sess at h
  obtain ⟨e, he, -⟩ := Option.map_eq_some_iff.mp h
  have hkey : e.1 = id := by simpa using List.find?_some he
  exact List.mem_map.mpr ⟨e, List.mem_of_find?_eq_some he, hkey⟩

theorem Core.sessIds_setSess {x : Sess} (h : id ∈ c.sessIds) (hk : k ∈ (c.setSess id x).sessIds) : k ∈ c.sessIds := by
  obtain ⟨e, he, rfl⟩ := List.mem_map.mp hk
  rcases (Store.mem_insert _ _ _ _).mp he with rfl | he
  · exact h
  · rw [Store.erase_eq_filter] at he
    exact List.mem_map_of_mem (List.mem_of_mem_filter he)

theorem Core.sessIds_sendAck {gap close : Bool} (hk : k ∈ (c.sendAck id gap close).sessIds) : k ∈ c.sessIds := by
  unfold Core.sendAck at hk
  split at hk
  · exact hk
  · next x hx => exact Core.sessIds_setSess (Core.mem_sessIds_of_sess hx) hk

theorem Core.kwn_dropHolder : (c.dropHolder id).kwn = c.kwn := changes_dropHolder .kwn (by decide)

theorem Core.sessIds_closeSess (hk : k ∈ (c.closeSess id).sessIds) : k ∈ c.sessIds ∧ k ≠ id := by
  unfold Core.closeSess at hk
  split at hk
  · next hnone =>
    refine ⟨hk, ?_⟩
    rintro rfl
    obtain ⟨e, he, hkey⟩ := List.mem_map.mp hk
    exact List.find?_eq_none.mp (Option.map_eq_none_iff.mp hnone) e he (decide_eq_true hkey)
  · unfold Core.sessIds at hk
    rw [Core.kwn_dropHolder, Store.erase_eq_filter] at hk
    obtain ⟨e, he, rfl⟩ := List.mem_map.mp hk
    obtain ⟨he, hne⟩ := List.mem_filter.mp he
    exact ⟨List.mem_map_of_mem he, by simpa using hne⟩

theorem Core.sess_closeAll (c : Core) : c.closeAll.kwn.sess = [] := by
  have hfold : ∀ (ids : List Nat) (c : Core), (∀ k ∈ c.sessIds, k ∈ ids) →
      (ids.foldl (fun c s => (c.sendAck s false true).closeSess s) c).sessIds = [] := by
    intro ids
    induction ids with
    | nil => exact fun c hc => List.eq_nil_iff_forall_not_mem.mpr fun k hk => List.not_mem_nil (hc k hk)
    | cons id ids ih =>
      refine fun c hc => ih _ fun k hk => ?_
      obtain ⟨hk, hne⟩ := Core.sessIds_closeSess hk
      exact (List.mem_cons.mp (hc k (Core.sessIds_sendAck hk))).resolve_left hne
  refine List.map_eq_nil_iff.mp (hfold _ c fun k hk => ?_)
  unfold Core.sessWhere
  rw [List.filter_true]
  exact hk

theorem changes_closeAll : Changes [.kwn, .out, .sec] c c.closeAll :=
  .foldl (fun _ _ => (changes_sendAck.trans changes_closeSess).mono rfl) _ c

/-- What closing sessions leaves of the security state: all but the mailbox's holder and challenge. -/
def SecButHolder (c d : Core) : Prop := ∃ h ch, d.sec = { c.sec with holder := h, challenge := ch }

theorem SecButHolder.refl : SecButHolder c c := ⟨_, _, rfl⟩

theorem SecButHolder.of_eq (h : d.sec = c.sec) : SecButHolder c d := ⟨c.sec.holder, c.sec.challenge, h⟩

theorem SecButHolder.trans {e : Core} (h : SecButHolder c d) (k : SecButHolder d e) : SecButHolder c e := by
  obtain ⟨h1, ch1, hd⟩ := h
  obtain ⟨h2, ch2, he⟩ := k
  exact ⟨h2, ch2, by rw [he, hd]⟩

theorem SecButHolder.dropHolder : SecButHolder c (c.dropHolder id) := by
  unfold Core.dropHolder
  split
  · exact ⟨_, _, rfl⟩
  · exact .of_eq rfl

theorem SecButHolder.closeSess : SecButHolder c (c.closeSess id) := by
  unfold Core.closeSess
  split
  · exact .refl
  · have hkwn : ∀ k : Kwn, SecButHolder c { c with kwn := k } := fun _ => .of_eq rfl
    exact (hkwn _).trans .dropHolder

theorem SecButHolder.closeAll : SecButHolder c c.closeAll := by
  unfold Core.closeAll
  generalize c.sessWhere (fun _ => true) = ids
  induction ids generalizing c with
  | nil => exact .refl
  | cons id ids ih =>
    have hack : SecButHolder c (c.sendAck id false true) := .of_eq (changes_sendAck .sec (by decide))
    exact (hack.trans .closeSess).trans ih

/-! ### The pause -/

/-- What a restart records: when it began, whether the gate was open, and which regions ran. -/
def Core.pauseNote (c : Core) : Nat × Bool × List Nat :=
  match c.sec.restart with
  | some x => x
  | none => (c.now, c.getB aGate 0, (List.range 8).filter fun g => (c.rgn g).phase = .running)

/-- The security state with a restart under way. -/
def Core.paused (c : Core) (note : Nat × Bool × List Nat) (x : Sec) : Core := { c with sec := { x with restart := some note, armedAt := none } }

/-- The regions drain, unless the device is in safe state. -/
def Core.drainAll (c : Core) : Core := if c.safe then c else (List.range 8).foldl (fun (c : Core) g => c.drain g) c

/-- The ports have no link and the lanes hunt. -/
def Core.linksLost (c : Core) : Core :=
  (List.range 16).foldl (fun (c : Core) l => if c.laneState l = 0 then c else c.toHunt l) ((List.range 8).foldl (fun (c : Core) lp => c.linkLoss lp) c)

/-- The core when the tasks are aborted. -/
def Core.pauseBegun (c : Core) : Core := (c.shutGate.paused c.pauseNote c.sec).drainAll

theorem pause_eq (m : Mem) (c : Core) : pause m c = ((abortAll m c.pauseBegun).1,
    (((abortAll m c.pauseBegun).2.closeAll.setF 0xB0 16 16 (min 65535 (c.pauseBegun.getF 0xB0 16 16 + 1))).linksLost).setDevState 1) := by
  unfold pause
  extract_lets run note src srcSec c1 c2 r c3 c4 c5
  have hnote : note = c.pauseNote := rfl
  clear_value note
  have h1 : c1 = c.shutGate.paused note c.sec := rfl
  clear_value c1
  have h2 : c2 = c1.drainAll := rfl
  clear_value c2
  have hr : r = abortAll m c2 := rfl
  clear_value r
  have h3 : c3 = r.2.closeAll.setF 0xB0 16 16 (min 65535 (c2.getF 0xB0 16 16 + 1)) := rfl
  clear_value c3
  have h5 : c5 = c3.linksLost := rfl
  rw [h5, h3, hr, Core.pauseBegun, ← hnote, ← h1, ← h2]

theorem changes_drainAll : Changes [.rgns] c c.drainAll := .skipIf (.foldl (fun _ _ => .stepIf changes_modRgn) _ c)

theorem changes_shutGate : Changes [.regs, .comp, .out] c c.shutGate := (changes_setF.trans changes_closeGate).mono rfl

theorem changes_cutLane : Changes [.sep] c (c.cutLane l) := .put .sep

theorem changes_toHunt : Changes [.regs, .sep] c (c.toHunt l) := changes_setLaneState.trans changes_cutLane

theorem changes_linksLost : Changes [.regs, .sep] c c.linksLost :=
  ((Changes.foldl (fun _ _ => changes_linkLoss) _ c).trans (.foldl (fun _ _ => .skipIf changes_toHunt) _ _)).mono rfl

theorem Core.rd_linksLost (hlane : ∀ l, n ≠ aLaneStat l) (hport : n ≠ pPort + 0x88) : c.linksLost.rd n = c.rd n := by
  have hloss : ∀ (ls : List Nat) (c : Core), (ls.foldl (fun (c : Core) lp => c.linkLoss lp) c).rd n = c.rd n := by
    intro ls
    induction ls with
    | nil => exact fun _ => rfl
    | cons lp ls ih =>
      refine fun c => (ih _).trans ?_
      dsimp only
      unfold Core.linkLoss
      split
      · rfl
      · exact Core.rd_setF_ne c _ _ _ hport
  have hhunt : ∀ (ls : List Nat) (c : Core), (ls.foldl (fun (c : Core) l => if c.laneState l = 0 then c else c.toHunt l) c).rd n = c.rd n := by
    intro ls
    induction ls with
    | nil => exact fun _ => rfl
    | cons l ls ih =>
      refine fun c => (ih _).trans ?_
      dsimp only
      split
      · rfl
      · exact Core.rd_setF_ne c _ _ _ (hlane l)
  exact (hhunt _ _).trans (hloss _ _)

theorem Core.rd_linksLost_gate : c.linksLost.rd aGate = c.rd aGate :=
  Core.rd_linksLost (fun l h => absurd (aLaneStat_mod l) (by rw [← h]; decide)) (by decide)

theorem Core.rd_linksLost_flt : c.linksLost.rd aFltState = c.rd aFltState :=
  Core.rd_linksLost (fun l h => absurd (aLaneStat_mod l) (by rw [← h]; decide)) (by decide)

/-- The device starts again: in safe state this is kept for later. -/
theorem Core.setDevState_spec (c : Core) (st : Nat) : Changes [.regs, .flt] c (c.setDevState st) ∧
    (c.setDevState st).safe = c.safe ∧ (∀ n, n ≠ 0x88 → (c.setDevState st).rd n = c.rd n) ∧ (c.setDevState st).flt.errors = c.flt.errors ∧
    (c.safe = false → (c.setDevState st).devState = st % 8) := by
  unfold Core.setDevState
  split
  next hsafe => exact ⟨(Changes.put .flt).mono rfl, rfl, fun _ _ => rfl, rfl, fun h => absurd hsafe (by simp [h])⟩
  next => exact ⟨changes_setF.mono rfl, Core.safe_setF (by decide), fun n hn => Core.rd_setF_ne c _ _ _ hn, rfl,
    fun _ => Core.getF_setF_self c _ _ _ _ (by decide)⟩

/-- A restart under way, entered from a core. -/
structure Paused (c d : Core) : Prop where
  sess : d.kwn.sess = []
  sec : ∃ note h ch, d.sec = { c.sec with restart := some note, armedAt := none, holder := h, challenge := ch }
  gate : d.getB aGate 0 = false
  safe : d.safe = c.safe
  state : c.safe = false → d.devState = 1
  errors : d.flt.errors = c.flt.errors

theorem Core.paused_sec (c : Core) (note : Nat × Bool × List Nat) (x : Sec) :
    (c.paused note x).sec = { x with restart := some note, armedAt := none } := rfl

theorem changes_paused {note : Nat × Bool × List Nat} {x : Sec} : Changes [.sec] c (c.paused note x) := .put .sec

theorem Core.rd_paused (c : Core) (note : Nat × Bool × List Nat) (x : Sec) (n : Nat) : (c.paused note x).rd n = c.rd n := rfl

theorem Core.pauseBegun_spec (c : Core) : c.pauseBegun.sec = { c.sec with restart := some c.pauseNote, armedAt := none } ∧
    c.pauseBegun.flt = c.flt ∧ c.pauseBegun.rd aGate = c.shutGate.rd aGate ∧ c.pauseBegun.rd aFltState = c.rd aFltState := by
  have hdrain := changes_drainAll (c := c.shutGate.paused c.pauseNote c.sec)
  have hrd : ∀ n, c.pauseBegun.rd n = c.shutGate.rd n := fun n =>
    (Core.rd_congr (hdrain .regs (by decide)) n).trans (Core.rd_paused _ _ _ n)
  refine ⟨?_, ?_, hrd _, (hrd _).trans (Core.rd_shutGate modeReg_fltState (by decide))⟩
  · exact (hdrain .sec (by decide)).trans (Core.paused_sec _ _ _)
  · exact (hdrain .flt (by decide)).trans ((changes_paused .flt (by decide)).trans Core.shutGate_flt)

theorem flash_pause (m : Mem) (c : Core) : (pause m c).1.flash = m.flash := by
  rw [pause_eq]
  exact flash_abortAll m c.pauseBegun

theorem pause_paused (m : Mem) (c : Core) : Paused c (pause m c).2 := by
  rw [pause_eq]
  obtain ⟨hsec, hflt, hgate, hstate⟩ := c.pauseBegun_spec
  have haborts := Spares.abortAll (m := m) (c := c.pauseBegun)
  dsimp only
  generalize c.pauseBegun.getF 0xB0 16 16 = count
  generalize (abortAll m c.pauseBegun).2 = r at haborts ⊢
  have hrsec : r.sec = c.pauseBegun.sec := haborts.parts .sec (by decide)
  have hrflt : r.flt = c.pauseBegun.flt := haborts.parts .flt (by decide)
  have hrgate : r.rd aGate = c.shutGate.rd aGate := (haborts.rd _ modeReg_gate).trans hgate
  have hrstate : r.rd aFltState = c.rd aFltState := (haborts.rd _ modeReg_fltState).trans hstate
  have hclose := changes_closeAll (c := r)
  have hlost : Changes [.regs, .sep] r.closeAll ((r.closeAll.setF 0xB0 16 16 (min 65535 (count + 1))).linksLost) :=
    (changes_setF.trans changes_linksLost).mono rfl
  have hgate' : ((r.closeAll.setF 0xB0 16 16 (min 65535 (count + 1))).linksLost).rd aGate = c.shutGate.rd aGate :=
    Core.rd_linksLost_gate.trans ((Core.rd_setF_ne _ _ _ _ (by decide)).trans ((Core.rd_congr (hclose .regs (by decide)) _).trans hrgate))
  have hstate' : ((r.closeAll.setF 0xB0 16 16 (min 65535 (count + 1))).linksLost).rd aFltState = c.rd aFltState :=
    Core.rd_linksLost_flt.trans ((Core.rd_setF_ne _ _ _ _ (by decide)).trans ((Core.rd_congr (hclose .regs (by decide)) _).trans hrstate))
  generalize (r.closeAll.setF 0xB0 16 16 (min 65535 (count + 1))).linksLost = d at hlost hgate' hstate' ⊢
  have hsafe : d.safe = c.safe := Core.safe_congr hstate'
  obtain ⟨hdev, hdsafe, hdrd, hderr, hdst⟩ := d.setDevState_spec 1
  refine ⟨?_, ?_, ?_, hdsafe.trans hsafe, fun h => hdst (hsafe.trans h), ?_⟩
  · rw [show (d.setDevState 1).kwn = d.kwn from hdev .kwn (by decide), show d.kwn = r.closeAll.kwn from hlost .kwn (by decide)]
    exact r.sess_closeAll
  · obtain ⟨h, ch, hh⟩ := SecButHolder.closeAll (c := r)
    refine ⟨c.pauseNote, h, ch, ?_⟩
    rw [show (d.setDevState 1).sec = d.sec from hdev .sec (by decide), show d.sec = r.closeAll.sec from hlost .sec (by decide), hh, hrsec, hsec]
  · exact (Core.getB_of_rd ((hdrd _ (by decide)).trans hgate')).trans Core.shutGate_spec.1
  · rw [hderr, show d.flt = r.closeAll.flt from hlost .flt (by decide), show r.closeAll.flt = r.flt from hclose .flt (by decide), hrflt, hflt]

theorem Paused.restarted (h : Paused c d) : Stated.Restarted d := by
  obtain ⟨note, holder, ch, hsec⟩ := h.sec
  refine ⟨h.sess, by rw [hsec]; rfl, by rw [hsec], h.gate, fun hs => h.state (h.safe.symm.trans hs)⟩

/-! ### Images that run -/

/-- A core that differs from a paused one in its registers, apart from those of the modes, and in the image that runs. -/
theorem restarted_of_image {d e : Core} (h : Stated.Restarted d) (hkwn : e.kwn = d.kwn) (hrestart : e.sec.restart = d.sec.restart)
    (harmed : e.sec.armedAt = d.sec.armedAt) (hrd : ∀ n, n = 0x88 ∨ n = aGate ∨ n = aFltState → e.rd n = d.rd n) : Stated.Restarted e := by
  obtain ⟨hsess, hrs, hat, hgate, hstate⟩ := h
  have hsafe : e.safe = d.safe := Core.safe_congr (hrd _ (.inr (.inr rfl)))
  refine ⟨by rw [hkwn]; exact hsess, by rw [hrestart]; exact hrs, by rw [harmed]; exact hat,
    (Core.getB_of_rd (hrd _ (.inr (.inl rfl)))).trans hgate, fun hs => ?_⟩
  exact (Core.getF_of_rd (hrd _ (.inl rfl))).trans (hstate (hsafe.symm.trans hs))

theorem Core.rd_showBoot (h : n ≠ pSec + 0x80) : c.showBoot.rd n = c.rd n := by
  unfold Core.showBoot
  extract_lets x y d
  have hd : d.rd n = c.rd n := (Core.rd_setF_ne _ _ _ _ h).trans ((Core.rd_setF_ne _ _ _ _ h).trans
    ((Core.rd_setF_ne _ _ _ _ h).trans (Core.rd_setF_ne c _ _ _ h)))
  exact (Core.rd_setF_ne _ _ _ _ h).trans ((Core.rd_setF_ne d _ _ _ h).trans hd)

/-- The image of a slot is the one that runs. -/
def Core.ranImage (c : Core) (k : Nat) (trial : Bool) : Core := { c with sec := { c.sec with slot := k, trial := trial, hostBoot := false } }

theorem Core.runSlot_eq (c : Core) (m : Mem) (k : Nat) (trial : Bool) :
    c.runSlot m k trial = ((c.measureImage (slotImage m k)).ranImage k trial).showBoot := rfl

theorem Core.sec_ranImage (c : Core) (k : Nat) (trial : Bool) :
    (c.ranImage k trial).sec = { c.sec with slot := k, trial := trial, hostBoot := false } := rfl

theorem changes_ranImage {trial : Bool} : Changes [.sec] c (c.ranImage k trial) := .put .sec

theorem changes_measureImage {img : List Byte} : Changes [.sec] c (c.measureImage img) := .put .sec

theorem Core.sec_measureImage (c : Core) (img : List Byte) : ∃ l ver svn, (c.measureImage img).sec = { c.sec with meas := l, imageVer := ver, svn := svn } :=
  ⟨_, _, _, rfl⟩

theorem changes_runSlot {trial : Bool} : Changes [.regs, .sec] c (c.runSlot m k trial) :=
  ((changes_measureImage.trans changes_ranImage).trans changes_showBoot).mono rfl

theorem Core.runSlot_sec (c : Core) (m : Mem) (k : Nat) (trial : Bool) : (c.runSlot m k trial).sec.slot = k ∧
    (c.runSlot m k trial).sec.trial = trial ∧ (c.runSlot m k trial).sec.restart = c.sec.restart ∧
    (c.runSlot m k trial).sec.armedAt = c.sec.armedAt ∧ (c.runSlot m k trial).sec.staged = c.sec.staged := by
  obtain ⟨ms, ver, svn, hms⟩ := c.sec_measureImage (slotImage m k)
  have hshow : (c.runSlot m k trial).sec = ((c.measureImage (slotImage m k)).ranImage k trial).sec := changes_showBoot .sec (by decide)
  rw [hshow, Core.sec_ranImage, hms]
  exact ⟨rfl, rfl, rfl, rfl, rfl⟩

theorem Core.rd_runSlot {trial : Bool} (h : n ≠ pSec + 0x80) : (c.runSlot m k trial).rd n = c.rd n :=
  (Core.rd_showBoot h).trans (Core.rd_congr ((changes_measureImage.trans changes_ranImage) .regs (by decide)) n)

/-- UPD_STAT's fields. -/
theorem Core.updResult_fields (c : Core) (v : Nat) : (c.updResult v).getF aUpd 8 8 = v % 256 ∧ (c.updResult v).getF aUpd 0 3 = c.getF aUpd 0 3 ∧
    ∀ n, n ≠ aUpd → (c.updResult v).rd n = c.rd n :=
  ⟨Core.getF_setF_self c _ _ _ _ (by decide), Core.getF_setF_apart c _ _ _ _ _ _ (by decide) (by decide), fun _ hn => Core.rd_setF_ne c _ _ _ hn⟩

theorem Core.updState_fields (c : Core) (v : Nat) : (c.updState v).getF aUpd 0 3 = v % 8 ∧ ∀ n, n ≠ aUpd → (c.updState v).rd n = c.rd n :=
  ⟨Core.getF_setF_self c _ _ _ _ (by decide), fun _ hn => Core.rd_setF_ne c _ _ _ hn⟩

theorem Core.sec_updResult : (c.updResult v).sec = c.sec := rfl
theorem Core.sec_updState : (c.updState v).sec = c.sec := rfl

/-- What the modes' registers are not. -/
theorem mode_ne {x : Nat} (h : n = 0x88 ∨ n = aGate ∨ n = aFltState) (hx : x ≠ 0x88 ∧ x ≠ aGate ∧ x ≠ aFltState) : n ≠ x := by
  rcases h with rfl | rfl | rfl
  · exact hx.1.symm
  · exact hx.2.1.symm
  · exact hx.2.2.symm

/-- A restart under way is none of the other registers' affair. -/
theorem restarted_of_regs {d e : Core} (h : Stated.Restarted d) (hp : Changes [.regs] d e)
    (hrd : ∀ n, n = 0x88 ∨ n = aGate ∨ n = aFltState → e.rd n = d.rd n) : Stated.Restarted e :=
  restarted_of_image h (hp .kwn (by decide)) (congrArg Sec.restart (hp .sec (by decide))) (congrArg Sec.armedAt (hp .sec (by decide))) hrd

theorem restarted_setF {x lo w : Nat} (h : Stated.Restarted c) (hx : x ≠ 0x88 ∧ x ≠ aGate ∧ x ≠ aFltState) :
    Stated.Restarted (c.setF x lo w v) := restarted_of_regs h changes_setF fun _ hn => Core.rd_setF_ne c _ _ _ (mode_ne hn hx)

theorem restarted_runSlot {trial : Bool} (h : Stated.Restarted c) : Stated.Restarted (c.runSlot m k trial) := by
  obtain ⟨-, -, hrestart, harmed, -⟩ := c.runSlot_sec m k trial
  exact restarted_of_image h (changes_runSlot .kwn (by decide)) hrestart harmed fun _ hn => Core.rd_runSlot (mode_ne hn (by decide))

/-- The agent is idle, with a result. -/
def Core.updIdle (c : Core) (r : Nat) : Core := (c.updState 0).updResult r

theorem restarted_updIdle {r : Nat} (h : Stated.Restarted c) : Stated.Restarted (c.updIdle r) :=
  restarted_setF (restarted_setF h (by decide)) (by decide)

theorem Core.updIdle_fields (c : Core) (r : Nat) : (c.updIdle r).getF aUpd 0 3 = 0 ∧ (c.updIdle r).getF aUpd 8 8 = r % 256 ∧
    (c.updIdle r).sec = c.sec :=
  ⟨((c.updState 0).updResult_fields r).2.1.trans (c.updState_fields 0).1, ((c.updState 0).updResult_fields r).1, rfl⟩

theorem Core.activated_eq (c : Core) (m : Mem) (new k : Nat) : c.activated m new k =
    if k = 0 then ((c.runSlot m new true).setF 0xA0 33 1 0).updIdle 0 else (c.bootCode k).updIdle k := rfl

theorem Core.activated_spec {code : Nat} (hr : Stated.Restarted c) : Stated.Restarted (c.activated m k code) ∧
    (c.activated m k code).sec.staged = c.sec.staged ∧ (c.activated m k code).getF aUpd 0 3 = 0 := by
  rw [Core.activated_eq]
  split
  · refine ⟨restarted_updIdle (restarted_setF (restarted_runSlot hr) (by decide)), ?_, (Core.updIdle_fields _ _).1⟩
    rw [(Core.updIdle_fields _ _).2.2, Core.setF_sec, (c.runSlot_sec m k true).2.2.2.2]
  · refine ⟨restarted_updIdle (restarted_setF hr (by decide)), ?_, (Core.updIdle_fields _ _).1⟩
    rw [(Core.updIdle_fields _ _).2.2, Core.bootCode, Core.setF_sec]

/-- Nothing stands staged. -/
def Core.unstaged (c : Core) : Core := { c with sec := { c.sec with staged := false } }

/-- A restart goes on with the ROM's verdict on a slot, which the boot record names on trial. -/
def startTrial (r : Mem × Core) (new : Nat) : Mem × Core :=
  let m := putRec r.1 { bootRec r.1 with trial := some new, tried := true }
  (m, r.2.activated m new (r.2.imageCode (bootRec m).floor (slotImage m new)))

theorem activateNow_eq (m : Mem) (c : Core) : activateNow m c = startTrial (pause m c.unstaged) (1 - c.sec.slot) := rfl

theorem Core.staged_unstaged (c : Core) : c.unstaged.sec.staged = false := rfl

theorem Paused.staged (h : Paused c d) : d.sec.staged = c.sec.staged := by
  obtain ⟨note, holder, ch, hsec⟩ := h.sec
  rw [hsec]

theorem startTrial_spec {r : Mem × Core} {new : Nat} (h : Stated.Restarted r.2) : Stated.Restarted (startTrial r new).2 ∧
    (startTrial r new).2.sec.staged = r.2.sec.staged ∧ (startTrial r new).2.getF aUpd 0 3 = 0 := by
  unfold startTrial
  extract_lets src m
  clear_value m
  dsimp only
  generalize r.2.imageCode (bootRec m).floor (slotImage m new) = code
  exact Core.activated_spec h

theorem activateNow_spec (m : Mem) (c : Core) : Stated.Restarted (activateNow m c).2 ∧ (activateNow m c).2.sec.staged = false ∧
    (activateNow m c).2.getF aUpd 0 3 = 0 := by
  have hpaused := pause_paused m c.unstaged
  rw [activateNow_eq]
  generalize pause m c.unstaged = r at hpaused ⊢
  obtain ⟨hrestarted, hstaged, hfield⟩ := startTrial_spec (new := 1 - c.sec.slot) hpaused.restarted
  exact ⟨hrestarted, hstaged.trans (hpaused.staged.trans c.staged_unstaged), hfield⟩

end Sys2Proof.Machine
end

