-- ==== Sys2Proof/Proofs/UpdateCommands.lean ====
section
/-! PROOF. The commands of the update agent (R499, R500), confirmation and fallback (R502), the resumption of service (R501), the watchdog
(R509) and protection faults (R477). -/

namespace Sys2Proof.Machine

variable {m : Mem} {c d : Core} {s : State} {a : Access} {e g l n p v w id k comp core : Nat} {img : List Byte}

/-! ### UPD_CMD -/

theorem hUpdCmd_op (m : Mem) (ha : a.view = .priv) (hs : c.service = true) (hop : w % 8 = k) : hUpdCmd m c a w =
    if k = 1 then (m, c.updStage m) else if k = 2 then (m, c.updAt) else if k = 3 then updNow m c else if k = 4 then (m, c.updCancel)
    else (m, c) := by
  subst hop
  exact if_neg (by simp [isPriv_of_view ha, hs])

theorem updOp (v k : Nat) (hk : k < 8) : setBits v 0 3 k % 8 = k := by
  have h := setBits_field v 0 3 k
  rw [pow_zero, Nat.div_one] at h
  exact h.trans (Nat.mod_eq_of_lt hk)

theorem updCmd_runs {i : Instr} {P : Mem → Core → Prop} {x : Mem × Core}
    (hi : exec i s = devStep (fun m c => hUpdCmd m c a (setBits v 0 3 k)) s) (hx : hUpdCmd s.mem s.core a (setBits v 0 3 k) = x) :
    Stated.RunsDev i s P ↔ P x.1 x.2 := by
  rw [runsDev_devStep (f := fun m c => hUpdCmd m c a (setBits v 0 3 k)) hi, hx]

section
variable {v : Word64} {P : Mem → Core → Prop} (ha : a.view = .priv) (hs : s.core.service = true)
include ha hs

theorem stage_runs : Stated.RunsDev (.stage a v) s P ↔ P s.mem (s.core.updStage s.mem) :=
  updCmd_runs (k := 1) rfl (hUpdCmd_op s.mem ha hs (updOp _ 1 (by decide)))

theorem activateAt_runs : Stated.RunsDev (.activateAt a v) s P ↔ P s.mem s.core.updAt :=
  updCmd_runs (k := 2) rfl (hUpdCmd_op s.mem ha hs (updOp _ 2 (by decide)))

theorem activate_runs : Stated.RunsDev (.activate a v) s P ↔ P (updNow s.mem s.core).1 (updNow s.mem s.core).2 :=
  updCmd_runs (k := 3) rfl (hUpdCmd_op s.mem ha hs (updOp _ 3 (by decide)))

theorem cancel_runs : Stated.RunsDev (.cancel a v) s P ↔ P s.mem s.core.updCancel :=
  updCmd_runs (k := 4) rfl (hUpdCmd_op s.mem ha hs (updOp _ 4 (by decide)))

end

/-! ### STAGE -/

theorem Core.imageCode_congr (h : d.rd 0x80 = c.rd 0x80) (floor : Nat) (img : List Byte) : d.imageCode floor img = c.imageCode floor img := by
  have hpart : d.part = c.part := Core.getF_of_rd h
  have hstep : d.isB0 = c.isB0 := by rw [Core.isB0, Core.getF_of_rd h, Core.isB0]
  unfold Core.imageCode Core.manifestCode
  rw [hpart, hstep]

/-- The image that STAGE names, and its refusal code. -/
def Core.stageImage (c : Core) (m : Mem) : List Byte := m.read (c.rd (pCtl + 0x100)) (min (c.rd (pCtl + 0x108)) (30 * 2 ^ 20))

def Core.stageCode (c : Core) (m : Mem) : Nat :=
  if c.rd (pCtl + 0x108) < fld (c.stageImage m) 24 4 then 1
  else c.imageCode (bootRec m).floor ((c.stageImage m).take (fld (c.stageImage m) 24 4))

/-- The staging begins with nothing staged. -/
def Core.stageIdle (c : Core) : Core := c.unstaged.updState 0

/-- An image being written to the other slot. -/
def Core.staging (c : Core) (img : List Byte) : Core := { c with sec := { c.sec with stageBusy := some img } }

theorem Core.rd_unstaged (c : Core) (n : Nat) : c.unstaged.rd n = c.rd n := rfl

theorem Core.rd_stageIdle (h : n ≠ aUpd) : c.stageIdle.rd n = c.rd n := ((c.unstaged.updState_fields 0).2 n h).trans (c.rd_unstaged n)

theorem Core.updStage_idle (m : Mem) (hbusy : (c.sec.trial || c.sec.armedAt.isSome || c.sec.stageBusy.isSome) = false)
    (hsrc : lpmBase ≤ c.rd (pCtl + 0x100)) (hlen : 4096 ≤ c.rd (pCtl + 0x108))
    (hmap : c.mapped false (c.rd (pCtl + 0x100)) (c.rd (pCtl + 0x108)) = true) : c.updStage m =
      if c.stageCode m ≠ 0 then c.stageIdle.updResult (c.stageCode m)
      else (c.stageIdle.staging ((c.stageImage m).take (fld (c.stageImage m) 24 4))).updState 1 := by
  have hmap' : c.stageIdle.mapped false (c.rd (pCtl + 0x100)) (c.rd (pCtl + 0x108)) = true :=
    (Core.mapped_congr (Core.rd_stageIdle (by decide)) (Core.rd_stageIdle (by decide)) _ _).trans hmap
  have hcode : (if c.rd (pCtl + 0x108) < fld (c.stageImage m) 24 4 then 1
      else c.stageIdle.imageCode (bootRec m).floor ((c.stageImage m).take (fld (c.stageImage m) 24 4))) = c.stageCode m := by
    unfold Core.stageCode
    rw [Core.imageCode_congr (Core.rd_stageIdle (by decide))]
  unfold Core.updStage
  extract_lets src len srcSec d img code
  rw [if_neg (by simp [hbusy])]
  have hd : d = c.stageIdle := rfl
  clear_value d
  subst hd
  rw [if_neg (by simpa [hmap', src, len] using ⟨hsrc, hlen⟩)]
  have hc : code = c.stageCode m := hcode
  rw [hc]
  rfl

theorem Core.updStage_busy (m : Mem) (hbusy : (c.sec.trial || c.sec.armedAt.isSome || c.sec.stageBusy.isSome) = true) :
    c.updStage m = c.updResult 0x20 := if_pos hbusy

theorem Core.stageIdle_spec (c : Core) : c.stageIdle.sec = { c.sec with staged := false } ∧ c.stageIdle.getF aUpd 0 3 = 0 :=
  ⟨rfl, (c.unstaged.updState_fields 0).1⟩

theorem Core.staging_spec (c : Core) (img : List Byte) : (c.staging img).sec = { c.sec with stageBusy := some img } := rfl

theorem Core.updAt_staged (hst : c.sec.staged = true) (harm : c.sec.armedAt = none) (hswap : c.swapArmed = none) : c.updAt =
    if c.rd (pCtl + 0x110) < c.valley + 1000000 then c.updResult 0x22
    else (({ c with sec := { c.sec with armedAt := some (c.rd (pCtl + 0x110)) } } : Core).updState 3).updResult 0 := by
  unfold Core.updAt
  rw [if_neg (by simp [hst]), if_neg (by simp [harm]), if_neg (by simp [hswap])]

section
variable {v : Word64} (ha : a.view = .priv) (hs : s.core.service = true)
include ha hs

theorem stage_busy (hbusy : (s.core.sec.trial || s.core.sec.armedAt.isSome || s.core.sec.stageBusy.isSome) = true) :
    Stated.RunsDev (.stage a v) s fun m c => m = s.mem ∧ c.sec = s.core.sec ∧ c.getF aUpd 8 8 = 0x20 := by
  rw [stage_runs ha hs, Core.updStage_busy s.mem hbusy]
  exact ⟨rfl, Core.sec_updResult, (s.core.updResult_fields 0x20).1⟩

theorem stage_checks (hbusy : (s.core.sec.trial || s.core.sec.armedAt.isSome || s.core.sec.stageBusy.isSome) = false)
    (hsrc : lpmBase ≤ s.core.rd (pCtl + 0x100)) (hlen : 4096 ≤ s.core.rd (pCtl + 0x108))
    (hmap : s.core.mapped false (s.core.rd (pCtl + 0x100)) (s.core.rd (pCtl + 0x108)) = true) : Stated.RunsDev (.stage a v) s fun m c =>
      m = s.mem ∧ c.sec.staged = false ∧
      (s.core.stageCode s.mem ≠ 0 → c.sec.stageBusy = none ∧ c.getF aUpd 8 8 = s.core.stageCode s.mem % 256 ∧ c.getF aUpd 0 3 = 0) ∧
      (s.core.stageCode s.mem = 0 →
        c.sec.stageBusy = some ((s.core.stageImage s.mem).take (fld (s.core.stageImage s.mem) 24 4)) ∧ c.getF aUpd 0 3 = 1) := by
  rw [stage_runs ha hs, Core.updStage_idle s.mem hbusy hsrc hlen hmap]
  obtain ⟨hsec, hidle⟩ := s.core.stageIdle_spec
  by_cases hcode : s.core.stageCode s.mem ≠ 0
  · rw [if_pos hcode]
    obtain ⟨hresult, hstate, -⟩ := s.core.stageIdle.updResult_fields (s.core.stageCode s.mem)
    rw [Core.sec_updResult, hsec]
    have hnone : s.core.sec.stageBusy = none := by
      simp only [Bool.or_eq_false_iff] at hbusy
      exact Option.isSome_eq_false_iff.mp hbusy.2 |> Option.isNone_iff_eq_none.mp
    exact ⟨rfl, rfl, fun _ => ⟨hnone, hresult, hstate.trans hidle⟩, fun h => absurd h hcode⟩
  · rw [if_neg hcode, Core.sec_updState, Core.staging_spec, hsec]
    exact ⟨rfl, rfl, fun h => absurd h hcode, fun _ => ⟨rfl, (Core.updState_fields _ 1).1⟩⟩

/-! ### ACTIVATE_AT, ACTIVATE and CANCEL -/

theorem activateAt_nothing (hst : s.core.sec.staged = false) : Stated.RunsDev (.activateAt a v) s fun m c =>
    m = s.mem ∧ c.sec = s.core.sec ∧ c.getF aUpd 8 8 = 0x24 := by
  have hat : s.core.updAt = s.core.updResult 0x24 := if_pos (by simp [hst])
  rw [activateAt_runs ha hs, hat]
  exact ⟨rfl, Core.sec_updResult, (s.core.updResult_fields 0x24).1⟩

theorem activate_nothing (hst : s.core.sec.staged = false) : Stated.RunsDev (.activate a v) s fun m c =>
    m = s.mem ∧ c.sec = s.core.sec ∧ c.getF aUpd 8 8 = 0x24 := by
  have hnow : updNow s.mem s.core = (s.mem, s.core.updResult 0x24) := if_pos (by simp [hst])
  rw [activate_runs ha hs, hnow]
  exact ⟨rfl, Core.sec_updResult, (s.core.updResult_fields 0x24).1⟩

theorem activateAt_late (hst : s.core.sec.staged = true) (harm : s.core.sec.armedAt = none) (hswap : s.core.swapArmed = none)
    (hlate : s.core.rd (pCtl + 0x110) < s.core.valley + 1000000) : Stated.RunsDev (.activateAt a v) s fun m c =>
      m = s.mem ∧ c.sec = s.core.sec ∧ c.getF aUpd 8 8 = 0x22 := by
  rw [activateAt_runs ha hs, Core.updAt_staged hst harm hswap, if_pos hlate]
  exact ⟨rfl, Core.sec_updResult, (s.core.updResult_fields 0x22).1⟩

theorem activateAt_arms (hst : s.core.sec.staged = true) (harm : s.core.sec.armedAt = none) (hswap : s.core.swapArmed = none)
    (hlead : s.core.valley + 1000000 ≤ s.core.rd (pCtl + 0x110)) : Stated.RunsDev (.activateAt a v) s fun m c =>
      m = s.mem ∧ c.sec = { s.core.sec with armedAt := some (s.core.rd (pCtl + 0x110)) } ∧ c.getF aUpd 0 3 = 3 := by
  rw [activateAt_runs ha hs, Core.updAt_staged hst harm hswap, if_neg (by omega)]
  refine ⟨rfl, rfl, ?_⟩
  exact ((Core.updState _ 3).updResult_fields 0).2.1.trans (Core.updState_fields _ 3).1

theorem activate_swapArmed (hst : s.core.sec.staged = true) (hswap : s.core.swapArmed.isSome = true) :
    Stated.RunsDev (.activate a v) s fun m c => m = s.mem ∧ c.sec = s.core.sec ∧ c.getF aUpd 8 8 = 0x23 := by
  have hnow : updNow s.mem s.core = (s.mem, s.core.updResult 0x23) := (if_neg (by simp [hst])).trans (if_pos hswap)
  rw [activate_runs ha hs, hnow]
  exact ⟨rfl, Core.sec_updResult, (s.core.updResult_fields 0x23).1⟩

theorem activate_restarts (hst : s.core.sec.staged = true) (hswap : s.core.swapArmed = none) :
    Stated.RunsDev (.activate a v) s fun _ c => Stated.Restarted c ∧ c.sec.staged = false ∧ c.getF aUpd 0 3 = 0 := by
  have hnow : updNow s.mem s.core = activateNow s.mem s.core := (if_neg (by simp [hst])).trans (if_neg (by simp [hswap]))
  rw [activate_runs ha hs, hnow]
  exact activateNow_spec s.mem s.core

theorem cancel_disarms (harm : s.core.sec.armedAt ≠ none) : Stated.RunsDev (.cancel a v) s fun m c =>
    m = s.mem ∧ c.sec = { s.core.sec with armedAt := none } ∧ c.getF aUpd 0 3 = 2 := by
  have hcancel : s.core.updCancel = (({ s.core with sec := { s.core.sec with armedAt := none } } : Core).updState 2).updResult 0 :=
    if_pos (Option.isSome_iff_ne_none.mpr harm)
  rw [cancel_runs ha hs, hcancel]
  refine ⟨rfl, rfl, ?_⟩
  exact ((Core.updState _ 2).updResult_fields 0).2.1.trans (Core.updState_fields _ 2).1

theorem cancel_idle (harm : s.core.sec.armedAt = none) : Stated.RunsDev (.cancel a v) s fun m c => m = s.mem ∧ c = s.core := by
  have hcancel : s.core.updCancel = s.core := if_neg (by simp [harm])
  rw [cancel_runs ha hs, hcancel]
  exact ⟨rfl, rfl⟩

end

/-! ### The staged image -/

theorem Mem.flashByte_flashWrite_out (m : Mem) (x : Nat) (b : List Byte) {y : Nat} (h : y < x ∨ x + b.length ≤ y) :
    (m.flashWrite x b).flashByte y = m.flashByte y := by
  induction b generalizing m x with
  | nil => rfl
  | cons z b ih =>
    rw [List.length_cons] at h
    exact (ih _ _ (by omega)).trans (Store.get_set_ne _ _ _ (by omega))

theorem Mem.flashRead_congr {m m' : Mem} {x n : Nat} (h : ∀ y, x ≤ y → y < x + n → m'.flashByte y = m.flashByte y) :
    m'.flashRead x n = m.flashRead x n := by
  induction n generalizing x with
  | zero => rfl
  | succ n ih =>
    rw [Mem.flashRead, Mem.flashRead, h x (by omega) (by omega), ih fun y hy hlt => h y (by omega) (by omega)]

theorem Mem.flashRead_flashWrite (m : Mem) (x : Nat) (b : List Byte) : (m.flashWrite x b).flashRead x b.length = b := by
  induction b generalizing m x with
  | nil => rfl
  | cons z b ih =>
    rw [List.length_cons, Mem.flashRead]
    have hhead : (m.flashWrite x (z :: b)).flashByte x = z :=
      (Mem.flashByte_flashWrite_out { m with flash := Store.set m.flash 0 x z } (x + 1) b (.inl (by omega))).trans
        (Store.get_set_self _ _ _ _)
    rw [hhead]
    exact congrArg (z :: ·) (ih _ _)

theorem bootCopy_copy {q : BootRec} (h : bootCopy m k = some q) : q.copy = k := by
  unfold bootCopy at h
  dsimp only at h
  split at h
  · obtain rfl := Option.some.inj h
    rfl
  · cases h

theorem bootRec_copy (m : Mem) : (bootRec m).copy ≤ 1 := by
  unfold bootRec
  split
  next x y hx hy =>
    split
    · rw [bootCopy_copy hy]
    · rw [bootCopy_copy hx]
      omega
  next x hx _ =>
    rw [bootCopy_copy hx]
    omega
  next y _ hy => rw [bootCopy_copy hy]
  next => exact Nat.le_refl 1

theorem length_recBytes (q : BootRec) : (recBytes q).length = 64 := by
  unfold recBytes
  simp only [List.length_append, length_toLe, List.length_cons, List.length_nil, List.length_replicate]

/-- The boot record lies below the slots. -/
theorem flashByte_putRec (m : Mem) (q : BootRec) {y : Nat} (h : 0x400000 ≤ y) : (putRec m q).flashByte y = m.flashByte y := by
  refine Mem.flashByte_flashWrite_out _ _ _ (.inr ?_)
  rw [length_recBytes]
  have : 1 - q.copy ≤ 1 := by omega
  show 0x8000 * (1 - q.copy) + 64 ≤ y
  omega

theorem flashRead_putRec_slot (m : Mem) (q : BootRec) (k n : Nat) : (putRec m q).flashRead (slotAddr k) n = m.flashRead (slotAddr k) n := by
  refine Mem.flashRead_congr fun y hy _ => flashByte_putRec m q ?_
  unfold slotAddr at hy
  split at hy <;> omega

theorem stageDone_runs {ok : Bool} {P : Mem → Core → Prop} : Stated.RunsDev (.stageDone ok) s P ↔
    P (stageDone s.mem s.core ok).1 (stageDone s.mem s.core ok).2 := runsDev_devStep (f := fun m c => stageDone m c ok) rfl

/-- No image is being written. -/
def Core.unstaging (c : Core) (staged : Bool) : Core := { c with sec := { c.sec with stageBusy := none, staged := staged } }

theorem stageDone_eq (m : Mem) (h : c.sec.stageBusy = some img) : stageDone m c false = (m, (c.unstaging c.sec.staged).updIdle 0x21) ∧
    ∃ q, stageDone m c true = (putRec (m.flashWrite (slotAddr (1 - c.sec.slot)) img) q,
      (((c.unstaging true).updState 2).updResult 0).setF aUpd 32 32 (fld img 8 4)) := by
  unfold stageDone
  rw [h]
  exact ⟨rfl, _, rfl⟩

theorem Core.sec_unstaging (c : Core) (staged : Bool) : (c.unstaging staged).sec = { c.sec with stageBusy := none, staged := staged } := rfl

theorem stageDone_fails (h : s.core.sec.stageBusy = some img) : Stated.RunsDev (.stageDone false) s fun m c =>
    m = s.mem ∧ c.sec = { s.core.sec with stageBusy := none } ∧ c.getF aUpd 8 8 = 0x21 := by
  rw [stageDone_runs, (stageDone_eq s.mem h).1]
  obtain ⟨-, hresult, hsec⟩ := (s.core.unstaging s.core.sec.staged).updIdle_fields 0x21
  exact ⟨rfl, hsec, hresult⟩

theorem stageDone_stands (h : s.core.sec.stageBusy = some img) : Stated.RunsDev (.stageDone true) s fun m c =>
    m.flashRead (slotAddr (1 - s.core.sec.slot)) img.length = img ∧ m.bytes = s.mem.bytes ∧
    c.sec = { s.core.sec with stageBusy := none, staged := true } ∧ c.getF aUpd 0 3 = 2 ∧ c.getF aUpd 8 8 = 0 := by
  obtain ⟨q, hq⟩ := (stageDone_eq s.mem h).2
  rw [stageDone_runs, hq]
  obtain ⟨hresult, hstate, -⟩ := ((s.core.unstaging true).updState 2).updResult_fields 0
  refine ⟨?_, ?_, ?_, ?_, ?_⟩
  · exact (flashRead_putRec_slot _ _ _ _).trans (Mem.flashRead_flashWrite _ _ _)
  · exact (flashWrite_keeps _ _ _).1.trans (flashWrite_keeps _ _ _).1
  · rw [Core.setF_sec, Core.sec_updResult, Core.sec_updState, Core.sec_unstaging]
  · exact (Core.getF_setF_apart _ _ _ _ _ _ _ (by decide) (by decide)).trans (hstate.trans (Core.updState_fields _ 2).1)
  · exact (Core.getF_setF_apart _ _ _ _ _ _ _ (by decide) (by decide)).trans hresult

/-! ### The armed count -/

theorem updateActivation_runs {P : Mem → Core → Prop} : Stated.RunsDev .updateActivation s P ↔
    P (updActivation s.mem s.core).1 (updActivation s.mem s.core).2 := runsDev_devStep (f := updActivation) rfl

theorem updActivation_eq (m : Mem) (h : c.sec.armedAt = some v) : updActivation m c = if c.valleyDue v then activateNow m c else (m, c) := by
  unfold updActivation
  rw [h]

theorem updateActivation_due (h : s.core.sec.armedAt = some v) (hdue : s.core.valleyDue v = true) :
    Stated.RunsDev .updateActivation s fun _ c => Stated.Restarted c ∧ c.sec.staged = false := by
  rw [updateActivation_runs, updActivation_eq s.mem h, if_pos hdue]
  obtain ⟨hrestarted, hstaged, -⟩ := activateNow_spec s.mem s.core
  exact ⟨hrestarted, hstaged⟩

theorem updateActivation_waits (h : s.core.sec.armedAt = some v) (hdue : s.core.valleyDue v = false) :
    Stated.RunsDev .updateActivation s fun m c => m = s.mem ∧ c = s.core := by
  rw [updateActivation_runs, updActivation_eq s.mem h, if_neg (by simp [hdue])]
  exact ⟨rfl, rfl⟩

/-! ### Service resumes -/

theorem changes_resume : Changes [.rgns] c (c.resume g) := changes_modRgn.stepIf

/-- No restart is under way. -/
def Core.resumed (c : Core) : Core := { c with sec := { c.sec with restart := none } }

/-- The recorded regions resume, and the gate opens where it was open and may. -/
def Core.resumeRgns (c : Core) (rs : List Nat) : Core := rs.foldl (fun (c : Core) g => c.resume g) c

def Core.reopen (c : Core) (gate : Bool) : Core := if gate && c.getB aGate 2 && !c.getB aGate 1 then c.setF aGate 0 1 1 else c

theorem Core.serviceResume_eq {t : Nat} {gate : Bool} {rs : List Nat} (hr : c.sec.restart = some (t, gate, rs)) (hfw : c.fwState = 2)
    (hagreed : c.getB 0xA8 36 = true) (htrained : c.getB 0x88 4 = false) (hdrained : ∀ g ∈ rs, (c.rgn g).phase ≠ .draining) :
    c.serviceResume = if c.resumed.enterService.safe then c.resumed.enterService
      else (c.resumed.enterService.resumeRgns rs).reopen gate := by
  have hany : (rs.any fun g => (c.rgn g).phase = .draining) = false := by
    rw [List.any_eq_false]
    intro g hg
    simp [hdrained g hg]
  unfold Core.serviceResume
  rw [hr]
  dsimp only
  rw [if_neg (by simp [hfw, hagreed, htrained, hany])]
  rfl

/-- Resuming regions makes them run where they have drained and no meadow of theirs is lent. -/
theorem Core.resumeRgns_spec (rs : List Nat) (c : Core) (hg : g ∈ rs) (hd : (c.rgn g).phase = .drained) (hl : c.lent g = []) :
    ((c.resumeRgns rs).rgn g).phase = .running := by
  have hkeep : ∀ (c : Core) (h : Nat), (c.rgn g).phase = .running → ((c.resume h).rgn g).phase = .running := fun c h hrun => by
    unfold Core.resume
    split
    · by_cases hh : g = h
      · subst hh
        rw [Core.rgn_modRgn_self]
      · rw [Core.rgn_modRgn_ne _ _ hh]
        exact hrun
    · exact hrun
  have hrest : ∀ (rs : List Nat) (c : Core), (c.rgn g).phase = .running → ((c.resumeRgns rs).rgn g).phase = .running := by
    intro rs
    induction rs with
    | nil => exact fun _ h => h
    | cons h rs ih => exact fun c hrun => ih _ (hkeep c h hrun)
  induction rs generalizing c with
  | nil => exact absurd hg List.not_mem_nil
  | cons h rs ih =>
    by_cases hh : g = h
    · subst hh
      refine hrest rs _ ?_
      have hruns : c.resume g = c.modRgn g fun r => { r with phase := .running } := if_pos ⟨hd, hl⟩
      show ((c.resume g).rgn g).phase = .running
      rw [hruns, Core.rgn_modRgn_self]
    · have hrgn : (c.resume h).rgn g = c.rgn g := by
        unfold Core.resume
        split
        · exact Core.rgn_modRgn_ne _ _ hh
        · rfl
      have hlent : (c.resume h).lent g = c.lent g := by
        unfold Core.lent Core.rgnField
        rw [hrgn]
        refine List.filter_congr fun x _ => ?_
        rw [Core.getF_congr (changes_resume .regs (by decide))]
      exact ih _ ((List.mem_cons.mp hg).resolve_left hh) (by rw [hrgn]; exact hd) (hlent.trans hl)

theorem changes_resumeRgns {rs : List Nat} : Changes [.rgns] c (c.resumeRgns rs) := .foldl (fun _ _ => changes_resume) _ c

theorem Core.reopen_gate {gate : Bool} (hgate : gate = true) (hpin : c.getB aGate 2 = true) (hkill : c.getB aGate 1 = false) :
    (c.reopen gate).getB aGate 0 = true := by
  unfold Core.reopen
  rw [if_pos (by simp [hgate, hpin, hkill])]
  exact Core.getB_setF_self c _ 0 1 (by decide)

theorem Core.rd_resumed (c : Core) (n : Nat) : c.resumed.rd n = c.rd n := rfl

theorem changes_laneSync : Changes [.regs, .sep, .lanes] c (c.laneSync l) := by
  refine .ite (changes_setLaneState.mono rfl) (.stepIf ?_)
  exact ((changes_setLaneState.trans changes_cutLane).trans changes_setLane).mono rfl

theorem changes_enterService : Changes [.regs, .flt, .sep, .lanes] c c.enterService := by
  rw [Core.enterService_eq]
  have hpages := Changes.foldl (fun c p => (changes_setF : Changes [.regs] c (c.setF (p + 0x18) 0 1 1))) c.servicePages c
  have hlanes : ∀ d : Core, Changes [.regs, .sep, .lanes] d ((List.range 16).foldl (fun c l => c.laneSync l) d) :=
    .foldl (fun _ _ => changes_laneSync) _
  exact ((hpages.trans (Core.setDevState_spec _ 3).1).trans (hlanes _)).mono rfl

/-- The registers that tell whose meadows are a region's stay through the entry into service. -/
theorem Core.rgnField_enterService (hsafe : c.safe = false) (x : Nat) : c.enterService.rgnField x = c.rgnField x := by
  refine Core.getF_of_rd ?_
  have hmod : (pMdw x + 0x80) % 0x80 = 0 ∧ (pMdw x + 0x80) % 0x1000 = 0x80 := by
    unfold pMdw
    omega
  rw [Core.enterService_eq, Core.rd_laneSyncs fun l => by have := aLaneStat_mod l; omega,
    Core.setDevState_of_not_safe (Core.safe_setEns hsafe), Core.rd_setF_ne _ _ _ _ (by unfold pMdw; omega)]
  refine Core.rd_setEns fun p hp => ?_
  have := Core.servicePages_aligned hp
  omega

theorem Core.resumed_safe (c : Core) : c.resumed.safe = c.safe := rfl

theorem serviceResume_runs {P : Core → Prop} : Stated.Runs .serviceResume s P ↔ P s.core.serviceResume :=
  runs_iff (d := s.core.serviceResume) rfl

theorem Core.changes_reopen {gate : Bool} : Changes [.regs] c (c.reopen gate) := .stepIf changes_setF

theorem serviceResume_resumes {t : Nat} {gate : Bool} {rs : List Nat} (hr : s.core.sec.restart = some (t, gate, rs))
    (hfw : s.core.fwState = 2) (hagreed : s.core.getB 0xA8 36 = true) (htrained : s.core.getB 0x88 4 = false)
    (hsafe : s.core.safe = false) (hdrained : ∀ g ∈ rs, (s.core.rgn g).phase ≠ .draining) : Stated.Runs .serviceResume s fun c =>
      c.sec.restart = none ∧ c.devState = 3 ∧
      (∀ g ∈ rs, (s.core.rgn g).phase = .drained → s.core.lent g = [] → (c.rgn g).phase = .running) ∧
      (gate = true → s.core.getB aGate 2 = true → s.core.getB aGate 1 = false → c.getB aGate 0 = true) := by
  have hrsafe : s.core.resumed.safe = false := s.core.resumed_safe.trans hsafe
  have hrd : ∀ n, n ≠ 0x88 → n % 0x1000 ≠ 0x18 → n < pPass → s.core.resumed.enterService.rd n = s.core.rd n := fun n h1 h2 h3 =>
    (Core.rd_enterService hrsafe h1 h2 h3).trans (s.core.rd_resumed n)
  have hsvc : s.core.resumed.enterService.safe = false := by
    refine (Core.safe_congr ?_).trans hrsafe
    rw [Core.enterService_eq, Core.rd_laneSyncs fun l => by have := aLaneStat_mod l; unfold pFlt; omega,
      Core.setDevState_of_not_safe (Core.safe_setEns hrsafe), Core.rd_setF_ne _ _ _ _ (by decide)]
    refine Core.rd_setEns fun p hp => ?_
    have := Core.servicePages_aligned hp
    unfold pFlt
    omega
  have hdev : s.core.resumed.enterService.devState = 3 := Core.devState_enterService hrsafe
  have hrgns : s.core.resumed.enterService.rgns = s.core.rgns := changes_enterService .rgns (by decide)
  have hsec : s.core.resumed.enterService.sec = s.core.resumed.sec := changes_enterService .sec (by decide)
  have hfield : ∀ x, s.core.resumed.enterService.rgnField x = s.core.rgnField x := Core.rgnField_enterService hrsafe
  rw [serviceResume_runs, Core.serviceResume_eq hr hfw hagreed htrained hdrained, if_neg (by simp [hsvc])]
  generalize s.core.resumed.enterService = d at hrd hsvc hdev hrgns hsec hfield ⊢
  have hregs : (d.resumeRgns rs).regs = d.regs := changes_resumeRgns .regs (by decide)
  have hopen : Changes [.regs] (d.resumeRgns rs) ((d.resumeRgns rs).reopen gate) := Core.changes_reopen
  refine ⟨?_, ?_, fun g hg hd hl => ?_, fun hgate hpin hkill => Core.reopen_gate hgate ?_ ?_⟩
  · rw [show ((d.resumeRgns rs).reopen gate).sec = (d.resumeRgns rs).sec from hopen .sec (by decide),
      show (d.resumeRgns rs).sec = d.sec from changes_resumeRgns .sec (by decide), hsec]
    rfl
  · have hstate : (d.resumeRgns rs).devState = 3 := (Core.getF_congr hregs _ _ _).trans hdev
    unfold Core.reopen
    split
    · exact (Core.devState_setF (by decide)).trans hstate
    · exact hstate
  · have hrgn : d.rgn g = s.core.rgn g := congrArg (Store.get · Rgn.idle g) hrgns
    have hlent : d.lent g = s.core.lent g := by
      unfold Core.lent
      rw [hrgn]
      exact List.filter_congr fun x _ => by rw [hfield]
    have hrun := Core.resumeRgns_spec rs d hg (by rw [hrgn]; exact hd) (hlent.trans hl)
    have hkeep : ((d.resumeRgns rs).reopen gate).rgn g = (d.resumeRgns rs).rgn g :=
      congrArg (Store.get · Rgn.idle g) (hopen .rgns (by decide))
    rw [hkeep]
    exact hrun
  · rw [← hpin]
    exact Core.getB_of_rd ((Core.rd_congr hregs _).trans (hrd _ (by decide) (by decide) (by decide)))
  · rw [← hkill]
    exact Core.getB_of_rd ((Core.rd_congr hregs _).trans (hrd _ (by decide) (by decide) (by decide)))

/-! ### Confirmation and fallback -/

theorem healthConfirm_runs {v : Word64} {P : Mem → Core → Prop} : Stated.RunsDev (.healthConfirm a v) s P ↔
    P (hConfirm s.mem s.core a v.toNat).1 (hConfirm s.mem s.core a v.toNat).2 :=
  runsDev_devStep (f := fun m c => hConfirm m c a v.toNat) rfl

/-- No trial awaits confirmation. -/
def Core.confirmed (c : Core) : Core := { c with sec := { c.sec with trial := false, trialAt := none } }

theorem hConfirm_eq (m : Mem) (ha : a.view = .priv) (hw : v % 2 ^ 32 = 0x48454C54) (ht : c.sec.trialAt ≠ none) : hConfirm m c a v =
    (putRec m { bootRec m with active := c.sec.slot, trial := none, tried := false, floor := max (bootRec m).floor c.sec.svn },
      (c.confirmed.setF 0xA0 33 1 1).showBoot) := by
  obtain ⟨t, ht⟩ := Option.ne_none_iff_exists'.mp ht
  refine if_neg ?_
  rw [isPriv_of_view ha, hw, ht]
  simp

theorem healthConfirm_confirms {v : Word64} (ha : a.view = .priv) (hw : v.toNat % 2 ^ 32 = 0x48454C54) (ht : s.core.sec.trialAt ≠ none) :
    Stated.RunsDev (.healthConfirm a v) s fun m c =>
      c.sec = { s.core.sec with trial := false, trialAt := none } ∧ c.getB 0xA0 33 = true ∧
      m = putRec s.mem { bootRec s.mem with active := s.core.sec.slot, trial := none, tried := false,
                                            floor := max (bootRec s.mem).floor s.core.sec.svn } := by
  rw [healthConfirm_runs, hConfirm_eq s.mem ha hw ht]
  exact ⟨changes_showBoot .sec (by decide), (Core.getB_of_rd (Core.rd_showBoot (by decide))).trans (Core.getB_setF_self _ _ 33 1 (by decide)), rfl⟩

theorem confirmTimeout_runs {P : Mem → Core → Prop} : Stated.RunsDev .confirmTimeout s P ↔
    P (confirmTimeout s.mem s.core).1 (confirmTimeout s.mem s.core).2 := runsDev_devStep (f := confirmTimeout) rfl

/-- The confirmed slot runs again after a pause. -/
def fellBack (r : Mem × Core) (slot : Nat) : Mem × Core :=
  let b := bootRec r.1
  let m := putRec r.1 { b with trial := none, tried := false, rejected := b.rejected ||| 2 ^ slot }
  (m, ((r.2.runSlot m b.active false).setF 0xA0 33 1 0).updIdle 0x25)

theorem fallBack_eq (m : Mem) (c : Core) : fallBack m c = fellBack (pause m c) c.sec.slot := rfl

theorem bootRec_congr {m m' : Mem} (h : m'.flash = m.flash) : bootRec m' = bootRec m := by
  have hread : ∀ x n, m'.flashRead x n = m.flashRead x n := fun x n =>
    Mem.flashRead_congr fun y _ _ => by rw [Mem.flashByte, h, Mem.flashByte]
  unfold bootRec bootCopy
  simp only [hread]

theorem fellBack_spec {r : Mem × Core} {slot : Nat} (hr : Stated.Restarted r.2) : Stated.Restarted (fellBack r slot).2 ∧
    (fellBack r slot).2.sec.trial = false ∧ (fellBack r slot).2.sec.slot = (bootRec r.1).active ∧
    (fellBack r slot).2.getF aUpd 8 8 = 0x25 := by
  unfold fellBack
  extract_lets b m'
  clear_value m'
  obtain ⟨hslot, htrial, -⟩ := r.2.runSlot_sec m' b.active false
  obtain ⟨-, hresult, hsec⟩ := ((r.2.runSlot m' b.active false).setF 0xA0 33 1 0).updIdle_fields 0x25
  dsimp only
  refine ⟨restarted_updIdle (restarted_setF (restarted_runSlot hr) (by decide)), ?_, ?_, hresult⟩
  · rw [hsec, Core.setF_sec, htrial]
  · rw [hsec, Core.setF_sec, hslot]

theorem confirmTimeout_fallsBack (ht : s.core.sec.trialAt ≠ none) (hleft : s.core.secondsLeft = 0) :
    Stated.RunsDev .confirmTimeout s fun _ c => Stated.Restarted c ∧ c.sec.trial = false ∧ c.sec.slot = (bootRec s.mem).active ∧
      c.getF aUpd 8 8 = 0x25 := by
  have hback : confirmTimeout s.mem s.core = fellBack (pause s.mem s.core) s.core.sec.slot :=
    (if_pos (by simp [Option.isSome_iff_ne_none.mpr ht, hleft])).trans (fallBack_eq _ _)
  have hrec : bootRec (pause s.mem s.core).1 = bootRec s.mem := bootRec_congr (flash_pause _ _)
  rw [confirmTimeout_runs, hback, ← hrec]
  exact fellBack_spec (pause_paused s.mem s.core).restarted

/-! ### Watchdog and protection -/

theorem watchdog_runs {P : Mem → Core → Prop} : Stated.RunsDev (.watchdog core) s P ↔
    P (watchdog s.mem s.core core).1 (watchdog s.mem s.core core).2 := runsDev_devStep (f := fun m c => watchdog m c core) rfl

theorem watchdog_eq (m : Mem) (c : Core) (core : Nat) :
    watchdog m c core = pause (errS m c pSec 0x45 core 0).1 (errS m c pSec 0x45 core 0).2 := rfl

theorem watchdog_restarts (core : Nat) : Stated.RunsDev (.watchdog core) s fun _ c =>
    c.kwn.sess = [] ∧ c.sec.restart.isSome = true ∧ c.safe = true ∧ (s.core.safe = false → (0x45, core) ∈ c.flt.errors) := by
  rw [watchdog_runs, watchdog_eq]
  have hpaused := pause_paused (errS s.mem s.core pSec 0x45 core 0).1 (errS s.mem s.core pSec 0x45 core 0).2
  obtain ⟨hsess, hrestart, -⟩ := hpaused.restarted
  have herr : (errS s.mem s.core pSec 0x45 core 0).2.safe = true ∧
      (s.core.safe = false → (0x45, core) ∈ (errS s.mem s.core pSec 0x45 core 0).2.flt.errors) := by
    cases hsafe : s.core.safe with
    | false =>
      have hstruck := errS_first (code := 0x45) (source := core) (detail := 0) s.mem (page := pSec) (by decide) hsafe
      exact ⟨hstruck.safe, fun _ => by rw [hstruck.flt]; exact List.mem_singleton_self _⟩
    | true =>
      have hstruck := (errS_again (code := 0x45) (source := core) (detail := 0) s.mem (page := pSec) (by decide) hsafe).2
      exact ⟨hstruck.safe, fun h => absurd h (by decide)⟩
  refine ⟨hsess, hrestart, hpaused.safe.trans herr.1, fun hsafe => ?_⟩
  rw [hpaused.errors]
  exact herr.2 hsafe

/-- The faults of the last 10 s. -/
def Core.recentFaults (c : Core) : List (Nat × Nat) := c.sec.faults.filter fun (e : Nat × Nat) => c.now < e.2 + nsN 10000000000

/-- A component's fault is logged. -/
def Core.faultLogged (c : Core) (comp : Nat) : Core := c.logErr pCtl clsC 0x80 0 comp 0

/-- The faults that are kept. -/
def Core.withFaults (c : Core) (l : List (Nat × Nat)) : Core := { c with sec := { c.sec with faults := l } }

theorem Core.faultLogged_spec (c : Core) (comp : Nat) : (c.faultLogged comp).recentFaults = c.recentFaults ∧
    (c.faultLogged comp).now = c.now ∧ (c.faultLogged comp).sec = c.sec ∧ (c.faultLogged comp).devState = c.devState ∧
    (c.faultLogged comp).safe = c.safe := by
  have hrd : ∀ n, ¬ LogTouches pCtl n → (c.faultLogged comp).rd n = c.rd n := fun n hn => Core.rd_logErr_ne c _ _ _ _ _ hn
  have hsec : (c.faultLogged comp).sec = c.sec := changes_logErr .sec (by decide)
  have hnow : (c.faultLogged comp).now = c.now := Core.now_congr (changes_logErr .clk (by decide)) fun n hn => hrd n (by
    unfold LogTouches
    rcases hn with rfl | rfl <;> decide)
  refine ⟨?_, hnow, hsec, Core.getF_of_rd (hrd _ (modeReg_devStatus.not_logTouches (by decide))),
    Core.safe_congr (hrd _ (modeReg_fltState.not_logTouches (by decide)))⟩
  rw [Core.recentFaults, hsec, hnow, Core.recentFaults]

theorem length_faults (l : List (Nat × Nat)) (comp now : Nat) :
    ((l ++ [(comp, now)]).filter fun (e : Nat × Nat) => e.1 = comp).length = (l.filter fun (e : Nat × Nat) => e.1 = comp).length + 1 := by
  rw [List.filter_append, List.length_append]
  simp

theorem fwProtect_eq (m : Mem) (c : Core) (comp : Nat) : fwProtect m c comp =
    if (c.recentFaults.filter fun (e : Nat × Nat) => e.1 = comp).length < 2 then
      (m, (c.faultLogged comp).withFaults (c.recentFaults ++ [(comp, c.now)]))
    else if comp = 0 then
      pause m ((c.faultLogged comp).withFaults ((c.recentFaults ++ [(comp, c.now)]).filter fun (e : Nat × Nat) => e.1 ≠ comp))
    else (m, ((c.faultLogged comp).withFaults ((c.recentFaults ++ [(comp, c.now)]).filter fun (e : Nat × Nat) => e.1 ≠ comp)).setDevState 4) := by
  obtain ⟨hrecent, hnow, -⟩ := c.faultLogged_spec comp
  have hlength := length_faults c.recentFaults comp c.now
  unfold fwProtect
  extract_lets d l n
  have hd : d = c.faultLogged comp := rfl
  have hl : l = d.recentFaults ++ [(comp, d.now)] := rfl
  have hn : n = (l.filter fun (e : Nat × Nat) => e.1 = comp).length := rfl
  clear_value n l d
  subst hd
  rw [hrecent, hnow] at hl
  subst hl
  rw [hlength] at hn
  by_cases hfew : (c.recentFaults.filter fun (e : Nat × Nat) => e.1 = comp).length < 2
  · rw [if_pos hfew, if_pos (by omega)]
    rfl
  · rw [if_neg hfew, if_neg (by omega)]
    rfl

theorem fwProtect_runs (hcomp : comp < 7) (hfw : 2 ≤ s.core.fwState) {P : Mem → Core → Prop} : Stated.RunsDev (.fwProtect comp) s P ↔
    P (fwProtect s.mem s.core comp).1 (fwProtect s.mem s.core comp).2 := by
  refine (runsDev_devStep (f := fun m c => if comp < 7 && 2 ≤ c.fwState then fwProtect m c comp else (m, c)) rfl).trans ?_
  rw [if_pos (by simp [hcomp, hfw])]

theorem Core.sec_withFaults (c : Core) (l : List (Nat × Nat)) : (c.withFaults l).sec = { c.sec with faults := l } := rfl
theorem Core.devState_withFaults (c : Core) (l : List (Nat × Nat)) : (c.withFaults l).devState = c.devState := rfl
theorem Core.safe_withFaults (c : Core) (l : List (Nat × Nat)) : (c.withFaults l).safe = c.safe := rfl

theorem fwProtect_logs (hcomp : comp < 7) (hfw : 2 ≤ s.core.fwState)
    (hfew : (s.core.recentFaults.filter fun (e : Nat × Nat) => e.1 = comp).length < 2) : Stated.RunsDev (.fwProtect comp) s fun m c =>
      m = s.mem ∧ c.sec.faults = s.core.recentFaults ++ [(comp, s.core.now)] ∧ c.devState = s.core.devState := by
  obtain ⟨-, -, -, hdev, -⟩ := s.core.faultLogged_spec comp
  rw [fwProtect_runs hcomp hfw, fwProtect_eq, if_pos hfew, Core.sec_withFaults, Core.devState_withFaults]
  exact ⟨rfl, rfl, hdev⟩

theorem fwProtect_stops (hcomp : comp < 7) (hfw : 2 ≤ s.core.fwState) (hsafe : s.core.safe = false)
    (hmany : 2 ≤ (s.core.recentFaults.filter fun (e : Nat × Nat) => e.1 = comp).length) (hne : comp ≠ 0) :
    Stated.RunsDev (.fwProtect comp) s fun m c => m = s.mem ∧ c.devState = 4 := by
  obtain ⟨-, -, -, -, hsafe'⟩ := s.core.faultLogged_spec comp
  rw [fwProtect_runs hcomp hfw, fwProtect_eq, if_neg (by omega), if_neg hne]
  refine ⟨rfl, (Core.setDevState_spec _ 4).2.2.2.2 ?_⟩
  rw [Core.safe_withFaults, hsafe', hsafe]

theorem fwProtect_restarts (hcomp : comp < 7) (hfw : 2 ≤ s.core.fwState)
    (hmany : 2 ≤ (s.core.recentFaults.filter fun (e : Nat × Nat) => e.1 = comp).length) (hzero : comp = 0) :
    Stated.RunsDev (.fwProtect comp) s fun _ c => Stated.Restarted c := by
  rw [fwProtect_runs hcomp hfw, fwProtect_eq, if_neg (by omega), if_pos hzero]
  exact (pause_paused _ _).restarted

end Sys2Proof.Machine

open Sys2Proof Sys2Proof.Machine

/-- Settles O49: what a pause leaves of a core is said once (`Paused`), and the commands that restart are short uses of it. -/
theorem updatesRun : Obligations.UpdatesRun := by
  refine ⟨fun s a v ha hs => ⟨stage_busy ha hs, stage_checks ha hs, fun hst => ⟨activateAt_nothing ha hs hst, activate_nothing ha hs hst⟩,
      fun hst harm hswap => ⟨activateAt_late ha hs hst harm hswap, activateAt_arms ha hs hst harm hswap⟩, activate_swapArmed ha hs,
      activate_restarts ha hs, cancel_disarms ha hs, cancel_idle ha hs⟩,
    fun s img h => ⟨stageDone_fails h, stageDone_stands h⟩, fun s v h => ⟨updateActivation_due h, updateActivation_waits h⟩,
    fun s t gate rs hr hfw hagreed htrained hsafe hdrained => serviceResume_resumes hr hfw hagreed htrained hsafe hdrained,
    fun s a v ha hw ht => healthConfirm_confirms ha hw ht, fun s ht hleft => confirmTimeout_fallsBack ht hleft,
    fun s core => watchdog_restarts core, fun s comp hcomp hfw hsafe => ⟨fwProtect_logs hcomp hfw, fun hmany =>
      ⟨fwProtect_stops hcomp hfw hsafe hmany, fwProtect_restarts hcomp hfw hmany⟩⟩⟩

end

