-- ==== Sys2Proof/Proofs/Sessions.lean ====
section
/-! PROOF. Kwanan sessions: opening, sequencing and retransmission, takeover, closing and the capture stream (R429 to R440, R450). -/

namespace Sys2Proof.Machine

variable {m : Mem} {c d : Core} {s : State} {a : Access} {id j n v type ref : Nat} {h : KwnHdr} {b : OpenBody} {x y : Sess}
  {body sig : List Byte} {e : Option Nat}

/-! ### The sessions after an operation -/

theorem Core.sess_congr (hk : d.kwn.sess = c.kwn.sess) (j : Nat) : d.sess j = c.sess j := by
  unfold Core.sess
  rw [hk]

theorem Core.sess_setSess_ne (hj : j ≠ id) : (c.setSess id x).sess j = c.sess j := by
  rw [Core.sess, show (c.setSess id x).kwn.sess = Store.insert (Store.erase c.kwn.sess id) id x from rfl, Store.find_put, if_neg hj]
  rfl

theorem Core.sess_message {f q : Nat} (c : Core) (j : Nat) : (c.message id x type f ref q body).sess j = c.sess j := rfl

theorem Core.sess_dropHolder : (c.dropHolder id).sess j = c.sess j := Core.sess_congr (by rw [Core.kwn_dropHolder]) j

theorem Store.find_erase {α : Type} (l : Store α) (k j : Nat) :
    (Store.erase l k).find? (fun e => e.1 = j) = if k = j then none else l.find? fun e => e.1 = j := by
  rw [Store.erase_eq_filter, List.find?_filter]
  split
  · next hkj =>
    subst hkj
    exact List.find?_eq_none.mpr fun e _ => by simp
  · next hkj =>
    refine congrArg (List.find? · l) (funext fun e => ?_)
    by_cases he : e.1 = j <;> simp [he, Ne.symm hkj]

/-- Closing a session frees its id. -/
theorem Core.sess_closeSess_self (c : Core) (id : Nat) : (c.closeSess id).sess id = none := by
  unfold Core.closeSess
  split
  · assumption
  · rw [Core.sess_dropHolder]
    dsimp only [Core.sess]
    rw [Store.find_erase, if_pos rfl]
    rfl

/-- Closing a session leaves the others. -/
theorem Core.sess_closeSess_ne (hj : j ≠ id) : (c.closeSess id).sess j = c.sess j := by
  unfold Core.closeSess
  split
  · rfl
  · rw [Core.sess_dropHolder]
    dsimp only [Core.sess]
    rw [Store.find_erase, if_neg hj.symm]

theorem Core.sess_of_mem_sessWhere {p : Sess → Bool} (hj : j ∈ c.sessWhere p) : ∃ x, c.sess j = some x := by
  obtain ⟨e, he, rfl⟩ := List.mem_map.mp hj
  obtain ⟨f, hf⟩ := Option.isSome_iff_exists.mp
    (List.find?_isSome.mpr ⟨e, List.mem_of_mem_filter he, by simp⟩ : (c.kwn.sess.find? fun f => f.1 = e.1).isSome)
  exact ⟨f.2, by rw [Core.sess, hf]; rfl⟩

/-! ### What sending leaves of a session -/

/-- What a session keeps while messages leave on it: its role, its peer, the last number taken, its failed responses and its timeouts. -/
def Sess.standing (x : Sess) : Role × HostAddr × Nat × Nat × Nat × Nat := (x.role, x.host, x.epoch, x.rxSeq, x.fails, x.timeouts)

def Core.standing (c : Core) (j : Nat) : Option (Role × HostAddr × Nat × Nat × Nat × Nat) := (c.sess j).map Sess.standing

theorem Core.standing_of_sess (hx : c.sess j = some x) : c.standing j = some x.standing := by rw [Core.standing, hx]; rfl

theorem Core.role_eq_standing (c : Core) (j : Nat) : (c.sess j).map (·.role) = (c.standing j).map (·.1) := by
  rw [Core.standing, Option.map_map]
  rfl

theorem Core.role_of_standing (hx : c.standing j = some x.standing) : (c.sess j).map (·.role) = some x.role := by
  rw [Core.role_eq_standing, hx]
  rfl

theorem Core.fails_of_standing (hx : c.standing j = some x.standing) : (c.sess j).map (·.fails) = some x.fails := by
  have hmap : (c.sess j).map (·.fails) = (c.standing j).map (·.2.2.2.2.1) := by
    rw [Core.standing, Option.map_map]
    rfl
  rw [hmap, hx]
  rfl

theorem Core.standing_congr (hk : d.kwn.sess = c.kwn.sess) (j : Nat) : d.standing j = c.standing j := by
  rw [Core.standing, Core.standing, Core.sess_congr hk]

theorem Core.standing_setSess (hx : c.sess id = some x) (hxy : y.standing = x.standing) (j : Nat) :
    (c.setSess id y).standing j = c.standing j := by
  by_cases hj : j = id
  · rw [hj, Core.standing_of_sess (Core.sess_setSess _ _ _), Core.standing_of_sess hx, hxy]
  · rw [Core.standing, Core.standing, Core.sess_setSess_ne hj]

theorem Core.standing_sendTo (c : Core) (id type ref : Nat) (body : List Byte) (e : Option Nat) (j : Nat) :
    (c.sendTo id type ref body e).standing j = c.standing j := by
  unfold Core.sendTo
  split
  · rfl
  · next x hx =>
    extract_lets q x' x''
    exact Core.standing_setSess hx (by unfold x''; split <;> rfl) j

theorem Core.standing_sendEntries (c : Core) (id type : Nat) (l : List (List Byte)) (j : Nat) :
    (c.sendEntries id type l).standing j = c.standing j := by
  unfold Core.sendEntries
  split
  · rfl
  · next x hx =>
    extract_lets lost body d
    split
    · exact (Core.standing_sendTo _ _ _ _ _ _ _).trans (Core.standing_setSess hx (by rfl) j)
    · refine Eq.trans (Core.standing_congr ?_ j)
        (Core.standing_setSess (y := { x with lost := Store.set x.lost 0 type (lost + l.length) }) hx rfl j)
      rw [Core.bumpBy_kwn]

theorem Core.standing_sendChallenge (c : Core) (id j : Nat) : (c.sendChallenge id).standing j = c.standing j := by
  unfold Core.sendChallenge
  split
  · rfl
  · next x hx =>
    split
    · exact Core.standing_setSess hx (by rfl) j
    · exact (Core.standing_sendTo _ _ _ _ _ _ _).trans (Core.standing_setSess (c := c.newNonce.2) hx (by rfl) j)

theorem Core.standing_reply (c : Core) (id ref : Nat) (r : Reply) (j : Nat) : (c.reply id ref r).standing j = c.standing j := by
  cases r with
  | resp b => exact Core.standing_sendTo _ _ _ _ _ _ _
  | nak k => exact Core.standing_sendTo _ _ _ _ _ _ _
  | posted => rfl

theorem Core.standing_sessNotice (c : Core) (id k j : Nat) : (c.sessNotice id k).standing j = c.standing j :=
  Core.standing_sendEntries _ _ _ _ _

theorem Core.sendTo_epochs (c : Core) (id type ref : Nat) (body : List Byte) (e : Option Nat) :
    (c.sendTo id type ref body e).kwn.epochs = c.kwn.epochs := by
  unfold Core.sendTo
  split <;> rfl

theorem Core.sendTo_capSend (c : Core) (id type ref : Nat) (body : List Byte) (e : Option Nat) :
    (c.sendTo id type ref body e).kwn.capSend = c.kwn.capSend := by
  unfold Core.sendTo
  split <;> rfl

theorem Core.sendChallenge_epochs (c : Core) (id : Nat) : (c.sendChallenge id).kwn.epochs = c.kwn.epochs := by
  unfold Core.sendChallenge
  split
  · rfl
  · split
    · rfl
    · exact Core.sendTo_epochs _ _ _ _ _ _

/-- A challenge leaves behind what has left before it. -/
theorem Core.sendChallenge_out (c : Core) (id : Nat) : ∃ rest, (c.sendChallenge id).out = c.out ++ rest := by
  unfold Core.sendChallenge
  split
  · exact ⟨[], (List.append_nil _).symm⟩
  · split
    · exact ⟨[], (List.append_nil _).symm⟩
    · exact ⟨_, Core.sendTo_out (Core.sess_setSess _ _ _)⟩

/-! ### OPEN -/

/-- The core after an OPEN that no rule refuses, before the challenge of a candidate. -/
def Core.opened (c : Core) (h : KwnHdr) (b : OpenBody) (id major : Nat) : Core :=
  let e := (c.kwn.epochs + 1) % 2 ^ 32
  let x := freshSess c h b e
  let c := (((c.wr (aSess id 0) 0).wr (aSess id 1) 0).wr (aSess id 2) 0).setSess id x
  let c := { c with kwn := { c.kwn with epochs := e, capSend := if b.role = 1 then c.pailRd else c.kwn.capSend } }
  c.openAck id e h.host 0 major x.minor b.hnonce

theorem Core.opened_epochs (id major : Nat) : (c.opened h b id major).kwn.epochs = (c.kwn.epochs + 1) % 2 ^ 32 := rfl

theorem Core.opened_sess (id major : Nat) :
    (c.opened h b id major).sess id = some (freshSess c h b ((c.kwn.epochs + 1) % 2 ^ 32)) :=
  Core.sess_setSess (((c.wr (aSess id 0) 0).wr (aSess id 1) 0).wr (aSess id 2) 0) id _

theorem fld_version (major : Byte) (l : List Byte) : fld (0 :: major :: l) 0 2 = 256 * major.toNat := by
  simp [fld, slice, leNat]

theorem Core.opened_out (id major : Nat) : ∃ body,
    (c.opened h b id major).out = c.out ++ [.openAck id ((c.kwn.epochs + 1) % 2 ^ 32) h.host body] ∧ fld body 0 2 = 256 * (major % 256) := by
  refine ⟨_, rfl, ?_⟩
  exact (fld_version _ _).trans (by rw [BitVec.toNat_ofNat])

/-- The core after it, the challenge of a candidate sent (R438). -/
def Core.openedSess (c : Core) (h : KwnHdr) (b : OpenBody) (id major : Nat) : Core :=
  if b.role = 2 && !c.kwn.upload.isSome then (c.opened h b id major).sendChallenge id else c.opened h b id major

/-- An OPEN that no rule refuses opens the least free id. -/
theorem Core.openSess_opens {major : Nat} (hnew : (c.kwn.sess.find? fun e => e.2.host = h.host && e.2.hnonce = b.hnonce) = none)
    (hz : b.reservedZero = true) (hrole : b.role ≤ 2) (hst : b.streams ≤ 3)
    (hver : topMajor (c.getF (pCtl + 0x88) 0 16 &&& b.verMask) = some major)
    (hid : ((List.range (if c.kwn.upload.isSome then 1 else 64)).find? fun i => (c.sess i).isNone) = some id)
    (hcap : b.role ≠ 1 ∨ c.capSess = none) :
    c.openSess h b = c.openedSess h b id major := by
  have hform : (!b.reservedZero || decide (2 < b.role) || decide (3 < b.streams)) = false := by
    rw [hz, decide_eq_false (Nat.not_lt.mpr hrole), decide_eq_false (Nat.not_lt.mpr hst)]
    rfl
  have hbusy : (decide (b.role = 1) && c.capSess.isSome) = false := by
    rcases hcap with hcap | hcap <;> simp [hcap]
  unfold Core.openSess
  extract_lets rom no
  rw [hnew]
  dsimp only
  rw [if_neg (ne_true_of_eq_false hform), hver]
  dsimp only
  rw [hid]
  dsimp only
  rw [if_neg (ne_true_of_eq_false hbusy)]
  rfl

theorem Core.openSess_noVersion (hnew : (c.kwn.sess.find? fun e => e.2.host = h.host && e.2.hnonce = b.hnonce) = none)
    (hz : b.reservedZero = true) (hrole : b.role ≤ 2) (hst : b.streams ≤ 3)
    (hver : topMajor (c.getF (pCtl + 0x88) 0 16 &&& b.verMask) = none) :
    c.openSess h b = c.openAck 0xFF 0 h.host 1 0 0 b.hnonce := by
  have hform : (!b.reservedZero || decide (2 < b.role) || decide (3 < b.streams)) = false := by
    rw [hz, decide_eq_false (Nat.not_lt.mpr hrole), decide_eq_false (Nat.not_lt.mpr hst)]
    rfl
  unfold Core.openSess
  extract_lets rom no
  rw [hnew]
  dsimp only
  rw [if_neg (ne_true_of_eq_false hform), hver]

theorem Core.openMsg_eq (hup : c.kwnUp = true) (hon : c.transportOn h.host = true) (hw : h.wellFormed = true) :
    c.openMsg h b = c.openSess h b := by
  unfold Core.openMsg
  simp [hup, hon, hw]

/-- What an accepted OPEN leaves: the next epoch, its acknowledgement first, and the new session. -/
theorem Core.openedSess_spec (id major : Nat) :
    (c.openedSess h b id major).kwn.epochs = (c.kwn.epochs + 1) % 2 ^ 32 ∧
    (∃ body rest, (c.openedSess h b id major).out = c.out ++ .openAck id ((c.kwn.epochs + 1) % 2 ^ 32) h.host body :: rest ∧
      fld body 0 2 = 256 * (major % 256)) ∧
    (c.openedSess h b id major).standing id = some (freshSess c h b ((c.kwn.epochs + 1) % 2 ^ 32)).standing := by
  obtain ⟨body, hout, hbody⟩ := Core.opened_out (c := c) (h := h) (b := b) id major
  have hsess := Core.standing_of_sess (Core.opened_sess (c := c) (h := h) (b := b) id major)
  unfold Core.openedSess
  split
  · obtain ⟨rest, hrest⟩ := Core.sendChallenge_out (c.opened h b id major) id
    refine ⟨Core.sendChallenge_epochs _ _, ⟨body, rest, ?_, hbody⟩, (Core.standing_sendChallenge _ _ _).trans hsess⟩
    rw [hrest, hout, List.append_assoc]
    rfl
  · exact ⟨rfl, ⟨body, [], hout, hbody⟩, hsess⟩

/-! ### AUTH_RESPONSE -/

/-- A request that arrived is worked on, and its reply leaves when it fits. -/
theorem request_eq {work : Sess → Mem → Core → Mem × Core × Reply} (harr : Stated.Arrived s h c y)
    (hfit : (work y s.mem c).2.1.replyFits h.session (work y s.mem c).2.2 = true) :
    request s.mem s.core h work = ((work y s.mem c).1, (work y s.mem c).2.1.reply h.session h.seq (work y s.mem c).2.2) := by
  obtain ⟨hup, hon, hy, x, hx, htake⟩ := harr
  unfold request
  simp [hup, hon, hx, htake, hy, hfit]

/-- The core in which the session that held privilege has become an observer, and has been told so. -/
theorem Core.takeOver_spec (hy : c.sess id = some y) :
    ((c.takeOver id).sess id).map (·.role) = some .privileged ∧
    ∀ o, c.privSess = some o → o ≠ id → ((c.takeOver id).sess o).map (·.role) = some .observer := by
  unfold Core.takeOver
  extract_lets d
  have hd : ∃ z, d.sess id = some z := by
    refine Option.isSome_iff_exists.mp ?_
    have hsome : c.standing id = some y.standing := Core.standing_of_sess hy
    suffices hs : (d.standing id).isSome by simpa [Core.standing] using hs
    unfold d
    split
    · next o ho =>
      split
      · next z hz =>
        rw [Core.standing_sessNotice]
        by_cases hoi : id = o
        · rw [hoi, Core.standing_of_sess (Core.sess_setSess _ _ _)]; rfl
        · rw [Core.standing, Core.sess_setSess_ne hoi, hy]; rfl
      · rw [hsome]; rfl
    · rw [hsome]; rfl
  obtain ⟨z, hz⟩ := hd
  rw [hz]
  refine ⟨by rw [Core.sess_setSess]; rfl, fun o ho hne => ?_⟩
  obtain ⟨w, hw⟩ := Core.sess_of_mem_sessWhere (List.mem_of_mem_head? ho)
  have hobs : d.standing o = some ({ w with role := .observer, taken := true } : Sess).standing := by
    unfold d
    rw [ho]
    dsimp only
    rw [hw]
    dsimp only
    rw [Core.standing_sessNotice, Core.standing_of_sess (Core.sess_setSess _ _ _)]
  rw [Core.sess_setSess_ne hne, Core.role_of_standing hobs]

theorem Core.authFail_counts (hf : x.fails < 3) :
    ((c.authFail id ref x).sess id).map (·.fails) = some (x.fails + 1) := by
  unfold Core.authFail
  rw [if_neg (by omega)]
  refine Core.fails_of_standing (x := { x with fails := x.fails + 1, nonce := none }) ?_
  rw [Core.standing_sendChallenge, Core.standing_reply,
    Core.standing_congr (c := c.setSess id { x with fails := x.fails + 1, nonce := none }) (by rw [Core.bump_kwn]),
    Core.standing_of_sess (Core.sess_setSess _ _ _)]

theorem Core.authFail_closes (hf : 3 ≤ x.fails) : (c.authFail id ref x).sess id = none := by
  unfold Core.authFail
  rw [if_pos (by omega)]
  exact Core.sess_closeSess_self _ _

theorem authWork_candidate (hrole : y.role = .candidate) (hu : c.kwn.upload = none) (hfit : y.fits 8 = true) :
    authWork h sig y m c =
      if c.authOk h.session y sig then (m, ((c.takeOver h.session).reply h.session h.seq (.resp [])).sessNotice h.session 2, .posted)
      else (m, c.authFail h.session h.seq y, .posted) := by
  unfold authWork
  rw [if_neg (by simp [hrole, hu]), if_neg (by simp [hfit])]

theorem authResponse_spec (harr : Stated.Arrived s h c y) (hrole : y.role = .candidate) (hu : c.kwn.upload = none) (hfit : y.fits 8 = true) :
    Stated.RunsDev (.authResponse h sig) s fun m d =>
      m = s.mem ∧
      (c.authOk h.session y sig = true → (d.sess h.session).map (·.role) = some .privileged ∧
        ∀ o, c.privSess = some o → o ≠ h.session → (d.sess o).map (·.role) = some .observer) ∧
      (c.authOk h.session y sig = false → y.fails < 3 → (d.sess h.session).map (·.fails) = some (y.fails + 1)) ∧
      (c.authOk h.session y sig = false → 3 ≤ y.fails → d.sess h.session = none) := by
  obtain ⟨-, -, hy, -⟩ := id harr
  have hwork := authWork_candidate (m := s.mem) (h := h) (sig := sig) hrole hu hfit
  rw [runsDev_devStep (f := fun m c => request m c h (authWork h sig)) rfl]
  cases hok : c.authOk h.session y sig with
  | true =>
    rw [if_pos hok] at hwork
    rw [request_eq harr (by rw [hwork]; rfl), hwork]
    have hrole (o : Nat) : ((((c.takeOver h.session).reply h.session h.seq (.resp [])).sessNotice h.session 2).sess o).map (·.role) =
        ((c.takeOver h.session).sess o).map (·.role) := by
      rw [Core.role_eq_standing, Core.standing_sessNotice, Core.standing_reply, ← Core.role_eq_standing]
    obtain ⟨hself, hother⟩ := Core.takeOver_spec hy
    exact ⟨rfl, fun _ => ⟨(hrole _).trans hself, fun o ho hne => (hrole o).trans (hother o ho hne)⟩, nofun, nofun⟩
  | false =>
    rw [if_neg (ne_true_of_eq_false hok)] at hwork
    rw [request_eq harr (by rw [hwork]; rfl), hwork]
    exact ⟨rfl, nofun, fun _ hf => Core.authFail_counts hf, fun _ hf => Core.authFail_closes hf⟩

/-! ### ACK -/

theorem Core.ackMsg_eq (hup : c.kwnUp = true) (hon : c.transportOn h.host = true) (hx : c.hdrSess h = some x) :
    c.ackMsg h = c.kwnArrive h x := by
  unfold Core.ackMsg
  simp [hup, hon, hx]

theorem seqLe_covers (hn : (x.sent.filter fun (p : Sent) => seqLe p.seq n).isEmpty = true) :
    (x.sent.filter fun (p : Sent) => !seqLe p.seq n) = x.sent := by
  refine List.filter_eq_self.mpr fun p hp => ?_
  simpa using List.filter_eq_nil_iff.mp (List.isEmpty_iff.mp hn) p hp

/-- An ACK frees the messages it covers; no challenge that is owed follows. -/
theorem Core.ackUpTo_spec (hx : c.sess id = some x) (howed : x.owed = false) (hle : seqLe n x.txSeq = true) :
    ((c.ackUpTo id n).sess id).map (·.sent) = some (x.sent.filter fun (p : Sent) => !seqLe p.seq n) ∧ (c.ackUpTo id n).out = c.out := by
  unfold Core.ackUpTo
  rw [hx]
  dsimp only
  by_cases hnone : (x.sent.filter fun (p : Sent) => seqLe p.seq n).isEmpty = true
  · rw [if_pos (by rw [hnone, Bool.or_true]), hx, seqLe_covers hnone]
    exact ⟨rfl, rfl⟩
  · rw [if_neg (by simpa [hle] using hnone), if_neg (by simp [howed])]
    generalize hd : c.setSess id { x with sent := x.sent.filter fun (p : Sent) => !seqLe p.seq n, timeouts := 0, sinceAck := c.now } = d
    have hds : (d.sess id).map (·.sent) = some (x.sent.filter fun (p : Sent) => !seqLe p.seq n) := by
      rw [← hd, Core.sess_setSess]; rfl
    have hdo : d.out = c.out := by rw [← hd]; rfl
    split
    · exact ⟨hds, hdo⟩
    · exact ⟨hds, hdo⟩

theorem Core.kwnArrive_ack (hackv : h.ackv = true) (hgap : h.gap = false) (hclose : h.close = false) :
    c.kwnArrive h x = (c.setSess h.session { x with lastFrame := c.now }).ackUpTo h.session h.ack := by
  unfold Core.kwnArrive
  simp [hackv, hgap, hclose]

theorem Core.kwnArrive_close (hclose : h.close = true) : (c.kwnArrive h x).sess h.session = none := by
  unfold Core.kwnArrive
  extract_lets d e f
  rw [if_pos hclose]
  exact Core.sess_closeSess_self _ _

/-! ### Timers and closing -/

/-- A number of messages of one session leaves in order, and leaves the sessions as they are. -/
theorem Core.foldl_message {f : Nat} (id : Nat) (x : Sess) (l : List Sent) (c : Core) :
    (l.foldl (fun (c : Core) (p : Sent) => c.message id x p.type f p.ref p.seq p.body) c).out =
      c.out ++ l.map (fun p => .msg id p.type (1 + f) p.ref p.seq x.rxSeq p.body) ∧
    ∀ j, (l.foldl (fun (c : Core) (p : Sent) => c.message id x p.type f p.ref p.seq p.body) c).sess j = c.sess j := by
  induction l generalizing c with
  | nil => exact ⟨(List.append_nil _).symm, fun _ => rfl⟩
  | cons p l ih =>
    obtain ⟨hout, hsess⟩ := ih (c.message id x p.type f p.ref p.seq p.body)
    refine ⟨hout.trans ?_, hsess⟩
    rw [List.map_cons, List.append_cons]
    rfl

/-- A resend puts out what waits for an ACK, oldest first. -/
theorem Core.kwnResend_spec (hx : c.sess id = some x) :
    (c.kwnResend id).out = c.out ++ x.sent.map (fun p => .msg id p.type 1 p.ref p.seq x.rxSeq p.body) ∧
    (c.kwnResend id).sess id = some { x with sinceAck := c.now } := by
  have hresend : c.kwnResend id = x.sent.foldl (fun (c : Core) (p : Sent) => c.message id x p.type 0 p.ref p.seq p.body)
      ((c.setSess id { x with sinceAck := c.now }).bumpBy (aSess id 0) x.sent.length) := by
    unfold Core.kwnResend
    rw [hx]
  obtain ⟨hout, hsess⟩ := Core.foldl_message (f := 0) id x x.sent
    ((c.setSess id { x with sinceAck := c.now }).bumpBy (aSess id 0) x.sent.length)
  rw [hresend]
  refine ⟨hout.trans ?_, (hsess id).trans ?_⟩
  · rw [Core.bumpBy_out]
    rfl
  · rw [Core.sess_congr (c := c.setSess id { x with sinceAck := c.now }) (by rw [Core.bumpBy_kwn]), Core.sess_setSess]

theorem Core.rtoExpiry_due (hx : c.sess id = some x) (hsent : x.sent ≠ [])
    (hdue : x.sinceAck + nsN (c.getF (pCtl + 0x80) 32 16 * 1000) ≤ c.now) :
    c.rtoExpiry id = if 31 ≤ x.timeouts then c.closeSess id else (c.setSess id { x with timeouts := x.timeouts + 1 }).kwnResend id := by
  unfold Core.rtoExpiry
  rw [hx]
  dsimp only
  rw [if_neg (by simp [hsent, hdue])]

theorem Core.standaloneAck_spec (hx : c.sess id = some x) (hdue : 16 ≤ x.unackedRx ∨ (x.unackedRx ≠ 0 ∧ x.rxAt + nsN 8000 ≤ c.now)) :
    (c.standaloneAck id).out = c.out ++ [.msg id 0x40 1 0 ((x.txSeq + 1) % 2 ^ 32) x.rxSeq []] ∧
    ((c.standaloneAck id).sess id).map (·.unackedRx) = some 0 := by
  have hack : c.standaloneAck id = (c.setSess id { x with unackedRx := 0 }).message id { x with unackedRx := 0 } 0x40 0 0
      ((x.txSeq + 1) % 2 ^ 32) [] := by
    unfold Core.standaloneAck
    rw [hx]
    dsimp only
    rw [if_pos (by simpa using hdue)]
    unfold Core.sendAck
    rw [hx]
    rfl
  rw [hack]
  exact ⟨rfl, by rw [Core.sess_message, Core.sess_setSess]; rfl⟩

theorem Core.idleClose_due (hx : c.sess id = some x) (hdue : x.lastFrame + nsN (c.getF (pCtl + 0x80) 48 16 * 1000000) ≤ c.now) :
    c.idleClose id = c.closeSess id := by
  unfold Core.idleClose
  rw [hx]
  exact if_pos hdue

theorem Core.hKwnCtrl_closes (ha : a.view = .priv) (hs : c.service = true) (hb : bit v 6 = true) :
    c.hKwnCtrl a v = c.closeSess (v % 64) :=
  if_pos (by rw [isPriv_of_view ha, hs, hb]; rfl)

/-! ### The capture stream -/

/-- The core whose capture stream goes on at a pail offset. -/
def Core.sendFrom (c : Core) (p : Nat) : Core := { c with kwn := { c.kwn with capSend := p } }

theorem Core.captureData_sends {p n : Nat} (hcap : c.capSess = some id) (hx : c.sess id = some x) (hp : c.kwn.capSend = p)
    (hn : min 8160 ((if p ≤ c.pailWr then c.pailWr - p else c.pailSize - p) / 32 * 32) = n) (hn0 : n ≠ 0) (hup : c.kwnUp = true)
    (hfit : x.fits (16 + n) = true) :
    c.captureData m = (c.sendFrom (if p + n = c.pailSize then 0 else p + n)).sendTo id 0x32 0
      (toLe 8 p ++ toLe 4 n ++ [0, 0, 0, 0] ++ m.read (c.pailBase + p) n) (some (if p + n = c.pailSize then 0 else p + n)) := by
  unfold Core.captureData
  rw [hcap]
  dsimp only
  rw [hx]
  dsimp only
  rw [hp, hn, if_neg (by simp [hn0, hup, hfit])]
  rfl

end Sys2Proof.Machine

open Sys2Proof Sys2Proof.Machine

/-- Settles O43: each message ends in `sendTo` or `message`, which keep a session's standing, and every closing in `closeSess`. -/
theorem sessionsLive : Obligations.SessionsLive := by
  unfold Obligations.SessionsLive
  refine ⟨fun s h b hup hon hw hnew hz hrole hst => ⟨fun major id hver hid hcap => ?_, fun hver => ?_⟩,
    fun s h sig c y harr hrole hu hfit => authResponse_spec harr hrole hu hfit,
    fun s h x hup hon hx => ⟨fun hackv hgap hclose howed hle => ?_, fun hclose => ?_⟩,
    fun s id x hx => ⟨fun hsent hdue => ⟨fun ht => ?_, fun ht => ?_⟩, fun hdue => ?_, fun hdue => ?_⟩,
    fun s a v ha hs hb => ?_, fun s id x hcap hx => ?_⟩
  · rw [runs_iff (d := s.core.openMsg h b) rfl, Core.openMsg_eq hup hon hw,
      Core.openSess_opens hnew hz hrole hst hver hid hcap]
    obtain ⟨hepoch, hout, hstand⟩ := Core.openedSess_spec (c := s.core) (h := h) (b := b) id major
    refine ⟨hepoch, hout, ?_⟩
    obtain ⟨x, hx, hst⟩ := Option.map_eq_some_iff.mp hstand
    simp only [Sess.standing, Prod.mk.injEq] at hst
    obtain ⟨hr, hh, he, hq, -⟩ := hst
    exact ⟨x, hx, hr, hh, he, hq⟩
  · rw [runs_iff (d := s.core.openMsg h b) rfl, Core.openMsg_eq hup hon hw, Core.openSess_noVersion hnew hz hrole hst hver]
    exact ⟨rfl, _, rfl, rfl⟩
  · rw [runs_iff (d := s.core.ackMsg h) rfl, Core.ackMsg_eq hup hon hx, Core.kwnArrive_ack hackv hgap hclose]
    exact Core.ackUpTo_spec (x := { x with lastFrame := s.core.now }) (Core.sess_setSess _ _ _) howed hle
  · rw [runs_iff (d := s.core.ackMsg h) rfl, Core.ackMsg_eq hup hon hx]
    exact Core.kwnArrive_close hclose
  · rw [runs_iff (d := s.core.rtoExpiry id) rfl, Core.rtoExpiry_due hx hsent hdue, if_neg (by omega)]
    obtain ⟨hout, hsess⟩ := Core.kwnResend_spec (Core.sess_setSess s.core id { x with timeouts := x.timeouts + 1 })
    exact ⟨hout, by rw [hsess]; rfl⟩
  · rw [runs_iff (d := s.core.rtoExpiry id) rfl, Core.rtoExpiry_due hx hsent hdue, if_pos ht]
    exact ⟨Core.sess_closeSess_self _ _, changes_closeSess .out (by decide)⟩
  · rw [runs_iff (d := s.core.standaloneAck id) rfl]
    exact Core.standaloneAck_spec hx hdue
  · rw [runs_iff (d := s.core.idleClose id) rfl, Core.idleClose_due hx hdue]
    exact ⟨Core.sess_closeSess_self _ _, fun o ho => Core.sess_closeSess_ne ho⟩
  · rw [runs_iff (d := s.core.hKwnCtrl a v.toNat) rfl, Core.hKwnCtrl_closes ha hs hb]
    exact ⟨Core.sess_closeSess_self _ _, fun o ho => Core.sess_closeSess_ne ho, changes_closeSess .regs (by decide)⟩
  · intro p n hn hup hfit
    rw [runs_iff (d := s.core.captureData s.mem) rfl, Core.captureData_sends hcap hx rfl rfl hn hup hfit]
    exact ⟨Core.sendTo_out hx, Core.sendTo_capSend _ _ _ _ _ _⟩

end

