-- ==== Sys2Proof/Proofs/Requests.lean ====
section
/-! PROOF. The requests of a session (R441 to R446): registers, memory, submission and doorbells. -/

namespace Sys2Proof.Machine

variable {m m' : Mem} {c d : Core} {s : State} {id addr n k a base size : Nat} {h : KwnHdr} {y z : Sess} {v : Word64}
  {body data : List Byte} {ds : List (List Byte)} {regs : List Word64}

/-! ### Answers -/

/-- Work that ends in REG_RESP answers with it, when it fits. -/
theorem request_resp {work : Sess → Mem → Core → Mem × Core × Reply} (harr : Stated.Arrived s h c y)
    (hwork : work y s.mem c = (m', d, .resp body)) (hz : d.sess h.session = some z) (hfit : z.fits body.length = true) :
    request s.mem s.core h work = (m', d.sendTo h.session 0x12 h.seq body none) := by
  rw [request_eq harr (by rw [hwork]; dsimp only [Core.replyFits]; rw [hz]; exact hfit), hwork]
  rfl

/-- Work that ends in NAK answers with it. -/
theorem request_nak {work : Sess → Mem → Core → Mem × Core × Reply} (harr : Stated.Arrived s h c y)
    (hwork : work y s.mem c = (m', d, .nak k)) (hz : d.sess h.session = some z) (hfit : z.fits 8 = true) :
    request s.mem s.core h work = (m', d.sendTo h.session 0x41 h.seq (Stated.nakBody k) none) := by
  rw [request_eq harr (by rw [hwork]; dsimp only [Core.replyFits]; rw [hz]; exact hfit), hwork]
  rfl

/-- Posted work answers nothing. -/
theorem request_posted {work : Sess → Mem → Core → Mem × Core × Reply} (harr : Stated.Arrived s h c y)
    (hwork : work y s.mem c = (m', d, .posted)) : request s.mem s.core h work = (m', d) := by
  rw [request_eq harr (by rw [hwork]; rfl), hwork]
  rfl

/-- The answer of work that has put nothing out before it. -/
theorem answers_sendTo (hz : d.sess h.session = some z) (hout : d.out = c.out) :
    Stated.Answers c (d.sendTo h.session type h.seq body none) h z type body := by
  unfold Stated.Answers
  rw [Core.sendTo_out hz, hout]

theorem sess_of_arrived (harr : Stated.Arrived s h c y) : c.sess h.session = some y := by
  obtain ⟨-, -, hy, -⟩ := harr
  exact hy

/-- A request whose work refuses it leaves the memory and answers NAK. -/
theorem request_refused {work : Sess → Mem → Core → Mem × Core × Reply} (harr : Stated.Arrived s h c y)
    (hwork : work y s.mem c = (s.mem, c, .nak k)) (hfit : y.fits 8 = true) :
    (request s.mem s.core h work).1 = s.mem ∧ Stated.Answers c (request s.mem s.core h work).2 h y 0x41 (Stated.nakBody k) := by
  rw [request_nak harr hwork (sess_of_arrived harr) hfit]
  exact ⟨rfl, answers_sendTo (sess_of_arrived harr) rfl⟩

/-! ### Registers -/

theorem changes_showHi {o : Option Nat} : Changes [.latched] c (c.showHi a o) := .put .latched

/-- What reading a register changes: what it latches or consumes. -/
theorem changes_readEffect : Changes [.regs, .cyc, .latched, .fab, .pins] c (c.readEffect a) := by
  have hclear : Changes [.regs, .cyc] c (c.rcClear a) := changes_wr.trans (.put .cyc)
  unfold Core.readEffect
  extract_lets off
  split
  · refine .ite (changes_latch.mono rfl) (.ite (changes_showHi.mono rfl) (.ite (changes_txtsPop.mono rfl) (.ite ?_ ?_)))
    · exact (Changes.foldl (fun _ _ => changes_latch) _ c).mono rfl
    · exact changes_tinPop.stepIf.mono rfl
  · exact hclear.stepIf.mono rfl
  · exact hclear.stepIf.mono rfl
  · exact changes_digPop.stepIf.mono rfl
  · exact .refl

theorem changes_mbxAccess : Changes [.sec] c (c.mbxAccess id a) := Changes.stepIf (.put .sec)

theorem changes_readAt : Changes [.regs, .cyc, .latched, .fab, .pins, .sec] c (c.readAt id addr).2 := by
  unfold Core.readAt
  extract_lets w
  split
  · exact .refl
  · exact (changes_readEffect.trans changes_mbxAccess).mono rfl

theorem changes_readBurst : Changes [.regs, .cyc, .latched, .fab, .pins, .sec] c (c.readBurst id addr n).2 := by
  induction n generalizing c addr with
  | zero => exact .refl
  | succ n ih => exact (changes_readAt.trans ih).mono rfl

theorem regRead_refused (harr : Stated.Arrived s h c y) (hcode : c.burstCode y false addr n = some k) (hfit : y.fits 8 = true) :
    Stated.RunsDev (.regRead h addr n) s fun m d => m = s.mem ∧ Stated.Answers c d h y 0x41 (Stated.nakBody k) := by
  rw [runsDev_devStep (f := fun m c => request m c h (regReadWork h addr n)) rfl]
  exact request_refused harr (by unfold regReadWork; rw [hcode]) hfit

theorem regRead_answers (harr : Stated.Arrived s h c y) (hcode : c.burstCode y false addr n = none)
    (hfit : y.fits (respBody (c.readBurst h.session addr n).1 []).length = true) :
    Stated.RunsDev (.regRead h addr n) s fun m d =>
      m = s.mem ∧ Stated.Answers c d h y 0x12 (respBody (c.readBurst h.session addr n).1 []) := by
  have hwork : regReadWork h addr n y s.mem c =
      (s.mem, (c.readBurst h.session addr n).2, .resp (respBody (c.readBurst h.session addr n).1 [])) := by
    unfold regReadWork
    rw [hcode]
  have hkwn : (c.readBurst h.session addr n).2.kwn = c.kwn := changes_readBurst .kwn (by decide)
  have hz : (c.readBurst h.session addr n).2.sess h.session = some y := (Core.sess_congr (by rw [hkwn]) _).trans (sess_of_arrived harr)
  rw [runsDev_devStep (f := fun m c => request m c h (regReadWork h addr n)) rfl, request_resp harr hwork hz hfit]
  exact ⟨rfl, answers_sendTo hz (changes_readBurst .out (by decide))⟩

theorem regWrite_refused (harr : Stated.Arrived s h c y) (hcode : c.burstCode y true addr regs.length = some k) (hfit : y.fits 8 = true) :
    Stated.RunsDev (.regWrite h addr regs) s fun m d => m = s.mem ∧ Stated.Answers c d h y 0x41 (Stated.nakBody k) := by
  rw [runsDev_devStep (f := fun m c => request m c h (regWriteWork h addr regs)) rfl]
  exact request_refused harr (by unfold regWriteWork; rw [hcode]) hfit

theorem regWrite_answers (harr : Stated.Arrived s h c y) (hcode : c.burstCode y true addr regs.length = none)
    (hz : (writeBurst h.session regs addr s.mem c).2.1.sess h.session = some z) (hfit : z.fits 8 = true) :
    Stated.RunsDev (.regWrite h addr regs) s fun m d =>
      let w := writeBurst h.session regs addr s.mem c
      m = w.1 ∧ d.regs = w.2.1.regs ∧
      (if w.2.2 then Stated.Answers w.2.1 d h z 0x41 (Stated.nakBody nPriv) else Stated.Answers w.2.1 d h z 0x12 (respBody [] [])) := by
  have hwork : regWriteWork h addr regs y s.mem c = ((writeBurst h.session regs addr s.mem c).1, (writeBurst h.session regs addr s.mem c).2.1,
      if (writeBurst h.session regs addr s.mem c).2.2 then .nak nPriv else .resp (respBody [] [])) := by
    unfold regWriteWork
    rw [hcode]
  rw [runsDev_devStep (f := fun m c => request m c h (regWriteWork h addr regs)) rfl]
  dsimp only
  generalize writeBurst h.session regs addr s.mem c = w at hz hwork ⊢
  split
  · next hpriv =>
    rw [if_pos hpriv] at hwork
    rw [request_nak harr hwork hz hfit]
    exact ⟨rfl, Core.sendTo_regs _ _ _ _ _, answers_sendTo hz rfl⟩
  · next hpriv =>
    rw [if_neg hpriv] at hwork
    rw [request_resp harr hwork hz hfit]
    exact ⟨rfl, Core.sendTo_regs _ _ _ _ _, answers_sendTo hz rfl⟩

/-! ### Memory -/

theorem memRead_refused (harr : Stated.Arrived s h c y) (hrom : c.inRom = false) (hcode : c.memCode y addr n = some k)
    (hfit : y.fits 8 = true) :
    Stated.RunsDev (.memRead h addr n) s fun m d => m = s.mem ∧ Stated.Answers c d h y 0x41 (Stated.nakBody k) := by
  rw [runsDev_devStep (f := fun m c => request m c h (memReadWork h addr n)) rfl]
  exact request_refused harr (by unfold memReadWork; rw [if_neg (ne_true_of_eq_false hrom), hcode]) hfit

/-- What MEM_READ does to the core: the traffic is counted, and uncorrectable words are logged. -/
def Core.memRead (c : Core) (m : Mem) (addr n : Nat) : Core := (c.lpmMoved 1 addr n).readUe m addr n

theorem changes_memRead : Changes [.regs, .cyc, .notices, .errSeq] c (c.memRead m addr n) := (changes_lpmMoved.trans changes_readUe).mono rfl

/-- MEM_READ answers with the bytes, or BUSY where it waits for a port. -/
theorem memReadWork_reads (hrom : c.inRom = false) (hcode : c.memCode y addr n = none) :
    ∃ d : Core, d.kwn = c.kwn ∧ d.out = c.out ∧
      (memReadWork h addr n y m c = (m, d, .resp (respBody (c.hostRead m addr n) (poisonMap m addr n))) ∨
        (c.waitsForPort addr n = true ∧ memReadWork h addr n y m c = (m, d, .nak nBusy))) := by
  unfold memReadWork
  rw [if_neg (ne_true_of_eq_false hrom), hcode]
  extract_lets go
  cases hwait : c.waitsForPort addr n with
  | false =>
    dsimp only
    rw [if_pos (by decide)]
    exact ⟨c.memRead m addr n, changes_memRead .kwn (by decide), changes_memRead .out (by decide), .inl rfl⟩
  | true =>
    dsimp only
    rw [if_neg (by decide)]
    split
    · exact ⟨c.fresh.2, rfl, rfl, .inr ⟨rfl, rfl⟩⟩
    · exact ⟨c.fresh.2.memRead m addr n, changes_memRead .kwn (by decide), changes_memRead .out (by decide), .inl rfl⟩

theorem memRead_answers (harr : Stated.Arrived s h c y) (hrom : c.inRom = false) (hcode : c.memCode y addr n = none)
    (hbusy : y.fits 8 = true) (hfit : y.fits (respBody (c.hostRead s.mem addr n) (poisonMap s.mem addr n)).length = true) :
    Stated.RunsDev (.memRead h addr n) s fun m d =>
      m = s.mem ∧ (Stated.Answers c d h y 0x12 (respBody (c.hostRead s.mem addr n) (poisonMap s.mem addr n)) ∨
        (c.waitsForPort addr n = true ∧ Stated.Answers c d h y 0x41 (Stated.nakBody nBusy))) := by
  obtain ⟨d, hkwn, hout, hwork⟩ := memReadWork_reads (h := h) (m := s.mem) hrom hcode
  have hz : d.sess h.session = some y := (Core.sess_congr (by rw [hkwn]) _).trans (sess_of_arrived harr)
  rw [runsDev_devStep (f := fun m c => request m c h (memReadWork h addr n)) rfl]
  rcases hwork with hwork | ⟨hwait, hwork⟩
  · rw [request_resp harr hwork hz hfit]
    exact ⟨rfl, .inl (answers_sendTo hz hout)⟩
  · rw [request_nak harr hwork hz hbusy]
    exact ⟨rfl, .inr ⟨hwait, answers_sendTo hz hout⟩⟩

theorem changes_hostLines : Changes [.regs, .fab] c (c.hostLines m addr n) := by
  unfold Core.hostLines
  split
  · exact .refl
  · extract_lets first ls hit d
    have hd : Changes [.regs] c d := .foldl (fun _ _ => changes_bump) _ c
    exact (hd.trans (.put .fab)).mono rfl

theorem Core.sendTo_upload (c : Core) (id type ref : Nat) (body : List Byte) (e : Option Nat) :
    (c.sendTo id type ref body e).kwn.upload = c.kwn.upload := by
  unfold Core.sendTo
  split <;> rfl

theorem Core.upload_of_inRom (hrom : c.inRom = false) : c.kwn.upload = none := by
  simpa [Core.inRom] using hrom

/-- Outside the boot ROM no image comes. -/
theorem Core.romEnd_none (hu : c.kwn.upload = none) : c.romEnd = c := by
  unfold Core.romEnd
  rw [hu]

theorem memWriteWork_refused (hrom : c.inRom = false) (hcode : c.memCode y addr data.length = some k) :
    memWriteWork h addr data y m c = (m, c, .nak k) := by
  unfold memWriteWork
  rw [if_neg (ne_true_of_eq_false hrom)]
  dsimp only
  rw [hcode]

theorem memWriteWork_sound (hrom : c.inRom = false) (hcode : c.memCode y addr data.length = none) :
    memWriteWork h addr data y m c = if c.protected addr data.length then (m, c, .nak nProtect)
      else (m.store addr data, (c.hostLines m addr data.length).lpmMoved 1 addr data.length, .resp (respBody [] [])) := by
  unfold memWriteWork
  rw [if_neg (ne_true_of_eq_false hrom)]
  dsimp only
  rw [hcode]

/-- MEM_WRITE that is refused. -/
theorem memWrite_refused (harr : Stated.Arrived s h c y) (hrom : c.inRom = false) (hfit : y.fits 8 = true)
    (hwork : memWriteWork h addr data y s.mem c = (s.mem, c, .nak k)) :
    Stated.RunsDev (.memWrite h addr data) s fun m d => m = s.mem ∧ Stated.Answers c d h y 0x41 (Stated.nakBody k) := by
  rw [runsDev_devStep (f := fun m c => memWrite m c h addr data) rfl]
  unfold memWrite
  rw [request_nak harr hwork (sess_of_arrived harr) hfit]
  dsimp only
  rw [Core.romEnd_none (by rw [Core.sendTo_upload, Core.upload_of_inRom hrom])]
  exact ⟨rfl, answers_sendTo (sess_of_arrived harr) rfl⟩

/-- MEM_WRITE that is taken stores its bytes and no other. -/
theorem memWrite_stores (harr : Stated.Arrived s h c y) (hrom : c.inRom = false) (hfit : y.fits 8 = true)
    (hcode : c.memCode y addr data.length = none) (hprot : c.protected addr data.length = false) :
    Stated.RunsDev (.memWrite h addr data) s fun m d =>
      m.read addr data.length = data ∧ (∀ b, b < addr ∨ addr + data.length ≤ b → m.byte b = s.mem.byte b) ∧
      Stated.Answers c d h y 0x12 (respBody [] []) := by
  have hd : Changes [.regs, .fab] c ((c.hostLines s.mem addr data.length).lpmMoved 1 addr data.length) :=
    (changes_hostLines.trans changes_lpmMoved).mono rfl
  have hwork := memWriteWork_sound (h := h) (m := s.mem) hrom hcode
  rw [if_neg (ne_true_of_eq_false hprot)] at hwork
  generalize (c.hostLines s.mem addr data.length).lpmMoved 1 addr data.length = d at hd hwork
  have hkwn : d.kwn = c.kwn := hd .kwn (by decide)
  have hz : d.sess h.session = some y := (Core.sess_congr (by rw [hkwn]) _).trans (sess_of_arrived harr)
  rw [runsDev_devStep (f := fun m c => memWrite m c h addr data) rfl]
  unfold memWrite
  rw [request_resp harr hwork hz hfit]
  dsimp only
  rw [Core.romEnd_none (by rw [Core.sendTo_upload, hkwn, Core.upload_of_inRom hrom])]
  exact ⟨Mem.read_store _ _ _, fun b hb => Mem.byte_store_out _ _ _ _ hb, answers_sendTo hz (hd .out (by decide))⟩

/-! ### Submission -/

/-- Descriptors leave the bytes outside their places. -/
theorem byte_putDescs_out {b : Nat} (hlen : ∀ d ∈ ds, d.length = 64)
    (hb : ∀ i, i < ds.length → b < base + 64 * ((k + i) % size) ∨ base + 64 * ((k + i) % size) + 64 ≤ b) :
    (putDescs base size ds k m).byte b = m.byte b := by
  induction ds generalizing k m with
  | nil => rfl
  | cons d ds ih =>
    obtain ⟨hd, hds⟩ := List.forall_mem_cons.mp hlen
    refine (ih hds fun i hi => ?_).trans (Mem.byte_store_out _ _ _ _ ?_)
    · have := hb (i + 1) (Nat.succ_lt_succ hi)
      rwa [show k + (i + 1) = k + 1 + i by omega] at this
    · have := hb 0 (Nat.succ_pos _)
      rwa [hd]

/-- Fewer steps than the ring has places lead to another place. -/
theorem ring_place_ne {i : Nat} (hi : 0 < i) (hsize : i < size) : (k + i) % size ≠ k % size := by
  intro heq
  have hdvd : size ∣ k + i - k := Nat.dvd_of_mod_eq_zero (Nat.sub_mod_eq_zero_of_mod_eq heq)
  rw [Nat.add_sub_cancel_left] at hdvd
  exact absurd (Nat.le_of_dvd hi hdvd) (Nat.not_le.mpr hsize)

/-- Each descriptor stands in its place. -/
theorem read_putDescs {i : Nat} (hlen : ∀ d ∈ ds, d.length = 64) (hsize : ds.length ≤ size) (hi : i < ds.length) :
    (putDescs base size ds k m).read (base + 64 * ((k + i) % size)) 64 = ds.getD i [] := by
  induction ds generalizing k m i with
  | nil => exact absurd hi (Nat.not_lt_zero _)
  | cons d ds ih =>
    obtain ⟨hd, hds⟩ := List.forall_mem_cons.mp hlen
    cases i with
    | zero =>
      refine Eq.trans (Mem.read_congr fun b hb => byte_putDescs_out (ds := ds) (k := k + 1) hds fun j hj => ?_) (Mem.read_store_of_length (m := m) hd)
      have hne : (k + (j + 1)) % size ≠ k % size := ring_place_ne (Nat.succ_pos j) (by simp at hsize; omega)
      rw [show k + 1 + j = k + (j + 1) by omega, Nat.add_zero]
      omega
    | succ i =>
      rw [show k + (i + 1) = k + 1 + i by omega]
      exact ih hds (by simp at hsize; omega) (Nat.lt_of_succ_lt_succ hi)

theorem Sess.denied_privileged (hrole : y.role = .privileged) : y.denied = none := if_pos hrole

/-- Well-formed descriptors of a privileged session are refused when the ring is full, not mapped or protected, and are put otherwise. -/
theorem submitWork_eq (hrom : c.inRom = false) (hrole : y.role = .privileged) (hsvc : c.service = true) (hne : ds ≠ [])
    (hmany : ds.length ≤ 64) (hlen : ∀ d ∈ ds, d.length = 64) (hsize : 2 ^ c.getF (pTask + 0x88) 48 4 = size)
    (hbase : c.getF (pTask + 0x88) 0 48 = base) (htail : c.getF (pTask + 0x90) 0 12 % size = k) :
    submitWork h ds y m c =
      if size - 1 - (k + size - c.getF (pTask + 0x98) 0 12 % size) % size < ds.length then (m, c, .nak nFull)
      else if !c.mapped false base (64 * size) then (m, c, .nak nRange)
      else if c.protected base (64 * size) then (m, c, .nak nProtect)
      else (putDescs base size ds k m, ((List.range ds.length).foldl (fun c i => c.hostLines m (base + 64 * ((k + i) % size)) 64) c).setF
        (pTask + 0x90) 0 12 ((k + ds.length) % size), .resp (respBody [] [])) := by
  have hform : (decide (ds.length = 0) || decide (64 < ds.length) || ds.any fun d => decide (d.length ≠ 64)) = false := by
    have hlen' : (ds.any fun d => decide (d.length ≠ 64)) = false := by
      simpa only [List.any_eq_false, decide_eq_true_eq, not_not] using hlen
    rw [hlen', decide_eq_false (Nat.not_lt.mpr hmany), decide_eq_false (by simpa using hne)]
    rfl
  unfold submitWork
  rw [if_neg (ne_true_of_eq_false hrom), Sess.denied_privileged hrole]
  dsimp only
  rw [hsize, hbase, htail, if_neg (ne_true_of_eq_false hform), hsvc, Bool.not_true, Bool.false_or]
  simp only [decide_eq_true_eq]

theorem submit_puts (harr : Stated.Arrived s h c y) (hrom : c.inRom = false) (hrole : y.role = .privileged) (hfit : y.fits 8 = true)
    (hsvc : c.service = true) (hne : ds ≠ []) (hmany : ds.length ≤ 64) (hlen : ∀ d ∈ ds, d.length = 64)
    (hsize : 2 ^ c.getF (pTask + 0x88) 48 4 = size) (hbase : c.getF (pTask + 0x88) 0 48 = base)
    (htail : c.getF (pTask + 0x90) 0 12 % size = k)
    (hroom : (k + size - c.getF (pTask + 0x98) 0 12 % size) % size + ds.length < size)
    (hmap : c.mapped false base (64 * size) = true) (hprot : c.protected base (64 * size) = false) :
    Stated.RunsDev (.submit h ds) s fun m d =>
      (∀ i, i < ds.length → m.read (base + 64 * ((k + i) % size)) 64 = ds.getD i []) ∧
      d.getF (pTask + 0x90) 0 12 = (k + ds.length) % size % 2 ^ 12 ∧ Stated.Answers c d h y 0x12 (respBody [] []) := by
  have hwork := submitWork_eq (h := h) (m := s.mem) hrom hrole hsvc hne hmany hlen hsize hbase htail
  rw [if_neg (by omega), if_neg (by simp [hmap]), if_neg (ne_true_of_eq_false hprot)] at hwork
  have hd : Changes [.regs, .fab] c ((List.range ds.length).foldl (fun c i => c.hostLines s.mem (base + 64 * ((k + i) % size)) 64) c) :=
    .foldl (fun _ _ => changes_hostLines) _ c
  generalize (List.range ds.length).foldl (fun c i => c.hostLines s.mem (base + 64 * ((k + i) % size)) 64) c = d at hd hwork
  have hkwn : d.kwn = c.kwn := hd .kwn (by decide)
  have hz : (d.setF (pTask + 0x90) 0 12 ((k + ds.length) % size)).sess h.session = some y :=
    (Core.sess_congr (by rw [Core.setF_kwn, hkwn]) _).trans (sess_of_arrived harr)
  rw [runsDev_devStep (f := fun m c => request m c h (submitWork h ds)) rfl, request_resp harr hwork hz hfit]
  refine ⟨fun i hi => read_putDescs hlen (by omega) hi, ?_, answers_sendTo hz ((Core.setF_out _ _ _ _ _).trans (hd .out (by decide)))⟩
  rw [Core.getF_congr (Core.sendTo_regs _ _ _ _ _), Core.getF_setF_self _ _ _ _ _ (by decide)]

theorem submit_full (harr : Stated.Arrived s h c y) (hrom : c.inRom = false) (hrole : y.role = .privileged) (hfit : y.fits 8 = true)
    (hsvc : c.service = true) (hne : ds ≠ []) (hmany : ds.length ≤ 64) (hlen : ∀ d ∈ ds, d.length = 64)
    (hsize : 2 ^ c.getF (pTask + 0x88) 48 4 = size) (htail : c.getF (pTask + 0x90) 0 12 % size = k)
    (hfull : size ≤ (k + size - c.getF (pTask + 0x98) 0 12 % size) % size + ds.length) :
    Stated.RunsDev (.submit h ds) s fun m d => m = s.mem ∧ Stated.Answers c d h y 0x41 (Stated.nakBody nFull) := by
  have hpos : 0 < ds.length := List.length_pos_iff.mpr hne
  have hwork := submitWork_eq (h := h) (m := s.mem) hrom hrole hsvc hne hmany hlen hsize rfl htail
  rw [if_pos (by omega)] at hwork
  rw [runsDev_devStep (f := fun m c => request m c h (submitWork h ds)) rfl]
  exact request_refused harr hwork hfit

/-! ### Doorbells -/

theorem doorbellWork_eq (hrom : c.inRom = false) {v : Nat} :
    doorbellWork h addr v y m c = if y.role ≠ .privileged || !doorbellAt addr then (m, c.discard, .posted)
      else ((writeReg m c ⟨.priv, .session h.session⟩ addr v).1, (writeReg m c ⟨.priv, .session h.session⟩ addr v).2, .posted) :=
  if_neg (ne_true_of_eq_false hrom)

theorem doorbell_writes (harr : Stated.Arrived s h c y) (hrom : c.inRom = false) (hrole : y.role = .privileged)
    (hat : doorbellAt addr = true) : Stated.RunsDev (.doorbell h addr v) s fun m d =>
      (m, d) = writeReg s.mem c ⟨.priv, .session h.session⟩ addr v.toNat := by
  have hwork := doorbellWork_eq (h := h) (addr := addr) (y := y) (m := s.mem) (v := v.toNat) hrom
  rw [if_neg (by simp [hrole, hat])] at hwork
  rw [runsDev_devStep (f := fun m c => request m c h (doorbellWork h addr v.toNat)) rfl, request_posted harr hwork]

theorem doorbell_discarded (harr : Stated.Arrived s h c y) (hrom : c.inRom = false)
    (hno : y.role ≠ .privileged ∨ doorbellAt addr = false) : Stated.RunsDev (.doorbell h addr v) s fun m d =>
      m = s.mem ∧ d.out = c.out ∧ (c.frozenAt (pCtl + 0xB0) = false → d.rd (pCtl + 0xB0) = (c.rd (pCtl + 0xB0) + 1) % 2 ^ 48) := by
  have hwork := doorbellWork_eq (h := h) (addr := addr) (y := y) (m := s.mem) (v := v.toNat) hrom
  rw [if_pos (by simpa using hno)] at hwork
  rw [runsDev_devStep (f := fun m c => request m c h (doorbellWork h addr v.toNat)) rfl, request_posted harr hwork]
  exact ⟨rfl, changes_discard .out (by decide), fun hfree => Core.rd_bump_self _ _ hfree⟩

end Sys2Proof.Machine

open Sys2Proof Sys2Proof.Machine

/-- Settles O42: each request is its work on the core that has taken the message, and the one answer that its work gives. -/
theorem requestsAreAnswered : Obligations.RequestsAreAnswered := by
  unfold Obligations.RequestsAreAnswered
  intro s h c y harr
  refine ⟨fun addr n => ⟨fun k => regRead_refused harr, regRead_answers harr⟩,
    fun addr regs => ⟨fun k => regWrite_refused harr, fun z => regWrite_answers harr⟩,
    fun addr n hrom => ⟨fun k => memRead_refused harr hrom, memRead_answers harr hrom⟩,
    fun addr data hrom hfit => ⟨fun k hcode => ?_, fun hcode hprot => ?_, memWrite_stores harr hrom hfit⟩,
    fun ds hrom hrole hfit hsvc hne hmany hlen => ⟨?_, ?_⟩,
    fun addr v hrom => ⟨doorbell_writes harr hrom, doorbell_discarded harr hrom⟩⟩
  · exact memWrite_refused harr hrom hfit (memWriteWork_refused hrom hcode)
  · exact memWrite_refused harr hrom hfit ((memWriteWork_sound hrom hcode).trans (if_pos hprot))
  · exact submit_puts harr hrom hrole hfit hsvc hne hmany hlen rfl rfl rfl
  · exact submit_full harr hrom hrole hfit hsvc hne hmany hlen rfl rfl

end

