-- ==== Sys2Proof/Proofs/PassLanes.lean ====
section
/-! PROOF. Pass lanes: bring-up (R359 to R361, R372), packets and their verdicts (R362 to R365), Stream transmission (R366) and Link
mode (R367, R368). -/

namespace Sys2Proof.Machine

variable {m : Mem} {c d : Core} {s : State} {a : Access} {b i k l n v w : Nat} {rx : LaneChars} {x : Lane} {adv : List Byte} {f : Frame}

/-! ### A lane's state, mode and leave to send -/

theorem Core.laneState_eq (c : Core) (l : Nat) : c.laneState l = c.getF (aLaneStat l) 0 3 := by
  rw [show aLaneStat l = pPass + 0x108 + 0x80 * l by unfold aLaneStat aLane; omega]
  rfl

theorem Core.laneState_congr (h : d.rd (aLaneStat l) = c.rd (aLaneStat l)) : d.laneState l = c.laneState l := by
  rw [Core.laneState_eq, Core.laneState_eq, Core.getF_of_rd h]

theorem Core.laneMode_congr (h : d.rd (aLane l) = c.rd (aLane l)) : d.laneMode l = c.laneMode l := Core.getF_of_rd h

theorem Core.lane_congr (h : d.lanes = c.lanes) (l : Nat) : d.lane l = c.lane l := by
  unfold Core.lane
  rw [h]

theorem Core.laneState_setLaneState (hk : k < 8) : (c.setLaneState l k).laneState l = k := by
  rw [Core.laneState_eq]
  exact (Core.getF_setF_self _ _ _ _ _ (by decide)).trans (Nat.mod_eq_of_lt hk)

/-- A flag of the status register is apart from the state. -/
theorem Core.laneState_raiseF (hk : 3 ≤ k) (hk' : k < 64) : (c.raiseF (aLaneStat l) k).laneState l = c.laneState l := by
  rw [Core.laneState_eq, Core.laneState_eq]
  exact Core.getF_setF_apart c _ _ _ _ _ _ (by omega) (.inl (by omega))

/-- The core `d` has a lane in the state and the mode, and the device as safe, as `c`. -/
structure SameLane (l : Nat) (c d : Core) : Prop where
  state : d.laneState l = c.laneState l
  mode : d.laneMode l = c.laneMode l
  safe : d.safe = c.safe

theorem SameLane.trans {e : Core} (h : SameLane l c d) (h' : SameLane l d e) : SameLane l c e :=
  ⟨h'.state.trans h.state, h'.mode.trans h.mode, h'.safe.trans h.safe⟩

/-- The registers that a lane's state and mode, and safe state, stand in. -/
def laneRegs (l : Nat) : List Nat := [aLaneStat l, aLane l, pFlt + 0x80]

theorem SameLane.of_rd (h : ∀ b ∈ laneRegs l, d.rd b = c.rd b) : SameLane l c d where
  state := Core.laneState_congr (h _ (by simp [laneRegs]))
  mode := Core.laneMode_congr (h _ (by simp [laneRegs]))
  safe := Core.safe_congr (h _ (by simp [laneRegs]))

theorem SameLane.of_regs (h : d.regs = c.regs) : SameLane l c d := .of_rd fun b _ => Core.rd_congr h b

theorem SameLane.sends (h : SameLane l c d) : d.laneSends l = c.laneSends l := by
  rw [Core.laneSends, h.state, h.safe, Core.laneSends]

/-- A lane's counters and commands are none of these registers. -/
theorem laneRegs_ne_lane (hk : 0x10 ≤ k) (hk' : k < 0x80) : ∀ b ∈ laneRegs l, b ≠ aLane l + k := by
  simp only [laneRegs, List.forall_mem_cons, List.not_mem_nil, false_imp_iff, implies_true, and_true]
  unfold aLaneStat aLane pFlt pPass
  omega

/-- Nor are the events and the error log of the lanes' page. -/
theorem laneRegs_ne_log (hl : l < 16) : ∀ b ∈ laneRegs l, ¬ LogTouches pPass b := by
  simp only [laneRegs, List.forall_mem_cons, List.not_mem_nil, false_imp_iff, implies_true, and_true]
  unfold LogTouches aLaneStat aLane pFlt pPass
  omega

theorem SameLane.bumpBy (hk : 0x10 ≤ k) (hk' : k < 0x80) : SameLane l c (c.bumpBy (aLane l + k) n) :=
  .of_rd fun b hb => Core.rd_bumpBy_ne c n (laneRegs_ne_lane hk hk' b hb)

theorem SameLane.event (hl : l < 16) : SameLane l c (c.event pPass k) :=
  .of_rd fun b hb => Core.rd_event_ne c k fun h => laneRegs_ne_log hl b hb (.inl h)

/-! ### Bring-up -/

theorem Core.rd_toHunt (hb : b ≠ aLaneStat l) : (c.toHunt l).rd b = c.rd b := Core.rd_setF_ne c _ _ _ hb

theorem Core.laneState_toHunt : (c.toHunt l).laneState l = 1 := Core.laneState_setLaneState (c := c) (by decide)

/-- Without EN a lane is OFF; with it one that was OFF hunts. -/
theorem Core.laneState_laneSync : (c.laneSync l).laneState l =
    if (c.en pPass && c.getB (aLane l) 0) = false then 0 else if c.laneState l = 0 then 1 else c.laneState l := by
  unfold Core.laneSync
  dsimp only
  cases hon : c.en pPass && c.getB (aLane l) 0 with
  | false =>
    by_cases hst : c.laneState l = 0
    · simp [hst]
    · rw [if_neg (by simp), if_pos (by simp [hst]), if_pos rfl]
      exact Core.laneState_setLaneState (c := c) (k := 0) (by decide)
  | true =>
    by_cases hst : c.laneState l = 0
    · rw [if_pos (by simp [hst]), if_neg (by decide), if_pos hst]
      exact Core.laneState_setLaneState (c := c) (k := 1) (by decide)
    · simp [hst]

theorem Core.getB_zero_setF (hw : 0 < w) (hw' : w ≤ 64) : (c.setF b 0 w v).getB b 0 = bit v 0 := by
  have hmod : ∀ x : Nat, x % 2 ^ 1 = x % 2 ^ w % 2 ^ 1 := fun x => (Nat.mod_mod_of_dvd x (Nat.pow_dvd_pow 2 hw)).symm
  have hfield := Core.getF_setF_self c b 0 w v (by omega)
  rw [Core.getF, Nat.pow_zero, Nat.div_one] at hfield
  rw [Core.getB, Core.getF, Nat.pow_zero, Nat.div_one, hmod, hfield, ← hmod]
  simp [bit]

/-- PASS_CFG is set, and the lane follows it (R359, R372). -/
theorem Core.hPassCfg_spec (ha : a.view = .priv) (hl : l < 16) :
    (c.hPassCfg a l v).getF (aLane l) 0 18 = v % 2 ^ 18 ∧
    (c.hPassCfg a l v).laneState l = (if (c.en pPass && bit v 0) = false then 0
      else if c.laneState l = 0 ∨ c.laneMode l ≠ v / 2 % 4 then 1 else c.laneState l) := by
  have hne : aLane l ≠ aLaneStat l := by unfold aLaneStat; omega
  unfold Core.hPassCfg
  rw [if_neg (by simp [isPriv_of_view ha]; omega)]
  extract_lets moved d
  have hstate : d.laneState l = c.laneState l := Core.laneState_congr (Core.rd_setF_ne c _ _ _ hne.symm)
  have he : (if moved then d.toHunt l else d).laneState l = if moved then 1 else c.laneState l := by
    split
    · exact Core.laneState_toHunt
    · exact hstate
  have hrd (b : Nat) (hb : b ≠ aLaneStat l) : (if moved then d.toHunt l else d).rd b = d.rd b := by
    split
    · exact Core.rd_toHunt hb
    · rfl
  have hen : (if moved then d.toHunt l else d).en pPass = c.en pPass := by
    refine Core.getB_of_rd ((hrd _ ?_).trans (Core.rd_setF_ne c _ _ _ ?_))
    · unfold aLaneStat aLane; omega
    · unfold aLane; omega
  have hbit : (if moved then d.toHunt l else d).getB (aLane l) 0 = bit v 0 :=
    (Core.getB_of_rd (hrd _ hne)).trans (Core.getB_zero_setF (by decide) (by decide))
  refine ⟨?_, ?_⟩
  · rw [Core.getF_of_rd ((Core.rd_laneSync hne).trans (hrd _ hne))]
    exact Core.getF_setF_self c _ _ _ _ (by decide)
  · rw [Core.laneState_laneSync, hen, hbit, he]
    unfold moved
    by_cases hst : c.laneState l = 0 <;> by_cases hmode : c.laneMode l = v / 2 % 4 <;> simp [hst, hmode]

theorem Core.laneLocked_spec (hl : l < 16) (hst : c.laneState l = 1) :
    (c.laneLocked l).laneState l = 2 ∧ ((c.laneLocked l).lane l).adverts = [] ∧ Stated.OnlyReg c (c.laneLocked l) (aLaneStat l) := by
  unfold Core.laneLocked
  rw [if_neg (by simp [hst]; omega)]
  exact ⟨Core.laneState_setLaneState (c := c) (by decide), by rw [Core.lane_setLane], fun b hb => Core.rd_setF_ne c _ _ _ hb⟩

/-- A lock's loss takes the lane to HUNT and is shown and sent (R360). -/
theorem Core.laneLockLoss_spec (hl : l < 16) (hst : 2 ≤ c.laneState l) :
    (c.laneLockLoss l).laneState l = 1 ∧ (c.laneLockLoss l).getB (aLaneStat l) 10 = true ∧
    (c.laneLockLoss l).getB (pPass + 0x38) (8 + l) = true := by
  have hne : aLaneStat l ≠ pPass + 0x38 := by unfold aLaneStat aLane; omega
  unfold Core.laneLockLoss
  rw [if_neg (by simp; omega)]
  refine ⟨?_, ?_, Core.getB_event_self _ _ _ (by omega)⟩
  · rw [(SameLane.event hl).state, Core.laneState_raiseF (by decide) (by decide), Core.bump,
      (SameLane.bumpBy (by decide) (by decide)).state, Core.laneState_toHunt]
  · rw [Core.getB_of_rd (Core.rd_event_ne _ _ hne)]
    exact Core.getB_raiseF_self _ _ _ (by decide)

/-! ### Version sets -/

/-- FAULT of a received set is kept, shown and sent; the lane goes on (R370). -/
theorem Core.peerFault_spec (fault : Bool) (hl : l < 16) :
    SameLane l c (c.peerFault l fault) ∧ (c.peerFault l fault).lane l = { c.lane l with fault := fault } ∧
    ∀ b, b ≠ aLaneStat l → b ≠ pPass + 0x38 → (c.peerFault l fault).rd b = c.rd b := by
  unfold Core.peerFault
  extract_lets x d
  have hd : d.lane l = { c.lane l with fault := fault } := Core.lane_setLane _
  have hregs : d.regs = c.regs := rfl
  cases fault with
  | false => exact ⟨.of_regs hregs, hd, fun b _ _ => Core.rd_congr hregs b⟩
  | true =>
    have hraise : SameLane l d (d.raiseF (aLaneStat l) 9) := by
      refine ⟨Core.laneState_raiseF (by decide) (by decide), Core.laneMode_congr (Core.rd_raiseF_ne ?_), Core.safe_congr (Core.rd_raiseF_ne ?_)⟩
      · unfold aLaneStat; omega
      · unfold aLaneStat aLane pFlt pPass; omega
    have hlanes : ((d.raiseF (aLaneStat l) 9).event pPass (24 + l)).lanes = d.lanes := by rw [Core.event_lanes, Core.raiseF_lanes]
    exact ⟨(SameLane.of_regs hregs).trans (hraise.trans (.event hl)), (Core.lane_congr hlanes l).trans hd,
      fun b hb hb' => (Core.rd_event_ne _ _ hb').trans ((Core.rd_raiseF_ne hb).trans (Core.rd_congr hregs b))⟩

/-- Three equal adverts decide for UP or REFUSED (R361). -/
theorem Core.laneState_decideLane : (c.decideLane l adv).laneState l =
    if c.getF (pPass + 0x80) 0 8 &&& fld adv 0 1 ≠ 0 ∧ fld adv 2 1 % 4 = c.laneMode l then 3 else 4 := by
  unfold Core.decideLane
  extract_lets common same d _ e
  by_cases h : common ≠ 0 ∧ same
  · rw [if_pos (by simpa using h), if_pos h]
    exact Core.laneState_setLaneState (c := e.setLane l { e.lane l with since := e.now }) (by decide)
  · rw [if_neg (by simpa using h), if_neg h]
    exact Core.laneState_setLaneState (c := d) (by decide)

/-- The lane that a received set has reached: its violations counted, its FAULT taken. -/
def Core.heard (c : Core) (l viol : Nat) (fault : Bool) : Core := (c.bumpBy (aLane l + 0x40) viol).peerFault l fault

theorem Core.heard_spec (viol : Nat) (fault : Bool) (hl : l < 16) :
    SameLane l c (c.heard l viol fault) ∧ (c.heard l viol fault).lane l = { c.lane l with fault := fault } ∧
    (c.heard l viol fault).rd (pPass + 0x80) = c.rd (pPass + 0x80) := by
  obtain ⟨hsame, hlane, hrd⟩ := Core.peerFault_spec (c := c.bumpBy (aLane l + 0x40) viol) fault hl
  refine ⟨(SameLane.bumpBy (by decide) (by decide)).trans hsame, hlane.trans ?_, (hrd _ ?_ (by decide)).trans (Core.rd_bumpBy_ne c _ ?_)⟩
  · rw [Core.lane_congr (Core.bumpBy_lanes ..)]
  · unfold aLaneStat aLane; omega
  · unfold aLane; omega

/-- The advert of a version set: its characters without FAULT. -/
def advertOf (b : List Byte) : List Byte := splice (b.take 3) 2 [BitVec.ofNat 8 (fld b 2 1 % 4)]

/-- The adverts seen in a row once another has come. -/
def Lane.seen (x : Lane) (adv : List Byte) : List (List Byte) := if x.adverts.head? = some adv then x.adverts ++ [adv] else [adv]

/-- A sound version set of a lane in SYNC joins the adverts, the third of which decides. -/
theorem Core.versionSet_sync (hl : l < 16) (hst : c.laneState l = 2) (hviol : rx.viol = 0) (hlen : rx.chars.length = 4)
    (hcheck : rx.chars.drop 3 = [crc8 (rx.chars.take 3)]) : ∃ d : Core,
    SameLane l c d ∧ (d.lane l).adverts = ((c.lane l).seen (advertOf rx.chars)).take 3 ∧ d.rd (pPass + 0x80) = c.rd (pPass + 0x80) ∧
    c.versionSet l rx = if 3 ≤ ((c.lane l).seen (advertOf rx.chars)).length then d.decideLane l (advertOf rx.chars) else d := by
  obtain ⟨hsame, hlane, hrd⟩ := Core.heard_spec (c := c) rx.viol (bit (fld rx.chars 2 1) 2) hl
  generalize hh : c.heard l rx.viol (bit (fld rx.chars 2 1) 2) = h at hsame hlane hrd
  refine ⟨h.setLane l { h.lane l with adverts := ((c.lane l).seen (advertOf rx.chars)).take 3 }, hsame.trans (.of_regs rfl),
    by rw [Core.lane_setLane], hrd, ?_⟩
  unfold Core.versionSet
  extract_lets d chars adv e x seen g
  have he : e = h := hh
  have hx : x.adverts = (c.lane l).adverts := by rw [show x = e.lane l from rfl, he, hlane]
  have hseen : seen = (c.lane l).seen (advertOf rx.chars) := by
    unfold seen Lane.seen
    rw [hx]
    rfl
  have hd : d.laneState l = 2 := (SameLane.bumpBy (by decide) (by decide)).state.trans hst
  have hg : g = h.setLane l { h.lane l with adverts := ((c.lane l).seen (advertOf rx.chars)).take 3 } := by
    unfold g
    rw [hseen, show x = e.lane l from rfl, he]
  have hgst : g.laneState l = 2 := by
    rw [hg]
    exact hsame.state.trans hst
  rw [if_neg (by simp [hst]; omega), if_neg (by simp [hd, hviol, chars, hlen, hcheck]), if_pos hgst, hseen, ← hg]
  rfl

/-! ### Packets that arrive -/

/-- A packet on a lane that is UP takes the lane's next number and its instants (R364). -/
theorem Core.packetStart_spec {phi viol : Nat} {chars : List Byte} {bad : List Nat} {ended : Bool} {t : Nat} (hl : l < 16)
    (hst : c.laneState l = 3) (ht : adjust (c.at_ phi) (signed 32 (c.getF (pTime + 0x240 + 8 * l) 0 32)) = t)
    (hover : ∀ f ∈ c.sep.frames, f.src = 8 + l → f.tEnd ≤ t) :
    ∃ f, (c.packetStart l phi chars bad viol ended).sep.frames = c.sep.frames ++ [f] ∧ f.src = 8 + l ∧
      f.num = Store.get c.sep.counts 0 (8 + l) ∧ f.bytes = chars ∧ f.tStart = t ∧
      f.tEnd = t + (fld chars 2 2 + 10) * 2 * 2 ^ 16 / 5 ∧ f.verdict = none ∧
      (c.laneMode l = 0 → f.cls = .data ∧ f.regions = c.getF (aLane l) 9 8 ∧ f.walkDone = false) ∧
      Store.get (c.packetStart l phi chars bad viol ended).sep.counts 0 (8 + l) = (Store.get c.sep.counts 0 (8 + l) + 1) % 65536 := by
  unfold Core.packetStart
  extract_lets src t' n len tEnd stream regs pset f counts d e data
  have ht' : t' = t := ht
  have hfree : c.sep.frames.any (fun f => decide (f.src = src) && decide (t' < f.tEnd)) = false := by
    simp only [List.any_eq_false, Bool.and_eq_true, decide_eq_true_eq, not_and, Nat.not_lt, ht']
    exact hover
  have hsep : (if e.laneMode l = 2 then e else e.observe { f.obs (e.tickAt t') with data := data, match_ := data }).sep = d.sep := by
    have he : e.sep = d.sep := by rw [show e = (d.bump (aLane l + 0x28)).bumpBy (aLane l + 0x40) viol from rfl, Core.bumpBy_sep, Core.bump_sep]
    split
    · exact he
    · exact (changes_observe .sep (by decide)).trans he
  rw [if_neg (by simp [hst, hfree]; omega), hsep]
  refine ⟨f, rfl, rfl, rfl, rfl, ht', ?_, rfl, fun hmode => ⟨if_pos hmode, if_pos hmode, ?_⟩, Store.get_set_self _ _ _ _⟩
  · rw [← ht']
  · simp [f, stream, hmode]

/-! ### Stores into the receive ring -/

/-- Of stores of at most a length that do not meet, each is read back. -/
theorem Mem.read_stores_le {A : Nat → Nat} {B : Nat → List Byte} {is : List Nat} (hB : ∀ i, (B i).length ≤ w)
    (hapart : is.Pairwise fun i j => A i + w ≤ A j ∨ A j + w ≤ A i) (hi : i ∈ is) :
    (is.foldl (fun m i => m.store (A i) (B i)) m).read (A i) (B i).length = B i := by
  induction is generalizing m with
  | nil => cases hi
  | cons j js ih =>
    obtain ⟨hj, hjs⟩ := List.pairwise_cons.mp hapart
    rw [List.foldl_cons]
    rcases List.mem_cons.mp hi with rfl | hi
    · refine Eq.trans (Mem.read_congr fun x hx => Mem.byte_stores_out fun y hy => ?_) (Mem.read_store m (A i) (B i))
      have hxy := hj y hy
      have hlen := hB i
      have hlen' := hB y
      omega
    · exact ih hjs hi

theorem Core.mapped_congr_for {fw : Bool} (hpart : d.rd 0x80 = c.rd 0x80) (hlpm : d.rd (pLpm + 0x80) = c.rd (pLpm + 0x80)) (x n : Nat) :
    d.mapped fw x n = c.mapped fw x n := by
  unfold Core.mapped Core.memMapped Core.meadows Core.plains Core.lpmSize Core.getF
  rw [hpart, hlpm]

/-- The place of a unit in a lane's receive ring. -/
def Core.rxPlace (c : Core) (l i : Nat) : Nat :=
  c.getF (aLane l + 0x10) 0 48 + 64 * ((c.getF (aLane l + 0x18) 32 24 + i) % c.rxUnits l)

/-- Each unit of a payload that fits stands in its place of the ring, where that is mapped. -/
theorem rxPut_reads {pay : List Byte} (hfit : ceilDiv pay.length 64 ≤ c.rxFree l) (hi : i < ceilDiv pay.length 64)
    (hmap : c.mapped true (c.rxPlace l i) 64 = true) :
    (rxPut m c l pay).1.read (c.rxPlace l i) ((pay.drop (64 * i)).take 64).length = (pay.drop (64 * i)).take 64 := by
  have hroom : ceilDiv pay.length 64 ≤ c.rxUnits l := by
    refine hfit.trans ?_
    unfold Core.rxFree
    dsimp only
    omega
  have hput : (rxPut m c l pay).1 = ((List.range (ceilDiv pay.length 64)).filter fun i => c.mapped true (c.rxPlace l i) 64).foldl
      (fun m i => m.store (c.rxPlace l i) ((pay.drop (64 * i)).take 64)) m := by
    rw [List.foldl_filter]
    rfl
  rw [hput]
  refine Mem.read_stores_le (w := 64) (B := fun i => (pay.drop (64 * i)).take 64) (fun i => List.length_take_le _ _) (List.Pairwise.filter _ ?_)
    (List.mem_filter.mpr ⟨List.mem_range.mpr hi, hmap⟩)
  refine List.pairwise_lt_range.imp_of_mem fun {p q} hp hq hpq => ?_
  have hplace : (c.getF (aLane l + 0x18) 32 24 + q) % c.rxUnits l ≠ (c.getF (aLane l + 0x18) 32 24 + p) % c.rxUnits l := by
    rw [show c.getF (aLane l + 0x18) 32 24 + q = c.getF (aLane l + 0x18) 32 24 + p + (q - p) by omega]
    exact ring_place_ne (Nat.sub_pos_of_lt hpq) (by have := List.mem_range.mp hq; omega)
  unfold Core.rxPlace
  omega

/-! ### Verdicts -/

theorem Core.sendSet_lane : ∃ k, ((c.sendSet l).lane l) = { c.lane l with sets := k } := by
  unfold Core.sendSet
  extract_lets x
  split
  · exact ⟨_, rfl⟩
  · exact ⟨_, Core.lane_setLane _⟩

/-- Whether a Link packet is accepted (R367). -/
def Core.linkNext (c : Core) (l : Nat) (f : Frame) (good : Bool) : Bool :=
  good && fld f.bytes 1 1 = ((c.lane l).rxSeq + 1) % 256 && ceilDiv (slice f.bytes 4 (fld f.bytes 2 2)).length 64 ≤ c.rxFree l

theorem linkAccept_accepts {good : Bool} (hnext : c.linkNext l f good = true) :
    ((linkAccept m c l f good).2.lane l).rxSeq = ((c.lane l).rxSeq + 1) % 256 ∧ ((linkAccept m c l f good).2.lane l).nak = false ∧
    ∀ i, i < ceilDiv (slice f.bytes 4 (fld f.bytes 2 2)).length 64 → c.mapped true (c.rxPlace l i) 64 = true →
      (linkAccept m c l f good).1.read (c.rxPlace l i) (((slice f.bytes 4 (fld f.bytes 2 2)).drop (64 * i)).take 64).length =
        ((slice f.bytes 4 (fld f.bytes 2 2)).drop (64 * i)).take 64 := by
  unfold linkAccept
  extract_lets x pay r
  rw [show (good && decide (fld f.bytes 1 1 = (x.rxSeq + 1) % 256) && decide (ceilDiv pay.length 64 ≤ c.rxFree l)) = true from hnext, if_pos rfl]
  have hfit : ceilDiv pay.length 64 ≤ c.rxFree l := by
    have h := hnext
    unfold Core.linkNext at h
    exact of_decide_eq_true (Bool.and_eq_true_iff.mp h).2
  have hlane : r.2.lane l = { x with rxSeq := (x.rxSeq + 1) % 256, nak := false } := by
    have hr : Changes [.regs] (c.setLane l { x with rxSeq := (x.rxSeq + 1) % 256, nak := false }) r.2 :=
      (changes_setF.trans changes_lpmMoved).mono rfl
    exact (Core.lane_congr (hr .lanes (by decide)) l).trans (Core.lane_setLane _)
  obtain ⟨k, hsets⟩ := Core.sendSet_lane (c := r.2) (l := l)
  refine ⟨by rw [hsets, hlane], by rw [hsets, hlane], fun i hi hmap => ?_⟩
  exact rxPut_reads (c := c.setLane l { x with rxSeq := (x.rxSeq + 1) % 256, nak := false }) hfit hi hmap

theorem linkAccept_refuses {good : Bool} (hnext : c.linkNext l f good = false) :
    (linkAccept m c l f good).1 = m ∧ ((linkAccept m c l f good).2.lane l).nak = true ∧
    ((linkAccept m c l f good).2.lane l).rxSeq = (c.lane l).rxSeq := by
  unfold linkAccept
  extract_lets x pay r
  rw [show (good && decide (fld f.bytes 1 1 = (x.rxSeq + 1) % 256) && decide (ceilDiv pay.length 64 ≤ c.rxFree l)) = false from hnext,
    if_neg (by decide)]
  obtain ⟨k, hsets⟩ := Core.sendSet_lane (c := c.setLane l { x with nak := true }) (l := l)
  rw [Core.lane_setLane] at hsets
  exact ⟨rfl, by rw [hsets], by rw [hsets]⟩

/-- A bad packet is counted. -/
def Core.badCounted (c : Core) (l : Nat) (good : Bool) : Core := if good then c else c.bump (aLane l + 0x38)

/-- The core in which a packet outside Stream mode has its verdict. -/
def Core.packetSettled (c : Core) (f : Frame) (good : Bool) : Core :=
  (c.putFrame { f with verdict := some good }).pruneFrames.finalise
    (fun o => o.kind = 4 && o.cls = srcClass f.src && o.idx = srcIdx f.src && o.frame = f.num)
    fun o => { o with bad := !good, final := some (c.putFrame { f with verdict := some good }).pruneFrames.now }

theorem packetVerdict_eq (hl : l < 16) (hfind : (c.sep.frames.find? fun f => f.src = 8 + l && f.verdict.isNone) = some f)
    (hend : f.tEnd ≤ c.now) : packetVerdict m c l =
      if f.cls = .data then (m, (c.badCounted l (packetGood (c.laneMode l) f)).verdict f (packetGood (c.laneMode l) f))
      else if c.laneMode l = 1 then
        linkAccept m ((c.badCounted l (packetGood (c.laneMode l) f)).packetSettled f (packetGood (c.laneMode l) f)) l f
          (packetGood (c.laneMode l) f)
      else (m, (c.badCounted l (packetGood (c.laneMode l) f)).packetSettled f (packetGood (c.laneMode l) f)) := by
  unfold packetVerdict
  rw [hfind]
  dsimp only
  rw [if_neg (by simp [hend]; omega)]
  rfl

/-- The verdict leaves the lanes, and of the lanes' page no more than the count of bad packets. -/
theorem Core.packetSettled_keeps (good : Bool) :
    ((c.badCounted l good).packetSettled f good).lanes = c.lanes ∧
    ∀ b, b ≠ aLane l + 0x38 → ((c.badCounted l good).packetSettled f good).rd b = c.rd b := by
  have hcount : (c.badCounted l good).lanes = c.lanes ∧ ∀ b, b ≠ aLane l + 0x38 → (c.badCounted l good).rd b = c.rd b := by
    unfold Core.badCounted
    split
    · exact ⟨rfl, fun _ _ => rfl⟩
    · exact ⟨Core.bump_lanes .., fun b hb => Core.rd_bump_ne c hb⟩
  exact hcount

section
variable {good : Bool}

theorem Core.rxUnits_congr (h : ∀ k, k = 0x10 ∨ k = 0x18 → d.rd (aLane l + k) = c.rd (aLane l + k)) : d.rxUnits l = c.rxUnits l := by
  unfold Core.rxUnits
  rw [Core.getF_of_rd (h _ (.inl rfl))]

theorem Core.rxFree_congr (h : ∀ k, k = 0x10 ∨ k = 0x18 → d.rd (aLane l + k) = c.rd (aLane l + k)) : d.rxFree l = c.rxFree l := by
  unfold Core.rxFree
  rw [Core.rxUnits_congr h, Core.getF_of_rd (h _ (.inr rfl)), Core.getF_of_rd (h _ (.inr rfl))]

theorem Core.rxPlace_congr (h : ∀ k, k = 0x10 ∨ k = 0x18 → d.rd (aLane l + k) = c.rd (aLane l + k)) (i : Nat) :
    d.rxPlace l i = c.rxPlace l i := by
  unfold Core.rxPlace
  rw [Core.rxUnits_congr h, Core.getF_of_rd (h _ (.inl rfl)), Core.getF_of_rd (h _ (.inr rfl))]

/-- A Stream packet carries its verdict. -/
theorem packetVerdict_stream (hl : l < 16) (hfind : (c.sep.frames.find? fun f => f.src = 8 + l && f.verdict.isNone) = some f)
    (hend : f.tEnd ≤ c.now) (hcls : f.cls = .data) (hgood : packetGood (c.laneMode l) f = good) :
    (packetVerdict m c l).1 = m ∧
    ∀ x ∈ (packetVerdict m c l).2.sep.frames, x.src = f.src → x.num = f.num → x.verdict = some good := by
  rw [packetVerdict_eq hl hfind hend, if_pos hcls, hgood]
  exact ⟨rfl, (Core.verdict_spec (c := c.badCounted l good) good).1⟩

/-- A Link packet with its verdict is accepted or sets NAK, as the lane stood before (R367). -/
theorem packetVerdict_link (hl : l < 16) (hfind : (c.sep.frames.find? fun f => f.src = 8 + l && f.verdict.isNone) = some f)
    (hend : f.tEnd ≤ c.now) (hcls : f.cls ≠ .data) (hmode : c.laneMode l = 1) (hgood : packetGood (c.laneMode l) f = good) :
    (c.linkNext l f good = true →
      ((packetVerdict m c l).2.lane l).rxSeq = ((c.lane l).rxSeq + 1) % 256 ∧ ((packetVerdict m c l).2.lane l).nak = false ∧
      ∀ i, i < ceilDiv (slice f.bytes 4 (fld f.bytes 2 2)).length 64 → c.mapped true (c.rxPlace l i) 64 = true →
        (packetVerdict m c l).1.read (c.rxPlace l i) (((slice f.bytes 4 (fld f.bytes 2 2)).drop (64 * i)).take 64).length =
          ((slice f.bytes 4 (fld f.bytes 2 2)).drop (64 * i)).take 64) ∧
    (c.linkNext l f good = false →
      (packetVerdict m c l).1 = m ∧ ((packetVerdict m c l).2.lane l).nak = true ∧
      ((packetVerdict m c l).2.lane l).rxSeq = (c.lane l).rxSeq) := by
  obtain ⟨hlanes, hrd⟩ := Core.packetSettled_keeps (c := c) (l := l) (f := f) good
  have hver := packetVerdict_eq (m := m) hl hfind hend
  rw [if_neg hcls, if_pos hmode, hgood] at hver
  rw [hver]
  generalize (c.badCounted l good).packetSettled f good = d at hlanes hrd
  have hring : ∀ k, k = 0x10 ∨ k = 0x18 → d.rd (aLane l + k) = c.rd (aLane l + k) := fun k hk => hrd _ (by omega)
  have hlane : d.lane l = c.lane l := Core.lane_congr hlanes l
  have hnext : d.linkNext l f good = c.linkNext l f good := by
    unfold Core.linkNext
    rw [hlane, Core.rxFree_congr hring]
  have hmap (x : Nat) : d.mapped true x 64 = c.mapped true x 64 :=
    Core.mapped_congr_for (hrd _ (by unfold aLane pPass; omega)) (hrd _ (by unfold aLane pPass pLpm; omega)) x 64
  refine ⟨fun h => ?_, fun h => ?_⟩
  · obtain ⟨hseq, hnak, hread⟩ := linkAccept_accepts (m := m) (hnext.trans h)
    rw [hlane] at hseq
    refine ⟨hseq, hnak, fun i hi hm => ?_⟩
    have := hread i hi
    rw [Core.rxPlace_congr hring, hmap] at this
    exact this hm
  · obtain ⟨hm, hnak, hseq⟩ := linkAccept_refuses (m := m) (hnext.trans h)
    exact ⟨hm, hnak, hseq.trans (by rw [hlane])⟩

end

/-! ### Acknowledgements -/

/-- The lane whose packets up to one are acknowledged. -/
theorem Core.linkAck_frees (hfind : ((c.lane l).unacked.findIdx? fun p => p.seq = n) = some i) :
    (c.linkAck l n).lane l = { c.lane l with unacked := (c.lane l).unacked.drop (i + 1), resends := 0, since := c.now } := by
  unfold Core.linkAck
  extract_lets x
  rw [show (x.unacked.findIdx? fun p => decide (p.seq = n)) = some i from hfind]
  exact Core.lane_setLane _

/-- A sound idle set without NAK takes FAULT and frees what it acknowledges. -/
theorem Core.idleSet_link (hl : l < 16) (hst : c.laneState l = 3) (hmode : c.laneMode l = 1) (hviol : rx.viol = 0)
    (hlen : rx.chars.length = 3) (hcheck : rx.chars.drop 2 = [crc8 (rx.chars.take 2)]) (hnak : bit (fld rx.chars 0 1) 1 = false) :
    c.idleSet l rx = (c.heard l rx.viol (bit (fld rx.chars 0 1) 0)).linkAck l (fld rx.chars 1 1) := by
  obtain ⟨hsame, -, -⟩ := Core.heard_spec (c := c) rx.viol (bit (fld rx.chars 0 1) 0) hl
  unfold Core.idleSet
  extract_lets d chars st e f
  have hd : d.laneState l = 3 := (SameLane.bumpBy (by decide) (by decide)).state.trans hst
  have he : e.laneMode l = 1 := hsame.mode.trans hmode
  have he' : e.laneState l = 3 := hsame.state.trans hst
  rw [if_neg (by simp [hst]; omega), if_neg (by simp [hd, hviol, chars, hlen, hcheck]), if_neg (by simp [he, he']),
    if_neg (by simp [st, chars, hnak])]
  rfl

/-! ### Sending -/

theorem Core.sendPacket_out (c : Core) (l type seq : Nat) (pay : List Byte) :
    (c.sendPacket l type seq pay).out = c.out ++ [.lane l (packetSymbols type seq pay)] := Core.bump_out ..

theorem Core.lane_sendPacket {type seq : Nat} {pay : List Byte} : (c.sendPacket l type seq pay).lane l = c.lane l :=
  Core.lane_congr (changes_sendPacket .lanes (by decide)) l

/-- Of a word of LPDDR6 that is uncorrectable, its page alone shows. -/
theorem Core.rd_readUe_lpm {x : Nat} (hx : lpmBase ≤ x) (hb : b < pLpm ∨ pLpm + 0x1000 ≤ b) : (c.readUe m x n).rd b = c.rd b := by
  have hwords : ∀ w ∈ m.marks x n, lpmBase ≤ w := by
    intro w hw
    obtain ⟨p, hp, rfl⟩ := List.mem_map.mp hw
    have hp' : x ≤ 8 * p := by
      have h := (List.mem_filter.mp hp).2
      simp only [Bool.and_eq_true, decide_eq_true_eq] at h
      exact h.1
    exact hx.trans hp'
  unfold Core.readUe
  generalize m.marks x n = ws at hwords
  induction ws generalizing c with
  | nil => rfl
  | cons w ws ih =>
    obtain ⟨hw, hws⟩ := List.forall_mem_cons.mp hwords
    refine (ih hws).trans ?_
    show (c.wordUe w).rd b = c.rd b
    unfold Core.wordUe
    rw [if_pos hw]
    have hch : lpmChannel (w - lpmBase) < 12 := Nat.mod_lt _ (by decide)
    dsimp only
    rw [Core.rd_logErr_ne _ _ _ _ _ _ (by unfold LogTouches; omega), Core.rd_bump_ne _ (by unfold aChan; omega)]

/-- The command that PASS_LTX_CMD takes (R367). -/
def Core.ltxOk (c : Core) (l v : Nat) : Prop :=
  1 ≤ v / 2 ^ 48 % 64 ∧ v / 2 ^ 48 % 64 ≤ 32 ∧ v % 2 ^ 48 % 64 = 0 ∧ (c.lane l).unacked.length < 64 ∧ lpmBase ≤ v % 2 ^ 48 ∧
    c.mapped true (v % 2 ^ 48) (64 * (v / 2 ^ 48 % 64)) = true

/-- What a command of PASS_LTX_CMD meets: the lane as it was, with REJ cleared where the write asks for it. -/
structure SameLink (l : Nat) (c d : Core) : Prop where
  same : SameLane l c d
  lanes : d.lanes = c.lanes
  out : d.out = c.out
  mapped : ∀ x n, d.mapped true x n = c.mapped true x n

theorem SameLink.clearF {z lo : Nat} : SameLink l c (c.clearF (aLane l + 0x20) lo w z) where
  same := .of_rd fun b hb => Core.rd_setF_ne c _ _ _ (laneRegs_ne_lane (by decide) (by decide) b hb)
  lanes := Core.clearF_lanes ..
  out := Core.clearF_out ..
  mapped := Core.mapped_congr_for (Core.rd_setF_ne c _ _ _ (by unfold aLane pPass; omega))
    (Core.rd_setF_ne c _ _ _ (by unfold aLane pPass pLpm; omega))

theorem SameLink.ltxOk_iff (h : SameLink l c d) : d.ltxOk l v ↔ c.ltxOk l v := by
  unfold Core.ltxOk
  rw [h.mapped, Core.lane_congr h.lanes]

/-- The lane with a Link packet queued. -/
def Core.linkQueued (c : Core) (l : Nat) (data : List Byte) : Lane :=
  let x := c.lane l
  { x with unacked := x.unacked ++ [⟨x.txSeq, data, c.laneSends l⟩], txSeq := (x.txSeq + 1) % 256,
           since := if x.unacked.isEmpty then c.now else x.since }

/-- The core with a Link packet queued and its bytes read. -/
def Core.ltxQueued (c : Core) (m : Mem) (l x n : Nat) : Core :=
  ((c.setLane l (c.linkQueued l (m.read x n))).readUe m x n).lpmMoved 1 x n

theorem Core.hLtx_eq (ha : a.view = .priv) (hl : l < 16) (hmode : c.laneMode l = 1) (hst : c.laneState l ≠ 0) :
    ∃ d, SameLink l c d ∧ (¬c.ltxOk l v → c.hLtx m a l v = d.ltxRej l v) ∧
      (c.ltxOk l v → c.hLtx m a l v =
        if (d.ltxQueued m l (v % 2 ^ 48) (64 * (v / 2 ^ 48 % 64))).laneSends l then
          (d.ltxQueued m l (v % 2 ^ 48) (64 * (v / 2 ^ 48 % 64))).sendPacket l 2 (d.lane l).txSeq
            (m.read (v % 2 ^ 48) (64 * (v / 2 ^ 48 % 64)))
        else d.ltxQueued m l (v % 2 ^ 48) (64 * (v / 2 ^ 48 % 64))) := by
  have hlink : SameLink l c (c.clearF (aLane l + 0x20) 54 1 (v / 2 ^ 54)) := .clearF
  refine ⟨_, hlink, ?_⟩
  have hgo : (!isPriv a || decide ((c.clearF (aLane l + 0x20) 54 1 (v / 2 ^ 54)).laneMode l ≠ 1) ||
      decide ((c.clearF (aLane l + 0x20) 54 1 (v / 2 ^ 54)).laneState l = 0)) = false := by
    rw [hlink.same.mode, hlink.same.state, hmode, isPriv_of_view ha, decide_eq_false hst]
    rfl
  unfold Core.hLtx
  rw [if_neg (by omega)]
  extract_lets d addr n x bytes y e
  rw [if_neg (ne_true_of_eq_false hgo), ← hlink.ltxOk_iff]
  have hok : (decide (n = 0) || decide (32 < n) || decide (addr % 64 ≠ 0) || decide (64 ≤ x.unacked.length) || decide (addr < lpmBase) ||
      !d.mapped true addr (64 * n)) = true ↔ ¬d.ltxOk l v := by
    unfold Core.ltxOk
    simp only [Bool.or_eq_true, decide_eq_true_eq, Bool.not_eq_true']
    show _ ↔ ¬(1 ≤ n ∧ n ≤ 32 ∧ addr % 64 = 0 ∧ x.unacked.length < 64 ∧ lpmBase ≤ addr ∧ d.mapped true addr (64 * n) = true)
    cases d.mapped true addr (64 * n)
    · simp
    · simp; omega
  exact ⟨fun h => if_pos (hok.mpr h), fun h => if_neg fun h' => hok.mp h' h⟩

theorem Core.lanes_ltxRej : (c.ltxRej l v).lanes = c.lanes := by
  unfold Core.ltxRej
  rw [Core.reject_lanes, Core.raiseF_lanes]

theorem Core.getB_ltxRej (hl : l < 16) : (c.ltxRej l v).getB (aLane l + 0x20) 54 = true := by
  have hlog : ¬LogTouches pPass (aLane l + 0x20) := by
    unfold LogTouches aLane
    omega
  unfold Core.ltxRej Core.reject
  rw [Core.getB_of_rd (Core.rd_logErr_ne _ _ _ _ _ _ hlog)]
  exact Core.getB_raiseF_self _ _ _ (by decide)

theorem Core.ltxQueued_spec {x : Nat} (hx : lpmBase ≤ x) (hl : l < 16) :
    SameLane l c (c.ltxQueued m l x n) ∧ (c.ltxQueued m l x n).lane l = c.linkQueued l (m.read x n) ∧ (c.ltxQueued m l x n).out = c.out := by
  unfold Core.ltxQueued
  generalize hd : c.setLane l (c.linkQueued l (m.read x n)) = d
  have hread : Changes [.regs, .cyc, .notices, .errSeq] d ((d.readUe m x n).lpmMoved 1 x n) := (changes_readUe.trans changes_lpmMoved).mono rfl
  have hrd (b : Nat) (hb : b ∈ laneRegs l) : ((d.readUe m x n).lpmMoved 1 x n).rd b = d.rd b := by
    have hout : b < pLpm ∨ pLpm + 0x1000 ≤ b := by
      simp only [laneRegs, List.mem_cons, List.not_mem_nil, or_false] at hb
      unfold aLaneStat aLane pFlt pPass at hb
      unfold pLpm
      omega
    unfold Core.lpmMoved
    rw [if_pos hx, Core.rd_bumpBy_ne _ _ (by omega), Core.rd_readUe_lpm hx hout]
  refine ⟨(SameLane.of_regs (by rw [← hd]; rfl)).trans (.of_rd hrd), (Core.lane_congr (hread .lanes (by decide)) l).trans ?_, ?_⟩
  · rw [← hd, Core.lane_setLane]
  · exact (hread .out (by decide)).trans (by rw [← hd]; rfl)

/-- A well-formed command queues its packet, which leaves at once where the lane sends. -/
theorem Core.hLtx_queues (ha : a.view = .priv) (hl : l < 16) (hmode : c.laneMode l = 1) (hst : c.laneState l ≠ 0) (hok : c.ltxOk l v) :
    ((c.hLtx m a l v).lane l).unacked = (c.lane l).unacked ++
      [⟨(c.lane l).txSeq, m.read (v % 2 ^ 48) (64 * (v / 2 ^ 48 % 64)), c.laneSends l⟩] ∧
    ((c.hLtx m a l v).lane l).txSeq = ((c.lane l).txSeq + 1) % 256 ∧
    (c.laneSends l = true → (c.hLtx m a l v).out =
      c.out ++ [.lane l (packetSymbols 2 (c.lane l).txSeq (m.read (v % 2 ^ 48) (64 * (v / 2 ^ 48 % 64))))]) := by
  obtain ⟨d, hlink, -, hqueue⟩ := Core.hLtx_eq (m := m) (v := v) ha hl hmode hst
  obtain ⟨-, -, -, -, hbase, -⟩ := id hok
  obtain ⟨hsame, hlane, hout⟩ := Core.ltxQueued_spec (c := d) (m := m) (n := 64 * (v / 2 ^ 48 % 64)) hbase hl
  have hx : d.lane l = c.lane l := Core.lane_congr hlink.lanes l
  have hsends : d.laneSends l = c.laneSends l := hlink.same.sends
  rw [hqueue hok, hsame.sends, hsends]
  have hlane' : ((if c.laneSends l then (d.ltxQueued m l (v % 2 ^ 48) (64 * (v / 2 ^ 48 % 64))).sendPacket l 2 (d.lane l).txSeq
      (m.read (v % 2 ^ 48) (64 * (v / 2 ^ 48 % 64))) else d.ltxQueued m l (v % 2 ^ 48) (64 * (v / 2 ^ 48 % 64))).lane l) =
      d.linkQueued l (m.read (v % 2 ^ 48) (64 * (v / 2 ^ 48 % 64))) := by
    split
    · rw [Core.lane_sendPacket, hlane]
    · exact hlane
  rw [hlane']
  refine ⟨?_, ?_, fun hsend => ?_⟩
  · rw [← hsends, ← hx]
    rfl
  · rw [← hx]
    rfl
  · rw [if_pos hsend, Core.sendPacket_out, hout, hlink.out, hx]

theorem Core.hLtx_rejects (ha : a.view = .priv) (hl : l < 16) (hmode : c.laneMode l = 1) (hst : c.laneState l ≠ 0) (hbad : ¬c.ltxOk l v) :
    (c.hLtx m a l v).lanes = c.lanes ∧ (c.hLtx m a l v).getB (aLane l + 0x20) 54 = true := by
  obtain ⟨d, hlink, hrej, -⟩ := Core.hLtx_eq (m := m) (v := v) ha hl hmode hst
  rw [hrej hbad]
  exact ⟨Core.lanes_ltxRej.trans hlink.lanes, Core.getB_ltxRej hl⟩

/-! ### Resending -/

/-- Packets that are sent again leave in order, each counted. -/
theorem Core.foldl_resend (l : Nat) (ps : List LinkPkt) (c : Core) :
    (ps.foldl (fun c p => let d := c.sendPacket l 2 p.seq p.data; if p.sent then d.bump (aLane l + 0x48) else d) c).out =
      c.out ++ ps.map (fun p => .lane l (packetSymbols 2 p.seq p.data)) ∧
    Changes [.regs, .out] c (ps.foldl (fun c p => let d := c.sendPacket l 2 p.seq p.data; if p.sent then d.bump (aLane l + 0x48) else d) c) := by
  induction ps generalizing c with
  | nil => exact ⟨(List.append_nil _).symm, .refl⟩
  | cons p ps ih =>
    have hone : (if p.sent then (c.sendPacket l 2 p.seq p.data).bump (aLane l + 0x48) else c.sendPacket l 2 p.seq p.data).out =
        c.out ++ [.lane l (packetSymbols 2 p.seq p.data)] := by
      split
      · rw [Core.bump_out, Core.sendPacket_out]
      · exact Core.sendPacket_out ..
    have hch : Changes [.regs, .out] c
        (if p.sent then (c.sendPacket l 2 p.seq p.data).bump (aLane l + 0x48) else c.sendPacket l 2 p.seq p.data) :=
      .ite ((changes_sendPacket.trans changes_bump).mono rfl) changes_sendPacket
    obtain ⟨hout, hrest⟩ := ih (if p.sent then (c.sendPacket l 2 p.seq p.data).bump (aLane l + 0x48) else c.sendPacket l 2 p.seq p.data)
    refine ⟨hout.trans ?_, (hch.trans hrest).mono rfl⟩
    rw [hone, List.map_cons, List.append_assoc]
    rfl

theorem Core.linkTimeout_due (hl : l < 16) (hmode : c.laneMode l = 1) (hwait : (c.lane l).unacked ≠ [])
    (hdue : (c.lane l).since + nsN 2000 ≤ c.now) : c.linkTimeout l = c.resend l := by
  unfold Core.linkTimeout
  exact if_neg (by simp [hmode, hwait, hdue]; omega)

/-- All that waits is sent again. -/
theorem Core.resend_sends (hsends : c.laneSends l = true) (hwait : (c.lane l).unacked ≠ []) (hfew : (c.lane l).resends < 16) :
    (c.resend l).out = c.out ++ (c.lane l).unacked.map (fun p => .lane l (packetSymbols 2 p.seq p.data)) ∧
    ((c.resend l).lane l).resends = (c.lane l).resends + 1 ∧
    ((c.resend l).lane l).unacked = (c.lane l).unacked.map fun p => { p with sent := true } := by
  unfold Core.resend
  extract_lets x n d e
  obtain ⟨hout, hch⟩ := Core.foldl_resend l x.unacked e
  have hlane : e.lane l = { x with resends := x.resends + 1, since := c.now, unacked := x.unacked.map fun p => { p with sent := true } } :=
    Core.lane_setLane _
  rw [if_neg (by simp [x, hwait, hsends]), if_neg (Nat.not_le.mpr hfew)]
  have hkeep := Core.lane_congr (hch .lanes (by decide)) l
  refine ⟨hout, ?_, ?_⟩
  · rw [hkeep, hlane]
  · rw [hkeep, hlane]

/-- After 16 resends in a row what waits is discarded, and the lane hunts. -/
theorem Core.resend_discards (hsends : c.laneSends l = true) (hwait : (c.lane l).unacked ≠ []) (hmany : 16 ≤ (c.lane l).resends) :
    (c.resend l).out = c.out ∧ ((c.resend l).lane l).unacked = [] ∧ (c.resend l).laneState l = 1 := by
  unfold Core.resend
  extract_lets x n d e
  rw [if_neg (by simp [x, hwait, hsends]), if_pos hmany]
  have hch : Changes [.regs, .cyc, .notices, .errSeq, .sep] d (((d.bumpBy (aLane l + 0x50) n).logErr pPass clsD 0x07 0 l n).toHunt l) :=
    ((changes_bumpBy.trans changes_logErr).trans changes_toHunt).mono rfl
  refine ⟨hch .out (by decide), ?_, Core.laneState_toHunt⟩
  rw [Core.lane_congr (hch .lanes (by decide)), show d = c.setLane l { x with unacked := [], resends := 0 } from rfl, Core.lane_setLane]

/-! ### Stream transmission -/

/-- The first result in device order leaves once its iteration has committed (R366). -/
theorem Core.streamTransmit_sends {r : LaneRes} (hl : l < 16) (hsends : c.laneSends l = true) (hmode : c.laneMode l = 0)
    (hleast : leastBy (fun (a b : LaneRes) => lexLe a.order b.order) (c.lane l).txq = some r)
    (hfate : c.fateOf r.rgn r.tag r.set = .committed) :
    c.streamTransmit l = (c.setLane l { c.lane l with txq := (c.lane l).txq.erase r }).sendPacket l 1 0 (ofPayload r.payload) := by
  unfold Core.streamTransmit
  extract_lets x
  rw [show leastBy (fun (a b : LaneRes) => lexLe a.order b.order) x.txq = some r from hleast]
  exact if_neg (by simp [hsends, hmode, hfate]; omega)

/-! ### The statements -/

theorem lanesComeUp : Stated.LanesComeUp := by
  refine ⟨fun s a l v ha hl => ?_, fun s l hl => ⟨fun hst => ?_, fun hst => ?_⟩, fun s l rx hl hst hviol hlen hcheck => ?_⟩
  · rw [runs_iff (d := s.core.hPassCfg a l v.toNat) rfl]
    exact Core.hPassCfg_spec ha hl
  · rw [runs_iff (d := s.core.laneLocked l) rfl]
    exact Core.laneLocked_spec hl hst
  · rw [runs_iff (d := s.core.laneLockLoss l) rfl]
    exact Core.laneLockLoss_spec hl hst
  · obtain ⟨d, hsame, hadverts, hrd, hset⟩ := Core.versionSet_sync hl hst hviol hlen hcheck
    intro adv common
    rw [runs_iff (d := s.core.versionSet l rx) rfl, runs_iff (d := s.core.versionSet l rx) rfl, hset]
    refine ⟨fun hsame' htwo => ?_, fun hother => ?_⟩
    · have hseen : (s.core.lane l).seen (advertOf rx.chars) = (s.core.lane l).adverts ++ [adv] := if_pos hsame'
      rw [hseen, if_pos (by rw [List.length_append]; exact Nat.succ_le_succ htwo), Core.laneState_decideLane, Core.getF_of_rd hrd, hsame.mode]
      rfl
    · have hseen : (s.core.lane l).seen (advertOf rx.chars) = [adv] := if_neg hother
      rw [hseen] at hadverts
      rw [hseen, if_neg (by rw [List.length_singleton]; decide)]
      exact ⟨hsame.state.trans hst, hadverts⟩

theorem packetsPass : Stated.PacketsPass := by
  refine ⟨fun s l phi chars bad viol ended hl hst => ?_, fun s l f hl hfind hend => ?_,
    fun s l rx i hl hst hmode hviol hlen hcheck hnak hi => ?_, fun s a l v ha hl hmode hst => ?_,
    fun s l hl hmode hsends => ?_, fun s l r hl hsends hmode hleast hfate => ?_⟩
  · intro t hover
    rw [runs_iff (d := s.core.packetStart l phi chars bad viol ended) rfl]
    exact Core.packetStart_spec hl hst rfl hover
  · intro good pay next
    rw [runsDev_devStep (f := fun m c => packetVerdict m c l) rfl, runsDev_devStep (f := fun m c => packetVerdict m c l) rfl]
    exact ⟨fun hcls => packetVerdict_stream hl hfind hend hcls rfl, fun hcls hmode => packetVerdict_link hl hfind hend hcls hmode rfl⟩
  · obtain ⟨-, hlane, -⟩ := Core.heard_spec (c := s.core) rx.viol (bit (fld rx.chars 0 1) 0) hl
    rw [runs_iff (d := s.core.idleSet l rx) rfl, Core.idleSet_link hl hst hmode hviol hlen hcheck hnak,
      Core.linkAck_frees (i := i) (by rw [hlane]; exact hi), hlane]
    exact ⟨rfl, rfl, rfl⟩
  · intro x addr n ok
    rw [runs_iff (d := s.core.hLtx s.mem a l v.toNat) rfl, runs_iff (d := s.core.hLtx s.mem a l v.toNat) rfl]
    exact ⟨Core.hLtx_queues ha hl hmode hst, Core.hLtx_rejects ha hl hmode hst⟩
  · intro x hwait hdue
    rw [runs_iff (d := s.core.linkTimeout l) rfl, runs_iff (d := s.core.linkTimeout l) rfl, Core.linkTimeout_due hl hmode hwait hdue]
    exact ⟨Core.resend_sends hsends hwait, Core.resend_discards hsends hwait⟩
  · rw [runs_iff (d := s.core.streamTransmit l) rfl, Core.streamTransmit_sends hl hsends hmode hleast hfate]
    exact ⟨Core.sendPacket_out .., by rw [Core.lane_sendPacket, Core.lane_setLane]⟩

end Sys2Proof.Machine

open Sys2Proof Sys2Proof.Machine

/-- Settles O40: a lane's steps change its own entry and its status, and a packet leaves by `sendPacket` alone. -/
theorem lanesAndPackets : Obligations.LanesAndPackets := ⟨lanesComeUp, packetsPass⟩

end
